-- ==== Sys2Proof/Word.lean ====
section
/-!
DEFINITION. The word types of the NZ4120 model and their plainest arithmetic (00_scope.md, R6 and R7: fields are
little-endian, bit 0 is the least significant bit).
-/

namespace Sys2Proof

/-- One byte. -/
abbrev Byte := BitVec 8
/-- A half word of 16 bits. -/
abbrev W16 := BitVec 16
/-- A word of 32 bits: an operand word, a patch value, an index. -/
abbrev W32 := BitVec 32
/-- A word of 64 bits: a register, a count, an address. -/
abbrev W64 := BitVec 64
/-- A word of 128 bits: an op word (R84) or a W128 code (R156). -/
abbrev W128 := BitVec 128
/-- A string of bytes in ascending address order. -/
abbrev Bytes := List Byte

/-- Bits [hi:lo] of a natural number read as a field (R7). -/
def fieldNat (n hi lo : Nat) : Nat := n / 2 ^ lo % 2 ^ (hi + 1 - lo)

/-- Bit `i` of a natural number (R7). -/
def bitNat (n i : Nat) : Bool := n / 2 ^ i % 2 == 1

/-- A truth value as the natural number 0 or 1. -/
def natOfBool (b : Bool) : Nat := if b then 1 else 0

/-- A count that stops at its largest value `2^w − 1`, as the spec's saturating counters do. -/
def satNat (w n : Nat) : Nat := min n (2 ^ w - 1)

end Sys2Proof
end

