-- ==== Sys2Proof/Syntax.lean ====
section
/-!
DEFINITION. The commands of the NZ4120: one constructor of `Instr` for each row of spec/opcode_table.json, in the
table's order within each family, with the operands the chapters give it. A quantity the spec leaves to the world
outside the package (a sensor reading, an analogue estimate, bytes read from host memory or from a link) is an
operand of the command that brings it in.
-/

namespace Sys2Proof

/-- A virtual movement 0 to 63 (R76). -/
abbrev VMove := Fin 64
/-- A physical movement 0 to 63 (R27). -/
abbrev Mv := Fin 64
/-- A function 0 to 255 (R366). -/
abbrev Fn := Fin 256
/-- A package port 0 to 19 (R18). -/
abbrev Port := Fin 20
/-- An analogue weight die 0 to 3 (R16). -/
abbrev AwDie := Fin 4
/-- A memory stack 0 to 7 (R16). -/
abbrev Stack := Fin 8

/-- An address operand (R86): a literal in bits [28:0], or an address generator 0 to 3. -/
inductive AddrOp where
  | lit (a : BitVec 29)
  | gen (g : Fin 4)
deriving DecidableEq, Repr

/-- An accumulator-row operand (R182): a literal row, or an address generator. -/
inductive AccOp where
  | row (r : BitVec 10)
  | gen (g : Fin 4)
deriving DecidableEq, Repr

/-- A flow-buffer operand (R82): a literal 24-bit address, or an address generator. -/
inductive FlowOp where
  | lit (a : BitVec 24)
  | gen (g : Fin 4)
deriving DecidableEq, Repr

/-- The operand form of a vector function of two operands (R202). -/
inductive VForm where
  /-- Form 0b00: strap B in OW2. -/
  | straps (d a b : AddrOp)
  /-- Form 0b01: an immediate in OW2. -/
  | imm (d a : AddrOp) (i : W32)
  /-- Form 0b10: B is the constant T, OW2 reserved. -/
  | const (d a : AddrOp)
deriving DecidableEq, Repr

/-- The operand form of AFFINE and EXPS (R203): forms 0b00 and 0b01 only. -/
inductive VForm2 where
  | straps (d a b : AddrOp)
  | imm (d a : AddrOp) (i : W32)
deriving DecidableEq, Repr

/-- The accumulating control of a sum reduction (R208): tally, start bit, anchor. -/
structure SumCtl where
  tally  : Fin 16
  start  : Bool
  anchor : BitVec 10
deriving DecidableEq, Repr

/-- The control of an extreme reduction (R208). -/
structure ExtCtl where
  tally : Fin 16
  start : Bool
deriving DecidableEq, Repr

/-- What a read of host memory gave (R355): the bytes, or the detail of the host error. -/
inductive HostData where
  | ok (b : Bytes)
  /-- Unsupported Request or Completer Abort (0x1201). -/
  | urca
  /-- Poisoned data (0x1202). -/
  | poison
  /-- Completion timeout (0x1203). -/
  | timeout
deriving DecidableEq, Repr

/-- One 16-byte control unit as received (R405): three words and the CRC word. -/
structure CtrlUnit where
  w0  : W32
  w1  : W32
  w2  : W32
  crc : W32
deriving DecidableEq, Repr

/-- One 16-byte end-to-end unit as received (R454). -/
structure E2EUnit where
  w0 : W32
  w1 : W32
  w2 : W32
  w3 : W32
deriving DecidableEq, Repr

/-- A data unit of a stack whose cells have failed since the last such command (R282, R293): the erroneous symbols, each with
its codeword and the cell of its first bit among the 2,048 of the unit's two rows; and, where the pattern lies outside what the
decoder corrects or surely detects and it miscorrects, the data it then delivers. -/
structure UnitUpset where
  stack   : Stack
  unit    : BitVec 29
  symbols : List (Fin 4 × Fin 2048)
  wrong   : Option Bytes
deriving DecidableEq, Repr

/-- What has befallen a matrix array's storage in a balance period (R192, R196): a 64-bit word of its accumulator store, of
a tile buffer or of its scale registers, uncorrectable or with the one failing bit; or a weight that a processing element
holds wrong. -/
inductive Upset where
  | acc (row : Fin 1024) (word : Fin 512) (bit : Option (Fin 64))
  | tile (buf : Bool) (word : Fin 8192) (bit : Option (Fin 64))
  | scale (buf : Bool) (word : Fin 512) (bit : Option (Fin 64))
  | weight (buf : Bool) (byte : Fin 65536) (value : Byte)
deriving DecidableEq, Repr

/-- The regulator's measurements of one 20 ns interval (R50): package power in mW, CD core rail current in mA and its
change against the interval before, in mA, each at the rate that stands; and whether some rail is above its maximum
current for 10 µs, with the die it supplies (R551). -/
structure PowerReading where
  packageMw : Nat
  coreMa    : Nat
  deltaMa   : Int
  overRail  : Option (Fin 16)
deriving DecidableEq, Repr

/-- One analogue estimate: the column-plane of a physical pane (group, position, column) and the analogue sum in
sixty-fourths of a unit (R230, R231). A column-plane not listed reads its exact sum. -/
structure PaneEst where
  group : Fin 2048
  pos   : Fin 68
  col   : Fin 256
  est64 : Int
deriving DecidableEq, Repr

/-- A column-plane that the shell's own generator selects for audit in a pass (R235). -/
structure AuditPick where
  group : Fin 2048
  pos   : Fin 68
  col   : Fin 256
deriving DecidableEq, Repr

/-- The readings of one maintenance pass (R262, R263): of the reference columns, the 32 sums in sixty-fourths of a unit and the
trim-curve points; of a pane check, the test vector of the shell's own generator (bit `i` of its bytes drives input row `i`),
the estimates in sixty-fourths of a unit of the columns whose estimate is not their exact sum, and the gain and offset
correction. -/
structure MaintReading where
  sums   : List Int
  curve  : List Int
  vector : Bytes
  ests   : List (Fin 256 × Int)
  gain   : Int
  offset : Int
deriving DecidableEq, Repr

/-- A shadow-store word that has failed since the last such command: logical pane, input row, word, and whether its ECC is
uncorrectable (R224, R238, R275). -/
structure ShadowUpset where
  pane : BitVec 17
  row  : Fin 512
  word : Fin 16
  bad  : Bool
deriving DecidableEq, Repr

/-- One cell reading of a self-test or of write-verify: input row, output column, polarity (true for the negative cell)
and the level read, in sixty-fourths of a level. Cells not listed read the level they should hold (R223, R256). -/
structure CellRead where
  row     : Fin 512
  col     : Fin 256
  neg     : Bool
  level64 : Nat
deriving DecidableEq, Repr

/-- A cell reading of a physical pane (R257). -/
structure PaneCell where
  group : Fin 2048
  pos   : Fin 68
  cell  : CellRead
deriving DecidableEq, Repr

/-- How a spare came out of its programming (R271, R277). -/
inductive SpareOutcome where
  | passed
  | programFailed
  | testFailed
deriving DecidableEq, Repr

/-- A power-good input: one of the groups 1 to 4, or rail 0 to 2 of an analogue die (R541, R543). -/
inductive Rail where
  | group (k : Fin 4)
  | aw (d : AwDie) (k : Fin 3)
deriving DecidableEq, Repr

/-- The junction temperatures of one thermal sample in °C, the hottest sensor of each die 0 to 14 (R552). -/
abbrev Temps := List (Fin 15 × Int)

/-- The regulator-table fields of R551, the power and thermal settings. -/
structure RegTable where
  vddCdMv    : Nat
  excPowerW  : Nat
  excUs      : Nat
  coreLimitA : Nat
  rampAPerUs : Nat
  stepA      : Nat
  throttleDigital : Nat
  throttleAnalog  : Nat
deriving DecidableEq, Repr

/-- The analogue trim table of R267. -/
structure TrimTable where
  gwMin          : List Nat
  gwMargin       : Nat
  rateFactor     : Nat
  refreshLimit   : Nat
  verifyWindow   : Nat
  maxPulses      : Nat
  settleMs       : Nat
  transientLimit : Nat
deriving DecidableEq, Repr

/-- The owner part of a table set (R510): installation authority keys, INJECT_EN default, link channel choices, its
signature and the bytes it was made over. -/
structure OwnerPart where
  authKeys  : List (Option Bytes)
  injectEn  : Bool
  channels  : List Nat
  keyDigest : Bytes
  body      : Bytes
  sig       : Bytes
deriving DecidableEq, Repr

/-- A table set of the boot flash (R510): the base part, its two signatures, and the owner part. -/
structure TableSet where
  balanceMarginPct : Nat
  reg        : RegTable
  trim       : TrimTable
  eccT       : Nat
  place      : W16
  linkEnable : List Bool
  minWidth   : List Nat
  grants     : List Nat
  laneThreshold : Nat
  hostPortSplit : List Bool
  vfCounts   : List Nat
  level      : Nat
  svn        : Nat
  commit     : Bool
  body       : Bytes
  sigMl      : Bytes
  sigEc      : Bytes
  owner      : Option OwnerPart
deriving DecidableEq, Repr

/-- The recorded inputs of a log that belong to one ACCEPT entry (R538, R540): page numbers allocated, the probe's time and
pages attached, slip counts by site, HREAD and FRECV rows, and the END entry's STATUS, FLAGS and digest. -/
structure ReplayRec where
  pages : List Nat
  probe : Option (Nat × List Nat)
  slips : List (Nat × Nat)
  hreads : List HostData
  frecvs : List Bytes
  digest : Option Bytes
  done  : Option (Nat × Nat × Bytes)
deriving DecidableEq, Repr

/-- A command of the block: one constructor per row of spec/opcode_table.json. -/
inductive Instr where
  -- beats and time (02_beats_and_time.md)
  /-- PLAN_BEAT_ISSUE (R39): the movement's next balance period. -/
  | planBeatIssue (n : Mv) (upsets : List Upset := [])
  /-- SUPPLY_DROOP (R36): the rate its replica paths now permit, in units of 10 kHz. -/
  | supplyDroop (n : Mv) (rate : Nat)
  /-- BALANCE_STOP (R42): the receiving movement and the sending neighbour of the silent channel. -/
  | balanceStop (n sender : Mv)
  /-- REGULATOR_ESTIMATE (R50). -/
  | regulatorEstimate (r : PowerReading)
  -- sequencer ops (03_plans_in_execution.md, R89)
  | nop (v : VMove)
  | idle (v : VMove) (count : W32)
  | agBase (v : VMove) (g : Fin 4) (base : W32)
  | agStride (v : VMove) (g : Fin 4) (level : Fin 6) (stride : W32)
  | nestOpen (v : VMove) (level : BitVec 3) (count period : W32)
  | wait (v : VMove) (target : W32) (queue : Fin 16) (site : W16)
  /-- WAIT_RELEASE (R45): the held wait of `v` is met. -/
  | waitRelease (v : VMove)
  /-- WAIT_LIMIT (R107). -/
  | waitLimit (v : VMove)
  | take (v : VMove) (dst : AddrOp) (queue : Fin 16) (rowsM1 : BitVec 12) (split : Option AddrOp)
  | stepEnd (v : VMove)
  /-- FETCH_REQUEST (R98) of physical movement `n`. -/
  | fetchRequest (n : Mv)
  /-- FETCH_ARRIVAL (R98): the oldest outstanding block of movement `n` arrives. -/
  | fetchArrival (n : Mv) (upsets : List UnitUpset)
  | stepLaunch
  | timedLaunch
  | chainedLaunch
  | stepArm
  | stepComplete
  -- loader (04_plan_images_and_weight_sets.md); `acc` is the acceptance number of the descriptor
  | planLoad (acc : Nat) (image : HostData)
  | planLoadDone (slot : Fin 64)
  | planUnload (acc : Nat)
  | planUnloadDone (slot : Fin 64)
  | weightLoad (acc : Nat) (manifest authority : HostData)
  | weightUnload (acc : Nat)
  /-- MANIFEST_FRAGMENT (R140): source address (none: the host), byte offset, SET field, bytes. -/
  | manifestFragment (src : Option W16) (offset : Nat) (set : W64) (data : Bytes)
  /-- CHUNK_FRAGMENT (R140). -/
  | chunkFragment (src : Option W16) (index offset : Nat) (set : W64) (data : Bytes)
  | relayRefused (src : W16) (set : W64) (detail : W16)
  | chunkRequest (src : W16) (set : W64) (index : Nat)
  -- matrix arrays (06_matrix_arrays.md, R181)
  | tileLoad (v : VMove) (src : AddrOp) (srows : W16) (buf : Bool) (bfmt : BitVec 5) (chk : Bool)
  | tileScales (v : VMove) (src : AddrOp) (buf : Bool)
  | ascaleSet (v : VMove) (addr : AddrOp)
  | stream (v : VMove) (a : AddrOp) (acc : AccOp) (rows : BitVec 11) (buf start sub : Bool) (afmt : BitVec 5)
      (anchor : BitVec 10)
  | drain (v : VMove) (dst : AddrOp) (acc : AccOp) (rows : BitVec 11) (ofmt : BitVec 5) (round : BitVec 2)
      (sat clear : Bool) (anchor : BitVec 10)
  | drainWide (v : VMove) (dst : AddrOp) (acc : AccOp) (rows : BitVec 11) (clear : Bool)
  | accLoad (v : VMove) (src : AddrOp) (acc : AccOp) (rows : BitVec 11) (add : Bool)
  | seedSet (v : VMove) (seed : W32)
  /-- ACC_BACKGROUND_SCRUB (R192): the word found, by physical movement, row and column. -/
  | accBackgroundScrub (n : Mv) (row : Fin 1024) (col : Fin 256)
  -- vector unit (07_straps_reductions_and_skivers.md, R203)
  | add (v : VMove) (f : VForm)
  | sub (v : VMove) (f : VForm)
  | mul (v : VMove) (f : VForm)
  | mad (v : VMove) (f : VForm)
  | min (v : VMove) (f : VForm)
  | max (v : VMove) (f : VForm)
  | affine (v : VMove) (f : VForm2)
  | cmpeq (v : VMove) (f : VForm)
  | cmpne (v : VMove) (f : VForm)
  | cmplt (v : VMove) (f : VForm)
  | cmple (v : VMove) (f : VForm)
  | sel (v : VMove) (f : VForm)
  | and (v : VMove) (f : VForm)
  | or (v : VMove) (f : VForm)
  | xor (v : VMove) (f : VForm)
  | shl (v : VMove) (f : VForm)
  | shr (v : VMove) (f : VForm)
  | exps (v : VMove) (f : VForm2)
  | iota (v : VMove) (d : AddrOp) (i : W32)
  | vectorCopy (v : VMove) (d a : AddrOp)
  | abs (v : VMove) (d a : AddrOp)
  | neg (v : VMove) (d a : AddrOp)
  | exp2 (v : VMove) (d a : AddrOp)
  | log2 (v : VMove) (d a : AddrOp)
  | rcp (v : VMove) (d a : AddrOp)
  | sqrt (v : VMove) (d a : AddrOp)
  | rsqrt (v : VMove) (d a : AddrOp)
  | tanh (v : VMove) (d a : AddrOp)
  | sigmoid (v : VMove) (d a : AddrOp)
  | gelu (v : VMove) (d a : AddrOp)
  | silu (v : VMove) (d a : AddrOp)
  | vset (v : VMove) (afmt bfmt ofmt : BitVec 5) (round : BitVec 2) (sat : Bool) (seed : W32) (t : Option W32)
  | vtap (v : VMove) (tapk : BitVec 3) (tally : Fin 16) (tstart : Bool) (anchor : BitVec 10) (ibase : W32)
  | tload (v : VMove) (tally : Fin 16) (fn : Bool) (anchor : BitVec 10) (mult : W32)
  | rsum (v : VMove) (a : AddrOp) (c : SumCtl)
  | rsumsq (v : VMove) (a : AddrOp) (c : SumCtl)
  | rdot (v : VMove) (a b : AddrOp) (c : SumCtl)
  | rmax (v : VMove) (a : AddrOp) (c : ExtCtl)
  | rmin (v : VMove) (a : AddrOp) (c : ExtCtl)
  | rargmax (v : VMove) (a : AddrOp) (ibase : W32) (c : ExtCtl)
  | raddw (v : VMove) (src : AddrOp) (mask : W16)
  | rstore (v : VMove) (dst : AddrOp) (mask : W16) (rounded : Bool) (ofmt : BitVec 5) (round : BitVec 2) (sat : Bool)
      (anchor : BitVec 10)
  -- skivers (R214)
  | transpose (v : VMove) (dst src : AddrOp) (srows : W16) (drows : BitVec 14) (esize : BitVec 2)
  | retile (v : VMove) (dst src : AddrOp) (rowsM1 : BitVec 8) (srows drows : BitVec 12)
  | convert (v : VMove) (dst src : AddrOp) (gM1 : BitVec 12) (ifmt ofmt : BitVec 5) (round : BitVec 2) (sat : Bool)
  | kset (v : VMove) (sscale dscale : AddrOp) (seed : W32)
  -- analogue weight dies (08_analog_weight_compute.md, R239)
  | pset (v : VMove) (first : BitVec 17) (rstr cstr : W16) (nrM1 ncM1 : BitVec 6) (grain : BitVec 2) (set : Fin 16)
      (queue : Fin 4)
  | mvm (v : VMove) (inp scale : AddrOp) (nvM1 : BitVec 6) (ofmt : BitVec 5) (round : BitVec 2) (sat : Bool)
      (anchor : BitVec 10) (set : Fin 16) (queue : Fin 4)
  | prel (v : VMove) (set : Fin 16) (queue : Fin 4)
  | psetAdmit (d : AwDie)
  | panesReady (d : AwDie) (set : Fin 16)
  /-- PASS_TICK (R230): the estimates, the audit's picks, and what has befallen the shadow store. -/
  | passTick (d : AwDie) (ests : List PaneEst) (audits : List AuditPick) (upsets : List ShadowUpset := [])
  | mvmRetire (d : AwDie) (queue : Fin 4)
  | prelRelease (d : AwDie) (queue : Fin 4)
  | awLinkFatal (d : AwDie)
  | awStepCancel (d : AwDie)
  -- upkeep of the analogue dies (09_analog_weight_upkeep.md)
  | maintenancePass (d : AwDie) (g : Fin 2048) (m : MaintReading)
  | groupRefresh (d : AwDie) (g : Fin 2048) (pos : Fin 68) (fails : Bool)
  | selftestStart (d : AwDie) (g : Fin 2048) (pos : Fin 68) (cells : List CellRead)
  | selftestSettle (d : AwDie) (g : Fin 2048) (pos : Fin 68) (cells : List CellRead)
  /-- SELFTEST_DONE (R269): whether step 3 mismatched, and where a reprogram was made, whether it and its repeat of
  steps 1 to 3 passed. -/
  | selftestDone (d : AwDie) (g : Fin 2048) (pos : Fin 68) (mismatch reprogramOk : Bool)
  /-- PANE_MAP_SWITCH (R271): the retired physical pane, and how the spare tried came out. -/
  | paneMapSwitch (d : AwDie) (g : Fin 2048) (pos : Fin 68) (spare : SpareOutcome)
  /-- SHADOW_SCRUB (R275): one word, and what has befallen the shadow store. -/
  | shadowScrub (d : AwDie) (pane : BitVec 17) (row : Fin 512) (word : Fin 16) (upsets : List ShadowUpset := [])
  /-- PULSE_VERIFY (R256): one iteration on one row of a physical pane, with the cells still outside their window. -/
  | pulseVerify (d : AwDie) (g : Fin 2048) (pos : Fin 68) (row : Fin 512) (cells : List CellRead)
  /-- INSTALL_PHASE_END (R257): for phase 4, the cells that the read-back finds off the level they should hold. -/
  | installPhaseEnd (d : AwDie) (readback : List PaneCell := [])
  | awPowerGood (d : AwDie)
  /-- AW_INIT_DONE (R278): whether the non-volatile records pass and the trim table's signature holds, and what the scrub of
  the shadow store meets. -/
  | awInitDone (d : AwDie) (recordsOk trimOk : Bool) (upsets : List ShadowUpset := [])
  | awCalibrationDone (d : AwDie)
  | awRailLost (d : AwDie)
  -- memory stacks (10_memory_stacks.md, R297)
  | read (v : VMove) (offset : W32) (region : Byte) (rowsM1 : BitVec 12) (queue : Fin 8)
  | write (v : VMove) (offset : W32) (region : Byte) (rowsM1 : BitVec 12) (src : AddrOp) (queue : Fin 8)
  | gather (v : VMove) (idx : AddrOp) (region : Byte) (countM1 : BitVec 12) (lM1 : BitVec 4) (queue : Fin 8)
  | scatter (v : VMove) (idx : AddrOp) (region : Byte) (countM1 : BitVec 12) (lM1 : BitVec 4) (data : AddrOp)
      (queue : Fin 8)
  | embed (v : VMove) (idx : AddrOp) (regionA regionB : Byte) (countM1 : BitVec 12) (lM1 : BitVec 4) (split : BitVec 28)
      (queue : Fin 8)
  | zero (v : VMove) (offset : W32) (region : Byte) (units : W32) (queue : Fin 8)
  | copy (v : VMove) (srcOff : W32) (srcRegion dstRegion : Byte) (blocksM1 : BitVec 13) (dstOff : W32) (queue : Fin 8)
  | pageAppend (v : VMove) (src : AddrOp) (rowsM1 : BitVec 12) (srow : W16) (handle : BitVec 20) (queue : Fin 8)
  | pageRead (v : VMove) (first : BitVec 24) (nposM1 : Byte) (rowsM1 : BitVec 6) (srow : BitVec 15) (handle : BitVec 20)
      (queue : Fin 8)
  /-- STACK_CMD_RETIRE (R298): the oldest unretired command of the queue of an S movement. -/
  | stackCmdRetire (v : VMove) (queue : Fin 8) (upsets : List UnitUpset := [])
  /-- PATROL_SCRUB (R295): one data unit of a stack, by stack address[36:8]. -/
  | patrolScrub (st : Stack) (unit : BitVec 29) (upsets : List UnitUpset := [])
  | stackCancel
  | seLinkFatal (st : Stack)
  | domainRetire (acc : Nat)
  | domainKeyDestroyed (dom : BitVec 13)
  -- streams, prefixes, grammars and the bridle (11_streams_prefixes_and_the_bridle.md)
  | streamOpen (acc : Nat) (params : HostData)
  | streamSet (acc : Nat) (params : HostData)
  | streamFork (acc : Nat)
  | streamClose (acc : Nat)
  | streamWriteback
  | prefixProbe (acc : Nat) (tokens : HostData)
  | prefixPublish (acc : Nat) (tokens : HostData)
  | prefixEvict (acc : Nat)
  /-- PREFIX_SWEEP (R325): the entry visited. -/
  | prefixSweep (entry : BitVec 24)
  | grammarLoad (acc : Nat) (image : HostData)
  | grammarUnload (acc : Nat)
  | bset (v : VMove) (vocabM1 : BitVec 18) (lfmt : BitVec 5)
  | select (v : VMove) (logits : AddrOp) (slot : Byte) (result : AddrOp)
  -- host rings (12_host_rings.md)
  /-- SQ_TAIL_DOORBELL (R341): function, ring, access width in bits, value. -/
  | sqTailDoorbell (f : Fn) (q : Fin 16) (width : Nat) (value : W64)
  | cqHeadDoorbell (f : Fn) (q : Fin 16) (width : Nat) (value : W64)
  /-- SHADOW_READ (R344): the 4 KiB shadow page as read. -/
  | shadowRead (f : Fn) (page : HostData)
  /-- SQ_CONTEXT_WRITE (R340): ring, word 0 or 1, byte offset within the word, width in bits, value. -/
  | sqContextWrite (f : Fn) (q : Fin 16) (word : Bool) (offset width : Nat) (value : W64)
  | cqContextWrite (f : Fn) (q : Fin 16) (word : Bool) (offset width : Nat) (value : W64)
  /-- DESCRIPTOR_FETCH (R345): the 128 bytes read at the SQ's HEAD. -/
  | descriptorFetch (data : HostData)
  | descriptorAccept
  | step (acc : Nat) (patches streams bufs : HostData)
  | nopDescriptor (acc : Nat)
  | hread (v : VMove) (buf : BitVec 6) (rowsM1 : BitVec 12) (offset : W32) (queue : Fin 4)
  | hwrite (v : VMove) (src : AddrOp) (buf : BitVec 6) (rowsM1 : BitVec 12) (offset : W32) (queue : Fin 4)
  /-- HOST_READ_COMPLETION (R355): how each row of the oldest unanswered HREAD of the queue ends. -/
  | hostReadCompletion (queue : Fin 4) (data : List HostData)
  | irqCoalesceTimeout (f : Fn) (q : Fin 16)
  | msixUnmask (f : Fn) (vec : Fin 8)
  -- functions, cadence and resets (13_functions_cadence_and_resets.md)
  | frameStart
  | windowStart
  | windowEnd
  | windowIdleEnd
  | flrStart (f : Fn)
  | flrComplete (f : Fn)
  -- link layer (14_link_layer.md)
  | slotTransmit (p : Port)
  /-- PACKET_RECEIVE (R400): the packet's bytes as received, header first (R396). -/
  | packetReceive (p : Port) (data : Bytes) (fec : List (Fin 8 × Nat × Nat) := [])
  | nakRepeat (p : Port)
  | ackTimer (p : Port)
  | ack (p : Port) (u : CtrlUnit)
  | nak (p : Port) (u : CtrlUnit)
  | replayTimeout (p : Port)
  | credit (p : Port) (u : CtrlUnit)
  | linkCreditStarved (p : Port) (pair : Fin 8)
  | heartbeatSend (p : Port)
  | heartbeat (p : Port) (u : CtrlUnit)
  | heartbeatMiss (p : Port)
  | timeReq (p : Port) (u : CtrlUnit)
  | timeRsp (p : Port) (u : CtrlUnit)
  | timeSourceTimeout
  /-- TIME_PPS_EDGE (R579): the captured offset of the edge from a whole second of the count, in ns. -/
  | timePpsEdge (offset : Int)
  | trim (p : Port) (u : CtrlUnit)
  | propose (p : Port) (u : CtrlUnit)
  | switch (p : Port) (u : CtrlUnit)
  | laneLockLoss (p : Port) (lane : Fin 8)
  | laneRestoreTimer (p : Port) (lane : Fin 8)
  | retrain (p : Port) (u : CtrlUnit)
  /-- RETRAIN_COMPLETE (R418): the lanes that relocked. -/
  | retrainComplete (p : Port) (lanes : Byte)
  | retrainTimeout (p : Port)
  | fecLockLoss (p : Port)
  | signalDetect (p : Port) (lanes : Byte)
  | trainConverge (p : Port) (lanes : Byte)
  | alignLock (p : Port)
  | trainingTimeout (p : Port)
  | param (p : Port) (u : CtrlUnit)
  | linkCtrlEnable (p : Port) (value : W32)
  | linkCtrlRetrain (p : Port) (value : W32)
  | linkCtrlCold (p : Port) (value : W32)
  -- fabric (15_fabric_routing_and_flows.md)
  /-- MGMT_REQUEST (R441): source, retry tag, request bytes. -/
  | mgmtRequest (src tag : W16) (data : Bytes)
  | fsend (v : VMove) (src : AddrOp) (flow : BitVec 14) (rowsM1 : BitVec 12) (fb : FlowOp) (queue : Fin 16)
  | frecv (v : VMove) (rowsM1 : BitVec 12) (fb : FlowOp) (queue : Fin 16)
  | frecvRetire (die : Fin 2) (queue : Fin 16)
  /-- COLLECT_COMBINE (R452): flow of the die, hop slice and row offset of a waiting row. -/
  | collectCombine (die : Fin 2) (flow : BitVec 14) (tseq : W16) (hop : Nat)
  | e2eAck (src : W16) (u : E2EUnit)
  | e2eReq (src : W16) (u : E2EUnit)
  /-- E2E_DATA (R455): a RESEND CLOSE or DATA unit with the CRC or the row that follows it. -/
  | e2eData (src : W16) (u : E2EUnit) (data : Bytes)
  | e2eTimeout (die : Fin 2) (flow : BitVec 14) (tseq : W16)
  -- running as many (16_running_as_many.md)
  | fenceLimit
  | abort (p : Port) (u : CtrlUnit)
  | dyingGasp (p : Port) (u : CtrlUnit)
  | memberItem (p : Port) (u : CtrlUnit)
  | gatherEnd
  | seal (p : Port) (u : CtrlUnit)
  | memberCommit
  | memberLevel (p : Port) (u : CtrlUnit)
  | halfOut (p : Port) (u : CtrlUnit)
  | twinPacket (data : Bytes)
  | twinTimeout
  | gridResume (epoch : W32)
  | gridWithdraw
  | faultInject (acc : Nat)
  | linkDrop
  | linkDropEnd (p : Port)
  | poison
  | vacancy
  | audit
  -- tenancy and trust (17_tenancy_and_trust.md)
  | tenancyOpen (acc : Nat) (keys groups : HostData)
  | tenancyClose (acc : Nat)
  | tenancyScrub
  | tenancyCloseDone
  | getVersion (req : Bytes)
  | getCapabilities (req : Bytes)
  | negotiateAlgorithms (req : Bytes)
  | getDigests (req : Bytes)
  | getCertificate (req : Bytes)
  | challenge (req : Bytes)
  | getMeasurements (req : Bytes)
  | chunkSend (req : Bytes)
  | chunkGet (req : Bytes)
  | pldmTableUpdate (t : TableSet)
  /-- OWNERSHIP_CLAIM (R513): the new owner key's digest, the claim's signature, the new table set. -/
  | ownershipClaim (digest sig : Bytes) (t : TableSet)
  -- observation (18_observation.md)
  | evringWrite
  | evringIrqTimeout
  | evringCtrlWrite (offset width : Nat) (value : W64)
  | dropSummary (path : Fin 3)
  /-- ALARM_LATCH_CLEAR (R524): byte offset in the bitmap, width in bits, value. -/
  | alarmLatchClear (offset width : Nat) (value : W64)
  | obsSnapshot (value : W64)
  | stopRequest
  | stopReached
  | stopResume
  | jtagStop
  | scanout (loc : W64) (offset units : W32)
  | scanRequest (loc : W64) (offset units : W32)
  | jtagReset
  | extest (bits : List Bool)
  | idcode
  | samplePreload (bits : List Bool)
  | bypass (bits : List Bool)
  /-- REPLAY_ACCEPT (R540): the next ACCEPT entry of the log: function, SQ and descriptor, with the recorded inputs. -/
  | replayAccept (f : Fn) (sq : Fin 16) (desc : Bytes) (r : ReplayRec)
  -- power, reset and bring-up (19_power_reset_and_bringup.md)
  | porRelease
  | resetN (lowNs : Nat)
  | devReset (value : W32)
  | pkgLimit (value : W32)
  /-- HOST_LINK_RESET (R544): link 0a, 0b, 1a or 1b. -/
  | hostLinkReset (link : Fin 4)
  /-- BOOT_STAGE_END (R547): the stage that ends (STACKS told from CORE by the flag) and whether its work passed. -/
  | bootStageEnd (stage : Fin 6) (ok : Bool) (stack : Fin 8 := 0)
  | pwrGood (r : Rail)
  | railEnableDelay (r : Rail)
  | powerGoodTimeout (r : Rail)
  | thermalSample (t : Temps)
  | thermalLimit
  | pwrFailN
  | refClkMissing
  | refClkLost
  -- set-up registers and live tables (20_setup_registers_and_live_tables.md)
  | timeSet (offset width : Nat) (value : W64)
  | timeCtrlWrite (value : W64)
  | tableCommit (value : W64)
  | apertureWrite (offset width : Nat) (value : W64)
  | unprescribedWrite (offset width : Nat) (value : W64)
  | dropCounterRead (offset width : Nat)
  | memberStatusRead (width : Nat)
  | funcStatusRead (f : Fn) (offset width : Nat)
  /-- MCTP_REGISTER_ACCESS (R558): a read or a write of the global block by the management path. -/
  | mctpRegisterAccess (write : Bool) (offset width : Nat) (value : W64)
  /-- REGISTER_WRITE (R8): function, BAR2 when true and BAR0 otherwise, byte offset, width in bits, value. -/
  | registerWrite (f : Fn) (bar2 : Bool) (offset width : Nat) (value : W64)
  | hwriteRetire (queue : Fin 4)
  /-- ERROR_BOUND_EXCEEDED (R63): the estimated error bound in ns. -/
  | errorBoundExceeded (bound : Nat)
  | refClkReturn
  | pldmReset
  | powerGoodFall (r : Rail)
  | vddAonLow
  | railDisableDelay
  | commitCopyDone (table : Byte)
  /-- REPLICA_UPDATE_DONE (R566): table and entry index. -/
  | replicaUpdateDone (table : Byte) (entry : Nat)
  | mctpRecordPush
  | observationFrameSend
deriving DecidableEq, Repr

end Sys2Proof
end

