-- ==== Sys2Proof/WellFormed.lean ====
section
/-!
DEFINITION. When a command's operands are such as the block can meet: the ranges that the operand types do not already
give. A term that fails a check is no event of the part.
-/

namespace Sys2Proof

/-- An access of the host or the management path: 8, 16, 32 or 64 bits wide (R557). -/
def widthOk (w : Nat) : Bool := w == 8 || w == 16 || w == 32 || w == 64

/-- A DMA read that gave data of at most `n` bytes, or an error (R355). -/
def HostData.wf (n : Nat) : HostData → Bool
  | .ok b => b.length ≤ n
  | _ => true

/-- A packet as a port receives it: header and at most 63 units of payload (R396, LEN is 6 bits). -/
def packetOk (b : Bytes) : Bool := 16 ≤ b.length && b.length ≤ 16 + 63 * 16 && b.length % 16 == 0

/-- Operand checks of the commands (R341, R345, R351, R396, R490, R557, R582). -/
def Instr.wf : Instr → Bool
  | .sqTailDoorbell _ _ w _ => widthOk w
  | .cqHeadDoorbell _ _ w _ => widthOk w
  | .sqContextWrite _ _ _ o w _ => widthOk w && decide (o < 8)
  | .cqContextWrite _ _ _ o w _ => widthOk w && decide (o < 8)
  | .registerWrite _ b2 o w _ => widthOk w && decide (o < if b2 then 0x200000 else 0x10000)
  | .unprescribedWrite o w _ => widthOk w && decide (o < 0x100000)
  | .apertureWrite o w _ => widthOk w && decide (o < 0x100000)
  | .evringCtrlWrite o w _ => widthOk w && decide (o < 8)
  | .timeSet o w _ => widthOk w && decide (o < 8)
  | .alarmLatchClear o w _ => widthOk w && decide (o < 32)
  | .dropCounterRead o w => widthOk w && decide (o < 960)
  | .memberStatusRead w => widthOk w
  | .funcStatusRead _ o w => widthOk w && decide (o < 8)
  | .mctpRegisterAccess _ o w _ => widthOk w && decide (o < 0x100000)
  | .packetReceive _ b _ => packetOk b
  | .descriptorFetch d => d.wf 128
  | .shadowRead _ d => d.wf 4096
  | .extest b => decide (b.length = 62)
  | .samplePreload b => decide (b.length = 62)
  | .replayAccept _ _ d _ => decide (d.length = 128)
  | .replicaUpdateDone t _ => decide (1 ≤ t.toNat ∧ t.toNat ≤ 9)
  | .commitCopyDone t => decide (1 ≤ t.toNat ∧ t.toNat ≤ 9)
  | _ => true

end Sys2Proof
end

