-- ==== Sys2Proof/Config.lean ====
section
/-!
DEFINITION. What an implementation of the NZ4120 fixes and what the spec leaves open: the published algorithms the
spec names but does not write out (R14), the secrets of the part (R500), and the free values. Every constant here is
opaque: no proof can see a value of it.
-/

namespace Sys2Proof.Config

/-- Byte `a` of the unspecified content number `n` (R110). -/
opaque freeByte : Nat → Nat → Byte
/-- Word `a` of the unspecified accumulator content number `n` (R110). -/
opaque freeAcc : Nat → Nat → W128
/-- The free choice number `n` (R566: which of old, torn and new a lookup sees; R235: a generator's pick). -/
opaque freeNat : Nat → Nat
/-- Whether a byte of an element named for scan-out is control state, whose layout is not given (R536). -/
opaque scanControl : Nat → Nat → Bool

/-- Payload of the token of beat `b` on channel `c` of step `k`, none for an empty token (R38 does not say what a data token
carries). -/
opaque tokenData (k c b : Nat) : Option Bytes

/-- Rank of period `q` of each 16 in the pattern that issues `m` of them (R51: a fixed pattern, not given). -/
opaque edgeRank : Nat → Nat → Nat

/-- SHA-384 (FIPS 180-4, R14): 48 bytes. -/
opaque sha384 : Bytes → Bytes
/-- Signature verification over a SHA-384 digest (R118): algorithm 1 ML-DSA-87 or 2 ECDSA P-384, key, digest, signature. -/
opaque verify : Nat → Bytes → Bytes → Bytes → Bool
/-- Signature by a key of the device (R500, R506, R508): algorithm, key name, digest. -/
opaque sign : Nat → Nat → Bytes → Bytes
/-- AES-256-GCM decryption (R136, R492): key, IV, associated data, ciphertext, tag. -/
opaque gcmOpen : Bytes → Bytes → Bytes → Bytes → Bytes → Option Bytes
/-- ML-KEM-1024 decapsulation under the device KEM key (R492). -/
opaque kemDecap : Bytes → Option Bytes
/-- KMAC128 under the prefix key of a domain's key number (R322): 128 bits. -/
opaque kmac : Nat → Bytes → W128
/-- DEVICE_ID (R501): 48 bytes. -/
opaque deviceId : Bytes
/-- The certificate chain of slot 0 (R508), as a function of TABLE_DIGEST and OWNER_DIGEST. -/
opaque certChain : Bytes → Bytes → Bytes
/-- Random bytes of the security block for the responder's nonces (R508), by free-value number. -/
opaque nonce : Nat → Bytes
/-- CTExponent, DataTransferSize and MaxSPDMmsgSize of the responder's CAPABILITIES (R508 gives no value). -/
opaque spdmLimits : Nat × Nat × Nat
/-- Felrum's PCI vendor identifier, as its MCTP messages carry it (R521 gives no value). -/
opaque pciVendor : Nat
/-- Digests of the Felrum root public keys: 1 ML-DSA-87, 2 ECDSA P-384 (R509). -/
opaque rootKey : Nat → Bytes

end Sys2Proof.Config
end

