-- ==== Sys2Proof/Machine/State.lean ====
section
/-!
DEFINITION. The state of the NZ4120 as plain data. Every field says its width, the rule that names it and, after
`reset`, its reset value; a structure's default field values are those reset values, so `{}` is the reset of each part.
A sparse table lists only the entries that differ from what an unlisted key reads as.
-/

namespace Sys2Proof.Machine

/-- A sparse table: keys strictly rising, no entry equal to what an unlisted key reads as. -/
abbrev Tbl (α : Type) := List (Nat × α)

/-- Sparse bytes of a memory by byte offset, in the same canonical form. -/
abbrev Mem := Tbl Byte

/-- Why the machine stops with a fault. No meaning of this model ends in a fault; the type is closed. -/
inductive Fault where
  /-- Raised by nothing: the block answers every command with an effect or leaves its state as it was. Safe. -/
  | unused
deriving DecidableEq, Repr

/-- Why a command has no meaning. -/
inductive Refusal where
  /-- The command has no meaning in the model yet; raised by its dispatch arm only. Safe. -/
  | notModelled (mnemonic : String)
deriving DecidableEq, Repr

/-! ### Fuses and boot tables -/

/-- Where the package fuses stand (R1, R29, R194, R366, R510, R511). -/
structure Fuses where
  /-- GRADE, 4 bits; R1, R2; reset 1 (AX). -/
  grade : Nat := 1
  /-- STEPPING, 4 bits; R560; reset 1 (G1). -/
  stepping : Nat := 1
  /-- ENGINE_MASK, 64 bits; R29; reset all ones (AX). -/
  engineMask : W64 := 0xFFFF_FFFF_FFFF_FFFF
  /-- array fuse records, 192 entries of 16 bits by 16 × array + entry; R31, R194; reset 0 (unused). -/
  arrays : Tbl W16 := []
  /-- DEVICE_ID, 48 bytes; R501; reset the opaque constant Config.deviceId. -/
  deviceId : Bytes := Config.deviceId
  /-- fused SVN, 0 to 64; R511; reset 0. -/
  svn : Nat := 0
  /-- digest of the owner key, 48 bytes, none while unclaimed; R513; reset none. -/
  ownerDigest : Option Bytes := none
  /-- owner claims made, of the claim slots; R513; reset 0. -/
  claims : Nat := 0
deriving DecidableEq, Repr

/-! ### Observation: records, paths, latch, trace (18_observation.md) -/

/-- The four values of a plan event (R66). -/
structure PlanPos where
  step  : Nat
  beat  : Nat
  vmove : Nat
  event : Nat
deriving DecidableEq, Repr

/-- One telemetry record (R515), before PHASE and PSEQ are given. -/
structure Rec where
  /-- CODE, 16 bits. -/
  code : Nat
  /-- CLASS, 3 bits. -/
  cls : Nat
  /-- FUNCTION, 9 bits, 0x1FF for none. -/
  fn : Nat := 0x1FF
  /-- ADDRESS, 16 bits. -/
  address : W16 := 0
  /-- LOCATION, 64 bits. -/
  loc : W64 := 0
  /-- STAMP, 64 bits. -/
  stamp : Nat := 0
  /-- CGROUP, 24 bits (R516). -/
  cgroup : Nat := 0
  /-- STEP, PLAN_BEAT, VMOVE and EVENT of a plan event. -/
  plan : Option PlanPos := none
  /-- STEP of a STEP_SUMMARY, which is no plan event (R517). -/
  step : Option Nat := none
  /-- REHEARSAL, 32 bits. -/
  rehearsal : Nat := 0
  /-- DETAIL, at most 64 bytes; the rest are 0. -/
  detail : Bytes := []
deriving DecidableEq, Repr

/-- One telemetry path (R519 to R523). -/
structure Path where
  /-- TELEM_CTRL_p, 64 bits; R519; reset path 0 0x6, path 1 0x5, path 2 0x7. -/
  ctrl : W64 := 0
  /-- queue of at most 256 records with their PSEQ, oldest first; R522; reset empty. -/
  queue : List (Nat × Rec) := []
  /-- PSEQ of the next record offered, 32 bits; R519; reset 0. -/
  pseq : Nat := 0
  /-- records dropped by class since the last summary, 5 × 32 bits; R523; reset 0. -/
  dropped : List Nat := [0, 0, 0, 0, 0]
  /-- stamps of the first and last of those records; R523; reset 0. -/
  firstDrop : Nat := 0
  lastDrop : Nat := 0
  /-- mask of the sites that lost records, 16 bits; R523; reset 0. -/
  siteMask : W16 := 0
  /-- whether a DROP_SUMMARY is held; R523; reset false. -/
  summary : Bool := false
  /-- time of the last DROP_SUMMARY sent, in ns; R523; reset none. -/
  lastSummary : Option Nat := none
deriving DecidableEq, Repr

/-- A capture entry of the alarm latch (R524). -/
structure Capture where
  code  : Nat
  loc   : W64
  stamp : Nat
  /-- CAPTURE_RANK, 0 to 255. -/
  rank  : Nat
  /-- COUNT, 16 bits, saturating. -/
  count : Nat
  /-- concurrency group of the capture, which orders ranks inside a group (R524). -/
  cgroup : Nat
deriving DecidableEq, Repr

/-- The PF0 event ring (R520). -/
structure EvRing where
  /-- EVRING_BASE [63:12]; reset 0. -/
  base : W64 := 0
  /-- SIZE_LOG2, 5 bits; reset 0. -/
  sizeLog2 : Nat := 0
  /-- ENABLE; reset 0. -/
  enable : Bool := false
  /-- VECTOR, 11 bits; reset 0. -/
  vector : Nat := 0
  /-- HEAD, 16 bits; reset 0. -/
  head : Nat := 0
  /-- TAIL, 16 bits; reset 0. -/
  tail : Nat := 0
  /-- PHASE of the pass being written; reset 1. -/
  phase : Bool := true
  /-- records pending a message, with the time of the first in ns; R520; reset none. -/
  pendingIrq : Nat := 0
  firstIrqNs : Nat := 0
deriving DecidableEq, Repr

/-- The hub's order of records (R66 to R69, R516): records not yet passed on, since a plan event that goes before them may
still come; latest stamp and number of the concurrency group numbered last. -/
structure Hub where
  held  : List Rec := []
  stamp : Nat := 0
  group : Nat := 0
deriving DecidableEq, Repr

/-- What the hardware has set in W1C and RC fields in the present ns, by key, and the alarms latched in it: a clear that
coincides leaves them set (R12). The ns they were set in. -/
structure Fresh where
  ns     : Nat := 0
  sets   : Tbl Nat := []
  alarms : List Rec := []
deriving DecidableEq, Repr

/-- A trace entry (R526). -/
structure TraceEnt where
  /-- A, 48 bits. -/
  a : Nat
  /-- VMOVE, 6 bits. -/
  vmove : Nat
  /-- EVENT, 2 bits. -/
  event : Nat
  /-- KIND, 4 bits. -/
  kind : Nat
  /-- B, 64 bits. -/
  b : Nat
deriving DecidableEq, Repr

/-- A movement's trace buffer (R528). -/
structure TraceBuf where
  /-- at most 64 entries waiting; reset empty. -/
  ents : List TraceEnt := []
  /-- entries lost and not yet reported; reset 0. -/
  lost : Nat := 0
  /-- whether TRACE_LOST was raised in this step; reset false. -/
  raised : Bool := false
deriving DecidableEq, Repr

/-- The sequencer trace (R526 to R529). -/
structure Trace where
  /-- TRACE_MASK, 64 bits; R527; reset 0. -/
  mask : W64 := 0
  /-- TRACE_CTRL [10:0]; R527; reset 0. -/
  ctrl : Nat := 0
  /-- FILL, 22 bits; R527; reset 0. -/
  fill : Nat := 0
  /-- trace store of 2,097,152 entries of 16 bytes, by entry; R526; reset empty. -/
  store : Tbl TraceEnt := []
  /-- next store entry written in MODE 1; R527; reset 0. -/
  next : Nat := 0
  /-- trace buffers by movement; R528; reset empty. -/
  bufs : Tbl TraceBuf := []
  /-- frame sequence number, 32 bits; R529; reset 0. -/
  frameSeq : Nat := 0
  /-- entries of the elastic buffer of MODE 2, oldest first; R529; reset empty. -/
  elastic : List TraceEnt := []
  /-- STAMP, BEGIN and END entries waiting for a TRACE_MARK; R527; reset empty. -/
  marks : List TraceEnt := []
deriving DecidableEq, Repr

/-- The global stop (R530 to R535). -/
structure Stop where
  /-- STATE, 2 bits: 0 RUNNING, 1 FORMING, 2 STOPPED; R534; reset 0. -/
  state : Nat := 0
  /-- ENDING; R534; reset 0. -/
  ending : Bool := false
  /-- CAUSES, 8 bits: 0 breach, 1 membership or fence, 2 trace, 3 register, 4 JTAG; R534; reset 0. -/
  causes : Nat := 0
  /-- STOP_BEAT, 64 bits; R534; reset 0. -/
  beat : Nat := 0
  /-- HELD_MASK, 64 bits; R534; reset 0. -/
  held : W64 := 0
  /-- SCAN_PERMIT; R534; reset 0. -/
  scanPermit : Bool := false
  /-- chronometer when the stop became complete, which moves the cadence on by its length, and that time in ns, for the
  timers that do not run in it; R107, R378; reset 0. -/
  since : Nat := 0
  sinceNs : Nat := 0
deriving DecidableEq, Repr

/-- A breach found while a step runs (R108, R109). -/
structure Breach where
  pos     : PlanPos
  code    : Nat
  detail  : Nat := 0
  operand : Nat := 0
  other   : Nat := 0
  loc     : W64
  opAddr  : Nat := 0
  stamp   : Nat
deriving DecidableEq, Repr

/-- Record and replay (R537 to R540). -/
structure Replay where
  /-- REPLAY_CTRL, 64 bits; R537; reset 0. -/
  ctrl : W64 := 0
  /-- REPLAY_BASE, 64 bits; R537; reset 0. -/
  base : W64 := 0
  /-- bytes of log written in this session; R538; reset 0. -/
  pos : Nat := 0
  /-- recording ended by a LOST entry; R539; reset false. -/
  lost : Bool := false
  /-- recorded inputs of the entries replayed: page numbers to allocate, probe results (time and pages attached) by
  acceptance number, HREAD rows with their host errors, FRECV rows, the lists oldest first; R327, R540; reset empty. -/
  pages : List Nat := []
  probes : Tbl (Nat × List Nat) := []
  hreads : List HostData := []
  frecvs : List Bytes := []
  /-- digests of the plan images and weight sets that the log names, by acceptance number of their loads; R540; reset empty. -/
  digests : Tbl Bytes := []
  /-- recorded slip counts by site, and END entry (STATUS, FLAGS, digest), each by acceptance number; R540; reset empty. -/
  slips : Tbl (Tbl Nat) := []
  expect : Tbl (Nat × Nat × Bytes) := []
deriving DecidableEq, Repr

/-! ### What the package sends out: the model's own record of outputs -/

/-- A transmission of the block to the world outside it. -/
inductive Out where
  /-- A DMA write of function `fn` to host memory, with relaxed ordering or without (R338). -/
  | dma (fn : Nat) (pasid : Option Nat) (addr : W64) (data : Bytes) (relaxed : Bool)
  /-- A zero-length read on a link of the host (R70). -/
  | flushRead (link : Nat)
  /-- An MSI-X message on vector `v` of the package (R384). -/
  | msix (v : Nat)
  /-- A message to the board management controller (R521, R558). -/
  | mctp (data : Bytes)
  /-- A frame of the observation port (R529, R536). -/
  | frame (data : Bytes)
  /-- Words shifted out on TDO (R536, R574). -/
  | tdo (data : Bytes)
  /-- A packet put into a slot of a port (R395). -/
  | packet (port : Nat) (data : Bytes)
  /-- A control unit sent on a port (R405). -/
  | ctrl (port : Nat) (w0 w1 w2 : W32)
  /-- An SPDM response (R508). -/
  | spdm (data : Bytes)
  /-- A read of host memory: the address and the length (R355). -/
  | hostRead (fn : Nat) (addr : W64) (len : Nat)
  /-- The value a register or table read returns (R557). -/
  | value (v : W64)
  /-- A level driven on an output land or pin (R571). -/
  | pin (name : Nat) (level : Bool)
deriving DecidableEq, Repr

/-! ### Chronometer (02_beats_and_time.md) -/

/-- The chronometer and its discipline (R57 to R63, TIME_CTRL and TIME_STATUS of R560). -/
structure Chron where
  /-- CHRONO, 64 bits; R57; reset 0. -/
  count : Nat := 0
  /-- fraction of a count carried by the trim, in 2^−32 of a count, offset by 2^32; R57; reset 0. -/
  frac : Int := 0
  /-- TRIM, signed 32 bits, in 2^−32 of a count per count; R57; reset 0. -/
  trim : Int := 0
  /-- an error toward an earlier value still to be removed by slewing, in 2^−32 of a count, and the rate of that slew, in
  2^−32 of a count per count; R58; reset 0. -/
  debt : Nat := 0
  slew : Nat := 0
  /-- MODE, 2 bits: 0 FREE, 1 PPS, 2 NEIGHBOUR, 3 taken as FREE; R60, R560; reset 0. -/
  mode : Nat := 0
  /-- PARENT, 5 bits; R60; reset 0. -/
  parent : Nat := 0
  /-- STATE, 2 bits: 0 LOCKED, 1 HOLDOVER, 2 UNLOCKED; R63; reset 1. -/
  state : Nat := 1
  /-- BOUND, 16 bits; R560; reset 0xFFFF. -/
  bound : Nat := 0xFFFF
  /-- the filtered offset estimate in ns; R61; reset 0. -/
  offset : Int := 0
  /-- time of the last time message or pulse in ns; R63; reset 0. -/
  lastSource : Nat := 0
  /-- held low half of TIME_SET, 32 bits; R557; reset 0. -/
  setLow : W32 := 0
  /-- t1 of the request in flight, by the model's own count; R61; reset none. -/
  t1 : Option Nat := none
deriving DecidableEq, Repr

/-! ### Movements, sequencers, queues (02, 03) -/

/-- One token of a channel (R38): its 6-bit beat tag, and the payload of up to 256 bytes of a data token, none for an empty
token. What a data token carries is a free value (log 100). -/
structure Token where
  tag  : BitVec 6
  data : Option Bytes := none
deriving DecidableEq, Repr

/-- A write of one scratch row that is not yet everywhere visible (R43): its claim beat, the row's byte offset, and the
bytes written with their offsets in the row. -/
structure SWrite where
  beat  : Nat
  off   : Nat
  bytes : List (Nat × Byte)
deriving DecidableEq, Repr

/-- One physical movement (R27 to R42, R76 to R79). -/
structure Mvmt where
  /-- period counter, 64 bits; R37; reset 0. -/
  periods : Nat := 0
  /-- escapement-stall counter, 64 bits; R37; reset 0. -/
  stalls : Nat := 0
  /-- explicit-wait counter, 64 bits; R37; reset 0. -/
  waits : Nat := 0
  /-- plan beats issued in the current step; R45; reset 0. -/
  beats : Nat := 0
  /-- rate its replica paths permit, in units of 10 kHz; R35; reset 150000 (1.50 GHz). -/
  rate : Nat := 150000
  /-- time in ns of its last plan beat, or of the end of its last explicit wait; R42; reset 0. -/
  quiet : Nat := 0
  /-- scratch of 6 MiB by byte offset; R32, R77; reset empty (unlisted bytes read as `Fill` says). -/
  scratch : Mem := []
  /-- fill of the unlisted bytes: 0, or the number of a free value after a plan fault; R110; reset none (0). -/
  fill : Option Nat := none
  /-- writes not yet folded into the scratch, oldest first; R43; reset empty. -/
  writes : List SWrite := []
deriving DecidableEq, Repr

/-- One address generator (R90). -/
structure AddrGen where
  base : W32 := 0
  /-- strides of levels 0 to 5. -/
  stride : Tbl W32 := []
deriving DecidableEq, Repr

/-- One open nest level (R91). -/
structure Nest where
  /-- issue beat of NEST_OPEN. -/
  start : Nat
  count : Nat
  period : Nat
  /-- current iteration. -/
  k : Nat
  /-- index of the first word of the body, and of its NEST_CLOSE. -/
  body : Nat
  close : Nat
deriving DecidableEq, Repr

/-- A wait a movement holds at (R45, R104). -/
structure Hold where
  queue  : Nat
  target : W32
  site   : Nat
  /-- time at which the hold began, in ns (R107). -/
  since  : Nat
  /-- slip beats of this hold, and the recorded slip it lasts for in replay (R537). -/
  slip   : Nat := 0
  need   : Nat := 0
  /-- WAIT_LIMIT when the hold began, in µs (R560). -/
  limit  : Nat := 100000
  event  : Nat := 0
  opAddr : Nat := 0
deriving DecidableEq, Repr

/-- One sequencer, by virtual movement (R84 to R100). -/
structure Seq where
  /-- address generators 0 to 3; R90; reset 0. -/
  ag : Tbl AddrGen := []
  /-- open nest levels, innermost first; R91; reset empty. -/
  nest : List Nest := []
  /-- reference beat of the next op; R87; reset 0. -/
  ref : Nat := 0
  /-- index in the stream of the next op word; R98; reset 0. -/
  pos : Nat := 0
  /-- event index of the next op at this beat; R66; reset 0. -/
  event : Nat := 0
  /-- issue beat of STEP_END, none before it; R74; reset none. -/
  ended : Option Nat := none
  /-- the hold at a WAIT; R45; reset none. -/
  hold : Option Hold := none
  /-- whether the movement holds at a fetch underflow; R100; reset false. -/
  starved : Bool := false
  /-- instruction queue of at most 512 entries: word index in the stream and word, oldest first; R98; reset empty. -/
  iq : List (Nat × W128) := []
  /-- next word index to request, and blocks outstanding by first word index; R98; reset 0 and empty. -/
  fetchNext : Nat := 0
  fetching : List Nat := []
  /-- entries already fetched for the next step; R99; reset empty. -/
  iqNext : List (Nat × W128) := []
  fetchNext2 : Nat := 0
  fetching2 : List Nat := []
  /-- live patch slots, 256 of 32 bits; R95; reset 0. -/
  patchLive : Tbl W32 := []
  /-- pending patch slots; R95; reset 0. -/
  patchPend : Tbl W32 := []
  /-- address of the word being issued, for the records of R111; reset 0. -/
  opAddr : Nat := 0
  /-- whether the plan beat in progress has begun at the movement: its stamps are taken (R64, R65); reset false. -/
  opened : Bool := false
  /-- whether an engine op has issued at that beat (R88); reset false. -/
  engine : Bool := false
  /-- beat of the latest engine op; R52; reset none. -/
  worked : Option Nat := none
deriving DecidableEq, Repr

/-- A command in a decoupling queue (R102, R103): what was fixed at its issue. -/
structure Cmd where
  /-- the op, with every operand resolved at issue (address operands are literals). -/
  op : Instr
  /-- its plan position at issue, and the address of its op word. -/
  pos : PlanPos
  opAddr : Nat := 0
  /-- scratch rows read at the beats its chapter states (R103), and whether all of them have been read. -/
  data : List Bytes := []
  ready : Bool := true
  /-- number of result rows (R103). -/
  rows : Nat := 0
  /-- begun at the companion (R245, R298). -/
  begun : Bool := false
  /-- finished at the companion, and not yet counted retired (R102). -/
  done : Bool := false
  /-- cancelled by its companion (R249, R307). -/
  cancelled : Bool := false
  /-- result rows ready at the companion (R102). -/
  result : List Bytes := []
  /-- flags its results raised, 8 bits (R228). -/
  flags : Nat := 0
deriving DecidableEq, Repr

/-- One row of an arrival share: its bytes, none for a row that never arrived (R387), and the flags of the command that
delivered it (R228). -/
structure ARow where
  data  : Option Bytes
  flags : Nat := 0
deriving DecidableEq, Repr

/-- A decoupling queue, by 16 × virtual movement + queue (R101, R102). -/
structure Queue where
  /-- issue count, 32 bits; reset 0. -/
  issued : W32 := 0
  /-- retire count, 32 bits; reset 0. -/
  retired : W32 := 0
  /-- taken count, 32 bits; reset 0. -/
  taken : W32 := 0
  /-- commands not retired, oldest first; reset empty. -/
  cmds : List Cmd := []
  /-- rows in the arrival share, front first; R102, R105; reset empty. -/
  rows : List ARow := []
  /-- beats at which the rows of TAKEs in progress move out of the share; R105, R106; reset empty. -/
  moving : List Nat := []
deriving DecidableEq, Repr

/-! ### Plans and weight sets (04_plan_images_and_weight_sets.md) -/

/-- A declared extent (R83, R120). -/
structure Extent where
  cls   : Nat
  vm    : Nat
  first : Nat
  last  : Nat
deriving DecidableEq, Repr

/-- A REGIONS entry (R122) and where the loader placed it (R284). -/
structure Region where
  domain : Nat
  /-- virtual S ordinal 0 to 7, or 15 striped. -/
  stack  : Nat
  init   : Nat
  size   : Nat
  source : Nat
  /-- tenancy-area block numbers of its placement, in block order. -/
  blocks : List (Nat × Nat) := []
deriving DecidableEq, Repr

/-- A FLOWS entry (R123). -/
structure Flow where
  dim      : Nat
  dir      : Bool
  mcast    : Bool
  collect  : Bool
  hops     : Nat
  srcFirst : Nat
  srcLast  : Nat
  hopFirst : Nat
  hopLast  : Nat
deriving DecidableEq, Repr

/-- A parsed plan image (R116 to R125). -/
structure Plan where
  digest    : Bytes := []
  mUsed     : Nat := 0
  vUsed     : Nat := 0
  wUsed     : Nat := 0
  gridSize  : Nat := 1
  serves    : List (Nat × Nat) := []
  ownLevel  : Nat := 0
  peerLevel : Nat := 0
  planName  : Nat := 0
  sigAlg    : Nat := 0
  keyIndex  : Nat := 0
  /-- CODE sections by virtual movement. -/
  code      : Tbl (List W128) := []
  /-- MODE of each CODE section: 1 nest, 2 patch, 3 both. -/
  mode      : Tbl Nat := []
  /-- MOVEMENTS: type code and ENGINE_USED by virtual movement. -/
  moves     : List (Nat × Bool) := []
  extents   : List Extent := []
  /-- PATCH declarations by 256 × VMOVE + SLOT: kind and default. -/
  patches   : Tbl (Nat × W32) := []
  /-- QUEUES by 16 × VMOVE + queue: depth and arrival share in bytes. -/
  queues    : Tbl (Nat × Nat) := []
  regions   : Tbl Region := []
  data      : Bytes := []
  /-- FLOWS by 16384 × DIE + FLOW. -/
  flows     : Tbl Flow := []
  /-- WHEELS by DIM + 4 × DIR + 8 × ORDINAL. -/
  wheels    : Tbl (List W16) := []
  /-- LEVELS by virtual package. -/
  levels    : Tbl Nat := []
  /-- BINDINGS: digest and kind. -/
  bindings  : List (Bytes × Nat) := []
  /-- op-word address of each stream in the plan region, by virtual movement (R127). -/
  codeBase  : Tbl Nat := []
  /-- tenancy-area blocks taken by code: stack and block (R127). -/
  codeBlocks : List (Nat × Nat) := []
deriving DecidableEq, Repr

/-- A resident plan slot (R132, R133). -/
inductive Slot where
  | empty
  /-- a load in progress: the descriptor's acceptance number and the plan being installed. -/
  | loading (acc : Nat) (p : Plan)
  | resident (p : Plan)
  /-- an unload accepted, waiting for earlier steps. -/
  | unloading (acc : Nat) (p : Plan)
deriving DecidableEq, Repr

/-- A committed weight set (R134, R141). -/
structure WeightSet where
  kind    : Nat
  domain  : Nat
  payload : Nat
  base    : Bytes
  /-- times counted (R143). -/
  count   : Nat
  blocks  : List (Nat × Nat)
deriving DecidableEq, Repr

/-- A chunk table entry (R135). -/
structure ChunkEnt where
  digest : Bytes
  iv     : Bytes
deriving DecidableEq, Repr

/-- A weight-set load in progress (R137 to R142). -/
structure SetLoad where
  acc      : Nat
  /-- the named upstream, none for the host; downstream addresses, with whether each still takes the set. -/
  upstream : Option W16
  down     : List (W16 × Bool)
  /-- first 8 bytes of the set digest, once known. -/
  set      : Option W64 := none
  /-- manifest fragments received, by byte offset, and the size the host named; a manifest whose domain is RETIRING waits
  here (R291). -/
  manifest : Tbl Bytes := []
  size     : Option Nat := none
  accepted : Bool := false
  digest   : Bytes := []
  kind     : Nat := 0
  domain   : Nat := 0
  payload  : Nat := 0
  base     : Bytes := []
  chunks   : List ChunkEnt := []
  /-- content key unwrapped from the binding (R503, R504). -/
  key      : Bytes := []
  /-- chunk record fragments received, by chunk index × 2^21 + byte offset; a stored chunk's record is kept for requests. -/
  parts    : Tbl Bytes := []
  /-- chunks stored, failures by chunk, refusals by downstream ordinal. -/
  stored   : List Nat := []
  fails    : Tbl Nat := []
  refusals : List (Nat × Nat) := []
  /-- chunk requests waiting for a chunk not yet stored: downstream and index. -/
  wanted   : List (W16 × Nat) := []
  blocks   : List (Nat × Nat) := []
  /-- authority block as read, none without an AUTHORITY_ADDR (R505). -/
  authority : Option Bytes := none
  /-- whether the set was already committed here when the manifest was accepted (R143). -/
  again    : Bool := false
deriving DecidableEq, Repr

/-! ### Functions and host rings (12, 13) -/

/-- A submission ring context (R339). -/
structure Sq where
  /-- BASE [63:12]; R339; reset 0. -/
  base : W64 := 0
  /-- SIZE_LOG2, 5 bits; R339; reset 0. -/
  sizeLog2 : Nat := 0
  /-- CQ, 4 bits; R339; reset 0. -/
  cq : Nat := 0
  /-- ENABLE; R339; reset 0. -/
  enable : Bool := false
  /-- PASID_EN and PASID, 20 bits; R339; reset 0. -/
  pasidEn : Bool := false
  pasid : Nat := 0
  /-- ERR, 4 bits; R339; reset 0. -/
  err : Nat := 0
  /-- HEAD, 16 bits; R339; reset 0. -/
  head : Nat := 0
  /-- last known tail K, 16 bits; R344; reset 0. -/
  tail : Nat := 0
  /-- fetch stopped by a ring error; R365; reset false. -/
  stopped : Bool := false
  /-- for each reading that moved K: entries covered and the window count then; R381; reset empty. -/
  marks : List (Nat × Nat) := []
  /-- descriptors of this ring accepted since it was set up, for the marks; R381; reset 0. -/
  seq : Nat := 0
deriving DecidableEq, Repr

/-- A completion ring context (R339, R383). -/
structure Cq where
  /-- BASE [63:12]; R339; reset 0. -/
  base : W64 := 0
  /-- SIZE_LOG2, 5 bits; R339; reset 0. -/
  sizeLog2 : Nat := 0
  /-- VECTOR, 11 bits; R339; reset 0. -/
  vector : Nat := 0
  /-- IRQ_EN; R339; reset 0. -/
  irqEn : Bool := false
  /-- ENABLE; R339; reset 0. -/
  enable : Bool := false
  /-- PASID_EN and PASID, 20 bits; R339; reset 0. -/
  pasidEn : Bool := false
  pasid : Nat := 0
  /-- ERR, 4 bits; R339; reset 0. -/
  err : Nat := 0
  /-- reservations unwritten (PENDING is their being above 0); R339, R346; reset 0. -/
  resv : Nat := 0
  /-- TAIL, 16 bits; R339; reset 0. -/
  tail : Nat := 0
  /-- last known head, 16 bits; R344; reset 0. -/
  head : Nat := 0
  /-- PHASE of the pass being written; R340; reset 1. -/
  phase : Bool := true
  /-- stopped by ring error 2; R365; reset false. -/
  stopped : Bool := false
  /-- completions not written while stopped; R365; reset 0. -/
  unwritten : Nat := 0
  /-- coalescing COUNT, 8 bits; R383; reset 1. -/
  coalCount : Nat := 1
  /-- coalescing TIME, 16 bits; R383; reset 0. -/
  coalTime : Nat := 0
  /-- completions pending a message, and the time of the first in ns; R384; reset 0. -/
  pendingIrq : Nat := 0
  firstIrqNs : Nat := 0
deriving DecidableEq, Repr

/-- An MSI-X table entry (R382): address, data and mask. -/
structure Msix where
  addr   : W64 := 0
  data   : W32 := 0
  /-- Mask bit; PCI Express; reset 1. -/
  masked : Bool := true
deriving DecidableEq, Repr

/-- A function (R366 to R371, R559). -/
structure FnState where
  /-- SQ contexts 0 to 15; R339; reset as `Sq`. -/
  sq : Tbl Sq := []
  /-- CQ contexts 0 to 15; R339; reset as `Cq`. -/
  cq : Tbl Cq := []
  /-- FUNC_CTRL, 22 bits: SHADOW_EN, PASID_EN, PASID; R559; reset 0. -/
  shadowEn : Bool := false
  pasidEn : Bool := false
  pasid : Nat := 0
  /-- SHADOW_BASE, 64 bits; R559; reset 0. -/
  shadowBase : W64 := 0
  /-- EVENT_BASE, 64 bits; R559; reset 0. -/
  eventBase : W64 := 0
  /-- FUNC_STATUS SHADOW_ERR; R559; reset 0. -/
  shadowErr : Bool := false
  /-- FUNC_STATUS DOORBELL_IGNORED, 32 bits; R559; reset 0. -/
  doorbellIgnored : Nat := 0
  /-- MSI-X table entries 0 to 7; R382; reset as `Msix`. -/
  msix : Tbl Msix := []
  /-- MSI-X Pending Bit Array, 64 bits; R382; reset 0. -/
  pba : W64 := 0
  /-- MSI-X Function Mask; R385; reset 0. -/
  fnMask : Bool := false
  /-- Enable Relaxed Ordering of Device Control; R338; reset 1. -/
  relaxed : Bool := true
  /-- NumVFs and VF Enable of a PF; R366; reset 0. -/
  numVfs : Nat := 0
  vfEnable : Bool := false
  /-- OPEN_STREAMS, 21 bits; R370; reset 0. -/
  openStreams : Nat := 0
  /-- PAGES, 24 bits; R370; reset 0. -/
  pages : Nat := 0
  /-- IN_RESET; R370; reset 0. -/
  inReset : Bool := false
  /-- step discarded and descriptors dropped by the reset in progress; R391; reset none and 0. -/
  flrStep : Option Nat := none
  flrDropped : Nat := 0
  /-- start of the reset in progress, in ns; R386; reset 0. -/
  flrAt : Nat := 0
  /-- SQ visited last by the intake; R345; reset 15. -/
  lastSq : Nat := 15
deriving DecidableEq, Repr

/-- An accepted descriptor (R346). -/
structure Acc where
  fn      : Nat
  sq      : Nat
  cq      : Nat
  desc    : Bytes
  pasid   : Option Nat
  windows : Nat
  sqHead  : Nat
  /-- whether its work has begun, and whether a host read is awaited. -/
  begun   : Bool := false
  /-- its function was reset while it was begun: no completion is written (R386). -/
  mute    : Bool := false
  /-- the window it was accepted in: entry, end of its length in chronometer counts, shift of the schedule then (R374, R377). -/
  window  : Nat × Nat × Nat := (0, 0, 0)
deriving DecidableEq, Repr

/-- A descriptor fetched and not yet accepted (R345). -/
structure Fetched where
  fn   : Nat
  sq   : Nat
  data : HostData
deriving DecidableEq, Repr

/-- The intake's round in the current window (R345, R377). -/
structure Intake where
  /-- SQ being visited, none between visits; reset none. -/
  sq : Option Nat := none
  /-- descriptors taken in this visit; R345; reset 0. -/
  taken : Nat := 0
  /-- SQs whose visit has ended for this window; R377; reset empty. -/
  closed : List Nat := []
  /-- the fetched descriptor; reset none. -/
  fetched : Option Fetched := none
  /-- acceptance number of the next accepted descriptor; R346; reset 0. -/
  next : Nat := 0
  /-- accepted descriptors not completed, by acceptance number; R346; reset empty. -/
  acc : Tbl Acc := []
  /-- functions whose shadow page is to be read; R344; reset empty. -/
  shadowDue : List Nat := []
deriving DecidableEq, Repr

/-- The cadence (R372 to R379). -/
structure Cadence where
  /-- CADENCE_CTRL MODE, LAST and CTRL_LEN in force; R372; reset 0, 0 and 20. -/
  compact : Bool := false
  last : Nat := 0
  ctrlLen : Nat := 20
  /-- CADENCE_CTRL and FRAME_EPOCH as written, which take effect at the next frame start; R372; reset as above and 0. -/
  nextCompact : Bool := false
  nextLast : Nat := 0
  nextCtrlLen : Nat := 20
  nextEpoch : Nat := 0
  /-- FRAME_EPOCH in force, 64 bits; R372; reset 0. -/
  epoch : Nat := 0
  /-- number of the next frame; R374; reset 0. -/
  frame : Nat := 0
  /-- window in force, none between windows: `some 0` the control window, `some (i+1)` entry i (with no tenancy, function
  i); R374; reset none. -/
  win : Option Nat := none
  /-- function of the window, its plan slot when STEPS is 1, its GUARD in ns; R373; reset none. -/
  fn : Option Nat := none
  slot : Option Nat := none
  guard : Nat := 0
  /-- blank window; R373; reset true. -/
  blank : Bool := true
  /-- actual start and length of the window and scheduled start, in chronometer counts; R374; reset 0. -/
  start : Nat := 0
  length : Nat := 0
  sched : Nat := 0
  /-- counts by which stops have moved the schedule; R378; reset 0. -/
  shift : Nat := 0
  /-- whether the last frame has ended and the next has not begun; R374; reset true. -/
  frameOver : Bool := true
  /-- steps accepted in the window in force, by acceptance number; R374; reset empty. -/
  own : List Nat := []
  /-- non-blank and control windows begun; R381; reset 0. -/
  begun : Nat := 0
  /-- entries that name a slot emptied by PLAN_UNLOAD, blank until rewritten; R133, R373; reset empty. -/
  emptied : List Nat := []
  /-- next table entry of the frame, or next function while no tenancy is open; R374, R379; reset 0. -/
  turn : Nat := 0
deriving DecidableEq, Repr

/-- A live table: its two copies and its replicas' updates (R564 to R567). -/
structure Live where
  /-- active copy by entry; reset as the table's rule says. -/
  active : Tbl W64 := []
  /-- shadow copy by entry; reset equal to the active copy. -/
  shadow : Tbl W64 := []
  /-- entries in update by unprescribed writes, with their earlier values, newest first; R566; reset empty. -/
  updating : Tbl (List W64) := []
  /-- PENDING; R564; reset 0. -/
  pending : Bool := false
  /-- whether the pending commit has passed its commit point; R565; reset false. -/
  passed : Bool := false
  /-- shadow entries written since the last commit, for the cadence entries of R133; reset empty. -/
  touched : List Nat := []
deriving DecidableEq, Repr

/-! ### Engines (05 to 07) -/

/-- Functions of the vector unit (R203). -/
inductive VFun where
  | add | sub | mul | mad | min | max | affine | cmpeq | cmpne | cmplt | cmple | sel | and | or | xor | shl | shr | exps
  | iota | copy | abs | neg | exp2 | log2 | rcp | sqrt | rsqrt | tanh | sigmoid | gelu | silu
deriving DecidableEq, Repr

/-- Where operand B of a pass comes from (R202). -/
inductive BSrc where
  | strap (a : Nat)
  | imm (i : W32)
  | const
deriving DecidableEq, Repr

/-- Kind of a contribution and of a tally (R207). -/
inductive TKind where
  | sum | max | min
deriving DecidableEq, Repr

/-- What a strap reduction contributes of its elements: a_j, a_j squared, or a_j × b_j (R208). -/
inductive RItem where
  | plain | square | product
deriving DecidableEq, Repr

/-- A tile buffer of a matrix array (R175, R176, R195). -/
structure TileBuf where
  /-- 256 rows of 256 bytes, by byte; R180; reset 0. -/
  tile : Mem := []
  /-- scale registers: 16 rows of 256 bytes, by byte; R187; reset 0. -/
  scales : Mem := []
  /-- BFMT of the load, none when never loaded in the step; R190; reset none. -/
  fmt : Option Nat := none
  /-- CHK of the load; R195; reset 0. -/
  chk : Bool := false
  /-- the rows of a CHK load as they arrived, from which column 255 is formed, by byte; R195, R196; reset 0. -/
  arrived : Mem := []
  /-- weights that the processing elements took up wrong: byte of the tile and value held; R196; reset empty. -/
  faults : Tbl Nat := []
  /-- 64-bit words of the buffer (8,192) and, from 8,192 on, of its scale registers (512) whose ECC is uncorrectable, and
  correctable, these with the failing bit; R192; reset empty. -/
  bad : List Nat := []
  weak : Tbl Nat := []
deriving DecidableEq, Repr

/-- An effect on accumulator rows that lies at a later beat than its op (R186, R189). -/
structure AccEff where
  beat : Nat
  /-- 0 load, 1 load with ADD, 2 accumulate, 3 accumulate from START, 4 clear: the order of R189. -/
  kind : Nat
  row  : Nat
  /-- first column, and one W128 code for each column from it; empty for a clear. -/
  col  : Nat
  vals : List W128
  /-- for each of those columns the starts with which its terms set INVALID: 1 an ordinary accumulator, 2 a positive, 4 a
  negative marker (R158); empty where none does. -/
  inv  : List Nat := []
  /-- plan position of the op, for the flags (R170, R191). -/
  pos  : PlanPos := { step := 0, beat := 0, vmove := 0, event := 0 }
deriving DecidableEq, Repr

/-- A matrix array, by physical movement (R175 to R197). -/
structure Matrix where
  /-- accumulator store, 1,024 × 256 W128, by 256 × row + column; R81, R180; reset 0. -/
  acc : Tbl W128 := []
  /-- fill of unlisted accumulators: 0, or a free value after a plan fault; R110; reset none (0). -/
  fill : Option Nat := none
  /-- effects not yet folded into the store, in issue order; R189; reset empty. -/
  effs : List AccEff := []
  /-- tile buffers 0 and 1; R175; reset as `TileBuf`. -/
  buf0 : TileBuf := {}
  buf1 : TileBuf := {}
  /-- seed register, 32 bits; R184; reset 0. -/
  seed : W32 := 0
  /-- A-scale register, a scratch address; R184; reset 0. -/
  ascale : W32 := 0
  /-- accumulator words (row × 512 + half word) whose ECC is uncorrectable, and correctable, these with the failing bit;
  R192; reset empty. -/
  bad : List Nat := []
  weak : Tbl Nat := []
deriving DecidableEq, Repr

/-- A tally of a reduction unit (R207, R209). -/
inductive Tally where
  | empty
  /-- a sum tally's integer n, as a W128 code. -/
  | sum (n : W128)
  /-- an extreme tally: kind (true for max), read in an integer format, value as INT32 or FP32, index. -/
  | ext (max : Bool) (int : Bool) (value : W32) (index : W32)
deriving DecidableEq, Repr

/-- What VSET sets besides T (R201, R206). -/
structure VMode where
  /-- VSET: AFMT, BFMT, OFMT, 5 bits each; R206; reset 0. -/
  afmt : Nat := 0
  bfmt : Nat := 0
  ofmt : Nat := 0
  /-- VSET ROUND, 2 bits, and SAT; R206; reset 0. -/
  round : Nat := 0
  sat : Bool := false
  /-- VSET SEED, 32 bits; R206; reset 0. -/
  seed : W32 := 0
deriving DecidableEq, Repr

/-- A vector unit and its reduction unit, by physical movement (R201, R207). All reset to 0 at plan beat 0. -/
structure Vector extends VMode where
  /-- constant T, 32 bits, and whether TLOAD set it; R202; reset 0. -/
  t : W32 := 0
  tFloat : Bool := false
  /-- VTAP: TAPK, TALLY, TSTART still due, ANCHOR, IBASE; R206, R210; reset 0. -/
  tapk : Nat := 0
  tapTally : Nat := 0
  tapStart : Bool := false
  tapAnchor : Int := 0
  ibase : W32 := 0
  /-- tallies 0 to 15; R207; reset empty. -/
  tallies : Tbl Tally := []
  /-- kind given to each tally by the ops issued so far, none while no op has contributed; R207; reset none. -/
  kinds : Tbl (Option TKind) := []
deriving DecidableEq, Repr

/-- A skiver's registers, by physical movement (R214). -/
structure Skiver where
  /-- source and destination scale addresses; KSET; reset 0. -/
  sscale : W32 := 0
  dscale : W32 := 0
  /-- SEED, 32 bits; KSET; reset 0. -/
  seed : W32 := 0
deriving DecidableEq, Repr

/-! ### Work in flight (R43, R103, R186, R199, R211, R215 to R218, R332) -/

/-- The tap of one pass as it stood at the pass's issue (R210). -/
structure Tap where
  kind   : Nat
  tally  : Nat
  start  : Bool
  anchor : Int
  base   : W32
deriving DecidableEq, Repr

/-- What an issued op still does at its later beats: its operands and the registers it took at its issue. -/
inductive Work where
  /-- TILE_LOAD: source, stride in rows, buffer, CHK (R186, R195). -/
  | tileLoad (src : Nat) (stride : Int) (buf chk : Bool)
  /-- TILE_SCALES: source, buffer (R187). -/
  | tileScales (src : Nat) (buf : Bool)
  /-- STREAM: A, accumulator row, rows, buffer, START, SUB, formats, anchor, A-scale register (R178, R186, R187). -/
  | stream (a acc rows : Nat) (buf start sub : Bool) (afmt bfmt : Nat) (chk : Bool) (anchor : Int) (ascale : Nat)
  /-- DRAIN, with the seed register (R184, R186). -/
  | drain (d acc rows ofmt mode : Nat) (sat clear : Bool) (anchor : Int) (seed : Nat)
  | drainWide (d acc rows : Nat) (clear : Bool)
  | accLoad (a acc rows : Nat) (add : Bool)
  /-- a pass: its function, D, A, B, mode registers and tap (R199 to R205, R210). -/
  | pass (f : VFun) (d : Nat) (a : Option Nat) (b : BSrc) (m : VMode) (tap : Option Tap)
  /-- VSET with TSET 1 (R202, R206). -/
  | setT (t : W32)
  | tload (tally : Nat) (fn : Bool) (anchor : Int) (mult : W32)
  /-- a strap reduction: A, B, kind, item, formats, index base, tally, anchor, START (R208, R211). -/
  | reduce (a : Nat) (b : Option Nat) (k : TKind) (item : RItem) (afmt bfmt base tally : Nat) (anchor : Int) (start : Bool)
  | raddw (src : Nat) (mask : W16)
  | rstore (d : Nat) (mask : W16) (rounded : Bool) (ofmt round : Nat) (sat : Bool) (anchor : Int) (seed : Nat)
  | transpose (d a : Nat) (sr dr : Int) (bits : Nat)
  | retile (d a n : Nat) (sr dr : Int)
  /-- CONVERT, with the skiver's registers (R214, R218). -/
  | convert (d a g i o mode : Nat) (sat : Bool) (k : Skiver)
  /-- the source rows of a command of a queue, with their beats (R103). -/
  | source (queue : Nat) (op : Instr) (rows : List (Nat × Nat))
  /-- SELECT: logits, slot key, result row, and the BSET values it takes (R331, R332). -/
  | select (z key result vocabM1 lfmt : Nat)
deriving DecidableEq, Repr

/-- An issued op with work left: its plan position and op word, the part it does next, the constant T it took (R201), and
what it holds between its parts. -/
structure Flight where
  pos    : PlanPos
  opAddr : Nat := 0
  work   : Work
  next   : Nat := 0
  t      : Option (W32 × Bool) := none
  held   : List Bytes := []
deriving DecidableEq, Repr

/-! ### Analogue weight dies (08, 09) -/

/-- Where a pane of a held set stands (R230): the MVM and vector that it took last, its next plane (8 when they are done), and
the GW that the vector takes (R264). -/
structure PaneAt where
  mvm   : Option Nat := none
  v     : Nat := 0
  plane : Nat := 8
  gw    : Nat := 1
deriving DecidableEq, Repr

/-- A pane set held by the shell (R239, R241, R245). -/
structure PaneSet where
  first : Nat
  rstr  : Nat
  cstr  : Nat
  nr    : Nat
  nc    : Nat
  grain : Nat
  /-- issue beat of its PSET. -/
  beat  : Nat := 0
  /-- its panes are awake. -/
  ready    : Bool := false
  /-- where its panes stand, by row-pane × NC + column-pane. -/
  at_   : Tbl PaneAt := []
deriving DecidableEq, Repr

/-- A column-plane waiting for the resolve engine (R233, R234): of which MVM and vector, pane of the set, column and plane. -/
structure ColPlane where
  mvm   : Nat
  v     : Nat
  pane  : Nat
  col   : Nat
  plane : Nat
  /-- the converter's value, where an audit is to compare it (R236). -/
  audit : Option Int := none
  /-- settled from the converter before, and resolved again after a failed audit (R236). -/
  redo : Bool := false
deriving DecidableEq, Repr

/-- A vector of an MVM whose outputs have not left (R234). -/
structure VecRun where
  /-- partial q of each pane and column: 256 × pane + column; R226. -/
  q : Tbl Int := []
  /-- panes that have made all eight passes. -/
  passed : Nat := 0
  /-- column-planes not yet settled. -/
  unsettled : Nat := 0
  /-- columns settled from the converter, by pane and plane; R236. -/
  conv : List (Nat × Nat × List Nat) := []
  /-- panes whose audit failed in this vector (R236). -/
  again : List Nat := []
deriving DecidableEq, Repr

/-- An MVM in progress (R230, R234, R245). -/
structure MvmRun where
  /-- its vectors in progress. -/
  vecs : Tbl VecRun := []
  /-- result rows of the vectors whose outputs have left. -/
  outs : Tbl (List Bytes) := []
  /-- flags raised by its results (R228), 8 bits. -/
  flags : Nat := 0
deriving DecidableEq, Repr

/-- A group's trim record (R263). -/
structure GroupTrim where
  /-- curve: 17 points for each polarity, in 1/256 of a unit. -/
  curve : List Int := []
  /-- gain and offset by physical position, from the latest pane check. -/
  gain : Tbl (Int × Int) := []
  /-- GW in force for grains 3 to 6. -/
  gw : List Nat := [1, 1, 1, 1]
  /-- drift of each reference level, in sixty-fourths of a level. -/
  drift : List Nat := []
  /-- largest error of each position's last pane check, in sixty-fourths of a unit. -/
  err : Tbl Nat := []
  /-- flags among the 256 column-planes of each position's last pane check, for grains 3 to 6 (R237). -/
  rate : Tbl (List Nat) := []
  /-- maintenance slot next in the cycle: 0 to 75, and the tick of the last maintenance pass (R247, R262). -/
  slot : Nat := 0
  passed : Option Nat := none
  /-- readings of the cycle in progress. -/
  newCurve : List Int := []
  newDrift : List Nat := []
  newErr : Tbl Nat := []
  newGain : Tbl (Int × Int) := []
  newRate : Tbl (List Nat) := []
deriving DecidableEq, Repr

/-- A self-test pending or under way (R268, R269). -/
structure SelfTest where
  /-- causes: 0 audit fault, 1 resolve rate, 2 calibration, 3 worn. -/
  causes : Nat
  /-- 0 requested, 1 first read done, 2 second read done. -/
  phase : Nat := 0
  /-- whether a cell was outside its window in a read, the first such cell, and whether there were others. -/
  cell : Option (Nat × Nat × Bool) := none
  several : Bool := false
  /-- time of the first read in ns (R269). -/
  readAt : Nat := 0
  /-- whether its restore was interrupted by power loss (R273). -/
  restore : Bool := false
deriving DecidableEq, Repr

/-- Where a program_pane stands (R256). -/
structure Programming where
  /-- logical pane, row, iterations made on the row. -/
  logical : Nat
  row     : Nat := 0
  tries   : Nat := 0
deriving DecidableEq, Repr

/-- One analogue weight die and its shell (R221 to R279). -/
structure AwDieSt where
  /-- STATE, 3 bits; R250; reset 0 (OFF). -/
  state : Nat := 0
  /-- ticks of the pass clock since READY; R247; reset 0. -/
  tick : Nat := 0
  /-- physical position of each logical pane that is not at its fitted one; R222; non-volatile, reset empty. -/
  map : Tbl Nat := []
  /-- program counts by 68 × group + position; R259; non-volatile, reset 0. -/
  counts : Tbl Nat := []
  /-- retired physical panes; R271; non-volatile, reset empty. -/
  retired : List Nat := []
  /-- shadow store: words of 16 weights by 8192 × L + 16 × row + word; R224; reset 0. -/
  shadow : Tbl W64 := []
  /-- pane scales by 256 × L + column; R223; reset 0. -/
  scales : Tbl W32 := []
  /-- shadow words that are uncorrectable, and correctable; R224, R238; reset empty. -/
  shadowBad : List Nat := []
  shadowWeak : List Nat := []
  /-- analogue content of the physical panes that differs from the level their logical pane asks for, by cell:
  262,144 × pane + 512 × row + 2 × column + polarity, in sixty-fourths of a level; of a pane erased and not programmed
  since, that differs from level 0; R223, R255; reset empty. -/
  cells : Tbl Nat := []
  /-- lost logical panes; R275; reset empty. -/
  lost : List Nat := []
  /-- degraded groups; R274; reset empty. -/
  degraded : List Nat := []
  /-- panes (68 × group + position) classed LASTING with no spare free; R274; reset empty. -/
  stuck : List Nat := []
  /-- panes in resolve-all mode; R236; reset empty. -/
  resolveAll : List Nat := []
  /-- pane sets held, by SET; R241; reset empty. -/
  sets : Tbl PaneSet := []
  /-- MVMs in progress by issue beat; R245; reset empty. -/
  runs : Tbl MvmRun := []
  /-- resolve queues by group, at most 256, oldest first, and the column-planes that wait behind them; R234; reset empty. -/
  resolve : Tbl (List ColPlane) := []
  spill : Tbl (List ColPlane) := []
  /-- rate monitor by pane: column-planes and flags counted; R237; reset 0. -/
  rate : Tbl (Nat × Nat) := []
  /-- vectors computed by a pane since its last matching audit; R236; reset 0. -/
  since : Tbl Nat := []
  /-- trim records by group; R263; reset as `GroupTrim`. -/
  trim : Tbl GroupTrim := []
  /-- self-tests by pane; R268; reset empty. -/
  tests : Tbl SelfTest := []
  /-- times in ns of TRANSIENT results by pane; R269; reset empty. -/
  transients : Tbl (List Nat) := []
  /-- groups still to be calibrated at start-up, or in phase 4 of an installation; R251, R257, R278; reset empty. -/
  toCalibrate : List Nat := []
  /-- groups under refresh: next position; R266; reset empty. -/
  refresh : Tbl Nat := []
  /-- panes waiting for a spare (LASTING), in order; R271, R272; reset empty. -/
  lasting : List Nat := []
  /-- program_pane in progress by physical pane; R256; reset empty. -/
  programming : Tbl Programming := []
  /-- installation phase, 1 to 5, 0 when none; R257; reset 0. -/
  phase : Nat := 0
  /-- panes programmed in phase 3, in rising order; R257; reset empty. -/
  programmed : List Nat := []
  /-- panes that failed phase 3 or 4; R257; reset empty. -/
  failed : List Nat := []
  /-- whether the records show committed content; R251; non-volatile, reset false. -/
  committed : Bool := false
  /-- bytes held in the input buffer of 4 MiB; R241; reset 0. -/
  inputUsed : Nat := 0
  /-- trim table loaded at INIT, kept until the rails next rise; R267, R545; reset none. -/
  trimTab : Option TrimTable := none
deriving DecidableEq, Repr

/-! ### Memory stacks, streams, prefixes, bridles (10, 11) -/

/-- A key domain (R287, R290). -/
structure Domain where
  /-- STATE, 2 bits: 0 FREE, 1 ACTIVE, 2 RETIRING; R290; reset 0. -/
  state : Nat := 0
  /-- KEY_EPOCH, 24 bits; R290; reset 0. -/
  epoch : Nat := 0
  /-- USED, 32 bits, in 4 KiB blocks; R290; reset 0. -/
  used : Nat := 0
  /-- number of the key pair in force, taken from `State.free`, none without one; R287; reset none. -/
  key : Option Nat := none
deriving DecidableEq, Repr

/-- A data unit's place in the DRAM, its content as plaintext, and the key number it was written under (R286). -/
structure Unit256 where
  key  : Nat
  data : List Byte
deriving DecidableEq, Repr

/-- The errors that stand in a data unit's codewords (R293): the erroneous symbols, by codeword and cell of the first bit, and
the data of a miscorrection. -/
structure UnitErr where
  symbols : List (Nat × Nat) := []
  wrong   : Option (List Byte) := none
deriving DecidableEq, Repr

/-- One memory stack's DRAM and its base die (R280 to R296). -/
structure StackSt where
  /-- data units written, by stack address / 256; R282; reset empty (never written). -/
  units : List (Nat × Unit256) := []
  /-- poisoned units; R295; reset empty. -/
  poisoned : List Nat := []
  /-- units in whose codewords errors stand; R293, R294; reset empty. -/
  errs : Tbl UnitErr := []
  /-- corrections by cell row (2 × unit + row), with their times in ns; R296; reset empty. -/
  corrected : Tbl (List Nat) := []
  /-- rows marked for sparing, and rows spared; R296; reset empty. -/
  marked : List Nat := []
  spared : List Nat := []
  /-- tenancy-area blocks in use, by block number; R283, R292; reset empty. -/
  used : List Nat := []
deriving DecidableEq, Repr

/-- A stream's record (R309) with its directory (R314). -/
structure Stream where
  /-- STATE, 3 bits: 1 OPEN, 2 STOPPED. -/
  state : Nat := 1
  /-- STOP_REASON, 5 bits. -/
  reason : Nat := 0
  cls : Nat := 0
  grammarOn : Bool := false
  domain : Nat := 0
  fn : Nat := 0
  alts : Nat := 0
  window : Nat := 0
  whead : Nat := 0
  length : Nat := 0
  tokens : W32 := 0
  maxTokens : W32 := 0
  lastToken : W32 := 0xFFFF_FFFF
  seed : W64 := 0
  counter : W64 := 0
  temp : W32 := 0
  topP : W32 := 0
  minP : W32 := 0
  topK : Nat := 0
  rep : W32 := 0
  pres : W32 := 0
  freq : W32 := 0
  grammar : Nat := 0
  dfa : Nat := 0
  /-- STOP_SET, 8 × 32 bits. -/
  stopSet : List W32 := []
  /-- PWIN, 32 × 32 bits. -/
  pwin : List W32 := []
  /-- page numbers in the directory, and the numbers of its nodes, the first of them DIR_HEAD (R309, R314). -/
  pages : List Nat := []
  nodes : List Nat := []
deriving DecidableEq, Repr

/-- A KV page (R312, R313). -/
structure Page where
  cls    : Nat
  /-- reference count, 32 bits. -/
  refs   : Nat
  /-- function and domain charged. -/
  fn     : Nat
  domain : Nat
  /-- rows by 256-byte row number: position × SLOT_ROWS + row; unlisted rows are zero. -/
  rows   : List (Nat × List Byte)
  /-- tenancy-area blocks: stack and block. -/
  blocks : List (Nat × Nat)
  slotRows : Nat
deriving DecidableEq, Repr

/-- A prefix-table entry (R323). -/
structure Prefix where
  tag    : W128
  page   : Nat
  cls    : Nat
  domain : Nat
  expiry : Nat
  depth  : Nat
deriving DecidableEq, Repr

/-- A grammar state (R328). -/
structure GState where
  mask     : Nat
  accept   : Bool
  terminal : Bool
  /-- transitions: FIRST, LAST, NEXT. -/
  trans    : List (Nat × Nat × Nat)
deriving DecidableEq, Repr

/-- A resident grammar (R328). -/
structure Grammar where
  start  : Nat
  states : List GState
  /-- masks, by mask index, as bytes. -/
  masks  : List Bytes
  blocks : List (Nat × Nat)
deriving DecidableEq, Repr

/-- A bridle slot of the running step (R319, R332): the latched record and what SELECTs changed. -/
structure BSlot where
  handle : Nat
  /-- record as latched. -/
  latched : Stream
  /-- record as SELECTs of the step left it. -/
  now : Stream
  /-- tokens delivered in the step (s of R332). -/
  s : Nat := 0
  /-- last token delivered, for the transition of R321, and whether ACCEPT alone admitted it. -/
  lastTok : Option (Nat × Bool) := none
  /-- the grammar state's entry as loaded (R319). -/
  gstate : Option GState := none
  mask : Bytes := []
  /-- position opened last by an append of the step, highest opened, and whether appends are skipped (R303, R320). -/
  openPos : Option Nat := none
  failed : Bool := false
  /-- positions opened by appends that have retired (R320). -/
  readable : Nat := 0
deriving DecidableEq, Repr

/-- A bridle's BSET register (R331), by physical movement. -/
structure Bridle where
  /-- VOCAB − 1, 18 bits; reset 0. -/
  vocabM1 : Nat := 0
  /-- LFMT, 5 bits; reset 0 (FP32). -/
  lfmt : Nat := 0
  /-- beat of the last BSET, and the values in force at that beat; R331; reset none and 0. -/
  setAt : Option Nat := none
  oldVocabM1 : Nat := 0
  oldLfmt : Nat := 0
deriving DecidableEq, Repr

/-! ### The running step (03, 12, 16) -/

/-- An accepted step with its lists (R351). -/
structure StepReq where
  acc    : Nat
  fn     : Nat
  slot   : Nat
  /-- START: 0 at acceptance, 1 at LAUNCH, 2 chained. -/
  start  : Nat
  launch : Nat
  /-- patch list entries: VMOVE × 256 + SLOT and value, in order. -/
  patches : List (Nat × W32)
  streams : List Nat
  /-- host buffers: address, length in rows, writable. -/
  bufs   : List (W64 × Nat × Bool)
  report : W64
  slipCap : Nat
  slipAddr : W64
  /-- CHAIN, 16 bytes (R444, R463). -/
  chain  : Bytes
  pasid  : Option Nat
  /-- the chained start's trigger has come (R467). -/
  triggered : Bool := false
  /-- GSEQ taken at arming, for a grid step (R464). -/
  gseq : Option Nat := none
  /-- when the step became ready, for the lateness of R64. -/
  ready  : Nat := 0
  /-- the window it was accepted in, as its descriptor has it (R374). -/
  window : Nat × Nat × Nat := (0, 0, 0)
deriving DecidableEq, Repr

/-- A flag record (R171). -/
structure FlagRec where
  beat  : Nat
  vmove : Nat
  event : Nat
deriving DecidableEq, Repr

/-- What ends a step with a device fault (R359). -/
structure DevFault where
  loc   : W64
  code  : Nat
  stamp : Nat
deriving DecidableEq, Repr

/-- A host error of a step (R355, R359). -/
structure HostErr where
  detail : Nat
  addr   : W64
  opAddr : Nat
  stamp  : Nat
deriving DecidableEq, Repr

/-- A claim of a scratch bank's port (R79, R80): its beat, the bank (4 × physical movement + bank), read or write, and
the claimant with its op word's address and the row address it claims for. -/
structure Claim where
  beat   : Nat
  bank   : Nat
  write  : Bool
  pos    : PlanPos
  opAddr : Nat
  addr   : Nat
deriving DecidableEq, Repr

/-- A report to the regulator (R52): virtual movement, the beat of the wake or of the sleep, and which it is. -/
structure Wake where
  vmove : Nat
  beat  : Nat
  wake  : Bool
deriving DecidableEq, Repr

/-- The step that runs (R72 to R75, R46, R359). -/
structure Run where
  req : StepReq
  /-- step number, 64 bits; R72. -/
  number : Nat
  plan : Plan
  /-- physical movement of each virtual movement as latched; R130. -/
  map : List Nat
  /-- chronometer at plan beat 0 and at the last beat, of the C movement; R65. -/
  begin_ : Option Nat := none
  end_ : Option Nat := none
  /-- plan beat 0 at the C movement in ns, for R42; the C movement's latest beats with their counts. -/
  beginNs : Nat := 0
  cStamps : Tbl Nat := []
  /-- recorded slip still to be held, by site; R537. -/
  need : Tbl Nat := []
  /-- slip beats by wait site; R46. -/
  slip : Tbl Nat := []
  /-- those of WAITs on the X movements' queues, 32 bits, saturating; R479. -/
  peer : Nat := 0
  /-- times of R55 in ns. -/
  ceilNs : Nat := 0
  withholdNs : Nat := 0
  lateness : Nat := 0
  /-- FLAGS, 8 bits, and their records; R170, R171. -/
  flags : Nat := 0
  flagRecs : Tbl FlagRec := []
  /-- SFLAGS, 8 bits; R357. -/
  sflags : Nat := 0
  windows : Nat := 0
  breaches : List Breach := []
  fault : Option DevFault := none
  hostErr : Option HostErr := none
  /-- first range part: op address and item; R359. -/
  range : Option (Nat × Nat) := none
  poolHandle : Option Nat := none
  /-- page allocations and copies of the step: handle, position, page number, in order of effect; R538. -/
  allocs : List (Nat × Nat × Nat) := []
  /-- discarded by a function-level reset; R387. -/
  discarded : Bool := false
  /-- port claims whose beat some movement has still to issue; R80. -/
  claims : List Claim := []
  /-- issued ops with work left at later beats, in issue order, and the number of beats done for all of them; R43. -/
  flights : List Flight := []
  settled : Nat := 0
  /-- chronometer at plan beat 0 of each movement, by virtual movement; R65. -/
  stamps : Tbl Nat := []
  /-- engine wakes and sleeps reported to the regulator whose beat has not passed; R52. -/
  reports : List Wake := []
  /-- ended by a device fault: no op issues (R110). -/
  stopped : Bool := false
  /-- bridle slots: 256 × bridle + slot; R319. -/
  slots : Tbl BSlot := []
  /-- grid step (R464): GSEQ, and whether it was armed at this package. -/
  gseq : Option Nat := none
  /-- ended by ABORT: detail of R471. -/
  abort : Option Nat := none
  /-- records written back (R321). -/
  wroteBack : Bool := false
deriving DecidableEq, Repr

/-! ### Fabric ports (14_link_layer.md) -/

/-- A packet (R396): header fields without SEQ and CRC, and its payload. -/
structure Packet where
  /-- CLASS, 3 bits. -/
  cls    : Nat
  /-- VC, 1 bit. -/
  vc     : Nat := 0
  routeA : W32
  routeB : W32
  payload : Bytes := []
  /-- port whose loose buffer it occupies, and its pair; none for a packet that originated here (R408, R410). -/
  from_ : Option (Nat × Nat) := none
deriving DecidableEq, Repr

/-- A packet held in the replay buffer (R399), with its SEQ and the time of its last sending. -/
structure Held where
  seq  : Nat
  pkt  : Packet
  sent : Nat
  /-- whether its loose credit was taken since the last training (R410). -/
  paid : Bool
deriving DecidableEq, Repr

/-- A control message waiting to be sent (R405, R406): its rank in the order of R406 and its words. -/
structure CtrlMsg where
  rank : Nat
  w0   : W32
  w1   : W32 := 0
  w2   : W32 := 0
deriving DecidableEq, Repr

/-- The packet counters of a port (R427), 48 bits each, saturating. -/
structure PortCounters where
  sent      : Nat := 0
  accepted  : Nat := 0
  crcPkt    : Nat := 0
  crcCtrl   : Nat := 0
  nakSent   : Nat := 0
  nakRecv   : Nat := 0
  replayed  : Nat := 0
  /-- corrected FEC symbols and uncorrectable codewords by lane. -/
  fecSym    : Tbl Nat := []
  fecBad    : Tbl Nat := []
  /-- retrains by cause. -/
  retrains  : Tbl Nat := []
  width     : Nat := 0
  misses    : Nat := 0
  protocol  : Nat := 0
  /-- packets with a rehearsal's CRC (R487), which no register shows. -/
  rehearsal : Nat := 0
deriving DecidableEq, Repr

/-- A fabric port (R393 to R430). -/
structure PortSt where
  /-- ENABLE; R426; reset table. -/
  enable : Bool := true
  /-- MIN_WIDTH, 4 bits; R426; reset table. -/
  minWidth : Nat := 8
  /-- STATE, 3 bits; R412; reset 0. -/
  state : Nat := 0
  /-- CAUSE, 4 bits; R426; reset 0. -/
  cause : Nat := 0
  /-- RX_MASK and TX_MASK, 8 bits each; R426; reset 0. -/
  rxMask : Byte := 0
  txMask : Byte := 0
  /-- lanes that the last training converged on; R413; reset 0. -/
  trained : Byte := 0
  /-- LEVEL, 8 bits; R426; reset 0. -/
  level : Nat := 0
  /-- PARTNER, 16 bits, and PARTNER_PORT, 5 bits; R426; reset 0. -/
  partner : W16 := 0
  partnerPort : Nat := 0
  /-- RETRAINS, 8 bits; R426; reset 0. -/
  retrains : Nat := 0
  /-- SEQ of the next new packet, 16 bits; R399; reset 0. -/
  txSeq : Nat := 0
  /-- replay buffer of 256 KiB, oldest first; R399; reset empty. -/
  replay : List Held := []
  /-- position in the replay buffer from which a replay runs; R402; reset none. -/
  replaying : Option Nat := none
  /-- E, 16 bits; R400; reset 0. -/
  e : Nat := 0
  /-- NAK episode: time of the last NAK; R400; reset none. -/
  nakAt : Option Nat := none
  /-- packets accepted since the last ACK and the time of the first; R401; reset 0. -/
  unacked : Nat := 0
  firstUnacked : Nat := 0
  /-- times of NAKs within 1 ms; R404; reset empty. -/
  nakTimes : List Nat := []
  /-- control messages waiting, in order of arrival; R406; reset empty. -/
  ctrl : List CtrlMsg := []
  /-- loose queues by pair 2 × (class − 1) + VC; R408; reset empty. -/
  loose : Tbl (List Packet) := []
  /-- scheduled packets displaced by a wheel switch; R444; reset empty. -/
  displaced : List Packet := []
  /-- credits held, by pair; R409; reset 0. -/
  credits : Tbl Nat := []
  /-- grants given to the partner, by pair, in packets; R409; reset table. -/
  grants : Tbl Nat := []
  /-- loose buffers occupied, by pair; R408; reset 0. -/
  occupied : Tbl Nat := []
  /-- frees that return no credit after a retrain, by pair; R411; reset 0. -/
  noReturn : Tbl Nat := []
  /-- pair served last; R409; reset 7. -/
  lastPair : Nat := 7
  /-- time since which a pair has been starved; R411; reset none. -/
  starved : Tbl Nat := []
  /-- partner's PARAM as last received (words), identical ones counted, own SEEN sent, PARAMs sent with SEEN, PARAMs with
  SEEN received; R414; reset 0. -/
  param : Option (W32 × W32 × W32) := none
  same : Nat := 0
  seenSent : Nat := 0
  seenGot : Bool := false
  /-- time of the last training progress in ns, and of the retrain's start; R413; reset 0. -/
  progress : Nat := 0
  retrainAt : Nat := 0
  /-- causes of the retrain under way, by bit; R418; reset 0. -/
  causes : Nat := 0
  /-- whether PARAM runs inside a retrain; R418; reset false. -/
  inRetrain : Bool := false
  /-- times of retrains with cause 7; R430; reset empty. -/
  violations : List Nat := []
  /-- last TRIM CMD_ID sent, TRIMs not yet answered by a SWITCH, oldest first, and the last one answered; last CMD_ID applied as
  sender; R420, R422; reset 0, empty, none. -/
  trimId : Nat := 0
  trims : List (Nat × Byte) := []
  switched : Option (Nat × Byte) := none
  appliedId : Option Nat := none
  /-- SWITCH under way as sender: mask, CMD_ID, COUNT next; R420; reset none. -/
  switching : Option (Byte × Nat × Nat) := none
  nextTrim : Option (Byte × Nat) := none
  /-- times at which lanes out of the mask locked error-free; R421; reset empty. -/
  restore : Tbl Nat := []
  /-- HEARTBEAT COUNT, 16 bits; R423; reset 0. -/
  hbCount : Nat := 0
  /-- misses in a row; R423; reset 0. -/
  hbMiss : Nat := 0
  /-- 10 µs interval of the last heartbeat sent, and the last one that had a heartbeat or was counted a miss; R423;
  reset 0. -/
  hbAt : Nat := 0
  hbJudged : Nat := 0
  /-- XID of the last TIME_REQ, 8 bits, and the one outstanding; R424; reset 0, none. -/
  xid : Nat := 0
  xidOut : Option Nat := none
  /-- uncorrectable FEC codewords within 1 ms, by lane: times in ns and numbers; R416; reset empty. -/
  fecTimes : Tbl (List (Nat × Nat)) := []
  /-- kept out of flows and routing by FABRIC_CABLING; R436; reset false. -/
  miscabled : Bool := false
  /-- PLACE as given in the PARAM of the last training; R433; reset 0. -/
  ownAddr : W16 := 0
  /-- wheel slot next; R395, R444; reset 0. -/
  slot : Nat := 0
  /-- packets dropped on the port by LINK_DROP injections; R487; reset none (end time). -/
  dropUntil : Option Nat := none
  counters : PortCounters := {}
deriving DecidableEq, Repr

/-! ### Fabric flows (15_fabric_routing_and_flows.md) -/

/-- A transfer a source has sent (R448, R457). -/
structure Sent where
  flow   : Nat
  tseq   : Nat
  offset : Nat
  rows   : Nat
  hop    : Nat := 1
  discard : Bool := false
  /-- destinations still to acknowledge, by hop distance (place addresses resolved on the ring). -/
  waiting : List W16
  round  : Nat := 0
  /-- when the CLOSE of the last sending left, in ns; none before. -/
  closeAt : Option Nat := none
  /-- queue of the FSEND, none for a transit transfer of a COLLECT flow. -/
  queue  : Option Nat
  pos    : PlanPos
  /-- rows of a COLLECT FSEND combined into transit transfers, counted; R453. -/
  combined : Nat := 0
deriving DecidableEq, Repr

/-- An open-transfer record at a receiver (R455, R456). -/
structure OpenXfer where
  flow   : Nat
  hop    : Nat
  tseq   : Nat
  source : W16
  round  : Nat := 0
  /-- packets of the round held, by first row. -/
  got    : List Nat := []
  rows   : Option Nat := none
  offset : Option Nat := none
  crc    : Option W64 := none
  discard : Bool := false
  /-- rows verified (COLLECT), and waiting to be combined. -/
  verified : Bool := false
deriving DecidableEq, Repr

/-- One link die (R16, R443 to R462). -/
structure LinkDie where
  /-- flow buffers of 8 MiB by byte; R82; reset 0. -/
  buf : Mem := []
  fill : Option Nat := none
  /-- delivered and discarded rows, by row number; R443; reset empty. -/
  delivered : List Nat := []
  discarded : List Nat := []
  /-- FLOWS of the armed step, by flow; R443; reset empty. -/
  flows : Tbl Flow := []
  /-- next TSEQ by flow; R443; reset 0. -/
  tseq : Tbl Nat := []
  /-- TSEQs verified by 32768 × flow + slice; R456; reset empty. -/
  verified : Tbl (List Nat) := []
  /-- open-transfer records, at most 4,096; R456; reset empty. -/
  open_ : List OpenXfer := []
  /-- transfers sent and not acknowledged, oldest first; R457; reset empty. -/
  sent : List Sent := []
  /-- rows the package's own FSENDs have written in the armed step, by 32768 × flow + row: the FSEND and whether its step was
  discarded; R452, R453, R458; reset empty. -/
  own : Tbl (PlanPos × Bool) := []
  /-- ready packets by flow, oldest first; R444; reset empty. -/
  ready : Tbl (List Packet) := []
  /-- wheels in force by port of the die: 4,096 slot words; R443; reset empty (loose). -/
  wheels : Tbl (List W16) := []
  /-- flows for which FLOW_UNARMED was raised since arming, and counts; R461; reset empty. -/
  unarmed : Tbl Nat := []
  /-- packets discarded for want of a record or as unreachable; R440, R456; reset 0. -/
  noRecord : Nat := 0
  unreachable : Nat := 0
deriving DecidableEq, Repr

/-- FABRIC_CTRL and what a package keeps of the fabric (R433, R441, R443). -/
structure Fabric where
  /-- PLACE, 16 bits; R433; reset table. -/
  place : W16 := 0
  /-- FLAT, 12 bits, and FLAT_VALID; R433; reset 0. -/
  flat : Nat := 0
  flatValid : Bool := false
  /-- E2E_TIMEOUT, 16 bits; R433; reset 100. -/
  timeout : Nat := 100
  /-- E2E_ROUNDS, 2 bits; R433; reset 3. -/
  rounds : Nat := 3
  /-- flow colour, 2 bits; R443; reset 0. -/
  colour : Nat := 0
  /-- step armed, by acceptance number; R443; reset none. -/
  armed : Option Nat := none
  /-- virtual packages of the armed step by their place addresses; R131; reset empty. -/
  places : Tbl Nat := []
  /-- tags applied with their answers, by source address, newest first; R441; reset empty. -/
  tags : Tbl (List (W16 × Bytes)) := []
  /-- relay messages discarded and counted; R140; reset 0. -/
  relayDropped : Nat := 0
deriving DecidableEq, Repr

/-! ### Grid, membership, twin, rehearsal (16_running_as_many.md) -/

/-- An item of membership (R472): key bits [21:0] and stamp; rehearsal marking. -/
structure Item where
  key       : Nat
  rehearsal : Bool
  stamp     : Nat
deriving DecidableEq, Repr

/-- The twin digest packet of one half (R481). -/
structure TwinPkt where
  gseq    : Nat
  epoch   : Nat
  level   : Nat
  faulted : Bool
  digest  : Bytes
deriving DecidableEq, Repr

/-- Grid state of the package (R463 to R487). -/
structure Grid where
  /-- GRID, 16 bits; R465; reset 0. -/
  grid : Nat := 0
  /-- MEMBER_EN; R465; reset 0. -/
  memberEn : Bool := false
  /-- TWIN, 2 bits; R465; reset 0. -/
  twin : Nat := 0
  /-- TWIN_PORT, 5 bits; R465; reset 0. -/
  twinPort : Nat := 0
  /-- INJECT_EN; R465; reset table. -/
  injectEn : Bool := false
  /-- FENCE_LIMIT, 16 bits; R465; reset 10,000. -/
  fenceLimit : Nat := 10000
  /-- TWIN_TIMEOUT, 16 bits; R465; reset 200. -/
  twinTimeout : Nat := 200
  /-- held low half of GRID_CMD, 32 bits; R557; reset 0. -/
  cmdLow : W32 := 0
  /-- EPOCH, 32 bits; R465; reset 0. -/
  epoch : Nat := 0
  /-- STATE, 3 bits: 0 RUN, 1 GATHER, 2 SEAL, 3 HELD, 4 SPLIT; R465; reset 0. -/
  state : Nat := 0
  /-- TWIN_STATE, 2 bits: 0 PAIRED, 1 LONE, 2 OUT; R465; reset 0. -/
  twinState : Nat := 0
  /-- GSEQ, 32 bits; R464; reset 0. -/
  gseq : Nat := 0
  /-- latch of MEMBER_STATUS, 128 bits; R557; reset as the register's reset. -/
  statusLatch : W128 := 0
  /-- vacancy list, at most 4,096 items; R472; reset empty. -/
  vacancy : List Item := []
  /-- items collected for epoch E + 1, by key; R475; reset empty. -/
  items : List Item := []
  /-- earliest time that T0 may take, chronometer bits [31:0]: the last commit; R475; reset none. -/
  t0Floor : Option Nat := none
  /-- whether the own SEAL was flooded, and its COUNT and DIGEST; R475; reset none. -/
  ownSeal : Option (Nat × W32) := none
  /-- keys of the set fixed at the end of GATHER, ascending; R475; reset empty. -/
  set : List Nat := []
  /-- SEALs already forwarded; R475; reset empty. -/
  seals : List (Nat × W32) := []
  /-- ABORTs already forwarded and remembered: GSEQ, rehearsal; R469; reset empty. -/
  aborts : List (Nat × Bool) := []
  /-- HALF_OUTs already forwarded: GSEQ; R483; reset empty. -/
  halfOuts : List Nat := []
  /-- level table by place address; R484; reset empty (0). -/
  levels : Tbl Nat := []
  /-- ITEMs discarded for their epoch, counted; R474; reset 0. -/
  itemsDropped : Nat := 0
  /-- own twin packets not yet compared, with the time each was sent in ns, and the partner's; R482; reset empty. -/
  ownTwin : List (Nat × TwinPkt) := []
  peerTwin : List TwinPkt := []
  /-- fault- or alarm-class event raised during the step; R481; reset false. -/
  faulted : Bool := false
  /-- HWRITE rows issued in the grid step, in device order (PlanPos order kept by insertion); R480; reset empty. -/
  hwrites : List (PlanPos × List Bytes) := []
  /-- when the running or armed grid step was launched or armed, in ns, for the fence limit; R468; reset 0. -/
  fenceAt : Nat := 0
  /-- injections allowed at once, 4 at most, and the time of the last; R486; reset 4 and 0. -/
  injections : Nat := 4
  lastInject : Nat := 0
  /-- injections accepted and not yet carried out: kind, port, identifier, PARAM; R487; reset empty. -/
  inject : List (Nat × Nat × Nat × Nat) := []
  /-- rehearsal identifier of the LINK_DROP under way by port, of a vacancy by key, of an audit by pane; R487; empty. -/
  rehearsing : Tbl Nat := []
  /-- packets still to be poisoned by port; R487; reset empty. -/
  poison : Tbl (Nat × Nat) := []
deriving DecidableEq, Repr

/-! ### Tenancy, keys, SPDM (17_tenancy_and_trust.md) -/

/-- The tenancy and the security block (R488 to R514). -/
structure Tenancy where
  /-- KIND, 2 bits: 0 none, 1 serving, 2 installation; R489; reset 0. -/
  kind : Nat := 0
  /-- PHASE, 2 bits: 0 IDLE, 1 OPENING, 2 OPEN, 3 CLOSING; R489; reset 0. -/
  phase : Nat := 0
  /-- OPENED, 32 bits; R489; reset 0. -/
  opened : Nat := 0
  /-- TENANCY_ID, 16 bytes; R490; reset empty (0). -/
  id : Bytes := []
  /-- enrolled keys by slot: ALG and KEY; R491; reset empty. -/
  keys : Tbl (Nat × Bytes) := []
  /-- PLAN_KEYS_DIGEST, 48 bytes; R491; reset empty (0). -/
  keysDigest : Bytes := []
  /-- binding group keys by GROUP_ID; R492; reset empty. -/
  groups : Tbl Bytes := []
  /-- step number of the next step, 64 bits; R72; reset 0. -/
  stepNumber : Nat := 0
  /-- close in progress: acceptance number and ZERO_FILL; R495; reset none. -/
  closing : Option (Nat × Bool) := none
  /-- whether the scrub of the close is done; R496; reset false. -/
  scrubbed : Bool := false
deriving DecidableEq, Repr

/-- The SPDM responder (R508). -/
structure Spdm where
  /-- connection: 0 none, 1 version, 2 capabilities, 3 algorithms; R508; reset 0. -/
  phase : Nat := 0
  /-- messages of version, capabilities and algorithms, for signatures; R508; reset empty. -/
  vca : Bytes := []
  /-- messages of digests and certificates since, for CHALLENGE; R508; reset empty. -/
  certs : Bytes := []
  /-- messages of measurements since the last signature; R508; reset empty. -/
  measured : Bytes := []
  /-- large request being assembled: handle, next sequence number, bytes; R508; reset none. -/
  sendChunk : Option (Nat × Nat × Bytes) := none
  /-- large response being fetched: handle, next sequence number, bytes; R508; reset none. -/
  getChunk : Option (Nat × Nat × Bytes) := none
  /-- handle of the next large response; R508; reset 0. -/
  handle : Nat := 0
deriving DecidableEq, Repr

/-! ### Power, boot, pins (19, 21) -/

/-- Power, reset and boot (R541 to R555), and the regulator (R49 to R56). -/
structure Power where
  /-- STAGE, 4 bits; R549; reset 0. -/
  stage : Nat := 0
  /-- CORE and STACKS still running in stage 4; R547; reset false. -/
  coreDone : Bool := false
  stacksDone : Bool := false
  /-- COPY; R549; reset 0. -/
  copy : Nat := 0
  /-- LAST_RESET, 4 bits; R549; reset kept (0 at power-on). -/
  lastReset : Nat := 0
  /-- whether the boot under way runs RAILS (COLD) or not (DEVICE); R545; reset true. -/
  cold : Bool := true
  /-- THERMAL, 2 bits; R549; reset 0. -/
  thermal : Nat := 0
  /-- HOT, 8 bits, and HOT_SITE, 4 bits; R549; reset 0. -/
  hot : Nat := 0
  hotSite : Nat := 0
  /-- THERMAL_THROTTLE raised and not yet armed again; R553; reset false. -/
  throttled : Bool := false
  /-- time in ns since which X has stayed at or above 1; R553; reset none. -/
  limitSince : Option Nat := none
  /-- PKG_LIMIT as written, 11 bits, in W; R549; reset 1,800. -/
  pkgLimit : Nat := 1800
  /-- limit in force under the thermal response, in W; R553; reset 1,800. -/
  effLimit : Nat := 1800
  /-- whether the response holds the lowest effective rate; R553; reset false. -/
  lowest : Bool := false
  /-- ceiling in steps of 6.25 MHz, 144 (0.90 GHz) to 288 (1.80 GHz); R50; reset 288. -/
  ceiling : Nat := 288
  /-- periods issued of every 16; R51; reset 16. -/
  issue16 : Nat := 16
  /-- POWER_LIMIT_UNHELD stands; R51; reset false. -/
  unheld : Bool := false
  /-- energy above the configured limit in the excursion, in mW ns, and its length in ns; R49; reset 0. -/
  excursionNs : Nat := 0
  /-- power estimates of the last 10 ms, summed, in mW × 20 ns, with their number; R49; reset 0. -/
  window : List Nat := []
  /-- changes of the CD core rail current in the intervals of the last 1 µs, in mA; R49; reset empty. -/
  deltas : List Int := []
  /-- the latest temperatures sampled, by die; R553; reset empty. -/
  temps : List (Nat × Int) := []
  /-- group rails 1 to 4: enabled (PWR_EN_G) and good (PWR_GOOD_G), bit k − 1; R541, R543; reset 0. -/
  groupEn : Nat := 0
  groupGood : Nat := 0
  /-- AWEN_d and AWPG_d of die d and rail k: bit 3 d + k; R541, R543; reset 0. -/
  awEn : Nat := 0
  awGood : Nat := 0
  /-- time in ns at which each rail was enabled or its predecessor became good: group k at k, die d rail k at 8 + 3 d + k;
  R543; reset empty. -/
  railAt : Tbl Nat := []
  /-- powering down: rails still to be lowered, in order; R543, R554; reset empty. -/
  lowering : List Nat := []
  /-- the package is down until a COLD reset; R554; reset false. -/
  down : Bool := false
  /-- VDD_AON fell since the last COLD reset, so that LAST_RESET is not kept; R544; reset false. -/
  aonFell : Bool := false
  /-- THERMAL_LIMIT raised while X has stayed at or above 1; R553; reset false. -/
  limitRaised : Bool := false
  /-- DYING_GASP sent since the last reset; R554; reset false. -/
  gasped : Bool := false
  /-- VDD_CD set point in mV; R542; reset 0 (set in the RAILS stage). -/
  vddCd : Nat := 0
  /-- REF_CLK missing, and since when in ns; R578; reset false. -/
  refMissing : Option Nat := none
  /-- stage start times in ns, for BOOT_COMPLETE; R555; reset empty. -/
  stageTimes : List Nat := []
deriving DecidableEq, Repr

/-- The IEEE 1149.1 port (R582) and its pins. -/
structure Jtag where
  /-- instruction register, 8 bits; R582; reset IDCODE. -/
  ir : Nat := 0
  /-- boundary register; R582; reset empty (0). -/
  boundary : List Bool := []
  /-- whether the boundary register drives the lands (EXTEST); R582; reset false. -/
  driving : Bool := false
deriving DecidableEq, Repr

/-- The boot flash and what the boot read from it (R510, R548, R581). -/
structure Boot where
  /-- copies A and B of the flash; R548; non-volatile, reset none (blank). -/
  copyA : Option TableSet := none
  copyB : Option TableSet := none
  /-- the table set in force, none before TABLES ends; R510; reset none. -/
  set : Option TableSet := none
  /-- whether an owner part is in force; R510; reset false. -/
  owned : Bool := false
deriving DecidableEq, Repr

/-! ### The whole block -/

/-- The machine state. -/
structure State where
  /-- commands waiting, first in first out; the model's own; reset empty. -/
  pending : List Instr := []
  /-- number of the next free value; the model's own; reset 0. -/
  free : Nat := 0
  /-- reference time since the package came up, in ns; the model's own; reset 0. -/
  ns : Nat := 0
  /-- transmissions to the world, oldest first; the model's own; reset empty. -/
  out : List Out := []
  fuses   : Fuses := {}
  boot    : Boot := {}
  power   : Power := {}
  jtag    : Jtag := {}
  chron   : Chron := {}
  /-- physical movements 0 to 63; R27. -/
  mv      : Tbl Mvmt := []
  /-- channel tokens by 64 × sender + receiver, head first, at most 32; R38, R39; reset empty. -/
  chan    : Tbl (List Token) := []
  /-- sequencers by virtual movement; R84. -/
  seq     : Tbl Seq := []
  /-- decoupling queues by 16 × virtual movement + queue; R101. -/
  queue   : Tbl Queue := []
  /-- engines by physical movement. -/
  matrix  : Tbl Matrix := []
  vector  : Tbl Vector := []
  skiver  : Tbl Skiver := []
  bridle  : Tbl Bridle := []
  /-- analogue weight dies 0 to 3; R16. -/
  aw      : Tbl AwDieSt := []
  /-- INSTALL_COUNT of the dies, 32 bits; R505; non-volatile, reset 0. -/
  installCount : Nat := 0
  /-- installation base digest, 48 bytes, none when zero; R252; reset none. -/
  baseDigest : Option Bytes := none
  /-- digest of the BASE-ANALOG set the dies' records name; R252; non-volatile, reset none. -/
  installed : Option Bytes := none
  /-- stacks 0 to 7; R280. -/
  stack   : Tbl StackSt := []
  domains : Tbl Domain := []
  /-- page slot rows by class that stand until no page or stream of it remains; R311; reset empty. -/
  slotRows : Tbl Nat := []
  streams : List (Nat × Stream) := []
  pages   : List (Nat × Page) := []
  prefixes : List (Nat × Prefix) := []
  grammars : List (Nat × Grammar) := []
  /-- resident plan slots 0 to 63; R132; reset empty. -/
  slots   : Tbl Slot := []
  /-- committed BASE and ADDITION sets by digest; R134, R141; reset empty. -/
  sets    : List (Bytes × WeightSet) := []
  loads   : List SetLoad := []
  fns     : Tbl FnState := []
  intake  : Intake := {}
  cad     : Cadence := {}
  /-- live tables 1 to 9; R562. -/
  tables  : Tbl Live := []
  /-- COMMITS, 32 bits; R564; reset 0. -/
  commits : Nat := 0
  /-- WIN_CTRL: TABLE, LIVE, BASE; R561; reset 0. -/
  winTable : Nat := 0
  winLive  : Bool := false
  winBase  : Nat := 0
  /-- WIN_STATUS WRITE_IGNORED; R561; reset 0. -/
  winIgnored : Bool := false
  /-- AUDIT_CTRL RATE_LOG2 as written, 5 bits; R560; reset 10. -/
  auditRate : Nat := 10
  /-- WAIT_LIMIT as written, 32 bits, in µs; R560; reset 100,000. -/
  waitLimit : Nat := 100000
  /-- SELF_VPKG, 15 bits; R560; reset 0. -/
  selfVpkg : Nat := 0
  /-- PREFIX_TTL as written, 32 bits, in µs; R560; reset 60,000,000. -/
  prefixTtl : Nat := 60000000
  /-- accepted steps not yet launched, in launch order; R72; reset empty. -/
  steps   : List StepReq := []
  run     : Option Run := none
  tenancy : Tenancy := {}
  spdm    : Spdm := {}
  ports   : Tbl PortSt := []
  links   : Tbl LinkDie := []
  fabric  : Fabric := {}
  grid    : Grid := {}
  /-- telemetry paths 0 to 2; R519. -/
  paths   : Tbl Path := []
  /-- drop counters by 80 × path + 16 × class + site, 32 bits; R523; reset 0. -/
  drops   : Tbl Nat := []
  /-- alarm latch capture entries by bit, a bit being set when it has one; R524; reset empty. -/
  latch   : Tbl Capture := []
  evring  : EvRing := {}
  /-- records being put in order; R516; reset empty. -/
  hub     : Hub := {}
  /-- sets of W1C and RC fields in the present ns; R12; reset empty. -/
  fresh   : Fresh := {}
  /-- latest stamp and number of the concurrency group of arrivals, for the latch's ranks; R524; reset 0. -/
  groupStamp : Nat := 0
  groupNo : Nat := 0
  /-- counter snapshot bank: count and counters by table byte offset; R525; reset 0. -/
  snapAt  : Nat := 0
  snap    : Tbl Nat := []
  trace   : Trace := {}
  stop    : Stop := {}
  replay  : Replay := {}
deriving DecidableEq, Repr

/-- Path controls at reset (R519): path 0 FLOOR 3; path 1 ENABLE and FLOOR 2; path 2 ENABLE and FLOOR 3. -/
def resetPaths : Tbl Path := [(0, { ctrl := 0x6 }), (1, { ctrl := 0x5 }), (2, { ctrl := 0x7 })]

/-- The machine right after a COLD reset (R544, R547): stage FUSE, no rail of groups 1 to 4 raised. -/
def State.reset : State := { paths := resetPaths }

end Sys2Proof.Machine
end

