-- ==== Sys2Proof/Machine/Ops.lean ====
section
/-!
DEFINITION. The named operations over the state: sparse tables and memories, byte strings, checks and digests,
location codes, telemetry events, the alarm latch, faults that end a step, and completions.
-/

namespace Sys2Proof.Machine

/-- What a meaning answers. -/
abbrev Res := Host.Outcome State Fault Refusal

/-- A command whose enabling condition is `c`: its effect `t`, or, where the event cannot come about, no change
(DESIGN CHOICE, log 1). -/
def act (c : Prop) [Decidable c] (t s : State) : Res := if c then .next t else .next s

/-! ### Sparse tables -/

/-- Entry `k` of a table whose unlisted entries read `d`. -/
def tget {α : Type} (d : α) : Tbl α → Nat → α
  | [], _ => d
  | (k', v) :: t, k => if k' = k then v else tget d t k

/-- Insert or replace entry `k`. -/
def tput {α : Type} (k : Nat) (v : α) : Tbl α → Tbl α
  | [] => [(k, v)]
  | (k', v') :: t =>
    if k < k' then (k, v) :: (k', v') :: t else if k' = k then (k, v) :: t else (k', v') :: tput k v t

/-- Remove entry `k`. -/
def tdel {α : Type} (k : Nat) : Tbl α → Tbl α
  | [] => []
  | (k', v') :: t => if k' = k then t else (k', v') :: tdel k t

/-- Write entry `k`, keeping the canonical form: a value equal to the default removes the entry. -/
def tset {α : Type} [DecidableEq α] (d : α) (t : Tbl α) (k : Nat) (v : α) : Tbl α :=
  if v = d then tdel k t else tput k v t

/-- Entry `k` of a table of present or absent entries. -/
def tfind {α : Type} : List (Nat × α) → Nat → Option α
  | [], _ => none
  | (k', v) :: t, k => if k' = k then some v else tfind t k

/-- Keys strictly rising from `lo`. -/
def risingFrom {α : Type} : Nat → List (Nat × α) → Bool
  | _, [] => true
  | lo, (k, _) :: t => decide (lo ≤ k) && risingFrom (k + 1) t

/-- The canonical form of a sparse table: keys strictly rising, no entry equal to the default. -/
def Tbl.wf {α : Type} [DecidableEq α] (d : α) (t : Tbl α) : Bool :=
  risingFrom 0 t && t.all (fun e => decide (e.2 ≠ d))

/-- What an unlisted byte of a memory reads as: 0, or byte `a` of an unspecified content (R110). -/
def fillByte (f : Option Nat) (a : Nat) : Byte :=
  match f with
  | none => 0
  | some n => Config.freeByte n a

/-- One byte of a memory. -/
def memByte (f : Option Nat) (m : Mem) (a : Nat) : Byte := tget (fillByte f a) m a

/-- Write one byte of a memory. -/
def memPut (f : Option Nat) (m : Mem) (a : Nat) (b : Byte) : Mem := tset (fillByte f a) m a b

/-- The canonical form of a memory. -/
def Memory.wf (f : Option Nat) (m : Mem) : Bool :=
  risingFrom 0 m && m.all (fun e => decide (e.2 ≠ fillByte f e.1))

/-- Write bytes from address `a` upwards. -/
def memPutAll (f : Option Nat) : Mem → Nat → Bytes → Mem
  | m, _, [] => m
  | m, a, b :: bs => memPutAll f (memPut f m a b) (a + 1) bs

/-- Read `n` bytes from address `a`. -/
def memGet (f : Option Nat) (m : Mem) (a : Nat) : Nat → Bytes
  | 0 => []
  | n + 1 => memByte f m a :: memGet f m (a + 1) n

/-! ### Byte strings -/

/-- The `n` little-endian bytes of a number (R6). -/
def leBytes : Nat → Nat → Bytes
  | 0, _ => []
  | n + 1, v => BitVec.ofNat 8 v :: leBytes n (v / 256)

/-- A little-endian string of bytes as a number (R6). -/
def leNat : Bytes → Nat
  | [] => 0
  | b :: bs => b.toNat + 256 * leNat bs

/-- `n` bytes of `b` from offset `o`; bytes beyond its end read 0. -/
def slice (b : Bytes) (o n : Nat) : Bytes :=
  let p := (b.drop o).take n
  p ++ List.replicate (n - p.length) 0

/-- The little-endian field of `n` bytes at offset `o`. -/
def fieldAt (b : Bytes) (o n : Nat) : Nat := leNat (slice b o n)

/-- Bits [hi:lo] of the field of `n` bytes at offset `o`. -/
def bitsAt (b : Bytes) (o n hi lo : Nat) : Nat := fieldNat (fieldAt b o n) hi lo

/-- `n` zero bytes. -/
def zeros (n : Nat) : Bytes := List.replicate n 0

/-- `b` cut or padded with zeros to `n` bytes. -/
def padTo (n : Nat) (b : Bytes) : Bytes := slice b 0 n

/-- Apply `f` `n` times. -/
def iter {α : Type} (f : α → α) : Nat → α → α
  | 0, a => a
  | n + 1, a => iter f n (f a)

/-- Keep the elements of a list with their index. -/
def indexed {α : Type} (l : List α) : List (Nat × α) := (List.range l.length).zip l

/-- Fields of a record's DETAIL, each of 1, 2, 4 or 8 bytes, naturally aligned (R517): (size, value) pairs. -/
def packDetail (fs : List (Nat × Nat)) : Bytes :=
  fs.foldl (fun acc f => acc ++ zeros ((f.1 - acc.length % f.1) % f.1) ++ leBytes f.1 f.2) []

/-! ### Checks -/

/-- CRC-8 with polynomial x^8 + x^2 + x + 1, initial value 0, most significant bit first (R128). -/
def crc8 (bs : Bytes) : Byte :=
  bs.foldl (fun c b => iter (fun (x : Byte) => if x.msb then (x <<< 1) ^^^ 0x07 else x <<< 1) 8 (c ^^^ b)) 0

/-- CRC-32C, reflected, polynomial 0x1EDC_6F41 (R397). -/
def crc32c (bs : Bytes) : W32 :=
  ~~~ (bs.foldl (fun c b =>
    iter (fun (x : W32) => if x.getLsbD 0 then (x >>> 1) ^^^ 0x82F63B78 else x >>> 1) 8 (c ^^^ b.setWidth 32))
    0xFFFF_FFFF)

/-- CRC-64 with the ECMA-182 polynomial, initial value 0, no reflection (R455). -/
def crc64 (bs : Bytes) : W64 :=
  bs.foldl (fun c b =>
    iter (fun (x : W64) => if x.msb then (x <<< 1) ^^^ 0x42F0_E1EB_A9EA_3693 else x <<< 1) 8
      (c ^^^ BitVec.ofNat 64 (b.toNat * 2 ^ 56))) 0

/-! ### Register accesses (R557) -/

/-- What a write of a width at a byte offset makes of a 64-bit register holding `old`: none where the access breaks the
rule of R557 and is ignored. -/
def regMerge (old : W64) (offset width : Nat) (value : W64) : Option W64 :=
  if offset = 0 ∧ width = 64 then some value
  else if offset = 0 ∧ width = 32 then some ((old &&& 0xFFFF_FFFF_0000_0000) ||| (value &&& 0xFFFF_FFFF))
  else if offset = 4 ∧ width = 32 then some ((old &&& 0xFFFF_FFFF) ||| (value <<< 32))
  else none

/-! ### State accessors -/

def State.mvOf (s : State) (n : Nat) : Mvmt := tget {} s.mv n
def State.setMv (s : State) (n : Nat) (m : Mvmt) : State := { s with mv := tset {} s.mv n m }
def State.seqOf (s : State) (v : Nat) : Seq := tget {} s.seq v
def State.setSeq (s : State) (v : Nat) (q : Seq) : State := { s with seq := tset {} s.seq v q }
def State.qOf (s : State) (k : Nat) : Queue := tget {} s.queue k
def State.setQ (s : State) (k : Nat) (q : Queue) : State := { s with queue := tset {} s.queue k q }
def State.matOf (s : State) (n : Nat) : Matrix := tget {} s.matrix n
def State.setMat (s : State) (n : Nat) (m : Matrix) : State := { s with matrix := tset {} s.matrix n m }
def State.vecOf (s : State) (n : Nat) : Vector := tget {} s.vector n
def State.setVec (s : State) (n : Nat) (m : Vector) : State := { s with vector := tset {} s.vector n m }
def State.skOf (s : State) (n : Nat) : Skiver := tget {} s.skiver n
def State.setSk (s : State) (n : Nat) (m : Skiver) : State := { s with skiver := tset {} s.skiver n m }
def State.brOf (s : State) (n : Nat) : Bridle := tget {} s.bridle n
def State.setBr (s : State) (n : Nat) (m : Bridle) : State := { s with bridle := tset {} s.bridle n m }
def State.awOf (s : State) (d : Nat) : AwDieSt := tget {} s.aw d
def State.setAw (s : State) (d : Nat) (a : AwDieSt) : State := { s with aw := tset {} s.aw d a }
def State.stackOf (s : State) (n : Nat) : StackSt := tget {} s.stack n
def State.setStack (s : State) (n : Nat) (a : StackSt) : State := { s with stack := tset {} s.stack n a }
def State.domOf (s : State) (n : Nat) : Domain := tget {} s.domains n
def State.setDom (s : State) (n : Nat) (a : Domain) : State := { s with domains := tset {} s.domains n a }
def State.fnOf (s : State) (f : Nat) : FnState := tget {} s.fns f
def State.setFn (s : State) (f : Nat) (a : FnState) : State := { s with fns := tset {} s.fns f a }
def State.sqOf (s : State) (f q : Nat) : Sq := tget {} (s.fnOf f).sq q
def State.setSq (s : State) (f q : Nat) (a : Sq) : State :=
  s.setFn f { s.fnOf f with sq := tset {} (s.fnOf f).sq q a }
def State.cqOf (s : State) (f q : Nat) : Cq := tget {} (s.fnOf f).cq q
def State.setCq (s : State) (f q : Nat) (a : Cq) : State :=
  s.setFn f { s.fnOf f with cq := tset {} (s.fnOf f).cq q a }
def State.slotOf (s : State) (n : Nat) : Slot := tget .empty s.slots n
def State.setSlot (s : State) (n : Nat) (a : Slot) : State := { s with slots := tset .empty s.slots n a }
def State.portOf (s : State) (p : Nat) : PortSt := tget {} s.ports p
def State.setPort (s : State) (p : Nat) (a : PortSt) : State := { s with ports := tset {} s.ports p a }
def State.linkOf (s : State) (d : Nat) : LinkDie := tget {} s.links d
def State.setLink (s : State) (d : Nat) (a : LinkDie) : State := { s with links := tset {} s.links d a }
def State.pathOf (s : State) (p : Nat) : Path := tget {} s.paths p
def State.setPath (s : State) (p : Nat) (a : Path) : State := { s with paths := tset {} s.paths p a }
def State.tableOf (s : State) (t : Nat) : Live := tget {} s.tables t
def State.setTable (s : State) (t : Nat) (a : Live) : State := { s with tables := tset {} s.tables t a }

/-- Add a transmission to the record of outputs. -/
def State.emit (s : State) (o : Out) : State := { s with out := s.out ++ [o] }

/-- Change the running step, if any. -/
def State.onRun (s : State) (f : Run → Run) : State := { s with run := s.run.map f }

/-- Take the number of the next free value. -/
def State.bump (s : State) : State := { s with free := s.free + 1 }

/-! ### Boot tables (R510) -/

/-- The shipped defaults of the boot tables (R35, R49, R267, R293, R366, R409, R551); what no shipped default is given
for is a DESIGN CHOICE (log 12). -/
def defaultTables : TableSet :=
  { balanceMarginPct := 8
    reg := { vddCdMv := 800, excPowerW := 2100, excUs := 2000, coreLimitA := 1000, rampAPerUs := 150, stepA := 40,
             throttleDigital := 100, throttleAnalog := 80 }
    trim := { gwMin := [1, 1, 1, 1], gwMargin := 1, rateFactor := 4, refreshLimit := 16, verifyWindow := 10,
              maxPulses := 16, settleMs := 20, transientLimit := 3 }
    eccT := 4, place := 0, linkEnable := List.replicate 20 true, minWidth := List.replicate 20 4
    grants := [2, 2, 2, 2, 8, 8, 3, 3], laneThreshold := 0, hostPortSplit := [false, false]
    vfCounts := [16, 80, 78, 78], level := 1, svn := 0, commit := false, body := [], sigMl := [], sigEc := []
    owner := none }

/-- The boot tables in force. -/
def State.tbl (s : State) : TableSet := s.boot.set.getD defaultTables

/-- The trim table of an analogue die: the one it loaded at INIT (R267, R545). -/
def State.trimOf (s : State) (d : Nat) : TrimTable := ((tget {} s.aw d).trimTab).getD s.tbl.trim

/-- Table level of the package (R510). -/
def State.level (s : State) : Nat := s.tbl.level

/-- Whether the boot has reached HOST_READY: STAGE 5 or 6 (R547, R549). -/
def State.hostUp (s : State) : Bool := s.power.stage == 5 || s.power.stage == 6

/-- Whether the part is an LX (R1). -/
def State.isLX (s : State) : Bool := s.fuses.grade == 3

/-! ### Functions (R366) -/

/-- The physical function of function `f` and its VF index, none for a PF (R366). -/
def pfOf (counts : List Nat) (f : Nat) : Nat × Option Nat :=
  if f < 4 then (f, none)
  else
    let i := f - 4
    let a := counts.getD 0 0
    let b := a + counts.getD 1 0
    let c := b + counts.getD 2 0
    if i < a then (0, some i) else if i < b then (1, some (i - a)) else if i < c then (2, some (i - b))
    else (3, some (i - c))

/-- Whether function `f` is enabled (R366). -/
def State.fnEnabled (s : State) (f : Nat) : Bool :=
  match pfOf s.tbl.vfCounts f with
  | (_, none) => f < 4
  | (p, some i) => (s.fnOf p).vfEnable && i < (s.fnOf p).numVfs

/-- The host link of function `f` (R337): 0 to 3 for 0a, 0b, 1a, 1b; an x16 port uses its link a. -/
def State.linkOfFn (s : State) (f : Nat) : Nat :=
  match (pfOf s.tbl.vfCounts f).1 with
  | 0 => 0
  | 1 => 2
  | 2 => if s.tbl.hostPortSplit.getD 0 false then 1 else 0
  | _ => if s.tbl.hostPortSplit.getD 1 false then 3 else 2

/-! ### The movement grid (R27, R28, R29) -/

/-- Engine type codes of the physical movements, in index order (R27, R28). -/
def gridTypes : List Nat :=
  [5, 6, 6, 9, 8, 6, 6, 5,
   3, 2, 1, 2, 2, 1, 2, 3,
   2, 1, 2, 4, 4, 2, 1, 2,
   7, 2, 1, 2, 2, 1, 2, 7,
   3, 2, 1, 2, 2, 1, 2, 3,
   2, 1, 2, 4, 4, 2, 1, 2,
   3, 2, 1, 2, 2, 1, 2, 3,
   5, 6, 6, 3, 3, 6, 6, 5]

/-- Engine type of physical movement `n` (R27). -/
def typeOf (n : Nat) : Nat := gridTypes.getD n 0

/-- Ordinal of movement `n` within its type, in a list of types (R27, R76). -/
def ordinalIn (types : List Nat) (n : Nat) : Nat :=
  ((types.take n).filter (· == types.getD n 0)).length

/-- The movement of type `t` and ordinal `k` (R27). -/
def nthOfType (types : List Nat) (t k : Nat) : Nat :=
  (((indexed types).filter (fun e => e.2 == t)).map (·.1)).getD k 0

/-- The C movement (R27). -/
def cMove : Nat := 3

/-- Physical movement of virtual movement `v`, as the running step latched it (R130). -/
def State.phys (s : State) (v : Nat) : Nat :=
  match s.run with
  | some r => r.map.getD v v
  | none => v

/-- Virtual movement served by physical movement `n` in the running step. -/
def State.virt (s : State) (n : Nat) : Nat :=
  match s.run with
  | some r => r.map.idxOf n
  | none => n

/-- Whether an enabled-engine mask is one of the grade's (R1, R29): every slot on an AX part; all but two M and four V slots on
a BX part; all but W0 to W3 on an LX part. No other grade code is issued (R2). -/
def gradeOk (grade : Nat) (mask : W64) : Bool :=
  let on (n : Nat) : Bool := mask.getLsbD n
  let of_ (t : Nat) : Nat := ((List.range 64).filter fun n => typeOf n == t && on n).length
  match grade with
  | 1 => mask == BitVec.allOnes 64
  | 2 => of_ 1 == 10 && of_ 2 == 20 && (List.range 64).all fun n => typeOf n == 1 || typeOf n == 2 || on n
  | 3 => (List.range 64).all fun n => on n == (typeOf n != 5)
  | _ => false

/-- Whether the engine slot of movement `n` is enabled (R29). -/
def State.engineOn (s : State) (n : Nat) : Bool := s.fuses.engineMask.getLsbD n

/-! ### Location codes (R20 to R25) -/

/-- A location code from its fields (R20). -/
def loc (depth pkg site die region unit macro_ cell : Nat) : W64 :=
  BitVec.ofNat 64 (depth * 2 ^ 61 + pkg * 2 ^ 57 + site * 2 ^ 53 + die * 2 ^ 49 + region * 2 ^ 41 + unit * 2 ^ 29
    + macro_ * 2 ^ 21 + cell)

/-- A unit of a movement on the compute die, DEPTH 3 (R24). -/
def cdLoc (mv unit : Nat) : W64 := loc 3 0 0 0 mv unit 0 0
/-- A physical pane, DEPTH 2 (R24, R25). -/
def paneLoc (d g pos : Nat) : W64 := loc 2 0 (9 + d) 0 (g / 128) g pos 0
/-- A cell of a pane, DEPTH 1 (R24). -/
def cellLoc (d g pos row col pol : Nat) : W64 := loc 1 0 (9 + d) 0 (g / 128) g pos (row * 512 + col * 2 + pol)
/-- A pane group, DEPTH 3. -/
def groupLoc (d g : Nat) : W64 := loc 3 0 (9 + d) 0 (g / 128) g 0 0
/-- A shell block of an analogue die, a base-die block, or a die-wide block of a link die, DEPTH 3. -/
def blockLoc (site unit : Nat) : W64 := loc 3 0 site 0 0xFF unit 0 0
/-- A unit of a fabric port, DEPTH 3 (R428, R461). -/
def portLoc (p unit : Nat) : W64 := loc 3 0 (13 + p / 10) 0 (p % 10) unit 0 0
/-- A whole die, DEPTH 5. -/
def dieLoc (site : Nat) : W64 := loc 5 0 site 0 0 0 0 0
/-- A site's power domain, DEPTH 5 (R551). -/
def powerLoc (site : Nat) : W64 := loc 5 0 site 0xE 0 0 0 0
/-- A package-level location, DEPTH 7: every field below PACKAGE is 0 (R21; R20's SITE 0xF is not used, DESIGN CHOICE,
log 137). -/
def packageLoc (pkg : Nat) : W64 := loc 7 pkg 0 0 0 0 0 0

/-- The site a record is counted under: 15 for package-level locations and for none (R522, R524). -/
def siteOf (l : W64) : Nat :=
  let n := l.toNat
  if fieldNat n 63 61 = 0 ∨ fieldNat n 60 57 ≠ 0 then 15 else fieldNat n 56 53

/-! ### Events (R515 to R524) -/

/-- CLASS of an event code (R518, R555). -/
def eventClass (c : Nat) : Nat :=
  if c ∈ [0x0102, 0x0103, 0x0104, 0x0105, 0x0208, 0x0209, 0x020D, 0x0506, 0x0507, 0x0602, 0x0702, 0x0703,
          0x0902, 0x0903, 0x0904, 0x0905] then 0
  else if c ∈ [0x0101, 0x0108, 0x0109, 0x0201, 0x0204, 0x0205, 0x0206, 0x020C, 0x0302, 0x0306, 0x0307, 0x0505, 0x0605,
               0x0607, 0x0608, 0x0609, 0x0701, 0x0705, 0x0806] then 1
  else if c ∈ [0x0106, 0x0107, 0x0202, 0x0203, 0x0207, 0x020A, 0x0301, 0x0303, 0x0305, 0x0401, 0x0402, 0x0502, 0x0503,
               0x0504, 0x0601, 0x0603, 0x0604, 0x0606, 0x0706, 0x0803, 0x0805, 0x0901] then 2
  else if c = 0x0804 then 4
  else 3

/-- Latch ordinal of an alarm (R518, R555). -/
def alarmOrdinal (c : Nat) : Nat :=
  ([0x0102, 0x0103, 0x0104, 0x0105, 0x0208, 0x0209, 0x020D, 0x0506, 0x0507, 0x0602, 0x0702, 0x0703,
    0x0902, 0x0903, 0x0904, 0x0905].idxOf c)

/-- The highest class among a queue's records. -/
def worstClass (q : List (Nat × Rec)) : Nat := q.foldl (fun m e => max m e.2.cls) 0

/-- Drop the newest record of class `v` (R522): the queue without it, and the record. -/
def dropNewest (v : Nat) (q : List (Nat × Rec)) : List (Nat × Rec) × Option Rec :=
  match (indexed q).reverse.find? (fun e => e.2.2.cls == v) with
  | some (i, e) => (q.take i ++ q.drop (i + 1), some e.2)
  | none => (q, none)

/-- Replace element `i` of a list by `f` of it. -/
def modAt (l : List Nat) (i : Nat) (f : Nat → Nat) : List Nat := l.set i (f (l.getD i 0))

/-! ### Sets that a clear may coincide with (R12) -/

/-- Keys of the W1C and RC fields: WRITE_IGNORED; SHADOW_ERR and DOORBELL_IGNORED of a function; a drop counter. -/
def keyIgnored : Nat := 0
def keyShadow (f : Nat) : Nat := 1 + 2 * f
def keyDoorbell (f : Nat) : Nat := 2 + 2 * f
def keyDrop (k : Nat) : Nat := 1024 + k

/-- The sets of the present ns. -/
def State.freshNow (s : State) : Fresh := if s.fresh.ns = s.ns then s.fresh else { ns := s.ns }

/-- Note a set of a W1C or RC field by the hardware. -/
def State.noteSet (s : State) (k : Nat) : State :=
  let f := s.freshNow
  { s with fresh := { f with sets := tset 0 f.sets k (tget 0 f.sets k + 1) } }

/-- Sets of a field that a clear now coincides with: two events at one ns coincide (DESIGN CHOICE, log 139). -/
def State.coinciding (s : State) (k : Nat) : Nat := tget 0 s.freshNow.sets k

/-- Count in a drop counter, saturating (R523). -/
def countDropped (s : State) (k : Nat) : State := { s with drops := tset 0 s.drops k (satNat 32 (tget 0 s.drops k + 1)) }

/-- Count a dropped record (R522, R523). -/
def countDrop (s : State) (p : Nat) (r : Rec) : State :=
  let pa := s.pathOf p
  let k := 80 * p + 16 * r.cls + siteOf r.loc
  let first := if pa.dropped.all (· == 0) then r.stamp else pa.firstDrop
  let s := s.setPath p { pa with
    dropped := modAt pa.dropped r.cls (fun n => satNat 32 (n + 1)), firstDrop := first, lastDrop := r.stamp
    siteMask := pa.siteMask ||| BitVec.ofNat 16 (2 ^ siteOf r.loc), summary := true }
  (countDropped s k).noteSet (keyDrop k)

/-- FLOOR of a path: 5 to 7 are taken as 4 (R519). -/
def pathFloor (c : W64) : Nat := min 4 (fieldNat c.toNat 3 1)

/-- Whether a record of a class is offered to a path (R519, R521). -/
def offered (p : Nat) (c : W64) (cls : Nat) : Bool :=
  c.getLsbD 0 && (cls == 0 || decide (cls ≤ pathFloor c)) && (p != 2 || c.getLsbD 32)

/-- Offer a record to a path (R519, R522). -/
def offer (s : State) (r : Rec) (p : Nat) : State :=
  let pa := s.pathOf p
  if offered p pa.ctrl r.cls then
    let pa' := { pa with pseq := (pa.pseq + 1) % 2 ^ 32 }
    if pa.queue.length < 256 then s.setPath p { pa' with queue := pa.queue ++ [(pa.pseq, r)] }
    else
      let q := pa.queue ++ [(pa.pseq, r)]
      let v := worstClass q
      if v = 0 then countDrop (s.setPath p pa') p r
      else
        match dropNewest v q with
        | (q', some r') => countDrop (s.setPath p { pa' with queue := q' }) p r'
        | (_, none) => s.setPath p pa'
  else s

/-- The latch bit of an alarm (R524). -/
def latchBit (r : Rec) : Nat := 16 * alarmOrdinal r.code + siteOf r.loc

/-- Set the latch bit of an alarm and capture its first occurrence (R524). -/
def latchPut (s : State) (r : Rec) : State :=
  let bit := latchBit r
  match tfind s.latch bit with
  | some c => { s with latch := tput bit { c with count := satNat 16 (c.count + 1) } s.latch }
  | none =>
    let after := s.latch.filter (fun e => decide (bit < e.1 ∧ e.2.cgroup = r.cgroup))
    let l := s.latch.map (fun e => if bit < e.1 ∧ e.2.cgroup = r.cgroup then (e.1, { e.2 with rank := e.2.rank + 1 })
                                   else e)
    { s with latch := tput bit { code := r.code, loc := r.loc, stamp := r.stamp, count := 1, cgroup := r.cgroup
                                 rank := s.latch.length - after.length } l }

/-- Latch an alarm, and note it for a clear that coincides (R12, R524). -/
def latchAlarm (s : State) (r : Rec) : State :=
  let f := s.freshNow
  latchPut { s with fresh := { f with alarms := f.alarms ++ [r] } } r

/-- Clear latch bits (R524); a bit set in the same ns is left set, its sets counted as new (R12). -/
def latchClear (s : State) (hit : Nat → Bool) : State :=
  let again := s.freshNow.alarms.filter fun r => hit (latchBit r)
  again.foldl latchPut { s with latch := s.latch.filter fun e => !hit e.1 }

/-- The latch bits that a write of a width at a byte offset of the bitmap clears (R524). -/
def latchHit (offset width : Nat) (value : W64) (b : Nat) : Bool :=
  decide (8 * offset ≤ b ∧ b < 8 * offset + width) && value.getLsbD (b - 8 * offset)

/-- Give an arriving record the concurrency group its alarm is ranked in (R524). -/
def joinGroup (s : State) (stamp : Nat) : State :=
  if stamp ≤ s.groupStamp + 4 then { s with groupStamp := max s.groupStamp stamp }
  else { s with groupStamp := stamp, groupNo := (s.groupNo + 1) % 2 ^ 24 }

/-- Device order within a step (R66): beat, virtual movement, event index. -/
def earlier (b v e b' v' e' : Nat) : Bool :=
  decide (b < b') || (decide (b = b') && (decide (v < v') || (decide (v = v') && decide (e < e'))))

/-- Whether plan position `p` comes before `q` in the device order (R66). -/
def PlanPos.before (p q : PlanPos) : Bool :=
  decide (p.step < q.step) || (decide (p.step = q.step) && earlier p.beat p.vmove p.event q.beat q.vmove q.event)

/-- Whether record `r` goes before record `x` (R66 to R68): two plan events by the device order, otherwise by stamp. -/
def goesBefore (r x : Rec) : Bool :=
  match r.plan, x.plan with
  | some p, some q => p.before q
  | _, _ => decide (r.stamp < x.stamp)

/-- Put a record into the hub's order: before the first record that it goes before (log 101). -/
def hubPut (r : Rec) : List Rec → List Rec
  | [] => [r]
  | x :: xs => if goesBefore r x then r :: x :: xs else x :: hubPut r xs

/-- Whether nothing that goes before a record can still come (R66, R68): a plan event's beat is done at every movement and
no command issued before it is unfinished; while a breach is unreported its PLAN_FAULT is awaited. -/
def State.hubReady (s : State) (r : Rec) : Bool :=
  match s.run with
  | none => true
  | some x =>
    (s.stop.state != 1 || x.breaches.isEmpty) &&
      (match r.plan with
       | none => true
       | some p => decide (p.step ≠ x.number) || (decide (p.beat < x.settled)
           && s.queue.all fun e => e.2.cmds.all fun c => c.done || !c.pos.before p))

/-- The hub after a record with a stamp: its concurrency group is the latest record's, or a new one (R67, R516). -/
def Hub.join (h : Hub) (stamp : Nat) : Hub :=
  if stamp ≤ h.stamp + 4 ∧ h.stamp ≤ stamp + 4 then { h with stamp := max h.stamp stamp }
  else { h with stamp := stamp, group := (h.group + 1) % 2 ^ 24 }

/-- Number a record's concurrency group and pass it on to the paths (R516, R519). -/
def passOn (s : State) (r : Rec) : State :=
  let h := s.hub.join r.stamp
  let r := { r with cgroup := h.group }
  offer (offer (offer { s with hub := h } r 0) r 1) r 2

/-- Pass on the records at the head of the hub's order that nothing can go before any more. -/
def hubDrain : Nat → State → State
  | 0, s => s
  | n + 1, s =>
    match s.hub.held with
    | r :: rs => if s.hubReady r then hubDrain n (passOn { s with hub := { s.hub with held := rs } } r) else s
    | [] => s

/-- Pass on what can be passed on. -/
def hubRelease (s : State) : State := hubDrain s.hub.held.length s

/-- Deliver a finished record to the latch and the hub (R516, R524), and mark a fault of a grid step (R481). -/
def deliver (s : State) (r : Rec) : State :=
  let s := joinGroup s r.stamp
  let r := { r with cgroup := s.groupNo, address := s.fabric.place }
  let s := if r.cls = 0 then latchAlarm s r else s
  let s := if r.cls ≤ 1 ∧ s.run.isSome then { s with grid := { s.grid with faulted := true } } else s
  hubRelease { s with hub := { s.hub with held := hubPut r s.hub.held } }

/-- Raise an event (R515) with its stamp. -/
def raiseAt (s : State) (stamp code : Nat) (l : W64) (detail : Bytes := []) (plan : Option PlanPos := none)
    (fn : Nat := 0x1FF) (rehearsal : Nat := 0) : State :=
  deliver s { code := code, cls := eventClass code, fn := fn, loc := l, stamp := stamp, plan := plan
              rehearsal := rehearsal, detail := detail }

/-- Raise an event (R515): its code, location, function, plan position and detail bytes, stamped now; every local copy of the
chronometer is equal to the C movement's count (R59; DESIGN CHOICE, log 141). -/
def raise (s : State) (code : Nat) (l : W64) (detail : Bytes := []) (plan : Option PlanPos := none)
    (fn : Nat := 0x1FF) (rehearsal : Nat := 0) : State :=
  raiseAt s s.chron.count code l detail plan fn rehearsal

/-- The 128 bytes of a record on a path (R515). -/
def recBytes (r : Rec) (pseq : Nat) (phase : Bool) : Bytes :=
  let w0 := r.code + r.cls * 2 ^ 16 + natOfBool r.plan.isSome * 2 ^ 19 + r.fn * 2 ^ 20 + natOfBool phase * 2 ^ 31
  let p := r.plan.getD { step := r.step.getD (2 ^ 64 - 1), beat := 0, vmove := 0, event := 0 }
  leBytes 4 w0 ++ leBytes 4 r.address.toNat ++ leBytes 8 r.loc.toNat ++ leBytes 8 r.stamp
    ++ leBytes 8 (pseq + r.cgroup * 2 ^ 32) ++ leBytes 8 p.step ++ leBytes 8 p.beat
    ++ leBytes 4 (p.vmove + p.event * 64) ++ leBytes 4 r.rehearsal ++ zeros 8 ++ padTo 64 r.detail

/-! ### What ends a step -/

/-- End the running step with a device fault (R110, R359): the first one is reported; no op issues any more (DESIGN
CHOICE, log 9). -/
def deviceFault (s : State) (code : Nat) (l : W64) : State :=
  s.onRun fun r =>
    { r with fault := r.fault.or (some { loc := l, code := code, stamp := s.chron.count }), stopped := true }

/-- Request a global stop (R531): the first request freezes the floor. -/
def requestStop (s : State) (cause : Nat) (ending : Bool) (floor : Nat) : State :=
  let st := s.stop
  if st.state = 0 then
    { s with stop := { st with state := 1, ending := ending, causes := 2 ^ cause, beat := floor } }
  else { s with stop := { st with ending := st.ending || ending, causes := st.causes ||| 2 ^ cause } }

/-- The sequence of floor terms: plan beats issued by each movement (R530). -/
def State.beatsOf (s : State) : List Nat := (List.range 64).map (fun n => (s.mvOf n).beats)

/-- One more than the die's floor: the least number of plan beats a movement has issued (R530). -/
def State.floor1 (s : State) : Nat := s.beatsOf.foldl min ((s.mvOf 0).beats)

/-- Request a resumable stop: with no step running it stands at plan beat 0 of the next step (R533). -/
def resumableStop (s : State) (cause : Nat) : State :=
  requestStop s cause false (if s.run.isNone then 0 else s.floor1 + 15)

/-- Record a breach and request a global stop for it (R109). The stop beat is F + 16 with F the floor (R531). -/
def breach (s : State) (b : Breach) : State :=
  match s.run with
  | none => s
  | some _ => requestStop (s.onRun fun r => { r with breaches := r.breaches ++ [b] }) 0 true (s.floor1 + 15)

/-! ### Completions (R357, R362 to R365, R384) -/

/-- PASID of a CQ's or SQ's writes (R339). -/
def pasidOf (en : Bool) (p : Nat) : Option Nat := if en then some p else none

/-- Send or hold an MSI-X message of vector `v` of function `f` (R382, R385). -/
def sendMsix (s : State) (f v : Nat) : State :=
  let fs := s.fnOf f
  let i := v % 8
  let e := tget {} fs.msix i
  if fs.inReset then s
  else if e.masked || fs.fnMask then s.setFn f { fs with pba := fs.pba ||| BitVec.ofNat 64 (2 ^ i) }
  else (s.setFn f { fs with pba := fs.pba &&& ~~~ BitVec.ofNat 64 (2 ^ i) }).emit (.msix v)

/-- Send the held message of a vector that is unmasked: it covers every completion then pending on the CQs of that vector
(R385). -/
def sendHeldMsix (s : State) (f i : Nat) : State :=
  if ¬ (s.fnOf f).pba.getLsbD i ∨ (s.fnOf f).fnMask then s
  else
    sendMsix ((List.range 16).foldl (fun s k =>
      let c := s.cqOf f k
      if c.vector = 8 * f + i then s.setCq f k { c with pendingIrq := 0 } else s) s) f (8 * f + i)

/-- Count a completion toward its CQ's message, and send it when COUNT are pending (R384). -/
def coalesce (s : State) (f q : Nat) (irq : Bool) : State :=
  let c := s.cqOf f q
  if irq && c.irqEn then
    let n := c.pendingIrq + 1
    let first := if c.pendingIrq = 0 then s.ns else c.firstIrqNs
    if max 1 c.coalCount ≤ n then
      sendMsix (s.setCq f q { c with pendingIrq := 0, firstIrqNs := first }) f c.vector
    else s.setCq f q { c with pendingIrq := n, firstIrqNs := first }
  else s

/-- The result fields of a completion (R358). -/
structure Results where
  r0 : Nat := 0
  r1 : Nat := 0
  r2 : Nat := 0
  r3 : Nat := 0
  flags  : Nat := 0
  sflags : Nat := 0
deriving DecidableEq, Repr

/-- The 32 bytes of a completion entry (R357). -/
def completionBytes (a : Acc) (status detail : Nat) (r : Results) (phase : Bool) : Bytes :=
  leBytes 2 (fieldAt a.desc 2 2) ++ leBytes 1 (fieldAt a.desc 0 1) ++ leBytes 1 status ++ leBytes 2 detail
    ++ leBytes 1 r.flags ++ leBytes 1 r.sflags ++ leBytes 8 r.r0 ++ leBytes 4 r.r1 ++ leBytes 2 r.r2
    ++ leBytes 2 (satNat 16 a.windows) ++ leBytes 4 r.r3
    ++ leBytes 4 (a.sqHead % 65536 + a.sq * 2 ^ 16 + natOfBool phase * 2 ^ 31)

/-- Write the completion of an accepted descriptor and release it (R346, R357, R364, R365). -/
def complete (s : State) (acc status detail : Nat) (r : Results := {}) : State :=
  match tfind s.intake.acc acc with
  | none => s
  | some a =>
    let s := { s with intake := { s.intake with acc := tdel acc s.intake.acc } }
    let c := s.cqOf a.fn a.cq
    if a.mute then s
    else if (s.fnOf a.fn).inReset then s.setCq a.fn a.cq { c with resv := c.resv - 1 }
    else if c.stopped then
      raise (s.setCq a.fn a.cq { c with resv := c.resv - 1, unwritten := c.unwritten + 1 }) 0x0401 0
        (leBytes 1 (16 + a.cq) ++ leBytes 1 2 ++ leBytes 2 (fieldAt a.desc 2 2)) none a.fn
    else
      let n := 2 ^ c.sizeLog2
      let addr := c.base + BitVec.ofNat 64 (32 * c.tail)
      let s := s.emit (.dma a.fn (pasidOf c.pasidEn c.pasid) addr (completionBytes a status detail r c.phase) false)
      let wrap := decide (n ≤ c.tail + 1)
      let s := s.setCq a.fn a.cq
        { c with tail := if wrap then 0 else c.tail + 1, phase := if wrap then !c.phase else c.phase, resv := c.resv - 1 }
      coalesce s a.fn a.cq (bitNat (fieldAt a.desc 0 2) 8)

/-- A DMA write of an accepted descriptor's function, without relaxed ordering (R338). -/
def hostWrite (s : State) (fn : Nat) (pasid : Option Nat) (addr : W64) (data : Bytes) (relaxed : Bool := false) : State :=
  if (s.fnOf fn).inReset then s else s.emit (.dma fn pasid addr data relaxed)

/-- Detail of a host error (R361). -/
def hostDetail : HostData → Nat
  | .ok _ => 0
  | .urca => 0x1201
  | .poison => 0x1202
  | .timeout => 0x1203

end Sys2Proof.Machine
end

