-- ==== Sys2Proof/Machine/Flags.lean ====
section
/-!
DEFINITION. The sticky flags of a step and its status flags (R170, R171, R357): their bits, and how an event sets them
in the running step.
-/

namespace Sys2Proof.Machine

/-! ### Sticky flags (R170) -/

def flInvalid : Nat := 1
def flDivzero : Nat := 2
def flOverflow : Nat := 4
def flUnderflow : Nat := 8
def flInexact : Nat := 16
def flSaturated : Nat := 32
def flTiny : Nat := 64
def flWindow : Nat := 128

/-- The flag `f` when `c` holds. -/
def flagIf (c : Bool) (f : Nat) : Nat := if c then f else 0

/-- Sticky flags of a step (R170, R171): `f` the flags raised, by the op at `pos`; the flag record keeps the first op in
device order. -/
def raiseFlags (s : State) (f : Nat) (pos : PlanPos) : State :=
  s.onRun fun r =>
    let recs := (List.range 8).foldl (fun (t : Tbl FlagRec) i =>
      if bitNat f i then
        match tfind t i with
        | some o =>
          if earlier pos.beat pos.vmove pos.event o.beat o.vmove o.event then
            tput i { beat := pos.beat, vmove := pos.vmove, event := pos.event } t
          else t
        | none => tput i { beat := pos.beat, vmove := pos.vmove, event := pos.event } t
      else t) r.flagRecs
    { r with flags := r.flags ||| f, flagRecs := recs }

/-- Set a status flag of the running step (R357). -/
def setSflag (s : State) (i : Nat) : State := s.onRun fun r => { r with sflags := r.sflags ||| 2 ^ i }

end Sys2Proof.Machine
end

