-- ==== Sys2Proof/Machine/Tables.lean ====
section
/-!
DEFINITION. Lookups of the live tables (R564 to R567): which copy of an entry a lookup sees, the checks of 4-byte and
8-byte entries, and the entries of the quota, page class and movement-map tables. Also the record of a session (R537 to
R539).
-/

namespace Sys2Proof.Machine

/-- The free choice number `i` of a command, for use `t` (R5, R566). -/
def State.choice (s : State) (t i : Nat) : Nat := Config.freeNat ((s.free * 16 + t) * 65536 + i)

/-! ### Lookups (R566) -/

/-- What an unlisted entry of a live table reads as: its reset value (R373 for the cadence table; 0 elsewhere). -/
def entryReset (t : Nat) : W64 := if t = 6 then 0x3100_0000_000A_8000 else 0

/-- Entry `k` of the active copy of a live table. -/
def State.activeEntry (s : State) (t k : Nat) : W64 := tget (entryReset t) (s.tableOf t).active k

/-- Entry `k` of live table `t` as a lookup sees it: while its replicas apply an unprescribed write, the old entry, the
torn one (none) or the new one, freely, after several writes any of the old ones; otherwise the active copy. -/
def State.look (s : State) (t k : Nat) : Option W64 :=
  let l := s.tableOf t
  match tfind l.updating k with
  | none => some (s.activeEntry t k)
  | some olds =>
    let c := s.choice t k % (olds.length + 2)
    if c < olds.length then olds[c]?
    else if c = olds.length then none
    else some (s.activeEntry t k)

/-- Whether a 4-byte entry's CHECK holds (R128). -/
def check4 (e : Nat) : Bool := (crc8 (leBytes 3 e)).toNat == fieldNat e 31 24

/-- Whether an 8-byte entry's CHECK holds (R289, R311, R369, R373). -/
def check8 (e : Nat) : Bool := (crc8 (leBytes 7 e)).toNat == fieldNat e 63 56

/-- An 8-byte entry that is whole, passes its check and has bits [hi:lo] 0 (R11). -/
def State.look8 (s : State) (t k hi lo : Nat) : Option Nat :=
  match s.look t k with
  | some e => if check8 e.toNat ∧ fieldNat e.toNat hi lo = 0 then some e.toNat else none
  | none => none

/-! ### Quotas and page classes -/

def tblMove : Nat := 1
def tblFabric : Nat := 2
def tblDomain : Nat := 3
def tblClass : Nat := 4
def tblFn : Nat := 5
def tblCadence : Nat := 6
def tblFlat : Nat := 7
def tblDim : Nat := 8
def tblPort : Nat := 9

/-- QUOTA of a domain for new reservations (R289). -/
def State.domainQuota (s : State) (d : Nat) : Nat :=
  match s.look8 tblDomain d 55 32 with
  | some e => fieldNat e 31 0
  | none => 0

/-- MAX_PAGES of a class for new pages (R311). -/
def State.classPages (s : State) (c : Nat) : Nat :=
  match s.look8 tblClass c 31 13 with
  | some e => fieldNat e 55 32
  | none => 0

/-- SLOT_ROWS as the page class table has it (R311). -/
def State.classRows (s : State) (c : Nat) : Nat :=
  match s.look tblClass c with
  | some e => fieldNat e.toNat 12 0
  | none => 0

/-- Quotas of a function, streams and pages (R369). -/
def State.fnQuota (s : State) (f : Nat) : Nat × Nat :=
  match s.look8 tblFn f 55 48 with
  | some e => if fieldNat e 23 21 = 0 then (fieldNat e 20 0, fieldNat e 47 24) else (0, 0)
  | none => (0, 0)

/-! ### The movement map (R128 to R130, R568) -/

/-- An entry of the movement map that passes the checks of its own fields (R129): PHYS. -/
def mapPhys (e : Nat) : Option Nat :=
  if check4 e ∧ bitNat e 6 ∧ fieldNat e 23 7 = 0 then some (fieldNat e 5 0) else none

/-- The movement map as one lookup sees it, entry by entry (R129). -/
def State.lookMap (s : State) : List (Option Nat) :=
  (List.range 64).map fun v => (s.look tblMove v).bind (fun e => mapPhys e.toNat)

/-- A W or X movement is served by the physical one of its own ordinal alone (R242, R447). -/
def ordinalOk (moves : List (Nat × Bool)) (v p : Nat) : Bool :=
  let t := typeOf p
  (t != 5 && t != 7) || ordinalIn (moves.map (·.1)) v == ordinalIn gridTypes p

/-- The physical movement of each virtual one, none where an entry fails its check for the plan's movements (R129, R242,
R447). -/
def State.latchMap (s : State) (moves : List (Nat × Bool)) : Option (List Nat) :=
  let m := s.lookMap
  if m.all (·.isSome) ∧ (m.map (·.getD 0)).Nodup ∧
      (indexed m).all (fun e =>
        let p := e.2.getD 0
        let mv := moves.getD e.1 (typeOf e.1, false)
        typeOf p == mv.1 && (!mv.2 || s.engineOn p) && ordinalOk moves e.1 p)
  then some (m.map (·.getD 0)) else none

/-! ### The record of a session (R537 to R539) -/

/-- MODE, DATA, SLIPS and SIZE of REPLAY_CTRL (R537). -/
def Replay.mode (r : Replay) : Nat := fieldNat r.ctrl.toNat 1 0
def Replay.data (r : Replay) : Bool := r.ctrl.getLsbD 2
def Replay.slipsOn (r : Replay) : Bool := r.ctrl.getLsbD 3
def Replay.size (r : Replay) : Nat := fieldNat r.ctrl.toNat 63 32 * 4096

/-- Whether this session is recorded, or replayed, now. -/
def State.recording (s : State) : Bool := s.replay.mode == 1 && !s.replay.lost && s.tenancy.phase == 2
def State.replaying (s : State) : Bool := s.replay.mode == 2 && s.tenancy.phase == 2

/-- The bytes of a log entry: header and content, in units of 16 bytes (R538). -/
def logBytes (kind step : Nat) (content : Bytes) : Bytes :=
  let n := (content.length + 15) / 16
  leBytes 8 (kind + (n + 1) * 2 ^ 8) ++ leBytes 8 step ++ padTo (16 * n) content

/-- A digest that the log names for a load is compared with what the load brings (R540): where it stands in the log is not
given, so it comes with the entry (DEDUCED, log 155). -/
def checkDigest (s : State) (acc : Nat) (d : Bytes) : State :=
  match (if s.replaying then tfind s.replay.digests acc else none) with
  | some x => if x = d then s else raise s 0x0806 0
  | none => s

/-- Append an entry to the log in PF0's memory; when the next would not fit, a LOST entry is written in the 16 bytes in
reserve, REPLAY_LOST is raised, and recording ends (R538, R539). The content's layout is a DESIGN CHOICE (log 45). -/
def logEntry (s : State) (kind step : Nat) (content : Bytes) : State :=
  if s.recording then
    let r := s.replay
    let b := logBytes kind step content
    let at_ := r.base + BitVec.ofNat 64 r.pos
    if r.pos + b.length + 16 ≤ r.size then
      hostWrite { s with replay := { r with pos := r.pos + b.length } } 0 none at_ b
    else
      raise (hostWrite { s with replay := { r with lost := true, pos := r.pos + 16 } } 0 none at_ (logBytes 9 step []))
        0x0805 0
  else s

end Sys2Proof.Machine
end

