-- ==== Sys2Proof/Machine/Place.lean ====
section
/-!
DEFINITION. The DRAM of the stacks as the engines use it: 4 KiB blocks of the tenancy area, reservations and key domains
(R283 to R292), data units with their encryption and ECC (R286, R293 to R296), and KV pages (R311 to R314, R317).
-/

namespace Sys2Proof.Machine

/-! ### Blocks of the tenancy area (R283, R292) -/

/-- 4 KiB blocks of one stack's tenancy area, 94 GiB (R283). -/
def stackBlocks : Nat := 24641536

/-- The lowest number from `n` that a rising list does not hold. -/
def firstFree : Nat → List Nat → Nat
  | n, [] => n
  | n, x :: xs => if x = n then firstFree (n + 1) xs else firstFree n xs

/-- Insert a number into a rising list. -/
def insertNat (x : Nat) : List Nat → List Nat
  | [] => [x]
  | y :: ys => if x < y then x :: y :: ys else if x = y then y :: ys else y :: insertNat x ys

/-- Whether each stack has room for the blocks placed on it (R292): the stack of each block. -/
def State.room (s : State) (sts : List Nat) : Bool :=
  (List.range 8).all fun st => decide ((s.stackOf st).used.length + sts.count st ≤ stackBlocks)

/-- A number below `limit` that the rising list `used` does not hold. Which one the part takes the spec leaves open: the
search begins at a free value (log 46). -/
def State.pickFree (s : State) (limit : Nat) (used : List Nat) : Nat :=
  let b := firstFree (Config.freeNat s.free % limit) used
  if b < limit then b else firstFree 0 used

/-- Take a free block of a stack (R283, R292; log 46). -/
def takeBlock (s : State) (st : Nat) : State × (Nat × Nat) :=
  let k := s.stackOf st
  let b := s.pickFree stackBlocks k.used
  ((s.setStack st { k with used := insertNat b k.used }).bump, (st, b))

/-- Take a block for each stack named, in order. -/
def takeBlocks (s : State) (sts : List Nat) : State × List (Nat × Nat) :=
  sts.foldl (fun r st => let t := takeBlock r.1 st; (t.1, r.2 ++ [t.2])) (s, [])

/-- Whether `n` blocks from block `b` of a stack are free. -/
def runFree (used : List Nat) (n b : Nat) : Bool :=
  decide (b + n ≤ stackBlocks) && used.all (fun u => decide (u < b ∨ b + n ≤ u))

/-- Take `n` contiguous blocks of one stack (R284): where the free value of the moment says, else the lowest place that has
them; where the stack's free blocks are in no such run, the blocks singly (DESIGN CHOICE, log 46). -/
def takeRun (s : State) (st n : Nat) : State × List (Nat × Nat) :=
  let used := (s.stackOf st).used
  match (Config.freeNat s.free % stackBlocks :: 0 :: used.map (· + 1)).find? (runFree used n) with
  | some b =>
    let bs := (List.range n).map (b + ·)
    let k := s.stackOf st
    ((s.setStack st { k with used := bs.foldl (fun l x => insertNat x l) k.used }).bump, bs.map fun x => (st, x))
  | none => takeBlocks s (List.replicate n st)

/-- Free blocks; the data units in them stay as they are, unread (R285). -/
def freeBlocks (s : State) (bs : List (Nat × Nat)) : State :=
  bs.foldl (fun s b => let k := s.stackOf b.1; s.setStack b.1 { k with used := k.used.filter (· != b.2) }) s

/-! ### Key domains (R287, R290 to R292) -/

/-- Whether a reservation of blocks passes its domain's quota (R292). -/
def State.quotaOk (s : State) (dom blocks : Nat) : Bool :=
  dom == 0 || decide ((s.domOf dom).used + blocks ≤ s.domainQuota dom)

/-- Whether one of the domains is RETIRING: a reservation for it waits for FREE (R291). -/
def State.retiring (s : State) (ds : List Nat) : Bool := ds.any (fun d => (s.domOf d).state == 2)

/-- Charge a reservation to a domain, whose key is generated when it has none (R287, R290, R291). -/
def reserveDomain (s : State) (dom blocks : Nat) : State :=
  let d := s.domOf dom
  match d.key with
  | some _ => s.setDom dom { d with used := d.used + blocks }
  | none =>
    (s.setDom dom { d with used := d.used + blocks, state := 1, epoch := satNat 24 (d.epoch + 1), key := some s.free }).bump

/-- Release blocks from a domain. -/
def releaseDomain (s : State) (dom blocks : Nat) : State :=
  let d := s.domOf dom
  s.setDom dom { d with used := d.used - blocks }

/-! ### Data units (R282, R286, R293 to R296) -/

/-- Location of a data unit, DEPTH 2 (R24, R282, R294). -/
def unitLoc (st u : Nat) : W64 := loc 2 0 (1 + st) 0 (u % 32) (u / 32 % 128) (u / 4096 % 256) 0

/-- Location of a failing symbol's first bit, DEPTH 1 (R294): the cell row is 2j or 2j + 1. -/
def symbolLoc (st u cell : Nat) : W64 :=
  loc 1 0 (1 + st) 0 (u % 32) (u / 32 % 128) (u / 4096 % 256) ((2 * (u / 1048576) + cell / 1024) * 1024 + cell % 1024)

/-- Unit index of unit `o` of a run of blocks: its stack and unit. -/
def unitOf (blocks : List (Nat × Nat)) (o : Nat) : Nat × Nat :=
  let b := blocks.getD (o / 16) (0, 0)
  (b.1, 16 * b.2 + o % 16)

/-- Erroneous symbols of codeword `w`, by the cells of their first bits (R293). -/
def UnitErr.word (e : UnitErr) (w : Nat) : List Nat := (e.symbols.filter (fun x => x.1 == w)).map (·.2)

/-- Whether the decoder reports codeword `w` uncorrectable (R293): beyond the correction radius T, surely with T 3 and 4 or 5
erroneous symbols, else where it does not miscorrect. -/
def UnitErr.fatalWord (e : UnitErr) (t w : Nat) : Bool :=
  let n := (e.word w).length
  decide (t < n) && ((t == 3 && decide (n ≤ 5)) || e.wrong.isNone)

/-- Whether a unit is uncorrectable under radius T. -/
def UnitErr.fatal (e : UnitErr) (t : Nat) : Bool := (List.range 4).any (e.fatalWord t)

/-- The codewords of a unit that a decoder of radius T corrects. -/
def UnitErr.corrected (e : UnitErr) (t : Nat) : List Nat :=
  (List.range 4).filter fun w => decide (1 ≤ (e.word w).length ∧ (e.word w).length ≤ t)

/-- Data units whose cells have failed (R293). -/
def upsetUnits (us : List UnitUpset) (s : State) : State :=
  us.foldl (fun s u =>
    let k := s.stackOf u.stack
    let e := tget {} k.errs u.unit.toNat
    let e : UnitErr :=
      { symbols := (e.symbols ++ u.symbols.map (fun x => (x.1.val, x.2.val))).dedup, wrong := u.wrong }
    s.setStack u.stack { k with errs := tput u.unit.toNat e k.errs }) s

/-- One corrected codeword (R294, R296): the event, at DEPTH 1 for a single symbol; the correction counted for the rows of its
symbols, and a row with three within 24 h marked for sparing. -/
def correctWord (st u : Nat) (detail : Bytes) (s : State) (cells : List Nat) : State :=
  let k := s.stackOf st
  let k := ((cells.map (fun c => 2 * u + c / 1024)).dedup).foldl (fun (k : StackSt) row =>
    let times := (tget [] k.corrected row).filter (fun t => decide (s.ns < t + 86400000000000)) ++ [s.ns]
    { k with corrected := tput row times k.corrected
             marked := if 3 ≤ times.length ∧ ¬ k.marked.contains row then k.marked ++ [row] else k.marked }) k
  raise (s.setStack st k) 0x0301 (match cells with | [c] => symbolLoc st u c | _ => unitLoc st u) detail

/-- A unit with corrected codewords (R294): their events, and the unit rewritten; what was miscorrected in it stands. -/
def correctUnit (s : State) (st u : Nat) (detail : Bytes) : State :=
  let k := s.stackOf st
  let e := tget {} k.errs u
  let ws := e.corrected s.tbl.eccT
  let left := e.symbols.filter (fun x => !ws.contains x.1)
  let s := s.setStack st { k with errs := if left.isEmpty then tdel u k.errs else tput u { e with symbols := left } k.errs }
  ws.foldl (fun s w => correctWord st u detail s (e.word w)) s

/-- An uncorrectable or poisoned unit read by a plan command, a fetch or a serving engine: the unit is poisoned, and a
running step ends with a device fault (R294, R295). -/
def fatalUnit (s : State) (st u : Nat) (detail : Bytes) : State :=
  let k := s.stackOf st
  let k := { k with poisoned := if k.poisoned.contains u then k.poisoned else k.poisoned ++ [u] }
  let l := unitLoc st u
  deviceFault (raise (s.setStack st k) 0x0302 l detail) 0x0302 l

/-- The ECC outcome of reading a unit: the state after it, and whether the decoder delivers data. -/
def eccUnit (s : State) (st u : Nat) (detail : Bytes) : State × Bool :=
  let k := s.stackOf st
  if k.poisoned.contains u then (fatalUnit s st u detail, false)
  else match tfind k.errs u with
    | none => (s, true)
    | some e => if e.fatal s.tbl.eccT then (fatalUnit s st u detail, false) else (correctUnit s st u detail, true)

/-- What a reader that the decoder delivers data to receives: the data written, or those of a miscorrection (R293). -/
def State.delivered (s : State) (st u : Nat) (data : Bytes) : Bytes :=
  let e := tget {} (s.stackOf st).errs u
  if (List.range 4).any (fun w => decide (s.tbl.eccT < (e.word w).length)) then (e.wrong.map (padTo 256)).getD data else data

/-- Read units that the device keeps for itself (R283, R294). -/
def readSystem (s : State) (us : List (Nat × Nat)) : State := us.foldl (fun s u => (eccUnit s u.1 u.2 []).1) s

/-- Stack and data unit of stream `h`'s record (R283). -/
def recordUnit (h : Nat) : Nat × Nat := (h % 8, 0x1780_0000 + h / 8)

/-- Stack and data unit of entry `e` of the prefix table (R283). -/
def prefixUnit (e : Nat) : Nat × Nat := (e % 8, 0x1782_0000 + e / 8 / 4)

/-- Unspecified bytes of a unit (R285: the decryption of stale ciphertext). -/
def freeUnit (n : Nat) : Bytes := (List.range 256).map (Config.freeByte n)

/-- Read a data unit under a domain's key (R286). A unit never written since its key was made reads free bytes. -/
def readUnit (s : State) (st u dom : Nat) (detail : Bytes) : State × Bytes :=
  let r := eccUnit s st u detail
  if r.2 then
    match tfind (s.stackOf st).units u with
    | some x => if (s.domOf dom).key = some x.key then (r.1, s.delivered st u x.data) else (r.1.bump, freeUnit s.free)
    | none => (r.1.bump, freeUnit s.free)
  else (r.1.bump, freeUnit r.1.free)

/-- A unit written anew: its poison and its errors are gone (R295). -/
def StackSt.clearUnit (k : StackSt) (u : Nat) : StackSt :=
  { k with poisoned := k.poisoned.filter (· != u), errs := tdel u k.errs }

/-- Every unit of some blocks written anew (R295). -/
def clearBlocks (s : State) (bs : List (Nat × Nat)) : State :=
  bs.foldl (fun s b =>
    let k := s.stackOf b.1
    s.setStack b.1 { k with poisoned := k.poisoned.filter (fun u => u / 16 != b.2)
                            errs := k.errs.filter (fun e => e.1 / 16 != b.2) }) s

/-- A unit of the system area written anew: nothing else changes. -/
def clearSystem (s : State) (u : Nat × Nat) : State :=
  let k := s.stackOf u.1
  if k.poisoned.contains u.2 || (tfind k.errs u.2).isSome then s.setStack u.1 (k.clearUnit u.2) else s

/-- Write a stream's record, a whole unit (R283, R295, R308). -/
def putStream (s : State) (h : Nat) (x : Stream) : State :=
  { clearSystem s (recordUnit h) with streams := tput h x s.streams }

/-- Write a whole data unit under a domain's key; a write clears the unit's poison and its errors (R286, R295). -/
def writeUnit (s : State) (st u dom : Nat) (data : Bytes) : State :=
  let k := s.stackOf st
  s.setStack st { k.clearUnit u with units := tput u { key := (s.domOf dom).key.getD 0, data := padTo 256 data } k.units }

/-- Write a string of bytes into a run of blocks, unit by unit from unit `o`. -/
def writeRun (s : State) (blocks : List (Nat × Nat)) (dom o : Nat) (units : List Bytes) : State :=
  (indexed units).foldl (fun s e => let u := unitOf blocks (o + e.1); writeUnit s u.1 u.2 dom e.2) s

/-! ### KV pages (R311 to R314, R317) -/

/-- Whether a class holds a page or an open stream. -/
def State.classHeld (s : State) (c : Nat) : Bool :=
  s.pages.any (fun p => p.2.cls == c) || s.streams.any (fun h => h.2.cls == c)

/-- SLOT_ROWS of a class in force (R311). -/
def State.slotRowsOf (s : State) (c : Nat) : Nat := if s.classHeld c then tget 0 s.slotRows c else s.classRows c

/-- The stacks of a page's blocks: block m on stack m mod 8 (R312). -/
def pageStacks (rows : Nat) : List Nat := (List.range (4 * rows)).map (· % 8)

/-- Whether a page of a stream is admitted (R312). -/
def State.pageAdmitted (s : State) (h : Stream) : Bool :=
  let rows := s.slotRowsOf h.cls
  decide ((s.pages.filter (fun p => p.2.cls == h.cls)).length < s.classPages h.cls)
    && decide ((s.fnOf h.fn).pages < (s.fnQuota h.fn).2) && s.quotaOk h.domain (4 * rows) && s.room (pageStacks rows)

/-- Allocate a zero-filled page for a stream (R312, R313), all of whose units are written anew (R295); in replay it takes the recorded number (R540). A page number is
otherwise one of 32 bits that no page holds (log 46). -/
def allocPage (s : State) (h : Stream) (refs : Nat) (rows : List (Nat × List Byte)) : State × Nat :=
  let pick := s.pickFree (2 ^ 32) (s.pages.map (·.1))
  let n := if s.replaying then s.replay.pages.headD pick else pick
  let s := s.bump
  let sr := s.slotRowsOf h.cls
  let s := { s with replay := { s.replay with pages := s.replay.pages.tail } }
  let s := reserveDomain s h.domain (4 * sr)
  let t := takeBlocks s (pageStacks sr)
  let s := clearBlocks t.1 t.2
  let f := s.fnOf h.fn
  let s := s.setFn h.fn { f with pages := f.pages + 1 }
  ({ s with pages := tput n { cls := h.cls, refs := refs, fn := h.fn, domain := h.domain, rows := rows, blocks := t.2
                              slotRows := sr } s.pages }, n)

/-- Whether a prefix entry names a page. -/
def State.named (s : State) (n : Nat) : Bool := s.prefixes.any (fun e => e.2.page == n)

/-- Free a page that no stream counts and no prefix entry names: its blocks leave every quota (R313). -/
def settlePage (s : State) (n : Nat) : State :=
  match tfind s.pages n with
  | some p =>
    if p.refs = 0 ∧ s.named n = false then
      let s := freeBlocks (releaseDomain { s with pages := tdel n s.pages } p.domain (4 * p.slotRows)) p.blocks
      let f := s.fnOf p.fn
      let s := s.setFn p.fn { f with pages := f.pages - 1 }
      if s.classHeld p.cls then s else { s with slotRows := tdel p.cls s.slotRows }
    else s
  | none => s

/-- Numbers of the directory nodes in use, rising. -/
def State.nodesHeld (s : State) : List Nat := (s.streams.flatMap (fun h => h.2.nodes)).foldl (fun l n => insertNat n l) []

/-- A stream's directory gains a node once its pages need one: 63 to a node (R314). Which number a node takes the spec leaves
open (log 46); 0xFFFF_FFFF is no number. -/
def growDirectory (s : State) (h : Nat) : State :=
  match tfind s.streams h with
  | some x =>
    if x.nodes.length * 63 < x.pages.length then
      putStream s.bump h { x with nodes := x.nodes ++ [s.pickFree (2 ^ 32 - 1) s.nodesHeld] }
    else s
  | none => s

/-- Number of the node after the first `i`, 0xFFFF_FFFF for none (R314); DIR_HEAD is that of `i` = 0 (R309; DEDUCED for a
stream without pages, log 89). -/
def Stream.nodeAt (x : Stream) (i : Nat) : Nat := x.nodes.getD i 0xFFFF_FFFF

/-- Bytes of node `i` of a stream's directory (R314); an entry beyond the stream's pages names none. -/
def Stream.nodeBytes (x : Stream) (i : Nat) : Bytes :=
  ((List.range 63).flatMap fun k => leBytes 4 (x.pages.getD (63 * i + k) 0xFFFF_FFFF)) ++ leBytes 4 (x.nodeAt (i + 1))

/-- Change a page's reference count. -/
def countPage (s : State) (n : Nat) (f : Nat → Nat) : State :=
  match tfind s.pages n with
  | some p => settlePage { s with pages := tput n { p with refs := f p.refs } s.pages } n
  | none => s

/-- One row of a page: rows never written are zero (R312). -/
def Page.row (p : Page) (r : Nat) : Bytes := (tfind p.rows r).getD (zeros 256)

/-- Put a row into a page. -/
def putPageRow (s : State) (n r : Nat) (data : Bytes) : State :=
  match tfind s.pages n with
  | some p =>
    let u := unitOf p.blocks r
    let s := s.setStack u.1 ((s.stackOf u.1).clearUnit u.2)
    { s with pages := tput n { p with rows := tput r (padTo 256 data) p.rows } s.pages }
  | none => s

end Sys2Proof.Machine
end

