-- ==== Sys2Proof/Machine/Trace.lean ====
section
/-!
DEFINITION. The sequencer trace (R526 to R529): offering an entry, the trace buffers, the trace store in its three
modes, and the TRACE_MARK records.
-/

namespace Sys2Proof.Machine

/-- Entries of the trace store (R526). -/
def traceStoreSize : Nat := 2097152

def traceIssue : Nat := 0
def traceRelease : Nat := 1
def traceStamp : Nat := 2
def traceBegin : Nat := 3
def traceEnd : Nat := 4
def traceLostKind : Nat := 5

/-- ENABLE, MODE, KINDS, ENGINE_ONLY, MARK and FULL_STOP of TRACE_CTRL (R527). -/
def Trace.enable (t : Trace) : Bool := bitNat t.ctrl 0
def Trace.mode (t : Trace) : Nat := fieldNat t.ctrl 2 1
def Trace.kind (t : Trace) (k : Nat) : Bool := bitNat t.ctrl (3 + k)
def Trace.engineOnly (t : Trace) : Bool := bitNat t.ctrl 8
def Trace.mark (t : Trace) : Bool := bitNat t.ctrl 9
def Trace.fullStop (t : Trace) : Bool := bitNat t.ctrl 10

/-- The 16 bytes of an entry (R526). -/
def traceBytes (e : TraceEnt) : Bytes :=
  leBytes 8 (e.a % 2 ^ 48 + e.vmove * 2 ^ 48 + e.event * 2 ^ 54 + e.kind * 2 ^ 56) ++ leBytes 8 e.b

/-- Whether the trace records an entry of a kind at a virtual movement (R527). -/
def Trace.takes (t : Trace) (v kind : Nat) : Bool :=
  t.enable && t.mask.getLsbD v && (t.mode != 3) && t.kind kind

/-- Send the entries that wait for a TRACE_MARK record, at most four (R527). -/
def sendMark (s : State) (pos : PlanPos) : State :=
  if s.trace.marks.isEmpty then s
  else
    raise { s with trace := { s.trace with marks := [] } } 0x0804 0 (s.trace.marks.flatMap traceBytes) (some pos)

/-- Pass an entry to its movement's trace buffer (R527, R528). -/
def traceAdd (s : State) (e : TraceEnt) (pos : PlanPos) : State :=
  if s.trace.takes e.vmove e.kind then
    let n := s.phys e.vmove
    let b := tget {} s.trace.bufs n
    let b' := if b.ents.length < 64 then { b with ents := b.ents ++ [e] } else { b with lost := b.lost + 1 }
    let s := { s with trace := { s.trace with bufs := tset {} s.trace.bufs n b' } }
    if s.trace.mark && (e.kind == 2 || e.kind == 3 || e.kind == 4) then
      let s := { s with trace := { s.trace with marks := s.trace.marks ++ [e] } }
      if 4 ≤ s.trace.marks.length || e.kind == 4 then sendMark s pos else s
    else s
  else s

/-- An ISSUE entry (R526); with ENGINE_ONLY, for engine ops only. -/
def traceOp (s : State) (pos : PlanPos) (opAddr : Nat) (engine : Bool) : State :=
  if s.trace.engineOnly && !engine then s
  else traceAdd s { a := opAddr, vmove := pos.vmove, event := pos.event, kind := traceIssue, b := pos.beat % 2 ^ 48 } pos

/-- Write one entry to the store (R526, R527, R529). A store that fills in MODE 0 with FULL_STOP requests a global stop
(cause 2). -/
def traceStore (s : State) (e : TraceEnt) : State :=
  let t := s.trace
  match t.mode with
  | 0 =>
    if t.fill < traceStoreSize then
      let s := { s with trace := { t with store := tput t.fill e t.store, fill := t.fill + 1 } }
      if t.fill + 1 = traceStoreSize ∧ t.fullStop then resumableStop s 2 else s
    else s
  | 1 =>
    { s with trace := { t with store := tput t.next e t.store, next := (t.next + 1) % traceStoreSize
                               fill := min traceStoreSize (t.fill + 1) } }
  | _ => { s with trace := { t with elastic := t.elastic ++ [e], fill := min traceStoreSize (t.fill + 1) } }

/-- Whether the store takes an entry: a full elastic buffer does not until the port drains it (R529). -/
def Trace.room (t : Trace) : Bool := t.mode != 2 || decide (t.elastic.length < traceStoreSize)

/-- Drain one entry of a movement's buffer; when room has returned after a loss, a LOST entry carries the count, and
TRACE_LOST is raised once per step and movement (R528). -/
def traceDrain1 (s : State) (n : Nat) : State :=
  let b := tget {} s.trace.bufs n
  match b.ents with
  | [] => s
  | e :: es =>
    let s := traceStore { s with trace := { s.trace with bufs := tset {} s.trace.bufs n { b with ents := es } } } e
    if 0 < b.lost then
      let l : TraceEnt := { a := 0, vmove := (b.ents.getLast?.getD e).vmove, event := 0, kind := traceLostKind, b := satNat 64 b.lost }
      let b' : TraceBuf := { ents := es ++ [l], lost := 0, raised := true }
      let s := { s with trace := { s.trace with bufs := tset {} s.trace.bufs n b' } }
      if b.raised then s else raise s 0x0803 (cdLoc n 0x013) (leBytes 4 (satNat 32 b.lost))
    else s

/-- The buffer that drains next: the lowest movement that holds an entry, while the store has
room. -/
def traceNext (s : State) : Option Nat :=
  if s.trace.room then (s.trace.bufs.find? (fun e => !e.2.ents.isEmpty)).map (·.1) else none

/-- Up to four entries drain per beat of the C movement (R528): at each of its periods, so that the last entries of a step
reach the store too (DESIGN CHOICE, log 78). -/
def traceDrain (s : State) : State :=
  iter (fun s => match traceNext s with | some v => traceDrain1 s v | none => s) 4 s

end Sys2Proof.Machine
end

