-- ==== Sys2Proof/Machine/Numbers.lean ====
section
/-!
DEFINITION. Number formats and exact arithmetic (05_numbers_and_exact_arithmetic.md): formats, exact values, the two
roundings, the stochastic generator, W128, conversions, MX and AQ8 encoding, packing.
-/

namespace Sys2Proof.Machine

/-! ### Exact values -/

/-- An exact positive real, or 0, as the roundings need it (R152, R168): a dyadic number, a quotient, a square root, its
reciprocal, a power of two and the magnitude of a binary logarithm. -/
inductive PReal where
  /-- m × 2^e -/
  | dy (m : Nat) (e : Int)
  /-- (p / q) × 2^e -/
  | rat (p q : Nat) (e : Int)
  /-- √(m × 2^e) -/
  | sqrt (m : Nat) (e : Int)
  /-- 1 / √(m × 2^e) -/
  | rsqrt (m : Nat) (e : Int)
  /-- 2^(±m × 2^e), negative exponent when `neg` -/
  | exp2 (neg : Bool) (m : Nat) (e : Int)
  /-- |log2(m × 2^e)| -/
  | log2 (m : Nat) (e : Int)
deriving DecidableEq, Repr

/-- An exact result before its rounding. -/
inductive RV where
  | nan
  | inf (neg : Bool)
  | num (neg : Bool) (a : PReal)
deriving DecidableEq, Repr

/-- An exact operand value: m × 2^e with a sign, or a special. -/
inductive Val where
  | nan
  | inf (neg : Bool)
  | fin (neg : Bool) (m : Nat) (e : Int)
deriving DecidableEq, Repr

/-- An operand value as an exact result. -/
def Val.rv : Val → RV
  | .nan => .nan
  | .inf s => .inf s
  | .fin s m e => .num s (.dy m e)

/-- ⌊n × 2^k⌋ and whether it is exact. -/
def shiftFloor (n : Nat) (k : Int) : Nat × Bool :=
  match k with
  | .ofNat j => (n * 2 ^ j, true)
  | .negSucc j => (n / 2 ^ (j + 1), n % 2 ^ (j + 1) == 0)

/-- One step of the integer square root: try the bit of weight 2^i. -/
def isqrtBit (n r i : Nat) : Nat := if (r + 2 ^ i) * (r + 2 ^ i) ≤ n then r + 2 ^ i else r

/-- Integer square root of a number below 4^(bits). -/
def isqrtGo (n : Nat) : Nat → Nat → Nat
  | 0, r => r
  | i + 1, r => isqrtGo n i (isqrtBit n r i)

/-- ⌊√n⌋. -/
def isqrt (n : Nat) : Nat := isqrtGo n (Nat.log2 n / 2 + 1) 0

/-- Working precision of the powers and logarithms of two, in bits (DESIGN CHOICE, log 20). -/
def prec : Nat := 512

/-- Product of the roots 2^(2^−i) for the bits of a fraction `f / 2^n`, most significant first, at `prec` bits. -/
def exp2Frac (f n : Nat) : Nat → Nat → Nat → Nat
  | 0, _, acc => acc
  | i + 1, root, acc =>
    let root' := isqrt (root * 2 ^ prec)
    let acc' := if bitNat f i then acc * root' / 2 ^ prec else acc
    exp2Frac f n i root' acc'

/-- 2^(f / 2^n) × 2^prec, for a fraction f / 2^n below 1. -/
def exp2Fix (f n : Nat) : Nat := exp2Frac f n n (2 * 2 ^ prec) (2 ^ prec)

/-- Bits of log2(y / 2^prec) for y in [1, 2) × 2^prec, `n` of them, by repeated squaring. -/
def log2Bits : Nat → Nat → Nat → Nat
  | 0, _, acc => acc
  | n + 1, y, acc =>
    let y2 := y * y / 2 ^ prec
    if 2 ^ (prec + 1) ≤ y2 then log2Bits n (y2 / 2) (2 * acc + 1) else log2Bits n y2 (2 * acc)

/-- Fraction bits of a logarithm. -/
def logBits : Nat := 192

/-- ⌊a × 2^k⌋, and whether a × 2^k is an integer (R152, R168). Powers and logarithms of two are worked at `prec` bits
(log 20). -/
def PReal.floorScale : PReal → Int → Nat × Bool
  | .dy m e, k => shiftFloor m (e + k)
  | .rat p q e, k =>
    match e + k with
    | .ofNat j => (p * 2 ^ j / q, (p * 2 ^ j) % q == 0)
    | .negSucc j => (p / (q * 2 ^ (j + 1)), p % (q * 2 ^ (j + 1)) == 0)
  | .sqrt m e, k =>
    match e + 2 * k with
    | .ofNat j => let r := isqrt (m * 2 ^ j); (r, r * r == m * 2 ^ j)
    | .negSucc j => let r := isqrt (m / 2 ^ (j + 1)); (r, r * r * 2 ^ (j + 1) == m)
  | .rsqrt m e, k =>
    match 2 * k - e with
    | .ofNat j => let r := isqrt (2 ^ j / m); (r, r * r * m == 2 ^ j)
    | .negSucc j => (isqrt (1 / (m * 2 ^ (j + 1))), m == 0)
  | .exp2 neg m e, k =>
    match e with
    | .ofNat j =>
      let x : Int := if neg then -((m * 2 ^ j : Nat) : Int) else ((m * 2 ^ j : Nat) : Int)
      shiftFloor 1 (x + k)
    | .negSucc j =>
      let n := j + 1
      let ip := m / 2 ^ n
      let fp := m % 2 ^ n
      if fp = 0 then shiftFloor 1 ((if neg then -(ip : Int) else (ip : Int)) + k)
      else
        let (i, f) := if neg then (-(ip : Int) - 1, 2 ^ n - fp) else ((ip : Int), fp)
        ((shiftFloor (exp2Fix f n) (i + k - prec)).1, false)
  | .log2 m e, k =>
    let l := Nat.log2 m
    let i : Int := l + e
    if m = 2 ^ l then shiftFloor i.natAbs k
    else
      let fr := log2Bits logBits (m * 2 ^ prec / 2 ^ l) 0
      let x : Int := i * 2 ^ logBits + fr
      let a := if x < 0 then (-x).toNat - 1 else x.toNat
      ((shiftFloor a (k - logBits)).1, false)

/-- ⌊log2 a⌋ of a non-zero exact value (R152). -/
def PReal.lg (a : PReal) : Int :=
  match a with
  | .dy m e => (Nat.log2 m : Int) + e
  | _ => (Nat.log2 (a.floorScale 400).1 : Int) - 400

/-- Whether an exact value is 0. -/
def PReal.isZero (a : PReal) : Bool :=
  match a with
  | .dy m _ => m == 0
  | .rat p _ _ => p == 0
  | .sqrt m _ => m == 0
  | .rsqrt _ _ => false
  | .exp2 _ _ _ => false
  | .log2 m e => m == 2 ^ Nat.log2 m && (Nat.log2 m : Int) + e == 0

/-! ### Formats (R145) -/

/-- A floating-point format: precision, minimum exponent, largest finite code, infinity and NaN codes, width. -/
structure Flt where
  p    : Nat
  emin : Int
  maxCode : Nat
  inf  : Option Nat
  nan  : Option Nat
  w    : Nat
deriving DecidableEq, Repr

def fp32 : Flt := { p := 24, emin := -126, maxCode := 0x7F7F_FFFF, inf := some 0x7F80_0000, nan := some 0x7FC0_0000, w := 32 }
def bf16 : Flt := { p := 8, emin := -126, maxCode := 0x7F7F, inf := some 0x7F80, nan := some 0x7FC0, w := 16 }
def fp16 : Flt := { p := 11, emin := -14, maxCode := 0x7BFF, inf := some 0x7C00, nan := some 0x7E00, w := 16 }
def e4m3 : Flt := { p := 4, emin := -6, maxCode := 0x7E, inf := none, nan := some 0x7F, w := 8 }
def e5m2 : Flt := { p := 3, emin := -14, maxCode := 0x7B, inf := some 0x7C, nan := some 0x7E, w := 8 }
def e3m2 : Flt := { p := 3, emin := -2, maxCode := 0x1F, inf := none, nan := none, w := 6 }
def e2m3 : Flt := { p := 4, emin := 0, maxCode := 0x1F, inf := none, nan := none, w := 6 }
def e2m1 : Flt := { p := 2, emin := 0, maxCode := 0x7, inf := none, nan := none, w := 4 }

/-- An integer format: limits, width, signed, and whether 0b1000 is read as 0 (INT4S). -/
structure IntFmt where
  lo : Int
  hi : Int
  w  : Nat
  signed : Bool
deriving DecidableEq, Repr

/-- The floating-point element format of a format code (R145). -/
def fltOf : Nat → Option Flt
  | 0x00 => some fp32
  | 0x01 => some bf16
  | 0x02 => some fp16
  | 0x03 => some e4m3
  | 0x04 => some e5m2
  | 0x05 => some e4m3
  | 0x06 => some e5m2
  | 0x07 => some e3m2
  | 0x08 => some e2m3
  | 0x09 => some e2m1
  | _ => none

/-- The integer format of a format code (R145, R163). -/
def intOf : Nat → Option IntFmt
  | 0x0B => some { lo := -2147483648, hi := 2147483647, w := 32, signed := true }
  | 0x0C => some { lo := -128, hi := 127, w := 8, signed := true }
  | 0x0D => some { lo := 0, hi := 255, w := 8, signed := false }
  | 0x0E => some { lo := -8, hi := 7, w := 4, signed := true }
  | 0x0F => some { lo := -7, hi := 7, w := 4, signed := true }
  | _ => none

/-- Bits per element of a format code (R145). -/
def fmtBits : Nat → Nat
  | 0x00 => 32 | 0x01 => 16 | 0x02 => 16 | 0x03 => 8 | 0x04 => 8 | 0x05 => 8 | 0x06 => 8 | 0x07 => 6 | 0x08 => 6
  | 0x09 => 4 | 0x0A => 8 | 0x0B => 32 | 0x0C => 8 | 0x0D => 8 | 0x0E => 4 | 0x0F => 4 | 0x10 => 128 | 0x11 => 8
  | 0x12 => 8 | _ => 0

/-- Whether a format is an MX format (R145). -/
def isMX (f : Nat) : Bool := 5 ≤ f && f ≤ 0xA

/-- Decode a floating-point code exactly (R148, R149). -/
def Flt.decode (f : Flt) (code : Nat) : Val :=
  let s := bitNat code (f.w - 1)
  let mag := code % 2 ^ (f.w - 1)
  match f.inf with
  | some i => if i < mag then .nan else if mag = i then .inf s else go s mag
  | none => if f.nan = some mag then .nan else go s mag
where
  go (s : Bool) (mag : Nat) : Val :=
    let ex := mag / 2 ^ (f.p - 1)
    let fr := mag % 2 ^ (f.p - 1)
    if ex = 0 then .fin s fr (f.emin - f.p + 1)
    else .fin s (fr + 2 ^ (f.p - 1)) (f.emin + ex - 1 - f.p + 1)

/-- An integer as an exact value. -/
def Val.ofInt (n : Int) : Val := .fin (n < 0) n.natAbs 0

/-- Decode an integer code (R145). -/
def IntFmt.decode (f : IntFmt) (code : Nat) : Int :=
  if f.signed && bitNat code (f.w - 1) then (code % 2 ^ f.w : Nat) - (2 ^ f.w : Nat) else ((code % 2 ^ f.w : Nat) : Int)

/-- Decode an element of a format without its scale, with the flags of reading it (R145, R163, R178). -/
def decodeElem (fmt code : Nat) : Val × Nat :=
  match fltOf fmt with
  | some f => (f.decode code, 0)
  | none =>
    if fmt = 0xA then
      let k : Int := if code < 128 then code else (code : Int) - 256
      (.fin (k < 0) k.natAbs (-6), 0)
    else if fmt = 0xF ∧ code = 8 then (.fin false 0 0, flInvalid)
    else
      match intOf fmt with
      | some f => (.ofInt (f.decode code), 0)
      | none => (.nan, 0)

/-- Apply an E8M0 scale (R165): 0xFF makes the element NaN. -/
def scaleBy (scale : Nat) : Val → Val
  | .nan => .nan
  | .inf s => if scale = 0xFF then .nan else .inf s
  | .fin s m e => if scale = 0xFF then .nan else .fin s m (e + scale - 127)

/-! ### Rounding (R152, R153) -/

/-- Overflow of a float rounding (R152): 0 RNE, 1 RTZ, 2 SR. -/
def Flt.overflow (f : Flt) (neg : Bool) (mode : Nat) (sat : Bool) : Nat × Nat :=
  let sg := natOfBool neg * 2 ^ (f.w - 1)
  let base := flOverflow + flInexact
  if mode = 1 then (sg + f.maxCode, base)
  else if sat || (f.inf.isNone && f.nan.isNone) then (sg + f.maxCode, base + flSaturated)
  else
    match f.inf with
    | some i => (sg + i, base)
    | none => (f.nan.getD 0, base)

/-- Round a non-zero exact value (R152; DEDUCED for the RTZ flags of a row of R172, log 146). -/
def Flt.roundNum (f : Flt) (neg : Bool) (a : PReal) (mode : Nat) (sat : Bool) (u : Nat) : Nat × Nat :=
  let lg := a.lg
  let e := Max.max lg f.emin
  let q : Int := e - f.p + 1
  let (lo, exact) := a.floorScale (-q)
  let (lo2, ex2) := a.floorScale (1 - q)
  let fr32 := (a.floorScale (32 - q)).1 - lo * 2 ^ 32
  let half := lo2 % 2 == 1
  let up :=
    if exact then false
    else if mode = 0 then half && (!ex2 || lo % 2 == 1)
    else if mode = 2 then decide (u < fr32)
    else false
  let r := if up then lo + 1 else lo
  let code := (e - f.emin).toNat * 2 ^ (f.p - 1) + r
  let fl := if exact then 0 else flInexact + flagIf (decide (lg < f.emin)) flUnderflow
  if f.maxCode < code then
    let (c, g) := f.overflow neg mode sat
    (c, g ||| fl)
  else (natOfBool neg * 2 ^ (f.w - 1) + code, fl)

/-- Round any exact result into a float format (R152, R160, R162). -/
def Flt.round (f : Flt) (v : RV) (mode : Nat) (sat : Bool) (u : Nat) : Nat × Nat :=
  match v with
  | .nan =>
    match f.nan with
    | some n => (n, 0)
    | none => (0, flInvalid)
  | .inf s =>
    match f.inf with
    | some i => (natOfBool s * 2 ^ (f.w - 1) + i, 0)
    | none =>
      let (c, g) := f.overflow s mode sat
      (c, g ||| flagIf f.nan.isNone flInvalid)
  | .num s a => if a.isZero then (natOfBool s * 2 ^ (f.w - 1), 0) else f.roundNum s a mode sat u

/-- Two's complement code of an integer at a width. -/
def intCode (w : Nat) (n : Int) : Nat := (n % (2 ^ w : Nat)).toNat

/-- Round any exact result to an integer in [lo, hi] (R153). -/
def roundInt (v : RV) (lo hi : Int) (mode u : Nat) : Int × Nat :=
  match v with
  | .nan => (0, flInvalid)
  | .inf s => (if s then lo else hi, flInvalid)
  | .num s a =>
    let (n, exact) := a.floorScale 0
    let (n2, ex2) := a.floorScale 1
    let fr32 := (a.floorScale 32).1 - n * 2 ^ 32
    let up :=
      if exact then false
      else if mode = 0 then n2 % 2 == 1 && (!ex2 || n % 2 == 1)
      else if mode = 2 then decide (u < fr32)
      else false
    let n := if up then n + 1 else n
    let r : Int := if s then -(n : Int) else n
    let fl := flagIf (!exact) flInexact
    if hi < r then (hi, fl ||| flSaturated) else if r < lo then (lo, fl ||| flSaturated) else (r, fl)

/-- Round an exact result into any element format of R145 but MX, AQ8, W128 and E8M0 (R160, R162, R163). -/
def toFmt (fmt : Nat) (v : RV) (mode : Nat) (sat : Bool) (u : Nat) : Nat × Nat :=
  match intOf fmt with
  | some f =>
    let (r, fl) := roundInt v f.lo f.hi mode u
    (intCode f.w r, fl)
  | none =>
    match fltOf fmt with
    | some f => f.round v mode sat u
    | none => (0, 0)

/-! ### The stochastic generator (R154) -/

/-- One round of Philox-4x32 (R14; constants PRESUMED, log 21). -/
def philoxRound (c : Nat × Nat × Nat × Nat) (k0 k1 : Nat) : Nat × Nat × Nat × Nat :=
  let (c0, c1, c2, c3) := c
  let p0 := 0xD251_1F53 * c0
  let p1 := 0xCD9E_8D57 * c2
  ((p1 / 2 ^ 32) ^^^ c1 ^^^ k0, p1 % 2 ^ 32, (p0 / 2 ^ 32) ^^^ c3 ^^^ k1, p0 % 2 ^ 32)

/-- `n` rounds, the key advancing by the Weyl constants after each. -/
def philoxGo : Nat → Nat × Nat × Nat × Nat → Nat → Nat → Nat × Nat × Nat × Nat
  | 0, c, _, _ => c
  | n + 1, c, k0, k1 =>
    philoxGo n (philoxRound c k0 k1) ((k0 + 0x9E37_79B9) % 2 ^ 32) ((k1 + 0xBB67_AE85) % 2 ^ 32)

/-- Philox-4x32-10. -/
def philox (k0 k1 c0 c1 c2 c3 : Nat) : Nat × Nat × Nat × Nat := philoxGo 10 (c0, c1, c2, c3) k0 k1

/-- The draw of output element `j` (R154). -/
def srWord (seed vmove beat j : Nat) : Nat :=
  let (a, b, c, d) := philox seed 0x5A52_4E44 (j / 4) (beat % 2 ^ 32) vmove (beat / 2 ^ 32 % 2 ^ 32)
  match j % 4 with
  | 0 => a
  | 1 => b
  | 2 => c
  | _ => d

/-- The draw of an element, where the mode uses one. -/
def drawOf (mode seed vmove beat j : Nat) : Nat := if mode = 2 then srWord seed vmove beat j else 0

/-! ### W128 (R155 to R161) -/

def wPosSat : W128 := 0x7FFF_FFFF_FFFF_FFFF_FFFF_FFFF_FFFF_FFFF
def wPosInf : W128 := 0x7FFF_FFFF_FFFF_FFFF_FFFF_FFFF_FFFF_FFFE
def wNaN : W128 := 0x8000_0000_0000_0000_0000_0000_0000_0000
def wNegInf : W128 := 0x8000_0000_0000_0000_0000_0000_0000_0001
def wNegSat : W128 := 0x8000_0000_0000_0000_0000_0000_0000_0002

/-- ANCHOR as a signed number (R155). -/
def anchorOf (a : BitVec 10) : Int := a.toInt

/-- A term of W128 at anchor E, with its flags (R157). -/
def w128Term (v : Val) (E : Int) : W128 × Nat :=
  match v with
  | .nan => (wNaN, 0)
  | .inf s => (if s then wNegInf else wPosInf, 0)
  | .fin s m e =>
    if 1 ≤ (shiftFloor m (e - E - 31)).1 then (if s then wNegSat else wPosSat, flWindow)
    else
      let (n, exact) := shiftFloor m (e - E + 64)
      (BitVec.ofInt 128 (if s then -(n : Int) else n), flagIf (!exact) flTiny)

/-- Combine two W128 values of one anchor (R158), with the INVALID flag. -/
def combine (x y : W128) : W128 × Nat :=
  let pos := fun (w : W128) => w == wPosInf || w == wPosSat
  let neg := fun (w : W128) => w == wNegInf || w == wNegSat
  if x = wNaN ∨ y = wNaN then (wNaN, 0)
  else if (pos x && neg y) || (neg x && pos y) then (wNaN, flInvalid)
  else if x = wPosInf ∨ x = wNegInf then (x, 0)
  else if y = wPosInf ∨ y = wNegInf then (y, 0)
  else if x = wPosSat ∨ x = wNegSat then (x, 0)
  else if y = wPosSat ∨ y = wNegSat then (y, 0)
  else (x + y, 0)

/-- Whether a W128 code is a marker (R156). -/
def isMarker (w : W128) : Bool := w == wPosSat || w == wPosInf || w == wNaN || w == wNegInf || w == wNegSat

/-- The exact value of an ordinary W128 code at anchor E (R155). -/
def wVal (w : W128) (E : Int) : Val := .fin (w.toInt < 0) w.toInt.natAbs (E - 64)

/-- A result with −0 made +0 (R150). -/
def plusZero (fmt : Nat) (r : Nat × Nat) : Nat × Nat :=
  match fltOf fmt with
  | some f => if r.1 = 2 ^ (f.w - 1) then (0, r.2) else r
  | none => r

/-- A W128 value leaves by one rounding (R160); a zero that the rounding produces is +0 (R150). -/
def wOut (w : W128) (E : Int) (fmt mode : Nat) (sat : Bool) (u : Nat) : Nat × Nat :=
  if w = wNaN then toFmt fmt .nan mode sat u
  else if w = wPosInf then toFmt fmt (.inf false) mode sat u
  else if w = wNegInf then toFmt fmt (.inf true) mode sat u
  else if w = wPosSat ∨ w = wNegSat then
    let neg := decide (w = wNegSat)
    match intOf fmt with
    | some f => (intCode f.w (if neg then f.lo else f.hi), flSaturated)
    | none =>
      match fltOf fmt with
      | some f => (natOfBool neg * 2 ^ (f.w - 1) + f.maxCode, flSaturated)
      | none => (0, 0)
  else if w = 0 then (0, 0)
  else plusZero fmt (toFmt fmt (wVal w E).rv mode sat u)

/-- A W128 value at another anchor (R161). -/
def wReanchor (w : W128) (E E' : Int) : W128 × Nat :=
  if isMarker w || E == E' then (w, 0) else w128Term (wVal w E) E'

/-! ### Exact arithmetic on operands -/

/-- The exact product, INVALID for 0 × ∞ (R157). -/
def mulVal : Val → Val → Val × Nat
  | .nan, _ => (.nan, 0)
  | _, .nan => (.nan, 0)
  | .inf s, .inf t => (.inf (s != t), 0)
  | .inf s, .fin t m _ => if m = 0 then (.nan, flInvalid) else (.inf (s != t), 0)
  | .fin s m _, .inf t => if m = 0 then (.nan, flInvalid) else (.inf (s != t), 0)
  | .fin s m e, .fin t n f => (.fin (s != t) (m * n) (e + f), 0)

/-- Signed mantissa. -/
def sgn (s : Bool) (m : Nat) : Int := if s then -(m : Int) else m

/-- The exact sum, INVALID for ∞ − ∞; x + (−x) is +0 (R150). -/
def addVal : Val → Val → Val × Nat
  | .nan, _ => (.nan, 0)
  | _, .nan => (.nan, 0)
  | .inf s, .inf t => if s = t then (.inf s, 0) else (.nan, flInvalid)
  | .inf s, .fin _ _ _ => (.inf s, 0)
  | .fin _ _ _, .inf t => (.inf t, 0)
  | .fin s m e, .fin t n f =>
    let k := min e f
    let x := sgn s (m * 2 ^ (e - k).toNat) + sgn t (n * 2 ^ (f - k).toNat)
    (.fin (if x = 0 then s && t else decide (x < 0)) x.natAbs k, 0)

/-- Change of sign. -/
def negVal : Val → Val
  | .nan => .nan
  | .inf s => .inf (!s)
  | .fin s m e => .fin (!s) m e

/-- Magnitude. -/
def absVal : Val → Val
  | .nan => .nan
  | .inf _ => .inf false
  | .fin _ m e => .fin false m e

/-- The order of two values that are not NaN, −0 equal to +0 (R204): whether x < y. -/
def ltVal : Val → Val → Bool
  | .nan, _ => false
  | _, .nan => false
  | .inf s, .inf t => s && !t
  | .inf s, .fin _ _ _ => s
  | .fin _ _ _, .inf t => !t
  | .fin s m e, .fin t n f =>
    let k := min e f
    decide (sgn s (m * 2 ^ (e - k).toNat) < sgn t (n * 2 ^ (f - k).toNat))

/-- Whether two values that are not NaN are equal, −0 equal to +0 (R204). -/
def eqVal (x y : Val) : Bool :=
  match x, y with
  | .nan, _ => false
  | _, .nan => false
  | _, _ => !ltVal x y && !ltVal y x

def isNaN : Val → Bool
  | .nan => true
  | _ => false

def isInf : Val → Bool
  | .inf _ => true
  | _ => false

def isZeroVal : Val → Bool
  | .fin _ m _ => m == 0
  | _ => false

def signVal : Val → Bool
  | .nan => false
  | .inf s => s
  | .fin s _ _ => s

/-- ⌊log2⌋ of the greatest magnitude of finite values, and that magnitude. -/
def maxMag (vs : List Val) : Val := vs.foldl (fun a v => if ltVal a (absVal v) then absVal v else a) (.fin false 0 0)

/-- A value times 2^k. -/
def scale2 (k : Int) : Val → Val
  | .nan => .nan
  | .inf s => .inf s
  | .fin s m e => .fin s m (e + k)

/-- ⌊log2 |v|⌋ of a finite non-zero value. -/
def lgVal : Val → Int
  | .fin _ m e => (Nat.log2 m : Int) + e
  | _ => 0

/-! ### MX and AQ8 encoding (R164, R166) -/

/-- emax_elem of an MX format (R164). -/
def emaxElem : Nat → Int
  | 0x5 => 8 | 0x6 => 15 | 0x7 => 4 | 0x8 => 2 | 0x9 => 2 | _ => 0

/-- Encode an MX block (R164): scale byte, element codes, flags. `us` are the draws. -/
def mxEncode (vs : List Val) (fmt mode : Nat) (us : List Nat) : Nat × List Nat × Nat :=
  if vs.any (fun v => isNaN v || isInf v) then (0xFF, vs.map (fun _ => 0), flagIf (vs.any isInf) flInvalid)
  else
    let amax := maxMag vs
    if isZeroVal amax then (0, vs.map (fun _ => 0), 0)
    else
      let x0 := lgVal amax - emaxElem fmt
      let clamped := decide (127 < x0)
      let x := max (-127) (min 127 x0)
      let res := (vs.zip us).map fun (v, u) =>
        if fmt = 0xA then
          let (r, fl) := roundInt (scale2 (6 - x) v).rv (-127) 127 mode u
          (intCode 8 r, if clamped && fl &&& flSaturated != 0 then fl ||| flOverflow ||| flInexact else fl)
        else
          match fltOf fmt with
          | some f => f.round (scale2 (-x) v).rv mode true u
          | none => (0, 0)
      let fl := res.foldl (fun a r => a ||| r.2) 0
      ((x + 127).toNat, res.map (·.1), if clamped then fl else fl &&& (255 - flOverflow - flSaturated))

/-- Encode an AQ8 segment (R166): scale byte, element codes, flags. -/
def aq8Encode (vs : List Val) (mode : Nat) (us : List Nat) : Nat × List Nat × Nat :=
  if vs.any (fun v => isNaN v || isInf v) then (0, vs.map (fun _ => 0), flInvalid)
  else
    let amax := maxMag vs
    if isZeroVal amax then (0, vs.map (fun _ => 0), 0)
    else
      let x0 := lgVal amax - 6
      let x1 := if ltVal (.ofInt 127) (scale2 (-x0) amax) then x0 + 1 else x0
      let x := max (-127) (min 127 x1)
      let res := (vs.zip us).map fun (v, u) =>
        let (r, fl) := roundInt (scale2 (-x) v).rv (-127) 127 mode u
        (intCode 8 r, if x == 127 && fl &&& flSaturated != 0 then fl ||| flOverflow ||| flInexact else fl)
      ((x + 127).toNat, res.map (·.1), res.foldl (fun a r => a ||| r.2) 0)

/-! ### Packing (R146) -/

/-- Element `i` of a packed run of bytes, as a code. -/
def elemCode (bits : Nat) (row : Bytes) (i : Nat) : Nat :=
  match bits with
  | 4 => fieldNat (fieldAt row (i / 2) 1) (4 * (i % 2) + 3) (4 * (i % 2))
  | 6 => fieldNat (fieldAt row (3 * (i / 4)) 3) (6 * (i % 4) + 5) (6 * (i % 4))
  | b => fieldAt row (b / 8 * i) (b / 8)

/-- Pack element codes of 8 bits and more, in ascending order. -/
def packWide (bits : Nat) (cs : List Nat) : Bytes := cs.flatMap (leBytes (bits / 8))

/-- Pack 4-bit codes, two to a byte, the even one low. -/
def pack4 : List Nat → Bytes
  | a :: b :: t => BitVec.ofNat 8 (a % 16 + 16 * (b % 16)) :: pack4 t
  | [a] => [BitVec.ofNat 8 (a % 16)]
  | [] => []

/-- Pack 6-bit codes, four to three bytes. -/
def pack6 : List Nat → Bytes
  | a :: b :: c :: d :: t =>
    leBytes 3 (a % 64 + 64 * (b % 64) + 4096 * (c % 64) + 262144 * (d % 64)) ++ pack6 t
  | _ => []

/-- Pack element codes of a format (R146). -/
def packCodes (bits : Nat) (cs : List Nat) : Bytes :=
  if bits = 4 then pack4 cs else if bits = 6 then pack6 cs else packWide bits cs

end Sys2Proof.Machine
end

