-- ==== Sys2Proof/Machine/Transcend.lean ====
section
/-!
DEFINITION. The transcendental functions and their compositions (R168, R169) and the elementwise vector functions
(R203, R204), each from exact operands to one rounded code and its flags.
-/

namespace Sys2Proof.Machine

/-- How a result is rounded: destination format, mode (0 RNE, 1 RTZ, 2 SR), SAT and the draw (R151, R154). -/
structure Rnd where
  fmt  : Nat
  mode : Nat
  sat  : Bool
  u    : Nat
deriving DecidableEq, Repr

/-- The rounding of an intermediate step: FP32, RNE (R169). -/
def stepRnd : Rnd := { fmt := 0, mode := 0, sat := false, u := 0 }

/-- Round an exact result as `r` says. -/
def Rnd.put (r : Rnd) (v : RV) : Nat × Nat := toFmt r.fmt v r.mode r.sat r.u

/-- An exact zero. -/
def rvZero (neg : Bool) : RV := .num neg (.dy 0 0)

/-- exp2 of an exact operand (R168). An exponent of magnitude 1,024 or more lies outside every format of R145 and is
taken at 1,024, where every rounding of it is the same; a fractional one gives no integer, which R153 tells apart. -/
def exp2V : Val → RV × Nat
  | .nan => (.nan, 0)
  | .inf s => (if s then rvZero false else .inf false, 0)
  | .fin s m e =>
    if m = 0 then (.num false (.dy 1 0), 0)
    else if 1024 ≤ (shiftFloor m e).1 then
      (.num false (if s then .dy 1 (-1024) else if (shiftFloor m e).2 then .dy 1 1024 else .dy (2 ^ 1025 + 1) (-1)), 0)
    else (.num false (.exp2 s m e), 0)

/-- log2 of an exact operand (R168). -/
def log2V : Val → RV × Nat
  | .nan => (.nan, 0)
  | .inf s => if s then (.nan, flInvalid) else (.inf false, 0)
  | .fin s m e =>
    if m = 0 then (.inf true, flDivzero)
    else if s then (.nan, flInvalid)
    else (.num (decide ((Nat.log2 m : Int) + e < 0)) (.log2 m e), 0)

/-- Reciprocal of an exact operand (R168). -/
def rcpV : Val → RV × Nat
  | .nan => (.nan, 0)
  | .inf s => (rvZero s, 0)
  | .fin s m e => if m = 0 then (.inf s, flDivzero) else (.num s (.rat 1 m (-e)), 0)

/-- Square root of an exact operand (R168). -/
def sqrtV : Val → RV × Nat
  | .nan => (.nan, 0)
  | .inf s => if s then (.nan, flInvalid) else (.inf false, 0)
  | .fin s m e => if m = 0 then (rvZero s, 0) else if s then (.nan, flInvalid) else (.num false (.sqrt m e), 0)

/-- Reciprocal square root of an exact operand (R168). -/
def rsqrtV : Val → RV × Nat
  | .nan => (.nan, 0)
  | .inf s => if s then (.nan, flInvalid) else (rvZero false, 0)
  | .fin s m e =>
    if m = 0 then (.inf s, flDivzero) else if s then (.nan, flInvalid) else (.num false (.rsqrt m e), 0)

/-- An exact result with flags, rounded as `r` says. -/
def Rnd.fin (r : Rnd) (x : RV × Nat) : Nat × Nat :=
  let (c, f) := r.put x.1
  (c, f ||| x.2)

/-- One intermediate step: rounded to FP32 in RNE, and its value again (R169). -/
def step1 (x : RV × Nat) : Val × Nat :=
  let (c, f) := stepRnd.fin x
  (fp32.decode c, f)

/-- One intermediate step from an exact value. -/
def stepV (x : Val × Nat) : Val × Nat := step1 (x.1.rv, x.2)

/-- The constants of R169. -/
def cL : Val := fp32.decode 0x3FB8_AA3B
def cL2 : Val := fp32.decode 0x4038_AA3B
def cK1 : Val := fp32.decode 0x3F4C_422A
def cK2 : Val := fp32.decode 0x3D37_2713
def vOne : Val := .fin false 1 0
def vTwo : Val := .fin false 2 0
def vHalf : Val := .fin false 1 (-1)

/-- SIGMOID (R169). -/
def sigmoidOf (x : Val) (r : Rnd) : Nat × Nat :=
  match x with
  | .nan => r.put .nan
  | .inf s => r.put (if s then rvZero false else vOne.rv)
  | .fin _ _ _ =>
    let (u, f0) := stepV (mulVal (negVal x) cL)
    let (t, f1) := step1 (exp2V u)
    let (d, f2) := stepV (addVal vOne t)
    let (c, f3) := r.fin (rcpV d)
    (c, f0 ||| f1 ||| f2 ||| f3)

/-- TANH (R169). -/
def tanhOf (x : Val) (r : Rnd) : Nat × Nat :=
  match x with
  | .nan => r.put .nan
  | .inf s => r.put (.num s (.dy 1 0))
  | .fin s _ _ =>
    if ltVal (absVal x) (.fin false 1 (-12)) then r.put x.rv
    else
      let (u, f0) := stepV (mulVal (absVal x) cL2)
      let (t, f1) := step1 (exp2V u)
      let (d, f2) := stepV (addVal t vOne)
      let (q, f3) := step1 (rcpV d)
      let (w, f4) := stepV (addVal vOne (negVal (mulVal vTwo q).1))
      let (c, f5) := r.put (if s then negVal w else w).rv
      (c, f0 ||| f1 ||| f2 ||| f3 ||| f4 ||| f5)

/-- SILU (R169). -/
def siluOf (x : Val) (r : Rnd) : Nat × Nat :=
  match x with
  | .nan => r.put .nan
  | .inf s => r.put (if s then rvZero true else .inf false)
  | .fin _ _ _ =>
    let (sc, f0) := sigmoidOf x stepRnd
    let y := mulVal x (fp32.decode sc)
    let (c, f1) := r.fin (y.1.rv, y.2)
    (c, f0 ||| f1)

/-- GELU (R169). -/
def geluOf (x : Val) (r : Rnd) : Nat × Nat :=
  match x with
  | .nan => r.put .nan
  | .inf s => r.put (if s then rvZero true else .inf false)
  | .fin _ _ _ =>
    let (xx, f0) := stepV (mulVal x x)
    let (w, f1) := stepV (mulVal xx x)
    let kw := mulVal cK2 w
    let sm := addVal x kw.1
    let (p, f2) := stepV (sm.1, sm.2 ||| kw.2)
    let (q, f3) := stepV (mulVal cK1 p)
    let (tc, f4) := tanhOf q stepRnd
    let (h, f5) := stepV (mulVal vHalf x)
    let (g, f6) := stepV (addVal vOne (fp32.decode tc))
    let y := mulVal h g
    let (c, f7) := r.fin (y.1.rv, y.2)
    (c, f0 ||| f1 ||| f2 ||| f3 ||| f4 ||| f5 ||| f6 ||| f7)

/-! ### Elementwise functions (R203) -/

/-- OP[5:0] of a vector function (R203). -/
def VFun.code : VFun → Nat
  | .add => 0x01 | .sub => 0x02 | .mul => 0x03 | .mad => 0x04 | .min => 0x05 | .max => 0x06 | .affine => 0x07
  | .cmpeq => 0x08 | .cmpne => 0x09 | .cmplt => 0x0A | .cmple => 0x0B | .sel => 0x0C | .and => 0x0D | .or => 0x0E
  | .xor => 0x0F | .shl => 0x10 | .shr => 0x11 | .exps => 0x12 | .iota => 0x13 | .copy => 0x20 | .abs => 0x21
  | .neg => 0x22 | .exp2 => 0x23 | .log2 => 0x24 | .rcp => 0x25 | .sqrt => 0x26 | .rsqrt => 0x27 | .tanh => 0x28
  | .sigmoid => 0x29 | .gelu => 0x2A | .silu => 0x2B

/-- Whether a function works on codes at the format width (R204). -/
def VFun.bitwise : VFun → Bool
  | .and | .or | .xor | .shl | .shr => true
  | _ => false

/-- Whether a function reads the old contents of D (R199). -/
def VFun.readsD : VFun → Bool
  | .mad | .sel => true
  | _ => false

/-- The lesser (or, with `mx`, the greater) of two values; −0 below +0, NaN canonical (R204). -/
def minMax (mx : Bool) (a b : Val) : Val :=
  if isNaN a || isNaN b then .nan
  else
    let bLess := ltVal b a || (eqVal a b && signVal b && !signVal a)
    let aLess := ltVal a b || (eqVal a b && signVal a && !signVal b)
    if mx then (if aLess then b else a) else (if bLess then b else a)

/-- A comparison's result as an exact value (R204). -/
def truth (c : Bool) : RV := if c then vOne.rv else rvZero false

/-- AND, OR, XOR, SHL and SHR at the width of an integer format: codes `a` and `b`, `n` the value of `b` (R204). A left
shift keeps the low bits of the width (DEDUCED, log 32). -/
def bitwiseOf (f : VFun) (fmt a b : Nat) (n : Int) : Nat × Nat :=
  match intOf fmt with
  | none => (0, 0)
  | some i =>
    let m := 2 ^ i.w
    match f with
    | .and => (a &&& b, 0)
    | .or => (a ||| b, 0)
    | .xor => (a ^^^ b, 0)
    | .shl => if n < 0 then (0, flInvalid) else if (i.w : Int) ≤ n then (0, 0) else (a * 2 ^ n.toNat % m, 0)
    | .shr =>
      if n < 0 then (0, flInvalid)
      else if i.signed then (intCode i.w (i.decode a / (2 ^ min n.toNat i.w : Nat)), 0)
      else if (i.w : Int) ≤ n then (0, 0) else (a / 2 ^ n.toNat, 0)
    | _ => (0, 0)

/-- One element of a pass that is not bitwise (R203): a, b, the old d, the constant T and the element index. -/
def vecElem (f : VFun) (a b d t : Val) (j : Nat) (r : Rnd) : Nat × Nat :=
  let out := fun (x : Val × Nat) => r.fin (x.1.rv, x.2)
  let fma := fun (c : Val) => let p := mulVal a b; let q := addVal p.1 c; (q.1, q.2 ||| p.2)
  match f with
  | .add => out (addVal a b)
  | .sub => out (addVal a (negVal b))
  | .mul => out (mulVal a b)
  | .mad => out (fma d)
  | .min => out (minMax false a b, 0)
  | .max => out (minMax true a b, 0)
  | .affine => out (fma t)
  | .cmpeq => r.put (truth (eqVal a b))
  | .cmpne => r.put (truth (!eqVal a b))
  | .cmplt => r.put (truth (ltVal a b))
  | .cmple => r.put (truth (ltVal a b || eqVal a b))
  | .sel => out (if isZeroVal d then b else a, 0)
  | .exps =>
    let (u, f0) := stepV (fma (negVal t))
    let (c, f1) := r.fin (exp2V u)
    (c, f0 ||| f1)
  | .iota => out (addVal (.ofInt j) b)
  | .copy => out (a, 0)
  | .abs => out (absVal a, 0)
  | .neg => out (negVal a, 0)
  | .exp2 => r.fin (exp2V a)
  | .log2 => r.fin (log2V a)
  | .rcp => r.fin (rcpV a)
  | .sqrt => r.fin (sqrtV a)
  | .rsqrt => r.fin (rsqrtV a)
  | .tanh => tanhOf a r
  | .sigmoid => sigmoidOf a r
  | .gelu => geluOf a r
  | .silu => siluOf a r
  | .and | .or | .xor | .shl | .shr => (0, 0)

end Sys2Proof.Machine
end

