-- ==== Sys2Proof/Machine/Operands.lean ====
section
/-!
DEFINITION. The issue of an op (R87, R88, R591): the plan position, the channels and the stop horizon that hold a beat
back, address operands and generators, extents, port claims, the scratch as an op reads and writes it at its beats, the plan
faults met at issue, and the work an op leaves for its later beats.
-/

namespace Sys2Proof.Machine

/-! ### Where an op stands -/

/-- Engine type of virtual movement `v` in the running step's plan (R121). -/
def State.vtype (s : State) (v : Nat) : Nat :=
  match s.run with
  | some r => (r.plan.moves.getD v (typeOf v, true)).1
  | none => typeOf v

/-- Ordinal of virtual movement `v` within its type (R76, R242). -/
def State.vord (s : State) (v : Nat) : Nat :=
  match s.run with
  | some r => ordinalIn (r.plan.moves.map (·.1)) v
  | none => ordinalIn gridTypes v

/-- Plan position of the next op of virtual movement `v` (R66). -/
def State.pos (s : State) (v : Nat) : PlanPos :=
  { step := (s.run.map (·.number)).getD 0, beat := (s.mvOf (s.phys v)).beats, vmove := v, event := (s.seqOf v).event }

/-! ### What holds a plan beat back (R38 to R41, R64, R530 to R532) -/

/-- Grid neighbours of a movement to the north, south, east and west. -/
def gridNeighbours (n : Nat) : List Nat :=
  (if 8 ≤ n then [n - 8] else []) ++ (if n < 56 then [n + 8] else []) ++ (if n % 8 < 7 then [n + 1] else [])
    ++ (if 0 < n % 8 then [n - 1] else [])

/-- Tokens of the channel from `u` to `n`. -/
def State.chanOf (s : State) (u n : Nat) : List Token := tget [] s.chan (64 * u + n)
def State.setChan (s : State) (u n : Nat) (t : List Token) : State := { s with chan := tset [] s.chan (64 * u + n) t }

/-- What the input channels of a movement say of its beat `b` (R39, R41): a tag that differs, a token still to come from a
neighbour that has issued `b`, or nothing that holds it. A neighbour that has not yet issued `b` does not hold it: the stop
horizon does (DESIGN CHOICE, log 86). -/
inductive InputState where
  | ready
  | waiting
  | badTag
deriving DecidableEq, Repr

/-- The state of the input channels for beat `b`. -/
def State.inputs (s : State) (n b : Nat) : InputState :=
  (gridNeighbours n).foldl (fun x u =>
    if (s.mvOf u).beats ≤ b then x
    else
      match s.chanOf u n with
      | [] => if x = .badTag then x else .waiting
      | t :: _ => if t.tag.toNat = b % 64 then x else .badTag) .ready

/-- Whether every output channel has room (R39). -/
def State.outputsFree (s : State) (n : Nat) : Bool := (gridNeighbours n).all fun u => decide ((s.chanOf n u).length < 32)

/-- Whether the step's start has reached a movement for plan beat 0 (R64): the C movement at its launch count, the others
from a neighbour. -/
def State.started (s : State) (n b : Nat) : Bool :=
  decide (0 < b) ||
    (if n = cMove then
      (match s.run with
       | some r => r.req.start != 1 || decide (r.req.launch ≤ s.chron.count)
       | none => false)
     else (gridNeighbours n).any (fun u => decide (0 < (s.mvOf u).beats)))

/-- Whether a movement may issue beat `b` under the horizon and a stop (R530, R531). -/
def State.mayIssue (s : State) (b : Nat) : Bool :=
  decide (b < s.floor1 + 15) && (s.stop.state == 0 || decide (b < s.stop.beat))

/-- Whether a movement advances in empty beats: an ending stop forms, and it holds (R532). -/
def State.emptyBeat (s : State) (v : Nat) : Bool :=
  s.stop.state == 1 && s.stop.ending && ((s.seqOf v).hold.isSome || (s.seqOf v).starved)

/-- Whether nothing holds the beat of a movement back: its start has come, the horizon and the channels permit it. -/
def State.beatFree (s : State) (n : Nat) : Bool :=
  let b := (s.mvOf n).beats
  s.started n b && s.mayIssue b && s.outputsFree n && decide (s.inputs n b = .ready)

/-- Whether virtual movement `v` can issue an op now: a step runs, its stream has not ended, it holds at no wait, fewer than
four ops issued at this beat, and nothing holds the beat back (R39, R64, R74, R88, R104, R110, R530 to R532). -/
def State.canIssue (s : State) (v : Nat) : Bool :=
  match s.run with
  | none => false
  | some r =>
    !r.stopped && (s.seqOf v).ended.isNone && (s.seqOf v).hold.isNone && decide ((s.seqOf v).event < 4)
      && !s.emptyBeat v && s.beatFree (s.phys v)

/-- Whether it can issue an engine op: at most one of them issues at a beat (R88). -/
def State.canEngine (s : State) (v : Nat) : Bool := s.canIssue v && !(s.seqOf v).engine

/-! ### The beginning of a beat (R64, R65, R526) -/

/-- The stamp of a movement at plan beat 0 (R65). -/
def stampBegin (s : State) (v : Nat) : State := s.onRun fun r => { r with stamps := tput v s.chron.count r.stamps }

/-- What plan beat 0 brings at the C movement besides (R64, R65): the step's first stamp and its lateness. -/
def beginStep (s : State) : State :=
  s.onRun fun r =>
    let late := r.req.start == 1 && decide (r.req.launch < r.req.ready)
    { r with begin_ := some s.chron.count, beginNs := s.ns
             lateness := if late then s.chron.count - r.req.launch else 0
             sflags := if late ∧ bitNat r.sflags 0 = false then r.sflags + 1 else r.sflags }

/-- What plan beat 0 brings at a movement (R64, R65, R526): its stamp, and the trace's BEGIN. -/
def beginBeat (s : State) (v : Nat) : State :=
  let s := stampBegin s v
  let s := if s.phys v = cMove then beginStep s else s
  let pos := s.pos v
  traceAdd s { a := 0, vmove := v, event := 0, kind := traceBegin, b := pos.step } pos

/-- The stamp of every 256th plan beat while the trace is on (R65, R526). -/
def stampBeat (s : State) (v b : Nat) : State :=
  if b % 256 = 0 then
    traceAdd s { a := b % 2 ^ 48, vmove := v, event := 0, kind := traceStamp, b := s.chron.count } (s.pos v)
  else s

/-- The first part of a plan beat, done once: its stamps. -/
def openBeat (s : State) (v : Nat) : State :=
  let q := s.seqOf v
  if q.opened then s
  else
    let s := s.setSeq v { q with opened := true }
    let b := (s.mvOf (s.phys v)).beats
    stampBeat (if b = 0 then beginBeat s v else s) v b

/-! ### Address operands (R86, R90) -/

/-- index_l: the current iteration of nest level `l` (R90). -/
def Seq.index (q : Seq) (l : Nat) : Nat := (q.nest.reverse[l]?.map (·.k)).getD 0

/-- The value of address generator `g` (R90): base plus the sum of index × stride, wrapping. -/
def Seq.agVal (q : Seq) (g : Nat) : W32 :=
  let a := tget {} q.ag g
  (List.range 6).foldl (fun x l => x + BitVec.ofNat 32 (q.index l) * tget 0 a.stride l) a.base

/-- The 32-bit address of an address operand at issue (R86, R90). -/
def Seq.addr (q : Seq) : AddrOp → Nat
  | .lit a => a.toNat
  | .gen g => (q.agVal g.val).toNat

/-- The accumulator row of an accumulator-row operand (R182). -/
def Seq.accRow (q : Seq) : AccOp → Nat
  | .row r => r.toNat
  | .gen g => (q.agVal g.val).toNat

/-- The flow-buffer address of a flow-buffer operand (R82). -/
def Seq.flowAddr (q : Seq) : FlowOp → Nat
  | .lit a => a.toNat
  | .gen g => (q.agVal g.val).toNat

/-- An address offset by a signed number of rows, wrapping at 32 bits. -/
def rowAt (a : Nat) (k : Int) : Nat := ((a + 256 * k : Int) % (2 ^ 32 : Nat)).toNat

/-- VMOVE of a scratch address (R76). -/
def addrVm (a : Nat) : Nat := fieldNat a 28 23
/-- OFFSET of a scratch address, at the start of its row (R76, R78). -/
def addrRow (a : Nat) : Nat := fieldNat a 22 8 * 256
/-- Bank of a scratch address within its movement (R77). -/
def addrBank (a : Nat) : Nat := fieldNat a 9 8

/-! ### Accesses and extents (R83, R591) -/

/-- One row access of an op: scratch (0), accumulator (1) or flow buffer (2), its address, beat and direction, and whether
a flow-buffer row lies on the movement's own link die (R82). -/
structure Access where
  cls   : Nat := 0
  addr  : Nat
  beat  : Nat
  write : Bool
  own   : Bool := true
deriving DecidableEq, Repr

/-- Whether an access lies in a declared extent of its class (R82, R83, R90). -/
def inExtent (es : List Extent) (v : Nat) (a : Access) : Bool :=
  match a.cls with
  | 0 =>
    decide (a.addr < 2 ^ 29 ∧ fieldNat a.addr 22 0 ≤ 0x5FFFFF) &&
      es.any (fun e => e.cls == 0 && e.vm == addrVm a.addr && decide (e.first ≤ addrRow a.addr ∧ addrRow a.addr ≤ e.last))
  | 1 => es.any (fun e => e.cls == 1 && e.vm == v && decide (e.first ≤ a.addr ∧ a.addr ≤ e.last))
  | _ =>
    a.own && decide (a.addr < 2 ^ 24) &&
      es.any (fun e => e.cls == 2 && e.vm == fieldNat a.addr 23 23 && decide (e.first ≤ addrRow a.addr ∧ addrRow a.addr ≤ e.last))

/-- The first access outside the declared extents, in the op's row order (R591). Of an op with several address operands the
accesses stand in the order in which its exec lists them (DESIGN CHOICE, log 127). -/
def State.firstBad (s : State) (v : Nat) (as : List Access) : Option Access :=
  match s.run with
  | some r => as.find? (fun a => !inExtent r.plan.extents v a)
  | none => none

/-- Plan-fault codes of R108. -/
def pfCollision : Nat := 1
def pfScratch : Nat := 2
def pfAcc : Nat := 3
def pfFlow : Nat := 4
def pfQueue : Nat := 5
def pfFlowNotOwned : Nat := 6
def pfUndefined : Nat := 7
def pfLevelPeer : Nat := 8
def pfWaitUnreachable : Nat := 9
def pfWaitLimit : Nat := 10

/-- A breach found at an op's issue by its sequencer, at UNIT 0x013 (R108, R109, R111). -/
def planFault (s : State) (pos : PlanPos) (code detail operand : Nat) : State :=
  breach s { pos := pos, code := code, detail := detail, operand := operand, loc := cdLoc (s.phys pos.vmove) 0x013
             opAddr := (s.seqOf pos.vmove).opAddr, stamp := s.chron.count }

/-! ### Port claims (R79, R80, R112) -/

/-- Whether claim `d` is named before claim `c` in a collision (R112): the lower virtual movement, of one sequencer the op
issued first. -/
def Claim.lower (d c : Claim) : Bool :=
  decide (d.pos.vmove < c.pos.vmove) || (d.pos.vmove == c.pos.vmove && d.pos.before c.pos)

/-- Whether two claims meet on one port in one beat (R80). -/
def Claim.meets (c d : Claim) : Bool := d.beat == c.beat && d.bank == c.bank && d.write == c.write

/-- The breach of two claims on one port in one beat (R80, R112): the lower virtual movement is named first. OPERAND
is the row address of the claim named first (DEDUCED, log 31). -/
def collision (c d : Claim) (stamp : Nat) : Breach :=
  let (a, b) := if d.lower c then (d, c) else (c, d)
  { pos := { a.pos with beat := a.beat }, code := pfCollision, operand := a.addr
    other := b.pos.vmove + 256 * natOfBool b.write, loc := cdLoc (c.bank / 4) (c.bank % 4), opAddr := a.opAddr
    stamp := stamp }

/-- The claim of a scratch access. -/
def claimOf (s : State) (pos : PlanPos) (a : Access) : Claim :=
  { beat := a.beat, bank := 4 * s.phys (addrVm a.addr) + addrBank a.addr, write := a.write, pos := pos
    opAddr := (s.seqOf pos.vmove).opAddr, addr := a.addr }

/-- Enter every scratch claim of an op (R591: also of one that is in breach). -/
def claimAll (s : State) (pos : PlanPos) (as : List Access) : State :=
  s.onRun fun r => { r with claims := r.claims ++ (as.filter (fun a => a.cls == 0)).map (claimOf s pos) }

/-- The claim of a list that a claim meets, the one named first where several do. -/
def firstMet (c : Claim) (ds : List Claim) : Option Claim :=
  (ds.filter c.meets).foldl (fun m d => match m with
    | some x => if d.lower x then some d else some x
    | none => some d) none

/-- The collisions that claims make with others and with those before them: a second claim on a port is one each (R80). -/
def collisionsOf (stamp : Nat) : List Claim → List Claim → List Breach
  | _, [] => []
  | ds, c :: cs =>
    (match firstMet c ds with | some d => [collision c d stamp] | none => []) ++ collisionsOf stamp (ds ++ [c]) cs

/-- A movement that has issued beat `b` finds the collisions of its claims at `b` with those of the movements that have
issued it too, and requests the stop (R80, R109). -/
def detectCollisions (s : State) (v b : Nat) : State :=
  match s.run with
  | some r =>
    let at_ := r.claims.filter (fun c => c.beat == b)
    let others := at_.filter fun c => c.pos.vmove != v && decide (b < (s.mvOf (s.phys c.pos.vmove)).beats)
    let found := collisionsOf s.chron.count others (at_.filter (fun c => c.pos.vmove == v))
    if found.isEmpty then s
    else requestStop (s.onRun fun r => { r with breaches := r.breaches ++ found }) 0 true (s.floor1 + 15)
  | none => s

/-- The collisions at beats past the step's last plan beat, which no movement issues any more: found once every movement has
passed it, as at their own beats (R74, R80, R109; DEDUCED, log 126). -/
def lateCollisions (s : State) : State :=
  match s.run with
  | some r =>
    match collisionsOf s.chron.count [] r.claims with
    | [] => s
    | c :: cs =>
      let first := cs.foldl (fun m d => min m d.pos.beat) c.pos.beat
      requestStop (s.onRun fun r => { r with breaches := r.breaches ++ c :: cs, claims := [] }) 0 true (first + 16)
  | none => s

/-! ### The scratch in time (R43, R78) -/

/-- Overlay the bytes of one write on a row. -/
def overlay (row : Bytes) (bs : List (Nat × Byte)) : Bytes := bs.foldl (fun r b => r.set b.1 b.2) row

/-- The row at byte offset `off` of physical movement `n`, as a read issued at beat `t` sees it: every write whose claim
beat is at most `t − 24` (R43). -/
def State.rowSeen (s : State) (n off t : Nat) : Bytes :=
  let m := s.mvOf n
  (m.writes.filter (fun w => w.off == off && decide (w.beat + 24 ≤ t))).foldl (fun r w => overlay r w.bytes)
    (memGet m.fill m.scratch off 256)

/-- The row at a scratch address, read at beat `t`. -/
def State.readRow (s : State) (a t : Nat) : Bytes := s.rowSeen (s.phys (addrVm a)) (addrRow a) t

/-- Insert a write in order of claim beat, after those of the same beat. -/
def putWrite (w : SWrite) : List SWrite → List SWrite
  | [] => [w]
  | x :: xs => if w.beat < x.beat then w :: x :: xs else x :: putWrite w xs

/-- Write bytes of the row at a scratch address, the port being claimed at beat `t` (R43, R78). -/
def State.writeBytes (s : State) (a t : Nat) (bs : List (Nat × Byte)) : State :=
  let n := s.phys (addrVm a)
  let m := s.mvOf n
  s.setMv n { m with writes := putWrite { beat := t, off := addrRow a, bytes := bs } m.writes }

/-- Write a whole row. -/
def State.writeRow (s : State) (a t : Nat) (row : Bytes) : State := s.writeBytes a t (indexed (padTo 256 row))

/-- Write rows: address, beat, bytes. -/
def State.writeRows (s : State) (ws : List (Nat × Nat × Bytes)) : State :=
  ws.foldl (fun s w => s.writeRow w.1 w.2.1 w.2.2) s

/-- Store the bytes of one write in a memory. -/
def storeWrite (f : Option Nat) (m : Mem) (w : SWrite) : Mem :=
  w.bytes.foldl (fun m b => memPut f m (w.off + b.1) b.2) m

/-- Fold the writes that every later read sees into the scratch of a movement: those whose claim beat lies 24 or more
below `t`, the lowest beat at which a read can still be issued (R43). -/
def Mvmt.fold (m : Mvmt) (t : Nat) : Mvmt :=
  { m with scratch := (m.writes.filter (fun w => decide (w.beat + 24 ≤ t))).foldl (storeWrite m.fill) m.scratch
           writes := m.writes.filter (fun w => !decide (w.beat + 24 ≤ t)) }

/-- Fold every write of a movement (R75: every write has become visible). -/
def Mvmt.foldAll (m : Mvmt) : Mvmt :=
  { m with scratch := m.writes.foldl (storeWrite m.fill) m.scratch, writes := [] }

/-! ### Issuing -/

/-- After an op has issued: its trace entry, the next event index, the reference beat (R66, R87, R88). -/
def issued (s : State) (pos : PlanPos) (engine : Bool) : State :=
  let q := s.seqOf pos.vmove
  let q := { q with event := q.event + 1, ref := pos.beat, engine := q.engine || engine
                    worked := if engine then some pos.beat else q.worked }
  traceOp (s.setSeq pos.vmove q) pos q.opAddr engine

/-- Leave an op's later work for its beats. -/
def addFlight (s : State) (pos : PlanPos) (w : Work) : State :=
  s.onRun fun r => { r with flights := r.flights ++ [{ pos := pos, opAddr := (s.seqOf pos.vmove).opAddr, work := w }] }

/-- Issue an op of virtual movement `v` (R84 to R88, R591): `ok` when its movement carries it and its fields are
defined; its accesses are claimed and checked, and where all lie in their extents it has its effect. -/
def issueOp (s : State) (v : Nat) (engine ok : Bool) (accs : List Access) (eff : PlanPos → State → State) : Res :=
  act ((if engine then s.canEngine v else s.canIssue v) = true)
    (let pos := s.pos v
     let s0 := issued (openBeat s v) pos engine
     if ok then
       let s1 := claimAll s0 pos accs
       match s1.firstBad v accs with
       | some a => planFault s1 pos (a.cls + 2) 0 a.addr
       | none => eff pos s1
     else planFault s0 pos pfUndefined 0 0) s

/-- Issue an engine op: the movement must be of the engine's type (R85). -/
def issueEngine (s : State) (v ty : Nat) (ok : Bool) (accs : List Access) (eff : PlanPos → State → State) : Res :=
  issueOp s v true (ok && s.vtype v == ty) accs eff

/-- Signed 16-bit, 14-bit and 12-bit strides in rows. -/
def srows {w : Nat} (x : BitVec w) : Int := x.toInt

/-- Whether a ROUND field is defined (R151). -/
def roundOk (r : BitVec 2) : Bool := r != 3

end Sys2Proof.Machine
end

