-- ==== Sys2Proof/Machine/OpWord.lean ====
section
/-!
DEFINITION. The 128-bit op word (R84): its fields, decoding into the op commands, rejecting what R85 and R11 call
undefined, and the encoder written from the same tables.
-/

namespace Sys2Proof.Machine

/-- The fields of an op word (R84). -/
structure OpWord where
  eng   : BitVec 4
  op    : Byte
  delta : BitVec 10
  pmode : BitVec 2
  pslot : Byte
  ow2   : W32
  ow1   : W32
  ow0   : W32
deriving DecidableEq, Repr

/-- Split a word into its fields (R84). -/
def splitWord (w : W128) : OpWord :=
  { eng := w.extractLsb' 124 4, op := w.extractLsb' 116 8, delta := w.extractLsb' 106 10, pmode := w.extractLsb' 104 2
    pslot := w.extractLsb' 96 8, ow2 := w.extractLsb' 64 32, ow1 := w.extractLsb' 32 32, ow0 := w.extractLsb' 0 32 }

/-- Join the fields of a word (R84). -/
def joinWord (o : OpWord) : W128 :=
  (o.eng ++ o.op ++ o.delta ++ o.pmode ++ o.pslot ++ o.ow2 ++ o.ow1 ++ o.ow0 : BitVec 128)

/-- `len` bits of an operand word from bit `lo`. -/
def fld (w : W32) (lo len : Nat) : BitVec len := w.extractLsb' lo len

/-- Bit `i` of an operand word. -/
def flag (w : W32) (i : Nat) : Bool := w.getLsbD i

/-- Decode an address operand (R86). -/
def decAddr (w : W32) : Option AddrOp :=
  if fld w 30 2 = 0 then (if fld w 29 1 = 0 then some (.lit (fld w 0 29)) else none)
  else if fld w 30 2 = 1 then (if fld w 2 28 = 0 then some (.gen (fld w 0 2).toFin) else none)
  else none

/-- Encode an address operand (R86). -/
def encAddr : AddrOp → W32
  | .lit a => (0#3 ++ a : BitVec 32)
  | .gen g => (1#2 ++ 0#28 ++ BitVec.ofFin (w := 2) g : BitVec 32)

/-- Decode an accumulator-row operand (R182). -/
def decAcc (w : W32) : Option AccOp :=
  if fld w 30 2 = 0 then (if fld w 10 20 = 0 then some (.row (fld w 0 10)) else none)
  else if fld w 30 2 = 1 then (if fld w 2 28 = 0 then some (.gen (fld w 0 2).toFin) else none)
  else none

/-- Encode an accumulator-row operand (R182). -/
def encAcc : AccOp → W32
  | .row a => (0#22 ++ a : BitVec 32)
  | .gen g => (1#2 ++ 0#28 ++ BitVec.ofFin (w := 2) g : BitVec 32)

/-- Decode a flow-buffer operand (R82). -/
def decFlow (w : W32) : Option FlowOp :=
  if fld w 30 2 = 0 then (if fld w 24 6 = 0 then some (.lit (fld w 0 24)) else none)
  else if fld w 30 2 = 1 then (if fld w 2 28 = 0 then some (.gen (fld w 0 2).toFin) else none)
  else none

/-- Encode a flow-buffer operand (R82). -/
def encFlow : FlowOp → W32
  | .lit a => (0#8 ++ a : BitVec 32)
  | .gen g => (1#2 ++ 0#28 ++ BitVec.ofFin (w := 2) g : BitVec 32)

/-- A word with DELTA 0 and no patch. -/
def mkWord (eng : BitVec 4) (op : Byte) (ow0 ow1 ow2 : W32) : OpWord :=
  { eng := eng, op := op, delta := 0, pmode := 0, pslot := 0, ow2 := ow2, ow1 := ow1, ow0 := ow0 }

/-- Decode the sequencer ops (R89). -/
def decSeq (v : VMove) (o : OpWord) : Option Instr :=
  match o.op.toNat with
  | 0x0 =>
    if o.ow0 == 0 && o.ow1 == 0 && o.ow2 == 0 then some (.nop v) else none
  | 0x1 =>
    if o.ow1 == 0 && o.ow2 == 0 && o.ow0 != 0 then some (.idle v o.ow0) else none
  | 0x2 =>
    if fld o.ow1 2 30 == 0 && o.ow2 == 0 then some (.agBase v (fld o.ow1 0 2).toFin o.ow0) else none
  | 0x4 =>
    if fld o.ow1 3 29 == 0 && decide ((fld o.ow1 0 3).toNat < 6) && o.ow2 != 0 then some (.nestOpen v (fld o.ow1 0 3) o.ow0 o.ow2) else none
  | 0x6 =>
    if fld o.ow1 4 28 == 0 && fld o.ow2 16 16 == 0 then some (.wait v o.ow0 (fld o.ow1 0 4).toFin (fld o.ow2 0 16)) else none
  | 0x8 =>
    if o.ow0 == 0 && o.ow1 == 0 && o.ow2 == 0 then some (.stepEnd v) else none
  | 0x3 =>
    if fld o.ow1 2 6 == 0 && fld o.ow1 11 21 == 0 && o.ow2 == 0 then
      (if h : (fld o.ow1 8 3).toNat < 6 then some (.agStride v (fld o.ow1 0 2).toFin ⟨(fld o.ow1 8 3).toNat, h⟩ o.ow0) else none)
    else none
  | 0x7 =>
    if fld o.ow1 4 12 == 0 && fld o.ow1 29 3 == 0 && (flag o.ow1 28 || o.ow2 == 0) then
      (decAddr o.ow0).bind fun dst =>
        if flag o.ow1 28 then
          (decAddr o.ow2).bind fun d2 => some (.take v dst (fld o.ow1 0 4).toFin (fld o.ow1 16 12) (some d2))
        else some (.take v dst (fld o.ow1 0 4).toFin (fld o.ow1 16 12) none)
    else none
  | _ => none

/-- Decode the array ops (R181). -/
def decMatrix (v : VMove) (o : OpWord) : Option Instr :=
  match o.op.toNat with
  | 0x1 =>
    if fld o.ow1 23 9 == 0 && o.ow2 == 0 then (decAddr o.ow0).bind fun src => some (.tileLoad v src (fld o.ow1 0 16) (flag o.ow1 16) (fld o.ow1 17 5) (flag o.ow1 22)) else none
  | 0x2 =>
    if fld o.ow1 0 16 == 0 && fld o.ow1 17 15 == 0 && o.ow2 == 0 then (decAddr o.ow0).bind fun src => some (.tileScales v src (flag o.ow1 16)) else none
  | 0x3 =>
    if o.ow1 == 0 && o.ow2 == 0 then (decAddr o.ow0).bind fun addr => some (.ascaleSet v addr) else none
  | 0x4 =>
    if fld o.ow2 29 3 == 0 then (decAddr o.ow0).bind fun a => (decAcc o.ow1).bind fun acc => some (.stream v a acc (fld o.ow2 0 11) (flag o.ow2 11) (flag o.ow2 12) (flag o.ow2 13) (fld o.ow2 14 5) (fld o.ow2 19 10)) else none
  | 0x5 =>
    if fld o.ow2 30 2 == 0 then (decAddr o.ow0).bind fun dst => (decAcc o.ow1).bind fun acc => some (.drain v dst acc (fld o.ow2 0 11) (fld o.ow2 11 5) (fld o.ow2 16 2) (flag o.ow2 18) (flag o.ow2 19) (fld o.ow2 20 10)) else none
  | 0x6 =>
    if fld o.ow2 11 8 == 0 && fld o.ow2 20 12 == 0 then (decAddr o.ow0).bind fun dst => (decAcc o.ow1).bind fun acc => some (.drainWide v dst acc (fld o.ow2 0 11) (flag o.ow2 19)) else none
  | 0x7 =>
    if fld o.ow2 12 20 == 0 then (decAddr o.ow0).bind fun src => (decAcc o.ow1).bind fun acc => some (.accLoad v src acc (fld o.ow2 0 11) (flag o.ow2 11)) else none
  | 0x8 =>
    if o.ow1 == 0 && o.ow2 == 0 then some (.seedSet v o.ow0) else none
  | _ => none

/-- Decode the vector and reduction ops (R202, R203, R206, R208). -/
def decVector (v : VMove) (o : OpWord) : Option Instr :=
  match o.op.toNat with
  | 0x1 =>
    (decAddr o.ow0).bind fun d => (decAddr o.ow1).bind fun a => (decAddr o.ow2).bind fun b => some (.add v (.straps d a b))
  | 0x41 =>
    (decAddr o.ow0).bind fun d => (decAddr o.ow1).bind fun a => some (.add v (.imm d a o.ow2))
  | 0x81 =>
    if o.ow2 == 0 then (decAddr o.ow0).bind fun d => (decAddr o.ow1).bind fun a => some (.add v (.const d a)) else none
  | 0x2 =>
    (decAddr o.ow0).bind fun d => (decAddr o.ow1).bind fun a => (decAddr o.ow2).bind fun b => some (.sub v (.straps d a b))
  | 0x42 =>
    (decAddr o.ow0).bind fun d => (decAddr o.ow1).bind fun a => some (.sub v (.imm d a o.ow2))
  | 0x82 =>
    if o.ow2 == 0 then (decAddr o.ow0).bind fun d => (decAddr o.ow1).bind fun a => some (.sub v (.const d a)) else none
  | 0x3 =>
    (decAddr o.ow0).bind fun d => (decAddr o.ow1).bind fun a => (decAddr o.ow2).bind fun b => some (.mul v (.straps d a b))
  | 0x43 =>
    (decAddr o.ow0).bind fun d => (decAddr o.ow1).bind fun a => some (.mul v (.imm d a o.ow2))
  | 0x83 =>
    if o.ow2 == 0 then (decAddr o.ow0).bind fun d => (decAddr o.ow1).bind fun a => some (.mul v (.const d a)) else none
  | 0x4 =>
    (decAddr o.ow0).bind fun d => (decAddr o.ow1).bind fun a => (decAddr o.ow2).bind fun b => some (.mad v (.straps d a b))
  | 0x44 =>
    (decAddr o.ow0).bind fun d => (decAddr o.ow1).bind fun a => some (.mad v (.imm d a o.ow2))
  | 0x84 =>
    if o.ow2 == 0 then (decAddr o.ow0).bind fun d => (decAddr o.ow1).bind fun a => some (.mad v (.const d a)) else none
  | 0x5 =>
    (decAddr o.ow0).bind fun d => (decAddr o.ow1).bind fun a => (decAddr o.ow2).bind fun b => some (.min v (.straps d a b))
  | 0x45 =>
    (decAddr o.ow0).bind fun d => (decAddr o.ow1).bind fun a => some (.min v (.imm d a o.ow2))
  | 0x85 =>
    if o.ow2 == 0 then (decAddr o.ow0).bind fun d => (decAddr o.ow1).bind fun a => some (.min v (.const d a)) else none
  | 0x6 =>
    (decAddr o.ow0).bind fun d => (decAddr o.ow1).bind fun a => (decAddr o.ow2).bind fun b => some (.max v (.straps d a b))
  | 0x46 =>
    (decAddr o.ow0).bind fun d => (decAddr o.ow1).bind fun a => some (.max v (.imm d a o.ow2))
  | 0x86 =>
    if o.ow2 == 0 then (decAddr o.ow0).bind fun d => (decAddr o.ow1).bind fun a => some (.max v (.const d a)) else none
  | 0x8 =>
    (decAddr o.ow0).bind fun d => (decAddr o.ow1).bind fun a => (decAddr o.ow2).bind fun b => some (.cmpeq v (.straps d a b))
  | 0x48 =>
    (decAddr o.ow0).bind fun d => (decAddr o.ow1).bind fun a => some (.cmpeq v (.imm d a o.ow2))
  | 0x88 =>
    if o.ow2 == 0 then (decAddr o.ow0).bind fun d => (decAddr o.ow1).bind fun a => some (.cmpeq v (.const d a)) else none
  | 0x9 =>
    (decAddr o.ow0).bind fun d => (decAddr o.ow1).bind fun a => (decAddr o.ow2).bind fun b => some (.cmpne v (.straps d a b))
  | 0x49 =>
    (decAddr o.ow0).bind fun d => (decAddr o.ow1).bind fun a => some (.cmpne v (.imm d a o.ow2))
  | 0x89 =>
    if o.ow2 == 0 then (decAddr o.ow0).bind fun d => (decAddr o.ow1).bind fun a => some (.cmpne v (.const d a)) else none
  | 0xa =>
    (decAddr o.ow0).bind fun d => (decAddr o.ow1).bind fun a => (decAddr o.ow2).bind fun b => some (.cmplt v (.straps d a b))
  | 0x4a =>
    (decAddr o.ow0).bind fun d => (decAddr o.ow1).bind fun a => some (.cmplt v (.imm d a o.ow2))
  | 0x8a =>
    if o.ow2 == 0 then (decAddr o.ow0).bind fun d => (decAddr o.ow1).bind fun a => some (.cmplt v (.const d a)) else none
  | 0xb =>
    (decAddr o.ow0).bind fun d => (decAddr o.ow1).bind fun a => (decAddr o.ow2).bind fun b => some (.cmple v (.straps d a b))
  | 0x4b =>
    (decAddr o.ow0).bind fun d => (decAddr o.ow1).bind fun a => some (.cmple v (.imm d a o.ow2))
  | 0x8b =>
    if o.ow2 == 0 then (decAddr o.ow0).bind fun d => (decAddr o.ow1).bind fun a => some (.cmple v (.const d a)) else none
  | 0xc =>
    (decAddr o.ow0).bind fun d => (decAddr o.ow1).bind fun a => (decAddr o.ow2).bind fun b => some (.sel v (.straps d a b))
  | 0x4c =>
    (decAddr o.ow0).bind fun d => (decAddr o.ow1).bind fun a => some (.sel v (.imm d a o.ow2))
  | 0x8c =>
    if o.ow2 == 0 then (decAddr o.ow0).bind fun d => (decAddr o.ow1).bind fun a => some (.sel v (.const d a)) else none
  | 0xd =>
    (decAddr o.ow0).bind fun d => (decAddr o.ow1).bind fun a => (decAddr o.ow2).bind fun b => some (.and v (.straps d a b))
  | 0x4d =>
    (decAddr o.ow0).bind fun d => (decAddr o.ow1).bind fun a => some (.and v (.imm d a o.ow2))
  | 0x8d =>
    if o.ow2 == 0 then (decAddr o.ow0).bind fun d => (decAddr o.ow1).bind fun a => some (.and v (.const d a)) else none
  | 0xe =>
    (decAddr o.ow0).bind fun d => (decAddr o.ow1).bind fun a => (decAddr o.ow2).bind fun b => some (.or v (.straps d a b))
  | 0x4e =>
    (decAddr o.ow0).bind fun d => (decAddr o.ow1).bind fun a => some (.or v (.imm d a o.ow2))
  | 0x8e =>
    if o.ow2 == 0 then (decAddr o.ow0).bind fun d => (decAddr o.ow1).bind fun a => some (.or v (.const d a)) else none
  | 0xf =>
    (decAddr o.ow0).bind fun d => (decAddr o.ow1).bind fun a => (decAddr o.ow2).bind fun b => some (.xor v (.straps d a b))
  | 0x4f =>
    (decAddr o.ow0).bind fun d => (decAddr o.ow1).bind fun a => some (.xor v (.imm d a o.ow2))
  | 0x8f =>
    if o.ow2 == 0 then (decAddr o.ow0).bind fun d => (decAddr o.ow1).bind fun a => some (.xor v (.const d a)) else none
  | 0x10 =>
    (decAddr o.ow0).bind fun d => (decAddr o.ow1).bind fun a => (decAddr o.ow2).bind fun b => some (.shl v (.straps d a b))
  | 0x50 =>
    (decAddr o.ow0).bind fun d => (decAddr o.ow1).bind fun a => some (.shl v (.imm d a o.ow2))
  | 0x90 =>
    if o.ow2 == 0 then (decAddr o.ow0).bind fun d => (decAddr o.ow1).bind fun a => some (.shl v (.const d a)) else none
  | 0x11 =>
    (decAddr o.ow0).bind fun d => (decAddr o.ow1).bind fun a => (decAddr o.ow2).bind fun b => some (.shr v (.straps d a b))
  | 0x51 =>
    (decAddr o.ow0).bind fun d => (decAddr o.ow1).bind fun a => some (.shr v (.imm d a o.ow2))
  | 0x91 =>
    if o.ow2 == 0 then (decAddr o.ow0).bind fun d => (decAddr o.ow1).bind fun a => some (.shr v (.const d a)) else none
  | 0x7 =>
    (decAddr o.ow0).bind fun d => (decAddr o.ow1).bind fun a => (decAddr o.ow2).bind fun b => some (.affine v (.straps d a b))
  | 0x47 =>
    (decAddr o.ow0).bind fun d => (decAddr o.ow1).bind fun a => some (.affine v (.imm d a o.ow2))
  | 0x12 =>
    (decAddr o.ow0).bind fun d => (decAddr o.ow1).bind fun a => (decAddr o.ow2).bind fun b => some (.exps v (.straps d a b))
  | 0x52 =>
    (decAddr o.ow0).bind fun d => (decAddr o.ow1).bind fun a => some (.exps v (.imm d a o.ow2))
  | 0x53 =>
    if o.ow1 == 0 then (decAddr o.ow0).bind fun d => some (.iota v d o.ow2) else none
  | 0x20 =>
    if o.ow2 == 0 then (decAddr o.ow0).bind fun d => (decAddr o.ow1).bind fun a => some (.vectorCopy v d a) else none
  | 0x21 =>
    if o.ow2 == 0 then (decAddr o.ow0).bind fun d => (decAddr o.ow1).bind fun a => some (.abs v d a) else none
  | 0x22 =>
    if o.ow2 == 0 then (decAddr o.ow0).bind fun d => (decAddr o.ow1).bind fun a => some (.neg v d a) else none
  | 0x23 =>
    if o.ow2 == 0 then (decAddr o.ow0).bind fun d => (decAddr o.ow1).bind fun a => some (.exp2 v d a) else none
  | 0x24 =>
    if o.ow2 == 0 then (decAddr o.ow0).bind fun d => (decAddr o.ow1).bind fun a => some (.log2 v d a) else none
  | 0x25 =>
    if o.ow2 == 0 then (decAddr o.ow0).bind fun d => (decAddr o.ow1).bind fun a => some (.rcp v d a) else none
  | 0x26 =>
    if o.ow2 == 0 then (decAddr o.ow0).bind fun d => (decAddr o.ow1).bind fun a => some (.sqrt v d a) else none
  | 0x27 =>
    if o.ow2 == 0 then (decAddr o.ow0).bind fun d => (decAddr o.ow1).bind fun a => some (.rsqrt v d a) else none
  | 0x28 =>
    if o.ow2 == 0 then (decAddr o.ow0).bind fun d => (decAddr o.ow1).bind fun a => some (.tanh v d a) else none
  | 0x29 =>
    if o.ow2 == 0 then (decAddr o.ow0).bind fun d => (decAddr o.ow1).bind fun a => some (.sigmoid v d a) else none
  | 0x2a =>
    if o.ow2 == 0 then (decAddr o.ow0).bind fun d => (decAddr o.ow1).bind fun a => some (.gelu v d a) else none
  | 0x2b =>
    if o.ow2 == 0 then (decAddr o.ow0).bind fun d => (decAddr o.ow1).bind fun a => some (.silu v d a) else none
  | 0xc2 =>
    if fld o.ow0 18 14 == 0 && o.ow2 == 0 then some (.vtap v (fld o.ow0 0 3) (fld o.ow0 3 4).toFin (flag o.ow0 7) (fld o.ow0 8 10) o.ow1) else none
  | 0xc3 =>
    if fld o.ow0 15 17 == 0 && o.ow1 == 0 then some (.tload v (fld o.ow0 0 4).toFin (flag o.ow0 4) (fld o.ow0 5 10) o.ow2) else none
  | 0xc8 =>
    if o.ow1 == 0 && fld o.ow2 15 17 == 0 then (decAddr o.ow0).bind fun a => some (.rsum v a ⟨(fld o.ow2 0 4).toFin, (flag o.ow2 4), (fld o.ow2 5 10)⟩) else none
  | 0xc9 =>
    if o.ow1 == 0 && fld o.ow2 15 17 == 0 then (decAddr o.ow0).bind fun a => some (.rsumsq v a ⟨(fld o.ow2 0 4).toFin, (flag o.ow2 4), (fld o.ow2 5 10)⟩) else none
  | 0xca =>
    if fld o.ow2 15 17 == 0 then (decAddr o.ow0).bind fun a => (decAddr o.ow1).bind fun b => some (.rdot v a b ⟨(fld o.ow2 0 4).toFin, (flag o.ow2 4), (fld o.ow2 5 10)⟩) else none
  | 0xcb =>
    if o.ow1 == 0 && fld o.ow2 5 27 == 0 then (decAddr o.ow0).bind fun a => some (.rmax v a ⟨(fld o.ow2 0 4).toFin, (flag o.ow2 4)⟩) else none
  | 0xcc =>
    if o.ow1 == 0 && fld o.ow2 5 27 == 0 then (decAddr o.ow0).bind fun a => some (.rmin v a ⟨(fld o.ow2 0 4).toFin, (flag o.ow2 4)⟩) else none
  | 0xcd =>
    if fld o.ow2 5 27 == 0 then (decAddr o.ow0).bind fun a => some (.rargmax v a o.ow1 ⟨(fld o.ow2 0 4).toFin, (flag o.ow2 4)⟩) else none
  | 0xce =>
    if fld o.ow1 16 16 == 0 && o.ow2 == 0 then (decAddr o.ow0).bind fun src => some (.raddw v src (fld o.ow1 0 16)) else none
  | 0xcf =>
    if fld o.ow1 17 15 == 0 && fld o.ow2 18 14 == 0 then (decAddr o.ow0).bind fun dst => some (.rstore v dst (fld o.ow1 0 16) (flag o.ow1 16) (fld o.ow2 0 5) (fld o.ow2 5 2) (flag o.ow2 7) (fld o.ow2 8 10)) else none
  | 0xC1 =>
    if fld o.ow0 19 13 == 0 && (flag o.ow0 18 || o.ow2 == 0) then
      some (.vset v (fld o.ow0 0 5) (fld o.ow0 5 5) (fld o.ow0 10 5) (fld o.ow0 15 2) (flag o.ow0 17) o.ow1
        (if flag o.ow0 18 then some o.ow2 else none)) else none
  | _ => none

/-- Decode the skiver ops (R214). -/
def decSkiver (v : VMove) (o : OpWord) : Option Instr :=
  match o.op.toNat with
  | 0x1 =>
    (decAddr o.ow0).bind fun dst => (decAddr o.ow1).bind fun src => some (.transpose v dst src (fld o.ow2 0 16) (fld o.ow2 16 14) (fld o.ow2 30 2))
  | 0x2 =>
    (decAddr o.ow0).bind fun dst => (decAddr o.ow1).bind fun src => some (.retile v dst src (fld o.ow2 0 8) (fld o.ow2 8 12) (fld o.ow2 20 12))
  | 0x3 =>
    if fld o.ow2 25 7 == 0 then (decAddr o.ow0).bind fun dst => (decAddr o.ow1).bind fun src => some (.convert v dst src (fld o.ow2 0 12) (fld o.ow2 12 5) (fld o.ow2 17 5) (fld o.ow2 22 2) (flag o.ow2 24)) else none
  | 0x4 =>
    (decAddr o.ow0).bind fun sscale => (decAddr o.ow1).bind fun dscale => some (.kset v sscale dscale o.ow2)
  | _ => none

/-- Decode the bridle ops (R331). -/
def decBridle (v : VMove) (o : OpWord) : Option Instr :=
  match o.op.toNat with
  | 0x1 =>
    if fld o.ow0 23 9 == 0 && o.ow1 == 0 && o.ow2 == 0 then some (.bset v (fld o.ow0 0 18) (fld o.ow0 18 5)) else none
  | 0x2 =>
    if fld o.ow1 8 24 == 0 then (decAddr o.ow0).bind fun logits => (decAddr o.ow2).bind fun result => some (.select v logits (fld o.ow1 0 8) result) else none
  | _ => none

/-- Decode the W ops (R239). -/
def decAnalog (v : VMove) (o : OpWord) : Option Instr :=
  match o.op.toNat with
  | 0x1 =>
    if fld o.ow0 17 15 == 0 && fld o.ow2 14 12 == 0 then some (.pset v (fld o.ow0 0 17) (fld o.ow1 0 16) (fld o.ow1 16 16) (fld o.ow2 0 6) (fld o.ow2 6 6) (fld o.ow2 12 2) (fld o.ow2 26 4).toFin (fld o.ow2 30 2).toFin) else none
  | 0x2 =>
    if o.ow0 == 0 && o.ow1 == 0 && fld o.ow2 0 26 == 0 then some (.prel v (fld o.ow2 26 4).toFin (fld o.ow2 30 2).toFin) else none
  | 0x3 =>
    if fld o.ow2 24 2 == 0 then (decAddr o.ow0).bind fun inp => (decAddr o.ow1).bind fun scale => some (.mvm v inp scale (fld o.ow2 0 6) (fld o.ow2 6 5) (fld o.ow2 11 2) (flag o.ow2 13) (fld o.ow2 14 10) (fld o.ow2 26 4).toFin (fld o.ow2 30 2).toFin) else none
  | _ => none

/-- Decode the S ops (R297). -/
def decStack (v : VMove) (o : OpWord) : Option Instr :=
  match o.op.toNat with
  | 0x1 =>
    if fld o.ow1 20 9 == 0 && o.ow2 == 0 then some (.read v o.ow0 (fld o.ow1 0 8) (fld o.ow1 8 12) (fld o.ow1 29 3).toFin) else none
  | 0x2 =>
    if fld o.ow1 20 9 == 0 then (decAddr o.ow2).bind fun src => some (.write v o.ow0 (fld o.ow1 0 8) (fld o.ow1 8 12) src (fld o.ow1 29 3).toFin) else none
  | 0x3 =>
    if fld o.ow1 24 5 == 0 && o.ow2 == 0 then (decAddr o.ow0).bind fun idx => some (.gather v idx (fld o.ow1 0 8) (fld o.ow1 8 12) (fld o.ow1 20 4) (fld o.ow1 29 3).toFin) else none
  | 0x4 =>
    if fld o.ow1 24 5 == 0 then (decAddr o.ow0).bind fun idx => (decAddr o.ow2).bind fun data => some (.scatter v idx (fld o.ow1 0 8) (fld o.ow1 8 12) (fld o.ow1 20 4) data (fld o.ow1 29 3).toFin) else none
  | 0x5 =>
    if fld o.ow1 28 1 == 0 then (decAddr o.ow0).bind fun idx => some (.embed v idx (fld o.ow1 0 8) (fld o.ow1 8 8) (fld o.ow1 16 12) (fld o.ow2 0 4) (fld o.ow2 4 28) (fld o.ow1 29 3).toFin) else none
  | 0x6 =>
    if fld o.ow1 8 21 == 0 && o.ow2 != 0 then some (.zero v o.ow0 (fld o.ow1 0 8) o.ow2 (fld o.ow1 29 3).toFin) else none
  | 0x7 =>
    some (.copy v o.ow0 (fld o.ow1 0 8) (fld o.ow1 8 8) (fld o.ow1 16 13) o.ow2 (fld o.ow1 29 3).toFin)
  | 0x8 =>
    if fld o.ow1 28 1 == 0 && fld o.ow2 20 12 == 0 then (decAddr o.ow0).bind fun src => some (.pageAppend v src (fld o.ow1 0 12) (fld o.ow1 12 16) (fld o.ow2 0 20) (fld o.ow1 29 3).toFin) else none
  | 0x9 =>
    if fld o.ow0 24 8 == 0 && fld o.ow2 20 12 == 0 then some (.pageRead v (fld o.ow0 0 24) (fld o.ow1 0 8) (fld o.ow1 8 6) (fld o.ow1 14 15) (fld o.ow2 0 20) (fld o.ow1 29 3).toFin) else none
  | _ => none

/-- Decode the X ops (R447). -/
def decFabric (v : VMove) (o : OpWord) : Option Instr :=
  match o.op.toNat with
  | 0x1 =>
    if fld o.ow1 14 1 == 0 && fld o.ow1 27 1 == 0 then (decAddr o.ow0).bind fun src => (decFlow o.ow2).bind fun fb => some (.fsend v src (fld o.ow1 0 14) (fld o.ow1 15 12) fb (fld o.ow1 28 4).toFin) else none
  | 0x2 =>
    if o.ow0 == 0 && fld o.ow1 12 16 == 0 then (decFlow o.ow2).bind fun fb => some (.frecv v (fld o.ow1 0 12) fb (fld o.ow1 28 4).toFin) else none
  | _ => none

/-- Decode the H ops (R353). -/
def decHost (v : VMove) (o : OpWord) : Option Instr :=
  match o.op.toNat with
  | 0x1 =>
    if o.ow0 == 0 && fld o.ow1 18 12 == 0 then some (.hread v (fld o.ow1 0 6) (fld o.ow1 6 12) o.ow2 (fld o.ow1 30 2).toFin) else none
  | 0x2 =>
    if fld o.ow1 18 12 == 0 then (decAddr o.ow0).bind fun src => some (.hwrite v src (fld o.ow1 0 6) (fld o.ow1 6 12) o.ow2 (fld o.ow1 30 2).toFin) else none
  | _ => none

/-- Whether a word is NEST_CLOSE, which is not issued (R87, R89). -/
def OpWord.isClose (o : OpWord) : Bool := o.eng == 0 && o.op == 0x05

/-- Whether a word is NEST_OPEN. -/
def OpWord.isOpen (o : OpWord) : Bool := o.eng == 0 && o.op == 0x04

/-- Decode an op word of virtual movement `v` (R84, R85): none for an undefined opcode, a reserved encoding or a
non-zero reserved field. NEST_CLOSE is no op. -/
def decodeOp (v : VMove) (o : OpWord) : Option Instr :=
  match o.eng.toNat with
  | 0 => decSeq v o
  | 1 => decMatrix v o
  | 2 => decVector v o
  | 3 => decSkiver v o
  | 4 => decBridle v o
  | 5 => decAnalog v o
  | 6 => decStack v o
  | 7 => decFabric v o
  | 8 => decHost v o
  | _ => none

/-- Whether PSLOT is 0 where there is no patch (R84). -/
def OpWord.patchOk (o : OpWord) : Bool := o.pmode != 0 || o.pslot == 0

/-- Encode an op command (R84), with DELTA 0 and no patch; none for a command that is no op. -/
def encodeOp : Instr → Option OpWord
  | .nop _ => some (mkWord 0 0x0 0 0 0)
  | .idle _ count => some (mkWord 0 0x1 count 0 0)
  | .agBase _ g base => some (mkWord 0 0x2 base (0#30 ++ (BitVec.ofFin (w := 2) g) : BitVec 32) 0)
  | .nestOpen _ level count period => some (mkWord 0 0x4 count (0#29 ++ level : BitVec 32) period)
  | .wait _ target queue site => some (mkWord 0 0x6 target (0#28 ++ (BitVec.ofFin (w := 4) queue) : BitVec 32) (0#16 ++ site : BitVec 32))
  | .stepEnd _ => some (mkWord 0 0x8 0 0 0)
  | .tileLoad _ src srows buf bfmt chk => some (mkWord 1 0x1 (encAddr src) (0#9 ++ BitVec.ofBool chk ++ bfmt ++ BitVec.ofBool buf ++ srows : BitVec 32) 0)
  | .tileScales _ src buf => some (mkWord 1 0x2 (encAddr src) (0#15 ++ BitVec.ofBool buf ++ 0#16 : BitVec 32) 0)
  | .ascaleSet _ addr => some (mkWord 1 0x3 (encAddr addr) 0 0)
  | .stream _ a acc rows buf start sub afmt anchor => some (mkWord 1 0x4 (encAddr a) (encAcc acc) (0#3 ++ anchor ++ afmt ++ BitVec.ofBool sub ++ BitVec.ofBool start ++ BitVec.ofBool buf ++ rows : BitVec 32))
  | .drain _ dst acc rows ofmt round sat clear anchor => some (mkWord 1 0x5 (encAddr dst) (encAcc acc) (0#2 ++ anchor ++ BitVec.ofBool clear ++ BitVec.ofBool sat ++ round ++ ofmt ++ rows : BitVec 32))
  | .drainWide _ dst acc rows clear => some (mkWord 1 0x6 (encAddr dst) (encAcc acc) (0#12 ++ BitVec.ofBool clear ++ 0#8 ++ rows : BitVec 32))
  | .accLoad _ src acc rows add => some (mkWord 1 0x7 (encAddr src) (encAcc acc) (0#20 ++ BitVec.ofBool add ++ rows : BitVec 32))
  | .seedSet _ seed => some (mkWord 1 0x8 seed 0 0)
  | .add _ (.straps d a b) => some (mkWord 2 0x1 (encAddr d) (encAddr a) (encAddr b))
  | .add _ (.imm d a i) => some (mkWord 2 0x41 (encAddr d) (encAddr a) i)
  | .add _ (.const d a) => some (mkWord 2 0x81 (encAddr d) (encAddr a) 0)
  | .sub _ (.straps d a b) => some (mkWord 2 0x2 (encAddr d) (encAddr a) (encAddr b))
  | .sub _ (.imm d a i) => some (mkWord 2 0x42 (encAddr d) (encAddr a) i)
  | .sub _ (.const d a) => some (mkWord 2 0x82 (encAddr d) (encAddr a) 0)
  | .mul _ (.straps d a b) => some (mkWord 2 0x3 (encAddr d) (encAddr a) (encAddr b))
  | .mul _ (.imm d a i) => some (mkWord 2 0x43 (encAddr d) (encAddr a) i)
  | .mul _ (.const d a) => some (mkWord 2 0x83 (encAddr d) (encAddr a) 0)
  | .mad _ (.straps d a b) => some (mkWord 2 0x4 (encAddr d) (encAddr a) (encAddr b))
  | .mad _ (.imm d a i) => some (mkWord 2 0x44 (encAddr d) (encAddr a) i)
  | .mad _ (.const d a) => some (mkWord 2 0x84 (encAddr d) (encAddr a) 0)
  | .min _ (.straps d a b) => some (mkWord 2 0x5 (encAddr d) (encAddr a) (encAddr b))
  | .min _ (.imm d a i) => some (mkWord 2 0x45 (encAddr d) (encAddr a) i)
  | .min _ (.const d a) => some (mkWord 2 0x85 (encAddr d) (encAddr a) 0)
  | .max _ (.straps d a b) => some (mkWord 2 0x6 (encAddr d) (encAddr a) (encAddr b))
  | .max _ (.imm d a i) => some (mkWord 2 0x46 (encAddr d) (encAddr a) i)
  | .max _ (.const d a) => some (mkWord 2 0x86 (encAddr d) (encAddr a) 0)
  | .cmpeq _ (.straps d a b) => some (mkWord 2 0x8 (encAddr d) (encAddr a) (encAddr b))
  | .cmpeq _ (.imm d a i) => some (mkWord 2 0x48 (encAddr d) (encAddr a) i)
  | .cmpeq _ (.const d a) => some (mkWord 2 0x88 (encAddr d) (encAddr a) 0)
  | .cmpne _ (.straps d a b) => some (mkWord 2 0x9 (encAddr d) (encAddr a) (encAddr b))
  | .cmpne _ (.imm d a i) => some (mkWord 2 0x49 (encAddr d) (encAddr a) i)
  | .cmpne _ (.const d a) => some (mkWord 2 0x89 (encAddr d) (encAddr a) 0)
  | .cmplt _ (.straps d a b) => some (mkWord 2 0xa (encAddr d) (encAddr a) (encAddr b))
  | .cmplt _ (.imm d a i) => some (mkWord 2 0x4a (encAddr d) (encAddr a) i)
  | .cmplt _ (.const d a) => some (mkWord 2 0x8a (encAddr d) (encAddr a) 0)
  | .cmple _ (.straps d a b) => some (mkWord 2 0xb (encAddr d) (encAddr a) (encAddr b))
  | .cmple _ (.imm d a i) => some (mkWord 2 0x4b (encAddr d) (encAddr a) i)
  | .cmple _ (.const d a) => some (mkWord 2 0x8b (encAddr d) (encAddr a) 0)
  | .sel _ (.straps d a b) => some (mkWord 2 0xc (encAddr d) (encAddr a) (encAddr b))
  | .sel _ (.imm d a i) => some (mkWord 2 0x4c (encAddr d) (encAddr a) i)
  | .sel _ (.const d a) => some (mkWord 2 0x8c (encAddr d) (encAddr a) 0)
  | .and _ (.straps d a b) => some (mkWord 2 0xd (encAddr d) (encAddr a) (encAddr b))
  | .and _ (.imm d a i) => some (mkWord 2 0x4d (encAddr d) (encAddr a) i)
  | .and _ (.const d a) => some (mkWord 2 0x8d (encAddr d) (encAddr a) 0)
  | .or _ (.straps d a b) => some (mkWord 2 0xe (encAddr d) (encAddr a) (encAddr b))
  | .or _ (.imm d a i) => some (mkWord 2 0x4e (encAddr d) (encAddr a) i)
  | .or _ (.const d a) => some (mkWord 2 0x8e (encAddr d) (encAddr a) 0)
  | .xor _ (.straps d a b) => some (mkWord 2 0xf (encAddr d) (encAddr a) (encAddr b))
  | .xor _ (.imm d a i) => some (mkWord 2 0x4f (encAddr d) (encAddr a) i)
  | .xor _ (.const d a) => some (mkWord 2 0x8f (encAddr d) (encAddr a) 0)
  | .shl _ (.straps d a b) => some (mkWord 2 0x10 (encAddr d) (encAddr a) (encAddr b))
  | .shl _ (.imm d a i) => some (mkWord 2 0x50 (encAddr d) (encAddr a) i)
  | .shl _ (.const d a) => some (mkWord 2 0x90 (encAddr d) (encAddr a) 0)
  | .shr _ (.straps d a b) => some (mkWord 2 0x11 (encAddr d) (encAddr a) (encAddr b))
  | .shr _ (.imm d a i) => some (mkWord 2 0x51 (encAddr d) (encAddr a) i)
  | .shr _ (.const d a) => some (mkWord 2 0x91 (encAddr d) (encAddr a) 0)
  | .affine _ (.straps d a b) => some (mkWord 2 0x7 (encAddr d) (encAddr a) (encAddr b))
  | .affine _ (.imm d a i) => some (mkWord 2 0x47 (encAddr d) (encAddr a) i)
  | .exps _ (.straps d a b) => some (mkWord 2 0x12 (encAddr d) (encAddr a) (encAddr b))
  | .exps _ (.imm d a i) => some (mkWord 2 0x52 (encAddr d) (encAddr a) i)
  | .iota _ d i => some (mkWord 2 0x53 (encAddr d) 0 i)
  | .vectorCopy _ d a => some (mkWord 2 0x20 (encAddr d) (encAddr a) 0)
  | .abs _ d a => some (mkWord 2 0x21 (encAddr d) (encAddr a) 0)
  | .neg _ d a => some (mkWord 2 0x22 (encAddr d) (encAddr a) 0)
  | .exp2 _ d a => some (mkWord 2 0x23 (encAddr d) (encAddr a) 0)
  | .log2 _ d a => some (mkWord 2 0x24 (encAddr d) (encAddr a) 0)
  | .rcp _ d a => some (mkWord 2 0x25 (encAddr d) (encAddr a) 0)
  | .sqrt _ d a => some (mkWord 2 0x26 (encAddr d) (encAddr a) 0)
  | .rsqrt _ d a => some (mkWord 2 0x27 (encAddr d) (encAddr a) 0)
  | .tanh _ d a => some (mkWord 2 0x28 (encAddr d) (encAddr a) 0)
  | .sigmoid _ d a => some (mkWord 2 0x29 (encAddr d) (encAddr a) 0)
  | .gelu _ d a => some (mkWord 2 0x2a (encAddr d) (encAddr a) 0)
  | .silu _ d a => some (mkWord 2 0x2b (encAddr d) (encAddr a) 0)
  | .vtap _ tapk tally tstart anchor ibase => some (mkWord 2 0xc2 (0#14 ++ anchor ++ BitVec.ofBool tstart ++ (BitVec.ofFin (w := 4) tally) ++ tapk : BitVec 32) ibase 0)
  | .tload _ tally fn anchor mult => some (mkWord 2 0xc3 (0#17 ++ anchor ++ BitVec.ofBool fn ++ (BitVec.ofFin (w := 4) tally) : BitVec 32) 0 mult)
  | .rsum _ a ⟨tally, start, anchor⟩ => some (mkWord 2 0xc8 (encAddr a) 0 (0#17 ++ anchor ++ BitVec.ofBool start ++ (BitVec.ofFin (w := 4) tally) : BitVec 32))
  | .rsumsq _ a ⟨tally, start, anchor⟩ => some (mkWord 2 0xc9 (encAddr a) 0 (0#17 ++ anchor ++ BitVec.ofBool start ++ (BitVec.ofFin (w := 4) tally) : BitVec 32))
  | .rdot _ a b ⟨tally, start, anchor⟩ => some (mkWord 2 0xca (encAddr a) (encAddr b) (0#17 ++ anchor ++ BitVec.ofBool start ++ (BitVec.ofFin (w := 4) tally) : BitVec 32))
  | .rmax _ a ⟨tally, start⟩ => some (mkWord 2 0xcb (encAddr a) 0 (0#27 ++ BitVec.ofBool start ++ (BitVec.ofFin (w := 4) tally) : BitVec 32))
  | .rmin _ a ⟨tally, start⟩ => some (mkWord 2 0xcc (encAddr a) 0 (0#27 ++ BitVec.ofBool start ++ (BitVec.ofFin (w := 4) tally) : BitVec 32))
  | .rargmax _ a ibase ⟨tally, start⟩ => some (mkWord 2 0xcd (encAddr a) ibase (0#27 ++ BitVec.ofBool start ++ (BitVec.ofFin (w := 4) tally) : BitVec 32))
  | .raddw _ src mask => some (mkWord 2 0xce (encAddr src) (0#16 ++ mask : BitVec 32) 0)
  | .rstore _ dst mask rounded ofmt round sat anchor => some (mkWord 2 0xcf (encAddr dst) (0#15 ++ BitVec.ofBool rounded ++ mask : BitVec 32) (0#14 ++ anchor ++ BitVec.ofBool sat ++ round ++ ofmt : BitVec 32))
  | .transpose _ dst src srows drows esize => some (mkWord 3 0x1 (encAddr dst) (encAddr src) (esize ++ drows ++ srows : BitVec 32))
  | .retile _ dst src rowsM1 srows drows => some (mkWord 3 0x2 (encAddr dst) (encAddr src) (drows ++ srows ++ rowsM1 : BitVec 32))
  | .convert _ dst src gM1 ifmt ofmt round sat => some (mkWord 3 0x3 (encAddr dst) (encAddr src) (0#7 ++ BitVec.ofBool sat ++ round ++ ofmt ++ ifmt ++ gM1 : BitVec 32))
  | .kset _ sscale dscale seed => some (mkWord 3 0x4 (encAddr sscale) (encAddr dscale) seed)
  | .bset _ vocabM1 lfmt => some (mkWord 4 0x1 (0#9 ++ lfmt ++ vocabM1 : BitVec 32) 0 0)
  | .select _ logits slot result => some (mkWord 4 0x2 (encAddr logits) (0#24 ++ slot : BitVec 32) (encAddr result))
  | .pset _ first rstr cstr nrM1 ncM1 grain set queue => some (mkWord 5 0x1 (0#15 ++ first : BitVec 32) (cstr ++ rstr : BitVec 32) ((BitVec.ofFin (w := 2) queue) ++ (BitVec.ofFin (w := 4) set) ++ 0#12 ++ grain ++ ncM1 ++ nrM1 : BitVec 32))
  | .prel _ set queue => some (mkWord 5 0x2 0 0 ((BitVec.ofFin (w := 2) queue) ++ (BitVec.ofFin (w := 4) set) ++ 0#26 : BitVec 32))
  | .mvm _ inp scale nvM1 ofmt round sat anchor set queue => some (mkWord 5 0x3 (encAddr inp) (encAddr scale) ((BitVec.ofFin (w := 2) queue) ++ (BitVec.ofFin (w := 4) set) ++ 0#2 ++ anchor ++ BitVec.ofBool sat ++ round ++ ofmt ++ nvM1 : BitVec 32))
  | .read _ offset region rowsM1 queue => some (mkWord 6 0x1 offset ((BitVec.ofFin (w := 3) queue) ++ 0#9 ++ rowsM1 ++ region : BitVec 32) 0)
  | .write _ offset region rowsM1 src queue => some (mkWord 6 0x2 offset ((BitVec.ofFin (w := 3) queue) ++ 0#9 ++ rowsM1 ++ region : BitVec 32) (encAddr src))
  | .gather _ idx region countM1 lM1 queue => some (mkWord 6 0x3 (encAddr idx) ((BitVec.ofFin (w := 3) queue) ++ 0#5 ++ lM1 ++ countM1 ++ region : BitVec 32) 0)
  | .scatter _ idx region countM1 lM1 data queue => some (mkWord 6 0x4 (encAddr idx) ((BitVec.ofFin (w := 3) queue) ++ 0#5 ++ lM1 ++ countM1 ++ region : BitVec 32) (encAddr data))
  | .embed _ idx regionA regionB countM1 lM1 split queue => some (mkWord 6 0x5 (encAddr idx) ((BitVec.ofFin (w := 3) queue) ++ 0#1 ++ countM1 ++ regionB ++ regionA : BitVec 32) (split ++ lM1 : BitVec 32))
  | .zero _ offset region units queue => some (mkWord 6 0x6 offset ((BitVec.ofFin (w := 3) queue) ++ 0#21 ++ region : BitVec 32) units)
  | .copy _ srcOff srcRegion dstRegion blocksM1 dstOff queue => some (mkWord 6 0x7 srcOff ((BitVec.ofFin (w := 3) queue) ++ blocksM1 ++ dstRegion ++ srcRegion : BitVec 32) dstOff)
  | .pageAppend _ src rowsM1 srow handle queue => some (mkWord 6 0x8 (encAddr src) ((BitVec.ofFin (w := 3) queue) ++ 0#1 ++ srow ++ rowsM1 : BitVec 32) (0#12 ++ handle : BitVec 32))
  | .pageRead _ first nposM1 rowsM1 srow handle queue => some (mkWord 6 0x9 (0#8 ++ first : BitVec 32) ((BitVec.ofFin (w := 3) queue) ++ srow ++ rowsM1 ++ nposM1 : BitVec 32) (0#12 ++ handle : BitVec 32))
  | .fsend _ src flow rowsM1 fb queue => some (mkWord 7 0x1 (encAddr src) ((BitVec.ofFin (w := 4) queue) ++ 0#1 ++ rowsM1 ++ 0#1 ++ flow : BitVec 32) (encFlow fb))
  | .frecv _ rowsM1 fb queue => some (mkWord 7 0x2 0 ((BitVec.ofFin (w := 4) queue) ++ 0#16 ++ rowsM1 : BitVec 32) (encFlow fb))
  | .hread _ buf rowsM1 offset queue => some (mkWord 8 0x1 0 ((BitVec.ofFin (w := 2) queue) ++ 0#12 ++ rowsM1 ++ buf : BitVec 32) offset)
  | .hwrite _ src buf rowsM1 offset queue => some (mkWord 8 0x2 (encAddr src) ((BitVec.ofFin (w := 2) queue) ++ 0#12 ++ rowsM1 ++ buf : BitVec 32) offset)
  | .agStride _ g level stride => some (mkWord 0 0x3 stride (0#21 ++ BitVec.ofNat 3 level ++ 0#6 ++ BitVec.ofFin (w := 2) g : BitVec 32) 0)
  | .take _ dst queue rowsM1 none => some (mkWord 0 0x7 (encAddr dst) (0#4 ++ rowsM1 ++ 0#12 ++ BitVec.ofFin (w := 4) queue : BitVec 32) 0)
  | .take _ dst queue rowsM1 (some d2) => some (mkWord 0 0x7 (encAddr dst) (0#3 ++ 1#1 ++ rowsM1 ++ 0#12 ++ BitVec.ofFin (w := 4) queue : BitVec 32) (encAddr d2))
  | .vset _ afmt bfmt ofmt round sat seed none => some (mkWord 2 0xC1 (0#14 ++ BitVec.ofBool sat ++ round ++ ofmt ++ bfmt ++ afmt : BitVec 32) seed 0)
  | .vset _ afmt bfmt ofmt round sat seed (some t) => some (mkWord 2 0xC1 (0#13 ++ 1#1 ++ BitVec.ofBool sat ++ round ++ ofmt ++ bfmt ++ afmt : BitVec 32) seed t)
  | _ => none

end Sys2Proof.Machine
end

