-- ==== Sys2Proof/Machine/Matrix.lean ====
section
/-!
DEFINITION. The matrix arrays (06_matrix_arrays.md): the ops TILE_LOAD, TILE_SCALES, ASCALE_SET, STREAM, DRAIN,
DRAIN_WIDE, ACC_LOAD, SEED_SET, and the accumulator store's background scrub.
-/

namespace Sys2Proof.Machine

/-! ### The accumulator store (R186, R189) -/

/-- What an unlisted accumulator reads as (R110, R180). -/
def Matrix.fillAcc (m : Matrix) (k : Nat) : W128 := match m.fill with | none => 0 | some n => Config.freeAcc n k

/-- A stored accumulator, by 256 × row + column. -/
def Matrix.base (m : Matrix) (k : Nat) : W128 := tget (m.fillAcc k) m.acc k

/-- Write a stored accumulator. -/
def Matrix.putAcc (m : Matrix) (k : Nat) (w : W128) : Matrix := { m with acc := tset (m.fillAcc k) m.acc k w }

/-- A row of 256 accumulators. -/
def Matrix.row (m : Matrix) (row : Nat) : List W128 := (List.range 256).map (fun c => m.base (256 * row + c))

/-- Order of effects on one accumulator: by beat, then ACC_LOAD, STREAM (R189). -/
def effLater (a b : AccEff) : Bool := decide (a.beat < b.beat) || (a.beat == b.beat && decide (a.kind < b.kind))

/-- Insert an effect in the order of R189, after its equals. -/
def putEff (e : AccEff) : List AccEff → List AccEff
  | [] => [e]
  | x :: xs => if effLater e x then e :: x :: xs else x :: putEff e xs

/-- Add effects to an array. -/
def addEffs (m : Matrix) (es : List AccEff) : Matrix := { m with effs := es.foldl (fun l e => putEff e l) m.effs }

/-- Whether a W128 code is a positive, or a negative, marker (R156). -/
def posMarker (w : W128) : Bool := w == wPosInf || w == wPosSat
def negMarker (w : W128) : Bool := w == wNegInf || w == wNegSat

/-- Whether terms whose starts with INVALID are `inv` set it from an accumulator (R158): a NaN sets none. -/
def invalidFrom (inv : Nat) (w : W128) : Bool :=
  if w = wNaN then false else if posMarker w then bitNat inv 1 else if negMarker w then bitNat inv 2 else bitNat inv 0

/-- The 64-bit words of columns `c` to `c + n − 1` of an accumulator row (R192). -/
def accWords (row c n : Nat) : List Nat := (List.range (2 * n)).map (fun i => 512 * row + 2 * c + i)

/-- Write columns of an accumulator row: its words are sound from then on (R192). -/
def Matrix.putRow (m : Matrix) (row c : Nat) (vals : List W128) : Matrix :=
  let ws := accWords row c vals.length
  { (indexed vals).foldl (fun m e => m.putAcc (256 * row + c + e.1) e.2) m with
    bad := m.bad.filter (fun w => !ws.contains w), weak := m.weak.filter (fun e => !ws.contains e.1) }

/-! ### Storage protection (R192, R193) -/

/-- Location of a failing word of the accumulator store: 128 macros of 32 KiB, eight rows each; a corrected error at its bit,
an uncorrectable one at its macro, the least that holds every bit it may lie in (R22, R193; DEDUCED, log 128). -/
def accLoc (n w : Nat) : Option Nat → W64
  | some bit => loc 1 0 0 0 n 0x012 (w / 4096) (w % 4096 * 512 + bit)
  | none => loc 2 0 0 0 n 0x012 (w / 4096) 0

/-- Location of a failing word of a tile buffer, 1,024 words to a macro, or of its scale registers (R193; log 128). -/
def tileLoc (n : Nat) (buf : Bool) (w : Nat) (bit : Option Nat) : W64 :=
  let i := natOfBool buf
  let m := if w < 8192 then 1 + 8 * i + w / 1024 else 0x11
  let r := if w < 8192 then w % 1024 else 512 * i + (w - 8192)
  match bit with
  | some b => loc 1 0 0 0 n 0x010 m (r * 512 + b)
  | none => loc 2 0 0 0 n 0x010 m 0

/-- The events of words read: ARRAY_ECC_CORRECTED for each corrected one; the first uncorrectable one raises
ARRAY_ECC_FATAL and ends the step (R192). -/
def eccEvents (s : State) (loc : Nat → Option Nat → W64) (weak : Tbl Nat) (bad : List Nat) : State :=
  let s := weak.foldl (fun s e => raise s 0x0107 (loc e.1 (some e.2))) s
  match bad with
  | w :: _ => deviceFault (raise s 0x0108 (loc w none)) 0x0108 (loc w none)
  | [] => s

/-- The ECC outcome of reading words of the accumulator store (R192). -/
def eccAcc (s : State) (n : Nat) (ws : List Nat) : State :=
  let m := s.matOf n
  let hit := m.weak.filter (fun e => ws.contains e.1)
  let s := s.setMat n { m with weak := m.weak.filter (fun e => !ws.contains e.1) }
  eccEvents s (accLoc n) hit (m.bad.filter ws.contains)

/-- Effect of one accumulation or load when its beat comes (R158, R178, R189, R191, R192). -/
def applyEff (n : Nat) (s : State) (e : AccEff) : State :=
  let reads := e.kind == 1 || e.kind == 2
  let s := if reads then eccAcc s n (accWords e.row e.col e.vals.length) else s
  let m := s.matOf n
  let old := fun (i : Nat) => if reads then m.base (256 * e.row + e.col + i) else 0
  let vals := (indexed e.vals).map fun x => if reads then (combine (old x.1) x.2).1 else x.2
  let bad := (indexed e.inv).any fun x => invalidFrom x.2 (old x.1)
  raiseFlags (s.setMat n (m.putRow e.row e.col vals)) (flagIf bad flInvalid) e.pos

/-- The effects of every array that lie at beat `t` or below (R189). -/
def applyEffs (s : State) (t : Nat) : State :=
  s.matrix.foldl (fun s e =>
    let now := e.2.effs.filter (fun x => decide (x.beat ≤ t))
    if now.isEmpty then s
    else
      let s := s.setMat e.1 { s.matOf e.1 with effs := e.2.effs.filter (fun x => !decide (x.beat ≤ t)) }
      now.foldl (applyEff e.1) s) s

/-! ### Operand classes (R176, R177, R190) -/

/-- Class of a format as A or B: 8, 4 or 16 bits, 0 for a format that is not accepted (R177). -/
def mClass (f : Nat) : Nat :=
  if f ∈ [0x3, 0x4, 0xC, 0xD, 0x5, 0x6, 0xA] then 8
  else if f ∈ [0x9, 0xE, 0xF] then 4
  else if f ∈ [0x1, 0x2] then 16 else 0

/-- Dot-product length of a class (R176). -/
def mK (cls : Nat) : Nat := if cls = 8 then 256 else if cls = 4 then 512 else 128

/-- Formats that checksum mode accepts (R190, R195). -/
def chkOk (f : Nat) : Bool := f == 0x3 || f == 0x4 || f == 0xC || f == 0xD

/-- Formats DRAIN accepts (R183). -/
def drainOk (f : Nat) : Bool := [0x0, 0x1, 0x2, 0x3, 0x4, 0xB, 0xC, 0xD, 0xE].contains f

/-- Code of element B[k][n] of a tile (R176). -/
def tileCode (t : TileBuf) (cls k n : Nat) : Nat :=
  let byte := fun a => (memByte none t.tile a).toNat
  if cls = 8 then byte (256 * k + n)
  else if cls = 4 then
    fieldNat (byte (256 * (k / 2) + 128 * (k % 2) + n / 2)) (4 * (n % 2) + 3) (4 * (n % 2))
  else
    let a := 256 * (k + 128 * (n / 128)) + 2 * (n % 128)
    byte a + 256 * byte (a + 1)

/-- B[k][n] exactly, with its scale in an MX format (R165, R187), and the flags of reading it. -/
def tileVal (t : TileBuf) (fmt cls k n : Nat) : Val × Nat :=
  let (v, fl) := decodeElem fmt (tileCode t cls k n)
  (if isMX fmt then scaleBy (memByte none t.scales (256 * (k / 32) + n)).toNat v else v, fl)

/-- A[i][k] exactly: the row and, in an MX format, the row's scale bytes (R187). -/
def aVal (fmt cls : Nat) (row scales : Bytes) (k : Nat) : Val × Nat :=
  let (v, fl) := decodeElem fmt (elemCode cls row k)
  (if isMX fmt then scaleBy (fieldAt scales (k / 32) 1) v else v, fl)

/-- The columns a STREAM covers (R176, R178). -/
def mCols (cls : Nat) (sub : Bool) : List Nat :=
  if cls = 16 then (List.range 128).map (· + 128 * natOfBool sub) else List.range 256

/-- The exact sum of a list of values (R196). -/
def sumVal (vs : List Val) : Val := vs.foldl (fun a v => (addVal a v).1) (.fin false 0 0)

/-- Column 255 of a CHK buffer at row `k`: the exact sum of the row's columns 0 to 254 as they arrived (R195). -/
def chkSum (t : TileBuf) (fmt k : Nat) : Val :=
  sumVal ((List.range 255).map (fun c => (tileVal { t with tile := t.arrived } fmt 8 k c).1))

/-- Element (k, n) as checksum mode uses it (R195). -/
def chkVal (t : TileBuf) (fmt k n : Nat) : Val × Nat := if n = 255 then (chkSum t fmt k, 0) else tileVal t fmt 8 k n

/-- One column of a STREAM row (R178): its partial sum from 0, its flags but INVALID of the accumulation, and the starts
from which its terms set INVALID there: an ordinary value, a positive marker, a negative one (R158). -/
def streamCol (as bs : List (Val × Nat)) (anchor : Int) : W128 × Nat × Nat :=
  let ts := (as.zip bs).map fun p =>
    let prod := mulVal p.1.1 p.2.1
    let t := w128Term prod.1 anchor
    (t.1, p.1.2 ||| p.2.2 ||| prod.2 ||| t.2)
  let from_ := fun (w : W128) => ts.foldl (fun (x : W128 × Nat) t =>
    let c := combine x.1 t.1
    (c.1, x.2 ||| c.2)) (w, 0)
  let inv := fun (w : W128) (i : Nat) => if (from_ w).2 = 0 then 0 else 2 ^ i
  ((from_ 0).1, ts.foldl (fun f t => f ||| t.2) 0, inv 0 0 + inv wPosInf 1 + inv wNegInf 2)

/-- Whether two exact sums agree, a NaN agreeing with a NaN (R196). -/
def sameSum (x y : Val) : Bool := (isNaN x && isNaN y) || eqVal x y

/-- The column check of a checksum-mode row (R196): the exact products of column 255 against those of columns 0 to
254. -/
def columnCheck (as : List (Val × Nat)) (t : TileBuf) (bfmt : Nat) : Bool :=
  let dot := fun n => sumVal (((indexed as).map (fun p => (mulVal p.2.1 (chkVal t bfmt p.1 n).1).1)))
  sameSum (dot 255) (sumVal ((List.range 255).map dot))

/-- The row check at the end of a CHK load (R196): the column sums of the weights the elements hold against those of the
rows as they arrived. -/
def rowCheck (t : TileBuf) (bfmt : Nat) : Bool :=
  let col := fun (m : Mem) n => sumVal ((List.range 255).map (fun k => (tileVal { t with tile := m } bfmt 8 k n).1))
  (List.range 255).all fun n => sameSum (col t.tile n) (col t.arrived n)

/-- One accumulator row of a STREAM: the values it adds, the starts with INVALID, its other flags, and whether the column
check passed (R178, R191, R195, R196). -/
def streamRow (t : TileBuf) (afmt bfmt : Nat) (chk sub : Bool) (anchor : Int) (row scales : Bytes) :
    List W128 × List Nat × Nat × Bool :=
  let cls := mClass afmt
  let kk := if chk then 255 else mK cls
  let as := (List.range kk).map (aVal afmt cls row scales)
  let res := (mCols cls sub).map fun n =>
    streamCol as ((List.range kk).map (fun k => if chk then chkVal t bfmt k n else tileVal t bfmt cls k n)) anchor
  (res.map (·.1), res.map (·.2.2), res.foldl (fun f r => f ||| r.2.1) 0, !chk || columnCheck as t bfmt)

/-- Tile buffer `b` of an array. -/
def Matrix.buf (m : Matrix) (b : Bool) : TileBuf := if b then m.buf1 else m.buf0
def Matrix.setBuf (m : Matrix) (b : Bool) (t : TileBuf) : Matrix :=
  if b then { m with buf1 := t } else { m with buf0 := t }

/-! ### Accesses of the ops (R186) -/

def reads (rows : List (Nat × Nat)) : List Access := rows.map (fun r => { addr := r.1, beat := r.2, write := false })
def writes (rows : List (Nat × Nat)) : List Access := rows.map (fun r => { addr := r.1, beat := r.2, write := true })
def accRows (acc n b step : Nat) (wr : Bool) : List Access :=
  (List.range n).map (fun i => { cls := 1, addr := acc + i, beat := b + step * i, write := wr })

/-- Rows of TILE_LOAD: source + 256 × SROWS × t at b + t. -/
def tileLoadRows (a : Nat) (st : Int) (b : Nat) : List (Nat × Nat) :=
  (List.range 256).map (fun (t : Nat) => (rowAt a (st * t), b + t))

/-- Rows of TILE_SCALES. -/
def tileScaleRows (a b : Nat) : List (Nat × Nat) := (List.range 16).map (fun (j : Nat) => (rowAt a j, b + j))

/-- Rows per A-scale row of a class (R186, R187). -/
def scaleEvery (cls : Nat) : Nat := if cls = 4 then 16 else 32

/-- A rows of a STREAM, and its A-scale rows in MX formats (R186). -/
def streamReads (a ascale rows afmt b : Nat) : List (Nat × Nat) :=
  let ev := scaleEvery (mClass afmt)
  (List.range rows).flatMap fun (i : Nat) =>
    (rowAt a i, b + i) :: (if isMX afmt && i % ev == 0 then [(rowAt ascale (i / ev : Nat), b + i)] else [])

/-- Destination rows of a DRAIN: `w` rows for each accumulator row, or half a row for INT4 (R186). -/
def drainWrites (d rows ofmt b : Nat) : List (Nat × Nat) :=
  if ofmt = 0xE then (List.range rows).map (fun k => (rowAt d (k / 2 : Nat), b + k))
  else
    let w := fmtBits ofmt / 8
    (List.range rows).flatMap fun k => (List.range w).map fun q => (rowAt d (w * k + q : Nat), b + k)

/-- Rows of DRAIN_WIDE and ACC_LOAD: four rows at each of four beats for each accumulator row (R186). -/
def wideRows (a rows b : Nat) : List (Nat × Nat) :=
  (List.range rows).flatMap fun i => (List.range 4).flatMap fun q => (List.range 4).map fun p =>
    (rowAt a (16 * i + 4 * q + p : Nat), b + 4 * i + q)

/-! ### The parts of the ops, each at its beat -/

/-- Bytes of the rows at addresses and beats. -/
def readAll (s : State) (rows : List (Nat × Nat)) : List Bytes := rows.map (fun r => s.readRow r.1 r.2)

/-- A CHECKSUM event (R197): its kind, its plan beat and, for the column check, the accumulator row. -/
def checksumFault (s : State) (n kind : Nat) (row : Option Nat) (pos : PlanPos) : State :=
  setSflag (raise s 0x0109 (cdLoc n 0x010) (packDetail ((1, kind) :: (row.map ((2, ·))).toList)) (some pos)) 1

/-- The ECC outcome of reading words of a tile buffer and its scale registers (R192). -/
def eccTile (s : State) (n : Nat) (buf : Bool) (reads : Nat → Bool) : State :=
  let m := s.matOf n
  let t := m.buf buf
  let s := s.setMat n (m.setBuf buf { t with weak := t.weak.filter (fun e => !reads e.1) })
  eccEvents s (tileLoc n buf) (t.weak.filter (fun e => reads e.1)) (t.bad.filter reads)

/-- The end of a TILE_LOAD (R175, R186, R188, R192, R195 to R197): the buffer holds the 256 rows, each as read at its beat,
with the weights the elements took up wrong; a CHK load is checked, at the plan beat of the load (DEDUCED, log 129). -/
def tileLoadEnd (v src : Nat) (st : Int) (buf chk : Bool) (pos : PlanPos) (s : State) : State :=
  let n := s.phys v
  let m := s.matOf n
  let t := m.buf buf
  let rows := memPutAll none [] 0 (readAll s (tileLoadRows src st pos.beat)).flatten
  let t := { t with tile := t.faults.foldl (fun x e => memPut none x e.1 (BitVec.ofNat 8 e.2)) rows
                    arrived := if chk then rows else [], faults := []
                    bad := t.bad.filter (fun w => decide (8192 ≤ w)), weak := t.weak.filter (fun e => decide (8192 ≤ e.1)) }
  let s := s.setMat n (m.setBuf buf t)
  if chk && !rowCheck t (t.fmt.getD 3) then checksumFault s n 1 none pos else s

/-- The end of a TILE_SCALES (R187). -/
def tileScalesEnd (v src : Nat) (buf : Bool) (pos : PlanPos) (s : State) : State :=
  let n := s.phys v
  let bytes := (readAll s (tileScaleRows src pos.beat)).flatten
  let m := s.matOf n
  let t := m.buf buf
  s.setMat n (m.setBuf buf { t with scales := memPutAll none [] 0 bytes, bad := t.bad.filter (fun w => decide (w < 8192))
                                    weak := t.weak.filter (fun e => decide (e.1 < 8192)) })

/-- The words of a buffer that a STREAM row reads: the whole tile, or the half of a 16-bit class, and the scale rows of an MX
format (R176, R187). -/
def streamWords (afmt bfmt : Nat) (sub : Bool) (w : Nat) : Bool :=
  if w < 8192 then decide (mClass afmt ≠ 16 ∨ w / 4096 = natOfBool sub)
  else isMX bfmt && decide (w - 8192 < (if mClass afmt = 4 then 512 else 256))

/-- Row `i` of a STREAM (R178, R186, R188, R192, R196, R197): its sums against the tile its buffer holds, for the beat they
accumulate at. -/
def streamStep (v a acc : Nat) (buf start sub : Bool) (afmt bfmt : Nat) (chk : Bool) (anchor : Int) (ascale : Nat)
    (pos : PlanPos) (s : State) (i : Nat) : State :=
  let n := s.phys v
  let s := eccTile s n buf (streamWords afmt bfmt sub)
  let m := s.matOf n
  let cls := mClass afmt
  let ev := scaleEvery cls
  let row := s.readRow (rowAt a i) (pos.beat + i)
  let srow := if isMX afmt then s.readRow (rowAt ascale (i / ev : Nat)) (pos.beat + ev * (i / ev)) else []
  let scales := slice srow ((256 / ev) * (i % ev)) (256 / ev)
  let r := streamRow (m.buf buf) afmt bfmt chk sub anchor row scales
  let e : AccEff := { beat := pos.beat + i + 280, kind := if start then 3 else 2, row := acc + i
                      col := if cls = 16 && sub then 128 else 0, vals := r.1, inv := r.2.1, pos := pos }
  let s := raiseFlags (s.setMat n (addEffs m [e])) r.2.2.1 pos
  if r.2.2.2 then s else checksumFault s n 0 (some (acc + i)) { pos with beat := pos.beat + i }

/-- The destination bytes of accumulator row `k` of a DRAIN (R146, R160, R184). -/
def drainRow (ws : List W128) (k ofmt mode : Nat) (sat : Bool) (anchor : Int) (seed : Nat) (pos : PlanPos) : Bytes × Nat :=
  let res := (indexed ws).map fun e =>
    wOut e.2 anchor ofmt mode sat (drawOf mode seed pos.vmove pos.beat (256 * k + e.1))
  (packCodes (fmtBits ofmt) (res.map (·.1)), res.foldl (fun f r => f ||| r.2) 0)

/-- The clear of an accumulator row, after its read (R189). -/
def clearRow (clear : Bool) (row : Nat) (s : State) (n : Nat) : State :=
  if clear then s.setMat n ((s.matOf n).putRow row 0 (List.replicate 256 0)) else s

/-- Cut bytes into rows of 256. -/
def cutRows : Nat → Bytes → List Bytes
  | 0, _ => []
  | n + 1, b => b.take 256 :: cutRows n (b.drop 256)

/-- Accumulator row `k` of a DRAIN (R186, R189, R192): its destination rows, flags and clear. -/
def drainStep (v d acc ofmt mode : Nat) (sat clear : Bool) (anchor : Int) (seed : Nat) (pos : PlanPos) (s : State)
    (k : Nat) : State :=
  let n := s.phys v
  let s := eccAcc s n (accWords (acc + k) 0 256)
  let (bytes, fl) := drainRow ((s.matOf n).row (acc + k)) k ofmt mode sat anchor seed pos
  let s := raiseFlags s fl pos
  let s :=
    if ofmt = 0xE then
      s.writeBytes (rowAt d (k / 2 : Nat)) (pos.beat + k) ((indexed bytes).map (fun e => (128 * (k % 2) + e.1, e.2)))
    else
      let w := fmtBits ofmt / 8
      s.writeRows ((indexed (cutRows w bytes)).map fun e => (rowAt d (w * k + e.1 : Nat), pos.beat + k, e.2))
  clearRow clear (acc + k) s n

/-- Accumulator row `k` of a DRAIN_WIDE: its 4 KiB, unchanged (R183, R186, R189, R192). -/
def drainWideStep (v d acc : Nat) (clear : Bool) (pos : PlanPos) (s : State) (k : Nat) : State :=
  let n := s.phys v
  let s := eccAcc s n (accWords (acc + k) 0 256)
  let bytes := ((s.matOf n).row (acc + k)).flatMap (fun w => leBytes 16 w.toNat)
  let s := s.writeRows ((indexed (cutRows 16 bytes)).map fun e =>
    (rowAt d (16 * k + e.1 : Nat), pos.beat + 4 * k + e.1 / 4, e.2))
  clearRow clear (acc + k) s n

/-- The row of W128 codes that the four quarters of accumulator row `i` of an ACC_LOAD hold (R186). -/
def accLoadVals (s : State) (a b i : Nat) : List W128 :=
  let bytes := ((List.range 16).map (fun p => s.readRow (rowAt a (16 * i + p : Nat)) (b + 4 * i + p / 4))).flatten
  (List.range 256).map (fun c => BitVec.ofNat 128 (fieldAt bytes (16 * c) 16))

/-- The starts from which loading a value with ADD 1 sets INVALID (R158, R191). -/
def loadStarts (w : W128) : Nat := (if negMarker w then 2 else 0) + (if posMarker w then 4 else 0)

/-- Accumulator row `i` of an ACC_LOAD (R186, R189, R191). -/
def accLoadStep (v a acc : Nat) (add : Bool) (pos : PlanPos) (s : State) (i : Nat) : State :=
  let n := s.phys v
  let vals := accLoadVals s a pos.beat i
  s.setMat n (addEffs (s.matOf n)
    [{ beat := pos.beat + 4 * i + 27, kind := if add then 1 else 0, row := acc + i, col := 0, vals := vals
       inv := if add then vals.map loadStarts else [], pos := pos }])

/-! ### The commands -/

/-- ROWS of a matrix op is 1 to 1,024 (R181). -/
def rowsOk (r : BitVec 11) : Bool := decide (1 ≤ r.toNat ∧ r.toNat ≤ 1024)

/-- TILE_LOAD's issue (R188, R190): the buffer's format and checksum mode are the load's from here on. -/
def tileLoadEff (v a : Nat) (st : Int) (buf : Bool) (bfmt : Nat) (chk : Bool) (pos : PlanPos) (s : State) : State :=
  let n := s.phys v
  let m := s.matOf n
  addFlight (s.setMat n (m.setBuf buf { m.buf buf with fmt := some bfmt, chk := chk })) pos (.tileLoad a st buf chk)

/-- TILE_LOAD (R181, R186, R195). -/
def execTileLoad (v : VMove) (src : AddrOp) (sr : W16) (buf : Bool) (bfmt : BitVec 5) (chk : Bool) (s : State) : Res :=
  let a := (s.seqOf v).addr src
  issueEngine s v 1 (mClass bfmt.toNat != 0 && (!chk || chkOk bfmt.toNat))
    (reads (tileLoadRows a (srows sr) (s.pos v).beat)) (tileLoadEff v a (srows sr) buf bfmt.toNat chk)

/-- TILE_SCALES (R181, R187). -/
def execTileScales (v : VMove) (src : AddrOp) (buf : Bool) (s : State) : Res :=
  let a := (s.seqOf v).addr src
  issueEngine s v 1 true (reads (tileScaleRows a (s.pos v).beat)) fun pos s => addFlight s pos (.tileScales a buf)

/-- ASCALE_SET (R184). -/
def execAscaleSet (v : VMove) (addr : AddrOp) (s : State) : Res :=
  let a := (s.seqOf v).addr addr
  issueEngine s v 1 true [] fun _ s =>
    s.setMat (s.phys v) { s.matOf (s.phys v) with ascale := BitVec.ofNat 32 a }

/-- STREAM (R178, R181, R190). -/
def execStream (v : VMove) (a : AddrOp) (acc : AccOp) (rows : BitVec 11) (buf start sub : Bool) (afmt : BitVec 5)
    (anchor : BitVec 10) (s : State) : Res :=
  let q := s.seqOf v
  let ad := q.addr a
  let ac := q.accRow acc
  let m := s.matOf (s.phys v)
  let t := m.buf buf
  let f := afmt.toNat
  let b := (s.pos v).beat
  issueEngine s v 1
    (rowsOk rows && mClass f != 0 && (mClass f == mClass (t.fmt.getD f)) && (!t.chk || chkOk f)
      && (mClass f == 16 || !sub))
    (reads (streamReads ad m.ascale.toNat rows.toNat f b) ++ accRows ac rows.toNat (b + 280) 1 true)
    fun pos s => addFlight s pos
      (.stream ad ac rows.toNat buf start sub f (t.fmt.getD f) t.chk (anchorOf anchor) m.ascale.toNat)

/-- DRAIN (R181, R183, R186). -/
def execDrain (v : VMove) (dst : AddrOp) (acc : AccOp) (rows : BitVec 11) (ofmt : BitVec 5) (round : BitVec 2)
    (sat clear : Bool) (anchor : BitVec 10) (s : State) : Res :=
  let q := s.seqOf v
  let d := q.addr dst
  let ac := q.accRow acc
  let b := (s.pos v).beat
  issueEngine s v 1 (rowsOk rows && drainOk ofmt.toNat && roundOk round)
    (accRows ac rows.toNat b 1 false ++ writes (drainWrites d rows.toNat ofmt.toNat b))
    fun pos s => addFlight s pos (.drain d ac rows.toNat ofmt.toNat round.toNat sat clear (anchorOf anchor)
      (s.matOf (s.phys v)).seed.toNat)

/-- DRAIN_WIDE (R181, R183, R186). -/
def execDrainWide (v : VMove) (dst : AddrOp) (acc : AccOp) (rows : BitVec 11) (clear : Bool) (s : State) : Res :=
  let q := s.seqOf v
  let d := q.addr dst
  let ac := q.accRow acc
  let b := (s.pos v).beat
  issueEngine s v 1 (rowsOk rows) (accRows ac rows.toNat b 4 false ++ writes (wideRows d rows.toNat b))
    fun pos s => addFlight s pos (.drainWide d ac rows.toNat clear)

/-- ACC_LOAD (R181, R186, R189). -/
def execAccLoad (v : VMove) (src : AddrOp) (acc : AccOp) (rows : BitVec 11) (add : Bool) (s : State) : Res :=
  let q := s.seqOf v
  let a := q.addr src
  let ac := q.accRow acc
  let b := (s.pos v).beat
  issueEngine s v 1 (rowsOk rows) (reads (wideRows a rows.toNat b) ++ accRows ac rows.toNat (b + 27) 4 true)
    fun pos s => addFlight s pos (.accLoad a ac rows.toNat add)

/-- SEED_SET (R184). -/
def execSeedSet (v : VMove) (seed : W32) (s : State) : Res :=
  issueEngine s v 1 true [] fun _ s => s.setMat (s.phys v) { s.matOf (s.phys v) with seed := seed }

/-! ### Upsets of an array's storage (R192, R196) -/

/-- Mark a word uncorrectable, or correctable at a bit. -/
def markWord (bad : List Nat) (weak : Tbl Nat) (w : Nat) : Option Nat → List Nat × Tbl Nat
  | some bit => (bad, tput w bit weak)
  | none => (if bad.contains w then bad else bad ++ [w], weak)

/-- Mark a word of a tile buffer. -/
def TileBuf.mark (t : TileBuf) (w : Nat) (bit : Option Nat) : TileBuf :=
  let x := markWord t.bad t.weak w bit
  { t with bad := x.1, weak := x.2 }

/-- Whether a load into a buffer of virtual movement `v` is under way. -/
def State.loading (s : State) (v : Nat) (buf : Bool) : Bool :=
  match s.run with
  | some r => r.flights.any fun f => f.pos.vmove == v && (match f.work with | .tileLoad _ _ b _ => b == buf | _ => false)
  | none => false

/-- What has befallen the storage of an array since its last balance period. -/
def upset (n : Nat) (s : State) (u : Upset) : State :=
  let m := s.matOf n
  s.setMat n (match u with
    | .acc row word bit =>
      let x := markWord m.bad m.weak (512 * row.val + word.val) (bit.map (·.val))
      { m with bad := x.1, weak := x.2 }
    | .tile buf word bit => m.setBuf buf ((m.buf buf).mark word (bit.map (·.val)))
    | .scale buf word bit => m.setBuf buf ((m.buf buf).mark (8192 + word.val) (bit.map (·.val)))
    | .weight buf byte value =>
      let t := m.buf buf
      m.setBuf buf { t with tile := memPut none t.tile byte value
                            faults := if s.loading (s.virt n) buf then tput byte value.toNat t.faults else t.faults })

/-- ACC_BACKGROUND_SCRUB (R192): the scrub reaches the accumulator (row, column); an uncorrectable word is reported and
rewritten as ordinary 0, a correctable one is reported and corrected. -/
def execAccBackgroundScrub (n : Mv) (row : Fin 1024) (col : Fin 256) (s : State) : Res :=
  let m := s.matOf n
  let ws := accWords row col 1
  let bad := m.bad.filter ws.contains
  let weak := m.weak.filter (fun e => ws.contains e.1)
  let m := { m with weak := m.weak.filter (fun e => !ws.contains e.1) }
  let s := s.setMat n (if bad.isEmpty then m else m.putRow row col [0])
  let s := weak.foldl (fun s e => raise s 0x0107 (accLoc n e.1 (some e.2))) s
  .next (bad.foldl (fun s w => raise s 0x0108 (accLoc n w none)) s)

end Sys2Proof.Machine
end

