-- ==== Sys2Proof/Machine/Vector.lean ====
section
/-!
DEFINITION. The vector unit and its reduction unit (07_straps_reductions_and_skivers.md, R198 to R213): passes, mode
registers, the tap, tallies and reduction ops.
-/

namespace Sys2Proof.Machine

/-! ### Straps (R198, R199) -/

/-- Rows per group of a strap format (R198), 0 for a format the vector unit does not take. -/
def strapW (f : Nat) : Nat :=
  if f = 0 ∨ f = 0xB then 4 else if f = 1 ∨ f = 2 then 2 else if f ∈ [0x3, 0x4, 0xC, 0xD] then 1 else 0

/-- Whether a format stands in the table of R198. -/
def strapOk (f : Nat) : Bool := strapW f != 0

/-- Whether a format is an integer format. -/
def isInt (f : Nat) : Bool := (intOf f).isSome

/-- Rows of a strap: rows w g to w g + w − 1 at `b + g` (R199). -/
def strapRows (a w b : Nat) : List (Nat × Nat) :=
  (List.range 16).flatMap fun g => (List.range w).map fun p => (rowAt a (w * g + p : Nat), b + g)

/-- `n` little-endian codes of `k` bytes. -/
def codesOf (k : Nat) : Nat → Bytes → List Nat
  | 0, _ => []
  | n + 1, b => leNat (b.take k) :: codesOf k n (b.drop k)

/-- The 256 codes of group `g` of a strap, read at its beat (R199). -/
def groupCodes (s : State) (a fmt b g : Nat) : List Nat :=
  let w := strapW fmt
  codesOf w 256 (readAll s ((List.range w).map fun p => (rowAt a (w * g + p : Nat), b + g))).flatten

/-- The values of a group. -/
def groupVals (s : State) (a fmt b g : Nat) : List Val := (groupCodes s a fmt b g).map (fun c => (decodeElem fmt c).1)

/-! ### Immediates and the constant T (R202) -/

/-- Whether AFMT, BFMT and OFMT are all integer formats. -/
def VMode.allInt (u : VMode) : Bool := isInt u.afmt && isInt u.bfmt && isInt u.ofmt

/-- An immediate: INT32 when every format is an integer format, FP32 otherwise (R202). -/
def VMode.immVal (u : VMode) (i : W32) : Val := if u.allInt then .ofInt i.toInt else fp32.decode i.toNat

/-- The constant T, as a word and whether TLOAD set it (R202). -/
def VMode.tVal (u : VMode) (t : W32 × Bool) : Val := if t.2 then fp32.decode t.1.toNat else u.immVal t.1

/-! ### Tallies (R207 to R211) -/

/-- Kind of a tally, none while empty. -/
def Tally.kind : Tally → Option TKind
  | .empty => none
  | .sum _ => some .sum
  | .ext m _ _ _ => some (if m then .max else .min)

/-- The value of an extreme tally. -/
def extVal (int : Bool) (w : W32) : Val := if int then .ofInt w.toInt else fp32.decode w.toNat

/-- Whether (v, i) displaces (w, k) (R209). -/
def better (v : Val) (i : Nat) (w : Val) (k : Nat) (mx : Bool) : Bool :=
  if isNaN w then isNaN v && decide (i < k)
  else if isNaN v then true
  else if eqVal v w && signVal v == signVal w then decide (i < k)
  else if mx then ltVal w v || (isZeroVal v && isZeroVal w && signVal w)
  else ltVal v w || (isZeroVal v && isZeroVal w && signVal v)

/-- The best of a list of items against a standing one (R209). -/
def bestOf (mx int : Bool) (cur : Option (Val × Nat × Bool)) (items : List (Val × Nat)) : Option (Val × Nat × Bool) :=
  items.foldl (fun c p =>
    match c with
    | none => some (p.1, p.2, int)
    | some (w, k, _) => if better p.1 p.2 w k mx then some (p.1, p.2, int) else c) cur

/-- Encode a winner: INT32 when an integer format placed it, FP32 otherwise (R212). -/
def extTally (mx : Bool) : Option (Val × Nat × Bool) → Tally
  | none => .empty
  | some (v, i, int) =>
    .ext mx int (BitVec.ofNat 32 (if int then (toFmt 0xB v.rv 0 false 0).1 else (fp32.round v.rv 0 false 0).1))
      (BitVec.ofNat 32 i)

/-- A contribution combined into a tally (R209): the new tally and its flags; none where its kind does not fit. `int`
says whether the items were read in an integer format. -/
def contribute (t : Tally) (k : TKind) (items : List (Val × Nat)) (anchor : Int) (start int : Bool) :
    Option (Tally × Nat) :=
  let t := if start then .empty else t
  if t.kind ≠ none ∧ t.kind ≠ some k then none
  else
    match k with
    | .sum =>
      let n0 : W128 := match t with | .sum n => n | _ => 0
      let r := items.foldl (fun (x : W128 × Nat) p =>
        let w := w128Term p.1 anchor
        let c := combine x.1 w.1
        (c.1, x.2 ||| w.2 ||| c.2)) (n0, 0)
      some (.sum r.1, r.2)
    | _ =>
      let mx := decide (k = .max)
      let cur := match t with
        | .ext _ i v x => some (extVal i v, x.toNat, i)
        | _ => none
      some (extTally mx (bestOf mx int cur items), 0)

/-- Whether a contribution of kind `k` may be made to tally `i` without a start (R207). -/
def Vector.takes (u : Vector) (i : Nat) (k : TKind) (start : Bool) : Bool :=
  start || tget none u.kinds i == none || tget none u.kinds i == some k

/-- Note the kind of a contribution to tally `i` as its op issues (R207). -/
def Vector.noteKind (u : Vector) (i : Nat) (k : TKind) : Vector := { u with kinds := tset none u.kinds i (some k) }

/-- Put items into tally `i` of a unit (R209). -/
def contributeTo (s : State) (v i : Nat) (k : TKind) (items : List (Val × Nat)) (anchor : Int) (start int : Bool)
    (pos : PlanPos) : State :=
  let n := s.phys v
  let u := s.vecOf n
  match contribute (tget .empty u.tallies i) k items anchor start int with
  | none => s
  | some (t, fl) => raiseFlags (s.setVec n { u with tallies := tset .empty u.tallies i t }) fl pos

/-! ### Passes (R199, R203 to R205, R210) -/

/-- Accesses of a pass (R199): A at b + g, B likewise where it is a strap, D where it is read, and D written at
b + 16 + g. -/
def passAccs (u : VMode) (f : VFun) (d : Nat) (a : Option Nat) (bs : BSrc) (b : Nat) : List Access :=
  let wo := strapW u.ofmt
  (match a with | some a => reads (strapRows a (strapW u.afmt) b) | none => [])
    ++ (match bs with | .strap x => reads (strapRows x (strapW u.bfmt) b) | _ => [])
    ++ (if f.readsD then reads (strapRows d wo b) else [])
    ++ writes (strapRows d wo (b + 16))

/-- An element of a bitwise function whose B is a T held as FP32 (R202, R204): a shift by an integral, a negative or a too
great count; otherwise no result is stated, and it is the free value `x` (DESIGN CHOICE, log 33). -/
def bitwiseT (f : VFun) (fmt a : Nat) (t : Val) (x : Nat) : Nat × Nat :=
  let w := fmtBits fmt
  let by_ := fun (n : Int) => bitwiseOf f fmt a 0 n
  if f == .shl || f == .shr then
    match t with
    | .nan => (x % 2 ^ w, 0)
    | .inf neg => by_ (if neg then -1 else w)
    | .fin neg m e =>
      let n := shiftFloor m e
      if m = 0 then by_ 0 else if neg then by_ (-1) else if w ≤ n.1 then by_ w
      else if n.2 then (x % 2 ^ w, 0) else by_ n.1
  else (x % 2 ^ w, 0)

/-- The output codes of group `g` of a pass with their flags (R203, R204, R205). -/
def passOut (s : State) (u : VMode) (t : W32 × Bool) (f : VFun) (d : Nat) (a : Option Nat) (bs : BSrc) (pos : PlanPos)
    (g : Nat) : List (Nat × Nat) :=
  let b := pos.beat
  let acodes := match a with
    | some a => groupCodes s a u.afmt b g
    | none => List.replicate 256 0
  let rnd := fun (j : Nat) => ({ fmt := u.ofmt, mode := u.round, sat := u.sat
                                 u := drawOf u.round u.seed.toNat pos.vmove b j } : Rnd)
  if f.bitwise then
    match bs with
    | .strap x =>
      ((acodes.zip (groupCodes s x u.bfmt b g)).map fun p =>
        bitwiseOf f u.ofmt p.1 p.2 (match intOf u.ofmt with | some i => i.decode p.2 | none => 0))
    | .imm i => acodes.map fun c => bitwiseOf f u.ofmt c (i.toNat % 2 ^ fmtBits u.ofmt) i.toInt
    | .const =>
      if t.2 then (indexed acodes).map fun e => bitwiseT f u.ofmt e.2 (u.tVal t) (Config.freeAcc s.free e.1).toNat
      else acodes.map fun c => bitwiseOf f u.ofmt c (t.1.toNat % 2 ^ fmtBits u.ofmt) t.1.toInt
  else
    let avals := acodes.map (fun c => (decodeElem u.afmt c).1)
    let bvals := match bs with
      | .strap x => groupVals s x u.bfmt b g
      | .imm i => List.replicate 256 (u.immVal i)
      | .const => List.replicate 256 (u.tVal t)
    let dvals := if f.readsD then groupVals s d u.ofmt b g else List.replicate 256 (.fin false 0 0)
    (indexed ((avals.zip bvals).zip dvals)).map fun e =>
      let j := 256 * g + e.1
      vecElem f e.2.1.1 e.2.1.2 e.2.2 (u.tVal t) j (rnd j)

/-- Group `g` of a pass, at its read beat: its flags and its rows, and the bytes that a tap is to take (R199). -/
def passGroup (s : State) (u : VMode) (t : W32 × Bool) (f : VFun) (d : Nat) (a : Option Nat) (bs : BSrc) (pos : PlanPos)
    (g : Nat) : State × Bytes :=
  let out := passOut s u t f d a bs pos g
  let w := strapW u.ofmt
  let bytes := packWide (fmtBits u.ofmt) (out.map (·.1))
  let s := raiseFlags s (out.foldl (fun x e => x ||| e.2) 0) pos
  let s := s.writeRows ((indexed (cutRows w bytes)).map fun e => (rowAt d (w * g + e.1 : Nat), pos.beat + 16 + g, e.2))
  (if f.bitwise && t.2 && bs == .const then s.bump else s, bytes)

/-- Kind that a tap contributes with (R207). -/
def tapKind (k : Nat) : TKind := if k = 3 ∨ k = 5 then .max else if k = 4 then .min else .sum

/-- The tap of group `g` of a pass, at its input beat: the rounded outputs feed the tally VTAP named (R210, R211). -/
def tapGroup (v : Nat) (ofmt : Nat) (tap : Tap) (bytes : Bytes) (pos : PlanPos) (g : Nat) (s : State) : State :=
  let vals := (codesOf (strapW ofmt) 256 bytes).map (fun c => (decodeElem ofmt c).1)
  let items := (indexed vals).map fun e =>
    let j := 256 * g + e.1
    ((if tap.kind = 2 then (mulVal e.2 e.2).1 else e.2), (if tap.kind = 5 then (tap.base.toNat + j) % 2 ^ 32 else j))
  contributeTo s v tap.tally (tapKind tap.kind) items tap.anchor (tap.start && g == 0) (isInt ofmt) pos

/-- The tap in force, none while TAPK is 0 (R206, R210). -/
def Vector.tap (u : Vector) : Option Tap :=
  if u.tapk = 0 then none
  else some { kind := u.tapk, tally := u.tapTally, start := u.tapStart, anchor := u.tapAnchor, base := u.ibase }

/-- A pass's issue (R201, R207, R210): it takes the mode registers and the tap; a tap whose kind does not fit its tally ends
the step. -/
def passEff (v : Nat) (f : VFun) (d : Nat) (a : Option Nat) (bs : BSrc) (pos : PlanPos) (s : State) : State :=
  let n := s.phys v
  let u := s.vecOf n
  match u.tap with
  | none => addFlight s pos (.pass f d a bs u.toVMode none)
  | some t =>
    if u.takes t.tally (tapKind t.kind) t.start then
      addFlight (s.setVec n { u.noteKind t.tally (tapKind t.kind) with tapStart := false, ibase := u.ibase + 4096 }) pos
        (.pass f d a bs u.toVMode (some t))
    else planFault s pos pfUndefined 0 0

/-- Whether a pass is defined under the formats in force (R198, R204). -/
def passOk (u : VMode) (f : VFun) : Bool :=
  strapOk u.afmt && strapOk u.bfmt && strapOk u.ofmt
    && (!f.bitwise || (isInt u.ofmt && u.afmt == u.ofmt && u.bfmt == u.ofmt))

/-- Issue a pass. -/
def issuePass (s : State) (v : VMove) (f : VFun) (d : AddrOp) (a : Option AddrOp) (b : Seq → BSrc) : Res :=
  let q := s.seqOf v
  let u := (s.vecOf (s.phys v)).toVMode
  let da := q.addr d
  let aa := a.map q.addr
  let bb := b q
  issueEngine s v 2 (passOk u f) (passAccs u f da aa bb (s.pos v).beat) (passEff v f da aa bb)

/-- Issue a two-operand function in one of its three forms (R202). -/
def issueForm (s : State) (v : VMove) (f : VFun) : VForm → Res
  | .straps d a b => issuePass s v f d (some a) (fun q => .strap (q.addr b))
  | .imm d a i => issuePass s v f d (some a) (fun _ => .imm i)
  | .const d a => issuePass s v f d (some a) (fun _ => .const)

/-- Issue AFFINE or EXPS in one of its two forms (R203). -/
def issueForm2 (s : State) (v : VMove) (f : VFun) : VForm2 → Res
  | .straps d a b => issuePass s v f d (some a) (fun q => .strap (q.addr b))
  | .imm d a i => issuePass s v f d (some a) (fun _ => .imm i)

/-- Issue a unary function (R202, R203); B is not read. -/
def issueUnary (s : State) (v : VMove) (f : VFun) (d a : AddrOp) : Res :=
  issuePass s v f d (some a) (fun _ => .imm 0)

/-- ADD: a + b (R203). -/
def execAdd (v : VMove) (f : VForm) (s : State) : Res := issueForm s v .add f
/-- SUB: a − b (R203). -/
def execSub (v : VMove) (f : VForm) (s : State) : Res := issueForm s v .sub f
/-- MUL: a × b (R203). -/
def execMul (v : VMove) (f : VForm) (s : State) : Res := issueForm s v .mul f
/-- MAD: a × b + d, fused (R167, R203). -/
def execMad (v : VMove) (f : VForm) (s : State) : Res := issueForm s v .mad f
/-- MIN (R203, R204). -/
def execMin (v : VMove) (f : VForm) (s : State) : Res := issueForm s v .min f
/-- MAX (R203, R204). -/
def execMax (v : VMove) (f : VForm) (s : State) : Res := issueForm s v .max f
/-- AFFINE: a × b + T (R203). -/
def execAffine (v : VMove) (f : VForm2) (s : State) : Res := issueForm2 s v .affine f
/-- CMPEQ (R203, R204). -/
def execCmpeq (v : VMove) (f : VForm) (s : State) : Res := issueForm s v .cmpeq f
/-- CMPNE (R203, R204). -/
def execCmpne (v : VMove) (f : VForm) (s : State) : Res := issueForm s v .cmpne f
/-- CMPLT (R203, R204). -/
def execCmplt (v : VMove) (f : VForm) (s : State) : Res := issueForm s v .cmplt f
/-- CMPLE (R203, R204). -/
def execCmple (v : VMove) (f : VForm) (s : State) : Res := issueForm s v .cmple f
/-- SEL: a if d is true, else b (R203, R204). -/
def execSel (v : VMove) (f : VForm) (s : State) : Res := issueForm s v .sel f
/-- AND (R203, R204). -/
def execAnd (v : VMove) (f : VForm) (s : State) : Res := issueForm s v .and f
/-- OR (R203, R204). -/
def execOr (v : VMove) (f : VForm) (s : State) : Res := issueForm s v .or f
/-- XOR (R203, R204). -/
def execXor (v : VMove) (f : VForm) (s : State) : Res := issueForm s v .xor f
/-- SHL (R203, R204). -/
def execShl (v : VMove) (f : VForm) (s : State) : Res := issueForm s v .shl f
/-- SHR (R203, R204). -/
def execShr (v : VMove) (f : VForm) (s : State) : Res := issueForm s v .shr f
/-- EXPS: exp2(a × b − T) (R203, R204). -/
def execExps (v : VMove) (f : VForm2) (s : State) : Res := issueForm2 s v .exps f
/-- IOTA: j plus the immediate; reads no strap (R204). -/
def execIota (v : VMove) (d : AddrOp) (i : W32) (s : State) : Res := issuePass s v .iota d none (fun _ => .imm i)
/-- COPY of the vector unit: a rounded into OFMT (R203). -/
def execVectorCopy (v : VMove) (d a : AddrOp) (s : State) : Res := issueUnary s v .copy d a
/-- ABS (R203). -/
def execAbs (v : VMove) (d a : AddrOp) (s : State) : Res := issueUnary s v .abs d a
/-- NEG (R203). -/
def execNeg (v : VMove) (d a : AddrOp) (s : State) : Res := issueUnary s v .neg d a
/-- EXP2 (R168). -/
def execExp2 (v : VMove) (d a : AddrOp) (s : State) : Res := issueUnary s v .exp2 d a
/-- LOG2 (R168). -/
def execLog2 (v : VMove) (d a : AddrOp) (s : State) : Res := issueUnary s v .log2 d a
/-- RCP (R168). -/
def execRcp (v : VMove) (d a : AddrOp) (s : State) : Res := issueUnary s v .rcp d a
/-- SQRT (R168). -/
def execSqrt (v : VMove) (d a : AddrOp) (s : State) : Res := issueUnary s v .sqrt d a
/-- RSQRT (R168). -/
def execRsqrt (v : VMove) (d a : AddrOp) (s : State) : Res := issueUnary s v .rsqrt d a
/-- TANH (R169). -/
def execTanh (v : VMove) (d a : AddrOp) (s : State) : Res := issueUnary s v .tanh d a
/-- SIGMOID (R169). -/
def execSigmoid (v : VMove) (d a : AddrOp) (s : State) : Res := issueUnary s v .sigmoid d a
/-- GELU (R169). -/
def execGelu (v : VMove) (d a : AddrOp) (s : State) : Res := issueUnary s v .gelu d a
/-- SILU (R169). -/
def execSilu (v : VMove) (d a : AddrOp) (s : State) : Res := issueUnary s v .silu d a

/-! ### Control ops (R206, R213) -/

/-- VSET's effect (R201, R202, R206); T changes in the order of the beats, as TLOAD changes it. -/
def vsetEff (v afmt bfmt ofmt round : Nat) (sat : Bool) (seed : W32) (t : Option W32) (pos : PlanPos) (s : State) : State :=
  let n := s.phys v
  let s := s.setVec n { s.vecOf n with afmt := afmt, bfmt := bfmt, ofmt := ofmt, round := round, sat := sat, seed := seed }
  match t with
  | some t => addFlight s pos (.setT t)
  | none => s

/-- VSET (R206). -/
def execVset (v : VMove) (afmt bfmt ofmt : BitVec 5) (round : BitVec 2) (sat : Bool) (seed : W32) (t : Option W32)
    (s : State) : Res :=
  issueEngine s v 2 (strapOk afmt.toNat && strapOk bfmt.toNat && strapOk ofmt.toNat && roundOk round) []
    (vsetEff v afmt.toNat bfmt.toNat ofmt.toNat round.toNat sat seed t)

/-- VTAP's effect (R201, R206, R210). -/
def vtapEff (v tapk tally : Nat) (tstart : Bool) (anchor : Int) (ibase : W32) (_ : PlanPos) (s : State) : State :=
  let n := s.phys v
  s.setVec n { s.vecOf n with tapk := tapk, tapTally := tally, tapStart := tstart, tapAnchor := anchor, ibase := ibase }

/-- VTAP (R206); TAPK 6 and 7 are reserved. -/
def execVtap (v : VMove) (tapk : BitVec 3) (tally : Fin 16) (tstart : Bool) (anchor : BitVec 10) (ibase : W32)
    (s : State) : Res :=
  issueEngine s v 2 (decide (tapk.toNat < 6)) [] (vtapEff v tapk.toNat tally tstart (anchorOf anchor) ibase)

/-- The value of a tally as TLOAD with FN 0 multiplies it: exact, a marker first read into FP32 (R213). -/
def tallyVal (t : Tally) (anchor : Int) : Val × Nat :=
  match t with
  | .empty => (.fin false 0 0, 0)
  | .sum n =>
    if isMarker n then let r := wOut n anchor 0 0 false 0; (fp32.decode r.1, r.2) else (wVal n anchor, 0)
  | .ext _ i w _ => (extVal i w, 0)

/-- T as TLOAD forms it, with the flags of its roundings (R213). -/
def tloadVal (t : Tally) (fn : Bool) (anchor : Int) (mult : W32) : Nat × Nat :=
  let (v, f0) := tallyVal t anchor
  if fn then
    let (c, f1) := fp32.round v.rv 0 false 0
    let (r, f2) := rcpV (fp32.decode c)
    let (c', f3) := fp32.round r 0 false 0
    (c', f0 ||| f1 ||| f2 ||| f3)
  else
    let (p, f1) := mulVal v (fp32.decode mult.toNat)
    let (c, f2) := fp32.round p.rv 0 false 0
    (c, f0 ||| f1 ||| f2)

/-- VSET sets T (R202, R206). -/
def setTEnd (v : Nat) (t : W32) (s : State) : State :=
  s.setVec (s.phys v) { s.vecOf (s.phys v) with t := t, tFloat := false }

/-- TLOAD reads its tally and sets T (R213). -/
def tloadEnd (v tally : Nat) (fn : Bool) (anchor : Int) (mult : W32) (pos : PlanPos) (s : State) : State :=
  let n := s.phys v
  let u := s.vecOf n
  let r := tloadVal (tget .empty u.tallies tally) fn anchor mult
  raiseFlags (s.setVec n { u with t := BitVec.ofNat 32 r.1, tFloat := true }) r.2 pos

/-- TLOAD (R206, R213); with FN 1 its OW2 is reserved. -/
def execTload (v : VMove) (tally : Fin 16) (fn : Bool) (anchor : BitVec 10) (mult : W32) (s : State) : Res :=
  issueEngine s v 2 (!fn || mult == 0) [] fun pos s => addFlight s pos (.tload tally fn (anchorOf anchor) mult)

/-! ### Reduction ops (R208 to R212) -/

/-- What an item of a strap reduction is of its elements (R208). -/
def RItem.of : RItem → Val → Val → Val × Nat
  | .plain, x, _ => (x, 0)
  | .square, x, _ => mulVal x x
  | .product, x, y => mulVal x y

/-- Group `g` of a strap reduction, at its input beat: items from A, or from A and B (R208, R211). -/
def reduceGroup (v a : Nat) (b : Option Nat) (k : TKind) (item : RItem) (afmt bfmt base tally : Nat) (anchor : Int)
    (start : Bool) (pos : PlanPos) (s : State) (g : Nat) : State :=
  let as := groupVals s a afmt pos.beat g
  let bs := match b with
    | some b => groupVals s b bfmt pos.beat g
    | none => as
  let res := (as.zip bs).map fun p => item.of p.1 p.2
  let items := (indexed res).map fun e => (e.2.1, (base + 256 * g + e.1) % 2 ^ 32)
  let s := raiseFlags s (res.foldl (fun f r => f ||| r.2) 0) pos
  contributeTo s v tally k items anchor (start && g == 0) (isInt afmt) pos

/-- A strap reduction's issue (R207): a kind that does not fit its tally ends the step. -/
def reduceEff (v a : Nat) (b : Option Nat) (k : TKind) (item : RItem) (base : Nat) (tally : Nat) (anchor : Int)
    (start : Bool) (pos : PlanPos) (s : State) : State :=
  let n := s.phys v
  let u := s.vecOf n
  if u.takes tally k start then
    addFlight (s.setVec n (u.noteKind tally k)) pos (.reduce a b k item u.afmt u.bfmt base tally anchor start)
  else planFault s pos pfUndefined 0 0

/-- Issue a strap reduction. -/
def issueReduce (s : State) (v : VMove) (a : AddrOp) (b : Option AddrOp) (k : TKind) (item : RItem) (base tally : Nat)
    (anchor : Int) (start : Bool) : Res :=
  let q := s.seqOf v
  let u := s.vecOf (s.phys v)
  let aa := q.addr a
  let bb := b.map q.addr
  let bt := (s.pos v).beat
  issueEngine s v 2 (strapOk u.afmt && strapOk u.bfmt)
    (reads (strapRows aa (strapW u.afmt) bt) ++ (match bb with | some x => reads (strapRows x (strapW u.bfmt) bt) | none => []))
    (reduceEff v aa bb k item base tally anchor start)

/-- RSUM: Σ a_j (R208). -/
def execRsum (v : VMove) (a : AddrOp) (c : SumCtl) (s : State) : Res :=
  issueReduce s v a none .sum .plain 0 c.tally (anchorOf c.anchor) c.start
/-- RSUMSQ: Σ a_j² (R208). -/
def execRsumsq (v : VMove) (a : AddrOp) (c : SumCtl) (s : State) : Res :=
  issueReduce s v a none .sum .square 0 c.tally (anchorOf c.anchor) c.start
/-- RDOT: Σ a_j × b_j (R208). -/
def execRdot (v : VMove) (a b : AddrOp) (c : SumCtl) (s : State) : Res :=
  issueReduce s v a (some b) .sum .product 0 c.tally (anchorOf c.anchor) c.start
/-- RMAX: greatest a_j with index j (R208). -/
def execRmax (v : VMove) (a : AddrOp) (c : ExtCtl) (s : State) : Res :=
  issueReduce s v a none .max .plain 0 c.tally 0 c.start
/-- RMIN: least a_j with index j (R208). -/
def execRmin (v : VMove) (a : AddrOp) (c : ExtCtl) (s : State) : Res :=
  issueReduce s v a none .min .plain 0 c.tally 0 c.start
/-- RARGMAX: greatest a_j with index IBASE + j (R208). -/
def execRargmax (v : VMove) (a : AddrOp) (ibase : W32) (c : ExtCtl) (s : State) : Res :=
  issueReduce s v a none .max .plain ibase.toNat c.tally 0 c.start

/-- The bits set in a 16-bit mask, in ascending order. -/
def maskBits (m : W16) : List Nat := (List.range 16).filter (fun i => m.getLsbD i)

/-- One tally of a RADDW: n_t combined into a sum tally (R208, R209). -/
def raddwStep (v : Nat) (row : Bytes) (pos : PlanPos) (s : State) (t : Nat) : State :=
  let n := s.phys v
  let u := s.vecOf n
  let w := BitVec.ofNat 128 (fieldAt row (16 * t) 16)
  match tget .empty u.tallies t with
  | .ext _ _ _ _ => s
  | x =>
    let c := combine (match x with | .sum y => y | _ => 0) w
    raiseFlags (s.setVec n { u with tallies := tset .empty u.tallies t (.sum c.1) }) c.2 pos

/-- RADDW's contributions, at its issue beat (R208, R211). -/
def raddwEnd (v a : Nat) (mask : W16) (pos : PlanPos) (s : State) : State :=
  (maskBits mask).foldl (raddwStep v (s.readRow a pos.beat) pos) s

/-- RADDW's issue (R207): a tally of another kind ends the step. -/
def raddwEff (v a : Nat) (mask : W16) (pos : PlanPos) (s : State) : State :=
  let n := s.phys v
  let u := s.vecOf n
  if (maskBits mask).all (fun i => u.takes i .sum false) then
    addFlight (s.setVec n ((maskBits mask).foldl (fun u i => u.noteKind i .sum) u)) pos (.raddw a mask)
  else planFault s pos pfUndefined 0 0

/-- RADDW (R208). -/
def execRaddw (v : VMove) (src : AddrOp) (mask : W16) (s : State) : Res :=
  let a := (s.seqOf v).addr src
  issueEngine s v 2 true (reads [(a, (s.pos v).beat)]) (raddwEff v a mask)

/-- The 16 bytes of a tally in MODE 0 (R212). -/
def tallyBytes : Tally → Bytes
  | .empty => zeros 16
  | .sum n => leBytes 16 n.toNat
  | .ext _ _ w i => leBytes 4 w.toNat ++ leBytes 4 i.toNat ++ zeros 8

/-- The element of a tally in MODE 1 and its flags (R160, R162, R163, R212). -/
def tallyElem (t : Tally) (ofmt round : Nat) (sat : Bool) (anchor : Int) (u : Nat) : Nat × Nat :=
  match t with
  | .empty => (0, 0)
  | .sum n => wOut n anchor ofmt round sat u
  | .ext _ i w _ => toFmt ofmt (extVal i w).rv round sat u

/-- Byte enables and bytes that RSTORE writes for tally `t`, with flags (R212). -/
def rstoreBytes (ts : Tbl Tally) (rounded : Bool) (ofmt round : Nat) (sat : Bool) (anchor : Int) (seed : Nat) (pos : PlanPos)
    (t : Nat) : List (Nat × Byte) × Nat :=
  let ty := tget .empty ts t
  if rounded then
    let r := tallyElem ty ofmt round sat anchor (drawOf round seed pos.vmove pos.beat t)
    let k := fmtBits ofmt / 8
    ((indexed (leBytes k r.1)).map (fun e => (k * t + e.1, e.2)), r.2)
  else ((indexed (tallyBytes ty)).map (fun e => (16 * t + e.1, e.2)), 0)

/-- RSTORE reads and writes the tallies of its mask (R212). -/
def rstoreEnd (v d : Nat) (mask : W16) (rounded : Bool) (ofmt round : Nat) (sat : Bool) (anchor : Int) (seed : Nat)
    (pos : PlanPos) (s : State) : State :=
  let ts := (s.vecOf (s.phys v)).tallies
  let res := (maskBits mask).map (rstoreBytes ts rounded ofmt round sat anchor seed pos)
  raiseFlags (s.writeBytes d pos.beat (res.flatMap (·.1))) (res.foldl (fun f r => f ||| r.2) 0) pos

/-- RSTORE (R208, R212). -/
def execRstore (v : VMove) (dst : AddrOp) (mask : W16) (rounded : Bool) (ofmt : BitVec 5) (round : BitVec 2) (sat : Bool)
    (anchor : BitVec 10) (s : State) : Res :=
  let d := (s.seqOf v).addr dst
  issueEngine s v 2 (strapOk ofmt.toNat && roundOk round) (writes [(d, (s.pos v).beat)])
    fun pos s => addFlight s pos (.rstore d mask rounded ofmt.toNat round.toNat sat (anchorOf anchor)
      (s.vecOf (s.phys v)).seed.toNat)

end Sys2Proof.Machine
end

