-- ==== Sys2Proof/Machine/Skiver.lean ====
section
/-!
DEFINITION. The skivers (07_straps_reductions_and_skivers.md, R214 to R219): TRANSPOSE, RETILE, CONVERT and KSET.
-/

namespace Sys2Proof.Machine

/-! ### Runs of bytes over rows (R78, R218) -/

/-- The rows that hold bytes a to a + n − 1. -/
def rangeRows (a n t : Nat) : List (Nat × Nat) :=
  if n = 0 then [] else (List.range ((a % 256 + n + 255) / 256)).map fun (i : Nat) => (rowAt (a / 256 * 256) i, t)

/-- Bytes a to a + n − 1, read at beat `t`. -/
def readRange (s : State) (a n t : Nat) : Bytes :=
  slice (readAll s (rangeRows a n t)).flatten (a % 256) n

/-- Pieces of a run of bytes by row: the row address, and each byte with its place in the row. -/
def pieces : Nat → Nat → Bytes → List (Nat × List (Nat × Byte))
  | 0, _, _ => []
  | n + 1, a, bs =>
    if bs.isEmpty then []
    else
      let k := 256 - a % 256
      (a / 256 * 256 % 2 ^ 32, (indexed (bs.take k)).map (fun e => (a % 256 + e.1, e.2))) :: pieces n (a + k) (bs.drop k)

/-- Write bytes from address `a`, with byte enables on those bytes only, at beat `t` (R78). -/
def writeRange (s : State) (a t : Nat) (bs : Bytes) : State :=
  (pieces (bs.length / 256 + 2) a bs).foldl (fun s p => s.writeBytes p.1 t p.2) s

/-! ### TRANSPOSE and RETILE (R215, R216) -/

/-- Bits of an element by ESIZE (R214). -/
def esizeBits (e : BitVec 2) : Nat := 4 * 2 ^ e.toNat

/-- Elements of `bits` bits packed in a row, in ascending order (R146). -/
def unpack (bits : Nat) (row : Bytes) : List Nat :=
  if bits = 4 then row.flatMap (fun b => [b.toNat % 16, b.toNat / 16]) else codesOf (bits / 8) (2048 / bits) row

/-- The transpose of a list of rows of equal length `n`. -/
def transposed : Nat → List (List Nat) → List (List Nat)
  | 0, _ => []
  | n + 1, rows => rows.map (fun r => r.headD 0) :: transposed n (rows.map List.tail)

/-- Rows at a signed stride, one a beat. -/
def strideRows (a : Nat) (st : Int) (n b : Nat) : List (Nat × Nat) :=
  (List.range n).map fun (t : Nat) => (rowAt a (st * t), b + t)

/-- The end of a TRANSPOSE's reading, with its writes (R215). -/
def transposeEnd (d a : Nat) (sr dr : Int) (bits : Nat) (pos : PlanPos) (s : State) : State :=
  let rows := (readAll s (strideRows a sr 256 pos.beat)).map (unpack bits)
  let image := packCodes bits (transposed (2048 / bits) rows).flatten
  s.writeRows ((strideRows d dr 256 (pos.beat + 300)).zip (cutRows 256 image) |>.map fun e => (e.1.1, e.1.2, e.2))

/-- TRANSPOSE (R214, R215). -/
def execTranspose (v : VMove) (dst src : AddrOp) (sr : W16) (dr : BitVec 14) (esize : BitVec 2) (s : State) : Res :=
  let q := s.seqOf v
  let b := (s.pos v).beat
  issueEngine s v 3 true
    (reads (strideRows (q.addr src) (srows sr) 256 b) ++ writes (strideRows (q.addr dst) (srows dr) 256 (b + 300)))
    fun pos s => addFlight s pos (.transpose (q.addr dst) (q.addr src) (srows sr) (srows dr) (esizeBits esize))

/-- The end of a RETILE's reading, with its writes (R216). -/
def retileEnd (d a n : Nat) (sr dr : Int) (pos : PlanPos) (s : State) : State :=
  let rows := readAll s (strideRows a sr n pos.beat)
  s.writeRows ((strideRows d dr n (pos.beat + 300)).zip rows |>.map fun e => (e.1.1, e.1.2, e.2))

/-- RETILE (R214, R216). -/
def execRetile (v : VMove) (dst src : AddrOp) (rowsM1 : BitVec 8) (sr dr : BitVec 12) (s : State) : Res :=
  let q := s.seqOf v
  let b := (s.pos v).beat
  let n := rowsM1.toNat + 1
  issueEngine s v 3 true
    (reads (strideRows (q.addr src) (srows sr) n b) ++ writes (strideRows (q.addr dst) (srows dr) n (b + 300)))
    fun pos s => addFlight s pos (.retile (q.addr dst) (q.addr src) n (srows sr) (srows dr))

/-! ### CONVERT (R217 to R219) -/

/-- Whether a format code may stand in a CONVERT at all: W128 and E8M0 may not (R217). -/
def cvFmt (f : Nat) : Bool := decide (f ≤ 0xF) || f == 0x11

/-- Whether a format has 6-bit elements. -/
def is6 (f : Nat) : Bool := f == 7 || f == 8

/-- Whether CONVERT accepts a pair with `g` groups (R217). -/
def convertOk (i o g : Nat) : Bool :=
  cvFmt i && cvFmt o
    && !((is6 i || is6 o) && (fmtBits i == 32 || fmtBits o == 32 || i == 0x11 || o == 0x11))
    && !((i == 0x11 || o == 0x11) && g % 2 == 1)

/-- Whether a pair copies the scale and converts each element exactly (R217). -/
def exactPair (i o : Nat) : Bool :=
  (i == 9 && (o == 5 || o == 6)) || (i == 7 && (o == 5 || o == 6)) || (i == 8 && o == 5)

/-- Elements per group (R217). -/
def groupLen (i o : Nat) : Nat := if is6 i || is6 o then 320 else 256

/-- Bytes of a group's elements (R217, R218). -/
def groupBytes (f n : Nat) : Nat := n * fmtBits f / 8

/-- Bytes from one group to the next: a 6-bit group of 320 elements fills one row (R146). -/
def groupStride (f n : Nat) : Nat := if is6 f then 256 else n * fmtBits f / 8

/-- The bytes a group writes: those of its elements, and bytes 240 to 255 of a 6-bit row as 0 (R146). -/
def groupOut (f : Nat) (codes : List Nat) : Bytes :=
  packCodes (fmtBits f) codes ++ (if is6 f then zeros 16 else [])

/-- Bytes of the scales that group `g` reads or writes: their offset from the scale address and their number (R218). -/
def scaleSpan (f n g : Nat) : Nat × Nat :=
  if isMX f then (n / 32 * g, n / 32) else if f = 0x11 then (g / 2, 1) else (0, 0)

/-- Two lists of rows, each row once (R218). -/
def rowsOnce (xs ys : List (Nat × Nat)) : List (Nat × Nat) := xs ++ ys.filter (fun y => !xs.contains y)

/-- Row accesses of a CONVERT (R218): at each beat a row once, though it holds elements and scales. -/
def convertAccs (k : Skiver) (d a i o g b : Nat) : List Access :=
  let n := groupLen i o
  (List.range g).flatMap fun x =>
    let si := scaleSpan i n x
    let so := if o = 0x11 ∧ x % 2 = 0 then (0, 0) else scaleSpan o n x
    reads (rowsOnce (rangeRows (a + groupStride i n * x) (groupBytes i n) (b + x)) (rangeRows (k.sscale.toNat + si.1) si.2 (b + x)))
      ++ writes (rowsOnce (rangeRows (d + groupStride o n * x) (groupBytes o n) (b + 64 + x))
        (rangeRows (k.dscale.toNat + so.1) so.2 (b + 64 + x)))

/-- Element `j` of a group as an exact value with its flags, `scales` being the group's scale bytes (R165, R217). -/
def cvElem (i : Nat) (codes scales : Bytes) (j : Nat) : Val × Nat :=
  if i = 0x11 then
    (scaleBy (fieldAt scales 0 1) (.ofInt ((fieldAt codes j 1 : Int) - (if 128 ≤ fieldAt codes j 1 then 256 else 0))), 0)
  else
    let (v, fl) := decodeElem i (elemCode (fmtBits i) codes j)
    (if isMX i then scaleBy (fieldAt scales (j / 32) 1) v else v, fl)

/-- The values of group `g`, read at its beat (R218). -/
def cvGroup (s : State) (k : Skiver) (a i n b g : Nat) : List (Val × Nat) × Bytes :=
  let codes := readRange s (a + groupStride i n * g) (groupBytes i n) (b + g)
  let sp := scaleSpan i n g
  let scales := readRange s (k.sscale.toNat + sp.1) sp.2 (b + g)
  ((List.range n).map (cvElem i codes scales), scales)

/-- Cut a list into runs of `n`. -/
def chunks {α : Type} (n : Nat) : Nat → List α → List (List α)
  | 0, _ => []
  | m + 1, l => l.take n :: chunks n m (l.drop n)

/-- The encoded output of a run of values that starts at element `j0` of the op: element codes, scale bytes, flags. -/
def cvEncode (o mode : Nat) (sat : Bool) (seed vm beat j0 : Nat) (vs : List Val) : List Nat × Bytes × Nat :=
  let us := (List.range vs.length).map (fun j => drawOf mode seed vm beat (j0 + j))
  if isMX o then
    let bl := ((chunks 32 (vs.length / 32) vs).zip (chunks 32 (vs.length / 32) us)).map fun p => mxEncode p.1 o mode p.2
    (bl.flatMap (fun r => r.2.1), bl.map (fun r => BitVec.ofNat 8 r.1), bl.foldl (fun f r => f ||| r.2.2) 0)
  else if o = 0x11 then
    let r := aq8Encode vs mode us
    (r.2.1, [BitVec.ofNat 8 r.1], r.2.2)
  else
    let rs := (vs.zip us).map fun p => toFmt o p.1.rv mode sat p.2
    (rs.map (·.1), [], rs.foldl (fun f r => f ||| r.2) 0)

/-- The codes of a run converted exactly into the elements of another MX format (R217). -/
def cvExact (i o : Nat) (codes : List Nat) : List Nat :=
  codes.map fun c => (toFmt o (decodeElem i c).1.rv 0 true 0).1

/-- Group `g` of a CONVERT whose output does not need its neighbour (R217, R218). -/
def convertStep (d a i o mode : Nat) (sat : Bool) (k : Skiver) (pos : PlanPos) (s : State) (g : Nat) : State :=
  let n := groupLen i o
  let (vals, scales) := cvGroup s k a i n pos.beat g
  let t := pos.beat + 64 + g
  let dg := d + groupStride o n * g
  if exactPair i o then
    let src := readRange s (a + groupStride i n * g) (groupBytes i n) (pos.beat + g)
    let codes := cvExact i o ((List.range n).map (elemCode (fmtBits i) src))
    writeRange (writeRange s dg t (groupOut o codes)) (k.dscale.toNat + n / 32 * g) t scales
  else
    let r := cvEncode o mode sat k.seed.toNat pos.vmove pos.beat (n * g) (vals.map (·.1))
    let fl := vals.foldl (fun f e => f ||| e.2) r.2.2
    let s := writeRange s dg t (groupOut o r.1)
    raiseFlags (writeRange s (k.dscale.toNat + n / 32 * g) t r.2.1) fl pos

/-- Segment `x` of a CONVERT to AQ8: groups 2x and 2x + 1, the scale written with the second (R218, R219). -/
def convertSeg (d a i mode : Nat) (k : Skiver) (pos : PlanPos) (s : State) (x : Nat) : State :=
  let g0 := (cvGroup s k a i 256 pos.beat (2 * x)).1
  let g1 := (cvGroup s k a i 256 pos.beat (2 * x + 1)).1
  let vals := g0 ++ g1
  let r := cvEncode 0x11 mode false k.seed.toNat pos.vmove pos.beat (512 * x) (vals.map (·.1))
  let bytes := packCodes 8 r.1
  let s := writeRange s (d + 512 * x) (pos.beat + 64 + 2 * x) (bytes.take 256)
  let s := writeRange s (d + 512 * x + 256) (pos.beat + 65 + 2 * x) (bytes.drop 256)
  raiseFlags (writeRange s (k.dscale.toNat + x) (pos.beat + 65 + 2 * x) r.2.1) (vals.foldl (fun f e => f ||| e.2) r.2.2) pos

/-- CONVERT (R214, R217 to R219). -/
def execConvert (v : VMove) (dst src : AddrOp) (gM1 : BitVec 12) (ifmt ofmt : BitVec 5) (round : BitVec 2) (sat : Bool)
    (s : State) : Res :=
  let q := s.seqOf v
  let k := s.skOf (s.phys v)
  let g := gM1.toNat + 1
  issueEngine s v 3 (convertOk ifmt.toNat ofmt.toNat g && roundOk round)
    (convertAccs k (q.addr dst) (q.addr src) ifmt.toNat ofmt.toNat g (s.pos v).beat)
    fun pos s => addFlight s pos (.convert (q.addr dst) (q.addr src) g ifmt.toNat ofmt.toNat round.toNat sat k)

/-- KSET's effect (R214). -/
def ksetEff (v sscale dscale : Nat) (seed : W32) (_ : PlanPos) (s : State) : State :=
  s.setSk (s.phys v) { sscale := BitVec.ofNat 32 sscale, dscale := BitVec.ofNat 32 dscale, seed := seed }

/-- KSET (R214). -/
def execKset (v : VMove) (sscale dscale : AddrOp) (seed : W32) (s : State) : Res :=
  let q := s.seqOf v
  issueEngine s v 3 true [] (ksetEff v (q.addr sscale) (q.addr dscale) seed)

end Sys2Proof.Machine
end

