-- ==== Sys2Proof/Machine/Queues.lean ====
section
/-!
DEFINITION. Decoupling queues (R101 to R107): declared bounds, the issue of a command, retirement, and the ops WAIT and
TAKE with the events WAIT_RELEASE and WAIT_LIMIT.
-/

namespace Sys2Proof.Machine

/-- Queues of a movement type (R101). -/
def queueCount (ty : Nat) : Nat :=
  if ty = 6 then 8 else if ty = 5 then 4 else if ty = 7 then 16 else if ty = 8 then 4 else 0

/-- Key of a queue. -/
def qKey (v q : Nat) : Nat := 16 * v + q

/-- Declared depth and arrival share in rows of a queue (R101, R120). -/
def State.qDecl (s : State) (v q : Nat) : Nat × Nat :=
  match s.run with
  | some r => let d := tget (0, 0) r.plan.queues (qKey v q); (d.1, d.2 / 256)
  | none => (0, 0)

/-- Rows of an arrival share that are taken or reserved at plan beat `b` (R105, R106): rows arrived, rows of TAKEs that have
not moved out below it, and rows still to come. -/
def Queue.reserved (q : Queue) (b : Nat) : Nat :=
  q.rows.length + (q.moving.filter (fun m => decide (b ≤ m))).length + (q.cmds.map (·.rows)).sum

/-- Whether the running step is discarded (R387). -/
def State.discarded (s : State) : Bool := (s.run.map (·.discarded)).getD false

/-- The rows a finished command puts into the arrival share; a cancelled one's rows never arrive (R387). -/
def Cmd.arrivals (c : Cmd) : List ARow :=
  if c.cancelled then List.replicate c.rows { data := none }
  else c.result.map (fun b => { data := some b, flags := c.flags })

/-- Count retired every finished command at the head of a queue, in issue order (R102). -/
def retireHead : Nat → Queue → Queue
  | 0, q => q
  | n + 1, q =>
    match q.cmds with
    | c :: cs =>
      if c.done then
        retireHead n { q with cmds := cs, retired := q.retired + 1, rows := q.rows ++ c.arrivals }
      else q
    | [] => q

/-- Whether the companion of a movement cancels its commands now: a stack's, an analog weight die's or a link die's, in a
discarded step (R249, R307, R387, R458). -/
def State.cancelsAtOnce (s : State) (v : Nat) : Bool :=
  s.discarded && (s.vtype v == 5 || s.vtype v == 6 || s.vtype v == 7)

/-- Put a command into its queue, or end the step with QUEUE_BOUNDS (R102, R103, R106). In a discarded step a companion's
command is cancelled and counted retired at once (R387); an FSEND's rows still go out (R388, R458). -/
def pushCmd (s : State) (v q : Nat) (c : Cmd) : State :=
  let k := qKey v q
  let u := s.qOf k
  let d := s.qDecl v q
  if (u.issued - u.retired).toNat = d.1 then planFault s c.pos pfQueue 0 q
  else if d.2 < u.reserved c.pos.beat + c.rows then planFault s c.pos pfQueue 1 q
  else
    let c := if s.cancelsAtOnce v then { c with cancelled := true, done := true } else c
    let u := { u with issued := u.issued + 1, cmds := u.cmds ++ [c] }
    s.setQ k (if s.cancelsAtOnce v then retireHead u.cmds.length u else u)

/-- Retire what has finished in a queue. -/
def retireQ (s : State) (k : Nat) : State := s.setQ k (retireHead (s.qOf k).cmds.length (s.qOf k))

/-- The oldest command of a queue that has not finished, by place, once its data are read. -/
def Queue.oldest (q : Queue) : Option (Nat × Cmd) :=
  match (indexed q.cmds).find? (fun e => !e.2.done) with
  | some e => if e.2.ready then some e else none
  | none => none

/-- Replace the command at a place of a queue. -/
def setCmd (s : State) (k i : Nat) (c : Cmd) : State :=
  s.setQ k { s.qOf k with cmds := (s.qOf k).cmds.set i c }

/-- Finish the command at a place of a queue with its result rows, and retire what can retire. -/
def finishCmd (s : State) (k i : Nat) (rows : List Bytes) (flags : Nat := 0) : State :=
  match (s.qOf k).cmds[i]? with
  | some c => retireQ (setCmd s k i { c with done := true, result := rows, flags := flags }) k
  | none => s

/-- Cancel every unfinished command of a queue (R249, R307). -/
def cancelQ (s : State) (k : Nat) : State :=
  let u := s.qOf k
  retireQ (s.setQ k { u with cmds := u.cmds.map (fun c => if c.done then c else { c with done := true, cancelled := true }) }) k

/-- Issue a command op on a queue of a movement of type `ty` (R101, R103): its source rows `src` are read at their beats,
and then its companion has its data; data that are no rows are fixed at issue. `pre` is a check of the companion's own at
issue: a plan-fault code, detail and operand. -/
def issueCmd (s : State) (v : VMove) (ty q : Nat) (ok : Bool) (accs : List Access) (op : Instr) (src : List (Nat × Nat))
    (fixed : State → List Bytes) (rows : Nat) (pre : State → Option (Nat × Nat × Nat)) (post : State → State) : Res :=
  issueEngine s v ty ok (reads src ++ accs) fun pos s =>
    match pre s with
    | some (code, detail, operand) => planFault s pos code detail operand
    | none =>
      let s' := pushCmd s v q { op := op, pos := pos, opAddr := (s.seqOf v).opAddr, data := fixed s, ready := src.isEmpty
                                rows := rows }
      if (s'.qOf (qKey v q)).issued = (s.qOf (qKey v q)).issued then s'
      else if src.isEmpty then post s'
      else addFlight (post s') pos (.source q op src)

/-- The place in a queue of the command issued at a plan position, while it waits for its data. -/
def Queue.waiting (q : Queue) (pos : PlanPos) : Option (Nat × Cmd) :=
  (indexed q.cmds).find? (fun e => e.2.pos == pos && !e.2.ready)

/-- The source rows of a command have been read (R103). -/
def sourceEnd (v q : Nat) (rows : List Bytes) (pos : PlanPos) (s : State) : State :=
  match (s.qOf (qKey v q)).waiting pos with
  | some (i, c) => setCmd s (qKey v q) i { c with data := rows, ready := true }
  | none => s

/-! ### WAIT (R104, R107) -/

/-- Signed difference of two counts modulo 2^32. -/
def countDiff (a b : W32) : Int := (a - b).toInt

/-- The recorded slip that a wait site is still to be held for, in a replay with SLIPS (R537): all of a site's slip is held
at its first wait (DESIGN CHOICE, log 82). -/
def State.slipDue (s : State) (site : Nat) : Nat :=
  match s.run with
  | some r => if s.replaying && s.replay.slipsOn then tget 0 r.need site else 0
  | none => 0

/-- WAIT_LIMIT in force, in µs: values outside 1,000 to 60,000,000 are taken as the nearer bound (R107, R560). -/
def State.waitLimitNow (s : State) : Nat := min 60000000 (max 1000 s.waitLimit)

/-- WAIT's effect: never satisfiable, satisfied, or a hold (R45, R104, R107). -/
def waitEff (v : Nat) (target : W32) (queue : Nat) (site : Nat) (pos : PlanPos) (s : State) : State :=
  let u := s.qOf (qKey v queue)
  if 0 < countDiff target u.issued then planFault s pos pfWaitUnreachable 0 queue
  else
    let need := s.slipDue site
    if 0 ≤ countDiff u.retired target ∧ need = 0 then s
    else
      let q := s.seqOf v
      let h : Hold := { queue := queue, target := target, site := site, since := s.ns, need := need, limit := s.waitLimitNow
                        event := pos.event, opAddr := q.opAddr }
      (s.setSeq v { q with hold := some h }).onRun fun r => { r with need := tset 0 r.need site 0 }

/-- WAIT (R89, R104). -/
def execWait (v : VMove) (target : W32) (queue : Fin 16) (site : W16) (s : State) : Res :=
  issueOp s v false (decide (queue.val < queueCount (s.vtype v))) [] (waitEff v target queue site.toNat)

/-- Add slip beats to a wait site, saturating at 32 bits (R45, R46). -/
def addSlip (s : State) (site n : Nat) : State :=
  s.onRun fun r => if n = 0 then r else { r with slip := tset 0 r.slip site (satNat 32 (tget 0 r.slip site + n)) }

/-- A period spent holding at a WAIT: one slip beat, charged to its site, and at an X movement to the time spent in waits for
peers (R45, R46, R104). -/
def slipBeat (s : State) (v : Nat) (h : Hold) : State :=
  let s := addSlip (s.setSeq v { s.seqOf v with hold := some { h with slip := h.slip + 1 } }) h.site 1
  if s.vtype v == 7 then s.onRun fun r => { r with peer := satNat 32 (r.peer + 1) } else s

/-- Whether a hold's wait is met (R104), and has lasted its recorded slip (R537). -/
def holdMet (s : State) (v : Nat) (h : Hold) : Bool :=
  decide (0 ≤ countDiff (s.qOf (qKey v h.queue)).retired h.target) && decide (h.need ≤ h.slip)

/-- The stamp of a movement at the end of a slip, while the trace is on (R65, R526). -/
def stampTrace (s : State) (pos : PlanPos) : State :=
  traceAdd s { a := pos.beat % 2 ^ 48, vmove := pos.vmove, event := pos.event, kind := traceStamp, b := s.chron.count } pos

/-- End a hold: the trace has a RELEASE entry (R45, R526). -/
def releaseHold (s : State) (v : Nat) (h : Hold) : State :=
  let q := s.seqOf v
  let pos := { s.pos v with event := h.event }
  let s := s.setSeq v { q with hold := none }
  let s := s.setMv (s.phys v) { s.mvOf (s.phys v) with quiet := s.ns }
  let s := traceAdd s { a := h.opAddr, vmove := v, event := h.event, kind := traceRelease
                        b := pos.beat % 2 ^ 48 + satNat 16 h.slip * 2 ^ 48 } pos
  stampTrace s pos

/-- WAIT_RELEASE (R45, R104): the held wait's condition is met. -/
def execWaitRelease (v : VMove) (s : State) : Res :=
  match (s.seqOf v).hold with
  | some h => act (holdMet s v h = true) (releaseHold s v h) s
  | none => .next s

/-- Whether a hold is bounded by the fence limit: an X movement's, in a grid step (R107, R468). -/
def fenceBound (s : State) (v : Nat) : Bool := s.vtype v == 7 && ((s.run.map (·.gseq)).join).isSome

/-- WAIT_LIMIT (R107): a hold longer than the limit ends the step. -/
def execWaitLimit (v : VMove) (s : State) : Res :=
  match (s.seqOf v).hold with
  | some h =>
    act (h.limit * 1000 < s.ns - h.since ∧ fenceBound s v = false ∧ holdMet s v h = false ∧ s.stop.state ≠ 2)
      (breach s { pos := { s.pos v with event := h.event }, code := pfWaitLimit, operand := h.queue
                  loc := cdLoc (s.phys v) 0x013, opAddr := h.opAddr, stamp := s.chron.count }) s
  | none => .next s

/-! ### TAKE (R105, R106) -/

/-- Destination address and beat of row `k` of a TAKE (R105). -/
def takeRow (d : Nat) (d2 : Option Nat) (b k : Nat) : Nat × Nat :=
  match d2 with
  | none => (rowAt d k, b + k / 4)
  | some e =>
    if k % 8 < 4 then (rowAt d (4 * (k / 8) + k % 8 : Nat), b + k / 8)
    else (rowAt e (4 * (k / 8) + k % 8 - 4 : Nat), b + k / 8)

/-- Move one arrived row to its destination; a row that never arrived writes nothing (R105, R387). Its command's flags
are recorded at this TAKE (R228). -/
def takeStep (d : Nat) (d2 : Option Nat) (pos : PlanPos) (s : State) (e : Nat × ARow) : State :=
  let a := takeRow d d2 pos.beat e.1
  match e.2.data with
  | some b => raiseFlags (s.writeRow a.1 a.2 b) e.2.flags pos
  | none => s

/-- TAKE's effect: the rows are the TAKE's, and each moves out of the share at its beat, when it is counted taken (R102,
R105, R106). -/
def takeEff (v : Nat) (d : Nat) (queue rows : Nat) (d2 : Option Nat) (pos : PlanPos) (s : State) : State :=
  let k := qKey v queue
  let u := s.qOf k
  if u.rows.length < rows ∧ ¬ s.discarded then planFault s pos pfQueue 2 queue
  else
    let s := (indexed (u.rows.take rows)).foldl (takeStep d d2 pos) s
    let beats := (List.range rows).map fun k => (takeRow d d2 pos.beat k).2
    s.setQ k { s.qOf k with rows := u.rows.drop rows, moving := u.moving ++ beats }

/-- Rows of a queue that move out at beat `b` (R102, R105). -/
def Queue.moveOut (q : Queue) (b : Nat) : Queue :=
  { q with taken := q.taken + BitVec.ofNat 32 (q.moving.filter (fun m => decide (m ≤ b))).length
           moving := q.moving.filter (fun m => !decide (m ≤ b)) }

/-- The rows of a movement's TAKEs that move out at beat `b`. -/
def moveRows (s : State) (v b : Nat) : State :=
  (List.range (queueCount (s.vtype v))).foldl (fun s q =>
    let u := s.qOf (qKey v q)
    if u.moving.isEmpty then s else s.setQ (qKey v q) (u.moveOut b)) s

/-- TAKE (R89, R105). A split TAKE is carried by S and X movements only. -/
def execTake (v : VMove) (dst : AddrOp) (queue : Fin 16) (rowsM1 : BitVec 12) (split : Option AddrOp) (s : State) : Res :=
  let q := s.seqOf v
  let ty := s.vtype v
  let d := q.addr dst
  let d2 := split.map q.addr
  let n := rowsM1.toNat + 1
  issueOp s v false (decide (queue.val < queueCount ty) && (split.isNone || ty == 6 || ty == 7))
    (writes ((List.range n).map (takeRow d d2 (s.pos v).beat))) (takeEff v d queue n d2)

end Sys2Proof.Machine
end

