-- ==== Sys2Proof/Machine/Sequencer.lean ====
section
/-!
DEFINITION. The sequencer ops without a queue (R89 to R92): NOP, IDLE, AG_BASE, AG_STRIDE, NEST_OPEN and STEP_END.
-/

namespace Sys2Proof.Machine

/-- Words up to the STEP_END: what stands after it is no part of the stream (R74, R99). -/
def toEnd : List W128 → List W128
  | [] => []
  | w :: ws => let o := splitWord w; if o.eng = 0 ∧ o.op = 8 then [w] else w :: toEnd ws

/-- The stream of a virtual movement in a plan: its CODE section, or STEP_END alone (R73). -/
def Plan.codeOf (p : Plan) (v : Nat) : List W128 := toEnd (tget [joinWord (mkWord 0 0x8 0 0 0)] p.code v)

/-- The stream of op words of virtual movement `v` in the running step. -/
def State.code (s : State) (v : Nat) : List W128 :=
  match s.run with
  | some r => r.plan.codeOf v
  | none => []

/-- NOP (R89): no effect but its issue. -/
def execNop (v : VMove) (s : State) : Res := issueOp s v false true [] fun _ s => s

/-- IDLE's effect: the reference beat of the next op (R87, R89). -/
def idleEff (v : Nat) (count : W32) (pos : PlanPos) (s : State) : State :=
  s.setSeq v { s.seqOf v with ref := pos.beat + count.toNat }

/-- IDLE (R89): the count is 1 to 4,294,967,295. -/
def execIdle (v : VMove) (count : W32) (s : State) : Res := issueOp s v false (count != 0) [] (idleEff v count)

/-- AG_BASE's effect (R89, R90). -/
def agBaseEff (v g : Nat) (base : W32) (_ : PlanPos) (s : State) : State :=
  let q := s.seqOf v
  s.setSeq v { q with ag := tset {} q.ag g { tget {} q.ag g with base := base } }

/-- AG_BASE (R89). -/
def execAgBase (v : VMove) (g : Fin 4) (base : W32) (s : State) : Res := issueOp s v false true [] (agBaseEff v g base)

/-- AG_STRIDE's effect (R89, R90). -/
def agStrideEff (v g level : Nat) (stride : W32) (_ : PlanPos) (s : State) : State :=
  let q := s.seqOf v
  let a := tget {} q.ag g
  s.setSeq v { q with ag := tset {} q.ag g { a with stride := tset 0 a.stride level stride } }

/-- AG_STRIDE (R89). -/
def execAgStride (v : VMove) (g : Fin 4) (level : Fin 6) (stride : W32) (s : State) : Res :=
  issueOp s v false true [] (agStrideEff v g level stride)

/-- Index of the NEST_CLOSE that matches a body starting at word `i`, `depth` inner nests being open (R91). -/
def closeOf : List W128 → Nat → Nat → Nat
  | [], i, _ => i
  | w :: ws, i, depth =>
    let o := splitWord w
    if o.isOpen then closeOf ws (i + 1) (depth + 1)
    else if o.isClose then (if depth = 0 then i else closeOf ws (i + 1) (depth - 1))
    else closeOf ws (i + 1) depth

/-- NEST_OPEN's effect (R87, R91): iteration k starts at t + k × P; with a count of 0 the body is skipped. -/
def nestOpenEff (v : Nat) (count period : W32) (pos : PlanPos) (s : State) : State :=
  let q := s.seqOf v
  let close := closeOf ((s.code v).drop q.pos) q.pos 0
  if count = 0 then s.setSeq v { q with pos := close + 1 }
  else
    s.setSeq v { q with nest := { start := pos.beat, count := count.toNat, period := period.toNat, k := 0, body := q.pos
                                  close := close } :: q.nest }

/-- NEST_OPEN (R89, R91): its level is the number of levels already open. -/
def execNestOpen (v : VMove) (level : BitVec 3) (count period : W32) (s : State) : Res :=
  issueOp s v false (level.toNat == (s.seqOf v).nest.length && decide (level.toNat < 6) && period != 0) []
    (nestOpenEff v count period)

/-- STEP_END's effect (R74), with the trace's END entry (R526). -/
def stepEndEff (v : Nat) (pos : PlanPos) (s : State) : State :=
  let s := s.setSeq v { s.seqOf v with ended := some pos.beat }
  traceAdd s { a := 0, vmove := v, event := pos.event, kind := traceEnd, b := pos.step } pos

/-- STEP_END (R74, R89). -/
def execStepEnd (v : VMove) (s : State) : Res := issueOp s v false true [] (stepEndEff v)

end Sys2Proof.Machine
end

