-- ==== Sys2Proof/Machine/Analog.lean ====
section
/-!
DEFINITION. The analogue weight dies' commands (08_analog_weight_compute.md): the pane function, the ops PSET, MVM and
PREL, admission, the pass clock with estimates, flags, resolve, spill and audit, retirement and cancellation.
-/

namespace Sys2Proof.Machine

/-! ### Panes (R221 to R224) -/

/-- Virtual movement of die `d`: virtual W movement `d` (R242). -/
def State.wOf (s : State) (d : Nat) : Nat :=
  match s.run with
  | some r => nthOfType (r.plan.moves.map (·.1)) 5 d
  | none => nthOfType gridTypes 5 d

/-- Physical position of logical pane `l` (R222). -/
def AwDieSt.posOf (a : AwDieSt) (l : Nat) : Nat := tget (l % 64) a.map l

/-- Physical pane of logical pane `l`, as 68 × group + position. -/
def AwDieSt.paneOf (a : AwDieSt) (l : Nat) : Nat := 68 * (l / 64) + a.posOf l

/-- Shadow word of 16 weights: logical pane, input row, word 0 to 15 (R224). -/
def shadowKey (l row word : Nat) : Nat := 8192 * l + 16 * row + word

/-- Weight w[row][col] of logical pane `l`, from the shadow copy (R223, R224). -/
def AwDieSt.weight (a : AwDieSt) (l row col : Nat) : Int :=
  let c := fieldNat (tget (0 : W64) a.shadow (shadowKey l row (col / 16))).toNat (4 * (col % 16) + 3) (4 * (col % 16))
  if 8 ≤ c then (c : Int) - 16 else c

/-- Pane scale s[col] of logical pane `l` (R223). -/
def AwDieSt.scale (a : AwDieSt) (l col : Nat) : Val := fp32.decode (tget (0 : W32) a.scales (256 * l + col)).toNat

/-- plane_sum (R226): the exact sum of a column over the input rows whose bit `p` is 1. -/
def planeSum (a : AwDieSt) (seg : Bytes) (l p col : Nat) : Int :=
  ((indexed seg).map (fun e => if e.2.getLsbD p then a.weight l e.1 col else 0)).sum

/-- rne(n / d) for d > 0: nearest integer, ties to even (R226). -/
def rneDiv (n : Int) (d : Nat) : Int :=
  let q := n / d
  let r := (n % d).toNat
  if 2 * r < d then q else if d < 2 * r then q + 1 else if q % 2 = 0 then q else q + 1

/-- grain(s, g) (R226). -/
def grainOf (x : Int) (g : Nat) : Int := 2 ^ g * rneDiv x (2 ^ g)

/-- Weight of plane `p` in pane_partial (R226). -/
def planeWeight (p : Nat) : Int := if p = 7 then -128 else 2 ^ p

/-- pane_partial (R226). -/
def panePartial (a : AwDieSt) (seg : Bytes) (l g col : Nat) : Int :=
  ((List.range 8).map (fun p => planeWeight p * grainOf (planeSum a seg l p col) g)).sum

/-- out() (R227): the output code of an exact sum, and its flags. -/
def mvmOut (t : Val) (nan : Bool) (ofmt mode : Nat) (sat : Bool) (anchor : Int) : Nat × Nat :=
  if ofmt = 0x10 then
    if nan then (wNaN.toNat, 0) else let r := w128Term t anchor; (r.1.toNat, r.2)
  else if nan then (if ofmt = 1 then 0x7FC0 else 0x7FC0_0000, 0)
  else if isZeroVal t then (0, 0)
  else
    let f := fp32.round t.rv mode sat 0
    if ofmt = 1 then let b := bf16.round (fp32.decode f.1).rv mode sat 0; (b.1, f.2 ||| b.2) else f

/-- Rows per column-pane of a result (R244). -/
def mvmW (ofmt : Nat) : Nat := if ofmt = 0x10 then 16 else if ofmt = 1 then 2 else 4

/-! ### Commands in the shell (R245) -/

/-- Insert by plan beat, which is the issue order of one movement's engine ops (R88, R245). -/
def insertCmd (e : Nat × Nat × Cmd) : List (Nat × Nat × Cmd) → List (Nat × Nat × Cmd)
  | [] => [e]
  | x :: xs => if e.2.2.pos.beat < x.2.2.pos.beat then e :: x :: xs else x :: insertCmd e xs

/-- The unfinished commands of a movement's queues 0 to n − 1 in issue order: queue, place and command. -/
def liveCmds (s : State) (v n : Nat) : List (Nat × Nat × Cmd) :=
  ((List.range n).flatMap fun q => (indexed (s.qOf (qKey v q)).cmds).map fun e => (q, e.1, e.2)).foldl
    (fun l e => if e.2.2.done then l else insertCmd e l) []

/-- The pane set a PSET names (R239). -/
def psetOf : Instr → Option (Nat × PaneSet)
  | .pset _ first rstr cstr nr nc grain set _ =>
    some (set.val, { first := first.toNat, rstr := rstr.toNat, cstr := cstr.toNat, nr := nr.toNat + 1, nc := nc.toNat + 1
                     grain := grain.toNat + 3 })
  | _ => none

/-- SET of an MVM. -/
def mvmSet : Instr → Option Nat
  | .mvm _ _ _ _ _ _ _ _ set _ => some set.val
  | _ => none

/-- SET of a PREL. -/
def prelSet : Instr → Option Nat
  | .prel _ set _ => some set.val
  | _ => none

/-- The pane set that an op issued now on SET meets: of the latest PSET not finished, else the one held (R241). -/
def setAtIssue (s : State) (v d set : Nat) : Option PaneSet :=
  match ((liveCmds s v 4).reverse.findSome? fun e =>
      match psetOf e.2.2.op with
      | some (k, p) => if k = set then some p else none
      | none => none) with
  | some p => some p
  | none => tfind (s.awOf d).sets set

/-- Logical pane of row-pane `r` and column-pane `c` of a set (R239). -/
def PaneSet.pane (p : PaneSet) (r c : Nat) : Nat := p.first + r * p.rstr + c * p.cstr

/-! ### The ops (R239, R240, R243) -/

/-- PSET (R239). -/
def execPset (v : VMove) (first : BitVec 17) (rstr cstr : W16) (nrM1 ncM1 : BitVec 6) (grain : BitVec 2) (set : Fin 16)
    (queue : Fin 4) (s : State) : Res :=
  issueCmd s v 5 queue true [] (.pset v first rstr cstr nrM1 ncM1 grain set queue) [] (fun _ => []) 0 (fun _ => none) id

/-- Rows an MVM reads, with their beats: element rows then scale rows (R243). -/
def mvmRows (inp scale nv nr b : Nat) : List (Nat × Nat) :=
  (List.range (2 * nv * nr)).map (fun (k : Nat) => (rowAt inp k, b + k / 3))
    ++ (List.range ((nv * nr + 255) / 256)).map (fun (m : Nat) => (rowAt scale m, b + (2 * nv * nr + 2) / 3 + m))

/-- Whether the fields of an MVM obey R240. -/
def mvmOk (ofmt : BitVec 5) (round : BitVec 2) (anchor : BitVec 10) : Bool :=
  (ofmt == 0 || ofmt == 1 || ofmt == 0x10) && (round == 0 || round == 1) && (anchor == 0 || ofmt == 0x10)

/-- A lost pane that a set holds, if any (R275). -/
def AwDieSt.lostIn (a : AwDieSt) (p : PaneSet) : Option Nat :=
  a.lost.find? (fun l => (List.range p.nr).any fun r => (List.range p.nc).any fun c => p.pane r c == l)

/-- What follows the issue of an MVM: its input bytes are held, and a lost pane in its set ends the step (R241, R275). -/
def mvmIssued (d : Nat) (p : PaneSet) (bytes : Nat) (s : State) : State :=
  let a := s.awOf d
  let s := s.setAw d { a with inputUsed := a.inputUsed + bytes }
  match a.lostIn p with
  | some l => deviceFault s 0x0209 (groupLoc d (l / 64))
  | none => s

/-- MVM (R239, R240, R243, R244, R275). -/
def execMvm (v : VMove) (inp scale : AddrOp) (nvM1 : BitVec 6) (ofmt : BitVec 5) (round : BitVec 2) (sat : Bool)
    (anchor : BitVec 10) (set : Fin 16) (queue : Fin 4) (s : State) : Res :=
  let q := s.seqOf v
  let d := s.vord v
  let p := (setAtIssue s v d set).getD { first := 0, rstr := 0, cstr := 0, nr := 1, nc := 1, grain := 3 }
  let nv := nvM1.toNat + 1
  let rows := mvmRows (q.addr inp) (q.addr scale) nv p.nr (s.pos v).beat
  issueCmd s v 5 queue (mvmOk ofmt round anchor) [] (.mvm v inp scale nvM1 ofmt round sat anchor set queue) rows
    (fun _ => []) (nv * p.nc * mvmW ofmt.toNat) (fun _ => none)
    (mvmIssued d p (513 * nv * p.nr))

/-- PREL (R239). -/
def execPrel (v : VMove) (set : Fin 16) (queue : Fin 4) (s : State) : Res :=
  issueCmd s v 5 queue true [] (.prel v set queue) [] (fun _ => []) 0 (fun _ => none) id

/-! ### Admission (R245) -/

/-- Panes held by the sets of a die. -/
def AwDieSt.active (a : AwDieSt) : Nat := (a.sets.map (fun e => e.2.nr * e.2.nc)).sum

/-- Logical panes of a set. -/
def PaneSet.panes (p : PaneSet) : List Nat :=
  (List.range p.nr).flatMap fun r => (List.range p.nc).map fun c => p.pane r c

/-- Whether a pane of a set is being moved to a spare, or is under a self-test that has begun (R249's cases, R270, R272;
DEDUCED for the self-test, log 150). -/
def AwDieSt.moving (a : AwDieSt) (p : PaneSet) : Bool :=
  p.panes.any fun l =>
    let k := a.paneOf l
    a.lasting.contains k || a.programming.any (fun e => e.2.logical == l)
      || (match tfind a.tests k with | some t => decide (1 ≤ t.phase) | none => false)

/-- The next PSET to admit, strictly in issue order (R245). -/
def nextPset (s : State) (v : Nat) : Option (Nat × Nat × Cmd × Nat × PaneSet) :=
  (liveCmds s v 4).findSome? fun e =>
    if e.2.2.begun then none else (psetOf e.2.2.op).map fun p => (e.1, e.2.1, e.2.2, p.1, p.2)

/-- PSET_ADMIT (R245): the oldest waiting PSET is admitted once the active pane budget has room. -/
def execPsetAdmit (d : AwDie) (s : State) : Res :=
  let v := s.wOf d
  let a := s.awOf d
  match nextPset s v with
  | some (q, i, c, set, p) =>
    act (a.state = 3 ∧ tfind a.sets set = none ∧ a.active + p.nr * p.nc ≤ 4096 ∧ a.moving p = false)
      ((setCmd s (qKey v q) i { c with begun := true }).setAw d
        { a with sets := tput set { p with beat := c.pos.beat } a.sets }) s
  | none => .next s

/-- PANES_READY (R245): the panes of an admitted set are awake, and its PSET retires. -/
def execPanesReady (d : AwDie) (set : Fin 16) (s : State) : Res :=
  let v := s.wOf d
  let a := s.awOf d
  match tfind a.sets set with
  | some p =>
    match (liveCmds s v 4).find? (fun e => e.2.2.begun && (psetOf e.2.2.op).map (·.1) == some set.val) with
    | some (q, i, _) =>
      act (p.ready = false) (finishCmd (s.setAw d { a with sets := tput set { p with ready := true } a.sets }) (qKey v q) i [])
        s
    | none => .next s
  | none => .next s

/-! ### MVMs in progress (R230, R245) -/

/-- What one MVM in progress asks for: its command and its set. -/
structure MvmJob where
  set  : Nat
  pset : PaneSet
  cmd  : Cmd
  queue : Nat
  place : Nat
  nv    : Nat
  ofmt  : Nat
  mode  : Nat
  sat   : Bool
  anchor : Int
deriving DecidableEq, Repr

/-- Issue beat of a job's MVM: the name of its run. -/
def MvmJob.beat (j : MvmJob) : Nat := j.cmd.pos.beat

/-- The set that an MVM meets, once it is held: no PSET of that SET issued before it still waits (R245). -/
def heldFor (s : State) (d : Nat) (c : Cmd) (set : Nat) : Option PaneSet :=
  let waits := (liveCmds s (s.wOf d) 4).any fun e =>
    !e.2.2.begun && decide (e.2.2.pos.beat < c.pos.beat) && (psetOf e.2.2.op).map (·.1) == some set
  match tfind (s.awOf d).sets set with
  | some p => if waits || decide (c.pos.beat ≤ p.beat) then none else some p
  | none => none

/-- The job of an MVM command on a held set. -/
def jobOf (s : State) (d : Nat) (e : Nat × Nat × Cmd) : Option MvmJob :=
  match e.2.2.op with
  | .mvm _ _ _ nv ofmt round sat anchor set _ =>
    (heldFor s d e.2.2 set).map fun p =>
      { set := set.val, pset := p, cmd := e.2.2, queue := e.1, place := e.2.1, nv := nv.toNat + 1, ofmt := ofmt.toNat
        mode := round.toNat, sat := sat, anchor := anchorOf anchor }
  | _ => none

/-- The MVMs of a die whose sets are held, in issue order. -/
def jobs (s : State) (d : Nat) : List MvmJob := (liveCmds s (s.wOf d) 4).filterMap (jobOf s d)

/-- Segment (v, r) of a job's input: 512 element bytes and the scale byte (R243). -/
def MvmJob.seg (j : MvmJob) (v r : Nat) : Bytes × Nat :=
  let sg := j.pset.nr * v + r
  let base := 2 * j.nv * j.pset.nr
  (j.cmd.data.getD (2 * sg) [] ++ j.cmd.data.getD (2 * sg + 1) [], fieldAt (j.cmd.data.getD (base + sg / 256) []) (sg % 256) 1)

/-- Whether an MVM may take passes: its set's panes are awake and its input is here (R230). -/
def MvmJob.ready (j : MvmJob) : Bool := j.pset.ready && j.cmd.ready

/-- Begin every MVM that may take passes. -/
def startMvms (s : State) (d : Nat) : State :=
  (jobs s d).foldl (fun s j =>
    if j.ready && !j.cmd.begun then
      let s := setCmd s (qKey (s.wOf d) j.queue) j.place { j.cmd with begun := true }
      s.setAw d { s.awOf d with runs := tput j.beat {} (s.awOf d).runs }
    else s) s

/-! ### Passes (R230, R231, R234, R247, R264) -/

/-- Whether an estimate in sixty-fourths lies within the guard window of a boundary of grain `g` (R231): an odd multiple
of 2^(g − 1), within GW × 2^(g − 6), boundary included. -/
def inWindow (est64 : Int) (g gw : Nat) : Bool :=
  let period : Int := 64 * 2 ^ g
  let r := (est64 + period / 2) % period
  decide (r ≤ gw * 2 ^ g) || decide (period - gw * 2 ^ g ≤ r)

/-- GW in force for a grain in a group (R231, R263). -/
def AwDieSt.gw (a : AwDieSt) (g grain : Nat) : Nat := (tget {} a.trim g).gw.getD (grain - 3) 1

/-- The converter's value of an estimate outside every window (R231). -/
def converter (est64 : Int) (g : Nat) : Int := 2 ^ g * rneDiv est64 (64 * 2 ^ g)

/-- The analogue sum of a column-plane: the estimate given, else the exact sum (log 40). -/
def estOf (ests : List PaneEst) (g pos col : Nat) (exact : Int) : Int :=
  match ests.find? (fun e => e.group == g && e.pos == pos && e.col == col) with
  | some e => e.est64
  | none => 64 * exact

/-- One pass that a pane takes at a tick: of which job, pane of its set, vector and plane, and the GW of that vector
(R230, R264). -/
structure Pass where
  job   : MvmJob
  pane  : Nat
  v     : Nat
  plane : Nat
  gw    : Nat
deriving DecidableEq, Repr

/-- Logical pane of pane `i` of a job's set. -/
def MvmJob.pane (j : MvmJob) (i : Nat) : Nat := j.pset.pane (i / j.pset.nc) (i % j.pset.nc)

/-- What a pane of a set does next (R230, R245): the next plane of its vector; else plane 0 of the next vector of its MVM;
else of the set's next MVM in issue order. GW is that of the trim record in force as a vector begins (R264). -/
def nextPass (a : AwDieSt) (js : List MvmJob) (p : PaneSet) (i : Nat) : Option Pass :=
  let at_ := tget {} p.at_ i
  let begin_ := fun (j : MvmJob) v => ({ job := j, pane := i, v := v, plane := 0, gw := a.gw (j.pane i / 64) p.grain } : Pass)
  let same := js.find? (fun j => at_.mvm == some j.beat)
  match same with
  | some j =>
    if at_.plane < 8 then some { job := j, pane := i, v := at_.v, plane := at_.plane, gw := at_.gw }
    else if at_.v + 1 < j.nv then some (begin_ j (at_.v + 1))
    else match js.find? (fun x => decide (j.beat < x.beat)) with
      | some x => if x.ready then some (begin_ x 0) else none
      | none => none
  | none =>
    match js.find? (fun x => decide (∀ b ∈ at_.mvm, b < x.beat)) with
    | some x => if x.ready then some (begin_ x 0) else none
    | none => none

/-- Whether a group's panes may take a pass at this tick: not in its maintenance period, nor while column-planes that its
resolve queue must hold fill it (R234, R247). -/
def AwDieSt.groupOpen (a : AwDieSt) (g : Nat) : Bool :=
  decide (a.tick % 50 ≠ g % 50) && decide ((tget [] a.resolve g).length + (tget [] a.spill g).length < 256)

/-- The passes of one set at a tick. -/
def setPasses (a : AwDieSt) (js : List MvmJob) (set : Nat) (p : PaneSet) : List Pass :=
  (List.range (p.nr * p.nc)).filterMap fun i =>
    if a.groupOpen (p.pane (i / p.nc) (i % p.nc) / 64) then nextPass a (js.filter (fun j => j.set == set)) p i else none

/-- Where a pass stands in the order of R233: command issue order, then physical pane position. -/
def Pass.before (a : AwDieSt) (x y : Pass) : Bool :=
  decide (x.job.beat < y.job.beat)
    || (x.job.beat == y.job.beat && decide (a.posOf (x.job.pane x.pane) < a.posOf (y.job.pane y.pane)))

/-- Insert a pass in the order of R233. -/
def insertPass (a : AwDieSt) (x : Pass) : List Pass → List Pass
  | [] => [x]
  | y :: ys => if x.before a y then x :: y :: ys else y :: insertPass a x ys

/-- The passes that a die's panes take at a tick, in the order of R233. -/
def passes (s : State) (d : Nat) : List Pass :=
  let a := s.awOf d
  (a.sets.flatMap fun e => setPasses a (jobs s d) e.1 e.2).foldl (fun l x => insertPass a x l) []

/-- Put a pane into resolve-all mode (R236). -/
def AwDieSt.resolving (a : AwDieSt) (k : Nat) : AwDieSt :=
  { a with resolveAll := if a.resolveAll.contains k then a.resolveAll else a.resolveAll ++ [k] }

/-- Request a self-test of a physical pane for a cause (R268). -/
def requestTest (a : AwDieSt) (k cause : Nat) : AwDieSt :=
  match tfind a.tests k with
  | some t => { a with tests := tput k { t with causes := t.causes ||| 2 ^ cause } a.tests }
  | none => { a with tests := tput k { causes := 2 ^ cause } a.tests }

/-- Count column-planes and flags of a pane for the rate monitor; after 65,536 of them the flagged fraction is held
against RATE_FACTOR times the fraction measured at the pane's last calibration, which is of 256 column-planes (R237, R267).
A pane that was never calibrated has no such threshold. -/
def rateCount (s : State) (d g pos grain flags : Nat) : State :=
  let a := s.awOf d
  let k := 68 * g + pos
  let r := tget (0, 0) a.rate k
  let n := r.1 + 256
  let f := r.2 + flags
  if n < 65536 then s.setAw d { a with rate := tput k (n, f) a.rate }
  else
    let a := { a with rate := tdel k a.rate }
    match tfind (tget {} a.trim g).rate pos with
    | some c =>
      if (s.trimOf d).rateFactor * c.getD (grain - 3) 0 * 256 < f then
        raise (s.setAw d (requestTest a k 1)) 0x0202 (paneLoc d g pos) [] none
      else s.setAw d a
    | none => s.setAw d a

/-- One column of one pass: its contribution where the converter settles it; whether it is flagged; and the converter value
of an audit (R231, R235, R236). -/
def passCol (a : AwDieSt) (ests : List PaneEst) (audits : List AuditPick) (seg : Bytes) (l grain gw p col : Nat) :
    Option Int × Bool × Option Int :=
  let g := l / 64
  let pos := a.posOf l
  let est := estOf ests g pos col (planeSum a seg l p col)
  if inWindow est grain gw then (none, true, none)
  else if a.resolveAll.contains (68 * g + pos) then (none, false, none)
  else
    let cv := converter est grain
    if audits.any (fun x => x.group == g && x.pos == pos && x.col == col) then (none, false, some cv) else (some cv, false, none)

/-- A vector after one pass of a pane: what the converter settled is added, the rest waits. -/
def VecRun.pass (x : VecRun) (p : Pass) (res : List (Nat × Option Int × Bool × Option Int)) : VecRun :=
  let q := res.foldl (fun (t : Tbl Int) e =>
    match e.2.1 with
    | some y => tset 0 t (256 * p.pane + e.1) (tget 0 t (256 * p.pane + e.1) + planeWeight p.plane * y)
    | none => t) x.q
  let settled := (res.filter (fun e => e.2.1.isSome)).map (·.1)
  { x with q := q, passed := if p.plane = 7 then x.passed + 1 else x.passed
           unsettled := x.unsettled + (res.length - settled.length), conv := x.conv ++ [(p.pane, p.plane, settled)] }

/-- A pane takes a pass (R230 to R236). -/
def takePass (s : State) (d : Nat) (ests : List PaneEst) (audits : List AuditPick) (p : Pass) : State :=
  let a := s.awOf d
  let j := p.job
  let l := j.pane p.pane
  let g := l / 64
  let k := a.paneOf l
  let seg := (j.seg p.v (p.pane / j.pset.nc)).1
  let res := (List.range 256).map fun col => (col, passCol a ests audits seg l j.pset.grain p.gw p.plane col)
  let wait := res.filterMap fun e =>
    if e.2.1.isSome then none
    else some ({ mvm := j.beat, v := p.v, pane := p.pane, col := e.1, plane := p.plane, audit := e.2.2.2 } : ColPlane)
  let run := tget {} a.runs j.beat
  let vec := (tget {} run.vecs p.v).pass p res
  let sets := match tfind a.sets j.set with
    | some ps => tput j.set { ps with at_ := tput p.pane { mvm := some j.beat, v := p.v, plane := p.plane + 1, gw := p.gw } ps.at_ }
        a.sets
    | none => a.sets
  let a := { a with sets := sets, runs := tput j.beat { run with vecs := tput p.v vec run.vecs } a.runs
                    spill := tset [] a.spill g (tget [] a.spill g ++ wait)
                    since := if p.plane = 7 then tput k (tget 0 a.since k + 1) a.since else a.since }
  rateCount (s.setAw d a) d g (a.posOf l) j.pset.grain (res.filter (fun e => e.2.2.1)).length

/-! ### Resolve, spill and audit (R233 to R238) -/

/-- A logical pane whose shadow copy has an uncorrectable word is lost (R275). -/
def losePane (s : State) (d l : Nat) : State :=
  let a := s.awOf d
  if a.lost.contains l then s
  else raise (s.setAw d { a with lost := a.lost ++ [l] }) 0x0209 (groupLoc d (l / 64)) (packDetail [(4, l)])

/-- Shadow words that have failed (R224, R238). -/
def upsetShadow (d : Nat) (us : List ShadowUpset) (s : State) : State :=
  us.foldl (fun s u =>
    let a := s.awOf d
    let k := shadowKey u.pane.toNat u.row u.word
    s.setAw d (if u.bad then { a with shadowBad := insertNat k a.shadowBad }
      else { a with shadowWeak := insertNat k a.shadowWeak })) s

/-- AW_SHADOW_CORRECTED and AW_SHADOW_FATAL carry the pane and the weight row of the word (R238). -/
def shadowEvent (code d l row : Nat) (s : State) : State :=
  raise s code (blockLoc (9 + d) 0x802) (packDetail [(1, (s.awOf d).posOf l), (4, l), (2, row)])

/-- The ECC outcome of a resolve's shadow reads (R238, R275): every correctable word is reported; an uncorrectable one loses
the pane and ends the step. -/
def shadowRead (s : State) (d l col : Nat) : State :=
  let a := s.awOf d
  let hit := fun (ks : List Nat) => (List.range 512).filter (fun r => ks.contains (shadowKey l r (col / 16)))
  let s := (hit (a.shadowWeak.filter (fun k => !a.shadowBad.contains k))).foldl (fun s r => shadowEvent 0x0203 d l r s) s
  (hit a.shadowBad).foldl (fun s r =>
    deviceFault (losePane (shadowEvent 0x0204 d l r s) d l) 0x0204 (blockLoc (9 + d) 0x802)) s

/-- Change one vector of a run. -/
def AwDieSt.setVec (a : AwDieSt) (beat v : Nat) (x : VecRun) : AwDieSt :=
  let run := tget {} a.runs beat
  { a with runs := tput beat { run with vecs := tput v x run.vecs } a.runs }

/-- The column-planes of a pane in a vector that the converter settled, to be resolved again after a failed audit (R236). -/
def VecRun.redo (x : VecRun) (mvm v pane : Nat) : List ColPlane :=
  (x.conv.filter (fun e => e.1 == pane)).flatMap fun e =>
    e.2.2.map fun col => { mvm := mvm, v := v, pane := pane, col := col, plane := e.2.1, redo := true }

/-- An audit's outcome (R236): a match restarts the pane's count; a mismatch puts the pane into resolve-all mode, requests
its self-test, and has every column-plane that the converter settled for this vector resolved again. -/
def auditOutcome (s : State) (d : Nat) (j : MvmJob) (x : ColPlane) (conv exact : Int) (l : Nat) : State :=
  let a := s.awOf d
  let k := a.paneOf l
  if conv = exact then s.setAw d { a with since := tdel k a.since }
  else
    let u := s.qOf (qKey (s.wOf d) j.queue)
    let det := packDetail [(1, j.queue), (4, (u.retired.toNat + j.place + 1) % 2 ^ 32), (1, x.plane), (1, x.col),
                           (2, (conv % 65536).toNat), (2, (exact % 65536).toNat), (4, satNat 32 (tget 0 a.since k))]
    let a := requestTest (a.resolving k) k 0
    let vec := tget {} (tget {} a.runs x.mvm).vecs x.v
    let more := if vec.again.contains x.pane then [] else vec.redo x.mvm x.v x.pane
    let a := a.setVec x.mvm x.v { vec with again := insertNat x.pane vec.again, unsettled := vec.unsettled + more.length }
    let a := { a with spill := tset [] a.spill (l / 64) (tget [] a.spill (l / 64) ++ more) }
    setSflag (raise (s.setAw d a) 0x0201 (paneLoc d (l / 64) (a.posOf l)) det none) 2

/-- Resolve one column-plane (R233): the exact sum's grain value takes the estimate's place. -/
def resolve1 (s : State) (d : Nat) (x : ColPlane) : State :=
  match (jobs s d).find? (fun j => j.beat == x.mvm) with
  | none => s
  | some j =>
    let a := s.awOf d
    let l := j.pane x.pane
    let ex := grainOf (planeSum a (j.seg x.v (x.pane / j.pset.nc)).1 l x.plane x.col) j.pset.grain
    let k := 256 * x.pane + x.col
    let vec := tget {} (tget {} a.runs x.mvm).vecs x.v
    let vec := { vec with unsettled := vec.unsettled - 1
                          q := if x.redo then vec.q else tset 0 vec.q k (tget 0 vec.q k + planeWeight x.plane * ex) }
    let s := shadowRead (s.setAw d (a.setVec x.mvm x.v vec)) d l x.col
    match x.audit with
    | some cv => auditOutcome s d j x cv ex l
    | none => s

/-- Serve a group: at most 16 column-planes a pass period, oldest first; the queue then holds at most 256 of the rest, and
what one pass brings beyond them waits behind it (R233, R234; DESIGN CHOICE, log 149). -/
def resolveGroup (s : State) (d g : Nat) : State :=
  let a := s.awOf d
  let q := tget [] a.resolve g ++ tget [] a.spill g
  let rest := q.drop 16
  let s := s.setAw d { a with resolve := tset [] a.resolve g (rest.take 256), spill := tset [] a.spill g (rest.drop 256) }
  (q.take 16).foldl (fun s x => resolve1 s d x) s

/-! ### Outputs and retirement (R226, R227, R234, R244, R245) -/

/-- The outputs of a finished vector (R226, R227); a pane whose audit failed is taken from its exact sums (R236). -/
def vectorOut (a : AwDieSt) (j : MvmJob) (v : Nat) (vec : VecRun) (c : Nat) : Bytes × Nat :=
  let res := (List.range 256).map fun col =>
    let nan := (List.range j.pset.nr).any (fun r => (j.seg v r).2 == 0xFF)
    let t := (List.range j.pset.nr).foldl (fun acc r =>
      let e := (j.seg v r).2
      if e = 0xFF then acc
      else
        let l := j.pset.pane r c
        let i := r * j.pset.nc + c
        let q := if vec.again.contains i then panePartial a (j.seg v r).1 l j.pset.grain col else tget 0 vec.q (256 * i + col)
        (addVal acc (scale2 ((e : Int) - 127) (mulVal (.ofInt q) (a.scale l col)).1)).1) (.fin false 0 0)
    mvmOut t nan j.ofmt j.mode j.sat j.anchor
  (packWide (fmtBits j.ofmt) (res.map (·.1)), res.foldl (fun f e => f ||| e.2) 0)

/-- Whether every column-plane of a vector in every pane of its set is settled (R234). -/
def VecRun.complete (x : VecRun) (p : PaneSet) : Bool := x.passed == p.nr * p.nc && x.unsettled == 0

/-- A finished vector's rows join its MVM's result (R234). -/
def finishVector (a : AwDieSt) (j : MvmJob) (v : Nat) (vec : VecRun) : AwDieSt :=
  let outs := (List.range j.pset.nc).map (vectorOut a j v vec)
  let run := tget {} a.runs j.beat
  { a with runs := tput j.beat { vecs := tdel v run.vecs, outs := tput v (outs.flatMap fun o => cutRows (mvmW j.ofmt) o.1) run.outs
                                 flags := outs.foldl (fun f o => f ||| o.2) run.flags } a.runs }

/-- Let the finished vectors of an MVM leave. -/
def finishVectors (s : State) (d : Nat) (j : MvmJob) : State :=
  s.setAw d ((tget {} (s.awOf d).runs j.beat).vecs.foldl (fun a e =>
    if e.2.complete j.pset then finishVector a j e.1 e.2 else a) (s.awOf d))

/-- PASS_TICK (R230): MVMs start, every pane that may takes its next pass, the resolve engine serves every group, and
finished vectors leave. The estimates, the audit's picks and the failing shadow words come from the part (R231, R235,
R238). -/
def passTickEff (d : Nat) (ests : List PaneEst) (audits : List AuditPick) (upsets : List ShadowUpset) (s : State) : State :=
  let s := startMvms (upsetShadow d upsets s) d
  let s := (passes s d).foldl (fun s p => takePass s d ests audits p) s
  let gs := ((s.awOf d).resolve.map (·.1) ++ (s.awOf d).spill.map (·.1)).dedup
  let s := gs.foldl (fun s g => resolveGroup s d g) s
  let s := (jobs s d).foldl (fun s j => finishVectors s d j) s
  s.setAw d { s.awOf d with tick := (s.awOf d).tick + 1 }

/-- PASS_TICK: the pass clock runs while the die is READY. -/
def execPassTick (d : AwDie) (ests : List PaneEst) (audits : List AuditPick) (s : State) (upsets : List ShadowUpset := []) : Res :=
  act ((s.awOf d).state = 3) (passTickEff d ests audits upsets s) s

/-- MVM_RETIRE: the oldest MVM of the queue with every vector settled retires; its rows enter the arrival share (R244,
R245). -/
def execMvmRetire (d : AwDie) (queue : Fin 4) (s : State) : Res :=
  let a := s.awOf d
  match (jobs s d).find? (fun j => j.queue == queue.val && (tget {} a.runs j.beat).outs.length == j.nv) with
  | some j =>
    let run := tget {} a.runs j.beat
    .next (finishCmd (s.setAw d { a with runs := tdel j.beat a.runs, inputUsed := a.inputUsed - 513 * j.nv * j.pset.nr })
      (qKey (s.wOf d) queue) j.place (run.outs.flatMap (·.2)) run.flags)
  | none => .next s

/-! ### Release (R245, R249, R259, R271, R274) -/

/-- Spares of a group that are free: not in use by a logical pane and not retired (R271). -/
def AwDieSt.freeSpares (a : AwDieSt) (g : Nat) : List Nat :=
  ([64, 65, 66, 67].filter fun p =>
    !(a.map.any (fun e => e.1 / 64 == g && e.2 == p)) && !a.retired.contains (68 * g + p))

/-- The logical pane that a physical pane holds, if any (R222). -/
def AwDieSt.logicalOf (a : AwDieSt) (g pos : Nat) : Option Nat :=
  ((List.range 64).map (· + 64 * g)).find? (fun l => a.posOf l == pos)

/-- A LASTING pane for which no spare is free: in resolve-all mode permanently, and its group degraded (R274). -/
def AwDieSt.stick (a : AwDieSt) (g k : Nat) : AwDieSt :=
  { a.resolving k with lasting := a.lasting.filter (· != k), stuck := insertNat k a.stuck
                       degraded := if a.degraded.contains g then a.degraded else a.degraded ++ [g] }

/-- Class a physical pane LASTING (R271, R274): it waits for a spare in resolve-all mode; with no spare free the group is
degraded; an idle spare is simply retired. -/
def setLasting (s : State) (d g pos : Nat) : State :=
  let a := s.awOf d
  let k := 68 * g + pos
  let a := { a with tests := tdel k a.tests }
  match a.logicalOf g pos with
  | none => s.setAw d { a with retired := insertNat k a.retired, resolveAll := a.resolveAll.filter (· != k) }
  | some _ =>
    if (a.freeSpares g).isEmpty then
      let s' := s.setAw d (a.stick g k)
      if a.stuck.contains k then s' else raise s' 0x0208 (groupLoc d g)
    else s.setAw d { a.resolving k with lasting := if a.lasting.contains k then a.lasting else a.lasting ++ [k] }

/-- At a set's release, a pane whose program count has reached 10,000 is classed LASTING with cause WORN (R259), unless it
is LASTING already. -/
def wornStep (d : Nat) (s : State) (l : Nat) : State :=
  let a := s.awOf d
  let g := l / 64
  let pos := a.posOf l
  if 10000 ≤ tget 0 a.counts (68 * g + pos) ∧ a.lasting.contains (68 * g + pos) = false
      ∧ a.stuck.contains (68 * g + pos) = false then
    setLasting (raise s 0x0206 (paneLoc d g pos) (packDetail [(1, 2), (1, 8)])) d g pos
  else s

/-- PREL_RELEASE: every MVM issued earlier on the set has retired; the set is released and the PREL retires (R245). -/
def execPrelRelease (d : AwDie) (queue : Fin 4) (s : State) : Res :=
  let v := s.wOf d
  match (liveCmds s v 4).find? (fun e => e.1 == queue.val && (prelSet e.2.2.op).isSome) with
  | some (q, i, c) =>
    let set := (prelSet c.op).getD 0
    let a := s.awOf d
    act ((liveCmds s v 4).all (fun e => decide (c.pos.beat ≤ e.2.2.pos.beat) || (mvmSet e.2.2.op != some set
          && (psetOf e.2.2.op).map (·.1) != some set)) = true)
      (let ps := match tfind a.sets set with | some p => p.panes | none => []
       ps.foldl (wornStep d) (finishCmd (s.setAw d { a with sets := tdel set a.sets }) (qKey v q) i [])) s
  | none => .next s

/-- Release every set of a die with its work (R249): the panes whose count says so are classed (R259). -/
def releaseSets (d : Nat) (s : State) : State :=
  let a := s.awOf d
  (a.sets.flatMap (fun e => e.2.panes)).foldl (wornStep d)
    (s.setAw d { a with sets := [], runs := [], resolve := [], spill := [], inputUsed := 0 })

/-! ### Faults and cancellation (R248, R249) -/

/-- AW_LINK_FATAL (R248). -/
def execAwLinkFatal (d : AwDie) (s : State) : Res :=
  let l := blockLoc (9 + d) 0x803
  .next (deviceFault (raise s 0x0205 l) 0x0205 l)

/-- Whether the running step has ended early or is discarded, so that companions cancel (R110, R249, R307, R387). -/
def State.cancelling (s : State) : Bool :=
  match s.run with
  | some r => r.stopped || r.discarded || !r.breaches.isEmpty || r.abort.isSome
  | none => false

/-- AW_STEP_CANCEL (R249): the pass in progress is complete; every unfinished command is cancelled and counted retired,
and every set is released. -/
def execAwStepCancel (d : AwDie) (s : State) : Res :=
  let v := s.wOf d
  act (s.cancelling = true) ((List.range 4).foldl (fun s q => cancelQ s (qKey v q)) (releaseSets d s)) s

end Sys2Proof.Machine
end

