-- ==== Sys2Proof/Machine/Upkeep.lean ====
section
/-!
DEFINITION. Upkeep of the analogue dies (09_analog_weight_upkeep.md): maintenance passes and the trim record, group
refresh, self-test and its classification, retirement to a spare, the shadow scrub, write-verify programming and INIT.
-/

namespace Sys2Proof.Machine

/-! ### Cells and counts (R223, R256, R259) -/

/-- Level a cell should hold: that of its logical pane's shadow copy, 0 for an idle spare (R223, R224, R269). -/
def wantLevel (a : AwDieSt) (g pos row col : Nat) (neg : Bool) : Nat :=
  match a.logicalOf g pos with
  | none => 0
  | some l =>
    let w := a.weight l row col
    if neg then (if w < 0 then (-w).toNat else 0) else (if 0 < w then w.toNat else 0)

/-- Key of a cell's content. -/
def cellKey (g pos row col : Nat) (neg : Bool) : Nat := 262144 * (68 * g + pos) + 512 * row + 2 * col + natOfBool neg

/-- Whether a level in sixty-fourths lies within VERIFY_WINDOW of a level (R256). -/
def inVerify (win level64 want : Nat) : Bool := decide (level64 ≤ 64 * want + win ∧ 64 * want ≤ level64 + win)

/-- The cells of a read outside their windows (R269): the cells as read, then those whose content is known to differ. -/
def badCells (s : State) (a : AwDieSt) (g pos : Nat) (cells : List CellRead) : List (Nat × Nat × Bool) :=
  let win := (a.trimTab.getD s.tbl.trim).verifyWindow
  let read := cells.map fun c => (c.row.val, c.col.val, c.neg, c.level64)
  let held := (a.cells.filter (fun e => e.1 / 262144 == 68 * g + pos)).map fun e =>
    let o := e.1 % 262144
    (o / 512, o % 512 / 2, o % 2 == 1, e.2)
  let all := read ++ held.filter (fun h => !read.any (fun c => c.1 == h.1 && c.2.1 == h.2.1 && c.2.2.1 == h.2.2.1))
  ((all.filter (fun c => !inVerify win c.2.2.2 (wantLevel a g pos c.1 c.2.1 c.2.2.1))).map
    (fun c => (c.1, c.2.1, c.2.2.1))).dedup

/-- The content of a pane's cells forgotten: every cell holds its level again. -/
def cleanCells (a : AwDieSt) (k : Nat) : AwDieSt := { a with cells := a.cells.filter (fun e => e.1 / 262144 != k) }

/-- One erase-and-program of a physical pane is counted; a count that reaches 9,000 raises AW_WEAR (R259; DEDUCED for which
count, log 151). -/
def countProgram (s : State) (d g pos : Nat) : State :=
  let a := s.awOf d
  let k := 68 * g + pos
  let n := tget 0 a.counts k + 1
  let s := s.setAw d { a with counts := tput k n a.counts }
  if n = 9000 then raise s 0x020A (paneLoc d g pos) else s

/-- Whether a physical pane belongs to an admitted set (R266, R268). -/
def AwDieSt.inSet (a : AwDieSt) (g pos : Nat) : Bool :=
  match a.logicalOf g pos with
  | some l => a.sets.any (fun e => e.2.panes.contains l)
  | none => false

/-! ### Maintenance (R262 to R265) -/

/-- Whether the errors of a pane, in sixty-fourths of a unit, can be covered at GW 8 at every grain (R265): the finest
grain decides (DEDUCED, log 42). -/
def coverable (margin err64 : Nat) : Bool := decide (err64 + margin * 8 < 8 * 8)

/-- GW of a grain (R263): the least value from GW_MIN to 8 whose half-width exceeds the largest error with the margin. -/
def gwFor (gmin margin grain err64 : Nat) : Nat :=
  (((List.range 9).filter (fun w => decide (gmin ≤ w ∧ 1 ≤ w ∧ err64 + margin * 2 ^ grain < w * 2 ^ grain))).headD 8)

/-- Level that reference column `k` holds, on every positive cell for columns 0 to 15 and on every negative cell for the
others (R261). -/
def refLevel (k : Nat) : Nat := k / 2 % 8

/-- Exact sum of reference column `k` under the pattern that drives 64 × m rows (R261, R262). -/
def refSum (k m : Nat) : Int :=
  let x : Int := ((refLevel k * (64 * m) : Nat) : Int)
  if k / 16 = 0 then x else -x

/-- Drift of a reference level under one pattern, in sixty-fourths of a level: the largest difference of its columns' sums from
the exact ones, for each row driven (R263; the estimator is a DESIGN CHOICE, log 148). -/
def levelDrift (sums : List Int) (m level : Nat) : Nat :=
  ((List.range 32).filter (fun k => refLevel k == level)).foldl (fun x k =>
    let exact := 64 * refSum k m
    max x ((sums.getD k exact - exact).natAbs / (64 * m))) 0

/-- One reference measurement, of `m` × 64 rows (R262): the drifts of the cycle so far, and the trim curve of 17 points a
polarity. -/
def GroupTrim.reference (t : GroupTrim) (m : Nat) (r : MaintReading) : GroupTrim :=
  { t with newDrift := (List.range 8).map (fun l => max (t.newDrift.getD l 0) (levelDrift r.sums m l))
           newCurve := (List.range 34).map (fun i => r.curve.getD i 0) }

/-- Exact sum of a column of a physical pane under a test vector: an idle spare's is 0 (R224, R262). -/
def checkSum (a : AwDieSt) (g pos col : Nat) (vector : Bytes) : Int :=
  match a.logicalOf g pos with
  | some l => ((List.range 512).map (fun i =>
      if (vector.getD (i / 8) 0).getLsbD (i % 8) then a.weight l i col else 0)).sum
  | none => 0

/-- The 256 estimates of a pane check with their exact values, in sixty-fourths of a unit (R262). -/
def checkEsts (a : AwDieSt) (g pos : Nat) (r : MaintReading) : List (Int × Int) :=
  (List.range 256).map fun col =>
    let exact := 64 * checkSum a g pos col r.vector
    (((r.ests.find? (fun e => e.1 == col)).map (·.2)).getD exact, exact)

/-- One pane check (R262, R263): its largest error, its gain and offset, and its flags for each grain at the GW in force. -/
def GroupTrim.check (t : GroupTrim) (a : AwDieSt) (g pos : Nat) (r : MaintReading) : GroupTrim :=
  let es := checkEsts a g pos r
  { t with newErr := tput pos (es.foldl (fun m e => max m (e.1 - e.2).natAbs) 0) t.newErr
           newGain := tput pos (r.gain, r.offset) t.newGain
           newRate := tput pos ((List.range 4).map fun i =>
             (es.filter (fun e => inWindow e.1 (i + 3) (t.gw.getD i 1))).length) t.newRate }

/-- The trim record that a completed cycle leaves (R263): what the latest check of each pane gave stands where this cycle
skipped it. -/
def GroupTrim.completed (t : GroupTrim) (gw : List Nat) : GroupTrim :=
  { t with curve := t.newCurve, drift := t.newDrift, gw := gw, slot := 0
           err := t.newErr.foldl (fun m e => tput e.1 e.2 m) t.err
           gain := t.newGain.foldl (fun m e => tput e.1 e.2 m) t.gain
           rate := t.newRate.foldl (fun m e => tput e.1 e.2 m) t.rate
           newCurve := [], newDrift := [], newErr := [], newGain := [], newRate := [] }

/-- A pane that GW 8 cannot cover: resolve-all mode and a self-test (R265), unless it is LASTING already (DEDUCED, log 147). -/
def uncovered (a : AwDieSt) (k : Nat) : AwDieSt :=
  if a.lasting.contains k || a.stuck.contains k then a else requestTest (a.resolving k) k 2

/-- Finish a maintenance cycle: the new trim record (R263), panes that GW 8 cannot cover (R265), and the refresh that a
drifted reference starts (R266). -/
def trimUpdate (s : State) (d g : Nat) (t : GroupTrim) : State :=
  let a := s.awOf d
  let tb := s.trimOf d
  let serving := (List.range 68).filter (fun p => (a.logicalOf g p).isSome)
  let errs := serving.map fun p => (p, tget (tget 0 t.err p) t.newErr p)
  let worst := (errs.filter (fun e => coverable tb.gwMargin e.2)).foldl (fun m e => max m e.2) 0
  let gw := (List.range 4).map fun i => gwFor (tb.gwMin.getD i 1) tb.gwMargin (i + 3) worst
  let t' := t.completed gw
  let a := { a with trim := tput g t' a.trim, toCalibrate := a.toCalibrate.filter (· != g) }
  let a := (errs.filter (fun e => !coverable tb.gwMargin e.2)).foldl (fun a e => uncovered a (68 * g + e.1)) a
  let s := s.setAw d a
  if t'.drift.any (fun x => decide (tb.refreshLimit ≤ x)) ∧ tfind a.refresh g = none then
    raise (s.setAw d { a with refresh := tput g 0 a.refresh }) 0x020B (groupLoc d g)
  else s

/-- Whether a physical pane is under a self-test that has begun (R270). -/
def AwDieSt.testing (a : AwDieSt) (k : Nat) : Bool :=
  match tfind a.tests k with
  | some t => decide (1 ≤ t.phase)
  | none => false

/-- One maintenance pass of a group (R262): eight reference patterns, then one pane check for each position; a pane under
test is skipped (R270). While READY the pass takes the group's reserved tick (R247). -/
def maintenanceEff (d g : Nat) (m : MaintReading) (s : State) : State :=
  let a := s.awOf d
  let t : GroupTrim := { tget {} a.trim g with passed := if a.state = 3 then some a.tick else none }
  let p := t.slot - 8
  let t1 := if t.slot < 8 then t.reference (t.slot + 1) m
    else if a.testing (68 * g + p) then t
    else t.check a g p m
  if t.slot < 75 then s.setAw d { a with trim := tput g { t1 with slot := t.slot + 1 } a.trim }
  else trimUpdate s d g t1

/-- MAINTENANCE_PASS (R247, R257, R262, R278): once at the group's reserved tick while READY; at every pass period while
CALIBRATING and in phase 4 of an installation. -/
def execMaintenancePass (d : AwDie) (g : Fin 2048) (m : MaintReading) (s : State) : Res :=
  let a := s.awOf d
  act (a.state = 2 ∨ (a.state = 4 ∧ a.phase = 4)
      ∨ (a.state = 3 ∧ a.tick % 50 = g.val % 50 ∧ (tget {} a.trim g).passed ≠ some a.tick)) (maintenanceEff d g m s) s

/-! ### Refresh (R266) -/

/-- The next position of a group that a refresh takes: the lowest in service from `p` on. -/
def nextServing (a : AwDieSt) (g p : Nat) : Option Nat :=
  (List.range 68).find? (fun q => decide (p ≤ q) && (a.logicalOf g q).isSome)

/-- One pane of a refresh: erased and reprogrammed from the shadow. A pane whose reprogram fails goes to resolve-all mode
with a self-test requested (DESIGN CHOICE, log 43). After the last pane the reference columns follow. -/
def refreshEff (d g pos : Nat) (fails : Bool) (s : State) : State :=
  let k := 68 * g + pos
  let s := countProgram s d g pos
  let a := s.awOf d
  let a :=
    if fails then
      requestTest (a.resolving k) k 2
    else cleanCells a k
  match nextServing a g (pos + 1) with
  | some _ => s.setAw d { a with refresh := tput g (pos + 1) a.refresh }
  | none =>
    s.setAw d { a with refresh := tdel g a.refresh, trim := tput g { tget {} a.trim g with drift := [], newDrift := [] } a.trim }

/-- GROUP_REFRESH (R266, R273): one physical pane in service, in position order, while it belongs to no admitted set; one that
power loss interrupted goes on while CALIBRATING. -/
def execGroupRefresh (d : AwDie) (g : Fin 2048) (pos : Fin 68) (fails : Bool) (s : State) : Res :=
  let a := s.awOf d
  match tfind a.refresh g with
  | some p =>
    act ((a.state = 2 ∨ a.state = 3) ∧ nextServing a g p = some pos.val ∧ a.inSet g pos = false) (refreshEff d g pos fails s) s
  | none => .next s

/-! ### Self-test (R268 to R270) -/

/-- Whether the upkeep of a die runs: it is CALIBRATING or READY (R250, R273). -/
def AwDieSt.upkeep (a : AwDieSt) : Bool := a.state == 2 || a.state == 3

/-- A self-test after a read (R269): the first cell outside its window, and whether there were others. -/
def SelfTest.read (t : SelfTest) (bad : List (Nat × Nat × Bool)) : SelfTest :=
  { t with cell := t.cell.or bad.head?, several := t.several || bad.any (fun c => (t.cell.or bad.head?) != some c) }

/-- SELFTEST_START (R268, R269): step 1, once the pane belongs to no admitted set. -/
def execSelftestStart (d : AwDie) (g : Fin 2048) (pos : Fin 68) (cells : List CellRead) (s : State) : Res :=
  let a := s.awOf d
  let k := 68 * g.val + pos.val
  match tfind a.tests k with
  | some t =>
    act (a.upkeep = true ∧ t.phase = 0 ∧ a.inSet g pos = false)
      (s.setAw d { a with tests := tput k { t.read (badCells s a g pos cells) with phase := 1, readAt := s.ns } a.tests }) s
  | none => .next s

/-- SELFTEST_SETTLE (R269): step 2, SETTLE after the first read. -/
def execSelftestSettle (d : AwDie) (g : Fin 2048) (pos : Fin 68) (cells : List CellRead) (s : State) : Res :=
  let a := s.awOf d
  let k := 68 * g.val + pos.val
  match tfind a.tests k with
  | some t =>
    act (a.upkeep = true ∧ t.phase = 1 ∧ t.readAt + (s.trimOf d).settleMs * 1000000 ≤ s.ns)
      (s.setAw d { a with tests := tput k { t.read (badCells s a g pos cells) with phase := 2 } a.tests }) s
  | none => .next s

/-- Nanoseconds of 24 h. -/
def dayNs : Nat := 86400000000000

/-- Results of a self-test (R269), as the event carries them (DESIGN CHOICE, log 44). -/
def testTransient : Nat := 0
def testRestored : Nat := 1
def testLasting : Nat := 2

/-- Causes of a self-test that an AUDIT injection alone asked for (R487): the model's own bit 4. -/
def testRehearsal : Nat := 16

/-- CAUSES as the event carries them: a rehearsal's is an audit fault's (R268, R487). -/
def testCauses (c : Nat) : Nat := c % 16 ||| (if bitNat c 4 then 1 else 0)

/-- Key of a pane's rehearsal identifier (R487). -/
def rehPane (d k : Nat) : Nat := 2 ^ 24 + 2 ^ 18 * d + k

/-- The classification of R269, by the pane's program count after the test; a rehearsal's result counts toward no
TRANSIENT_LIMIT (R487). -/
def classify (s : State) (d g pos : Nat) (t : SelfTest) (mismatch reprogramOk : Bool) : Nat :=
  let a := s.awOf d
  let k := 68 * g + pos
  let recent := (tget [] a.transients k).filter (fun x => decide (s.ns < x + dayNs))
  if 10000 ≤ tget 0 a.counts k then testLasting
  else if t.cell.isSome then (if reprogramOk then testRestored else testLasting)
  else if mismatch then testLasting
  else if t.causes ≠ testRehearsal ∧ (s.trimOf d).transientLimit ≤ recent.length + 1 then testLasting
  else testTransient

/-- Return a pane to service (R269); one that waits for a spare in vain stays in resolve-all mode (R274). -/
def returnPane (a : AwDieSt) (k : Nat) : AwDieSt :=
  { a with tests := tdel k a.tests, resolveAll := a.resolveAll.filter (fun x => x != k || a.stuck.contains k) }

/-- SELFTEST_DONE's effect (R269): the reprogram counted, the classification, its outcome and the event, at the deepest level
that holds all that was found (R22, R269). -/
def selftestDoneEff (d g pos : Nat) (t : SelfTest) (mismatch reprogramOk : Bool) (s : State) : State :=
  let k := 68 * g + pos
  let s := if t.cell.isSome then countProgram s d g pos else s
  let res := classify s d g pos t mismatch reprogramOk
  let causes := t.causes ||| (if 10000 ≤ tget 0 (s.awOf d).counts k then 8 else 0)
  let l := match t.cell with
    | some (r, c, n) => if t.several then paneLoc d g pos else cellLoc d g pos r c (natOfBool n)
    | none => paneLoc d g pos
  let reh := if t.causes = testRehearsal ∧ res = testTransient then tget 0 s.grid.rehearsing (rehPane d k) else 0
  let s := raise s 0x0206 l (packDetail [(1, res), (1, testCauses causes)]) none 0x1FF reh
  let s := { s with grid := { s.grid with rehearsing := tdel (rehPane d k) s.grid.rehearsing } }
  let a := s.awOf d
  if res = testTransient ∧ t.causes = testRehearsal then s.setAw d (returnPane a k)
  else if res = testTransient then
    s.setAw d { returnPane a k with
      transients := tput k ((tget [] a.transients k).filter (fun x => decide (s.ns < x + dayNs)) ++ [s.ns]) a.transients }
  else if res = testRestored then s.setAw d (cleanCells (returnPane a k) k)
  else setLasting s d g pos

/-- SELFTEST_DONE (R269). -/
def execSelftestDone (d : AwDie) (g : Fin 2048) (pos : Fin 68) (mismatch reprogramOk : Bool) (s : State) : Res :=
  match tfind (s.awOf d).tests (68 * g.val + pos.val) with
  | some t => act ((s.awOf d).upkeep = true ∧ t.phase = 2) (selftestDoneEff d g pos t mismatch reprogramOk s) s
  | none => .next s

/-! ### Retirement to a spare (R271, R272) -/

/-- With no spare left in a group, the panes still waiting for one stay in resolve-all mode and the group is degraded
(R274). -/
def degradeRest (s : State) (d g : Nat) : State :=
  let a := s.awOf d
  if (a.freeSpares g).isEmpty ∧ a.lasting.any (fun k => k / 68 == g) then
    raise (s.setAw d ((a.lasting.filter (fun k => k / 68 == g)).foldl (fun a k => a.stick g k) a)) 0x0208 (groupLoc d g)
  else s

/-- PANE_MAP_SWITCH's effect (R271): the lowest free spare takes the logical pane, or, where it fails, is itself retired; a
spare that fails program_pane during an installation raises AW_PROGRAM_FAIL (R277). -/
def paneMapSwitchEff (d g pos l spare : Nat) (out : SpareOutcome) (s : State) : State :=
  let k := 68 * g + pos
  let s := countProgram s d g spare
  let a := s.awOf d
  if out = .passed then
    let m := tset (l % 64) a.map l spare
    degradeRest (raise (s.setAw d { a with
      map := m, retired := if a.retired.contains k then a.retired else a.retired ++ [k]
      lasting := a.lasting.filter (· != k), resolveAll := a.resolveAll.filter (· != k), stuck := a.stuck.filter (· != k)
      tests := tdel k a.tests, failed := a.failed.filter (· != k) }) 0x0207 (paneLoc d g pos)) d g
  else
    let s := if out = .programFailed ∧ a.state = 4 then raise s 0x020C (paneLoc d g spare) else s
    degradeRest (s.setAw d { s.awOf d with retired := a.retired ++ [68 * g + spare] }) d g

/-- PANE_MAP_SWITCH (R257, R271 to R273): the waiting pane of lowest position in its group is served, while READY or
CALIBRATING, or in phase 5 of an installation. -/
def execPaneMapSwitch (d : AwDie) (g : Fin 2048) (pos : Fin 68) (out : SpareOutcome) (s : State) : Res :=
  let a := s.awOf d
  match a.logicalOf g pos, (a.freeSpares g).head? with
  | some l, some spare =>
    act ((a.upkeep = true ∨ (a.state = 4 ∧ a.phase = 5)) ∧ a.lasting.contains (68 * g.val + pos.val) = true
        ∧ a.inSet g pos = false
        ∧ (a.lasting.any fun k => k / 68 == g.val && decide (k % 68 < pos.val)) = false)
      (paneMapSwitchEff d g pos l spare out s) s
  | _, _ => .next s

/-! ### Shadow scrub (R275) -/

/-- SHADOW_SCRUB's effect: one word; a corrected word is rewritten in place. -/
def scrubShadow (d l row word : Nat) (s : State) : State :=
  let a := s.awOf d
  let k := shadowKey l row word
  if a.shadowBad.contains k then losePane s d l
  else if a.shadowWeak.contains k then
    shadowEvent 0x0203 d l row (s.setAw d { a with shadowWeak := a.shadowWeak.filter (· != k) })
  else s

/-- SHADOW_SCRUB (R275), on a die whose shell runs (R250). -/
def execShadowScrub (d : AwDie) (pane : BitVec 17) (row : Fin 512) (word : Fin 16) (s : State) (upsets : List ShadowUpset := []) :
    Res :=
  act (2 ≤ (s.awOf d).state ∧ (s.awOf d).state ≤ 5) (scrubShadow d pane.toNat row word (upsetShadow d upsets s)) s

/-! ### Write-verify (R256) -/

/-- The pane's write-verify ends: PASS, with its program counted. -/
def programPass (d g pos : Nat) (s : State) : State :=
  let k := 68 * g + pos
  let s := countProgram s d g pos
  let a := s.awOf d
  s.setAw d (cleanCells { a with programming := tdel k a.programming, programmed := insertNat k a.programmed } k)

/-- The cells of a row's read that lie outside VERIFY_WINDOW of their levels (R256). -/
def rowOutside (s : State) (d g pos row : Nat) (cells : List CellRead) : List CellRead :=
  cells.filter fun c => c.row.val == row
    && !inVerify (s.trimOf d).verifyWindow c.level64 (wantLevel (s.awOf d) g pos c.row c.col c.neg)

/-- One pulse-verify iteration of a row (R256): with no cell outside its window the row is done; while a target cell is outside
and MAX_PULSES iterations have not been made, another follows; else the pane fails. -/
def pulseEff (d g pos : Nat) (p : Programming) (cells : List CellRead) (s : State) : State :=
  let a := s.awOf d
  let k := 68 * g + pos
  let out := rowOutside s d g pos p.row cells
  if out.isEmpty then
    if p.row = 511 then programPass d g pos s
    else s.setAw d { a with programming := tput k { p with row := p.row + 1, tries := 0 } a.programming }
  else if p.tries + 1 < (s.trimOf d).maxPulses
      ∧ out.any (fun c => decide (0 < wantLevel a g pos c.row c.col c.neg)) = true then
    s.setAw d { a with programming := tput k { p with tries := p.tries + 1 } a.programming }
  else
    let content := out.foldl (fun t c => tput (cellKey g pos c.row c.col c.neg) c.level64 t) a.cells
    raise (s.setAw d { a with programming := tdel k a.programming, failed := insertNat k a.failed, cells := content })
      0x020C (paneLoc d g pos)

/-- Panes of a tier being programmed. -/
def inTier (a : AwDieSt) (g : Nat) : Nat := (a.programming.filter (fun e => e.1 / 68 / 128 == g / 128)).length

/-- PULSE_VERIFY (R256, R257): in phase 3 of an installation, on a pane under write-verify, or on row 0 of one that
starts, two panes a tier at once. -/
def execPulseVerify (d : AwDie) (g : Fin 2048) (pos : Fin 68) (row : Fin 512) (cells : List CellRead) (s : State) : Res :=
  let a := s.awOf d
  let k := 68 * g.val + pos.val
  match tfind a.programming k with
  | some p => act (a.state = 4 ∧ a.phase = 3 ∧ p.row = row.val) (pulseEff d g pos p cells s) s
  | none =>
    act (a.state = 4 ∧ a.phase = 3 ∧ row.val = 0 ∧ pos.val < 64 ∧ inTier a g < 2 ∧ a.retired.contains k = false
        ∧ a.programmed.contains k = false ∧ a.failed.contains k = false)
      (pulseEff d g pos { logical := 64 * g.val + pos.val } cells s) s

/-! ### INIT (R251, R278) -/

/-- Whether an analogue die is fitted: none on an LX part (R1). -/
def State.awFitted (s : State) : Bool := !s.isLX

/-- READY (R511, R547, R555): at HOST_READY, once every fitted analogue die has left INIT and CALIBRATING; a base part with
COMMIT set raises the fused SVN. The event carries COPY and the stage times, in µs (DESIGN CHOICE, log 80). -/
def bootReady (s : State) : State :=
  if s.power.stage = 5 ∧ (s.awFitted = false ∨ (List.range 4).all (fun d =>
      (s.awOf d).state != 1 && (s.awOf d).state != 2) = true) then
    let p := s.power
    let times := (p.stageTimes ++ [s.ns]).zip ((p.stageTimes ++ [s.ns]).drop 1)
    let svn := if s.tbl.commit ∧ s.boot.set.isSome then max s.fuses.svn s.tbl.svn else s.fuses.svn
    let s := { s with power := { p with stage := 6 }, fuses := { s.fuses with svn := svn } }
    raise s 0x0906 0 (packDetail ((1, p.copy) :: times.map (fun t => (4, satNat 32 ((t.2 - t.1) / 1000)))))
  else s

/-- The full scrub of the shadow store in INIT (R238, R275, R278): lost panes, and correctable words reported and rewritten. -/
def scrubAll (d : Nat) (s : State) : State :=
  let a := s.awOf d
  let s := ((a.shadowBad.map (· / 8192)).dedup).foldl (fun s l => losePane s d l) s
  let s := (a.shadowWeak.filter (fun k => !a.shadowBad.contains k)).foldl (fun s k =>
    shadowEvent 0x0203 d (k / 8192) (k % 8192 / 16) s) s
  s.setAw d { s.awOf d with shadowWeak := [] }

/-- AW_INIT_DONE's effect (R251, R267, R275, R278): the shadow store has been scrubbed in full, and every group waits for its
start-up calibration. -/
def awInitEff (d : Nat) (recordsOk trimOk : Bool) (upsets : List ShadowUpset) (s : State) : State :=
  if recordsOk && trimOk then
    let s := scrubAll d (upsetShadow d upsets s)
    let a := s.awOf d
    let ok := a.committed && a.phase == 0
    bootReady (s.setAw d { a with
      state := if ok then 2 else 5, toCalibrate := if ok then List.range 2048 else [], trimTab := some s.tbl.trim })
  else bootReady (raise (s.setAw d { s.awOf d with state := 6 }) 0x020D (dieLoc (9 + d)))

/-- AW_INIT_DONE. -/
def execAwInitDone (d : AwDie) (recordsOk trimOk : Bool) (s : State) (upsets : List ShadowUpset := []) : Res :=
  act ((s.awOf d).state = 1) (awInitEff d recordsOk trimOk upsets s) s

end Sys2Proof.Machine
end

