-- ==== Sys2Proof/Machine/Stacks.lean ====
section
/-!
DEFINITION. Memory stacks (10_memory_stacks.md): the ops of the S movements, the retirement of a stack command with its
effect, the patrol scrub, and cancellation. A command's effect on DRAM is made at its retirement (log 48).
-/

namespace Sys2Proof.Machine

/-! ### Issue (R297 to R300) -/

/-- Data rows 0 to n − 1 of an S op issued at beat `b`: four to a beat (R300). -/
def outRows (a n b : Nat) : List (Nat × Nat) := (List.range n).map fun (k : Nat) => (rowAt a k, b + k / 4)

/-- Index rows of a list of `count` entries (R300). -/
def indexRows (count : Nat) : Nat := (count + 63) / 64

/-- READ (R297, R301). -/
def execRead (v : VMove) (offset : W32) (region : Byte) (rowsM1 : BitVec 12) (queue : Fin 8) (s : State) : Res :=
  issueCmd s v 6 queue true [] (.read v offset region rowsM1 queue) [] (fun _ => []) (rowsM1.toNat + 1) (fun _ => none) id

/-- WRITE (R297, R300, R301). -/
def execWrite (v : VMove) (offset : W32) (region : Byte) (rowsM1 : BitVec 12) (src : AddrOp) (queue : Fin 8)
    (s : State) : Res :=
  let rows := outRows ((s.seqOf v).addr src) (rowsM1.toNat + 1) (s.pos v).beat
  issueCmd s v 6 queue true [] (.write v offset region rowsM1 src queue) rows (fun _ => []) 0
    (fun _ => none) id

/-- GATHER (R297, R300, R301). -/
def execGather (v : VMove) (idx : AddrOp) (region : Byte) (countM1 : BitVec 12) (lM1 : BitVec 4) (queue : Fin 8)
    (s : State) : Res :=
  let n := countM1.toNat + 1
  let rows := outRows ((s.seqOf v).addr idx) (indexRows n) (s.pos v).beat
  issueCmd s v 6 queue true [] (.gather v idx region countM1 lM1 queue) rows (fun _ => [])
    (n * (lM1.toNat + 1)) (fun _ => none) id

/-- Rows read by a SCATTER: its index rows, then its data rows (R300). -/
def scatterRows (ai ad n l b : Nat) : List (Nat × Nat) :=
  outRows ai (indexRows n) b ++ outRows ad (n * l) (b + (indexRows n + 3) / 4)

/-- SCATTER (R297, R300, R301). -/
def execScatter (v : VMove) (idx : AddrOp) (region : Byte) (countM1 : BitVec 12) (lM1 : BitVec 4) (data : AddrOp)
    (queue : Fin 8) (s : State) : Res :=
  let q := s.seqOf v
  let rows := scatterRows (q.addr idx) (q.addr data) (countM1.toNat + 1) (lM1.toNat + 1) (s.pos v).beat
  issueCmd s v 6 queue true [] (.scatter v idx region countM1 lM1 data queue) rows (fun _ => []) 0
    (fun _ => none) id

/-- EMBED (R297, R300, R301). -/
def execEmbed (v : VMove) (idx : AddrOp) (regionA regionB : Byte) (countM1 : BitVec 12) (lM1 : BitVec 4)
    (split : BitVec 28) (queue : Fin 8) (s : State) : Res :=
  let n := countM1.toNat + 1
  let rows := outRows ((s.seqOf v).addr idx) (indexRows n) (s.pos v).beat
  issueCmd s v 6 queue true [] (.embed v idx regionA regionB countM1 lM1 split queue) rows (fun _ => [])
    (n * (lM1.toNat + 1)) (fun _ => none) id

/-- ZERO (R297, R301): UNITS 0 is an undefined opcode. -/
def execZero (v : VMove) (offset : W32) (region : Byte) (units : W32) (queue : Fin 8) (s : State) : Res :=
  issueCmd s v 6 queue (units != 0) [] (.zero v offset region units queue) [] (fun _ => []) 0 (fun _ => none) id

/-- COPY (R297, R301). -/
def execCopy (v : VMove) (srcOff : W32) (srcRegion dstRegion : Byte) (blocksM1 : BitVec 13) (dstOff : W32)
    (queue : Fin 8) (s : State) : Res :=
  issueCmd s v 6 queue true [] (.copy v srcOff srcRegion dstRegion blocksM1 dstOff queue) [] (fun _ => []) 0
    (fun _ => none) id

/-- PAGE_APPEND (R297, R300, R301). -/
def execPageAppend (v : VMove) (src : AddrOp) (rowsM1 : BitVec 12) (srow : W16) (handle : BitVec 20) (queue : Fin 8)
    (s : State) : Res :=
  let rows := outRows ((s.seqOf v).addr src) (rowsM1.toNat + 1) (s.pos v).beat
  issueCmd s v 6 queue true [] (.pageAppend v src rowsM1 srow handle queue) rows (fun _ => []) 0
    (fun _ => none) id

/-- The bridle slot of a listed stream, by its key (R320). -/
def Run.slotOf (r : Run) (handle : Nat) : Option (Nat × BSlot) := r.slots.find? (fun e => e.2.handle == handle)

/-- Positions of a stream readable now: those below the latched LENGTH and those opened by retired appends (R320). -/
def State.readable (s : State) (handle : Nat) : Nat :=
  match s.run.bind (fun r => r.slotOf handle) with
  | some e => e.2.readable
  | none => 0

/-- PAGE_READ (R297, R301): readability is judged at issue (R320), and held with the command as its one datum. -/
def execPageRead (v : VMove) (first : BitVec 24) (nposM1 : Byte) (rowsM1 : BitVec 6) (srow : BitVec 15)
    (handle : BitVec 20) (queue : Fin 8) (s : State) : Res :=
  issueCmd s v 6 queue true [] (.pageRead v first nposM1 rowsM1 srow handle queue) []
    (fun s => [leBytes 8 (s.readable handle.toNat)]) ((nposM1.toNat + 1) * (rowsM1.toNat + 1)) (fun _ => none) id

/-! ### Parts of a command (R301, R302) -/

/-- A region of the running plan. -/
def State.regionOf (s : State) (reg : Nat) : Option Region := s.run.bind fun r => tfind r.plan.regions reg

/-- Data units of a region. -/
def State.regionUnits (s : State) (reg : Nat) : Nat := ((s.regionOf reg).map (·.size / 256)).getD 0

/-- Units `o` to `o + n − 1` of a region, none where they reach beyond it (R302). -/
def State.span (s : State) (reg o n : Nat) : Option (Nat × Nat) :=
  if o + n ≤ s.regionUnits reg then some (reg, o) else none

/-- Read one unit of a region (R286, R294). -/
def readRegion (s : State) (reg o : Nat) (detail : Bytes) : State × Bytes :=
  match s.regionOf reg with
  | some r => let u := unitOf r.blocks o; readUnit s u.1 u.2 r.domain detail
  | none => (s, zeros 256)

/-- Write one unit of a region. -/
def writeRegion (s : State) (reg o : Nat) (data : Bytes) : State :=
  match s.regionOf reg with
  | some r => let u := unitOf r.blocks o; writeUnit s u.1 u.2 r.domain data
  | none => s

/-- Read `n` units from unit `o` of a region. -/
def readSpan (detail : Bytes) (reg o n : Nat) (s : State) : State × List Bytes :=
  (List.range n).foldl (fun t k => let x := readRegion t.1 reg (o + k) detail; (x.1, t.2 ++ [x.2])) (s, [])

/-- Read parts of `n` units each; an out-of-range part delivers zero rows (R302). -/
def readParts (detail : Bytes) (n : Nat) (ps : List (Option (Nat × Nat))) (s : State) : State × List Bytes :=
  ps.foldl (fun t p =>
    match p with
    | some (reg, o) => let x := readSpan detail reg o n t.1; (x.1, t.2 ++ x.2)
    | none => (t.1, t.2 ++ List.replicate n (zeros 256))) (s, [])

/-- Write parts, each with its units; an out-of-range part is skipped (R302). -/
def writeParts (ps : List (Option (Nat × Nat) × List Bytes)) (s : State) : State :=
  ps.foldl (fun s p =>
    match p.1 with
    | some (reg, o) => (indexed p.2).foldl (fun s e => writeRegion s reg (o + e.1) e.2) s
    | none => s) s

/-- First out-of-range part and the number of them. -/
def rangeOf {α : Type} (ps : List (Option α)) : Nat × Nat :=
  let bad := (indexed ps).filter (fun e => e.2.isNone)
  ((bad.map (·.1)).headD 0, bad.length)

/-- SE_RANGE (R302): one event for the command, the status flag, and the report's first range part. -/
def rangeEvent (s : State) (v : Nat) (c : Cmd) (bad : Nat × Nat) : State :=
  if bad.2 = 0 then s
  else
    let s := raise s 0x0305 (cdLoc (s.phys v) 0x013) (packDetail [(8, c.opAddr), (4, bad.1), (4, bad.2)]) (some c.pos)
    (setSflag s 3).onRun fun r => { r with range := r.range.or (some (c.opAddr, bad.1)) }

/-- Entry `k` of an index list held in rows (R300). -/
def indexAt (rows : List Bytes) (k : Nat) : Nat := fieldAt (rows.getD (k / 64) []) (4 * (k % 64)) 4

/-- Parts of an EMBED (R301): entries are signed. -/
def embedPart (s : State) (regA regB l split e : Nat) : Option (Nat × Nat) :=
  if 2 ^ 31 ≤ e then none
  else if regA = regB ∨ e < split then s.span regA (e * l) l
  else s.span regB ((e - split) * l) l

/-- Whether a COPY's ranges overlap within one region (R302). -/
def copyOverlap (so sr dr n d : Nat) : Bool := sr == dr && decide (so < d + 16 * n ∧ d < so + 16 * n)

/-- COPY, block by block (R301, R302). -/
def copyParts (s : State) (so sr dr n d : Nat) (detail : Bytes) : State × (Nat × Nat) :=
  if copyOverlap so sr dr n d then (s, (0, n))
  else
    let ps := (List.range n).map fun m =>
      match s.span sr (so + 16 * m) 16, s.span dr (d + 16 * m) 16 with
      | some a, some b => some (a, b)
      | _, _ => none
    (ps.foldl (fun s p =>
      match p with
      | some (a, b) => let x := readSpan detail a.1 a.2 16 s; writeParts [(some b, x.2)] x.1
      | none => s) s, rangeOf ps)

/-! ### Pages (R303, R317, R320) -/

/-- Replace a bridle slot of the running step. -/
def setBSlot (s : State) (k : Nat) (b : BSlot) : State := s.onRun fun r => { r with slots := tput k b r.slots }

/-- Put a page into a stream's directory at entry `i` (R314). -/
def setDirectory (s : State) (handle i n : Nat) : State :=
  match tfind s.streams handle with
  | some h =>
    let pages := if i < h.pages.length then h.pages.set i n else h.pages ++ [n]
    growDirectory (putStream s handle { h with pages := pages }) handle
  | none => s

/-- Record an allocation of the step (R538). -/
def recordAlloc (s : State) (handle p n : Nat) : State :=
  s.onRun fun r => { r with allocs := r.allocs ++ [(handle, p, n)] }

/-- The page that holds position `p` of a stream, ready for a write: allocated, or copied when shared (R312, R317); none
where no page can be admitted. -/
def pageForWrite (s : State) (handle p : Nat) (detail : Bytes) : State × Option Nat :=
  match tfind s.streams handle with
  | none => (s, none)
  | some h =>
    match h.pages[p / 64]? with
    | none =>
      if s.pageAdmitted h then
        let a := allocPage s h 1 []
        (recordAlloc (setDirectory a.1 handle (p / 64) a.2) handle p a.2, some a.2)
      else (s, none)
    | some n =>
      match tfind s.pages n with
      | none => (s, none)
      | some pg =>
        if pg.refs ≤ 1 then (s, some n)
        else if s.pageAdmitted h then
          let keep := pg.rows.filter (fun e => decide (e.1 / pg.slotRows < p % 64))
          let r := keep.foldl (fun (r : State × List (Nat × List Byte)) e =>
            let u := unitOf pg.blocks e.1
            ((eccUnit r.1 u.1 u.2 detail).1, r.2 ++ [(e.1, r.1.delivered u.1 u.2 e.2)])) (s, [])
          let s := r.1
          let a := allocPage s h 1 r.2
          let s := recordAlloc (setDirectory a.1 handle (p / 64) a.2) handle p a.2
          (countPage s n (· - 1), some a.2)
        else (s, none)

/-- SE_POOL_EMPTY (R303): the stream's later appends of the step are skipped. -/
def poolEmpty (s : State) (v : Nat) (c : Cmd) (k handle : Nat) (b : BSlot) : State :=
  let s := raise s 0x0306 (cdLoc (s.phys v) 0x013) (packDetail [(4, handle)]) (some c.pos)
  (setBSlot s k { b with failed := true }).onRun fun r => { r with poolHandle := r.poolHandle.or (some handle) }

/-- Write the rows of an append into the slot of position `p` (R301, R302). -/
def appendRows (s : State) (v : Nat) (c : Cmd) (n p srow : Nat) : State :=
  match tfind s.pages n with
  | none => s
  | some pg =>
    let ps := (indexed c.data).map fun e => if srow + e.1 < pg.slotRows then some (srow + e.1, e.2) else none
    let s := ps.foldl (fun s x =>
      match x with
      | some (r, row) => putPageRow s n (p % 64 * pg.slotRows + r) row
      | none => s) s
    rangeEvent s v c (rangeOf ps)

/-- PAGE_APPEND's effect (R303, R317, R320). -/
def pageAppendEff (s : State) (v : Nat) (c : Cmd) (srow handle : Nat) : State :=
  let n := c.data.length
  match s.run.bind (fun r => r.slotOf handle) with
  | none => rangeEvent s v c (0, n)
  | some (k, b) =>
    if b.failed then s
    else if srow = 0 then
      let p := (b.openPos.map (· + 1)).getD b.latched.length
      match pageForWrite s handle p (packDetail [(8, c.opAddr)]) with
      | (s, none) => poolEmpty s v c k handle b
      | (s, some pg) =>
        appendRows (setBSlot s k { b with openPos := some p, readable := max b.readable (p + 1) }) v c pg p srow
    else
      match b.openPos with
      | none => rangeEvent s v c (0, n)
      | some p =>
        match pageForWrite s handle p (packDetail [(8, c.opAddr)]) with
        | (s, none) => poolEmpty s v c k handle b
        | (s, some pg) => appendRows s v c pg p srow

/-- One row of a page as a command reads it (R294). -/
def readPageRow (s : State) (n r : Nat) (detail : Bytes) : State × Bytes :=
  match tfind s.pages n with
  | none => (s, zeros 256)
  | some pg =>
    let u := unitOf pg.blocks r
    let e := eccUnit s u.1 u.2 detail
    if e.2 then (e.1, s.delivered u.1 u.2 (pg.row r)) else (e.1.bump, freeUnit e.1.free)

/-- The slot rows of one position (R303): zero rows where it is not readable. -/
def pagePosition (s : State) (handle p bound srow rows : Nat) (detail : Bytes) : State × List Bytes :=
  match (tfind s.streams handle).bind (fun h => h.pages[p / 64]?) with
  | some n =>
    if p < bound then
      let sr := ((tfind s.pages n).map (·.slotRows)).getD 0
      (List.range rows).foldl (fun t k =>
        let x := readPageRow t.1 n (p % 64 * sr + srow + k) detail; (x.1, t.2 ++ [x.2])) (s, [])
    else (s, List.replicate rows (zeros 256))
  | none => (s, List.replicate rows (zeros 256))

/-- PAGE_READ's effect (R301 to R303): its state, rows and range. -/
def pageReadEff (s : State) (c : Cmd) (first npos rows srow handle : Nat) : State × List Bytes × (Nat × Nat) :=
  let zero := List.replicate (npos * rows) (zeros 256)
  match s.run.bind (fun r => r.slotOf handle), tfind s.streams handle with
  | some _, some h =>
    if s.slotRowsOf h.cls < srow + rows then (s, zero, (0, npos))
    else
      let bound := leNat (c.data.headD [])
      let t := (List.range npos).foldl (fun t q =>
        let x := pagePosition t.1 handle (first + q) bound srow rows (packDetail [(8, c.opAddr)])
        (x.1, t.2 ++ x.2)) (s, ([] : List Bytes))
      (t.1, t.2, (0, 0))
  | _, _ => (s, zero, (0, npos))

/-! ### Retirement (R298, R301 to R305) -/

/-- A stack command's effect: the state, its result rows, and its range. -/
def stackEff (s : State) (v : Nat) (c : Cmd) : State × List Bytes × (Nat × Nat) :=
  let d := packDetail [(8, c.opAddr)]
  match c.op with
  | .read _ off reg rm1 _ =>
    let ps := (List.range (rm1.toNat + 1)).map fun k => s.span reg.toNat (off.toNat + k) 1
    let t := readParts d 1 ps s
    (t.1, t.2, rangeOf ps)
  | .write _ off reg _ _ _ =>
    let ps := (indexed c.data).map fun e => (s.span reg.toNat (off.toNat + e.1) 1, [e.2])
    (writeParts ps s, [], rangeOf (ps.map (·.1)))
  | .gather _ _ reg cm1 lm1 _ =>
    let l := lm1.toNat + 1
    let ps := (List.range (cm1.toNat + 1)).map fun k => s.span reg.toNat (indexAt c.data k) l
    let t := readParts d l ps s
    (t.1, t.2, rangeOf ps)
  | .scatter _ _ reg cm1 lm1 _ _ =>
    let l := lm1.toNat + 1
    let n := cm1.toNat + 1
    let ps := (List.range n).map fun k =>
      (s.span reg.toNat (indexAt c.data k) l, (c.data.drop (indexRows n + k * l)).take l)
    (writeParts ps s, [], rangeOf (ps.map (·.1)))
  | .embed _ _ ra rb cm1 lm1 split _ =>
    let l := lm1.toNat + 1
    let ps := (List.range (cm1.toNat + 1)).map fun k =>
      embedPart s ra.toNat rb.toNat l split.toNat (indexAt c.data k)
    let t := readParts d l ps s
    (t.1, t.2, rangeOf ps)
  | .zero _ off reg units _ =>
    let ps := (List.range units.toNat).map fun k => (s.span reg.toNat (off.toNat + k) 1, [zeros 256])
    (writeParts ps s, [], rangeOf (ps.map (·.1)))
  | .copy _ so sr dr bm1 d' _ =>
    let t := copyParts s so.toNat sr.toNat dr.toNat (bm1.toNat + 1) d'.toNat d
    (t.1, [], t.2)
  | .pageAppend _ _ _ srow h _ => (pageAppendEff s v c srow.toNat h.toNat, [], (0, 0))
  | .pageRead _ first nm1 rm1 srow h _ =>
    pageReadEff s c first.toNat (nm1.toNat + 1) (rm1.toNat + 1) srow.toNat h.toNat
  | _ => (s, [], (0, 0))

/-- Whether a command's page reservation waits: its stream's domain is RETIRING (R291). -/
def State.pageWaits (s : State) (c : Cmd) : Bool :=
  match c.op with
  | .pageAppend _ _ _ _ h _ => (tfind s.streams h.toNat).any (fun x => s.retiring [x.domain])
  | _ => false

/-- STACK_CMD_RETIRE's effect on the oldest unfinished command of a queue. -/
def stackRetire (v q i : Nat) (c : Cmd) (s : State) : State :=
  let t := stackEff s v c
  finishCmd (rangeEvent t.1 v c t.2.2) (qKey v q) i t.2.1

/-- STACK_CMD_RETIRE (R291, R298, R301): the oldest unretired command of a queue of an S movement, with the data units that have
failed till then (R293). -/
def execStackCmdRetire (v : VMove) (queue : Fin 8) (s : State) (upsets : List UnitUpset := []) : Res :=
  match (s.qOf (qKey v queue)).oldest with
  | some (i, c) => act (s.vtype v = 6 ∧ s.pageWaits c = false) (stackRetire v queue i c (upsetUnits upsets s)) s
  | none => .next s

/-! ### Scrub, cancellation, link (R294, R295, R307) -/

/-- The scrub's read of one unit: an uncorrectable one is poisoned, a corrected one rewritten. -/
def scrubUnit (st u : Nat) (s : State) : State :=
  let k := s.stackOf st
  if k.poisoned.contains u then s
  else if (tget {} k.errs u).fatal s.tbl.eccT then
    raise (s.setStack st { k with poisoned := k.poisoned ++ [u] }) 0x0303 (unitLoc st u)
  else correctUnit s st u []

/-- PATROL_SCRUB (R294, R295), with the data units that have failed till then (R293). -/
def execPatrolScrub (st : Stack) (unit : BitVec 29) (s : State) (upsets : List UnitUpset := []) : Res :=
  .next (scrubUnit st unit.toNat (upsetUnits upsets s))

/-- STACK_CANCEL (R307): every unfinished stack command of the step is cancelled and counted retired. -/
def execStackCancel (s : State) : Res :=
  act (s.cancelling = true)
    (((List.range 64).filter (fun v => s.vtype v == 6)).foldl
      (fun s v => (List.range 8).foldl (fun s q => cancelQ s (qKey v q)) s) s) s

/-- SE_LINK_FATAL (R307). -/
def execSeLinkFatal (st : Stack) (s : State) : Res :=
  let l := blockLoc (1 + st) 0x803
  .next (deviceFault (raise s 0x0307 l) 0x0307 l)

end Sys2Proof.Machine
end

