-- ==== Sys2Proof/Machine/Bridle.lean ====
section
/-!
DEFINITION. The bridle (R331 to R335): BSET, and SELECT with the choice of a token.
-/

namespace Sys2Proof.Machine

/-! ### BSET (R331) -/

/-- VOCAB − 1 and LFMT in force for a SELECT issued at a beat: a BSET of the same beat does not count (R331). -/
def Bridle.at (r : Bridle) (beat : Nat) : Nat × Nat :=
  if r.setAt = some beat then (r.oldVocabM1, r.oldLfmt) else (r.vocabM1, r.lfmt)

/-- BSET's effect (R331). -/
def bsetEff (v vocabM1 lfmt : Nat) (pos : PlanPos) (s : State) : State :=
  let n := s.phys v
  let r := s.brOf n
  let old := r.at pos.beat
  s.setBr n { vocabM1 := vocabM1, lfmt := lfmt, setAt := some pos.beat, oldVocabM1 := old.1, oldLfmt := old.2 }

/-- BSET (R331): LFMT is FP32, BF16 or FP16. -/
def execBset (v : VMove) (vocabM1 : BitVec 18) (lfmt : BitVec 5) (s : State) : Res :=
  issueEngine s v 4 (decide (lfmt.toNat ≤ 2)) [] (bsetEff v vocabM1.toNat lfmt.toNat)

/-! ### The choice of a token (R333) -/

/-- One rounding to FP32 in RNE. -/
def rnd32 (v : RV) : Val := (step1 (v, 0)).1

/-- The exact quotient of two values. -/
def divVal (a b : Val) : RV :=
  match a, b with
  | .nan, _ => .nan
  | _, .nan => .nan
  | .inf s, .inf _ => if s then .nan else .nan
  | .inf s, .fin t _ _ => .inf (s != t)
  | .fin s _ _, .inf t => .num (s != t) (.dy 0 0)
  | .fin s m e, .fin t n f => if n = 0 then .inf (s != t) else .num (s != t) (.rat m n (e - f))

/-- A candidate: token, x or y, the rounded exponent u, and e. -/
structure Cand where
  tok : Nat
  x   : Val
  u   : Val := .fin false 0 0
  e   : Val := .fin false 0 0

/-- Insert a candidate in descending order of a key, ties to the lower token. -/
def insertCand (key : Cand → Val) (c : Cand) : List Cand → List Cand
  | [] => [c]
  | d :: ds =>
    if ltVal (key d) (key c) || (!ltVal (key c) (key d) && decide (c.tok < d.tok)) then c :: d :: ds
    else d :: insertCand key c ds

/-- Candidates in descending order of a key (R333: ties go to the lower token index). -/
def sortCand (key : Cand → Val) (cs : List Cand) : List Cand := cs.foldl (fun l c => insertCand key c l) []

/-- The last WINDOW entries of PWIN (R309, R333). -/
def windowTokens (r : Stream) : List Nat :=
  (List.range r.window).map fun k => (r.pwin.getD ((r.whead + 31 - k) % 32) 0xFFFF_FFFF).toNat

/-- Step 2: the penalties of a token that the window holds `c` times. -/
def penalise (r : Stream) (c : Nat) (x : Val) : Val :=
  if c = 0 then x
  else
    let rep := fp32.decode r.rep.toNat
    let x1 := if !signVal x && !isZeroVal x then rnd32 (divVal x rep) else rnd32 (mulVal x rep).1.rv
    let sum := (addVal (addVal x1 (negVal (fp32.decode r.pres.toNat))).1
      (negVal (mulVal (.fin false c 0) (fp32.decode r.freq.toNat)).1)).1
    rnd32 sum.rv

/-- Whether a token is in STOP_SET (R309). -/
def inStopSet (r : Stream) (t : Nat) : Bool := r.stopSet.any (fun w => w.toNat == t && w != 0xFFFF_FFFF)

/-- Whether the latched mask allows a token (R328). -/
def maskAllows (b : BSlot) (t : Nat) : Bool := bitNat (b.mask.getD (t / 8) 0).toNat (t % 8)

/-- Whether a token may be chosen (step 1, R330). -/
def admits (b : BSlot) (t : Nat) : Bool :=
  !b.latched.grammarOn || maskAllows b t || ((b.gstate.map (·.accept)).getD false && inStopSet b.latched t)

/-- Steps 1 and 2: the candidates, with x. -/
def candidates (b : BSlot) (z : List Val) : List Cand :=
  let win := windowTokens b.now
  let cs := (indexed z).filter (fun e => !isNaN e.2 && admits b e.1)
  (cs.map fun e => ({ tok := e.1, x := penalise b.latched (win.count e.1) e.2 } : Cand)).filter
    (fun c => !(isInf c.x && signVal c.x))

/-- Sum of the e of candidates. -/
def sumE (cs : List Cand) : Val := sumVal (cs.map (·.e))

/-- The shortest prefix whose sum reaches a bound (step 5). -/
def prefixTo (bound : Val) : Val → List Cand → List Cand
  | _, [] => []
  | acc, c :: cs =>
    let a := (addVal acc c.e).1
    c :: (if ltVal a bound then prefixTo bound a cs else [])

/-- The first candidate whose running sum exceeds the target (step 7). -/
def pick (target : Val) : Val → List Cand → Option Cand
  | _, [] => none
  | acc, c :: cs =>
    let a := (addVal acc c.e).1
    if ltVal target a then some c else pick target a cs

/-- Step 3 and the exponents: e is 1 at the maximum (DEDUCED, log 50). -/
def withExp (m : Val) (c : Cand) : Cand :=
  let d := if eqVal c.x m then .fin false 0 0 else (addVal c.x (negVal m)).1
  let u := rnd32 (mulVal d cL).1.rv
  { c with u := u, e := (step1 (exp2V u)).1 }

/-- LN2 of R333. -/
def cLn2 : Val := fp32.decode 0x3F31_7218

/-- lp(i) of R333, as an FP32 code. -/
def logProb (w : Val) (c : Cand) : Nat :=
  let l := (step1 (log2V w)).1
  (fp32.round (mulVal (addVal c.u (negVal l)).1 cLn2).1.rv 0 false 0).1

/-- What a choice gives: token and lp, members at the draw, alternatives with their lp. -/
structure Choice where
  tok  : Nat
  lp   : Nat
  surv : Nat
  alts : List (Nat × Nat)

/-- Steps 3 to 7 at a temperature above 0 (R333). -/
def drawToken (r : Stream) (s : Nat) (cs : List Cand) : Choice :=
  let temp := fp32.decode r.temp.toNat
  let ys := sortCand (·.x) (cs.map fun c => { c with x := rnd32 (divVal c.x temp) })
  let ys := if r.topK = 0 then ys else ys.take r.topK
  let m := (ys.head?.map (·.x)).getD .nan
  let es := sortCand (·.e) (ys.map (withExp m))
  let es := prefixTo (mulVal (fp32.decode r.topP.toNat) (sumE es)).1 (.fin false 0 0) es
  let es := es.filter (fun c => !ltVal c.e (fp32.decode r.minP.toNat))
  let w := sumE es
  let k := r.seed.toNat
  let c := r.counter.toNat
  let p := philox (k % 2 ^ 32) (k / 2 ^ 32) ((r.tokens.toNat + s) % 2 ^ 32) (c % 2 ^ 32) (c / 2 ^ 32) 0x4252_444C
  let target := (mulVal (.fin false (p.1 + 2 ^ 32 * p.2.1) (-64)) w).1
  let t := (pick target (.fin false 0 0) es).getD { tok := 0, x := .nan }
  { tok := t.tok, lp := logProb w t, surv := es.length, alts := (es.take r.alts).map fun c => (c.tok, logProb w c) }

/-- The greedy and the infinite path (R333): the greatest x; the alternatives are the members that follow it. -/
def greedyToken (r : Stream) (cs : List Cand) : Choice :=
  match sortCand (·.x) cs with
  | [] => { tok := 0, lp := 0, surv := 0, alts := [] }
  | c :: ds => { tok := c.tok, lp := 0, surv := cs.length, alts := (ds.take r.alts).map fun d => (d.tok, 0x7FC0_0000) }

/-- Delivery of a token (R334). -/
def deliverToken (b : BSlot) (tok : Nat) : BSlot :=
  let n := b.now
  let s := b.s + 1
  let stop := inStopSet b.latched tok
  let full := n.maxTokens != 0 && decide (b.latched.maxTokens.toNat ≤ b.latched.tokens.toNat + s)
  let now := { n with lastToken := BitVec.ofNat 32 tok, pwin := (n.pwin ++ List.replicate (32 - n.pwin.length) 0).set n.whead
                                                          (BitVec.ofNat 32 tok)
                      whead := (n.whead + 1) % 32, state := if stop || full then 2 else n.state
                      reason := if stop then 1 else if full then 2 else n.reason }
  { b with s := s, now := now, lastTok := some (tok, b.latched.grammarOn && !maskAllows b tok) }

/-- The result of a SELECT: the slot after it, STATUS, the choice, and whether a NaN logit was met. -/
structure Selected where
  slot   : BSlot
  status : Nat
  choice : Option Choice := none
  nan    : Bool := false

/-- select() of R333. -/
def selectToken (b : BSlot) (z : List Val) : Selected :=
  if b.now.state ≠ 1 then { slot := b, status := 2 }
  else if b.latched.grammarOn ∧ 0 < b.s then { slot := b, status := 4 }
  else
    let nan := z.any isNaN
    let cs := candidates b z
    if cs.isEmpty then { slot := { b with now := { b.now with state := 2, reason := 4 } }, status := 3, nan := nan }
    else
      let c :=
        if cs.any (fun c => isInf c.x) || isZeroVal (fp32.decode b.latched.temp.toNat) then greedyToken b.latched cs
        else drawToken b.latched b.s cs
      let b' := deliverToken b c.tok
      { slot := b', status := if b'.now.state = 2 then 1 else 0, choice := some c, nan := nan }

/-- The result row (R335). Fields for which the spec states no value without a draw are free values (log 51). -/
def resultRow (s : State) (b : Option BSlot) (r : Option Selected) : Bytes :=
  let free (i : Nat) := s.choice 2 i % 2 ^ 32
  let status := (r.map (·.status)).getD 5
  let reason := match r with | some x => x.slot.now.reason | none => s.choice 2 2 % 32
  let position := match b with | some x => (x.latched.tokens.toNat + x.s) % 2 ^ 32 | none => free 0
  match r.bind (·.choice) with
  | some c =>
    let alts := c.alts.map (fun a => leBytes 4 a.1 ++ leBytes 4 a.2)
    leBytes 4 c.tok ++ leBytes 4 c.lp ++ leBytes 4 (status + 256 * reason + 65536 * c.alts.length) ++ leBytes 4 position
      ++ leBytes 4 c.surv ++ zeros 12
      ++ (List.range 20).flatMap (fun a => alts.getD a (leBytes 4 0xFFFF_FFFF ++ zeros 4)) ++ zeros 64
  | none =>
    leBytes 4 0xFFFF_FFFF ++ leBytes 4 (free 1) ++ leBytes 4 (status + 256 * reason) ++ leBytes 4 position
      ++ leBytes 4 (if status = 3 then 0 else free 3) ++ zeros 12
      ++ (List.range 20).flatMap (fun _ => leBytes 4 0xFFFF_FFFF ++ zeros 4) ++ zeros 64

/-! ### SELECT (R332) -/

/-- Logit rows of a SELECT (R332). -/
def logitRows (vocab lfmt : Nat) : Nat := (vocab * (if lfmt = 0 then 4 else 2) + 255) / 256

/-- The logits as values. -/
def logits (vocab lfmt : Nat) (rows : List Bytes) : List Val :=
  let w := if lfmt = 0 then 4 else 2
  rows.flatMap (fun r => (List.range (256 / w)).map fun i => (decodeElem lfmt (fieldAt r (w * i) w)).1) |>.take vocab

/-- The end of a SELECT's reading (R332 to R335): the choice, and its result row 640 beats later. -/
def selectEnd (zAddr key result vocabM1 lfmt : Nat) (pos : PlanPos) (s : State) : State :=
  let rows := logitRows (vocabM1 + 1) lfmt
  let z := logits (vocabM1 + 1) lfmt (readAll s (outRows zAddr rows pos.beat))
  let at_ := pos.beat + (rows + 3) / 4 + 640
  match s.run.bind (fun r => tfind r.slots key) with
  | some b =>
    let r := selectToken b z
    let s := if r.nan then raiseFlags s flInvalid pos else s
    (setBSlot (s.writeRow result at_ (resultRow s (some b) (some r))) key r.slot).bump
  | none => (s.writeRow result at_ (resultRow s none none)).bump

/-- SELECT (R331, R332). -/
def execSelect (v : VMove) (zAddr : AddrOp) (slot : Byte) (result : AddrOp) (s : State) : Res :=
  let q := s.seqOf v
  let b := (s.pos v).beat
  let set := (s.brOf (s.phys v)).at b
  let rows := logitRows (set.1 + 1) set.2
  issueEngine s v 4 true
    (reads (outRows (q.addr zAddr) rows b) ++ writes [(q.addr result, b + (rows + 3) / 4 + 640)])
    fun pos s => addFlight s pos (.select (q.addr zAddr) (256 * s.vord v + slot.toNat) (q.addr result) set.1 set.2)

end Sys2Proof.Machine
end

