-- ==== Sys2Proof/Machine/Serve.lean ====
section
/-!
DEFINITION. What every descriptor's meaning shares (R316, R349, R355, R361): the accepted descriptor it answers, refusals
and host errors, and the order among commands and steps that name one stream; and the end of a step (R74, R75).
-/

namespace Sys2Proof.Machine

/-! ### Accepted descriptors -/

/-- Field of `n` bytes at offset `o` of a descriptor. -/
def Acc.fld (a : Acc) (o n : Nat) : Nat := fieldAt a.desc o n
/-- Bits [hi:lo] of the field of `n` bytes at offset `o` of a descriptor. -/
def Acc.bits (a : Acc) (o n hi lo : Nat) : Nat := bitsAt a.desc o n hi lo
/-- KIND (R349). -/
def Acc.kind (a : Acc) : Nat := a.fld 0 1

/-- Answer accepted descriptor `acc` of a kind, whose work has not begun, by `f`; with none, nothing happens (log 1). -/
def serve (s : State) (acc kind : Nat) (f : Acc → Res) : Res :=
  match tfind s.intake.acc acc with
  | some a => if a.kind = kind ∧ a.begun = false then f a else .next s
  | none => .next s

/-- Refuse a descriptor: STATUS is the high byte of DETAIL (R361). -/
def refuse (s : State) (acc detail : Nat) : State := complete s acc (detail / 256) detail

/-- Complete a descriptor with HOST_ERROR (R355). -/
def hostFail (s : State) (acc : Nat) (d : HostData) : State := complete s acc 0x12 (hostDetail d)

/-- Mark an accepted descriptor as begun. -/
def begin_ (s : State) (acc : Nat) : State :=
  match tfind s.intake.acc acc with
  | some a => { s with intake := { s.intake with acc := tput acc { a with begun := true } s.intake.acc } }
  | none => s

/-! ### Order by stream (R316) -/

/-- Streams that a serving descriptor names. -/
def Acc.handles (a : Acc) : List Nat :=
  if a.kind ∈ [0x10, 0x11, 0x13, 0x18, 0x19] then [a.bits 8 4 19 0]
  else if a.kind = 0x12 then [a.bits 8 4 19 0, a.bits 0xC 4 19 0]
  else []

/-- The stream list of an accepted step, once its lists have been read; empty for a step that no longer holds its
streams. -/
def State.stepStreams (s : State) (acc : Nat) : Option (List Nat) :=
  match s.run with
  | some r =>
    if r.req.acc = acc then some (if r.wroteBack then [] else r.req.streams)
    else (s.steps.find? (fun x => x.acc == acc)).map (·.streams)
  | none => (s.steps.find? (fun x => x.acc == acc)).map (·.streams)

/-- Whether a serving descriptor accesses the prefix table (R324). -/
def Acc.table (a : Acc) : Bool := [0x18, 0x19, 0x1A].contains a.kind

/-- Whether a descriptor accepted before `acc` and not completed names one of the streams `hs`; a STEP whose lists are
still to be read may name any (R316). -/
def State.blocked (s : State) (acc : Nat) (hs : List Nat) : Bool :=
  s.intake.acc.any fun e =>
    decide (e.1 < acc) &&
      (if e.2.kind = 0x01 then
        match s.stepStreams e.1 with
        | none => true
        | some l => l.any hs.contains
      else e.2.handles.any hs.contains)

/-- Whether a serving descriptor accepted before `acc` and not completed names one of the streams `hs` (R316). -/
def State.unserved (s : State) (acc : Nat) (hs : List Nat) : Bool :=
  s.intake.acc.any fun e => decide (e.1 < acc) && e.2.handles.any hs.contains

/-- Whether a descriptor accepted before `acc` and not completed accesses the prefix table, as `acc` does (R324). -/
def State.tableBusy (s : State) (acc : Nat) (a : Acc) : Bool :=
  a.table && s.intake.acc.any (fun e => decide (e.1 < acc) && e.2.table)

/-- Answer a serving descriptor that names streams or accesses the prefix table, in acceptance order (R316, R324): the records
of its streams are read through their stacks' decoders (R283, R294; log 152). -/
def serveStreams (s : State) (acc kind : Nat) (f : State → Acc → State) : Res :=
  serve s acc kind fun a =>
    act (s.blocked acc a.handles = false ∧ s.tableBusy acc a = false) (f (readSystem s (a.handles.map recordUnit)) a) s

/-- A stream that a function may name (R308, R315). -/
def State.ownStream (s : State) (f h : Nat) : Option Stream :=
  match tfind s.streams h with
  | some x => if x.fn = f ∨ f = 0 then some x else none
  | none => none

/-! ### The end of a step (R74, R75) -/

/-- The step's last plan beat, once every sequencer has issued STEP_END (R74). -/
def State.lastBeat (s : State) : Option Nat :=
  (List.range 64).foldl (fun m v =>
    match m, (s.seqOf v).ended with
    | some m, some e => some (max m e)
    | _, _ => none) (some 0)

/-- Whether every movement has passed the last plan beat (R74). -/
def State.allPassed (s : State) : Bool :=
  match s.lastBeat with
  | some l => s.beatsOf.all (fun b => decide (l < b))
  | none => false

/-- Whether every command issued to a decoupling queue has retired (R75). -/
def State.allRetired (s : State) : Bool := s.queue.all (fun e => e.2.cmds.isEmpty)

/-- Whether the running step has reached its normal end (R75). -/
def State.stepDone (s : State) : Bool :=
  match s.run with
  | some _ => s.allPassed && s.allRetired && !s.cancelling
  | none => false

end Sys2Proof.Machine
end

