-- ==== Sys2Proof/Machine/Streams.lean ====
section
/-!
DEFINITION. Streams, prefixes and grammars as the stream engines serve them (R308 to R330), the write-back of a step's
records, and the retirement of a key domain (R291).
-/

namespace Sys2Proof.Machine

/-! ### Parameters (R309, R310, R356) -/

/-- The record that a parameter block spells (R309). -/
def paramStream (b : Bytes) (fn : Nat) : Stream :=
  { cls := bitsAt b 0 4 10 8, grammarOn := bitNat (fieldAt b 0 4) 11, domain := bitsAt b 0 4 24 12, fn := fn
    alts := bitsAt b 4 4 12 8, window := bitsAt b 4 4 18 13, tokens := BitVec.ofNat 32 (fieldAt b 0xC 4)
    maxTokens := BitVec.ofNat 32 (fieldAt b 0x10 4), lastToken := BitVec.ofNat 32 (fieldAt b 0x14 4)
    seed := BitVec.ofNat 64 (fieldAt b 0x20 8), temp := BitVec.ofNat 32 (fieldAt b 0x30 4)
    topP := BitVec.ofNat 32 (fieldAt b 0x34 4), minP := BitVec.ofNat 32 (fieldAt b 0x38 4), topK := bitsAt b 0x3C 4 10 0
    rep := BitVec.ofNat 32 (fieldAt b 0x40 4), pres := BitVec.ofNat 32 (fieldAt b 0x44 4)
    freq := BitVec.ofNat 32 (fieldAt b 0x48 4), grammar := bitsAt b 0x4C 4 11 0
    stopSet := (List.range 8).map fun i => BitVec.ofNat 32 (fieldAt b (0x50 + 4 * i) 4)
    pwin := (List.range 32).map fun i => BitVec.ofNat 32 (fieldAt b (0x80 + 4 * i) 4) }

/-- Whether every bit of a parameter block outside its fields is 0 (R356). -/
def paramReserved (b : Bytes) : Bool :=
  bitsAt b 0 4 7 0 == 0 && bitsAt b 0 4 31 25 == 0 && bitsAt b 4 4 7 0 == 0 && bitsAt b 4 4 31 19 == 0
    && fieldAt b 8 4 == 0 && fieldAt b 0x18 8 == 0 && fieldAt b 0x28 8 == 0 && bitsAt b 0x3C 4 31 11 == 0
    && bitsAt b 0x4C 4 31 12 == 0 && fieldAt b 0x70 16 == 0

/-- Value of an FP32 field. -/
def f32 (w : W32) : Val := fp32.decode w.toNat
/-- Whether a value is a number, not NaN and not an infinity. -/
def finiteVal (v : Val) : Bool := !isNaN v && !isInf v
/-- Whether a ≤ b. -/
def leVal (a b : Val) : Bool := ltVal a b || eqVal a b

def tempOk (w : W32) : Bool := let v := f32 w; finiteVal v && (isZeroVal v || !signVal v)
def topPOk (w : W32) : Bool := let v := f32 w; ltVal (.fin false 0 0) v && leVal v vOne
def minPOk (w : W32) : Bool := let v := f32 w; leVal (.fin false 0 0) v && leVal v vOne
def repOk (w : W32) : Bool := let v := f32 w; finiteVal v && leVal vOne v

/-- Whether the fields that a mask selects lie in their ranges (R309, R310); the bits are those of FIELDS (R356). -/
def paramRanges (x : Stream) (mask : Nat) : Bool :=
  (!bitNat mask 0 || decide (x.alts ≤ 20)) && (!bitNat mask 1 || decide (x.window ≤ 32))
    && (!bitNat mask 6 || tempOk x.temp) && (!bitNat mask 7 || topPOk x.topP) && (!bitNat mask 8 || minPOk x.minP)
    && (!bitNat mask 9 || decide (x.topK ≤ 1024)) && (!bitNat mask 10 || repOk x.rep)
    && (!bitNat mask 11 || finiteVal (f32 x.pres)) && (!bitNat mask 12 || finiteVal (f32 x.freq))

/-- Start state of a grammar (R315, R356); of one that is not resident, which a stream without GRAMMAR_ON may name, the spec
states none: a free value (DESIGN CHOICE, log 153). -/
def State.dfaStart (s : State) (g : Nat) : Nat :=
  ((tfind s.grammars g).map (·.start)).getD (Config.freeNat s.free % 2 ^ 16)

/-! ### STREAM_OPEN, STREAM_SET, STREAM_FORK, STREAM_CLOSE (R315) -/

/-- A class's SLOT_ROWS begin to stand when its first stream opens (R311). -/
def holdClass (s : State) (c : Nat) : State :=
  if s.classHeld c then s else { s with slotRows := tset 0 s.slotRows c (s.classRows c) }

/-- A function's count of open streams changes (R370). -/
def countStreams (s : State) (f : Nat) (g : Nat → Nat) : State :=
  let x := s.fnOf f
  s.setFn f { x with openStreams := g x.openStreams }

/-- STREAM_OPEN's effect on the parameter block read. -/
def streamOpenEff (s : State) (acc : Nat) (a : Acc) (b : Bytes) : State :=
  let h := a.bits 8 4 19 0
  let x := paramStream b a.fn
  if (tfind s.streams h).isSome then refuse s acc 0x0721
  else if (s.fnQuota a.fn).1 ≤ (s.fnOf a.fn).openStreams then (refuse s acc 0x0521).bump
  else if x.grammarOn ∧ (tfind s.grammars x.grammar).isNone then (refuse s acc 0x0632).bump
  else if ¬ (paramReserved b && paramRanges x 0xFFFF) then (refuse s acc 0x0121).bump
  else
    let x := { x with whead := x.window % 32, dfa := s.dfaStart x.grammar }
    let s := holdClass s x.cls
    let s := countStreams (putStream s h x) a.fn (· + 1)
    (complete s acc 0 0 { r1 := h }).bump

/-- STREAM_OPEN (R315). -/
def execStreamOpen (acc : Nat) (params : HostData) (s : State) : Res :=
  serveStreams s acc 0x10 fun s a =>
    match params with
    | .ok b => streamOpenEff s acc a b
    | d => hostFail s acc d

/-- The record with the fields that FIELDS selects replaced (R315, R356). -/
def setFields (old new : Stream) (mask : Nat) (dfa : Nat) : Stream :=
  let m (i : Nat) := bitNat mask i
  let x := { old with
    alts := if m 0 then new.alts else old.alts, window := if m 1 then new.window else old.window
    tokens := if m 2 then new.tokens else old.tokens, maxTokens := if m 3 then new.maxTokens else old.maxTokens
    lastToken := if m 4 then new.lastToken else old.lastToken, seed := if m 5 then new.seed else old.seed
    temp := if m 6 then new.temp else old.temp, topP := if m 7 then new.topP else old.topP
    minP := if m 8 then new.minP else old.minP, topK := if m 9 then new.topK else old.topK
    rep := if m 10 then new.rep else old.rep, pres := if m 11 then new.pres else old.pres
    freq := if m 12 then new.freq else old.freq }
  let x := if m 13 then { x with grammar := new.grammar, grammarOn := new.grammarOn, dfa := dfa } else x
  let x := if m 14 then { x with stopSet := new.stopSet } else x
  let x := if m 15 then { x with pwin := new.pwin, whead := x.window % 32 } else x
  if (m 2 || m 3 || m 14 || m 13) && x.state == 2 then { x with state := 1, reason := 0 } else x

/-- STREAM_SET's effect. -/
def streamSetEff (s : State) (acc : Nat) (a : Acc) (b : Bytes) : State :=
  let h := a.bits 8 4 19 0
  let mask := a.fld 0xC 2
  let x := paramStream b a.fn
  match s.ownStream a.fn h with
  | none => refuse s acc 0x0631
  | some old =>
    if bitNat mask 13 ∧ x.grammarOn ∧ (tfind s.grammars x.grammar).isNone then refuse s acc 0x0632
    else if ¬ (paramReserved b && paramRanges x mask) then refuse s acc 0x0121
    else
      complete (putStream s h (setFields old x mask (s.dfaStart x.grammar))).bump acc 0 0
        { r1 := h }

/-- STREAM_SET (R315). -/
def execStreamSet (acc : Nat) (params : HostData) (s : State) : Res :=
  serveStreams s acc 0x11 fun s a =>
    match params with
    | .ok b => streamSetEff s acc a b
    | d => hostFail s acc d

/-- STREAM_FORK's effect (R315). -/
def streamForkEff (s : State) (acc : Nat) (a : Acc) : State :=
  let child := a.bits 0xC 4 19 0
  if (tfind s.streams child).isSome then refuse s acc 0x0721
  else
    match s.ownStream a.fn (a.bits 8 4 19 0) with
    | none => refuse s acc 0x0631
    | some p =>
      if (s.fnQuota a.fn).1 ≤ (s.fnOf a.fn).openStreams then (refuse s acc 0x0521).bump
      else
        let x := { p with seed := BitVec.ofNat 64 (a.fld 0x10 8), fn := a.fn }
        let s := p.pages.foldl (fun s n => countPage s n (· + 1)) (putStream s child { x with nodes := [] })
        let s := (List.range p.nodes.length).foldl (fun s _ => growDirectory s child) s
        (complete (countStreams s a.fn (· + 1)) acc 0 0 { r1 := child }).bump

/-- STREAM_FORK (R315). -/
def execStreamFork (acc : Nat) (s : State) : Res := serveStreams s acc 0x12 fun s a => streamForkEff s acc a

/-- STREAM_CLOSE's effect (R313, R315). -/
def streamCloseEff (s : State) (acc : Nat) (a : Acc) : State :=
  let h := a.bits 8 4 19 0
  match s.ownStream a.fn h with
  | none => refuse s acc 0x0631
  | some x =>
    let s := x.pages.foldl (fun s n => countPage s n (· - 1))
      { clearSystem s (recordUnit h) with streams := tdel h s.streams }
    let s := if s.classHeld x.cls then s else { s with slotRows := tdel x.cls s.slotRows }
    complete (countStreams s x.fn (· - 1)) acc 0 0 { r0 := x.tokens.toNat, r1 := x.state + 8 * x.reason, r3 := x.length }

/-- STREAM_CLOSE (R315). -/
def execStreamClose (acc : Nat) (s : State) : Res := serveStreams s acc 0x13 fun s a => streamCloseEff s acc a

/-! ### Write-back (R321) -/

/-- The next grammar state after a token, none where no transition covers it (R328). -/
def GState.next (g : GState) (tok : Nat) : Option Nat :=
  (g.trans.find? (fun t => decide (t.1 ≤ tok ∧ tok ≤ t.2.1))).map (·.2.2)

/-- A listed record as the write-back leaves it (R321). -/
def backStream (s : State) (b : BSlot) (x : Stream) : Stream :=
  let x := { x with length := (b.openPos.map (· + 1)).getD b.latched.length, tokens := b.latched.tokens + BitVec.ofNat 32 b.s
                    counter := b.latched.counter + BitVec.ofNat 64 b.s, lastToken := b.now.lastToken, pwin := b.now.pwin
                    whead := b.now.whead, state := b.now.state, reason := b.now.reason }
  match b.lastTok with
  | some (tok, acceptOnly) =>
    if x.grammarOn ∧ acceptOnly = false then
      match b.gstate.bind (fun g => g.next tok) with
      | some n =>
        let terminal := (((tfind s.grammars x.grammar).bind (fun g => g.states[n]?)).map (·.terminal)).getD false
        let x := { x with dfa := n }
        if terminal ∧ x.state = 1 then { x with state := 2, reason := 3 } else x
      | none => x
    else x
  | none => x

/-- Write back one slot's record. -/
def backSlot (s : State) (b : BSlot) : State :=
  match tfind s.streams b.handle with
  | some x => putStream s b.handle (backStream s b x)
  | none => s

/-- STREAM_WRITEBACK (R321): every listed record, once the conditions of R75 hold. -/
def execStreamWriteback (s : State) : Res :=
  match s.run with
  | some r =>
    act (s.stepDone = true ∧ r.wroteBack = false)
      (((r.slots.map (·.2)).foldl backSlot s).onRun fun r => { r with wroteBack := true }) s
  | none => .next s

/-! ### Prefixes (R322 to R327) -/

/-- The chain of tags of token blocks under a domain's prefix key (R322). -/
def prefixTags (key : Nat) : Bytes → List Bytes → List W128
  | _, [] => []
  | before, b :: bs =>
    let t := Config.kmac key (before ++ b)
    t :: prefixTags key (leBytes 16 t.toNat) bs

/-- The first entry of a tag's bucket (R323). -/
def bucketOf (t : W128) : Nat := 8 * fieldNat t.toNat 20 0

/-- The entry of a bucket that holds a tag. -/
def State.prefixHit (s : State) (t : W128) : Option (Nat × Prefix) :=
  s.prefixes.find? (fun e => decide (bucketOf t ≤ e.1 ∧ e.1 < bucketOf t + 8) && e.2.tag == t)

/-- PREFIX_TTL in chronometer counts (R324). -/
def State.ttl (s : State) : Nat := max 1 s.prefixTtl * 1000

/-- Reclaim an entry: VALID cleared and the page freed (R325). -/
def reclaim (s : State) (e : Nat) (page : Nat) : State := settlePage { s with prefixes := tdel e s.prefixes } page

/-- Whether a sweep at the present count would reclaim an entry (R325). -/
def State.sweepable (s : State) (p : Prefix) : Bool :=
  ((tfind s.pages p.page).map (·.refs)).getD 0 == 0 && decide (p.expiry ≤ s.chron.count)

/-- Attach a page to a stream's directory (R324). -/
def attachPage (s : State) (h page : Nat) : State :=
  match tfind s.streams h with
  | some x => countPage (growDirectory (putStream s h { x with pages := x.pages ++ [page] }) h) page (· + 1)
  | none => s

/-- The units of a tag's bucket: eight ways, one per stack (R283, R323). -/
def bucketUnits (t : W128) : List (Nat × Nat) := (List.range 8).map fun w => prefixUnit (bucketOf t + w)

/-- Probe the tags from the first, until a miss: the state and the pages attached (R324). -/
def probeTags (h : Nat) (x : Stream) : List W128 → State → State × List Nat
  | [], s => (s, [])
  | t :: ts, s =>
    let s := readSystem s (bucketUnits t)
    match s.prefixHit t with
    | some (e, p) =>
      if p.domain = x.domain ∧ p.cls = x.cls ∧ s.chron.count < p.expiry then
        let s := { s with prefixes := tput e { p with expiry := max p.expiry (s.chron.count + s.ttl) } s.prefixes }
        let r := probeTags h x ts (attachPage s h p.page)
        (r.1, p.page :: r.2)
      else (s, [])
    | none => (s, [])

/-- Token blocks of a probe or a publish. -/
def tokenBlocks (n : Nat) (b : Bytes) : List Bytes := (List.range n).map fun i => slice b (256 * i) 256

/-- Set the LENGTH of a stream. -/
def setLength (s : State) (h n : Nat) : State :=
  match tfind s.streams h with
  | some x => putStream s h { x with length := n }
  | none => s

/-- PREFIX_PROBE's effect (R324, R327). -/
def prefixProbeEff (s : State) (acc : Nat) (a : Acc) (b : Bytes) : State :=
  let h := a.bits 8 4 19 0
  match s.ownStream a.fn h with
  | none => refuse s acc 0x0631
  | some x =>
    if x.length ≠ 0 then refuse s acc 0x0723
    else
      let tags := match (s.domOf x.domain).key with
        | some k => prefixTags k (leBytes 4 (a.fld 0xC 4)) (tokenBlocks (a.bits 0x10 4 6 0) b)
        | none => []
      let r : State × Nat × List Nat :=
        if s.replaying then
          let p := tget (s.chron.count, []) s.replay.probes acc
          (p.2.foldl (fun s n => attachPage s h n) { s with replay := { s.replay with probes := tdel acc s.replay.probes } },
            p.1, p.2)
        else let q := probeTags h x tags s; (q.1, s.chron.count, q.2)
      let s := setLength r.1 h (64 * r.2.2.length)
      let s := logEntry s 2 acc (leBytes 4 h ++ zeros 4 ++ leBytes 8 r.2.1 ++ leBytes 4 r.2.2.length
        ++ r.2.2.flatMap (leBytes 4))
      complete s acc 0 0 { r0 := r.2.1, r1 := r.2.2.length }

/-- PREFIX_PROBE (R324). -/
def execPrefixProbe (acc : Nat) (tokens : HostData) (s : State) : Res :=
  serveStreams s acc 0x18 fun s a =>
    match tokens with
    | .ok b => prefixProbeEff s acc a b
    | d => hostFail s acc d

/-- One of a list, by the free value of the moment; none of the empty list. -/
def State.pickOf (s : State) (l : List Nat) : Option Nat := l[Config.freeNat s.free % l.length]?

/-- The way of a tag's bucket that a publish writes: a free one, or else one that a sweep would reclaim (R324; which one
the spec leaves open, log 46). -/
def State.publishWay (s : State) (t : W128) : Option Nat :=
  let ways := (List.range 8).map (bucketOf t + ·)
  match ways.filter (fun e => (tfind s.prefixes e).isNone) with
  | [] => s.pickOf (ways.filter (fun e => match tfind s.prefixes e with | some p => s.sweepable p | none => false))
  | free => s.pickOf free

/-- Publish one block: whether it was entered (R324). -/
def publishBlock (x : Stream) (i : Nat) (t : W128) (s : State) : State × Bool :=
  let s := readSystem s (bucketUnits t)
  let page := x.pages.getD i 0
  if (s.prefixHit t).isSome ∨ s.named page then (s, false)
  else
    match s.publishWay t with
    | none => (s, false)
    | some e =>
      let s := match tfind s.prefixes e with | some p => reclaim s.bump e p.page | none => s.bump
      ({ s with prefixes := tput e { tag := t, page := page, cls := x.cls, domain := x.domain
                                     expiry := s.chron.count + s.ttl, depth := i } s.prefixes }, true)

/-- PREFIX_PUBLISH's effect (R324): every block must be covered by LENGTH (DEDUCED, log 52). -/
def prefixPublishEff (s : State) (acc : Nat) (a : Acc) (b : Bytes) : State :=
  let n := a.bits 0x10 4 6 0
  match s.ownStream a.fn (a.bits 8 4 19 0) with
  | none => refuse s acc 0x0631
  | some x =>
    if x.length < 64 * n then refuse s acc 0x0132
    else
      let tags := prefixTags ((s.domOf x.domain).key.getD 0) (leBytes 4 (a.fld 0xC 4)) (tokenBlocks n b)
      let r := (indexed tags).foldl (fun r e =>
        let p := publishBlock x e.1 e.2 r.1; (p.1, r.2 + natOfBool p.2)) (s, 0)
      complete r.1 acc 0 0 { r1 := r.2, r3 := n - r.2 }

/-- PREFIX_PUBLISH (R324). -/
def execPrefixPublish (acc : Nat) (tokens : HostData) (s : State) : Res :=
  serveStreams s acc 0x19 fun s a =>
    match tokens with
    | .ok b => prefixPublishEff s acc a b
    | d => hostFail s acc d

/-- Sweep one entry at the present count: whether it was reclaimed (R325). -/
def sweepEntry (s : State) (e : Nat) : State × Bool :=
  match tfind s.prefixes e with
  | some p => if s.sweepable p then (reclaim s e p.page, true) else (s, false)
  | none => (s, false)

/-- PREFIX_EVICT's effect (R324). -/
def prefixEvictEff (s : State) (acc : Nat) (a : Acc) : State :=
  let all := a.bits 8 4 16 16 == 1
  let dom := a.bits 8 4 12 0
  if all ∧ a.fn ≠ 0 then refuse s acc 0x0221
  else if all = false ∧ a.fn ≠ 0 ∧ (s.streams.any (fun h => h.2.domain == dom && h.2.fn == a.fn)) = false then
    refuse s acc 0x0633
  else
    let hits := (s.prefixes.filter (fun e => all || e.2.domain == dom)).map (·.1)
    let s := { s with prefixes := s.prefixes.map fun e =>
                 if hits.contains e.1 then (e.1, { e.2 with expiry := min e.2.expiry s.chron.count }) else e }
    let r := hits.foldl (fun r e => let x := sweepEntry r.1 e; (x.1, r.2 + natOfBool x.2)) (s, 0)
    complete r.1 acc 0 0 { r1 := r.2, r3 := hits.length - r.2 }

/-- PREFIX_EVICT (R324). -/
def execPrefixEvict (acc : Nat) (s : State) : Res := serveStreams s acc 0x1A fun s a => prefixEvictEff s acc a

/-- PREFIX_SWEEP (R325). -/
def execPrefixSweep (entry : BitVec 24) (s : State) : Res := .next (sweepEntry s entry.toNat).1

/-! ### Grammars (R328, R329) -/

/-- A state of a grammar image, with its transitions (R328). -/
def grammarState (b : Bytes) (states masks i : Nat) : GState :=
  let o := 64 + 16 * i
  let first := fieldAt b (o + 4) 4
  let base := 64 + 16 * states + 32768 * masks
  { mask := fieldAt b o 4, accept := bitNat (fieldAt b (o + 12) 4) 0, terminal := bitNat (fieldAt b (o + 12) 4) 1
    trans := (List.range (fieldAt b (o + 8) 4)).map fun k =>
      let t := base + 12 * (first + k)
      (fieldAt b t 4, fieldAt b (t + 4) 4, fieldAt b (t + 8) 2) }

/-- Whether transitions are ascending and disjoint, lead to states, and cover every token a mask allows (R328). -/
def transOk (states : Nat) (mask : Bytes) (g : GState) : Bool :=
  g.trans.all (fun t => decide (t.1 ≤ t.2.1 ∧ t.2.2 < states))
    && (g.trans.zip g.trans.tail).all (fun p => decide (p.1.2.1 < p.2.1))
    && (List.range 262144).all (fun t => !bitNat (mask.getD (t / 8) 0).toNat (t % 8) || (g.next t).isSome)

/-- Check and parse a grammar image (R328, R329); the number of masks follows from its size (DEDUCED, log 53). -/
def parseGrammar (b : Bytes) : Option Grammar :=
  let n := fieldAt b 4 4
  let start := fieldAt b 8 4
  let tr := fieldAt b 0xC 4
  let rest := b.length - 64 - 16 * n - 12 * tr
  let m := rest / 32768
  let base := 64 + 16 * n + 32768 * m
  if 64 + 16 * n + 12 * tr ≤ b.length ∧ rest % 32768 = 0 ∧ fieldAt b 0 4 = 0x4654_4752 ∧ 1 ≤ n ∧ n ≤ 65536 ∧ start < n
      ∧ fieldAt b 0x10 48 = 0 then
    let states := (List.range n).map (grammarState b n m)
    let masks := (List.range m).map fun i => slice b (64 + 16 * n + 32768 * i) 32768
    if (List.range n).all (fun i =>
          decide (fieldAt b (64 + 16 * i + 4) 4 + fieldAt b (64 + 16 * i + 8) 4 ≤ tr)
            && bitsAt b (64 + 16 * i + 12) 4 31 2 == 0)
        && (List.range tr).all (fun k => fieldAt b (base + 12 * k + 10) 2 == 0)
        && states.all (fun g => decide (g.mask < m) && transOk n (masks.getD g.mask []) g) then
      some { start := start, states := states, masks := masks, blocks := [] }
    else none
  else none

/-- Stacks of an image's 4 KiB blocks in the tenancy area: block m on stack m mod 8 (DESIGN CHOICE, log 54). -/
def imageStacks (bytes : Nat) : List Nat := (List.range ((bytes + 4095) / 4096)).map (· % 8)

/-- GRAMMAR_LOAD's effect (R328, R329). -/
def grammarLoadEff (s : State) (acc : Nat) (a : Acc) (b : Bytes) : State :=
  let id := a.bits 8 4 11 0
  if (tfind s.grammars id).isSome then refuse s acc 0x0722
  else
    match parseGrammar b with
    | none => refuse s acc 0x0123
    | some g =>
      let sts := imageStacks b.length
      if s.room sts then
        let t := takeBlocks (reserveDomain s 0 sts.length) sts
        let s := writeRun t.1 t.2 0 0 ((List.range ((b.length + 255) / 256)).map fun i => slice b (256 * i) 256)
        complete { s with grammars := tput id { g with blocks := t.2 } s.grammars } acc 0 0
      else refuse s acc 0x0412

/-- GRAMMAR_LOAD (R328, R329). -/
def execGrammarLoad (acc : Nat) (image : HostData) (s : State) : Res :=
  serve s acc 0x06 fun a =>
    .next (match image with
      | .ok b => if b.length = a.fld 0x18 8 then grammarLoadEff s acc a b else refuse s acc 0x0123
      | d => hostFail s acc d)

/-- GRAMMAR_UNLOAD's effect (R329). -/
def grammarUnloadEff (s : State) (acc : Nat) (a : Acc) : State :=
  let id := a.bits 8 4 11 0
  match tfind s.grammars id with
  | none => refuse s acc 0x0632
  | some g =>
    if s.streams.any (fun h => h.2.grammarOn && h.2.grammar == id) then refuse s acc 0x0722
    else
      complete (freeBlocks (releaseDomain { s with grammars := tdel id s.grammars } 0 g.blocks.length) g.blocks) acc 0 0

/-- GRAMMAR_UNLOAD (R329). -/
def execGrammarUnload (acc : Nat) (s : State) : Res := serve s acc 0x07 fun a => .next (grammarUnloadEff s acc a)

end Sys2Proof.Machine
end

