-- ==== Sys2Proof/Machine/Cadence.lean ====
section
/-!
DEFINITION. The cadence (R372 to R381): frames, windows, and their ends; and what a window admits. All times are
chronometer counts.
-/

namespace Sys2Proof.Machine

/-! ### Cadence entries (R373) -/

/-- What a cadence window is to be. -/
structure WinSpec where
  fn     : Nat
  slot   : Option Nat
  guard  : Nat
  length : Nat
  blank  : Bool
  bad    : Bool := false
deriving DecidableEq, Repr

/-- The blank window of 1 µs that an invalid entry runs as (R373). -/
def badWindow : WinSpec := { fn := 0, slot := none, guard := 0, length := 1000, blank := true, bad := true }

/-- The window an entry spells, by its own fields (R373). -/
def parseEntry (e : Nat) : WinSpec :=
  let len := fieldNat e 31 16
  if check8 e ∧ fieldNat e 55 48 = 0 ∧ len ≠ 0 ∧ fieldNat e 47 32 ≤ len then
    { fn := fieldNat e 7 0, slot := if bitNat e 14 then some (fieldNat e 13 8) else none
      guard := 100 * fieldNat e 47 32, length := 100 * len, blank := bitNat e 15 }
  else badWindow

/-- Entry `i` as a lookup sees it, a torn entry being invalid (R566, R567). -/
def State.lookWindow (s : State) (i : Nat) : WinSpec :=
  match s.look tblCadence i with
  | some e => parseEntry e.toNat
  | none => badWindow

/-- Entry `i` as it runs now: blank for a function not enabled or in reset, and for an emptied slot (R133, R373). -/
def State.runWindow (s : State) (i : Nat) : WinSpec :=
  let w := s.lookWindow i
  if w.blank then w
  else if ¬ s.fnEnabled w.fn ∨ (s.fnOf w.fn).inReset ∨ (w.slot.isSome ∧ s.cad.emptied.contains i) then
    { w with blank := true }
  else w

/-- Whether some valid entry of the table assigns a slot to a function with STEPS 1 (R380). -/
def State.assigned (s : State) (f slot : Nat) : Bool :=
  (List.range 1024).any fun i =>
    let w := s.lookWindow i
    !w.blank && w.fn == f && w.slot == some slot

/-! ### The schedule (R374, R379) -/

/-- Whether the cadence table is used: a tenancy is open or closing (R379). -/
def State.tabled (s : State) : Bool := decide (2 ≤ s.tenancy.phase)

/-- Length of a frame in FIXED mode (R374). -/
def State.frameLength (s : State) : Nat :=
  100 * s.cad.ctrlLen + ((List.range (s.cad.last + 1)).map fun i =>
    (parseEntry (s.activeEntry tblCadence i).toNat).length).sum

/-- Scheduled start of frame `k` (R374, R378). -/
def State.frameAt (s : State) (k : Nat) : Nat := s.cad.epoch + k * s.frameLength + s.cad.shift

/-- The first frame whose scheduled start is not past (DESIGN CHOICE, log 57). -/
def State.firstFrame (s : State) : Nat :=
  let base := s.cad.epoch + s.cad.shift
  let f := max 1 s.frameLength
  if s.chron.count ≤ base then 0 else (s.chron.count - base + f - 1) / f

/-- Whether a frame may begin now. -/
def State.frameDue (s : State) : Bool :=
  s.cad.frameOver && s.cad.win.isNone && s.stop.state != 2 && s.hostUp
    && (!s.tabled || s.cad.compact || decide (s.frameAt s.cad.frame ≤ s.chron.count))

/-- Copy a table's shadow to its active copy (R564); a cadence entry written since the last commit counts as rewritten
(R133). -/
def commitNow (s : State) (t : Nat) : State :=
  let l := s.tableOf t
  let s := if t = tblCadence then { s with cad := { s.cad with emptied := s.cad.emptied.filter (!l.touched.contains ·) } } else s
  s.setTable t { l with active := l.shadow, updating := [], touched := [], passed := l.pending }

/-- Take the cadence settings and the table commit that wait for a frame start (R372, R565): whether the schedule
changed. -/
def takeCadence (s : State) : State × Bool :=
  let c := s.cad
  let changed := c.nextCompact != c.compact || c.nextLast != c.last || c.nextCtrlLen != c.ctrlLen || c.nextEpoch != c.epoch
    || ((s.tableOf tblCadence).pending && !(s.tableOf tblCadence).passed)
  let s := { s with cad := { c with compact := c.nextCompact, last := c.nextLast, ctrlLen := c.nextCtrlLen
                                    epoch := c.nextEpoch } }
  (if (s.tableOf tblCadence).pending && !(s.tableOf tblCadence).passed then commitNow s tblCadence else s, changed)

/-- A window begins (R374): the intake's visits start afresh, and the shadows of its function are to be read (R344). -/
def beginWindow (s : State) (win : Nat) (w : WinSpec) (sched : Nat) : State :=
  let c := s.cad
  let due := if ¬ w.blank ∧ (s.fnOf w.fn).shadowEn then insertNat w.fn s.intake.shadowDue else s.intake.shadowDue
  { s with
    cad := { c with win := some win, fn := some w.fn, slot := w.slot, guard := w.guard, blank := w.blank
                    start := s.chron.count, length := w.length, sched := sched, own := []
                    begun := if w.blank then c.begun else c.begun + 1 }
    intake := { s.intake with sq := none, taken := 0, closed := [], shadowDue := due } }

/-- FRAME_START's effect: pending settings and commits are taken; the control window begins, or, with no tenancy, the turn
of the first function is next (R372, R374, R376, R379). Where the settings move the frame's start on, it waits for it. -/
def frameStartEff (s : State) : State :=
  let t := takeCadence s
  let s := t.1
  let k := if t.2 ∧ ¬ s.cad.compact then s.firstFrame else s.cad.frame
  let s := { s with cad := { s.cad with frame := k } }
  if ¬ s.tabled then { s with cad := { s.cad with frameOver := false, turn := 0 } }
  else if t.2 ∧ ¬ s.cad.compact ∧ s.chron.count < s.frameAt k then s
  else
    let sched := if s.cad.compact then s.chron.count else s.frameAt k
    let ctrl : WinSpec := { fn := 0, slot := none, guard := 0, length := 100 * s.cad.ctrlLen, blank := false }
    beginWindow { s with cad := { s.cad with frameOver := false, frame := k + 1, turn := 0 } } 0 ctrl sched

/-- FRAME_START (R374). -/
def execFrameStart (s : State) : Res := act (s.frameDue = true) (frameStartEff s) s

/-- The next enabled function from `f` on (R379). -/
def State.nextFn (s : State) (f : Nat) : Option Nat :=
  (List.range 256).find? (fun g => decide (f ≤ g) && s.fnEnabled g && !(s.fnOf g).inReset)

/-- CADENCE_ENTRY_INVALID (R373). -/
def entryInvalid (s : State) (i : Nat) : State := raise s 0x0402 0 (packDetail [(2, i)])

/-- WINDOW_START's effect with a tenancy: entry `turn` of the table. A blank window takes no time in COMPACT mode
(R374). -/
def windowStartEff (s : State) : State :=
  let i := s.cad.turn
  let w := s.runWindow i
  let s := if w.bad then entryInvalid s i else s
  if w.blank ∧ s.cad.compact then
    { s with cad := { s.cad with turn := i + 1, frameOver := decide (s.cad.last ≤ i) } }.bump
  else (beginWindow s (i + 1) w (if s.cad.compact then s.chron.count else s.cad.sched)).bump

/-- WINDOW_START with no tenancy: a window of 2 µs for the next enabled function (R379). -/
def turnStartEff (s : State) : State :=
  match s.nextFn s.cad.turn with
  | some f => beginWindow s (f + 1) { fn := f, slot := none, guard := 0, length := 2000, blank := false } s.chron.count
  | none => { s with cad := { s.cad with frameOver := true } }

/-- WINDOW_START (R374, R379). -/
def execWindowStart (s : State) : Res :=
  let c := s.cad
  act (c.frameOver = false ∧ c.win = none ∧ s.stop.state ≠ 2
      ∧ (s.tabled = false ∨ c.compact = true ∨ c.sched ≤ s.chron.count))
    (if s.tabled then windowStartEff s else turnStartEff s) s

/-- Whether a step accepted in the window in force is running (R374). -/
def State.ownRunning (s : State) : Bool :=
  match s.run with
  | some r => s.cad.own.contains r.req.acc
  | none => false

/-- Whether the window in force has reached its end (R374). -/
def State.windowEnded (s : State) : Bool :=
  let c := s.cad
  let now := s.chron.count
  if c.blank then (c.compact && s.tabled) || decide (max c.start (c.sched + c.length) ≤ now)
  else decide (c.start + c.length ≤ now)

/-- Close the window in force (R374): what was fetched and not accepted is fetched again later. -/
def closeWindow (s : State) : State :=
  let c := s.cad
  let i := c.win.getD 0
  let s := { s with intake := { s.intake with sq := none, taken := 0, fetched := none } }
  if ¬ s.tabled then
    { s with cad := { c with win := none, own := [], turn := i, frameOver := (s.nextFn i).isNone } }
  else
    { s with cad := { c with win := none, own := [], turn := i, sched := c.sched + c.length
                             frameOver := decide (c.last < i) } }

/-- WINDOW_OVERRUN (R374, R377) at a step's end past the length of the window it was accepted in, whether or not that window
has ended by then: the table entry and the overrun in ns (DESIGN CHOICE, log 58). -/
def reportOverrun (s : State) (w : Nat × Nat × Nat) : State :=
  let due := w.2.1 + (s.cad.shift - w.2.2)
  if due < s.chron.count then raise s 0x0403 0 (packDetail [(2, w.1), (8, s.chron.count - due)]) else s

/-- WINDOW_END's effect: a window whose own step still runs at its length goes on to that step's end (R374). -/
def windowEndEff (s : State) : State := if s.ownRunning then s else closeWindow s

/-- WINDOW_END (R374). -/
def execWindowEnd (s : State) : Res :=
  act (s.cad.win.isSome = true ∧ s.stop.state ≠ 2 ∧ s.windowEnded = true) (windowEndEff s) s

/-- Whether a function has a step running, or accepted and unlaunched (R375). -/
def State.fnBusy (s : State) (f : Nat) : Bool :=
  (match s.run with | some r => r.req.fn == f | none => false)
    || s.intake.acc.any (fun e => e.2.fn == f && e.2.kind == 0x01)

/-- Whether an SQ of a function holds an entry between HEAD and its last known tail (R375). -/
def State.fnWaiting (s : State) (f : Nat) : Bool :=
  (List.range 16).any fun q => let r := s.sqOf f q; r.enable && r.head != r.tail

/-- WINDOW_IDLE_END (R375): a COMPACT window of a function with nothing to do, after 1 µs and its read of the shadows. -/
def execWindowIdleEnd (s : State) : Res :=
  let c := s.cad
  let f := c.fn.getD 0
  act (c.win.isSome = true ∧ c.win ≠ some 0 ∧ c.compact = true ∧ c.blank = false ∧ s.tabled = true ∧ s.stop.state ≠ 2
      ∧ s.fnBusy f = false ∧ s.fnWaiting f = false ∧ s.intake.shadowDue.contains f = false
      ∧ c.start + 1000 ≤ s.chron.count)
    (closeWindow s) s

end Sys2Proof.Machine
end

