-- ==== Sys2Proof/Machine/Descriptors.lean ====
section
/-!
DEFINITION. The form of descriptors (R349 to R351, R356, R486, R490, R495): reserved bits, addresses and ranges of each
kind, and who may issue it.
-/

namespace Sys2Proof.Machine

/-- Kinds of descriptor (R350). -/
def kindKnown (k : Nat) : Bool :=
  [0x01, 0x02, 0x03, 0x04, 0x05, 0x06, 0x07, 0x08, 0x10, 0x11, 0x12, 0x13, 0x18, 0x19, 0x1A, 0x20, 0x21, 0x28,
   0x30].contains k

/-- Kinds marked PF0 (R350). -/
def kindPf0 (k : Nat) : Bool := [0x02, 0x03, 0x04, 0x05, 0x06, 0x07, 0x08, 0x20, 0x21, 0x28].contains k

/-- The bits of the 64-bit words 1 to 15 of a kind's body that its layout names; later words are reserved. -/
def bodyMask (k : Nat) : List Nat :=
  let all := 0xFFFF_FFFF_FFFF_FFFF
  match k with
  | 0x01 => [0xFFFF_007F_FFFF_FFFF, all, all, all, all, all, all, all, all]
  | 0x02 => [0x3F, all, all]
  | 0x03 => [0x3F]
  | 0x04 => [0x0000_FFFF_0000_000F, all, all, all, all, all]
  | 0x05 => [all, all, all, all, all, all]
  | 0x06 => [0xFFF, all, all]
  | 0x07 => [0xFFF]
  | 0x08 => [0x1FFF]
  | 0x10 => [0xF_FFFF, all]
  | 0x11 => [0x0000_FFFF_000F_FFFF, all]
  | 0x12 => [0x000F_FFFF_000F_FFFF, all]
  | 0x13 => [0xF_FFFF]
  | 0x18 => [0xFFFF_FFFF_000F_FFFF, 0x7F, all]
  | 0x19 => [0xFFFF_FFFF_000F_FFFF, 0x7F, all]
  | 0x1A => [0x1_1FFF]
  | 0x20 => [all, all, all, all, 0x3FFF]
  | 0x21 => [1]
  | 0x28 => [0xFFFF_FFFF_0000_01FF, 0xFFFF_FFFF]
  | _ => []

/-- Whether every reserved bit of a descriptor is 0 (R11, R349). -/
def reservedClear (d : Bytes) : Bool :=
  bitsAt d 0 2 15 10 == 0 && fieldAt d 4 4 == 0 &&
    (List.range 15).all fun i =>
      let w := fieldAt d (8 * (i + 1)) 8
      let m := (bodyMask (fieldAt d 0 1)).getD i 0
      (BitVec.ofNat 64 w &&& ~~~ BitVec.ofNat 64 m) == 0

/-- Whether an address field is aligned. -/
def alignedAt (d : Bytes) (o n : Nat) : Bool := fieldAt d o 8 % n == 0

/-- Whether an address field whose count is given is aligned, and 0 with a count of 0 (R351). -/
def countedAt (d : Bytes) (o n count : Nat) : Bool := alignedAt d o n && (count != 0 || fieldAt d o 8 == 0)

/-- Detail of a STEP's own rules (R318, R351, R361), 0 when it keeps them. -/
def stepDetail (d : Bytes) : Nat :=
  let start := bitsAt d 8 4 7 6
  let patches := bitsAt d 8 4 20 8
  let streams := bitsAt d 8 4 31 21
  let bufs := bitsAt d 0xC 4 6 0
  let cap := fieldAt d 0xE 2
  if start = 3 then 0x0131
  else if 1024 < streams then 0x0122
  else if 4096 < patches ∨ 64 < bufs ∨ (start ≠ 1 ∧ fieldAt d 0x10 8 ≠ 0) ∨ ¬ countedAt d 0x18 8 patches
      ∨ ¬ countedAt d 0x20 4 streams ∨ ¬ countedAt d 0x28 16 bufs ∨ ¬ alignedAt d 0x30 64 ∨ ¬ countedAt d 0x38 8 cap
      ∨ (start ≠ 2 ∧ fieldAt d 0x40 16 ≠ 0) then 0x0132
  else if fieldAt d 0x30 8 = 0 then 0x0134
  else 0

/-- Detail of a descriptor that is ill-formed (R350, R351, R356, R361), 0 when it is well formed. -/
def formDetail (d : Bytes) : Nat :=
  let k := fieldAt d 0 1
  if ¬ kindKnown k then 0x0131
  else if ¬ reservedClear d then 0x0131
  else
    let bad (c : Bool) : Nat := if c then 0x0132 else 0
    match k with
    | 0x01 => stepDetail d
    | 0x02 => bad (!alignedAt d 0x10 256)
    | 0x04 => bad (decide (4 < bitsAt d 8 4 3 1) || !alignedAt d 0x18 8 || !alignedAt d 0x28 16 || !alignedAt d 0x30 8)
    | 0x06 => bad (!alignedAt d 0x10 64)
    | 0x08 => bad (bitsAt d 8 4 12 0 == 0)
    | 0x10 => bad (!alignedAt d 0x10 256)
    | 0x11 => bad (!alignedAt d 0x10 256)
    | 0x18 => bad (decide (fieldAt d 0x10 1 = 0 ∨ 64 < fieldAt d 0x10 1) || !alignedAt d 0x18 8)
    | 0x19 => bad (decide (fieldAt d 0x10 1 = 0 ∨ 64 < fieldAt d 0x10 1) || !alignedAt d 0x18 8)
    | 0x20 => bad (!alignedAt d 0x18 64 || !countedAt d 0x20 16 (bitsAt d 0x28 4 12 0))
    | _ => 0

/-- Whether a PLAN_UNLOAD of a slot has been accepted and not completed (R133). -/
def State.unloadAccepted (s : State) (slot : Nat) : Bool :=
  s.intake.acc.any fun e => fieldAt e.2.desc 0 1 == 0x03 && bitsAt e.2.desc 8 4 5 0 == slot

/-- Detail with which the intake refuses a well-formed descriptor at once (R133, R350, R380, R463, R494): the issuer, the
tenancy, an empty slot, no window, no membership; 0 when it does not. -/
def admitDetail (s : State) (fn : Nat) (d : Bytes) : Nat :=
  let k := fieldAt d 0 1
  if kindPf0 k ∧ fn ≠ 0 then 0x0221
  else if s.tenancy.phase ≠ 2 ∧ k ≠ 0x20 ∧ k ≠ 0x30 then 0x0641
  else if s.tenancy.phase = 2 ∧ s.tenancy.kind = 2 ∧ ¬ [0x04, 0x21, 0x30, 0x20].contains k then 0x0642
  else if k = 0x01 then
    let slot := bitsAt d 8 4 5 0
    match s.slotOf slot with
    | .resident p =>
      if 1 < p.gridSize ∧ ¬ s.grid.memberEn then 0x0661
      else if ¬ s.assigned fn slot then 0x0651
      else if s.unloadAccepted slot then 0x0601
      else 0
    | _ => if ¬ s.assigned fn slot then 0x0651 else 0x0601
  else 0

end Sys2Proof.Machine
end

