-- ==== Sys2Proof/Machine/Host.lean ====
section
/-!
DEFINITION. Host rings (12_host_rings.md): ring contexts, doorbells and shadows, fetch and acceptance of descriptors, the
STEP descriptor, the H movement's ops, and interrupts.
-/

namespace Sys2Proof.Machine

/-! ### Ring errors (R365) -/

/-- RING_ERROR: the function, the ring (a CQ as 16 + its number, DESIGN CHOICE, log 56) and the ERR code. -/
def ringError (s : State) (f ring err : Nat) : State :=
  raise s 0x0401 0 (leBytes 1 ring ++ leBytes 1 err) none f

/-- Stop an SQ with an error. -/
def stopSq (s : State) (f q err : Nat) : State :=
  ringError (s.setSq f q { s.sqOf f q with err := err, stopped := true }) f q err

/-- Stop a CQ with an error; its SQs stop fetching. -/
def stopCq (s : State) (f q err : Nat) : State :=
  ringError (s.setCq f q { s.cqOf f q with err := err, stopped := true }) f (16 + q) err

/-! ### Tails, heads and event indices (R341 to R344) -/

/-- Distance from `a` to `b` modulo `n`. -/
def ringDist (n a b : Nat) : Nat := (b + n - a % n) % n

/-- The PASID of a function's shadow and event pages (R559). -/
def FnState.pagePasid (x : FnState) : Option Nat := pasidOf x.pasidEn x.pasid

/-- Write an entry of a function's event page (R343). -/
def writeEvent (s : State) (f o v : Nat) : State :=
  let x := s.fnOf f
  if x.shadowEn then hostWrite s f x.pagePasid (x.eventBase + BitVec.ofNat 64 o) (leBytes 4 v) else s

/-- The SQ event index, when every entry up to the last tail read has been fetched (R343). -/
def sqEvent (s : State) (f q : Nat) : State :=
  let r := s.sqOf f q
  if r.head = r.tail then writeEvent s f (4 * q) r.tail else s

/-- Whether a CQ has an entry free after its reservations (R347). -/
def Cq.room (c : Cq) : Bool :=
  let n := 2 ^ c.sizeLog2
  decide (ringDist n c.head c.tail + c.resv + 1 < n)

/-- The CQ event index, when a descriptor waits for room: the head value that would give it (R343, R347). -/
def cqEvent (s : State) (f q : Nat) : State :=
  let r := s.sqOf f q
  let c := s.cqOf f r.cq
  let n := 2 ^ c.sizeLog2
  if r.enable && r.head != r.tail && !c.room then
    writeEvent s f (0x40 + 4 * r.cq) ((c.tail + c.resv + 2) % n)
  else s

/-- Take a tail of an SQ (R344, R365): one of N or more is an error; one that covers fewer entries is stale. -/
def takeTail (s : State) (f q t : Nat) : State :=
  let r := s.sqOf f q
  let n := 2 ^ r.sizeLog2
  if ¬ r.enable ∨ r.stopped then s
  else if n ≤ t then stopSq s f q 1
  else if ringDist n r.head r.tail < ringDist n r.head t then
    cqEvent (s.setSq f q { r with tail := t, marks := r.marks ++ [(r.seq + ringDist n r.head t, s.cad.begun)] }) f q
  else s

/-- Take a head of a CQ (R344, R365). A head outside those between the last one known and TAIL may be stale or beyond
TAIL, which the spec gives no way to tell apart: either happens, freely (log 55). -/
def takeHead (s : State) (f q h : Nat) : State :=
  let c := s.cqOf f q
  let n := 2 ^ c.sizeLog2
  if ¬ c.enable ∨ c.stopped then s
  else if n ≤ h then stopCq s f q 2
  else if ringDist n h c.tail ≤ ringDist n c.head c.tail then s.setCq f q { c with head := h }
  else if s.choice 3 0 % 2 = 0 then s.bump
  else (stopCq s f q 2).bump

/-- A doorbell's access: only a 32-bit write to an enabled function counts; any other width is ignored and counted
(R341). -/
def doorbell (s : State) (f width : Nat) (take : State → State) : State :=
  let x := s.fnOf f
  if ¬ s.fnEnabled f ∨ x.inReset then s
  else if width ≠ 32 then
    (s.setFn f { x with doorbellIgnored := satNat 32 (x.doorbellIgnored + 1) }).noteSet (keyDoorbell f)
  else
    let s := take s
    if (s.fnOf f).shadowEn then { s with intake := { s.intake with shadowDue := insertNat f s.intake.shadowDue } } else s

/-- SQ_TAIL_DOORBELL (R341, R344). -/
def execSqTailDoorbell (f : Fn) (q : Fin 16) (width : Nat) (value : W64) (s : State) : Res :=
  .next (doorbell s f width fun s => takeTail s f q (fieldNat value.toNat 15 0))

/-- CQ_HEAD_DOORBELL (R341, R344). -/
def execCqHeadDoorbell (f : Fn) (q : Fin 16) (width : Nat) (value : W64) (s : State) : Res :=
  .next (doorbell s f width fun s => takeHead s f q (fieldNat value.toNat 15 0))

/-- Take every entry of a shadow page (R342, R344). -/
def takePage (s : State) (f : Nat) (b : Bytes) : State :=
  let s := (List.range 16).foldl (fun s q => sqEvent (takeTail s f q (bitsAt b (4 * q) 4 15 0)) f q) s
  (List.range 16).foldl (fun s q =>
    if (s.cqOf f q).enable then takeHead s f q (bitsAt b (0x40 + 4 * q) 4 15 0) else s) s

/-- SHADOW_READ (R344, R365): a failed access disables the function's shadows. -/
def execShadowRead (f : Fn) (page : HostData) (s : State) : Res :=
  let x := s.fnOf f
  act (s.intake.shadowDue.contains f.val = true ∧ x.shadowEn = true ∧ x.inReset = false ∧ s.stop.state ≠ 2)
    (let s := { s with intake := { s.intake with shadowDue := s.intake.shadowDue.filter (· != f.val) } }
     match page with
     | .ok b => takePage s f b
     | _ => (s.setFn f { x with shadowErr := true, shadowEn := false }).noteSet (keyShadow f)) s

/-! ### Ring contexts (R339, R340) -/

/-- Word 1 of an SQ context as it reads (R339). -/
def Sq.word (r : Sq) : W64 :=
  BitVec.ofNat 64 (r.sizeLog2 + r.cq * 2 ^ 8 + natOfBool r.enable * 2 ^ 12 + natOfBool r.pasidEn * 2 ^ 13 + r.pasid * 2 ^ 14
    + r.err * 2 ^ 36 + r.head * 2 ^ 48)

/-- Word 1 of a CQ context as it reads (R339). -/
def Cq.word (c : Cq) : W64 :=
  BitVec.ofNat 64 (c.sizeLog2 + c.vector * 2 ^ 8 + natOfBool c.irqEn * 2 ^ 19 + natOfBool c.enable * 2 ^ 20
    + natOfBool c.pasidEn * 2 ^ 21 + c.pasid * 2 ^ 22 + c.err * 2 ^ 42 + natOfBool (decide (0 < c.resv)) * 2 ^ 46
    + c.tail * 2 ^ 48)

/-- An SQ with its ring moved: HEAD and the last known tail 0 (R340). -/
def Sq.restart (r : Sq) : Sq := { r with head := 0, tail := 0, marks := [], seq := 0 }

/-- A write of an SQ's word 1 (R339, R340, R365). -/
def sqWrite (s : State) (f q : Nat) (v : Nat) : State :=
  let r := s.sqOf f q
  let size := fieldNat v 4 0
  let r1 :=
    if r.enable then r
    else
      let x := { r with sizeLog2 := size, cq := fieldNat v 11 8, pasidEn := bitNat v 13, pasid := fieldNat v 33 14 }
      if size ≠ r.sizeLog2 then x.restart else x
  let en := bitNat v 12
  if ¬ en then s.setSq f q { r1 with enable := false }
  else if r.enable then s
  else if r1.sizeLog2 = 0 ∨ 16 < r1.sizeLog2 ∨ r1.base = 0 then ringError (s.setSq f q { r1 with err := 4 }) f q 4
  else if ¬ (s.cqOf f r1.cq).enable then ringError (s.setSq f q { r1 with err := 5 }) f q 5
  else s.setSq f q { r1 with enable := true, err := 0, stopped := false }

/-- SQ_CONTEXT_WRITE (R339, R340). -/
def execSqContextWrite (f : Fn) (q : Fin 16) (word : Bool) (offset width : Nat) (value : W64) (s : State) : Res :=
  let r := s.sqOf f q
  .next (if ¬ s.fnEnabled f ∨ (s.fnOf f).inReset then s
    else if word then
      match regMerge r.word offset width value with
      | some v => sqWrite s f q v.toNat
      | none => s
    else
      match regMerge r.base offset width value with
      | some v =>
        let b := v &&& ~~~ 0xFFF
        if r.enable ∨ b = r.base then s else s.setSq f q { r with base := b }.restart
      | none => s)

/-- A CQ with its ring moved: TAIL and the last known head 0, PHASE 1 on the next pass (R340). -/
def Cq.restart (c : Cq) : Cq := { c with tail := 0, head := 0, phase := true }

/-- A write of a CQ's word 1 (R339, R340, R365, R382, R385). -/
def cqWrite (s : State) (f q : Nat) (v : Nat) : State :=
  let c := s.cqOf f q
  let size := fieldNat v 4 0
  let irq := bitNat v 19
  let c0 := { c with vector := fieldNat v 18 8, irqEn := irq, pendingIrq := if irq then c.pendingIrq else 0 }
  let c1 :=
    if c.enable ∨ 0 < c.resv then c0
    else
      let x := { c0 with sizeLog2 := size, pasidEn := bitNat v 21, pasid := fieldNat v 41 22 }
      if size ≠ c.sizeLog2 then x.restart else x
  if ¬ bitNat v 20 then s.setCq f q { c1 with enable := false }
  else if c.enable then s.setCq f q c1
  else if c1.sizeLog2 = 0 ∨ 16 < c1.sizeLog2 ∨ c1.base = 0 then ringError (s.setCq f q { c1 with err := 4 }) f (16 + q) 4
  else if c1.vector / 8 ≠ f then ringError (s.setCq f q { c1 with err := 6 }) f (16 + q) 6
  else s.setCq f q { c1 with enable := true, err := 0, stopped := false }

/-- CQ_CONTEXT_WRITE (R339, R340). -/
def execCqContextWrite (f : Fn) (q : Fin 16) (word : Bool) (offset width : Nat) (value : W64) (s : State) : Res :=
  let c := s.cqOf f q
  .next (if ¬ s.fnEnabled f ∨ (s.fnOf f).inReset then s
    else if word then
      match regMerge c.word offset width value with
      | some v => cqWrite s f q v.toNat
      | none => s
    else
      match regMerge c.base offset width value with
      | some v =>
        let b := v &&& ~~~ 0xFFF
        if c.enable ∨ 0 < c.resv ∨ b = c.base then s else s.setCq f q { c with base := b }.restart
      | none => s)

/-! ### Fetch (R345, R347) -/

/-- Whether the intake may fetch from an SQ of the window's function (R345, R347, R377). -/
def State.fetchable (s : State) (f q : Nat) : Bool :=
  let r := s.sqOf f q
  let c := s.cqOf f r.cq
  r.enable && !r.stopped && r.head != r.tail && c.enable && !c.stopped && c.room && !s.intake.closed.contains q

/-- The SQ that the intake takes from next: the one it visits while it has taken fewer than 8, else the next in ascending
ring number after the one visited last (R345). -/
def State.nextSq (s : State) (f : Nat) : Option Nat :=
  match s.intake.sq with
  | some q =>
    if s.intake.taken < 8 ∧ s.fetchable f q then some q
    else ((List.range 16).map (fun i => (q + 1 + i) % 16)).find? (s.fetchable f)
  | none => ((List.range 16).map (fun i => ((s.fnOf f).lastSq + 1 + i) % 16)).find? (s.fetchable f)

/-- Whether the intake may fetch for a function now (R345, R378, R386, R496, R540). -/
def State.fetchOpen (s : State) (f : Nat) : Bool :=
  s.cad.win.isSome && s.cad.fn == some f && !s.cad.blank && s.stop.state != 2 && !(s.fnOf f).inReset
    && s.tenancy.phase != 3 && s.intake.fetched.isNone && !s.replaying

/-- DESCRIPTOR_FETCH's effect. -/
def descriptorFetchEff (f q : Nat) (data : HostData) (s : State) : State :=
  let r := s.sqOf f q
  let again := s.intake.sq = some q ∧ s.intake.taken < 8
  let s := s.emit (.hostRead f (r.base + BitVec.ofNat 64 (128 * r.head)) 128)
  let s := s.setFn f { s.fnOf f with lastSq := q }
  let s := { s with intake := { s.intake with sq := some q, taken := if again then s.intake.taken + 1 else 1 } }
  match data with
  | .ok _ => { s with intake := { s.intake with fetched := some { fn := f, sq := q, data := data } } }
  | _ => stopSq s f q 3

/-- DESCRIPTOR_FETCH (R345, R365). -/
def execDescriptorFetch (data : HostData) (s : State) : Res :=
  match s.cad.fn with
  | some f =>
    match s.nextSq f with
    | some q => act (s.fetchOpen f = true) (descriptorFetchEff f q data s) s
    | none => .next s
  | none => .next s

/-! ### Acceptance (R346, R348, R377, R381) -/

/-- Windows that passed a descriptor by (R381): those begun since the first reading that covered it, before the window in
force. -/
def windowsOf (marks : List (Nat × Nat)) (n begun : Nat) : Nat :=
  match marks.find? (fun m => decide (n < m.1)) with
  | some m => begun - 1 - m.2
  | none => 0

/-- Forget the readings that cover only descriptors already accepted. -/
def trimMarks (marks : List (Nat × Nat)) (n : Nat) : List (Nat × Nat) := marks.filter (fun m => decide (n < m.1))

/-- The window in force as a STEP accepted in it keeps it (R374): entry, end of its length, and the shift of the schedule. -/
def State.ownWindow (s : State) : Nat × Nat × Nat :=
  (s.cad.win.getD 1 - 1, s.cad.start + s.cad.length, s.cad.shift)

/-- Accept a descriptor: its acceptance number, HEAD, the reservation and its windows (R346, R381). -/
def acceptDesc (s : State) (f q : Nat) (d : Bytes) : State × Nat :=
  let r := s.sqOf f q
  let n := s.intake.next
  let head := (r.head + 1) % 2 ^ r.sizeLog2
  let a : Acc := { fn := f, sq := q, cq := r.cq, desc := d, pasid := pasidOf r.pasidEn r.pasid
                   windows := windowsOf r.marks r.seq s.cad.begun, sqHead := head, window := s.ownWindow }
  let s := s.setSq f q { r with head := head, seq := r.seq + 1, marks := trimMarks r.marks (r.seq + 1) }
  let c := s.cqOf f r.cq
  let s := s.setCq f r.cq { c with resv := c.resv + 1 }
  let s := { s with intake := { s.intake with next := n + 1, fetched := none, acc := tput n a s.intake.acc } }
  (cqEvent (sqEvent s f q) f q, n)

/-- The log's ACCEPT entry: function, SQ, descriptor and its lists (R538). -/
def logAccept (s : State) (acc f q : Nat) (d lists : Bytes) : State :=
  logEntry s 1 acc (leBytes 2 f ++ leBytes 2 q ++ zeros 12 ++ d ++ lists)

/-- A session recorded in the log counts a descriptor, unless its lists are still to be read. -/
def acceptLog (s : State) (acc f q : Nat) (d : Bytes) : State :=
  if fieldAt d 0 1 = 0x01 then s else logAccept s acc f q d []

/-- Whether ORDER holds a descriptor back (R348). -/
def State.orderHeld (s : State) (f q : Nat) (d : Bytes) : Bool :=
  bitsAt d 0 2 9 9 == 1 && s.intake.acc.any (fun e => e.2.fn == f && e.2.sq == q)

/-- Whether the window in force may accept a STEP of a slot (R376, R377). -/
def State.stepFits (s : State) (slot : Nat) : Bool :=
  s.cad.slot == some slot && decide (s.chron.count + s.cad.guard ≤ s.cad.start + s.cad.length)

/-- What the acceptance of a STEP or of a TENANCY_CLOSE changes at once (R374, R495). -/
def noteAccept (s : State) (k n : Nat) : State :=
  { s with cad := { s.cad with own := if k = 0x01 then s.cad.own ++ [n] else s.cad.own }
           tenancy := { s.tenancy with phase := if k = 0x21 then 3 else s.tenancy.phase } }

/-- DESCRIPTOR_ACCEPT's effect (R346, R348, R350, R377, R380). -/
def descriptorAcceptEff (f q : Nat) (d : Bytes) (s : State) : State :=
  if s.orderHeld f q d then { s with intake := { s.intake with fetched := none, taken := 8 } }
  else
    let k := fieldAt d 0 1
    let form := formDetail d
    let adm := admitDetail s f d
    if form ≠ 0 then let a := acceptDesc s f q d; refuse (acceptLog a.1 a.2 f q d) a.2 form
    else if adm ≠ 0 then let a := acceptDesc s f q d; (refuse (acceptLog a.1 a.2 f q d) a.2 adm).bump
    else if k = 0x01 ∧ ¬ s.stepFits (bitsAt d 8 4 5 0) then
      { s with intake := { s.intake with fetched := none, closed := insertNat q s.intake.closed } }
    else
      let a := acceptDesc s f q d
      noteAccept (acceptLog a.1 a.2 f q d) k a.2

/-- DESCRIPTOR_ACCEPT (R346). -/
def execDescriptorAccept (s : State) : Res :=
  match s.intake.fetched with
  | some x =>
    match x.data with
    | .ok d =>
      act (s.cad.win.isSome = true ∧ s.cad.fn = some x.fn ∧ (s.fnOf x.fn).inReset = false ∧ s.stop.state ≠ 2)
        (descriptorAcceptEff x.fn x.sq d s) s
    | _ => .next s
  | none => .next s

/-- NOP (R350): completes OK once accepted. -/
def execNopDescriptor (acc : Nat) (s : State) : Res := serve s acc 0x30 fun _ => .next (complete s acc 0 0)

/-! ### STEP (R95 to R97, R318, R351, R352) -/

/-- Patch-list entries: VMOVE × 256 + SLOT, and value (R96). -/
def patchList (n : Nat) (b : Bytes) : List (Nat × W32) :=
  (List.range n).map fun i =>
    (256 * bitsAt b (8 * i) 8 45 40 + bitsAt b (8 * i) 8 39 32, BitVec.ofNat 32 (fieldAt b (8 * i) 4))

/-- The check of a patch value by its slot's kind (R97). -/
def patchCheck (kind : Nat) (v : W32) : Bool :=
  let n := v.toNat
  if kind = 1 ∨ kind = 3 then true
  else if kind = 2 then n < 2 ^ 29 && n % 256 == 0
  else if kind = 4 then n < 1024
  else if kind = 5 then n < 2 ^ 24 && n % 256 == 0
  else false

/-- Whether a patch list passes R97, with its reserved bits 0. -/
def patchesOk (p : Plan) (n : Nat) (b : Bytes) : Bool :=
  (List.range n).all (fun i => bitsAt b (8 * i) 8 63 46 == 0) &&
    (patchList n b).all (fun e => patchCheck (tget (0, 0) p.patches e.1).1 e.2)

/-- Host-buffer table entries (R352): address, length in rows, writable. -/
def bufTable (n : Nat) (b : Bytes) : List (W64 × Nat × Bool) :=
  (List.range n).map fun i =>
    (BitVec.ofNat 64 (fieldAt b (16 * i) 8), fieldAt b (16 * i + 8) 4, bitNat (fieldAt b (16 * i + 12) 4) 0)

/-- Whether a host-buffer table keeps R352. -/
def bufsOk (n : Nat) (b : Bytes) : Bool :=
  (List.range n).all fun i =>
    fieldAt b (16 * i) 8 % 256 == 0 && fieldAt b (16 * i + 8) 4 != 0 && bitsAt b (16 * i + 12) 4 31 1 == 0

/-- Stream list (R318, R351). -/
def streamList (n : Nat) (b : Bytes) : List Nat := (List.range n).map fun i => bitsAt b (4 * i) 4 19 0

/-- Detail of a stream list (R11, R318), 0 when it passes. -/
def streamsDetail (s : State) (fn n : Nat) (b : Bytes) : Nat :=
  let l := streamList n b
  if (List.range n).any (fun i => bitsAt b (4 * i) 4 31 20 != 0) then 0x0131
  else if ¬ l.Nodup then 0x0122
  else if l.any (fun h => (s.ownStream fn h).isNone) then 0x0631
  else 0

/-- The patch slots a step starts from: the plan's defaults with its patch list applied over them (R95). -/
def patchSets (p : Plan) (patches : List (Nat × W32)) (v : Nat) : Tbl W32 :=
  let base := (p.patches.filter (fun e => e.1 / 256 == v)).foldl (fun t e => tset 0 t (e.1 % 256) e.2.2) []
  (patches.filter (fun e => e.1 / 256 == v)).foldl (fun t e => tset 0 t (e.1 % 256) e.2) base

/-- Load the pending patch sets from the step that launches next, nothing of which has been fetched (R95, R99). -/
def loadPending (s : State) : State :=
  match s.steps with
  | [] => s
  | r :: _ =>
    match s.slotOf r.slot with
    | .resident p | .unloading _ p =>
      (List.range 64).foldl (fun s v => s.setSeq v { s.seqOf v with
        patchPend := patchSets p r.patches v, iqNext := [], fetchNext2 := 0, fetching2 := [] }) s
    | _ => s

/-- The request a STEP spells with its lists (R351). -/
def stepReq (acc : Nat) (a : Acc) (patches streams bufs : Bytes) : StepReq :=
  { acc := acc, fn := a.fn, slot := a.bits 8 4 5 0, start := a.bits 8 4 7 6, launch := a.fld 0x10 8
    patches := patchList (a.bits 8 4 20 8) patches, streams := streamList (a.bits 8 4 31 21) streams
    bufs := bufTable (a.bits 0xC 4 6 0) bufs, report := BitVec.ofNat 64 (a.fld 0x30 8), slipCap := a.fld 0xE 2
    slipAddr := BitVec.ofNat 64 (a.fld 0x38 8), chain := slice a.desc 0x40 16, pasid := a.pasid, window := a.window }

/-- Whether every STEP accepted before this one has had its lists read (R346). -/
def State.stepTurn (s : State) (acc : Nat) : Bool :=
  s.intake.acc.all (fun e => decide (acc ≤ e.1) || e.2.kind != 0x01 || e.2.begun)

/-- Whether the CHAIN field of a chained start keeps its layout and names a flow of the plan (R467). -/
def chainOk (p : Plan) (a : Acc) : Bool :=
  a.bits 8 4 7 6 != 2 || (a.bits 0x40 4 31 15 == 0 && a.fld 0x46 2 == 0 && a.fld 0x48 8 == 0
    && (tfind p.flows (16384 * a.bits 0x40 4 14 14 + a.bits 0x40 4 13 0)).isSome)

/-- STEP's effect once its lists are read (R351). -/
def stepEff (s : State) (acc : Nat) (a : Acc) (patches streams bufs : Bytes) : State :=
  match s.slotOf (a.bits 8 4 5 0) with
  | .resident p | .unloading _ p =>
    let sd := streamsDetail s a.fn (a.bits 8 4 31 21) streams
    if ¬ chainOk p a then refuse s acc 0x0135
    else if ¬ patchesOk p (a.bits 8 4 20 8) patches then refuse s acc 0x0133
    else if sd ≠ 0 then refuse s acc sd
    else if ¬ bufsOk (a.bits 0xC 4 6 0) bufs then refuse s acc 0x0134
    else
      let s := logAccept s acc a.fn a.sq a.desc (patches ++ streams ++ bufs)
      let s := begin_ { s with steps := s.steps ++ [stepReq acc a patches streams bufs] } acc
      if s.steps.length = 1 then loadPending s else s
  | _ => refuse s acc 0x0601

/-- The streams that a STEP's list names, where it could be read. -/
def Acc.listed (a : Acc) : HostData → List Nat
  | .ok b => streamList (a.bits 8 4 31 21) b
  | _ => []

/-- STEP (R351): the patch list, the stream list and the buffer table are read, and the streams judged as the serving commands
accepted before leave them (R316). A list that cannot be read refuses the descriptor with HOST_ERROR (DEDUCED, log 59). -/
def execStep (acc : Nat) (patches streams bufs : HostData) (s : State) : Res :=
  serve s acc 0x01 fun a =>
    act (s.stepTurn acc = true ∧ s.unserved acc (a.listed streams) = false)
      (match patches, streams, bufs with
       | .ok p, .ok t, .ok b => stepEff s acc a p t b
       | .ok _, .ok _, d => hostFail s acc d
       | .ok _, d, _ => hostFail s acc d
       | d, _, _ => hostFail s acc d) s

/-! ### HREAD and HWRITE (R353 to R355) -/

/-- Whether row `k` of an access from `offset` lies in buffer `buf` (R354). -/
def State.bufRow (s : State) (buf k : Nat) (write : Bool) : Option W64 :=
  match s.run.bind (fun r => r.req.bufs[buf]?) with
  | some b => if k < b.2.1 ∧ (write = false ∨ b.2.2) then some (b.1 + BitVec.ofNat 64 (256 * k)) else none
  | none => none

/-- HREAD (R353). -/
def execHread (v : VMove) (buf : BitVec 6) (rowsM1 : BitVec 12) (offset : W32) (queue : Fin 4) (s : State) : Res :=
  issueCmd s v 8 queue true [] (.hread v buf rowsM1 offset queue) [] (fun _ => []) (rowsM1.toNat + 1) (fun _ => none) id

/-- Remember the rows of an HWRITE that are issued, in device order, for the grid step's digest (R480). -/
def insertWrite (p : PlanPos) (rows : List Bytes) : List (PlanPos × List Bytes) → List (PlanPos × List Bytes)
  | [] => [(p, rows)]
  | x :: xs =>
    if earlier p.beat p.vmove p.event x.1.beat x.1.vmove x.1.event then (p, rows) :: x :: xs
    else x :: insertWrite p rows xs

/-- HWRITE (R353). -/
def execHwrite (v : VMove) (src : AddrOp) (buf : BitVec 6) (rowsM1 : BitVec 12) (offset : W32) (queue : Fin 4)
    (s : State) : Res :=
  let pos := s.pos v
  let rows := outRows ((s.seqOf v).addr src) (rowsM1.toNat + 1) pos.beat
  issueCmd s v 8 queue true [] (.hwrite v src buf rowsM1 offset queue) rows (fun _ => []) 0 (fun _ => none) id

/-- The data of an HWRITE are fixed: those it writes count in the grid step's digest (R480). -/
def noteWrite (s : State) (buf off : Nat) (rows : List Bytes) (pos : PlanPos) : State :=
  let out := ((indexed rows).filter (fun e => (s.bufRow buf (off + e.1) true).isSome)).map (·.2)
  if s.discarded then s else { s with grid := { s.grid with hwrites := insertWrite pos out s.grid.hwrites } }

/-- The virtual movement of the running step's H movement. -/
def State.hMove (s : State) : Nat :=
  match s.run with
  | some r => nthOfType (r.plan.moves.map (·.1)) 8 0
  | none => nthOfType gridTypes 8 0

/-- HOST_RANGE (R354): the status flag, and the report's first range part. -/
def hostRange (s : State) (c : Cmd) (item : Nat) : State :=
  (setSflag s 4).onRun fun r => { r with range := r.range.or (some (c.opAddr, item)) }

/-- Mark the out-of-range rows of a command, if any. -/
def hostRows (s : State) (c : Cmd) (rows : List (Option W64)) : State :=
  match (indexed rows).find? (fun e => e.2.isNone) with
  | some e => hostRange s c e.1
  | none => s

/-- A row as the host delivers it: zero where the read failed (R355). -/
def hostRow : HostData → Bytes
  | .ok b => padTo 256 b
  | _ => zeros 256

/-- Rows delivered by an HREAD (R354, R355): zero where out of range or where the row's read failed. -/
def hreadRows (rows : List (Option W64)) (d : List HostData) : List Bytes :=
  (indexed rows).map fun e => if e.2.isSome then hostRow (d.getD e.1 .timeout) else zeros 256

/-- The HREAD rows of a log entry, each with a header that marks a host error (R538; log 45). -/
def hreadLog (rows : List (Option W64)) (d : List HostData) : Bytes :=
  (indexed rows).flatMap fun e =>
    leBytes 16 (if e.2.isSome then hostDetail (d.getD e.1 .timeout) else 0)
      ++ (if e.2.isSome then hostRow (d.getD e.1 .timeout) else zeros 256)

/-- The first row of an HREAD that was read and failed, with its address (R355). -/
def hreadFault (rows : List (Option W64)) (d : List HostData) : Option (Nat × W64) :=
  (indexed rows).findSome? fun e => e.2.bind fun a =>
    let x := hostDetail (d.getD e.1 .timeout)
    if x = 0 then none else some (x, a)

/-- The step's host error (R355, R359): its first one stands. -/
def noteHostErr (s : State) (c : Cmd) : Option (Nat × W64) → State
  | some (d, a) =>
    s.onRun fun r => { r with hostErr := r.hostErr.or (some { detail := d, addr := a, opAddr := c.opAddr, stamp := s.chron.count }) }
  | none => s

/-- HOST_READ_COMPLETION's effect on the oldest unanswered HREAD, whose rows end as `data` says (R354, R355, R540). In a
discarded step the rows are zero and no host memory is read (R387). -/
def hreadEff (v q i : Nat) (c : Cmd) (buf off n : Nat) (data : List HostData) (s : State) : State :=
  if s.discarded then finishCmd s (qKey v q) i (List.replicate n (zeros 256))
  else
    let rows := (List.range n).map fun k => s.bufRow buf (off + k) false
    let s := hostRows s c rows
    let play := s.replaying && s.replay.data
    let got := if play then s.replay.hreads.take n else data
    let s := if play then { s with replay := { s.replay with hreads := s.replay.hreads.drop n } } else s
    let s := noteHostErr s c (hreadFault rows got)
    let s := if s.replay.data then logEntry s 6 c.pos.step (hreadLog rows got) else s
    finishCmd s (qKey v q) i (hreadRows rows got)

/-- HOST_READ_COMPLETION (R353, R355): the rows of the oldest unanswered HREAD of a queue, each delivered or failed. A row of
which nothing comes has timed out. -/
def execHostReadCompletion (queue : Fin 4) (data : List HostData) (s : State) : Res :=
  let v := s.hMove
  match (s.qOf (qKey v queue)).oldest with
  | some (i, c) =>
    match c.op with
    | .hread _ buf rm1 off _ => .next (hreadEff v queue i c buf.toNat off.toNat (rm1.toNat + 1) data s)
    | _ => .next s
  | none => .next s

/-- HWRITE_RETIRE's effect (R338, R353, R354). In a discarded step its parts are not issued (R387). -/
def hwriteEff (v q i : Nat) (c : Cmd) (buf off : Nat) (s : State) : State :=
  if s.discarded then finishCmd s (qKey v q) i [] else
  let rows := (indexed c.data).map fun e => s.bufRow buf (off + e.1) true
  let s := hostRows s c rows
  match s.run with
  | some r =>
    let rel := (s.fnOf r.req.fn).relaxed
    let s := (rows.zip c.data).foldl (fun s x =>
      match x.1 with
      | some a => hostWrite s r.req.fn r.req.pasid a x.2 rel
      | none => s) s
    finishCmd s (qKey v q) i []
  | none => finishCmd s (qKey v q) i []

/-- HWRITE_RETIRE (R353): the oldest HWRITE of a queue has issued all its writes on the link. -/
def execHwriteRetire (queue : Fin 4) (s : State) : Res :=
  let v := s.hMove
  match (s.qOf (qKey v queue)).oldest with
  | some (i, c) =>
    match c.op with
    | .hwrite _ _ buf _ off _ => .next (hwriteEff v queue i c buf.toNat off.toNat s)
    | _ => .next s
  | none => .next s

/-! ### Interrupts (R384, R385) -/

/-- IRQ_COALESCE_TIMEOUT (R384): TIME µs after the first pending completion; CQs that share the vector and are due are
covered by the one message. -/
def execIrqCoalesceTimeout (f : Fn) (q : Fin 16) (s : State) : Res :=
  let c := s.cqOf f q
  let due (x : Cq) : Bool := decide (0 < x.pendingIrq) && decide (x.firstIrqNs + 1000 * x.coalTime ≤ s.ns)
  act (due c = true ∧ (s.fnOf f).inReset = false)
    (let s := (List.range 16).foldl (fun s k =>
        let x := s.cqOf f k
        if due x ∧ x.vector = c.vector then s.setCq f k { x with pendingIrq := 0 } else s) s
     sendMsix s f c.vector) s

/-- MSIX_UNMASK (R385): the vector is unmasked, and its held message is sent. -/
def execMsixUnmask (f : Fn) (vec : Fin 8) (s : State) : Res :=
  let x := s.fnOf f
  let e := tget {} x.msix vec
  act (x.inReset = false)
    (sendHeldMsix (s.setFn f { x with msix := tset {} x.msix vec { e with masked := false } }) f vec) s

end Sys2Proof.Machine
end

