-- ==== Sys2Proof/Machine/PlanCheck.lean ====
section
/-!
DEFINITION. The loader's checks of op streams and patch declarations (R126 step 6): every word defined (R85, R11), the
patch and mode rules (R92, R94, R97), row alignment (R78), and, over the ops in issue order (R590), at most four words a
beat (R88), nests (R91), paths and windows (R105, R188, R200, R211, R214, R243, R300, R332, R353, R450), pane sets (R241)
and the FSENDs outstanding (R450).
-/

namespace Sys2Proof.Machine

/-! ### Operands of an op -/

/-- Addresses of a vector form. -/
def formAddrs : VForm → List AddrOp
  | .straps d a b => [d, a, b]
  | .imm d a _ => [d, a]
  | .const d a => [d, a]

/-- Addresses of an AFFINE or EXPS form. -/
def form2Addrs : VForm2 → List AddrOp
  | .straps d a b => [d, a, b]
  | .imm d a _ => [d, a]

/-- Slot kinds that may patch OW2 of a vector form (R220). -/
def formKinds : VForm → List Nat
  | .straps _ _ _ => [2]
  | .imm _ _ _ => [1]
  | .const _ _ => []

/-- Slot kinds that may patch OW2 of an AFFINE or EXPS form (R220). -/
def form2Kinds : VForm2 → List Nat
  | .straps _ _ _ => [2]
  | .imm _ _ _ => [1]

/-- A vector pass: its function, its addresses, and the kinds that may patch OW2 (R202, R220). -/
def passOf : Instr → Option (VFun × List AddrOp × List Nat)
  | .add _ f => some (.add, formAddrs f, formKinds f)
  | .sub _ f => some (.sub, formAddrs f, formKinds f)
  | .mul _ f => some (.mul, formAddrs f, formKinds f)
  | .mad _ f => some (.mad, formAddrs f, formKinds f)
  | .min _ f => some (.min, formAddrs f, formKinds f)
  | .max _ f => some (.max, formAddrs f, formKinds f)
  | .affine _ f => some (.affine, form2Addrs f, form2Kinds f)
  | .cmpeq _ f => some (.cmpeq, formAddrs f, formKinds f)
  | .cmpne _ f => some (.cmpne, formAddrs f, formKinds f)
  | .cmplt _ f => some (.cmplt, formAddrs f, formKinds f)
  | .cmple _ f => some (.cmple, formAddrs f, formKinds f)
  | .sel _ f => some (.sel, formAddrs f, formKinds f)
  | .and _ f => some (.and, formAddrs f, formKinds f)
  | .or _ f => some (.or, formAddrs f, formKinds f)
  | .xor _ f => some (.xor, formAddrs f, formKinds f)
  | .shl _ f => some (.shl, formAddrs f, formKinds f)
  | .shr _ f => some (.shr, formAddrs f, formKinds f)
  | .exps _ f => some (.exps, form2Addrs f, form2Kinds f)
  | .iota _ d _ => some (.iota, [d], [1])
  | .vectorCopy _ d a => some (.copy, [d, a], [])
  | .abs _ d a => some (.abs, [d, a], [])
  | .neg _ d a => some (.neg, [d, a], [])
  | .exp2 _ d a => some (.exp2, [d, a], [])
  | .log2 _ d a => some (.log2, [d, a], [])
  | .rcp _ d a => some (.rcp, [d, a], [])
  | .sqrt _ d a => some (.sqrt, [d, a], [])
  | .rsqrt _ d a => some (.rsqrt, [d, a], [])
  | .tanh _ d a => some (.tanh, [d, a], [])
  | .sigmoid _ d a => some (.sigmoid, [d, a], [])
  | .gelu _ d a => some (.gelu, [d, a], [])
  | .silu _ d a => some (.silu, [d, a], [])
  | _ => none

/-- Address operands of an op that feed scratch row accesses (R78); KSET's scale addresses are byte addresses (R218). -/
def rowAddrs (i : Instr) : List AddrOp :=
  match passOf i with
  | some p => p.2.1
  | none =>
    match i with
    | .take _ d _ _ e => d :: e.toList
    | .tileLoad _ a _ _ _ _ => [a]
    | .tileScales _ a _ => [a]
    | .ascaleSet _ a => [a]
    | .stream _ a _ _ _ _ _ _ _ => [a]
    | .drain _ a _ _ _ _ _ _ _ => [a]
    | .drainWide _ a _ _ _ => [a]
    | .accLoad _ a _ _ _ => [a]
    | .rsum _ a _ => [a]
    | .rsumsq _ a _ => [a]
    | .rdot _ a b _ => [a, b]
    | .rmax _ a _ => [a]
    | .rmin _ a _ => [a]
    | .rargmax _ a _ _ => [a]
    | .raddw _ a _ => [a]
    | .rstore _ a _ _ _ _ _ _ => [a]
    | .transpose _ d a _ _ _ => [d, a]
    | .retile _ d a _ _ _ => [d, a]
    | .convert _ d a _ _ _ _ _ => [d, a]
    | .mvm _ a b _ _ _ _ _ _ _ => [a, b]
    | .write _ _ _ _ a _ => [a]
    | .gather _ a _ _ _ _ => [a]
    | .scatter _ a _ _ _ b _ => [a, b]
    | .embed _ a _ _ _ _ _ _ => [a]
    | .pageAppend _ a _ _ _ _ => [a]
    | .select _ a _ b => [a, b]
    | .fsend _ a _ _ _ _ => [a]
    | .hwrite _ a _ _ _ _ => [a]
    | _ => []

/-- Byte-address operands of an op (R218). -/
def byteAddrs : Instr → List AddrOp
  | .kset _ a b _ => [a, b]
  | _ => []

/-- Accumulator-row operands of an op (R182). -/
def accAddrs : Instr → List AccOp
  | .stream _ _ r _ _ _ _ _ _ => [r]
  | .drain _ _ r _ _ _ _ _ _ => [r]
  | .drainWide _ _ r _ _ => [r]
  | .accLoad _ _ r _ _ => [r]
  | _ => []

/-- Flow-buffer operands of an op (R82). -/
def flowAddrs : Instr → List FlowOp
  | .fsend _ _ _ _ f _ => [f]
  | .frecv _ _ f _ => [f]
  | _ => []

def addrGen (g : Nat) : AddrOp → Bool
  | .gen k => k.val == g
  | .lit _ => false
def accGen (g : Nat) : AccOp → Bool
  | .gen k => k.val == g
  | .row _ => false
def flowGen (g : Nat) : FlowOp → Bool
  | .gen k => k.val == g
  | .lit _ => false

/-- Whether a literal row address is a multiple of 256 (R78). -/
def addrAligned : AddrOp → Bool
  | .lit a => a.toNat % 256 == 0
  | .gen _ => true
def flowAligned : FlowOp → Bool
  | .lit a => a.toNat % 256 == 0
  | .gen _ => true

/-- What generator `g` feeds in a stream: scratch rows, flow rows, accumulator rows (R78). -/
def genUse (is : List Instr) (g : Nat) : Bool × Bool × Bool :=
  (is.any (fun i => (rowAddrs i).any (addrGen g)), is.any (fun i => (flowAddrs i).any (flowGen g)),
   is.any (fun i => (accAddrs i).any (accGen g)))

/-! ### Single words -/

/-- The word with its patched operand word replaced by a value that every use of it admits: what the loader cannot see
(R85). -/
def OpWord.benign (o : OpWord) : OpWord :=
  let x : W32 := if o.eng = 0 ∧ o.op = 1 then 1 else 0
  if o.pmode = 1 then { o with ow0 := x } else if o.pmode = 2 then { o with ow1 := 0 }
  else if o.pmode = 3 then { o with ow2 := 0 } else o

/-- Queue of a command op. -/
def cmdQueue : Instr → Option Nat
  | .pset _ _ _ _ _ _ _ _ q => some q
  | .mvm _ _ _ _ _ _ _ _ _ q => some q
  | .prel _ _ q => some q
  | .read _ _ _ _ q => some q
  | .write _ _ _ _ _ q => some q
  | .gather _ _ _ _ _ q => some q
  | .scatter _ _ _ _ _ _ q => some q
  | .embed _ _ _ _ _ _ _ q => some q
  | .zero _ _ _ _ q => some q
  | .copy _ _ _ _ _ _ q => some q
  | .pageAppend _ _ _ _ _ q => some q
  | .pageRead _ _ _ _ _ _ q => some q
  | .fsend _ _ _ _ _ q => some q
  | .frecv _ _ _ q => some q
  | .hread _ _ _ _ q => some q
  | .hwrite _ _ _ _ _ q => some q
  | _ => none

/-- Result rows of an S or H command (R298, R353). -/
def cmdRows : Instr → Nat
  | .read _ _ _ rm1 _ => rm1.toNat + 1
  | .gather _ _ _ c l _ => (c.toNat + 1) * (l.toNat + 1)
  | .embed _ _ _ _ c l _ _ => (c.toNat + 1) * (l.toNat + 1)
  | .pageRead _ _ n rm1 _ _ _ => (n.toNat + 1) * (rm1.toNat + 1)
  | .hread _ _ rm1 _ _ => rm1.toNat + 1
  | _ => 0

/-- Regions an S op names, and those it writes (R299). -/
def cmdRegions : Instr → List Nat × List Nat
  | .read _ _ r _ _ => ([r.toNat], [])
  | .write _ _ r _ _ _ => ([r.toNat], [r.toNat])
  | .gather _ _ r _ _ _ => ([r.toNat], [])
  | .scatter _ _ r _ _ _ _ => ([r.toNat], [r.toNat])
  | .embed _ _ a b _ _ _ _ => ([a.toNat, b.toNat], [])
  | .zero _ _ r _ _ => ([r.toNat], [r.toNat])
  | .copy _ _ a b _ _ _ => ([a.toNat, b.toNat], [b.toNat])
  | _ => ([], [])

/-- Whether an op's own fields are defined, as far as the word alone tells (R85): the rules that decoding leaves to the
engines. -/
def fieldsOk (ty : Nat) : Instr → Bool
  | .wait _ _ q _ => decide (q.val < queueCount ty)
  | .take _ _ q _ e => decide (q.val < queueCount ty) && (e.isNone || ty == 6 || ty == 7)
  | .tileLoad _ _ _ _ f chk => mClass f.toNat != 0 && (!chk || chkOk f.toNat)
  | .stream _ _ _ r _ _ _ f _ => rowsOk r && mClass f.toNat != 0
  | .drain _ _ _ r f rd _ _ _ => rowsOk r && drainOk f.toNat && roundOk rd
  | .drainWide _ _ _ r _ => rowsOk r
  | .accLoad _ _ _ r _ => rowsOk r
  | .vset _ a b o rd _ _ _ => strapOk a.toNat && strapOk b.toNat && strapOk o.toNat && roundOk rd
  | .vtap _ k _ _ _ _ => decide (k.toNat < 6)
  | .tload _ _ fn _ m => !fn || m == 0
  | .rstore _ _ _ _ o rd _ _ => strapOk o.toNat && roundOk rd
  | .convert _ _ _ g i o rd _ => convertOk i.toNat o.toNat (g.toNat + 1) && roundOk rd
  | .mvm _ _ _ _ o rd _ an _ _ => mvmOk o rd an
  | .zero _ _ _ u _ => u != 0
  | .bset _ _ f => decide (f.toNat ≤ 2)
  | _ => true

/-- Whether a NEST_CLOSE keeps its word all zeros but ENG and OP (R89, R92). -/
def closeOk (o : OpWord) : Bool :=
  o.delta == 0 && o.pmode == 0 && o.pslot == 0 && o.ow0 == 0 && o.ow1 == 0 && o.ow2 == 0

/-- Slot kinds that may patch operand word `w` (1 to 3) of an op; none where no patch is admitted (R92, R97, R185, R220,
R240, R299, R331, R353, R447). The kinds of an AG_BASE, AG_STRIDE or IDLE are DEDUCED (log 61). -/
def patchKinds (use : Nat → Bool × Bool × Bool) (w : Nat) (i : Instr) : List Nat :=
  match passOf i with
  | some p =>
    if w = 1 then [2]
    else if w = 2 then (if p.1 = .iota then [] else [2]) else p.2.2
  | none =>
    match i, w with
    | .idle _ _, 1 => [1]
    | .agBase _ g _, 1 =>
      let u := use g
      [1, 2, 4, 5].filter fun k =>
        (!u.1 || k == 2) && (!u.2.1 || k == 5) && (!u.2.2 || k == 4 || k == 1)
    | .agStride _ g _ _, 1 => let u := use g; if u.1 || u.2.1 then [] else [1]
    | .nestOpen _ l _ _, 1 => if l = 0 then [3] else []
    | .wait _ _ _ _, 1 => [1]
    | .wait _ _ _ _, 3 => [1]
    | .take _ _ _ _ _, 1 => [2]
    | .take _ _ _ _ e, 3 => if e.isSome then [2] else []
    | .tileLoad _ _ _ _ _ _, 1 => [2]
    | .tileScales _ _ _, 1 => [2]
    | .ascaleSet _ _, 1 => [2]
    | .stream _ _ _ _ _ _ _ _ _, 1 => [2]
    | .stream _ _ _ _ _ _ _ _ _, 2 => [4]
    | .drain _ _ _ _ _ _ _ _ _, 1 => [2]
    | .drain _ _ _ _ _ _ _ _ _, 2 => [4]
    | .drainWide _ _ _ _ _, 1 => [2]
    | .drainWide _ _ _ _ _, 2 => [4]
    | .accLoad _ _ _ _ _, 1 => [2]
    | .accLoad _ _ _ _ _, 2 => [4]
    | .seedSet _ _, 1 => [1]
    | .vset _ _ _ _ _ _ _ _, 2 => [1]
    | .vset _ _ _ _ _ _ _ t, 3 => if t.isSome then [1] else []
    | .vtap _ _ _ _ _ _, 2 => [1]
    | .tload _ _ fn _ _, 3 => if fn then [] else [1]
    | .rsum _ _ _, 1 => [2]
    | .rsumsq _ _ _, 1 => [2]
    | .rdot _ _ _ _, 1 => [2]
    | .rdot _ _ _ _, 2 => [2]
    | .rmax _ _ _, 1 => [2]
    | .rmin _ _ _, 1 => [2]
    | .rargmax _ _ _ _, 1 => [2]
    | .rargmax _ _ _ _, 2 => [1]
    | .raddw _ _ _, 1 => [2]
    | .rstore _ _ _ _ _ _ _ _, 1 => [2]
    | .transpose _ _ _ _ _ _, 1 => [2]
    | .transpose _ _ _ _ _ _, 2 => [2]
    | .retile _ _ _ _ _ _, 1 => [2]
    | .retile _ _ _ _ _ _, 2 => [2]
    | .convert _ _ _ _ _ _ _ _, 1 => [2]
    | .convert _ _ _ _ _ _ _ _, 2 => [2]
    | .kset _ _ _ _, 1 => [2]
    | .kset _ _ _ _, 2 => [2]
    | .kset _ _ _ _, 3 => [1]
    | .mvm _ _ _ _ _ _ _ _ _ _, 1 => [2]
    | .mvm _ _ _ _ _ _ _ _ _ _, 2 => [2]
    | .read _ _ _ _ _, 1 => [1]
    | .write _ _ _ _ _ _, 1 => [1]
    | .write _ _ _ _ _ _, 3 => [2]
    | .gather _ _ _ _ _ _, 1 => [2]
    | .scatter _ _ _ _ _ _ _, 1 => [2]
    | .scatter _ _ _ _ _ _ _, 3 => [2]
    | .embed _ _ _ _ _ _ _ _, 1 => [2]
    | .zero _ _ _ _ _, 1 => [1]
    | .copy _ _ _ _ _ _ _, 1 => [1]
    | .copy _ _ _ _ _ _ _, 3 => [1]
    | .pageAppend _ _ _ _ _ _, 1 => [2]
    | .pageAppend _ _ _ _ _ _, 3 => [1]
    | .pageRead _ _ _ _ _ _ _, 1 => [1]
    | .pageRead _ _ _ _ _ _ _, 3 => [1]
    | .select _ _ _ _, 1 => [2]
    | .select _ _ _ _, 2 => [1]
    | .select _ _ _ _, 3 => [2]
    | .fsend _ _ _ _ _ _, 1 => [2]
    | .fsend _ _ _ _ _ _, 3 => [5]
    | .frecv _ _ _ _, 3 => [5]
    | .hread _ _ _ _ _, 3 => [1]
    | .hwrite _ _ _ _ _ _, 1 => [2]
    | .hwrite _ _ _ _ _ _, 3 => [1]
    | _, _ => []

/-- Whether the engine's chapter itself names the slot kinds its ops admit (R299, R331, R353, R447). -/
def namesKinds (eng : Nat) : Bool := eng == 4 || eng == 6 || eng == 7 || eng == 8

/-- Whether the slot that patches a word has a kind its use admits (R97). -/
def kindOk (p : Plan) (v : VMove) (is : List Instr) (o : OpWord) (i : Instr) : Bool :=
  o.pmode == 0
    || (patchKinds (genUse is) o.pmode.toNat i).contains (tget (0, 0) p.patches (256 * v + o.pslot.toNat)).1

/-- Arrival share of a queue in rows (R120). -/
def Plan.share (p : Plan) (v q : Nat) : Nat := (tget (0, 0) p.queues (qKey v q)).2 / 256

/-- Whether an S or H command's result rows fit its queue's share (R299, R353). -/
def rowsFit (p : Plan) (v : VMove) (i : Instr) : Bool :=
  match cmdQueue i with
  | some q => decide (cmdRows i ≤ p.share v q ∧ cmdRows i ≤ 4096)
  | none => true

/-- What stands against one word of a stream (R78, R84, R85, R92, R94, R121, R299): true when it keeps every rule. -/
def wordOk (p : Plan) (v : VMove) (ty : Nat) (engUsed : Bool) (mode : Nat) (is : List Instr) (w : W128) : Bool :=
  let o := splitWord w
  if o.isClose then closeOk o && mode != 2
  else
    match decodeOp v o.benign with
    | none => false
    | some i =>
      let gens := (rowAddrs i ++ byteAddrs i).any (fun a => (List.range 4).any (addrGen · a))
        || (accAddrs i).any (fun a => (List.range 4).any (accGen · a))
        || (flowAddrs i).any (fun a => (List.range 4).any (flowGen · a))
      let feeds (g : Nat) : Bool := let u := genUse is g; u.1 || u.2.1
      o.patchOk && (o.eng == 0 || (o.eng.toNat == ty && engUsed)) && fieldsOk ty i
        && (o.pmode == 0 || (mode != 1 && !(patchKinds (genUse is) o.pmode.toNat i).isEmpty))
        && (!namesKinds o.eng.toNat || kindOk p v is o i) && rowsFit p v i
        && (mode != 2 || (!gens && (match i with | .nestOpen .. => false | .agStride .. => false | _ => true)))
        && (rowAddrs i).all addrAligned && (flowAddrs i).all flowAligned
        && (match i with
            | .agBase _ g b => o.pmode == 1 || !feeds g || b.toNat % 256 == 0
            | .agStride _ g _ x => o.pmode == 1 || !feeds g || x.toNat % 256 == 0
            | _ => true)
        && (cmdRegions i).1.all (fun r => (tfind p.regions r).isSome)
        && (cmdRegions i).2.all (fun r => match tfind p.regions r with | some x => x.init != 2 | none => false)

/-! ### Issue order (R87, R91, R590) -/

/-- One event of a stream in issue order: an op with its issue beat and the end of its innermost iteration, or the start
or end of an iteration, of a nest of patched count or not. -/
inductive Ev where
  | op (beat : Nat) (limit : Option Nat) (i : Instr) (w : OpWord)
  | iterStart (beat : Nat) (patched : Bool)
  | iterEnd (beat : Nat) (patched : Bool)
deriving DecidableEq, Repr

/-- Move an event by `n` beats; an op with no limit takes `lim` before that. -/
def Ev.shift (n : Nat) (lim : Option Nat) : Ev → Ev
  | .op b l i w => .op (b + n) ((l.or lim).map (· + n)) i w
  | .iterStart b p => .iterStart (b + n) p
  | .iterEnd b p => .iterEnd (b + n) p

/-- A nest level being laid out, or the stream itself; beats count from its iteration's start. -/
structure Frame where
  evs : List Ev := []
  ref : Nat := 0
  last : Nat := 0
  open_ : Nat := 0
  count : Nat := 0
  period : Nat := 1
  patched : Bool := false

/-- A stream being laid out: frames, innermost first, and whether STEP_END has come. -/
structure Layout where
  stack : List Frame := [{}]
  ended : Bool := false
  /-- counts of the patched nests still to come. -/
  counts : List Nat := []

/-- Close the innermost nest (R91): its body must end before its period; its iterations are laid out one after another. -/
def closeNest (l : Layout) : Option Layout :=
  match l.stack with
  | f :: p :: rest =>
    if f.last < f.period then
      let body (k : Nat) : List Ev :=
        .iterStart (f.open_ + k * f.period) f.patched ::
          (f.evs.map (Ev.shift (f.open_ + k * f.period) (some f.period))
            ++ [.iterEnd (f.open_ + (k + 1) * f.period) f.patched])
      let e := f.open_ + f.count * f.period
      some { l with stack := { p with evs := p.evs ++ (List.range f.count).flatMap body, ref := e
                                      last := max p.last (if f.count = 0 then f.open_ else e - 1) } :: rest }
    else none
  | _ => none

/-- Lay out one op (R87, R91, R92); a patched count of level 0 is the next of the layout's, a patched IDLE is taken as 1
(DEDUCED, log 61) and only outside nests. -/
def layOp (l : Layout) (o : OpWord) (i : Instr) : Option Layout :=
  match l.stack with
  | f :: rest =>
    let b := f.ref + o.delta.toNat
    let f := { f with evs := f.evs ++ [.op b none i o], ref := b, last := max f.last b }
    match i with
    | .idle _ c =>
      if o.pmode = 1 ∧ ¬ rest.isEmpty then none
      else some { l with stack := { f with ref := b + (if o.pmode = 1 then 1 else c.toNat) } :: rest }
    | .nestOpen _ lev c p =>
      if lev.toNat ≠ rest.length then none
      else some { l with stack := { open_ := b, count := if o.pmode = 1 then l.counts.headD 0 else c.toNat
                                    period := p.toNat, patched := o.pmode == 1 } :: f :: rest
                         counts := if o.pmode = 1 then l.counts.tail else l.counts }
    | .stepEnd _ => if rest.isEmpty then some { l with stack := [f], ended := true } else none
    | _ => some { l with stack := f :: rest }
  | [] => none

/-- Lay out one word. -/
def layWord (v : VMove) (l : Layout) (w : W128) : Option Layout :=
  if l.ended then some l
  else
    let o := splitWord w
    if o.isClose then closeNest l else (decodeOp v o.benign).bind (layOp l o)

/-- The events of a stream in issue order, its patched counts being `ns` in order; none where it breaks R91 or never
ends. -/
def layStream (ns : List Nat) (v : VMove) (ws : List W128) : Option (List Ev) :=
  (ws.foldl (fun (l : Option Layout) w => l.bind fun l => layWord v l w) (some { counts := ns })).bind fun l =>
    match l.stack, l.ended with
    | [f], true => some f.evs
    | _, _ => none

/-- Whether at most four words, one of them an engine op, issue at each beat (R88). -/
def beatsOk (es : List Ev) : Bool :=
  let ops := es.filterMap fun | .op b _ _ w => some (b, w.eng != 0) | _ => none
  ops.all fun x =>
    let here := ops.filter (fun y => y.1 == x.1)
    decide (here.length ≤ 4 ∧ (here.filter (·.2)).length ≤ 1)

/-! ### Paths, windows and held things in issue order -/

/-- What the walk through a stream carries. -/
structure Walk where
  /-- path holds: path, first and last beat. -/
  holds : List (Nat × Nat × Nat) := []
  /-- contributions: tally, first input beat, end of the window, whether it starts the tally (R211). -/
  contribs : List (Nat × Nat × Nat × Bool) := []
  /-- reads of tallies: tally and beat. -/
  tallyReads : List (Nat × Nat) := []
  /-- registers that shape windows: BSET, VSET and VTAP. -/
  vocabM1 : Nat := 0
  lfmt : Nat := 0
  vec : Vector := {}
  /-- sets held (R241). -/
  sets : Tbl PaneSet := []
  /-- commands issued by queue, and the queues on which their number depends on a patched count; MVMs not shown retired
  (queue, number or 0 where it so depends, bytes), FSENDs likewise (queue, number, flow). -/
  cmds : Tbl Nat := []
  loose : List Nat := []
  /-- open iterations of nests of patched count. -/
  varied : Nat := 0
  mvms : List (Nat × Nat × Nat) := []
  sends : List (Nat × Nat × Nat) := []
  /-- TAKEs: last beat. -/
  takes : List Nat := []
  /-- open iterations: sets, MVM bytes, flows and TAKEs as they stood at each one's start. -/
  marks : List (Tbl PaneSet × Nat × List Nat × List Nat) := []
  ok : Bool := true

/-- Hold a path from beat `a` to `b`. -/
def Walk.hold (k : Walk) (path a b : Nat) : Walk := { k with holds := k.holds ++ [(path, a, b)] }

/-- Beats of the TAKEs still in progress at a beat. -/
def Walk.inTake (k : Walk) (b : Nat) : List Nat := (k.takes.filter (fun e => decide (b ≤ e))).map (· - b)

/-- A contribution to tallies from first to last input beat (R211). -/
def Walk.contribute (k : Walk) (ts : List Nat) (a b : Nat) (start : Bool) : Walk :=
  { k with contribs := k.contribs ++ ts.map fun t => (t, a, b + 47, start) }

/-- A reduction over a strap: the reduction path and a contribution (R200, R211). -/
def Walk.reduce (k : Walk) (b tally : Nat) (start : Bool) : Walk :=
  { (k.hold 1 b (b + 15)).contribute [tally] b (b + 15) start with ok := k.ok && strapOk k.vec.afmt && strapOk k.vec.bfmt }

/-- A pass: the vector path, its formats, and its tap (R198, R200, R204, R210, R211). -/
def Walk.pass (k : Walk) (b : Nat) (f : VFun) : Walk :=
  let k := { k.hold 0 b (b + 15) with ok := k.ok && passOk k.vec.toVMode f }
  if k.vec.tapk = 0 then k
  else
    { k.contribute [k.vec.tapTally] (b + 16) (b + 31) k.vec.tapStart with vec := { k.vec with tapStart := false } }

/-- Input bytes of MVMs not shown retired (R241). -/
def Walk.bytes (k : Walk) : Nat := (k.mvms.map (·.2.2)).sum

/-- Count a command on its queue: the walk and the command's number, from 1; 0 where the number depends on a patched count,
so that no literal target shows it retired for every count (R590; DEDUCED, log 130). -/
def Walk.count (k : Walk) (q : Nat) : Walk × Nat :=
  let n := tget 0 k.cmds q + 1
  let loose := if 0 < k.varied ∧ ¬ k.loose.contains q then q :: k.loose else k.loose
  ({ k with cmds := tput q n k.cmds, loose := loose }, if loose.contains q then 0 else n)

/-- Whether pane sets are pairwise disjoint and within their budget (R241). -/
def setsOk (ss : Tbl PaneSet) : Bool :=
  let all := ss.flatMap (fun e => e.2.panes)
  decide (all.length ≤ 4096) && decide all.Nodup && all.all (fun l => decide (l < 131072))

/-- One op of the walk. `share` gives the arrival share of a queue in rows (R241). -/
def Walk.op (share : Nat → Nat) (k0 : Walk) (b : Nat) (i : Instr) (w : OpWord) : Walk :=
  let c := match cmdQueue i with
    | some q => k0.count q
    | none => (k0, 0)
  let k := c.1
  match passOf i with
  | some p => k.pass b p.1
  | none =>
    match i with
    | .take _ _ _ r e =>
      let last := b + r.toNat / (if e.isSome then 8 else 4)
      { k.hold 9 b last with takes := k.takes ++ [last] }
    | .wait _ t q _ =>
      if w.pmode = 1 then k
      else
        let open_ (x : Nat × Nat × Nat) : Bool := x.1 != q.val || x.2.1 == 0 || decide (countDiff t (BitVec.ofNat 32 x.2.1) < 0)
        { k with mvms := k.mvms.filter open_, sends := k.sends.filter open_ }
    | .tileLoad _ _ _ buf _ _ => (k.hold 0 b (b + 255)).hold (3 + natOfBool buf) b (b + 255)
    | .tileScales _ _ buf => (k.hold 0 b (b + 15)).hold (3 + natOfBool buf) b (b + 15)
    | .stream _ _ _ r buf _ _ _ _ => (k.hold 1 b (b + r.toNat - 1)).hold (3 + natOfBool buf) b (b + r.toNat - 1)
    | .drain _ _ _ r _ _ _ _ _ => k.hold 2 b (b + r.toNat - 1)
    | .drainWide _ _ _ r _ => k.hold 2 b (b + 4 * r.toNat - 1)
    | .accLoad _ _ _ r _ => k.hold 2 b (b + 4 * r.toNat + 23)
    | .vset _ x y o _ _ _ _ => { k with vec := { k.vec with afmt := x.toNat, bfmt := y.toNat, ofmt := o.toNat } }
    | .vtap _ t y st _ _ => { k with vec := { k.vec with tapk := t.toNat, tapTally := y, tapStart := st } }
    | .tload _ t _ _ _ => { k with tallyReads := k.tallyReads ++ [(t.val, b)] }
    | .rstore _ _ m _ _ _ _ _ => { k with tallyReads := k.tallyReads ++ (maskBits m).map fun t => (t, b) }
    | .rsum _ _ c => k.reduce b c.tally c.start
    | .rsumsq _ _ c => k.reduce b c.tally c.start
    | .rdot _ _ _ c => k.reduce b c.tally c.start
    | .rmax _ _ c => k.reduce b c.tally c.start
    | .rmin _ _ c => k.reduce b c.tally c.start
    | .rargmax _ _ _ c => k.reduce b c.tally c.start
    | .raddw _ _ m => (k.hold 1 b b).contribute (maskBits m) b b false
    | .transpose _ _ _ _ _ _ => (k.hold 0 b (b + 255)).hold 1 (b + 300) (b + 555)
    | .retile _ _ _ r _ _ => (k.hold 0 b (b + r.toNat)).hold 1 (b + 300) (b + 300 + r.toNat)
    | .convert _ _ _ g _ _ _ _ => (k.hold 0 b (b + g.toNat)).hold 1 (b + 64) (b + 64 + g.toNat)
    | .bset _ vm f => { k with vocabM1 := vm.toNat, lfmt := f.toNat }
    | .select _ _ _ _ =>
      let rows := ((k.vocabM1 + 1) * (if k.lfmt = 0 then 4 else 2) + 255) / 256
      k.hold 0 b (b + (rows + 3) / 4 - 1)
    | .pset _ f rs cs nr nc g st _ =>
      let p : PaneSet := { first := f.toNat, rstr := rs.toNat, cstr := cs.toNat, nr := nr.toNat + 1, nc := nc.toNat + 1
                           grain := g.toNat + 3 }
      let ss := tput st p k.sets
      { k with sets := ss, ok := k.ok && (tfind k.sets st).isNone && setsOk ss }
    | .prel _ st _ => { k with sets := tdel st k.sets, ok := k.ok && (tfind k.sets st).isSome }
    | .mvm _ _ _ nv o _ _ _ st q =>
      match tfind k.sets st with
      | none => { k with ok := false }
      | some p =>
        let segs := (nv.toNat + 1) * p.nr
        let k := k.hold 0 b (b + (2 * segs + 2) / 3 + (segs + 255) / 256 - 1)
        let k := { k with mvms := k.mvms ++ [(q.val, c.2, 513 * segs)] }
        { k with ok := k.ok && decide (k.bytes ≤ 4194304 ∧ (nv.toNat + 1) * p.nc * mvmW o.toNat ≤ share q) }
    | .write _ _ _ r _ _ => k.hold 0 b (b + r.toNat / 4)
    | .pageAppend _ _ r _ _ _ => k.hold 0 b (b + r.toNat / 4)
    | .gather _ _ _ n _ _ => k.hold 0 b (b + (indexRows (n.toNat + 1) - 1) / 4)
    | .embed _ _ _ _ n _ _ _ => k.hold 0 b (b + (indexRows (n.toNat + 1) - 1) / 4)
    | .scatter _ _ _ n l _ _ =>
      k.hold 0 b (b + (indexRows (n.toNat + 1) + 3) / 4 + ((n.toNat + 1) * (l.toNat + 1) - 1) / 4)
    | .fsend _ _ f r _ q =>
      let k := { k.hold 0 b (b + r.toNat / 4) with sends := k.sends ++ [(q.val, c.2, f.toNat)] }
      { k with ok := k.ok && decide ((k.sends.filter (fun x => x.2.2 == f.toNat)).length ≤ 64) }
    | .hwrite _ _ _ r _ _ => k.hold 0 b (b + r.toNat / 4)
    | _ => k

/-- One event of the walk. An engine op's window must end before its iteration does (R91); what R590 lists must stand at
the end of a patched iteration as at its start, and a PSET is released within its nest body (R241). -/
def Walk.step (share : Nat → Nat) (k : Walk) : Ev → Walk
  | .op b lim i w =>
    let k' := k.op share b i w
    let fresh := k'.holds.drop k.holds.length
    let inside := match lim with
      | some e => w.eng == 0 || fresh.all (fun h => decide (h.2.2 < e))
      | none => true
    { k' with ok := k'.ok && inside }
  | .iterStart b patched =>
    { k with marks := (k.sets, k.bytes, k.sends.map (·.2.2), k.inTake b) :: k.marks, varied := k.varied + natOfBool patched }
  | .iterEnd b patched =>
    match k.marks with
    | m :: ms =>
      let same := k.sets == m.1 && k.bytes == m.2.1 && (k.sends.map (·.2.2)).isPerm m.2.2.1 && k.inTake b == m.2.2.2
      { k with marks := ms, varied := k.varied - natOfBool patched
               ok := k.ok && k.sets.all (fun e => m.1.contains e) && (!patched || same) }
    | [] => { k with ok := false }

/-- Whether no two ops hold one path in one beat. -/
def pathsOk (hs : List (Nat × Nat × Nat)) : Bool :=
  (indexed hs).all fun x => (indexed hs).all fun y =>
    decide (x.1 ≤ y.1) || x.2.1 != y.2.1 || decide (x.2.2.2 < y.2.2.1 ∨ y.2.2.2 < x.2.2.1)

/-- Whether no tally is read, and none started, inside a contribution window to it (R211). -/
def talliesOk (k : Walk) : Bool :=
  k.tallyReads.all (fun r => k.contribs.all fun c => c.1 != r.1 || decide (r.2 < c.2.1 ∨ c.2.2.1 < r.2))
    && (indexed k.contribs).all fun x => !x.2.2.2.2 || (indexed k.contribs).all fun y =>
        x.1 == y.1 || x.2.1 != y.2.1 || decide (x.2.2.1 < y.2.2.1 ∨ y.2.2.2.1 < x.2.2.1)

/-- Whether one layout of a stream keeps the rules of issue order. -/
def layoutOk (share : Nat → Nat) (es : List Ev) : Bool :=
  let k := es.foldl (Walk.step share) {}
  beatsOk es && k.ok && k.sets.isEmpty && pathsOk k.holds && talliesOk k

/-- The counts a nest of patched count is checked with (R590): none, one, two, and as many as outlast every window that an
iteration leaves open (R211: 94 beats). -/
def countsOf (period : Nat) : List Nat := [0, 1, 2, 94 / period + 3]

/-- The counts of a stream's patched nests, each taken with each of the others'. -/
def countChoices (ws : List W128) : List (List Nat) :=
  (ws.filterMap fun w => let o := splitWord w; if o.isOpen && o.pmode == 1 then some (countsOf o.ow2.toNat) else none).foldr
    (fun cs rest => cs.flatMap fun c => rest.map (c :: ·)) [[]]

/-- Whether a stream keeps every op-stream rule, for every choice of its patched counts (R590). -/
def streamOk (p : Plan) (v : VMove) : Bool :=
  match tfind p.code v with
  | none => true
  | some ws =>
    let m := p.moves.getD v (0, false)
    let is := ws.filterMap fun w => decodeOp v (splitWord w).benign
    ws.all (wordOk p v m.1 m.2 (tget 0 p.mode v) is)
      && (countChoices ws).all fun ns =>
          match layStream ns v ws with
          | some es => layoutOk (p.share v) es
          | none => false

/-- Whether every patched word reads a slot of a kind that matches its use (R97). -/
def slotsOk (p : Plan) (v : VMove) : Bool :=
  let ws := tget [] p.code v
  let is := ws.filterMap fun w => decodeOp v (splitWord w).benign
  ws.all fun w =>
    let o := splitWord w
    match decodeOp v o.benign with
    | some i => kindOk p v is o i
    | none => true

/-- Every virtual movement. -/
def vmoves : List VMove := List.finRange 64

/-- Detail of the op streams and patch declarations (R126 step 6), 0 when they pass. -/
def streamsCheck (p : Plan) : Nat :=
  if ¬ vmoves.all (streamOk p) then 0x0103
  else if p.patches.any (fun e => decide (5 < e.2.1)) ∨ ¬ vmoves.all (slotsOk p) then 0x0104
  else 0

end Sys2Proof.Machine
end

