-- ==== Sys2Proof/Machine/Routes.lean ====
section
/-!
DEFINITION. Addresses and routes (R131, R431 to R440): the dimension table, the port map, flat IDs and the fabric map, the
function route, the packets and control units of the link layer as bytes (R396, R397, R405), and what puts them into a
port's queues.
-/

namespace Sys2Proof.Machine

/-! ### Dimensions and ports (R434, R435) -/

/-- Number of bits set in a natural number below 2^n. -/
def popNat (n w : Nat) : Nat := ((List.range w).filter (fun i => bitNat n i)).length

/-- Mask and size of dimension `d` by its own entry: VALID, CHECK, reserved bits and SIZE (R434). -/
def State.dimRaw (s : State) (d : Nat) : Option (Nat × Nat) :=
  match s.look8 tblDim d 55 33 with
  | some e =>
    let m := fieldNat e 15 0
    let n := fieldNat e 31 16
    if bitNat e 32 ∧ 1 ≤ n ∧ n ≤ 2 ^ popNat m 16 then some (m, n) else none
  | none => none

/-- The valid dimensions: those whose mask overlaps no lower valid one (R434). -/
def State.dims (s : State) : List (Option (Nat × Nat)) :=
  (List.range 4).foldl (fun (l : List (Option (Nat × Nat))) d =>
    match s.dimRaw d with
    | some x =>
      l ++ [if l.all (fun y => match y with | some y => (BitVec.ofNat 16 x.1 &&& BitVec.ofNat 16 y.1) == 0 | none => true)
            then some x else none]
    | none => l ++ [none]) []

/-- Mask and size of a dimension. -/
def State.dim (s : State) (d : Nat) : Option (Nat × Nat) := (s.dims.getD d none)

/-- Whether some entry fails its check (R434): SIZE and MASK are judged of an entry in use. -/
def State.dimsBad (s : State) : Bool :=
  (List.range 4).any fun d =>
    (match s.look8 tblDim d 55 33 with | some e => bitNat e 32 | none => true) && (s.dim d).isNone

/-- Bits of `a` that a mask selects, packed in ascending order (R434). -/
def packBits (m a : Nat) : Nat :=
  ((List.range 16).filter (fun i => bitNat m i)).foldr (fun i x => 2 * x + natOfBool (bitNat a i)) 0

/-- Address `a` with the bits a mask selects replaced by those of `p` (R434). -/
def spreadBits (m a p : Nat) : Nat :=
  let bs := (List.range 16).filter (fun i => bitNat m i)
  (indexed bs).foldl (fun x e => x + natOfBool (bitNat p e.1) * 2 ^ e.2)
    (((List.range 16).filter (fun i => !bitNat m i)).foldl (fun x i => x + natOfBool (bitNat a i) * 2 ^ i) 0)

/-- Whether an entry of the port map keeps the checks of its own fields (R435): DIM and DIR. -/
def portRaw (e : W64) : Option (Nat × Nat) :=
  let n := e.toNat % 2 ^ 32
  if check4 n ∧ bitNat n 3 ∧ fieldNat n 23 4 = 0 then some (fieldNat n 1 0, fieldNat n 2 2) else none

/-- Dimension and direction of port `p`, none for a port that carries neither flows nor routes (R435). -/
def State.portDim (s : State) (p : Nat) : Option (Nat × Nat) :=
  match (s.look tblPort p).bind portRaw with
  | some (d, r) =>
    let other := (List.range 20).any fun q =>
      decide (q / 10 ≠ p / 10) && (match portRaw (s.activeEntry tblPort q) with | some x => x.1 == d | none => false)
    if (s.dim d).isSome ∧ other = false then some (d, r) else none
  | none => none

/-- Whether a port is ACTIVE (R412). -/
def State.isActive (s : State) (p : Nat) : Bool := (s.portOf p).state == 5

/-- Ports of a dimension and direction, ascending (R435). -/
def State.portsOf (s : State) (d r : Nat) : List Nat := (List.range 20).filter (fun p => s.portDim p == some (d, r))

/-- Active valid ports of a dimension and direction (R436, R438). -/
def State.activeOf (s : State) (d r : Nat) : List Nat :=
  (s.portsOf d r).filter (fun p => s.isActive p && !(s.portOf p).miscabled)

/-- The port of an ORDINAL (R124, R435). -/
def State.portAt (s : State) (d r k : Nat) : Option Nat := (s.portsOf d r)[k]?

/-- The neighbour of an address along a dimension, direction 0 upward (R436). -/
def State.neighbour (s : State) (a d r : Nat) : Option Nat :=
  match s.dim d with
  | some (m, n) =>
    let p := packBits m a
    some (spreadBits m a (if r = 0 then (p + 1) % n else (p + n - 1) % n))
  | none => none

/-- The address `k` hops from an address along a dimension (R452). -/
def State.hopAddr (s : State) (a d r : Nat) : Nat → Option Nat
  | 0 => some a
  | k + 1 => (s.hopAddr a d r k).bind fun x => s.neighbour x d r

/-! ### Virtual packages (R131, R432, R569) -/

/-- What a fabric-map lookup gives. -/
inductive Target where
  /-- The entry fails its check (R569). -/
  | invalid
  /-- A flat ID that cannot be translated (R432). -/
  | unreachable
  | place (a : W16)
deriving DecidableEq, Repr

/-- Place address of a flat logical ID, by the sender's table (R432). -/
def State.flatPlace (s : State) (id : Nat) : Target :=
  match s.look tblFlat id with
  | some e =>
    let n := e.toNat % 2 ^ 32
    if check4 n ∧ bitNat n 16 ∧ fieldNat n 23 17 = 0 then .place (BitVec.ofNat 16 n) else .unreachable
  | none => .unreachable

/-- A fabric-map entry that passes its check, its reserved bits 0 (R11, R131). -/
def mapEntry (n : Nat) : Bool :=
  check4 n && bitNat n 17 && fieldNat n 23 18 == 0 && (!bitNat n 16 || fieldNat n 15 12 == 0)

/-- The place address of a virtual package (R131). -/
def State.packagePlace (s : State) (vp : Nat) : Target :=
  match s.look tblFabric vp with
  | some e =>
    let n := e.toNat % 2 ^ 32
    if mapEntry n then (if bitNat n 16 then s.flatPlace (fieldNat n 11 0) else .place (BitVec.ofNat 16 n)) else .invalid
  | none => .invalid

/-- Virtual packages of a plan other than this one. -/
def State.peers (s : State) (p : Plan) : List Nat := (List.range p.gridSize).filter (· != s.selfVpkg)

/-- The virtual packages of a plan by their place addresses, as its arming translates them (R131). -/
def State.peerPlaces (s : State) (p : Plan) : Tbl Nat :=
  (s.peers p).foldl (fun t v => match s.packagePlace v with | .place a => tput a.toNat v t | _ => t) []

/-! ### Bytes (R396, R397, R405) -/

/-- Header of a packet without SEQ and CRC, words 0 to 2. -/
def Packet.head (p : Packet) (seq : Nat) : Bytes :=
  leBytes 4 (seq + p.cls * 2 ^ 16 + p.vc * 2 ^ 19 + p.payload.length / 16 * 2 ^ 20) ++ leBytes 4 p.routeA.toNat
    ++ leBytes 4 p.routeB.toNat

/-- CRC of a packet (R396, R397). -/
def Packet.crc (p : Packet) (seq : Nat) : W32 := crc32c (p.head seq ++ p.payload)

/-- A packet as sent; `x` is what its CRC is combined with (R487). -/
def Packet.bytes (p : Packet) (seq : Nat) (x : W32) : Bytes :=
  p.head seq ++ leBytes 4 (p.crc seq ^^^ x).toNat ++ p.payload

/-- Bytes 0x00 to 0x0B of a control unit. -/
def unitBytes (w0 w1 w2 : W32) : Bytes := leBytes 4 w0.toNat ++ leBytes 4 w1.toNat ++ leBytes 4 w2.toNat

/-- Whether the CRC of a control unit holds (R397). -/
def unitIntact (u : CtrlUnit) : Bool := crc32c (unitBytes u.w0 u.w1 u.w2) == u.crc

/-! ### Control messages (R405, R406) -/

def rankSwitch : Nat := 0
def rankRetrain : Nat := 1
def rankGasp : Nat := 2
def rankNak : Nat := 3
def rankMember : Nat := 4
def rankAck : Nat := 5
def rankTimeRsp : Nat := 6
def rankTimeReq : Nat := 7
def rankHeartbeat : Nat := 8
def rankCredit : Nat := 9
def rankLane : Nat := 10

/-- Queue a control message on a port. -/
def queueCtrl (s : State) (p : Nat) (m : CtrlMsg) : State :=
  let x := s.portOf p
  s.setPort p { x with ctrl := x.ctrl ++ [m] }

/-- Queue a message that is sent in four consecutive control units. -/
def queueFour (s : State) (p : Nat) (m : CtrlMsg) : State :=
  queueCtrl (queueCtrl (queueCtrl (queueCtrl s p m) p m) p m) p m

/-- Ports of a package's grid: those the port map assigns (log 63). -/
def State.gridPorts (s : State) : List Nat := (List.range 20).filter (fun p => (s.portDim p).isSome)

/-- Send a message in four control units on every ACTIVE port of a list. -/
def flood (s : State) (ports : List Nat) (m : CtrlMsg) : State :=
  (ports.filter (fun p => s.isActive p)).foldl (fun s p => queueFour s p m) s

/-! ### Loose packets (R408, R437 to R440) -/

/-- What route() answers (R438). -/
inductive Route where
  | deliver
  /-- Port, dimension, and whether the hop crosses the date line. -/
  | port (p d : Nat) (cross : Bool)
  | unreachable
deriving DecidableEq, Repr

/-- Bits that some valid dimension covers. -/
def State.coverMask (s : State) : Nat :=
  (s.dims.foldl (fun (m : W16) x => match x with | some y => m ||| BitVec.ofNat 16 y.1 | none => m) 0).toNat

/-- The function route (R438): dimensions D0 to D3 in turn. -/
def State.route (s : State) (dest src : W16) : Route :=
  let own := s.fabric.place.toNat
  let go := (List.range 4).findSome? fun d =>
    match s.dim d with
    | none => none
    | some (m, n) =>
      let up := (packBits m dest.toNat + n - packBits m own % n) % n
      if up = 0 then none
      else
        let r := if up ≤ n - up then 0 else 1
        let ps := s.activeOf d r
        let at_ := packBits m own
        let cross := if r = 0 then at_ == n - 1 else at_ == 0
        match ps[(dest ^^^ src).toNat % ps.length]? with
        | some p => some (Route.port p d cross)
        | none => some Route.unreachable
  match go with
  | some x => x
  | none =>
    let fixed := ~~~ BitVec.ofNat 16 s.coverMask
    if (dest &&& fixed) = (s.fabric.place &&& fixed) then .deliver else .unreachable

/-- Pair of a loose class and virtual channel (R405, R409). -/
def pairOf (cls vc : Nat) : Nat := 2 * (cls - 1) + vc

/-- Queue a loose packet on a port. -/
def queueLoose (s : State) (p : Nat) (k : Packet) : State :=
  let x := s.portOf p
  let i := pairOf k.cls k.vc
  s.setPort p { x with loose := tput i (tget [] x.loose i ++ [k]) x.loose }

/-- Free the loose buffer a packet occupies at the port it came in by: one credit returns, unless the port owes it to a
retrain (R410, R411). Returns of one pair travel up to 15 in one CREDIT message. -/
def freeBuffer (s : State) (b : Option (Nat × Nat)) : State :=
  match b with
  | none => s
  | some (p, i) =>
    let x := s.portOf p
    let x := { x with occupied := tset 0 x.occupied i (tget 0 x.occupied i - 1) }
    if 0 < tget 0 x.noReturn i then s.setPort p { x with noReturn := tset 0 x.noReturn i (tget 0 x.noReturn i - 1) }
    else
      match (indexed x.ctrl).reverse.find? (fun e => e.2.rank == rankCredit) with
      | some (k, m) =>
        if fieldNat m.w1.toNat (4 * i + 3) (4 * i) < 15 then
          s.setPort p { x with ctrl := x.ctrl.set k { m with w1 := m.w1 + BitVec.ofNat 32 (16 ^ i) } }
        else s.setPort p { x with ctrl := x.ctrl ++ [{ rank := rankCredit, w0 := 2, w1 := BitVec.ofNat 32 (16 ^ i) }] }
      | none => s.setPort p { x with ctrl := x.ctrl ++ [{ rank := rankCredit, w0 := 2, w1 := BitVec.ofNat 32 (16 ^ i) }] }

/-- An unreachable loose packet is discarded and counted (R440); a telemetry record is counted in the drop counters of
path 2 instead (R521). `inp` is the port it arrived on. -/
def dropLoose (s : State) (k : Packet) (inp : Option Nat) : State :=
  let die := match inp with | some p => p / 10 | none => 0
  let x := s.linkOf die
  let s := s.setLink die { x with unreachable := x.unreachable + 1 }
  if k.cls = 2 then
    let cls := bitsAt k.payload 0 4 18 16
    let i := 160 + 16 * cls + siteOf (BitVec.ofNat 64 (fieldAt k.payload 8 8))
    (countDropped s i).noteSet (keyDrop i)
  else raise s 0x0603 (match inp with | some p => portLoc p 0x010 | none => blockLoc 13 0x802)

/-- Route a loose packet onward: `inDim` is the dimension it came by, with its channel (R438, R439). True when it is to be
delivered here. -/
def forwardLoose (s : State) (k : Packet) (inp inDim : Option Nat) : State × Bool :=
  let dest := k.routeA.setWidth 16
  let src := (k.routeA >>> 16).setWidth 16
  let s := if s.dimsBad then raise s 0x0601 (blockLoc (match inp with | some p => 13 + p / 10 | none => 13) 0x802) else s
  match s.route dest src with
  | .deliver => (freeBuffer s k.from_, true)
  | .unreachable => (freeBuffer (dropLoose s k inp) k.from_, false)
  | .port p d cross =>
    let vc := if cross then 1 else if inDim = some d then k.vc else 0
    (queueLoose s p { k with vc := vc }, false)

/-- Send a loose packet that originates here (R437): class, destination, tag, payload. -/
def sendLoose (s : State) (cls : Nat) (dest tag : W16) (payload : Bytes) : State :=
  (forwardLoose s { cls := cls, routeA := dest.setWidth 32 ||| (s.fabric.place.setWidth 32 <<< 16)
                    routeB := tag.setWidth 32, payload := padTo ((payload.length + 15) / 16 * 16) payload } none none).1

end Sys2Proof.Machine
end

