-- ==== Sys2Proof/Machine/Member.lean ====
section
/-!
DEFINITION. Running as many (16_running_as_many.md): grid steps ended by aborts and fences, the membership protocol, twin
mode, the level table and fault rehearsal. Also the two things this chapter shares with the link layer: how a control
unit is received (R405, R407, R429) and how a port goes down (R413, R440, R459).
-/

namespace Sys2Proof.Machine

/-! ### Control units received (R405, R407, R429) -/

/-- Change the counters of a port (R427). -/
def countPort (s : State) (p : Nat) (f : PortCounters → PortCounters) : State :=
  let x := s.portOf p
  s.setPort p { x with counters := f x.counters }

/-- One more in a 48-bit saturating counter (R427). -/
def sat48 (n : Nat) : Nat := satNat 48 (n + 1)

/-- A partner's protocol violation raises LINK_PROTOCOL and is counted (R427, R429). -/
def linkProtocol (s : State) (p : Nat) : State :=
  raise (countPort s p fun c => { c with protocol := sat48 c.protocol }) 0x0505 (portLoc p 0x010)

/-- TYPE of a control unit (R405). -/
def unitType (u : CtrlUnit) : Nat := fieldNat u.w0.toNat 3 0

/-- Bits [hi:lo] of a word. -/
def bitsOf (w : W32) (hi lo : Nat) : Nat := fieldNat w.toNat hi lo

/-- Whether a word has bits only where a mask has them. -/
def onlyBits (w : W32) (m : W32) : Bool := (w &&& ~~~ m) == 0

/-- Receive a control unit of a TYPE on a port whose slots run: one whose CRC fails is discarded and counted, one with a
non-zero reserved bit is discarded as a violation (R405, R407, R429). -/
def ctrlUnit (s : State) (p : Nat) (u : CtrlUnit) (type : Nat) (m0 m1 m2 : W32) (f : State) : Res :=
  if ¬ unitIntact u then .next (countPort s p fun c => { c with crcCtrl := sat48 c.crcCtrl })
  else if unitType u ≠ type then .next s
  else if onlyBits u.w0 m0 && onlyBits u.w1 m1 && onlyBits u.w2 m2 then .next f
  else .next (linkProtocol s p)

/-! ### Membership messages (R472 to R474) -/

/-- Word 0 of a MEMBER unit (R474). -/
def memberW0 (s : State) (kind : Nat) : W32 :=
  BitVec.ofNat 32 (0xA + kind * 2 ^ 4 + s.grid.epoch % 256 * 2 ^ 8 + s.grid.grid * 2 ^ 16)

/-- Word 0 of a MEMBER unit for the epoch being agreed. -/
def memberNext (s : State) (kind : Nat) : W32 :=
  BitVec.ofNat 32 (0xA + kind * 2 ^ 4 + (s.grid.epoch + 1) % 256 * 2 ^ 8 + s.grid.grid * 2 ^ 16)

/-- Bits [31:0] of the chronometer. -/
def State.stamp32 (s : State) : Nat := s.chron.count % 2 ^ 32

/-- Signed distance from stamp `b` to stamp `a`, both 32 bits. -/
def stampDiff (a b : Nat) : Int := (BitVec.ofNat 32 a - BitVec.ofNat 32 b).toInt

/-- Send DYING_GASP on every ACTIVE port (R474). -/
def sendGasp (s : State) (cause : Nat) : State :=
  flood s (List.range 20) { rank := rankGasp, w0 := BitVec.ofNat 32 (9 + cause * 2 ^ 4 + s.fabric.place.toNat * 2 ^ 16)
                            w1 := BitVec.ofNat 32 (s.grid.grid * 2 ^ 16), w2 := BitVec.ofNat 32 s.stamp32 }

/-- Flood an ITEM notice for epoch E + 1 (R473, R474). -/
def floodItem (s : State) (it : Item) : State :=
  flood s s.gridPorts { rank := rankMember, w0 := memberNext s 1
                        w1 := BitVec.ofNat 32 (it.key + natOfBool it.rehearsal * 2 ^ 22)
                        w2 := BitVec.ofNat 32 it.stamp }

/-- Key of the link at port `p` (R472): named from its lower-addressed end. -/
def State.linkKey (s : State) (p : Nat) : Nat :=
  let x := s.portOf p
  if s.fabric.place.toNat < x.partner.toNat then s.fabric.place.toNat + p * 2 ^ 16 + 2 ^ 21
  else x.partner.toNat + x.partnerPort * 2 ^ 16 + 2 ^ 21

/-- Insert an item in ascending key order. -/
def insertItem (it : Item) : List Item → List Item
  | [] => [it]
  | x :: xs => if it.key < x.key then it :: x :: xs else if x.key = it.key then it :: xs else x :: insertItem it xs

/-- T0 of R475: the earliest stamp among the items held, no earlier than its floor. -/
def Grid.t0 (g : Grid) : Option Nat :=
  let least := g.items.foldl (fun (m : Option Nat) i =>
    match m with
    | none => some i.stamp
    | some x => if stampDiff i.stamp x < 0 then some i.stamp else some x) none
  match least, g.t0Floor with
  | some x, some f => some (if stampDiff x f < 0 then f else x)
  | m, _ => m

/-- Take in one item (R473, R475): the first one opens GATHER; an item is forwarded when it is new or earlier than the
copy held. A copy marked rehearsal marks the item (R472). -/
def takeItem (s : State) (it : Item) : State :=
  let g := s.grid
  match g.items.find? (fun i => i.key == it.key) with
  | none =>
    let g := { g with items := insertItem it g.items, state := if g.state = 0 ∨ g.state = 3 then 1 else g.state }
    floodItem { s with grid := g } it
  | some old =>
    let reh := old.rehearsal || it.rehearsal
    if stampDiff it.stamp old.stamp < 0 then
      floodItem { s with grid := { g with items := insertItem { it with rehearsal := reh } g.items } } it
    else { s with grid := { g with items := insertItem { old with rehearsal := reh } g.items } }

/-- Whether an item is a link with an end at address `a` (R472); the far end lies along the named port by the port map
(DEDUCED, log 65). -/
def State.touches (s : State) (a : Nat) (i : Item) : Bool :=
  bitNat i.key 21 &&
    (i.key % 65536 == a ||
      (match s.portDim (fieldNat i.key 20 16) with
       | some (d, r) => s.neighbour (i.key % 65536) d r == some a
       | none => false))

/-- Addresses next to this package. -/
def State.neighbours (s : State) : List Nat :=
  (s.gridPorts.filterMap fun p => (s.portDim p).bind fun x => s.neighbour s.fabric.place.toNat x.1 x.2).dedup

/-- Neighbours every grid port of which is reported lost: a package item for each (R473). -/
def takeLost (s : State) : State :=
  let n := s.gridPorts.length
  (s.neighbours.filter fun a =>
      decide (0 < n ∧ n ≤ (s.grid.items.filter (s.touches a)).length) && !s.grid.items.any (fun i => i.key == a)).foldl
    (fun s a =>
      let reh := (s.grid.items.filter (s.touches a)).all (·.rehearsal)
      takeItem s { key := a, rehearsal := reh, stamp := s.stamp32 }) s

/-- Take in an item and what it completes, while the package takes part (R463, R473). -/
def gatherItem (s : State) (it : Item) : State := if s.grid.memberEn then takeLost (takeItem s it) else s

/-! ### A port goes down (R413, R440, R459) -/

/-- Loose packets of a port that goes down: those queued, and those of the replay buffer. -/
def PortSt.looseHeld (x : PortSt) : List Packet :=
  (x.replay.filter (fun h => h.pkt.cls != 0)).map (·.pkt) ++ x.loose.flatMap (·.2)

/-- Take a port out of its running state: SCHEDULED packets held are discarded, loose ones are routed again from here, and
the link starts from nothing at its next training (R413, R440, R459; the sequence numbers' fresh start is a DESIGN
CHOICE, log 66). -/
def portDown (s : State) (p st : Nat) : State :=
  let x := s.portOf p
  let held := x.looseHeld
  let dim := (s.portDim p).map (·.1)
  let s := s.setPort p
    { x with state := st, rxMask := 0, txMask := 0, trained := 0, level := 0, retrains := 0, replay := [], replaying := none
             e := 0, nakAt := none, unacked := 0, ctrl := [], loose := [], displaced := [], credits := []
             noReturn := x.occupied, starved := [], param := none, same := 0, seenSent := 0, seenGot := false
             progress := s.ns, causes := 0, inRetrain := false, nakTimes := [], trims := [], switched := none, switching := none
             nextTrim := none, restore := [], hbMiss := 0, xidOut := none, fecTimes := []
             miscabled := false, txSeq := 0 }
  held.foldl (fun s k => (forwardLoose s k (some p) dim).1) s

/-- Declare a link lost (R413, R428, R473): the alarm, the port's packets, and the membership item of a grid port. -/
def linkLost (s : State) (p st cause : Nat) : State :=
  let s := raise s 0x0506 (portLoc p 0x010)
  let it : Item := { key := s.linkKey p, rehearsal := false, stamp := s.stamp32 }
  let grid := s.gridPorts.contains p
  let s := portDown s p st
  let s := if cause = 0 then s else s.setPort p { s.portOf p with cause := cause }
  if grid then gatherItem s it else s

/-! ### Steps that are not to launch (R95, R443) -/

/-- Packets that a wheel switch leaves ready go to the flow's active ports in turn, as displaced packets (R444). -/
def displace (s : State) (die : Nat) : State :=
  (s.linkOf die).ready.foldl (fun s e =>
    match tfind (s.linkOf die).flows e.1 with
    | some f =>
      let ps := s.activeOf f.dim (natOfBool f.dir)
      (indexed e.2).foldl (fun s k =>
        match ps[k.1 % ps.length]? with
        | some p => let x := s.portOf p; s.setPort p { x with displaced := x.displaced ++ [k.2] }
        | none => s) s
    | none => s) s

/-- No step is armed any more: every slot is loose, and what the wheels leave queued goes in loose slots (R443, R444). -/
def disarm (s : State) : State :=
  let clear (s : State) (die : Nat) : State := s.setLink die { s.linkOf die with ready := [] }
  let s := clear (displace (clear (displace s 0) 0) 1) 1
  { s with fabric := { s.fabric with armed := none } }

/-- Take accepted steps that are not to launch off the list: the arming of one of them is over (R443), and where the first of
the list leaves, the patches of the one that launches next are loaded (R95). -/
def dropSteps (s : State) (gone : StepReq → Bool) : State :=
  let t := { s with steps := s.steps.filter (fun r => !gone r) }
  let t := if s.steps.any (fun r => gone r && s.fabric.armed == some r.acc) then disarm t else t
  if s.steps.head?.any gone then loadPending t else t

/-! ### The end of grid steps (R468 to R471) -/

/-- STEP_SUMMARY of a grid step (R479, R517): the running step, or one completed unlaunched. -/
def stepSummary (s : State) (gseq : Nat) (r : Option Run) : State :=
  let slip := match r with | some r => satNat 32 ((r.slip.map (·.2)).sum) | none => 0
  let peer := match r with | some r => r.peer | none => 0
  let fetch := match r with
    | some r => satNat 32 (((r.slip.filter (fun e => decide (65472 ≤ e.1))).map (·.2)).sum) | none => 0
  let d := leBytes 4 gseq ++ leBytes 4 s.grid.epoch
    ++ leBytes 8 ((r.bind (·.begin_)).getD 0) ++ leBytes 8 ((r.bind (·.end_)).getD 0)
    ++ leBytes 4 slip ++ leBytes 4 peer ++ leBytes 4 fetch ++ leBytes 4 (slip - peer - fetch)
    ++ leBytes 8 ((r.map (·.ceilNs)).getD 0) ++ leBytes 8 ((r.map (·.withholdNs)).getD 0)
  deliver s { code := 0x010A, cls := eventClass 0x010A, fn := (r.map (·.req.fn)).getD 0x1FF, loc := cdLoc 4 0x010
              stamp := s.chron.count, step := r.map (·.number), detail := d }

/-- Complete an accepted STEP unlaunched with ABORTED (R470). -/
def completeUnlaunched (s : State) (acc gseq detail : Nat) : State :=
  stepSummary (complete (dropSteps s (fun r => r.acc == acc)) acc 0x14 detail) gseq none

/-- Whether the running step is a grid step that has not passed its last plan beat (R469, R477). -/
def State.gridRunning (s : State) : Option Nat :=
  match s.run with
  | some r => if s.allPassed then none else r.gseq
  | none => none

/-- End the running grid step by a global stop, with a detail of ABORTED unless it is ending already (R468, R469,
R477). -/
def endGrid (s : State) (detail : Nat) : State :=
  let s := if s.stop.ending then s else s.onRun fun r => { r with abort := r.abort.or (some detail) }
  requestStop s 1 true (s.floor1 + 15)

/-- Flood an ABORT that started here (R468, R474); causes 1 and 2 raise STEP_ABORT (R469). -/
def floodAbort (s : State) (gseq cause : Nat) : State :=
  let s := if cause ≤ 2 then raise s 0x0701 0 (packDetail [(4, gseq), (1, cause), (2, s.fabric.place.toNat)]) else s
  let s := { s with grid := { s.grid with aborts := s.grid.aborts ++ [(gseq, false)] } }
  if s.grid.memberEn then
    flood s s.gridPorts { rank := rankMember, w0 := memberW0 s 3, w1 := BitVec.ofNat 32 gseq
                          w2 := BitVec.ofNat 32 (cause + s.fabric.place.toNat * 2 ^ 16) }
  else s

/-- From when the fence limit of a grid step runs, in ns (R468): its launch, which for a timed step is its plan beat 0, or
LAUNCH while that has not issued (R64, R466); none before LAUNCH; the arming of a step that waits for its trigger. -/
def State.fenceFrom (s : State) : Option Nat :=
  match s.run with
  | some r =>
    if r.req.start ≠ 1 then some s.grid.fenceAt
    else if r.begin_.isSome then some r.beginNs
    else if r.req.launch ≤ s.chron.count then some (max s.grid.fenceAt (s.ns - (s.chron.count - r.req.launch)))
    else none
  | none => some s.grid.fenceAt

/-- Whether the fence limit of a grid step that runs, or waits for its trigger, has passed (R468). -/
def State.fencePast (s : State) : Bool :=
  match s.fenceFrom with
  | some t => decide (t + max 1 s.grid.fenceLimit * 10000 ≤ s.ns)
  | none => false

/-- The armed chained grid step that has not launched. -/
def State.armedChained (s : State) : Option StepReq := s.steps.find? (fun r => r.gseq.isSome && r.start == 2)

/-- FENCE_LIMIT (R468): the running grid step is ended, or the armed chained one completed unlaunched; the limit does not
run while a stop is held (R533). -/
def execFenceLimit (s : State) : Res :=
  match s.gridRunning, s.armedChained with
  | some g, _ => act (s.stop.state ≠ 2 ∧ s.fencePast = true) (endGrid (floodAbort s g 1) 0x1402) s
  | none, some r =>
    act (s.run = none ∧ s.stop.state ≠ 2 ∧ s.fencePast = true)
      (completeUnlaunched (floodAbort s (r.gseq.getD 0) 1) r.acc (r.gseq.getD 0) 0x1402) s
  | none, none => .next s

/-! ### Notices received (R469, R473 to R475, R483, R484) -/

/-- Receive a MEMBER unit of a KIND for this package's grid (R463, R465, R474): units of another tag are discarded. -/
def memberUnit (s : State) (p : Nat) (u : CtrlUnit) (kind : Nat) (m1 m2 : W32) (f : State) : Res :=
  ctrlUnit s p u 0xA 0xFFFF_FFFF m1 m2
    (if bitsOf u.w0 7 4 = kind ∧ s.isActive p = true ∧ s.grid.memberEn ∧ bitsOf u.w0 31 16 = s.grid.grid then f else s)

/-- The message of a notice as it is forwarded. -/
def notice (u : CtrlUnit) : CtrlMsg := { rank := rankMember, w0 := u.w0, w1 := u.w1, w2 := u.w2 }

/-- Detail with a rehearsal's 0x0010 (R471). -/
def rehDetail (d : Nat) (reh : Bool) : Nat := if reh then d + 0x10 else d

/-- ABORT's effect (R469): the step of that GSEQ is ended, completed unlaunched, or the notice remembered. -/
def abortEff (g : Nat) (reh : Bool) (s : State) : State :=
  if s.gridRunning = some g then endGrid s (rehDetail 0x1404 reh)
  else
    match s.steps.find? (fun r => r.gseq == some g) with
    | some r => completeUnlaunched s r.acc g (rehDetail 0x1404 reh)
    | none => s

/-- ABORT (R469): forwarded once. A notice of another epoch is discarded (DEDUCED, log 67). -/
def execAbort (p : Port) (u : CtrlUnit) (s : State) : Res :=
  let g := u.w1.toNat
  let reh := u.w2.getLsbD 4
  memberUnit s p u 3 0xFFFF_FFFF 0xFFFF_001F
    (if bitsOf u.w0 15 8 ≠ s.grid.epoch % 256 ∨ s.grid.aborts.any (fun a => a.1 == g) then s
     else abortEff g reh (flood { s with grid := { s.grid with aborts := s.grid.aborts ++ [(g, reh)] } } s.gridPorts (notice u)))

/-- DYING_GASP (R473, R474): a package item for the sender. -/
def execDyingGasp (p : Port) (u : CtrlUnit) (s : State) : Res :=
  ctrlUnit s p u 9 0xFFFF_00FF 0xFFFF_0000 0xFFFF_FFFF
    (if s.isActive p = true ∧ bitsOf u.w1 31 16 = s.grid.grid then
       gatherItem s { key := bitsOf u.w0 31 16, rehearsal := decide (bitsOf u.w0 7 4 = 5), stamp := u.w2.toNat }
     else s)

/-- MEMBER_ITEM (R473, R474). -/
def execMemberItem (p : Port) (u : CtrlUnit) (s : State) : Res :=
  memberUnit s p u 1 0x007F_FFFF 0xFFFF_FFFF
    (if bitsOf u.w0 15 8 = (s.grid.epoch + 1) % 256 then
       gatherItem s { key := bitsOf u.w1 21 0, rehearsal := u.w1.getLsbD 22, stamp := u.w2.toNat }
     else { s with grid := { s.grid with itemsDropped := s.grid.itemsDropped + 1 } })

/-- MEMBER_SPLIT (R475): the member holds until MEMBER_EN is cleared and set again. -/
def split (s : State) : State := raise { s with grid := { s.grid with state := 4 } } 0x0703 0

/-- The set of the epoch: every key with a stamp at or before T0 + 400 µs (R475). -/
def Grid.chosen (g : Grid) : List Item :=
  match g.t0 with
  | some t => g.items.filter (fun i => decide (stampDiff i.stamp (t + 400000) ≤ 0))
  | none => []

/-- Whether chronometer bits [31:0] have reached T0 + `d` (R475). -/
def State.pastT0 (s : State) (d : Nat) : Bool :=
  match s.grid.t0 with
  | some t => decide (0 ≤ stampDiff s.stamp32 (t + d))
  | none => false

/-- GATHER_END's effect (R475): the set is fixed, and its SEAL flooded; a different SEAL already here splits. -/
def gatherEndEff (s : State) : State :=
  let keys := s.grid.chosen.map (·.key)
  let own := (keys.length, crc32c (keys.flatMap (leBytes 4)))
  let others := s.grid.seals
  let s := { s with grid := { s.grid with state := 2, set := keys, ownSeal := some own, seals := others ++ [own] } }
  let s := flood s s.gridPorts { rank := rankMember, w0 := memberNext s 2, w1 := own.2, w2 := BitVec.ofNat 32 own.1 }
  if others.any (fun x => x != own) then split s else s

/-- GATHER_END (R475): at T0 + 800 µs. -/
def execGatherEnd (s : State) : Res :=
  act (s.grid.memberEn = true ∧ s.grid.state = 1 ∧ s.pastT0 800000 = true) (gatherEndEff s) s

/-- SEAL (R475): forwarded when new; one that differs from the own one splits. A SEAL for another epoch is discarded
(DEDUCED, log 67). -/
def execSeal (p : Port) (u : CtrlUnit) (s : State) : Res :=
  let x := (bitsOf u.w2 15 0, u.w1)
  memberUnit s p u 2 0xFFFF_FFFF 0x0000_FFFF
    (if bitsOf u.w0 15 8 ≠ (s.grid.epoch + 1) % 256 ∨ s.grid.seals.contains x then s
     else
       let s := flood { s with grid := { s.grid with seals := s.grid.seals ++ [x] } } s.gridPorts (notice u)
       if s.grid.state = 2 ∧ s.grid.ownSeal ≠ some x then split s else s)

/-- Merge an agreed item into the vacancy list, of at most 4,096 entries (R472, R475). -/
def vacate (l : List Item) (i : Item) : List Item :=
  match l.find? (fun x => x.key == i.key) with
  | some x => insertItem { i with rehearsal := x.rehearsal || i.rehearsal } l
  | none => if l.length < 4096 then insertItem i l else l

/-- Accepted STEP descriptors of grid steps that have not launched, by acceptance number (R477). -/
def State.gridWaiting (s : State) : List Nat :=
  (s.intake.acc.filter fun e =>
    e.2.kind == 0x01 && (match s.run with | some r => r.req.acc != e.1 | none => true) &&
      (match s.slotOf (e.2.bits 8 4 5 0) with
       | .resident p | .unloading _ p => decide (1 < p.gridSize)
       | _ => false)).map (·.1)

/-- MEMBER_COMMIT's effect (R475, R477): the epoch advances, the set joins the vacancy list, the running grid step is
ended, the waiting ones complete unlaunched, and the package holds. Items held over open the next epoch. -/
def memberCommitEff (s : State) : State :=
  let g := s.grid
  let set := g.items.filter (fun i => g.set.contains i.key)
  let rest := g.items.filter (fun i => !g.set.contains i.key)
  let reh := set.all (·.rehearsal)
  let floor := match g.t0 with | some t => some ((t + 1600000) % 2 ^ 32) | none => none
  let waiting := s.gridWaiting
  let run := s.gridRunning.isSome
  let s := waiting.foldl (fun s acc =>
    let q := ((s.steps.find? (fun r => r.acc == acc)).bind (·.gseq)).getD s.grid.gseq
    let taken := ((s.steps.find? (fun r => r.acc == acc)).bind (·.gseq)).isSome
    let s := completeUnlaunched s acc q (rehDetail 0x1403 reh)
    if taken then s else { s with grid := { s.grid with gseq := (s.grid.gseq + 1) % 2 ^ 32 } }) s
  let s := if run then endGrid s (rehDetail 0x1401 reh) else s
  let s := { s with grid := { s.grid with epoch := (g.epoch + 1) % 2 ^ 32, vacancy := set.foldl vacate g.vacancy, items := rest
                                          set := [], ownSeal := none, seals := [], t0Floor := floor
                                          state := if rest.isEmpty then 3 else 1 } }
  raise s 0x0702 0 (packDetail [(4, s.grid.epoch), (2, set.length), (1, natOfBool reh)]) none 0x1FF
    (if reh then tget 0 g.rehearsing (2 ^ 25 + (set.map (·.key)).headD 0) else 0)

/-- MEMBER_COMMIT (R475, R477): at T0 + 1,600 µs. -/
def execMemberCommit (s : State) : Res :=
  act (s.grid.memberEn = true ∧ s.grid.state = 2 ∧ s.pastT0 1600000 = true) (memberCommitEff s) s

/-- A LEVEL message for one entry of the level table (R474, R484). -/
def levelMsg (s : State) (a l : Nat) : CtrlMsg :=
  { rank := rankMember, w0 := memberW0 s 4, w1 := BitVec.ofNat 32 (a + l * 2 ^ 16), w2 := BitVec.ofNat 32 s.stamp32 }

/-- Flood the package's own LEVEL (R484). -/
def floodLevel (s : State) : State :=
  let a := s.fabric.place.toNat
  let s := { s with grid := { s.grid with levels := tset 0 s.grid.levels a s.level } }
  flood s s.gridPorts (levelMsg s a s.level)

/-- Send the whole level table across a port (R484). -/
def sendLevels (s : State) (p : Nat) : State :=
  s.grid.levels.foldl (fun s e => queueFour s p (levelMsg s e.1 e.2)) s

/-- MEMBER_LEVEL (R484): an entry new to the member is stored and flooded onward. -/
def execMemberLevel (p : Port) (u : CtrlUnit) (s : State) : Res :=
  let a := bitsOf u.w1 15 0
  let l := bitsOf u.w1 23 16
  memberUnit s p u 4 0x00FF_FFFF 0xFFFF_FFFF
    (if tget 0 s.grid.levels a = l then s
     else flood { s with grid := { s.grid with levels := tset 0 s.grid.levels a l } } s.gridPorts (notice u))

/-- Least table level among members that are not vacant (R465, R484): of the addresses with an entry. -/
def State.minLevel (s : State) : Nat :=
  let gone := (s.grid.vacancy.filter (fun i => !bitNat i.key 21)).map (fun i => i.key % 65536)
  match (s.grid.levels.filter (fun e => !gone.contains e.1)).map (·.2) with
  | [] => 0
  | x :: xs => xs.foldl min x

/-- HALF_OUT (R483): the half is out; the package holds at its next fence. -/
def execHalfOut (p : Port) (u : CtrlUnit) (s : State) : Res :=
  let g := u.w1.toNat
  memberUnit s p u 5 0xFFFF_FFFF 0xFFFF_0000
    (if s.grid.halfOuts.contains g then s
     else flood { s with grid := { s.grid with halfOuts := s.grid.halfOuts ++ [g], twinState := 2 } } s.gridPorts (notice u))

/-- Flood HALF_OUT for this package's own half (R482, R483). -/
def floodHalfOut (s : State) (g : Nat) : State :=
  flood { s with grid := { s.grid with halfOuts := s.grid.halfOuts ++ [g], twinState := 2 } } s.gridPorts
    { rank := rankMember, w0 := memberW0 s 5, w1 := BitVec.ofNat 32 g, w2 := BitVec.ofNat 32 (s.fabric.place.toNat * 2 ^ 16) }

/-! ### Twin mode (R480 to R483) -/

/-- Whether twin mode is on (R465). -/
def State.twinOn (s : State) : Bool := s.grid.twin == 1 || s.grid.twin == 2

/-- The 32 bytes of a twin packet (R481). -/
def twinBytes (t : TwinPkt) : Bytes :=
  leBytes 4 t.gseq ++ leBytes 4 t.epoch ++ leBytes 4 (t.level + natOfBool t.faulted * 2 ^ 8) ++ zeros 4 ++ padTo 16 t.digest

/-- The comparison of R482. -/
def twinCompare (s : State) (own peer : TwinPkt) : State :=
  if own.digest = peer.digest then s
  else if own.level ≠ peer.level then raise s 0x0704 0
  else
    let s := raise s 0x0705 0
    let out := if own.faulted = peer.faulted then s.grid.twin == 2 else own.faulted
    if out then floodHalfOut s own.gseq else s

/-- Compare every GSEQ for which both packets are present (R482). -/
def twinMatch (s : State) : State :=
  match s.grid.ownTwin.find? (fun o => s.grid.peerTwin.any (fun p => p.gseq == o.2.gseq)) with
  | some o =>
    match s.grid.peerTwin.find? (fun p => p.gseq == o.2.gseq) with
    | some p =>
      let g := s.grid
      twinCompare { s with grid := { g with ownTwin := g.ownTwin.filter (fun x => x.2.gseq != p.gseq)
                                            peerTwin := g.peerTwin.filter (fun x => x.gseq != p.gseq) } } o.2 p
    | none => s
  | none => s

/-- TWIN_PACKET (R481, R482): the 32 bytes of the partner's packet. -/
def execTwinPacket (data : Bytes) (s : State) : Res :=
  let t : TwinPkt := { gseq := fieldAt data 0 4, epoch := fieldAt data 4 4, level := fieldAt data 8 1
                       faulted := bitsAt data 8 4 8 8 == 1, digest := slice data 16 16 }
  act (s.twinOn = true ∧ data.length = 32)
    (twinMatch { s with grid := { s.grid with peerTwin := s.grid.peerTwin ++ [t] } }) s

/-- TWIN_TIMEOUT (R482): the partner's packet is missing, or TWIN_PORT is lost; the timeout does not run while a stop is
held (R533). -/
def execTwinTimeout (s : State) : Res :=
  let g := s.grid
  act (s.twinOn = true ∧ g.twinState = 0 ∧ s.stop.state ≠ 2
      ∧ ((g.ownTwin.any fun o => decide (o.1 + max 1 g.twinTimeout * 10000 ≤ s.ns)) = true ∨ s.isActive g.twinPort = false))
    (raise { s with grid := { g with twinState := 1 } } 0x0706 0) s

/-! ### GRID_CMD (R465, R478) -/

/-- RESUME's effect (R464, R478). -/
def resumeEff (epoch : Nat) (s : State) : State :=
  if s.grid.state = 3 ∧ epoch = s.grid.epoch then
    { s with grid := { s.grid with state := 0, gseq := 0, aborts := [], halfOuts := [], seals := [], t0Floor := none } }
  else s

/-- GRID_RESUME (R465, R478). -/
def execGridResume (epoch : W32) (s : State) : Res := .next (resumeEff epoch.toNat s)

/-- WITHDRAW's effect (R465). -/
def withdrawEff (s : State) : State :=
  let s := sendGasp s 4
  { s with grid := { s.grid with memberEn := false } }

/-- GRID_WITHDRAW (R465, R474). -/
def execGridWithdraw (s : State) : Res := .next (withdrawEff s)

/-! ### Fault rehearsal (R486, R487) -/

/-- Injections allowed now: 4 at once, and one more for every 10 s since the last (R486). -/
def State.injectable (s : State) : Nat := min 4 (s.grid.injections + (s.ns - s.grid.lastInject) / 10000000000)

/-- Whether PARAM and PORT of an injection are in range (R486). -/
def injectOk (s : State) (kind port param : Nat) : Bool :=
  match kind with
  | 1 => decide (1 ≤ param ∧ param ≤ 1000000 ∧ port < 20) && s.isActive port
  | 2 => decide (1 ≤ param ∧ param ≤ 64 ∧ port < 20) && s.isActive port
  | 3 => decide (param < 2 ^ 22)
  | _ => decide (param < 2 ^ 30) && !s.isLX

/-- FAULT_INJECT's effect (R486). -/
def faultInjectEff (s : State) (acc : Nat) (a : Acc) : State :=
  let kind := a.bits 8 4 3 0
  let port := a.bits 8 4 8 4
  let reh := a.fld 0xC 4
  let param := a.fld 0x10 4
  let n := s.injectable
  if ¬ s.grid.injectEn then refuse s acc 0x0222
  else if kind = 0 ∨ 4 < kind then refuse s acc 0x0131
  else if reh = 0 ∨ ¬ injectOk s kind port param then refuse s acc 0x0136
  else if n = 0 then refuse s acc 0x0731
  else
    let s := { s with grid := { s.grid with injections := n - 1, lastInject := s.ns
                                            inject := s.grid.inject ++ [(kind, port, reh, param)] } }
    complete s acc 0 0 { r0 := s.chron.count }

/-- FAULT_INJECT (R486). -/
def execFaultInject (acc : Nat) (s : State) : Res := serve s acc 0x28 fun a => .next (faultInjectEff s acc a)

/-- The first injection of a kind that is still to be carried out: port, identifier, PARAM. -/
def State.injection (s : State) (kind : Nat) : Option (Nat × Nat × Nat) :=
  (s.grid.inject.find? (fun i => i.1 == kind)).map (·.2)

/-- Take an injection off the list. -/
def takeInjection (s : State) (kind : Nat) : State :=
  { s with grid := { s.grid with inject := s.grid.inject.eraseP (fun i => i.1 == kind) } }

/-- LINK_DROP (R487): the port is DISABLED for PARAM µs, and a rehearsal ITEM for the link is flooded at once. -/
def execLinkDrop (s : State) : Res :=
  match s.injection 1 with
  | some (p, reh, us) =>
    let it : Item := { key := s.linkKey p, rehearsal := true, stamp := s.stamp32 }
    let grid := s.gridPorts.contains p
    let s := portDown (takeInjection s 1) p 0
    let s := s.setPort p { s.portOf p with dropUntil := some (s.ns + us * 1000) }
    let s := { s with grid := { s.grid with rehearsing := tput (2 ^ 25 + it.key) reh (tput p reh s.grid.rehearsing) } }
    .next (if grid then gatherItem s it else s)
  | none => .next s

/-- LINK_DROP_END (R487): the port trains again. -/
def execLinkDropEnd (p : Port) (s : State) : Res :=
  let x := s.portOf p
  match x.dropUntil with
  | some t =>
    act (t ≤ s.ns)
      (s.setPort p { x with dropUntil := none, state := if x.enable then 1 else 0, progress := s.ns }) s
  | none => .next s

/-- POISON (R487): the next PARAM packets of the port carry the rehearsal CRC. -/
def execPoison (s : State) : Res :=
  match s.injection 2 with
  | some (p, reh, n) =>
    let s := takeInjection s 2
    .next { s with grid := { s.grid with poison := tput p ((tget (0, 0) s.grid.poison p).1 + n, reh) s.grid.poison } }
  | none => .next s

/-- VACANCY (R487): a rehearsal ITEM for the named key is flooded. -/
def execVacancy (s : State) : Res :=
  match s.injection 3 with
  | some (_, reh, key) =>
    let s := takeInjection s 3
    let s := { s with grid := { s.grid with rehearsing := tput (2 ^ 25 + key) reh s.grid.rehearsing } }
    .next (gatherItem s { key := key, rehearsal := true, stamp := s.stamp32 })
  | none => .next s

/-- AUDIT (R487): AW_AUDIT_FAULT for the named column-plane; the pane runs resolve-all and its self-test. -/
def execAudit (s : State) : Res :=
  match s.injection 4 with
  | some (_, reh, x) =>
    let s := takeInjection s 4
    let d := fieldNat x 18 17
    let l := fieldNat x 16 0
    let a := s.awOf d
    let k := a.paneOf l
    let det := packDetail [(1, 0), (4, 0), (1, fieldNat x 29 27), (1, fieldNat x 26 19), (2, 0), (2, 0), (4, 0)]
    let s := raise s 0x0201 (paneLoc d (l / 64) (a.posOf l)) det none 0x1FF reh
    let a := requestTest (a.resolving k) k 4
    let s := s.setAw d a
    .next { s with grid := { s.grid with rehearsing := tput (rehPane d k) reh s.grid.rehearsing } }
  | none => .next s

end Sys2Proof.Machine
end

