-- ==== Sys2Proof/Machine/Functions.lean ====
section
/-!
DEFINITION. Function-level reset (R386 to R391), for one function or, for a physical function, for it and its enabled
virtual functions.
-/

namespace Sys2Proof.Machine

/-- Functions that a reset of `f` resets (R390). -/
def State.resetGroup (s : State) (f : Nat) : List Nat :=
  (List.range 256).filter fun g => g == f || (decide (f < 4 ∧ 4 ≤ g) && (pfOf s.tbl.vfCounts g).1 == f && s.fnEnabled g)

/-- Drop the accepted descriptors of a function that have not begun, and its unlaunched steps; those begun run on
without a completion (R386). -/
def dropDescriptors (s : State) (f : Nat) : State × Nat :=
  let mine (e : Nat × Acc) : Bool := e.2.fn == f
  let waiting := (s.steps.filter (fun r => r.fn == f)).map (·.acc)
  let gone := (s.intake.acc.filter (fun e => mine e && (!e.2.begun || waiting.contains e.1))).map (·.1)
  let acc := (s.intake.acc.filter (fun e => !gone.contains e.1)).map fun e =>
    if mine e then (e.1, { e.2 with mute := true }) else e
  let intake := { s.intake with acc := acc, shadowDue := s.intake.shadowDue.filter (· != f)
                                fetched := s.intake.fetched.filter (fun x => x.fn != f) }
  (dropSteps { s with intake := intake } (fun r => r.fn == f), gone.length)

/-- Discard the running step if it is the function's (R387): its FSENDs count retired and its FRECVs are cancelled (R458). -/
def discardRun (s : State) (f : Nat) : State × Option Nat :=
  match s.run with
  | some r =>
    if r.req.fn = f then
      (s.queue.foldl (fun s e => if s.vtype (e.1 / 16) = 7 then cancelQ s e.1 else s)
        (s.onRun fun r => { r with discarded := true }), some r.number)
    else (s, none)
  | none => (s, none)

/-- FLR_START for one function (R386, R387). -/
def flrOne (s : State) (f : Nat) : State :=
  let d := dropDescriptors s f
  let r := discardRun d.1 f
  let x := r.1.fnOf f
  let s := r.1.setFn f { x with inReset := true, flrStep := r.2, flrDropped := d.2, flrAt := s.ns }
  if s.cad.win.isSome ∧ s.cad.fn = some f then { s with cad := { s.cad with blank := true } } else s

/-- FLR_START's effect (R386, R390). -/
def flrStartEff (f : Nat) (s : State) : State := (s.resetGroup f).foldl flrOne s

/-- FLR_START (R386). -/
def execFlrStart (f : Fn) (s : State) : Res :=
  act (s.fnEnabled f = true ∧ (s.fnOf f).inReset = false) (flrStartEff f s) s

/-- FLR_COMPLETE for one function (R386, R389, R391): its registers at reset values; its streams and pages stay. -/
def flrDone (s : State) (f : Nat) : State :=
  let x := s.fnOf f
  if x.inReset then
    let s := s.setFn f { ({} : FnState) with openStreams := x.openStreams, pages := x.pages }
    let s := raise s 0x0404 0 (packDetail [(8, x.flrStep.getD (2 ^ 64 - 1)), (4, x.flrDropped)]) none f
    if f = 0 then { s with evring := {} } else s
  else s

/-- FLR_COMPLETE (R386, R391): 50 µs at the earliest. -/
def execFlrComplete (f : Fn) (s : State) : Res :=
  act ((s.fnOf f).inReset = true ∧ (s.fnOf f).flrAt + 50000 ≤ s.ns) ((s.resetGroup f).foldl flrDone s) s

end Sys2Proof.Machine
end

