-- ==== Sys2Proof/Machine/Fabric.lean ====
section
/-!
DEFINITION. Fabric flows and collectives (15_fabric_routing_and_flows.md): arming, the X movement's ops FSEND and FRECV,
scheduled packets at a link die, verification and acknowledgement, resends, COLLECT hops, and MGMT requests.
-/

namespace Sys2Proof.Machine

/-! ### Arming (R443, R444) -/

/-- The wheel of a port in a plan (R124, R443): empty, every slot loose, where none is given. -/
def State.wheelOf (s : State) (p : Plan) (port : Nat) : List W16 :=
  match s.portDim port with
  | some (d, r) => tget [] p.wheels (d + 4 * r + 8 * (s.portsOf d r).idxOf port)
  | none => []

/-- What one link die does at arming (R443). -/
def armDie (s : State) (p : Plan) (die : Nat) : State :=
  let s := displace s die
  let flows := (p.flows.filter (fun e => e.1 / 16384 == die)).map (fun e => (e.1 % 16384, e.2))
  let wheels := (((List.range 10).map fun k => (k, s.wheelOf p (10 * die + k))).filter (fun e => !e.2.isEmpty))
  s.setLink die { s.linkOf die with delivered := [], discarded := [], flows := flows, tseq := [], verified := [], open_ := []
                                    sent := [], own := [], ready := [], wheels := wheels, unarmed := [] }

/-- Arm an accepted step (R443): both link dies, the flow colour, and the packages behind the destinations' addresses. -/
def armStep (s : State) (acc : Nat) (p : Plan) : State :=
  let s := armDie (armDie s p 0) p 1
  let f := s.fabric
  { s with fabric := { f with
      armed := some acc, places := s.peerPlaces p
      colour := if p.flows.isEmpty then f.colour else (f.colour + 1) % 4 } }

/-! ### Slices, packets and units (R442, R445, R454) -/

/-- S: the send buffer size of a flow (R445). -/
def Flow.size (f : Flow) : Nat := f.srcLast - f.srcFirst + 256

/-- Byte offset of row `o` of slice `h − 1` (R445). -/
def Flow.rowAt (f : Flow) (h o : Nat) : Nat := f.hopFirst + (h - 1) * f.size + 256 * o

/-- One row of a link die's flow buffers. -/
def LinkDie.row (l : LinkDie) (a : Nat) : Bytes := memGet l.fill l.buf a 256

/-- Store one row. -/
def LinkDie.putRow (l : LinkDie) (a : Nat) (b : Bytes) : LinkDie := { l with buf := memPutAll l.fill l.buf a (padTo 256 b) }

/-- ROUTE_A of a SCHEDULED packet (R442). -/
def routeA (flow : Nat) (close discard : Bool) (hop : Nat) : W32 :=
  BitVec.ofNat 32 (flow + natOfBool close * 2 ^ 14 + natOfBool discard * 2 ^ 15 + hop * 2 ^ 16)

/-- ROUTE_B of a SCHEDULED packet (R442). -/
def routeB (offset colour tseq : Nat) : W32 := BitVec.ofNat 32 (offset + colour * 2 ^ 14 + tseq * 2 ^ 16)

/-- The end-to-end unit (R454). -/
def e2eUnit (kind flow die : Nat) (discard : Bool) (rowsM1 tseq source offset colour round : Nat) : Bytes :=
  leBytes 4 (kind + flow * 2 ^ 4 + die * 2 ^ 18 + natOfBool discard * 2 ^ 19 + rowsM1 * 2 ^ 20)
    ++ leBytes 4 (tseq + source * 2 ^ 16) ++ leBytes 4 (offset + colour * 2 ^ 14 + round * 2 ^ 16) ++ zeros 4

/-- The CRC unit (R454). -/
def crcUnit (rows : List Bytes) : Bytes := leBytes 8 (crc64 rows.flatten).toNat ++ zeros 8

/-- The packets of one scheduled sending (R448): data packets of two rows in ascending OFFSET, then the CLOSE. -/
def transferPackets (s : State) (die flow tseq hop offset : Nat) (discard : Bool) (rows : List Bytes) : List Packet :=
  let c := s.fabric.colour
  let n := rows.length
  let data := (List.range ((n + 1) / 2)).map fun i =>
    ({ cls := 0, routeA := routeA flow false discard hop, routeB := routeB (offset + 2 * i) c tseq
       payload := (rows.drop (2 * i)).take 2 |>.flatten } : Packet)
  data ++ [{ cls := 0, routeA := routeA flow true discard hop, routeB := routeB offset c tseq
             payload := e2eUnit 1 flow die discard (n - 1) tseq s.fabric.place.toNat 0 c 0 ++ crcUnit rows }]

/-- Queue packets as ready for a flow (R444). -/
def LinkDie.addReady (l : LinkDie) (flow : Nat) (ps : List Packet) : LinkDie :=
  { l with ready := tput flow (tget [] l.ready flow ++ ps) l.ready }

/-- Addresses `a` to `b` hops from here along a flow's ring (R448, R452). -/
def State.hopsFrom (s : State) (f : Flow) (a b : Nat) : List W16 :=
  ((List.range (b + 1)).filter (fun k => decide (a ≤ k))).filterMap fun k =>
    (s.hopAddr s.fabric.place.toNat f.dim (natOfBool f.dir) k).map (BitVec.ofNat 16)

/-- Destinations of a transfer sent with HOP `h` (R448, R452): the end of a plain flow, every hop of an MCAST flow, the
next hop of a COLLECT flow. -/
def State.dests (s : State) (f : Flow) : List W16 :=
  if f.collect then s.hopsFrom f 1 1 else if f.mcast then s.hopsFrom f 1 f.hops else s.hopsFrom f f.hops f.hops

/-! ### FSEND and FRECV (R447 to R449) -/

/-- Whether an ACTIVE port of a dimension and direction runs below the level the plan needs (R448): PEER_LEVEL, and the
LEVELS entry of the neighbour. -/
def State.levelShort (s : State) (p : Plan) (d r : Nat) : Bool :=
  let near := s.neighbour s.fabric.place.toNat d r
  let need := p.levels.foldl (fun n e =>
    match s.packagePlace e.1 with
    | .place a => if some a.toNat = near then max n e.2 else n
    | _ => n) p.peerLevel
  (s.portsOf d r).any fun q => s.isActive q && decide ((s.portOf q).level < need)

/-- The plan of the running step. -/
def State.plan (s : State) : Plan := match s.run with | some r => r.plan | none => {}

/-- The flow an FSEND names, when declared for its die (R448). -/
def State.flowOf (s : State) (die flow : Nat) : Option Flow := tfind s.plan.flows (16384 * die + flow)

/-- Checks of an FSEND at issue (R448): plan-fault code, detail and operand. -/
def fsendCheck (s : State) (die flow fb rows : Nat) : Option (Nat × Nat × Nat) :=
  match s.flowOf die flow with
  | none => some (pfFlowNotOwned, 0, flow)
  | some f =>
    let out := fun (k : Nat) =>
      let a := fb % 2 ^ 23 / 256 * 256 + 256 * k
      decide (a < f.srcFirst ∨ f.srcFirst + f.size < a + 256)
    match (List.range rows).find? out with
    | some k => some (pfFlow, 0, fb + 256 * k)
    | none => if s.levelShort s.plan f.dim (natOfBool f.dir) then some (pfLevelPeer, 0, flow) else none

/-- Send a transfer of rows of the send buffer as an FSEND of a queue (R448): its TSEQ, its packets, its record. -/
def sendTransfer (s : State) (die flow : Nat) (f : Flow) (offset : Nat) (rows : List Bytes) (queue : Nat) (pos : PlanPos) :
    State :=
  let l := s.linkOf die
  let t := tget 0 l.tseq flow
  let discard := s.discarded
  let l := (indexed rows).foldl (fun l e => l.putRow (f.srcFirst + 256 * (offset + e.1)) e.2) l
  let l := { l with tseq := tset 0 l.tseq flow ((t + 1) % 65536)
                    own := (List.range rows.length).foldl (fun o k => tput (32768 * flow + offset + k) (pos, discard) o) l.own
                    sent := l.sent ++ [({ flow := flow, tseq := t, offset := offset, rows := rows.length, discard := discard
                                          waiting := s.dests f, queue := some queue, pos := pos } : Sent)] }
  s.setLink die (l.addReady flow (transferPackets s die flow t 1 offset discard rows))

/-- Finish the FSEND command of a sent transfer (R448). -/
def finishSend (s : State) (die queue : Nat) (pos : PlanPos) : State :=
  let v := match s.run with
    | some r => nthOfType (r.plan.moves.map (·.1)) 7 die
    | none => nthOfType gridTypes 7 die
  let k := qKey v queue
  match (indexed (s.qOf k).cmds).find? (fun e => e.2.pos == pos && !e.2.done) with
  | some (i, _) => finishCmd s k i []
  | none => s

/-- What an FSEND does once its source rows are read: in replay with DATA it sends nothing (R540). -/
def fsendEff (s : State) (die flow fb queue : Nat) (rows : List Bytes) (pos : PlanPos) : State :=
  match s.flowOf die flow with
  | none => s
  | some f =>
    if s.replaying && s.replay.data then s
    else sendTransfer s die flow f ((fb % 2 ^ 23 / 256 * 256 - f.srcFirst) / 256) rows queue pos

/-- Flow-buffer rows of an X op of link die `die`: bit 23 of each address names a die (R82, R447). -/
def flowRows (die fb n b : Nat) (wr : Bool) : List Access :=
  (List.range n).map fun (k : Nat) =>
    { cls := 2, addr := fb + 256 * k, beat := b, write := wr, own := fieldNat (fb + 256 * k) 23 23 == die }

/-- In replay with DATA an FSEND retires at its issue (R540). -/
def replaySend (v queue : Nat) (pos : PlanPos) (s : State) : State :=
  if s.replaying && s.replay.data then finishSend s (s.vord v) queue pos else s

/-- FSEND (R447, R448): source row `k` is read at b + ⌊k / 4⌋. -/
def execFsend (v : VMove) (src : AddrOp) (flow : BitVec 14) (rowsM1 : BitVec 12) (fb : FlowOp) (queue : Fin 16)
    (s : State) : Res :=
  let pos := s.pos v
  let q := s.seqOf v
  let n := rowsM1.toNat + 1
  let a := q.flowAddr fb
  let die := s.vord v
  let rows := outRows (q.addr src) n pos.beat
  issueCmd s v 7 queue (decide (die < 2)) (flowRows die a n pos.beat true)
    (.fsend v src flow rowsM1 (.lit (BitVec.ofNat 24 a)) queue) rows (fun _ => []) 0
    (fun s => fsendCheck s die flow.toNat a n) (replaySend v queue pos)

/-- Whether rows of a die lie in the hop buffer of a flow. -/
def inHop (f : Flow) (a n : Nat) : Bool := decide (a ≤ f.hopLast ∧ f.hopFirst ≤ a + 256 * n - 1)

/-- The check of an FRECV at issue (R449): a flow of its rows whose incoming ports run below the level. -/
def frecvCheck (s : State) (die fb rows : Nat) : Option (Nat × Nat × Nat) :=
  let a := fb % 2 ^ 23 / 256 * 256
  match s.plan.flows.find? (fun e => e.1 / 16384 == die && inHop e.2 a rows
      && s.levelShort s.plan e.2.dim (1 - natOfBool e.2.dir)) with
  | some e => some (pfLevelPeer, 0, e.1 % 16384)
  | none => none

/-- FRECV (R447, R449). -/
def execFrecv (v : VMove) (rowsM1 : BitVec 12) (fb : FlowOp) (queue : Fin 16) (s : State) : Res :=
  let pos := s.pos v
  let n := rowsM1.toNat + 1
  let a := (s.seqOf v).flowAddr fb
  let die := s.vord v
  issueCmd s v 7 queue (decide (die < 2)) (flowRows die a n pos.beat false)
    (.frecv v rowsM1 (.lit (BitVec.ofNat 24 a)) queue) [] (fun _ => []) n (fun s => frecvCheck s die a n) id

/-- The address and rows of an FRECV command. -/
def frecvOf : Instr → Option (Nat × Nat)
  | .frecv _ rm1 (.lit a) _ => some (a.toNat % 2 ^ 23 / 256, rm1.toNat + 1)
  | _ => none

/-- The first unfinished FRECV of a queue: its place, its first row number and its rows. -/
def Queue.nextRecv (q : Queue) : Option (Nat × Cmd × Nat × Nat) :=
  (indexed q.cmds).findSome? fun e => if e.2.done then none else (frecvOf e.2.op).map fun r => (e.1, e.2, r.1, r.2)

/-- FRECV_RETIRE's effect (R449): the rows are copied; a discarded one ends the step with PEER_DISCARDED. -/
def frecvRetireEff (v die queue i row n : Nat) (c : Cmd) (s : State) : State :=
  let l := s.linkOf die
  let play := s.replaying && s.replay.data
  let rows := if play then s.replay.frecvs.take n else (List.range n).map fun k => l.row (256 * (row + k))
  let s := if play then { s with replay := { s.replay with frecvs := s.replay.frecvs.drop n } } else s
  let bad := (List.range n).any fun k => l.discarded.contains (row + k)
  let at_ := blockLoc (13 + die) 0x800
  let s := if bad ∧ ¬ play then deviceFault (raise s 0x0609 at_) 0x0609 at_ else s
  let s := if s.replay.data then logEntry s 7 c.pos.step rows.flatten else s
  finishCmd s (qKey v queue) i rows

/-- FRECV_RETIRE (R449): every row of the FRECV has been delivered in the armed step; in replay with DATA the recorded rows
take their place (R540). -/
def execFrecvRetire (die : Fin 2) (queue : Fin 16) (s : State) : Res :=
  match s.run with
  | some r =>
    let v := nthOfType (r.plan.moves.map (·.1)) 7 die
    match (s.qOf (qKey v queue)).nextRecv with
    | some (i, c, row, n) =>
      act (((s.replaying && s.replay.data) || (List.range n).all fun k => (s.linkOf die).delivered.contains (row + k)) = true)
        (frecvRetireEff v die queue i row n c s) s
    | none => .next s
  | none => .next s

/-! ### Duplicates and open transfers (R455, R456) -/

/-- Key of the duplicate window of a flow's slice. -/
def winKey (flow hop : Nat) : Nat := 32768 * flow + hop

/-- The lowest TSEQ not yet verified of a flow's slice, and those verified above it. -/
def LinkDie.window (l : LinkDie) (flow hop : Nat) : Nat × List Nat :=
  let w := tget [] l.verified (winKey flow hop)
  (w.headD 0, w.tail)

/-- Whether a TSEQ is verified (R456). -/
def LinkDie.isVerified (l : LinkDie) (flow hop t : Nat) : Bool :=
  let w := l.window flow hop
  decide (32768 ≤ (t + 65536 - w.1) % 65536) || w.2.contains t

/-- Whether a TSEQ lies in the window of the 64 above the lowest (R456). -/
def LinkDie.inWindow (l : LinkDie) (flow hop t : Nat) : Bool :=
  decide ((t + 65536 - (l.window flow hop).1) % 65536 ≤ 64)

/-- Move the lowest TSEQ over those verified. -/
def raiseLow : Nat → Nat × List Nat → Nat × List Nat
  | 0, w => w
  | n + 1, w => if w.2.contains w.1 then raiseLow n ((w.1 + 1) % 65536, w.2.filter (· != w.1)) else w

/-- Record a verified TSEQ (R456). -/
def LinkDie.verify (l : LinkDie) (flow hop t : Nat) : LinkDie :=
  let w := l.window flow hop
  let w := raiseLow 65 (w.1, w.2 ++ [t])
  { l with verified := tput (winKey flow hop) (w.1 :: w.2) l.verified }

/-- Whether an open-transfer record is that of a transfer. -/
def OpenXfer.is (x : OpenXfer) (flow hop t : Nat) : Bool := x.flow == flow && x.hop == hop && x.tseq == t

/-- The open-transfer record of a transfer, made where one is free (R456). -/
def LinkDie.openOf (l : LinkDie) (flow hop t : Nat) : Option OpenXfer :=
  match l.open_.find? (·.is flow hop t) with
  | some x => some x
  | none =>
    if l.open_.length < 4096 ∧ l.inWindow flow hop t then some { flow := flow, hop := hop, tseq := t, source := 0 } else none

/-- Put an open-transfer record back. -/
def LinkDie.putOpen (l : LinkDie) (x : OpenXfer) : LinkDie :=
  if l.open_.any (·.is x.flow x.hop x.tseq) then
    { l with open_ := l.open_.map fun y => if y.is x.flow x.hop x.tseq then x else y }
  else { l with open_ := l.open_ ++ [x] }

/-- Drop an open-transfer record. -/
def LinkDie.closeXfer (l : LinkDie) (x : OpenXfer) : LinkDie :=
  { l with open_ := l.open_.filter fun y => !y.is x.flow x.hop x.tseq }

/-- Send a RESEND-class packet. -/
def sendResend (s : State) (dest : W16) (payload : Bytes) : State := sendLoose s 4 dest 0 payload

/-- ACK a transfer to its SOURCE (R455). -/
def sendAck (s : State) (die flow t : Nat) (rows : Nat) (discard : Bool) (source : W16) : State :=
  sendResend s source (e2eUnit 2 flow die discard (rows - 1) t source.toNat 0 s.fabric.colour 0)

/-- REQ a new round of a transfer (R455). -/
def sendReq (s : State) (die flow t rows round : Nat) (discard : Bool) (source : W16) : State :=
  sendResend s source (e2eUnit 3 flow die discard (rows - 1) t source.toNat 0 s.fabric.colour round)

/-- First OFFSET of a transfer: the least of its packets'. -/
def OpenXfer.first (x : OpenXfer) : Nat := x.got.foldl min (x.got.headD 0)

/-- Rows of a transfer in its slice. -/
def OpenXfer.slice (x : OpenXfer) (l : LinkDie) (f : Flow) (n : Nat) : List Bytes :=
  (List.range n).map fun k => l.row (f.rowAt x.hop (x.first + k))

/-- Mark the rows of a slice delivered, and discarded where the transfer is (R455, R458). -/
def LinkDie.deliverRows (l : LinkDie) (first n : Nat) (discard : Bool) : LinkDie :=
  (List.range n).foldl (fun l k =>
    { l with delivered := insertNat (first + k) l.delivered
             discarded := if discard then insertNat (first + k) l.discarded else l.discarded }) l

/-- The trigger of a chained start (R467). -/
def trigger (s : State) (die flow t : Nat) : State :=
  { s with steps := s.steps.map fun r =>
      if r.start = 2 ∧ s.fabric.armed = some r.acc ∧ bitsAt r.chain 0 4 13 0 = flow ∧ bitsAt r.chain 0 4 14 14 = die
          ∧ fieldAt r.chain 4 2 = t then { r with triggered := true } else r }

/-- Verify a transfer whose CLOSE and data packets are all held (R455): on a match its rows are delivered, the TSEQ is
recorded and SOURCE acknowledged; a COLLECT hop waits to combine (R452). On a mismatch a new round is asked for. -/
def verifyXfer (s : State) (die : Nat) (f : Flow) (x : OpenXfer) : State :=
  let l := s.linkOf die
  match x.rows, x.crc with
  | some n, some c =>
    if x.got.length < (if x.round = 0 then (n + 1) / 2 else n) then s
    else if crc64 (x.slice l f n).flatten = c then
      let l := l.verify x.flow x.hop x.tseq
      let l := if f.collect then l.putOpen { x with verified := true }
               else (l.deliverRows (f.rowAt x.hop x.first / 256) n x.discard).closeXfer x
      let s := sendAck (s.setLink die l) die x.flow x.tseq n x.discard x.source
      logEntry (trigger s die x.flow x.tseq) 4 ((s.run.map (·.number)).getD 0) (leBytes 4 x.flow ++ leBytes 2 x.tseq)
    else
      let s := s.setLink die (l.putOpen { x with round := x.round + 1, got := [], rows := none, crc := none })
      if x.round < 3 then sendReq s die x.flow x.tseq n (x.round + 1) x.discard x.source else s
  | _, _ => s

/-! ### Scheduled packets received (R446) -/

/-- FLOW_UNARMED (R446, R461): counted per flow, raised once per flow and arming. -/
def flowUnarmed (s : State) (p flow : Nat) : State :=
  let die := p / 10
  let l := s.linkOf die
  let n := tget 0 l.unarmed flow
  let s := s.setLink die { l with unarmed := tput flow (n + 1) l.unarmed }
  if n = 0 then raise s 0x0604 (portLoc p 0x011) else s

/-- A data packet stored in its slice, as part of its open transfer (R446, R455, R456). -/
def storeData (s : State) (die flow : Nat) (f : Flow) (hop off t : Nat) (discard : Bool) (rows : List Bytes) (dest : Bool) :
    State :=
  let l := s.linkOf die
  let put (l : LinkDie) : LinkDie := (indexed rows).foldl (fun l e => l.putRow (f.rowAt hop (off + e.1)) e.2) l
  if ¬ dest then s.setLink die (put l)
  else if l.isVerified flow hop t then s
  else
    match l.openOf flow hop t with
    | none => s.setLink die { l with noRecord := l.noRecord + 1 }
    | some x =>
      if x.round ≠ 0 then s
      else
        let x := { x with got := if x.got.contains off then x.got else x.got ++ [off], discard := x.discard || discard }
        verifyXfer (s.setLink die ((put l).putOpen x)) die f x

/-- A CLOSE packet at a destination (R455, R456). -/
def storeClose (s : State) (die flow : Nat) (f : Flow) (hop t : Nat) (discard : Bool) (b : Bytes) : State :=
  let l := s.linkOf die
  let n := bitsAt b 0 4 31 20 + 1
  let source := BitVec.ofNat 16 (fieldAt b 6 2)
  if l.isVerified flow hop t then sendAck s die flow t n discard source
  else
    match l.openOf flow hop t with
    | none => s.setLink die { l with noRecord := l.noRecord + 1 }
    | some x =>
      if x.round ≠ 0 then s
      else
        let x := { x with source := source, rows := some n, crc := some (BitVec.ofNat 64 (fieldAt b 16 8))
                          discard := x.discard || discard }
        verifyXfer (s.setLink die (l.putOpen x)) die f x

/-- A SCHEDULED packet accepted at port `p` (R446). -/
def receiveScheduled (s : State) (p : Nat) (k : Packet) : State :=
  let die := p / 10
  let a := k.routeA.toNat
  let b := k.routeB.toNat
  let flow := fieldNat a 13 0
  let close := bitNat a 14
  let discard := bitNat a 15
  let hop := fieldNat a 30 16
  let off := fieldNat b 13 0
  let t := fieldNat b 31 16
  let l := s.linkOf die
  match tfind l.flows flow with
  | none => flowUnarmed s p flow
  | some f =>
    if fieldNat b 15 14 ≠ s.fabric.colour ∨ s.fabric.armed = none then flowUnarmed s p flow
    else
      let n := k.payload.length / 256
      let lenOk := if close then k.payload.length == 32 else (k.payload.length == 256 || k.payload.length == 512)
      if ¬ lenOk ∨ hop = 0 ∨ f.hops < hop ∨ (¬ close ∧ f.size < 256 * (off + n)) then raise s 0x0605 (portLoc p 0x011)
      else
        let dest := f.mcast || f.collect || hop == f.hops
        let s :=
          if close then (if dest then storeClose s die flow f hop t discard k.payload else s)
          else storeData s die flow f hop off t discard (cutRows n k.payload) dest
        if f.collect = false ∧ hop < f.hops then
          s.setLink die ((s.linkOf die).addReady flow
            [{ k with routeA := routeA flow close discard (hop + 1), from_ := none }])
        else s

/-! ### COLLECT hops (R452, R453) -/

/-- One row of 16 W128 values combined with another (R158): the row and the flags. -/
def combineRow (x y : Bytes) : Bytes × Nat :=
  (List.range 16).foldl (fun (r : Bytes × Nat) i =>
    let z := combine (BitVec.ofNat 128 (fieldAt x (16 * i) 16)) (BitVec.ofNat 128 (fieldAt y (16 * i) 16))
    (r.1 ++ leBytes 16 z.1.toNat, r.2 ||| z.2)) ([], 0)

/-- The package's own FSEND of a flow that wrote a row, and whether its step was discarded (R453, R458). -/
def LinkDie.ownSend (l : LinkDie) (flow row : Nat) : Option (PlanPos × Bool) := tfind l.own (32768 * flow + row)

/-- Combine each row of a verified transfer with the own one and store it (R452); INVALID names the own FSEND (R453). -/
def combineRows (s : State) (die flow : Nat) (f : Flow) (x : OpenXfer) (n : Nat) : State :=
  (List.range n).foldl (fun s k =>
    let l := s.linkOf die
    let row := x.first + k
    let r := combineRow (l.row (f.rowAt x.hop row)) (l.row (f.srcFirst + 256 * row))
    let s := s.setLink die (l.putRow (f.rowAt x.hop row) r.1)
    match l.ownSend flow row with
    | some o => if r.2 = 0 then s else raiseFlags s r.2 o.1
    | none => s) s

/-- Whether a combined transfer is marked discarded: it or a row combined into it is (R458). -/
def LinkDie.marked (l : LinkDie) (flow : Nat) (x : OpenXfer) (n : Nat) : Bool :=
  x.discard || (List.range n).any fun k => (l.ownSend flow (x.first + k)).any (·.2)

/-- COLLECT_COMBINE's effect: the sums go onward as a new transfer, or are delivered at the last hop (R452, R458). -/
def collectEff (die flow : Nat) (f : Flow) (x : OpenXfer) (n : Nat) (s : State) : State :=
  let x := { x with discard := (s.linkOf die).marked flow x n }
  let s := combineRows s die flow f x n
  let l := (s.linkOf die).closeXfer x
  if x.hop < f.hops then
    let rows := x.slice l f n
    let l := { l with sent := l.sent ++ [({ flow := flow, tseq := x.tseq, offset := x.first, rows := n, hop := x.hop + 1
                                            discard := x.discard, waiting := s.dests f, queue := none
                                            pos := { step := 0, beat := 0, vmove := 0, event := 0 } } : Sent)] }
    s.setLink die (l.addReady flow (transferPackets s die flow x.tseq (x.hop + 1) x.first x.discard rows))
  else s.setLink die (l.deliverRows (f.rowAt x.hop x.first / 256) n x.discard)

/-- COLLECT_COMBINE (R452): a verified transfer every row of which the package's own FSEND has written. -/
def execCollectCombine (die : Fin 2) (flow : BitVec 14) (tseq : W16) (hop : Nat) (s : State) : Res :=
  let l := s.linkOf die
  match tfind l.flows flow.toNat, l.open_.find? (·.is flow.toNat hop tseq.toNat) with
  | some f, some x =>
    let n := x.rows.getD 0
    act (x.verified = true ∧ ((List.range n).all fun k => (l.ownSend flow.toNat (x.first + k)).isSome) = true)
      (collectEff die flow.toNat f x n s) s
  | _, _ => .next s

/-! ### End to end (R455 to R457) -/

/-- An end-to-end unit's fields (R454). -/
def E2E.kind (u : E2EUnit) : Nat := bitsOf u.w0 3 0
def E2E.flow (u : E2EUnit) : Nat := bitsOf u.w0 17 4
def E2E.die (u : E2EUnit) : Nat := bitsOf u.w0 18 18
def E2E.discard (u : E2EUnit) : Bool := u.w0.getLsbD 19
def E2E.rows (u : E2EUnit) : Nat := bitsOf u.w0 31 20 + 1
def E2E.tseq (u : E2EUnit) : Nat := bitsOf u.w1 15 0
def E2E.source (u : E2EUnit) : W16 := (u.w1 >>> 16).setWidth 16
def E2E.offset (u : E2EUnit) : Nat := bitsOf u.w2 13 0
def E2E.colour (u : E2EUnit) : Nat := bitsOf u.w2 15 14
def E2E.round (u : E2EUnit) : Nat := bitsOf u.w2 23 16

/-- A unit of a KIND with its reserved bits 0 and the die's colour (R446, R454): the flows and windows of the last arming
hold until the next (R443). -/
def E2E.ok (s : State) (u : E2EUnit) (kind : Nat) : Bool :=
  E2E.kind u == kind && onlyBits u.w2 0x00FF_FFFF && u.w3 == 0 && E2E.colour u == s.fabric.colour

/-- Replace a sent transfer. -/
def LinkDie.putSent (l : LinkDie) (x y : Sent) : LinkDie := { l with sent := l.sent.map fun z => if z = x then y else z }

/-- Whether a COLLECT FSEND has been combined into every transit transfer that passes (R453). -/
def Sent.combinedAll (x : Sent) (f : Flow) : Bool := decide (x.rows * (f.hops - 1) ≤ x.combined)

/-- Retire a sent transfer that is acknowledged (R448, R453). -/
def settleSent (s : State) (die : Nat) (x : Sent) : State :=
  let l := s.linkOf die
  match tfind l.flows x.flow with
  | none => s
  | some f =>
    if ¬ x.waiting.isEmpty then s
    else
      match x.queue with
      | none =>
        let l := { l with sent := (l.sent.filter (· ≠ x)).map fun (z : Sent) =>
            if z.flow = x.flow ∧ z.queue.isSome then
              { z with combined := z.combined
                  + (min (z.offset + z.rows) (x.offset + x.rows) - max z.offset x.offset) }
            else z }
        (l.sent.filter fun (z : Sent) => z.flow == x.flow && z.queue.isSome && z.waiting.isEmpty && z.combinedAll f).foldl
          (fun s z =>
            let l := s.linkOf die
            finishSend (s.setLink die { l with sent := l.sent.filter (· ≠ z) }) die (z.queue.getD 0) z.pos)
          (s.setLink die l)
      | some q =>
        if f.collect ∧ ¬ x.combinedAll f then s
        else finishSend (s.setLink die { l with sent := l.sent.filter (· ≠ x) }) die q x.pos

/-- The sent transfer an ACK or REQ from `src` answers: of several of one FLOW and TSEQ, the first sent (DESIGN CHOICE, log
68). -/
def LinkDie.sentTo (l : LinkDie) (flow t : Nat) (src : W16) : Option Sent :=
  l.sent.find? fun x => x.flow == flow && x.tseq == t && x.waiting.contains src

/-- E2E_ACK (R448, R455, R456). -/
def execE2eAck (src : W16) (u : E2EUnit) (s : State) : Res :=
  let die := E2E.die u
  let l := s.linkOf die
  if E2E.ok s u 2 then
    match l.sentTo (E2E.flow u) (E2E.tseq u) src with
    | some x =>
      let y := { x with waiting := x.waiting.filter (· != src) }
      .next (settleSent (s.setLink die (l.putSent x y)) die y)
    | none => .next s
  else .next s

/-- Rows of a sent transfer: the retained copy (R451, R452, R457). -/
def Sent.copy (x : Sent) (l : LinkDie) (f : Flow) : List Bytes :=
  (List.range x.rows).map fun k =>
    l.row (if x.queue.isSome then f.srcFirst + 256 * (x.offset + k) else f.rowAt (x.hop - 1) (x.offset + k))

/-- Resend a transfer to one destination, one row a packet, then the CLOSE (R454, R457). -/
def resendTo (s : State) (die : Nat) (x : Sent) (rows : List Bytes) (round : Nat) (dest : W16) : State :=
  let unit (kind off : Nat) : Bytes :=
    e2eUnit kind x.flow die x.discard (x.rows - 1) x.tseq s.fabric.place.toNat off s.fabric.colour round
  let s := (indexed rows).foldl (fun s e => sendResend s dest (unit 4 (x.offset + e.1) ++ e.2)) s
  sendResend s dest (unit 1 0 ++ crcUnit rows)

/-- Where a resend to a destination goes: its virtual package, translated by the fabric map; none where the lookup fails, and
the round is not sent (R131, R569). An address that none of the plan's packages had at the arming is taken as it stands
(DESIGN CHOICE, log 143). -/
def State.resendPlace (s : State) (a : W16) : Option W16 :=
  match tfind s.fabric.places a.toNat with
  | some v => match s.packagePlace v with | .place b => some b | _ => none
  | none => some a

/-- E2E_ROUNDS in force: 0 is taken as 3 (R433). -/
def Fabric.most (f : Fabric) : Nat := if f.rounds = 0 then 3 else f.rounds

/-- Resend a transfer in a new round, or give it up as lost after E2E_ROUNDS (R457, R468). -/
def resend (s : State) (die : Nat) (x : Sent) (round : Nat) : State :=
  let l := s.linkOf die
  let at_ := blockLoc (13 + die) 0x800
  match tfind l.flows x.flow with
  | none => s
  | some f =>
    if round ≤ s.fabric.most then
      let s := raise s 0x0606 at_
      let y := { x with round := round, closeAt := some s.ns }
      let dests := x.waiting.filterMap s.resendPlace
      (dests.foldl (fun s a => resendTo s die x (x.copy l f) round a) (s.setLink die (l.putSent x y))).bump
    else
      let s := raise (s.setLink die { l with sent := l.sent.filter (· ≠ x) }) 0x0607 at_
      match s.gridRunning with
      | some g => endGrid (floodAbort s g 2) 0x1404
      | none => s

/-- The hop slice that a resent transfer from a source goes to (R452, R456): the distance from its source, or, on a COLLECT
flow, that of its open transfer (DESIGN CHOICE, log 68). -/
def State.resendHop (s : State) (l : LinkDie) (f : Flow) (flow t : Nat) (source : W16) : Option Nat :=
  if f.collect then
    match l.open_.find? (fun x => x.flow == flow && x.tseq == t && !x.verified && (x.source == source || x.source == 0)) with
    | some x => some x.hop
    | none => (List.range (f.hops + 1)).find? (fun h => decide (1 ≤ h) && !l.isVerified flow h t)
  else
    (List.range (f.hops + 1)).find? fun h =>
      decide (1 ≤ h) && (s.hopAddr source.toNat f.dim (natOfBool f.dir) h) == some s.fabric.place.toNat

/-- Whether the transfer a unit names is verified at this package (R456). -/
def State.heldAt (s : State) (u : E2EUnit) : Bool :=
  let l := s.linkOf (E2E.die u)
  match tfind l.flows (E2E.flow u) with
  | none => false
  | some f =>
    match s.resendHop l f (E2E.flow u) (E2E.tseq u) (E2E.source u) with
    | some h => l.isVerified (E2E.flow u) h (E2E.tseq u)
    | none => false

/-- E2E_REQ (R455 to R457): a request for a round not yet sent; one for a transfer verified here is answered with ACK. -/
def execE2eReq (src : W16) (u : E2EUnit) (s : State) : Res :=
  let die := E2E.die u
  if E2E.ok s u 3 then
    match (s.linkOf die).sentTo (E2E.flow u) (E2E.tseq u) src with
    | some x => act (x.round < E2E.round u) (resend s die x (x.round + 1)) s
    | none => act (s.heldAt u = true) (sendAck s die (E2E.flow u) (E2E.tseq u) (E2E.rows u) (E2E.discard u) (E2E.source u)) s
  else .next s

/-- E2E_TIMEOUT in ns (R433). -/
def State.e2eLimit (s : State) : Nat := max 20 s.fabric.timeout * 1000

/-- E2E_TIMEOUT (R457): no ACK came in time after the CLOSE of the last sending. -/
def execE2eTimeout (die : Fin 2) (flow : BitVec 14) (tseq : W16) (s : State) : Res :=
  match (s.linkOf die).sent.find? (fun x => x.flow == flow.toNat && x.tseq == tseq.toNat && !x.waiting.isEmpty
      && (match x.closeAt with | some t => decide (t + s.e2eLimit ≤ s.ns) | none => false)) with
  | some x => .next (resend s die x (x.round + 1))
  | none => .next s

/-- E2E_DATA's effect (R455, R456): a row or the CLOSE of a resend round. -/
def e2eDataEff (s : State) (u : E2EUnit) (data : Bytes) : State :=
  let die := E2E.die u
  let l := s.linkOf die
  let flow := E2E.flow u
  let t := E2E.tseq u
  match tfind l.flows flow with
  | none => s
  | some f =>
    match s.resendHop l f flow t (E2E.source u) with
    | none =>
      if f.collect then sendAck s die flow t (E2E.rows u) (E2E.discard u) (E2E.source u) else s
    | some hop =>
      if l.isVerified flow hop t then sendAck s die flow t (E2E.rows u) (E2E.discard u) (E2E.source u)
      else if ¬ (f.mcast || f.collect || hop == f.hops) ∨ f.size < 256 * (E2E.offset u + 1) then s
      else
        match l.openOf flow hop t with
        | none => s.setLink die { l with noRecord := l.noRecord + 1 }
        | some x =>
          if E2E.round u < x.round then s
          else
            let x := if x.round < E2E.round u then { x with round := E2E.round u, got := [], rows := none, crc := none } else x
            let x := { x with source := E2E.source u, discard := x.discard || E2E.discard u }
            if E2E.kind u = 4 then
              let o := E2E.offset u
              let x := { x with got := if x.got.contains o then x.got else x.got ++ [o] }
              verifyXfer (s.setLink die ((l.putRow (f.rowAt hop o) data).putOpen x)) die f x
            else
              let x := { x with rows := some (E2E.rows u), crc := some (BitVec.ofNat 64 (fieldAt data 0 8)) }
              verifyXfer (s.setLink die (l.putOpen x)) die f x

/-- E2E_DATA (R455, R456). -/
def execE2eData (src : W16) (u : E2EUnit) (data : Bytes) (s : State) : Res :=
  act ((E2E.ok s u 4 = true ∧ data.length = 256 ∨ E2E.ok s u 1 = true ∧ data.length = 16) ∧ E2E.source u = src)
    (e2eDataEff s u data) s

/-- Report the transfers in doubt of an aborted step (R459): for each flow, the first and last unacknowledged TSEQ. -/
def indeterminate (s : State) : State :=
  (List.range 2).foldl (fun s die =>
    let l := s.linkOf die
    (((l.sent.filter (fun x => x.queue.isSome && !x.waiting.isEmpty)).map (·.flow)).dedup).foldl (fun s flow =>
      let ts := (l.sent.filter (fun x => x.flow == flow && x.queue.isSome && !x.waiting.isEmpty)).map (·.tseq)
      raise s 0x0608 (blockLoc (13 + die) 0x800) (packDetail [(2, ts.headD 0), (2, ts.getLastD 0)])) s) s

/-! ### Management requests (R441) -/

/-- The answer to a management request that the model does not read: free bytes (log 69). -/
def mgmtAnswer (s : State) : Bytes := (List.range 16).map (Config.freeByte s.free)

/-- Send a stored answer back (R437, R441). -/
def answerMgmt (s : State) (src tag : W16) (b : Bytes) : State := sendLoose s 1 src tag b

/-- MGMT_REQUEST (R441): a request that repeats a held (SRC, TAG) pair is answered again and not applied. What a request
asks for is not laid out in the spec: it is applied to nothing, and its answer is free (DESIGN CHOICE, log 69). -/
def execMgmtRequest (src tag : W16) (_data : Bytes) (s : State) : Res :=
  let held := tget [] s.fabric.tags src.toNat
  match held.find? (fun e => e.1 == tag) with
  | some e => .next (answerMgmt s src tag e.2)
  | none =>
    let b := mgmtAnswer s
    let s := { s with fabric := { s.fabric with tags := tput src.toNat (((tag, b) :: held).take 256) s.fabric.tags } }
    .next (answerMgmt s.bump src tag b)

end Sys2Proof.Machine
end

