-- ==== Sys2Proof/Machine/Flights.lean ====
section
/-!
DEFINITION. The work that issued ops do at their later beats (R43, R103, R186, R199, R211, R215 to R218, R300, R332): every
part is done once all movements have passed its beat, in the order of the beats, so that it sees exactly what stands then.
-/

namespace Sys2Proof.Machine

/-! ### Parts and their beats -/

/-- Parts of an op's later work. -/
def Work.parts : Work → Nat
  | .stream _ _ rows _ _ _ _ _ _ _ _ => rows
  | .drain _ _ rows _ _ _ _ _ _ => rows
  | .drainWide _ _ rows _ => rows
  | .accLoad _ _ rows _ => rows
  | .pass _ _ _ _ _ tap => if tap.isSome then 32 else 16
  | .reduce _ _ _ _ _ _ _ _ _ _ => 16
  | .convert _ _ g _ o _ _ _ => if o = 0x11 then g / 2 else g
  | _ => 1

/-- Beat of part `k` of an op issued at `b`: the last beat at which it reads, or, for the tap of a pass, at which it enters its
tally (R186, R199, R211, R215, R216, R218, R243, R300, R332). -/
def Work.partAt (b k : Nat) : Work → Nat
  | .tileLoad _ _ _ _ => b + 255
  | .tileScales _ _ => b + 15
  | .drainWide _ _ _ _ => b + 4 * k
  | .accLoad _ _ _ _ => b + 4 * k + 3
  | .transpose _ _ _ _ _ => b + 255
  | .retile _ _ n _ _ => b + n - 1
  | .convert _ _ _ _ o _ _ _ => if o = 0x11 then b + 2 * k + 1 else b + k
  | .source _ _ rows => rows.foldl (fun m r => max m r.2) b
  | .select _ _ _ vocabM1 lfmt => b + (logitRows (vocabM1 + 1) lfmt + 3) / 4 - 1
  | _ => b + k

/-- Beat of the next part of an op's work. -/
def Flight.due (f : Flight) : Nat := f.work.partAt f.pos.beat f.next

/-- Whether work is left. -/
def Flight.left (f : Flight) : Bool := decide (f.next < f.work.parts)

/-- Beat of the last part. -/
def Flight.last (f : Flight) : Nat := f.work.partAt f.pos.beat (f.work.parts - 1)

/-! ### One part -/

/-- A command's source rows have been read (R103): its companion has them; an FSEND's go into the send buffer and out as a
transfer (R448), an HWRITE's count in the digest (R480). -/
def sourcePart (v q : Nat) (op : Instr) (rows : List (Nat × Nat)) (pos : PlanPos) (s : State) : State :=
  let data := readAll s rows
  let s := sourceEnd v q data pos s
  match op with
  | .fsend _ _ flow _ (.lit a) _ => fsendEff s (s.vord v) flow.toNat a.toNat q data pos
  | .hwrite _ _ buf _ off _ => noteWrite s buf.toNat off.toNat data pos
  | _ => s

/-- A part of a pass: a group read and its output written (R199), or a group's entry into the tally of the tap (R211). The
constant T is the one that stands at the issue beat (R201). -/
def passPart (f : Flight) (fn : VFun) (d : Nat) (a : Option Nat) (b : BSrc) (m : VMode) (tap : Option Tap) (s : State) :
    State × Flight :=
  let v := f.pos.vmove
  let u := s.vecOf (s.phys v)
  let t := f.t.getD (u.t, u.tFloat)
  if f.next < 16 then
    let r := passGroup s m t fn d a b f.pos f.next
    (r.1, { f with t := some t, held := if tap.isSome then f.held ++ [r.2] else [] })
  else
    match tap with
    | some x => (tapGroup v m.ofmt x (f.held.getD (f.next - 16) []) f.pos (f.next - 16) s, f)
    | none => (s, f)

/-- The next part of an op's work. -/
def doPart (f : Flight) (s : State) : State × Flight :=
  let v := f.pos.vmove
  let p := f.pos
  let k := f.next
  match f.work with
  | .tileLoad a st buf chk => (tileLoadEnd v a st buf chk p s, f)
  | .tileScales a buf => (tileScalesEnd v a buf p s, f)
  | .stream a acc _ buf start sub af bf chk an asc => (streamStep v a acc buf start sub af bf chk an asc p s k, f)
  | .drain d acc _ o mode sat clear an seed => (drainStep v d acc o mode sat clear an seed p s k, f)
  | .drainWide d acc _ clear => (drainWideStep v d acc clear p s k, f)
  | .accLoad a acc _ add => (accLoadStep v a acc add p s k, f)
  | .pass fn d a b m tap => passPart f fn d a b m tap s
  | .setT t => (setTEnd v t s, f)
  | .tload tally fn an mult => (tloadEnd v tally fn an mult p s, f)
  | .reduce a b kd item af bf base tally an start => (reduceGroup v a b kd item af bf base tally an start p s k, f)
  | .raddw a mask => (raddwEnd v a mask p s, f)
  | .rstore d mask r o mode sat an seed => (rstoreEnd v d mask r o mode sat an seed p s, f)
  | .transpose d a sr dr bits => (transposeEnd d a sr dr bits p s, f)
  | .retile d a n sr dr => (retileEnd d a n sr dr p s, f)
  | .convert d a _ i o mode sat sk =>
    (if o = 0x11 then convertSeg d a i mode sk p s k else convertStep d a i o mode sat sk p s k, f)
  | .source q op rows => (sourcePart v q op rows p s, f)
  | .select z key result vm lf => (selectEnd z key result vm lf p s, f)

/-! ### Settling beats -/

/-- Work of the running step that is left. -/
def State.flights (s : State) : List Flight := (s.run.map (·.flights)).getD []

/-- Beats settled: every part of an op at a beat below it has been done. -/
def State.settled (s : State) : Nat := (s.run.map (·.settled)).getD 0

/-- Do the part of a flight that is due at beat `t`, if one is; the flights done so far, those with nothing left dropped. -/
def settleFlight (t : Nat) (x : State × List Flight) (f : Flight) : State × List Flight :=
  if f.due ≤ t then
    let y := doPart f x.1
    let g := { y.2 with next := f.next + 1 }
    (y.1, if g.left then x.2 ++ [g] else x.2)
  else (x.1, x.2 ++ [f])

/-- Settle beat `t`: the accumulator effects that lie at it (R189), then the parts of the work in flight, the ops in their
issue order. -/
def settleBeat (s : State) (t : Nat) : State :=
  let s := applyEffs s t
  let x := s.flights.foldl (settleFlight t) (s, [])
  x.1.onRun fun r => { r with flights := x.2, settled := t + 1 }

/-- Settle every beat below `t`. -/
def settleTo (s : State) (t : Nat) : State := (List.range (t - s.settled)).foldl (fun s _ => settleBeat s s.settled) s

/-- The first beat past all work left and every accumulator effect: a STREAM's last comes 280 beats after its row (R43). -/
def State.workEnd (s : State) : Nat :=
  let fs := s.flights.foldl (fun m f => max m (f.last + 281)) 0
  s.matrix.foldl (fun m e => e.2.effs.foldl (fun m x => max m (x.beat + 1)) m) fs

/-- Do all the work that is left (R74, R75, R110). -/
def settleRest (s : State) : State := settleTo s s.workEnd

/-- The lowest beat at which a read can still be made: of ops to come, and of the work left (R43). -/
def State.readFloor (s : State) : Nat := s.flights.foldl (fun m f => min m f.pos.beat) s.settled

end Sys2Proof.Machine
end

