-- ==== Sys2Proof/Machine/Link.lean ====
section
/-!
DEFINITION. The link layer (14_link_layer.md): slots, sequence and replay, control units, credits, heartbeats and time
exchange, lane trim and restore, training and retrains, and the link registers.
-/

namespace Sys2Proof.Machine

/-! ### Widths and masks (R413, R420, R426) -/

/-- Lanes of a mask. -/
def lanesOf (m : Byte) : Nat := popNat m.toNat 8

/-- MIN_WIDTH in force: 0 and 9 to 15 are taken as 8 (R426). -/
def PortSt.least (x : PortSt) : Nat := if x.minWidth = 0 ∨ 8 < x.minWidth then 8 else x.minWidth

/-- The mask of one lane. -/
def laneBit (l : Nat) : Byte := BitVec.ofNat 8 (2 ^ l)

/-- LINK_WIDTH (R422, R427): the old and new masks of a direction. -/
def linkWidth (s : State) (p : Nat) (old new : Byte) : State :=
  raise (countPort s p fun c => { c with width := sat48 c.width }) 0x0503 (portLoc p 0x010)
    (packDetail [(1, old.toNat), (1, new.toNat)])

/-! ### Retrains (R416 to R418, R430) -/

/-- Enter RETRAIN (R417, R418, R430): what was under way between lanes is abandoned; the third retrain with cause 0x7
within 1 s puts the port into HELD. -/
def enterRetrain (s : State) (p : Nat) : State :=
  let x := s.portOf p
  let recent := x.violations.filter (fun t => decide (s.ns < t + 1000000000))
  let v := if bitNat x.causes 7 then recent ++ [s.ns] else recent
  if bitNat x.causes 7 ∧ 3 ≤ v.length then linkLost (s.setPort p { x with violations := [] }) p 7 7
  else
    s.setPort p { x with state := 6, violations := v, retrainAt := s.ns, inRetrain := false, noReturn := x.occupied
                         trims := [], switched := none, switching := none, nextTrim := none, replaying := none
                         ctrl := x.ctrl.filter (fun m => m.rank != rankRetrain && m.rank != rankLane) }

/-- The four RETRAIN units of a request (R405, R417). -/
def retrainUnit (x : PortSt) (cause : Nat) : CtrlMsg :=
  { rank := rankRetrain, w0 := BitVec.ofNat 32 (7 + cause * 2 ^ 8), w1 := BitVec.ofNat 32 ((x.retrains + 1) % 256) }

/-- Request a retrain with a cause (R416, R417): RETRAIN goes out in four control units, and the port then enters
RETRAIN. -/
def requestRetrain (s : State) (p cause : Nat) : State :=
  let x := s.portOf p
  if x.state ≠ 5 then s
  else if x.causes ≠ 0 then s.setPort p { x with causes := x.causes ||| 2 ^ cause }
  else queueFour (s.setPort p { x with causes := 2 ^ cause }) p (retrainUnit x cause)

/-- A violation that is answered with a retrain of cause 0x7 (R429). -/
def violate (s : State) (p : Nat) : State := requestRetrain (linkProtocol s p) p 7

/-! ### Acknowledgement (R400 to R404) -/

/-- An ACK or NAK unit carrying E (R405). -/
def ackUnit (x : PortSt) (nak : Bool) : CtrlMsg :=
  { rank := if nak then rankNak else rankAck, w0 := BitVec.ofNat 32 (1 + natOfBool nak * 2 ^ 8 + x.e * 2 ^ 16) }

/-- Count a NAK toward a replay storm (R404). -/
def countNak (s : State) (p : Nat) : State :=
  let x := s.portOf p
  let ts := x.nakTimes.filter (fun t => decide (s.ns < t + 1000000)) ++ [s.ns]
  let s := s.setPort p { x with nakTimes := ts }
  if 64 < ts.length then requestRetrain s p 4 else s

/-- Send a NAK for E (R400). -/
def sendNak (s : State) (p : Nat) : State :=
  let x := s.portOf p
  let s := queueCtrl (s.setPort p { x with nakAt := some s.ns }) p (ackUnit x true)
  countNak (countPort s p fun c => { c with nakSent := sat48 c.nakSent }) p

/-- NAK for E, once in an episode (R400). -/
def nakOnce (s : State) (p : Nat) : State := if (s.portOf p).nakAt.isSome then s else sendNak s p

/-- Send an ACK carrying E (R401). -/
def sendLinkAck (s : State) (p : Nat) : State :=
  let x := s.portOf p
  queueCtrl (s.setPort p { x with unacked := 0 }) p (ackUnit x false)

/-- A packet accepted: E advances, and the ACK of every 16 packets (R400, R401). -/
def advanceE (s : State) (p : Nat) : State :=
  let x := s.portOf p
  let s := s.setPort p { x with e := (x.e + 1) % 65536, nakAt := none, unacked := x.unacked + 1
                                firstUnacked := if x.unacked = 0 then s.ns else x.firstUnacked }
  let s := countPort s p fun c => { c with accepted := sat48 c.accepted }
  if 16 ≤ x.unacked + 1 then sendLinkAck s p else s

/-- NAK_REPEAT (R400): 2 µs after a NAK whose packet has not arrived. -/
def execNakRepeat (p : Port) (s : State) : Res :=
  match (s.portOf p).nakAt with
  | some t => act (s.isActive p = true ∧ t + 2000 ≤ s.ns) (sendNak s p) s
  | none => .next s

/-- ACK_TIMER (R401): 250 ns after the first packet accepted since the last ACK. -/
def execAckTimer (p : Port) (s : State) : Res :=
  let x := s.portOf p
  act (s.isActive p = true ∧ 0 < x.unacked ∧ x.firstUnacked + 250 ≤ s.ns) (sendLinkAck s p) s

/-- Release the held packets that a SEQ covers (R401): none where it names one beyond the next to be sent; a stale one
releases nothing. -/
def releaseTo (x : PortSt) (seq : Nat) : Option PortSt :=
  let n := x.replay.length
  let oldest := (x.txSeq + 65536 - n % 65536) % 65536
  let d := (seq + 65536 - oldest) % 65536
  if d ≤ n then
    some { x with replay := x.replay.drop d
                  replaying := x.replaying.bind fun i => if i - d < n - d then some (i - d) else none }
  else if 32768 ≤ d then some x
  else none

/-- ACK (R401, R429). -/
def execAck (p : Port) (u : CtrlUnit) (s : State) : Res :=
  ctrlUnit s p u 1 0xFFFF_010F 0 0
    (if u.w0.getLsbD 8 ∨ ¬ s.isActive p then s
     else match releaseTo (s.portOf p) (bitsOf u.w0 31 16) with
       | some x => s.setPort p x
       | none => violate s p)

/-- NAK (R402, R404, R429): every held packet from E is sent again. -/
def execNak (p : Port) (u : CtrlUnit) (s : State) : Res :=
  ctrlUnit s p u 1 0xFFFF_010F 0 0
    (if ¬ u.w0.getLsbD 8 ∨ ¬ s.isActive p then s
     else match releaseTo (s.portOf p) (bitsOf u.w0 31 16) with
       | some x =>
         let s := s.setPort p { x with replaying := if x.replay.isEmpty then none else some 0 }
         countNak (countPort s p fun c => { c with nakRecv := sat48 c.nakRecv }) p
       | none => violate s p)

/-- REPLAY_TIMEOUT (R402): 2 µs after a held packet was sent with no ACK covering it. -/
def execReplayTimeout (p : Port) (s : State) : Res :=
  let x := s.portOf p
  act (s.isActive p = true ∧ x.replaying = none ∧ (x.replay.any fun h => decide (h.sent + 2000 ≤ s.ns)) = true)
    (s.setPort p { x with replaying := some 0 }) s

/-! ### Transmission (R395, R399, R402, R406, R409, R410, R444) -/

/-- The control message of lowest rank that has waited longest (R406). -/
def firstCtrl (l : List CtrlMsg) : Option (Nat × CtrlMsg) :=
  (indexed l).foldl (fun (m : Option (Nat × CtrlMsg)) e =>
    match m with
    | none => some e
    | some b => if e.2.rank < b.2.rank then some e else some b) none

/-- PARAM of this end (R405, R414). -/
def paramUnit (s : State) (p : Nat) : W32 × W32 × W32 :=
  let x := s.portOf p
  (BitVec.ofNat 32 (8 + natOfBool (decide (2 ≤ x.same)) * 2 ^ 7 + s.level % 256 * 2 ^ 8 + x.ownAddr.toNat * 2 ^ 16),
   BitVec.ofNat 32 (p + x.trained.toNat * 2 ^ 8 + x.e * 2 ^ 16),
   BitVec.ofNat 32 ((List.range 8).map (fun k => s.tbl.grants.getD k 0 % 16 * 16 ^ k)).sum)

/-- Fill the stamps that a time unit takes as it leaves (R424). -/
def stampUnit (s : State) (p : Nat) (m : CtrlMsg) : State × CtrlMsg :=
  let c := s.chron.count
  if m.rank = rankTimeReq then
    let x := s.portOf p
    ({ s.setPort p { x with xidOut := some (bitsOf m.w0 15 8) } with chron := { s.chron with t1 := some c } },
     { m with w1 := BitVec.ofNat 32 c, w2 := BitVec.ofNat 32 (c / 2 ^ 32) })
  else if m.rank = rankTimeRsp then
    let t2 := m.w1.toNat + m.w2.toNat * 2 ^ 32
    (s, { m with w0 := (m.w0 &&& 0xFFFF) ||| BitVec.ofNat 32 ((c - t2) % 65536 * 2 ^ 16) })
  else (s, m)

/-- Start the countdown of a TRIM that waited for an earlier one (R420, R422). -/
def startNext (x : PortSt) : PortSt :=
  { x with switching := x.nextTrim.map (fun t => (t.1, t.2, 3)), nextTrim := none }

/-- Send the next LANE SWITCH of a countdown (R420): after COUNT 0 the new mask is in force. -/
def sendSwitch (s : State) (p : Nat) (mask : Byte) (id count : Nat) : State :=
  let x := s.portOf p
  let s := s.emit (.ctrl p (BitVec.ofNat 32 (6 + 2 * 2 ^ 4 + mask.toNat * 2 ^ 8 + count * 2 ^ 16 + id * 2 ^ 24)) 0 0)
  if count = 0 then
    let s := s.setPort p (startNext { x with txMask := mask, appliedId := some id, switching := none })
    if mask = x.txMask then s else linkWidth s p x.txMask mask
  else s.setPort p { x with switching := some (mask, id, count - 1) }

/-- The control unit of an ACTIVE slot (R406): after the last RETRAIN the port enters RETRAIN (R417). -/
def sendCtrl (s : State) (p : Nat) : State :=
  let x := s.portOf p
  match x.switching with
  | some (mask, id, count) => sendSwitch s p mask id count
  | none =>
    match firstCtrl x.ctrl with
    | some (i, m) =>
      let t := stampUnit (s.setPort p { x with ctrl := x.ctrl.eraseIdx i }) p m
      let s := t.1.emit (.ctrl p t.2.w0 t.2.w1 t.2.w2)
      if m.rank = rankRetrain ∧ ¬ (s.portOf p).ctrl.any (fun k => k.rank == rankRetrain) then enterRetrain s p else s
    | none => s.emit (.ctrl p 0 0 0)

/-- Bytes a packet takes in the replay buffer (R399). -/
def Packet.room (k : Packet) : Nat := 16 + k.payload.length

/-- Whether the replay buffer of 256 KiB has room for a packet (R399). -/
def PortSt.hasRoom (x : PortSt) (k : Packet) : Bool :=
  decide ((x.replay.map (fun h => h.pkt.room)).sum + k.room ≤ 262144)

/-- The exclusive-OR of a packet's CRC: that of a POISON injection while packets of it remain (R487). -/
def takePoison (s : State) (p : Nat) : State × W32 :=
  match tfind s.grid.poison p with
  | some (n, id) =>
    ({ s with grid := { s.grid with poison := if n ≤ 1 then tdel p s.grid.poison else tput p (n - 1, id) s.grid.poison } },
     0x5245_4852)
  | none => (s, 0)

/-- Note that the CLOSE of a transfer has left (R457). -/
def noteClose (s : State) (p : Nat) (k : Packet) : State :=
  if k.cls = 0 ∧ k.routeA.getLsbD 14 then
    let die := p / 10
    let l := s.linkOf die
    let a := k.routeA.toNat
    let sent := l.sent.map fun x =>
      if x.flow = fieldNat a 13 0 ∧ x.hop = fieldNat a 30 16 ∧ x.tseq = fieldNat k.routeB.toNat 31 16 ∧ x.closeAt = none then
        { x with closeAt := some s.ns } else x
    s.setLink die { l with sent := sent }
  else s

/-- Send a new packet (R399, R410): it takes the next SEQ, stays in the replay buffer, and a loose one takes a credit and
frees the buffer it came from. -/
def sendNew (s : State) (p : Nat) (k : Packet) : State :=
  let t := takePoison s p
  let s := t.1
  let x := s.portOf p
  let i := pairOf k.cls k.vc
  let x := { x with txSeq := (x.txSeq + 1) % 65536
                    replay := x.replay ++ [({ seq := x.txSeq, pkt := { k with from_ := none }, sent := s.ns, paid := true } : Held)]
                    credits := if k.cls = 0 then x.credits else tset 0 x.credits i (tget 0 x.credits i - 1) }
  let seq := (x.txSeq + 65535) % 65536
  let s := (s.setPort p x).emit (.packet p (k.bytes seq t.2))
  let s := countPort s p fun c => { c with sent := sat48 c.sent }
  noteClose (freeBuffer s k.from_) p k

/-- Send a held packet again (R402, R410): it keeps its SEQ and bytes; a loose one takes a credit when this is its first
sending since the last training. -/
def sendHeld (s : State) (p i : Nat) : State :=
  let x := s.portOf p
  match x.replay[i]? with
  | none => s.setPort p { x with replaying := none }
  | some h =>
    let j := pairOf h.pkt.cls h.pkt.vc
    let x := { x with replay := x.replay.set i { h with sent := s.ns, paid := true }
                      replaying := if i + 1 < x.replay.length then some (i + 1) else none
                      credits := if h.pkt.cls = 0 ∨ h.paid then x.credits else tset 0 x.credits j (tget 0 x.credits j - 1) }
    let s := (s.setPort p x).emit (.packet p (h.pkt.bytes h.seq 0))
    countPort s p fun c => { c with sent := sat48 c.sent, replayed := sat48 c.replayed }

/-- The loose pair served next (R409): in turn after the last, with a packet queued and a credit held. -/
def PortSt.nextPair (x : PortSt) : Option Nat :=
  ((List.range 8).map (fun k => (x.lastPair + 1 + k) % 8)).find? fun i =>
    !(tget [] x.loose i).isEmpty && decide (0 < tget 0 x.credits i)

/-- Serve a loose slot (R409, R444): displaced scheduled packets first. -/
def sendLooseSlot (s : State) (p : Nat) : State :=
  let x := s.portOf p
  match x.displaced with
  | k :: ks => if x.hasRoom k then sendNew (s.setPort p { x with displaced := ks }) p k else s
  | [] =>
    match x.nextPair with
    | some i =>
      match tget [] x.loose i with
      | k :: ks =>
        if x.hasRoom k then sendNew (s.setPort p { x with loose := tset [] x.loose i ks, lastPair := i }) p k else s
      | [] => s
    | none => s

/-- Flow that the wheel of a port assigns to the slot, none for a loose slot (R124, R444). -/
def State.slotFlow (s : State) (p : Nat) : Option Nat :=
  if s.fabric.armed = none ∨ (s.portOf p).miscabled then none
  else
    match (tget [] (s.linkOf (p / 10)).wheels (p % 10))[(s.portOf p).slot]? with
    | some w => if w.getLsbD 15 then none else some (fieldNat w.toNat 13 0)
    | none => none

/-- The packet of an ACTIVE slot (R402, R444). -/
def sendPacket (s : State) (p : Nat) : State :=
  let x := s.portOf p
  match x.replaying with
  | some i => sendHeld s p i
  | none =>
    match s.slotFlow p with
    | some f =>
      let l := s.linkOf (p / 10)
      match tget [] l.ready f with
      | k :: ks => if x.hasRoom k then sendNew (s.setLink (p / 10) { l with ready := tset [] l.ready f ks }) p k else s
      | [] => sendLooseSlot s p
    | none => sendLooseSlot s p

/-- Keep the times since which pairs have been starved of credit (R411). -/
def noteStarved (s : State) (p : Nat) : State :=
  let x := s.portOf p
  let starved := (List.range 8).foldl (fun (t : Tbl Nat) i =>
    if !(tget [] x.loose i).isEmpty && tget 0 x.credits i == 0 then
      (if (tfind t i).isSome then t else tput i s.ns t)
    else tdel i t) x.starved
  s.setPort p { x with starved := starved }

/-- Take the oldest record of path 2 into the loose queues as a TELEMETRY packet (R519, R521). -/
def sendTelemetry (s : State) : State :=
  let pa := s.pathOf 2
  match pa.queue with
  | e :: es =>
    sendLoose (s.setPath 2 { pa with queue := es }) 2 (BitVec.ofNat 16 (fieldNat pa.ctrl.toNat 31 16)) 0
      (recBytes e.2 e.1 false)
  | [] => s

/-- Whether a port is in its PARAM exchange (R412, R418). -/
def PortSt.exchanging (x : PortSt) : Bool := x.state == 4 || (x.state == 6 && x.inRetrain)

/-- Complete the PARAM exchange (R413 to R415, R418, R436, R484): with levels more than one apart the port is HELD. -/
def paramFinish (s : State) (p : Nat) (w0 w1 w2 : W32) : State :=
  let x := s.portOf p
  let theirs := bitsOf w0 15 8
  let re := x.state == 6
  let at_ := portLoc p 0x010
  if theirs + 1 < s.level ∨ s.level + 1 < theirs then
    let s := portDown (raise s 0x0507 at_) p 7
    s.setPort p { s.portOf p with cause := 1 }
  else
    let next := bitsOf w1 31 16
    let y := (releaseTo x next).getD x
    let replay := y.replay.map fun h => { h with paid := false }
    let tx := BitVec.ofNat 8 (bitsOf w1 15 8)
    let y := { y with
      state := 5, level := min s.level theirs, partner := BitVec.ofNat 16 (bitsOf w0 31 16), partnerPort := bitsOf w1 4 0
      txMask := tx, rxMask := x.trained, replay := replay, replaying := if replay.isEmpty then none else some 0
      txSeq := if replay.isEmpty then next else y.txSeq
      credits := (List.range 8).foldl (fun t k => tset 0 t k (4 * bitsOf w2 (4 * k + 3) (4 * k))) []
      grants := (List.range 8).foldl (fun t k => tset 0 t k (4 * (s.tbl.grants.getD k 0 % 16))) []
      hbMiss := 0, hbAt := s.chron.count / 10000, hbJudged := s.chron.count / 10000, inRetrain := false, starved := []
      nakAt := none, restore := [] }
    if re then
      let causes := x.causes
      let cause := ((List.range 16).find? (bitNat causes)).getD 0
      let y := { y with causes := 0, cause := cause, retrains := (x.retrains + 1) % 256 }
      let s := s.setPort p y
      let s := countPort s p fun c =>
        { c with retrains := (List.range 16).foldl (fun t k => if bitNat causes k then tset 0 t k (sat48 (tget 0 t k)) else t)
                   c.retrains }
      let s := if x.rxMask = x.trained then s else linkWidth s p x.rxMask x.trained
      let s := if x.txMask = tx then s else linkWidth s p x.txMask tx
      raise s 0x0502 at_ (packDetail [(2, causes)])
    else
      let reh := tget 0 s.grid.rehearsing p
      let s := s.setPort p y
      let s := raise { s with grid := { s.grid with rehearsing := tdel p s.grid.rehearsing } } 0x0501 at_ [] none 0x1FF reh
      let wrong := match s.portDim p with
        | some (d, r) => s.neighbour s.fabric.place.toNat d r != some y.partner.toNat
        | none => false
      let s : State := if wrong then raise (s.setPort p { s.portOf p with miscabled := true }) 0x0602 at_ else s
      if s.grid.memberEn ∧ s.gridPorts.contains p then sendLevels s p else s

/-- Complete the exchange once eight PARAMs with SEEN are sent and one is received (R414). -/
def paramTry (s : State) (p : Nat) : State :=
  let x := s.portOf p
  match x.param with
  | some (w0, w1, w2) =>
    if x.exchanging ∧ 2 ≤ x.same ∧ 8 ≤ x.seenSent ∧ x.seenGot then paramFinish s p w0 w1 w2 else s
  | none => s

/-- SLOT_TRANSMIT's effect in the PARAM exchange: every control unit carries PARAM (R414). -/
def slotParam (s : State) (p : Nat) : State :=
  let x := s.portOf p
  let u := paramUnit s p
  let s := s.emit (.ctrl p u.1 u.2.1 u.2.2)
  paramTry (s.setPort p { x with seenSent := if 2 ≤ x.same then x.seenSent + 1 else x.seenSent }) p

/-- SLOT_TRANSMIT's effect on an ACTIVE port: the control unit, then one packet or fill. -/
def slotActive (s : State) (p : Nat) : State :=
  let s := sendCtrl (sendTelemetry s) p
  if s.isActive p then
    let s := noteStarved (sendPacket s p) p
    let x := s.portOf p
    s.setPort p { x with slot := (x.slot + 1) % 4096 }
  else s

/-- SLOT_TRANSMIT (R395, R406, R409, R444). -/
def execSlotTransmit (p : Port) (s : State) : Res :=
  .next (if s.isActive p then slotActive s p else if (s.portOf p).exchanging then slotParam s p else s)

/-! ### Reception of packets (R400, R408, R429, R446) -/

/-- Header fields of a packet as received. -/
def parsePacket (p : Nat) (data : Bytes) : Packet :=
  let cls := bitsAt data 0 4 18 16
  let vc := bitsAt data 0 4 19 19
  { cls := cls, vc := vc, routeA := BitVec.ofNat 32 (fieldAt data 4 4), routeB := BitVec.ofNat 32 (fieldAt data 8 4)
    payload := data.drop 16, from_ := some (p, pairOf cls vc) }

/-- Whether a reserved bit of a packet's routing words is set (R437, R442). -/
def Packet.reserved (k : Packet) : Bool := if k.cls = 0 then k.routeA.getLsbD 31 else bitsOf k.routeB 31 16 != 0

/-- An intact in-sequence packet (R400, R408, R429, R481). -/
def acceptPacket (s : State) (p : Nat) (data : Bytes) : State :=
  let k := parsePacket p data
  let x := s.portOf p
  let i := pairOf k.cls k.vc
  if 4 < k.cls ∨ 32 < bitsAt data 0 4 25 20 ∨ bitsAt data 0 4 31 26 ≠ 0 ∨ (k.cls = 0 ∧ k.vc = 1) ∨ k.reserved = true then
    linkProtocol (advanceE s p) p
  else if k.cls = 0 then receiveScheduled (advanceE s p) p { k with from_ := none }
  else if tget 0 x.grants i ≤ tget 0 x.occupied i then nakOnce (linkProtocol s p) p
  else
    let s := advanceE (s.setPort p { x with occupied := tset 0 x.occupied i (tget 0 x.occupied i + 1) }) p
    if s.twinOn ∧ p = s.grid.twinPort ∧ k.cls = 1 then freeBuffer s k.from_
    else (forwardLoose s k (some p) ((s.portDim p).map (·.1))).1

/-- Count what FEC decoding found on a lane, corrected symbols and uncorrectable codewords (R427): more than 16 of these within
1 ms on a lane of the mask ask for a retrain (R416). -/
def noteFec (p : Nat) (s : State) (e : Fin 8 × Nat × Nat) : State :=
  let lane := e.1.val
  let s := countPort s p fun c =>
    { c with fecSym := tset 0 c.fecSym lane (satNat 48 (tget 0 c.fecSym lane + e.2.1))
             fecBad := tset 0 c.fecBad lane (satNat 48 (tget 0 c.fecBad lane + e.2.2)) }
  let x := s.portOf p
  let ts := ((tget [] x.fecTimes lane).filter (fun t => decide (s.ns < t.1 + 1000000))) ++ [(s.ns, e.2.2)]
  let storm := x.rxMask.getLsbD lane && decide (16 < (ts.map (·.2)).sum)
  let s := s.setPort p { x with fecTimes := tset [] x.fecTimes lane (if storm then [] else ts) }
  if storm then requestRetrain s p 3 else s

/-- A packet's effect at an ACTIVE port (R400). -/
def receivePacket (s : State) (p : Nat) (data : Bytes) : State :=
  let crc := crc32c (slice data 0 12 ++ data.drop 16)
  let got := BitVec.ofNat 32 (fieldAt data 12 4)
  let whole := data.length == 16 + 16 * bitsAt data 0 4 25 20
  let x := s.portOf p
  let d := (fieldAt data 0 2 + 65536 - x.e) % 65536
  if ¬ whole ∨ got ≠ crc then
    nakOnce (if whole ∧ got = crc ^^^ 0x5245_4852 then countPort s p fun c => { c with rehearsal := sat48 c.rehearsal }
             else countPort s p fun c => { c with crcPkt := sat48 c.crcPkt }) p
  else if d = 0 then acceptPacket s p data
  else if x.nakAt.isSome then s
  else if d ≤ 511 then sendNak s p
  else if d ≤ 32767 then violate s p
  else s

/-- PACKET_RECEIVE (R397, R400, R416, R427, R429, R487), with what FEC decoding has found on the lanes since the last one. A
delivered packet's message comes as a command of its own. -/
def execPacketReceive (p : Port) (data : Bytes) (s : State) (fec : List (Fin 8 × Nat × Nat) := []) : Res :=
  act (s.isActive p = true) (receivePacket (fec.foldl (noteFec p) s) p data) s

/-! ### Credits (R410, R411) -/

/-- CREDIT (R405, R410). -/
def execCredit (p : Port) (u : CtrlUnit) (s : State) : Res :=
  ctrlUnit s p u 2 0xF 0xFFFF_FFFF 0
    (if s.isActive p then
       let x := s.portOf p
       s.setPort p { x with credits := (List.range 8).foldl (fun t k =>
         tset 0 t k (tget 0 t k + bitsOf u.w1 (4 * k + 3) (4 * k))) x.credits }
     else s)

/-- LINK_CREDIT_STARVED (R411): a pair with a packet queued and no credit for 1 ms. -/
def execLinkCreditStarved (p : Port) (pair : Fin 8) (s : State) : Res :=
  match tfind (s.portOf p).starved pair with
  | some t =>
    act (s.isActive p = true ∧ t + 1000000 ≤ s.ns)
      (let s := raise s 0x0504 (portLoc p 0x010)
       let x := s.portOf p
       requestRetrain (s.setPort p { x with starved := tdel pair x.starved }) p 6) s
  | none => .next s

/-! ### Heartbeats (R423) and time exchange (R60, R61, R424) -/

/-- The discipline mode in force: MODE 3 is taken as FREE (R60, R560). -/
def Chron.discipline (c : Chron) : Nat := if c.mode = 3 then 0 else c.mode

/-- The trim in force, in 2^−32 of a count per count: a slew toward an earlier value, or the trim (R57, R58). -/
def Chron.rate (c : Chron) : Int := if c.debt = 0 then c.trim else -(min c.slew c.debt : Nat)

/-- Whether port `p` is the parent port in NEIGHBOUR mode (R424). -/
def State.parentPort (s : State) (p : Nat) : Bool := s.chron.discipline == 2 && s.chron.parent == p

/-- HEARTBEAT_SEND (R423, R424): at every multiple of 10,000 of the count, with TIME_REQ after it toward the parent. -/
def execHeartbeatSend (p : Port) (s : State) : Res :=
  let x := s.portOf p
  act (s.isActive p = true ∧ x.hbAt < s.chron.count / 10000)
    (let hb : CtrlMsg :=
       { rank := rankHeartbeat, w0 := BitVec.ofNat 32 (3 + x.level * 2 ^ 8 + s.fabric.place.toNat * 2 ^ 16)
         w1 := BitVec.ofNat 32 (p.val + (x.hbCount + 1) % 65536 * 2 ^ 16) }
     let s1 := queueCtrl (s.setPort p { x with hbCount := (x.hbCount + 1) % 65536, hbAt := s.chron.count / 10000 }) p hb
     if s.parentPort p then
       let y := s1.portOf p
       let id := (y.xid + 1) % 256
       queueCtrl (s1.setPort p { y with xid := id }) p { rank := rankTimeReq, w0 := BitVec.ofNat 32 (4 + id * 2 ^ 8) }
     else s1) s

/-- HEARTBEAT (R405, R423, R429): one whose ADDRESS or PORT has changed asks for a retrain. -/
def execHeartbeat (p : Port) (u : CtrlUnit) (s : State) : Res :=
  ctrlUnit s p u 3 0xFFFF_FF0F 0xFFFF_001F 0
    (if ¬ s.isActive p then s
     else
       let x := s.portOf p
       if bitsOf u.w0 31 16 ≠ x.partner.toNat ∨ bitsOf u.w1 4 0 ≠ x.partnerPort then requestRetrain (linkProtocol s p) p 8
       else s.setPort p { x with hbMiss := 0, hbJudged := s.chron.count / 10000 })

/-- HEARTBEAT_MISS (R423): an interval, and 1 µs after it, without a heartbeat; the third in a row loses the link. -/
def execHeartbeatMiss (p : Port) (s : State) : Res :=
  let x := s.portOf p
  act (s.isActive p = true ∧ (x.hbJudged + 2) * 10000 + 1000 ≤ s.chron.count)
    (let s := countPort s p fun c => { c with misses := sat48 c.misses }
     let x := s.portOf p
     if 3 ≤ x.hbMiss + 1 then linkLost s p 1 0
     else s.setPort p { x with hbMiss := x.hbMiss + 1, hbJudged := x.hbJudged + 1 }) s

/-- TIME_REQ (R405, R424): answered with its time of arrival; TURN is filled as the answer leaves. -/
def execTimeReq (p : Port) (u : CtrlUnit) (s : State) : Res :=
  ctrlUnit s p u 4 0x0000_FF0F 0xFFFF_FFFF 0xFFFF_FFFF
    (if s.isActive p then
       queueCtrl s p { rank := rankTimeRsp, w0 := BitVec.ofNat 32 (5 + bitsOf u.w0 15 8 * 2 ^ 8)
                       w1 := BitVec.ofNat 32 s.chron.count, w2 := BitVec.ofNat 32 (s.chron.count / 2 ^ 32) }
     else s)

/-- Largest trim: 1,000 ppm in 2^−32 of a count per count (R57). -/
def trimMax : Nat := 4294967

/-- Enter UNLOCKED with TIME_UNLOCKED where the error bound exceeds 50 ns (R63). -/
def unlock (s : State) (bound : Nat) : State :=
  let c := s.chron
  if 50 < bound ∧ c.state ≠ 2 then
    raise { s with chron := { c with state := 2, bound := satNat 16 bound } } 0x0106 (cdLoc cMove 0x021)
  else { s with chron := { c with bound := satNat 16 bound } }

/-- The discipline takes an offset estimate, in ns by which the source is ahead (R57, R58, R61 to R63): the filter and its
trim are free within the range of R57; an estimate below 0 is a correction toward an earlier value, slewed at a free rate of
at most 1,000 ppm until its ns are removed; lock is an estimate of at most 2 ns, and the error bound is the magnitude of the
estimate (DESIGN CHOICE, log 70). -/
def discipline (s : State) (offset : Int) : State :=
  let c := s.chron
  let trim : Int := (s.choice 3 0 % (2 * trimMax + 1) : Nat) - (trimMax : Int)
  let s := { s with chron := { c with offset := offset, lastSource := s.ns, trim := trim, debt := (-offset).toNat * 2 ^ 32
                                      slew := 1 + s.choice 3 1 % trimMax
                                      state := if offset.natAbs ≤ 2 then 0 else c.state } }.bump
  unlock s offset.natAbs

/-- TIME_RSP (R61, R424, R429): one with an unexpected XID is discarded. An estimate of an odd number of half ns is rounded
down (DESIGN CHOICE, log 142). -/
def execTimeRsp (p : Port) (u : CtrlUnit) (s : State) : Res :=
  ctrlUnit s p u 5 0xFFFF_FF0F 0xFFFF_FFFF 0xFFFF_FFFF
    (if ¬ s.isActive p then s
     else
       let x := s.portOf p
       match s.chron.t1 with
       | some t1 =>
         if x.xidOut = some (bitsOf u.w0 15 8) ∧ s.parentPort p then
           let t2 : Int := (u.w1.toNat + u.w2.toNat * 2 ^ 32 : Nat)
           let t3 : Int := t2 + bitsOf u.w0 31 16
           let t4 : Int := s.chron.count
           let s := s.setPort p { x with xidOut := none }
           discipline { s with chron := { s.chron with t1 := none } } (((t2 - t1) - (t4 - t3)) / 2)
         else linkProtocol s p
       | none => linkProtocol s p)

/-- TIME_SOURCE_TIMEOUT (R63): no time message for 100 µs, or no edge for 1.1 s. -/
def execTimeSourceTimeout (s : State) : Res :=
  let c := s.chron
  act (c.state = 0 ∧ (c.discipline = 2 ∧ c.lastSource + 100000 ≤ s.ns ∨ c.discipline = 1 ∧ c.lastSource + 1100000000 ≤ s.ns))
    { s with chron := { c with state := 1 } } s

/-- TIME_PPS_EDGE (R57, R60, R579): an edge less than 0.9 s after the last one accepted is ignored. -/
def execTimePpsEdge (offset : Int) (s : State) : Res :=
  act (s.chron.discipline = 1 ∧ (s.chron.lastSource = 0 ∨ s.chron.lastSource + 900000000 ≤ s.ns)) (discipline s offset) s

/-! ### Lanes (R419 to R422) -/

/-- The receive mask that stands once every TRIM sent is answered (R420, R422). -/
def PortSt.wanted (x : PortSt) : Byte := (x.trims.getLast?.map (·.2)).getD x.rxMask

/-- Send a TRIM for a new receive mask (R420). -/
def sendTrim (s : State) (p : Nat) (mask : Byte) : State :=
  let x := s.portOf p
  let id := (x.trimId + 1) % 256
  queueFour (s.setPort p { x with trimId := id, trims := x.trims ++ [(id, mask)] }) p
    { rank := rankLane, w0 := BitVec.ofNat 32 (6 + mask.toNat * 2 ^ 8 + id * 2 ^ 24) }

/-- A LANE unit of an OP (R405). -/
def laneUnit (s : State) (p : Nat) (u : CtrlUnit) (op : Nat) (m0 : W32) (f : State) : Res :=
  ctrlUnit s p u 6 m0 0 0 (if bitsOf u.w0 7 4 = op ∧ s.isActive p then f else s)

/-- TRIM (R420, R429): acted on once by CMD_ID; one that comes during a countdown waits for it. -/
def execTrim (p : Port) (u : CtrlUnit) (s : State) : Res :=
  let mask := BitVec.ofNat 8 (bitsOf u.w0 15 8)
  let id := bitsOf u.w0 31 24
  let x := s.portOf p
  laneUnit s p u 0 0xFF00_FFFF
    (if mask = 0 ∨ (mask &&& ~~~ x.trained) ≠ 0 then linkProtocol s p
     else
       match x.switching with
       | some (_, cur, _) =>
         if id = cur ∨ x.appliedId = some id then s else s.setPort p { x with nextTrim := some (mask, id) }
       | none => if x.appliedId = some id then s else s.setPort p { x with switching := some (mask, id, 3) })

/-- PROPOSE (R419, R421): the lanes named are tested at once. -/
def execPropose (p : Port) (u : CtrlUnit) (s : State) : Res :=
  let mask := BitVec.ofNat 8 (bitsOf u.w0 15 8)
  let x := s.portOf p
  laneUnit s p u 1 0xFF00_FFFF
    (s.setPort p { x with restore := (List.range 8).foldl (fun t l =>
      if mask.getLsbD l ∧ ¬ x.rxMask.getLsbD l ∧ x.trained.getLsbD l then tput l (s.ns - 1000000) t else t) x.restore })

/-- Take the mask of a TRIM answered (R420 to R422), with which those sent before it are over: a lane that leaves it is watched
for its restoration. -/
def takeMask (s : State) (p : Nat) (id : Nat) (mask : Byte) : State :=
  let x := s.portOf p
  let s := s.setPort p { x with
    rxMask := mask, switched := some (id, mask), trims := (x.trims.dropWhile (· != (id, mask))).drop 1
    restore := (List.range 8).foldl (fun t l => if mask.getLsbD l then tdel l t else if (tfind t l).isSome then t
                                                else tput l s.ns t) x.restore }
  if mask = x.rxMask then s else linkWidth s p x.rxMask mask

/-- SWITCH (R420, R429): the mask changes with the first SWITCH heard of a countdown, the slots of its COUNT being left
out (log 71); one that answers no TRIM asks for a retrain. -/
def execSwitch (p : Port) (u : CtrlUnit) (s : State) : Res :=
  let mask := BitVec.ofNat 8 (bitsOf u.w0 15 8)
  let x := s.portOf p
  laneUnit s p u 2 0xFF03_FFFF
    (if (x.trims.contains (bitsOf u.w0 31 24, mask)) = true then takeMask s p (bitsOf u.w0 31 24) mask
     else if x.switched = some (bitsOf u.w0 31 24, mask) then s
     else violate s p)

/-- LANE_LOCK_LOSS (R420): a lane is trimmed, or, at MIN_WIDTH, a retrain requested; a lane out of the mask starts its
watch afresh. -/
def execLaneLockLoss (p : Port) (lane : Fin 8) (s : State) : Res :=
  let x := s.portOf p
  let mask := x.wanted &&& ~~~ laneBit lane
  act (s.isActive p = true)
    (if ¬ x.wanted.getLsbD lane then s.setPort p { x with restore := tput lane s.ns x.restore }
     else if lanesOf mask < x.least then requestRetrain s p 5
     else sendTrim s p mask) s

/-- LANE_RESTORE_TIMER (R421): a lane out of the mask error-free and locked for 1 ms. -/
def execLaneRestoreTimer (p : Port) (lane : Fin 8) (s : State) : Res :=
  let x := s.portOf p
  match tfind x.restore lane with
  | some t =>
    act (s.isActive p = true ∧ t + 1000000 ≤ s.ns ∧ x.wanted.getLsbD lane = false ∧ x.trained.getLsbD lane = true)
      (sendTrim s p (x.wanted ||| laneBit lane)) s
  | none => .next s

/-! ### Retraining and training (R412 to R418) -/

/-- RETRAIN (R405, R417): one whose NUMBER is the count plus 1; a stale one is ignored. -/
def execRetrain (p : Port) (u : CtrlUnit) (s : State) : Res :=
  let x := s.portOf p
  ctrlUnit s p u 7 0x0000_0F0F 0x0000_00FF 0
    (if bitsOf u.w1 7 0 = (x.retrains + 1) % 256 then
       let s := s.setPort p { x with causes := if x.state = 5 ∨ x.state = 6 then x.causes ||| 2 ^ bitsOf u.w0 11 8 else x.causes }
       if x.state = 5 then enterRetrain s p else s
     else s)

/-- RETRAIN_COMPLETE (R418): the lanes that relocked; PARAM runs again. -/
def execRetrainComplete (p : Port) (lanes : Byte) (s : State) : Res :=
  let x := s.portOf p
  act (x.state = 6 ∧ x.inRetrain = false ∧ x.least ≤ lanesOf (x.trained &&& lanes))
    (s.setPort p { x with trained := x.trained &&& lanes, inRetrain := true, ownAddr := s.fabric.place, param := none
                          same := 0, seenSent := 0, seenGot := false }) s

/-- RETRAIN_TIMEOUT (R413): not complete within 40 µs. -/
def execRetrainTimeout (p : Port) (s : State) : Res :=
  let x := s.portOf p
  act (x.state = 6 ∧ x.retrainAt + 40000 ≤ s.ns) (linkLost s p 1 0) s

/-- FEC_LOCK_LOSS (R416, R417): on every lane of the mask. -/
def execFecLockLoss (p : Port) (s : State) : Res :=
  let x := s.portOf p
  act (s.isActive p = true) (enterRetrain (s.setPort p { x with causes := x.causes ||| 2 ^ 10 }) p) s

/-- SIGNAL_DETECT (R413). -/
def execSignalDetect (p : Port) (lanes : Byte) (s : State) : Res :=
  let x := s.portOf p
  act (x.state = 1 ∧ x.least ≤ lanesOf lanes) (s.setPort p { x with state := 2, progress := s.ns }) s

/-- TRAIN_CONVERGE (R413): lanes that fail are left out of the mask. -/
def execTrainConverge (p : Port) (lanes : Byte) (s : State) : Res :=
  let x := s.portOf p
  act (x.state = 2 ∧ x.least ≤ lanesOf lanes) (s.setPort p { x with state := 3, trained := lanes, progress := s.ns }) s

/-- ALIGN_LOCK (R413, R433): the PARAM exchange begins, with the own address as it then stands. -/
def execAlignLock (p : Port) (s : State) : Res :=
  let x := s.portOf p
  act (x.state = 3)
    (s.setPort p { x with state := 4, progress := s.ns, ownAddr := s.fabric.place, param := none, same := 0, seenSent := 0
                          seenGot := false }) s

/-- TRAINING_TIMEOUT (R413): 500 ms without progress. -/
def execTrainingTimeout (p : Port) (s : State) : Res :=
  let x := s.portOf p
  act ((x.state = 2 ∨ x.state = 3 ∨ x.state = 4) ∧ x.progress + 500000000 ≤ s.ns) (portDown s p 1) s

/-- PARAM (R405, R414): SEEN is set once two identical ones are received. -/
def execParam (p : Port) (u : CtrlUnit) (s : State) : Res :=
  let x := s.portOf p
  let k := (u.w0 &&& 0xFFFF_FF7F, u.w1, u.w2)
  ctrlUnit s p u 8 0xFFFF_FF8F 0xFFFF_FF1F 0xFFFF_FFFF
    (if x.exchanging then
       paramTry (s.setPort p { x with param := some k, same := if x.param = some k then x.same + 1 else 1, progress := s.ns
                                      seenGot := x.seenGot || u.w0.getLsbD 7 }) p
     else s)

/-! ### LINK_CTRL (R413, R416, R426) -/

/-- A write of LINK_CTRL_p. -/
def linkCtrlWrite (s : State) (p : Nat) (v : W32) : State :=
  let x := s.portOf p
  let s := s.setPort p { x with enable := v.getLsbD 0, minWidth := bitsOf v 7 4 }
  if ¬ v.getLsbD 0 then (if x.state = 0 then s else portDown s p 0)
  else if x.state = 0 then (if s.hostUp ∧ x.dropUntil = none then s.setPort p { s.portOf p with state := 1 } else s)
  else if v.getLsbD 2 then portDown s p 1
  else if v.getLsbD 1 then requestRetrain s p 1
  else s

/-- LINK_CTRL_ENABLE (R413, R426). -/
def execLinkCtrlEnable (p : Port) (value : W32) (s : State) : Res := .next (linkCtrlWrite s p value)

/-- LINK_CTRL_RETRAIN (R416, R426): RETRAIN written 1. -/
def execLinkCtrlRetrain (p : Port) (value : W32) (s : State) : Res :=
  act (value.getLsbD 1 = true) (linkCtrlWrite s p value) s

/-- LINK_CTRL_COLD (R413, R426): COLD written 1. -/
def execLinkCtrlCold (p : Port) (value : W32) (s : State) : Res :=
  act (value.getLsbD 2 = true) (linkCtrlWrite s p value) s

end Sys2Proof.Machine
end

