-- ==== Sys2Proof/Machine/Observation.lean ====
section
/-!
DEFINITION. The observation hub's commands (R519 to R540): the paths, the event ring, the drop summaries, the alarm latch,
the counter snapshot, the global stop, scan-out, the observation port, and the replay of a log.
-/

namespace Sys2Proof.Machine

/-! ### Path 0: the event ring (R520) -/

/-- Records of the event ring. -/
def EvRing.size (r : EvRing) : Nat := 2 ^ r.sizeLog2

/-- Whether the ring takes a record: enabled and not full. -/
def EvRing.open_ (r : EvRing) : Bool := r.enable && (r.tail + 1) % r.size != r.head

/-- Send the ring's message. -/
def ringMsix (s : State) : State := sendMsix { s with evring := { s.evring with pendingIrq := 0 } } 0 s.evring.vector

/-- Write one record at TAIL, with its message: after an alarm or a fault, and otherwise when 64 are pending (R520). -/
def ringPut (s : State) (r : Rec) (pseq : Nat) : State :=
  let e := s.evring
  let s := hostWrite s 0 none (e.base + BitVec.ofNat 64 (128 * e.tail)) (recBytes r pseq e.phase)
  let wrap := decide (e.size ≤ e.tail + 1)
  let s := { s with evring := { e with
    tail := if wrap then 0 else e.tail + 1, phase := if wrap then !e.phase else e.phase, pendingIrq := e.pendingIrq + 1
    firstIrqNs := if e.pendingIrq = 0 then s.ns else e.firstIrqNs } }
  if r.cls ≤ 1 ∨ 64 ≤ s.evring.pendingIrq then ringMsix s else s

/-- EVRING_WRITE (R520): the oldest record of path 0, while the ring has room. -/
def evringWriteEff (s : State) : State :=
  match (s.pathOf 0).queue with
  | e :: es => ringPut (s.setPath 0 { s.pathOf 0 with queue := es }) e.2 e.1
  | [] => s

/-- EVRING_WRITE (R520). -/
def execEvringWrite (s : State) : Res :=
  act ((s.pathOf 0).queue.isEmpty = false ∧ s.evring.open_ = true ∧ (s.fnOf 0).inReset = false) (evringWriteEff s) s

/-- EVRING_IRQ_TIMEOUT (R520): 100 µs after the first pending record. -/
def execEvringIrqTimeout (s : State) : Res :=
  act (0 < s.evring.pendingIrq ∧ s.evring.firstIrqNs + 100000 ≤ s.ns) (ringMsix s) s

/-- EVRING_CTRL as it reads. -/
def EvRing.ctrl (r : EvRing) : W64 :=
  BitVec.ofNat 64 (r.sizeLog2 + natOfBool r.enable * 2 ^ 5 + r.vector * 2 ^ 6 + r.head * 2 ^ 32 + r.tail * 2 ^ 48)

/-- EVRING_CTRL written (R520): SIZE_LOG2 only while ENABLE is 0; enabling sets TAIL and HEAD to 0; a SIZE_LOG2 outside 4 to
16 leaves the ring disabled. -/
def EvRing.write (r : EvRing) (v : W64) : EvRing :=
  let n := v.toNat
  let size := if r.enable then r.sizeLog2 else fieldNat n 4 0
  let en := bitNat n 5 && decide (4 ≤ size ∧ size ≤ 16)
  let r' := { r with sizeLog2 := size, enable := en, vector := fieldNat n 16 6, head := fieldNat n 47 32 }
  if en && !r.enable then { r' with head := 0, tail := 0, phase := true } else r'

/-- EVRING_CTRL_WRITE (R520, R557). -/
def execEvringCtrlWrite (offset width : Nat) (value : W64) (s : State) : Res :=
  match regMerge s.evring.ctrl offset width value with
  | some v => .next { s with evring := s.evring.write v }
  | none => .next s

/-! ### Path 1 (R521) -/

/-- A record as one MCTP message of the vendor-defined PCI type. -/
def mctpBytes (r : Rec) (pseq : Nat) : Bytes :=
  [0x7E] ++ (leBytes 2 Config.pciVendor).reverse ++ recBytes r pseq false

/-- MCTP_RECORD_PUSH (R521): the oldest record of path 1. -/
def execMctpRecordPush (s : State) : Res :=
  match (s.pathOf 1).queue with
  | e :: es => .next ((s.setPath 1 { s.pathOf 1 with queue := es }).emit (.mctp (mctpBytes e.2 e.1)))
  | [] => .next s

/-! ### Drop summaries (R523) -/

/-- DETAIL of a DROP_SUMMARY. -/
def dropDetail (p : Path) : Bytes :=
  packDetail (p.dropped.map (fun n => (4, n)) ++ [(8, p.firstDrop), (8, p.lastDrop), (2, p.siteMask.toNat)])

/-- Send a record on a path at once. -/
def sendOn (s : State) (p : Nat) (r : Rec) (pseq : Nat) : State :=
  if p = 0 then ringPut s r pseq
  else if p = 1 then s.emit (.mctp (mctpBytes r pseq))
  else sendLoose s 2 (BitVec.ofNat 16 (fieldNat (s.pathOf 2).ctrl.toNat 31 16)) 0 (recBytes r pseq false)

/-- DROP_SUMMARY's effect. The summary takes the path's next PSEQ (DESIGN CHOICE, log 76). -/
def dropSummaryEff (p : Nat) (s : State) : State :=
  let s := { s with hub := s.hub.join s.chron.count }
  let pa := s.pathOf p
  let r : Rec := { code := 0x0801, cls := 3, loc := 0, stamp := s.chron.count, cgroup := s.hub.group
                   address := s.fabric.place, detail := dropDetail pa }
  sendOn (s.setPath p { pa with pseq := (pa.pseq + 1) % 2 ^ 32, dropped := [0, 0, 0, 0, 0], firstDrop := 0, lastDrop := 0
                                siteMask := 0, summary := false, lastSummary := some s.ns }) p r pa.pseq

/-- DROP_SUMMARY (R523): at the first chance, and at most once per 1 ms. -/
def execDropSummary (p : Fin 3) (s : State) : Res :=
  let pa := s.pathOf p
  act (pa.summary = true ∧ pa.ctrl.getLsbD 0 = true ∧ pa.lastSummary.all (fun t => decide (t + 1000000 ≤ s.ns)) = true
      ∧ (p.val = 0 → s.evring.open_ = true ∧ (s.fnOf 0).inReset = false) ∧ (p.val = 2 → pa.ctrl.getLsbD 32 = true))
    (dropSummaryEff p s) s

/-! ### The alarm latch (R524) -/

/-- ALARM_LATCH_CLEAR (R12, R524, R557): each 1 written clears its bit and frees its capture entry. -/
def execAlarmLatchClear (offset width : Nat) (value : W64) (s : State) : Res :=
  if (width = 32 ∧ offset % 4 = 0 ∧ offset < 32) ∨ (width = 64 ∧ offset % 8 = 0 ∧ offset < 32) then
    .next (latchClear s (latchHit offset width value))
  else .next s

/-! ### The plan-fault record (R109, R111) -/

/-- The key that orders breaches of one plan position, which R109 leaves open: the code, the location, the other claimant
(log 126). -/
def Breach.rank (a : Breach) : Nat := (a.code * 2 ^ 64 + a.loc.toNat) * 2 ^ 32 + a.other

/-- The earlier of two breaches in the order of R109. -/
def firstBreach (a b : Breach) : Breach :=
  if earlier b.pos.beat b.pos.vmove b.pos.event a.pos.beat a.pos.vmove a.pos.event then b
  else if earlier a.pos.beat a.pos.vmove a.pos.event b.pos.beat b.pos.vmove b.pos.event then a
  else if b.rank < a.rank then b else a

/-- The breaches considered: those at a beat before the stop beat (R109). -/
def State.considered (s : State) : List Breach :=
  match s.run with
  | some r => r.breaches.filter (fun b => decide (b.pos.beat < s.stop.beat))
  | none => []

/-- The breach recorded, the earliest in the order beat, movement, event. -/
def State.recorded (s : State) : Option Breach :=
  match s.considered with
  | [] => none
  | b :: bs => some (bs.foldl firstBreach b)

/-- The 64 bytes of the plan-fault record (R111). -/
def planFaultBytes (s : State) (b : Breach) : Bytes :=
  leBytes 8 b.loc.toNat ++ leBytes 8 b.pos.step ++ leBytes 8 b.pos.beat ++ leBytes 8 (b.opAddr % 2 ^ 48)
    ++ leBytes 4 (b.code + b.detail * 2 ^ 8 + b.pos.vmove * 2 ^ 16 + b.pos.event * 2 ^ 22) ++ leBytes 4 b.operand
    ++ leBytes 4 b.other ++ leBytes 4 (satNat 32 (s.considered.length - 1)) ++ leBytes 8 b.stamp ++ leBytes 8 s.stop.beat

/-! ### Global stop (R531 to R535) -/

/-- STOP_REQUEST (R531, R534). -/
def execStopRequest (s : State) : Res := .next (resumableStop s 3)

/-- JTAG_STOP (R531, R582). -/
def execJtagStop (s : State) : Res := .next (resumableStop s 4)

/-- Physical movements that hold at a WAIT or at a fetch underflow (R532). -/
def State.holding (s : State) : W64 :=
  match s.run with
  | some r =>
    (indexed r.map).foldl (fun (m : W64) e =>
      if (s.seqOf e.1).hold.isSome || (s.seqOf e.1).starved then m ||| BitVec.ofNat 64 (2 ^ e.2) else m) 0
  | none => 0

/-- Whether a forming stop is complete (R532, R533): every movement has issued s − 1; or no step runs; or, for an ending
stop, the step has passed its last plan beat. -/
def State.stopFormed (s : State) : Bool :=
  s.stop.state == 1 &&
    (s.run.isNone || s.beatsOf.all (fun b => decide (s.stop.beat ≤ b)) || (s.stop.ending && s.allPassed))

/-- STOP_REACHED's effect (R111, R533): the plan-fault record of a step with a breach, stamped at its detection, and STOP.
In an ending stop the source rows of commands already issued are read, for those that run to retirement (R110). -/
def stopReachedEff (s : State) : State :=
  let s := if s.stop.ending then settleRest s else s
  let s := { s with stop := { s.stop with
    state := 2, since := s.chron.count, sinceNs := s.ns, held := s.holding
    beat := if s.run.isNone then 0 else s.stop.beat } }
  let s := match s.recorded with
    | some b => raiseAt s b.stamp 0x0101 b.loc (planFaultBytes s b) (some b.pos)
    | none => s
  raise s 0x0802 0 (packDetail [(8, s.stop.beat), (1, s.stop.causes), (8, s.chron.count)])

/-- STOP_REACHED (R533). -/
def execStopReached (s : State) : Res := act (s.stopFormed = true) (stopReachedEff s) s

/-- Release a held stop: the cadence and the timers of R42, R107, the fence and the twin move on by its length (R378,
R468, R533). -/
def releaseStop (s : State) : State :=
  let d := s.chron.count - s.stop.since
  let dn := s.ns - s.stop.sinceNs
  { s with
    stop := { s.stop with state := 0, ending := false, causes := 0, held := 0 }
    cad := { s.cad with start := s.cad.start + d, sched := s.cad.sched + d, shift := s.cad.shift + d }
    run := s.run.map fun r => { r with beginNs := r.beginNs + dn }
    mv := s.mv.map (fun e => (e.1, { e.2 with quiet := e.2.quiet + dn }))
    seq := s.seq.map (fun e => (e.1, { e.2 with hold := e.2.hold.map fun h => { h with since := h.since + dn } }))
    grid := { s.grid with fenceAt := s.grid.fenceAt + dn, ownTwin := s.grid.ownTwin.map (fun t => (t.1 + dn, t.2)) } }

/-- STOP_RESUME (R534, R535): a complete resumable stop only. -/
def execStopResume (s : State) : Res := act (s.stop.state = 2 ∧ s.stop.ending = false) (releaseStop s) s

/-! ### Scan-out (R536, R576) -/

/-- Whether a location names an element of the compute die at DEPTH 3 or 4 (R536). -/
def scanNamed (l : Nat) : Bool :=
  (fieldNat l 63 61 == 3 || fieldNat l 63 61 == 4) && fieldNat l 60 57 == 0 && fieldNat l 56 53 == 0 && fieldNat l 52 49 == 0

/-- A byte of a unit of the compute die, by its offset in the element: scratch banks by row, accumulator stores by row and
column. The layout of other units' scan data is not given: unspecified bytes, and `Config.scanControl` says which of them are
control state (DESIGN CHOICE, log 77). The security block reads as zero; a tenancy store does so without SCAN_PERMIT. -/
def scanByte (s : State) (l o : Nat) : Byte :=
  let mv := fieldNat l 48 41
  let u := fieldNat l 40 29
  let permit := s.stop.scanPermit
  let other : Byte := if permit ∨ Config.scanControl l o = true then Config.freeByte s.free o else 0
  if fieldNat l 63 61 = 4 then other
  else if u = 0x023 then 0
  else if u < 4 then
    (if permit ∧ o < 1572864 then memByte (s.mvOf mv).fill (s.mvOf mv).scratch (256 * (4 * (o / 256) + u) + o % 256) else 0)
  else if u = 0x012 then
    (if permit ∧ o < 4194304 then
      let m := s.matOf mv
      let d := match m.fill with | none => 0 | some n => Config.freeAcc n (o / 16)
      BitVec.ofNat 8 ((tget d m.acc (o / 16)).toNat / 256 ^ (o % 16))
     else 0)
  else if (u = 0x010 ∨ u = 0x011 ∨ u = 0x014) ∧ permit = false then 0
  else other

/-- The data of a scan of `units` 16-byte units from offset `o`. -/
def scanData (s : State) (l o units : Nat) : Bytes := (List.range (16 * units)).map (fun i => scanByte s l (o + i))

/-- A frame of the observation port (R529, R576): its number, entry count, kind and 240 bytes. -/
def frameBytes (seq count kind : Nat) (body : Bytes) : Bytes :=
  let h := leBytes 8 (seq + count * 2 ^ 32 + kind * 2 ^ 36) ++ leBytes 4 0
  h ++ leBytes 4 (crc32c (h ++ padTo 240 body)).toNat ++ padTo 240 body

/-- Send one frame. -/
def sendFrame (count kind : Nat) (s : State) (body : Bytes) : State :=
  { s with trace := { s.trace with frameSeq := (s.trace.frameSeq + 1) % 2 ^ 32 } }.emit
    (.frame (frameBytes s.trace.frameSeq count kind body))

/-- The scan frames of a request. -/
def scanFrames (l o units : Nat) (s : State) : State :=
  let b := scanData s l o units
  ((List.range ((b.length + 239) / 240)).foldl (fun s i => sendFrame 0 1 s ((b.drop (240 * i)).take 240)) s).bump

/-- SCAN_REQUEST (R536, R576): one made while not STOPPED is discarded. -/
def execScanRequest (l : W64) (offset units : W32) (s : State) : Res :=
  act (s.stop.state = 2 ∧ scanNamed l.toNat = true) (scanFrames l.toNat offset.toNat units.toNat s) s

/-- SCANOUT (R536, R582): the same data on TDO. -/
def execScanout (l : W64) (offset units : W32) (s : State) : Res :=
  act (s.stop.state = 2 ∧ scanNamed l.toNat = true)
    ((s.emit (.tdo (scanData s l.toNat offset.toNat units.toNat))).bump) s

/-- OBSERVATION_FRAME_SEND (R529): up to 15 entries of the elastic buffer. -/
def execObservationFrameSend (s : State) : Res :=
  let es := s.trace.elastic.take 15
  act (s.trace.mode = 2 ∧ es.isEmpty = false)
    (sendFrame es.length 0 { s with trace := { s.trace with elastic := s.trace.elastic.drop 15
                                                            fill := s.trace.fill - es.length } } (es.flatMap traceBytes)) s

/-! ### Counters (R525) -/

/-- A counter copied into the snapshot bank. -/
def snapPut (t : Tbl Nat) (e : Nat × Nat) : Tbl Nat := tset 0 t e.1 e.2

/-! ### Replay (R540) -/

/-- Accept a descriptor of the log: no ring is fetched, so no HEAD moves. -/
def acceptReplay (s : State) (f q : Nat) (d : Bytes) : State × Nat :=
  let r := s.sqOf f q
  let n := s.intake.next
  let a : Acc := { fn := f, sq := q, cq := r.cq, desc := d, pasid := pasidOf r.pasidEn r.pasid, windows := 0, sqHead := r.head }
  let c := s.cqOf f r.cq
  let s := s.setCq f r.cq { c with resv := c.resv + 1 }
  ({ s with intake := { s.intake with next := n + 1, acc := tput n a s.intake.acc } }, n)

/-- The recorded inputs of entry `n` join those still to be taken (R540). -/
def Replay.add (r : Replay) (n : Nat) (x : ReplayRec) : Replay :=
  { r with pages := r.pages ++ x.pages, probes := match x.probe with | some p => tput n p r.probes | none => r.probes, hreads := r.hreads ++ x.hreads
           frecvs := r.frecvs ++ x.frecvs
           digests := match x.digest with | some d => tput n d r.digests | none => r.digests
           slips := tset [] r.slips n (x.slips.foldl (fun t e => tset 0 t e.1 e.2) [])
           expect := match x.done with | some d => tput n d r.expect | none => r.expect }

/-- REPLAY_ACCEPT's effect. -/
def replayAcceptEff (f q : Nat) (d : Bytes) (x : ReplayRec) (s : State) : State :=
  let adm := admitDetail s f d
  let a := acceptReplay { s with replay := s.replay.add s.intake.next x } f q d
  if formDetail d ≠ 0 then refuse a.1 a.2 (formDetail d)
  else if adm ≠ 0 ∧ adm ≠ 0x0651 then refuse a.1 a.2 adm
  else noteAccept a.1 (fieldAt d 0 1) a.2

/-- REPLAY_ACCEPT (R540): the next ACCEPT entry, in log order. -/
def execReplayAccept (f : Fn) (sq : Fin 16) (desc : Bytes) (r : ReplayRec) (s : State) : Res :=
  act (s.replaying = true ∧ (s.fnOf f).inReset = false ∧ s.stop.state ≠ 2) (replayAcceptEff f sq desc r s) s

end Sys2Proof.Machine
end

