-- ==== Sys2Proof/Machine/PlanImage.lean ====
section
/-!
DEFINITION. The plan image (R116 to R125): its layout, the parsed plan, and the checks of R126 on it.
-/

namespace Sys2Proof.Machine

/-! ### Header and signature block (R116, R118) -/

/-- Whether bytes `a` to `b` of an image are all 0. -/
def zeroFrom (b : Bytes) (a e : Nat) : Bool := (slice b a (e + 1 - a)).all (· == 0)

/-- SIG_OFFSET of a plan image. -/
def sigOffset (b : Bytes) : Nat := fieldAt b 0xA8 8

/-- Bytes of a signature by algorithm (R118). -/
def sigBytes (alg : Nat) : Nat := if alg = 1 then 4627 else 96

/-- Whether a signature block at an offset has its layout: SIG_LENGTH of the algorithm, reserved bits 0 (R118). -/
def sigBlockOk (b : Bytes) (off alg : Nat) : Bool :=
  fieldAt b off 2 == sigBytes alg && fieldAt b (off + 2) 2 == 0 && fieldAt b (off + 4) 4 == 0

/-- A range of SERVES: first and last. -/
def servesAt (b : Bytes) (i : Nat) : Nat × Nat := (bitsAt b (0x20 + 4 * i) 4 14 0, bitsAt b (0x20 + 4 * i) 4 30 16)

/-- Whether the header and the signature block keep R116 and R118; `size` is the descriptor's IMAGE_SIZE. -/
def headerOk (b : Bytes) (size : Nat) : Bool :=
  let n := fieldAt b 0x10 2
  let grid := fieldAt b 0x18 4
  let cnt := bitsAt b 0x1C 4 4 0
  let alg := fieldAt b 0xA0 1
  let off := sigOffset b
  fieldAt b 0 4 == 0x5A4E504C && fieldAt b 4 2 == 1 && fieldAt b 6 2 == 0x100 && fieldAt b 8 8 == size
    && decide (1 ≤ n ∧ n ≤ 128) && zeroFrom b 0x12 0x13
    && decide (fieldAt b 0x14 1 ≤ 12 ∧ fieldAt b 0x15 1 ≤ 24 ∧ fieldAt b 0x16 1 ≤ 4) && zeroFrom b 0x17 0x17
    && decide (1 ≤ grid ∧ grid ≤ 32768) && decide (1 ≤ cnt ∧ cnt ≤ 16) && bitsAt b 0x1C 4 31 5 == 0
    && (List.range 16).all (fun i => !bitNat (fieldAt b (0x20 + 4 * i) 4) 15 && !bitNat (fieldAt b (0x20 + 4 * i) 4) 31)
    && (List.range cnt).all (fun i => let r := servesAt b i; decide (r.1 ≤ r.2 ∧ r.2 < grid))
    && zeroFrom b 0x62 0x67 && (alg == 1 || alg == 2) && decide (fieldAt b 0xA1 1 ≤ 15) && zeroFrom b 0xA2 0xA7
    && off % 8 == 0 && decide (0x100 + 32 * n ≤ off) && zeroFrom b 0xB0 0xFF
    && size == off + 8 + sigBytes alg && sigBlockOk b off alg

/-! ### The section table (R119, R120) -/

/-- A section-table entry. -/
structure Section where
  kind   : Nat
  vmove  : Nat
  mode   : Nat
  count  : Nat
  offset : Nat
  size   : Nat
deriving DecidableEq, Repr

/-- Entry `i` of the section table. -/
def sectionAt (b : Bytes) (i : Nat) : Section :=
  let o := 0x100 + 32 * i
  { kind := fieldAt b o 1, vmove := bitsAt b o 4 13 8, mode := bitsAt b o 4 15 14, count := fieldAt b (o + 4) 4
    offset := fieldAt b (o + 8) 8, size := fieldAt b (o + 0x10) 8 }

/-- The section table. -/
def sectionsOf (b : Bytes) : List Section := (List.range (fieldAt b 0x10 2)).map (sectionAt b)

/-- Bytes of an entry by section kind (R120). -/
def entryBytes : Nat → Nat
  | 1 => 16 | 2 => 4 | 3 => 16 | 4 => 8 | 5 => 8 | 6 => 32 | 8 => 32 | 9 => 8200 | 10 => 4 | 11 => 64 | _ => 1

/-- Whether an entry of the section table keeps R119. -/
def sectionOk (b : Bytes) (x : Section × Nat) : Bool :=
  let e := x.1
  let o := 0x100 + 32 * x.2
  decide (1 ≤ e.kind ∧ e.kind ≤ 11) && (e.kind == 1 || e.vmove == 0) && ((e.kind == 1) == (e.mode != 0))
    && fieldAt b (o + 2) 2 == 0 && fieldAt b (o + 0x18) 8 == 0 && e.offset % 16 == 0
    && decide (0x100 + 32 * fieldAt b 0x10 2 ≤ e.offset ∧ e.offset + e.size ≤ sigOffset b)
    && (if e.kind = 7 then true
        else if e.kind = 9 then decide (e.count * 8200 ≤ e.size)
        else e.size == e.count * entryBytes e.kind)

/-- Whether no two sections overlap. -/
def disjointOk (l : List Section) : Bool :=
  (indexed l).all fun x => (indexed l).all fun y =>
    decide (x.1 = y.1 ∨ x.2.size = 0 ∨ y.2.size = 0 ∨ x.2.offset + x.2.size ≤ y.2.offset
      ∨ y.2.offset + y.2.size ≤ x.2.offset)

/-- Whether the section counts keep R120. -/
def countsOk (l : List Section) : Bool :=
  let code := (l.filter (fun e => e.kind == 1)).map (·.vmove)
  decide code.Nodup && (l.filter (fun e => e.kind == 2)).map (·.count) == [64]
    && ((List.range 12).drop 3).all (fun k => decide ((l.filter (fun e => e.kind == k)).length ≤ 1))

/-- The offsets of the entries of a kind's sections. -/
def entriesOf (l : List Section) (k : Nat) : List Nat :=
  (l.filter (fun e => e.kind == k)).flatMap fun e => (List.range e.count).map (fun i => e.offset + entryBytes k * i)

/-! ### The layouts of the entries (R120 to R125) -/

/-- MOVEMENTS (R121). -/
def movementOk (b : Bytes) (o : Nat) : Bool :=
  let t := bitsAt b o 4 3 0
  decide (1 ≤ t ∧ t ≤ 9) && bitsAt b o 4 31 5 == 0

/-- EXTENTS (R120). -/
def extentOk (b : Bytes) (o : Nat) : Bool :=
  let c := bitsAt b o 4 1 0
  let fits (v : Nat) : Bool := if c = 1 then fieldNat v 31 10 == 0 else fieldNat v 31 23 == 0 && v % 256 == 0
  c != 3 && bitsAt b o 4 7 2 == 0 && bitsAt b o 4 31 14 == 0 && (c != 2 || decide (bitsAt b o 4 13 8 ≤ 1))
    && fits (fieldAt b (o + 4) 4) && fits (fieldAt b (o + 8) 4) && fieldAt b (o + 12) 4 == 0

/-- QUEUES (R120). -/
def queueOk (b : Bytes) (o : Nat) : Bool :=
  bitsAt b o 4 7 6 == 0 && bitsAt b o 4 15 12 == 0 && bitsAt b o 4 31 24 == 0 && fieldAt b (o + 4) 4 % 256 == 0

/-- REGIONS (R122); `data` is the SIZE of the DATA section and `binds` the kinds of the bindings. -/
def regionOk (b : Bytes) (data : Nat) (binds : List Nat) (o : Nat) : Bool :=
  let stack := bitsAt b o 8 35 32
  let init := bitsAt b o 8 37 36
  let size := fieldAt b (o + 8) 8
  let src := fieldAt b (o + 0x10) 8
  bitsAt b o 8 31 21 == 0 && bitsAt b o 8 63 38 == 0 && (decide (stack < 8) || stack == 15) && init != 3
    && size % 4096 == 0 && fieldAt b (o + 0x18) 8 == 0
    && (if init = 0 then src == 0
        else if init = 1 then decide (src + size ≤ data)
        else stack == 15 && (match binds[src]? with | some k => k != 1 | none => false))

/-- FLOWS (R123). -/
def flowOk (b : Bytes) (o : Nat) : Bool :=
  let hops := fieldAt b (o + 4) 2
  bitsAt b o 4 31 20 == 0 && decide (1 ≤ hops ∧ hops ≤ 32767) && fieldAt b (o + 6) 2 == 0 && fieldAt b (o + 0x18) 8 == 0

/-- A slot word of a wheel (R124). -/
def slotWordOk (w : Nat) : Bool := if bitNat w 15 then fieldNat w 14 0 == 0 else !bitNat w 14

/-- WHEELS (R124). -/
def wheelOk (b : Bytes) (o : Nat) : Bool :=
  bitsAt b o 8 63 8 == 0 && decide (bitsAt b o 8 7 3 ≤ 19)
    && (List.range 4096).all (fun i => slotWordOk (fieldAt b (o + 8 + 2 * i) 2))

/-- LEVELS (R120). -/
def levelOk (b : Bytes) (o : Nat) : Bool := !bitNat (fieldAt b o 4) 15 && bitsAt b o 4 31 24 == 0

/-- BINDINGS (R125). -/
def bindingOk (b : Bytes) (o : Nat) : Bool :=
  bitsAt b (o + 0x30) 4 1 0 != 0 && bitsAt b (o + 0x30) 4 31 2 == 0 && zeroFrom b (o + 0x34) (o + 0x3F)

/-- Bytes of the DATA section. -/
def dataOf (b : Bytes) (l : List Section) : Bytes :=
  match l.find? (fun e => e.kind == 7) with
  | some e => slice b e.offset e.size
  | none => []

/-- Whether every entry outside CODE and PATCH keeps its layout (R126 step 1): the identifiers unique, and the BASE-ANALOG
binding rule of R125. -/
def entriesOk (b : Bytes) (l : List Section) : Bool :=
  let binds := (entriesOf l 11).map (fun o => bitsAt b (o + 0x30) 4 1 0)
  let data := match l.find? (fun e => e.kind == 7) with | some e => e.size | none => 0
  (entriesOf l 2).all (movementOk b) && (entriesOf l 3).all (extentOk b) && (entriesOf l 5).all (queueOk b)
    && (entriesOf l 6).all (regionOk b data binds) && (entriesOf l 8).all (flowOk b) && (entriesOf l 9).all (wheelOk b)
    && (entriesOf l 10).all (levelOk b) && (entriesOf l 11).all (bindingOk b)
    && decide ((entriesOf l 5).map (fun o => bitsAt b o 4 11 0)).Nodup
    && decide ((entriesOf l 6).map (fun o => fieldAt b o 1)).Nodup
    && decide ((entriesOf l 8).map (fun o => bitsAt b o 4 14 0)).Nodup
    && decide ((entriesOf l 9).map (fun o => bitsAt b o 8 7 0)).Nodup
    && decide ((entriesOf l 10).map (fun o => bitsAt b o 4 14 0)).Nodup
    && (fieldAt b 0x16 1 == 0 || (binds.filter (· == 1)).length == 1)

/-! ### The parsed plan -/

/-- The op words of a CODE section. -/
def wordsOf (b : Bytes) (e : Section) : List W128 :=
  (List.range e.count).map (fun i => BitVec.ofNat 128 (fieldAt b (e.offset + 16 * i) 16))

/-- A REGIONS entry before it is placed. -/
def parseRegion (b : Bytes) (o : Nat) : Region :=
  { domain := bitsAt b o 8 20 8, stack := bitsAt b o 8 35 32, init := bitsAt b o 8 37 36, size := fieldAt b (o + 8) 8
    source := fieldAt b (o + 0x10) 8 }

/-- A FLOWS entry, its addresses as written. -/
def parseFlow (b : Bytes) (o : Nat) : Flow :=
  { dim := bitsAt b o 4 16 15, dir := bitNat (fieldAt b o 4) 17, mcast := bitNat (fieldAt b o 4) 18
    collect := bitNat (fieldAt b o 4) 19, hops := fieldAt b (o + 4) 2, srcFirst := fieldAt b (o + 8) 4
    srcLast := fieldAt b (o + 0xC) 4, hopFirst := fieldAt b (o + 0x10) 4, hopLast := fieldAt b (o + 0x14) 4 }

/-- A table from keyed entries. -/
def tblOf {α : Type} (l : List (Nat × α)) : Tbl α := l.foldl (fun t e => tput e.1 e.2 t) []

/-- The plan of an image whose header and sections keep their layout. -/
def parsePlan (b : Bytes) : Plan :=
  let l := sectionsOf b
  let code := l.filter (fun e => e.kind == 1)
  { digest := Config.sha384 (b.take (sigOffset b))
    mUsed := fieldAt b 0x14 1, vUsed := fieldAt b 0x15 1, wUsed := fieldAt b 0x16 1, gridSize := fieldAt b 0x18 4
    serves := (List.range (bitsAt b 0x1C 4 4 0)).map (servesAt b)
    ownLevel := fieldAt b 0x60 1, peerLevel := fieldAt b 0x61 1, planName := fieldAt b 0x68 8, sigAlg := fieldAt b 0xA0 1
    keyIndex := fieldAt b 0xA1 1
    code := tblOf (code.map fun e => (e.vmove, wordsOf b e)), mode := tblOf (code.map fun e => (e.vmove, e.mode))
    moves := (entriesOf l 2).map fun o => (bitsAt b o 4 3 0, bitNat (fieldAt b o 4) 4)
    extents := (entriesOf l 3).map fun o =>
      { cls := bitsAt b o 4 1 0, vm := bitsAt b o 4 13 8, first := fieldAt b (o + 4) 4, last := fieldAt b (o + 8) 4 }
    patches := tblOf ((entriesOf l 4).map fun o =>
      (256 * bitsAt b o 8 45 40 + bitsAt b o 8 55 48, (bitsAt b o 8 35 32, BitVec.ofNat 32 (fieldAt b o 4))))
    queues := tblOf ((entriesOf l 5).map fun o =>
      (16 * bitsAt b o 4 5 0 + bitsAt b o 4 11 8, (bitsAt b o 4 23 16, fieldAt b (o + 4) 4)))
    regions := tblOf ((entriesOf l 6).map fun o => (fieldAt b o 1, parseRegion b o))
    data := dataOf b l
    flows := tblOf ((entriesOf l 8).map fun o => (bitsAt b o 4 14 0, parseFlow b o))
    wheels := tblOf ((entriesOf l 9).map fun o =>
      (bitsAt b o 8 7 0, (List.range 4096).map fun i => BitVec.ofNat 16 (fieldAt b (o + 8 + 2 * i) 2)))
    levels := tblOf ((entriesOf l 10).map fun o => (bitsAt b o 4 14 0, bitsAt b o 4 23 16))
    bindings := (entriesOf l 11).map fun o => (slice b o 48, bitsAt b (o + 0x30) 4 1 0) }

/-- Whether the reserved bits of the PATCH entries are 0 (R120). -/
def patchLayoutOk (b : Bytes) : Bool :=
  (entriesOf (sectionsOf b) 4).all fun o => bitsAt b o 8 39 36 == 0 && bitsAt b o 8 47 46 == 0 && bitsAt b o 8 63 56 == 0

/-! ### Steps 1 to 5 (R126) -/

/-- Whether a committed set that a region is bound to has the region's size and domain (R122). -/
def boundOk (s : State) (p : Plan) (r : Region) : Bool :=
  r.init != 2 ||
    (match p.bindings[r.source]? with
     | some (d, k) =>
       (match s.sets.find? (fun e => e.1 == d && e.2.kind == k) with
        | some e => r.size == (e.2.payload + 4095) / 4096 * 4096 && r.domain == e.2.domain
        | none => true)
     | none => false)

/-- Step 1. -/
def layoutCheck (s : State) (b : Bytes) (size : Nat) : Nat :=
  if ¬ headerOk b size then 0x0101
  else
    let l := sectionsOf b
    if ¬ ((l.zip (List.range l.length)).all (sectionOk b) && disjointOk l && countsOk l && entriesOk b l) then 0x0102
    else if ¬ (parsePlan b).regions.all (fun e => boundOk s (parsePlan b) e.2) then 0x0102
    else 0

/-- Step 2: the signature against the enrolled key named by KEY_INDEX (R118). -/
def signatureCheck (s : State) (b : Bytes) (p : Plan) : Nat :=
  match tfind s.tenancy.keys p.keyIndex with
  | some (alg, key) =>
    let sig := slice b (sigOffset b + 8) (sigBytes p.sigAlg)
    if alg = p.sigAlg ∧ Config.verify alg key p.digest sig then 0 else 0x0201
  | none => 0x0201

/-- Enabled engines of a type (R29). -/
def State.enginesOf (s : State) (t : Nat) : Nat := ((List.range 64).filter (fun n => typeOf n == t && s.engineOn n)).length

/-- Step 4: engine counts, and the grid against the fabric map in use (DEDUCED, log 62). -/
def capacityCheck (s : State) (p : Plan) : Nat :=
  if s.enginesOf 1 < p.mUsed ∨ s.enginesOf 2 < p.vUsed ∨ s.enginesOf 5 < p.wUsed ∨ (s.isLX ∧ 0 < p.wUsed) then 0x0401
  else if 1 < p.gridSize ∧ ¬ (s.tableOf tblFabric).active.any (fun e =>
      decide (p.gridSize ≤ e.1 + 1) && mapEntry (e.2.toNat % 2 ^ 32)) then 0x0403
  else 0

/-- Physical engines of each type (R27, R121). -/
def typeCounts : List (Nat × Nat) := [(1, 12), (2, 24), (3, 8), (4, 4), (5, 4), (6, 8), (7, 2), (8, 1), (9, 1)]

/-- Step 5: the movement declaration, SELF_VPKG, and the movement map as it stands. -/
def movementCheck (s : State) (p : Plan) : Nat :=
  let types := p.moves.map (·.1)
  let used (t : Nat) : Nat := (p.moves.filter (fun m => m.1 == t && m.2)).length
  if ¬ typeCounts.all (fun t => types.count t.1 == t.2) ∨ used 1 ≠ p.mUsed ∨ used 2 ≠ p.vUsed ∨ used 5 ≠ p.wUsed
      ∨ ¬ p.serves.any (fun r => decide (r.1 ≤ s.selfVpkg ∧ s.selfVpkg ≤ r.2)) then 0x0106
  else if (s.latchMap p.moves).isNone then 0x0671
  else 0

/-! ### Step 7: hardware limits (R83, R101, R123, R124, R445) -/

/-- Queues, largest depth, and arrival buffer in bytes of a type (R101). -/
def queueLimits (t : Nat) : Nat × Nat × Nat :=
  match t with
  | 6 => (8, 64, 1048576)
  | 5 => (4, 32, 262144)
  | 7 => (16, 128, 524288)
  | 8 => (4, 64, 262144)
  | _ => (0, 0, 0)

/-- Whether the extents keep R83. -/
def extentsOk (p : Plan) : Bool :=
  p.extents.all (fun e =>
      decide (e.first ≤ e.last) && (e.cls != 0 || decide (e.last ≤ 6291200))
        && (e.cls != 1 || (p.moves.getD e.vm (0, false)).1 == 1)
        && decide ((p.extents.filter (fun x => x.cls == e.cls && x.vm == e.vm)).length
            ≤ (if e.cls = 0 then 8 else if e.cls = 1 then 4 else 16)))

/-- Whether the queues keep R101. -/
def queuesOk (p : Plan) : Bool :=
  p.queues.all fun e =>
    let v := e.1 / 16
    let lim := queueLimits (p.moves.getD v (0, false)).1
    decide (e.1 % 16 < lim.1) && decide (e.2.1 ≤ lim.2.1)
      && decide (((p.queues.filter (fun x => x.1 / 16 == v)).map (·.2.2)).sum ≤ lim.2.2)

/-- Whether a buffer of rows lies in the flow extents of a link die (R123); the addresses are those of R82. -/
def bufferIn (p : Plan) (die a b : Nat) : Bool :=
  a % 256 == 0 && b % 256 == 0 && decide (a ≤ b) && a / 2 ^ 23 == die && b / 2 ^ 23 == die
    && (List.range ((b - a) / 256 + 1)).all fun i =>
        let o := a % 2 ^ 23 + 256 * i
        p.extents.any (fun e => e.cls == 2 && e.vm == die && decide (e.first ≤ o ∧ o ≤ e.last))

/-- Whether a flow keeps R123 and R445. -/
def flowLimitOk (p : Plan) (k : Nat) (f : Flow) : Bool :=
  let die := k / 16384
  let size := f.srcLast - f.srcFirst + 256
  bufferIn p die f.srcFirst f.srcLast && bufferIn p die f.hopFirst f.hopLast && decide (size ≤ 4194304)
    && decide (f.hops * size ≤ f.hopLast - f.hopFirst + 256)

/-- Whether a wheel keeps R124: 128 loose slots, and each flow on a port of its dimension, direction and die. -/
def wheelLimitOk (s : State) (p : Plan) (k : Nat) (ws : List W16) : Bool :=
  let dim := fieldNat k 1 0
  let dir := fieldNat k 2 2
  decide (128 ≤ (ws.filter (fun w => w.getLsbD 15)).length)
    && (match s.portAt dim dir (k / 8) with
        | some pt => ws.all fun w =>
            w.getLsbD 15 || (match tfind p.flows (16384 * (pt / 10) + fieldNat w.toNat 13 0) with
              | some f => f.dim == dim && natOfBool f.dir == dir
              | none => false)
        | none => ws.all (fun w => w.getLsbD 15))

/-- Step 7. -/
def limitCheck (s : State) (p : Plan) : Nat :=
  if ¬ (extentsOk p && queuesOk p && p.flows.all (fun e => flowLimitOk p e.1 e.2)
      && p.wheels.all (fun e => wheelLimitOk s p e.1 e.2)) then 0x0105
  else if ¬ p.flows.all (fun e => match s.dim e.2.dim with | some (_, n) => decide (e.2.hops < n) | none => false) then
    0x0405
  else 0

/-! ### Steps 8 and 9 -/

/-- Step 8: every bound set committed and of its kind; a BASE-ANALOG binding names the installation base (R125, R252). -/
def bindingCheck (s : State) (p : Plan) : Nat :=
  (p.bindings.map fun e =>
      if e.2 = 1 then (if s.baseDigest = some e.1 then 0 else 0x0602)
      else if s.sets.any (fun x => x.1 == e.1 && x.2.kind == e.2) then 0 else 0x0601).find? (· != 0) |>.getD 0

/-- Virtual S ordinal `k`'s stack under a latched map (R284). -/
def stackOfS (moves : List (Nat × Bool)) (map : List Nat) (k : Nat) : Nat :=
  ordinalIn gridTypes (map.getD (nthOfType (moves.map (·.1)) 6 k) 0)

/-- The stack of each block of a region (R284), empty for one bound to a set. -/
def regionStacks (p : Plan) (map : List Nat) (r : Region) : List Nat :=
  if r.init = 2 then []
  else (List.range (r.size / 4096)).map fun m => stackOfS p.moves map (if r.stack = 15 then m % 8 else r.stack)

/-- Blocks of 512 bytes of a CODE section, each section beginning at one (DESIGN CHOICE, log 73). -/
def streamPieces (ws : List W128) : Nat := (ws.length + 31) / 32

/-- Blocks of 512 bytes of all the code. -/
def codePieces (p : Plan) : Nat := (p.code.map (fun e => streamPieces e.2)).sum

/-- The stack of each 4 KiB block the code takes, by stack (R127). -/
def codeStacks (p : Plan) : List Nat :=
  let n := codePieces p
  (List.range 8).flatMap fun st => List.replicate (((n + 7 - st) / 8 + 7) / 8) st

/-- Blocks that a plan's regions take of a domain. -/
def domainBlocks (p : Plan) (d : Nat) : Nat :=
  ((p.regions.filter (fun e => e.2.domain == d && e.2.init != 2)).map (fun e => e.2.size / 4096)).sum

/-- Domains that a plan's own regions lie in. -/
def planDomains (p : Plan) : List Nat := ((p.regions.filter (fun e => e.2.init != 2)).map (·.2.domain)).dedup

/-- Step 9: the slot, the quotas, the room (R132, R292). -/
def spaceCheck (s : State) (p : Plan) (map : List Nat) (slot : Nat) : Nat :=
  if s.slotOf slot ≠ .empty then 0x0701
  else if ¬ (planDomains p).all (fun d => s.quotaOk d (domainBlocks p d)) then 0x0501
  else if ¬ s.room (codeStacks p ++ p.regions.flatMap (fun e => regionStacks p map e.2)) then 0x0402
  else 0

/-- The first check that does not pass, of a list in order. -/
def firstFail (l : List (Unit → Nat)) : Nat :=
  match l with
  | [] => 0
  | f :: t => if f () ≠ 0 then f () else firstFail t

/-- The detail of the load checks of R126, in order; 0 when all pass. -/
def planCheck (s : State) (b : Bytes) (size slot : Nat) : Nat :=
  let p := parsePlan b
  firstFail
    [fun _ => layoutCheck s b size, fun _ => signatureCheck s b p, fun _ => if s.level < p.ownLevel then 0x0301 else 0,
     fun _ => capacityCheck s p, fun _ => movementCheck s p,
     fun _ => if streamsCheck p ≠ 0 then streamsCheck p else if patchLayoutOk b then 0 else 0x0104,
     fun _ => limitCheck s p, fun _ => bindingCheck s p,
     fun _ => spaceCheck s p ((s.latchMap p.moves).getD []) slot]

end Sys2Proof.Machine
end

