-- ==== Sys2Proof/Machine/Loader.lean ====
section
/-!
DEFINITION. The loader's commands on plans (R115, R126, R127, R132, R133, R284, R285): PLAN_LOAD, PLAN_LOAD_DONE,
PLAN_UNLOAD and PLAN_UNLOAD_DONE.
-/

namespace Sys2Proof.Machine

/-! ### Placing a plan (R127, R284) -/

/-- The plan-region address of each CODE section (R127; log 73). -/
def codeBases (code : Tbl (List W128)) : Tbl Nat :=
  (code.foldl (fun (r : Tbl Nat × Nat) e => (tput e.1 r.2 r.1, r.2 + 512 * streamPieces e.2)) ([], 0)).1

/-- The blocks of a committed set. -/
def State.setBlocks (s : State) (d : Bytes) : List (Nat × Nat) :=
  match s.sets.find? (fun e => e.1 == d) with
  | some e => e.2.blocks
  | none => []

/-- Place one region (R284): contiguously on the stack it names, or striped; its blocks are reserved and charged to its domain; one bound to a set uses the set's blocks. -/
def placeRegion (p : Plan) (map : List Nat) (x : State × Tbl Region) (e : Nat × Region) : State × Tbl Region :=
  let r := e.2
  if r.init = 2 then
    (x.1, tput e.1 { r with blocks := x.1.setBlocks (p.bindings.getD r.source ([], 0)).1 } x.2)
  else
    let sts := regionStacks p map r
    let t := if r.stack = 15 then takeBlocks x.1 sts else takeRun x.1 (sts.headD 0) sts.length
    let s := if r.size = 0 then t.1 else reserveDomain t.1 r.domain (r.size / 4096)
    (s, tput e.1 { r with blocks := t.2 } x.2)

/-- A flow's addresses within its link die (R82). -/
def Flow.inDie (f : Flow) : Flow :=
  { f with srcFirst := f.srcFirst % 2 ^ 23, srcLast := f.srcLast % 2 ^ 23, hopFirst := f.hopFirst % 2 ^ 23
           hopLast := f.hopLast % 2 ^ 23 }

/-- Reserve everything a plan takes, in the slot named. -/
def reservePlan (s : State) (acc slot : Nat) (p : Plan) (map : List Nat) : State :=
  let t := takeBlocks s (codeStacks p)
  let s := reserveDomain t.1 0 t.2.length
  let r := p.regions.foldl (placeRegion p map) (s, [])
  r.1.setSlot slot (.loading acc { p with
    codeBase := codeBases p.code, codeBlocks := t.2, regions := r.2, flows := p.flows.map (fun e => (e.1, e.2.inDie)) })

/-- The data units of a string of bytes, `n` of them. -/
def unitsOf (n : Nat) (b : Bytes) : List Bytes := (List.range n).map (fun i => slice b (256 * i) 256)

/-- The bytes of op words. -/
def wordBytes (ws : List W128) : Bytes := ws.flatMap (fun w => leBytes 16 w.toNat)

/-- Stack and unit that hold unit `i` of a plan's code: its piece j of 512 bytes lies on stack j mod 8 (R127). -/
def Plan.codeUnit (p : Plan) (i : Nat) : Nat × Nat :=
  let j := i / 2
  let k := j / 8
  let b := (p.codeBlocks.filter (fun b => b.1 == j % 8)).getD (k / 8) (0, 0)
  (b.1, 16 * b.2 + 2 * (k % 8) + i % 2)

/-- Write a plan's code into its blocks (R127). -/
def writeCode (s : State) (p : Plan) : State :=
  let units := (p.code.flatMap fun e => unitsOf (2 * streamPieces e.2) (wordBytes e.2))
  (indexed units).foldl (fun s e =>
    let u := p.codeUnit e.1
    writeUnit s u.1 u.2 0 e.2) s

/-- Write a region's initial contents (R122, R285). -/
def fillRegion (p : Plan) (s : State) (r : Region) : State :=
  let n := r.size / 256
  if r.init = 0 then writeRun s r.blocks r.domain 0 (List.replicate n (zeros 256))
  else if r.init = 1 then writeRun s r.blocks r.domain 0 (unitsOf n (p.data.drop r.source))
  else s

/-- Give back what a plan holds. -/
def releasePlan (s : State) (p : Plan) : State :=
  let s := freeBlocks (releaseDomain s 0 p.codeBlocks.length) p.codeBlocks
  p.regions.foldl (fun s e =>
    if e.2.init = 2 then s else freeBlocks (releaseDomain s e.2.domain (e.2.size / 4096)) e.2.blocks) s

/-! ### PLAN_LOAD -/

/-- PLAN_LOAD on the image read (R126, R132); while a domain of its regions is RETIRING it waits (R291). -/
def planLoadEff (acc slot size : Nat) (b : Bytes) (s : State) : Res :=
  let p := parsePlan b
  let c := planCheck s b size slot
  if c ≠ 0 then .next (refuse s acc c)
  else if s.retiring (planDomains p) then .next s
  else .next (begin_ (reservePlan s acc slot p ((s.latchMap p.moves).getD [])) acc)

/-- PLAN_LOAD (R126): its checks, and the reservation of what the plan takes. -/
def execPlanLoad (acc : Nat) (image : HostData) (s : State) : Res :=
  serve s acc 0x02 fun a =>
    match image with
    | .ok b => planLoadEff acc (a.bits 8 4 5 0) (a.fld 0x18 8) b s
    | h => .next (hostFail s acc h)

/-- A number made of the first 8 bytes of a digest, as a result field carries them (R358). -/
def digest8 (d : Bytes) : Nat := leNat (d.take 8)

/-- PLAN_LOAD_DONE's effect (R115): code and regions written, the slot resident, the completion. -/
def planLoadDoneEff (slot acc : Nat) (p : Plan) (s : State) : State :=
  let s := p.regions.foldl (fun s e => fillRegion p s e.2) (writeCode s p)
  complete (checkDigest (s.setSlot slot (.resident { p with data := [] })) acc p.digest) acc 0 0 { r0 := digest8 p.digest }

/-- PLAN_LOAD_DONE (R115). -/
def execPlanLoadDone (slot : Fin 64) (s : State) : Res :=
  match s.slotOf slot with
  | .loading acc p => .next (planLoadDoneEff slot acc p s)
  | _ => .next s

/-! ### PLAN_UNLOAD -/

/-- PLAN_UNLOAD's effect (R133, R144): a slot whose load is in progress is BUSY (DEDUCED, log 73). -/
def planUnloadEff (acc slot : Nat) (s : State) : State :=
  match s.slotOf slot with
  | .resident p => begin_ (s.setSlot slot (.unloading acc p)) acc
  | .loading _ _ => refuse s acc 0x0701
  | _ => refuse s acc 0x0601

/-- PLAN_UNLOAD (R133). -/
def execPlanUnload (acc : Nat) (s : State) : Res :=
  serve s acc 0x03 fun a => .next (planUnloadEff acc (a.bits 8 4 5 0) s)

/-- Whether a step of a slot accepted before `acc` has not completed. -/
def State.stepsBefore (s : State) (acc slot : Nat) : Bool :=
  s.intake.acc.any fun e => decide (e.1 < acc) && e.2.kind == 0x01 && e.2.bits 8 4 5 0 == slot

/-- Entries of the cadence table that name a slot with STEPS 1 (R133). -/
def State.entriesNaming (s : State) (slot : Nat) : List Nat :=
  (List.range 1024).filter fun i => (s.lookWindow i).slot == some slot

/-- PLAN_UNLOAD_DONE's effect (R133). -/
def planUnloadDoneEff (slot acc : Nat) (p : Plan) (s : State) : State :=
  let s := (releasePlan s p).setSlot slot .empty
  let s := { s with cad := { s.cad with emptied := s.cad.emptied ++ s.entriesNaming slot } }
  complete s acc 0 0

/-- PLAN_UNLOAD_DONE (R133): once every step of the plan accepted before has completed. -/
def execPlanUnloadDone (slot : Fin 64) (s : State) : Res :=
  match s.slotOf slot with
  | .unloading acc p => act (s.stepsBefore acc slot = false) (planUnloadDoneEff slot acc p s) s
  | _ => .next s

end Sys2Proof.Machine
end

