-- ==== Sys2Proof/Machine/WeightSets.lean ====
section
/-!
DEFINITION. Weight-set loads and the relay (R134 to R144, R253 to R258, R502 to R505): WEIGHT_LOAD, MANIFEST_FRAGMENT,
CHUNK_FRAGMENT, RELAY_REFUSED, CHUNK_REQUEST, WEIGHT_UNLOAD and INSTALL_PHASE_END.
-/

namespace Sys2Proof.Machine

/-! ### The manifest (R135) -/

/-- Bytes of a manifest with its signature block; the first 256 bytes and the block's first word must be there. -/
def manifestSize (m : Bytes) : Nat := fieldAt m 0x60 8 + 8 + fieldAt m (fieldAt m 0x60 8) 2

/-- Bytes of a binding entry (R503). -/
def bindBytes (kind : Nat) : Nat := if kind = 1 then 1680 else 80

/-- Whether the first 256 bytes of a manifest keep R135. -/
def manifestHeadOk (m : Bytes) : Bool :=
  let kind := bitsAt m 4 4 17 16
  let size := fieldAt m 8 8
  let chunks := fieldAt m 0x10 4
  let dom := bitsAt m 0x14 4 12 0
  let bk := fieldAt m 0x49 1
  let bc := fieldAt m 0x4A 2
  let bo := fieldAt m 0x50 8
  let co := fieldAt m 0x58 8
  let so := fieldAt m 0x60 8
  fieldAt m 0 4 == 0x46545357 && fieldAt m 4 2 == 1 && kind != 0 && bitsAt m 4 4 31 18 == 0 && size != 0
    && chunks == (size + 1048575) / 1048576 && bitsAt m 0x14 4 31 13 == 0 && ((kind == 3) == (dom != 0))
    && (kind == 3 || zeroFrom m 0x18 0x47) && (fieldAt m 0x48 1 == 1 || fieldAt m 0x48 1 == 2) && (bk == 1 || bk == 2)
    && decide (1 ≤ bc ∧ bc ≤ 4096) && zeroFrom m 0x4C 0x4F && zeroFrom m 0x68 0xFF
    && decide (256 ≤ bo ∧ bo + bindBytes bk * bc ≤ so ∧ 256 ≤ co ∧ co + 64 * chunks ≤ so)
    && decide (bo + bindBytes bk * bc ≤ co ∨ co + 64 * chunks ≤ bo)

/-- Whether a whole manifest keeps R135 and R503: its reserved bytes, its tables, its signature block. -/
def manifestOk (m : Bytes) : Bool :=
  let bk := fieldAt m 0x49 1
  let bo := fieldAt m 0x50 8
  let co := fieldAt m 0x58 8
  manifestHeadOk m
    && (List.range (fieldAt m 0x4A 2)).all (fun i =>
      let o := bo + bindBytes bk * i
      if bk = 1 then zeroFrom m (o + 0x68C) (o + 0x68F) else zeroFrom m (o + 4) (o + 0xF) && zeroFrom m (o + 0x4C) (o + 0x4F))
    && (List.range (fieldAt m 0x10 4)).all (fun i => zeroFrom m (co + 64 * i + 0x3C) (co + 64 * i + 0x3F))
    && sigBlockOk m (fieldAt m 0x60 8) (fieldAt m 0x48 1)

/-- The set digest (R135). -/
def setDigest (m : Bytes) : Bytes := Config.sha384 (m.take (fieldAt m 0x60 8))

/-- The chunk table (R135). -/
def chunkTable (m : Bytes) : List ChunkEnt :=
  (List.range (fieldAt m 0x10 4)).map fun i =>
    let o := fieldAt m 0x58 8 + 64 * i
    { digest := slice m o 48, iv := slice m (o + 0x30) 12 }

/-! ### Trust (R502, R503, R505) -/

/-- Whether some enrolled key of the manifest's algorithm verifies its signature (R502). -/
def manifestSigned (s : State) (m : Bytes) : Bool :=
  let alg := fieldAt m 0x48 1
  let sig := slice m (fieldAt m 0x60 8 + 8) (sigBytes alg)
  s.tenancy.keys.any fun e => e.2.1 == alg && Config.verify alg e.2.2 (setDigest m) sig

/-- Whether binding entry `i` names this device or an enrolled group (R503). -/
def bindNames (s : State) (m : Bytes) (i : Nat) : Bool :=
  let o := fieldAt m 0x50 8 + bindBytes (fieldAt m 0x49 1) * i
  if fieldAt m 0x49 1 = 1 then slice m o 48 == s.fuses.deviceId else (tfind s.tenancy.groups (fieldAt m o 4)).isSome

/-- The content key of binding entry `i` (R492, R503), none where the unwrap fails. -/
def bindKey (s : State) (m : Bytes) (i : Nat) : Option Bytes :=
  let o := fieldAt m 0x50 8 + bindBytes (fieldAt m 0x49 1) * i
  let aad := m.take 0x48
  if fieldAt m 0x49 1 = 1 then
    (Config.kemDecap (slice m (o + 0x30) 1568)).bind fun k =>
      Config.gcmOpen k (slice m (o + 0x650) 12) aad (slice m (o + 0x65C) 32) (slice m (o + 0x67C) 16)
  else
    (tfind s.tenancy.groups (fieldAt m o 4)).bind fun k =>
      Config.gcmOpen k (slice m (o + 0x10) 12) aad (slice m (o + 0x1C) 32) (slice m (o + 0x3C) 16)

/-- The content key of a manifest, or the detail with which its binding refuses it (R503). -/
def contentKey (s : State) (m : Bytes) : Except Nat Bytes :=
  match (List.range (fieldAt m 0x4A 2)).find? (bindNames s m) with
  | none => .error 0x0212
  | some i => match bindKey s m i with | some k => .ok k | none => .error 0x0215

/-- Whether an installation authority block allows a set here (R505). -/
def authorityOk (s : State) (digest : Bytes) (b : Option Bytes) : Bool :=
  match b with
  | none => false
  | some x =>
    fieldAt x 0 4 == 0x41554941 && bitsAt x 4 4 31 2 == 0 && slice x 8 48 == digest && slice x 0x38 48 == s.fuses.deviceId
      && fieldAt x 0x68 4 == s.installCount + 1 && fieldAt x 0x6C 4 == 0
      && s.boot.owned && (match (s.tbl.owner.map (·.authKeys)).bind (fun ks => (ks.getD (bitsAt x 4 4 1 0) none)) with
          | some key => Config.verify 1 key (Config.sha384 (x.take 0x70)) (slice x 0x70 4627)
          | none => false)

/-! ### Acceptance (R137, R142, R143, R253) -/

/-- 4 KiB blocks of a set and its manifest (R137). -/
def setBlockCount (payload manifest : Nat) : Nat := (payload + 4095) / 4096 + (manifest + 4095) / 4096

/-- BASE-ANALOG's own refusals, in the order of R253; a die in INIT, CALIBRATING or PROGRAMMING makes the load BUSY (DESIGN
CHOICE, log 74). -/
def analogRefusal (s : State) (m : Bytes) (authority : Option Bytes) : Nat :=
  if ¬ authorityOk s (setDigest m) authority then 0x0214
  else if s.isLX then 0x0401
  else if s.tenancy.kind = 1 ∨ (List.range 4).any (fun d => [1, 2, 4].contains (s.awOf d).state) then 0x0711
  else if fieldAt m 8 8 ≠ 34896609280 then 0x0111
  else 0

/-- Whether a set is committed already (R143). -/
def State.hasSet (s : State) (d : Bytes) : Bool := s.sets.any (fun e => e.1 == d)

/-- Refusals of a BASE or ADDITION (R142, R143, R494). -/
def storedRefusal (s : State) (m : Bytes) : Nat :=
  let kind := bitsAt m 4 4 17 16
  let dom := bitsAt m 0x14 4 12 0
  let n := setBlockCount (fieldAt m 8 8) m.length
  let again := s.hasSet (setDigest m)
  if s.tenancy.kind = 2 then 0x0642
  else if kind = 3 ∧ ¬ s.sets.any (fun e => e.1 == slice m 0x18 48 && e.2.kind == 2) then 0x0611
  else if again then 0
  else if ¬ s.quotaOk dom n then 0x0511
  else if ¬ s.room ((List.range n).map (· % 8)) then 0x0402
  else if 65536 ≤ s.sets.length then 0x0404
  else 0

/-- The detail that refuses a whole manifest, 0 when it is accepted. -/
def manifestRefusal (s : State) (m : Bytes) (authority : Option Bytes) : Nat :=
  if ¬ manifestOk m then 0x0111
  else if ¬ manifestSigned s m then 0x0211
  else match contentKey s m with
    | .error d => d
    | .ok _ => if bitsAt m 4 4 17 16 = 1 then analogRefusal s m authority else storedRefusal s m

/-! ### Relay messages (R138 to R140) -/

/-- Pieces of 480 bytes with their offsets (R140). -/
def fragments (b : Bytes) : List (Nat × Bytes) :=
  (List.range ((b.length + 479) / 480)).map fun i => (480 * i, (b.drop (480 * i)).take 480)

/-- Send one relay packet (R140). -/
def sendRelay (s : State) (dest : W16) (kind index offset detail : Nat) (set : W64) (payload : Bytes) : State :=
  sendLoose s 3 dest 0 (leBytes 4 kind ++ leBytes 4 index ++ leBytes 4 offset ++ leBytes 4 detail ++ leBytes 8 set.toNat
    ++ zeros 8 ++ payload)

/-- Send a manifest or a chunk record to an address, in fragments. -/
def sendObject (s : State) (dest : W16) (kind index : Nat) (set : W64) (b : Bytes) : State :=
  (fragments b).foldl (fun s f => sendRelay s dest kind index f.1 0 set f.2) s

/-- Addresses that still take the set. -/
def SetLoad.takers (l : SetLoad) : List W16 := (l.down.filter (·.2)).map (·.1)

/-- Send RELAY_REFUSED to addresses (R138). -/
def sendRefused (s : State) (l : SetLoad) (detail : Nat) (dests : List W16) : State :=
  dests.foldl (fun s a => sendRelay s a 3 0 0 detail (l.set.getD 0) []) s

/-- The loads with one replaced. -/
def putLoad (s : State) (l : SetLoad) : State :=
  { s with loads := s.loads.map (fun x => if x.acc = l.acc then l else x) }

/-- The loads without one. -/
def dropLoad (s : State) (l : SetLoad) : State := { s with loads := s.loads.filter (fun x => x.acc != l.acc) }

/-! ### The end of a load (R115, R141, R255, R358) -/

/-- The result fields of a WEIGHT_LOAD (R358). -/
def SetLoad.results (l : SetLoad) : Results :=
  { r0 := (l.set.getD 0).toNat, r1 := l.stored.length
    r2 := l.refusals.foldl (fun m e => m ||| 2 ^ e.1) 0
    r3 := (((List.range 4).filterMap (fun i => tfind l.refusals i)).head?).getD 0 }

/-- A die whose installation did not complete (R251, R255): one that is being programmed, or has been programmed with a set
that did not commit, is UNPROGRAMMED. -/
def AwDieSt.abandon (a : AwDieSt) : AwDieSt :=
  if a.state = 4 ∨ (a.state = 3 ∧ a.committed = false) then
    { a with state := 5, phase := 0, programming := [], programmed := [], failed := [], toCalibrate := [] }
  else a

/-- Apply a function to the four analogue dies. -/
def State.eachAw (s : State) (f : AwDieSt → AwDieSt) : State :=
  (List.range 4).foldl (fun s d => s.setAw d (f (s.awOf d))) s

/-- Release a load's reservation. -/
def giveBack (s : State) (l : SetLoad) : State :=
  if l.blocks.isEmpty then s else freeBlocks (releaseDomain s l.domain l.blocks.length) l.blocks

/-- Count a committed set once less; the last count frees its space (R143). -/
def uncountSet (s : State) (d : Bytes) : State :=
  match s.sets.find? (fun e => e.1 == d) with
  | none => s
  | some e =>
    if 1 < e.2.count then
      { s with sets := s.sets.map (fun x => if x.1 = d then (x.1, { x.2 with count := x.2.count - 1 }) else x) }
    else
      let s := freeBlocks (releaseDomain s e.2.domain e.2.blocks.length) e.2.blocks
      { s with sets := s.sets.filter (fun x => x.1 != d) }

/-- Count a committed set once more (R143). -/
def countSet (s : State) (d : Bytes) : State :=
  { s with sets := s.sets.map (fun e => if e.1 = d then (e.1, { e.2 with count := e.2.count + 1 }) else e) }

/-- End a load without commit: its reservation released, or the count it took of a set committed before given back, the dies
UNPROGRAMMED, the completion (R115, R255). -/
def endLoad (s : State) (l : SetLoad) (detail : Nat) : State :=
  let s := giveBack (dropLoad s l) l
  let s := if l.again then uncountSet s l.digest else s
  let s := if l.accepted ∧ l.kind = 1 then s.eachAw AwDieSt.abandon else s
  complete s l.acc (detail / 256) detail l.results

/-- End a load and tell the downstream addresses (R138, R139). -/
def failLoad (s : State) (l : SetLoad) (detail : Nat) : State := sendRefused (endLoad s l detail) l detail (l.down.map (·.1))

/-- Refuse a manifest: the notice goes upstream too (R138). -/
def refuseLoad (s : State) (l : SetLoad) (detail : Nat) : State :=
  sendRefused (failLoad s l detail) l detail l.upstream.toList

/-- Commit a BASE or ADDITION (R134, R141, R143). A load of a set that was committed at its acceptance has counted it already; a
set that another load has committed since is counted once more, and this load's space given back; a set beyond the 65,536
ends the load (DESIGN CHOICE, log 144). -/
def commitSet (s : State) (l : SetLoad) : State :=
  if l.again then complete (dropLoad s l) l.acc 0 0 l.results
  else if s.hasSet l.digest then complete (countSet (giveBack (dropLoad s l) l) l.digest) l.acc 0 0 l.results
  else if 65536 ≤ s.sets.length then failLoad s l 0x0404
  else
    let set : WeightSet := { kind := l.kind, domain := l.domain, payload := l.payload, base := l.base, count := 1
                             blocks := l.blocks }
    complete { dropLoad s l with sets := s.sets ++ [(l.digest, set)] } l.acc 0 0 l.results

/-! ### Chunks (R136, R139, R254) -/

/-- Plaintext bytes of a chunk (R135). -/
def SetLoad.chunkLen (l : SetLoad) (i : Nat) : Nat := min 1048576 (l.payload - 1048576 * i)

/-- Key of a chunk's fragments. -/
def partKey (i o : Nat) : Nat := i * 2097152 + o

/-- Join fragments that follow one another from offset 0. -/
def joinParts (l : List (Nat × Bytes)) : Bytes :=
  l.foldl (fun acc e => if e.1 ≤ acc.length then acc.take e.1 ++ e.2 else acc) []

/-- What has come of a chunk record, from its start. -/
def SetLoad.record (l : SetLoad) (i : Nat) : Bytes :=
  (joinParts ((l.parts.filter (fun e => e.1 / 2097152 == i)).map (fun e => (e.1 % 2097152, e.2)))).take (l.chunkLen i + 32)

/-- The plaintext of a chunk record that passes R136. -/
def openChunk (l : SetLoad) (i : Nat) (rec : Bytes) : Option Bytes :=
  let head := rec.take 16
  let n := l.chunkLen i
  match l.chunks[i]? with
  | none => none
  | some c =>
    if head = leBytes 8 (l.set.getD 0).toNat ++ leBytes 4 i ++ zeros 4 then
      match Config.gcmOpen l.key c.iv head (slice rec 16 n) (slice rec (16 + n) 16) with
      | some p => if Config.sha384 p = c.digest then some p else none
      | none => none
    else none

/-- Eight bytes of BASE-ANALOG content at offset `o` of a die's part put into the die (R224, R254). -/
def putAnalog (a : AwDieSt) (o v : Nat) : AwDieSt :=
  let l := o / 66560
  let r := o % 66560
  if r < 65536 then
    let k := 8192 * l + r / 8
    { a with shadow := tset 0 a.shadow k (BitVec.ofNat 64 v), shadowBad := a.shadowBad.filter (· != k)
             shadowWeak := a.shadowWeak.filter (· != k) }
  else
    let c := (r - 65536) / 4
    { a with scales := tset 0 (tset 0 a.scales (256 * l + c) (BitVec.ofNat 32 v)) (256 * l + c + 1)
                         (BitVec.ofNat 32 (v / 2 ^ 32)) }

/-- Whether eight bytes of BASE-ANALOG content are allowed: no weight code 0b1000, no scale that is not finite (R254). -/
def analogOk (o v : Nat) : Bool :=
  if o % 66560 < 65536 then (List.range 16).all (fun i => v / 16 ^ i % 16 != 8)
  else fieldNat v 30 23 != 255 && fieldNat v 62 55 != 255

/-- A chunk's words with their offsets in a die's part: 8,320 chunks a die (R254). -/
def analogWords (i : Nat) (p : Bytes) : List (Nat × Nat) :=
  (List.range (p.length / 8)).map fun k => (i % 8320 * 1048576 + 8 * k, fieldAt p (8 * k) 8)

/-- Store a verified chunk's content; a set that is only counted once more needs no store (R143). -/
def storeContent (s : State) (l : SetLoad) (i : Nat) (p : Bytes) : State :=
  if l.kind = 1 then
    let d := i / 8320
    s.setAw d ((analogWords i p).foldl (fun a e => putAnalog a e.1 e.2) (s.awOf d))
  else if l.again then s
  else writeRun s l.blocks l.domain (4096 * i) (unitsOf ((p.length + 255) / 256) p)

/-- A chunk that passed: stored, forwarded, requests for it answered, and the set committed with the last (R136, R140,
R141); a BASE-ANALOG set commits when the dies are READY (R257). -/
def chunkStored (s : State) (l : SetLoad) (i : Nat) (rec p : Bytes) : State :=
  if l.kind = 1 ∧ ¬ (analogWords i p).all (fun e => analogOk e.1 e.2) then failLoad s l 0x0111
  else
    let l' := { l with stored := l.stored ++ [i], parts := tput (partKey i 0) rec (l.parts.filter (fun e => e.1 / 2097152 != i))
                       wanted := l.wanted.filter (fun w => w.2 != i) }
    let s := putLoad (storeContent s l i p) l'
    let dests := l.takers ++ (l.wanted.filter (fun w => w.2 == i)).map (·.1)
    let s := dests.foldl (fun s a => sendObject s a 2 i (l.set.getD 0) rec) s
    if l.kind ≠ 1 ∧ l'.stored.length = l.chunks.length then commitSet s l' else s

/-- Ask upstream for a chunk again (R139): a CHUNK_REQUEST, or a read of the host's record. -/
def askChunk (s : State) (l : SetLoad) (i : Nat) : State :=
  match l.upstream with
  | some u => sendRelay s u 4 i 0 0 (l.set.getD 0) []
  | none =>
    match tfind s.intake.acc l.acc with
    | some a => s.emit (.hostRead a.fn (BitVec.ofNat 64 (a.fld 0x28 8 + 1048608 * i)) (l.chunkLen i + 32))
    | none => s

/-- A chunk that failed R136: asked for again at most three times (R139). -/
def chunkFailed (s : State) (l : SetLoad) (i : Nat) : State :=
  let n := tget 0 l.fails i + 1
  if n = 4 then failLoad s l 0x0213
  else askChunk (putLoad s { l with fails := tput i n l.fails, parts := l.parts.filter (fun e => e.1 / 2097152 != i) }) l i

/-- Take up chunk `i` once its record is whole and its load has been accepted. -/
def tryChunk (s : State) (acc i : Nat) : State :=
  match s.loads.find? (fun l => l.acc == acc) with
  | some l =>
    let rec_ := l.record i
    if l.accepted ∧ ¬ l.stored.contains i ∧ i < l.chunks.length ∧ rec_.length = l.chunkLen i + 32 then
      match openChunk l i rec_ with
      | some p => chunkStored s l i rec_ p
      | none => chunkFailed s l i
    else s
  | none => s

/-! ### Manifests -/

/-- A die that begins an installation (R251, R255, R257, R258): its cells and reference columns erased and its former content
gone, its pane map that of R222; program counts, retired panes, panes that wait for a spare in vain and their groups'
degradation (R274) and self-tests asked for are kept. A working pane that waits for a spare gets one in phase 5; a spare that
waits for one is retired. -/
def AwDieSt.install (a : AwDieSt) : AwDieSt :=
  if a.state = 3 ∨ a.state = 5 then
    { a with state := 4, phase := 1, map := [], shadow := [], scales := [], shadowBad := [], shadowWeak := [], cells := []
             lost := [], rate := [], since := [], trim := [], refresh := [], programming := [], programmed := []
             tests := tblOf (a.tests.map (fun e => (e.1, ({ causes := e.2.causes } : SelfTest))))
             failed := a.lasting.filter (fun k => decide (k % 68 < 64))
             retired := (a.lasting.filter (fun k => decide (64 ≤ k % 68))).foldl (fun l k => insertNat k l) a.retired
             lasting := [], committed := false }
  else { a with committed := false }

/-- Write a manifest into the blocks that follow a set's payload (R137). -/
def writeManifest (s : State) (blocks : List (Nat × Nat)) (dom payload : Nat) (m : Bytes) : State :=
  writeRun s blocks dom (16 * ((payload + 4095) / 4096)) (unitsOf ((m.length + 255) / 256) m)

/-- Accept a manifest (R137, R142, R143, R255, R505): the reservation, or the count of a set committed already, the dies'
erase, and the forwarding. -/
def acceptManifest (s : State) (l : SetLoad) (m key : Bytes) : State :=
  let kind := bitsAt m 4 4 17 16
  let dom := bitsAt m 0x14 4 12 0
  let payload := fieldAt m 8 8
  let digest := setDigest m
  let again := kind != 1 && s.hasSet digest
  let n := if kind = 1 ∨ again then 0 else setBlockCount payload m.length
  let t := takeBlocks s ((List.range n).map (· % 8))
  let s := if n = 0 then s else writeManifest (reserveDomain t.1 dom n) t.2 dom payload m
  let l := { l with
    set := some (BitVec.ofNat 64 (digest8 digest)), accepted := true, digest := digest, kind := kind
    domain := dom, payload := payload, base := slice m 0x18 48, chunks := chunkTable m, key := key
    blocks := if n = 0 then [] else t.2, again := again, manifest := [] }
  let s := if kind = 1 then { s.eachAw AwDieSt.install with installCount := s.installCount + 1, baseDigest := none
                                                            installed := none } else s
  let s := if again then countSet s digest else s
  let s := checkDigest s l.acc digest
  let s := l.takers.foldl (fun s a => sendObject s a 1 0 (l.set.getD 0) m) (putLoad s l)
  ((l.parts.map (fun e => e.1 / 2097152)).dedup).foldl (fun s i => tryChunk s l.acc i) s

/-- Judge a manifest as far as it has come: refused, waiting for more or for its domain's key to be destroyed (R291), or
accepted. `size` is what the host named. -/
def judgeManifest (s : State) (l : SetLoad) (size : Option Nat) : State :=
  let m := joinParts l.manifest
  if m.length < 256 then (if size.isSome then refuseLoad s l 0x0111 else putLoad s l)
  else if ¬ manifestHeadOk m then refuseLoad s l 0x0111
  else if m.length < fieldAt m 0x60 8 + 8 ∨ m.length < manifestSize m then
    (if size.isSome then refuseLoad s l 0x0111 else putLoad s l)
  else if size.any (fun n => n != manifestSize m) then refuseLoad s l 0x0111
  else
    let m := m.take (manifestSize m)
    let l := { l with set := l.set.or (some (BitVec.ofNat 64 (digest8 (setDigest m)))) }
    let c := manifestRefusal s m l.authority
    if c ≠ 0 then refuseLoad s l c
    else match contentKey s m with
      | .ok k =>
        if bitsAt m 4 4 17 16 ≠ 1 ∧ s.hasSet (setDigest m) = false ∧ s.retiring [bitsAt m 0x14 4 12 0] = true then
          putLoad s { l with size := size }
        else acceptManifest s l m k
      | .error d => refuseLoad s l d

/-- The load a relay message from an address belongs to: the one of the set it names, or one that does not know its set yet,
its manifest having still to come (R138; DEDUCED, log 145). -/
def State.loadFrom (s : State) (src : Option W16) (set : W64) : Option SetLoad :=
  (s.loads.find? (fun l => l.upstream == src && l.set == some set)).or
    (s.loads.find? (fun l => l.upstream == src && l.set == none))

/-- Count a relay message that is discarded (R140). -/
def dropRelay (s : State) : State := { s with fabric := { s.fabric with relayDropped := s.fabric.relayDropped + 1 } }

/-! ### The commands -/

/-- A load begun by a descriptor (R356). -/
def newLoad (acc : Nat) (a : Acc) (authority : Option Bytes) : SetLoad :=
  { acc := acc, upstream := if a.bits 8 4 0 0 = 1 then none else some (BitVec.ofNat 16 (a.fld 0xC 2))
    down := (List.range (a.bits 8 4 3 1)).map fun i => (BitVec.ofNat 16 (a.fld (0x10 + 2 * i) 2), true)
    authority := authority }

/-- WEIGHT_LOAD's effect once the host's data are here: with the host upstream the manifest is judged at once (R137). -/
def weightLoadEff (acc : Nat) (a : Acc) (manifest : Bytes) (authority : Option Bytes) (s : State) : State :=
  let l := newLoad acc a authority
  let s := begin_ { s with loads := s.loads ++ [l] } acc
  if l.upstream.isSome then s
  else judgeManifest s { l with manifest := [(0, manifest)] } (some (a.fld 0x20 8))

/-- WEIGHT_LOAD (R137, R356, R505): the authority block is read where the descriptor names one, the manifest where the
host is upstream. -/
def execWeightLoad (acc : Nat) (manifest authority : HostData) (s : State) : Res :=
  serve s acc 0x04 fun a =>
    let hostUp := a.bits 8 4 0 0 = 1
    let named := a.fld 0x30 8 ≠ 0
    match (if named then authority else .ok []), (if hostUp then manifest else .ok []) with
    | .ok x, .ok m => .next (weightLoadEff acc a m (if named then some x else none) s)
    | .ok _, h => .next (hostFail s acc h)
    | h, _ => .next (hostFail s acc h)

/-- MANIFEST_FRAGMENT (R140): one from another address, or from an upstream without such a load, is discarded and
counted. -/
def execManifestFragment (src : Option W16) (offset : Nat) (set : W64) (data : Bytes) (s : State) : Res :=
  match s.loadFrom src set with
  | some l =>
    if l.accepted then .next s
    else .next (judgeManifest s { l with set := some set, manifest := tput offset data l.manifest } none)
  | none => .next (dropRelay s)

/-- CHUNK_FRAGMENT (R136, R140): a duplicate of a stored chunk is discarded without any report. -/
def execChunkFragment (src : Option W16) (index offset : Nat) (set : W64) (data : Bytes) (s : State) : Res :=
  match s.loadFrom src set with
  | some l =>
    if l.stored.contains index then .next s
    else if offset < 2097152 then
      let l' := { l with set := some set, parts := tput (partKey index offset) data l.parts }
      .next (tryChunk (putLoad s l') l.acc index)
    else .next (dropRelay s)
  | none => .next (dropRelay s)

/-- A notice from a downstream address: the set is forwarded to it no more, and the completion reports it (R138, R140). -/
def downRefused (s : State) (l : SetLoad) (src : W16) (detail : Nat) : State :=
  let i := l.down.findIdx (fun e => e.1 == src)
  putLoad s { l with down := l.down.map (fun e => if e.1 = src then (e.1, false) else e)
                     refusals := tput i detail l.refusals }

/-- RELAY_REFUSED (R138, R140): from upstream it ends the load with RELAY_ABANDONED. -/
def execRelayRefused (src : W16) (set : W64) (detail : W16) (s : State) : Res :=
  match s.loadFrom (some src) set with
  | some l => .next (failLoad s { l with set := some set } 0x0621)
  | none =>
    match s.loads.find? (fun l => l.set == some set && l.down.any (fun e => e.1 == src)) with
    | some l => .next (downRefused s l src detail.toNat)
    | none => .next (dropRelay s)

/-- CHUNK_REQUEST (R140): one from a named downstream address is answered once the chunk is stored here; one from the
upstream is accepted, and R140 gives it no answer. -/
def execChunkRequest (src : W16) (set : W64) (index : Nat) (s : State) : Res :=
  match s.loads.find? (fun l => l.set == some set && (l.down.any (fun e => e.1 == src) || l.upstream == some src)) with
  | some l =>
    if ¬ l.down.any (fun e => e.1 == src) then .next s
    else if l.stored.contains index then .next (sendObject s src 2 index set (l.record index))
    else .next (putLoad s { l with wanted := l.wanted ++ [(src, index)] })
  | none => .next (dropRelay s)

/-! ### WEIGHT_UNLOAD (R143) -/

/-- Plans that a slot holds, is loading or is unloading. -/
def Slot.plan : Slot → Option Plan
  | .empty => none
  | .loading _ p => some p
  | .resident p => some p
  | .unloading _ p => some p

/-- Whether a set is in use: bound by a plan (one being loaded counts, DEDUCED log 73), or named by a committed
ADDITION. -/
def State.setInUse (s : State) (d : Bytes) : Bool :=
  s.slots.any (fun e => match e.2.plan with | some p => p.bindings.any (fun b => b.1 == d) | none => false)
    || s.sets.any (fun e => e.2.kind == 3 && e.2.base == d)

/-- WEIGHT_UNLOAD's effect: a set counted more than once is counted once less. -/
def weightUnloadEff (acc : Nat) (d : Bytes) (s : State) : State :=
  match s.sets.find? (fun e => e.1 == d) with
  | none => refuse s acc 0x0601
  | some _ =>
    if s.setInUse d then refuse s acc 0x0711 else complete (uncountSet s d) acc 0 0

/-- WEIGHT_UNLOAD (R143). -/
def execWeightUnload (acc : Nat) (s : State) : Res :=
  serve s acc 0x05 fun a => .next (weightUnloadEff acc (slice a.desc 8 48) s)

/-! ### INSTALL_PHASE_END (R257) -/

/-- The BASE-ANALOG load under way. -/
def State.analogLoad (s : State) : Option SetLoad := s.loads.find? (fun l => l.kind == 1 && l.accepted)

/-- Physical panes of logical positions that phase 3 must deal with: 0 to 63 of each group, not retired before. -/
def AwDieSt.phase3Done (a : AwDieSt) : Bool :=
  a.programming.isEmpty &&
    decide (131072 ≤ (a.programmed.filter (fun k => decide (k % 68 < 64))).length
      + (((a.failed ++ a.retired.filter (fun k => !a.failed.contains k)).filter (fun k => decide (k % 68 < 64))).length))

/-- Whether a phase's work is done. -/
def phaseReady (s : State) (a : AwDieSt) : Bool :=
  match a.phase with
  | 1 => true
  | 2 => match s.analogLoad with | some l => l.stored.length == l.chunks.length | none => false
  | 3 => a.phase3Done
  | 4 => a.toCalibrate.isEmpty
  | 5 => a.lasting.isEmpty
  | _ => false

/-- The set commits and the installation base digest takes its value when all four dies are READY (R252, R257). -/
def commitAnalog (s : State) : State :=
  if (List.range 4).all (fun d => (s.awOf d).state == 3) then
    match s.analogLoad with
    | some l =>
      let s := s.eachAw fun a => { a with committed := true }
      complete { dropLoad s l with baseDigest := some l.digest, installed := some l.digest } l.acc 0 0 l.results
    | none => s
  else s

/-- Begin phase 5: the panes that failed, and the logical positions of panes retired before, wait for spares (R257,
R258). -/
def beginSpares (s : State) (d : Nat) : State :=
  let a := s.awOf d
  let ks := (a.failed ++ a.retired.filter (fun k => !a.failed.contains k)).filter (fun k => decide (k % 68 < 64))
  (ks.foldl (fun l k => insertNat k l) []).foldl (fun s k => setLasting s d (k / 68) (k % 68)) s

/-- The full read-back of phase 4 (R257): a working pane with a cell outside VERIFY_WINDOW of the level its shadow copy asks
for has failed, and its cells are known. -/
def readBack (s : State) (d : Nat) (cells : List PaneCell) : AwDieSt :=
  let a := s.awOf d
  (cells.filter (fun c => !inVerify (s.trimOf d).verifyWindow c.cell.level64
      (wantLevel a c.group c.pos c.cell.row c.cell.col c.cell.neg))).foldl (fun a c =>
    { a with cells := tput (cellKey c.group c.pos c.cell.row c.cell.col c.cell.neg) c.cell.level64 a.cells
             failed := if c.pos.val < 64 then insertNat (68 * c.group + c.pos) a.failed else a.failed }) a

/-- INSTALL_PHASE_END's effect: every group waits for its initial calibration as phase 4 begins. -/
def phaseEndEff (d : Nat) (cells : List PaneCell) (s : State) : State :=
  let a := s.awOf d
  match a.phase with
  | 3 => s.setAw d { a with phase := 4, toCalibrate := List.range 2048 }
  | 4 => beginSpares (s.setAw d { readBack s d cells with phase := 5 }) d
  | 5 => commitAnalog (s.setAw d { a with state := 3, phase := 0, tick := 0, programmed := [], failed := [] })
  | n => s.setAw d { a with phase := n + 1 }

/-- INSTALL_PHASE_END (R251, R257). -/
def execInstallPhaseEnd (d : AwDie) (s : State) (cells : List PaneCell := []) : Res :=
  let a := s.awOf d
  act (a.state = 4 ∧ phaseReady s a = true) (phaseEndEff d cells s) s

/-! ### Domains (R291) -/

/-- DOMAIN_RETIRE's effect: RETIRING until the key is destroyed. -/
def domainRetireEff (s : State) (acc : Nat) (a : Acc) : State :=
  let d := a.bits 8 4 12 0
  if d = 0 then refuse s acc 0x0132
  else if (s.domOf d).used ≠ 0 ∨ s.streams.any (fun h => h.2.domain == d) then refuse s acc 0x0712
  else begin_ (s.setDom d { s.domOf d with state := 2 }) acc

/-- DOMAIN_RETIRE (R291). -/
def execDomainRetire (acc : Nat) (s : State) : Res := serve s acc 0x08 fun a => .next (domainRetireEff s acc a)

/-- Manifests that waited for a domain to be FREE are judged again (R291). -/
def wakeLoads (s : State) : State :=
  (s.loads.filter (fun l => !l.accepted && !l.manifest.isEmpty)).foldl (fun s l => judgeManifest s l l.size) s

/-- DOMAIN_KEY_DESTROYED (R291): the key is gone in all eight base dies, the domain is FREE, the retirement completes, and
reservations that waited are made. -/
def execDomainKeyDestroyed (dom : BitVec 13) (s : State) : Res :=
  let d := s.domOf dom.toNat
  act (d.state = 2)
    (let s := s.setDom dom.toNat { d with state := 0, key := none }
     let s := match s.intake.acc.find? (fun e => e.2.kind == 0x08 && e.2.begun && e.2.bits 8 4 12 0 == dom.toNat) with
       | some e => complete s e.1 0 0 { r1 := dom.toNat, r3 := d.epoch }
       | none => s
     wakeLoads s) s

end Sys2Proof.Machine
end

