-- ==== Sys2Proof/Machine/Tenancy.lean ====
section
/-!
DEFINITION. The tenancy (R488 to R499): TENANCY_OPEN, TENANCY_CLOSE, TENANCY_SCRUB and TENANCY_CLOSE_DONE.
-/

namespace Sys2Proof.Machine

/-! ### Opening (R490 to R493) -/

/-- Entry `k` of a key block: ALG and KEY (R491). -/
def keyEntry (b : Bytes) (k : Nat) : Nat × Bytes :=
  let o := 2608 * k
  (fieldAt b o 1, slice b (o + 0x10) (if fieldAt b o 1 = 2 then 97 else 2592))

/-- Whether a key block keeps R491: known algorithms, reserved bytes 0, one key at least. -/
def keyBlockOk (b : Bytes) : Bool :=
  (List.range 16).all (fun k =>
      let o := 2608 * k
      decide (fieldAt b o 1 ≤ 2) && zeroFrom b (o + 1) (o + 0xF)
        && (fieldAt b o 1 != 2 || zeroFrom b (o + 0x10 + 97) (o + 2607)))
    && (List.range 16).any (fun k => fieldAt b (2608 * k) 1 != 0)

/-- The enrolled keys of a key block, by slot. -/
def enrolKeys (b : Bytes) : Tbl (Nat × Bytes) :=
  (List.range 16).foldl (fun t k => if fieldAt b (2608 * k) 1 = 0 then t else tput k (keyEntry b k) t) []

/-- Offsets of the group-block entries addressed to this device (R492). -/
def groupEntries (s : State) (b : Bytes) (n : Nat) : List Nat :=
  ((List.range n).map (1680 * ·)).filter (fun o => slice b o 48 == s.fuses.deviceId)

/-- The group key of an entry, none where decapsulation or the tag fails (R492). -/
def groupKey (b : Bytes) (o : Nat) : Option Bytes :=
  (Config.kemDecap (slice b (o + 0x30) 1568)).bind fun k =>
    Config.gcmOpen k (slice b (o + 0x650) 12) (slice b (o + 0x68C) 4) (slice b (o + 0x65C) 32) (slice b (o + 0x67C) 16)

/-- The detail that refuses an open, 0 when it is accepted (R493). -/
def openRefusal (s : State) (keys groups : Bytes) (n : Nat) : Nat :=
  let es := groupEntries s groups n
  if s.tenancy.phase ≠ 0 then 0x0741
  else if 4096 < n ∨ ¬ keyBlockOk keys ∨ 256 < es.length ∨ es.any (fun o => fieldAt groups (o + 0x68C) 4 == 0) then 0x0137
  else if es.any (fun o => (groupKey groups o).isNone) then 0x0231
  else 0

/-- The tenancy opens (R493): keys enrolled, domain 0's key made, the step number and GSEQ 0, PHASE OPEN. -/
def tenancyOpenEff (acc : Nat) (a : Acc) (keys groups : Bytes) (s : State) : State :=
  let n := a.bits 0x28 4 12 0
  let t : Tenancy :=
    { kind := if a.bits 0x28 4 13 13 = 1 then 2 else 1, phase := 2, opened := satNat 32 (s.tenancy.opened + 1)
      id := slice a.desc 8 16, keys := enrolKeys keys, keysDigest := Config.sha384 (padTo 41728 keys)
      groups := tblOf ((groupEntries s groups n).map fun o => (fieldAt groups (o + 0x68C) 4, (groupKey groups o).getD [])) }
  let s := { s with
    tenancy := t, grid := { s.grid with gseq := 0, aborts := [] }, fabric := { s.fabric with colour := 0 }
    cad := { s.cad with frameOver := true }, replay := { ctrl := s.replay.ctrl, base := s.replay.base } }
  let s := (s.setDom 0 { state := 1, epoch := 1, key := some s.free }).bump
  complete s acc 0 0

/-- TENANCY_OPEN (R493). -/
def execTenancyOpen (acc : Nat) (keys groups : HostData) (s : State) : Res :=
  serve s acc 0x20 fun a =>
    if s.tenancy.phase ≠ 0 then .next (refuse s acc 0x0741)
    else
      match keys, (if a.bits 0x28 4 12 0 = 0 then .ok [] else groups) with
      | .ok k, .ok g =>
        let c := openRefusal s k g (a.bits 0x28 4 12 0)
        if c ≠ 0 then .next (refuse s acc c) else .next (tenancyOpenEff acc a k g s)
      | .ok _, h => .next (hostFail s acc h)
      | h, _ => .next (hostFail s acc h)

/-! ### Closing (R495, R496) -/

/-- Whether a weight load goes on through a close: a BASE-ANALOG set whose chunks are all in the shadow stores (R499). -/
def SetLoad.survives (l : SetLoad) : Bool := l.accepted && l.kind == 1 && l.stored.length == l.chunks.length

/-- Empty the slots whose plan is being loaded, and give back what each holds. -/
def dropPlanLoads (s : State) : State :=
  s.slots.foldl (fun s e => match e.2 with
    | .loading acc p => complete ((releasePlan s p).setSlot e.1 .empty) acc 0x13 0x1301
    | _ => s) s

/-- Descriptors that a close cancels: not begun, or a step not launched, or an unload that waits (R496). -/
def State.cancelled (s : State) (acc : Nat) : List Nat :=
  let unloads := s.slots.filterMap (fun e => match e.2 with | .unloading a _ => some a | _ => none)
  let steps := s.steps.map (·.acc)
  (s.intake.acc.filter (fun e => e.1 != acc && (!e.2.begun || steps.contains e.1 || unloads.contains e.1))).map (·.1)

/-- TENANCY_CLOSE's effect (R496 items 1, 2 and 4). -/
def tenancyCloseEff (acc : Nat) (a : Acc) (s : State) : State :=
  let s := begin_ s acc
  let s := { s with tenancy := { s.tenancy with phase := 3, closing := some (acc, a.bits 8 4 0 0 = 1) }
                    intake := { s.intake with fetched := none } }
  let gone := s.cancelled acc
  let s := dropSteps s (fun _ => true)
  let s := gone.foldl (fun s n => complete s n 0x13 0x1301) s
  let s := dropPlanLoads s
  let s := s.loads.foldl (fun s l => if l.survives then s else failLoad s l 0x1301) s
  if s.grid.memberEn then withdrawEff s else s

/-- TENANCY_CLOSE (R495, R496). -/
def execTenancyClose (acc : Nat) (s : State) : Res := serve s acc 0x21 fun a => .next (tenancyCloseEff acc a s)

/-! ### The scrub (R496, R497) -/

/-- Marked rows are mapped onto spares (R296), on which nothing has been corrected and no unit has failed. -/
def spareRows (s : State) (st : Nat) : State :=
  let k := s.stackOf st
  let onSpare (row : Nat) : Bool := k.marked.contains row
  let s := s.setStack st { k with
    spared := k.spared ++ k.marked, marked := [], corrected := tblOf (k.corrected.filter (fun e => !onSpare e.1))
    errs := tblOf ((k.errs.map fun e =>
      (e.1, { e.2 with symbols := e.2.symbols.filter (fun x => !onSpare (2 * e.1 + x.2 / 1024)) })).filter
        (fun e => !e.2.symbols.isEmpty))
    poisoned := k.poisoned.filter (fun u => !(onSpare (2 * u) && onSpare (2 * u + 1))) }
  k.marked.foldl (fun s r => raise s 0x0304 (unitLoc st (r / 2))) s

/-- A stack's DRAM after the scrub: no unit readable; with ZERO_FILL every unit has valid check symbols (R497). -/
def StackSt.scrub (k : StackSt) (zero : Bool) : StackSt :=
  { k with units := [], used := [], poisoned := if zero then [] else k.poisoned, errs := if zero then [] else k.errs }

/-- A link die after the scrub: flow buffers, hop-buffer state and open-transfer records zeroed. -/
def LinkDie.scrub (l : LinkDie) : LinkDie :=
  { l with buf := [], fill := none, delivered := [], discarded := [], flows := [], tseq := [], verified := [], open_ := []
           sent := [], own := [], ready := [] }

/-- A movement's stores after the scrub. -/
def Mvmt.scrub (m : Mvmt) : Mvmt := { m with scratch := [], fill := none, writes := [] }

/-- Every entry of a table of parts changed, its canonical form kept. -/
def tblMap {α : Type} [DecidableEq α] (d : α) (f : α → α) (t : Tbl α) : Tbl α :=
  t.foldl (fun r e => tset d r e.1 (f e.2)) []

/-- TENANCY_SCRUB's effect (R249, R259, R296, R497): what is destroyed or cleared. -/
def scrubEff (zero : Bool) (s : State) : State :=
  let s := (List.range 4).foldl (fun s d => releaseSets d s) ((List.range 8).foldl spareRows s)
  let stack := tblMap {} (fun k => k.scrub zero) s.stack
  { s with
    domains := [], loads := s.loads.map (fun l => { l with key := [], parts := [] })
    tenancy := { s.tenancy with keys := [], groups := [], keysDigest := [], stepNumber := 0, scrubbed := true }
    stack := stack, streams := [], pages := [], prefixes := [], slotRows := [], grammars := [], slots := [], sets := []
    mv := tblMap {} Mvmt.scrub s.mv, chan := [], seq := [], queue := [], matrix := [], vector := [], bridle := []
    links := tblMap {} LinkDie.scrub s.links
    aw := tblMap {} (fun a => { a with sets := [], runs := [], resolve := [], inputUsed := 0 }) s.aw
    trace := { s.trace with fill := 0, store := [], next := 0, bufs := [], elastic := [], marks := [] }
    fns := tblMap {} (fun f => { f with openStreams := 0, pages := 0 }) s.fns
    grid := { s.grid with gseq := 0, aborts := [] }, fabric := { s.fabric with colour := 0, armed := none } }

/-- TENANCY_SCRUB (R496, R497): once any running step has completed and what had begun has run to its end. -/
def execTenancyScrub (s : State) : Res :=
  match s.tenancy.closing with
  | some (acc, zero) =>
    act (s.run.isNone = true ∧ s.tenancy.scrubbed = false
        ∧ s.intake.acc.all (fun e => e.1 == acc || s.loads.any (fun l => l.acc == e.1)) = true) (scrubEff zero s) s
  | none => .next s

/-- TENANCY_CLOSE_DONE's effect (R496 item 6). -/
def closeDoneEff (acc : Nat) (s : State) : State :=
  let s := { s with
    tenancy := { s.tenancy with kind := 0, phase := 0, id := [], closing := none, scrubbed := false }
    stop := { s.stop with scanPermit := false }, cad := { s.cad with frameOver := true } }
  complete s acc 0 0

/-- TENANCY_CLOSE_DONE (R499). -/
def execTenancyCloseDone (s : State) : Res :=
  match s.tenancy.closing with
  | some (acc, _) => act (s.tenancy.scrubbed = true) (closeDoneEff acc s) s
  | none => .next s

end Sys2Proof.Machine
end

