-- ==== Sys2Proof/Machine/Spdm.lean ====
section
/-!
DEFINITION. Attestation (R506 to R508): the attestation report, and the SPDM 1.3 responder. The layout of SPDM messages
is that of the published standard R508 names (PRESUMED, log 75).
-/

namespace Sys2Proof.Machine

/-! ### Digests and the report (R506, R507, R510, R512) -/

/-- TABLE_DIGEST: 0 in RECOVERY (R510, R512). -/
def State.tableDigest (s : State) : Bytes :=
  match s.boot.set with
  | some t => if s.power.stage = 7 then zeros 48 else Config.sha384 t.body
  | none => zeros 48

/-- OWNER_DIGEST: 0 when unclaimed and in RECOVERY (R506, R510, R512). -/
def State.ownerDigest (s : State) : Bytes :=
  match s.boot.set.bind (·.owner) with
  | some o => if s.boot.owned ∧ s.power.stage ≠ 7 then Config.sha384 o.body else zeros 48
  | none => zeros 48

/-- Byte strings in ascending byte order. -/
def bytesLe : Bytes → Bytes → Bool
  | [], _ => true
  | _ :: _, [] => false
  | a :: as, b :: bs => decide (a < b) || (a == b && bytesLe as bs)

/-- Insert a set into a list sorted by digest. -/
def insertSet (x : Bytes × WeightSet) : List (Bytes × WeightSet) → List (Bytes × WeightSet)
  | [] => [x]
  | y :: t => if bytesLe x.1 y.1 then x :: y :: t else y :: insertSet x t

/-- The committed BASE and ADDITION sets, by set digest (R507). -/
def State.sortedSets (s : State) : List (Bytes × WeightSet) := s.sets.foldr insertSet []

/-- WEIGHT_LIST_DIGEST (R507). -/
def State.weightListDigest (s : State) : Bytes :=
  Config.sha384 (s.sortedSets.flatMap fun e => leBytes 4 e.2.kind ++ padTo 48 e.1)

/-- The alarm captures in capture order, 16 at most (R506, R524). -/
def State.faultEntries (s : State) : List Capture :=
  ((List.range 256).filterMap fun r => (s.latch.find? (fun e => e.2.rank == r)).map (·.2)).take 16

/-- Write fields of (offset, bytes) into a block of zeros. -/
def layout (n : Nat) (fs : List (Nat × Bytes)) : Bytes :=
  fs.foldl (fun b f => b.take f.1 ++ f.2 ++ b.drop (f.1 + f.2.length)) (zeros n)

/-- INSTALL_BASE (R252). -/
def State.installBase (s : State) : Bytes := padTo 48 (s.baseDigest.getD [])

/-- The signed part of the attestation report, bytes 0x0000 to 0x142F (R506). -/
def reportBody (s : State) (nonce : Bytes) : Bytes :=
  let t := s.tenancy
  let aw := (List.range 4).foldl (fun n d => n + (s.awOf d).state * 2 ^ (3 * d)) 0
  let faults := s.faultEntries
  layout 0x1430
    ([(0, leBytes 4 0x5452545A), (4, leBytes 2 1), (8, leBytes 4 0x1430), (0xC, leBytes 4 (if s.power.stage = 7 then 1 else 0)),
      (0x10, padTo 48 s.fuses.deviceId), (0x40, leBytes 4 (s.fuses.grade + s.fuses.stepping * 16)),
      (0x48, leBytes 8 s.fuses.engineMask.toNat),
      (0x50, (List.range 192).flatMap (fun i => leBytes 2 (tget (0 : W16) s.fuses.arrays i).toNat)),
      (0x1D0, s.tableDigest.take 48), (0x200, s.ownerDigest.take 48),
      (0x230, leBytes 4 (s.level % 256 + s.fuses.svn * 2 ^ 8 + s.fuses.claims * 2 ^ 16)), (0x240, s.installBase),
      (0x270, leBytes 8 (s.installCount + aw * 2 ^ 32)), (0x280, padTo 16 t.id), (0x290, leBytes 4 t.kind),
      (0x298, padTo 48 t.keysDigest), (0x2C8, leBytes 8 (s.sets.length + t.groups.length * 2 ^ 32)),
      (0x2D0, padTo 48 s.weightListDigest), (0x300, padTo 32 nonce), (0x320, leBytes 8 s.chron.count),
      (0x328, leBytes 4 (s.chron.state + faults.length * 4))]
      ++ (List.range 64).flatMap (fun i => match s.slotOf i with
          | .resident p => [(0x330 + 64 * i, [1]), (0x340 + 64 * i, padTo 48 p.digest)]
          | _ => [])
      ++ (indexed faults).map (fun f =>
          (0x1330 + 16 * f.1, leBytes 8 f.2.loc.toNat ++ leBytes 2 f.2.code ++ zeros 2 ++ leBytes 4 f.2.stamp)))

/-- Names of the device's signing keys: the attestation keys, ML-DSA-87 and P-384 (R500). -/
def keyAttest : Nat := 1

/-- The attestation report, 9,891 bytes (R506). -/
def report (s : State) (nonce : Bytes) : Bytes :=
  let b := reportBody s nonce
  let d := Config.sha384 b
  b ++ padTo 4627 (Config.sign 1 keyAttest d) ++ padTo 96 (Config.sign 2 keyAttest d)

/-! ### The responder (R508) -/

/-- A response: version 1.3, code, two parameters, the rest. -/
def spdmMsg (code p1 p2 : Nat) (rest : Bytes) : Bytes := leBytes 1 0x13 ++ leBytes 1 code ++ leBytes 1 p1 ++ leBytes 1 p2 ++ rest

/-- ERROR with a code and its data. -/
def spdmError (code data : Nat) : Bytes := spdmMsg 0x7F code data []

def errInvalid : Nat := 0x01
def errUnexpected : Nat := 0x04
def errUnsupported : Nat := 0x07
def errVersion : Nat := 0x41
def errLarge : Nat := 0x0F

/-- A signature by the P-384 attestation key over a transcript, with the standard's context string. -/
def spdmSign (context : Bytes) (transcript : Bytes) : Bytes :=
  padTo 96 (Config.sign 2 keyAttest (Config.sha384 (context ++ Config.sha384 transcript)))

/-- Names of the two signing contexts. -/
def contextChallenge : Bytes := [1]
def contextMeasure : Bytes := [2]

/-- The certificate chain of slot 0. -/
def State.chain (s : State) : Bytes := Config.certChain s.tableDigest s.ownerDigest

/-- A measurement block: index, DMTF form, whether its value is raw. -/
def measBlock (i : Nat) (raw : Bool) (v : Bytes) : Bytes :=
  leBytes 1 i ++ leBytes 1 1 ++ leBytes 2 (v.length + 3) ++ leBytes 1 (3 + natOfBool raw * 128) ++ leBytes 2 v.length ++ v

/-- The measurement blocks of R508, by index. -/
def measurements (s : State) (nonce : Bytes) : List (Nat × Bytes) :=
  [(1, measBlock 1 false s.tableDigest), (2, measBlock 2 false s.ownerDigest), (3, measBlock 3 false s.installBase),
   (4, measBlock 4 false (padTo 48 s.tenancy.keysDigest)), (5, measBlock 5 false (padTo 48 s.weightListDigest)),
   (0x10, measBlock 0x10 true (report s nonce))]

/-- Whether a request is whole and of version 1.3. -/
def spdmForm (req : Bytes) (n : Nat) : Bool := decide (n ≤ req.length) && fieldAt req 0 1 == 0x13

/-- GET_VERSION: the connection begins anew; version 1.3. -/
def answerVersion (req : Bytes) (s : State) : State × Bytes :=
  if fieldAt req 0 1 = 0x10 ∧ 4 ≤ req.length then
    let r := leBytes 1 0x10 ++ leBytes 1 0x04 ++ zeros 2 ++ zeros 1 ++ leBytes 1 1 ++ leBytes 2 0x1300
    ({ s with spdm := { phase := 1, vca := req ++ r, handle := s.spdm.handle } }, r)
  else (s, spdmError errVersion 0)

/-- GET_CAPABILITIES: CERT_CAP, CHAL_CAP, MEAS_CAP with signature and CHUNK_CAP. -/
def answerCapabilities (req : Bytes) (s : State) : State × Bytes :=
  if ¬ spdmForm req 20 then (s, spdmError errInvalid 0)
  else if s.spdm.phase ≠ 1 then (s, spdmError errUnexpected 0)
  else
    let l := Config.spdmLimits
    let r := spdmMsg 0x61 0 0 (zeros 1 ++ leBytes 1 l.1 ++ zeros 2 ++ leBytes 4 0x20016 ++ leBytes 4 l.2.1 ++ leBytes 4 l.2.2)
    ({ s with spdm := { s.spdm with phase := 2, vca := s.spdm.vca ++ req ++ r } }, r)

/-- NEGOTIATE_ALGORITHMS: ECDSA P-384 with SHA-384, measurement hash SHA-384. -/
def answerAlgorithms (req : Bytes) (s : State) : State × Bytes :=
  if ¬ spdmForm req 32 then (s, spdmError errInvalid 0)
  else if s.spdm.phase ≠ 2 then (s, spdmError errUnexpected 0)
  else if ¬ bitNat (fieldAt req 8 4) 7 ∨ ¬ bitNat (fieldAt req 12 4) 1 then (s, spdmError errInvalid 0)
  else
    let r := spdmMsg 0x63 0 0 (leBytes 2 36 ++ leBytes 1 1 ++ zeros 1 ++ leBytes 4 4 ++ leBytes 4 0x80 ++ leBytes 4 2 ++ zeros 16)
    ({ s with spdm := { s.spdm with phase := 3, vca := s.spdm.vca ++ req ++ r } }, r)

/-- GET_DIGESTS: slot 0 alone. -/
def answerDigests (req : Bytes) (s : State) : State × Bytes :=
  if ¬ spdmForm req 4 then (s, spdmError errInvalid 0)
  else if s.spdm.phase ≠ 3 then (s, spdmError errUnexpected 0)
  else
    let r := spdmMsg 0x01 1 1 (padTo 48 (Config.sha384 s.chain))
    ({ s with spdm := { s.spdm with certs := s.spdm.certs ++ req ++ r } }, r)

/-- GET_CERTIFICATE: a portion of slot 0's chain. -/
def answerCertificate (req : Bytes) (s : State) : State × Bytes :=
  let o := fieldAt req 4 2
  let c := s.chain
  if ¬ spdmForm req 8 ∨ bitsAt req 2 1 3 0 ≠ 0 ∨ c.length ≤ o then (s, spdmError errInvalid 0)
  else if s.spdm.phase ≠ 3 then (s, spdmError errUnexpected 0)
  else
    let n := min (fieldAt req 6 2) (c.length - o)
    let r := spdmMsg 0x02 0 0 (leBytes 2 n ++ leBytes 2 (c.length - o - n) ++ slice c o n)
    ({ s with spdm := { s.spdm with certs := s.spdm.certs ++ req ++ r } }, r)

/-- CHALLENGE: signed over the messages since GET_VERSION. -/
def answerChallenge (req : Bytes) (s : State) : State × Bytes :=
  let kind := fieldAt req 3 1
  if ¬ spdmForm req 44 ∨ bitsAt req 2 1 3 0 ≠ 0 ∨ ¬ (kind = 0 ∨ kind = 1 ∨ kind = 0xFF) then (s, spdmError errInvalid 0)
  else if s.spdm.phase ≠ 3 then (s, spdmError errUnexpected 0)
  else
    let nonce := padTo 32 (Config.nonce s.free)
    let all := ((measurements s nonce).map (·.2)).flatten
    let r := spdmMsg 0x03 0 1 (padTo 48 (Config.sha384 s.chain) ++ nonce
      ++ (if kind = 0 then [] else padTo 48 (Config.sha384 (if kind = 1 then [] else all))) ++ zeros 2 ++ slice req 36 8)
    let sig := spdmSign contextChallenge (s.spdm.vca ++ s.spdm.certs ++ req ++ r)
    ({ s.bump with spdm := { s.spdm with certs := [] } }, r ++ sig)

/-- GET_MEASUREMENTS: the number of blocks, one block or all of them; signed where the request asks it. -/
def answerMeasurements (req : Bytes) (s : State) : State × Bytes :=
  let signed := bitNat (fieldAt req 2 1) 0
  let op := fieldAt req 3 1
  let nonce := if signed then slice req 4 32 else zeros 32
  let ms := measurements s nonce
  let sel := if op = 0 then [] else if op = 0xFF then ms else ms.filter (fun m => m.1 == op)
  if ¬ spdmForm req (if signed then 45 else 12) ∨ (sel.isEmpty ∧ op ≠ 0) ∨ (signed ∧ bitsAt req 36 1 3 0 ≠ 0) then
    (s, spdmError errInvalid 0)
  else if s.spdm.phase ≠ 3 then (s, spdmError errUnexpected 0)
  else
    let record := (sel.map (·.2)).flatten
    let context := if signed then slice req 37 8 else slice req 4 8
    let r := spdmMsg 0x60 (if op = 0 then ms.length else 0) 0
      (leBytes 1 sel.length ++ leBytes 3 record.length ++ record ++ padTo 32 (Config.nonce s.free) ++ zeros 2 ++ context)
    if signed then
      ({ s.bump with spdm := { s.spdm with measured := [] } },
        r ++ spdmSign contextMeasure (s.spdm.vca ++ s.spdm.measured ++ req ++ r))
    else ({ s.bump with spdm := { s.spdm with measured := s.spdm.measured ++ req ++ r } }, r)

/-- The answer to a whole request, by its code; every other request is not supported. -/
def answerBy (req : Bytes) (s : State) : State × Bytes :=
  match fieldAt req 1 1 with
  | 0x84 => answerVersion req s
  | 0xE1 => answerCapabilities req s
  | 0xE3 => answerAlgorithms req s
  | 0x81 => answerDigests req s
  | 0x82 => answerCertificate req s
  | 0x83 => answerChallenge req s
  | 0xE0 => answerMeasurements req s
  | c => (s, spdmError errUnsupported c)

/-- Send a response; one above the responder's transfer size is fetched in chunks. -/
def sendSpdm (x : State × Bytes) : State :=
  let s := x.1
  if x.2.length ≤ Config.spdmLimits.2.1 ∨ s.spdm.phase < 2 then s.emit (.spdm x.2)
  else
    let h := (s.spdm.handle + 1) % 256
    { s with spdm := { s.spdm with handle := h, getChunk := some (h, 0, x.2) } }.emit
      (.spdm (spdmMsg 0x7F errLarge 0 (leBytes 1 h)))

/-- CHUNK_SEND: a large request put together; the last chunk's acknowledgement carries the answer. -/
def chunkSendEff (req : Bytes) (s : State) : State :=
  let h := fieldAt req 3 1
  let n := fieldAt req 4 2
  let last := bitNat (fieldAt req 2 1) 0
  let data := slice req (if n = 0 then 16 else 12) (fieldAt req 8 4)
  let got := match s.spdm.sendChunk with
    | some (h', n', b) => if n = 0 then some [] else if h = h' ∧ n = n' then some b else none
    | none => if n = 0 then some [] else none
  match got with
  | none => { s with spdm := { s.spdm with sendChunk := none } }.emit (.spdm (spdmError errInvalid 0))
  | some b =>
    if last then
      let a := answerBy (b ++ data) { s with spdm := { s.spdm with sendChunk := none } }
      sendSpdm (a.1, spdmMsg 0x05 0 h (leBytes 2 n ++ a.2))
    else
      { s with spdm := { s.spdm with sendChunk := some (h, n + 1, b ++ data) } }.emit (.spdm (spdmMsg 0x05 0 h (leBytes 2 n)))

/-- CHUNK_GET: the next chunk of a large response. -/
def chunkGetEff (req : Bytes) (s : State) : State :=
  match s.spdm.getChunk with
  | some (h, n, b) =>
    if h = fieldAt req 3 1 ∧ n = fieldAt req 4 2 then
      let size := Config.spdmLimits.2.1 - 16
      let c := (b.drop (size * n)).take size
      let last := decide (b.length ≤ size * (n + 1))
      { s with spdm := { s.spdm with getChunk := if last then none else some (h, n + 1, b) } }.emit
        (.spdm (spdmMsg 0x06 (natOfBool last) h (leBytes 2 n ++ zeros 2 ++ leBytes 4 c.length
          ++ (if n = 0 then leBytes 4 b.length else []) ++ c)))
    else s.emit (.spdm (spdmError errInvalid 0))
  | none => s.emit (.spdm (spdmError errUnexpected 0))

/-- Whether management answers SPDM: the keys are derived, or the device is in RECOVERY (R500, R512, R547). -/
def State.spdmUp (s : State) : Bool := decide (3 ≤ s.power.stage)

/-- A request of a code. -/
def spdmServe (s : State) (req : Bytes) (code : Nat) (f : State → State) : Res :=
  act (s.spdmUp = true ∧ fieldAt req 1 1 = code) (f s) s

/-! ### The commands -/

/-- GET_VERSION (R508). -/
def execGetVersion (req : Bytes) (s : State) : Res := spdmServe s req 0x84 fun s => sendSpdm (answerVersion req s)
/-- GET_CAPABILITIES (R508). -/
def execGetCapabilities (req : Bytes) (s : State) : Res := spdmServe s req 0xE1 fun s => sendSpdm (answerCapabilities req s)
/-- NEGOTIATE_ALGORITHMS (R508). -/
def execNegotiateAlgorithms (req : Bytes) (s : State) : Res := spdmServe s req 0xE3 fun s => sendSpdm (answerAlgorithms req s)
/-- GET_DIGESTS (R508). -/
def execGetDigests (req : Bytes) (s : State) : Res := spdmServe s req 0x81 fun s => sendSpdm (answerDigests req s)
/-- GET_CERTIFICATE (R508). -/
def execGetCertificate (req : Bytes) (s : State) : Res := spdmServe s req 0x82 fun s => sendSpdm (answerCertificate req s)
/-- CHALLENGE (R508). -/
def execChallenge (req : Bytes) (s : State) : Res := spdmServe s req 0x83 fun s => sendSpdm (answerChallenge req s)
/-- GET_MEASUREMENTS (R506, R508). -/
def execGetMeasurements (req : Bytes) (s : State) : Res := spdmServe s req 0xE0 fun s => sendSpdm (answerMeasurements req s)
/-- CHUNK_SEND (R508). -/
def execChunkSend (req : Bytes) (s : State) : Res := spdmServe s req 0x85 fun s => chunkSendEff req s
/-- CHUNK_GET (R508). -/
def execChunkGet (req : Bytes) (s : State) : Res := spdmServe s req 0x86 fun s => chunkGetEff req s

end Sys2Proof.Machine
end

