-- ==== Sys2Proof/Machine/Power.lean ====
section
/-!
DEFINITION. Power, reset and boot (R509 to R513, R541 to R555, R578): the rails, the levels of reset, the boot stages, the
thermal response, power-down, and the commands of the management path that touch them. Also the analogue dies' rails
(R251).
-/

namespace Sys2Proof.Machine

/-! ### DYING_GASP (R474, R545, R554) -/

/-- Send DYING_GASP on every ACTIVE port at once, in four control units, before any state is cleared. -/
def gaspNow (s : State) (cause : Nat) : State :=
  let w0 := BitVec.ofNat 32 (9 + cause * 2 ^ 4 + s.fabric.place.toNat * 2 ^ 16)
  let w1 := BitVec.ofNat 32 (s.grid.grid * 2 ^ 16)
  let w2 := BitVec.ofNat 32 s.stamp32
  ((List.range 20).filter (fun p => s.isActive p)).foldl (fun s p => iter (fun s => s.emit (.ctrl p w0 w1 w2)) 4 s) s

/-! ### What a reset clears and keeps (R9, R544, R545) -/

/-- An analogue die after a DEVICE reset: its commands cancelled, everything else kept (R249, R545). -/
def AwDieSt.reset (a : AwDieSt) : AwDieSt := { a with sets := [], runs := [], resolve := [], spill := [], inputUsed := 0 }

/-- A self-test after power loss: its reads are void, and a restore that was under way is to be made anew (R273). -/
def SelfTest.interrupted (t : SelfTest) : SelfTest :=
  { causes := t.causes, restore := t.restore || (t.phase == 2 && t.cell.isSome) }

/-- An analogue die whose rail is lost (R251, R273): its records, contents, map and shadow store stay. -/
def AwDieSt.off (a : AwDieSt) : AwDieSt :=
  { a.reset with state := 0, tick := 0, rate := [], since := [], programming := [], programmed := [], failed := [], phase := 0
                 toCalibrate := [], trimTab := none, tests := tblOf (a.tests.map (fun e => (e.1, e.2.interrupted))) }

/-- A stack's cells after a reset: nothing in use; no unit readable, since its keys are gone (R489). -/
def StackSt.reset (k : StackSt) : StackSt := { k with units := [], used := [] }

/-- The state with everything of R544's DEVICE row cleared; what a reset keeps is kept. -/
def wiped (s : State) : State :=
  { State.reset with
    pending := s.pending, free := s.free, ns := s.ns, out := s.out, fuses := s.fuses
    boot := { s.boot with set := none, owned := false }, power := s.power, jtag := s.jtag
    chron := { count := s.chron.count, frac := s.chron.frac }, aw := tblMap {} AwDieSt.reset s.aw
    installCount := s.installCount, baseDigest := s.baseDigest, installed := s.installed
    stack := tblMap {} StackSt.reset s.stack
    loads := (s.loads.filter (·.survives)).map (fun l => { l with acc := 2 ^ 64, down := [], parts := [], key := [] }) }

/-- The installation under way loses its load with the reset, unless every chunk is in the shadow stores (R251, R499). -/
def dropInstall (s : State) : State := if s.analogLoad.isSome then s else s.eachAw AwDieSt.abandon

/-- Group rails 1 to 4 all good. -/
def Power.railsUp (p : Power) : Bool := p.groupGood == 15

/-- A DEVICE reset with its LAST_RESET (R544 to R546), which releases every pane set (R249, R259): it runs no RAILS stage where the rails are up; a package that is down
stays down (R554). -/
def deviceReset (s : State) (cause : Nat) : State :=
  if s.power.down then s
  else
    let s := if s.grid.memberEn then gaspNow s 3 else s
    let p := s.power
    let s := dropInstall (wiped ((List.range 4).foldl (fun s d => releaseSets d s) s))
    { s with power :=
      { lastReset := cause, cold := !p.railsUp, groupEn := p.groupEn, groupGood := p.groupGood, awEn := p.awEn
        awGood := p.awGood, railAt := p.railAt, vddCd := p.vddCd, refMissing := p.refMissing, aonFell := p.aonFell
        stageTimes := [s.ns] } }

/-- A COLD reset (R544): the chronometer 0, every rail to be raised anew, the analogue dies OFF. -/
def coldReset (s : State) : State :=
  let last := if s.power.aonFell then 0 else s.power.lastReset
  let w := (wiped s).eachAw AwDieSt.off
  { w with chron := {}, baseDigest := none, loads := [], power := { lastReset := last, stageTimes := [s.ns] } }

/-- POR_RELEASE (R544, R547): a COLD boot begins at FUSE. -/
def execPorRelease (s : State) : Res := .next (coldReset s)

/-- RESET_N (R544, R584): low for 1 µs or more it starts a DEVICE reset, for 200 ns or less it does nothing; in between
either may happen. -/
def execResetN (lowNs : Nat) (s : State) : Res :=
  .next (if 1000 ≤ lowNs then deviceReset s 1
    else if lowNs ≤ 200 then s
    else if s.choice 1 0 % 2 = 1 then deviceReset s.bump 1 else s.bump)

/-- DEV_RESET of a POWER_CTRL write (R549). -/
def devResetEff (v : W32) (s : State) : State :=
  if fieldNat v.toNat 23 16 = 0xD5 ∧ bitNat v.toNat 24 then deviceReset s 2 else s

/-- DEV_RESET (R549). -/
def execDevReset (value : W32) (s : State) : Res := .next (devResetEff value s)

/-- JTAG_RESET (R544, R582). -/
def execJtagReset (s : State) : Res := .next (deviceReset s 4)

/-- PLDM_RESET (R544, R549). -/
def execPldmReset (s : State) : Res := .next (deviceReset s 3)

/-- The configured limit of R49: PKG_LIMIT, values outside 900 to 1,800 taken as the nearer bound (R549). -/
def Power.configured (p : Power) : Nat := min 1800 (max 900 p.pkgLimit)

/-- Throttle start, limit and trip in °C of die `d`: analogue dies 9 to 12, or the others (R551, R552). -/
def State.heat (s : State) (d : Nat) : Int × Int × Int :=
  if 9 ≤ d ∧ d ≤ 12 then (s.tbl.reg.throttleAnalog, 85, 95) else (s.tbl.reg.throttleDigital, 105, 115)

/-- The package power one die's heat allows of a configured limit (R553): PKG_LIMIT − (PKG_LIMIT − 900 W) × x, in whole
watts. -/
def allowed (s : State) (pkg d : Nat) (t : Int) : Nat :=
  let h := s.heat d
  if t ≤ h.1 then pkg
  else if h.2.1 ≤ t then 900
  else pkg - (pkg - 900) * (t - h.1).toNat / (h.2.1 - h.1).toNat

/-- The limit in force: the configured one, and what the latest temperatures allow of it (R49, R56, R553). -/
def State.limitNow (s : State) (p : Power) : Nat :=
  p.temps.foldl (fun m e => min m (allowed s p.configured e.1 e.2)) p.configured

/-- PKG_LIMIT of a POWER_CTRL write: the regulator takes it at once (R56, R549). -/
def pkgLimitEff (v : W32) (s : State) : State :=
  let p := { s.power with pkgLimit := fieldNat v.toNat 10 0 }
  { s with power := { p with effLimit := s.limitNow p } }

/-- PKG_LIMIT (R56, R549). -/
def execPkgLimit (value : W32) (s : State) : Res := .next (pkgLimitEff value s)

/-- HOST_LINK_RESET (R544, R546): every function of the link meets the effects of R386; none during a reset or boot. -/
def execHostLinkReset (link : Fin 4) (s : State) : Res :=
  act (s.hostUp = true)
    (((List.range 256).filter (fun f => s.fnEnabled f && s.linkOfFn f == link.val && !(s.fnOf f).inReset)).foldl flrOne s) s

/-! ### The boot flash (R509 to R513, R548) -/

/-- Whether the fields of a base part lie in their ranges (R35, R267, R409, R551). -/
def rangesOk (t : TableSet) : Bool :=
  let r := t.reg
  let a := t.trim
  decide (5 ≤ t.balanceMarginPct ∧ t.balanceMarginPct ≤ 15 ∧ 650 ≤ r.vddCdMv ∧ r.vddCdMv ≤ 900 ∧ 1800 ≤ r.excPowerW ∧ r.excPowerW ≤ 2100 ∧ 100 ≤ r.excUs ∧ r.excUs ≤ 2000
    ∧ 600 ≤ r.coreLimitA ∧ r.coreLimitA ≤ 1000 ∧ 50 ≤ r.rampAPerUs ∧ r.rampAPerUs ≤ 300 ∧ 10 ≤ r.stepA ∧ r.stepA ≤ 80
    ∧ 85 ≤ r.throttleDigital ∧ r.throttleDigital ≤ 104 ∧ 70 ≤ r.throttleAnalog ∧ r.throttleAnalog ≤ 84)
    && a.gwMin.all (fun g => decide (1 ≤ g ∧ g ≤ 8))
    && decide (a.gwMargin ≤ 4 ∧ 2 ≤ a.rateFactor ∧ a.rateFactor ≤ 16 ∧ 4 ≤ a.refreshLimit ∧ a.refreshLimit ≤ 32
      ∧ 4 ≤ a.verifyWindow ∧ a.verifyWindow ≤ 16 ∧ 8 ≤ a.maxPulses ∧ a.maxPulses ≤ 32 ∧ 5 ≤ a.settleMs ∧ a.settleMs ≤ 100
      ∧ 2 ≤ a.transientLimit ∧ a.transientLimit ≤ 8 ∧ ((List.range 8).map fun k => t.grants.getD k 0).sum ≤ 30)

/-- Whether a table set passes R510: both signatures of the base part, its SVN, and, once claimed, the owner part. -/
def setOk (s : State) (t : TableSet) : Bool :=
  rangesOk t && Config.verify 1 (Config.rootKey 1) (Config.sha384 t.body) t.sigMl
    && Config.verify 2 (Config.rootKey 2) (Config.sha384 t.body) t.sigEc && decide (s.fuses.svn ≤ t.svn)
    && (match s.fuses.ownerDigest with
        | none => true
        | some d =>
          match t.owner with
          | some o => o.keyDigest == d && Config.verify 1 d (Config.sha384 o.body) o.sig
          | none => false)

/-- The copy that boots: A where it passes, otherwise B (R548). -/
def State.bootCopy (s : State) : Option (Nat × TableSet) :=
  match s.boot.copyA.filter (setOk s ·) with
  | some t => some (0, t)
  | none => (s.boot.copyB.filter (setOk s ·)).map (fun t => (1, t))

/-- The copy a PLDM update writes: the one that did not boot (R548). -/
def writeCopy (t : TableSet) (s : State) : State :=
  { s with boot := if s.power.copy = 0 then { s.boot with copyB := some t } else { s.boot with copyA := some t } }

/-- PLDM_TABLE_UPDATE (R548). -/
def execPldmTableUpdate (t : TableSet) (s : State) : Res := .next (writeCopy t s)

/-- Whether an owner claim is accepted (R513): no tenancy open, a slot free, the claim signed by the current owner. -/
def claimOk (s : State) (digest sig : Bytes) : Bool :=
  s.tenancy.phase == 0 && decide (s.fuses.claims < 4) &&
    (match s.fuses.ownerDigest with
     | none => true
     | some d => Config.verify 1 d (Config.sha384 digest) sig)

/-- OWNERSHIP_CLAIM (R513): the digest is fused into the next free slot, and the device boots with the new owner part. -/
def execOwnershipClaim (digest sig : Bytes) (t : TableSet) (s : State) : Res :=
  act (claimOk s digest sig = true)
    (deviceReset { writeCopy t s with fuses := { s.fuses with ownerDigest := some digest, claims := s.fuses.claims + 1 } } 3) s

/-! ### Rails (R541 to R543) -/

/-- Key of a rail in `railAt`, and its pin: group k + 1, or rail k of die d. -/
def railKey : Rail → Nat
  | .group k => k.val + 1
  | .aw d k => 8 + 3 * d.val + k.val

/-- Whether a rail is enabled, and whether it is good. -/
def Power.enabled (p : Power) : Rail → Bool
  | .group k => bitNat p.groupEn k
  | .aw d k => bitNat p.awEn (3 * d.val + k.val)
def Power.good (p : Power) : Rail → Bool
  | .group k => bitNat p.groupGood k
  | .aw d k => bitNat p.awGood (3 * d.val + k.val)

/-- A number with a bit set or cleared. -/
def putBit (n i : Nat) (b : Bool) : Nat :=
  if bitNat n i = b then n else if b then n + 2 ^ i else n - 2 ^ i

/-- Enable or disable a rail, at its pin; a rail disabled is not good. -/
def setRail (s : State) (r : Rail) (on : Bool) : State :=
  let p := s.power
  let at_ := tput (railKey r) s.ns p.railAt
  let p := match r with
    | .group k => { p with groupEn := putBit p.groupEn k on, groupGood := if on then p.groupGood else putBit p.groupGood k false
                           railAt := at_ }
    | .aw d k =>
      { p with awEn := putBit p.awEn (3 * d.val + k.val) on
               awGood := if on then p.awGood else putBit p.awGood (3 * d.val + k.val) false, railAt := at_ }
  { s with power := p }.emit (.pin (railKey r) on)

/-- A rail's power-good changes. -/
def setGood (s : State) (r : Rail) (on : Bool) : State :=
  let p := s.power
  let at_ := tput (railKey r) s.ns p.railAt
  { s with power := match r with
      | .group k => { p with groupGood := putBit p.groupGood k on, railAt := at_ }
      | .aw d k => { p with awGood := putBit p.awGood (3 * d.val + k.val) on, railAt := at_ } }

/-- The rails that must be good 1 ms before a rail is enabled (R543). -/
def predecessors : Rail → List Rail
  | .group k => if k.val = 0 then [] else [.group ⟨k.val - 1, by omega⟩]
  | .aw d k => if k.val = 0 then [.group 1] else if k.val = 1 then [.aw d 0, .group 2] else [.aw d 1, .group 3]

/-- PWR_GOOD (R543). -/
def execPwrGood (r : Rail) (s : State) : Res :=
  act (s.power.enabled r = true ∧ s.power.good r = false) (setGood s r true) s

/-- Whether a rail's enable is due: RAILS under way or over, its predecessors good for 1 ms (R543). -/
def State.enableDue (s : State) (r : Rail) : Bool :=
  let p := s.power
  !p.down && decide (3 ≤ p.stage) && p.stage != 7 && !p.enabled r && !(predecessors r).isEmpty
    && (match r with | .aw _ _ => s.awFitted | .group _ => true)
    && (predecessors r).all (fun q => p.good q && decide (tget 0 p.railAt (railKey q) + 1000000 ≤ s.ns))

/-- RAIL_ENABLE_DELAY (R543): the next enable is asserted. -/
def execRailEnableDelay (r : Rail) (s : State) : Res := act (s.enableDue r = true) (setRail s r true) s

/-! ### Power-down (R543, R554) -/

/-- The rails lowered at one step of a power-down: 0 to 2 the analogue rails 2, 1, 0 of every die; 3 to 6 groups 4 to 1. -/
def lowerStep (n : Nat) : List Rail :=
  match n with
  | 0 => [.aw 0 2, .aw 1 2, .aw 2 2, .aw 3 2]
  | 1 => [.aw 0 1, .aw 1 1, .aw 2 1, .aw 3 1]
  | 2 => [.aw 0 0, .aw 1 0, .aw 2 0, .aw 3 0]
  | 3 => [.group 3]
  | 4 => [.group 2]
  | 5 => [.group 1]
  | _ => [.group 0]

/-- Lower the next rails. The analogue dies go OFF with theirs; with VDD_CD everything volatile is lost. -/
def lowerNext (s : State) : State :=
  match s.power.lowering with
  | n :: ns =>
    let s := (lowerStep n).foldl (fun s r => if s.power.enabled r then setRail s r false else s) s
    let s := if n = 0 then { s.eachAw AwDieSt.off with baseDigest := none } else if n = 5 then dropInstall (wiped s) else s
    { s with power := { s.power with lowering := ns, railAt := tput 0 s.ns s.power.railAt } }
  | [] => s

/-- Power the package down (R554): DYING_GASP once, the cause, and the first rails. -/
def powerDown (s : State) (gasp cause : Nat) : State :=
  if s.power.down then s
  else
    let s := if s.power.gasped then s else gaspNow s gasp
    lowerNext { s with power := { s.power with
      gasped := true, down := true, lastReset := cause, stage := 0, lowering := [0, 1, 2, 3, 4, 5, 6] } }

/-- RAIL_DISABLE_DELAY (R543): 0.5 ms after a rail or group, the next is lowered. -/
def execRailDisableDelay (s : State) : Res :=
  act (s.power.lowering.isEmpty = false ∧ tget 0 s.power.railAt 0 + 500000 ≤ s.ns) (lowerNext s) s

/-- PWR_FAIL_N (R554): the alarm, offered even when the package is down already; the gasp and the rails. It lies at the
package power entry, for a lost REF_CLK too, which is handled as PWR_FAIL_N (R578; DESIGN CHOICE, log 138). -/
def powerFail (s : State) : State := powerDown (raise s 0x0905 (packageLoc 4)) 1 7

/-- PWR_FAIL_N (R554, R584). -/
def execPwrFailN (s : State) : Res := .next (powerFail s)

/-! ### Rail faults (R551) -/

/-- Whether the running step uses analogue die `d` (R248, R551). -/
def State.usesAw (s : State) (d : Nat) : Bool :=
  match s.run with
  | some r => (r.plan.moves.getD (nthOfType (r.plan.moves.map (·.1)) 5 d) (0, false)).2
  | none => false

/-- A die whose rail is lost during an installation ends that load (DESIGN CHOICE, log 79). -/
def loseInstall (s : State) : State :=
  match s.analogLoad with
  | some l => failLoad s l 0x1301
  | none => s

/-- An analogue die's rails fail: RAIL_FAULT, the die OFF, the base digest zero, and the end of a step that uses it (R248,
R251, R252, R551). -/
def awRailFault (d : Nat) (s : State) : State :=
  let l := powerLoc (9 + d)
  let s := raise s 0x0904 l
  let s := if (s.awOf d).state = 4 then loseInstall s else s
  let s := { s.setAw d (s.awOf d).off with baseDigest := none }
  if s.usesAw d then deviceFault s 0x0904 l else s

/-- A rail other than an analogue die's fails (R551): RAIL_FAULT at a location, and the package powers down. -/
def groupFault (l : W64) (s : State) : State := powerDown (raise s 0x0904 l) 1 6

/-- A rail's fault. A group's rails enter at the package power entry and feed several sites, none of which its power-good
names: its fault lies at PACKAGE 0x4 (DESIGN CHOICE, log 138). -/
def railFault (r : Rail) (s : State) : State :=
  match r with
  | .group _ => groupFault (packageLoc 4) s
  | .aw d _ => awRailFault d s

/-- POWER_GOOD_TIMEOUT (R543, R551): 5 ms after its enable a power-good is late. -/
def execPowerGoodTimeout (r : Rail) (s : State) : Res :=
  act (s.power.enabled r = true ∧ s.power.good r = false ∧ tget 0 s.power.railAt (railKey r) + 5000000 ≤ s.ns)
    (railFault r s) s

/-- POWER_GOOD_FALL (R543, R551). -/
def execPowerGoodFall (r : Rail) (s : State) : Res :=
  act (s.power.enabled r = true ∧ s.power.good r = true) (railFault r (setGood s r false)) s

/-- VDD_AON_LOW (R551): VDD_AON below 0.76 V, at the package power entry (DESIGN CHOICE, log 138). LAST_RESET does not
outlive it (R544). -/
def execVddAonLow (s : State) : Res :=
  .next (groupFault (packageLoc 4) { s with power := { s.power with aonFell := true } })

/-- AW_POWER_GOOD (R251): all three rails good, the die enters INIT. -/
def execAwPowerGood (d : AwDie) (s : State) : Res :=
  act ((s.awOf d).state = 0 ∧ s.awFitted = true ∧ (List.range 3).all (fun k => bitNat s.power.awGood (3 * d.val + k)) = true)
    (s.setAw d { s.awOf d with state := 1 }) s

/-- AW_CALIBRATION_DONE's effect (R251, R252). -/
def awReadyEff (d : Nat) (s : State) : State :=
  let s := s.setAw d { s.awOf d with state := 3, tick := 0 }
  let all := (List.range 4).all (fun k => (s.awOf k).state == 3 && (s.awOf k).committed)
  bootReady (if all then { s with baseDigest := s.installed } else s)

/-- Whether a die's start-up calibration is done (R251, R273, R278): every group calibrated, and every retirement, refresh and
restore that power loss interrupted finished. -/
def AwDieSt.calibrated (a : AwDieSt) : Bool :=
  a.toCalibrate.isEmpty && a.lasting.isEmpty && a.refresh.isEmpty && a.tests.all (fun e => !e.2.restore)

/-- AW_CALIBRATION_DONE (R251, R273, R278). -/
def execAwCalibrationDone (d : AwDie) (s : State) : Res :=
  act ((s.awOf d).state = 2 ∧ (s.awOf d).calibrated = true) (awReadyEff d s) s

/-- Every rail of an analogue die loses its power-good. -/
def dropGoods (d : AwDie) (s : State) : State :=
  [Rail.aw d 0, Rail.aw d 1, Rail.aw d 2].foldl (fun s r => setGood s r false) s

/-- AW_RAIL_LOST (R251, R551). -/
def execAwRailLost (d : AwDie) (s : State) : Res := act ((s.awOf d).state ≠ 0) (awRailFault d (dropGoods d s)) s

/-! ### Boot stages (R512, R546, R547) -/

/-- Enter RECOVERY (R512). -/
def recovery (s : State) : State := { s with power := { s.power with stage := 7 } }

/-- Enter a boot stage, with its start time. -/
def enterStage (s : State) (n : Nat) : State :=
  { s with power := { s.power with stage := n, stageTimes := s.power.stageTimes ++ [s.ns] } }

/-- TABLES ends (R9, R510, R548): the copy that passes its checks is in force, and loads the registers' fields. -/
def tablesDone (s : State) : State :=
  match s.bootCopy with
  | none => recovery s
  | some (c, t) =>
    let owned := s.fuses.ownerDigest.isSome
    let inject := owned && ((t.owner.map (·.injectEn)).getD false)
    let s := enterStage s 2
    (List.range 20).foldl (fun s p => s.setPort p { enable := t.linkEnable.getD p true, minWidth := t.minWidth.getD p 4 })
      { s with
        boot := { s.boot with set := some t, owned := owned }, power := { s.power with copy := c }
        fabric := { s.fabric with place := t.place }, grid := { s.grid with injectEn := inject } }

/-- Whether RAILS may end (R543). -/
def State.railsDone (s : State) : Bool := s.power.groupGood == 15 && (!s.awFitted || s.power.awGood == 4095)

/-- HOST_READY (R413, R426, R547): the enabled fabric ports begin training. -/
def hostReady (s : State) : State :=
  let s := (List.range 20).foldl (fun s p => if (s.portOf p).enable then s.setPort p { s.portOf p with state := 1 } else s)
    (enterStage s 5)
  bootReady s

/-- CORE or STACKS ends (R547). A failed one raises RAIL_FAULT at the power domain of the compute die, which CORE tests, or
of the stack that failed (DESIGN CHOICE, log 81). -/
def coreOrStacks (stage : Nat) (ok : Bool) (k : Fin 8) (s : State) : State :=
  if ok = false then recovery (raise s 0x0904 (powerLoc (if stage = 4 then 0 else 1 + k.val)))
  else
    let s := { s with power := if stage = 4 then { s.power with coreDone := true } else { s.power with stacksDone := true } }
    if s.power.coreDone && s.power.stacksDone then hostReady s else s

/-- BOOT_STAGE_END's effect. -/
def stageEndEff (stage : Nat) (ok : Bool) (k : Fin 8) (s : State) : State :=
  if 4 ≤ stage then coreOrStacks stage ok k s
  else if ok = false then recovery s
  else
    match stage with
    | 0 => enterStage s 1
    | 1 => tablesDone s
    | 2 => if s.power.cold then setRail (enterStage s 3) (.group 0) true else enterStage s 4
    | _ => let s := enterStage s 4; { s with power := { s.power with vddCd := s.tbl.reg.vddCdMv } }

/-- BOOT_STAGE_END (R547): the stage under way, whether it succeeded, and the stack at which STACKS failed; CORE and STACKS run
together. -/
def execBootStageEnd (stage : Fin 6) (ok : Bool) (s : State) (stack : Fin 8 := 0) : Res :=
  let p := s.power
  act (p.down = false ∧ p.stage = min 4 stage.val ∧ (stage.val = 3 → ok = true → s.railsDone = true)
      ∧ (stage.val = 4 → p.coreDone = false) ∧ (stage.val = 5 → p.stacksDone = false)) (stageEndEff stage ok stack s) s

/-! ### Heat (R552, R553, R554) -/

/-- The hottest reading. -/
def hottest (t : Temps) : Option (Fin 15 × Int) :=
  t.foldl (fun m e => match m with | some x => if x.2 < e.2 then some e else some x | none => some e) none

/-- The thermal response to a sample (R549, R553). -/
def thermalEff (t : Temps) (s : State) : State :=
  let p := s.power
  let warm := t.any (fun e => decide ((s.heat e.1).1 < e.2))
  let full := t.any (fun e => decide ((s.heat e.1).2.1 ≤ e.2))
  let cool := t.all (fun e => decide (e.2 ≤ (s.heat e.1).1 - 2))
  let hot := hottest t
  let site := (hot.map (·.1.val)).getD 0
  let temp := min 255 ((hot.map (·.2.toNat)).getD 0)
  let p' := { p with
    hot := temp, hotSite := site, thermal := if full then 2 else if warm then 1 else 0
    throttled := warm || (p.throttled && !cool), lowest := full, temps := t.map fun (e : Fin 15 × Int) => (e.1.val, e.2)
    limitSince := if full then p.limitSince.or (some s.ns) else none, limitRaised := full && p.limitRaised }
  let s := { s with power := { p' with effLimit := s.limitNow p' } }
  let s := if warm && !p.throttled then raise s 0x0901 (dieLoc site) else s
  match t.find? (fun e => decide ((s.heat e.1).2.2 ≤ e.2)) with
  | some e => powerDown (raise s 0x0903 (dieLoc e.1)) 2 5
  | none => s

/-- THERMAL_SAMPLE (R552 to R554). -/
def execThermalSample (t : Temps) (s : State) : Res := .next (thermalEff t s)

/-- THERMAL_LIMIT (R553): X at or above 1 for 10 ms. -/
def execThermalLimit (s : State) : Res :=
  act (s.power.limitRaised = false ∧ s.power.limitSince.any (fun t => decide (t + 10000000 ≤ s.ns)) = true)
    (raise { s with power := { s.power with limitRaised := true } } 0x0902 (dieLoc s.power.hotSite)) s

/-! ### The reference input (R578) -/

/-- REF_CLK_MISSING (R578): the always-on oscillator carries the chronometer. -/
def execRefClkMissing (s : State) : Res :=
  act (s.power.refMissing = none) { s with power := { s.power with refMissing := some s.ns } } s

/-- REF_CLK_RETURN (R578): edges return within 10 µs; the chronometer has lost at most 1 ns, freely. -/
def execRefClkReturn (s : State) : Res :=
  act (s.power.refMissing.any (fun t => decide (s.ns ≤ t + 10000)) = true)
    ({ s with power := { s.power with refMissing := none }
              chron := { s.chron with frac := s.chron.frac - 2 ^ 32 * (s.choice 2 0 % 2 : Nat) } }.bump) s

/-- REF_CLK_LOST (R578): missing for 10 µs, handled as PWR_FAIL_N. -/
def execRefClkLost (s : State) : Res :=
  act (s.power.refMissing.any (fun t => decide (t + 10000 ≤ s.ns)) = true) (powerFail s) s

end Sys2Proof.Machine
end

