-- ==== Sys2Proof/Machine/Registers.lean ====
section
/-!
DEFINITION. The set-up registers, the table window and the live tables (R556 to R567): what each register and table reads
as, what a write to each does, and the events of a commit and of an unprescribed write. Also the counter snapshot (R525)
and the error bound of the chronometer (R63).
-/

namespace Sys2Proof.Machine

/-! ### Registers as they read -/

/-- The part of a 64-bit register that a read returns (R557): 0 where the access breaks the rule. -/
def readPart (v : W64) (offset width : Nat) : W64 :=
  if offset = 0 ∧ width = 64 then v
  else if offset = 0 ∧ width = 32 then v &&& 0xFFFF_FFFF
  else if offset = 4 ∧ width = 32 then v >>> 32
  else 0

/-- DEV_ID (R560). -/
def State.devId (s : State) : Nat :=
  s.fuses.grade + s.fuses.stepping * 2 ^ 4 + s.level % 256 * 2 ^ 8 + s.fuses.svn * 2 ^ 16 + 0x4120 * 2 ^ 32

/-- BOOT_STATUS (R549). -/
def State.bootStatus (s : State) : Nat :=
  let p := s.power
  p.stage + p.copy * 2 ^ 4 + p.lastReset * 2 ^ 8 + p.thermal * 2 ^ 12 + p.hot * 2 ^ 16 + p.hotSite * 2 ^ 24

/-- TENANCY_STATUS (R489). -/
def State.tenancyStatus (s : State) : Nat := s.tenancy.kind + s.tenancy.phase * 4 + s.tenancy.opened * 2 ^ 32

/-- AW_HEALTH_d (R276): 0 on an LX part; fields [63:4] once the die has left INIT. -/
def State.awHealth (s : State) (d : Nat) : Nat :=
  let a := s.awOf d
  let top := a.counts.foldl (fun m e => max m e.2) 0
  if s.isLX then 0
  else a.state + natOfBool s.baseDigest.isSome * 2 ^ 3
    + (if a.state ≤ 1 then 0 else a.degraded.length * 2 ^ 16 + a.retired.length * 2 ^ 32 + min 16383 top * 2 ^ 48
      + natOfBool (decide (9000 ≤ top)) * 2 ^ 62 + natOfBool (!a.lost.isEmpty) * 2 ^ 63)

/-- TIME_CTRL and TIME_STATUS (R560). -/
def State.timeCtrl (s : State) : Nat := s.chron.mode + s.chron.parent * 4
def State.timeStatus (s : State) : Nat :=
  (if s.chron.discipline = 0 then 1 else s.chron.state) + s.chron.bound % 65536 * 2 ^ 16
    + (BitVec.ofInt 32 s.chron.rate).toNat * 2 ^ 32

/-- CADENCE_CTRL (R372). -/
def State.cadenceCtrl (s : State) : Nat :=
  natOfBool s.cad.nextCompact + s.cad.nextLast * 2 + s.cad.nextCtrlLen * 2 ^ 16

/-- FABRIC_CTRL (R433). -/
def State.fabricCtrl (s : State) : Nat :=
  let f := s.fabric
  f.place.toNat + f.flat * 2 ^ 16 + natOfBool f.flatValid * 2 ^ 28 + f.timeout * 2 ^ 32 + f.rounds * 2 ^ 48

/-- GRID_CTRL (R465). -/
def State.gridCtrl (s : State) : Nat :=
  let g := s.grid
  g.grid + natOfBool g.memberEn * 2 ^ 16 + g.twin * 2 ^ 17 + g.twinPort * 2 ^ 19 + natOfBool g.injectEn * 2 ^ 24
    + g.fenceLimit * 2 ^ 32 + g.twinTimeout * 2 ^ 48

/-- MEMBER_STATUS, 128 bits (R465). -/
def State.memberStatus (s : State) : W128 :=
  let g := s.grid
  BitVec.ofNat 128 (g.epoch + g.state * 2 ^ 32 + g.twinState * 2 ^ 35 + s.minLevel * 2 ^ 40 + g.vacancy.length * 2 ^ 48
    + g.gseq * 2 ^ 64)

/-- LINK_CTRL_p and LINK_STATUS_p (R426). -/
def PortSt.ctrlWord (x : PortSt) : Nat := natOfBool x.enable + x.minWidth * 2 ^ 4
def PortSt.statusWord (x : PortSt) : Nat :=
  x.state + x.cause * 2 ^ 3 + x.rxMask.toNat * 2 ^ 8 + x.txMask.toNat * 2 ^ 16 + x.level * 2 ^ 24 + x.partner.toNat * 2 ^ 32
    + x.partnerPort * 2 ^ 48 + x.retrains * 2 ^ 56

/-- STOP_STATUS (R534). -/
def Stop.statusWord (t : Stop) : Nat := t.state + natOfBool t.ending * 4 + t.causes * 8

/-- WIN_CTRL (R561). -/
def State.winCtrl (s : State) : Nat := s.winTable + natOfBool s.winLive * 2 ^ 8 + s.winBase * 2 ^ 20

/-- COMMIT_STATUS (R564). -/
def State.commitStatus (s : State) : Nat :=
  (List.range 10).foldl (fun n t => n + natOfBool (decide (1 ≤ t) && (s.tableOf t).pending) * 2 ^ t) 0 + s.commits * 2 ^ 32

/-! ### Tables (R561 to R563) -/

/-- Bytes of an entry and number of entries of a live table (R562). -/
def liveShape (t : Nat) : Option (Nat × Nat) :=
  [(1, 4, 64), (2, 4, 32768), (3, 8, 8192), (4, 8, 8), (5, 8, 256), (6, 8, 1024), (7, 4, 4096), (8, 8, 4), (9, 4, 20)].lookup t

/-- Current size in bytes of a table; 0 for an undefined identifier (R561, R562). -/
def State.tableSize (s : State) (t : Nat) : Nat :=
  match liveShape t with
  | some (n, k) => n * k
  | none =>
    if t = 0x20 then 8192 * 16 else if t = 0x21 then 256 * 8 else if t = 0x22 then 8 * s.grid.vacancy.length
    else if t = 0x23 then 1024 else if t = 0x24 then 16384 else if t = 0x25 then 960 else if t = 0x26 then 0x2100
    else if t = 0x27 then 52 * s.sortedSets.length else if t = 0x28 then 33554432
    else if t = 0x29 then 0x1000 + 512 * 20 else 0

/-- WIN_STATUS (R561). -/
def State.winStatus (s : State) : Nat := natOfBool s.winIgnored + s.tableSize s.winTable * 2 ^ 32

/-- The vacancy-list entry of an item (R472). -/
def itemWord (i : Item) : Nat := i.key + natOfBool i.rehearsal * 2 ^ 22 + i.stamp * 2 ^ 32

/-- The capture entry of an alarm-latch bit (R524, R562). -/
def captureBytes (c : Capture) : Bytes :=
  leBytes 8 (c.code + c.rank * 2 ^ 16 + 2 ^ 24 + c.count * 2 ^ 32) ++ leBytes 8 c.loc.toNat ++ leBytes 8 c.stamp ++ zeros 8

/-- The alarm bitmap (R524). -/
def State.latchBits (s : State) : Nat := s.latch.foldl (fun n e => n + 2 ^ e.1) 0

/-- Domain status entry (R290). -/
def domainBytes (d : Domain) : Bytes := leBytes 8 (d.state + d.epoch * 2 ^ 32) ++ leBytes 8 d.used

/-- Function status entry (R370). -/
def FnState.statusWord (x : FnState) : Nat := x.openStreams + x.pages * 2 ^ 24 + natOfBool x.inReset * 2 ^ 63

/-- Bytes of die `d`'s list of lost panes (R275, R562). -/
def lostBytes (a : AwDieSt) : Bytes := padTo 4096 (leBytes 4 a.lost.length ++ (a.lost.take 1023).flatMap (leBytes 4))

/-- Bytes of die `d`'s degraded-group bitmap (R274). -/
def degradedBytes (a : AwDieSt) : Bytes := leBytes 256 (a.degraded.foldl (fun n g => n + 2 ^ g) 0)

/-- A byte of a number held little-endian in `n` bytes. -/
def byteOf (v k : Nat) : Byte := BitVec.ofNat 8 (v / 256 ^ k)

/-- Byte `k` of a table as a read sees it (R561, R562); `live` shows the active copy of a live table. -/
def State.tableByte (s : State) (t : Nat) (live : Bool) (k : Nat) : Byte :=
  if s.tableSize t ≤ k then 0
  else
    match liveShape t with
    | some (n, _) =>
      let l := s.tableOf t
      byteOf (tget (entryReset t) (if live then l.active else l.shadow) (k / n)).toNat (k % n)
    | none =>
      if t = 0x20 then (domainBytes (s.domOf (k / 16))).getD (k % 16) 0
      else if t = 0x21 then byteOf (s.fnOf (k / 8)).statusWord (k % 8)
      else if t = 0x22 then byteOf ((s.grid.vacancy[k / 8]?.map itemWord).getD 0) (k % 8)
      else if t = 0x23 then (degradedBytes (s.awOf (k / 256))).getD (k % 256) 0
      else if t = 0x24 then (lostBytes (s.awOf (k / 4096))).getD (k % 4096) 0
      else if t = 0x25 then byteOf (tget 0 s.drops (k / 4)) (k % 4)
      else if t = 0x26 then
        if k < 32 then byteOf s.latchBits k
        else if k < 0x100 then 0
        else ((tfind s.latch ((k - 0x100) / 32)).map (fun c => (captureBytes c).getD (k % 32) 0)).getD 0
      else if t = 0x27 then
        ((s.sortedSets[k / 52]?).map (fun e => (leBytes 4 e.2.kind ++ padTo 48 e.1).getD (k % 52) 0)).getD 0
      else if t = 0x28 then
        if s.trace.enable then 0
        else ((tfind s.trace.store (k / 16)).map (fun e => (traceBytes e).getD (k % 16) 0)).getD 0
      else byteOf (if k < 8 then s.snapAt else tget 0 s.snap (k / 8 * 8)) (k % 8)

/-- Table byte that aperture byte `k` shows (R561). -/
def State.windowAt (s : State) (k : Nat) : Nat := s.winBase * 1048576 + k

/-- What a read of the aperture returns (R561, R563): any aligned width of 8 bytes or less. -/
def State.apertureRead (s : State) (offset width : Nat) : W64 :=
  if width ∈ [8, 16, 32, 64] ∧ offset % (width / 8) = 0 ∧ offset < 1048576 then
    BitVec.ofNat 64 (leNat ((List.range (width / 8)).map fun i => s.tableByte s.winTable s.winLive (s.windowAt (offset + i))))
  else 0

/-! ### The global block as it reads (R560) -/

/-- The 64-bit register at an 8-byte-aligned offset of the global block; unassigned offsets and WO registers read 0. -/
def State.globalWord (s : State) (b : Nat) : Nat :=
  if b = 0x0000 then s.devId
  else if b = 0x0008 then s.fuses.engineMask.toNat
  else if 0x0010 ≤ b ∧ b < 0x0040 then fieldAt (padTo 48 s.fuses.deviceId) (b - 0x0010) 8
  else if 0x0100 ≤ b ∧ b < 0x0280 then
    (List.range 4).foldl (fun n i => n + (tget (0 : W16) s.fuses.arrays ((b - 0x0100) / 2 + i)).toNat * 2 ^ (16 * i)) 0
  else if b = 0x1000 then s.power.pkgLimit
  else if b = 0x1008 then s.bootStatus
  else if b = 0x1010 then s.tenancyStatus
  else if 0x1020 ≤ b ∧ b < 0x1040 then s.awHealth ((b - 0x1020) / 8)
  else if b = 0x1040 then s.auditRate
  else if b = 0x1048 then s.waitLimit
  else if b = 0x1100 then s.timeCtrl
  else if b = 0x1108 then s.timeStatus
  else if b = 0x1110 then s.chron.count
  else if b = 0x1200 then s.selfVpkg
  else if b = 0x1208 then s.prefixTtl
  else if b = 0x1300 then s.cadenceCtrl
  else if b = 0x1308 then s.cad.nextEpoch
  else if b = 0x1400 then s.fabricCtrl
  else if b = 0x1408 then s.gridCtrl
  else if b = 0x1420 then
    ((s.memberStatus &&& 0xFFFF_FFFF) ||| (s.grid.statusLatch &&& 0xFFFF_FFFF_0000_0000)).toNat
  else if b = 0x1428 then s.grid.statusLatch.toNat / 2 ^ 64
  else if 0x2000 ≤ b ∧ b < 0x2140 then
    let x := s.portOf ((b - 0x2000) / 16)
    if b % 16 = 0 then x.ctrlWord else x.statusWord
  else if 0x3000 ≤ b ∧ b < 0x3018 then (s.pathOf ((b - 0x3000) / 8)).ctrl.toNat
  else if b = 0x3018 then s.evring.base.toNat
  else if b = 0x3020 then s.evring.ctrl.toNat
  else if b = 0x3100 then s.trace.ctrl + s.trace.fill * 2 ^ 32
  else if b = 0x3108 then s.trace.mask.toNat
  else if b = 0x3200 then natOfBool s.stop.scanPermit * 4
  else if b = 0x3208 then s.stop.statusWord
  else if b = 0x3210 then s.stop.beat
  else if b = 0x3218 then s.stop.held.toNat
  else if b = 0x3300 then s.replay.ctrl.toNat
  else if b = 0x3308 then s.replay.base.toNat
  else if b = 0x4000 then s.winCtrl
  else if b = 0x4008 then s.winStatus
  else if b = 0x4018 then s.commitStatus
  else 0

/-- Registers of the global block that are 32 bits wide: POWER_CTRL, BOOT_STATUS, LINK_CTRL_p, STOP_CTRL (R426, R534,
R549). -/
def wide32 (b : Nat) : Bool :=
  b == 0x1000 || b == 0x1008 || b == 0x3200 || (decide (0x2000 ≤ b ∧ b < 0x2140) && b % 16 == 0)

/-- What a read of the global block returns (R557, R560). -/
def State.globalRead (s : State) (offset width : Nat) : W64 :=
  let b := offset / 8 * 8
  let v := BitVec.ofNat 64 (s.globalWord b)
  if wide32 b then (if offset % 8 = 0 ∧ width = 32 then v &&& 0xFFFF_FFFF else 0) else readPart v (offset % 8) width

/-! ### The chronometer (R58, R60, R63) -/

/-- Set the chronometer outright (R58): to a later count, while no step runs. -/
def setCount (n : Nat) (s : State) : State :=
  if s.run.isNone ∧ s.chron.count < n then { s with chron := { s.chron with count := n } } else s

/-- A write to TIME_SET (R557): the low half is held; a write that covers the high half acts. -/
def timeSetEff (offset width : Nat) (value : W64) (s : State) : State :=
  if offset = 0 ∧ width = 32 then { s with chron := { s.chron with setLow := value.setWidth 32 } }
  else if offset = 4 ∧ width = 32 then setCount (value.toNat % 2 ^ 32 * 2 ^ 32 + s.chron.setLow.toNat) s
  else if offset = 0 ∧ width = 64 then setCount value.toNat s
  else s

/-- TIME_SET (R58, R557). -/
def execTimeSet (offset width : Nat) (value : W64) (s : State) : Res := .next (timeSetEff offset width value s)

/-- A write to TIME_CTRL (R60, R560): STATE is HOLDOVER until lock. -/
def timeCtrlEff (v : W64) (s : State) : State :=
  { s with chron := { s.chron with mode := fieldNat v.toNat 1 0, parent := fieldNat v.toNat 6 2, state := 1, t1 := none
                                   lastSource := s.ns } }

/-- TIME_CTRL_WRITE (R60). -/
def execTimeCtrlWrite (value : W64) (s : State) : Res := .next (timeCtrlEff value s)

/-- ERROR_BOUND_EXCEEDED (R63): in HOLDOVER the estimated bound passes ±50 ns. -/
def execErrorBoundExceeded (bound : Nat) (s : State) : Res :=
  act (s.chron.state = 1 ∧ s.chron.discipline ≠ 0 ∧ 50 < bound) (unlock s bound) s

/-! ### Commit (R564, R565) -/

/-- Whether a live table's commit point is at once (R565). -/
def State.commitsNow (s : State) (t : Nat) : Bool :=
  decide (1 ≤ t ∧ t ≤ 5 ∨ t = 7) || (decide (t = 8 ∨ t = 9) && s.fabric.armed.isNone)

/-- A write to COMMIT: a live table that is not pending (R564). -/
def commitEff (t : Nat) (s : State) : State :=
  if 1 ≤ t ∧ t ≤ 9 ∧ (s.tableOf t).pending = false then
    let s := s.setTable t { s.tableOf t with pending := true, passed := false }
    if s.commitsNow t then commitNow s t else s
  else s

/-- TABLE_COMMIT (R564). -/
def execTableCommit (value : W64) (s : State) : Res := .next (commitEff (fieldNat value.toNat 7 0) s)

/-- COMMIT_COPY_DONE (R565): after the commit point PENDING clears, and the commit is counted. -/
def execCommitCopyDone (table : Byte) (s : State) : Res :=
  let l := s.tableOf table.toNat
  act (l.pending = true ∧ l.passed = true)
    ({ s with commits := satNat 32 (s.commits + 1) }.setTable table.toNat { l with pending := false, passed := false }) s

/-! ### Aperture writes (R561, R563, R566) -/

/-- Mark a write ignored under R563. -/
def ignoreWrite (s : State) : State := { s with winIgnored := true }.noteSet keyIgnored

/-- The entry of a live table that a write whole and aligned reaches (R563); none for any other width or alignment. -/
def wholeEntry (t k width : Nat) : Option Nat :=
  match liveShape t with
  | some (n, _) => if width = 8 * n ∧ k % n = 0 then some (k / n) else none
  | none => none

/-- The value of an entry of `t` from a write. -/
def entryValue (t : Nat) (value : W64) : W64 :=
  match liveShape t with
  | some (4, _) => value &&& 0xFFFF_FFFF
  | _ => value

/-- Write a shadow entry. -/
def writeShadow (s : State) (t k : Nat) (v : W64) : State :=
  let l := s.tableOf t
  s.setTable t { l with shadow := tset (entryReset t) l.shadow k v, touched := insertNat k l.touched }

/-- Write an entry of both copies, the replicas still to follow (R566). -/
def writeActive (s : State) (t k : Nat) (v : W64) : State :=
  let l := s.tableOf t
  let old := tget (entryReset t) l.active k
  let l' := { l with shadow := tset (entryReset t) l.shadow k v, active := tset (entryReset t) l.active k v
                     updating := tput k (old :: tget [] l.updating k) l.updating }
  let s := s.setTable t l'
  if t = tblCadence then { s with cad := { s.cad with emptied := s.cad.emptied.filter (· != k) } } else s

/-- A write through the aperture to the table shown: `live` for a write to the active copy of a live table. Bytes beyond the
end, and the bytes of an undefined identifier, ignore writes (R561, R563). -/
def tableWrite (live : Bool) (offset width : Nat) (value : W64) (s : State) : State :=
  let t := s.winTable
  let k := s.windowAt offset
  if 1048576 ≤ offset ∨ s.tableSize t ≤ k then s
  else if (liveShape t).isSome then
    match wholeEntry t k width with
    | some e =>
      if (s.tableOf t).pending then ignoreWrite s
      else if live then writeActive s t e (entryValue t value)
      else writeShadow s t e (entryValue t value)
    | none => ignoreWrite s
  else if t = 0x26 ∧ k < 32 ∧ (width = 32 ∧ k % 4 = 0 ∨ width = 64 ∧ k % 8 = 0) then
    latchClear s (latchHit k width value)
  else ignoreWrite s

/-- Whether the window shows the active copy of a live table (R561: LIVE is ignored for device tables). -/
def State.showsActive (s : State) : Bool := s.winLive && (liveShape s.winTable).isSome

/-- APERTURE_WRITE (R561, R563): a write that does not go to an active copy. -/
def execApertureWrite (offset width : Nat) (value : W64) (s : State) : Res :=
  act (s.showsActive = false) (tableWrite false offset width value s) s

/-- UNPRESCRIBED_WRITE (R566): a write made with LIVE 1. -/
def execUnprescribedWrite (offset width : Nat) (value : W64) (s : State) : Res :=
  act (s.showsActive = true) (tableWrite true offset width value s) s

/-- REPLICA_UPDATE_DONE (R566, R567): every lookup sees the new entry. -/
def execReplicaUpdateDone (table : Byte) (entry : Nat) (s : State) : Res :=
  let l := s.tableOf table.toNat
  act ((tfind l.updating entry).isSome = true) (s.setTable table.toNat { l with updating := tdel entry l.updating }) s

/-! ### Reads with an effect (R12, R557, R563) -/

/-- Counters that bytes `k` to `k + n − 1` of table 0x25 touch. -/
def touchedDrops (k n : Nat) : List Nat := (List.range 240).filter fun i => decide (4 * i < k + n ∧ k < 4 * i + 4)

/-- DROP_COUNTER_READ's effect: the value, and the counters it returns cleared but for what coincides (R12); a counter read
in part counts as returned (DESIGN CHOICE, log 83). -/
def dropReadEff (offset width : Nat) (s : State) : State :=
  let v := s.apertureRead offset width
  let hit := touchedDrops (s.windowAt offset) (width / 8)
  { s with drops := hit.foldl (fun t i => tset 0 t i (satNat 32 (s.coinciding (keyDrop i)))) s.drops }.emit (.value v)

/-- DROP_COUNTER_READ (R523, R562, R563). -/
def execDropCounterRead (offset width : Nat) (s : State) : Res :=
  act (s.winTable = 0x25)
    (if width ∈ [8, 16, 32, 64] ∧ offset % (width / 8) = 0 ∧ offset < 1048576 then dropReadEff offset width s
     else s.emit (.value 0)) s

/-- A read of MEMBER_STATUS at offset 0x0_1420 (R557): the bits covered are live, every other bit is latched. -/
def memberReadEff (width : Nat) (s : State) : State :=
  let now := s.memberStatus
  let g := s.grid
  if width = 32 then
    { s with grid := { g with statusLatch := (g.statusLatch &&& 0xFFFF_FFFF) ||| (now &&& ~~~ 0xFFFF_FFFF) } }.emit
      (.value (now.setWidth 64 &&& 0xFFFF_FFFF))
  else if width = 64 then
    { s with grid := { g with statusLatch := (g.statusLatch &&& 0xFFFF_FFFF_FFFF_FFFF)
                                             ||| (now &&& ~~~ 0xFFFF_FFFF_FFFF_FFFF) } }.emit (.value (now.setWidth 64))
  else s.emit (.value 0)

/-- MEMBER_STATUS_READ (R557). -/
def execMemberStatusRead (width : Nat) (s : State) : Res := .next (memberReadEff width s)

/-- FUNC_STATUS (R559). -/
def FnState.funcStatus (x : FnState) : W64 := BitVec.ofNat 64 (natOfBool x.shadowErr + x.doorbellIgnored * 2 ^ 32)

/-- A read of FUNC_STATUS (R559): one that covers the high half clears DOORBELL_IGNORED, but for what coincides (R12). -/
def funcReadEff (f offset width : Nat) (s : State) : State :=
  let x := s.fnOf f
  let v := readPart x.funcStatus offset width
  let clears := (offset = 0 ∧ width = 64) ∨ (offset = 4 ∧ width = 32)
  (if clears then s.setFn f { x with doorbellIgnored := satNat 32 (s.coinciding (keyDoorbell f)) } else s).emit (.value v)

/-- FUNC_STATUS_READ (R557, R559). -/
def execFuncStatusRead (f : Fn) (offset width : Nat) (s : State) : Res :=
  act (s.fnEnabled f = true) (funcReadEff f offset width s) s

/-! ### The counter snapshot (R525, R562) -/

/-- Counters of the movements by table byte. -/
def State.mvCounters (s : State) : List (Nat × Nat) :=
  (List.range 64).flatMap fun n =>
    let m := s.mvOf n
    [(0x100 + 32 * n, m.periods), (0x108 + 32 * n, m.stalls), (0x110 + 32 * n, m.waits)]

/-- Counters of a port by table byte. -/
def portCounters (b : Nat) (c : PortCounters) : List (Nat × Nat) :=
  [(b, c.sent), (b + 0x08, c.accepted), (b + 0x10, c.crcPkt), (b + 0x18, c.crcCtrl), (b + 0x20, c.nakSent),
   (b + 0x28, c.nakRecv), (b + 0x30, c.replayed)]
    ++ (List.range 8).map (fun l => (b + 0x40 + 8 * l, tget 0 c.fecSym l))
    ++ (List.range 8).map (fun l => (b + 0x80 + 8 * l, tget 0 c.fecBad l))
    ++ (List.range 16).map (fun k => (b + 0x100 + 8 * k, tget 0 c.retrains k))
    ++ [(b + 0x180, c.width), (b + 0x188, c.misses), (b + 0x190, c.protocol)]

/-- Every counter by table byte. -/
def State.counters (s : State) : List (Nat × Nat) :=
  s.mvCounters ++ (List.range 20).flatMap (fun p => portCounters (0x1000 + 512 * p) (s.portOf p).counters)

/-- Take a snapshot (R525). -/
def snapshot (s : State) : State := { s with snapAt := s.chron.count, snap := s.counters.foldl snapPut [] }

/-- OBS_SNAPSHOT (R525, R560). -/
def execObsSnapshot (value : W64) (s : State) : Res := act (value.getLsbD 0 = true) (snapshot s) s

/-! ### Writes to the global block (R557, R560) -/

/-- AUDIT_CTRL, WAIT_LIMIT, SELF_VPKG and PREFIX_TTL (R560): the value is stored as written (R8), and its use takes it within
its bounds. -/
def writeAudit (v : Nat) (s : State) : State := { s with auditRate := fieldNat v 4 0 }
def writeWaitLimit (v : Nat) (s : State) : State := { s with waitLimit := fieldNat v 31 0 }
def writeVpkg (v : Nat) (s : State) : State := { s with selfVpkg := fieldNat v 14 0 }
def writeTtl (v : Nat) (s : State) : State := { s with prefixTtl := fieldNat v 31 0 }

/-- CADENCE_CTRL (R372): in force from the next frame start. -/
def writeCadence (v : Nat) (s : State) : State :=
  { s with cad := { s.cad with nextCompact := bitNat v 0, nextLast := fieldNat v 10 1, nextCtrlLen := fieldNat v 23 16 } }

/-- FABRIC_CTRL (R433). -/
def writeFabric (v : Nat) (s : State) : State :=
  { s with fabric := { s.fabric with
      place := BitVec.ofNat 16 v, flat := fieldNat v 27 16, flatValid := bitNat v 28, timeout := fieldNat v 47 32
      rounds := fieldNat v 49 48 } }

/-- GRID_CTRL (R465): MEMBER_EN set floods the member's level and ends SPLIT's refusal (R475, R484); a write that covers TWIN
ends OUT and LONE (R483). -/
def writeGrid (v : Nat) (low : Bool) (s : State) : State :=
  let g := s.grid
  let en := bitNat v 16
  let twin := fieldNat v 18 17
  let joins := en && !g.memberEn
  let g := { g with grid := fieldNat v 15 0, memberEn := en, twin := twin, twinPort := fieldNat v 23 19
                    injectEn := bitNat v 24, fenceLimit := fieldNat v 47 32
                    twinTimeout := fieldNat v 63 48, twinState := if low then 0 else g.twinState }
  let g := if joins ∧ g.state = 4 then { g with state := 3, items := [], set := [], ownSeal := none } else g
  let s := { s with grid := g }
  if joins then floodLevel s else s

/-- GRID_CMD's commands (R465). -/
def gridCommand (epoch cmd : Nat) (s : State) : State :=
  let s := if bitNat cmd 0 then resumeEff epoch s else s
  if bitNat cmd 1 then withdrawEff s else s

/-- GRID_CMD (R557): the low half is held; a write that covers the high half acts. -/
def writeGridCmd (offset width : Nat) (value : W64) (s : State) : State :=
  if offset = 0 ∧ width = 32 then { s with grid := { s.grid with cmdLow := value.setWidth 32 } }
  else if offset = 4 ∧ width = 32 then gridCommand s.grid.cmdLow.toNat (value.toNat % 2 ^ 32) s
  else if offset = 0 ∧ width = 64 then gridCommand (value.toNat % 2 ^ 32) (value.toNat / 2 ^ 32) s
  else s

/-- TELEM_CTRL_p (R519): COLLECTOR fields on path 2 alone. -/
def writeTelem (p : Nat) (v : W64) (s : State) : State :=
  s.setPath p { s.pathOf p with ctrl := v &&& (if p = 2 then 0x1_FFFF_000F else 0xF) }

/-- EVRING_BASE (R520): while ENABLE is 0. -/
def writeRingBase (v : W64) (s : State) : State :=
  if s.evring.enable then s else { s with evring := { s.evring with base := v &&& ~~~ 0xFFF } }

/-- TRACE_CTRL (R527): an ENABLE going from 0 to 1 starts the store anew (DESIGN CHOICE, log 78). -/
def writeTrace (v : Nat) (s : State) : State :=
  let t := s.trace
  let t' := { t with ctrl := fieldNat v 10 0 }
  { s with trace := if bitNat v 0 && !t.enable then { t' with fill := 0, next := 0, store := [] } else t' }

/-- STOP_CTRL (R534): RESUME, REQUEST, and SCAN_PERMIT. -/
def writeStop (v : Nat) (permit : Bool) (s : State) : State :=
  let s := if bitNat v 1 ∧ s.stop.state = 2 ∧ s.stop.ending = false then releaseStop s else s
  let s := if bitNat v 0 then resumableStop s 3 else s
  if permit then { s with stop := { s.stop with scanPermit := bitNat v 2 } } else s

/-- REPLAY_CTRL (R537): written only while no tenancy is open. -/
def writeReplay (v : W64) (s : State) : State :=
  if s.tenancy.phase = 0 then { s with replay := { s.replay with ctrl := v &&& 0xFFFF_FFFF_0000_000F } } else s

/-- WIN_CTRL and WIN_STATUS (R12, R561). -/
def writeWin (v : Nat) (s : State) : State :=
  { s with winTable := fieldNat v 7 0, winLive := bitNat v 8, winBase := fieldNat v 63 20 }
def writeWinStatus (v : Nat) (s : State) : State := 
  if bitNat v 0 then { s with winIgnored := decide (0 < s.coinciding keyIgnored) } else s

/-- The effect of a new value of a 64-bit register of the global block; RO registers and unassigned offsets ignore it. `low` when
the write covers bits [31:0]. -/
def writeWord (b : Nat) (low : Bool) (v : W64) (s : State) : State :=
  let n := v.toNat
  if b = 0x1040 then writeAudit n s
  else if b = 0x1048 then writeWaitLimit n s
  else if b = 0x1100 then timeCtrlEff v s
  else if b = 0x1200 then writeVpkg n s
  else if b = 0x1208 then writeTtl n s
  else if b = 0x1300 then writeCadence n s
  else if b = 0x1308 then { s with cad := { s.cad with nextEpoch := n } }
  else if b = 0x1400 then writeFabric n s
  else if b = 0x1408 then writeGrid n low s
  else if 0x3000 ≤ b ∧ b < 0x3018 then writeTelem ((b - 0x3000) / 8) v s
  else if b = 0x3018 then writeRingBase v s
  else if b = 0x3020 then { s with evring := s.evring.write v }
  else if b = 0x3100 then writeTrace n s
  else if b = 0x3108 then { s with trace := { s.trace with mask := v } }
  else if b = 0x3300 then writeReplay v s
  else if b = 0x3308 then { s with replay := { s.replay with base := v &&& ~~~ 0xFFF } }
  else if b = 0x4000 then writeWin n s
  else s

/-- Registers of the global block all of whose writable fields are WO or W1C: a write acts with the bits it carries, the others
being 0. -/
def actsAlone (b : Nat) : Bool := b == 0x3028 || b == 0x4008 || b == 0x4010

/-- The effect of the bits written to such a register. -/
def writeBits (b : Nat) (v : W64) (s : State) : State :=
  if b = 0x3028 then (if v.getLsbD 0 then snapshot s else s)
  else if b = 0x4008 then writeWinStatus v.toNat s
  else if b = 0x4010 then commitEff (fieldNat v.toNat 7 0) s
  else s

/-- A write to the global block (R557, R560). A write of the high half alone of OBS_SNAPSHOT or COMMIT acts on nothing. -/
def globalWrite (offset width : Nat) (value : W64) (s : State) : State :=
  let b := offset / 8 * 8
  let o := offset % 8
  if b = 0x1118 then timeSetEff o width value s
  else if b = 0x1410 then writeGridCmd o width value s
  else if wide32 b then
    if o = 0 ∧ width = 32 then
      let w := value.setWidth 32
      if b = 0x1000 then devResetEff w (pkgLimitEff w s)
      else if b = 0x3200 then writeStop w.toNat true s
      else if 0x2000 ≤ b then linkCtrlWrite s ((b - 0x2000) / 16) w
      else s
    else s
  else if actsAlone b then
    match regMerge 0 o width value with
    | some v => if o = 4 then s else writeBits b v s
    | none => s
  else
    match regMerge (BitVec.ofNat 64 (s.globalWord b)) o width value with
    | some v => writeWord b (o == 0) v s
    | none => s

/-! ### The management path (R558) -/

/-- A write of the management path: REQUEST and RESUME of STOP_CTRL, TELEM_CTRL_1, and the alarm latch while the window shows
table 0x26 (DESIGN CHOICE, log 84). -/
def mctpWrite (offset width : Nat) (value : W64) (s : State) : State :=
  if offset = 0x3200 ∧ width = 32 then writeStop (value.toNat % 2 ^ 32) false s
  else if offset / 8 * 8 = 0x3008 then globalWrite offset width value s
  else if 0x100000 ≤ offset ∧ offset < 0x200000 ∧ s.winTable = 0x26 ∧ s.windowAt (offset - 0x100000) < 32 then
    tableWrite false (offset - 0x100000) width value s
  else s

/-- Whether the register at an offset has become readable (R9): those with fields of reset "fuse" once FUSE has ended, those
with fields of reset "table" once the signed tables are loaded. -/
def State.regLoaded (s : State) (b : Nat) : Bool :=
  (s.power.stage != 0 || decide (0x280 ≤ b))
    && (s.boot.set.isSome || !(b == 0 || b == 0x1400 || b == 0x1408 || (decide (0x2000 ≤ b ∧ b < 0x2140) && b % 16 == 0)))

/-- A read of the global block by the management path; a read at 0x0_1420 latches MEMBER_STATUS. One of a register that is not
readable yet is not answered (DESIGN CHOICE, log 140). -/
def mctpRead (offset width : Nat) (s : State) : State :=
  if ¬ s.regLoaded (offset / 8 * 8) then s
  else if offset = 0x1420 then memberReadEff width s
  else s.emit (.value (s.globalRead offset width))

/-- MCTP_REGISTER_ACCESS (R558). -/
def execMctpRegisterAccess (write : Bool) (offset width : Nat) (value : W64) (s : State) : Res :=
  .next (if write then mctpWrite offset width value s else mctpRead offset width s)

/-! ### The function block (R559) -/

/-- FUNC_CTRL as it reads (R559). -/
def FnState.ctrlWord (x : FnState) : W64 :=
  BitVec.ofNat 64 (natOfBool x.shadowEn + natOfBool x.pasidEn * 2 + x.pasid * 4)

/-- FUNC_CTRL written: SHADOW_EN stays 0 while a base is 0. -/
def FnState.writeCtrl (x : FnState) (v : Nat) : FnState :=
  { x with shadowEn := bitNat v 0 && x.shadowBase != 0 && x.eventBase != 0, pasidEn := bitNat v 1, pasid := fieldNat v 21 2 }

/-- An MSI-X table entry as 16 bytes of PCI Express: address, data, vector control. -/
def Msix.lo (e : Msix) : W64 := e.addr
def Msix.hi (e : Msix) : W64 := BitVec.ofNat 64 (e.data.toNat + natOfBool e.masked * 2 ^ 32)

/-- A write to an MSI-X table entry (R382, R385): an unmasked vector sends its held message. -/
def msixWrite (s : State) (f k offset width : Nat) (value : W64) : State :=
  let x := s.fnOf f
  let e := tget {} x.msix k
  if offset < 8 then
    match regMerge e.lo offset width value with
    | some v => s.setFn f { x with msix := tset {} x.msix k { e with addr := v &&& ~~~ 3 } }
    | none => s
  else
    match regMerge e.hi (offset - 8) width value with
    | some v =>
      let m := v.getLsbD 32
      let s := s.setFn f { x with msix := tset {} x.msix k { e with data := v.setWidth 32, masked := m } }
      if e.masked && !m then sendHeldMsix s f k else s
    | none => s

/-- A write to the function block outside its doorbells and contexts (R559). -/
def fnWrite (f offset width : Nat) (value : W64) (s : State) : State :=
  let x := s.fnOf f
  let b := offset / 8 * 8
  if 0x1200 ≤ offset ∧ offset < 0x1240 then
    if width = 32 ∧ offset % 4 = 0 then
      let q := (offset - 0x1200) / 4
      let n := value.toNat
      s.setCq f q { s.cqOf f q with coalCount := fieldNat n 7 0, coalTime := fieldNat n 23 8 }
    else s
  else if b = 0x1240 then
    match regMerge x.ctrlWord (offset % 8) width value with
    | some v => s.setFn f (x.writeCtrl v.toNat)
    | none => s
  else if b = 0x1248 then
    match regMerge x.shadowBase (offset % 8) width value with
    | some v => s.setFn f { x with shadowBase := v &&& ~~~ 0xFFF }
    | none => s
  else if b = 0x1250 then
    match regMerge x.eventBase (offset % 8) width value with
    | some v => s.setFn f { x with eventBase := v &&& ~~~ 0xFFF }
    | none => s
  else if b = 0x1258 then
    match regMerge 0 (offset % 8) width value with
    | some v => if v.getLsbD 0 then s.setFn f { x with shadowErr := decide (0 < s.coinciding (keyShadow f)) } else s
    | none => s
  else if 0x2000 ≤ offset ∧ offset < 0x2080 then
    msixWrite s f ((offset - 0x2000) / 16) ((offset - 0x2000) % 16) width value
  else s

/-- A write to the function block (R341, R559): doorbells and ring contexts, or the rest. -/
def fnBlockWrite (f : Fn) (offset width : Nat) (value : W64) (s : State) : Res :=
  if offset < 0x1000 ∧ width ≠ 32 then execSqTailDoorbell f 0 width value s
  else if offset < 0x80 then
    if offset % 8 = 0 then execSqTailDoorbell f (Fin.ofNat 16 (offset / 8)) width value s else .next s
  else if offset < 0x100 then
    if offset % 8 = 0 then execCqHeadDoorbell f (Fin.ofNat 16 ((offset - 0x80) / 8)) width value s else .next s
  else if 0x1000 ≤ offset ∧ offset < 0x1100 then
    execSqContextWrite f (Fin.ofNat 16 ((offset - 0x1000) / 16)) (decide (8 ≤ offset % 16)) (offset % 8) width value s
  else if 0x1100 ≤ offset ∧ offset < 0x1200 then
    execCqContextWrite f (Fin.ofNat 16 ((offset - 0x1100) / 16)) (decide (8 ≤ offset % 16)) (offset % 8) width value s
  else act (s.fnEnabled f = true ∧ (s.fnOf f).inReset = false) (fnWrite f offset width value s) s

/-- REGISTER_WRITE (R8, R556, R557): BAR0 is the function block; BAR2, of PF0 alone, the global block and the aperture. -/
def execRegisterWrite (f : Fn) (bar2 : Bool) (offset width : Nat) (value : W64) (s : State) : Res :=
  if bar2 then
    if f.val ≠ 0 ∨ (s.fnOf 0).inReset = true then .next s
    else if offset < 0x100000 then .next (globalWrite offset width value s)
    else .next (tableWrite s.showsActive (offset - 0x100000) width value s)
  else fnBlockWrite f offset width value s

end Sys2Proof.Machine
end

