-- ==== Sys2Proof/Machine/Pins.lean ====
section
/-!
DEFINITION. The low-speed lands whose level follows from the state (R580), and the public instructions of the IEEE 1149.1
port (R582).
-/

namespace Sys2Proof.Machine

/-! ### Lands (R580) -/

/-- ALARM_N is asserted (low) while any bit of the alarm latch is set. -/
def State.alarmN (s : State) : Bool := s.latch.isEmpty

/-- SMB_ALERT_N is asserted (low) while an alarm record waits on path 1. -/
def State.smbAlertN (s : State) : Bool := !(s.pathOf 1).queue.any (fun e => e.2.cls == 0)

/-- PWR_EN_Gk, group k of 0 to 3. -/
def State.pwrEn (s : State) (k : Nat) : Bool := bitNat s.power.groupEn k

/-- AWEN_d_k; never asserted on an LX part. -/
def State.awEnPin (s : State) (d k : Nat) : Bool := !s.isLX && bitNat s.power.awEn (3 * d + k)

/-! ### The IEEE 1149.1 port (R582) -/

/-- IDCODE. -/
def idcodeValue : Nat := 0x1412_0A3F

/-- Bits in order of shifting, packed into bytes, the first bit lowest. -/
def shiftedBytes : Nat → List Bool → Bytes
  | 0, _ => []
  | n + 1, bs => BitVec.ofNat 8 (((indexed (bs.take 8)).map (fun e => natOfBool e.2 * 2 ^ e.1)).sum) :: shiftedBytes n (bs.drop 8)

/-- What the boundary cells captured, as shifted out: the levels of the lands are not known to the model (free bytes, log
85). -/
def capturedBits (s : State) (n : Nat) : Bytes := (List.range ((n + 7) / 8)).map (Config.freeByte s.free)

/-- Select an instruction of the port. -/
def selectIr (code : Nat) (driving : Bool) (s : State) : State :=
  { s with jtag := { s.jtag with ir := code, driving := driving } }

/-- Shift bits into the boundary register, what it captured coming out. -/
def shiftBoundary (bits : List Bool) (s : State) : State :=
  ({ s with jtag := { s.jtag with boundary := bits } }.emit (.tdo (capturedBits s bits.length))).bump

/-- EXTEST (R582): the boundary register drives the lands. -/
def execExtest (bits : List Bool) (s : State) : Res := .next (shiftBoundary bits (selectIr 0x00 true s))

/-- IDCODE (R582). -/
def execIdcode (s : State) : Res := .next ((selectIr 0x01 false s).emit (.tdo (leBytes 4 idcodeValue)))

/-- SAMPLE/PRELOAD (R582). -/
def execSamplePreload (bits : List Bool) (s : State) : Res := .next (shiftBoundary bits (selectIr 0x02 false s))

/-- BYPASS (R582): one bit of delay, whose first bit out is 0. -/
def execBypass (bits : List Bool) (s : State) : Res :=
  .next ((selectIr 0xFF false s).emit (.tdo (shiftedBytes ((bits.length + 8) / 8) (false :: bits))))

end Sys2Proof.Machine
end

