-- ==== Sys2Proof/Machine/Beats.lean ====
section
/-!
DEFINITION. Beats and steps (02_beats_and_time.md, 03_plans_in_execution.md): a movement's balance periods, the ops a
sequencer issues at a plan beat, instruction fetch, the regulator, and the arming, launch and completion of steps. Also
the passage of one nanosecond (R57).
-/

namespace Sys2Proof.Machine

/-! ### The op commands (R84) -/

/-- The meaning of an op command; a command that is no op does nothing here. -/
def execOp : Instr → State → Res
  | .nop v => execNop v
  | .idle v n => execIdle v n
  | .agBase v g b => execAgBase v g b
  | .agStride v g l x => execAgStride v g l x
  | .nestOpen v l n p => execNestOpen v l n p
  | .wait v t q x => execWait v t q x
  | .take v d q r x => execTake v d q r x
  | .stepEnd v => execStepEnd v
  | .tileLoad v a r b f c => execTileLoad v a r b f c
  | .tileScales v a b => execTileScales v a b
  | .ascaleSet v a => execAscaleSet v a
  | .stream v a c r b st su f an => execStream v a c r b st su f an
  | .drain v d c r f ro sa cl an => execDrain v d c r f ro sa cl an
  | .drainWide v d c r cl => execDrainWide v d c r cl
  | .accLoad v a c r ad => execAccLoad v a c r ad
  | .seedSet v x => execSeedSet v x
  | .add v f => execAdd v f
  | .sub v f => execSub v f
  | .mul v f => execMul v f
  | .mad v f => execMad v f
  | .min v f => execMin v f
  | .max v f => execMax v f
  | .affine v f => execAffine v f
  | .cmpeq v f => execCmpeq v f
  | .cmpne v f => execCmpne v f
  | .cmplt v f => execCmplt v f
  | .cmple v f => execCmple v f
  | .sel v f => execSel v f
  | .and v f => execAnd v f
  | .or v f => execOr v f
  | .xor v f => execXor v f
  | .shl v f => execShl v f
  | .shr v f => execShr v f
  | .exps v f => execExps v f
  | .iota v d i => execIota v d i
  | .vectorCopy v d a => execVectorCopy v d a
  | .abs v d a => execAbs v d a
  | .neg v d a => execNeg v d a
  | .exp2 v d a => execExp2 v d a
  | .log2 v d a => execLog2 v d a
  | .rcp v d a => execRcp v d a
  | .sqrt v d a => execSqrt v d a
  | .rsqrt v d a => execRsqrt v d a
  | .tanh v d a => execTanh v d a
  | .sigmoid v d a => execSigmoid v d a
  | .gelu v d a => execGelu v d a
  | .silu v d a => execSilu v d a
  | .vset v a b o r sa x t => execVset v a b o r sa x t
  | .vtap v k t st an i => execVtap v k t st an i
  | .tload v t f an m => execTload v t f an m
  | .rsum v a c => execRsum v a c
  | .rsumsq v a c => execRsumsq v a c
  | .rdot v a b c => execRdot v a b c
  | .rmax v a c => execRmax v a c
  | .rmin v a c => execRmin v a c
  | .rargmax v a i c => execRargmax v a i c
  | .raddw v a m => execRaddw v a m
  | .rstore v d m ro f r sa an => execRstore v d m ro f r sa an
  | .transpose v d a r w e => execTranspose v d a r w e
  | .retile v d a n r w => execRetile v d a n r w
  | .convert v d a g i o r sa => execConvert v d a g i o r sa
  | .kset v a d x => execKset v a d x
  | .pset v f r c nr nc g t q => execPset v f r c nr nc g t q
  | .mvm v i c n f r sa an t q => execMvm v i c n f r sa an t q
  | .prel v t q => execPrel v t q
  | .read v o r n q => execRead v o r n q
  | .write v o r n a q => execWrite v o r n a q
  | .gather v i r n l q => execGather v i r n l q
  | .scatter v i r n l d q => execScatter v i r n l d q
  | .embed v i a b n l x q => execEmbed v i a b n l x q
  | .zero v o r n q => execZero v o r n q
  | .copy v o a b n d q => execCopy v o a b n d q
  | .pageAppend v a n r h q => execPageAppend v a n r h q
  | .pageRead v f n r x h q => execPageRead v f n r x h q
  | .bset v n f => execBset v n f
  | .select v z x r => execSelect v z x r
  | .hread v b n o q => execHread v b n o q
  | .hwrite v a b n o q => execHwrite v a b n o q
  | .fsend v a f n b q => execFsend v a f n b q
  | .frecv v n b q => execFrecv v n b q
  | _ => fun s => .next s

/-- The state an answer leaves; an op command always answers a next state. -/
def after (r : Res) (s : State) : State := match r with | .next t => t | _ => s

/-! ### Instruction queues (R93, R98 to R100) -/

/-- The lowest word index a sequencer still needs: the body of the outermost open nest of at most 384 words, else the next
word (R93, R99). -/
def Seq.keepFrom (q : Seq) : Nat :=
  (q.nest.filter (fun n => decide (n.close - n.body ≤ 384))).foldl (fun m n => min m n.body) q.pos

/-- Drop the entries a sequencer no longer needs (R98, R99). -/
def Seq.prune (q : Seq) : Seq := { q with iq := q.iq.filter (fun e => decide (q.keepFrom ≤ e.1)) }

/-- The words of a block of 32 from index `i` (R98). -/
def blockWords (code : List W128) (i : Nat) : List (Nat × W128) :=
  (indexed ((code.drop i).take 32)).map (fun e => (i + e.1, e.2))

/-- Entries that are free for one more block (R98): 32 or more of 512, blocks outstanding counted. -/
def Seq.roomy (q : Seq) : Bool :=
  decide (q.iq.length + q.iqNext.length + 32 * (q.fetching.length + q.fetching2.length) + 32 ≤ 512)

/-- The plan of the step that launches next, once its descriptor has been accepted (R99). -/
def State.nextPlan (s : State) : Option Plan := s.steps.head?.bind (fun r => (s.slotOf r.slot).plan)

/-- Whether the running step's STEP_END is in the queue, or no step runs (R99). -/
def State.fetchedAll (s : State) (v : Nat) : Bool :=
  match s.run with
  | some _ => decide ((s.code v).length ≤ (s.seqOf v).fetchNext) && (s.seqOf v).fetching.isEmpty
  | none => true

/-- Request a block of the running step's stream, or else of the next step's (R98, R99). -/
def fetchRequestEff (v : Nat) (s : State) : State :=
  let q := s.seqOf v
  if s.run.isSome ∧ q.fetchNext < (s.code v).length then
    s.setSeq v { q with fetching := q.fetching ++ [q.fetchNext], fetchNext := q.fetchNext + 32 }
  else
    match s.nextPlan with
    | some p =>
      if s.fetchedAll v ∧ q.fetchNext2 < (p.codeOf v).length then
        s.setSeq v { q with fetching2 := q.fetching2 ++ [q.fetchNext2], fetchNext2 := q.fetchNext2 + 32 }
      else s
    | none => s

/-- FETCH_REQUEST (R98). -/
def execFetchRequest (n : Mv) (s : State) : Res :=
  let v := s.virt n
  act ((s.seqOf v).roomy = true) (fetchRequestEff v s) s

/-- The data units that hold a block of 32 words of a stream (R98, R127). -/
def fetchUnits (p : Plan) (v i : Nat) : List (Nat × Nat) :=
  let u := (tget 0 p.codeBase v + 16 * i) / 256
  [p.codeUnit u, p.codeUnit (u + 1)]

/-- The block arrives in the queue. -/
def arriveBlock (v : Nat) (s : State) : State :=
  let q := s.seqOf v
  match q.fetching with
  | i :: is => s.setSeq v ({ q with fetching := is, iq := q.iq ++ blockWords (s.code v) i }).prune
  | [] =>
    match q.fetching2, s.nextPlan with
    | i :: is, some p => s.setSeq v { q with fetching2 := is, iqNext := q.iqNext ++ blockWords (p.codeOf v) i }
    | _ :: is, none => s.setSeq v { q with fetching2 := is }
    | [], _ => s

/-- The units that the block in flight is read from. -/
def State.arriving (s : State) (v : Nat) : List (Nat × Nat) :=
  let q := s.seqOf v
  match q.fetching, s.run with
  | i :: _, some r => fetchUnits r.plan v i
  | _, _ => match q.fetching2, s.nextPlan with
    | i :: _, some p => fetchUnits p v i
    | _, _ => []

/-- FETCH_ARRIVAL's effect (R98, R294, R295): every unit of the block is read through the decoder. -/
def fetchArrivalEff (v : Nat) (upsets : List UnitUpset) (s : State) : State :=
  let s := upsetUnits upsets s
  arriveBlock v (readSystem s (s.arriving v))

/-- FETCH_ARRIVAL (R98). -/
def execFetchArrival (n : Mv) (upsets : List UnitUpset) (s : State) : Res :=
  let v := s.virt n
  act ((s.seqOf v).fetching.isEmpty = false ∨ (s.seqOf v).fetching2.isEmpty = false) (fetchArrivalEff v upsets s) s

/-! ### The ops due at a beat (R85, R87, R88, R91, R95) -/

/-- Pass a NEST_CLOSE (R87, R91): the next iteration of the innermost nest, or its end. A body longer than 384 words is
fetched again for each iteration (R93). -/
def passClose (s : State) (v : Nat) : State :=
  let q := s.seqOf v
  match q.nest with
  | n :: ns =>
    if n.k + 1 < n.count then
      let q := { q with nest := { n with k := n.k + 1 } :: ns, pos := n.body, ref := n.start + (n.k + 1) * n.period }
      if n.close - n.body ≤ 384 then s.setSeq v q
      else if q.keepFrom < n.body then s.setSeq v q
      else s.setSeq v { q with iq := [], fetching := [], fetchNext := n.body }
    else s.setSeq v { q with nest := ns, pos := q.pos + 1, ref := n.start + n.count * n.period }.prune
  | [] => s.setSeq v { q with pos := q.pos + 1 }

/-- An op word with its patched operand word (R84, R95). -/
def OpWord.patched (o : OpWord) (live : Tbl W32) : OpWord :=
  let x := tget 0 live o.pslot.toNat
  match o.pmode.toNat with
  | 1 => { o with ow0 := x }
  | 2 => { o with ow1 := x }
  | 3 => { o with ow2 := x }
  | _ => o

/-- Issue the op word at the head of a sequencer: the meaning of the op it spells, or a plan fault where it spells none
(R84, R85, R95). -/
def issueWord (s : State) (v : VMove) (w : W128) : State :=
  let q := s.seqOf v
  let base := ((s.run.map (fun r => tget 0 r.plan.codeBase v.val)).getD 0)
  let s := s.setSeq v { q with pos := q.pos + 1, opAddr := base + 16 * q.pos }
  let o := (splitWord w).patched q.patchLive
  let s :=
    match (if o.patchOk then decodeOp v o else none) with
    | some i => after (execOp i s) s
    | none => after (issueOp s v (o.eng != 0) false [] (fun _ s => s)) s
  s.setSeq v (s.seqOf v).prune

/-- The next word of a sequencer is due at beat `b` (R87), with its word. -/
def State.dueWord (s : State) (v : Nat) (b : Nat) : Option W128 :=
  match (s.code v)[(s.seqOf v).pos]? with
  | some w => if (s.seqOf v).ref + (splitWord w).delta.toNat ≤ b then some w else none
  | none => none

/-- The word awaited has come: the end of a fetch slip is stamped (R65, R100). -/
def endFetchSlip (s : State) (v : Nat) : State :=
  let q := s.seqOf v
  if q.starved then stampTrace (s.setSeq v { q with starved := false }) (s.pos v) else s

/-- Issue every op of a sequencer that is due at a beat, in stream order, up to a hold, an underflow or STEP_END (R88, R100,
R104). The bound on words handled at one beat is met by every plan the loader accepts. -/
def issueDue : Nat → State → VMove → Nat → State
  | 0, s, _, _ => s
  | n + 1, s, v, b =>
    let q := s.seqOf v
    if q.ended.isSome ∨ q.hold.isSome ∨ 4 ≤ q.event ∨ (s.run.map (·.stopped)).getD true then s
    else
      match (s.code v)[q.pos]? with
      | none => s
      | some w =>
        if (splitWord w).isClose then issueDue n (passClose s v) v b
        else
          match s.dueWord v b with
          | none => s
          | some w =>
            if q.iq.any (fun e => e.1 == q.pos) then issueDue n (issueWord (endFetchSlip s v) v w) v b
            else s.setSeq v { q with starved := true }

/-- Words handled at most at one beat: four ops, and the closes of six levels around each. -/
def issueFuel : Nat := 64

/-! ### Channels (R38 to R42) -/

/-- Consume the tokens of beat `b` from the neighbours that have sent them. -/
def consumeTokens (s : State) (n b : Nat) : State :=
  (gridNeighbours n).foldl (fun s u => if (s.mvOf u).beats ≤ b then s else s.setChan u n (s.chanOf u n).tail) s

/-- Token `b` of the channel from `n` to `u` (R38): its payload, of at most 256 bytes, is free; a movement whose stream has
ended emits empty tokens (R74). -/
def tokenOf (s : State) (n u b : Nat) : Token :=
  { tag := BitVec.ofNat 6 b
    data := if (s.seqOf (s.virt n)).ended.isSome then none
            else (Config.tokenData ((s.run.map (·.number)).getD 0) (64 * n + u) b).map (·.take 256) }

/-- Emit token `b` on every output channel (R39); one that its receiver has already passed is absorbed (log 86). -/
def emitTokens (s : State) (n b : Nat) : State :=
  (gridNeighbours n).foldl (fun s u =>
    if b < (s.mvOf u).beats then s else s.setChan n u (s.chanOf n u ++ [tokenOf s n u b])) s

/-! ### A balance period (R37, R39, R45, R51) -/

/-- Count a period in which a movement issued no plan beat: an escapement stall, or an explicit wait (R37). -/
def stallPeriod (s : State) (n : Nat) : State := s.setMv n { s.mvOf n with stalls := (s.mvOf n).stalls + 1 }
def waitPeriod (s : State) (n : Nat) : State := s.setMv n { s.mvOf n with waits := (s.mvOf n).waits + 1 }

/-- Whether period `p` of each 16 issues under the fixed pattern of `m` of every 16 (R51): the `m` periods that rank first
in the pattern's own order, which the spec does not give (Config.edgeRank, log 87). -/
def edgeIssues (m p : Nat) : Bool :=
  decide (16 ≤ m) || decide (((List.range 16).filter fun q =>
    decide (Config.edgeRank m q < Config.edgeRank m p) ||
      (Config.edgeRank m q == Config.edgeRank m p && decide (q < p))).length < m)

/-- Whether the regulator withholds this edge (R51). -/
def State.withheld (s : State) (n : Nat) : Bool := !edgeIssues s.power.issue16 (((s.mvOf n).periods + 15) % 16)

/-- Fold writes and forget claims that nothing can reach any more (R43, R80). -/
def foldPast (s : State) (n : Nat) : State :=
  let f := s.readFloor
  let s := s.setMv n ((s.mvOf n).fold f)
  s.onRun fun r => { r with claims := r.claims.filter (fun c => decide (s.floor1 ≤ c.beat)) }

/-- The C movement's stamps of its latest beats, and the stamp of the step's last beat once it is known (R65). -/
def stampC (s : State) (n b : Nat) : State :=
  let s := if n = cMove then s.onRun fun r => { r with cStamps := tput b s.chron.count (r.cStamps.filter (fun e => decide (b < e.1 + 32))) } else s
  match s.lastBeat with
  | some l => s.onRun fun r => { r with end_ := r.end_.or (tfind r.cStamps l) }
  | none => s

/-! ### Reports to the regulator (R52) -/

/-- Beats at which a sequencer issues engine ops up to beat `b`, from where it stands (R87, R91). -/
def Seq.engineBeats (code : List W128) (b : Nat) : Nat → Seq → List Nat
  | 0, _ => []
  | n + 1, q =>
    match code[q.pos]? with
    | none => []
    | some w =>
      let o := (splitWord w).patched q.patchLive
      if o.isClose then
        match q.nest with
        | l :: ls =>
          if l.k + 1 < l.count then
            engineBeats code b n { q with nest := { l with k := l.k + 1 } :: ls, pos := l.body, ref := l.start + (l.k + 1) * l.period }
          else engineBeats code b n { q with nest := ls, pos := q.pos + 1, ref := l.start + l.count * l.period }
        | [] => []
      else
        let t := q.ref + o.delta.toNat
        let q := { q with pos := q.pos + 1, ref := t }
        if b < t ∨ (o.eng = 0 ∧ o.op = 8) then []
        else if o.eng ≠ 0 then t :: engineBeats code b n q
        else if o.op = 1 then engineBeats code b n { q with ref := t + o.ow0.toNat }
        else if o.isOpen then
          let close := closeOf (code.drop q.pos) q.pos 0
          if o.ow0 = 0 then engineBeats code b n { q with pos := close + 1 }
          else engineBeats code b n { q with nest := { start := t, count := o.ow0.toNat, period := o.ow2.toNat, k := 0, body := q.pos
                                                       close := close } :: q.nest }
        else engineBeats code b n q

/-- Beats of an engine without an op after which it sleeps (DESIGN CHOICE, log 133). -/
def sleepAfter : Nat := 64

/-- The wake or sleep of a sequencer's engine at beat `t`, `ops` the beats of its ops to come (R52, log 133). -/
def wakeAt (v : Nat) (worked : Option Nat) (ops : List Nat) (t : Nat) : List Wake :=
  let last := (ops.filter (fun x => decide (x < t))).foldl (fun m x => some (max x (m.getD 0))) worked
  if ops.contains t then
    (if last.all (fun x => decide (x + sleepAfter < t)) then [{ vmove := v, beat := t, wake := true }] else [])
  else if last.any (fun x => x + sleepAfter == t) then [{ vmove := v, beat := t, wake := false }] else []

/-- Report the wakes and sleeps of beats `a` to `b`, 64 beats or more before they come (R52). -/
def reportWakes (s : State) (v a b : Nat) : State :=
  let q := s.seqOf v
  if q.ended.isSome ∧ q.worked.isNone then s
  else
    let ops := q.engineBeats (s.code v) b 1024
    let new := ((List.range (b + 1)).filter (fun t => decide (a ≤ t))).flatMap (wakeAt v q.worked ops)
    s.onRun fun r => { r with reports := r.reports.filter (fun x => x.vmove != v || decide (a < x.beat + 66)) ++ new }

/-- A plan beat is issued: tokens out, the beat counted, its TAKE rows moved, its collisions found, the wakes and sleeps 64
beats on reported; then what all movements have passed is settled (R39, R45, R52, R80, R105, R109). -/
def closeBeat (s : State) (n v b : Nat) : State :=
  let s := emitTokens (consumeTokens s n b) n b
  let s := s.setMv n { s.mvOf n with beats := b + 1, quiet := s.ns }
  let s := s.setSeq v { s.seqOf v with event := 0, opened := false, engine := false }
  let s := reportWakes (moveRows s v b) v (b + 65) (b + 65)
  let s := detectCollisions (stampC s n b) v b
  foldPast (hubRelease (settleTo s s.floor1)) n

/-- The site of a movement's fetch slip (R100). -/
def fetchSite (n : Nat) : Nat := 65472 + n

/-- A period spent holding at an explicit wait (R45). -/
def holdPeriod (s : State) (n v : Nat) (h : Hold) : State := waitPeriod (slipBeat s v h) n

/-- The beat's ops, and the end of the beat where none of them holds (R45, R88, R100). -/
def runBeat (s : State) (n : Nat) (v : VMove) (b : Nat) : State :=
  let s := issueDue issueFuel s v b
  let q := s.seqOf v
  match q.hold with
  | some h => holdPeriod s n v h
  | none => if q.starved then waitPeriod (addSlip s (fetchSite n) 1) n else closeBeat s n v b

/-- ESCAPEMENT_TAG (R41). -/
def tagFault (s : State) (n : Nat) : State :=
  let l := cdLoc n 0x014
  deviceFault (raise s 0x0103 l) 0x0103 l

/-- One period of a movement in a step that runs. A movement that holds while an ending stop forms issues empty beats
(R532); every beat needs the channels and the horizon (R39, R40, R41). -/
def stepPeriod (s : State) (n : Nat) (v : VMove) : State :=
  let b := (s.mvOf n).beats
  let s := match (s.seqOf v).hold with | some h => if holdMet s v h then releaseHold s v h else s | none => s
  let empty := s.emptyBeat v
  match (if empty then none else (s.seqOf v).hold) with
  | some h => holdPeriod s n v h
  | none =>
    if s.beatFree n then
      let s := openBeat s v
      if empty then closeBeat s n v b else runBeat s n v b
    else if s.started n b && s.mayIssue b && s.outputsFree n && decide (s.inputs n b = .badTag) then tagFault s n
    else stallPeriod s n

/-- Whether a movement has passed the step's last plan beat (R74). -/
def State.passed (s : State) (n : Nat) : Bool :=
  match s.lastBeat with
  | some l => decide (l < (s.mvOf n).beats)
  | none => false

/-- Whether a queue breaks R106 at the last plan beat: rows untaken, or commands unretired that produce rows. -/
def Queue.unbound (u : Queue) : Bool := !u.rows.isEmpty || u.cmds.any (fun c => decide (0 < c.rows))

/-- QUEUE_BOUNDS at the last plan beat, with every movement at it, for each queue that breaks it (R106): EVENT is 0 and
OP_ADDRESS the address of the sequencer's last op, no op issuing there (DESIGN CHOICE, log 132). A discarded step is not checked
(R387). -/
def boundsAtEnd (s : State) : State :=
  if s.discarded then s
  else
    (List.range 64).foldl (fun s v => ((List.range (queueCount (s.vtype v))).filter (fun q => (s.qOf (qKey v q)).unbound)).foldl
      (fun s q => planFault s { s.pos v with beat := s.lastBeat.getD 0, event := 0 } pfQueue 3 q) s) s

/-- Every row of a TAKE has moved out. -/
def moveAll (s : State) : State :=
  { s with queue := s.queue.map fun e =>
      (e.1, { e.2 with taken := e.2.taken + BitVec.ofNat 32 e.2.moving.length, moving := [] }) }

/-- Every movement has passed the last plan beat: the work left is done, the queues are checked, and the collisions beyond it
are found (R74, R75, R80, R106). -/
def stepPassed (s : State) : State := hubRelease (lateCollisions (boundsAtEnd (moveAll (settleRest s))))

/-- A balance period of a physical movement (R37, R39, R45, R51, R74), after what has befallen its engine's storage; the trace drains at each
period of the C movement (R528). A period
in which no step runs, or in which the movement has passed the last plan beat, counts as neither a stall nor a wait (DESIGN
CHOICE, log 131). -/
def periodEff (n : Nat) (upsets : List Upset) (s : State) : State :=
  let s := if typeOf n = 1 then upsets.foldl (upset n) s else s
  let s := s.setMv n { s.mvOf n with periods := (s.mvOf n).periods + 1 }
  let v : VMove := Fin.ofNat 64 (s.virt n)
  let t := match s.run with
    | none => s
    | some r =>
      if r.stopped ∨ s.passed n then s
      else if s.withheld n then stallPeriod s n
      else
        let t := stepPeriod s n v
        if t.allPassed ∧ ¬ s.allPassed then stepPassed t else t
  if n = cMove then traceDrain t else t

/-- PLAN_BEAT_ISSUE (R39): the next balance period of a movement. -/
def execPlanBeatIssue (n : Mv) (s : State) (upsets : List Upset := []) : Res := .next (periodEff n upsets s)

/-- TIMED_LAUNCH (R64): the C movement issues plan beat 0 of a step with a launch count once the chronometer is there. -/
def execTimedLaunch (s : State) : Res :=
  act (s.run.any (fun r => r.req.start == 1 && decide (r.req.launch ≤ s.chron.count)) = true ∧ (s.mvOf cMove).beats = 0)
    (periodEff cMove [] s) s

/-! ### Balances and the regulator (R35, R36, R42, R49 to R55, R551) -/

/-- The rate that replica paths of a given rate permit with the balance table's margin of the replica delay (R35), in units of
10 kHz. -/
def State.withMargin (s : State) (replica : Nat) : Nat := 100 * replica / (100 + s.tbl.balanceMarginPct)

/-- The rate of a balance (R35): the lowest of what its replica paths permit, the die-wide ceiling and 1.80 GHz. -/
def State.balanceRate (s : State) (n : Nat) : Nat := min (min (s.mvOf n).rate (625 * s.power.ceiling)) 180000

/-- SUPPLY_DROOP (R36): the balance follows its replica paths; below 0.90 GHz BEAT_FLOOR is latched. -/
def execSupplyDroop (n : Mv) (replica : Nat) (s : State) : Res :=
  let rate := s.withMargin replica
  let s := s.setMv n { s.mvOf n with rate := rate }
  .next (if rate < 90000 then raise s 0x0102 (cdLoc n 0x014) else s)

/-- Whether a channel has received no token for 100 µs while its sender held at no explicit wait (R42); not while a stop is held
(R533). In a step the time runs from plan beat 0 at the C movement, and not before it has issued (DESIGN CHOICE, log 134). -/
def State.silent (s : State) (u n : Nat) : Bool :=
  match s.run with
  | some r =>
    r.begin_.isSome && !r.stopped && (gridNeighbours n).contains u && (s.seqOf (s.virt u)).hold.isNone && !s.passed u
      && s.stop.state != 2 && decide (max (s.mvOf u).quiet r.beginNs + 100000 ≤ s.ns)
  | none => false

/-- BALANCE_STOP (R42): the sender's location. -/
def execBalanceStop (n sender : Mv) (s : State) : Res :=
  let l := cdLoc sender 0x014
  act (s.silent sender n = true) (deviceFault (raise s 0x0104 l) 0x0104 l) s

/-- The rate levels of the regulator in rising order (R50, R51): 1 to 15, that many of 16 periods at 0.90 GHz; 16 to 160, the
ceilings from 0.90 GHz in steps of 6.25 MHz. -/
def Power.rateLevel (p : Power) : Nat := if p.issue16 < 16 then p.issue16 else p.ceiling - 144 + 16
def Power.setLevel (p : Power) (k : Nat) : Power :=
  if k < 16 then { p with ceiling := 144, issue16 := k } else { p with ceiling := 144 + (k - 16), issue16 := 16 }

/-- The estimates of the last 10 ms (R49). -/
def pushWindow (w : List Nat) (x : Nat) : List Nat := (w ++ [x]).drop (w.length + 1 - 500000)

/-- The changes of the rail current in the intervals of the last 1 µs. -/
def pushDelta (w : List Int) (x : Int) : List Int := (w ++ [x]).drop (w.length + 1 - 50)

/-- The ramp of the rail current (R49), in mA over the last 1 µs: the change without the largest change of one interval, which
the step limit bounds (DESIGN CHOICE, log 135). -/
def Power.ramp (p : Power) : Nat :=
  let step := p.deltas.foldl (fun (m : Int) d => if m.natAbs < d.natAbs then d else m) 0
  (p.deltas.sum - step).natAbs

/-- Whether an estimate exceeds a limit of R49: excursion power and length, the average over the last 10 ms, rail current, ramp,
step. -/
def Power.limitExceeded (p : Power) (t : RegTable) (r : PowerReading) : Bool :=
  decide (1000 * t.excPowerW < r.packageMw ∨ 1000 * t.excUs < p.excursionNs
    ∨ 1000 * p.effLimit * 500000 < p.window.sum ∨ 1000 * t.coreLimitA < r.coreMa
    ∨ 1000 * t.rampAPerUs < p.ramp ∨ 1000 * t.stepA < r.deltaMa.natAbs)

/-- Whether a wake or a sleep has been reported that its movement has not reached (R52). -/
def State.wakeDue (s : State) : Bool :=
  match s.run with
  | some r => r.reports.any fun x => decide ((s.mvOf (s.phys x.vmove)).beats ≤ x.beat)
  | none => false

/-- The new rate level (R50 to R53): lower than the one in force where a limit is exceeded; ahead of a reported wake or sleep
what that requires, which may be lower; not higher while the ramp limit is used up; otherwise not lower. How far is free
(DESIGN CHOICE, log 88). The thermal response may hold the lowest (R553). -/
def State.newLevel (s : State) (exceeded : Bool) : Nat :=
  let k := s.power.rateLevel
  if s.power.lowest then 1
  else if exceeded then (if k ≤ 1 then 1 else 1 + s.choice 4 0 % (k - 1))
  else if s.wakeDue then 1 + s.choice 4 0 % k
  else if 1000 * s.tbl.reg.rampAPerUs ≤ s.power.ramp then k
  else k + s.choice 4 0 % (161 - k)

/-- Regulator times of the running step (R55), for one interval of 20 ns: the ceiling counts as below the rate that the balances
would have run where one of them would have run faster (DESIGN CHOICE, log 136). -/
def regulatorTimes (s : State) : State :=
  let p := s.power
  let low := (List.range 64).any (fun n => decide (s.balanceRate n < min 180000 (s.mvOf n).rate))
  s.onRun fun r => { r with ceilNs := if low then r.ceilNs + 20 else r.ceilNs
                            withholdNs := if p.issue16 < 16 then r.withholdNs + 20 else r.withholdNs }

/-- A rail above its maximum current for 10 µs (R551): an analogue die's own rails, or another at its site's power domain. -/
def overCurrent (site : Nat) (s : State) : State :=
  if 9 ≤ site ∧ site ≤ 12 then awRailFault (site - 9) s else groupFault (powerLoc site) s

/-- REGULATOR_ESTIMATE's effect. -/
def regulatorEff (r : PowerReading) (s : State) : State :=
  let p := s.power
  let p := { p with window := pushWindow p.window r.packageMw, deltas := pushDelta p.deltas r.deltaMa
                    excursionNs := if 1000 * p.effLimit < r.packageMw then p.excursionNs + 20 else 0 }
  let exceeded := p.limitExceeded s.tbl.reg r
  let unheld := exceeded && p.rateLevel == 1
  let k := { s with power := p }.newLevel exceeded
  let s := regulatorTimes { s with power := { p with unheld := unheld }.setLevel k }
  let s := if unheld && !p.unheld then raise s 0x0105 (cdLoc cMove 0x022) else s
  let s := match r.overRail with | some d => overCurrent d s | none => s
  s.bump

/-- REGULATOR_ESTIMATE (R50). -/
def execRegulatorEstimate (r : PowerReading) (s : State) : Res := .next (regulatorEff r s)

/-! ### Arming (R443, R463 to R470, R485, R569) -/

/-- Whether a fabric-map lookup for a grid step's arming, or for a chained start, fails its check (R131, R569). A chained
start looks up the packages its arming did (DESIGN CHOICE, log 143). -/
def State.mapInvalid (s : State) (p : Plan) : Bool := (s.peers p).any fun v => s.packagePlace v == .invalid

/-- Table level of a virtual package, by the level table (R484, R485). -/
def State.peerTableLevel (s : State) (v : Nat) : Nat :=
  match s.packagePlace v with
  | .place a => tget 0 s.grid.levels a.toNat
  | _ => 0

/-- Whether every peer has the level the plan requires of it (R485). -/
def State.levelsMet (s : State) (p : Plan) : Bool :=
  (s.peers p).all fun v => decide ((tfind p.levels v).getD p.peerLevel ≤ s.peerTableLevel v)

/-- Refuse a grid step at its arming (R468): ABORT with cause 3 is flooded. -/
def refuseArm (s : State) (acc gseq detail : Nat) : State := floodAbort (refuse (dropSteps s (fun r => r.acc == acc)) acc detail) gseq 3

/-- Arm a grid step (R464, R468, R469, R485, R569). An ABORT of it that came before takes effect here (DEDUCED, log 154). -/
def armGrid (s : State) (r : StepReq) (p : Plan) : State :=
  let g := s.grid.gseq
  let s := { s with grid := { s.grid with gseq := (g + 1) % 2 ^ 32, fenceAt := s.ns } }
  match s.grid.aborts.find? (fun a => a.1 == g) with
  | some a => completeUnlaunched s r.acc g (rehDetail 0x1404 a.2)
  | none =>
    if s.mapInvalid p then (refuseArm s r.acc g 0x0672).bump
    else if ¬ s.levelsMet p then (refuseArm s r.acc g 0x0311).bump
    else
      let steps := s.steps.map (fun x => if x.acc = r.acc then { x with gseq := some g } else x)
      (armStep { s with steps := steps } r.acc p).bump

/-- The commits that wait for an arming (R565). -/
def armCommits (s : State) : State :=
  [tblDim, tblPort].foldl (fun s t => if (s.tableOf t).pending && !(s.tableOf t).passed then commitNow s t else s) s

/-- STEP_ARM's effect on the step that launches next. -/
def stepArmEff (r : StepReq) (p : Plan) (s : State) : State :=
  let s := armCommits s
  if 1 < p.gridSize then armGrid s r p else armStep s r.acc p

/-- Whether grid steps are held at the fence (R475, R478, R483). -/
def State.fenceHeld (s : State) : Bool := decide (3 ≤ s.grid.state) || (s.twinOn && s.grid.twinState == 2)

/-- Whether no grid step is armed now: from the first item to the commit, and while the package holds (R477, R478, R483). -/
def State.fenced (s : State) : Bool := s.grid.state != 0 || s.fenceHeld

/-- STEP_ARM (R443): accepted, and every earlier step completed. -/
def execStepArm (s : State) : Res :=
  match s.steps.head?, s.nextPlan with
  | some r, some p =>
    act (s.run = none ∧ s.fabric.armed ≠ some r.acc ∧ (1 < p.gridSize → s.fenced = false)) (stepArmEff r p s) s
  | _, _ => .next s

/-! ### Launch (R72, R95, R99, R130, R316, R319, R568) -/

/-- The record of a list entry as a bridle loads it (R319). -/
def loadSlot (s : State) (h : Nat) : BSlot :=
  match tfind s.streams h with
  | some x =>
    let g := if x.grammarOn then tfind s.grammars x.grammar else none
    let st := g.bind (fun g => g.states[x.dfa]?)
    { handle := h, latched := x, now := x, gstate := st, readable := x.length
      mask := (st.bind (fun e => (g.bind (fun g => g.masks[e.mask]?)))).getD [] }
  | none => { handle := h, latched := {}, now := {} }

/-- Load every list entry: entry k into slot ⌊k / 4⌋ of bridle k mod 4 (R319). -/
def loadSlots (s : State) (hs : List Nat) : Tbl BSlot :=
  (indexed hs).foldl (fun t e => tput (256 * (e.1 % 4) + e.1 / 4) (loadSlot s e.2) t) []

/-- A sequencer at plan beat 0 (R90, R95, R99). -/
def Seq.start (q : Seq) : Seq :=
  { iq := q.iqNext, fetchNext := q.fetchNext2, fetching := q.fetching2, patchLive := q.patchPend }

/-- A movement at plan beat 0. -/
def Mvmt.start (m : Mvmt) (ns : Nat) : Mvmt := { m.foldAll with beats := 0, quiet := ns }

/-- Keep what a step keeps of a matrix array: its accumulators (R175, R180); its registers and buffers start anew. -/
def Matrix.start (m : Matrix) : Matrix := { acc := m.acc, fill := m.fill, bad := m.bad, weak := m.weak }

/-- The device at plan beat 0 of a step (R72, R81, R90, R102, R175, R201). -/
def resetStep (s : State) : State :=
  let s := (List.range 64).foldl (fun s v => s.setSeq v (s.seqOf v).start) s
  let s := (List.range 64).foldl (fun s n => s.setMv n ((s.mvOf n).start s.ns)) s
  let s := (List.range 64).foldl (fun s n => s.setMat n (s.matOf n).start) s
  { s with queue := [], chan := [], vector := [], skiver := [], bridle := []
           trace := { s.trace with bufs := s.trace.bufs.filterMap fun e =>
             let b : TraceBuf := { e.2 with raised := false }
             if b = {} then none else some (e.1, b) }
           grid := { s.grid with faulted := false, hwrites := [] } }

/-- Launch a step (R72, R130): it takes the next step number; its maps, records and patches are latched, the records read through
their stacks' decoders (R294). -/
def launchEff (r : StepReq) (p : Plan) (m : List Nat) (s : State) : State :=
  let number := s.tenancy.stepNumber
  let req := { r with ready := s.chron.count }
  let run : Run := { req := req, number := number, plan := p, map := m, slots := loadSlots s r.streams, gseq := r.gseq
                     wroteBack := r.streams.isEmpty
                     need := if s.replaying && s.replay.slipsOn then tget [] s.replay.slips r.acc else [] }
  let s := resetStep s
  let s := { s with run := some run, steps := s.steps.filter (fun x => x.acc != r.acc)
                    tenancy := { s.tenancy with stepNumber := number + 1 }
                    grid := if r.gseq.isSome then { s.grid with fenceAt := s.ns } else s.grid }
  let s := (List.range 64).foldl (fun s v => reportWakes s v 0 64) s
  readSystem (loadPending s).bump (r.streams.map recordUnit)

/-- Refuse a step at its launch: its movement map fails its check, or the fabric map of a chained start (R568, R569). -/
def refuseLaunch (r : StepReq) (detail : Nat) (s : State) : State :=
  let s := refuse (dropSteps s (fun x => x.acc == r.acc)) r.acc detail
  (match r.gseq with | some g => floodAbort s g 3 | none => s).bump

/-- Launch the next step, latching the movement map (R130, R568). -/
def tryLaunch (r : StepReq) (p : Plan) (s : State) : State :=
  match s.latchMap p.moves with
  | some m => launchEff r p m s
  | none => refuseLaunch r 0x0671 s

/-- Whether the next step may launch (R72, R316, R319, R443, R533): armed, no step runs, no stop stands, and the serving
commands accepted before it that name its streams are done. -/
def State.launchable (s : State) (r : StepReq) : Bool :=
  s.run.isNone && s.stop.state == 0 && s.fabric.armed == some r.acc && !s.blocked r.acc r.streams
    && !(s.fnOf r.fn).inReset && !(r.gseq.isSome && s.fenceHeld)

/-- STEP_LAUNCH (R72): a step that starts at acceptance, or is made ready for its launch count. -/
def execStepLaunch (s : State) : Res :=
  match s.steps.head?, s.nextPlan with
  | some r, some p => act (r.start ≠ 2 ∧ s.launchable r = true) (tryLaunch r p s) s
  | _, _ => .next s

/-- Launch a chained step, whose packages are translated by the fabric map (R131, R467, R569). -/
def tryChained (r : StepReq) (p : Plan) (s : State) : State :=
  if s.mapInvalid p then refuseLaunch r 0x0672 s else tryLaunch r p s

/-- CHAINED_LAUNCH (R467): its trigger transfer has been verified. -/
def execChainedLaunch (s : State) : Res :=
  match s.steps.head?, s.nextPlan with
  | some r, some p => act (r.start = 2 ∧ r.triggered = true ∧ s.launchable r = true) (tryChained r p s) s
  | _, _ => .next s

/-! ### Completion (R46, R75, R110, R359, R479 to R481, R538) -/

/-- Slip table of the running step, in ascending site order (R359). -/
def Run.slipTotal (r : Run) : Nat := satNat 32 ((r.slip.map (·.2)).sum)

/-- The wait site with the largest count, the lowest where several have it, and that count (R46). -/
def Run.topSite (r : Run) : Nat × Nat := r.slip.foldl (fun m e => if m.2 < e.2 then e else m) (0, 0)

/-- The plan beat a step ended at: its last plan beat, or the last below its stop beat. -/
def State.endBeat (s : State) : Nat :=
  match s.run, s.lastBeat with
  | some r, some l => if r.stopped then (s.mvOf cMove).beats - 1 else l
  | some r, none => if r.stopped then (s.mvOf cMove).beats - 1 else s.stop.beat - 1
  | none, _ => 0

/-- How a step ends: STATUS and DETAIL (R108, R355, R360, R361, R468, R471). -/
structure Ending where
  status : Nat
  detail : Nat
deriving DecidableEq, Repr

/-- The ending of the running step: a device fault, the breach recorded, an abort, a host error, a page allocation that
failed, or OK. -/
def State.ending (s : State) (r : Run) : Ending :=
  match r.fault, s.recorded, r.abort, r.hostErr with
  | some _, _, _, _ => { status := 0x11, detail := 0x1100 }
  | none, some b, _, _ => { status := 0x10, detail := 0x1000 + b.code }
  | none, none, some d, _ => { status := 0x14, detail := d }
  | none, none, none, some h => { status := 0x12, detail := h.detail }
  | none, none, none, none =>
    if r.poolHandle.isSome then { status := 0x04, detail := 0x0421 } else { status := 0, detail := 0 }

/-- FLAG_f of the report (R359). -/
def flagBytes (r : Run) (f : Nat) : Bytes :=
  match tfind r.flagRecs f with
  | some x => leBytes 8 x.beat ++ leBytes 8 (x.vmove + x.event * 64 + 256)
  | none => zeros 16

/-- FAULT of the report (R111, R359). -/
def faultBytes (s : State) (r : Run) : Bytes :=
  match r.fault, s.recorded, r.abort, r.hostErr with
  | some f, _, _, _ => layout 64 [(0, leBytes 8 f.loc.toNat), (8, leBytes 2 f.code), (0x30, leBytes 8 f.stamp)]
  | none, some b, _, _ => padTo 64 (planFaultBytes s b)
  | none, none, none, some h =>
    layout 64 [(0, leBytes 8 h.addr.toNat), (8, leBytes 8 (h.opAddr % 2 ^ 48)), (0x30, leBytes 8 h.stamp)]
  | none, none, _, _ => zeros 64

/-- SFLAGS of the completion: SLIP_TRUNC where the table is too short (R359). -/
def Run.sflagsOut (r : Run) : Nat :=
  if r.req.slipCap < r.slip.length ∧ bitNat r.sflags 5 = false then r.sflags + 32 else r.sflags

/-- The 512-byte step report (R359). -/
def reportBytes (s : State) (r : Run) : Bytes :=
  let top := r.topSite
  layout 512
    ([(0x000, leBytes 8 r.number), (0x008, padTo 48 r.plan.digest), (0x038, leBytes 8 (r.begin_.getD 0)),
      (0x040, leBytes 8 (r.end_.getD 0)), (0x048, leBytes 8 s.endBeat), (0x050, leBytes 4 r.slipTotal),
      (0x054, leBytes 2 top.1), (0x058, leBytes 4 top.2), (0x05C, leBytes 4 r.slip.length), (0x060, leBytes 8 r.ceilNs),
      (0x068, leBytes 8 r.withholdNs), (0x070, leBytes 8 r.lateness),
      (0x078, leBytes 8 (r.flags + r.sflagsOut * 2 ^ 8 + r.windows % 2 ^ 32 * 2 ^ 16))]
      ++ (List.range 8).map (fun f => (0x080 + 16 * f, flagBytes r f))
      ++ [(0x100, faultBytes s r), (0x140, leBytes 8 ((r.range.map (·.1)).getD 0 % 2 ^ 48)),
          (0x148, leBytes 4 ((r.range.map (·.2)).getD 0)), (0x150, leBytes 4 (r.poolHandle.getD 0))])

/-- The slip table as written (R359): up to SLIP_CAP entries. -/
def slipBytes (r : Run) (n : Nat) : Bytes := (r.slip.take n).flatMap fun e => leBytes 4 e.1 ++ leBytes 4 e.2

/-- The 256-byte record of a stream (R309); DIR_HEAD is the number of its first directory node (log 89). -/
def streamBytes (x : Stream) : Bytes :=
  layout 256
    ([(0x00, leBytes 4 (x.state + x.reason * 8 + x.cls * 2 ^ 8 + natOfBool x.grammarOn * 2 ^ 11 + x.domain * 2 ^ 12)),
      (0x04, leBytes 4 (x.fn + x.alts * 2 ^ 8 + x.window * 2 ^ 13 + x.whead * 2 ^ 19)), (0x08, leBytes 4 x.length),
      (0x0C, leBytes 4 x.tokens.toNat), (0x10, leBytes 4 x.maxTokens.toNat), (0x14, leBytes 4 x.lastToken.toNat),
      (0x18, leBytes 4 (x.nodeAt 0)), (0x1C, leBytes 4 x.pages.length), (0x20, leBytes 8 x.seed.toNat), (0x28, leBytes 8 x.counter.toNat),
      (0x30, leBytes 4 x.temp.toNat), (0x34, leBytes 4 x.topP.toNat), (0x38, leBytes 4 x.minP.toNat), (0x3C, leBytes 4 x.topK),
      (0x40, leBytes 4 x.rep.toNat), (0x44, leBytes 4 x.pres.toNat), (0x48, leBytes 4 x.freq.toNat),
      (0x4C, leBytes 4 (x.grammar + x.dfa * 2 ^ 16))]
      ++ [(0x50, padTo 32 (x.stopSet.flatMap fun w => leBytes 4 w.toNat)), (0x80, padTo 128 (x.pwin.flatMap fun w => leBytes 4 w.toNat))])

/-- The digest of a grid step (R480). -/
def stepDigest (s : State) (r : Run) : Bytes :=
  let recs := if r.wroteBack ∧ ¬ r.discarded then r.req.streams.filterMap (tfind s.streams ·) else []
  (Config.sha384 (leBytes 4 (r.gseq.getD 0) ++ (s.grid.hwrites.flatMap (fun w => w.2.flatten))
    ++ recs.flatMap streamBytes)).take 16

/-- The log entries of a step's end (R538): its allocations, its slip table, its completion and digest. -/
def logEnd (s : State) (r : Run) (e : Ending) (dig : Bytes) : State :=
  let s := logEntry s 3 r.number (r.allocs.flatMap fun a => leBytes 4 a.1 ++ leBytes 4 a.2.1 ++ leBytes 8 a.2.2)
  let s := logEntry s 5 r.number (slipBytes r r.slip.length)
  logEntry s 8 r.number (leBytes 1 e.status ++ leBytes 1 r.flags ++ leBytes 2 e.detail ++ zeros 4 ++ padTo 16 dig)

/-- Compare a replayed step with its END entry (R540): a difference raises REPLAY_DIVERGED and ends the replay. -/
def compareReplay (s : State) (r : Run) (e : Ending) (dig : Bytes) : State :=
  match (if s.replaying then tfind s.replay.expect r.req.acc else none) with
  | some x =>
    if x = (e.status, r.flags, padTo 16 dig) then s
    else
      let c := s.replay.ctrl &&& ~~~ 3
      raise { s with replay := { s.replay with ctrl := c } } 0x0806 0
  | none => s

/-- The twin packet of a grid step that completes (R481): by TWIN_PORT, and not for an ABORTED one. -/
def sendTwin (s : State) (r : Run) (e : Ending) (dig : Bytes) : State :=
  match r.gseq with
  | some g =>
    if s.twinOn ∧ e.status ≠ 0x14 then
      let t : TwinPkt := { gseq := g, epoch := s.grid.epoch, level := s.level, faulted := s.grid.faulted, digest := dig }
      let partner := (s.portOf s.grid.twinPort).partner
      let pkt : Packet := { cls := 1, routeA := BitVec.ofNat 32 (partner.toNat + s.fabric.place.toNat * 2 ^ 16), routeB := 0
                            payload := twinBytes t }
      let s := queueLoose s s.grid.twinPort pkt
      twinMatch { s with grid := { s.grid with ownTwin := s.grid.ownTwin ++ [(s.ns, t)] } }
    else s
  | none => s

/-- Regions of a plan that some op of it writes (R110). -/
def writtenRegions (p : Plan) : List Nat :=
  (p.code.flatMap fun e => e.2.filterMap fun w =>
    match decodeOp (Fin.ofNat 64 e.1) (splitWord w).benign with
    | some (.write _ _ r _ _ _) | some (.scatter _ _ r _ _ _ _) | some (.zero _ _ r _ _) | some (.copy _ _ _ r _ _ _) =>
      some r.toNat
    | _ => none).dedup

/-- The written units of a region hold unspecified bytes (R110). -/
def spoilRegion (n : Nat) (s : State) (g : Region) : State :=
  g.blocks.foldl (fun s b =>
    let k := s.stackOf b.1
    s.setStack b.1 { k with units := k.units.map fun e =>
      if e.1 / 16 = b.2 then (e.1, { e.2 with data := freeUnit (n + e.1) }) else e }) s

/-- After a step that a fault or an abort ended: scratch, accumulators, flow buffers and the regions it writes are
unspecified (R110, R468). -/
def spoil (s : State) (r : Run) : State :=
  let n := s.free
  let s := (List.range 64).foldl (fun s k =>
    s.setMv k { s.mvOf k with scratch := [], fill := some (n + k), writes := [] }) s
  let s := (List.range 64).foldl (fun s k => if typeOf k = 1 then s.setMat k { s.matOf k with acc := [], fill := some (n + 64 + k), effs := [] } else s) s
  let s := (List.range 2).foldl (fun s d => s.setLink d { s.linkOf d with buf := [], fill := some (n + 128 + d) }) s
  let s := ((writtenRegions r.plan).filterMap (tfind r.plan.regions)).foldl (spoilRegion (n + 130)) s
  { s with free := s.free + 256 }

/-- Cancel what a step that ended early left with its companions (R110, R249, R307). -/
def cancelAll (s : State) : State :=
  let s := (List.range 4).foldl (fun s d => releaseSets d s) s
  s.queue.foldl (fun s e => cancelQ s e.1) s

/-- Every write and effect of the step has become visible (R43, R75, R189). -/
def settleAll (s : State) : State :=
  (List.range 64).foldl (fun s n => s.setMv n (s.mvOf n).foldAll) (settleRest s)

/-- Whether a step ended early. -/
def Run.early (r : Run) : Bool := r.stopped || !r.breaches.isEmpty || r.abort.isSome

/-- Write the report, the slip table and the completion (R70, R357 to R359, R363): none for a discarded step (R364, R387). -/
def writeCompletion (s : State) (r : Run) (e : Ending) : State :=
  let n := min r.req.slipCap r.slip.length
  let windows := ((tfind s.intake.acc r.req.acc).map (·.windows)).getD 0
  let r := { r with windows := windows }
  let s :=
    if r.discarded then s
    else
      let s := hostWrite s r.req.fn r.req.pasid r.req.report (reportBytes s r)
      if 0 < n then hostWrite s r.req.fn r.req.pasid r.req.slipAddr (slipBytes r n) else s
  let res : Results := { r0 := r.number, r1 := r.slipTotal, r2 := r.topSite.1
                         r3 := if e.status = 0x04 then r.poolHandle.getD 0 else satNat 32 r.lateness
                         flags := r.flags, sflags := r.sflagsOut }
  complete s r.req.acc e.status e.detail res

/-- A sequencer between steps: what has been fetched for the next step, and its patches (R95, R99). -/
def Seq.idle (q : Seq) : Seq :=
  { iqNext := q.iqNext, fetchNext2 := q.fetchNext2, fetching2 := q.fetching2, patchPend := q.patchPend }

/-- No step runs any more: sequencers, queues and channels are empty, and an ending stop is over (R535). -/
def clearRun (s : State) : State :=
  let s := (List.range 64).foldl (fun s v => s.setSeq v (s.seqOf v).idle) s
  let s := hubRelease (disarm { s with run := none, queue := [], chan := [] })
  if ¬ s.stop.ending then s
  else if s.stop.state = 2 then releaseStop s
  else { s with stop := { s.stop with state := 0, ending := false, causes := 0, held := 0 } }

/-- The step's last stamp: of its last beat, or of the C movement's latest one in a step that ended early (R359). -/
def Run.stamped (r : Run) : Run := { r with end_ := r.end_.or (r.cStamps.getLast?.map (·.2)) }

/-- The end of a step (R75, R110, R359, R479 to R481, R538). -/
def completeEff (r : Run) (s : State) : State :=
  let r := r.stamped
  let e := s.ending r
  let s := if r.early then spoil (cancelAll s) r else settleAll s
  let s := sendMark s (s.pos 0)
  let dig := stepDigest s r
  let s := compareReplay (logEnd s r e dig) r e dig
  let s := writeCompletion s r e
  let s := match r.gseq with | some g => stepSummary s g (some r) | none => s
  let s := if r.abort.isSome then indeterminate s else s
  (reportOverrun (clearRun (sendTwin s r e dig)) r.req.window).bump

/-- Whether the commands of the fabric and the host have retired, which no chapter lets their companions cancel (R110). -/
def State.linkRetired (s : State) : Bool :=
  s.queue.all fun e => e.2.cmds.isEmpty || (s.vtype (e.1 / 16) != 7 && s.vtype (e.1 / 16) != 8)

/-- Whether the running step is at its end: a device fault (DESIGN CHOICE, log 9); an ending stop held, after a plan fault with
the commands of the fabric and the host retired; or the conditions of R75, its records written back (R321). -/
def State.stepOver (s : State) (r : Run) : Bool :=
  r.stopped || (s.stop.state == 2 && s.stop.ending && (r.abort.isSome || s.linkRetired))
    || (s.allPassed && s.allRetired && !r.early && (r.wroteBack || r.discarded))

/-- STEP_COMPLETE (R75). -/
def execStepComplete (s : State) : Res :=
  match s.run with
  | some r => act (s.stepOver r = true) (completeEff r s) s
  | none => .next s

/-! ### One nanosecond (R57) -/

/-- One nanosecond of reference time: the chronometer advances by 1 and the trim in force, never backwards (R57, R58,
R578). -/
def tick (s : State) : State :=
  let c := s.chron
  let f : Int := c.frac + 2 ^ 32 + c.rate
  let n : Int := f / (2 ^ 32 : Int)
  { s with ns := s.ns + 1
           chron :=
             let c := { c with debt := c.debt - c.slew }
             if n < 0 then { c with frac := f } else { c with count := c.count + n.toNat, frac := f % 2 ^ 32 } }

end Sys2Proof.Machine
end

