-- ==== Sys2Proof/Machine/Dispatch.lean ====
section
/-!
DEFINITION. The dispatch: one arm per command, each one direct call of the command's own meaning.
-/

namespace Sys2Proof.Machine

/-- The effect of a command on everything but the queue of waiting commands. -/
def exec (i : Instr) (s : State) : Host.Outcome State Fault Refusal :=
  match i with
  | .planBeatIssue n u => Sys2Proof.Machine.execPlanBeatIssue n s u
  | .supplyDroop n rate => Sys2Proof.Machine.execSupplyDroop n rate s
  | .balanceStop n sender => Sys2Proof.Machine.execBalanceStop n sender s
  | .regulatorEstimate r => Sys2Proof.Machine.execRegulatorEstimate r s
  | .nop v => Sys2Proof.Machine.execNop v s
  | .idle v count => Sys2Proof.Machine.execIdle v count s
  | .agBase v g base => Sys2Proof.Machine.execAgBase v g base s
  | .agStride v g level stride => Sys2Proof.Machine.execAgStride v g level stride s
  | .nestOpen v level count period => Sys2Proof.Machine.execNestOpen v level count period s
  | .wait v target queue site => Sys2Proof.Machine.execWait v target queue site s
  | .waitRelease v => Sys2Proof.Machine.execWaitRelease v s
  | .waitLimit v => Sys2Proof.Machine.execWaitLimit v s
  | .take v dst queue rowsM1 split => Sys2Proof.Machine.execTake v dst queue rowsM1 split s
  | .stepEnd v => Sys2Proof.Machine.execStepEnd v s
  | .fetchRequest n => Sys2Proof.Machine.execFetchRequest n s
  | .fetchArrival n upsets => Sys2Proof.Machine.execFetchArrival n upsets s
  | .stepLaunch => Sys2Proof.Machine.execStepLaunch s
  | .timedLaunch => Sys2Proof.Machine.execTimedLaunch s
  | .chainedLaunch => Sys2Proof.Machine.execChainedLaunch s
  | .stepArm => Sys2Proof.Machine.execStepArm s
  | .stepComplete => Sys2Proof.Machine.execStepComplete s
  | .planLoad acc image => Sys2Proof.Machine.execPlanLoad acc image s
  | .planLoadDone slot => Sys2Proof.Machine.execPlanLoadDone slot s
  | .planUnload acc => Sys2Proof.Machine.execPlanUnload acc s
  | .planUnloadDone slot => Sys2Proof.Machine.execPlanUnloadDone slot s
  | .weightLoad acc manifest authority => Sys2Proof.Machine.execWeightLoad acc manifest authority s
  | .weightUnload acc => Sys2Proof.Machine.execWeightUnload acc s
  | .manifestFragment src offset set data => Sys2Proof.Machine.execManifestFragment src offset set data s
  | .chunkFragment src index offset set data => Sys2Proof.Machine.execChunkFragment src index offset set data s
  | .relayRefused src set detail => Sys2Proof.Machine.execRelayRefused src set detail s
  | .chunkRequest src set index => Sys2Proof.Machine.execChunkRequest src set index s
  | .tileLoad v src srows buf bfmt chk => Sys2Proof.Machine.execTileLoad v src srows buf bfmt chk s
  | .tileScales v src buf => Sys2Proof.Machine.execTileScales v src buf s
  | .ascaleSet v addr => Sys2Proof.Machine.execAscaleSet v addr s
  | .stream v a acc rows buf start sub afmt anchor => Sys2Proof.Machine.execStream v a acc rows buf start sub afmt anchor s
  | .drain v dst acc rows ofmt round sat clear anchor => Sys2Proof.Machine.execDrain v dst acc rows ofmt round sat clear anchor s
  | .drainWide v dst acc rows clear => Sys2Proof.Machine.execDrainWide v dst acc rows clear s
  | .accLoad v src acc rows add => Sys2Proof.Machine.execAccLoad v src acc rows add s
  | .seedSet v seed => Sys2Proof.Machine.execSeedSet v seed s
  | .accBackgroundScrub n row col => Sys2Proof.Machine.execAccBackgroundScrub n row col s
  | .add v f => Sys2Proof.Machine.execAdd v f s
  | .sub v f => Sys2Proof.Machine.execSub v f s
  | .mul v f => Sys2Proof.Machine.execMul v f s
  | .mad v f => Sys2Proof.Machine.execMad v f s
  | .min v f => Sys2Proof.Machine.execMin v f s
  | .max v f => Sys2Proof.Machine.execMax v f s
  | .affine v f => Sys2Proof.Machine.execAffine v f s
  | .cmpeq v f => Sys2Proof.Machine.execCmpeq v f s
  | .cmpne v f => Sys2Proof.Machine.execCmpne v f s
  | .cmplt v f => Sys2Proof.Machine.execCmplt v f s
  | .cmple v f => Sys2Proof.Machine.execCmple v f s
  | .sel v f => Sys2Proof.Machine.execSel v f s
  | .and v f => Sys2Proof.Machine.execAnd v f s
  | .or v f => Sys2Proof.Machine.execOr v f s
  | .xor v f => Sys2Proof.Machine.execXor v f s
  | .shl v f => Sys2Proof.Machine.execShl v f s
  | .shr v f => Sys2Proof.Machine.execShr v f s
  | .exps v f => Sys2Proof.Machine.execExps v f s
  | .iota v d imm => Sys2Proof.Machine.execIota v d imm s
  | .vectorCopy v d a => Sys2Proof.Machine.execVectorCopy v d a s
  | .abs v d a => Sys2Proof.Machine.execAbs v d a s
  | .neg v d a => Sys2Proof.Machine.execNeg v d a s
  | .exp2 v d a => Sys2Proof.Machine.execExp2 v d a s
  | .log2 v d a => Sys2Proof.Machine.execLog2 v d a s
  | .rcp v d a => Sys2Proof.Machine.execRcp v d a s
  | .sqrt v d a => Sys2Proof.Machine.execSqrt v d a s
  | .rsqrt v d a => Sys2Proof.Machine.execRsqrt v d a s
  | .tanh v d a => Sys2Proof.Machine.execTanh v d a s
  | .sigmoid v d a => Sys2Proof.Machine.execSigmoid v d a s
  | .gelu v d a => Sys2Proof.Machine.execGelu v d a s
  | .silu v d a => Sys2Proof.Machine.execSilu v d a s
  | .vset v afmt bfmt ofmt round sat seed t => Sys2Proof.Machine.execVset v afmt bfmt ofmt round sat seed t s
  | .vtap v tapk tally tstart anchor ibase => Sys2Proof.Machine.execVtap v tapk tally tstart anchor ibase s
  | .tload v tally fn anchor mult => Sys2Proof.Machine.execTload v tally fn anchor mult s
  | .rsum v a c => Sys2Proof.Machine.execRsum v a c s
  | .rsumsq v a c => Sys2Proof.Machine.execRsumsq v a c s
  | .rdot v a b c => Sys2Proof.Machine.execRdot v a b c s
  | .rmax v a c => Sys2Proof.Machine.execRmax v a c s
  | .rmin v a c => Sys2Proof.Machine.execRmin v a c s
  | .rargmax v a ibase c => Sys2Proof.Machine.execRargmax v a ibase c s
  | .raddw v src mask => Sys2Proof.Machine.execRaddw v src mask s
  | .rstore v dst mask rounded ofmt round sat anchor => Sys2Proof.Machine.execRstore v dst mask rounded ofmt round sat anchor s
  | .transpose v dst src srows drows esize => Sys2Proof.Machine.execTranspose v dst src srows drows esize s
  | .retile v dst src rowsM1 srows drows => Sys2Proof.Machine.execRetile v dst src rowsM1 srows drows s
  | .convert v dst src gM1 ifmt ofmt round sat => Sys2Proof.Machine.execConvert v dst src gM1 ifmt ofmt round sat s
  | .kset v sscale dscale seed => Sys2Proof.Machine.execKset v sscale dscale seed s
  | .pset v first rstr cstr nrM1 ncM1 grain set queue => Sys2Proof.Machine.execPset v first rstr cstr nrM1 ncM1 grain set queue s
  | .mvm v inp scale nvM1 ofmt round sat anchor set queue => Sys2Proof.Machine.execMvm v inp scale nvM1 ofmt round sat anchor set queue s
  | .prel v set queue => Sys2Proof.Machine.execPrel v set queue s
  | .psetAdmit d => Sys2Proof.Machine.execPsetAdmit d s
  | .panesReady d set => Sys2Proof.Machine.execPanesReady d set s
  | .passTick d ests audits upsets => Sys2Proof.Machine.execPassTick d ests audits s upsets
  | .mvmRetire d queue => Sys2Proof.Machine.execMvmRetire d queue s
  | .prelRelease d queue => Sys2Proof.Machine.execPrelRelease d queue s
  | .awLinkFatal d => Sys2Proof.Machine.execAwLinkFatal d s
  | .awStepCancel d => Sys2Proof.Machine.execAwStepCancel d s
  | .maintenancePass d g m => Sys2Proof.Machine.execMaintenancePass d g m s
  | .groupRefresh d g pos fails => Sys2Proof.Machine.execGroupRefresh d g pos fails s
  | .selftestStart d g pos cells => Sys2Proof.Machine.execSelftestStart d g pos cells s
  | .selftestSettle d g pos cells => Sys2Proof.Machine.execSelftestSettle d g pos cells s
  | .selftestDone d g pos mismatch reprogramOk => Sys2Proof.Machine.execSelftestDone d g pos mismatch reprogramOk s
  | .paneMapSwitch d g pos spare => Sys2Proof.Machine.execPaneMapSwitch d g pos spare s
  | .shadowScrub d pane row word upsets => Sys2Proof.Machine.execShadowScrub d pane row word s upsets
  | .pulseVerify d g pos row cells => Sys2Proof.Machine.execPulseVerify d g pos row cells s
  | .installPhaseEnd d readback => Sys2Proof.Machine.execInstallPhaseEnd d s readback
  | .awPowerGood d => Sys2Proof.Machine.execAwPowerGood d s
  | .awInitDone d recordsOk trimOk upsets => Sys2Proof.Machine.execAwInitDone d recordsOk trimOk s upsets
  | .awCalibrationDone d => Sys2Proof.Machine.execAwCalibrationDone d s
  | .awRailLost d => Sys2Proof.Machine.execAwRailLost d s
  | .read v offset region rowsM1 queue => Sys2Proof.Machine.execRead v offset region rowsM1 queue s
  | .write v offset region rowsM1 src queue => Sys2Proof.Machine.execWrite v offset region rowsM1 src queue s
  | .gather v idx region countM1 lM1 queue => Sys2Proof.Machine.execGather v idx region countM1 lM1 queue s
  | .scatter v idx region countM1 lM1 data queue => Sys2Proof.Machine.execScatter v idx region countM1 lM1 data queue s
  | .embed v idx regionA regionB countM1 lM1 split queue => Sys2Proof.Machine.execEmbed v idx regionA regionB countM1 lM1 split queue s
  | .zero v offset region units queue => Sys2Proof.Machine.execZero v offset region units queue s
  | .copy v srcOff srcRegion dstRegion blocksM1 dstOff queue => Sys2Proof.Machine.execCopy v srcOff srcRegion dstRegion blocksM1 dstOff queue s
  | .pageAppend v src rowsM1 srow handle queue => Sys2Proof.Machine.execPageAppend v src rowsM1 srow handle queue s
  | .pageRead v first nposM1 rowsM1 srow handle queue => Sys2Proof.Machine.execPageRead v first nposM1 rowsM1 srow handle queue s
  | .stackCmdRetire v queue upsets => Sys2Proof.Machine.execStackCmdRetire v queue s upsets
  | .patrolScrub st unit upsets => Sys2Proof.Machine.execPatrolScrub st unit s upsets
  | .stackCancel => Sys2Proof.Machine.execStackCancel s
  | .seLinkFatal st => Sys2Proof.Machine.execSeLinkFatal st s
  | .domainRetire acc => Sys2Proof.Machine.execDomainRetire acc s
  | .domainKeyDestroyed dom => Sys2Proof.Machine.execDomainKeyDestroyed dom s
  | .streamOpen acc params => Sys2Proof.Machine.execStreamOpen acc params s
  | .streamSet acc params => Sys2Proof.Machine.execStreamSet acc params s
  | .streamFork acc => Sys2Proof.Machine.execStreamFork acc s
  | .streamClose acc => Sys2Proof.Machine.execStreamClose acc s
  | .streamWriteback => Sys2Proof.Machine.execStreamWriteback s
  | .prefixProbe acc tokens => Sys2Proof.Machine.execPrefixProbe acc tokens s
  | .prefixPublish acc tokens => Sys2Proof.Machine.execPrefixPublish acc tokens s
  | .prefixEvict acc => Sys2Proof.Machine.execPrefixEvict acc s
  | .prefixSweep entry => Sys2Proof.Machine.execPrefixSweep entry s
  | .grammarLoad acc image => Sys2Proof.Machine.execGrammarLoad acc image s
  | .grammarUnload acc => Sys2Proof.Machine.execGrammarUnload acc s
  | .bset v vocabM1 lfmt => Sys2Proof.Machine.execBset v vocabM1 lfmt s
  | .select v logits slot result => Sys2Proof.Machine.execSelect v logits slot result s
  | .sqTailDoorbell f q width value => Sys2Proof.Machine.execSqTailDoorbell f q width value s
  | .cqHeadDoorbell f q width value => Sys2Proof.Machine.execCqHeadDoorbell f q width value s
  | .shadowRead f page => Sys2Proof.Machine.execShadowRead f page s
  | .sqContextWrite f q word offset width value => Sys2Proof.Machine.execSqContextWrite f q word offset width value s
  | .cqContextWrite f q word offset width value => Sys2Proof.Machine.execCqContextWrite f q word offset width value s
  | .descriptorFetch data => Sys2Proof.Machine.execDescriptorFetch data s
  | .descriptorAccept => Sys2Proof.Machine.execDescriptorAccept s
  | .step acc patches streams bufs => Sys2Proof.Machine.execStep acc patches streams bufs s
  | .nopDescriptor acc => Sys2Proof.Machine.execNopDescriptor acc s
  | .hread v buf rowsM1 offset queue => Sys2Proof.Machine.execHread v buf rowsM1 offset queue s
  | .hwrite v src buf rowsM1 offset queue => Sys2Proof.Machine.execHwrite v src buf rowsM1 offset queue s
  | .hostReadCompletion queue data => Sys2Proof.Machine.execHostReadCompletion queue data s
  | .irqCoalesceTimeout f q => Sys2Proof.Machine.execIrqCoalesceTimeout f q s
  | .msixUnmask f vec => Sys2Proof.Machine.execMsixUnmask f vec s
  | .frameStart => Sys2Proof.Machine.execFrameStart s
  | .windowStart => Sys2Proof.Machine.execWindowStart s
  | .windowEnd => Sys2Proof.Machine.execWindowEnd s
  | .windowIdleEnd => Sys2Proof.Machine.execWindowIdleEnd s
  | .flrStart f => Sys2Proof.Machine.execFlrStart f s
  | .flrComplete f => Sys2Proof.Machine.execFlrComplete f s
  | .slotTransmit p => Sys2Proof.Machine.execSlotTransmit p s
  | .packetReceive p data fec => Sys2Proof.Machine.execPacketReceive p data s fec
  | .nakRepeat p => Sys2Proof.Machine.execNakRepeat p s
  | .ackTimer p => Sys2Proof.Machine.execAckTimer p s
  | .ack p u => Sys2Proof.Machine.execAck p u s
  | .nak p u => Sys2Proof.Machine.execNak p u s
  | .replayTimeout p => Sys2Proof.Machine.execReplayTimeout p s
  | .credit p u => Sys2Proof.Machine.execCredit p u s
  | .linkCreditStarved p pair => Sys2Proof.Machine.execLinkCreditStarved p pair s
  | .heartbeatSend p => Sys2Proof.Machine.execHeartbeatSend p s
  | .heartbeat p u => Sys2Proof.Machine.execHeartbeat p u s
  | .heartbeatMiss p => Sys2Proof.Machine.execHeartbeatMiss p s
  | .timeReq p u => Sys2Proof.Machine.execTimeReq p u s
  | .timeRsp p u => Sys2Proof.Machine.execTimeRsp p u s
  | .timeSourceTimeout => Sys2Proof.Machine.execTimeSourceTimeout s
  | .timePpsEdge offset => Sys2Proof.Machine.execTimePpsEdge offset s
  | .trim p u => Sys2Proof.Machine.execTrim p u s
  | .propose p u => Sys2Proof.Machine.execPropose p u s
  | .switch p u => Sys2Proof.Machine.execSwitch p u s
  | .laneLockLoss p lane => Sys2Proof.Machine.execLaneLockLoss p lane s
  | .laneRestoreTimer p lane => Sys2Proof.Machine.execLaneRestoreTimer p lane s
  | .retrain p u => Sys2Proof.Machine.execRetrain p u s
  | .retrainComplete p lanes => Sys2Proof.Machine.execRetrainComplete p lanes s
  | .retrainTimeout p => Sys2Proof.Machine.execRetrainTimeout p s
  | .fecLockLoss p => Sys2Proof.Machine.execFecLockLoss p s
  | .signalDetect p lanes => Sys2Proof.Machine.execSignalDetect p lanes s
  | .trainConverge p lanes => Sys2Proof.Machine.execTrainConverge p lanes s
  | .alignLock p => Sys2Proof.Machine.execAlignLock p s
  | .trainingTimeout p => Sys2Proof.Machine.execTrainingTimeout p s
  | .param p u => Sys2Proof.Machine.execParam p u s
  | .linkCtrlEnable p value => Sys2Proof.Machine.execLinkCtrlEnable p value s
  | .linkCtrlRetrain p value => Sys2Proof.Machine.execLinkCtrlRetrain p value s
  | .linkCtrlCold p value => Sys2Proof.Machine.execLinkCtrlCold p value s
  | .mgmtRequest src tag data => Sys2Proof.Machine.execMgmtRequest src tag data s
  | .fsend v src flow rowsM1 fb queue => Sys2Proof.Machine.execFsend v src flow rowsM1 fb queue s
  | .frecv v rowsM1 fb queue => Sys2Proof.Machine.execFrecv v rowsM1 fb queue s
  | .frecvRetire die queue => Sys2Proof.Machine.execFrecvRetire die queue s
  | .collectCombine die flow tseq hop => Sys2Proof.Machine.execCollectCombine die flow tseq hop s
  | .e2eAck src u => Sys2Proof.Machine.execE2eAck src u s
  | .e2eReq src u => Sys2Proof.Machine.execE2eReq src u s
  | .e2eData src u data => Sys2Proof.Machine.execE2eData src u data s
  | .e2eTimeout die flow tseq => Sys2Proof.Machine.execE2eTimeout die flow tseq s
  | .fenceLimit => Sys2Proof.Machine.execFenceLimit s
  | .abort p u => Sys2Proof.Machine.execAbort p u s
  | .dyingGasp p u => Sys2Proof.Machine.execDyingGasp p u s
  | .memberItem p u => Sys2Proof.Machine.execMemberItem p u s
  | .gatherEnd => Sys2Proof.Machine.execGatherEnd s
  | .seal p u => Sys2Proof.Machine.execSeal p u s
  | .memberCommit => Sys2Proof.Machine.execMemberCommit s
  | .memberLevel p u => Sys2Proof.Machine.execMemberLevel p u s
  | .halfOut p u => Sys2Proof.Machine.execHalfOut p u s
  | .twinPacket data => Sys2Proof.Machine.execTwinPacket data s
  | .twinTimeout => Sys2Proof.Machine.execTwinTimeout s
  | .gridResume epoch => Sys2Proof.Machine.execGridResume epoch s
  | .gridWithdraw => Sys2Proof.Machine.execGridWithdraw s
  | .faultInject acc => Sys2Proof.Machine.execFaultInject acc s
  | .linkDrop => Sys2Proof.Machine.execLinkDrop s
  | .linkDropEnd p => Sys2Proof.Machine.execLinkDropEnd p s
  | .poison => Sys2Proof.Machine.execPoison s
  | .vacancy => Sys2Proof.Machine.execVacancy s
  | .audit => Sys2Proof.Machine.execAudit s
  | .tenancyOpen acc keys groups => Sys2Proof.Machine.execTenancyOpen acc keys groups s
  | .tenancyClose acc => Sys2Proof.Machine.execTenancyClose acc s
  | .tenancyScrub => Sys2Proof.Machine.execTenancyScrub s
  | .tenancyCloseDone => Sys2Proof.Machine.execTenancyCloseDone s
  | .getVersion req => Sys2Proof.Machine.execGetVersion req s
  | .getCapabilities req => Sys2Proof.Machine.execGetCapabilities req s
  | .negotiateAlgorithms req => Sys2Proof.Machine.execNegotiateAlgorithms req s
  | .getDigests req => Sys2Proof.Machine.execGetDigests req s
  | .getCertificate req => Sys2Proof.Machine.execGetCertificate req s
  | .challenge req => Sys2Proof.Machine.execChallenge req s
  | .getMeasurements req => Sys2Proof.Machine.execGetMeasurements req s
  | .chunkSend req => Sys2Proof.Machine.execChunkSend req s
  | .chunkGet req => Sys2Proof.Machine.execChunkGet req s
  | .pldmTableUpdate t => Sys2Proof.Machine.execPldmTableUpdate t s
  | .ownershipClaim digest sig t => Sys2Proof.Machine.execOwnershipClaim digest sig t s
  | .evringWrite => Sys2Proof.Machine.execEvringWrite s
  | .evringIrqTimeout => Sys2Proof.Machine.execEvringIrqTimeout s
  | .evringCtrlWrite offset width value => Sys2Proof.Machine.execEvringCtrlWrite offset width value s
  | .dropSummary path => Sys2Proof.Machine.execDropSummary path s
  | .alarmLatchClear offset width value => Sys2Proof.Machine.execAlarmLatchClear offset width value s
  | .obsSnapshot value => Sys2Proof.Machine.execObsSnapshot value s
  | .stopRequest => Sys2Proof.Machine.execStopRequest s
  | .stopReached => Sys2Proof.Machine.execStopReached s
  | .stopResume => Sys2Proof.Machine.execStopResume s
  | .jtagStop => Sys2Proof.Machine.execJtagStop s
  | .scanout loc offset units => Sys2Proof.Machine.execScanout loc offset units s
  | .scanRequest loc offset units => Sys2Proof.Machine.execScanRequest loc offset units s
  | .jtagReset => Sys2Proof.Machine.execJtagReset s
  | .extest bits => Sys2Proof.Machine.execExtest bits s
  | .idcode => Sys2Proof.Machine.execIdcode s
  | .samplePreload bits => Sys2Proof.Machine.execSamplePreload bits s
  | .bypass bits => Sys2Proof.Machine.execBypass bits s
  | .replayAccept f sq desc r => Sys2Proof.Machine.execReplayAccept f sq desc r s
  | .porRelease => Sys2Proof.Machine.execPorRelease s
  | .resetN lowNs => Sys2Proof.Machine.execResetN lowNs s
  | .devReset value => Sys2Proof.Machine.execDevReset value s
  | .pkgLimit value => Sys2Proof.Machine.execPkgLimit value s
  | .hostLinkReset link => Sys2Proof.Machine.execHostLinkReset link s
  | .bootStageEnd stage ok stack => Sys2Proof.Machine.execBootStageEnd stage ok s stack
  | .pwrGood r => Sys2Proof.Machine.execPwrGood r s
  | .railEnableDelay r => Sys2Proof.Machine.execRailEnableDelay r s
  | .powerGoodTimeout r => Sys2Proof.Machine.execPowerGoodTimeout r s
  | .thermalSample t => Sys2Proof.Machine.execThermalSample t s
  | .thermalLimit => Sys2Proof.Machine.execThermalLimit s
  | .pwrFailN => Sys2Proof.Machine.execPwrFailN s
  | .refClkMissing => Sys2Proof.Machine.execRefClkMissing s
  | .refClkLost => Sys2Proof.Machine.execRefClkLost s
  | .timeSet offset width value => Sys2Proof.Machine.execTimeSet offset width value s
  | .timeCtrlWrite value => Sys2Proof.Machine.execTimeCtrlWrite value s
  | .tableCommit value => Sys2Proof.Machine.execTableCommit value s
  | .apertureWrite offset width value => Sys2Proof.Machine.execApertureWrite offset width value s
  | .unprescribedWrite offset width value => Sys2Proof.Machine.execUnprescribedWrite offset width value s
  | .dropCounterRead offset width => Sys2Proof.Machine.execDropCounterRead offset width s
  | .memberStatusRead width => Sys2Proof.Machine.execMemberStatusRead width s
  | .funcStatusRead f offset width => Sys2Proof.Machine.execFuncStatusRead f offset width s
  | .mctpRegisterAccess write offset width value => Sys2Proof.Machine.execMctpRegisterAccess write offset width value s
  | .registerWrite f bar2 offset width value => Sys2Proof.Machine.execRegisterWrite f bar2 offset width value s
  | .hwriteRetire queue => Sys2Proof.Machine.execHwriteRetire queue s
  | .errorBoundExceeded bound => Sys2Proof.Machine.execErrorBoundExceeded bound s
  | .refClkReturn => Sys2Proof.Machine.execRefClkReturn s
  | .pldmReset => Sys2Proof.Machine.execPldmReset s
  | .powerGoodFall r => Sys2Proof.Machine.execPowerGoodFall r s
  | .vddAonLow => Sys2Proof.Machine.execVddAonLow s
  | .railDisableDelay => Sys2Proof.Machine.execRailDisableDelay s
  | .commitCopyDone table => Sys2Proof.Machine.execCommitCopyDone table s
  | .replicaUpdateDone table entry => Sys2Proof.Machine.execReplicaUpdateDone table entry s
  | .mctpRecordPush => Sys2Proof.Machine.execMctpRecordPush s
  | .observationFrameSend => Sys2Proof.Machine.execObservationFrameSend s

end Sys2Proof.Machine
end

