-- ==== Sys2Proof/Safety.lean ====
section
/-!
DEFINITION. What the claims call a legal state and a command that keeps to its own part of the state.
-/

namespace Sys2Proof

open Sys2Proof.Machine

/-- Every mode field holds one of the codes the spec names, never a reserved one: STOP_STATUS STATE (R534), MEMBER_STATUS
STATE and TWIN_STATE (R465), TENANCY_STATUS KIND and PHASE (R489), the discipline mode and the chronometer's state (R60, R63),
BOOT_STATUS STAGE, LAST_RESET and THERMAL, the package limit in force within the bounds of
R549, the SPDM connection's stage (R508), and a GRADE whose resources are those of the ENGINE_MASK (R1, R29). The discipline
mode is stored as written, 3 being taken as FREE (R8, R60). -/
structure Machine.State.Legal (s : State) : Prop where
  stop : s.stop.state ≤ 2
  grid : s.grid.state ≤ 4
  twin : s.grid.twinState ≤ 2
  kind : s.tenancy.kind ≤ 2
  phase : s.tenancy.phase ≤ 3
  chronMode : s.chron.mode ≤ 3
  chronState : s.chron.state ≤ 2
  stage : s.power.stage ≤ 7
  lastReset : s.power.lastReset ≤ 7
  thermal : s.power.thermal ≤ 2
  limLow : 900 ≤ s.power.effLimit
  limHigh : s.power.effLimit ≤ 1800
  spdm : s.spdm.phase ≤ 3
  grade : gradeOk s.fuses.grade s.fuses.engineMask = true

/-- The fuses that are blown at manufacture and that nothing in the part writes (R1, R29, R194, R501, R560): GRADE, STEPPING,
ENGINE_MASK, the array fuse records and DEVICE_ID. -/
def Machine.State.factory (s : State) : Nat × Nat × W64 × Tbl W16 × Bytes :=
  (s.fuses.grade, s.fuses.stepping, s.fuses.engineMask, s.fuses.arrays, s.fuses.deviceId)

/-- What every command keeps: the queue of waiting commands, the factory fuses, and legal modes where they were legal. -/
structure Machine.Keeps (s t : State) : Prop where
  pending : t.pending = s.pending
  factory : t.factory = s.factory
  legal : s.Legal → t.Legal

/-! ### What the claims set back

A claim says which fields of the state a command writes by giving the whole next state; the fields that any command may
write besides (records of events, the trace) are set back first. -/

/-- `t` with the trace, the telemetry paths and the hub's order, the drop counters, the alarm latch, the concurrency group, the
notes of what was set at this ns and the fault mark of a grid step as they are in `s`: whatever the raising of events and the trace leave behind (R12, R481, R516,
R519, R524, R528). -/
def Machine.State.unlogged (t s : State) : State :=
  { t with trace := s.trace, paths := s.paths, drops := s.drops, latch := s.latch, groupStamp := s.groupStamp
           groupNo := s.groupNo, hub := s.hub, fresh := s.fresh, grid := { t.grid with faulted := s.grid.faulted } }

/-- `t.unlogged s` with the running step as it is in `s`. -/
def Machine.State.unissued (t s : State) : State := { t.unlogged s with run := s.run }

/-- A step's record is the same but for its port claims, the breaches they make, its flags, the work of its ops that is still
to be done, and what plan beat 0 leaves: its stamps and its lateness (R64, R65, R79, R80, R103, R170, R357). -/
def Machine.Run.kept (r r' : Run) : Prop :=
  { r' with claims := r.claims, breaches := r.breaches, flags := r.flags, flagRecs := r.flagRecs, sflags := r.sflags
            flights := r.flights, stamps := r.stamps, begin_ := r.begin_, beginNs := r.beginNs, lateness := r.lateness } = r

/-- The running step is the same but for these. -/
def Machine.RunKept (s t : State) : Prop := ∃ r r', s.run = some r ∧ t.run = some r' ∧ r.kept r'

/-- The sequencer of virtual movement `v` right after the issue of an op, of its engine or not, at its current beat (R66,
R87, R88). -/
def Machine.State.issuedSeq (s : State) (v : Nat) (engine : Bool) : Seq :=
  let q := s.seqOf v
  let b := (s.mvOf (s.phys v)).beats
  { q with opened := true, event := q.event + 1, ref := b, engine := q.engine || engine
           worked := if engine then some b else q.worked }

/-- An op's later work, done at its beats (R43, R103, R189): what its issue leaves in flight. -/
def Machine.State.flying (s : State) (v : Nat) (w : Work) : Flight :=
  { pos := s.pos v, opAddr := (s.seqOf v).opAddr, work := w }

/-- `s` with the sequencer of `v` as it stands right after the issue of an op of its engine, or of none. -/
def Machine.State.issuedBy (s : State) (v : Nat) (engine : Bool := true) : State := s.setSeq v (s.issuedSeq v engine)

/-- `t` is `u` but for what events leave behind and for what a running step's record keeps of an issue (`kept`), and the op
leaves the work `ws` for its beats. -/
def Machine.State.leaves (s : State) (v : Nat) (u t : State) (ws : List Work) : Prop :=
  RunKept s t ∧ t.unissued s = u ∧ t.flights = s.flights ++ ws.map (s.flying v)

/-- Part `k` of the later work of the op issued at plan position `p`, done now (R43, R103, R189). -/
def Machine.State.does (s : State) (p : PlanPos) (w : Work) (k : Nat := 0) : State :=
  (doPart { pos := p, work := w, next := k } s).1

/-- Every access lies in a declared extent of the running step's plan (R83). -/
def Machine.State.inExtents (s : State) (v : Nat) (as : List Access) : Prop :=
  ∀ r ∈ s.run, ∀ a ∈ as, inExtent r.plan.extents v a = true

/-- `t` with what the writing of a completion leaves behind set back to `s`: the accepted descriptors, the functions' rings
and interrupts, the transmissions, and the number of the next free value (R346, R357, R364, R384). -/
def Machine.State.uncompleted (t s : State) : State :=
  { t with intake := { t.intake with acc := s.intake.acc }, fns := s.fns, out := s.out, free := s.free }

/-- Accepted descriptor `a` stands under `acc`, of kind `kind`, its work not begun, and its completion ring takes entries:
its function is not reset and the ring is not stopped (R346, R365, R386). -/
def Machine.State.serves (s : State) (acc kind : Nat) (a : Acc) : Prop :=
  tfind s.intake.acc acc = some a ∧ a.kind = kind ∧ a.begun = false ∧ a.mute = false ∧ (s.fnOf a.fn).inReset = false ∧
    (s.cqOf a.fn a.cq).stopped = false

/-- No data unit of a list is poisoned or holds an erroneous symbol (R293, R295). -/
def Machine.State.sound (s : State) (us : List (Nat × Nat)) : Prop :=
  ∀ u ∈ us, u.2 ∉ (s.stackOf u.1).poisoned ∧ tfind (s.stackOf u.1).errs u.2 = none

/-- Descriptor `a`, accepted under `acc`, is completed: it is accepted no longer, and its 32-byte entry is written at the
tail of its completion ring (R346, R357, R364). -/
def Machine.Completes (s t : State) (acc : Nat) (a : Acc) (status detail : Nat) (r : Results) : Prop :=
  t.intake.acc = tdel acc s.intake.acc ∧
    (let c := s.cqOf a.fn a.cq
     Out.dma a.fn (pasidOf c.pasidEn c.pasid) (c.base + BitVec.ofNat 64 (32 * c.tail))
       (completionBytes a status detail r c.phase) false ∈ t.out)

/-- `t` is `s` but for link port `p` and for what events leave behind (`unlogged`). -/
def Machine.State.onlyPort (s : State) (p : Nat) (t : State) : Prop :=
  { t.unlogged s with ports := s.ports } = s ∧ ∀ q, q ≠ p → t.portOf q = s.portOf q

/-- A control unit of TYPE `type` whose CRC holds and whose bits lie within the masks of its words (R397, R405, R429). -/
def Machine.goodUnit (u : CtrlUnit) (type : Nat) (m0 m1 m2 : W32) : Prop :=
  unitIntact u = true ∧ unitType u = type ∧ onlyBits u.w0 m0 = true ∧ onlyBits u.w1 m1 = true ∧ onlyBits u.w2 m2 = true

/-- In `t` the message `m` waits in four control units more than in `s` on every ACTIVE port of a list, and on no other
(R406, R474). -/
def Machine.State.flooded (s : State) (ps : List Nat) (m : CtrlMsg) (t : State) : Prop :=
  ∀ q, t.portOf q =
    if q ∈ ps ∧ s.isActive q = true then { s.portOf q with ctrl := (s.portOf q).ctrl ++ List.replicate 4 m } else s.portOf q

end Sys2Proof
end

