-- ==== Sys2Proof/Certificates/Slice0/Obligations.lean ====
section
/-!
DEFINITION. The statements for the provers, each a proposition about the model, from the numbered rules of the spec.
A statement of completion gives the whole next state, what events and the trace leave behind being set back first
(`unlogged`, `unissued` of Safety.lean): it is the frame as well.
-/

open Sys2Proof Sys2Proof.Machine

/-- A step takes the command at the front of the queue and is its effect on the state with the rest of the queue; with
no command waiting it is one nanosecond of reference time (DESIGN CHOICE, log 2), in which the chronometer moves by at
most 2, never backwards, while its rate lies within the trim's range (R57): TRIM, or what slewing takes away while an error
toward an earlier value is left, which shrinks by as much (R58). Nothing else changes. -/
def Obligations.StepRunsFrontCommand : Prop :=
  (∀ (c : Instr) (rest : List Instr) (s : State), s.pending = c :: rest → step s = exec c { s with pending := rest }) ∧
  (∀ s : State, s.pending = [] →
    ∃ t, step s = .next t ∧ t.ns = s.ns + 1 ∧ { t with ns := s.ns, chron := s.chron } = s ∧
      s.chron.count ≤ t.chron.count ∧ t.chron.debt = s.chron.debt - s.chron.slew ∧
      { t.chron with count := s.chron.count, frac := s.chron.frac, debt := s.chron.debt } = s.chron ∧
      (let rate : Int := if s.chron.debt = 0 then s.chron.trim else -(min s.chron.slew s.chron.debt : Nat)
       0 ≤ s.chron.frac → s.chron.frac < 2 ^ 32 → -(trimMax : Int) ≤ rate → rate ≤ trimMax →
        0 ≤ t.chron.frac ∧ t.chron.frac < 2 ^ 32 ∧ t.chron.count ≤ s.chron.count + 2 ∧
        (t.chron.count : Int) * 2 ^ 32 + t.chron.frac =
          (s.chron.count : Int) * 2 ^ 32 + s.chron.frac + 2 ^ 32 + rate))

/-- The state after a COLD reset is legal, and holds the reset values of the spec's registers: no command waiting, stage
FUSE, PKG_LIMIT 1,800, RATE_LOG2 10, LIMIT 100,000, TTL 60,000,000, CTRL_LEN 20, E2E_TIMEOUT 100 and E2E_ROUNDS 3,
FENCE_LIMIT 10,000 and TWIN_TIMEOUT 200, STATE HOLDOVER, no tenancy, no stop, the chronometer 0, and every live table's
copies equal. -/
def Obligations.ResetState : Prop :=
  let s := State.reset
  s.Legal ∧ s.pending = [] ∧ s.power.stage = 0 ∧ s.power.pkgLimit = 1800 ∧ s.auditRate = 10 ∧ s.waitLimit = 100000 ∧
    s.prefixTtl = 60000000 ∧ s.cad.nextCtrlLen = 20 ∧ s.fabric.timeout = 100 ∧ s.fabric.rounds = 3 ∧
    s.grid.fenceLimit = 10000 ∧ s.grid.twinTimeout = 200 ∧ s.chron.count = 0 ∧ s.chron.state = 1 ∧ s.tenancy.phase = 0 ∧
    s.stop.state = 0 ∧ s.run = none ∧ ∀ n, (s.tableOf n).active = (s.tableOf n).shadow

/-- Every command, in every state, answers a next state; it leaves the queue of waiting commands as it is. -/
def Obligations.EveryCommandAnswers : Prop :=
  ∀ (c : Instr) (s : State), ∃ t, exec c s = .next t ∧ t.pending = s.pending

/-- Every step keeps the modes legal, each one of the codes the spec names for it, the package limit in force within 900 and
1,800 W, the resources those of the grade, and the fuses blown at manufacture (R1, R29, R60, R63, R194, R465, R489, R501, R508, R534, R549): no reserved code of
a mode is ever reached from a state that holds none. -/
def Obligations.StepKeepsLegal : Prop :=
  ∀ s t : State, step s = .next t → s.Legal → t.Legal ∧ t.factory = s.factory

/-- Op words (R84 to R86): of every op command but an IDLE of count 0, a NEST_OPEN of a level above 5 or of period 0,
and a ZERO of no units, which no word spells, the encoder's word decodes to it, every operand as it was; splitting a
word and joining its fields are inverse. -/
def Obligations.OpWordsRoundTrip : Prop :=
  (∀ (i : Instr) (o : OpWord), encodeOp i = some o →
    (∀ v, i ≠ .idle v 0) → (∀ v level count period, i = .nestOpen v level count period → level.toNat < 6 ∧ period ≠ 0) →
    (∀ v offset region queue, i ≠ .zero v offset region 0 queue) →
    ∃ v, decodeOp v o = some i ∧ o.patchOk = true) ∧
  (∀ w : W128, joinWord (splitWord w) = w) ∧ ∀ o : OpWord, splitWord (joinWord o) = o

/-- No two op words that differ outside DELTA, PMODE and PSLOT decode to one command, and every reserved field of a word
that decodes is 0 (R84 to R86): the word of what a word decodes to is that word, its schedule and patch fields 0. -/
def Obligations.DecodedWordsAreEncodings : Prop :=
  ∀ (v : VMove) (o : OpWord) (i : Instr), decodeOp v o = some i →
    encodeOp i = some { o with delta := 0, pmode := 0, pslot := 0 }

/-- While a global stop holds the device the cadence pauses (R378): no frame starts, no window begins or ends, no
descriptor is fetched; the schedule, the start of the window in force and the shift of the frames move on by the stop's
length when it is released, by RESUME or, of an ending stop, with the end of its step. -/
def Obligations.CadencePausesInStop : Prop :=
  ∀ s : State, s.stop.state = 2 →
    (∀ c ∈ [Instr.frameStart, .windowStart, .windowEnd, .windowIdleEnd], ∃ t, exec c s = .next t ∧ t = s) ∧
    (∀ d, ∃ t, exec (.descriptorFetch d) s = .next t ∧ t = s) ∧
    (let d := s.chron.count - s.stop.since
     let moved := fun (t : State) => t.stop.state = 0 ∧ t.chron = s.chron ∧
       t.cad = { s.cad with start := s.cad.start + d, sched := s.cad.sched + d, shift := s.cad.shift + d }
     (s.stop.ending = false → ∃ t, exec .stopResume s = .next t ∧ moved t) ∧
     (∀ r, s.stop.ending = true → s.run = some r → s.stepOver r = true → ∃ t, exec .stepComplete s = .next t ∧ moved t))

/-- What a function-level reset leaves standing (R389): the streams, the pages, the prefix entries, the plans, the
weight sets, the quota tables and the cadence table. -/
def Obligations.FunctionResetKeeps : Prop :=
  ∀ (s : State) (f : Fn), risingFrom 0 s.fns = true →
    (let kept := fun (t : State) =>
       t.streams = s.streams ∧ t.pages = s.pages ∧ t.prefixes = s.prefixes ∧ t.slots = s.slots ∧ t.sets = s.sets ∧
         t.loads = s.loads ∧ t.tables = s.tables ∧ t.tenancy = s.tenancy ∧
         ∀ g, (t.fnOf g).pages = (s.fnOf g).pages ∧ (t.fnOf g).openStreams = (s.fnOf g).openStreams
     (∃ t, exec (.flrStart f) s = .next t ∧ kept t) ∧ (∃ t, exec (.flrComplete f) s = .next t ∧ kept t))

/-- NOP, IDLE, AG_BASE, AG_STRIDE and STEP_END (R74, R87, R89, R90): where the movement can issue, each issues and
writes what its row says in its own sequencer, and nothing else changes. NEST_OPEN (R89, R91): with its level the number
of levels open, below 6, and a period above 0, a count above 0 opens the level with iteration 0 starting at the op's
beat; a count of 0 moves past the level's NEST_CLOSE. -/
def Obligations.SequencerOpsComplete : Prop :=
  (∀ (s : State) (v : VMove), s.canIssue v = true →
     (∃ t, exec (.nop v) s = .next t ∧ s.leaves v (s.issuedBy v false) t []) ∧
     (∀ count : W32, count ≠ 0 →
       ∃ t, exec (.idle v count) s = .next t ∧
         s.leaves v (s.setSeq v { s.issuedSeq v false with ref := (s.mvOf (s.phys v)).beats + count.toNat }) t []) ∧
     (∀ (g : Fin 4) (base : W32),
       ∃ t, exec (.agBase v g base) s = .next t ∧
         s.leaves v (s.setSeq v { s.issuedSeq v false with
           ag := tset {} (s.seqOf v).ag g { tget {} (s.seqOf v).ag g with base := base } }) t []) ∧
     (∀ (g : Fin 4) (level : Fin 6) (stride : W32),
       ∃ t, exec (.agStride v g level stride) s = .next t ∧
         s.leaves v (s.setSeq v { s.issuedSeq v false with
           ag := tset {} (s.seqOf v).ag g { tget {} (s.seqOf v).ag g with
             stride := tset 0 (tget {} (s.seqOf v).ag g).stride level stride } }) t []) ∧
     (∃ t, exec (.stepEnd v) s = .next t ∧
       s.leaves v (s.setSeq v { s.issuedSeq v false with ended := some (s.mvOf (s.phys v)).beats }) t [])) ∧
  (∀ (s : State) (v : VMove) (level : BitVec 3) (count period : W32), s.canIssue v = true →
     level.toNat = (s.seqOf v).nest.length → level.toNat < 6 → period ≠ 0 →
     ∃ t, exec (.nestOpen v level count period) s = .next t ∧
       (let q := s.seqOf v
        let close := closeOf ((s.code v).drop q.pos) q.pos 0
        (count = 0 → s.leaves v (s.setSeq v { s.issuedSeq v false with pos := close + 1 }) t []) ∧
        (count ≠ 0 → s.leaves v (s.setSeq v { s.issuedSeq v false with
           nest := { start := (s.mvOf (s.phys v)).beats, count := count.toNat, period := period.toNat, k := 0
                     body := q.pos, close := close } :: q.nest }) t [])))

/-- WAIT (R45, R104): on a queue its movement has, with a target not beyond the queue's issue count, it issues; a retire
count at or past the target (modulo 2^32) lets the movement go on, one short of it begins a hold. No replay runs.
A balance period spent holding (R45, R46, R104) is one slip beat, charged to the wait's site in the step's record at once, and
to the time in waits for peers where the movement is an X movement. WAIT_RELEASE (R45, R104): a hold whose count has come and
whose slip is all held ends, and the movement is quiet from now. WAIT_LIMIT (R107): a hold longer than the limit of its movement ends
the step with a WAIT_LIMIT breach (code 10, R108). TAKE (R89, R102, R105, R228): with the rows it takes in the arrival share
and its destination rows in declared extents, it writes each to its destination at its beat and raises their commands' flags; a
row that never arrived (R387) writes nothing. Each row moves out of the share at its beat, and is counted taken then. A
split TAKE is carried by S and X movements. -/
def Obligations.WaitsAndTakesComplete : Prop :=
  (∀ (s : State) (v : VMove) (target : W32) (queue : Fin 16) (site : W16), s.canIssue v = true →
     queue.val < queueCount (s.vtype v) → s.replaying = false →
     countDiff target (s.qOf (qKey v queue)).issued ≤ 0 →
     ∃ t, exec (.wait v target queue site) s = .next t ∧
       (0 ≤ countDiff (s.qOf (qKey v queue)).retired target → s.leaves v (s.issuedBy v false) t []) ∧
       (countDiff (s.qOf (qKey v queue)).retired target < 0 → t.flights = s.flights ∧
         (t.unlogged s).seq = (s.setSeq v { s.issuedSeq v false with
           hold := some { queue := queue, target := target, site := site.toNat, since := s.ns, need := 0
                          limit := s.waitLimitNow, event := (s.seqOf v).event, opAddr := (s.seqOf v).opAddr } }).seq ∧
         { t.unissued s with seq := s.seq } = s)) ∧
  (∀ (s : State) (v : VMove) (h : Hold) (r : Run), s.run = some r → (s.seqOf v).hold = some h →
     (holdMet s v h = true →
       ∃ t, exec (.waitRelease v) s = .next t ∧
         t.unlogged s = (s.setSeq v { s.seqOf v with hold := none }).setMv (s.phys v)
           { s.mvOf (s.phys v) with quiet := s.ns }) ∧
     (∀ n : Mv, s.virt n = v.val → holdMet s v h = false → r.stopped = false → s.passed n = false →
       edgeIssues s.power.issue16 ((s.mvOf n).periods % 16) = true → s.emptyBeat v = false →
       ∃ t, exec (.planBeatIssue n []) s = .next t ∧
         { t.unissued s with seq := s.seq, mv := s.mv } = s ∧
         t.seq = (s.setSeq v { s.seqOf v with hold := some { h with slip := h.slip + 1 } }).seq ∧
         (t.mvOf n).beats = (s.mvOf n).beats ∧
         ∃ r', t.run = some r' ∧ { r' with slip := r.slip, peer := r.peer } = r ∧
           r'.slip = tset 0 r.slip h.site (satNat 32 (tget 0 r.slip h.site + 1)) ∧
           (s.vtype v = 7 → r'.peer = satNat 32 (r.peer + 1)) ∧ (s.vtype v ≠ 7 → r'.peer = r.peer)) ∧
     (holdMet s v h = false → fenceBound s v = false → h.limit * 1000 < s.ns - h.since → s.stop.state ≠ 2 →
       ∃ t, exec (.waitLimit v) s = .next t ∧ { t with run := s.run, stop := s.stop } = s ∧
         (∃ r' b, t.run = some r' ∧ { r' with breaches := r.breaches } = r ∧ r'.breaches = r.breaches ++ [b] ∧
           b.code = 10 ∧ b.operand = h.queue ∧ b.opAddr = h.opAddr ∧ b.pos = { s.pos v with event := h.event }) ∧
         t.stop.state ≠ 0 ∧ t.stop.ending = true ∧ t.stop.causes &&& 1 = 1)) ∧
  (∀ (s : State) (v : VMove) (dst : AddrOp) (queue : Fin 16) (rowsM1 : BitVec 12) (split : Option AddrOp),
     s.canIssue v = true → queue.val < queueCount (s.vtype v) →
     (split = none ∨ s.vtype v = 6 ∨ s.vtype v = 7) →
     (let q := s.seqOf v
      let n := rowsM1.toNat + 1
      let u := s.qOf (qKey v queue)
      let at_ := takeRow (q.addr dst) (split.map q.addr) (s.mvOf (s.phys v)).beats
      let taken := u.rows.take n
      n ≤ u.rows.length → s.inExtents v (writes ((List.range n).map at_)) →
      ∃ t, exec (.take v dst queue rowsM1 split) s = .next t ∧
        s.leaves v { (s.issuedBy v false).setQ (qKey v queue)
              { u with rows := u.rows.drop n, moving := u.moving ++ (List.range n).map fun k => (at_ k).2 } with
            mv := (s.writeRows ((indexed taken).filterMap fun e =>
              e.2.data.map fun b => ((at_ e.1).1, (at_ e.1).2, b))).mv } t [])) ∧
  (∀ (s : State) (v b : Nat) (k : Nat), k < queueCount (s.vtype v) →
     (let u := s.qOf (qKey v k)
      (moveRows s v b).qOf (qKey v k) =
        { u with taken := u.taken + BitVec.ofNat 32 (u.moving.filter fun m => decide (m ≤ b)).length
                 moving := u.moving.filter fun m => !decide (m ≤ b) }))

/-- TILE_LOAD, TILE_SCALES, ASCALE_SET, SEED_SET and STREAM (R175, R178, R181, R184, R186 to R188, R190, R191): with fields
R181 to R190 allow and rows in declared extents, each issues; ASCALE_SET and SEED_SET write their registers, a TILE_LOAD the
format and checksum mode of its buffer, and the rest is work left for its beats, nothing else changing but claims. Done, a
TILE_LOAD's work puts its 256 rows, one read at each beat from the op's, into the buffer, with the faults of its storage and,
where the row check of checksum mode fails (R196, R197), the CHECKSUM flag; a TILE_SCALES's puts its 16 rows into the scales;
and row i of a STREAM adds, for accumulator row ACC + i at beat b + i + 280, the sums of row i of A against the tile, from 0
with START and onto what stands without, in the column half a 16-bit class takes. -/
def Obligations.MatrixLoadsAndStreams : Prop :=
  (∀ (s : State) (v : VMove), s.canEngine v = true → s.vtype v = 1 →
     (let n := s.phys v
      let m := s.matOf n
      let b := (s.mvOf n).beats
      let q := s.seqOf v
      (∀ (src : AddrOp) (sr : W16) (buf : Bool) (bfmt : BitVec 5) (chk : Bool),
        mClass bfmt.toNat ≠ 0 → (chk = true → chkOk bfmt.toNat = true) →
        s.inExtents v (reads (tileLoadRows (q.addr src) sr.toInt b)) →
        ∃ t, exec (.tileLoad v src sr buf bfmt chk) s = .next t ∧
          s.leaves v ((s.issuedBy v).setMat n (m.setBuf buf { m.buf buf with fmt := some bfmt.toNat, chk := chk })) t
            [.tileLoad (q.addr src) sr.toInt buf chk]) ∧
      (∀ (src : AddrOp) (buf : Bool), s.inExtents v (reads (tileScaleRows (q.addr src) b)) →
        ∃ t, exec (.tileScales v src buf) s = .next t ∧ s.leaves v (s.issuedBy v) t [.tileScales (q.addr src) buf]) ∧
      (∀ addr : AddrOp, ∃ t, exec (.ascaleSet v addr) s = .next t ∧
        s.leaves v ((s.issuedBy v).setMat n { m with ascale := BitVec.ofNat 32 (q.addr addr) }) t []) ∧
      (∀ seed : W32, ∃ t, exec (.seedSet v seed) s = .next t ∧
        s.leaves v ((s.issuedBy v).setMat n { m with seed := seed }) t []) ∧
      (∀ (a : AddrOp) (acc : AccOp) (rows : BitVec 11) (buf start sub : Bool) (afmt : BitVec 5) (anchor : BitVec 10),
        (let tb := m.buf buf
         let f := afmt.toNat
         1 ≤ rows.toNat → rows.toNat ≤ 1024 → mClass f ≠ 0 → mClass f = mClass (tb.fmt.getD f) →
         (tb.chk = true → chkOk f = true) → (sub = true → mClass f = 16) →
         s.inExtents v (reads (streamReads (q.addr a) m.ascale.toNat rows.toNat f b)
           ++ accRows (q.accRow acc) rows.toNat (b + 280) 1 true) →
         ∃ t, exec (.stream v a acc rows buf start sub afmt anchor) s = .next t ∧
           s.leaves v (s.issuedBy v) t [.stream (q.addr a) (q.accRow acc) rows.toNat buf start sub f (tb.fmt.getD f) tb.chk
             (anchorOf anchor) m.ascale.toNat])))) ∧
  (∀ (s : State) (p : PlanPos) (buf : Bool),
     (let n := s.phys p.vmove
      let m := s.matOf n
      let tb := m.buf buf
      (∀ (src : Nat) (st : Int) (chk : Bool),
        (let rows := memPutAll none [] 0 (readAll s (tileLoadRows src st p.beat)).flatten
         let tile := tb.faults.foldl (fun x e => memPut none x e.1 (BitVec.ofNat 8 e.2)) rows
         let u := s.does p (.tileLoad src st buf chk)
         u.unissued s = s.setMat n (m.setBuf buf { tb with
           tile := tile, arrived := if chk then rows else [], faults := []
           bad := tb.bad.filter fun w => decide (8192 ≤ w), weak := tb.weak.filter fun e => decide (8192 ≤ e.1) }) ∧
         (∀ r, s.run = some r → chk = true →
           rowCheck { tb with tile := tile, arrived := rows } (tb.fmt.getD 3) = false →
           ∃ r', u.run = some r' ∧ bitNat r'.sflags 1 = true) ∧
         (chk = false ∨ rowCheck { tb with tile := tile, arrived := rows } (tb.fmt.getD 3) = true →
           u.run = s.run ∧ u.paths = s.paths))) ∧
      (∀ src : Nat, s.does p (.tileScales src buf) = s.setMat n (m.setBuf buf { tb with
        scales := memPutAll none [] 0 (readAll s (tileScaleRows src p.beat)).flatten
        bad := tb.bad.filter fun w => decide (w < 8192), weak := tb.weak.filter fun e => decide (e.1 < 8192) })) ∧
      (∀ (a acc rows i : Nat) (start sub : Bool) (af bf : Nat) (chk : Bool) (anchor : Int) (asc : Nat),
        risingFrom 0 s.matrix = true → tb.bad = [] → tb.weak = [] →
        (let ev := scaleEvery (mClass af)
         let srow := if isMX af then s.readRow (rowAt asc (i / ev : Nat)) (p.beat + ev * (i / ev)) else []
         let r := streamRow tb af bf chk sub anchor (s.readRow (rowAt a i) (p.beat + i))
           (slice srow ((256 / ev) * (i % ev)) (256 / ev))
         (s.does p (.stream a acc rows buf start sub af bf chk anchor asc) i).unissued s = s.setMat n (addEffs m
           [{ beat := p.beat + i + 280, kind := if start then 3 else 2, row := acc + i
              col := if mClass af = 16 ∧ sub = true then 128 else 0, vals := r.1, inv := r.2.1, pos := p }])))))

/-- DRAIN, DRAIN_WIDE and ACC_LOAD (R181, R183, R186, R189, R191): with rows and formats R181 and R183 allow, each issues and
leaves its work for its beats. Over sound storage words, row k of a drain, done, writes the rounded, or the whole, codes of
accumulator row ACC + k as it stands then to its destination rows, and a CLEAR follows its read; row i of an ACC_LOAD adds, for
27 beats after its first, the row of W128 codes its 16 rows hold. The effect of a STREAM or an ACC_LOAD at its beat: it
replaces its columns, or is combined with what stands in them (R158, R178). ECC of the accumulator store (R192, R193): a
drain that reads an uncorrectable word ends the step: its first fault is ACC_ECC_FATAL (0x0108) at that word's macro, and no
further op issues; a corrected word is reported at its bit. The background scrub rewrites an accumulator with an
uncorrectable word as 0, corrects a correctable one, and leaves every other word and array. -/
def Obligations.MatrixAccumulators : Prop :=
  (∀ (s : State) (v : VMove), s.canEngine v = true → s.vtype v = 1 →
     (let b := (s.mvOf (s.phys v)).beats
      let q := s.seqOf v
      (∀ (dst : AddrOp) (acc : AccOp) (rows : BitVec 11) (ofmt : BitVec 5) (round : BitVec 2) (sat clear : Bool)
         (anchor : BitVec 10),
        1 ≤ rows.toNat → rows.toNat ≤ 1024 → drainOk ofmt.toNat = true → round ≠ 3 →
        s.inExtents v (accRows (q.accRow acc) rows.toNat b 1 false
          ++ writes (drainWrites (q.addr dst) rows.toNat ofmt.toNat b)) →
        ∃ t, exec (.drain v dst acc rows ofmt round sat clear anchor) s = .next t ∧
          s.leaves v (s.issuedBy v) t [.drain (q.addr dst) (q.accRow acc) rows.toNat ofmt.toNat round.toNat sat clear
            (anchorOf anchor) (s.matOf (s.phys v)).seed.toNat]) ∧
      (∀ (dst : AddrOp) (acc : AccOp) (rows : BitVec 11) (clear : Bool),
        1 ≤ rows.toNat → rows.toNat ≤ 1024 →
        s.inExtents v (accRows (q.accRow acc) rows.toNat b 4 false ++ writes (wideRows (q.addr dst) rows.toNat b)) →
        ∃ t, exec (.drainWide v dst acc rows clear) s = .next t ∧
          s.leaves v (s.issuedBy v) t [.drainWide (q.addr dst) (q.accRow acc) rows.toNat clear]) ∧
      (∀ (src : AddrOp) (acc : AccOp) (rows : BitVec 11) (add : Bool),
        1 ≤ rows.toNat → rows.toNat ≤ 1024 →
        s.inExtents v (reads (wideRows (q.addr src) rows.toNat b) ++ accRows (q.accRow acc) rows.toNat (b + 27) 4 true) →
        ∃ t, exec (.accLoad v src acc rows add) s = .next t ∧
          s.leaves v (s.issuedBy v) t [.accLoad (q.addr src) (q.accRow acc) rows.toNat add]))) ∧
  (∀ (s : State) (p : PlanPos) (d acc rows k : Nat), risingFrom 0 s.matrix = true →
     (let n := s.phys p.vmove
      let m := s.matOf n
      let cleared := fun (clear : Bool) (t : State) =>
        if clear then t.setMat n (m.putRow (acc + k) 0 (List.replicate 256 0)) else t
      m.bad = [] → m.weak = [] →
      (∀ (ofmt mode : Nat) (sat clear : Bool) (anchor : Int) (seed : Nat),
        (let w := fmtBits ofmt / 8
         let bytes := (drainRow (m.row (acc + k)) k ofmt mode sat anchor seed p).1
         (s.does p (.drain d acc rows ofmt mode sat clear anchor seed) k).unissued s = cleared clear { s with
           mv := (if ofmt = 0xE then s.writeBytes (rowAt d (k / 2 : Nat)) (p.beat + k)
               ((indexed bytes).map fun e => (128 * (k % 2) + e.1, e.2))
             else s.writeRows ((indexed (cutRows w bytes)).map fun e => (rowAt d (w * k + e.1 : Nat), p.beat + k, e.2))).mv })) ∧
      (∀ clear : Bool, s.does p (.drainWide d acc rows clear) k = cleared clear { s with
         mv := (s.writeRows ((indexed (cutRows 16 ((m.row (acc + k)).flatMap fun w => leBytes 16 w.toNat))).map fun e =>
           (rowAt d (16 * k + e.1 : Nat), p.beat + 4 * k + e.1 / 4, e.2))).mv }) ∧
      (∀ add : Bool,
        (let vals := (List.range 256).map fun c => BitVec.ofNat 128 (fieldAt
           ((List.range 16).map fun (i : Nat) => s.readRow (rowAt d (16 * k + i : Nat)) (p.beat + 4 * k + i / 4)).flatten
           (16 * c) 16)
         s.does p (.accLoad d acc rows add) k = s.setMat n (addEffs m
           [{ beat := p.beat + 4 * k + 27, kind := if add then 1 else 0, row := acc + k, col := 0, vals := vals
              inv := if add then vals.map loadStarts else [], pos := p }]))) ∧
      (∀ e : AccEff,
        (applyEff n s e).unissued s = s.setMat n (m.putRow e.row e.col ((indexed e.vals).map fun x =>
          if e.kind = 1 ∨ e.kind = 2 then (combine (m.base (256 * e.row + e.col + x.1)) x.2).1 else x.2))))) ∧
  (∀ (s : State) (p : PlanPos) (d acc rows k w : Nat) (clear : Bool) (r : Run), s.run = some r → r.fault = none →
     (let n := s.phys p.vmove
      let m := s.matOf n
      let ws := accWords (acc + k) 0 256
      ((m.bad.filter ws.contains).head? = some w →
        ∃ r', (s.does p (.drainWide d acc rows clear) k).run = some r' ∧ r'.stopped = true ∧
          r'.fault = some { loc := accLoc n w none, code := 0x0108, stamp := s.chron.count }) ∧
      (∀ bit, m.bad = [] → m.weak = [(w, bit)] → w ∈ ws → risingFrom 0 s.matrix = true →
        (let t := s.does p (.drainWide d acc rows clear) k
         t.run = s.run ∧ (t.matOf n).weak = [] ∧ t.hub = (raise s 0x0107 (accLoc n w (some bit))).hub)))) ∧
  (∀ (s : State) (n : Mv) (row : Fin 1024) (col : Fin 256),
     (let m := s.matOf n
      let k := 256 * row.val + col.val
      let ws := [2 * k, 2 * k + 1]
      risingFrom 0 s.matrix = true → risingFrom 0 m.acc = true →
      ∃ t, exec (.accBackgroundScrub n row col) s = .next t ∧ { t.unlogged s with matrix := s.matrix } = s ∧
        (∀ j, j ≠ n.val → t.matOf j = s.matOf j) ∧
        (t.matOf n).bad = m.bad.filter (fun w => !ws.contains w) ∧
        (t.matOf n).weak = m.weak.filter (fun e => !ws.contains e.1) ∧
        ((∃ w ∈ ws, w ∈ m.bad) → (t.matOf n).base k = 0) ∧
        (∀ j, (j ≠ k ∨ ∀ w ∈ ws, w ∉ m.bad) → (t.matOf n).base j = m.base j)))

/-- The passes of the vector unit (R199, R201 to R205): each op of R203 and its function, for every operand form. With the
formats the table of R198 takes and every strap in declared extents, the pass issues with the mode registers and, without a tap,
leaves its groups for their beats; group g, done at beat b + g, writes the output codes of its function to strap D at beat
b + 16 + g, and nothing else changes but flags. The constant T is the one that stands at the first group, for all of them
(R201). Where SHL or SHR takes a T held as FP32 and its count is one the spec gives no result for, its codes are free values
(log 33). -/
def Obligations.VectorPassesComplete : Prop :=
  (∀ (s : State) (v : VMove) (f : VForm) (f2 : VForm2) (d a : AddrOp) (i : W32),
    s.canEngine v = true → s.vtype v = 2 → (s.vecOf (s.phys v)).tapk = 0 →
    (let u := (s.vecOf (s.phys v)).toVMode
     let b := (s.mvOf (s.phys v)).beats
     let q := s.seqOf v
     let runs := fun (c : Instr) (fn : VFun) (d : Nat) (a : Option Nat) (src : BSrc) =>
       passOk u fn = true → s.inExtents v (passAccs u fn d a src b) →
       ∃ t, exec c s = .next t ∧ s.leaves v (s.issuedBy v) t [.pass fn d a src u none]
     let src := match f with
       | .straps _ _ b => BSrc.strap (q.addr b)
       | .imm _ _ i => .imm i
       | .const _ _ => .const
     let da := match f with
       | .straps d a _ | .imm d a _ | .const d a => (q.addr d, some (q.addr a))
     let src2 := match f2 with
       | .straps _ _ b => BSrc.strap (q.addr b)
       | .imm _ _ i => .imm i
     let da2 := match f2 with
       | .straps d a _ | .imm d a _ => (q.addr d, some (q.addr a))
     (∀ p ∈ [(Instr.add v f, VFun.add), (.sub v f, .sub), (.mul v f, .mul), (.mad v f, .mad), (.min v f, .min),
             (.max v f, .max), (.cmpeq v f, .cmpeq), (.cmpne v f, .cmpne), (.cmplt v f, .cmplt), (.cmple v f, .cmple),
             (.sel v f, .sel), (.and v f, .and), (.or v f, .or), (.xor v f, .xor), (.shl v f, .shl), (.shr v f, .shr)],
       runs p.1 p.2 da.1 da.2 src) ∧
     (∀ p ∈ [(Instr.affine v f2, VFun.affine), (.exps v f2, .exps)], runs p.1 p.2 da2.1 da2.2 src2) ∧
     runs (.iota v d i) .iota (q.addr d) none (.imm i) ∧
     (∀ p ∈ [(Instr.vectorCopy v d a, VFun.copy), (.abs v d a, .abs), (.neg v d a, .neg), (.exp2 v d a, .exp2),
             (.log2 v d a, .log2), (.rcp v d a, .rcp), (.sqrt v d a, .sqrt), (.rsqrt v d a, .rsqrt),
             (.tanh v d a, .tanh), (.sigmoid v d a, .sigmoid), (.gelu v d a, .gelu), (.silu v d a, .silu)],
       runs p.1 p.2 (q.addr d) (some (q.addr a)) (.imm 0)))) ∧
  (∀ (s : State) (x : Flight) (fn : VFun) (d : Nat) (a : Option Nat) (src : BSrc) (m : VMode), x.next < 16 →
    x.work = .pass fn d a src m none →
    (let u := s.vecOf (s.phys x.pos.vmove)
     let c := x.t.getD (u.t, u.tFloat)
     let w := strapW m.ofmt
     let out := (passOut s m c fn d a src x.pos x.next).map (·.1)
     { (doPart x s).1.unissued s with free := s.free } = { s with
       mv := (s.writeRows ((indexed (cutRows w (packWide (fmtBits m.ofmt) out))).map fun e =>
         (rowAt d (w * x.next + e.1 : Nat), x.pos.beat + 16 + x.next, e.2))).mv } ∧
     (doPart x s).2 = { x with t := some c, held := [] }))

/-- VSET, VTAP and TLOAD (R201, R202, R206, R213): each issues; VSET and VTAP write their mode registers of the vector unit, and
T, where VSET's word gives one or TLOAD forms it from a tally as FP32, is set by the work that is left for the op's beat. The
reductions RSUM, RSUMSQ, RDOT, RMAX, RMIN and RARGMAX (R207 to R209, R211, R212): with formats R198 takes and its straps in
declared extents, a reduction whose kind its tally takes issues, and the items of each of its 16 groups are combined, in order
and at the group's beat, into the tally; one whose kind does not fit ends the step. RADDW and RSTORE (R208, R209, R212): the
W128 code at 16 t of the row is combined into sum tally t of the mask; RSTORE writes, for every tally of its mask, its bytes at
the tally's place of the row, and no other byte. The tap of a pass (R207, R210, R211): with VTAP's kind 1 to 5 the pass takes
the tap at its issue, where the start bit is used up and IBASE advances by 4,096, and 16 beats after each group its rounded
outputs feed the tally VTAP named, as they are or squared into a sum, or as an extreme with their index, from IBASE for
kind 5. -/
def Obligations.VectorModesAndTallies : Prop :=
  (∀ (s : State) (v : VMove), s.canEngine v = true → s.vtype v = 2 →
     (let n := s.phys v
      let u := s.vecOf n
      let bt := (s.mvOf n).beats
      let q := s.seqOf v
      (∀ (afmt bfmt ofmt : BitVec 5) (round : BitVec 2) (sat : Bool) (seed : W32) (c : Option W32),
        strapOk afmt.toNat = true → strapOk bfmt.toNat = true → strapOk ofmt.toNat = true → round ≠ 3 →
        ∃ t, exec (.vset v afmt bfmt ofmt round sat seed c) s = .next t ∧
          s.leaves v ((s.issuedBy v).setVec n { u with
            afmt := afmt.toNat, bfmt := bfmt.toNat, ofmt := ofmt.toNat, round := round.toNat, sat := sat, seed := seed })
            t (c.toList.map .setT)) ∧
      (∀ (tapk : BitVec 3) (tally : Fin 16) (tstart : Bool) (anchor : BitVec 10) (ibase : W32), tapk.toNat < 6 →
        ∃ t, exec (.vtap v tapk tally tstart anchor ibase) s = .next t ∧
          s.leaves v ((s.issuedBy v).setVec n { u with
            tapk := tapk.toNat, tapTally := tally, tapStart := tstart, tapAnchor := anchorOf anchor, ibase := ibase }) t []) ∧
      (∀ (tally : Fin 16) (fn : Bool) (anchor : BitVec 10) (mult : W32), (fn = true → mult = 0) →
        ∃ t, exec (.tload v tally fn anchor mult) s = .next t ∧
          s.leaves v (s.issuedBy v) t [.tload tally fn (anchorOf anchor) mult]) ∧
      (∀ (a b : AddrOp) (c : SumCtl) (e : ExtCtl) (ibase : W32), strapOk u.afmt = true → strapOk u.bfmt = true →
        (let runs := fun (i : Instr) (k : TKind) (item : RItem) (base tally : Nat) (anchor : Int) (start : Bool)
             (b : Option Nat) =>
           s.inExtents v (reads (strapRows (q.addr a) (strapW u.afmt) bt)
             ++ (match b with | some x => reads (strapRows x (strapW u.bfmt) bt) | none => [])) →
           (u.takes tally k start = true →
             ∃ t, exec i s = .next t ∧ s.leaves v ((s.issuedBy v).setVec n (u.noteKind tally k)) t
               [.reduce (q.addr a) b k item u.afmt u.bfmt base tally anchor start]) ∧
           (∀ r, s.run = some r → u.takes tally k start = false →
             ∃ t r' x, exec i s = .next t ∧ t.run = some r' ∧ r'.breaches = r.breaches ++ [x] ∧ x.code = pfUndefined ∧
               x.pos = s.pos v ∧ t.stop.state ≠ 0 ∧ t.stop.ending = true)
         runs (.rsum v a c) .sum .plain 0 c.tally (anchorOf c.anchor) c.start none ∧
         runs (.rsumsq v a c) .sum .square 0 c.tally (anchorOf c.anchor) c.start none ∧
         runs (.rdot v a b c) .sum .product 0 c.tally (anchorOf c.anchor) c.start (some (q.addr b)) ∧
         runs (.rmax v a e) .max .plain 0 e.tally 0 e.start none ∧
         runs (.rmin v a e) .min .plain 0 e.tally 0 e.start none ∧
         runs (.rargmax v a ibase e) .max .plain ibase.toNat e.tally 0 e.start none)) ∧
      (∀ (src : AddrOp) (mask : W16), ((maskBits mask).all fun i => u.takes i .sum false) = true →
        s.inExtents v (reads [(q.addr src, bt)]) →
        ∃ t, exec (.raddw v src mask) s = .next t ∧
          s.leaves v ((s.issuedBy v).setVec n ((maskBits mask).foldl (fun u i => u.noteKind i .sum) u)) t
            [.raddw (q.addr src) mask]) ∧
      (∀ (dst : AddrOp) (mask : W16) (rounded : Bool) (ofmt : BitVec 5) (round : BitVec 2) (sat : Bool)
         (anchor : BitVec 10), strapOk ofmt.toNat = true → round ≠ 3 → s.inExtents v (writes [(q.addr dst, bt)]) →
        ∃ t, exec (.rstore v dst mask rounded ofmt round sat anchor) s = .next t ∧
          s.leaves v (s.issuedBy v) t
            [.rstore (q.addr dst) mask rounded ofmt.toNat round.toNat sat (anchorOf anchor) u.seed.toNat]) ∧
      (∀ (d a : AddrOp) (x : Tap), u.tap = some x → u.takes x.tally (tapKind x.kind) x.start = true →
        passOk u.toVMode .copy = true → s.inExtents v (passAccs u.toVMode .copy (q.addr d) (some (q.addr a)) (.imm 0) bt) →
        ∃ t, exec (.vectorCopy v d a) s = .next t ∧
          s.leaves v ((s.issuedBy v).setVec n { u.noteKind x.tally (tapKind x.kind) with
            tapStart := false, ibase := u.ibase + 4096 }) t
            [.pass .copy (q.addr d) (some (q.addr a)) (.imm 0) u.toVMode (some x)]))) ∧
  (∀ (s : State) (p : PlanPos),
     (let n := s.phys p.vmove
      let u := s.vecOf n
      (∀ c : W32, s.does p (.setT c) = s.setVec n { u with t := c, tFloat := false }) ∧
      (∀ (tally : Nat) (fn : Bool) (anchor : Int) (mult : W32),
        (s.does p (.tload tally fn anchor mult)).unissued s = s.setVec n { u with
          t := BitVec.ofNat 32 (tloadVal (tget .empty u.tallies tally) fn anchor mult).1, tFloat := true }) ∧
      (∀ (a : Nat) (b : Option Nat) (k : TKind) (item : RItem) (af bf base tally g : Nat) (anchor : Int) (start : Bool)
         (ty : Tally) (fl : Nat),
        (let as := groupVals s a af p.beat g
         let bs := match b with | some b => groupVals s b bf p.beat g | none => as
         let vals := (as.zip bs).map fun e =>
           match item with | .plain => e.1 | .square => (mulVal e.1 e.1).1 | .product => (mulVal e.1 e.2).1
         contribute (tget .empty u.tallies tally) k ((indexed vals).map fun e => (e.2, (base + 256 * g + e.1) % 2 ^ 32)) anchor
           (start && g == 0) (isInt af) = some (ty, fl) →
         (s.does p (.reduce a b k item af bf base tally anchor start) g).unissued s =
           s.setVec n { u with tallies := tset .empty u.tallies tally ty })) ∧
      (∀ (a : Nat) (mask : W16), risingFrom 0 s.vector = true →
        (∀ i : Nat, i < 16 → mask.getLsbD i = true → ∃ x, tget .empty u.tallies i = .empty ∨ tget .empty u.tallies i = .sum x) →
        ∃ ts, (s.does p (.raddw a mask)).unissued s = s.setVec n { u with tallies := ts } ∧
          ∀ i : Nat, i < 16 → tget .empty ts i =
            (if mask.getLsbD i then
              .sum (combine (match tget .empty u.tallies i with | .sum x => x | _ => 0)
                (BitVec.ofNat 128 (fieldAt (s.readRow a p.beat) (16 * i) 16))).1
             else tget .empty u.tallies i)) ∧
      (∀ (d : Nat) (mask : W16) (rounded : Bool) (ofmt round : Nat) (sat : Bool) (anchor : Int) (seed : Nat),
        (s.does p (.rstore d mask rounded ofmt round sat anchor seed)).unissued s = { s with
          mv := (s.writeBytes d p.beat ((maskBits mask).flatMap fun i =>
            (rstoreBytes u.tallies rounded ofmt round sat anchor seed p i).1)).mv }) ∧
      (∀ (x : Flight) (fn : VFun) (d : Nat) (a : Option Nat) (src : BSrc) (m : VMode) (tap : Tap) (ty : Tally) (fl : Nat),
        x.pos = p → x.work = .pass fn d a src m (some tap) →
        (x.next < 16 → (doPart x s).2.held = x.held ++
          [packWide (fmtBits m.ofmt) ((passOut s m (x.t.getD (u.t, u.tFloat)) fn d a src p x.next).map (·.1))]) ∧
        (let g := x.next - 16
         let vals := (codesOf (strapW m.ofmt) 256 (x.held.getD g [])).map fun c => (decodeElem m.ofmt c).1
         16 ≤ x.next →
         contribute (tget .empty u.tallies tap.tally)
           (if tap.kind = 3 ∨ tap.kind = 5 then .max else if tap.kind = 4 then .min else .sum) ((indexed vals).map fun e =>
           (if tap.kind = 2 then (mulVal e.2 e.2).1 else e.2,
            if tap.kind = 5 then (tap.base.toNat + (256 * g + e.1)) % 2 ^ 32 else 256 * g + e.1))
           tap.anchor (tap.start && g == 0) (isInt m.ofmt) = some (ty, fl) →
         (doPart x s).1.unissued s = s.setVec n { u with tallies := tset .empty u.tallies tap.tally ty }))))

/-- The skivers (R214 to R219): with operands R214 to R217 allow and rows in declared extents, each op issues and leaves its
work for its beats; KSET writes the skiver's registers. Done, TRANSPOSE writes the transposed image of its 256 source rows, read
one a beat, and RETILE its rows at other strides, each 300 beats after its reading; CONVERT writes, group by group, 64 beats
after its reading, the codes and the scales of its output format (of an AQ8 output, segment by segment). Nothing else changes
but claims and flags. -/
def Obligations.SkiverOpsComplete : Prop :=
  (∀ (s : State) (v : VMove) (dst src : AddrOp), s.canEngine v = true → s.vtype v = 3 →
    (let q := s.seqOf v
     let b := (s.mvOf (s.phys v)).beats
     let d := q.addr dst
     let a := q.addr src
     (∀ (sr : W16) (dr : BitVec 14) (esize : BitVec 2),
       s.inExtents v (reads (strideRows a sr.toInt 256 b) ++ writes (strideRows d dr.toInt 256 (b + 300))) →
       ∃ t, exec (.transpose v dst src sr dr esize) s = .next t ∧
         s.leaves v (s.issuedBy v) t [.transpose d a sr.toInt dr.toInt (4 * 2 ^ esize.toNat)]) ∧
     (∀ (n : Byte) (sr dr : BitVec 12),
       s.inExtents v (reads (strideRows a sr.toInt (n.toNat + 1) b)
         ++ writes (strideRows d dr.toInt (n.toNat + 1) (b + 300))) →
       ∃ t, exec (.retile v dst src n sr dr) s = .next t ∧
         s.leaves v (s.issuedBy v) t [.retile d a (n.toNat + 1) sr.toInt dr.toInt]) ∧
     (∀ (gM1 : BitVec 12) (i o : BitVec 5) (round : BitVec 2) (sat : Bool),
       (let k := s.skOf (s.phys v)
        let g := gM1.toNat + 1
        convertOk i.toNat o.toNat g = true → round ≠ 3 → s.inExtents v (convertAccs k d a i.toNat o.toNat g b) →
        ∃ t, exec (.convert v dst src gM1 i o round sat) s = .next t ∧
          s.leaves v (s.issuedBy v) t [.convert d a g i.toNat o.toNat round.toNat sat k])) ∧
     (∀ (ss ds : AddrOp) (seed : W32), ∃ t, exec (.kset v ss ds seed) s = .next t ∧
       s.leaves v ((s.issuedBy v).setSk (s.phys v)
         { sscale := BitVec.ofNat 32 (q.addr ss), dscale := BitVec.ofNat 32 (q.addr ds), seed := seed }) t []))) ∧
  (∀ (s : State) (p : PlanPos) (d a : Nat),
    (let b := p.beat
     (∀ (sr dr : Int) (bits : Nat),
       (let rows := (readAll s (strideRows a sr 256 b)).map (unpack bits)
        s.does p (.transpose d a sr dr bits) = { s with mv := (s.writeRows (((strideRows d dr 256 (b + 300)).zip
          (cutRows 256 (packCodes bits (transposed (2048 / bits) rows).flatten))).map fun e => (e.1.1, e.1.2, e.2))).mv })) ∧
     (∀ (n : Nat) (sr dr : Int),
       s.does p (.retile d a n sr dr) = { s with mv := (s.writeRows (((strideRows d dr n (b + 300)).zip
         (readAll s (strideRows a sr n b))).map fun e => (e.1.1, e.1.2, e.2))).mv }) ∧
     (∀ (k : Skiver) (groups g i o mode : Nat) (sat : Bool), o ≠ 0x11 →
       (let n := groupLen i o
        let r := if exactPair i o = true then
            (cvExact i o ((List.range n).map (elemCode (fmtBits i)
              (readRange s (a + groupStride i n * g) (groupBytes i n) (b + g)))), (cvGroup s k a i n b g).2)
          else
            (let e := cvEncode o mode sat k.seed.toNat p.vmove b (n * g) ((cvGroup s k a i n b g).1.map (·.1))
             (e.1, e.2.1))
        (s.does p (.convert d a groups i o mode sat k) g).unissued s = { s with
          mv := (writeRange (writeRange s (d + groupStride o n * g) (b + 64 + g) (groupOut o r.1))
            (k.dscale.toNat + n / 32 * g) (b + 64 + g) r.2).mv })) ∧
     (∀ (k : Skiver) (groups x i mode : Nat) (sat : Bool),
       (let r := cvEncode 0x11 mode false k.seed.toNat p.vmove b (512 * x)
          (((cvGroup s k a i 256 b (2 * x)).1 ++ (cvGroup s k a i 256 b (2 * x + 1)).1).map (·.1))
        let t0 := b + 64 + 2 * x
        (s.does p (.convert d a groups i 0x11 mode sat k) x).unissued s = { s with
          mv := (writeRange (writeRange (writeRange s (d + 512 * x) t0 ((packCodes 8 r.1).take 256)) (d + 512 * x + 256)
            (b + 65 + 2 * x) ((packCodes 8 r.1).drop 256)) (k.dscale.toNat + x) (b + 65 + 2 * x) r.2.1).mv }))))

/-- Commands to the companions (R101 to R103, R106, R239, R297, R300, R320, R353): PSET, PREL, READ, WRITE, GATHER,
SCATTER, EMBED, ZERO, COPY, PAGE_APPEND, PAGE_READ and HREAD. Where the queue has room for the command and its rows, the
op issues: the queue's issue count goes up by one and the command stands last in it with what is fixed at issue; its source
rows are left to be read at their beats, which gives the command its data; nothing else changes but claims. QUEUE_BOUNDS
(R106, R108): a command op whose queue holds its declared depth of commands ends the step with plan fault 5, detail 0, naming
the queue, and is not issued; one whose rows exceed the arrival share that is free, rows of a TAKE not yet moved out counted,
does so with detail 1. -/
def Obligations.CompanionCommandsIssue : Prop :=
  (∀ (s : State) (v : VMove), s.canEngine v = true → s.discarded = false →
     (let b := (s.mvOf (s.phys v)).beats
      let q := s.seqOf v
      let issues := fun (c : Instr) (ty queue rows : Nat) (src : List (Nat × Nat)) (data : List Bytes) =>
        s.vtype v = ty →
        (let u := s.qOf (qKey v queue)
         (u.issued - u.retired).toNat ≠ (s.qDecl v queue).1 → u.reserved b + rows ≤ (s.qDecl v queue).2 →
         s.inExtents v (reads src) →
         ∃ t, exec c s = .next t ∧
           s.leaves v ((s.issuedBy v).setQ (qKey v queue) { u with
             issued := u.issued + 1
             cmds := u.cmds ++ [{ op := c, pos := s.pos v, opAddr := q.opAddr, data := data, ready := src.isEmpty
                                  rows := rows }] }) t
             (if src.isEmpty then [] else [.source queue c src]))
      (∀ (first : BitVec 17) (rstr cstr : W16) (nr nc : BitVec 6) (grain : BitVec 2) (set : Fin 16) (k : Fin 4),
        issues (.pset v first rstr cstr nr nc grain set k) 5 k 0 [] []) ∧
      (∀ (set : Fin 16) (k : Fin 4), issues (.prel v set k) 5 k 0 [] []) ∧
      (∀ (off : W32) (reg : Byte) (n : BitVec 12) (k : Fin 8), issues (.read v off reg n k) 6 k (n.toNat + 1) [] []) ∧
      (∀ (off : W32) (reg : Byte) (n : BitVec 12) (src : AddrOp) (k : Fin 8),
        issues (.write v off reg n src k) 6 k 0 (outRows (q.addr src) (n.toNat + 1) b) []) ∧
      (∀ (idx : AddrOp) (reg : Byte) (n : BitVec 12) (l : BitVec 4) (k : Fin 8),
        issues (.gather v idx reg n l k) 6 k ((n.toNat + 1) * (l.toNat + 1))
          (outRows (q.addr idx) (indexRows (n.toNat + 1)) b) []) ∧
      (∀ (idx data : AddrOp) (reg : Byte) (n : BitVec 12) (l : BitVec 4) (k : Fin 8),
        issues (.scatter v idx reg n l data k) 6 k 0
          (scatterRows (q.addr idx) (q.addr data) (n.toNat + 1) (l.toNat + 1) b) []) ∧
      (∀ (idx : AddrOp) (ra rb : Byte) (n : BitVec 12) (l : BitVec 4) (split : BitVec 28) (k : Fin 8),
        issues (.embed v idx ra rb n l split k) 6 k ((n.toNat + 1) * (l.toNat + 1))
          (outRows (q.addr idx) (indexRows (n.toNat + 1)) b) []) ∧
      (∀ (off : W32) (reg : Byte) (units : W32) (k : Fin 8), units ≠ 0 → issues (.zero v off reg units k) 6 k 0 [] []) ∧
      (∀ (so d : W32) (sr dr : Byte) (n : BitVec 13) (k : Fin 8), issues (.copy v so sr dr n d k) 6 k 0 [] []) ∧
      (∀ (src : AddrOp) (n : BitVec 12) (srow : W16) (h : BitVec 20) (k : Fin 8),
        issues (.pageAppend v src n srow h k) 6 k 0 (outRows (q.addr src) (n.toNat + 1) b) []) ∧
      (∀ (first : BitVec 24) (np : Byte) (n : BitVec 6) (srow : BitVec 15) (h : BitVec 20) (k : Fin 8),
        issues (.pageRead v first np n srow h k) 6 k ((np.toNat + 1) * (n.toNat + 1)) []
          [leBytes 8 (s.readable h.toNat)]) ∧
      (∀ (buf : BitVec 6) (n : BitVec 12) (off : W32) (k : Fin 4),
        issues (.hread v buf n off k) 8 k (n.toNat + 1) [] []))) ∧
  (∀ (s : State) (p : PlanPos) (k i : Nat) (op : Instr) (rows : List (Nat × Nat)) (c : Cmd),
     (let u := s.qOf (qKey p.vmove k)
      u.waiting p = some (i, c) → (∀ v a f n b e, op ≠ .fsend v a f n b e) → (∀ v a b n o e, op ≠ .hwrite v a b n o e) →
      s.does p (.source k op rows) = s.setQ (qKey p.vmove k) { u with
        cmds := u.cmds.set i { c with data := readAll s rows, ready := true } })) ∧
  (∀ (s : State) (v : VMove) (off : W32) (reg : Byte) (n : BitVec 12) (k : Fin 8) (r : Run), s.run = some r →
     s.canEngine v = true → s.vtype v = 6 →
     (let u := s.qOf (qKey v k)
      let breaks := fun (detail : Nat) =>
        ∃ t r' b, exec (.read v off reg n k) s = .next t ∧ t.run = some r' ∧ t.queue = s.queue ∧
          r'.breaches = r.breaches ++ [b] ∧ b.code = 5 ∧ b.detail = detail ∧ b.operand = k.val ∧ b.pos = s.pos v ∧
          t.stop.state ≠ 0 ∧ t.stop.ending = true
      ((u.issued - u.retired).toNat = (s.qDecl v k).1 → breaks 0) ∧
      ((u.issued - u.retired).toNat ≠ (s.qDecl v k).1 →
        (s.qDecl v k).2 < u.reserved (s.mvOf (s.phys v)).beats + (n.toNat + 1) → breaks 1)))

/-- MVM and HWRITE (R239 to R241, R243, R275, R353, R480): issued like the other commands; an MVM's inputs are held in the
die's input buffer, 513 bytes for each vector and row of panes, and one on a set that holds a lost pane ends the step with
device fault 0x0209; an HWRITE's rows in range are kept for the grid step's digest once they are read, but those of a discarded
step. BSET and SELECT (R331 to R335): BSET writes the bridle's register, and the values before it stand for its own beat; a
SELECT takes the values in force, and, its logits read, for a slot that holds a stream's record, chooses by select() and writes
the result row at its beat, keeping the slot as the choice leaves it; one of an empty slot writes STATUS 5. -/
def Obligations.MvmHwriteAndBridle : Prop :=
  (∀ (s : State) (v : VMove), s.canEngine v = true → s.discarded = false →
     (let b := (s.mvOf (s.phys v)).beats
      let q := s.seqOf v
      (∀ (inp scale : AddrOp) (nvM1 : BitVec 6) (ofmt : BitVec 5) (round : BitVec 2) (sat : Bool) (anchor : BitVec 10)
         (set : Fin 16) (k : Fin 4) (p : PaneSet),
        (let d := s.vord v
         let nv := nvM1.toNat + 1
         let rows := mvmRows (q.addr inp) (q.addr scale) nv p.nr b
         let u := s.qOf (qKey v k)
         let n := nv * p.nc * mvmW ofmt.toNat
         let c := Instr.mvm v inp scale nvM1 ofmt round sat anchor set k
         s.vtype v = 5 → mvmOk ofmt round anchor = true → setAtIssue s v d set = some p →
         (u.issued - u.retired).toNat ≠ (s.qDecl v k).1 → u.reserved b + n ≤ (s.qDecl v k).2 →
         s.inExtents v (reads rows) →
         ∃ t, exec c s = .next t ∧
           t.unissued s = ((s.issuedBy v).setQ (qKey v k) { u with
             issued := u.issued + 1
             cmds := u.cmds ++ [{ op := c, pos := s.pos v, opAddr := q.opAddr, ready := false, rows := n }] }).setAw d
               { s.awOf d with inputUsed := (s.awOf d).inputUsed + 513 * nv * p.nr } ∧
           t.flights = s.flights ++ [s.flying v (.source k c rows)] ∧
           ((s.awOf d).lostIn p = none → RunKept s t) ∧
           (∀ l r, (s.awOf d).lostIn p = some l → s.run = some r → r.fault = none →
             ∃ r', t.run = some r' ∧ r'.stopped = true ∧
               r'.fault = some { loc := groupLoc d (l / 64), code := 0x0209, stamp := s.chron.count }))) ∧
      (∀ (src : AddrOp) (buf : BitVec 6) (n : BitVec 12) (off : W32) (k : Fin 4),
        (let rows := outRows (q.addr src) (n.toNat + 1) b
         let u := s.qOf (qKey v k)
         let c := Instr.hwrite v src buf n off k
         s.vtype v = 8 → (u.issued - u.retired).toNat ≠ (s.qDecl v k).1 → u.reserved b ≤ (s.qDecl v k).2 →
         s.inExtents v (reads rows) →
         ∃ t, exec c s = .next t ∧
           s.leaves v ((s.issuedBy v).setQ (qKey v k) { u with
             issued := u.issued + 1
             cmds := u.cmds ++ [{ op := c, pos := s.pos v, opAddr := q.opAddr, ready := false }] }) t
             [.source k c rows])))) ∧
  (∀ (s : State) (p : PlanPos) (v : VMove) (src : AddrOp) (buf : BitVec 6) (n : BitVec 12) (off : W32) (e : Fin 4)
     (k i : Nat) (rows : List (Nat × Nat)) (c : Cmd),
     (let u := s.qOf (qKey p.vmove k)
      let data := readAll s rows
      u.waiting p = some (i, c) →
      s.does p (.source k (.hwrite v src buf n off e) rows) = { s.setQ (qKey p.vmove k) { u with
          cmds := u.cmds.set i { c with data := data, ready := true } } with
        grid := if s.discarded then s.grid else { s.grid with hwrites := insertWrite p (((indexed data).filter
          fun e => (s.bufRow buf.toNat (off.toNat + e.1) true).isSome).map (·.2)) s.grid.hwrites } })) ∧
  (∀ (s : State) (v : VMove), s.canEngine v = true → s.vtype v = 4 →
     (let n := s.phys v
      let b := (s.mvOf n).beats
      let q := s.seqOf v
      let set := (s.brOf n).at b
      (∀ (vocabM1 : BitVec 18) (lfmt : BitVec 5), lfmt.toNat ≤ 2 →
        ∃ t, exec (.bset v vocabM1 lfmt) s = .next t ∧
          s.leaves v ((s.issuedBy v).setBr n
            { vocabM1 := vocabM1.toNat, lfmt := lfmt.toNat, setAt := some b, oldVocabM1 := set.1, oldLfmt := set.2 }) t []) ∧
      (∀ (zA : AddrOp) (slot : Byte) (res : AddrOp),
        (let rows := logitRows (set.1 + 1) set.2
         s.inExtents v (reads (outRows (q.addr zA) rows b) ++ writes [(q.addr res, b + (rows + 3) / 4 + 640)]) →
         ∃ t, exec (.select v zA slot res) s = .next t ∧
           s.leaves v (s.issuedBy v) t [.select (q.addr zA) (256 * s.vord v + slot.toNat) (q.addr res) set.1 set.2])))) ∧
  (∀ (s : State) (p : PlanPos) (z key res vocabM1 lfmt : Nat) (r : Run), s.run = some r →
     (let rows := logitRows (vocabM1 + 1) lfmt
      let at_ := p.beat + (rows + 3) / 4 + 640
      let t := s.does p (.select z key res vocabM1 lfmt)
      { t.unissued s with mv := s.mv } = { s with free := s.free + 1 } ∧
      (∀ x, tfind r.slots key = some x →
        (let c := selectToken x (logits (vocabM1 + 1) lfmt (readAll s (outRows z rows p.beat)))
         t.mv = (s.writeRow res at_ (resultRow s (some x) (some c))).mv ∧
         ∃ r', t.run = some r' ∧ r'.slots = tput key c.slot r.slots)) ∧
      (tfind r.slots key = none → t.run = s.run ∧ t.mv = (s.writeRow res at_ (resultRow s none none)).mv)))

/-- The sets of an analogue die (R245): the oldest waiting PSET is admitted in a READY die when its SET is free, 4,096
panes are not exceeded and no pane of it is moving; PANES_READY wakes an admitted set and retires its PSET; PREL_RELEASE
lets a set go once nothing issued earlier on it is unfinished and retires the PREL. PASS_TICK, MVM_RETIRE, AW_LINK_FATAL
and AW_STEP_CANCEL (R230, R244, R245, R248, R249, R259): a tick of a READY die counts one pass, whatever it carries, moves only
where the panes of its sets stand, and touches no other die; the oldest MVM of a queue whose vectors have all left retires with
its rows; a fatal link ends the step with fault
0x0205; a step that ends early releases every set of the die and its input buffer, classing the panes whose count says so. The guard window (R231): where an
estimate lies within the window's half-width of the exact sum and outside every window, the converter's value is the
exact sum at the grain, so that only estimates inside a window need the resolve. -/
def Obligations.AnalogCommands : Prop :=
  (∀ (s : State) (d : AwDie), risingFrom 0 s.queue = true → risingFrom 0 s.aw = true →
     (let v := s.wOf d
      let a := s.awOf d
      (∀ (q i : Nat) (c : Cmd) (set : Nat) (p : PaneSet), nextPset s v = some (q, i, c, set, p) → a.state = 3 →
        tfind a.sets set = none → a.active + p.nr * p.nc ≤ 4096 → a.moving p = false →
        ∃ t, exec (.psetAdmit d) s = .next t ∧ { t with queue := s.queue, aw := s.aw } = s ∧
          { t.awOf d with sets := a.sets } = a ∧ tfind (t.awOf d).sets set = some { p with beat := c.pos.beat } ∧ (t.awOf d).active ≤ 4096 ∧
          t.queue = (s.setQ (qKey v q) { s.qOf (qKey v q) with
            cmds := (s.qOf (qKey v q)).cmds.set i { c with begun := true } }).queue) ∧
      (∀ (set : Fin 16) (p : PaneSet) (q i : Nat) (c : Cmd), tfind a.sets set = some p → p.ready = false →
        (liveCmds s v 4).find? (fun e => e.2.2.begun && (psetOf e.2.2.op).map (·.1) == some set.val) = some (q, i, c) →
        (s.qOf (qKey v q)).cmds[i]? = some c →
        ∃ t, exec (.panesReady d set) s = .next t ∧ { t with queue := s.queue, aw := s.aw } = s ∧
          { t.awOf d with sets := a.sets } = a ∧ tfind (t.awOf d).sets set = some { p with ready := true } ∧
          t.queue = (s.setQ (qKey v q) (retireHead (s.qOf (qKey v q)).cmds.length { s.qOf (qKey v q) with
            cmds := (s.qOf (qKey v q)).cmds.set i { c with done := true, result := [], flags := 0 } })).queue) ∧
      (∀ (queue : Fin 4) (q i set : Nat) (c : Cmd),
        (liveCmds s v 4).find? (fun e => e.1 == queue.val && (prelSet e.2.2.op).isSome) = some (q, i, c) →
        (s.qOf (qKey v q)).cmds[i]? = some c → prelSet c.op = some set → risingFrom 0 a.sets = true →
        (liveCmds s v 4).all (fun e => decide (c.pos.beat ≤ e.2.2.pos.beat) || (mvmSet e.2.2.op != some set
          && (psetOf e.2.2.op).map (·.1) != some set)) = true →
        (∀ l, tget 0 a.counts l < 10000) →
        ∃ t, exec (.prelRelease d queue) s = .next t ∧ { t with queue := s.queue, aw := s.aw } = s ∧
          { t.awOf d with sets := a.sets } = a ∧ tfind (t.awOf d).sets set = none ∧
          t.queue = (s.setQ (qKey v q) (retireHead (s.qOf (qKey v q)).cmds.length { s.qOf (qKey v q) with
            cmds := (s.qOf (qKey v q)).cmds.set i { c with done := true, result := [], flags := 0 } })).queue))) ∧
  (∀ (s : State) (d : AwDie), risingFrom 0 s.aw = true →
     (∀ (ests : List PaneEst) (audits : List AuditPick) (upsets : List ShadowUpset), (s.awOf d).state = 3 →
       risingFrom 0 (s.awOf d).sets = true →
       ∃ t, exec (.passTick d ests audits upsets) s = .next t ∧ { t.unissued s with queue := s.queue, aw := s.aw } = s ∧
         (t.awOf d).tick = (s.awOf d).tick + 1 ∧ (t.awOf d).state = 3 ∧
         (t.awOf d).sets.map (fun e => (e.1, { e.2 with at_ := [] })) =
           (s.awOf d).sets.map (fun e => (e.1, { e.2 with at_ := [] })) ∧
         ∀ e, e ≠ d.val → t.awOf e = s.awOf e) ∧
     (∀ (queue : Fin 4) (j : MvmJob) (c : Cmd), risingFrom 0 s.queue = true →
       risingFrom 0 (s.awOf d).runs = true →
       (let run := fun (j : MvmJob) => tget {} (s.awOf d).runs j.beat
        (jobs s d).find? (fun j => j.queue == queue.val && (run j).outs.length == j.nv) = some j →
        (s.qOf (qKey (s.wOf d) queue)).cmds[j.place]? = some c →
        ∃ t, exec (.mvmRetire d queue) s = .next t ∧ { t with queue := s.queue, aw := s.aw } = s ∧
          { t.awOf d with runs := (s.awOf d).runs, inputUsed := (s.awOf d).inputUsed } = s.awOf d ∧
          tfind (t.awOf d).runs j.beat = none ∧
          (t.awOf d).inputUsed = (s.awOf d).inputUsed - 513 * j.nv * j.pset.nr ∧
          (let k := qKey (s.wOf d) queue
           t.queue = (s.setQ k (retireHead (s.qOf k).cmds.length { s.qOf k with
             cmds := (s.qOf k).cmds.set j.place
               { c with done := true, result := (run j).outs.flatMap (·.2), flags := (run j).flags } })).queue))) ∧
     (∀ r, s.run = some r →
       ∃ t r', exec (.awLinkFatal d) s = .next t ∧ t.unissued s = s ∧ t.run = some r' ∧ r'.stopped = true ∧
         (r.fault = none → r'.fault = some { loc := blockLoc (9 + d) 0x803, code := 0x0205, stamp := s.chron.count }) ∧
         { r' with stopped := r.stopped, fault := r.fault } = r) ∧
     (s.cancelling = true →
       ∃ t, exec (.awStepCancel d) s = .next t ∧ { t.unlogged s with queue := s.queue, aw := s.aw } = s ∧
         (t.awOf d).sets = [] ∧ (t.awOf d).runs = [] ∧ (t.awOf d).resolve = [] ∧ (t.awOf d).spill = [] ∧
         (t.awOf d).inputUsed = 0 ∧
         ((∀ k, tget 0 (s.awOf d).counts k < 10000) →
           t.awOf d = { s.awOf d with sets := [], runs := [], resolve := [], spill := [], inputUsed := 0 }) ∧
         ∀ e, e ≠ d.val → t.awOf e = s.awOf e)) ∧
  (∀ (est64 exact : Int) (g gw : Nat), 1 ≤ g → inWindow est64 g gw = false →
     est64 - 64 * exact ≤ gw * 2 ^ g → 64 * exact - est64 ≤ gw * 2 ^ g → converter est64 g = grainOf exact g)

/-- Upkeep of a group (R247, R257, R262, R263, R266): a maintenance pass, once at the group's tick while READY, or any pass of a
CALIBRATING die or in phase 4 of an installation, moves the group's cycle on by one slot, its reference readings in slots 0 to
7, a pane's errors and correction after; the record in force stands until the cycle is complete, and is then what the cycle
gave; a group under refresh has its next pane reprogrammed while that pane is in no set, which counts one program of
it. Self-test and retirement (R268, R269, R271): a requested test of a pane in no set makes its first read, its second
SETTLE later; done, a pane that was clean in both and matches is TRANSIENT and returns to service; a waiting pane whose
spare passes is moved to it and retired. The shadow scrub, write-verify and the end of INIT (R224, R251, R256, R257,
R275, R277, R278): a corrected shadow word is no longer weak, an uncorrectable one loses its logical pane; a row with no cell
outside its window is done and the next row follows, the last one counting the pane's program; with a cell outside at
MAX_PULSES, or none of a target level among them, the pane fails; records and trim table that pass leave INIT for CALIBRATING,
every group still to be calibrated, with committed content, for UNPROGRAMMED without, and records that fail leave it for
FAILED. -/
def Obligations.AnalogUpkeep : Prop :=
  (∀ (s : State) (d : AwDie) (g : Fin 2048), risingFrom 0 s.aw = true →
     (let a := s.awOf d
      let r := tget {} a.trim g
      (∀ m : MaintReading, (a.state = 2 ∨ (a.state = 4 ∧ a.phase = 4)
          ∨ (a.state = 3 ∧ a.tick % 50 = g.val % 50 ∧ r.passed ≠ some a.tick)) →
        ∃ t, exec (.maintenancePass d g m) s = .next t ∧ { t.unlogged s with aw := s.aw } = s ∧
          (let r' := tget {} (t.awOf d).trim g
           let es := checkEsts a g (r.slot - 8) m
           (a.state = 3 → r'.passed = some a.tick) ∧
           (r.slot < 75 → { t.awOf d with trim := a.trim } = a ∧ r'.slot = r.slot + 1 ∧
             r'.gw = r.gw ∧ r'.drift = r.drift ∧ r'.curve = r.curve ∧ r'.gain = r.gain ∧ r'.err = r.err ∧ r'.rate = r.rate ∧
             (r.slot < 8 → r'.newErr = r.newErr ∧ r'.newCurve = (List.range 34).map (fun i => m.curve.getD i 0) ∧
               ∀ l, l < 8 → r'.newDrift.getD l 0 = max (r.newDrift.getD l 0) (levelDrift m.sums (r.slot + 1) l)) ∧
             (8 ≤ r.slot → a.testing (68 * g.val + (r.slot - 8)) = false →
               r'.newErr = tput (r.slot - 8) (es.foldl (fun x e => max x (e.1 - e.2).natAbs) 0) r.newErr ∧
               r'.newGain = tput (r.slot - 8) (m.gain, m.offset) r.newGain) ∧
             (8 ≤ r.slot → a.testing (68 * g.val + (r.slot - 8)) = true →
               r'.newErr = r.newErr ∧ r'.newGain = r.newGain)) ∧
           (r.slot = 75 → r'.slot = 0 ∧ r'.drift = r.newDrift ∧ r'.curve = r.newCurve ∧ r'.gw.length = 4 ∧
             g.val ∉ (t.awOf d).toCalibrate ∧ ∀ h, h ≠ g.val → tget {} (t.awOf d).trim h = tget {} a.trim h))) ∧
      (∀ m : MaintReading, a.state = 3 → r.passed = some a.tick → exec (.maintenancePass d g m) s = .next s) ∧
      (∀ (pos : Fin 68) (p : Nat), tfind a.refresh g = some p → (a.state = 2 ∨ a.state = 3) →
        nextServing a g p = some pos.val →
        a.inSet g pos = false →
        ∃ t, exec (.groupRefresh d g pos false) s = .next t ∧ { t.unlogged s with aw := s.aw } = s ∧
          tget 0 (t.awOf d).counts (68 * g.val + pos.val) = tget 0 a.counts (68 * g.val + pos.val) + 1 ∧
          (t.awOf d).cells = a.cells.filter (fun e => e.1 / 262144 != 68 * g.val + pos.val) ∧
          (∀ p', nextServing a g (pos.val + 1) = some p' → tfind (t.awOf d).refresh g = some (pos.val + 1))))) ∧
  (∀ (s : State) (d : AwDie) (g : Fin 2048) (pos : Fin 68) (cells : List CellRead), risingFrom 0 s.aw = true →
     (let a := s.awOf d
      let k := 68 * g.val + pos.val
      let bad := badCells s a g pos cells
      let several := fun (x : SelfTest) => x.several || bad.any fun c => (x.cell.or bad.head?) != some c
      (a.upkeep = true →
      (∀ x : SelfTest, tfind a.tests k = some x → x.phase = 0 → a.inSet g pos = false →
        ∃ t, exec (.selftestStart d g pos cells) s = .next t ∧ { t with aw := s.aw } = s ∧
          (let y := { x with phase := 1, cell := x.cell.or bad.head?, several := several x, readAt := s.ns }
           t.awOf d = { a with tests := tput k y a.tests })) ∧
      (∀ x : SelfTest, tfind a.tests k = some x → x.phase = 1 → x.readAt + (s.trimOf d).settleMs * 1000000 ≤ s.ns →
        ∃ t, exec (.selftestSettle d g pos cells) s = .next t ∧ { t with aw := s.aw } = s ∧
          (let y := { x with phase := 2, cell := x.cell.or bad.head?, several := several x }
           t.awOf d = { a with tests := tput k y a.tests })) ∧
      (∀ (x : SelfTest) (ok : Bool), tfind a.tests k = some x → x.phase = 2 → x.cell = none → x.causes < 16 →
        risingFrom 0 a.tests = true →
        tget 0 a.counts k < 10000 → tget [] a.transients k = [] → 2 ≤ (s.trimOf d).transientLimit →
        ∃ t, exec (.selftestDone d g pos false ok) s = .next t ∧
          { t.unlogged s with aw := s.aw, grid := s.grid } = s ∧ tfind (t.awOf d).tests k = none ∧
          (t.awOf d).resolveAll = a.resolveAll.filter (fun x => x != k || a.stuck.contains k) ∧ tfind (t.awOf d).transients k = some [s.ns] ∧
          (t.awOf d).retired = a.retired ∧ (t.awOf d).cells = a.cells ∧ (t.awOf d).map = a.map)) ∧
      (∀ (l spare : Nat), (a.upkeep = true ∨ (a.state = 4 ∧ a.phase = 5)) → a.logicalOf g pos = some l → (a.freeSpares g).head? = some spare →
        k ∈ a.lasting → a.inSet g pos = false → risingFrom 0 a.map = true →
        (a.lasting.any fun k => k / 68 == g.val && decide (k % 68 < pos.val)) = false →
        ∃ t, exec (.paneMapSwitch d g pos .passed) s = .next t ∧ { t.unlogged s with aw := s.aw } = s ∧
          (t.awOf d).posOf l = spare ∧ k ∈ (t.awOf d).retired ∧ k ∉ (t.awOf d).resolveAll ∧
          tget 0 (t.awOf d).counts (68 * g.val + spare) = tget 0 a.counts (68 * g.val + spare) + 1 ∧
          (∀ l', l' ≠ l → (t.awOf d).posOf l' = a.posOf l')))) ∧
  (∀ (s : State) (d : AwDie), risingFrom 0 s.aw = true →
     (let a := s.awOf d
      (∀ (pane : BitVec 17) (row : Fin 512) (word : Fin 16) (us : List ShadowUpset), 2 ≤ a.state → a.state ≤ 5 →
        (let k := shadowKey pane.toNat row word
         ∃ t, exec (.shadowScrub d pane row word us) s = .next t ∧ { t.unlogged s with aw := s.aw } = s ∧
           (t.awOf d).shadow = a.shadow ∧
           ((k ∈ a.shadowBad ∨ { pane := pane, row := row, word := word, bad := true } ∈ us) → pane.toNat ∈ (t.awOf d).lost) ∧
           (us = [] → k ∈ a.shadowBad → (t.awOf d).shadowBad = a.shadowBad) ∧
           (us = [] → k ∉ a.shadowBad → k ∈ a.shadowWeak → k ∉ (t.awOf d).shadowWeak ∧ (t.awOf d).lost = a.lost))) ∧
      (∀ (g : Fin 2048) (pos : Fin 68) (row : Fin 512) (p : Programming),
        (let k := 68 * g.val + pos.val
         tfind a.programming k = some p → a.state = 4 → a.phase = 3 → p.row = row.val → row.val < 511 →
         ∃ t, exec (.pulseVerify d g pos row []) s = .next t ∧ { t with aw := s.aw } = s ∧
           t.awOf d = { a with programming := tput k { p with row := p.row + 1, tries := 0 } a.programming })) ∧
      (∀ (g : Fin 2048) (pos : Fin 68) (p : Programming) (cells : List CellRead),
        (let k := 68 * g.val + pos.val
         tfind a.programming k = some p → p.row = 511 → risingFrom 0 a.programming = true → a.state = 4 → a.phase = 3 →
         rowOutside s d g pos 511 cells = [] →
         ∃ t, exec (.pulseVerify d g pos 511 cells) s = .next t ∧ { t.unlogged s with aw := s.aw } = s ∧
           tfind (t.awOf d).programming k = none ∧ k ∈ (t.awOf d).programmed ∧ (t.awOf d).failed = a.failed ∧
           tget 0 (t.awOf d).counts k = tget 0 a.counts k + 1)) ∧
      (∀ (g : Fin 2048) (pos : Fin 68) (row : Fin 512) (p : Programming) (cells : List CellRead),
        (let k := 68 * g.val + pos.val
         let out := rowOutside s d g pos row cells
         tfind a.programming k = some p → risingFrom 0 a.programming = true → a.state = 4 → a.phase = 3 →
         p.row = row.val → out ≠ [] →
         ((s.trimOf d).maxPulses ≤ p.tries + 1 ∨ ∀ c ∈ out, wantLevel a g pos c.row c.col c.neg = 0) →
         ∃ t, exec (.pulseVerify d g pos row cells) s = .next t ∧ { t.unlogged s with aw := s.aw } = s ∧
           tfind (t.awOf d).programming k = none ∧ (t.awOf d).failed = insertNat k a.failed ∧
           (t.awOf d).counts = a.counts)) ∧
      (a.state = 1 → s.power.stage ≠ 5 →
        (a.shadowBad = [] →
          ∃ t, exec (.awInitDone d true true []) s = .next t ∧ { t.unlogged s with aw := s.aw } = s ∧
            (let ok := a.committed && a.phase == 0
             t.awOf d = { a with
               state := if ok then 2 else 5, toCalibrate := if ok then List.range 2048 else [], shadowWeak := []
               trimTab := some s.tbl.trim })) ∧
        (∀ (us : List ShadowUpset) (u : ShadowUpset), u ∈ us → u.bad = true →
          ∃ t, exec (.awInitDone d true true us) s = .next t ∧ u.pane.toNat ∈ (t.awOf d).lost) ∧
        ∃ t, exec (.awInitDone d false true []) s = .next t ∧ { t.unlogged s with aw := s.aw } = s ∧
          t.awOf d = { a with state := 6 })))

/-- STACK_CMD_RETIRE (R291, R298, R301, R302): the oldest unfinished command of an S movement's queue, its data read and its
stream's domain not RETIRING, has its effect, is finished with its result rows, and is counted retired with every finished one
before it; what fails in the DRAM till then is nothing but erroneous symbols. A READ within its region delivers the data units;
a WRITE within its region stores its rows. A data unit written under a domain that has a key reads back, whatever errors it held,
and no other unit of any stack is touched (R286, R295); a poisoned unit, or one the decoder reports uncorrectable, ends the step
with SE_ECC_FATAL (0x0302) when a command reads it (R294). The patrol scrub, the
cancellation of stack commands and a fatal stack link (R294, R295, R307): the scrub poisons an uncorrectable unit and
corrects what the decoder corrects in another; a step that ends early has every unfinished command of its S movements finished as
cancelled; a fatal link ends the step with fault 0x0307. -/
def Obligations.StackCommands : Prop :=
  (∀ (s : State) (v : VMove) (queue : Fin 8) (i : Nat) (c : Cmd) (r : Run), s.run = some r → s.vtype v = 6 →
     risingFrom 0 s.queue = true →
     (s.qOf (qKey v queue)).oldest = some (i, c) → (s.qOf (qKey v queue)).cmds[i]? = some c → s.pageWaits c = false →
     ∀ us : List UnitUpset, ∃ t, exec (.stackCmdRetire v queue us) s = .next t ∧
       (let k := qKey v queue
        let s1 := upsetUnits us s
        let done := fun (rows : List Bytes) =>
          (s.setQ k (retireHead (s.qOf k).cmds.length { s.qOf k with
            cmds := (s.qOf k).cmds.set i { c with done := true, result := rows, flags := 0 } })).queue
        { s1 with stack := s.stack } = s ∧ (∀ st, (s1.stackOf st).units = (s.stackOf st).units) ∧
        t.queue = done (stackEff s1 v c).2.1 ∧ t.mv = s.mv ∧ t.seq = s.seq ∧ t.out = s.out ∧
        (∀ (w : VMove) (off : W32) (reg : Byte) (n : BitVec 12) (k' : Fin 8) (rg : Region) (x : Nat → Unit256),
          c.op = .read w off reg n k' → tfind r.plan.regions reg.toNat = some rg →
          off.toNat + n.toNat + 1 ≤ rg.size / 256 →
          (∀ j, j ≤ n.toNat →
            (let u := unitOf rg.blocks (off.toNat + j)
             s1.sound [u] ∧ tfind (s.stackOf u.1).units u.2 = some (x j) ∧ (s.domOf rg.domain).key = some (x j).key)) →
          t.queue = done ((List.range (n.toNat + 1)).map fun j => (x j).data) ∧ { t with queue := s.queue } = s1) ∧
        (∀ (w : VMove) (off : W32) (reg : Byte) (src : AddrOp) (k' : Fin 8) (rg : Region) (row : Bytes),
          c.op = .write w off reg 0 src k' → c.data = [row] → tfind r.plan.regions reg.toNat = some rg →
          off.toNat + 1 ≤ rg.size / 256 →
          (let u := unitOf rg.blocks off.toNat
           t.queue = done [] ∧ { t with queue := s.queue, stack := s.stack } = s ∧
           t.stack = (writeUnit s1 u.1 u.2 rg.domain row).stack)))) ∧
  (∀ (s : State) (st u dom key : Nat) (data detail : Bytes), (s.domOf dom).key = some key →
     risingFrom 0 (s.stackOf st).errs = true →
     (readUnit (writeUnit s st u dom data) st u dom detail).2 = padTo 256 data ∧
     (readUnit (writeUnit s st u dom data) st u dom detail).1 = writeUnit s st u dom data ∧
     (∀ st', st' ≠ st → (writeUnit s st u dom data).stackOf st' = s.stackOf st') ∧
     (∀ u', u' ≠ u → tfind ((writeUnit s st u dom data).stackOf st).units u' = tfind (s.stackOf st).units u') ∧
     { writeUnit s st u dom data with stack := s.stack } = s) ∧
  (∀ (s : State) (st u dom : Nat) (detail : Bytes) (r : Run), s.run = some r → r.fault = none →
     (u ∈ (s.stackOf st).poisoned ∨ (tget {} (s.stackOf st).errs u).fatal s.tbl.eccT = true) →
     (let t := (readUnit s st u dom detail).1
      u ∈ (t.stackOf st).poisoned ∧ { t.unissued s with stack := s.stack, free := s.free } = s ∧
      ∃ r', t.run = some r' ∧ r'.stopped = true ∧
        r'.fault = some { loc := unitLoc st u, code := 0x0302, stamp := s.chron.count })) ∧
  (∀ s : State,
     (∀ (st : Stack) (unit : BitVec 29) (us : List UnitUpset),
       (let s1 := upsetUnits us s
        let k := s1.stackOf st
        let u := unit.toNat
        let e : UnitErr := tget {} k.errs u
        risingFrom 0 k.errs = true →
        ∃ t, exec (.patrolScrub st unit us) s = .next t ∧ { t.unlogged s with stack := s.stack } = s ∧
          (e.fatal s.tbl.eccT = true → u ∈ (t.stackOf st).poisoned) ∧
          (u ∉ k.poisoned → e.fatal s.tbl.eccT = false → u ∉ (t.stackOf st).poisoned ∧
            (tget {} (t.stackOf st).errs u).corrected s.tbl.eccT = []) ∧
          (t.stackOf st).units = k.units ∧ (∀ j, j ≠ st.val → t.stackOf j = s1.stackOf j))) ∧
     (s.cancelling = true →
       ∃ t, exec .stackCancel s = .next t ∧ { t with queue := s.queue } = s ∧
         (∀ (v : VMove) (q : Fin 8), s.vtype v = 6 → risingFrom 0 s.queue = true →
           (t.qOf (qKey v q)).cmds = [] ∧ (t.qOf (qKey v q)).issued = (s.qOf (qKey v q)).issued ∧
           (t.qOf (qKey v q)).retired = (s.qOf (qKey v q)).retired
             + BitVec.ofNat 32 (s.qOf (qKey v q)).cmds.length)) ∧
     (∀ (st : Stack) (r : Run), s.run = some r →
       ∃ t r', exec (.seLinkFatal st) s = .next t ∧ t.unissued s = s ∧ t.run = some r' ∧ r'.stopped = true ∧
         (r.fault = none → r'.fault = some { loc := blockLoc (1 + st) 0x803, code := 0x0307, stamp := s.chron.count }) ∧
         { r' with stopped := r.stopped, fault := r.fault } = r))

/-- The stream descriptors (R308 to R310, R313, R315, R316): served in the order of their streams, STREAM_OPEN puts the
record its parameter block spells under its handle, with the write head its window gives and its grammar's start state;
STREAM_SET replaces the fields
its mask selects; STREAM_FORK copies the parent's record with a seed of its own and a directory of its own nodes (R314);
STREAM_CLOSE removes the record and reports its tokens, state and length. Each completes with SUCCESS. STREAM_WRITEBACK (R75, R321): once a step has passed
its last beat with every command retired, each listed record is written back from its bridle slot, and nothing else
changes but that its data unit is written anew (R295). -/
def Obligations.StreamsServed : Prop :=
  (∀ (s : State) (acc : Nat) (a : Acc), s.blocked acc a.handles = false → risingFrom 0 s.streams = true →
     risingFrom 0 s.fns = true →
     (let h := a.bits 8 4 19 0
      (∀ b : Bytes, s.serves acc 0x10 a →
        (let x := paramStream b a.fn
         tfind s.streams h = none → (s.fnOf a.fn).openStreams < (s.fnQuota a.fn).1 → s.sound [recordUnit h] →
         (x.grammarOn = true → (tfind s.grammars x.grammar).isSome = true) →
         paramReserved b = true → paramRanges x 0xFFFF = true →
         ∃ t, exec (.streamOpen acc (.ok b)) s = .next t ∧ Completes s t acc a 0 0 { r1 := h } ∧
           { t.uncompleted s with streams := s.streams, slotRows := s.slotRows } = s ∧
           t.streams = tput h { x with whead := x.window % 32, dfa := s.dfaStart x.grammar } s.streams ∧
           (t.fnOf a.fn).openStreams = (s.fnOf a.fn).openStreams + 1)) ∧
      (∀ (b : Bytes) (x : Stream), s.serves acc 0x11 a →
        (let new := paramStream b a.fn
         let mask := a.fld 0xC 2
         s.ownStream a.fn h = some x → s.sound [recordUnit h] →
         (bitNat mask 13 = true → new.grammarOn = true → (tfind s.grammars new.grammar).isSome = true) →
         paramReserved b = true → paramRanges new mask = true →
         ∃ t, exec (.streamSet acc (.ok b)) s = .next t ∧ Completes s t acc a 0 0 { r1 := h } ∧
           { t.uncompleted s with streams := s.streams } = s ∧
           t.streams = tput h (setFields x new mask (s.dfaStart new.grammar)) s.streams)) ∧
      (∀ x : Stream, s.serves acc 0x12 a →
        (let child := a.bits 0xC 4 19 0
         tfind s.streams child = none → s.ownStream a.fn h = some x →
         (s.fnOf a.fn).openStreams < (s.fnQuota a.fn).1 →
         ∃ t, exec (.streamFork acc) s = .next t ∧ Completes s t acc a 0 0 { r1 := child } ∧
           (∃ ns, ns.length = min x.nodes.length ((x.pages.length + 62) / 63) ∧
             tfind t.streams child = some { x with seed := BitVec.ofNat 64 (a.fld 0x10 8), fn := a.fn, nodes := ns }) ∧
           (∀ h', h' ≠ child → tfind t.streams h' = tfind s.streams h'))) ∧
      (∀ x : Stream, s.serves acc 0x13 a → s.ownStream a.fn h = some x →
        ∃ t, exec (.streamClose acc) s = .next t ∧
          Completes s t acc a 0 0 { r0 := x.tokens.toNat, r1 := x.state + 8 * x.reason, r3 := x.length } ∧
          tfind t.streams h = none ∧ (∀ h', h' ≠ h → tfind t.streams h' = tfind s.streams h')))) ∧
  (∀ (s : State) (r : Run), s.run = some r → s.stepDone = true → r.wroteBack = false →
     (r.slots.map (fun e => e.2.handle)).Nodup →
     ∃ t, exec .streamWriteback s = .next t ∧ { t with streams := s.streams, run := s.run, stack := s.stack } = s ∧
       (∀ st, (t.stackOf st).units = (s.stackOf st).units) ∧
       t.run = some { r with wroteBack := true } ∧
       (∀ e ∈ r.slots, ∀ x, tfind s.streams e.2.handle = some x →
         tfind t.streams e.2.handle = some (backStream s e.2 x)) ∧
       (∀ h, (∀ e ∈ r.slots, e.2.handle ≠ h) → tfind t.streams h = tfind s.streams h))

/-- The prefix table (R322 to R325, R327), its commands served in the order of the table's accesses (R324): with no recording, a
probe attaches, in order, the pages of the leading blocks whose tags name a live entry of the stream's domain and class, refreshes
the lifetime of those entries and sets the stream's length to 64 positions for each; a publish enters each covered block that is
new, and one of one block whose tag and page are new enters it with the lifetime PREFIX_TTL gives; an eviction lets the selected
entries expire and, like a sweep of one entry, reclaims those whose page no stream counts. Every completion counts them. -/
def Obligations.PrefixTableServed : Prop :=
  (∀ (s : State) (acc : Nat) (a : Acc), s.blocked acc a.handles = false → s.tableBusy acc a = false →
     risingFrom 0 s.prefixes = true →
     (let h := a.bits 8 4 19 0
      (∀ (b : Bytes) (x : Stream) (key : Nat), s.serves acc 0x18 a → s.ownStream a.fn h = some x → x.length = 0 →
        s.replaying = false → s.recording = false → (s.domOf x.domain).key = some key →
        (let tags := prefixTags key (leBytes 4 (a.fld 0xC 4)) (tokenBlocks (a.bits 0x10 4 6 0) b)
         let live := fun t => (s.prefixHit t).any fun e =>
           decide (e.2.domain = x.domain ∧ e.2.cls = x.cls ∧ s.chron.count < e.2.expiry)
         let hits := (tags.takeWhile live).filterMap s.prefixHit
         ∃ t y, exec (.prefixProbe acc (.ok b)) s = .next t ∧
           Completes s t acc a 0 0 { r0 := s.chron.count, r1 := hits.length } ∧ tfind t.streams h = some y ∧
           y.length = 64 * hits.length ∧ y.pages = x.pages ++ hits.map (·.2.page) ∧
           ∀ e, tfind t.prefixes e = (tfind s.prefixes e).map fun p =>
             if hits.any (fun q => q.1 == e) then { p with expiry := max p.expiry (s.chron.count + s.ttl) } else p)) ∧
      (∀ (b : Bytes) (x : Stream), s.serves acc 0x19 a → s.ownStream a.fn h = some x → 64 * a.bits 0x10 4 6 0 ≤ x.length →
        ∃ t n, exec (.prefixPublish acc (.ok b)) s = .next t ∧ n ≤ a.bits 0x10 4 6 0 ∧
          Completes s t acc a 0 0 { r1 := n, r3 := a.bits 0x10 4 6 0 - n }) ∧
      (∀ (b : Bytes) (x : Stream) (key e : Nat), s.serves acc 0x19 a → s.ownStream a.fn h = some x →
        (s.domOf x.domain).key = some key → a.bits 0x10 4 6 0 = 1 → 64 ≤ x.length →
        (let tag := Config.kmac key (leBytes 4 (a.fld 0xC 4) ++ slice b 0 256)
         s.prefixHit tag = none → s.named (x.pages.getD 0 0) = false → s.publishWay tag = some e →
         tfind s.prefixes e = none → s.sound (recordUnit h :: bucketUnits tag) →
         ∃ t, exec (.prefixPublish acc (.ok b)) s = .next t ∧ Completes s t acc a 0 0 { r1 := 1 } ∧
           { t.uncompleted s with prefixes := s.prefixes } = s ∧
           t.prefixes = tput e { tag := tag, page := x.pages.getD 0 0, cls := x.cls, domain := x.domain
                                 expiry := s.chron.count + s.ttl, depth := 0 } s.prefixes)) ∧
      (let all := a.bits 8 4 16 16 == 1
       let dom := a.bits 8 4 12 0
       let hit := fun (p : Prefix) => all || p.domain == dom
       let free := fun (p : Prefix) => ((tfind s.pages p.page).map (·.refs)).getD 0 == 0
       let hits := (s.prefixes.filter fun e => hit e.2).length
       let n := (s.prefixes.filter fun e => hit e.2 && free e.2).length
       s.serves acc 0x1A a →
       (a.fn = 0 ∨ (all = false ∧ s.streams.any (fun e => e.2.domain == dom && e.2.fn == a.fn) = true)) →
       ∃ t, exec (.prefixEvict acc) s = .next t ∧ Completes s t acc a 0 0 { r1 := n, r3 := hits - n } ∧
         ∀ e, tfind t.prefixes e = (tfind s.prefixes e).bind fun p =>
           if hit p = true ∧ free p = true then none
           else some (if hit p then { p with expiry := min p.expiry s.chron.count } else p)))) ∧
  (∀ (s : State) (entry : BitVec 24), risingFrom 0 s.prefixes = true →
     ∃ t, exec (.prefixSweep entry) s = .next t ∧
       (∀ p, tfind s.prefixes entry.toNat = some p →
         (s.sweepable p = true → tfind t.prefixes entry.toNat = none ∧
           ∀ e, e ≠ entry.toNat → tfind t.prefixes e = tfind s.prefixes e) ∧
         (s.sweepable p = false → t = s)) ∧
       (tfind s.prefixes entry.toNat = none → t = s))

/-- Grammars and key domains (R290, R291, R328, R329): an image that parses is loaded under its number where the tenancy area
has room, and one that no open stream uses is unloaded; DOMAIN_RETIRE of an empty domain makes it RETIRING and waits; the
destruction of its key makes it FREE, without a key, completes the retirement, and lets the manifests that waited for it be
judged again; where none waits nothing else changes. -/
def Obligations.GrammarsAndDomains : Prop :=
  ∀ (s : State) (acc : Nat) (a : Acc),
     (let id := a.bits 8 4 11 0
      let d := a.bits 8 4 12 0
      (∀ (b : Bytes) (g : Grammar), s.serves acc 0x06 a → b.length = a.fld 0x18 8 → tfind s.grammars id = none →
        parseGrammar b = some g → s.room (imageStacks b.length) = true →
        ∃ t bl, exec (.grammarLoad acc (.ok b)) s = .next t ∧ Completes s t acc a 0 0 {} ∧
          tfind t.grammars id = some { g with blocks := bl } ∧ bl.length = (b.length + 4095) / 4096 ∧
          (∀ j, j ≠ id → tfind t.grammars j = tfind s.grammars j)) ∧
      (∀ g : Grammar, s.serves acc 0x07 a → tfind s.grammars id = some g → risingFrom 0 s.grammars = true →
        s.streams.any (fun h => h.2.grammarOn && h.2.grammar == id) = false →
        ∃ t, exec (.grammarUnload acc) s = .next t ∧ Completes s t acc a 0 0 {} ∧ tfind t.grammars id = none ∧
          (∀ j, j ≠ id → tfind t.grammars j = tfind s.grammars j)) ∧
      (s.serves acc 0x08 a → d ≠ 0 → (s.domOf d).used = 0 → s.streams.any (fun h => h.2.domain == d) = false →
        ∃ t, exec (.domainRetire acc) s = .next t ∧ { t with domains := s.domains, intake := s.intake } = s ∧
          t.domOf d = { s.domOf d with state := 2 } ∧ tfind t.intake.acc acc = some { a with begun := true }) ∧
      (∀ dom : BitVec 13, (s.domOf dom.toNat).state = 2 → risingFrom 0 s.domains = true →
        s.intake.acc.find? (fun e => e.2.kind == 0x08 && e.2.begun && e.2.bits 8 4 12 0 == dom.toNat) = some (acc, a) →
        tfind s.intake.acc acc = some a → a.mute = false → (s.fnOf a.fn).inReset = false →
        (s.cqOf a.fn a.cq).stopped = false → s.loads.all (fun l => l.accepted || l.manifest.isEmpty) = true →
        ∃ t, exec (.domainKeyDestroyed dom) s = .next t ∧
          Completes s t acc a 0 0 { r1 := dom.toNat, r3 := (s.domOf dom.toNat).epoch } ∧
          { t.uncompleted s with domains := s.domains } = s ∧
          t.domOf dom.toNat = { s.domOf dom.toNat with state := 0, key := none }) ∧
      (∀ dom : BitVec 13, (s.domOf dom.toNat).state ≠ 2 → exec (.domainKeyDestroyed dom) s = .next s))

/-- Doorbells and shadows (R341, R342, R344, R365): a 32-bit write of a tail that covers more entries becomes the ring's
last known tail, one of N or more stops the ring with error 1; a head between the last one known and TAIL becomes the
CQ's last known head; any other width is ignored and counted. A shadow page gives every SQ its tail in the same way; a
read of it that fails disables the function's shadows. Ring contexts (R339, R340): a 64-bit write of word 0 of a
disabled ring moves it, HEAD or TAIL going to 0; one of word 1 that enables a disabled ring with a size of 2 to 65,536
entries, a base, and, for an SQ, an enabled CQ, for a CQ, a vector of its function, sets the fields and enables it.
Interrupts (R382, R384, R385): at the coalescing time a CQ's pending completions are covered by one message of its
vector; a vector that is unmasked sends the message held for it, and its pending bit clears. -/
def Obligations.RingsAndInterrupts : Prop :=
  (∀ (s : State) (f : Fn) (q : Fin 16) (value : W64), s.fnEnabled f = true → (s.fnOf f).inReset = false →
     (let r := s.sqOf f q
      let c := s.cqOf f q
      let v := fieldNat value.toNat 15 0
      (∀ width : Nat, width ≠ 32 →
        (∃ t, exec (.sqTailDoorbell f q width value) s = .next t ∧ { t with fresh := s.fresh } =
          s.setFn f { s.fnOf f with doorbellIgnored := satNat 32 ((s.fnOf f).doorbellIgnored + 1) }) ∧
        (∃ t, exec (.cqHeadDoorbell f q width value) s = .next t ∧ { t with fresh := s.fresh } =
          s.setFn f { s.fnOf f with doorbellIgnored := satNat 32 ((s.fnOf f).doorbellIgnored + 1) })) ∧
      (r.enable = true → r.stopped = false → v < 2 ^ r.sizeLog2 →
        ringDist (2 ^ r.sizeLog2) r.head r.tail < ringDist (2 ^ r.sizeLog2) r.head v →
        ∃ t, exec (.sqTailDoorbell f q 32 value) s = .next t ∧
          { t with fns := s.fns, out := s.out, intake := s.intake } = s ∧
          { t.sqOf f q with marks := r.marks } = { r with tail := v } ∧ t.cqOf f q = c) ∧
      (r.enable = true → r.stopped = false → 2 ^ r.sizeLog2 ≤ v →
        ∃ t, exec (.sqTailDoorbell f q 32 value) s = .next t ∧ t.sqOf f q = { r with err := 1, stopped := true }) ∧
      (c.enable = true → c.stopped = false → v < 2 ^ c.sizeLog2 →
        ringDist (2 ^ c.sizeLog2) v c.tail ≤ ringDist (2 ^ c.sizeLog2) c.head c.tail →
        ∃ t, exec (.cqHeadDoorbell f q 32 value) s = .next t ∧ { t with fns := s.fns, intake := s.intake } = s ∧
          t.cqOf f q = { c with head := v } ∧ t.sqOf f q = r) ∧
      (f.val ∈ s.intake.shadowDue → (s.fnOf f).shadowEn = true → s.stop.state ≠ 2 →
        (∃ t, exec (.shadowRead f .timeout) s = .next t ∧ (t.fnOf f).shadowEn = false ∧ (t.fnOf f).shadowErr = true ∧
          f.val ∉ t.intake.shadowDue ∧ { t with fns := s.fns, intake := s.intake, fresh := s.fresh } = s) ∧
        (∀ b : Bytes, ∃ t, exec (.shadowRead f (.ok b)) s = .next t ∧ f.val ∉ t.intake.shadowDue ∧
          (∀ k : Fin 16, (let r := s.sqOf f k
            let v := bitsAt b (4 * k.val) 4 15 0
            r.enable = true → r.stopped = false → v < 2 ^ r.sizeLog2 →
            ringDist (2 ^ r.sizeLog2) r.head r.tail < ringDist (2 ^ r.sizeLog2) r.head v →
            (t.sqOf f k).tail = v ∧ (t.sqOf f k).head = r.head)))))) ∧
  (∀ (s : State) (f : Fn) (q : Fin 16) (value : W64), s.fnEnabled f = true → (s.fnOf f).inReset = false →
     risingFrom 0 s.fns = true →
     (let r := s.sqOf f q
      let c := s.cqOf f q
      let v := value.toNat
      (r.enable = false →
        (value &&& ~~~ 0xFFF ≠ r.base → value &&& ~~~ 0xFFF ≠ 0 →
          ∃ t, exec (.sqContextWrite f q false 0 64 value) s = .next t ∧ { t with fns := s.fns } = s ∧
            t.sqOf f q = { r with base := value &&& ~~~ 0xFFF, head := 0, tail := 0, marks := [], seq := 0 }) ∧
        (bitNat v 12 = true → 1 ≤ fieldNat v 4 0 → fieldNat v 4 0 ≤ 16 → r.base ≠ 0 →
          (s.cqOf f (fieldNat v 11 8)).enable = true →
          ∃ t, exec (.sqContextWrite f q true 0 64 value) s = .next t ∧ { t with fns := s.fns } = s ∧
            (let r' := t.sqOf f q
             r'.enable = true ∧ r'.err = 0 ∧ r'.stopped = false ∧ r'.base = r.base ∧ r'.sizeLog2 = fieldNat v 4 0 ∧
             r'.cq = fieldNat v 11 8 ∧ r'.pasidEn = bitNat v 13 ∧ r'.pasid = fieldNat v 33 14 ∧
             (fieldNat v 4 0 ≠ r.sizeLog2 → r'.head = 0 ∧ r'.tail = 0) ∧
             (fieldNat v 4 0 = r.sizeLog2 → r'.head = r.head ∧ r'.tail = r.tail)))) ∧
      (c.enable = false → c.resv = 0 →
        (value &&& ~~~ 0xFFF ≠ c.base → value &&& ~~~ 0xFFF ≠ 0 →
          ∃ t, exec (.cqContextWrite f q false 0 64 value) s = .next t ∧ { t with fns := s.fns } = s ∧
            t.cqOf f q = { c with base := value &&& ~~~ 0xFFF, tail := 0, head := 0, phase := true }) ∧
        (bitNat v 20 = true → 1 ≤ fieldNat v 4 0 → fieldNat v 4 0 ≤ 16 → c.base ≠ 0 →
          fieldNat v 18 8 / 8 = f.val →
          ∃ t, exec (.cqContextWrite f q true 0 64 value) s = .next t ∧ { t with fns := s.fns } = s ∧
            (let c' := t.cqOf f q
             c'.enable = true ∧ c'.err = 0 ∧ c'.stopped = false ∧ c'.base = c.base ∧ c'.sizeLog2 = fieldNat v 4 0 ∧
             c'.vector = fieldNat v 18 8 ∧ c'.irqEn = bitNat v 19 ∧ c'.pasidEn = bitNat v 21 ∧
             c'.pasid = fieldNat v 41 22 ∧ (fieldNat v 4 0 ≠ c.sizeLog2 → c'.tail = 0 ∧ c'.head = 0 ∧ c'.phase = true)))))) ∧
  (∀ (s : State) (f : Fn), (s.fnOf f).inReset = false → (s.fnOf f).fnMask = false →
     (∀ q : Fin 16, (let c := s.cqOf f q
       0 < c.pendingIrq → c.firstIrqNs + 1000 * c.coalTime ≤ s.ns → (tget {} (s.fnOf f).msix (c.vector % 8)).masked = false →
       risingFrom 0 s.fns = true → risingFrom 0 (s.fnOf f).cq = true →
       ∃ t, exec (.irqCoalesceTimeout f q) s = .next t ∧ { t with fns := s.fns, out := s.out } = s ∧
         t.out = s.out ++ [.msix c.vector] ∧ t.cqOf f q = { c with pendingIrq := 0 })) ∧
     (∀ vec : Fin 8, (s.fnOf f).pba.getLsbD vec = true → risingFrom 0 s.fns = true →
       risingFrom 0 (s.fnOf f).msix = true →
       ∃ t, exec (.msixUnmask f vec) s = .next t ∧ { t with fns := s.fns, out := s.out } = s ∧
         t.out = s.out ++ [.msix (8 * f.val + vec.val)] ∧ (t.fnOf f).pba.getLsbD vec = false ∧
         (tget {} (t.fnOf f).msix vec).masked = false))

/-- The intake (R345 to R348, R377, R381): within a window of its function the descriptor at the HEAD of the next SQ is
read; a descriptor that passes the checks of form and admission, and the fence of a STEP, is accepted under the next
number: HEAD moves past it and a completion entry is reserved in its CQ. NOP and STEP (R95 to R97, R318, R350 to R352):
a NOP completes with SUCCESS; a STEP of a resident plan whose lists pass their checks, no serving command accepted before it
that names one of its streams being left (R316), joins the accepted steps, last, and waits for its launch. -/
def Obligations.IntakeServes : Prop :=
  (∀ (s : State) (f q : Nat) (d : Bytes),
     (s.cad.fn = some f → s.nextSq f = some q → s.fetchOpen f = true →
       ∃ t, exec (.descriptorFetch (.ok d)) s = .next t ∧
         { t with fns := s.fns, out := s.out, intake := s.intake } = s ∧
         t.intake.fetched = some { fn := f, sq := q, data := .ok d } ∧ t.intake.sq = some q ∧
         t.out = s.out ++ [.hostRead f ((s.sqOf f q).base + BitVec.ofNat 64 (128 * (s.sqOf f q).head)) 128] ∧
         t.intake.acc = s.intake.acc) ∧
     (s.intake.fetched = some { fn := f, sq := q, data := .ok d } → s.cad.win.isSome = true → s.cad.fn = some f →
       (s.fnOf f).inReset = false → s.stop.state ≠ 2 → s.orderHeld f q d = false → formDetail d = 0 →
       admitDetail s f d = 0 → (fieldAt d 0 1 = 0x01 → s.stepFits (bitsAt d 8 4 5 0) = true) → s.recording = false →
       (s.sqOf f q).enable = true → (s.cqOf f (s.sqOf f q).cq).enable = true →
       ∃ t a, exec .descriptorAccept s = .next t ∧ tfind t.intake.acc s.intake.next = some a ∧
         a.fn = f ∧ a.sq = q ∧ a.cq = (s.sqOf f q).cq ∧ a.desc = d ∧ a.begun = false ∧ a.mute = false ∧
         t.intake.next = s.intake.next + 1 ∧ t.intake.fetched = none ∧
         (t.sqOf f q).head = ((s.sqOf f q).head + 1) % 2 ^ (s.sqOf f q).sizeLog2 ∧
         (t.cqOf f (s.sqOf f q).cq).resv = (s.cqOf f (s.sqOf f q).cq).resv + 1 ∧
         (fieldAt d 0 1 = 0x01 → t.cad.own = s.cad.own ++ [s.intake.next]) ∧
         { t with fns := s.fns, out := s.out, intake := s.intake, cad := s.cad, tenancy := s.tenancy } = s)) ∧
  (∀ (s : State) (acc : Nat) (a : Acc),
     (s.serves acc 0x30 a →
       ∃ t, exec (.nopDescriptor acc) s = .next t ∧ Completes s t acc a 0 0 {} ∧ t.uncompleted s = s) ∧
     (∀ (p : Plan) (patches streams bufs : Bytes), s.serves acc 0x01 a → s.stepTurn acc = true → s.recording = false →
       s.slotOf (a.bits 8 4 5 0) = .resident p → chainOk p a = true → patchesOk p (a.bits 8 4 20 8) patches = true →
       s.unserved acc (streamList (a.bits 8 4 31 21) streams) = false →
       streamsDetail s a.fn (a.bits 8 4 31 21) streams = 0 → bufsOk (a.bits 0xC 4 6 0) bufs = true →
       ∃ t, exec (.step acc (.ok patches) (.ok streams) (.ok bufs)) s = .next t ∧
         t.steps = s.steps ++ [stepReq acc a patches streams bufs] ∧
         tfind t.intake.acc acc = some { a with begun := true } ∧
         { t with steps := s.steps, intake := s.intake, seq := s.seq } = s ∧ (s.steps ≠ [] → t.seq = s.seq)))

/-- Host reads and writes of a step (R338, R353 to R355, R387): the rows of the oldest HREAD of a queue, all of which lie in its
buffer, are those the host delivers, a row whose read fails being zero and the first such row noted as the step's host error;
an HWRITE all of whose rows lie in its buffer leaves as DMA writes of the step's function, in row order, with the function's
relaxed ordering. In a discarded step an HREAD's rows are zero, and an HWRITE leaves nothing. -/
def Obligations.HostTransfersComplete : Prop :=
  ∀ (s : State) (queue : Fin 4) (i : Nat) (c : Cmd) (r : Run), s.run = some r → risingFrom 0 s.queue = true →
    s.replay.ctrl = 0 → (s.qOf (qKey s.hMove queue)).oldest = some (i, c) →
    (s.qOf (qKey s.hMove queue)).cmds[i]? = some c →
    (let k := qKey s.hMove queue
     let done := fun (rows : List Bytes) =>
       (s.setQ k (retireHead (s.qOf k).cmds.length { s.qOf k with
         cmds := (s.qOf k).cmds.set i { c with done := true, result := rows, flags := 0 } })).queue
     (∀ (v : VMove) (buf : BitVec 6) (n : BitVec 12) (off : W32) (k' : Fin 4) (data : List HostData),
       c.op = .hread v buf n off k' →
       (let row := fun j => data.getD j .timeout
        ((∀ j, j ≤ n.toNat → (s.bufRow buf.toNat (off.toNat + j) false).isSome = true) → s.discarded = false →
          ∃ t r', exec (.hostReadCompletion queue data) s = .next t ∧ { t with queue := s.queue, run := s.run } = s ∧
            t.queue = done ((List.range (n.toNat + 1)).map fun j =>
              match row j with | .ok b => padTo 256 b | _ => zeros 256) ∧
            t.run = some r' ∧ { r' with hostErr := r.hostErr } = r ∧
            ((∀ j, j ≤ n.toNat → ∃ b, row j = .ok b) → t.run = s.run) ∧
            (∀ j, j ≤ n.toNat → hostDetail (row j) ≠ 0 → (∀ i, i < j → hostDetail (row i) = 0) → r.hostErr = none →
              ∃ e, r'.hostErr = some e ∧ e.detail = hostDetail (row j) ∧ e.opAddr = c.opAddr ∧
                s.bufRow buf.toNat (off.toNat + j) false = some e.addr)) ∧
        (s.discarded = true →
          ∃ t, exec (.hostReadCompletion queue data) s = .next t ∧ { t with queue := s.queue } = s ∧
            t.queue = done (List.replicate (n.toNat + 1) (zeros 256))))) ∧
     (∀ (v : VMove) (src : AddrOp) (buf : BitVec 6) (n : BitVec 12) (off : W32) (k' : Fin 4) (at_ : Nat → W64),
       c.op = .hwrite v src buf n off k' → s.discarded = false →
       (∀ j, j < c.data.length → s.bufRow buf.toNat (off.toNat + j) true = some (at_ j)) →
       (s.fnOf r.req.fn).inReset = false →
       ∃ t, exec (.hwriteRetire queue) s = .next t ∧ { t with queue := s.queue, out := s.out } = s ∧
         t.queue = done [] ∧
         t.out = s.out ++ ((indexed c.data).map fun e =>
           Out.dma r.req.fn r.req.pasid (at_ e.1) e.2 (s.fnOf r.req.fn).relaxed)) ∧
     (∀ (v : VMove) (src : AddrOp) (buf : BitVec 6) (n : BitVec 12) (off : W32) (k' : Fin 4),
       c.op = .hwrite v src buf n off k' → s.discarded = true →
       ∃ t, exec (.hwriteRetire queue) s = .next t ∧ { t with queue := s.queue } = s ∧ t.queue = done []))

/-- The cadence (R372 to R376, R379): a frame that is due in a tenancy, with no setting waiting, begins with the control
window of function 0; the next entry of the table, where it is whole, begins as its window at the scheduled start; a
window whose length is over closes, and the schedule moves on by it, or waits for the end of its own step; an idle COMPACT
window of a function closes after 1 µs. A step that ends past the length of the window it was accepted in reports by how much
(R374, R377). -/
def Obligations.CadenceWindowsRun : Prop :=
  ∀ s : State, s.tabled = true →
    (let c := s.cad
     (s.frameDue = true → (takeCadence s).2 = false → c.compact = false →
       ∃ t, exec .frameStart s = .next t ∧ { t with cad := s.cad, intake := s.intake } = s ∧
         t.cad.win = some 0 ∧ t.cad.fn = some 0 ∧ t.cad.blank = false ∧ t.cad.start = s.chron.count ∧
         t.cad.sched = s.frameAt c.frame ∧ t.cad.length = 100 * c.ctrlLen ∧ t.cad.frame = c.frame + 1 ∧
         t.cad.turn = 0 ∧ t.cad.begun = c.begun + 1 ∧ t.cad.frameOver = false) ∧
     (c.frameOver = false → c.win = none → s.stop.state ≠ 2 → c.compact = false → c.sched ≤ s.chron.count →
       (s.runWindow c.turn).bad = false →
       ∃ t, exec .windowStart s = .next t ∧ { t with cad := s.cad, intake := s.intake, free := s.free } = s ∧
         (let w := s.runWindow c.turn
          t.cad.win = some (c.turn + 1) ∧ t.cad.fn = some w.fn ∧ t.cad.slot = w.slot ∧ t.cad.guard = w.guard ∧
          t.cad.blank = w.blank ∧ t.cad.length = w.length ∧ t.cad.start = s.chron.count ∧ t.cad.sched = c.sched ∧
          t.cad.begun = (if w.blank then c.begun else c.begun + 1) ∧ t.cad.own = [] ∧ t.intake.closed = [])) ∧
     (c.win.isSome = true → s.stop.state ≠ 2 → s.windowEnded = true → s.ownRunning = false →
       ∃ t, exec .windowEnd s = .next t ∧ { t with cad := s.cad, intake := s.intake } = s ∧
         t.cad.win = none ∧ t.cad.sched = c.sched + c.length ∧ t.cad.turn = c.win.getD 0 ∧
         (t.cad.frameOver = true ↔ c.last < c.win.getD 0) ∧ t.intake.fetched = none ∧ t.intake.acc = s.intake.acc) ∧
     (c.win.isSome = true → s.stop.state ≠ 2 → s.windowEnded = true → s.ownRunning = true →
       exec .windowEnd s = .next s) ∧
     (∀ w : Nat × Nat × Nat,
       (let due := w.2.1 + (c.shift - w.2.2)
        (s.chron.count ≤ due → reportOverrun s w = s) ∧
        (due < s.chron.count → reportOverrun s w =
          raise s 0x0403 0 (packDetail [(2, w.1), (8, s.chron.count - due)])))) ∧
     (∀ i, c.win = some (i + 1) → c.compact = true → c.blank = false → s.stop.state ≠ 2 →
       s.fnBusy (c.fn.getD 0) = false → s.fnWaiting (c.fn.getD 0) = false → c.fn.getD 0 ∉ s.intake.shadowDue →
       c.start + 1000 ≤ s.chron.count →
       ∃ t, exec .windowIdleEnd s = .next t ∧ { t with cad := s.cad, intake := s.intake } = s ∧ t.cad.win = none))

/-- A function-level reset (R386, R387, R389 to R391) of a virtual function: its descriptors not begun and its
unlaunched steps are dropped, those begun go on without a completion, its step is discarded with its commands of the fabric
cancelled; 50 µs later at the earliest
its registers are at their reset values, its streams and pages standing, and the event reports what was dropped. -/
def Obligations.FunctionResets : Prop :=
  ∀ (s : State) (f : Fn), 4 ≤ f.val → s.fnEnabled f = true →
    ((s.fnOf f).inReset = false →
      ∃ t, exec (.flrStart f) s = .next t ∧ (t.fnOf f).inReset = true ∧ (t.fnOf f).flrAt = s.ns ∧
        (∀ e ∈ t.intake.acc, e.2.fn = f.val → e.2.mute = true ∧ e.2.begun = true) ∧
        (∀ e ∈ s.intake.acc, e.2.fn ≠ f.val → e ∈ t.intake.acc) ∧
        t.steps = s.steps.filter (fun r => r.fn != f.val) ∧
        (∀ r, s.run = some r → r.req.fn = f.val →
          t.run = some { r with discarded := true } ∧ (t.fnOf f).flrStep = some r.number ∧
          (risingFrom 0 s.queue = true → ∀ (v : VMove) (k : Fin 16),
            (s.vtype v ≠ 7 → t.qOf (qKey v k) = s.qOf (qKey v k)) ∧
            (s.vtype v = 7 → ∀ c ∈ (t.qOf (qKey v k)).cmds, c.done = true))) ∧
        (∀ r, s.run = some r → r.req.fn ≠ f.val → t.run = some r ∧ t.queue = s.queue) ∧ t.mv = s.mv ∧
        (s.run = none → t.queue = s.queue)) ∧
    ((s.fnOf f).inReset = true → (s.fnOf f).flrAt + 50000 ≤ s.ns → risingFrom 0 s.fns = true →
      ∃ t, exec (.flrComplete f) s = .next t ∧ { t.unlogged s with fns := s.fns } = s ∧
        t.fnOf f = { openStreams := (s.fnOf f).openStreams, pages := (s.fnOf f).pages } ∧
        ∀ g, g ≠ f.val → t.fnOf g = s.fnOf g)

/-- Acknowledgement at an ACTIVE port (R400 to R404, R429): an ACK goes out 250 ns after the first packet accepted since
the last, a NAK again 2 µs after a NAK that stands; an ACK or NAK that names a SEQ within the replay buffer releases the
packets before it, and the NAK starts a replay of the rest; an ACK that names a packet beyond the next to be sent is a
violation answered by a retrain with cause 7; a held packet 2 µs without an ACK starts a replay. Credits and heartbeats
at an ACTIVE port (R410, R411, R423, R429): a CREDIT adds its eight counts; a pair starved for 1 ms asks for a retrain
with cause 6; a heartbeat goes out at every multiple of 10,000 of the count, with TIME_REQ after it toward the parent;
one received with the partner's names clears the misses, and one with others is a violation and asks for a retrain with
cause 8; an interval without one is a miss, and the third in a row loses the link. -/
def Obligations.LinkAcknowledgesAndCredits : Prop :=
  (∀ (s : State) (p : Port), s.isActive p = true → risingFrom 0 s.ports = true →
     (let x := s.portOf p
      let recent := x.nakTimes.filter (fun t => decide (s.ns < t + 1000000))
      (0 < x.unacked → x.firstUnacked + 250 ≤ s.ns →
        ∃ t, exec (.ackTimer p) s = .next t ∧ s.onlyPort p t ∧
          t.portOf p = { x with unacked := 0
                                ctrl := x.ctrl ++ [{ rank := rankAck, w0 := BitVec.ofNat 32 (1 + x.e * 2 ^ 16) }] }) ∧
      (∀ t0, x.nakAt = some t0 → t0 + 2000 ≤ s.ns → recent.length < 64 →
        ∃ t, exec (.nakRepeat p) s = .next t ∧ s.onlyPort p t ∧
          t.portOf p = { x with
            nakAt := some s.ns, nakTimes := recent ++ [s.ns]
            counters := { x.counters with nakSent := satNat 48 (x.counters.nakSent + 1) }
            ctrl := x.ctrl ++ [{ rank := rankNak, w0 := BitVec.ofNat 32 (1 + 2 ^ 8 + x.e * 2 ^ 16) }] }) ∧
      (∀ u : CtrlUnit, goodUnit u 1 0xFFFF_010F 0 0 →
        (let n := x.replay.length
         let d := (bitsOf u.w0 31 16 + 65536 - (x.txSeq + 65536 - n % 65536) % 65536) % 65536
         (d ≤ n → u.w0.getLsbD 8 = false → x.replaying = none →
           ∃ t, exec (.ack p u) s = .next t ∧ s.onlyPort p t ∧ t.portOf p = { x with replay := x.replay.drop d }) ∧
         (d ≤ n → u.w0.getLsbD 8 = true → recent.length < 64 →
           ∃ t, exec (.nak p u) s = .next t ∧ s.onlyPort p t ∧
             t.portOf p = { x with
               replay := x.replay.drop d, replaying := if n ≤ d then none else some 0, nakTimes := recent ++ [s.ns]
               counters := { x.counters with nakRecv := satNat 48 (x.counters.nakRecv + 1) } }) ∧
         (n < d → d < 32768 → u.w0.getLsbD 8 = false → x.causes = 0 →
           ∃ t, exec (.ack p u) s = .next t ∧ s.onlyPort p t ∧
             t.portOf p = { x with
               causes := 2 ^ 7, ctrl := x.ctrl ++ List.replicate 4 (retrainUnit x 7)
               counters := { x.counters with protocol := satNat 48 (x.counters.protocol + 1) } }))) ∧
      (x.replaying = none → (∃ h ∈ x.replay, h.sent + 2000 ≤ s.ns) →
        ∃ t, exec (.replayTimeout p) s = .next t ∧ s.onlyPort p t ∧ t.portOf p = { x with replaying := some 0 }))) ∧
  (∀ (s : State) (p : Port), s.isActive p = true → risingFrom 0 s.ports = true →
     (let x := s.portOf p
      (∀ u : CtrlUnit, goodUnit u 2 0xF 0xFFFF_FFFF 0 → risingFrom 0 x.credits = true →
        ∃ t, exec (.credit p u) s = .next t ∧ s.onlyPort p t ∧ { t.portOf p with credits := x.credits } = x ∧
          ∀ k, k < 8 → tget 0 (t.portOf p).credits k = tget 0 x.credits k + bitsOf u.w1 (4 * k + 3) (4 * k)) ∧
      (∀ (pair : Fin 8) (t0 : Nat), tfind x.starved pair = some t0 → t0 + 1000000 ≤ s.ns → x.causes = 0 →
        ∃ t, exec (.linkCreditStarved p pair) s = .next t ∧ s.onlyPort p t ∧
          t.portOf p = { x with starved := tdel pair x.starved, causes := 2 ^ 6
                                ctrl := x.ctrl ++ List.replicate 4 (retrainUnit x 6) }) ∧
      (x.hbAt < s.chron.count / 10000 →
        ∃ t, exec (.heartbeatSend p) s = .next t ∧ s.onlyPort p t ∧
          (let hb : CtrlMsg :=
             { rank := rankHeartbeat, w0 := BitVec.ofNat 32 (3 + x.level * 2 ^ 8 + s.fabric.place.toNat * 2 ^ 16)
               w1 := BitVec.ofNat 32 (p.val + (x.hbCount + 1) % 65536 * 2 ^ 16) }
           let y := { x with hbCount := (x.hbCount + 1) % 65536, hbAt := s.chron.count / 10000, ctrl := x.ctrl ++ [hb] }
           let id := (x.xid + 1) % 256
           t.portOf p =
             if s.parentPort p then
               { y with xid := id
                        ctrl := y.ctrl ++ [{ rank := rankTimeReq, w0 := BitVec.ofNat 32 (4 + id * 2 ^ 8) }] }
             else y)) ∧
      (∀ u : CtrlUnit, goodUnit u 3 0xFFFF_FF0F 0xFFFF_001F 0 →
        ∃ t, exec (.heartbeat p u) s = .next t ∧ s.onlyPort p t ∧
          (bitsOf u.w0 31 16 = x.partner.toNat → bitsOf u.w1 4 0 = x.partnerPort →
            t.portOf p = { x with hbMiss := 0, hbJudged := s.chron.count / 10000 }) ∧
          ((bitsOf u.w0 31 16 ≠ x.partner.toNat ∨ bitsOf u.w1 4 0 ≠ x.partnerPort) → x.causes = 0 →
            t.portOf p = { x with
              causes := 2 ^ 8, ctrl := x.ctrl ++ List.replicate 4 (retrainUnit x 8)
              counters := { x.counters with protocol := satNat 48 (x.counters.protocol + 1) } })) ∧
      ((x.hbJudged + 2) * 10000 + 1000 ≤ s.chron.count →
        ∃ t, exec (.heartbeatMiss p) s = .next t ∧
          (x.hbMiss < 2 → s.onlyPort p t ∧
            t.portOf p = { x with hbMiss := x.hbMiss + 1, hbJudged := x.hbJudged + 1
                                  counters := { x.counters with misses := satNat 48 (x.counters.misses + 1) } }) ∧
          (2 ≤ x.hbMiss → (t.portOf p).state = 1))))

/-- Time (R57, R60 to R63, R424, R579): a request is answered with its XID and its time of arrival; an expected answer
from the parent gives the offset ((T2 − T1) − (T4 − T3)) / 2 (its half ns rounded down: log 142), an accepted edge its own,
and the trim stays within 1,000 ppm; an offset toward an earlier value is slewed at no more than 1,000 ppm until its ns are
removed; an error of more than 50 ns unlocks the chronometer; an unexpected answer is a violation; without time messages for
100 µs, or edges for 1.1 s, a locked chronometer is in holdover. What the filter makes of an offset is free (log 70). -/
def Obligations.TimeExchangeCompletes : Prop :=
  ∀ s : State, risingFrom 0 s.ports = true →
    (let c := s.chron
     let taken := fun (t : State) (offset : Int) =>
       t.chron.offset = offset ∧ t.chron.lastSource = s.ns ∧ t.chron.bound = satNat 16 offset.natAbs ∧
         -4294967 ≤ t.chron.trim ∧ t.chron.trim ≤ 4294967 ∧ t.chron.count = c.count ∧
         t.chron.debt = (-offset).toNat * 2 ^ 32 ∧ 1 ≤ t.chron.slew ∧ t.chron.slew ≤ 4294967 ∧
         (50 < offset.natAbs → t.chron.state = 2) ∧ t.free = s.free + 1
     (∀ (p : Port) (u : CtrlUnit), s.isActive p = true → goodUnit u 4 0x0000_FF0F 0xFFFF_FFFF 0xFFFF_FFFF →
       ∃ t, exec (.timeReq p u) s = .next t ∧ s.onlyPort p t ∧
         t.portOf p = { s.portOf p with
           ctrl := (s.portOf p).ctrl ++
             [{ rank := rankTimeRsp, w0 := BitVec.ofNat 32 (5 + bitsOf u.w0 15 8 * 2 ^ 8)
                w1 := BitVec.ofNat 32 c.count, w2 := BitVec.ofNat 32 (c.count / 2 ^ 32) }] }) ∧
     (∀ (p : Port) (u : CtrlUnit), s.isActive p = true → goodUnit u 5 0xFFFF_FF0F 0xFFFF_FFFF 0xFFFF_FFFF →
       (let x := s.portOf p
        (∀ t1, c.t1 = some t1 → x.xidOut = some (bitsOf u.w0 15 8) → s.parentPort p = true →
          ∃ t, exec (.timeRsp p u) s = .next t ∧
            { t.unlogged s with ports := s.ports, chron := s.chron, free := s.free } = s ∧
            t.portOf p = { x with xidOut := none } ∧ (∀ q, q ≠ p.val → t.portOf q = s.portOf q) ∧ t.chron.t1 = none ∧
            (let t2 : Int := (u.w1.toNat + u.w2.toNat * 2 ^ 32 : Nat)
             let t3 : Int := t2 + bitsOf u.w0 31 16
             taken t (((t2 - t1) - ((c.count : Int) - t3)) / 2))) ∧
        ((c.t1 = none ∨ x.xidOut ≠ some (bitsOf u.w0 15 8) ∨ s.parentPort p = false) →
          ∃ t, exec (.timeRsp p u) s = .next t ∧ s.onlyPort p t ∧
            t.portOf p = { x with
              counters := { x.counters with protocol := satNat 48 (x.counters.protocol + 1) } }))) ∧
     (∀ offset : Int, c.discipline = 1 → (c.lastSource = 0 ∨ c.lastSource + 900000000 ≤ s.ns) →
       ∃ t, exec (.timePpsEdge offset) s = .next t ∧ { t.unlogged s with chron := s.chron, free := s.free } = s ∧
         taken t offset) ∧
     (c.state = 0 →
       (c.discipline = 2 ∧ c.lastSource + 100000 ≤ s.ns ∨ c.discipline = 1 ∧ c.lastSource + 1100000000 ≤ s.ns) →
       ∃ t, exec .timeSourceTimeout s = .next t ∧ t = { s with chron := { c with state := 1 } }))

/-- Lanes of an ACTIVE port (R419 to R422, R429): a TRIM starts the countdown of a new transmit mask, once by CMD_ID; a
SWITCH that answers a TRIM sent changes the receive mask, the TRIMs before it being over, one heard again changes nothing,
and one that answers none is a violation; a lane that loses its lock is trimmed, or a retrain with cause 5 asked for at
MIN_WIDTH; one out of the mask and sound for 1 ms is asked back; a PROPOSE makes the lanes named ready to be asked back. -/
def Obligations.LanesTrimAndRestore : Prop :=
  ∀ (s : State) (p : Port), s.isActive p = true → risingFrom 0 s.ports = true →
    (let x := s.portOf p
     let asked := fun (m : Byte) =>
       ({ x with trimId := (x.trimId + 1) % 256, trims := x.trims ++ [((x.trimId + 1) % 256, m)]
                 ctrl := x.ctrl ++ List.replicate 4
                   ({ rank := rankLane, w0 := BitVec.ofNat 32 (6 + m.toNat * 2 ^ 8 + (x.trimId + 1) % 256 * 2 ^ 24) } :
                     CtrlMsg) } : PortSt)
     (∀ u : CtrlUnit, goodUnit u 6 0xFF00_FFFF 0 0 → bitsOf u.w0 7 4 = 0 →
       (let m := BitVec.ofNat 8 (bitsOf u.w0 15 8)
        ∃ t, exec (.trim p u) s = .next t ∧ s.onlyPort p t ∧
          (m ≠ 0 → m &&& ~~~ x.trained = 0 → x.switching = none → x.appliedId ≠ some (bitsOf u.w0 31 24) →
            t.portOf p = { x with switching := some (m, bitsOf u.w0 31 24, 3) }) ∧
          (m ≠ 0 → m &&& ~~~ x.trained = 0 → x.appliedId = some (bitsOf u.w0 31 24) → t.portOf p = x))) ∧
     (∀ u : CtrlUnit, goodUnit u 6 0xFF00_FFFF 0 0 → bitsOf u.w0 7 4 = 1 → risingFrom 0 x.restore = true →
       ∃ t, exec (.propose p u) s = .next t ∧ s.onlyPort p t ∧ { t.portOf p with restore := x.restore } = x ∧
         ∀ l, l < 8 → u.w0.getLsbD (8 + l) = true → x.rxMask.getLsbD l = false → x.trained.getLsbD l = true →
           tfind (t.portOf p).restore l = some (s.ns - 1000000)) ∧
     (∀ u : CtrlUnit, goodUnit u 6 0xFF03_FFFF 0 0 → bitsOf u.w0 7 4 = 2 →
       (let m := BitVec.ofNat 8 (bitsOf u.w0 15 8)
        let c := (bitsOf u.w0 31 24, m)
        ∃ t, exec (.switch p u) s = .next t ∧ s.onlyPort p t ∧
          (c ∈ x.trims →
            (t.portOf p).rxMask = m ∧ (t.portOf p).trims = (x.trims.dropWhile (· != c)).drop 1 ∧
              (t.portOf p).switched = some c ∧ (t.portOf p).ctrl = x.ctrl) ∧
          (c ∉ x.trims → x.switched = some c → t = s) ∧
          (c ∉ x.trims → x.switched ≠ some c → x.causes = 0 →
            t.portOf p = { x with
              causes := 2 ^ 7, ctrl := x.ctrl ++ List.replicate 4 (retrainUnit x 7)
              counters := { x.counters with protocol := satNat 48 (x.counters.protocol + 1) } }))) ∧
     (∀ lane : Fin 8,
       ∃ t, exec (.laneLockLoss p lane) s = .next t ∧ s.onlyPort p t ∧
         (let m := x.wanted &&& ~~~ BitVec.ofNat 8 (2 ^ lane.val)
          (x.wanted.getLsbD lane = true → x.least ≤ lanesOf m → t.portOf p = asked m) ∧
          (x.wanted.getLsbD lane = true → lanesOf m < x.least → x.causes = 0 →
            t.portOf p = { x with causes := 2 ^ 5, ctrl := x.ctrl ++ List.replicate 4 (retrainUnit x 5) }) ∧
          (x.wanted.getLsbD lane = false → t.portOf p = { x with restore := tput lane s.ns x.restore }))) ∧
     (∀ (lane : Fin 8) (t0 : Nat), tfind x.restore lane = some t0 → t0 + 1000000 ≤ s.ns → x.wanted.getLsbD lane = false →
       x.trained.getLsbD lane = true →
       ∃ t, exec (.laneRestoreTimer p lane) s = .next t ∧ s.onlyPort p t ∧
         t.portOf p = asked (x.wanted ||| BitVec.ofNat 8 (2 ^ lane.val))))

/-- Training and retraining (R412 to R418, R426, R433): each stage of training moves the port on with the lanes that
serve; PARAMs are counted until two are identical; a RETRAIN of the next number, or the loss of FEC lock, takes an
ACTIVE port to RETRAIN, whose relocking begins PARAM again; LINK_CTRL starts a port, puts one down, retrains it or
trains it anew. -/
def Obligations.TrainingProceeds : Prop :=
  ∀ (s : State) (p : Port), risingFrom 0 s.ports = true →
    (let x := s.portOf p
     let begun := fun (y : PortSt) =>
       { y with ownAddr := s.fabric.place, param := none, same := 0, seenSent := 0, seenGot := false }
     (∀ lanes : Byte, x.least ≤ lanesOf lanes →
       (x.state = 1 → ∃ t, exec (.signalDetect p lanes) s = .next t ∧ s.onlyPort p t ∧
         t.portOf p = { x with state := 2, progress := s.ns }) ∧
       (x.state = 2 → ∃ t, exec (.trainConverge p lanes) s = .next t ∧ s.onlyPort p t ∧
         t.portOf p = { x with state := 3, trained := lanes, progress := s.ns })) ∧
     (x.state = 3 → ∃ t, exec (.alignLock p) s = .next t ∧ s.onlyPort p t ∧
       t.portOf p = begun { x with state := 4, progress := s.ns }) ∧
     (x.state = 2 ∨ x.state = 3 ∨ x.state = 4 → x.progress + 500000000 ≤ s.ns →
       ∃ t, exec (.trainingTimeout p) s = .next t ∧ (t.portOf p).state = 1 ∧ (t.portOf p).trained = 0) ∧
     (∀ u : CtrlUnit, goodUnit u 8 0xFFFF_FF8F 0xFFFF_FF1F 0xFFFF_FFFF → x.exchanging = true → x.seenSent < 8 →
       (let k := (u.w0 &&& 0xFFFF_FF7F, u.w1, u.w2)
        ∃ t, exec (.param p u) s = .next t ∧ s.onlyPort p t ∧
          t.portOf p = { x with param := some k, same := if x.param = some k then x.same + 1 else 1, progress := s.ns
                                seenGot := x.seenGot || u.w0.getLsbD 7 })) ∧
     (x.state = 5 → (bitNat x.causes 7 = false →
       ∃ t, exec (.fecLockLoss p) s = .next t ∧ s.onlyPort p t ∧ (t.portOf p).state = 6 ∧ (t.portOf p).retrainAt = s.ns ∧
         (t.portOf p).causes = x.causes ||| 2 ^ 10 ∧ (t.portOf p).noReturn = x.occupied ∧
         (t.portOf p).replay = x.replay ∧ (t.portOf p).e = x.e ∧ (t.portOf p).txSeq = x.txSeq) ∧
       (∀ u : CtrlUnit, goodUnit u 7 0x0000_0F0F 0x0000_00FF 0 → bitsOf u.w1 7 0 = (x.retrains + 1) % 256 →
         bitNat (x.causes ||| 2 ^ bitsOf u.w0 11 8) 7 = false →
         ∃ t, exec (.retrain p u) s = .next t ∧ s.onlyPort p t ∧ (t.portOf p).state = 6 ∧
           (t.portOf p).retrainAt = s.ns ∧ (t.portOf p).causes = x.causes ||| 2 ^ bitsOf u.w0 11 8)) ∧
     (∀ lanes : Byte, x.state = 6 → x.inRetrain = false → x.least ≤ lanesOf (x.trained &&& lanes) →
       ∃ t, exec (.retrainComplete p lanes) s = .next t ∧ s.onlyPort p t ∧
         t.portOf p = begun { x with trained := x.trained &&& lanes, inRetrain := true }) ∧
     (x.state = 6 → x.retrainAt + 40000 ≤ s.ns →
       ∃ t, exec (.retrainTimeout p) s = .next t ∧ (t.portOf p).state = 1 ∧ (t.portOf p).cause = x.cause) ∧
     (∀ v : W32,
       (let y := { x with enable := v.getLsbD 0, minWidth := bitsOf v 7 4 }
        (v.getLsbD 0 = true → x.state = 0 → s.hostUp = true → x.dropUntil = none →
          ∃ t, exec (.linkCtrlEnable p v) s = .next t ∧ s.onlyPort p t ∧ t.portOf p = { y with state := 1 }) ∧
        (v.getLsbD 0 = false → x.state = 0 →
          ∃ t, exec (.linkCtrlEnable p v) s = .next t ∧ s.onlyPort p t ∧ t.portOf p = y) ∧
        (v.getLsbD 0 = true → v.getLsbD 1 = true → v.getLsbD 2 = false → x.state = 5 → x.causes = 0 →
          ∃ t, exec (.linkCtrlRetrain p v) s = .next t ∧ s.onlyPort p t ∧
            t.portOf p = { y with causes := 2, ctrl := x.ctrl ++ List.replicate 4 (retrainUnit x 1) }) ∧
        (v.getLsbD 0 = true → v.getLsbD 2 = true → x.state ≠ 0 →
          ∃ t, exec (.linkCtrlCold p v) s = .next t ∧ (t.portOf p).state = 1 ∧ (t.portOf p).trained = 0 ∧
            (t.portOf p).replay = []))))

/-- Slots and packets (R395, R396, R399, R400, R402, R406, R409, R410, R414, R416, R427, R429): a slot of an ACTIVE port sends the
waiting control message or a fill unit and then, during a replay, the held packet, else the packet of the pair served
next, which takes the next SEQ, a place in the replay buffer and a credit; in the PARAM exchange every unit is PARAM. A
packet whose CRC fails is counted and asked for again; the one expected moves E on; one ahead of it is asked for. What FEC
decoding found on a lane is counted before the packet is judged, and more than 16 uncorrectable codewords within 1 ms on a
lane of the mask ask for a retrain with cause 3. -/
def Obligations.SlotsAndPackets : Prop :=
  ∀ (s : State) (p : Port), risingFrom 0 s.ports = true →
    (let x := s.portOf p
     let recent := x.nakTimes.filter (fun t => decide (s.ns < t + 1000000))
     let nakked : CtrlMsg := { rank := rankNak, w0 := BitVec.ofNat 32 (1 + 2 ^ 8 + x.e * 2 ^ 16) }
     (s.isActive p = true → (s.pathOf 2).queue = [] → x.switching = none →
       (let unit := fun (ms : List CtrlMsg) => match ms with
          | m :: _ => Out.ctrl p m.w0 m.w1 m.w2
          | [] => Out.ctrl p 0 0 0
        (x.ctrl = [] ∨ ∃ m, x.ctrl = [m] ∧ 8 ≤ m.rank) →
          (x.replaying = none → s.slotFlow p = none → x.displaced = [] → x.nextPair = none →
            ∃ t, exec (.slotTransmit p) s = .next t ∧ { t with ports := s.ports, out := s.out } = s ∧
              t.out = s.out ++ [unit x.ctrl] ∧ (∀ q, q ≠ p.val → t.portOf q = s.portOf q) ∧
              { t.portOf p with starved := x.starved } = { x with slot := (x.slot + 1) % 4096, ctrl := [] }) ∧
          (∀ (i : Nat) (h : Held), x.replaying = some i → x.replay[i]? = some h →
            ∃ t, exec (.slotTransmit p) s = .next t ∧ { t with ports := s.ports, out := s.out } = s ∧
              t.out = s.out ++ [unit x.ctrl, .packet p (h.pkt.bytes h.seq 0)] ∧ (t.portOf p).txSeq = x.txSeq ∧
              (t.portOf p).replay = x.replay.set i { h with sent := s.ns, paid := true } ∧
              (t.portOf p).replaying = (if i + 1 < x.replay.length then some (i + 1) else none)) ∧
          (∀ (i : Nat) (k : Packet) (ks : List Packet), x.replaying = none → s.slotFlow p = none → x.displaced = [] →
            x.nextPair = some i → tget [] x.loose i = k :: ks → k.cls ≠ 0 → pairOf k.cls k.vc = i → k.from_ = none →
            x.hasRoom k = true → tfind s.grid.poison p = none → risingFrom 0 x.credits = true →
            risingFrom 0 x.loose = true → x.txSeq < 65536 →
            ∃ t, exec (.slotTransmit p) s = .next t ∧ { t with ports := s.ports, out := s.out } = s ∧
              t.out = s.out ++ [unit x.ctrl, .packet p (k.bytes x.txSeq 0)] ∧
              (t.portOf p).txSeq = (x.txSeq + 1) % 65536 ∧ (t.portOf p).lastPair = i ∧
              (t.portOf p).replay = x.replay ++ [{ seq := x.txSeq, pkt := k, sent := s.ns, paid := true }] ∧
              tget 0 (t.portOf p).credits i = tget 0 x.credits i - 1 ∧ tget [] (t.portOf p).loose i = ks))) ∧
     (s.isActive p = false → x.exchanging = true → x.param = none →
       ∃ t, exec (.slotTransmit p) s = .next t ∧ { t with ports := s.ports, out := s.out } = s ∧
         (∃ w0 w1 w2, paramUnit s p = (w0, w1, w2) ∧ t.out = s.out ++ [.ctrl p w0 w1 w2]) ∧
         t.portOf p = { x with seenSent := if 2 ≤ x.same then x.seenSent + 1 else x.seenSent }) ∧
     (∀ data : Bytes, s.isActive p = true → data.length = 16 + 16 * bitsAt data 0 4 25 20 →
       (let good := crc32c (slice data 0 12 ++ data.drop 16)
        let got := BitVec.ofNat 32 (fieldAt data 12 4)
        let d := (fieldAt data 0 2 + 65536 - x.e) % 65536
        (got ≠ good → x.nakAt = none → recent.length < 64 →
          ∃ t, exec (.packetReceive p data []) s = .next t ∧ s.onlyPort p t ∧
            (let counts := if got = good ^^^ 0x5245_4852
               then { x.counters with rehearsal := satNat 48 (x.counters.rehearsal + 1) }
               else { x.counters with crcPkt := satNat 48 (x.counters.crcPkt + 1) }
             t.portOf p = { x with
               nakAt := some s.ns, nakTimes := recent ++ [s.ns], ctrl := x.ctrl ++ [nakked]
               counters := { counts with nakSent := satNat 48 (x.counters.nakSent + 1) } })) ∧
        (got = good → 1 ≤ d → d ≤ 511 → x.nakAt = none → recent.length < 64 →
          ∃ t, exec (.packetReceive p data []) s = .next t ∧ s.onlyPort p t ∧
            t.portOf p = { x with
              nakAt := some s.ns, nakTimes := recent ++ [s.ns], ctrl := x.ctrl ++ [nakked]
              counters := { x.counters with nakSent := satNat 48 (x.counters.nakSent + 1) } }) ∧
        (got = good → 32768 ≤ d → ∃ t, exec (.packetReceive p data []) s = .next t ∧ t = s) ∧
        (got = good → d = 0 → bitsAt data 0 4 25 20 ≤ 32 → bitsAt data 0 4 31 26 = 0 → bitsAt data 0 4 18 16 = 0 →
          bitsAt data 0 4 19 19 = 0 → bitsAt data 4 4 31 31 = 0 → x.unacked < 15 →
          tfind (s.linkOf (p / 10)).flows (fieldNat (fieldAt data 4 4) 13 0) = none →
          ∃ t, exec (.packetReceive p data []) s = .next t ∧
            t.portOf p = { x with
              e := (x.e + 1) % 65536, nakAt := none, unacked := x.unacked + 1
              firstUnacked := if x.unacked = 0 then s.ns else x.firstUnacked
              counters := { x.counters with accepted := satNat 48 (x.counters.accepted + 1) } }))) ∧
     (∀ (data : Bytes) (lane : Fin 8) (syms bad : Nat) (fec : List (Fin 8 × Nat × Nat)), s.isActive p = true →
       (let ts := (tget [] x.fecTimes lane).filter (fun t => decide (s.ns < t.1 + 1000000)) ++ [(s.ns, bad)]
        let c := { x.counters with
          fecSym := tset 0 x.counters.fecSym lane (satNat 48 (tget 0 x.counters.fecSym lane + syms))
          fecBad := tset 0 x.counters.fecBad lane (satNat 48 (tget 0 x.counters.fecBad lane + bad)) }
        ∃ u, exec (.packetReceive p data ((lane, syms, bad) :: fec)) s = exec (.packetReceive p data fec) u ∧
          s.onlyPort p u ∧
          (x.rxMask.getLsbD lane = false ∨ (ts.map (·.2)).sum ≤ 16 →
            u.portOf p = { x with counters := c, fecTimes := tset [] x.fecTimes lane ts }) ∧
          (x.rxMask.getLsbD lane = true → 16 < (ts.map (·.2)).sum → x.causes = 0 →
            u.portOf p = { x with counters := c, fecTimes := tset [] x.fecTimes lane [], causes := 2 ^ 3
                                  ctrl := x.ctrl ++ List.replicate 4 (retrainUnit x 3) }))))

/-- FSEND and FRECV (R445, R447 to R449, R454): the commands issue like those of the other companions. Once its rows are read,
an FSEND of a declared plain flow within its send buffer takes the flow's next TSEQ, its rows stand in the send buffer, its
packets are ready for the flow's slots, and its record waits for the flow's destinations. FRECV_RETIRE (R449, R458): the next
FRECV of a queue, every row of which is delivered, is finished with the rows of the flow buffers, and retires in issue
order; a discarded row ends the step with PEER_DISCARDED besides. COLLECT_COMBINE (R158, R452, R453): at a hop of
a COLLECT flow, each row of a verified transfer is combined with the package's own and stored in its slice, and the record
is closed; before the last hop the sums go on as a new transfer of the next hop, at the last they are delivered, discarded
where the transfer or an own row is; the row of a transfer of one row is the sum of its sixteen W128 values. -/
def Obligations.FlowsIssueAndRetire : Prop :=
  (∀ (s : State) (v : VMove) (k : Fin 16) (n : BitVec 12) (fb : FlowOp), s.canEngine v = true → s.vtype v = 7 →
     s.discarded = false → (s.replaying && s.replay.data) = false →
     (let b := (s.mvOf (s.phys v)).beats
      let q := s.seqOf v
      let die := s.vord v
      let a := q.flowAddr fb
      let u := s.qOf (qKey v k)
      let issued := fun (c : Cmd) => (s.issuedBy v).setQ (qKey v k) { u with issued := u.issued + 1, cmds := u.cmds ++ [c] }
      die < 2 → (u.issued - u.retired).toNat ≠ (s.qDecl v k).1 →
      (∀ (src : AddrOp) (flow : BitVec 14) (f : Flow),
        (let rows := outRows (q.addr src) (n.toNat + 1) b
         let c := Instr.fsend v src flow n (.lit (BitVec.ofNat 24 a)) k
         u.reserved b ≤ (s.qDecl v k).2 → s.inExtents v (reads rows ++ flowRows die a (n.toNat + 1) b true) →
         s.flowOf die flow.toNat = some f → f.srcFirst ≤ a % 2 ^ 23 / 256 * 256 →
         a % 2 ^ 23 / 256 * 256 + 256 * (n.toNat + 1) ≤ f.srcFirst + f.size →
         s.levelShort s.plan f.dim (natOfBool f.dir) = false →
         ∃ t, exec (.fsend v src flow n fb k) s = .next t ∧
           s.leaves v (issued { op := c, pos := s.pos v, opAddr := q.opAddr, ready := false }) t [.source k c rows])) ∧
      (u.reserved b + (n.toNat + 1) ≤ (s.qDecl v k).2 → s.inExtents v (flowRows die a (n.toNat + 1) b false) →
        (∀ e ∈ s.plan.flows, s.levelShort s.plan e.2.dim (1 - natOfBool e.2.dir) = false) →
        ∃ t, exec (.frecv v n fb k) s = .next t ∧
          s.leaves v (issued { op := .frecv v n (.lit (BitVec.ofNat 24 a)) k, pos := s.pos v, opAddr := q.opAddr
                               rows := n.toNat + 1 }) t []))) ∧
  (∀ (s : State) (p : PlanPos) (v : VMove) (src : AddrOp) (flow : BitVec 14) (n : BitVec 12) (a : BitVec 24)
     (e : Fin 16) (k i : Nat) (rows : List (Nat × Nat)) (c : Cmd) (f : Flow),
     s.discarded = false → (s.replaying && s.replay.data) = false → risingFrom 0 s.links = true →
     (let die := s.vord p.vmove
      let u := s.qOf (qKey p.vmove k)
      let data := readAll s rows
      let l := s.linkOf die
      let fl := flow.toNat
      let x := tget 0 l.tseq fl
      let off := (a.toNat % 2 ^ 23 / 256 * 256 - f.srcFirst) / 256
      let t := s.does p (.source k (.fsend v src flow n (.lit a) e) rows)
      let m := t.linkOf die
      u.waiting p = some (i, c) → s.flowOf die fl = some f → risingFrom 0 l.tseq = true → Memory.wf l.fill l.buf = true →
      { t with links := s.links } = s.setQ (qKey p.vmove k) { u with
          cmds := u.cmds.set i { c with data := data, ready := true } } ∧
      (∀ d, d ≠ die → t.linkOf d = s.linkOf d) ∧
      { m with buf := l.buf, tseq := l.tseq, own := l.own, ready := l.ready, sent := l.sent } = l ∧
      tget 0 m.tseq fl = (x + 1) % 65536 ∧
      (∀ j row, data[j]? = some row → m.row (f.srcFirst + 256 * (off + j)) = padTo 256 row ∧
        tfind m.own (32768 * fl + off + j) = some (p, false)) ∧
      (∀ j, j < f.srcFirst + 256 * off ∨ f.srcFirst + 256 * (off + data.length) ≤ j →
        memByte m.fill m.buf j = memByte l.fill l.buf j) ∧
      tget [] m.ready fl = tget [] l.ready fl ++ transferPackets s die fl x 1 off false data ∧
      m.sent = l.sent ++ [{ flow := fl, tseq := x, offset := off, rows := data.length
                            waiting := s.dests f, queue := some k, pos := p }])) ∧
  (∀ (s : State) (die : Fin 2) (k : Fin 16) (r : Run) (i row n : Nat) (c : Cmd), s.run = some r →
     s.replaying = false → s.replay.data = false → risingFrom 0 s.queue = true →
     (let l := s.linkOf die
      let key := qKey (nthOfType (r.plan.moves.map (·.1)) 7 die) k
      (s.qOf key).nextRecv = some (i, c, row, n) → (s.qOf key).cmds[i]? = some c → (∀ j, j < n → row + j ∈ l.delivered) →
      (let rows := (List.range n).map fun j => memGet l.fill l.buf (256 * (row + j)) 256
       let done := (s.setQ key (retireHead (s.qOf key).cmds.length { s.qOf key with
         cmds := (s.qOf key).cmds.set i { c with done := true, result := rows, flags := 0 } })).queue
       ((∀ j, j < n → row + j ∉ l.discarded) →
         ∃ t, exec (.frecvRetire die k) s = .next t ∧ t = { s with queue := done }) ∧
       ((∃ j, j < n ∧ row + j ∈ l.discarded) →
         ∃ t r', exec (.frecvRetire die k) s = .next t ∧ t.unissued s = { s with queue := done } ∧ t.run = some r' ∧
           r'.stopped = true ∧
           (r.fault = none → ∃ f, r'.fault = some f ∧ f.code = 0x0609 ∧ f.stamp = s.chron.count))))) ∧
  (∀ (s : State) (die : Fin 2) (flow : BitVec 14) (tseq : W16) (hop : Nat) (f : Flow) (x : OpenXfer) (n : Nat),
     risingFrom 0 s.links = true →
     (let l := s.linkOf die
      let fl := flow.toNat
      tfind l.flows fl = some f → l.open_.find? (fun y => y.is fl hop tseq.toNat) = some x →
      x.verified = true → x.rows = some n → (∀ k, k < n → (tfind l.own (32768 * fl + (x.first + k))).isSome = true) →
      ∃ t, exec (.collectCombine die flow tseq hop) s = .next t ∧
        { t.unissued s with links := s.links } = s ∧
        (∀ d, d ≠ die.val → t.linkOf d = s.linkOf d) ∧
        (let m := t.linkOf die
         (∀ y ∈ m.open_, y.is x.flow x.hop x.tseq = false) ∧
         (hop < f.hops → (x.discard = true ∨ ∀ k p, k < n → tfind l.own (32768 * fl + (x.first + k)) ≠ some (p, true)) →
           m.delivered = l.delivered ∧
           m.sent = l.sent ++ [{ flow := fl, tseq := tseq.toNat, offset := x.first, rows := n, hop := hop + 1
                                 discard := x.discard, waiting := s.dests f, queue := none
                                 pos := { step := 0, beat := 0, vmove := 0, event := 0 } }] ∧
           tget [] m.ready fl = tget [] l.ready fl
             ++ transferPackets s die fl tseq.toNat (hop + 1) x.first x.discard (x.slice m f n)) ∧
         (f.hops ≤ hop →
           (∀ k, k < n → f.rowAt hop x.first / 256 + k ∈ m.delivered) ∧ (∀ j ∈ l.delivered, j ∈ m.delivered) ∧
           (x.discard = true ∨ (∃ k p, k < n ∧ tfind l.own (32768 * fl + (x.first + k)) = some (p, true)) →
             ∀ k, k < n → f.rowAt hop x.first / 256 + k ∈ m.discarded)) ∧
         (n = 1 → Memory.wf l.fill l.buf = true →
           (let a := memGet l.fill l.buf (f.rowAt hop x.first) 256
            let o := memGet l.fill l.buf (f.srcFirst + 256 * x.first) 256
            memGet l.fill m.buf (f.rowAt hop x.first) 256 = (combineRow a o).1)))))

/-- End to end at a source (R448, R455, R457): an ACK takes its sender off the transfer's destinations, and the last one
removes the record and finishes the FSEND; a REQ for a round not yet sent, and a timeout, send the next round while
rounds are left, and the transfer is given up after them. End to end at a destination (R455 to R457): a row resent in
the round under way is stored in its slice and counted; the CLOSE of a round all of whose rows are here, and whose check
holds, delivers the rows and closes the record; and a management request is answered, once applied for each (SRC, TAG)
held (R441). -/
def Obligations.EndToEnd : Prop :=
  (∀ (s : State) (die : Fin 2) (x : Sent) (f : Flow), risingFrom 0 s.links = true →
     (let l := s.linkOf die
      let most := s.fabric.most
      tfind l.flows x.flow = some f →
      (let again := fun (t : State) =>
         (x.round < most →
           t.run = s.run ∧ t.steps = s.steps ∧
           (t.linkOf die).sent = l.sent.map fun z => if z = x then { x with round := x.round + 1, closeAt := some s.ns }
                                                     else z) ∧
         (most ≤ x.round → s.gridRunning = none →
           { t.unlogged s with links := s.links } = s ∧ (t.linkOf die).sent = l.sent.filter (· ≠ x))
       (∀ (src : W16) (u : E2EUnit), E2E.die u = die.val → l.sentTo (E2E.flow u) (E2E.tseq u) src = some x →
         (E2E.ok s u 2 = true →
           (let rest := x.waiting.filter (· != src)
            (rest ≠ [] → ∃ t, exec (.e2eAck src u) s = .next t ∧ { t with links := s.links } = s ∧
              t.linkOf die = { l with sent := l.sent.map fun z => if z = x then { x with waiting := rest } else z }) ∧
            (∀ q, rest = [] → f.collect = false → x.queue = some q →
              ∃ t, exec (.e2eAck src u) s = .next t ∧ { t with links := s.links, queue := s.queue } = s ∧
                t.queue = (finishSend s die q x.pos).queue ∧ x ∉ (t.linkOf die).sent ∧
                (∀ z ∈ l.sent, z ≠ x → z ≠ { x with waiting := [] } → z ∈ (t.linkOf die).sent)))) ∧
         (E2E.ok s u 3 = true → x.round < E2E.round u → ∃ t, exec (.e2eReq src u) s = .next t ∧ again t)) ∧
       (∀ (flow : BitVec 14) (tseq : W16),
         l.sent.find? (fun z => z.flow == flow.toNat && z.tseq == tseq.toNat && !z.waiting.isEmpty
           && (match z.closeAt with | some c => decide (c + s.e2eLimit ≤ s.ns) | none => false)) = some x →
         ∃ t, exec (.e2eTimeout die flow tseq) s = .next t ∧ again t)))) ∧
  (∀ (s : State) (src : W16), risingFrom 0 s.links = true →
     (∀ (u : E2EUnit) (data : Bytes) (f : Flow) (hop : Nat) (x : OpenXfer), E2E.source u = src →
       (let die := E2E.die u
        let l := s.linkOf die
        let t := E2E.tseq u
        let o := E2E.offset u
        tfind l.flows (E2E.flow u) = some f → s.resendHop l f (E2E.flow u) t src = some hop →
        l.isVerified (E2E.flow u) hop t = false → (f.mcast || f.collect || hop == f.hops) = true →
        256 * (o + 1) ≤ f.size → l.openOf (E2E.flow u) hop t = some x → x.round = E2E.round u →
        (E2E.ok s u 4 = true → data.length = 256 → x.rows = none → Memory.wf l.fill l.buf = true →
          ∃ r, exec (.e2eData src u data) s = .next r ∧ { r with links := s.links } = s ∧
            (r.linkOf die).row (f.rowAt hop o) = data ∧
            (r.linkOf die).openOf (E2E.flow u) hop t = some { x with
              source := src, discard := x.discard || E2E.discard u, got := if o ∈ x.got then x.got else x.got ++ [o] } ∧
            (∀ a, a < f.rowAt hop o ∨ f.rowAt hop o + 256 ≤ a →
              memByte l.fill (r.linkOf die).buf a = memByte l.fill l.buf a)) ∧
        (E2E.ok s u 1 = true → data.length = 16 → f.collect = false → 0 < x.round → x.got.length = E2E.rows u →
          crc64 (x.slice l f (E2E.rows u)).flatten = BitVec.ofNat 64 (fieldAt data 0 8) →
          ∃ r, exec (.e2eData src u data) s = .next r ∧ r.run = s.run ∧ r.mv = s.mv ∧
            (∀ y ∈ (r.linkOf die).open_, y.is x.flow x.hop x.tseq = false) ∧
            (∀ k, k < E2E.rows u → f.rowAt x.hop x.first / 256 + k ∈ (r.linkOf die).delivered) ∧
            (r.linkOf die).buf = l.buf))) ∧
     (∀ (tag : W16) (data : Bytes),
       (let held := tget [] s.fabric.tags src.toNat
        (∀ e, held.find? (fun e => e.1 == tag) = some e →
          ∃ t, exec (.mgmtRequest src tag data) s = .next t ∧ t = sendLoose s 1 src tag e.2 ∧ t.fabric = s.fabric) ∧
        (held.find? (fun e => e.1 == tag) = none →
          ∃ t b, exec (.mgmtRequest src tag data) s = .next t ∧ t.free = s.free + 1 ∧
            tget [] t.fabric.tags src.toNat = ((tag, b) :: held).take 256 ∧ { t.fabric with tags := s.fabric.tags } = s.fabric))))

/-- Fences and aborts (R468 to R471, R474, R477): at the fence limit the running grid step is ended by a global stop
with detail 0x1402 and its ABORT remembered and flooded, and an armed chained one is completed unlaunched with it; an
ABORT received for this epoch, not seen before, is remembered and flooded, and ends the running step of its GSEQ with
0x1404, 0x1414 for a rehearsal. -/
def Obligations.FencesAndAborts : Prop :=
  ∀ s : State, risingFrom 0 s.ports = true → s.stop.state ≠ 2 →
    (let ends := fun (t : State) (r : Run) (detail : Nat) =>
       t.stop.ending = true ∧ t.stop.state = 1 ∧ t.run = some { r with abort := r.abort.or (some detail) } ∧
         (s.stop.state = 0 → t.stop.causes = 2 ∧ t.stop.beat = s.floor1 + 15)
     (∀ (g : Nat) (r : Run), s.gridRunning = some g → s.run = some r → s.fencePast = true → s.stop.ending = false →
       s.stop.state ≤ 1 →
       ∃ t, exec .fenceLimit s = .next t ∧
         { t.unlogged s with ports := s.ports, grid := { t.grid with aborts := s.grid.aborts, faulted := s.grid.faulted }
                             stop := s.stop, run := s.run } = s ∧
         t.grid.aborts = s.grid.aborts ++ [(g, false)] ∧ ends t r 0x1402 ∧
         (s.grid.memberEn = true →
           s.flooded s.gridPorts { rank := rankMember, w0 := memberW0 s 3, w1 := BitVec.ofNat 32 g
                                   w2 := BitVec.ofNat 32 (1 + s.fabric.place.toNat * 2 ^ 16) } t)) ∧
     (∀ (r : StepReq) (a : Acc), s.run = none → s.armedChained = some r → s.fencePast = true →
       tfind s.intake.acc r.acc = some a → a.mute = false → (s.fnOf a.fn).inReset = false →
       (s.cqOf a.fn a.cq).stopped = false →
       ∃ t, exec .fenceLimit s = .next t ∧ t.steps = s.steps.filter (fun x => x.acc != r.acc) ∧
         t.grid.aborts = s.grid.aborts ++ [(r.gseq.getD 0, false)] ∧ Completes s t r.acc a 0x14 0x1402 {}) ∧
     (∀ (p : Port) (u : CtrlUnit), goodUnit u 0xA 0xFFFF_FFFF 0xFFFF_FFFF 0xFFFF_001F → bitsOf u.w0 7 4 = 3 →
       s.isActive p = true → s.grid.memberEn = true → bitsOf u.w0 31 16 = s.grid.grid →
       bitsOf u.w0 15 8 = s.grid.epoch % 256 → (∀ x ∈ s.grid.aborts, x.1 ≠ u.w1.toNat) →
       (let g := u.w1.toNat
        let reh := u.w2.getLsbD 4
        ∃ t, exec (.abort p u) s = .next t ∧ t.grid.aborts = s.grid.aborts ++ [(g, reh)] ∧
          s.flooded s.gridPorts { rank := rankMember, w0 := u.w0, w1 := u.w1, w2 := u.w2 } t ∧
          (s.gridRunning ≠ some g → (∀ r ∈ s.steps, r.gseq ≠ some g) →
            { t with ports := s.ports, grid := { t.grid with aborts := s.grid.aborts } } = s) ∧
          (∀ r, s.gridRunning = some g → s.run = some r → s.stop.ending = false → s.stop.state ≤ 1 →
            ends t r (if reh then 0x1414 else 0x1404)))))

/-- Membership of a package that takes part (R463, R465, R472 to R475): an item named by a MEMBER unit of the next
epoch, or by a DYING_GASP, that is not held yet is taken in, opening GATHER; one of another epoch is dropped and
counted; 800 µs after T0 the set is fixed and its SEAL flooded; a SEAL that differs from the own one splits; 1,600 µs
after T0 the epoch advances, the set joins the vacancy list and the package holds. -/
def Obligations.MembershipAgrees : Prop :=
  ∀ s : State, risingFrom 0 s.ports = true → s.grid.memberEn = true →
    (let g := s.grid
     let taken := fun (it : Item) (t : State) =>
       { t with ports := s.ports, grid := s.grid } = s ∧ it ∈ t.grid.items ∧ (∀ i ∈ g.items, i ∈ t.grid.items) ∧
         (g.state = 0 ∨ g.state = 3 → t.grid.state = 1) ∧ t.grid.epoch = g.epoch ∧ t.grid.vacancy = g.vacancy
     (∀ (p : Port) (u : CtrlUnit), s.isActive p = true →
       (goodUnit u 9 0xFFFF_00FF 0xFFFF_0000 0xFFFF_FFFF → bitsOf u.w1 31 16 = g.grid →
         (∀ i ∈ g.items, i.key ≠ bitsOf u.w0 31 16) →
         ∃ t, exec (.dyingGasp p u) s = .next t ∧
           taken { key := bitsOf u.w0 31 16, rehearsal := decide (bitsOf u.w0 7 4 = 5), stamp := u.w2.toNat } t) ∧
       (goodUnit u 0xA 0xFFFF_FFFF 0x007F_FFFF 0xFFFF_FFFF → bitsOf u.w0 7 4 = 1 → bitsOf u.w0 31 16 = g.grid →
         (bitsOf u.w0 15 8 = (g.epoch + 1) % 256 → (∀ i ∈ g.items, i.key ≠ bitsOf u.w1 21 0) →
           ∃ t, exec (.memberItem p u) s = .next t ∧
             taken { key := bitsOf u.w1 21 0, rehearsal := u.w1.getLsbD 22, stamp := u.w2.toNat } t) ∧
         (bitsOf u.w0 15 8 ≠ (g.epoch + 1) % 256 →
           ∃ t, exec (.memberItem p u) s = .next t ∧
             t = { s with grid := { g with itemsDropped := g.itemsDropped + 1 } })) ∧
       (goodUnit u 0xA 0xFFFF_FFFF 0xFFFF_FFFF 0x0000_FFFF → bitsOf u.w0 7 4 = 2 → bitsOf u.w0 31 16 = g.grid →
         bitsOf u.w0 15 8 = (g.epoch + 1) % 256 → (bitsOf u.w2 15 0, u.w1) ∉ g.seals →
         ∃ t, exec (.seal p u) s = .next t ∧
           { t.unlogged s with ports := s.ports, grid := s.grid } = s ∧
           s.flooded s.gridPorts { rank := rankMember, w0 := u.w0, w1 := u.w1, w2 := u.w2 } t ∧
           t.grid.seals = g.seals ++ [(bitsOf u.w2 15 0, u.w1)] ∧
           t.grid.state =
             if g.state = 2 ∧ g.ownSeal ≠ some (bitsOf u.w2 15 0, u.w1) then 4 else g.state)) ∧
     (g.state = 1 → s.pastT0 800000 = true →
       (let keys := g.chosen.map (·.key)
        let own := (keys.length, crc32c (keys.flatMap (leBytes 4)))
        ∃ t, exec .gatherEnd s = .next t ∧ { t.unlogged s with ports := s.ports, grid := s.grid } = s ∧
          t.grid.set = keys ∧ t.grid.ownSeal = some own ∧ t.grid.seals = g.seals ++ [own] ∧ t.grid.items = g.items ∧
          s.flooded s.gridPorts
            { rank := rankMember, w0 := memberNext s 2, w1 := own.2, w2 := BitVec.ofNat 32 own.1 } t ∧
          ((∀ x ∈ g.seals, x = own) → t.grid.state = 2) ∧ ((∃ x ∈ g.seals, x ≠ own) → t.grid.state = 4))) ∧
     (g.state = 2 → s.pastT0 1600000 = true → s.gridWaiting = [] →
       (let set := g.items.filter (fun i => i.key ∈ g.set)
        ∃ t, exec .memberCommit s = .next t ∧ t.grid.epoch = (g.epoch + 1) % 2 ^ 32 ∧
          t.grid.vacancy = set.foldl vacate g.vacancy ∧ (∀ i, i ∈ t.grid.items ↔ i ∈ g.items ∧ i.key ∉ g.set) ∧
          t.grid.set = [] ∧ t.grid.ownSeal = none ∧ t.grid.seals = [] ∧
          (t.grid.state = 3 ↔ ∀ i ∈ g.items, i.key ∈ g.set) ∧ t.intake = s.intake ∧ t.steps = s.steps ∧
          (s.gridRunning = none → { t.unlogged s with grid := s.grid } = s) ∧
          (∀ r, s.gridRunning.isSome = true → s.run = some r → s.stop.ending = false →
            t.stop.ending = true ∧ t.run = some { r with
              abort := r.abort.or (some (if set.all (·.rehearsal) then 0x1411 else 0x1401)) }))))

/-- Levels, halves and the grid's own commands (R465, R474, R478, R483, R484): a LEVEL or a HALF_OUT that is new is
stored and flooded; RESUME of the epoch lets a held package run, its GSEQ from 0; WITHDRAW sends a DYING_GASP of cause 4
and takes the package out of the membership. Twin mode (R480 to R483): the partner's packet waits for the own one of its
GSEQ, and when both are here they are compared: equal digests pass, different ones at equal levels put out the half
whose step was faulted (where both were or neither was, the secondary); with none for TWIN_TIMEOUT, or its port lost,
the package runs alone. -/
def Obligations.LevelsAndTwins : Prop :=
  (∀ s : State, risingFrom 0 s.ports = true →
     (let g := s.grid
      (∀ (p : Port) (u : CtrlUnit), s.isActive p = true → g.memberEn = true → bitsOf u.w0 31 16 = g.grid →
        (let m : CtrlMsg := { rank := rankMember, w0 := u.w0, w1 := u.w1, w2 := u.w2 }
         (goodUnit u 0xA 0xFFFF_FFFF 0x00FF_FFFF 0xFFFF_FFFF → bitsOf u.w0 7 4 = 4 → risingFrom 0 g.levels = true →
           tget 0 g.levels (bitsOf u.w1 15 0) ≠ bitsOf u.w1 23 16 →
           ∃ t, exec (.memberLevel p u) s = .next t ∧ { t with ports := s.ports, grid := s.grid } = s ∧
             { t.grid with levels := g.levels } = g ∧ s.flooded s.gridPorts m t ∧
             ∀ a, tget 0 t.grid.levels a = if a = bitsOf u.w1 15 0 then bitsOf u.w1 23 16 else tget 0 g.levels a) ∧
         (goodUnit u 0xA 0xFFFF_FFFF 0xFFFF_FFFF 0xFFFF_0000 → bitsOf u.w0 7 4 = 5 → u.w1.toNat ∉ g.halfOuts →
           ∃ t, exec (.halfOut p u) s = .next t ∧ { t with ports := s.ports, grid := s.grid } = s ∧
             t.grid = { g with halfOuts := g.halfOuts ++ [u.w1.toNat], twinState := 2 } ∧ s.flooded s.gridPorts m t))) ∧
      (∀ e : W32, g.state = 3 → e.toNat = g.epoch →
        ∃ t, exec (.gridResume e) s = .next t ∧
          t = { s with grid := { g with state := 0, gseq := 0, aborts := [], halfOuts := [], seals := []
                                        t0Floor := none } }) ∧
      (∃ t, exec .gridWithdraw s = .next t ∧ { t with ports := s.ports } = { s with grid := { g with memberEn := false } } ∧
        s.flooded (List.range 20)
          { rank := rankGasp, w0 := BitVec.ofNat 32 (9 + 4 * 2 ^ 4 + s.fabric.place.toNat * 2 ^ 16)
            w1 := BitVec.ofNat 32 (g.grid * 2 ^ 16), w2 := BitVec.ofNat 32 (s.chron.count % 2 ^ 32) } t))) ∧
  (∀ s : State, risingFrom 0 s.ports = true → s.twinOn = true →
     (let g := s.grid
      (∀ data : Bytes, data.length = 32 →
        (let k : TwinPkt := { gseq := fieldAt data 0 4, epoch := fieldAt data 4 4, level := fieldAt data 8 1
                              faulted := bitsAt data 8 4 8 8 == 1, digest := slice data 16 16 }
         ∃ t, exec (.twinPacket data) s = .next t ∧
           ((∀ o ∈ g.ownTwin, ∀ x ∈ g.peerTwin ++ [k], o.2.gseq ≠ x.gseq) →
             t = { s with grid := { g with peerTwin := g.peerTwin ++ [k] } }) ∧
           (∀ o, g.ownTwin = [o] → g.peerTwin = [] → o.2.gseq = k.gseq →
             t.grid.ownTwin = [] ∧ t.grid.peerTwin = [] ∧ { t.unlogged s with ports := s.ports, grid := s.grid } = s ∧
             t.grid.twinState =
               if o.2.digest ≠ k.digest ∧ o.2.level = k.level
                 ∧ (if o.2.faulted = k.faulted then g.twin = 2 else o.2.faulted = true) then 2 else g.twinState))) ∧
      (g.twinState = 0 → s.stop.state ≠ 2 →
        ((∃ o ∈ g.ownTwin, o.1 + max 1 g.twinTimeout * 10000 ≤ s.ns) ∨ s.isActive g.twinPort = false) →
        ∃ t, exec .twinTimeout s = .next t ∧ t.unlogged s = { s with grid := { g with twinState := 1 } })))

/-- Fault rehearsal (R486, R487): an injection in range is taken and completed; a LINK_DROP takes its port down for
PARAM µs, after which it trains again; a POISON spoils the port's next packets; a VACANCY floods its item; an AUDIT has
its pane resolved and tested. -/
def Obligations.RehearsalsCarriedOut : Prop :=
  ∀ s : State, risingFrom 0 s.ports = true →
    (let g := s.grid
     (∀ (acc : Nat) (a : Acc), s.serves acc 0x28 a → g.injectEn = true →
       (let kind := a.bits 8 4 3 0
        let port := a.bits 8 4 8 4
        let reh := a.fld 0xC 4
        let param := a.fld 0x10 4
        1 ≤ kind → kind ≤ 4 → reh ≠ 0 → injectOk s kind port param = true → s.injectable ≠ 0 →
        ∃ t, exec (.faultInject acc) s = .next t ∧ Completes s t acc a 0 0 { r0 := s.chron.count } ∧
          { (t.uncompleted s).unlogged s with grid := s.grid } = s ∧
          { t.grid with faulted := g.faulted } = { g with injections := s.injectable - 1, lastInject := s.ns
                                                          inject := g.inject ++ [(kind, port, reh, param)] })) ∧
     (∀ p reh us, s.injection 1 = some (p, reh, us) →
       ∃ t, exec .linkDrop s = .next t ∧ (t.portOf p).state = 0 ∧ (t.portOf p).dropUntil = some (s.ns + us * 1000) ∧
         t.grid.inject = g.inject.eraseP (fun i => i.1 == 1)) ∧
     (∀ (p : Port) (c : Nat), (s.portOf p).dropUntil = some c → c ≤ s.ns →
       ∃ t, exec (.linkDropEnd p) s = .next t ∧ s.onlyPort p t ∧
         t.portOf p = { s.portOf p with dropUntil := none, state := if (s.portOf p).enable then 1 else 0
                                        progress := s.ns }) ∧
     (∀ p reh n, s.injection 2 = some (p, reh, n) →
       ∃ t, exec .poison s = .next t ∧ { t with grid := s.grid } = s ∧
         { t.grid with poison := g.poison } = { g with inject := g.inject.eraseP (fun i => i.1 == 2) } ∧
         tget (0, 0) t.grid.poison p = ((tget (0, 0) g.poison p).1 + n, reh)) ∧
     (∀ p reh key, s.injection 3 = some (p, reh, key) → g.memberEn = true → (∀ i ∈ g.items, i.key ≠ key) →
       ∃ t, exec .vacancy s = .next t ∧ { t with ports := s.ports, grid := s.grid } = s ∧
         ({ key := key, rehearsal := true, stamp := s.chron.count % 2 ^ 32 } : Item) ∈ t.grid.items ∧
         t.grid.inject = g.inject.eraseP (fun i => i.1 == 3)) ∧
     (∀ p reh x, s.injection 4 = some (p, reh, x) → risingFrom 0 s.aw = true →
       ∃ t, exec .audit s = .next t ∧ { t.unlogged s with aw := s.aw, grid := s.grid } = s ∧
         t.grid.inject = g.inject.eraseP (fun i => i.1 == 4) ∧
         (let d := fieldNat x 18 17
          (s.awOf d).paneOf (fieldNat x 16 0) ∈ (t.awOf d).resolveAll ∧ ∀ e, e ≠ d → t.awOf e = s.awOf e)))

/-- A balance period of a movement (R37, R39, R45, R51, R530, R531): none is missed, whatever it brings. With no step, or past
the last plan beat, it is counted and nothing else (log 131); withheld by the regulator, past the horizon, or waiting for a
token, it is a stall; at an explicit wait that is not met it is a wait and one beat of slip at its site; with every input token
here, room on every output and no op due, the movement issues its plan beat, taking the tokens and emitting its own. What has
befallen an array's storage befalls it before. The pattern that withholds issues m of every 16 periods. Supply, silence and the
regulator (R35, R36, R42, R49 to R54): a droop sets the balance's rate, with its margin, and raises BEAT_FLOOR below 0.90 GHz;
a channel silent too long ends the step with a device fault at its sender; an estimate enters the 10 ms window, and the rate
level falls where a limit is exceeded and it can; where none is, it does not fall but ahead of a reported wake or sleep, and
stays while the ramp limit is used up. How far it moves is free (log 88). -/
def Obligations.BalancePeriodsAndSupply : Prop :=
  ((∀ m, m ≤ 16 → ((List.range 16).filter (edgeIssues m)).length = m) ∧
   ∀ (s : State) (n : Mv), risingFrom 0 s.mv = true →
     (let m := s.mvOf n
      let v := s.virt n
      let b := m.beats
      let q := s.seqOf v
      let counted := { m with periods := m.periods + 1 }
      let undrained := n.val ≠ cMove ∨ ∀ e ∈ s.trace.bufs, e.2.ents = []
      (∀ us, exec (.planBeatIssue n us) s
        = exec (.planBeatIssue n []) (if typeOf n = 1 then us.foldl (upset n) s else s)) ∧
      ((∀ r, s.run = some r → r.stopped = true ∨ s.passed n = true) → undrained →
        ∃ t, exec (.planBeatIssue n []) s = .next t ∧ t = s.setMv n counted) ∧
      (∀ r, s.run = some r → r.stopped = false → s.passed n = false → undrained → v < 64 →
        (edgeIssues s.power.issue16 (m.periods % 16) = false →
          ∃ t, exec (.planBeatIssue n []) s = .next t ∧ { t with mv := s.mv } = s ∧
            t.mvOf n = { counted with stalls := m.stalls + 1 }) ∧
        (edgeIssues s.power.issue16 (m.periods % 16) = true →
          (q.hold = none → s.emptyBeat v = false →
            (s.started n b = false ∨ s.mayIssue b = false ∨ s.outputsFree n = false ∨ s.inputs n b = .waiting) →
            s.inputs n b ≠ .badTag →
            ∃ t, exec (.planBeatIssue n []) s = .next t ∧ { t with mv := s.mv } = s ∧
              t.mvOf n = { counted with stalls := m.stalls + 1 }) ∧
          (∀ h, q.hold = some h → holdMet s v h = false → s.emptyBeat v = false → risingFrom 0 s.seq = true →
            ∃ t, exec (.planBeatIssue n []) s = .next t ∧ { t with mv := s.mv, seq := s.seq, run := s.run } = s ∧
              t.mvOf n = { counted with waits := m.waits + 1 } ∧
              t.seqOf v = { q with hold := some { h with slip := h.slip + 1 } } ∧
              t.run = some { r with slip := tset 0 r.slip h.site (satNat 32 (tget 0 r.slip h.site + 1))
                                    peer := if s.vtype v = 7 then satNat 32 (r.peer + 1) else r.peer }) ∧
          (q.hold = none → s.emptyBeat v = false → s.started n b = true → s.mayIssue b = true → s.outputsFree n = true →
            s.inputs n b = .ready → b % 256 ≠ 0 → q.ended.isSome = true → q.starved = false → risingFrom 0 s.chan = true →
            ∃ t, exec (.planBeatIssue n []) s = .next t ∧ (t.mvOf n).beats = b + 1 ∧ (t.mvOf n).periods = m.periods + 1 ∧
              (∀ u ∈ gridNeighbours n, t.chanOf u n = if (s.mvOf u).beats ≤ b then s.chanOf u n else (s.chanOf u n).tail) ∧
              (∀ u ∈ gridNeighbours n, t.chanOf n u =
                if b < (s.mvOf u).beats then s.chanOf n u
                else s.chanOf n u ++ [{ tag := BitVec.ofNat 6 b, data := none }])))))) ∧
  (∀ s : State,
     (∀ (n : Mv) (replica : Nat), risingFrom 0 s.mv = true →
       (let rate := 100 * replica / (100 + s.tbl.balanceMarginPct)
        ∃ t, exec (.supplyDroop n replica) s = .next t ∧ { t.unlogged s with mv := s.mv } = s ∧
          t.mvOf n = { s.mvOf n with rate := rate } ∧ (∀ k, k ≠ n.val → t.mvOf k = s.mvOf k) ∧
          (90000 ≤ rate → { t with mv := s.mv } = s) ∧ (rate < 90000 → (tfind t.latch 0).isSome = true))) ∧
     (∀ (n sender : Mv) (r : Run), s.run = some r → r.fault = none → s.silent sender n = true →
       ∃ t, exec (.balanceStop n sender) s = .next t ∧ t.unissued s = s ∧
         t.run = some { r with stopped := true
                               fault := some { loc := cdLoc sender 0x014, code := 0x0104, stamp := s.chron.count } }) ∧
     (∀ r : PowerReading, r.overRail = none → 1 ≤ s.power.rateLevel → s.power.rateLevel ≤ 160 →
       s.power.ceiling ≤ 288 → s.power.lowest = false →
       (let p := { s.power with window := pushWindow s.power.window r.packageMw
                                deltas := pushDelta s.power.deltas r.deltaMa
                                excursionNs := if 1000 * s.power.effLimit < r.packageMw then s.power.excursionNs + 20
                                               else 0 }
        let exceeded := p.limitExceeded s.tbl.reg r
        ∃ t, exec (.regulatorEstimate r) s = .next t ∧
          { t.unissued s with power := s.power, free := s.free } = s ∧ t.power.window = p.window ∧
          t.power.deltas = p.deltas ∧ t.power.excursionNs = p.excursionNs ∧ t.power.thermal = s.power.thermal ∧
          (exceeded = true → 1 < s.power.rateLevel → t.power.rateLevel < s.power.rateLevel) ∧
          (exceeded = false → s.wakeDue = false → s.power.rateLevel ≤ t.power.rateLevel) ∧
          (exceeded = false → s.wakeDue = true → t.power.rateLevel ≤ s.power.rateLevel) ∧
          (exceeded = false → s.wakeDue = false → 1000 * s.tbl.reg.rampAPerUs ≤ p.ramp →
            t.power.rateLevel = s.power.rateLevel) ∧
          (t.power.unheld = true ↔ exceeded = true ∧ s.power.rateLevel = 1))))

/-- The later work of issued ops (R43, R103, R186, R199, R215, R218): settling a beat does the parts that lie at it and no
other; what lies later is left as it stands, each op's next part strictly after it; and once the beats below `b` are settled no
work of a beat below `b` is left. So every row is read at its own beat, once, in the order of the beats. -/
def Obligations.WorkSettlesAtItsBeats : Prop :=
  ∀ s : State, s.run.isSome = true →
    (∀ b, (∀ f ∈ s.flights, b ≤ f.due ∧ f.left = true) →
      (let t := settleBeat s b
       t.settled = b + 1 ∧ (∀ f ∈ t.flights, b + 1 ≤ f.due ∧ f.left = true) ∧
       (∀ f ∈ s.flights, b < f.due → f ∈ t.flights) ∧
       (∀ g ∈ t.flights, g ∈ s.flights ∨ ∃ f ∈ s.flights, f.due = b ∧ g.work = f.work ∧ g.pos = f.pos ∧ g.next = f.next + 1) ∧
       ((∀ f ∈ s.flights, b < f.due) → t.flights = s.flights))) ∧
    (∀ b, s.settled ≤ b → (∀ f ∈ s.flights, s.settled ≤ f.due ∧ f.left = true) →
      (let t := settleTo s b
       t.settled = b ∧ ∀ f ∈ t.flights, b ≤ f.due ∧ f.left = true))

/-- Instruction fetch (R98 to R100, R294): with room for a block, a sequencer requests the next 32 words of the running
step's stream, or of the next step's; the oldest request's words join its queue, its units being read through their stacks'
decoders, whatever has befallen them before. -/
def Obligations.InstructionFetch : Prop :=
  ∀ (s : State) (n : Mv), risingFrom 0 s.seq = true →
    (let v := s.virt n
     let q := s.seqOf v
     (s.run.isSome = true → q.roomy = true → q.fetchNext < (s.code v).length →
       ∃ t, exec (.fetchRequest n) s = .next t ∧ { t with seq := s.seq } = s ∧
         t.seqOf v = { q with fetching := q.fetching ++ [q.fetchNext], fetchNext := q.fetchNext + 32 }) ∧
     (∀ p, s.run = none → q.roomy = true → s.nextPlan = some p → q.fetchNext2 < (p.codeOf v).length →
       ∃ t, exec (.fetchRequest n) s = .next t ∧ { t with seq := s.seq } = s ∧
         t.seqOf v = { q with fetching2 := q.fetching2 ++ [q.fetchNext2], fetchNext2 := q.fetchNext2 + 32 }) ∧
     (∀ us, q.fetching ≠ [] ∨ q.fetching2 ≠ [] → exec (.fetchArrival n us) s = exec (.fetchArrival n []) (upsetUnits us s)) ∧
     (∀ i is, q.fetching = i :: is → s.sound (s.arriving v) →
       ∃ t, exec (.fetchArrival n []) s = .next t ∧ { t with seq := s.seq } = s ∧
         (t.seqOf v).fetching = is ∧ { t.seqOf v with fetching := q.fetching, iq := q.iq } = q ∧
         (t.seqOf v).iq = (q.iq ++ blockWords (s.code v) i).filter (fun e => decide (q.keepFrom ≤ e.1))) ∧
     (∀ i is p, q.fetching = [] → q.fetching2 = i :: is → s.nextPlan = some p → s.sound (s.arriving v) →
       ∃ t, exec (.fetchArrival n []) s = .next t ∧ { t with seq := s.seq } = s ∧
         t.seqOf v = { q with fetching2 := is, iqNext := q.iqNext ++ blockWords (p.codeOf v) i }))

/-- Arming (R443, R464, R469, R485): with no step running, the step that is to launch next is armed: its flows stand at
the link dies with nothing sent, delivered or open, and a plan with flows takes the next colour; a grid step takes the
next GSEQ, its peers' levels being met and no abort of it remembered. Launch (R64, R65, R72, R130, R467): an armed step
whose turn it is, the records of its streams sound, launches, a chained one when its trigger has come: it takes the next step number, latches the movement
map, and every movement stands at plan beat 0 with empty queues and channels; a step with a launch count issues plan
beat 0 of the C movement, which is stamped, once the count is there. STEP_COMPLETE (R75, R357 to R359, R363): a step at
its end leaves no step running and empty queues and channels; its descriptor is completed with its number, its slip and
its flags, and its report of 512 bytes, which begins with the number, is written. -/
def Obligations.StepsArmLaunchComplete : Prop :=
  (∀ (s : State) (r : StepReq) (rs : List StepReq) (p : Plan), s.steps = r :: rs → s.nextPlan = some p → s.run = none →
     s.fabric.armed ≠ some r.acc → (s.tableOf tblDim).pending = false → (s.tableOf tblPort).pending = false →
     risingFrom 0 s.links = true →
     (let armed := fun (t : State) =>
        t.fabric.armed = some r.acc ∧ t.run = none ∧
          t.fabric.colour = (if p.flows.isEmpty then s.fabric.colour else (s.fabric.colour + 1) % 4) ∧
          (∀ d, d < 2 →
            (let l := t.linkOf d
             l.delivered = [] ∧ l.discarded = [] ∧ l.open_ = [] ∧ l.sent = [] ∧ l.ready = [] ∧ l.tseq = [] ∧
             l.buf = (s.linkOf d).buf ∧
             l.flows = (p.flows.filter (fun e => e.1 / 16384 == d)).map (fun e => (e.1 % 16384, e.2))))
      (p.gridSize ≤ 1 →
        ∃ t, exec .stepArm s = .next t ∧ armed t ∧ t.steps = s.steps ∧
          { t with links := s.links, ports := s.ports, fabric := s.fabric } = s) ∧
      (1 < p.gridSize → s.fenced = false → (∀ a ∈ s.grid.aborts, a.1 ≠ s.grid.gseq) → s.mapInvalid p = false →
        s.levelsMet p = true →
        ∃ t, exec .stepArm s = .next t ∧ armed t ∧ t.grid.gseq = (s.grid.gseq + 1) % 2 ^ 32 ∧ t.grid.fenceAt = s.ns ∧
          t.steps = s.steps.map (fun x => if x.acc = r.acc then { x with gseq := some s.grid.gseq } else x)))) ∧
  (∀ s : State, risingFrom 0 s.mv = true →
     (∀ (r : StepReq) (rs : List StepReq) (p : Plan) (m : List Nat), s.steps = r :: rs → s.nextPlan = some p →
       s.launchable r = true → s.latchMap p.moves = some m → s.sound (r.streams.map recordUnit) →
       (let launched := fun (t : State) =>
          (∃ x, t.run = some x ∧ x.number = s.tenancy.stepNumber ∧ x.plan = p ∧ x.map = m ∧
            x.req = { r with ready := s.chron.count } ∧ x.flags = 0 ∧ x.breaches = [] ∧ x.begin_ = none ∧
            x.gseq = r.gseq) ∧
          t.tenancy.stepNumber = s.tenancy.stepNumber + 1 ∧ t.steps = s.steps.filter (fun x => x.acc != r.acc) ∧
          t.queue = [] ∧ t.chan = [] ∧ (∀ n : Mv, (t.mvOf n).beats = 0) ∧ t.fabric = s.fabric ∧ t.out = s.out ∧
          t.intake = s.intake ∧ t.ports = s.ports ∧ t.links = s.links ∧ t.stack = s.stack ∧ t.streams = s.streams
        (r.start ≠ 2 → ∃ t, exec .stepLaunch s = .next t ∧ launched t) ∧
        (r.start = 2 → r.triggered = true → s.mapInvalid p = false → ∃ t, exec .chainedLaunch s = .next t ∧ launched t))) ∧
     (∀ r : Run, s.run = some r → r.stopped = false → r.req.start = 1 → r.req.launch ≤ s.chron.count →
       (s.mvOf cMove).beats = 0 → s.virt cMove < 64 → s.passed cMove = false → 16 ≤ s.power.issue16 →
       s.emptyBeat (s.virt cMove) = false → (s.seqOf (s.virt cMove)).hold = none →
       (s.seqOf (s.virt cMove)).opened = false → (s.seqOf (s.virt cMove)).starved = false →
       (s.seqOf (s.virt cMove)).ended.isSome = true → s.mayIssue 0 = true →
       s.outputsFree cMove = true → (∀ u ∈ gridNeighbours cMove, (s.mvOf u).beats = 0) →
       ∃ t r', exec .timedLaunch s = .next t ∧ (t.mvOf cMove).beats = 1 ∧ t.run = some r' ∧
         r'.begin_ = some s.chron.count ∧
         r'.lateness = (if r.req.launch < r.req.ready then s.chron.count - r.req.launch else 0))) ∧
  (∀ (s : State) (r : Run) (a : Acc), s.run = some r → s.stepOver r = true → r.discarded = false →
     tfind s.intake.acc r.req.acc = some a → a.fn = r.req.fn → a.mute = false → (s.fnOf a.fn).inReset = false →
     (s.cqOf a.fn a.cq).stopped = false →
     (let e := s.ending r
      ∃ t, exec .stepComplete s = .next t ∧ t.run = none ∧ t.queue = [] ∧ t.chan = [] ∧ t.fabric.armed = none ∧
        Completes s t r.req.acc a e.status e.detail
          { r0 := r.number, r1 := satNat 32 (r.slip.map (·.2)).sum, r2 := r.topSite.1
            r3 := if e.status = 0x04 then r.poolHandle.getD 0 else satNat 32 r.lateness
            flags := r.flags, sflags := r.sflagsOut } ∧
        (∃ b : Bytes, Out.dma r.req.fn r.req.pasid r.req.report b false ∈ t.out ∧ b.length = 512 ∧
          fieldAt b 0 8 = r.number % 2 ^ 64) ∧
        t.steps = s.steps ∧ t.slots = s.slots ∧ (s.stop.ending = true → t.stop.state = 0 ∧ t.stop.ending = false)))

/-- Plans (R115, R126, R127, R132, R133): an image that fails a check is refused with that check's detail and nothing
else happens; one that passes takes its slot, loading; at its end the slot holds the plan and the load is completed with
the first 8 bytes of its digest; an unload of a resident plan waits for its steps, and its slot is then empty; one of a
slot still loading is BUSY, and of an empty one NOT_RESIDENT. -/
def Obligations.PlansLoadAndUnload : Prop :=
  ∀ s : State, risingFrom 0 s.slots = true →
    (∀ (acc : Nat) (a : Acc) (b : Bytes), s.serves acc 0x02 a →
      (let slot := a.bits 8 4 5 0
       let p := parsePlan b
       let c := planCheck s b (a.fld 0x18 8) slot
       (c ≠ 0 → ∃ t, exec (.planLoad acc (.ok b)) s = .next t ∧ Completes s t acc a (c / 256) c {} ∧
         t.uncompleted s = s) ∧
       (c = 0 → s.retiring (planDomains p) = false →
         ∃ t q, exec (.planLoad acc (.ok b)) s = .next t ∧ t.slotOf slot = .loading acc q ∧ q.code = p.code ∧
           q.digest = p.digest ∧ q.gridSize = p.gridSize ∧ (∀ k, k ≠ slot → t.slotOf k = s.slotOf k) ∧
           tfind t.intake.acc acc = some { a with begun := true } ∧ t.run = s.run ∧ t.mv = s.mv ∧ t.out = s.out ∧
           t.fns = s.fns ∧ t.sets = s.sets))) ∧
    (∀ (slot : Fin 64) (acc : Nat) (p : Plan) (a : Acc), s.slotOf slot = .loading acc p →
      tfind s.intake.acc acc = some a → a.mute = false → (s.fnOf a.fn).inReset = false →
      (s.cqOf a.fn a.cq).stopped = false → s.replaying = false →
      ∃ t, exec (.planLoadDone slot) s = .next t ∧ t.slotOf slot = .resident { p with data := [] } ∧
        (∀ k, k ≠ slot.val → t.slotOf k = s.slotOf k) ∧ Completes s t acc a 0 0 { r0 := leNat (p.digest.take 8) } ∧
        { t.uncompleted s with slots := s.slots, stack := s.stack } = s) ∧
    (∀ (acc : Nat) (a : Acc), s.serves acc 0x03 a →
      (let slot := a.bits 8 4 5 0
       (∀ p, s.slotOf slot = .resident p →
         ∃ t, exec (.planUnload acc) s = .next t ∧ t.slotOf slot = .unloading acc p ∧
           tfind t.intake.acc acc = some { a with begun := true } ∧
           { t with slots := s.slots, intake := s.intake } = s) ∧
       ((∃ b p, s.slotOf slot = .loading b p) →
         ∃ t, exec (.planUnload acc) s = .next t ∧ Completes s t acc a 0x07 0x0701 {} ∧ t.uncompleted s = s) ∧
       (s.slotOf slot = .empty →
         ∃ t, exec (.planUnload acc) s = .next t ∧ Completes s t acc a 0x06 0x0601 {} ∧ t.uncompleted s = s))) ∧
    (∀ (slot : Fin 64) (acc : Nat) (p : Plan) (a : Acc), s.slotOf slot = .unloading acc p → s.stepsBefore acc slot = false →
      tfind s.intake.acc acc = some a → a.mute = false → (s.fnOf a.fn).inReset = false →
      (s.cqOf a.fn a.cq).stopped = false →
      ∃ t, exec (.planUnloadDone slot) s = .next t ∧ t.slotOf slot = .empty ∧ Completes s t acc a 0 0 {} ∧
        t.cad.emptied = s.cad.emptied ++ s.entriesNaming slot ∧ t.run = s.run ∧ t.sets = s.sets)

/-- Weight-set loads (R135, R137, R139 to R141, R502, R503): a load from a neighbour begins and waits; one from the host
is refused when the manifest is not whole, and otherwise a BASE or ADDITION that passes every check is accepted with its
digest, its chunks and its content key, a set committed already being counted once more (log 144); a fragment of a manifest or of a chunk that is not yet whole is kept; one that
belongs to no load is discarded and counted, and one of a stored chunk is discarded. Chunks, requests and refusals
(R136, R138 to R141): a whole record that opens under the content key and has its digest is stored, and the set is
committed with the last one, of at most 65,536; a downstream's request for a chunk not yet here waits; a downstream's refusal is kept for the
completion, and the upstream's ends the load with RELAY_ABANDONED. -/
def Obligations.WeightSetsLoad : Prop :=
  (∀ s : State,
     (∀ (acc : Nat) (a : Acc), s.serves acc 0x04 a → a.fld 0x30 8 = 0 → (∀ l ∈ s.loads, l.acc ≠ acc) →
       risingFrom 0 s.intake.acc = true →
       (∀ m : HostData, a.bits 8 4 0 0 = 0 →
         ∃ t l, exec (.weightLoad acc m m) s = .next t ∧ { t with loads := s.loads, intake := s.intake } = s ∧
           t.loads = s.loads ++ [l] ∧ l.acc = acc ∧ l.upstream = some (BitVec.ofNat 16 (a.fld 0xC 2)) ∧
           l.accepted = false ∧ l.stored = [] ∧ tfind t.intake.acc acc = some { a with begun := true }) ∧
       (∀ m : Bytes, a.bits 8 4 0 0 = 1 → m.length < 256 → a.bits 8 4 3 1 = 0 →
         ∃ t, exec (.weightLoad acc (.ok m) (.ok [])) s = .next t ∧ t.loads = s.loads ∧ t.sets = s.sets ∧
           t.intake.acc = tdel acc s.intake.acc ∧ t.stack = s.stack) ∧
       (∀ m k : Bytes, a.bits 8 4 0 0 = 1 → 256 ≤ m.length → manifestHeadOk m = true → manifestSize m = m.length →
         a.fld 0x20 8 = m.length → fieldAt m 0x60 8 + 8 ≤ m.length → manifestRefusal s m none = 0 →
         contentKey s m = .ok k → bitsAt m 4 4 17 16 ≠ 1 →
         (s.hasSet (setDigest m) = true ∨ s.retiring [bitsAt m 0x14 4 12 0] = false) →
         ∃ t l, exec (.weightLoad acc (.ok m) (.ok [])) s = .next t ∧ l ∈ t.loads ∧ l.acc = acc ∧ l.accepted = true ∧
           l.digest = setDigest m ∧ l.key = k ∧ l.kind = bitsAt m 4 4 17 16 ∧ l.chunks = chunkTable m ∧
           l.payload = fieldAt m 8 8 ∧ l.stored = [] ∧ t.run = s.run ∧ l.again = s.hasSet (setDigest m) ∧
           (s.hasSet (setDigest m) = false → t.sets = s.sets) ∧
           (s.hasSet (setDigest m) = true → l.blocks = [] ∧ t.stack = s.stack ∧ t.sets = s.sets.map fun e =>
             if e.1 = setDigest m then (e.1, { e.2 with count := e.2.count + 1 }) else e))) ∧
     (∀ (src : Option W16) (o : Nat) (set : W64) (data : Bytes),
       (s.loadFrom src set = none →
         (∃ t, exec (.manifestFragment src o set data) s = .next t ∧
           t = { s with fabric := { s.fabric with relayDropped := s.fabric.relayDropped + 1 } }) ∧
         (∀ i, ∃ t, exec (.chunkFragment src i o set data) s = .next t ∧
           t = { s with fabric := { s.fabric with relayDropped := s.fabric.relayDropped + 1 } })) ∧
       (∀ l, s.loadFrom src set = some l →
         (l.accepted = false → (joinParts (tput o data l.manifest)).length < 256 →
           ∃ t, exec (.manifestFragment src o set data) s = .next t ∧
             t = putLoad s { l with set := some set, manifest := tput o data l.manifest }) ∧
         (∀ i, i ∈ l.stored → ∃ t, exec (.chunkFragment src i o set data) s = .next t ∧ t = s) ∧
         (∀ i, i ∉ l.stored → o < 2097152 →
           (let l' := { l with set := some set, parts := tput (partKey i o) data l.parts }
            (l'.record i).length ≠ l'.chunkLen i + 32 → (∀ x ∈ s.loads, x.acc = l.acc → x = l) →
            ∃ t, exec (.chunkFragment src i o set data) s = .next t ∧ t = putLoad s l'))))) ∧
  (∀ (s : State) (set : W64) (l : SetLoad), l ∈ s.loads → l.set = some set → (∀ x ∈ s.loads, x.acc = l.acc → x = l) →
     (∀ (src : Option W16) (i o : Nat) (data p : Bytes), s.loadFrom src set = some l → i ∉ l.stored → o < 2097152 →
       l.accepted = true → l.kind ≠ 1 → l.again = false → i < l.chunks.length →
       (let l' := { l with parts := tput (partKey i o) data l.parts }
        (l'.record i).length = l'.chunkLen i + 32 → openChunk l' i (l'.record i) = some p →
        (l.stored.length + 1 < l.chunks.length →
          ∃ t x, exec (.chunkFragment src i o set data) s = .next t ∧ x ∈ t.loads ∧ x.acc = l.acc ∧
            x.stored = l.stored ++ [i] ∧ x.fails = l.fails ∧ x.refusals = l.refusals ∧
            t.stack = (writeRun s l.blocks l.domain (4096 * i) (unitsOf ((p.length + 255) / 256) p)).stack ∧
            t.sets = s.sets ∧ t.intake = s.intake) ∧
        (∀ a, l.stored.length + 1 = l.chunks.length → s.hasSet l.digest = false → s.sets.length < 65536 → tfind s.intake.acc l.acc = some a →
          a.mute = false → (s.fnOf a.fn).inReset = false → (s.cqOf a.fn a.cq).stopped = false →
          ∃ t, exec (.chunkFragment src i o set data) s = .next t ∧ (∀ x ∈ t.loads, x.acc ≠ l.acc) ∧
            t.sets = s.sets ++ [(l.digest, { kind := l.kind, domain := l.domain, payload := l.payload, base := l.base
                                             count := 1, blocks := l.blocks })] ∧
            t.intake.acc = tdel l.acc s.intake.acc))) ∧
     (∀ src i, s.loads.find? (fun x => x.set == some set && (x.down.any (fun e => e.1 == src) || x.upstream == some src))
         = some l →
       (i ∉ l.stored → l.down.any (fun e => e.1 == src) = true →
         ∃ t, exec (.chunkRequest src set i) s = .next t ∧ t = putLoad s { l with wanted := l.wanted ++ [(src, i)] }) ∧
       (l.down.any (fun e => e.1 == src) = false → ∃ t, exec (.chunkRequest src set i) s = .next t ∧ t = s)) ∧
     (∀ src (detail : W16), s.loadFrom (some src) set = none →
       s.loads.find? (fun x => x.set == some set && x.down.any (fun e => e.1 == src)) = some l →
       ∃ t, exec (.relayRefused src set detail) s = .next t ∧ t = putLoad s { l with
         down := l.down.map (fun e => if e.1 = src then (e.1, false) else e)
         refusals := tput (l.down.findIdx (fun e => e.1 == src)) detail.toNat l.refusals }) ∧
     (∀ src (detail : W16) a, s.loadFrom (some src) set = some l → l.down = [] → l.accepted = false → l.again = false → l.blocks = [] →
       tfind s.intake.acc l.acc = some a → a.mute = false → (s.fnOf a.fn).inReset = false →
       (s.cqOf a.fn a.cq).stopped = false →
       ∃ t, exec (.relayRefused src set detail) s = .next t ∧ Completes s t l.acc a 0x06 0x0621 l.results ∧
         { t.uncompleted s with loads := s.loads } = s ∧ t.loads = s.loads.filter (fun x => x.acc != l.acc)))

/-- Unloading a set, and an installation's phases (R143, R251, R252, R257, R258): a set in use is BUSY, one counted more
than once is counted once less, and one not here is NOT_RESIDENT; a die that has done its phase's work goes on to the
next, every group waiting for its calibration in phase 4, at whose end a working pane with a cell read back outside the verify
window has failed; and the last phase makes it READY, the set being committed and named by the installation base digest with the last
die. -/
def Obligations.SetsUnloadAndInstall : Prop :=
  ∀ s : State,
    (∀ (acc : Nat) (a : Acc), s.serves acc 0x05 a →
      (let d := slice a.desc 8 48
       ((∀ e ∈ s.sets, e.1 ≠ d) → ∃ t, exec (.weightUnload acc) s = .next t ∧ Completes s t acc a 0x06 0x0601 {} ∧
         t.uncompleted s = s) ∧
       (∀ e, s.sets.find? (fun e => e.1 == d) = some e → s.setInUse d = true →
         ∃ t, exec (.weightUnload acc) s = .next t ∧ Completes s t acc a 0x07 0x0711 {} ∧ t.uncompleted s = s) ∧
       (∀ e, s.sets.find? (fun e => e.1 == d) = some e → s.setInUse d = false →
         ∃ t, exec (.weightUnload acc) s = .next t ∧ Completes s t acc a 0 0 {} ∧
           (1 < e.2.count →
             { t.uncompleted s with sets := s.sets } = s ∧
             t.sets = s.sets.map (fun x => if x.1 = d then (x.1, { x.2 with count := x.2.count - 1 }) else x)) ∧
           (e.2.count ≤ 1 → t.sets = s.sets.filter (fun x => x.1 != d) ∧
             { t.uncompleted s with sets := s.sets, stack := s.stack, domains := s.domains } = s)))) ∧
    (∀ (d : AwDie) (cells : List PaneCell), (s.awOf d).state = 4 → phaseReady s (s.awOf d) = true → risingFrom 0 s.aw = true →
      ∃ t, exec (.installPhaseEnd d cells) s = .next t ∧
        ((s.awOf d).phase ≤ 3 → { t with aw := s.aw } = s ∧
          t.awOf d = { s.awOf d with phase := (s.awOf d).phase + 1, toCalibrate := if (s.awOf d).phase = 3 then List.range 2048
                                                                                  else (s.awOf d).toCalibrate } ∧
          (∀ e, e ≠ d.val → t.awOf e = s.awOf e)) ∧
        ((s.awOf d).phase = 4 → { t.unlogged s with aw := s.aw } = s ∧ (t.awOf d).phase = 5 ∧ (t.awOf d).state = 4 ∧
          ∀ c ∈ cells, c.pos.val < 64 →
            inVerify (s.trimOf d).verifyWindow c.cell.level64
              (wantLevel (s.awOf d) c.group c.pos c.cell.row c.cell.col c.cell.neg) = false →
            68 * c.group.val + c.pos.val ∈ (t.awOf d).failed) ∧
        ((s.awOf d).phase = 5 → (t.awOf d).state = 3 ∧ (t.awOf d).phase = 0 ∧
          ((∃ e : AwDie, e ≠ d ∧ (s.awOf e).state ≠ 3) → t.baseDigest = s.baseDigest ∧ t.loads = s.loads) ∧
          (∀ l, (∀ e : AwDie, e ≠ d → (s.awOf e).state = 3) → s.analogLoad = some l →
            t.baseDigest = some l.digest ∧ t.installed = some l.digest ∧
            t.loads = s.loads.filter (fun x => x.acc != l.acc) ∧ ∀ e : AwDie, (t.awOf e).committed = true)))

/-- A tenancy (R488 to R497, R499): with none open, and blocks that pass, it opens with a fresh key for domain 0, step
number and GSEQ 0; with one open an open is TENANCY_BUSY; a close leaves nothing accepted that had not begun; once what
had begun is over the scrub destroys keys, sets, slots, streams and pages and zeroes every store; and then no tenancy is
open. The boot tables and the owner (R509, R510, R513, R548): an update goes to the copy that did not boot; an accepted
claim of ownership is fused into the next slot and resets the device, which keeps its fuses otherwise; one made while a
tenancy is open, or with the slots used up, changes nothing. -/
def Obligations.TenanciesAndOwnership : Prop :=
  (∀ s : State,
     (∀ (acc : Nat) (a : Acc) (k g : Bytes), s.serves acc 0x20 a →
       (s.tenancy.phase ≠ 0 → ∃ t, exec (.tenancyOpen acc (.ok k) (.ok g)) s = .next t ∧
         Completes s t acc a 0x07 0x0741 {} ∧ t.uncompleted s = s) ∧
       (s.tenancy.phase = 0 → openRefusal s k g (a.bits 0x28 4 12 0) = 0 →
         risingFrom 0 s.domains = true →
         ∃ t, exec (.tenancyOpen acc (.ok k) (.ok g)) s = .next t ∧ Completes s t acc a 0 0 {} ∧
           t.tenancy.phase = 2 ∧ t.tenancy.kind = (if a.bits 0x28 4 13 13 = 1 then 2 else 1) ∧
           t.tenancy.opened = satNat 32 (s.tenancy.opened + 1) ∧ t.tenancy.id = slice a.desc 8 16 ∧
           t.tenancy.stepNumber = 0 ∧ t.tenancy.keys = enrolKeys k ∧ t.grid.gseq = 0 ∧
           t.domOf 0 = { state := 1, epoch := 1, key := some s.free } ∧
           { t.uncompleted s with tenancy := s.tenancy, grid := s.grid, fabric := s.fabric, cad := s.cad
                                  replay := s.replay, domains := s.domains } = s)) ∧
     (∀ (acc : Nat) (a : Acc), s.serves acc 0x21 a → risingFrom 0 s.intake.acc = true → s.loads = [] → s.slots = [] →
       ∃ t, exec (.tenancyClose acc) s = .next t ∧ t.tenancy.phase = 3 ∧
         t.tenancy.closing = some (acc, decide (a.bits 8 4 0 0 = 1)) ∧ t.steps = [] ∧ t.intake.fetched = none ∧
         tfind t.intake.acc acc = some { a with begun := true } ∧
         (∀ e ∈ t.intake.acc, e.2.begun = true) ∧
         (∀ e ∈ s.intake.acc, e.2.begun = true → (∀ r ∈ s.steps, r.acc ≠ e.1) → e ∈ t.intake.acc) ∧ t.run = s.run ∧
         (s.grid.memberEn = true → t.grid.memberEn = false)) ∧
     (∀ (acc : Nat) (zero : Bool), s.tenancy.closing = some (acc, zero) →
       (s.run = none → s.tenancy.scrubbed = false →
         (∀ e ∈ s.intake.acc, e.1 = acc ∨ ∃ l ∈ s.loads, l.acc = e.1) →
         ∃ t, exec .tenancyScrub s = .next t ∧ t.tenancy.scrubbed = true ∧ t.tenancy.keys = [] ∧ t.tenancy.groups = [] ∧
           t.domains = [] ∧ t.slots = [] ∧ t.sets = [] ∧ t.streams = [] ∧ t.pages = [] ∧ t.prefixes = [] ∧
           t.grammars = [] ∧ t.seq = [] ∧ t.queue = [] ∧ t.matrix = [] ∧
           (∀ e ∈ t.mv, e.2.scratch = [] ∧ e.2.writes = [] ∧ e.2.fill = none) ∧
           (∀ e ∈ t.stack, e.2.units = [] ∧ e.2.used = []) ∧ (∀ e ∈ t.links, e.2.buf = [] ∧ e.2.fill = none) ∧
           (∀ l ∈ t.loads, l.key = []) ∧ t.fuses = s.fuses ∧ t.power = s.power ∧ t.chron = s.chron ∧
           t.tables = s.tables ∧ t.intake = s.intake) ∧
       (∀ a, s.tenancy.scrubbed = true → tfind s.intake.acc acc = some a → a.mute = false →
         (s.fnOf a.fn).inReset = false → (s.cqOf a.fn a.cq).stopped = false →
         ∃ t, exec .tenancyCloseDone s = .next t ∧ Completes s t acc a 0 0 {} ∧ t.tenancy.phase = 0 ∧
           t.tenancy.kind = 0 ∧ t.tenancy.closing = none ∧ t.stop.scanPermit = false ∧
           { t.uncompleted s with tenancy := s.tenancy, stop := s.stop, cad := s.cad } = s))) ∧
  (∀ (s : State) (x : TableSet),
     (∃ t, exec (.pldmTableUpdate x) s = .next t ∧ { t with boot := s.boot } = s ∧
       t.boot = (if s.power.copy = 0 then { s.boot with copyB := some x } else { s.boot with copyA := some x })) ∧
     (∀ digest sig : Bytes,
       (claimOk s digest sig = true → s.power.down = false →
         ∃ t, exec (.ownershipClaim digest sig x) s = .next t ∧
           t.fuses = { s.fuses with ownerDigest := some digest, claims := s.fuses.claims + 1 } ∧ t.power.stage = 0 ∧
           t.power.lastReset = 3 ∧ t.run = none ∧ t.tenancy.phase = 0 ∧
           (s.power.copy = 0 → t.boot.copyB = some x ∧ t.boot.copyA = s.boot.copyA) ∧ t.chron.count = s.chron.count) ∧
       (s.tenancy.phase ≠ 0 ∨ 4 ≤ s.fuses.claims →
         ∃ t, exec (.ownershipClaim digest sig x) s = .next t ∧ t = s)))

/-- The SPDM responder (R506, R508): once the keys are derived each request of its turn is answered, the stage of the
connection advancing from GET_VERSION to NEGOTIATE_ALGORITHMS; digests, certificates, challenges and measurements are
answered after that, and large messages pass in chunks. The layout of the messages is PRESUMED (log 75). -/
def Obligations.SpdmAnswers : Prop :=
  ∀ (s : State) (req : Bytes), s.spdmUp = true →
    (let answered := fun (t : State) (phase : Nat) =>
       t.spdm.phase = phase ∧ (∃ m : Bytes, t.out = s.out ++ [.spdm m] ∧ 4 ≤ m.length) ∧
         { t with spdm := s.spdm, out := s.out, free := s.free } = s
     (fieldAt req 1 1 = 0x84 → fieldAt req 0 1 = 0x10 → 4 ≤ req.length →
       ∃ t, exec (.getVersion req) s = .next t ∧ answered t 1) ∧
     (fieldAt req 1 1 = 0xE1 → spdmForm req 20 = true → s.spdm.phase = 1 →
       ∃ t, exec (.getCapabilities req) s = .next t ∧ answered t 2) ∧
     (fieldAt req 1 1 = 0xE3 → spdmForm req 32 = true → s.spdm.phase = 2 → bitNat (fieldAt req 8 4) 7 = true →
       bitNat (fieldAt req 12 4) 1 = true → ∃ t, exec (.negotiateAlgorithms req) s = .next t ∧ answered t 3) ∧
     (s.spdm.phase = 3 →
       (fieldAt req 1 1 = 0x81 → spdmForm req 4 = true →
         ∃ t, exec (.getDigests req) s = .next t ∧ answered t 3 ∧ s.spdm.certs.length < t.spdm.certs.length) ∧
       (fieldAt req 1 1 = 0x82 → spdmForm req 8 = true → bitsAt req 2 1 3 0 = 0 → fieldAt req 4 2 < s.chain.length →
         ∃ t, exec (.getCertificate req) s = .next t ∧ answered t 3 ∧ s.spdm.certs.length < t.spdm.certs.length) ∧
       (fieldAt req 1 1 = 0x83 → spdmForm req 44 = true → bitsAt req 2 1 3 0 = 0 → fieldAt req 3 1 = 0xFF →
         ∃ t, exec (.challenge req) s = .next t ∧ answered t 3 ∧ t.spdm.certs = [] ∧ t.free = s.free + 1) ∧
       (fieldAt req 1 1 = 0xE0 → fieldAt req 2 1 = 1 → spdmForm req 45 = true → fieldAt req 3 1 = 0xFF →
         bitsAt req 36 1 3 0 = 0 →
         ∃ t, exec (.getMeasurements req) s = .next t ∧ answered t 3 ∧ t.spdm.measured = [] ∧ t.free = s.free + 1)) ∧
     (fieldAt req 1 1 = 0x85 → bitNat (fieldAt req 2 1) 0 = false → fieldAt req 4 2 = 0 →
       ∃ t, exec (.chunkSend req) s = .next t ∧ { t with spdm := s.spdm, out := s.out } = s ∧
         t.spdm = { s.spdm with sendChunk := some (fieldAt req 3 1, 1, slice req 16 (fieldAt req 8 4)) }) ∧
     (∀ n b, fieldAt req 1 1 = 0x86 → fieldAt req 4 2 = n → s.spdm.getChunk = some (fieldAt req 3 1, n, b) →
       ∃ t m, exec (.chunkGet req) s = .next t ∧ { t with spdm := s.spdm, out := s.out } = s ∧
         t.out = s.out ++ [.spdm m] ∧ t.spdm = { s.spdm with
           getChunk := if b.length ≤ (Config.spdmLimits.2.1 - 16) * (n + 1) then none
                       else some (fieldAt req 3 1, n + 1, b) }))

/-- The event paths (R519 to R523): the oldest record of path 0 is written at TAIL while the ring has room, with the
ring's message after an alarm or a fault, or after 100 µs; a write of EVRING_CTRL that enables the ring starts it at 0
and keeps SIZE_LOG2 while it is enabled; the oldest record of path 1 leaves as an MCTP message; a drop summary that is
held goes out once, and the path's counts start anew. The alarm latch (R524): each bit written 1 is cleared with its
capture, and every other bit stays; an access that is not of 32 or 64 bits, aligned and within the bitmap, clears
nothing; a bit whose alarm comes at the ns of its clear is left set. -/
def Obligations.EventsAndLatch : Prop :=
  (∀ s : State, risingFrom 0 s.paths = true →
     (let e := s.evring
      (∀ n r es, (s.pathOf 0).queue = (n, r) :: es → e.open_ = true → (s.fnOf 0).inReset = false →
        ∃ t, exec .evringWrite s = .next t ∧ (t.pathOf 0).queue = es ∧
          Out.dma 0 none (e.base + BitVec.ofNat 64 (128 * e.tail)) (recBytes r n e.phase) false ∈ t.out ∧
          t.evring.tail = (if 2 ^ e.sizeLog2 ≤ e.tail + 1 then 0 else e.tail + 1) ∧
          t.evring.head = e.head ∧ t.evring.enable = true ∧
          (r.cls ≤ 1 → t.evring.pendingIrq = 0) ∧
          (2 ≤ r.cls → e.pendingIrq < 63 → t.evring.pendingIrq = e.pendingIrq + 1 ∧ t.fns = s.fns) ∧
          { t with paths := s.paths, evring := s.evring, fns := s.fns, out := s.out } = s) ∧
      (0 < e.pendingIrq → e.firstIrqNs + 100000 ≤ s.ns → (s.fnOf 0).inReset = false → (s.fnOf 0).fnMask = false →
        (tget {} (s.fnOf 0).msix (e.vector % 8)).masked = false →
        ∃ t, exec .evringIrqTimeout s = .next t ∧ t.evring = { e with pendingIrq := 0 } ∧
          t.out = s.out ++ [.msix e.vector] ∧ { t with evring := s.evring, fns := s.fns, out := s.out } = s) ∧
      (∀ v : W64, ∃ t, exec (.evringCtrlWrite 0 64 v) s = .next t ∧ { t with evring := s.evring } = s ∧
        (e.enable = false → v.getLsbD 5 = true → 4 ≤ fieldNat v.toNat 4 0 → fieldNat v.toNat 4 0 ≤ 16 →
          t.evring.enable = true ∧ t.evring.head = 0 ∧ t.evring.tail = 0 ∧ t.evring.phase = true ∧
          t.evring.sizeLog2 = fieldNat v.toNat 4 0) ∧
        (v.getLsbD 5 = true → e.enable = false → (fieldNat v.toNat 4 0 < 4 ∨ 16 < fieldNat v.toNat 4 0) →
          t.evring.enable = false) ∧
        (e.enable = true → t.evring.sizeLog2 = e.sizeLog2 ∧ t.evring.tail = e.tail ∧
          t.evring.head = fieldNat v.toNat 47 32)) ∧
      (∀ n r es, (s.pathOf 1).queue = (n, r) :: es →
        ∃ t, exec .mctpRecordPush s = .next t ∧ (t.pathOf 1).queue = es ∧ t.out = s.out ++ [.mctp (mctpBytes r n)] ∧
          { t with paths := s.paths, out := s.out } = s) ∧
      ((let p := s.pathOf 1
        p.summary = true → p.ctrl.getLsbD 0 = true → (∀ c, p.lastSummary = some c → c + 1000000 ≤ s.ns) →
        ∃ t m, exec (.dropSummary 1) s = .next t ∧ t.out = s.out ++ [.mctp m] ∧
          t.pathOf 1 = { p with pseq := (p.pseq + 1) % 2 ^ 32, dropped := [0, 0, 0, 0, 0], firstDrop := 0, lastDrop := 0
                                siteMask := 0, summary := false, lastSummary := some s.ns } ∧
          { t.unlogged s with out := s.out } = s)))) ∧
  (∀ (s : State) (offset width : Nat) (v : W64),
     ((width = 32 ∧ offset % 4 = 0 ∨ width = 64 ∧ offset % 8 = 0) → offset < 32 →
       (let hit := fun (b : Nat) => 8 * offset ≤ b ∧ b < 8 * offset + width ∧ v.getLsbD (b - 8 * offset) = true
        ∃ t, exec (.alarmLatchClear offset width v) s = .next t ∧ { t with latch := s.latch } = s ∧
          ((∀ r ∈ s.freshNow.alarms, ¬ hit (latchBit r)) → ∀ e, e ∈ t.latch ↔ e ∈ s.latch ∧ ¬ hit e.1) ∧
          ∀ r ∈ s.freshNow.alarms, hit (latchBit r) → (tfind t.latch (latchBit r)).isSome = true)) ∧
     (¬ ((width = 32 ∧ offset % 4 = 0 ∨ width = 64 ∧ offset % 8 = 0) ∧ offset < 32) →
       ∃ t, exec (.alarmLatchClear offset width v) s = .next t ∧ t = s))

/-- The global stop (R530 to R535): a request from a register or from JTAG while none stands sets the stop beat to F +
16, F the floor, or 0 with no step; a later one adds its cause; a stop that has formed is held; a resumable one is
released, the cadence and every timer that a stop holds moving on by its length. Scan-out, the observation port and the port of IEEE 1149.1 (R529, R536,
R576, R582): a scan while STOPPED of an element of the compute die gives its data, on TDO or in frames, and an alarm or
a store is not changed by it; up to fifteen entries of the elastic buffer leave in a frame; IDCODE shifts out
0x14120A3F, and BYPASS what is shifted in, one bit late. Replay of a log (R537, R540): while a session is replayed the
next ACCEPT entry of the log is accepted under the next number, with no ring fetched and no HEAD moved, and its recorded
inputs wait to be taken. -/
def Obligations.StopsScansAndReplay : Prop :=
  (∀ s : State,
     (let at_ := if s.run.isNone then 0 else s.floor1 + 15
      let asked := fun (k : Nat) (t : State) =>
        { t with stop := s.stop } = s ∧
          t.stop = if s.stop.state = 0 then { s.stop with state := 1, ending := false, causes := 2 ^ k, beat := at_ }
                   else { s.stop with causes := s.stop.causes ||| 2 ^ k }
      (∃ t, exec .stopRequest s = .next t ∧ asked 3 t) ∧ (∃ t, exec .jtagStop s = .next t ∧ asked 4 t) ∧
      (s.stopFormed = true → s.stop.ending = false →
        ∃ t, exec .stopReached s = .next t ∧ { t.unlogged s with stop := s.stop } = s ∧
          t.stop = { s.stop with state := 2, since := s.chron.count, sinceNs := s.ns, held := s.holding
                                 beat := if s.run.isNone then 0 else s.stop.beat }) ∧
      (s.stopFormed = true → s.stop.ending = true → ∃ t, exec .stopReached s = .next t ∧ t.stop.state = 2) ∧
      (s.stop.state = 2 → s.stop.ending = false →
        (let d := s.chron.count - s.stop.since
         let dn := s.ns - s.stop.sinceNs
         ∃ t, exec .stopResume s = .next t ∧
           { t with stop := s.stop, cad := s.cad, run := s.run, mv := s.mv, seq := s.seq, grid := s.grid } = s ∧
           t.stop = { s.stop with state := 0, ending := false, causes := 0, held := 0 } ∧
           t.cad = { s.cad with start := s.cad.start + d, sched := s.cad.sched + d, shift := s.cad.shift + d } ∧
           t.run = s.run.map (fun r => { r with beginNs := r.beginNs + dn }) ∧
           t.mv = s.mv.map (fun e => (e.1, { e.2 with quiet := e.2.quiet + dn })) ∧
           t.seq = s.seq.map (fun e => (e.1, { e.2 with hold := e.2.hold.map fun h => { h with since := h.since + dn } })) ∧
           t.grid = { s.grid with fenceAt := s.grid.fenceAt + dn
                                  ownTwin := s.grid.ownTwin.map (fun x => (x.1 + dn, x.2)) })))) ∧
  (∀ s : State,
     (∀ (l : W64) (o n : W32), s.stop.state = 2 → scanNamed l.toNat = true →
       (∃ t, exec (.scanout l o n) s = .next t ∧ { t with out := s.out, free := s.free } = s ∧
         t.out = s.out ++ [.tdo (scanData s l.toNat o.toNat n.toNat)]) ∧
       (∃ t, exec (.scanRequest l o n) s = .next t ∧
         { t with out := s.out, free := s.free, trace := { t.trace with frameSeq := s.trace.frameSeq } } = s ∧
         t.trace.frameSeq % 2 ^ 32 = (s.trace.frameSeq + (16 * n.toNat + 239) / 240) % 2 ^ 32)) ∧
     (s.trace.mode = 2 → s.trace.elastic ≠ [] →
       (let es := s.trace.elastic.take 15
        ∃ t, exec .observationFrameSend s = .next t ∧ { t with trace := s.trace, out := s.out } = s ∧
          t.trace = { s.trace with elastic := s.trace.elastic.drop 15, fill := s.trace.fill - es.length
                                   frameSeq := (s.trace.frameSeq + 1) % 2 ^ 32 } ∧
          t.out = s.out ++ [.frame (frameBytes s.trace.frameSeq es.length 0 (es.flatMap traceBytes))])) ∧
     (∃ t, exec .idcode s = .next t ∧ { t with jtag := s.jtag, out := s.out } = s ∧ t.jtag.ir = 0x01 ∧
       t.jtag.driving = false ∧ t.out = s.out ++ [.tdo [0x3F, 0x0A, 0x12, 0x14]]) ∧
     (∀ bits : List Bool,
       (∃ t, exec (.bypass bits) s = .next t ∧ { t with jtag := s.jtag, out := s.out } = s ∧ t.jtag.driving = false ∧
         t.out = s.out ++ [.tdo (shiftedBytes ((bits.length + 8) / 8) (false :: bits))]) ∧
       (∃ t b, exec (.extest bits) s = .next t ∧ { t with jtag := s.jtag, out := s.out, free := s.free } = s ∧
         t.jtag.driving = true ∧ t.jtag.boundary = bits ∧ t.out = s.out ++ [.tdo b] ∧ b.length = (bits.length + 7) / 8) ∧
       (∃ t b, exec (.samplePreload bits) s = .next t ∧ { t with jtag := s.jtag, out := s.out, free := s.free } = s ∧
         t.jtag.driving = false ∧ t.jtag.boundary = bits ∧ t.out = s.out ++ [.tdo b] ∧
         b.length = (bits.length + 7) / 8))) ∧
  (∀ (s : State) (f : Fn) (q : Fin 16) (d : Bytes) (x : ReplayRec), s.replaying = true → (s.fnOf f).inReset = false →
     s.stop.state ≠ 2 → formDetail d = 0 → admitDetail s f d = 0 → fieldAt d 0 1 = 0x30 →
     ∃ t a, exec (.replayAccept f q d x) s = .next t ∧ tfind t.intake.acc s.intake.next = some a ∧ a.desc = d ∧
       a.fn = f.val ∧ a.sq = q.val ∧ a.begun = false ∧ t.intake.next = s.intake.next + 1 ∧
       (t.sqOf f q).head = (s.sqOf f q).head ∧ t.replay.pages = s.replay.pages ++ x.pages ∧
       t.replay.hreads = s.replay.hreads ++ x.hreads ∧ t.replay.frecvs = s.replay.frecvs ++ x.frecvs ∧
       (∀ p, x.probe = some p → tfind t.replay.probes s.intake.next = some p) ∧
       { t with intake := s.intake, replay := s.replay, fns := s.fns } = s)

/-- Resets (R544, R545, R549, R582): a COLD reset leaves the chronometer at 0, no rail enabled and the analogue dies
OFF; a DEVICE reset, by RESET_N low for 1 µs or more, DEV_RESET with its key, JTAG, PLDM, leaves LAST_RESET 1, 2, 4 and
3, the chronometer, the fuses, the rails and the installed content kept, no step, tenancy, domain or accepted
descriptor; RESET_N low for 200 ns or less, and DEV_RESET without its key, do nothing. -/
def Obligations.ResetsClearAndKeep : Prop :=
  ∀ s : State,
    (let device := fun (k : Nat) (t : State) =>
       t.power.stage = 0 ∧ t.power.lastReset = k ∧ t.power.groupEn = s.power.groupEn ∧
         t.power.groupGood = s.power.groupGood ∧ t.power.awEn = s.power.awEn ∧ t.chron.count = s.chron.count ∧
         t.fuses = s.fuses ∧ t.run = none ∧ t.steps = [] ∧ t.tenancy = {} ∧ t.intake = {} ∧ t.fns = [] ∧ t.domains = [] ∧
         t.streams = [] ∧ t.slots = [] ∧ t.sets = [] ∧ t.mv = [] ∧ t.ports = [] ∧ t.installed = s.installed ∧
         t.installCount = s.installCount ∧ t.boot.copyA = s.boot.copyA ∧ t.boot.copyB = s.boot.copyB ∧
         t.pending = s.pending
     (∃ t, exec .porRelease s = .next t ∧ t.power.stage = 0 ∧ t.power.groupEn = 0 ∧ t.power.awEn = 0 ∧ t.chron = {} ∧
       t.power.lastReset = (if s.power.aonFell then 0 else s.power.lastReset) ∧ t.baseDigest = none ∧ t.run = none ∧
       t.tenancy = {} ∧ t.fns = [] ∧ t.fuses = s.fuses ∧ (risingFrom 0 s.aw = true → ∀ d : AwDie, (t.awOf d).state = 0)) ∧
     (s.power.down = false →
       (∀ n, 1000 ≤ n → ∃ t, exec (.resetN n) s = .next t ∧ device 1 t) ∧
       (∀ v : W32, fieldNat v.toNat 23 16 = 0xD5 → v.getLsbD 24 = true →
         ∃ t, exec (.devReset v) s = .next t ∧ device 2 t) ∧
       (∃ t, exec .pldmReset s = .next t ∧ device 3 t) ∧ (∃ t, exec .jtagReset s = .next t ∧ device 4 t)) ∧
     (∀ n, n ≤ 200 → ∃ t, exec (.resetN n) s = .next t ∧ t = s) ∧
     (∀ v : W32, fieldNat v.toNat 23 16 ≠ 0xD5 → ∃ t, exec (.devReset v) s = .next t ∧ t = s))

/-- Rails (R541, R543, R551): an enabled rail is good when its input says so; the next is enabled 1 ms after those
before it are good; one that is not good 5 ms after its enable, or that loses its good, of a group powers the package
down with LAST_RESET 6, as does VDD_AON too low; of an analogue die it turns that die OFF. Power-down and the analogue
dies' rails (R251, R252, R543, R551, R554): PWR_FAIL_N, and a reference lost for 10 µs, power the package down with
LAST_RESET 7, DYING_GASP noted as sent; every 0.5 ms the next rails are lowered; a die whose three rails are good enters
INIT, one with every group calibrated and nothing interrupted left is READY, and one whose rail is lost is OFF. -/
def Obligations.RailsAndPowerDown : Prop :=
  (∀ (s : State) (k : Fin 4) (d : AwDie) (j : Fin 3), s.power.down = false →
     (let p := s.power
      let downed := fun (t : State) =>
        t.power.down = true ∧ t.power.lastReset = 6 ∧ t.power.stage = 0 ∧ t.power.lowering = [1, 2, 3, 4, 5, 6]
      (∀ r : Rail, p.enabled r = true → p.good r = false →
        ∃ t, exec (.pwrGood r) s = .next t ∧ t.power.good r = true ∧ t.power.enabled r = true ∧
          tget 0 t.power.railAt (railKey r) = s.ns ∧ { t with power := s.power } = s) ∧
      (∀ r : Rail, s.enableDue r = true →
        ∃ t, exec (.railEnableDelay r) s = .next t ∧ t.power.enabled r = true ∧
          tget 0 t.power.railAt (railKey r) = s.ns ∧ t.out = s.out ++ [.pin (railKey r) true] ∧
          { t with power := s.power, out := s.out } = s) ∧
      (p.enabled (.group k) = true → p.good (.group k) = false → tget 0 p.railAt (k.val + 1) + 5000000 ≤ s.ns →
        ∃ t, exec (.powerGoodTimeout (.group k)) s = .next t ∧ downed t) ∧
      (p.enabled (.group k) = true → p.good (.group k) = true →
        ∃ t, exec (.powerGoodFall (.group k)) s = .next t ∧ downed t) ∧
      (∃ t, exec .vddAonLow s = .next t ∧ downed t ∧ t.power.aonFell = true) ∧
      (p.enabled (.aw d j) = true → p.good (.aw d j) = true → (s.awOf d).state ≠ 4 → risingFrom 0 s.aw = true →
        ∃ t, exec (.powerGoodFall (.aw d j)) s = .next t ∧ (t.awOf d).state = 0 ∧ t.baseDigest = none ∧
          t.power.down = false ∧ t.power.good (.aw d j) = false))) ∧
  (∀ s : State,
     (let failed := fun (t : State) =>
        t.power.down = true ∧ t.power.lastReset = 7 ∧ t.power.stage = 0 ∧ t.power.gasped = true ∧
          t.power.lowering = [1, 2, 3, 4, 5, 6]
      (s.power.down = false →
        (∃ t, exec .pwrFailN s = .next t ∧ failed t) ∧
        (∀ c, s.power.refMissing = some c → c + 10000 ≤ s.ns → ∃ t, exec .refClkLost s = .next t ∧ failed t)) ∧
      (∀ n ns, s.power.lowering = n :: ns → tget 0 s.power.railAt 0 + 500000 ≤ s.ns → n ≠ 0 → n ≠ 5 →
        ∃ t, exec .railDisableDelay s = .next t ∧ t.power.lowering = ns ∧ tget 0 t.power.railAt 0 = s.ns ∧
          (∀ r ∈ lowerStep n, t.power.enabled r = false) ∧ { t with power := s.power, out := s.out } = s) ∧
      (∀ d : AwDie, risingFrom 0 s.aw = true →
        ((s.awOf d).state = 0 → s.awFitted = true →
          (∀ k, k < 3 → bitNat s.power.awGood (3 * d.val + k) = true) →
          ∃ t, exec (.awPowerGood d) s = .next t ∧ { t with aw := s.aw } = s ∧
            t.awOf d = { s.awOf d with state := 1 } ∧ ∀ e, e ≠ d.val → t.awOf e = s.awOf e) ∧
        ((s.awOf d).state = 2 → (s.awOf d).toCalibrate = [] → (s.awOf d).lasting = [] → (s.awOf d).refresh = [] →
          (∀ e ∈ (s.awOf d).tests, e.2.restore = false) → s.power.stage ≠ 5 →
          ∃ t, exec (.awCalibrationDone d) s = .next t ∧ { t with aw := s.aw, baseDigest := s.baseDigest } = s ∧
            t.awOf d = { s.awOf d with state := 3, tick := 0 } ∧
            t.baseDigest = if (∀ e : AwDie, e ≠ d → (s.awOf e).state = 3 ∧ (s.awOf e).committed = true)
              ∧ (s.awOf d).committed = true then s.installed else s.baseDigest) ∧
        ((s.awOf d).state ≠ 0 → (s.awOf d).state ≠ 4 → s.usesAw d = false →
          ∃ t, exec (.awRailLost d) s = .next t ∧ t.awOf d = (s.awOf d).off ∧ t.baseDigest = none ∧
            { t.unlogged s with aw := s.aw, power := s.power, baseDigest := s.baseDigest } = s))))

/-- Boot (R510, R512, R546 to R548): FUSE leads to TABLES; the copy that passes is in force, and with none the device is
in RECOVERY; RAILS is run in a COLD boot alone; when CORE and STACKS have both ended the fabric ports begin training and
the stage is HOST_READY, or BOOT_COMPLETE where the analogue dies are ready; a stage that fails is RECOVERY, CORE and STACKS
with a RAIL_FAULT (log 81); a reset of
a host link meets every function of it. -/
def Obligations.BootStagesRun : Prop :=
  ∀ (s : State) (k : Fin 8), s.power.down = false →
    (let p := s.power
     (p.stage = 0 → ∃ t, exec (.bootStageEnd 0 true k) s = .next t ∧ { t with power := s.power } = s ∧ t.power.stage = 1) ∧
     (p.stage = 1 →
       (s.bootCopy = none → ∃ t, exec (.bootStageEnd 1 true k) s = .next t ∧
         t = { s with power := { p with stage := 7 } }) ∧
       (∀ c x, s.bootCopy = some (c, x) →
         ∃ t, exec (.bootStageEnd 1 true k) s = .next t ∧ t.power.stage = 2 ∧ t.power.copy = c ∧ t.boot.set = some x ∧
           t.boot.owned = s.fuses.ownerDigest.isSome ∧ t.fabric.place = x.place ∧ t.fuses = s.fuses ∧
           (risingFrom 0 s.ports = true → ∀ q : Port,
             t.portOf q = { enable := x.linkEnable.getD q true, minWidth := x.minWidth.getD q 4 }))) ∧
     (p.stage = 2 →
       ∃ t, exec (.bootStageEnd 2 true k) s = .next t ∧ t.power.stage = (if p.cold then 3 else 4) ∧
         (p.cold = true → t.power.enabled (.group 0) = true) ∧ { t with power := s.power, out := s.out } = s) ∧
     (p.stage = 3 → s.railsDone = true →
       ∃ t, exec (.bootStageEnd 3 true k) s = .next t ∧ { t with power := s.power } = s ∧ t.power.stage = 4 ∧
         t.power.vddCd = s.tbl.reg.vddCdMv) ∧
     (∀ i : Fin 6, i.val ≤ 3 → p.stage = i.val →
       ∃ t, exec (.bootStageEnd i false k) s = .next t ∧ t = { s with power := { p with stage := 7 } }) ∧
     (p.stage = 4 → p.coreDone = false → p.stacksDone = false →
       ∃ t, exec (.bootStageEnd 4 true k) s = .next t ∧ t = { s with power := { p with coreDone := true } }) ∧
     (∀ i : Fin 6, 4 ≤ i.val → p.stage = 4 → (i.val = 4 → p.coreDone = false) → (i.val = 5 → p.stacksDone = false) →
       ∃ t, exec (.bootStageEnd i false k) s = .next t ∧ t.unlogged s = { s with power := { p with stage := 7 } } ∧
         ∃ b, (tfind t.latch b).isSome = true) ∧
     (p.stage = 4 → p.coreDone = true → p.stacksDone = false → risingFrom 0 s.ports = true →
       ∃ t, exec (.bootStageEnd 5 true k) s = .next t ∧ (t.power.stage = 5 ∨ t.power.stage = 6) ∧
         (∀ q : Port, t.portOf q = if (s.portOf q).enable then { s.portOf q with state := 1 } else s.portOf q) ∧
         (s.awFitted = false → t.power.stage = 6)) ∧
     (∀ link : Fin 4, s.hostUp = true →
       ∃ t, exec (.hostLinkReset link) s = .next t ∧
         (∀ f : Fn, s.fnEnabled f = true → s.linkOfFn f = link.val → (t.fnOf f).inReset = true) ∧
         (∀ f : Fn, s.linkOfFn f ≠ link.val → t.fnOf f = s.fnOf f) ∧ t.mv = s.mv ∧
         ((∀ r, s.run = some r → s.linkOfFn r.req.fn ≠ link.val) → t.queue = s.queue)))

/-- Heat, the power limit and the reference (R549, R552, R553, R578): PKG_LIMIT is taken within 900 and 1,800 W and at once, as far as
the heat allows; a sample sets the response and its limit, and a trip powers the package down with LAST_RESET 5; 10 ms at the limit is noted once;
missing reference edges are noted, and returning within 10 µs cost at most 1 ns, freely. -/
def Obligations.HeatAndReference : Prop :=
  ∀ s : State,
    (∀ v : W32, ∃ t, exec (.pkgLimit v) s = .next t ∧
      (let n := fieldNat v.toNat 10 0
       let w := min 1800 (max 900 n)
       t = { s with power := { s.power with pkgLimit := n, effLimit := t.power.effLimit } } ∧
         900 ≤ t.power.effLimit ∧ t.power.effLimit ≤ w ∧
         ((∀ e ∈ s.power.temps, e.2 ≤ (s.heat e.1).1) → t.power.effLimit = w))) ∧
    (∀ x : Temps, (∀ e ∈ x, e.2 < (s.heat e.1).2.2) → (∀ e ∈ x, (s.heat e.1).1 < (s.heat e.1).2.1) →
      ∃ t, exec (.thermalSample x) s = .next t ∧ { t.unlogged s with power := s.power } = s ∧
        ((∀ e ∈ x, e.2 ≤ (s.heat e.1).1) →
          t.power.thermal = 0 ∧ t.power.lowest = false ∧ t.power.effLimit = min 1800 (max 900 s.power.pkgLimit)) ∧
        ((∃ e ∈ x, (s.heat e.1).2.1 ≤ e.2) →
          t.power.thermal = 2 ∧ t.power.lowest = true ∧ t.power.effLimit = 900)) ∧
    (∀ (x : Temps) e, s.power.down = false → e ∈ x → (s.heat e.1).2.2 ≤ e.2 →
      ∃ t, exec (.thermalSample x) s = .next t ∧ t.power.down = true ∧ t.power.lastReset = 5 ∧ t.power.stage = 0) ∧
    (∀ c, s.power.limitRaised = false → s.power.limitSince = some c → c + 10000000 ≤ s.ns →
      ∃ t, exec .thermalLimit s = .next t ∧ t.unlogged s = { s with power := { s.power with limitRaised := true } }) ∧
    (s.power.refMissing = none → ∃ t, exec .refClkMissing s = .next t ∧
      t = { s with power := { s.power with refMissing := some s.ns } }) ∧
    (∀ c, s.power.refMissing = some c → s.ns ≤ c + 10000 →
      ∃ t n, exec .refClkReturn s = .next t ∧ n ≤ 1 ∧ t.free = s.free + 1 ∧
        { t with free := s.free } = { s with
          power := { s.power with refMissing := none }
          chron := { s.chron with frac := s.chron.frac - 2 ^ 32 * (n : Nat) } })

/-- The chronometer's registers (R58, R60, R63, R557): TIME_SET with its high half sets the count, to a later value
alone and while no step runs; its low half is held; TIME_CTRL takes the mode as written, 3 being FREE, and waits for lock in
HOLDOVER; an estimated error above 50 ns in HOLDOVER is UNLOCKED. -/
def Obligations.ChronometerRegisters : Prop :=
  ∀ (s : State) (v : W64),
    (let set := fun (n : Nat) (t : State) =>
       t = if s.run = none ∧ s.chron.count < n then { s with chron := { s.chron with count := n } } else s
     (∃ t, exec (.timeSet 0 64 v) s = .next t ∧ set v.toNat t) ∧
     (∃ t, exec (.timeSet 0 32 v) s = .next t ∧
       t = { s with chron := { s.chron with setLow := v.setWidth 32 } }) ∧
     (∃ t, exec (.timeSet 4 32 v) s = .next t ∧ set (s.chron.setLow.toNat + 2 ^ 32 * (v.toNat % 2 ^ 32)) t) ∧
     (∀ offset width, ¬ (offset = 0 ∧ width = 64) → ¬ (offset = 0 ∧ width = 32) → ¬ (offset = 4 ∧ width = 32) →
       ∃ t, exec (.timeSet offset width v) s = .next t ∧ t = s) ∧
     (∃ t, exec (.timeCtrlWrite v) s = .next t ∧ { t with chron := s.chron } = s ∧ t.chron.count = s.chron.count ∧
       t.chron.mode = fieldNat v.toNat 1 0 ∧ (fieldNat v.toNat 1 0 = 3 → t.chron.discipline = 0) ∧
       t.chron.parent = fieldNat v.toNat 6 2 ∧ t.chron.state = 1 ∧ t.chron.lastSource = s.ns) ∧
     (∀ n, 50 < n → s.chron.state = 1 → s.chron.discipline ≠ 0 →
       ∃ t, exec (.errorBoundExceeded n) s = .next t ∧
         t.unlogged s = { s with chron := { s.chron with state := 2, bound := satNat 16 n } }))

/-- A live table's commit (R564, R565): COMMIT of a table not pending makes its whole shadow copy active at once, but
for the cadence table and, with a step armed, the dimension table and the port map, which wait; any other identifier and
a pending table are ignored; when the copy is done PENDING clears and the commit is counted. -/
def Obligations.CommitsMakeShadowActive : Prop :=
  ∀ (s : State) (v : W64), risingFrom 0 s.tables = true →
    (let n := fieldNat v.toNat 7 0
     let l := s.tableOf n
     (n = 0 ∨ 9 < n ∨ l.pending = true → ∃ t, exec (.tableCommit v) s = .next t ∧ t = s) ∧
     (1 ≤ n → n ≤ 9 → l.pending = false →
       (n ≠ 6 → (n < 8 ∨ s.fabric.armed = none) →
         ∃ t, exec (.tableCommit v) s = .next t ∧ { t with tables := s.tables } = s ∧
           (∀ m, m ≠ n → t.tableOf m = s.tableOf m) ∧ (t.tableOf n).shadow = l.shadow ∧
           (t.tableOf n).pending = true ∧ (t.tableOf n).passed = true ∧
           ∀ k, t.look n k = some (tget (entryReset n) l.shadow k)) ∧
       ((n = 6 ∨ 8 ≤ n ∧ s.fabric.armed ≠ none) →
         ∃ t, exec (.tableCommit v) s = .next t ∧ { t with tables := s.tables } = s ∧
           t.tableOf n = { l with pending := true, passed := false } ∧ ∀ m, m ≠ n → t.tableOf m = s.tableOf m)) ∧
     (∀ b : Byte, (s.tableOf b.toNat).pending = true → (s.tableOf b.toNat).passed = true → s.commits < 2 ^ 32 - 1 →
       ∃ t, exec (.commitCopyDone b) s = .next t ∧ { t with tables := s.tables, commits := s.commits } = s ∧
         t.commits = s.commits + 1 ∧ t.tableOf b.toNat = { s.tableOf b.toNat with pending := false, passed := false } ∧
         ∀ m, m ≠ b.toNat → t.tableOf m = s.tableOf m))

/-- Writes through the window (R561, R563, R566): a whole entry of a live table goes to the shadow copy, with LIVE to
both copies, the replicas still to follow, until every lookup sees the new entry; a write to a pending table, of another
width or alignment, or to a device table is ignored and marked. -/
def Obligations.WindowWrites : Prop :=
  ∀ (s : State) (offset : Nat) (v : W64), offset < 1048576 → risingFrom 0 s.tables = true →
    (let n := s.winTable
     let l := s.tableOf n
     let k := s.windowAt offset
     let ignored := fun (t : State) => { t with fresh := s.fresh } = { s with winIgnored := true }
     (∀ w m e, liveShape n = some (w, m) → k = w * e → e < m →
       (risingFrom 0 l.shadow = true → risingFrom 0 l.active = true → l.pending = false →
         (s.winLive = false →
           ∃ t, exec (.apertureWrite offset (8 * w) v) s = .next t ∧ { t with tables := s.tables } = s ∧
             (∀ j, tget (entryReset n) (t.tableOf n).shadow j =
               if j = e then entryValue n v else tget (entryReset n) l.shadow j) ∧
             (t.tableOf n).active = l.active ∧ (t.tableOf n).updating = l.updating ∧
             ∀ j, j ≠ n → t.tableOf j = s.tableOf j) ∧
         (s.winLive = true →
           ∃ t, exec (.unprescribedWrite offset (8 * w) v) s = .next t ∧
             { t with tables := s.tables, cad := s.cad } = s ∧ (n ≠ 6 → t.cad = s.cad) ∧
             (∀ j, tget (entryReset n) (t.tableOf n).shadow j =
               if j = e then entryValue n v else tget (entryReset n) l.shadow j) ∧
             (∀ j, t.activeEntry n j = if j = e then entryValue n v else s.activeEntry n j) ∧
             (∀ j, tfind (t.tableOf n).updating j =
               if j = e then some (s.activeEntry n e :: tget [] l.updating e) else tfind l.updating j) ∧
             ∀ j, j ≠ n → t.tableOf j = s.tableOf j)) ∧
       (s.winLive = false → l.pending = true →
         ∃ t, exec (.apertureWrite offset (8 * w) v) s = .next t ∧ ignored t) ∧
       (s.winLive = false → ∀ width, width ≠ 8 * w →
         ∃ t, exec (.apertureWrite offset width v) s = .next t ∧ ignored t)) ∧
     (liveShape n = none → n ≠ 0x26 → k < s.tableSize n → ∀ width,
       ∃ t, exec (.apertureWrite offset width v) s = .next t ∧ ignored t) ∧
     (∀ (b : Byte) e olds, tfind (s.tableOf b.toNat).updating e = some olds →
       risingFrom 0 (s.tableOf b.toNat).updating = true →
       ∃ t, exec (.replicaUpdateDone b e) s = .next t ∧ { t with tables := s.tables } = s ∧
         t.look b.toNat e = some (s.activeEntry b.toNat e)))

/-- Reads with an effect (R12, R523, R525, R557, R559): a whole drop counter is returned and cleared, but for what coincides
with the read; MEMBER_STATUS at its
first offset is returned live, the rest of it latched; FUNC_STATUS with its high half loses its count of ignored
doorbells; a snapshot copies every counter at one count. -/
def Obligations.ReadsWithEffects : Prop :=
  ∀ s : State,
    (∀ i offset, i < 240 → offset < 1048576 → s.winTable = 0x25 → s.windowAt offset = 4 * i → risingFrom 0 s.drops = true →
      ∃ t, exec (.dropCounterRead offset 32) s = .next t ∧ { t with drops := s.drops, out := s.out } = s ∧
        t.out = s.out ++ [.value (BitVec.ofNat 64 (tget 0 s.drops i % 2 ^ 32))] ∧
        ∀ j, tget 0 t.drops j = if j = i then satNat 32 (s.coinciding (keyDrop i)) else tget 0 s.drops j) ∧
    (∃ t, exec (.memberStatusRead 64) s = .next t ∧ t.out = s.out ++ [.value (s.memberStatus.setWidth 64)] ∧
      t.grid = { s.grid with statusLatch := t.grid.statusLatch } ∧
      t.grid.statusLatch.extractLsb' 64 64 = s.memberStatus.extractLsb' 64 64 ∧
      t.grid.statusLatch.setWidth 64 = s.grid.statusLatch.setWidth 64 ∧ { t with grid := s.grid, out := s.out } = s) ∧
    (∃ t, exec (.memberStatusRead 32) s = .next t ∧
      t.out = s.out ++ [.value ((s.memberStatus.setWidth 32).setWidth 64)] ∧
      t.grid = { s.grid with statusLatch := t.grid.statusLatch } ∧
      t.grid.statusLatch.extractLsb' 32 96 = s.memberStatus.extractLsb' 32 96 ∧ { t with grid := s.grid, out := s.out } = s) ∧
    (∀ f : Fn, s.fnEnabled f = true →
      (risingFrom 0 s.fns = true →
        ∃ t, exec (.funcStatusRead f 0 64) s = .next t ∧ t.out = s.out ++ [.value (s.fnOf f).funcStatus] ∧
          t.fnOf f = { s.fnOf f with doorbellIgnored := satNat 32 (s.coinciding (keyDoorbell f)) } ∧ (∀ g, g ≠ f.val → t.fnOf g = s.fnOf g) ∧
          { t with fns := s.fns, out := s.out } = s) ∧
      (∃ t, exec (.funcStatusRead f 0 32) s = .next t ∧
        t = { s with out := s.out ++ [.value ((s.fnOf f).funcStatus &&& 0xFFFF_FFFF)] })) ∧
    (∀ v : W64, v.getLsbD 0 = true →
      ∃ t, exec (.obsSnapshot v) s = .next t ∧ { t with snap := s.snap, snapAt := s.snapAt } = s ∧
        t.snapAt = s.chron.count ∧ ∀ e ∈ s.counters, tget 0 t.snap e.1 = e.2)

/-- Register accesses (R367, R557, R558, R560, R561): BAR2 is function 0's alone; a register of the global block takes a
write of its own width, its fields as written; a write of another width or alignment does nothing. Of the
management path's writes those to REQUEST and RESUME of STOP_CTRL act, those to other registers but TELEM_CTRL_1 do
nothing; its reads return the register, once what loads it is there (log 140). -/
def Obligations.RegisterAccesses : Prop :=
  ∀ (s : State) (v : W64),
    (∀ (f : Fn) offset width, f.val ≠ 0 →
      ∃ t, exec (.registerWrite f true offset width v) s = .next t ∧ t = s) ∧
    ((s.fnOf 0).inReset = false →
      (∀ offset width, offset < 0x100000 → (width ≠ 32 ∧ width ≠ 64) ∨ offset % (width / 8) ≠ 0 →
        ∃ t, exec (.registerWrite 0 true offset width v) s = .next t ∧ t = s) ∧
      (∃ t, exec (.registerWrite 0 true 0x1040 64 v) s = .next t ∧
        t = { s with auditRate := fieldNat v.toNat 4 0 }) ∧
      (∃ t, exec (.registerWrite 0 true 0x1048 64 v) s = .next t ∧
        t = { s with waitLimit := fieldNat v.toNat 31 0 }) ∧
      (∃ t, exec (.registerWrite 0 true 0x1200 64 v) s = .next t ∧ t = { s with selfVpkg := fieldNat v.toNat 14 0 }) ∧
      (∃ t, exec (.registerWrite 0 true 0x1300 64 v) s = .next t ∧
        t = { s with cad := { s.cad with nextCompact := bitNat v.toNat 0, nextLast := fieldNat v.toNat 10 1
                                         nextCtrlLen := fieldNat v.toNat 23 16 } }) ∧
      (∃ t, exec (.registerWrite 0 true 0x4000 64 v) s = .next t ∧
        t = { s with winTable := fieldNat v.toNat 7 0, winLive := bitNat v.toNat 8, winBase := fieldNat v.toNat 63 20 })) ∧
    (∀ offset width, offset ≠ 0x1420 → ∃ t, exec (.mctpRegisterAccess false offset width v) s = .next t ∧
      (s.regLoaded (offset / 8 * 8) = true → t = { s with out := s.out ++ [.value (s.globalRead offset width)] }) ∧
      (s.regLoaded (offset / 8 * 8) = false → t = s)) ∧
    (∀ offset width, offset ≠ 0x3200 → offset / 8 ≠ 0x3008 / 8 → offset < 0x100000 →
      ∃ t, exec (.mctpRegisterAccess true offset width v) s = .next t ∧ t = s) ∧
    (v.getLsbD 0 = true → v.getLsbD 1 = false → s.stop.state = 0 →
      ∃ t, exec (.mctpRegisterAccess true 0x3200 32 v) s = .next t ∧ t.stop.state = 1 ∧ t.stop.causes = 2 ^ 3 ∧
        t.stop.ending = false ∧ t.stop.scanPermit = s.stop.scanPermit ∧ { t with stop := s.stop } = s)
end

