-- ==== Sys2Proof/Laws/State.lean ====
section
/-!
SUPPORT. One lemma per update of the state and field it leaves: what an accessor does not write.
-/

namespace Sys2Proof.Laws

open Sys2Proof.Machine

variable (s : State)

@[simp] theorem setMv_pending (n : Nat) (x : Mvmt) : (s.setMv n x).pending = s.pending := rfl
@[simp] theorem setMv_ns (n : Nat) (x : Mvmt) : (s.setMv n x).ns = s.ns := rfl
@[simp] theorem setMv_free (n : Nat) (x : Mvmt) : (s.setMv n x).free = s.free := rfl
@[simp] theorem setMv_out (n : Nat) (x : Mvmt) : (s.setMv n x).out = s.out := rfl
@[simp] theorem setMv_chron (n : Nat) (x : Mvmt) : (s.setMv n x).chron = s.chron := rfl
@[simp] theorem setMv_fuses (n : Nat) (x : Mvmt) : (s.setMv n x).fuses = s.fuses := rfl
@[simp] theorem setMv_boot (n : Nat) (x : Mvmt) : (s.setMv n x).boot = s.boot := rfl
@[simp] theorem setMv_power (n : Nat) (x : Mvmt) : (s.setMv n x).power = s.power := rfl
@[simp] theorem setMv_chan (n : Nat) (x : Mvmt) : (s.setMv n x).chan = s.chan := rfl
@[simp] theorem setMv_seq (n : Nat) (x : Mvmt) : (s.setMv n x).seq = s.seq := rfl
@[simp] theorem setMv_queue (n : Nat) (x : Mvmt) : (s.setMv n x).queue = s.queue := rfl
@[simp] theorem setMv_matrix (n : Nat) (x : Mvmt) : (s.setMv n x).matrix = s.matrix := rfl
@[simp] theorem setMv_vector (n : Nat) (x : Mvmt) : (s.setMv n x).vector = s.vector := rfl
@[simp] theorem setMv_skiver (n : Nat) (x : Mvmt) : (s.setMv n x).skiver = s.skiver := rfl
@[simp] theorem setMv_bridle (n : Nat) (x : Mvmt) : (s.setMv n x).bridle = s.bridle := rfl
@[simp] theorem setMv_aw (n : Nat) (x : Mvmt) : (s.setMv n x).aw = s.aw := rfl
@[simp] theorem setMv_stack (n : Nat) (x : Mvmt) : (s.setMv n x).stack = s.stack := rfl
@[simp] theorem setMv_domains (n : Nat) (x : Mvmt) : (s.setMv n x).domains = s.domains := rfl
@[simp] theorem setMv_streams (n : Nat) (x : Mvmt) : (s.setMv n x).streams = s.streams := rfl
@[simp] theorem setMv_pages (n : Nat) (x : Mvmt) : (s.setMv n x).pages = s.pages := rfl
@[simp] theorem setMv_slots (n : Nat) (x : Mvmt) : (s.setMv n x).slots = s.slots := rfl
@[simp] theorem setMv_sets (n : Nat) (x : Mvmt) : (s.setMv n x).sets = s.sets := rfl
@[simp] theorem setMv_loads (n : Nat) (x : Mvmt) : (s.setMv n x).loads = s.loads := rfl
@[simp] theorem setMv_fns (n : Nat) (x : Mvmt) : (s.setMv n x).fns = s.fns := rfl
@[simp] theorem setMv_intake (n : Nat) (x : Mvmt) : (s.setMv n x).intake = s.intake := rfl
@[simp] theorem setMv_cad (n : Nat) (x : Mvmt) : (s.setMv n x).cad = s.cad := rfl
@[simp] theorem setMv_tables (n : Nat) (x : Mvmt) : (s.setMv n x).tables = s.tables := rfl
@[simp] theorem setMv_steps (n : Nat) (x : Mvmt) : (s.setMv n x).steps = s.steps := rfl
@[simp] theorem setMv_run (n : Nat) (x : Mvmt) : (s.setMv n x).run = s.run := rfl
@[simp] theorem setMv_tenancy (n : Nat) (x : Mvmt) : (s.setMv n x).tenancy = s.tenancy := rfl
@[simp] theorem setMv_ports (n : Nat) (x : Mvmt) : (s.setMv n x).ports = s.ports := rfl
@[simp] theorem setMv_links (n : Nat) (x : Mvmt) : (s.setMv n x).links = s.links := rfl
@[simp] theorem setMv_fabric (n : Nat) (x : Mvmt) : (s.setMv n x).fabric = s.fabric := rfl
@[simp] theorem setMv_grid (n : Nat) (x : Mvmt) : (s.setMv n x).grid = s.grid := rfl
@[simp] theorem setMv_paths (n : Nat) (x : Mvmt) : (s.setMv n x).paths = s.paths := rfl
@[simp] theorem setMv_latch (n : Nat) (x : Mvmt) : (s.setMv n x).latch = s.latch := rfl
@[simp] theorem setMv_hub (n : Nat) (x : Mvmt) : (s.setMv n x).hub = s.hub := rfl
@[simp] theorem setMv_fresh (n : Nat) (x : Mvmt) : (s.setMv n x).fresh = s.fresh := rfl
@[simp] theorem setMv_stop (n : Nat) (x : Mvmt) : (s.setMv n x).stop = s.stop := rfl
@[simp] theorem setMv_trace (n : Nat) (x : Mvmt) : (s.setMv n x).trace = s.trace := rfl
@[simp] theorem setMv_replay (n : Nat) (x : Mvmt) : (s.setMv n x).replay = s.replay := rfl
@[simp] theorem setMv_mv (n : Nat) (x : Mvmt) : (s.setMv n x).mv = tset {} s.mv n x := rfl

@[simp] theorem setSeq_pending (n : Nat) (x : Seq) : (s.setSeq n x).pending = s.pending := rfl
@[simp] theorem setSeq_ns (n : Nat) (x : Seq) : (s.setSeq n x).ns = s.ns := rfl
@[simp] theorem setSeq_free (n : Nat) (x : Seq) : (s.setSeq n x).free = s.free := rfl
@[simp] theorem setSeq_out (n : Nat) (x : Seq) : (s.setSeq n x).out = s.out := rfl
@[simp] theorem setSeq_chron (n : Nat) (x : Seq) : (s.setSeq n x).chron = s.chron := rfl
@[simp] theorem setSeq_fuses (n : Nat) (x : Seq) : (s.setSeq n x).fuses = s.fuses := rfl
@[simp] theorem setSeq_boot (n : Nat) (x : Seq) : (s.setSeq n x).boot = s.boot := rfl
@[simp] theorem setSeq_power (n : Nat) (x : Seq) : (s.setSeq n x).power = s.power := rfl
@[simp] theorem setSeq_mv (n : Nat) (x : Seq) : (s.setSeq n x).mv = s.mv := rfl
@[simp] theorem setSeq_chan (n : Nat) (x : Seq) : (s.setSeq n x).chan = s.chan := rfl
@[simp] theorem setSeq_queue (n : Nat) (x : Seq) : (s.setSeq n x).queue = s.queue := rfl
@[simp] theorem setSeq_matrix (n : Nat) (x : Seq) : (s.setSeq n x).matrix = s.matrix := rfl
@[simp] theorem setSeq_vector (n : Nat) (x : Seq) : (s.setSeq n x).vector = s.vector := rfl
@[simp] theorem setSeq_skiver (n : Nat) (x : Seq) : (s.setSeq n x).skiver = s.skiver := rfl
@[simp] theorem setSeq_bridle (n : Nat) (x : Seq) : (s.setSeq n x).bridle = s.bridle := rfl
@[simp] theorem setSeq_aw (n : Nat) (x : Seq) : (s.setSeq n x).aw = s.aw := rfl
@[simp] theorem setSeq_stack (n : Nat) (x : Seq) : (s.setSeq n x).stack = s.stack := rfl
@[simp] theorem setSeq_domains (n : Nat) (x : Seq) : (s.setSeq n x).domains = s.domains := rfl
@[simp] theorem setSeq_streams (n : Nat) (x : Seq) : (s.setSeq n x).streams = s.streams := rfl
@[simp] theorem setSeq_pages (n : Nat) (x : Seq) : (s.setSeq n x).pages = s.pages := rfl
@[simp] theorem setSeq_slots (n : Nat) (x : Seq) : (s.setSeq n x).slots = s.slots := rfl
@[simp] theorem setSeq_sets (n : Nat) (x : Seq) : (s.setSeq n x).sets = s.sets := rfl
@[simp] theorem setSeq_loads (n : Nat) (x : Seq) : (s.setSeq n x).loads = s.loads := rfl
@[simp] theorem setSeq_fns (n : Nat) (x : Seq) : (s.setSeq n x).fns = s.fns := rfl
@[simp] theorem setSeq_intake (n : Nat) (x : Seq) : (s.setSeq n x).intake = s.intake := rfl
@[simp] theorem setSeq_cad (n : Nat) (x : Seq) : (s.setSeq n x).cad = s.cad := rfl
@[simp] theorem setSeq_tables (n : Nat) (x : Seq) : (s.setSeq n x).tables = s.tables := rfl
@[simp] theorem setSeq_steps (n : Nat) (x : Seq) : (s.setSeq n x).steps = s.steps := rfl
@[simp] theorem setSeq_run (n : Nat) (x : Seq) : (s.setSeq n x).run = s.run := rfl
@[simp] theorem setSeq_tenancy (n : Nat) (x : Seq) : (s.setSeq n x).tenancy = s.tenancy := rfl
@[simp] theorem setSeq_ports (n : Nat) (x : Seq) : (s.setSeq n x).ports = s.ports := rfl
@[simp] theorem setSeq_links (n : Nat) (x : Seq) : (s.setSeq n x).links = s.links := rfl
@[simp] theorem setSeq_fabric (n : Nat) (x : Seq) : (s.setSeq n x).fabric = s.fabric := rfl
@[simp] theorem setSeq_grid (n : Nat) (x : Seq) : (s.setSeq n x).grid = s.grid := rfl
@[simp] theorem setSeq_paths (n : Nat) (x : Seq) : (s.setSeq n x).paths = s.paths := rfl
@[simp] theorem setSeq_latch (n : Nat) (x : Seq) : (s.setSeq n x).latch = s.latch := rfl
@[simp] theorem setSeq_hub (n : Nat) (x : Seq) : (s.setSeq n x).hub = s.hub := rfl
@[simp] theorem setSeq_fresh (n : Nat) (x : Seq) : (s.setSeq n x).fresh = s.fresh := rfl
@[simp] theorem setSeq_stop (n : Nat) (x : Seq) : (s.setSeq n x).stop = s.stop := rfl
@[simp] theorem setSeq_trace (n : Nat) (x : Seq) : (s.setSeq n x).trace = s.trace := rfl
@[simp] theorem setSeq_replay (n : Nat) (x : Seq) : (s.setSeq n x).replay = s.replay := rfl
@[simp] theorem setSeq_seq (n : Nat) (x : Seq) : (s.setSeq n x).seq = tset {} s.seq n x := rfl

@[simp] theorem setQ_pending (n : Nat) (x : Queue) : (s.setQ n x).pending = s.pending := rfl
@[simp] theorem setQ_ns (n : Nat) (x : Queue) : (s.setQ n x).ns = s.ns := rfl
@[simp] theorem setQ_free (n : Nat) (x : Queue) : (s.setQ n x).free = s.free := rfl
@[simp] theorem setQ_out (n : Nat) (x : Queue) : (s.setQ n x).out = s.out := rfl
@[simp] theorem setQ_chron (n : Nat) (x : Queue) : (s.setQ n x).chron = s.chron := rfl
@[simp] theorem setQ_fuses (n : Nat) (x : Queue) : (s.setQ n x).fuses = s.fuses := rfl
@[simp] theorem setQ_boot (n : Nat) (x : Queue) : (s.setQ n x).boot = s.boot := rfl
@[simp] theorem setQ_power (n : Nat) (x : Queue) : (s.setQ n x).power = s.power := rfl
@[simp] theorem setQ_mv (n : Nat) (x : Queue) : (s.setQ n x).mv = s.mv := rfl
@[simp] theorem setQ_chan (n : Nat) (x : Queue) : (s.setQ n x).chan = s.chan := rfl
@[simp] theorem setQ_seq (n : Nat) (x : Queue) : (s.setQ n x).seq = s.seq := rfl
@[simp] theorem setQ_matrix (n : Nat) (x : Queue) : (s.setQ n x).matrix = s.matrix := rfl
@[simp] theorem setQ_vector (n : Nat) (x : Queue) : (s.setQ n x).vector = s.vector := rfl
@[simp] theorem setQ_skiver (n : Nat) (x : Queue) : (s.setQ n x).skiver = s.skiver := rfl
@[simp] theorem setQ_bridle (n : Nat) (x : Queue) : (s.setQ n x).bridle = s.bridle := rfl
@[simp] theorem setQ_aw (n : Nat) (x : Queue) : (s.setQ n x).aw = s.aw := rfl
@[simp] theorem setQ_stack (n : Nat) (x : Queue) : (s.setQ n x).stack = s.stack := rfl
@[simp] theorem setQ_domains (n : Nat) (x : Queue) : (s.setQ n x).domains = s.domains := rfl
@[simp] theorem setQ_streams (n : Nat) (x : Queue) : (s.setQ n x).streams = s.streams := rfl
@[simp] theorem setQ_pages (n : Nat) (x : Queue) : (s.setQ n x).pages = s.pages := rfl
@[simp] theorem setQ_slots (n : Nat) (x : Queue) : (s.setQ n x).slots = s.slots := rfl
@[simp] theorem setQ_sets (n : Nat) (x : Queue) : (s.setQ n x).sets = s.sets := rfl
@[simp] theorem setQ_loads (n : Nat) (x : Queue) : (s.setQ n x).loads = s.loads := rfl
@[simp] theorem setQ_fns (n : Nat) (x : Queue) : (s.setQ n x).fns = s.fns := rfl
@[simp] theorem setQ_intake (n : Nat) (x : Queue) : (s.setQ n x).intake = s.intake := rfl
@[simp] theorem setQ_cad (n : Nat) (x : Queue) : (s.setQ n x).cad = s.cad := rfl
@[simp] theorem setQ_tables (n : Nat) (x : Queue) : (s.setQ n x).tables = s.tables := rfl
@[simp] theorem setQ_steps (n : Nat) (x : Queue) : (s.setQ n x).steps = s.steps := rfl
@[simp] theorem setQ_run (n : Nat) (x : Queue) : (s.setQ n x).run = s.run := rfl
@[simp] theorem setQ_tenancy (n : Nat) (x : Queue) : (s.setQ n x).tenancy = s.tenancy := rfl
@[simp] theorem setQ_ports (n : Nat) (x : Queue) : (s.setQ n x).ports = s.ports := rfl
@[simp] theorem setQ_links (n : Nat) (x : Queue) : (s.setQ n x).links = s.links := rfl
@[simp] theorem setQ_fabric (n : Nat) (x : Queue) : (s.setQ n x).fabric = s.fabric := rfl
@[simp] theorem setQ_grid (n : Nat) (x : Queue) : (s.setQ n x).grid = s.grid := rfl
@[simp] theorem setQ_paths (n : Nat) (x : Queue) : (s.setQ n x).paths = s.paths := rfl
@[simp] theorem setQ_latch (n : Nat) (x : Queue) : (s.setQ n x).latch = s.latch := rfl
@[simp] theorem setQ_hub (n : Nat) (x : Queue) : (s.setQ n x).hub = s.hub := rfl
@[simp] theorem setQ_fresh (n : Nat) (x : Queue) : (s.setQ n x).fresh = s.fresh := rfl
@[simp] theorem setQ_stop (n : Nat) (x : Queue) : (s.setQ n x).stop = s.stop := rfl
@[simp] theorem setQ_trace (n : Nat) (x : Queue) : (s.setQ n x).trace = s.trace := rfl
@[simp] theorem setQ_replay (n : Nat) (x : Queue) : (s.setQ n x).replay = s.replay := rfl
@[simp] theorem setQ_queue (n : Nat) (x : Queue) : (s.setQ n x).queue = tset {} s.queue n x := rfl

@[simp] theorem setMat_pending (n : Nat) (x : Matrix) : (s.setMat n x).pending = s.pending := rfl
@[simp] theorem setMat_ns (n : Nat) (x : Matrix) : (s.setMat n x).ns = s.ns := rfl
@[simp] theorem setMat_free (n : Nat) (x : Matrix) : (s.setMat n x).free = s.free := rfl
@[simp] theorem setMat_out (n : Nat) (x : Matrix) : (s.setMat n x).out = s.out := rfl
@[simp] theorem setMat_chron (n : Nat) (x : Matrix) : (s.setMat n x).chron = s.chron := rfl
@[simp] theorem setMat_fuses (n : Nat) (x : Matrix) : (s.setMat n x).fuses = s.fuses := rfl
@[simp] theorem setMat_boot (n : Nat) (x : Matrix) : (s.setMat n x).boot = s.boot := rfl
@[simp] theorem setMat_power (n : Nat) (x : Matrix) : (s.setMat n x).power = s.power := rfl
@[simp] theorem setMat_mv (n : Nat) (x : Matrix) : (s.setMat n x).mv = s.mv := rfl
@[simp] theorem setMat_chan (n : Nat) (x : Matrix) : (s.setMat n x).chan = s.chan := rfl
@[simp] theorem setMat_seq (n : Nat) (x : Matrix) : (s.setMat n x).seq = s.seq := rfl
@[simp] theorem setMat_queue (n : Nat) (x : Matrix) : (s.setMat n x).queue = s.queue := rfl
@[simp] theorem setMat_vector (n : Nat) (x : Matrix) : (s.setMat n x).vector = s.vector := rfl
@[simp] theorem setMat_skiver (n : Nat) (x : Matrix) : (s.setMat n x).skiver = s.skiver := rfl
@[simp] theorem setMat_bridle (n : Nat) (x : Matrix) : (s.setMat n x).bridle = s.bridle := rfl
@[simp] theorem setMat_aw (n : Nat) (x : Matrix) : (s.setMat n x).aw = s.aw := rfl
@[simp] theorem setMat_stack (n : Nat) (x : Matrix) : (s.setMat n x).stack = s.stack := rfl
@[simp] theorem setMat_domains (n : Nat) (x : Matrix) : (s.setMat n x).domains = s.domains := rfl
@[simp] theorem setMat_streams (n : Nat) (x : Matrix) : (s.setMat n x).streams = s.streams := rfl
@[simp] theorem setMat_pages (n : Nat) (x : Matrix) : (s.setMat n x).pages = s.pages := rfl
@[simp] theorem setMat_slots (n : Nat) (x : Matrix) : (s.setMat n x).slots = s.slots := rfl
@[simp] theorem setMat_sets (n : Nat) (x : Matrix) : (s.setMat n x).sets = s.sets := rfl
@[simp] theorem setMat_loads (n : Nat) (x : Matrix) : (s.setMat n x).loads = s.loads := rfl
@[simp] theorem setMat_fns (n : Nat) (x : Matrix) : (s.setMat n x).fns = s.fns := rfl
@[simp] theorem setMat_intake (n : Nat) (x : Matrix) : (s.setMat n x).intake = s.intake := rfl
@[simp] theorem setMat_cad (n : Nat) (x : Matrix) : (s.setMat n x).cad = s.cad := rfl
@[simp] theorem setMat_tables (n : Nat) (x : Matrix) : (s.setMat n x).tables = s.tables := rfl
@[simp] theorem setMat_steps (n : Nat) (x : Matrix) : (s.setMat n x).steps = s.steps := rfl
@[simp] theorem setMat_run (n : Nat) (x : Matrix) : (s.setMat n x).run = s.run := rfl
@[simp] theorem setMat_tenancy (n : Nat) (x : Matrix) : (s.setMat n x).tenancy = s.tenancy := rfl
@[simp] theorem setMat_ports (n : Nat) (x : Matrix) : (s.setMat n x).ports = s.ports := rfl
@[simp] theorem setMat_links (n : Nat) (x : Matrix) : (s.setMat n x).links = s.links := rfl
@[simp] theorem setMat_fabric (n : Nat) (x : Matrix) : (s.setMat n x).fabric = s.fabric := rfl
@[simp] theorem setMat_grid (n : Nat) (x : Matrix) : (s.setMat n x).grid = s.grid := rfl
@[simp] theorem setMat_paths (n : Nat) (x : Matrix) : (s.setMat n x).paths = s.paths := rfl
@[simp] theorem setMat_latch (n : Nat) (x : Matrix) : (s.setMat n x).latch = s.latch := rfl
@[simp] theorem setMat_hub (n : Nat) (x : Matrix) : (s.setMat n x).hub = s.hub := rfl
@[simp] theorem setMat_fresh (n : Nat) (x : Matrix) : (s.setMat n x).fresh = s.fresh := rfl
@[simp] theorem setMat_stop (n : Nat) (x : Matrix) : (s.setMat n x).stop = s.stop := rfl
@[simp] theorem setMat_trace (n : Nat) (x : Matrix) : (s.setMat n x).trace = s.trace := rfl
@[simp] theorem setMat_replay (n : Nat) (x : Matrix) : (s.setMat n x).replay = s.replay := rfl
@[simp] theorem setMat_matrix (n : Nat) (x : Matrix) : (s.setMat n x).matrix = tset {} s.matrix n x := rfl

@[simp] theorem setVec_pending (n : Nat) (x : Vector) : (s.setVec n x).pending = s.pending := rfl
@[simp] theorem setVec_ns (n : Nat) (x : Vector) : (s.setVec n x).ns = s.ns := rfl
@[simp] theorem setVec_free (n : Nat) (x : Vector) : (s.setVec n x).free = s.free := rfl
@[simp] theorem setVec_out (n : Nat) (x : Vector) : (s.setVec n x).out = s.out := rfl
@[simp] theorem setVec_chron (n : Nat) (x : Vector) : (s.setVec n x).chron = s.chron := rfl
@[simp] theorem setVec_fuses (n : Nat) (x : Vector) : (s.setVec n x).fuses = s.fuses := rfl
@[simp] theorem setVec_boot (n : Nat) (x : Vector) : (s.setVec n x).boot = s.boot := rfl
@[simp] theorem setVec_power (n : Nat) (x : Vector) : (s.setVec n x).power = s.power := rfl
@[simp] theorem setVec_mv (n : Nat) (x : Vector) : (s.setVec n x).mv = s.mv := rfl
@[simp] theorem setVec_chan (n : Nat) (x : Vector) : (s.setVec n x).chan = s.chan := rfl
@[simp] theorem setVec_seq (n : Nat) (x : Vector) : (s.setVec n x).seq = s.seq := rfl
@[simp] theorem setVec_queue (n : Nat) (x : Vector) : (s.setVec n x).queue = s.queue := rfl
@[simp] theorem setVec_matrix (n : Nat) (x : Vector) : (s.setVec n x).matrix = s.matrix := rfl
@[simp] theorem setVec_skiver (n : Nat) (x : Vector) : (s.setVec n x).skiver = s.skiver := rfl
@[simp] theorem setVec_bridle (n : Nat) (x : Vector) : (s.setVec n x).bridle = s.bridle := rfl
@[simp] theorem setVec_aw (n : Nat) (x : Vector) : (s.setVec n x).aw = s.aw := rfl
@[simp] theorem setVec_stack (n : Nat) (x : Vector) : (s.setVec n x).stack = s.stack := rfl
@[simp] theorem setVec_domains (n : Nat) (x : Vector) : (s.setVec n x).domains = s.domains := rfl
@[simp] theorem setVec_streams (n : Nat) (x : Vector) : (s.setVec n x).streams = s.streams := rfl
@[simp] theorem setVec_pages (n : Nat) (x : Vector) : (s.setVec n x).pages = s.pages := rfl
@[simp] theorem setVec_slots (n : Nat) (x : Vector) : (s.setVec n x).slots = s.slots := rfl
@[simp] theorem setVec_sets (n : Nat) (x : Vector) : (s.setVec n x).sets = s.sets := rfl
@[simp] theorem setVec_loads (n : Nat) (x : Vector) : (s.setVec n x).loads = s.loads := rfl
@[simp] theorem setVec_fns (n : Nat) (x : Vector) : (s.setVec n x).fns = s.fns := rfl
@[simp] theorem setVec_intake (n : Nat) (x : Vector) : (s.setVec n x).intake = s.intake := rfl
@[simp] theorem setVec_cad (n : Nat) (x : Vector) : (s.setVec n x).cad = s.cad := rfl
@[simp] theorem setVec_tables (n : Nat) (x : Vector) : (s.setVec n x).tables = s.tables := rfl
@[simp] theorem setVec_steps (n : Nat) (x : Vector) : (s.setVec n x).steps = s.steps := rfl
@[simp] theorem setVec_run (n : Nat) (x : Vector) : (s.setVec n x).run = s.run := rfl
@[simp] theorem setVec_tenancy (n : Nat) (x : Vector) : (s.setVec n x).tenancy = s.tenancy := rfl
@[simp] theorem setVec_ports (n : Nat) (x : Vector) : (s.setVec n x).ports = s.ports := rfl
@[simp] theorem setVec_links (n : Nat) (x : Vector) : (s.setVec n x).links = s.links := rfl
@[simp] theorem setVec_fabric (n : Nat) (x : Vector) : (s.setVec n x).fabric = s.fabric := rfl
@[simp] theorem setVec_grid (n : Nat) (x : Vector) : (s.setVec n x).grid = s.grid := rfl
@[simp] theorem setVec_paths (n : Nat) (x : Vector) : (s.setVec n x).paths = s.paths := rfl
@[simp] theorem setVec_latch (n : Nat) (x : Vector) : (s.setVec n x).latch = s.latch := rfl
@[simp] theorem setVec_hub (n : Nat) (x : Vector) : (s.setVec n x).hub = s.hub := rfl
@[simp] theorem setVec_fresh (n : Nat) (x : Vector) : (s.setVec n x).fresh = s.fresh := rfl
@[simp] theorem setVec_stop (n : Nat) (x : Vector) : (s.setVec n x).stop = s.stop := rfl
@[simp] theorem setVec_trace (n : Nat) (x : Vector) : (s.setVec n x).trace = s.trace := rfl
@[simp] theorem setVec_replay (n : Nat) (x : Vector) : (s.setVec n x).replay = s.replay := rfl
@[simp] theorem setVec_vector (n : Nat) (x : Vector) : (s.setVec n x).vector = tset {} s.vector n x := rfl

@[simp] theorem setSk_pending (n : Nat) (x : Skiver) : (s.setSk n x).pending = s.pending := rfl
@[simp] theorem setSk_ns (n : Nat) (x : Skiver) : (s.setSk n x).ns = s.ns := rfl
@[simp] theorem setSk_free (n : Nat) (x : Skiver) : (s.setSk n x).free = s.free := rfl
@[simp] theorem setSk_out (n : Nat) (x : Skiver) : (s.setSk n x).out = s.out := rfl
@[simp] theorem setSk_chron (n : Nat) (x : Skiver) : (s.setSk n x).chron = s.chron := rfl
@[simp] theorem setSk_fuses (n : Nat) (x : Skiver) : (s.setSk n x).fuses = s.fuses := rfl
@[simp] theorem setSk_boot (n : Nat) (x : Skiver) : (s.setSk n x).boot = s.boot := rfl
@[simp] theorem setSk_power (n : Nat) (x : Skiver) : (s.setSk n x).power = s.power := rfl
@[simp] theorem setSk_mv (n : Nat) (x : Skiver) : (s.setSk n x).mv = s.mv := rfl
@[simp] theorem setSk_chan (n : Nat) (x : Skiver) : (s.setSk n x).chan = s.chan := rfl
@[simp] theorem setSk_seq (n : Nat) (x : Skiver) : (s.setSk n x).seq = s.seq := rfl
@[simp] theorem setSk_queue (n : Nat) (x : Skiver) : (s.setSk n x).queue = s.queue := rfl
@[simp] theorem setSk_matrix (n : Nat) (x : Skiver) : (s.setSk n x).matrix = s.matrix := rfl
@[simp] theorem setSk_vector (n : Nat) (x : Skiver) : (s.setSk n x).vector = s.vector := rfl
@[simp] theorem setSk_bridle (n : Nat) (x : Skiver) : (s.setSk n x).bridle = s.bridle := rfl
@[simp] theorem setSk_aw (n : Nat) (x : Skiver) : (s.setSk n x).aw = s.aw := rfl
@[simp] theorem setSk_stack (n : Nat) (x : Skiver) : (s.setSk n x).stack = s.stack := rfl
@[simp] theorem setSk_domains (n : Nat) (x : Skiver) : (s.setSk n x).domains = s.domains := rfl
@[simp] theorem setSk_streams (n : Nat) (x : Skiver) : (s.setSk n x).streams = s.streams := rfl
@[simp] theorem setSk_pages (n : Nat) (x : Skiver) : (s.setSk n x).pages = s.pages := rfl
@[simp] theorem setSk_slots (n : Nat) (x : Skiver) : (s.setSk n x).slots = s.slots := rfl
@[simp] theorem setSk_sets (n : Nat) (x : Skiver) : (s.setSk n x).sets = s.sets := rfl
@[simp] theorem setSk_loads (n : Nat) (x : Skiver) : (s.setSk n x).loads = s.loads := rfl
@[simp] theorem setSk_fns (n : Nat) (x : Skiver) : (s.setSk n x).fns = s.fns := rfl
@[simp] theorem setSk_intake (n : Nat) (x : Skiver) : (s.setSk n x).intake = s.intake := rfl
@[simp] theorem setSk_cad (n : Nat) (x : Skiver) : (s.setSk n x).cad = s.cad := rfl
@[simp] theorem setSk_tables (n : Nat) (x : Skiver) : (s.setSk n x).tables = s.tables := rfl
@[simp] theorem setSk_steps (n : Nat) (x : Skiver) : (s.setSk n x).steps = s.steps := rfl
@[simp] theorem setSk_run (n : Nat) (x : Skiver) : (s.setSk n x).run = s.run := rfl
@[simp] theorem setSk_tenancy (n : Nat) (x : Skiver) : (s.setSk n x).tenancy = s.tenancy := rfl
@[simp] theorem setSk_ports (n : Nat) (x : Skiver) : (s.setSk n x).ports = s.ports := rfl
@[simp] theorem setSk_links (n : Nat) (x : Skiver) : (s.setSk n x).links = s.links := rfl
@[simp] theorem setSk_fabric (n : Nat) (x : Skiver) : (s.setSk n x).fabric = s.fabric := rfl
@[simp] theorem setSk_grid (n : Nat) (x : Skiver) : (s.setSk n x).grid = s.grid := rfl
@[simp] theorem setSk_paths (n : Nat) (x : Skiver) : (s.setSk n x).paths = s.paths := rfl
@[simp] theorem setSk_latch (n : Nat) (x : Skiver) : (s.setSk n x).latch = s.latch := rfl
@[simp] theorem setSk_hub (n : Nat) (x : Skiver) : (s.setSk n x).hub = s.hub := rfl
@[simp] theorem setSk_fresh (n : Nat) (x : Skiver) : (s.setSk n x).fresh = s.fresh := rfl
@[simp] theorem setSk_stop (n : Nat) (x : Skiver) : (s.setSk n x).stop = s.stop := rfl
@[simp] theorem setSk_trace (n : Nat) (x : Skiver) : (s.setSk n x).trace = s.trace := rfl
@[simp] theorem setSk_replay (n : Nat) (x : Skiver) : (s.setSk n x).replay = s.replay := rfl
@[simp] theorem setSk_skiver (n : Nat) (x : Skiver) : (s.setSk n x).skiver = tset {} s.skiver n x := rfl

@[simp] theorem setBr_pending (n : Nat) (x : Bridle) : (s.setBr n x).pending = s.pending := rfl
@[simp] theorem setBr_ns (n : Nat) (x : Bridle) : (s.setBr n x).ns = s.ns := rfl
@[simp] theorem setBr_free (n : Nat) (x : Bridle) : (s.setBr n x).free = s.free := rfl
@[simp] theorem setBr_out (n : Nat) (x : Bridle) : (s.setBr n x).out = s.out := rfl
@[simp] theorem setBr_chron (n : Nat) (x : Bridle) : (s.setBr n x).chron = s.chron := rfl
@[simp] theorem setBr_fuses (n : Nat) (x : Bridle) : (s.setBr n x).fuses = s.fuses := rfl
@[simp] theorem setBr_boot (n : Nat) (x : Bridle) : (s.setBr n x).boot = s.boot := rfl
@[simp] theorem setBr_power (n : Nat) (x : Bridle) : (s.setBr n x).power = s.power := rfl
@[simp] theorem setBr_mv (n : Nat) (x : Bridle) : (s.setBr n x).mv = s.mv := rfl
@[simp] theorem setBr_chan (n : Nat) (x : Bridle) : (s.setBr n x).chan = s.chan := rfl
@[simp] theorem setBr_seq (n : Nat) (x : Bridle) : (s.setBr n x).seq = s.seq := rfl
@[simp] theorem setBr_queue (n : Nat) (x : Bridle) : (s.setBr n x).queue = s.queue := rfl
@[simp] theorem setBr_matrix (n : Nat) (x : Bridle) : (s.setBr n x).matrix = s.matrix := rfl
@[simp] theorem setBr_vector (n : Nat) (x : Bridle) : (s.setBr n x).vector = s.vector := rfl
@[simp] theorem setBr_skiver (n : Nat) (x : Bridle) : (s.setBr n x).skiver = s.skiver := rfl
@[simp] theorem setBr_aw (n : Nat) (x : Bridle) : (s.setBr n x).aw = s.aw := rfl
@[simp] theorem setBr_stack (n : Nat) (x : Bridle) : (s.setBr n x).stack = s.stack := rfl
@[simp] theorem setBr_domains (n : Nat) (x : Bridle) : (s.setBr n x).domains = s.domains := rfl
@[simp] theorem setBr_streams (n : Nat) (x : Bridle) : (s.setBr n x).streams = s.streams := rfl
@[simp] theorem setBr_pages (n : Nat) (x : Bridle) : (s.setBr n x).pages = s.pages := rfl
@[simp] theorem setBr_slots (n : Nat) (x : Bridle) : (s.setBr n x).slots = s.slots := rfl
@[simp] theorem setBr_sets (n : Nat) (x : Bridle) : (s.setBr n x).sets = s.sets := rfl
@[simp] theorem setBr_loads (n : Nat) (x : Bridle) : (s.setBr n x).loads = s.loads := rfl
@[simp] theorem setBr_fns (n : Nat) (x : Bridle) : (s.setBr n x).fns = s.fns := rfl
@[simp] theorem setBr_intake (n : Nat) (x : Bridle) : (s.setBr n x).intake = s.intake := rfl
@[simp] theorem setBr_cad (n : Nat) (x : Bridle) : (s.setBr n x).cad = s.cad := rfl
@[simp] theorem setBr_tables (n : Nat) (x : Bridle) : (s.setBr n x).tables = s.tables := rfl
@[simp] theorem setBr_steps (n : Nat) (x : Bridle) : (s.setBr n x).steps = s.steps := rfl
@[simp] theorem setBr_run (n : Nat) (x : Bridle) : (s.setBr n x).run = s.run := rfl
@[simp] theorem setBr_tenancy (n : Nat) (x : Bridle) : (s.setBr n x).tenancy = s.tenancy := rfl
@[simp] theorem setBr_ports (n : Nat) (x : Bridle) : (s.setBr n x).ports = s.ports := rfl
@[simp] theorem setBr_links (n : Nat) (x : Bridle) : (s.setBr n x).links = s.links := rfl
@[simp] theorem setBr_fabric (n : Nat) (x : Bridle) : (s.setBr n x).fabric = s.fabric := rfl
@[simp] theorem setBr_grid (n : Nat) (x : Bridle) : (s.setBr n x).grid = s.grid := rfl
@[simp] theorem setBr_paths (n : Nat) (x : Bridle) : (s.setBr n x).paths = s.paths := rfl
@[simp] theorem setBr_latch (n : Nat) (x : Bridle) : (s.setBr n x).latch = s.latch := rfl
@[simp] theorem setBr_hub (n : Nat) (x : Bridle) : (s.setBr n x).hub = s.hub := rfl
@[simp] theorem setBr_fresh (n : Nat) (x : Bridle) : (s.setBr n x).fresh = s.fresh := rfl
@[simp] theorem setBr_stop (n : Nat) (x : Bridle) : (s.setBr n x).stop = s.stop := rfl
@[simp] theorem setBr_trace (n : Nat) (x : Bridle) : (s.setBr n x).trace = s.trace := rfl
@[simp] theorem setBr_replay (n : Nat) (x : Bridle) : (s.setBr n x).replay = s.replay := rfl
@[simp] theorem setBr_bridle (n : Nat) (x : Bridle) : (s.setBr n x).bridle = tset {} s.bridle n x := rfl

@[simp] theorem setAw_pending (n : Nat) (x : AwDieSt) : (s.setAw n x).pending = s.pending := rfl
@[simp] theorem setAw_ns (n : Nat) (x : AwDieSt) : (s.setAw n x).ns = s.ns := rfl
@[simp] theorem setAw_free (n : Nat) (x : AwDieSt) : (s.setAw n x).free = s.free := rfl
@[simp] theorem setAw_out (n : Nat) (x : AwDieSt) : (s.setAw n x).out = s.out := rfl
@[simp] theorem setAw_chron (n : Nat) (x : AwDieSt) : (s.setAw n x).chron = s.chron := rfl
@[simp] theorem setAw_fuses (n : Nat) (x : AwDieSt) : (s.setAw n x).fuses = s.fuses := rfl
@[simp] theorem setAw_boot (n : Nat) (x : AwDieSt) : (s.setAw n x).boot = s.boot := rfl
@[simp] theorem setAw_power (n : Nat) (x : AwDieSt) : (s.setAw n x).power = s.power := rfl
@[simp] theorem setAw_mv (n : Nat) (x : AwDieSt) : (s.setAw n x).mv = s.mv := rfl
@[simp] theorem setAw_chan (n : Nat) (x : AwDieSt) : (s.setAw n x).chan = s.chan := rfl
@[simp] theorem setAw_seq (n : Nat) (x : AwDieSt) : (s.setAw n x).seq = s.seq := rfl
@[simp] theorem setAw_queue (n : Nat) (x : AwDieSt) : (s.setAw n x).queue = s.queue := rfl
@[simp] theorem setAw_matrix (n : Nat) (x : AwDieSt) : (s.setAw n x).matrix = s.matrix := rfl
@[simp] theorem setAw_vector (n : Nat) (x : AwDieSt) : (s.setAw n x).vector = s.vector := rfl
@[simp] theorem setAw_skiver (n : Nat) (x : AwDieSt) : (s.setAw n x).skiver = s.skiver := rfl
@[simp] theorem setAw_bridle (n : Nat) (x : AwDieSt) : (s.setAw n x).bridle = s.bridle := rfl
@[simp] theorem setAw_stack (n : Nat) (x : AwDieSt) : (s.setAw n x).stack = s.stack := rfl
@[simp] theorem setAw_domains (n : Nat) (x : AwDieSt) : (s.setAw n x).domains = s.domains := rfl
@[simp] theorem setAw_streams (n : Nat) (x : AwDieSt) : (s.setAw n x).streams = s.streams := rfl
@[simp] theorem setAw_pages (n : Nat) (x : AwDieSt) : (s.setAw n x).pages = s.pages := rfl
@[simp] theorem setAw_slots (n : Nat) (x : AwDieSt) : (s.setAw n x).slots = s.slots := rfl
@[simp] theorem setAw_sets (n : Nat) (x : AwDieSt) : (s.setAw n x).sets = s.sets := rfl
@[simp] theorem setAw_loads (n : Nat) (x : AwDieSt) : (s.setAw n x).loads = s.loads := rfl
@[simp] theorem setAw_fns (n : Nat) (x : AwDieSt) : (s.setAw n x).fns = s.fns := rfl
@[simp] theorem setAw_intake (n : Nat) (x : AwDieSt) : (s.setAw n x).intake = s.intake := rfl
@[simp] theorem setAw_cad (n : Nat) (x : AwDieSt) : (s.setAw n x).cad = s.cad := rfl
@[simp] theorem setAw_tables (n : Nat) (x : AwDieSt) : (s.setAw n x).tables = s.tables := rfl
@[simp] theorem setAw_steps (n : Nat) (x : AwDieSt) : (s.setAw n x).steps = s.steps := rfl
@[simp] theorem setAw_run (n : Nat) (x : AwDieSt) : (s.setAw n x).run = s.run := rfl
@[simp] theorem setAw_tenancy (n : Nat) (x : AwDieSt) : (s.setAw n x).tenancy = s.tenancy := rfl
@[simp] theorem setAw_ports (n : Nat) (x : AwDieSt) : (s.setAw n x).ports = s.ports := rfl
@[simp] theorem setAw_links (n : Nat) (x : AwDieSt) : (s.setAw n x).links = s.links := rfl
@[simp] theorem setAw_fabric (n : Nat) (x : AwDieSt) : (s.setAw n x).fabric = s.fabric := rfl
@[simp] theorem setAw_grid (n : Nat) (x : AwDieSt) : (s.setAw n x).grid = s.grid := rfl
@[simp] theorem setAw_paths (n : Nat) (x : AwDieSt) : (s.setAw n x).paths = s.paths := rfl
@[simp] theorem setAw_latch (n : Nat) (x : AwDieSt) : (s.setAw n x).latch = s.latch := rfl
@[simp] theorem setAw_hub (n : Nat) (x : AwDieSt) : (s.setAw n x).hub = s.hub := rfl
@[simp] theorem setAw_fresh (n : Nat) (x : AwDieSt) : (s.setAw n x).fresh = s.fresh := rfl
@[simp] theorem setAw_stop (n : Nat) (x : AwDieSt) : (s.setAw n x).stop = s.stop := rfl
@[simp] theorem setAw_trace (n : Nat) (x : AwDieSt) : (s.setAw n x).trace = s.trace := rfl
@[simp] theorem setAw_replay (n : Nat) (x : AwDieSt) : (s.setAw n x).replay = s.replay := rfl
@[simp] theorem setAw_aw (n : Nat) (x : AwDieSt) : (s.setAw n x).aw = tset {} s.aw n x := rfl

@[simp] theorem setStack_pending (n : Nat) (x : StackSt) : (s.setStack n x).pending = s.pending := rfl
@[simp] theorem setStack_ns (n : Nat) (x : StackSt) : (s.setStack n x).ns = s.ns := rfl
@[simp] theorem setStack_free (n : Nat) (x : StackSt) : (s.setStack n x).free = s.free := rfl
@[simp] theorem setStack_out (n : Nat) (x : StackSt) : (s.setStack n x).out = s.out := rfl
@[simp] theorem setStack_chron (n : Nat) (x : StackSt) : (s.setStack n x).chron = s.chron := rfl
@[simp] theorem setStack_fuses (n : Nat) (x : StackSt) : (s.setStack n x).fuses = s.fuses := rfl
@[simp] theorem setStack_boot (n : Nat) (x : StackSt) : (s.setStack n x).boot = s.boot := rfl
@[simp] theorem setStack_power (n : Nat) (x : StackSt) : (s.setStack n x).power = s.power := rfl
@[simp] theorem setStack_mv (n : Nat) (x : StackSt) : (s.setStack n x).mv = s.mv := rfl
@[simp] theorem setStack_chan (n : Nat) (x : StackSt) : (s.setStack n x).chan = s.chan := rfl
@[simp] theorem setStack_seq (n : Nat) (x : StackSt) : (s.setStack n x).seq = s.seq := rfl
@[simp] theorem setStack_queue (n : Nat) (x : StackSt) : (s.setStack n x).queue = s.queue := rfl
@[simp] theorem setStack_matrix (n : Nat) (x : StackSt) : (s.setStack n x).matrix = s.matrix := rfl
@[simp] theorem setStack_vector (n : Nat) (x : StackSt) : (s.setStack n x).vector = s.vector := rfl
@[simp] theorem setStack_skiver (n : Nat) (x : StackSt) : (s.setStack n x).skiver = s.skiver := rfl
@[simp] theorem setStack_bridle (n : Nat) (x : StackSt) : (s.setStack n x).bridle = s.bridle := rfl
@[simp] theorem setStack_aw (n : Nat) (x : StackSt) : (s.setStack n x).aw = s.aw := rfl
@[simp] theorem setStack_domains (n : Nat) (x : StackSt) : (s.setStack n x).domains = s.domains := rfl
@[simp] theorem setStack_streams (n : Nat) (x : StackSt) : (s.setStack n x).streams = s.streams := rfl
@[simp] theorem setStack_pages (n : Nat) (x : StackSt) : (s.setStack n x).pages = s.pages := rfl
@[simp] theorem setStack_slots (n : Nat) (x : StackSt) : (s.setStack n x).slots = s.slots := rfl
@[simp] theorem setStack_sets (n : Nat) (x : StackSt) : (s.setStack n x).sets = s.sets := rfl
@[simp] theorem setStack_loads (n : Nat) (x : StackSt) : (s.setStack n x).loads = s.loads := rfl
@[simp] theorem setStack_fns (n : Nat) (x : StackSt) : (s.setStack n x).fns = s.fns := rfl
@[simp] theorem setStack_intake (n : Nat) (x : StackSt) : (s.setStack n x).intake = s.intake := rfl
@[simp] theorem setStack_cad (n : Nat) (x : StackSt) : (s.setStack n x).cad = s.cad := rfl
@[simp] theorem setStack_tables (n : Nat) (x : StackSt) : (s.setStack n x).tables = s.tables := rfl
@[simp] theorem setStack_steps (n : Nat) (x : StackSt) : (s.setStack n x).steps = s.steps := rfl
@[simp] theorem setStack_run (n : Nat) (x : StackSt) : (s.setStack n x).run = s.run := rfl
@[simp] theorem setStack_tenancy (n : Nat) (x : StackSt) : (s.setStack n x).tenancy = s.tenancy := rfl
@[simp] theorem setStack_ports (n : Nat) (x : StackSt) : (s.setStack n x).ports = s.ports := rfl
@[simp] theorem setStack_links (n : Nat) (x : StackSt) : (s.setStack n x).links = s.links := rfl
@[simp] theorem setStack_fabric (n : Nat) (x : StackSt) : (s.setStack n x).fabric = s.fabric := rfl
@[simp] theorem setStack_grid (n : Nat) (x : StackSt) : (s.setStack n x).grid = s.grid := rfl
@[simp] theorem setStack_paths (n : Nat) (x : StackSt) : (s.setStack n x).paths = s.paths := rfl
@[simp] theorem setStack_latch (n : Nat) (x : StackSt) : (s.setStack n x).latch = s.latch := rfl
@[simp] theorem setStack_hub (n : Nat) (x : StackSt) : (s.setStack n x).hub = s.hub := rfl
@[simp] theorem setStack_fresh (n : Nat) (x : StackSt) : (s.setStack n x).fresh = s.fresh := rfl
@[simp] theorem setStack_stop (n : Nat) (x : StackSt) : (s.setStack n x).stop = s.stop := rfl
@[simp] theorem setStack_trace (n : Nat) (x : StackSt) : (s.setStack n x).trace = s.trace := rfl
@[simp] theorem setStack_replay (n : Nat) (x : StackSt) : (s.setStack n x).replay = s.replay := rfl
@[simp] theorem setStack_stack (n : Nat) (x : StackSt) : (s.setStack n x).stack = tset {} s.stack n x := rfl

@[simp] theorem setDom_pending (n : Nat) (x : Domain) : (s.setDom n x).pending = s.pending := rfl
@[simp] theorem setDom_ns (n : Nat) (x : Domain) : (s.setDom n x).ns = s.ns := rfl
@[simp] theorem setDom_free (n : Nat) (x : Domain) : (s.setDom n x).free = s.free := rfl
@[simp] theorem setDom_out (n : Nat) (x : Domain) : (s.setDom n x).out = s.out := rfl
@[simp] theorem setDom_chron (n : Nat) (x : Domain) : (s.setDom n x).chron = s.chron := rfl
@[simp] theorem setDom_fuses (n : Nat) (x : Domain) : (s.setDom n x).fuses = s.fuses := rfl
@[simp] theorem setDom_boot (n : Nat) (x : Domain) : (s.setDom n x).boot = s.boot := rfl
@[simp] theorem setDom_power (n : Nat) (x : Domain) : (s.setDom n x).power = s.power := rfl
@[simp] theorem setDom_mv (n : Nat) (x : Domain) : (s.setDom n x).mv = s.mv := rfl
@[simp] theorem setDom_chan (n : Nat) (x : Domain) : (s.setDom n x).chan = s.chan := rfl
@[simp] theorem setDom_seq (n : Nat) (x : Domain) : (s.setDom n x).seq = s.seq := rfl
@[simp] theorem setDom_queue (n : Nat) (x : Domain) : (s.setDom n x).queue = s.queue := rfl
@[simp] theorem setDom_matrix (n : Nat) (x : Domain) : (s.setDom n x).matrix = s.matrix := rfl
@[simp] theorem setDom_vector (n : Nat) (x : Domain) : (s.setDom n x).vector = s.vector := rfl
@[simp] theorem setDom_skiver (n : Nat) (x : Domain) : (s.setDom n x).skiver = s.skiver := rfl
@[simp] theorem setDom_bridle (n : Nat) (x : Domain) : (s.setDom n x).bridle = s.bridle := rfl
@[simp] theorem setDom_aw (n : Nat) (x : Domain) : (s.setDom n x).aw = s.aw := rfl
@[simp] theorem setDom_stack (n : Nat) (x : Domain) : (s.setDom n x).stack = s.stack := rfl
@[simp] theorem setDom_streams (n : Nat) (x : Domain) : (s.setDom n x).streams = s.streams := rfl
@[simp] theorem setDom_pages (n : Nat) (x : Domain) : (s.setDom n x).pages = s.pages := rfl
@[simp] theorem setDom_slots (n : Nat) (x : Domain) : (s.setDom n x).slots = s.slots := rfl
@[simp] theorem setDom_sets (n : Nat) (x : Domain) : (s.setDom n x).sets = s.sets := rfl
@[simp] theorem setDom_loads (n : Nat) (x : Domain) : (s.setDom n x).loads = s.loads := rfl
@[simp] theorem setDom_fns (n : Nat) (x : Domain) : (s.setDom n x).fns = s.fns := rfl
@[simp] theorem setDom_intake (n : Nat) (x : Domain) : (s.setDom n x).intake = s.intake := rfl
@[simp] theorem setDom_cad (n : Nat) (x : Domain) : (s.setDom n x).cad = s.cad := rfl
@[simp] theorem setDom_tables (n : Nat) (x : Domain) : (s.setDom n x).tables = s.tables := rfl
@[simp] theorem setDom_steps (n : Nat) (x : Domain) : (s.setDom n x).steps = s.steps := rfl
@[simp] theorem setDom_run (n : Nat) (x : Domain) : (s.setDom n x).run = s.run := rfl
@[simp] theorem setDom_tenancy (n : Nat) (x : Domain) : (s.setDom n x).tenancy = s.tenancy := rfl
@[simp] theorem setDom_ports (n : Nat) (x : Domain) : (s.setDom n x).ports = s.ports := rfl
@[simp] theorem setDom_links (n : Nat) (x : Domain) : (s.setDom n x).links = s.links := rfl
@[simp] theorem setDom_fabric (n : Nat) (x : Domain) : (s.setDom n x).fabric = s.fabric := rfl
@[simp] theorem setDom_grid (n : Nat) (x : Domain) : (s.setDom n x).grid = s.grid := rfl
@[simp] theorem setDom_paths (n : Nat) (x : Domain) : (s.setDom n x).paths = s.paths := rfl
@[simp] theorem setDom_latch (n : Nat) (x : Domain) : (s.setDom n x).latch = s.latch := rfl
@[simp] theorem setDom_hub (n : Nat) (x : Domain) : (s.setDom n x).hub = s.hub := rfl
@[simp] theorem setDom_fresh (n : Nat) (x : Domain) : (s.setDom n x).fresh = s.fresh := rfl
@[simp] theorem setDom_stop (n : Nat) (x : Domain) : (s.setDom n x).stop = s.stop := rfl
@[simp] theorem setDom_trace (n : Nat) (x : Domain) : (s.setDom n x).trace = s.trace := rfl
@[simp] theorem setDom_replay (n : Nat) (x : Domain) : (s.setDom n x).replay = s.replay := rfl
@[simp] theorem setDom_domains (n : Nat) (x : Domain) : (s.setDom n x).domains = tset {} s.domains n x := rfl

@[simp] theorem setFn_pending (n : Nat) (x : FnState) : (s.setFn n x).pending = s.pending := rfl
@[simp] theorem setFn_ns (n : Nat) (x : FnState) : (s.setFn n x).ns = s.ns := rfl
@[simp] theorem setFn_free (n : Nat) (x : FnState) : (s.setFn n x).free = s.free := rfl
@[simp] theorem setFn_out (n : Nat) (x : FnState) : (s.setFn n x).out = s.out := rfl
@[simp] theorem setFn_chron (n : Nat) (x : FnState) : (s.setFn n x).chron = s.chron := rfl
@[simp] theorem setFn_fuses (n : Nat) (x : FnState) : (s.setFn n x).fuses = s.fuses := rfl
@[simp] theorem setFn_boot (n : Nat) (x : FnState) : (s.setFn n x).boot = s.boot := rfl
@[simp] theorem setFn_power (n : Nat) (x : FnState) : (s.setFn n x).power = s.power := rfl
@[simp] theorem setFn_mv (n : Nat) (x : FnState) : (s.setFn n x).mv = s.mv := rfl
@[simp] theorem setFn_chan (n : Nat) (x : FnState) : (s.setFn n x).chan = s.chan := rfl
@[simp] theorem setFn_seq (n : Nat) (x : FnState) : (s.setFn n x).seq = s.seq := rfl
@[simp] theorem setFn_queue (n : Nat) (x : FnState) : (s.setFn n x).queue = s.queue := rfl
@[simp] theorem setFn_matrix (n : Nat) (x : FnState) : (s.setFn n x).matrix = s.matrix := rfl
@[simp] theorem setFn_vector (n : Nat) (x : FnState) : (s.setFn n x).vector = s.vector := rfl
@[simp] theorem setFn_skiver (n : Nat) (x : FnState) : (s.setFn n x).skiver = s.skiver := rfl
@[simp] theorem setFn_bridle (n : Nat) (x : FnState) : (s.setFn n x).bridle = s.bridle := rfl
@[simp] theorem setFn_aw (n : Nat) (x : FnState) : (s.setFn n x).aw = s.aw := rfl
@[simp] theorem setFn_stack (n : Nat) (x : FnState) : (s.setFn n x).stack = s.stack := rfl
@[simp] theorem setFn_domains (n : Nat) (x : FnState) : (s.setFn n x).domains = s.domains := rfl
@[simp] theorem setFn_streams (n : Nat) (x : FnState) : (s.setFn n x).streams = s.streams := rfl
@[simp] theorem setFn_pages (n : Nat) (x : FnState) : (s.setFn n x).pages = s.pages := rfl
@[simp] theorem setFn_slots (n : Nat) (x : FnState) : (s.setFn n x).slots = s.slots := rfl
@[simp] theorem setFn_sets (n : Nat) (x : FnState) : (s.setFn n x).sets = s.sets := rfl
@[simp] theorem setFn_loads (n : Nat) (x : FnState) : (s.setFn n x).loads = s.loads := rfl
@[simp] theorem setFn_intake (n : Nat) (x : FnState) : (s.setFn n x).intake = s.intake := rfl
@[simp] theorem setFn_cad (n : Nat) (x : FnState) : (s.setFn n x).cad = s.cad := rfl
@[simp] theorem setFn_tables (n : Nat) (x : FnState) : (s.setFn n x).tables = s.tables := rfl
@[simp] theorem setFn_steps (n : Nat) (x : FnState) : (s.setFn n x).steps = s.steps := rfl
@[simp] theorem setFn_run (n : Nat) (x : FnState) : (s.setFn n x).run = s.run := rfl
@[simp] theorem setFn_tenancy (n : Nat) (x : FnState) : (s.setFn n x).tenancy = s.tenancy := rfl
@[simp] theorem setFn_ports (n : Nat) (x : FnState) : (s.setFn n x).ports = s.ports := rfl
@[simp] theorem setFn_links (n : Nat) (x : FnState) : (s.setFn n x).links = s.links := rfl
@[simp] theorem setFn_fabric (n : Nat) (x : FnState) : (s.setFn n x).fabric = s.fabric := rfl
@[simp] theorem setFn_grid (n : Nat) (x : FnState) : (s.setFn n x).grid = s.grid := rfl
@[simp] theorem setFn_paths (n : Nat) (x : FnState) : (s.setFn n x).paths = s.paths := rfl
@[simp] theorem setFn_latch (n : Nat) (x : FnState) : (s.setFn n x).latch = s.latch := rfl
@[simp] theorem setFn_hub (n : Nat) (x : FnState) : (s.setFn n x).hub = s.hub := rfl
@[simp] theorem setFn_fresh (n : Nat) (x : FnState) : (s.setFn n x).fresh = s.fresh := rfl
@[simp] theorem setFn_stop (n : Nat) (x : FnState) : (s.setFn n x).stop = s.stop := rfl
@[simp] theorem setFn_trace (n : Nat) (x : FnState) : (s.setFn n x).trace = s.trace := rfl
@[simp] theorem setFn_replay (n : Nat) (x : FnState) : (s.setFn n x).replay = s.replay := rfl
@[simp] theorem setFn_fns (n : Nat) (x : FnState) : (s.setFn n x).fns = tset {} s.fns n x := rfl

@[simp] theorem setSlot_pending (n : Nat) (x : Slot) : (s.setSlot n x).pending = s.pending := rfl
@[simp] theorem setSlot_ns (n : Nat) (x : Slot) : (s.setSlot n x).ns = s.ns := rfl
@[simp] theorem setSlot_free (n : Nat) (x : Slot) : (s.setSlot n x).free = s.free := rfl
@[simp] theorem setSlot_out (n : Nat) (x : Slot) : (s.setSlot n x).out = s.out := rfl
@[simp] theorem setSlot_chron (n : Nat) (x : Slot) : (s.setSlot n x).chron = s.chron := rfl
@[simp] theorem setSlot_fuses (n : Nat) (x : Slot) : (s.setSlot n x).fuses = s.fuses := rfl
@[simp] theorem setSlot_boot (n : Nat) (x : Slot) : (s.setSlot n x).boot = s.boot := rfl
@[simp] theorem setSlot_power (n : Nat) (x : Slot) : (s.setSlot n x).power = s.power := rfl
@[simp] theorem setSlot_mv (n : Nat) (x : Slot) : (s.setSlot n x).mv = s.mv := rfl
@[simp] theorem setSlot_chan (n : Nat) (x : Slot) : (s.setSlot n x).chan = s.chan := rfl
@[simp] theorem setSlot_seq (n : Nat) (x : Slot) : (s.setSlot n x).seq = s.seq := rfl
@[simp] theorem setSlot_queue (n : Nat) (x : Slot) : (s.setSlot n x).queue = s.queue := rfl
@[simp] theorem setSlot_matrix (n : Nat) (x : Slot) : (s.setSlot n x).matrix = s.matrix := rfl
@[simp] theorem setSlot_vector (n : Nat) (x : Slot) : (s.setSlot n x).vector = s.vector := rfl
@[simp] theorem setSlot_skiver (n : Nat) (x : Slot) : (s.setSlot n x).skiver = s.skiver := rfl
@[simp] theorem setSlot_bridle (n : Nat) (x : Slot) : (s.setSlot n x).bridle = s.bridle := rfl
@[simp] theorem setSlot_aw (n : Nat) (x : Slot) : (s.setSlot n x).aw = s.aw := rfl
@[simp] theorem setSlot_stack (n : Nat) (x : Slot) : (s.setSlot n x).stack = s.stack := rfl
@[simp] theorem setSlot_domains (n : Nat) (x : Slot) : (s.setSlot n x).domains = s.domains := rfl
@[simp] theorem setSlot_streams (n : Nat) (x : Slot) : (s.setSlot n x).streams = s.streams := rfl
@[simp] theorem setSlot_pages (n : Nat) (x : Slot) : (s.setSlot n x).pages = s.pages := rfl
@[simp] theorem setSlot_sets (n : Nat) (x : Slot) : (s.setSlot n x).sets = s.sets := rfl
@[simp] theorem setSlot_loads (n : Nat) (x : Slot) : (s.setSlot n x).loads = s.loads := rfl
@[simp] theorem setSlot_fns (n : Nat) (x : Slot) : (s.setSlot n x).fns = s.fns := rfl
@[simp] theorem setSlot_intake (n : Nat) (x : Slot) : (s.setSlot n x).intake = s.intake := rfl
@[simp] theorem setSlot_cad (n : Nat) (x : Slot) : (s.setSlot n x).cad = s.cad := rfl
@[simp] theorem setSlot_tables (n : Nat) (x : Slot) : (s.setSlot n x).tables = s.tables := rfl
@[simp] theorem setSlot_steps (n : Nat) (x : Slot) : (s.setSlot n x).steps = s.steps := rfl
@[simp] theorem setSlot_run (n : Nat) (x : Slot) : (s.setSlot n x).run = s.run := rfl
@[simp] theorem setSlot_tenancy (n : Nat) (x : Slot) : (s.setSlot n x).tenancy = s.tenancy := rfl
@[simp] theorem setSlot_ports (n : Nat) (x : Slot) : (s.setSlot n x).ports = s.ports := rfl
@[simp] theorem setSlot_links (n : Nat) (x : Slot) : (s.setSlot n x).links = s.links := rfl
@[simp] theorem setSlot_fabric (n : Nat) (x : Slot) : (s.setSlot n x).fabric = s.fabric := rfl
@[simp] theorem setSlot_grid (n : Nat) (x : Slot) : (s.setSlot n x).grid = s.grid := rfl
@[simp] theorem setSlot_paths (n : Nat) (x : Slot) : (s.setSlot n x).paths = s.paths := rfl
@[simp] theorem setSlot_latch (n : Nat) (x : Slot) : (s.setSlot n x).latch = s.latch := rfl
@[simp] theorem setSlot_hub (n : Nat) (x : Slot) : (s.setSlot n x).hub = s.hub := rfl
@[simp] theorem setSlot_fresh (n : Nat) (x : Slot) : (s.setSlot n x).fresh = s.fresh := rfl
@[simp] theorem setSlot_stop (n : Nat) (x : Slot) : (s.setSlot n x).stop = s.stop := rfl
@[simp] theorem setSlot_trace (n : Nat) (x : Slot) : (s.setSlot n x).trace = s.trace := rfl
@[simp] theorem setSlot_replay (n : Nat) (x : Slot) : (s.setSlot n x).replay = s.replay := rfl
@[simp] theorem setSlot_slots (n : Nat) (x : Slot) : (s.setSlot n x).slots = tset Slot.empty s.slots n x := rfl

@[simp] theorem setPort_pending (n : Nat) (x : PortSt) : (s.setPort n x).pending = s.pending := rfl
@[simp] theorem setPort_ns (n : Nat) (x : PortSt) : (s.setPort n x).ns = s.ns := rfl
@[simp] theorem setPort_free (n : Nat) (x : PortSt) : (s.setPort n x).free = s.free := rfl
@[simp] theorem setPort_out (n : Nat) (x : PortSt) : (s.setPort n x).out = s.out := rfl
@[simp] theorem setPort_chron (n : Nat) (x : PortSt) : (s.setPort n x).chron = s.chron := rfl
@[simp] theorem setPort_fuses (n : Nat) (x : PortSt) : (s.setPort n x).fuses = s.fuses := rfl
@[simp] theorem setPort_boot (n : Nat) (x : PortSt) : (s.setPort n x).boot = s.boot := rfl
@[simp] theorem setPort_power (n : Nat) (x : PortSt) : (s.setPort n x).power = s.power := rfl
@[simp] theorem setPort_mv (n : Nat) (x : PortSt) : (s.setPort n x).mv = s.mv := rfl
@[simp] theorem setPort_chan (n : Nat) (x : PortSt) : (s.setPort n x).chan = s.chan := rfl
@[simp] theorem setPort_seq (n : Nat) (x : PortSt) : (s.setPort n x).seq = s.seq := rfl
@[simp] theorem setPort_queue (n : Nat) (x : PortSt) : (s.setPort n x).queue = s.queue := rfl
@[simp] theorem setPort_matrix (n : Nat) (x : PortSt) : (s.setPort n x).matrix = s.matrix := rfl
@[simp] theorem setPort_vector (n : Nat) (x : PortSt) : (s.setPort n x).vector = s.vector := rfl
@[simp] theorem setPort_skiver (n : Nat) (x : PortSt) : (s.setPort n x).skiver = s.skiver := rfl
@[simp] theorem setPort_bridle (n : Nat) (x : PortSt) : (s.setPort n x).bridle = s.bridle := rfl
@[simp] theorem setPort_aw (n : Nat) (x : PortSt) : (s.setPort n x).aw = s.aw := rfl
@[simp] theorem setPort_stack (n : Nat) (x : PortSt) : (s.setPort n x).stack = s.stack := rfl
@[simp] theorem setPort_domains (n : Nat) (x : PortSt) : (s.setPort n x).domains = s.domains := rfl
@[simp] theorem setPort_streams (n : Nat) (x : PortSt) : (s.setPort n x).streams = s.streams := rfl
@[simp] theorem setPort_pages (n : Nat) (x : PortSt) : (s.setPort n x).pages = s.pages := rfl
@[simp] theorem setPort_slots (n : Nat) (x : PortSt) : (s.setPort n x).slots = s.slots := rfl
@[simp] theorem setPort_sets (n : Nat) (x : PortSt) : (s.setPort n x).sets = s.sets := rfl
@[simp] theorem setPort_loads (n : Nat) (x : PortSt) : (s.setPort n x).loads = s.loads := rfl
@[simp] theorem setPort_fns (n : Nat) (x : PortSt) : (s.setPort n x).fns = s.fns := rfl
@[simp] theorem setPort_intake (n : Nat) (x : PortSt) : (s.setPort n x).intake = s.intake := rfl
@[simp] theorem setPort_cad (n : Nat) (x : PortSt) : (s.setPort n x).cad = s.cad := rfl
@[simp] theorem setPort_tables (n : Nat) (x : PortSt) : (s.setPort n x).tables = s.tables := rfl
@[simp] theorem setPort_steps (n : Nat) (x : PortSt) : (s.setPort n x).steps = s.steps := rfl
@[simp] theorem setPort_run (n : Nat) (x : PortSt) : (s.setPort n x).run = s.run := rfl
@[simp] theorem setPort_tenancy (n : Nat) (x : PortSt) : (s.setPort n x).tenancy = s.tenancy := rfl
@[simp] theorem setPort_links (n : Nat) (x : PortSt) : (s.setPort n x).links = s.links := rfl
@[simp] theorem setPort_fabric (n : Nat) (x : PortSt) : (s.setPort n x).fabric = s.fabric := rfl
@[simp] theorem setPort_grid (n : Nat) (x : PortSt) : (s.setPort n x).grid = s.grid := rfl
@[simp] theorem setPort_paths (n : Nat) (x : PortSt) : (s.setPort n x).paths = s.paths := rfl
@[simp] theorem setPort_latch (n : Nat) (x : PortSt) : (s.setPort n x).latch = s.latch := rfl
@[simp] theorem setPort_hub (n : Nat) (x : PortSt) : (s.setPort n x).hub = s.hub := rfl
@[simp] theorem setPort_fresh (n : Nat) (x : PortSt) : (s.setPort n x).fresh = s.fresh := rfl
@[simp] theorem setPort_stop (n : Nat) (x : PortSt) : (s.setPort n x).stop = s.stop := rfl
@[simp] theorem setPort_trace (n : Nat) (x : PortSt) : (s.setPort n x).trace = s.trace := rfl
@[simp] theorem setPort_replay (n : Nat) (x : PortSt) : (s.setPort n x).replay = s.replay := rfl
@[simp] theorem setPort_ports (n : Nat) (x : PortSt) : (s.setPort n x).ports = tset {} s.ports n x := rfl

@[simp] theorem setLink_pending (n : Nat) (x : LinkDie) : (s.setLink n x).pending = s.pending := rfl
@[simp] theorem setLink_ns (n : Nat) (x : LinkDie) : (s.setLink n x).ns = s.ns := rfl
@[simp] theorem setLink_free (n : Nat) (x : LinkDie) : (s.setLink n x).free = s.free := rfl
@[simp] theorem setLink_out (n : Nat) (x : LinkDie) : (s.setLink n x).out = s.out := rfl
@[simp] theorem setLink_chron (n : Nat) (x : LinkDie) : (s.setLink n x).chron = s.chron := rfl
@[simp] theorem setLink_fuses (n : Nat) (x : LinkDie) : (s.setLink n x).fuses = s.fuses := rfl
@[simp] theorem setLink_boot (n : Nat) (x : LinkDie) : (s.setLink n x).boot = s.boot := rfl
@[simp] theorem setLink_power (n : Nat) (x : LinkDie) : (s.setLink n x).power = s.power := rfl
@[simp] theorem setLink_mv (n : Nat) (x : LinkDie) : (s.setLink n x).mv = s.mv := rfl
@[simp] theorem setLink_chan (n : Nat) (x : LinkDie) : (s.setLink n x).chan = s.chan := rfl
@[simp] theorem setLink_seq (n : Nat) (x : LinkDie) : (s.setLink n x).seq = s.seq := rfl
@[simp] theorem setLink_queue (n : Nat) (x : LinkDie) : (s.setLink n x).queue = s.queue := rfl
@[simp] theorem setLink_matrix (n : Nat) (x : LinkDie) : (s.setLink n x).matrix = s.matrix := rfl
@[simp] theorem setLink_vector (n : Nat) (x : LinkDie) : (s.setLink n x).vector = s.vector := rfl
@[simp] theorem setLink_skiver (n : Nat) (x : LinkDie) : (s.setLink n x).skiver = s.skiver := rfl
@[simp] theorem setLink_bridle (n : Nat) (x : LinkDie) : (s.setLink n x).bridle = s.bridle := rfl
@[simp] theorem setLink_aw (n : Nat) (x : LinkDie) : (s.setLink n x).aw = s.aw := rfl
@[simp] theorem setLink_stack (n : Nat) (x : LinkDie) : (s.setLink n x).stack = s.stack := rfl
@[simp] theorem setLink_domains (n : Nat) (x : LinkDie) : (s.setLink n x).domains = s.domains := rfl
@[simp] theorem setLink_streams (n : Nat) (x : LinkDie) : (s.setLink n x).streams = s.streams := rfl
@[simp] theorem setLink_pages (n : Nat) (x : LinkDie) : (s.setLink n x).pages = s.pages := rfl
@[simp] theorem setLink_slots (n : Nat) (x : LinkDie) : (s.setLink n x).slots = s.slots := rfl
@[simp] theorem setLink_sets (n : Nat) (x : LinkDie) : (s.setLink n x).sets = s.sets := rfl
@[simp] theorem setLink_loads (n : Nat) (x : LinkDie) : (s.setLink n x).loads = s.loads := rfl
@[simp] theorem setLink_fns (n : Nat) (x : LinkDie) : (s.setLink n x).fns = s.fns := rfl
@[simp] theorem setLink_intake (n : Nat) (x : LinkDie) : (s.setLink n x).intake = s.intake := rfl
@[simp] theorem setLink_cad (n : Nat) (x : LinkDie) : (s.setLink n x).cad = s.cad := rfl
@[simp] theorem setLink_tables (n : Nat) (x : LinkDie) : (s.setLink n x).tables = s.tables := rfl
@[simp] theorem setLink_steps (n : Nat) (x : LinkDie) : (s.setLink n x).steps = s.steps := rfl
@[simp] theorem setLink_run (n : Nat) (x : LinkDie) : (s.setLink n x).run = s.run := rfl
@[simp] theorem setLink_tenancy (n : Nat) (x : LinkDie) : (s.setLink n x).tenancy = s.tenancy := rfl
@[simp] theorem setLink_ports (n : Nat) (x : LinkDie) : (s.setLink n x).ports = s.ports := rfl
@[simp] theorem setLink_fabric (n : Nat) (x : LinkDie) : (s.setLink n x).fabric = s.fabric := rfl
@[simp] theorem setLink_grid (n : Nat) (x : LinkDie) : (s.setLink n x).grid = s.grid := rfl
@[simp] theorem setLink_paths (n : Nat) (x : LinkDie) : (s.setLink n x).paths = s.paths := rfl
@[simp] theorem setLink_latch (n : Nat) (x : LinkDie) : (s.setLink n x).latch = s.latch := rfl
@[simp] theorem setLink_hub (n : Nat) (x : LinkDie) : (s.setLink n x).hub = s.hub := rfl
@[simp] theorem setLink_fresh (n : Nat) (x : LinkDie) : (s.setLink n x).fresh = s.fresh := rfl
@[simp] theorem setLink_stop (n : Nat) (x : LinkDie) : (s.setLink n x).stop = s.stop := rfl
@[simp] theorem setLink_trace (n : Nat) (x : LinkDie) : (s.setLink n x).trace = s.trace := rfl
@[simp] theorem setLink_replay (n : Nat) (x : LinkDie) : (s.setLink n x).replay = s.replay := rfl
@[simp] theorem setLink_links (n : Nat) (x : LinkDie) : (s.setLink n x).links = tset {} s.links n x := rfl

@[simp] theorem setPath_pending (n : Nat) (x : Path) : (s.setPath n x).pending = s.pending := rfl
@[simp] theorem setPath_ns (n : Nat) (x : Path) : (s.setPath n x).ns = s.ns := rfl
@[simp] theorem setPath_free (n : Nat) (x : Path) : (s.setPath n x).free = s.free := rfl
@[simp] theorem setPath_out (n : Nat) (x : Path) : (s.setPath n x).out = s.out := rfl
@[simp] theorem setPath_chron (n : Nat) (x : Path) : (s.setPath n x).chron = s.chron := rfl
@[simp] theorem setPath_fuses (n : Nat) (x : Path) : (s.setPath n x).fuses = s.fuses := rfl
@[simp] theorem setPath_boot (n : Nat) (x : Path) : (s.setPath n x).boot = s.boot := rfl
@[simp] theorem setPath_power (n : Nat) (x : Path) : (s.setPath n x).power = s.power := rfl
@[simp] theorem setPath_mv (n : Nat) (x : Path) : (s.setPath n x).mv = s.mv := rfl
@[simp] theorem setPath_chan (n : Nat) (x : Path) : (s.setPath n x).chan = s.chan := rfl
@[simp] theorem setPath_seq (n : Nat) (x : Path) : (s.setPath n x).seq = s.seq := rfl
@[simp] theorem setPath_queue (n : Nat) (x : Path) : (s.setPath n x).queue = s.queue := rfl
@[simp] theorem setPath_matrix (n : Nat) (x : Path) : (s.setPath n x).matrix = s.matrix := rfl
@[simp] theorem setPath_vector (n : Nat) (x : Path) : (s.setPath n x).vector = s.vector := rfl
@[simp] theorem setPath_skiver (n : Nat) (x : Path) : (s.setPath n x).skiver = s.skiver := rfl
@[simp] theorem setPath_bridle (n : Nat) (x : Path) : (s.setPath n x).bridle = s.bridle := rfl
@[simp] theorem setPath_aw (n : Nat) (x : Path) : (s.setPath n x).aw = s.aw := rfl
@[simp] theorem setPath_stack (n : Nat) (x : Path) : (s.setPath n x).stack = s.stack := rfl
@[simp] theorem setPath_domains (n : Nat) (x : Path) : (s.setPath n x).domains = s.domains := rfl
@[simp] theorem setPath_streams (n : Nat) (x : Path) : (s.setPath n x).streams = s.streams := rfl
@[simp] theorem setPath_pages (n : Nat) (x : Path) : (s.setPath n x).pages = s.pages := rfl
@[simp] theorem setPath_slots (n : Nat) (x : Path) : (s.setPath n x).slots = s.slots := rfl
@[simp] theorem setPath_sets (n : Nat) (x : Path) : (s.setPath n x).sets = s.sets := rfl
@[simp] theorem setPath_loads (n : Nat) (x : Path) : (s.setPath n x).loads = s.loads := rfl
@[simp] theorem setPath_fns (n : Nat) (x : Path) : (s.setPath n x).fns = s.fns := rfl
@[simp] theorem setPath_intake (n : Nat) (x : Path) : (s.setPath n x).intake = s.intake := rfl
@[simp] theorem setPath_cad (n : Nat) (x : Path) : (s.setPath n x).cad = s.cad := rfl
@[simp] theorem setPath_tables (n : Nat) (x : Path) : (s.setPath n x).tables = s.tables := rfl
@[simp] theorem setPath_steps (n : Nat) (x : Path) : (s.setPath n x).steps = s.steps := rfl
@[simp] theorem setPath_run (n : Nat) (x : Path) : (s.setPath n x).run = s.run := rfl
@[simp] theorem setPath_tenancy (n : Nat) (x : Path) : (s.setPath n x).tenancy = s.tenancy := rfl
@[simp] theorem setPath_ports (n : Nat) (x : Path) : (s.setPath n x).ports = s.ports := rfl
@[simp] theorem setPath_links (n : Nat) (x : Path) : (s.setPath n x).links = s.links := rfl
@[simp] theorem setPath_fabric (n : Nat) (x : Path) : (s.setPath n x).fabric = s.fabric := rfl
@[simp] theorem setPath_grid (n : Nat) (x : Path) : (s.setPath n x).grid = s.grid := rfl
@[simp] theorem setPath_latch (n : Nat) (x : Path) : (s.setPath n x).latch = s.latch := rfl
@[simp] theorem setPath_hub (n : Nat) (x : Path) : (s.setPath n x).hub = s.hub := rfl
@[simp] theorem setPath_fresh (n : Nat) (x : Path) : (s.setPath n x).fresh = s.fresh := rfl
@[simp] theorem setPath_stop (n : Nat) (x : Path) : (s.setPath n x).stop = s.stop := rfl
@[simp] theorem setPath_trace (n : Nat) (x : Path) : (s.setPath n x).trace = s.trace := rfl
@[simp] theorem setPath_replay (n : Nat) (x : Path) : (s.setPath n x).replay = s.replay := rfl
@[simp] theorem setPath_paths (n : Nat) (x : Path) : (s.setPath n x).paths = tset {} s.paths n x := rfl

@[simp] theorem setTable_pending (n : Nat) (x : Live) : (s.setTable n x).pending = s.pending := rfl
@[simp] theorem setTable_ns (n : Nat) (x : Live) : (s.setTable n x).ns = s.ns := rfl
@[simp] theorem setTable_free (n : Nat) (x : Live) : (s.setTable n x).free = s.free := rfl
@[simp] theorem setTable_out (n : Nat) (x : Live) : (s.setTable n x).out = s.out := rfl
@[simp] theorem setTable_chron (n : Nat) (x : Live) : (s.setTable n x).chron = s.chron := rfl
@[simp] theorem setTable_fuses (n : Nat) (x : Live) : (s.setTable n x).fuses = s.fuses := rfl
@[simp] theorem setTable_boot (n : Nat) (x : Live) : (s.setTable n x).boot = s.boot := rfl
@[simp] theorem setTable_power (n : Nat) (x : Live) : (s.setTable n x).power = s.power := rfl
@[simp] theorem setTable_mv (n : Nat) (x : Live) : (s.setTable n x).mv = s.mv := rfl
@[simp] theorem setTable_chan (n : Nat) (x : Live) : (s.setTable n x).chan = s.chan := rfl
@[simp] theorem setTable_seq (n : Nat) (x : Live) : (s.setTable n x).seq = s.seq := rfl
@[simp] theorem setTable_queue (n : Nat) (x : Live) : (s.setTable n x).queue = s.queue := rfl
@[simp] theorem setTable_matrix (n : Nat) (x : Live) : (s.setTable n x).matrix = s.matrix := rfl
@[simp] theorem setTable_vector (n : Nat) (x : Live) : (s.setTable n x).vector = s.vector := rfl
@[simp] theorem setTable_skiver (n : Nat) (x : Live) : (s.setTable n x).skiver = s.skiver := rfl
@[simp] theorem setTable_bridle (n : Nat) (x : Live) : (s.setTable n x).bridle = s.bridle := rfl
@[simp] theorem setTable_aw (n : Nat) (x : Live) : (s.setTable n x).aw = s.aw := rfl
@[simp] theorem setTable_stack (n : Nat) (x : Live) : (s.setTable n x).stack = s.stack := rfl
@[simp] theorem setTable_domains (n : Nat) (x : Live) : (s.setTable n x).domains = s.domains := rfl
@[simp] theorem setTable_streams (n : Nat) (x : Live) : (s.setTable n x).streams = s.streams := rfl
@[simp] theorem setTable_pages (n : Nat) (x : Live) : (s.setTable n x).pages = s.pages := rfl
@[simp] theorem setTable_slots (n : Nat) (x : Live) : (s.setTable n x).slots = s.slots := rfl
@[simp] theorem setTable_sets (n : Nat) (x : Live) : (s.setTable n x).sets = s.sets := rfl
@[simp] theorem setTable_loads (n : Nat) (x : Live) : (s.setTable n x).loads = s.loads := rfl
@[simp] theorem setTable_fns (n : Nat) (x : Live) : (s.setTable n x).fns = s.fns := rfl
@[simp] theorem setTable_intake (n : Nat) (x : Live) : (s.setTable n x).intake = s.intake := rfl
@[simp] theorem setTable_cad (n : Nat) (x : Live) : (s.setTable n x).cad = s.cad := rfl
@[simp] theorem setTable_steps (n : Nat) (x : Live) : (s.setTable n x).steps = s.steps := rfl
@[simp] theorem setTable_run (n : Nat) (x : Live) : (s.setTable n x).run = s.run := rfl
@[simp] theorem setTable_tenancy (n : Nat) (x : Live) : (s.setTable n x).tenancy = s.tenancy := rfl
@[simp] theorem setTable_ports (n : Nat) (x : Live) : (s.setTable n x).ports = s.ports := rfl
@[simp] theorem setTable_links (n : Nat) (x : Live) : (s.setTable n x).links = s.links := rfl
@[simp] theorem setTable_fabric (n : Nat) (x : Live) : (s.setTable n x).fabric = s.fabric := rfl
@[simp] theorem setTable_grid (n : Nat) (x : Live) : (s.setTable n x).grid = s.grid := rfl
@[simp] theorem setTable_paths (n : Nat) (x : Live) : (s.setTable n x).paths = s.paths := rfl
@[simp] theorem setTable_latch (n : Nat) (x : Live) : (s.setTable n x).latch = s.latch := rfl
@[simp] theorem setTable_hub (n : Nat) (x : Live) : (s.setTable n x).hub = s.hub := rfl
@[simp] theorem setTable_fresh (n : Nat) (x : Live) : (s.setTable n x).fresh = s.fresh := rfl
@[simp] theorem setTable_stop (n : Nat) (x : Live) : (s.setTable n x).stop = s.stop := rfl
@[simp] theorem setTable_trace (n : Nat) (x : Live) : (s.setTable n x).trace = s.trace := rfl
@[simp] theorem setTable_replay (n : Nat) (x : Live) : (s.setTable n x).replay = s.replay := rfl
@[simp] theorem setTable_tables (n : Nat) (x : Live) : (s.setTable n x).tables = tset {} s.tables n x := rfl

@[simp] theorem emit_pending (o : Out) : (s.emit o).pending = s.pending := rfl
@[simp] theorem emit_ns (o : Out) : (s.emit o).ns = s.ns := rfl
@[simp] theorem emit_free (o : Out) : (s.emit o).free = s.free := rfl
@[simp] theorem emit_chron (o : Out) : (s.emit o).chron = s.chron := rfl
@[simp] theorem emit_fuses (o : Out) : (s.emit o).fuses = s.fuses := rfl
@[simp] theorem emit_boot (o : Out) : (s.emit o).boot = s.boot := rfl
@[simp] theorem emit_power (o : Out) : (s.emit o).power = s.power := rfl
@[simp] theorem emit_mv (o : Out) : (s.emit o).mv = s.mv := rfl
@[simp] theorem emit_chan (o : Out) : (s.emit o).chan = s.chan := rfl
@[simp] theorem emit_seq (o : Out) : (s.emit o).seq = s.seq := rfl
@[simp] theorem emit_queue (o : Out) : (s.emit o).queue = s.queue := rfl
@[simp] theorem emit_matrix (o : Out) : (s.emit o).matrix = s.matrix := rfl
@[simp] theorem emit_vector (o : Out) : (s.emit o).vector = s.vector := rfl
@[simp] theorem emit_skiver (o : Out) : (s.emit o).skiver = s.skiver := rfl
@[simp] theorem emit_bridle (o : Out) : (s.emit o).bridle = s.bridle := rfl
@[simp] theorem emit_aw (o : Out) : (s.emit o).aw = s.aw := rfl
@[simp] theorem emit_stack (o : Out) : (s.emit o).stack = s.stack := rfl
@[simp] theorem emit_domains (o : Out) : (s.emit o).domains = s.domains := rfl
@[simp] theorem emit_streams (o : Out) : (s.emit o).streams = s.streams := rfl
@[simp] theorem emit_pages (o : Out) : (s.emit o).pages = s.pages := rfl
@[simp] theorem emit_slots (o : Out) : (s.emit o).slots = s.slots := rfl
@[simp] theorem emit_sets (o : Out) : (s.emit o).sets = s.sets := rfl
@[simp] theorem emit_loads (o : Out) : (s.emit o).loads = s.loads := rfl
@[simp] theorem emit_fns (o : Out) : (s.emit o).fns = s.fns := rfl
@[simp] theorem emit_intake (o : Out) : (s.emit o).intake = s.intake := rfl
@[simp] theorem emit_cad (o : Out) : (s.emit o).cad = s.cad := rfl
@[simp] theorem emit_tables (o : Out) : (s.emit o).tables = s.tables := rfl
@[simp] theorem emit_steps (o : Out) : (s.emit o).steps = s.steps := rfl
@[simp] theorem emit_run (o : Out) : (s.emit o).run = s.run := rfl
@[simp] theorem emit_tenancy (o : Out) : (s.emit o).tenancy = s.tenancy := rfl
@[simp] theorem emit_ports (o : Out) : (s.emit o).ports = s.ports := rfl
@[simp] theorem emit_links (o : Out) : (s.emit o).links = s.links := rfl
@[simp] theorem emit_fabric (o : Out) : (s.emit o).fabric = s.fabric := rfl
@[simp] theorem emit_grid (o : Out) : (s.emit o).grid = s.grid := rfl
@[simp] theorem emit_paths (o : Out) : (s.emit o).paths = s.paths := rfl
@[simp] theorem emit_latch (o : Out) : (s.emit o).latch = s.latch := rfl
@[simp] theorem emit_hub (o : Out) : (s.emit o).hub = s.hub := rfl
@[simp] theorem emit_fresh (o : Out) : (s.emit o).fresh = s.fresh := rfl
@[simp] theorem emit_stop (o : Out) : (s.emit o).stop = s.stop := rfl
@[simp] theorem emit_trace (o : Out) : (s.emit o).trace = s.trace := rfl
@[simp] theorem emit_replay (o : Out) : (s.emit o).replay = s.replay := rfl
@[simp] theorem emit_out (o : Out) : (s.emit o).out = s.out ++ [o] := rfl

@[simp] theorem bump_pending : (s.bump).pending = s.pending := rfl
@[simp] theorem bump_ns : (s.bump).ns = s.ns := rfl
@[simp] theorem bump_out : (s.bump).out = s.out := rfl
@[simp] theorem bump_chron : (s.bump).chron = s.chron := rfl
@[simp] theorem bump_fuses : (s.bump).fuses = s.fuses := rfl
@[simp] theorem bump_boot : (s.bump).boot = s.boot := rfl
@[simp] theorem bump_power : (s.bump).power = s.power := rfl
@[simp] theorem bump_mv : (s.bump).mv = s.mv := rfl
@[simp] theorem bump_chan : (s.bump).chan = s.chan := rfl
@[simp] theorem bump_seq : (s.bump).seq = s.seq := rfl
@[simp] theorem bump_queue : (s.bump).queue = s.queue := rfl
@[simp] theorem bump_matrix : (s.bump).matrix = s.matrix := rfl
@[simp] theorem bump_vector : (s.bump).vector = s.vector := rfl
@[simp] theorem bump_skiver : (s.bump).skiver = s.skiver := rfl
@[simp] theorem bump_bridle : (s.bump).bridle = s.bridle := rfl
@[simp] theorem bump_aw : (s.bump).aw = s.aw := rfl
@[simp] theorem bump_stack : (s.bump).stack = s.stack := rfl
@[simp] theorem bump_domains : (s.bump).domains = s.domains := rfl
@[simp] theorem bump_streams : (s.bump).streams = s.streams := rfl
@[simp] theorem bump_pages : (s.bump).pages = s.pages := rfl
@[simp] theorem bump_slots : (s.bump).slots = s.slots := rfl
@[simp] theorem bump_sets : (s.bump).sets = s.sets := rfl
@[simp] theorem bump_loads : (s.bump).loads = s.loads := rfl
@[simp] theorem bump_fns : (s.bump).fns = s.fns := rfl
@[simp] theorem bump_intake : (s.bump).intake = s.intake := rfl
@[simp] theorem bump_cad : (s.bump).cad = s.cad := rfl
@[simp] theorem bump_tables : (s.bump).tables = s.tables := rfl
@[simp] theorem bump_steps : (s.bump).steps = s.steps := rfl
@[simp] theorem bump_run : (s.bump).run = s.run := rfl
@[simp] theorem bump_tenancy : (s.bump).tenancy = s.tenancy := rfl
@[simp] theorem bump_ports : (s.bump).ports = s.ports := rfl
@[simp] theorem bump_links : (s.bump).links = s.links := rfl
@[simp] theorem bump_fabric : (s.bump).fabric = s.fabric := rfl
@[simp] theorem bump_grid : (s.bump).grid = s.grid := rfl
@[simp] theorem bump_paths : (s.bump).paths = s.paths := rfl
@[simp] theorem bump_latch : (s.bump).latch = s.latch := rfl
@[simp] theorem bump_hub : (s.bump).hub = s.hub := rfl
@[simp] theorem bump_fresh : (s.bump).fresh = s.fresh := rfl
@[simp] theorem bump_stop : (s.bump).stop = s.stop := rfl
@[simp] theorem bump_trace : (s.bump).trace = s.trace := rfl
@[simp] theorem bump_replay : (s.bump).replay = s.replay := rfl
@[simp] theorem bump_free : s.bump.free = s.free + 1 := rfl

@[simp] theorem onRun_pending (f : Run → Run) : (s.onRun f).pending = s.pending := rfl
@[simp] theorem onRun_ns (f : Run → Run) : (s.onRun f).ns = s.ns := rfl
@[simp] theorem onRun_free (f : Run → Run) : (s.onRun f).free = s.free := rfl
@[simp] theorem onRun_out (f : Run → Run) : (s.onRun f).out = s.out := rfl
@[simp] theorem onRun_chron (f : Run → Run) : (s.onRun f).chron = s.chron := rfl
@[simp] theorem onRun_fuses (f : Run → Run) : (s.onRun f).fuses = s.fuses := rfl
@[simp] theorem onRun_boot (f : Run → Run) : (s.onRun f).boot = s.boot := rfl
@[simp] theorem onRun_power (f : Run → Run) : (s.onRun f).power = s.power := rfl
@[simp] theorem onRun_mv (f : Run → Run) : (s.onRun f).mv = s.mv := rfl
@[simp] theorem onRun_chan (f : Run → Run) : (s.onRun f).chan = s.chan := rfl
@[simp] theorem onRun_seq (f : Run → Run) : (s.onRun f).seq = s.seq := rfl
@[simp] theorem onRun_queue (f : Run → Run) : (s.onRun f).queue = s.queue := rfl
@[simp] theorem onRun_matrix (f : Run → Run) : (s.onRun f).matrix = s.matrix := rfl
@[simp] theorem onRun_vector (f : Run → Run) : (s.onRun f).vector = s.vector := rfl
@[simp] theorem onRun_skiver (f : Run → Run) : (s.onRun f).skiver = s.skiver := rfl
@[simp] theorem onRun_bridle (f : Run → Run) : (s.onRun f).bridle = s.bridle := rfl
@[simp] theorem onRun_aw (f : Run → Run) : (s.onRun f).aw = s.aw := rfl
@[simp] theorem onRun_stack (f : Run → Run) : (s.onRun f).stack = s.stack := rfl
@[simp] theorem onRun_domains (f : Run → Run) : (s.onRun f).domains = s.domains := rfl
@[simp] theorem onRun_streams (f : Run → Run) : (s.onRun f).streams = s.streams := rfl
@[simp] theorem onRun_pages (f : Run → Run) : (s.onRun f).pages = s.pages := rfl
@[simp] theorem onRun_slots (f : Run → Run) : (s.onRun f).slots = s.slots := rfl
@[simp] theorem onRun_sets (f : Run → Run) : (s.onRun f).sets = s.sets := rfl
@[simp] theorem onRun_loads (f : Run → Run) : (s.onRun f).loads = s.loads := rfl
@[simp] theorem onRun_fns (f : Run → Run) : (s.onRun f).fns = s.fns := rfl
@[simp] theorem onRun_intake (f : Run → Run) : (s.onRun f).intake = s.intake := rfl
@[simp] theorem onRun_cad (f : Run → Run) : (s.onRun f).cad = s.cad := rfl
@[simp] theorem onRun_tables (f : Run → Run) : (s.onRun f).tables = s.tables := rfl
@[simp] theorem onRun_steps (f : Run → Run) : (s.onRun f).steps = s.steps := rfl
@[simp] theorem onRun_tenancy (f : Run → Run) : (s.onRun f).tenancy = s.tenancy := rfl
@[simp] theorem onRun_ports (f : Run → Run) : (s.onRun f).ports = s.ports := rfl
@[simp] theorem onRun_links (f : Run → Run) : (s.onRun f).links = s.links := rfl
@[simp] theorem onRun_fabric (f : Run → Run) : (s.onRun f).fabric = s.fabric := rfl
@[simp] theorem onRun_grid (f : Run → Run) : (s.onRun f).grid = s.grid := rfl
@[simp] theorem onRun_paths (f : Run → Run) : (s.onRun f).paths = s.paths := rfl
@[simp] theorem onRun_latch (f : Run → Run) : (s.onRun f).latch = s.latch := rfl
@[simp] theorem onRun_hub (f : Run → Run) : (s.onRun f).hub = s.hub := rfl
@[simp] theorem onRun_fresh (f : Run → Run) : (s.onRun f).fresh = s.fresh := rfl
@[simp] theorem onRun_stop (f : Run → Run) : (s.onRun f).stop = s.stop := rfl
@[simp] theorem onRun_trace (f : Run → Run) : (s.onRun f).trace = s.trace := rfl
@[simp] theorem onRun_replay (f : Run → Run) : (s.onRun f).replay = s.replay := rfl
@[simp] theorem onRun_run (f : Run → Run) : (s.onRun f).run = s.run.map f := rfl

end Sys2Proof.Laws
end

