-- ==== Sys2Proof/Laws/Tables.lean ====
section
/-!
SUPPORT. Sparse tables and memories: reading after writing, the canonical form, and that every memory operation keeps it.
-/

namespace Sys2Proof.Laws

open Sys2Proof.Machine

variable {α : Type}

@[simp] theorem tget_nil (d : α) (k : Nat) : tget d [] k = d := rfl

/-- A written entry reads back. -/
@[simp] theorem tget_tput (d : α) (t : Tbl α) (k : Nat) (v : α) : tget d (tput k v t) k = v := by
  induction t with
  | nil => simp [tput, tget]
  | cons e t ih =>
    simp only [tput]
    split
    · simp [tget]
    · split
      · simp [tget]
      · rename_i h; simp [tget, h, ih]

/-- A write of one entry leaves the others. -/
theorem tget_tput_ne (d : α) (t : Tbl α) (k j : Nat) (v : α) (h : j ≠ k) : tget d (tput k v t) j = tget d t j := by
  induction t with
  | nil => simp [tput, tget, Ne.symm h]
  | cons e t ih =>
    simp only [tput]
    split
    · simp [tget, Ne.symm h]
    · split
      · rename_i h'; subst h'; simp [tget, Ne.symm h]
      · simp [tget, ih]

/-- A removed entry reads the default, where the keys rise. -/
theorem tget_of_rising (d : α) (t : Tbl α) (k lo : Nat) (h : risingFrom lo t = true) (hk : k < lo) : tget d t k = d := by
  induction t generalizing lo with
  | nil => rfl
  | cons e t ih =>
    obtain ⟨a, b⟩ := e
    simp only [risingFrom, Bool.and_eq_true, decide_eq_true_eq] at h
    have : a ≠ k := by omega
    simp [tget, this, ih (a + 1) h.2 (by omega)]

theorem tget_tdel (d : α) (t : Tbl α) (k lo : Nat) (h : risingFrom lo t = true) : tget d (tdel k t) k = d := by
  induction t generalizing lo with
  | nil => rfl
  | cons e t ih =>
    obtain ⟨a, b⟩ := e
    simp only [risingFrom, Bool.and_eq_true] at h
    simp only [tdel]
    split
    · rename_i e; subst e; exact tget_of_rising d t _ _ h.2 (by omega)
    · rename_i e; simp [tget, e, ih (a + 1) h.2]

theorem tget_tdel_ne (d : α) (t : Tbl α) (k j : Nat) (h : j ≠ k) : tget d (tdel k t) j = tget d t j := by
  induction t with
  | nil => rfl
  | cons e t ih =>
    obtain ⟨a, b⟩ := e
    simp only [tdel]
    split
    · rename_i e; subst e; simp [tget, Ne.symm h]
    · simp [tget, ih]

/-- A written entry of a table in rising order reads back, whatever the value. -/
theorem tget_tset [DecidableEq α] (d : α) (t : Tbl α) (k lo : Nat) (v : α) (h : risingFrom lo t = true) :
    tget d (tset d t k v) k = v := by
  unfold tset
  split
  · rename_i e; rw [e]; exact tget_tdel d t k lo h
  · simp

/-- A write leaves every other entry. -/
theorem tget_tset_ne [DecidableEq α] (d : α) (t : Tbl α) (k j : Nat) (v : α) (h : j ≠ k) :
    tget d (tset d t k v) j = tget d t j := by
  unfold tset
  split
  · exact tget_tdel_ne d t k j h
  · exact tget_tput_ne d t k j v h

/-- A value other than the default reads back in any table. -/
theorem tget_tset_of_ne [DecidableEq α] (d : α) (t : Tbl α) (k : Nat) (v : α) (h : v ≠ d) :
    tget d (tset d t k v) k = v := by simp [tset, h]

/-- The second of two writes of one entry stands. -/
@[simp] theorem tput_tput (t : Tbl α) (k : Nat) (v w : α) : tput k w (tput k v t) = tput k w t := by
  induction t with
  | nil => simp [tput]
  | cons e t ih =>
    obtain ⟨a, b⟩ := e
    simp only [tput]
    split
    · simp [tput]
    · split
      · simp [tput]
      · rename_i h1 h2; simp [tput, h1, h2, ih]

theorem tset_tset_of_ne [DecidableEq α] (d : α) (t : Tbl α) (k : Nat) (v w : α) (hv : v ≠ d) (hw : w ≠ d) :
    tset d (tset d t k v) k w = tset d t k w := by simp [tset, hv, hw]

/-! ### The canonical form -/

theorem risingFrom_mono (t : Tbl α) (lo lo' : Nat) (h : risingFrom lo t = true) (hl : lo' ≤ lo) :
    risingFrom lo' t = true := by
  cases t with
  | nil => rfl
  | cons e t =>
    obtain ⟨a, b⟩ := e
    simp only [risingFrom, Bool.and_eq_true, decide_eq_true_eq] at h ⊢
    exact ⟨by omega, h.2⟩

theorem risingFrom_tput (t : Tbl α) (k lo : Nat) (v : α) (h : risingFrom lo t = true) (hk : lo ≤ k) :
    risingFrom lo (tput k v t) = true := by
  induction t generalizing lo with
  | nil => simp [tput, risingFrom, hk]
  | cons e t ih =>
    obtain ⟨a, b⟩ := e
    simp only [risingFrom, Bool.and_eq_true, decide_eq_true_eq] at h
    simp only [tput]
    split
    · simp only [risingFrom, Bool.and_eq_true, decide_eq_true_eq]; exact ⟨hk, by omega, h.2⟩
    · split
      · rename_i e; subst e; simp only [risingFrom, Bool.and_eq_true, decide_eq_true_eq]; exact ⟨h.1, h.2⟩
      · simp only [risingFrom, Bool.and_eq_true, decide_eq_true_eq]; exact ⟨h.1, ih (a + 1) h.2 (by omega)⟩

theorem risingFrom_tdel (t : Tbl α) (k lo : Nat) (h : risingFrom lo t = true) : risingFrom lo (tdel k t) = true := by
  induction t generalizing lo with
  | nil => rfl
  | cons e t ih =>
    obtain ⟨a, b⟩ := e
    simp only [risingFrom, Bool.and_eq_true, decide_eq_true_eq] at h
    simp only [tdel]
    split
    · exact risingFrom_mono t _ _ h.2 (by omega)
    · simp only [risingFrom, Bool.and_eq_true, decide_eq_true_eq]; exact ⟨h.1, ih (a + 1) h.2⟩

theorem mem_tput (t : Tbl α) (k : Nat) (v : α) (e : Nat × α) (h : e ∈ tput k v t) : e = (k, v) ∨ e ∈ t := by
  induction t with
  | nil => simp [tput] at h; exact .inl h
  | cons e' t ih =>
    obtain ⟨a, b⟩ := e'
    simp only [tput] at h
    split at h
    · simpa using h
    · split at h
      · simp only [List.mem_cons] at h ⊢; tauto
      · simp only [List.mem_cons] at h ⊢
        rcases h with h | h
        · exact .inr (.inl h)
        · rcases ih h with h | h
          · exact .inl h
          · exact .inr (.inr h)

theorem mem_tdel (t : Tbl α) (k : Nat) (e : Nat × α) (h : e ∈ tdel k t) : e ∈ t := by
  induction t with
  | nil => exact h
  | cons e' t ih =>
    obtain ⟨a, b⟩ := e'
    simp only [tdel] at h
    split at h
    · exact List.mem_cons_of_mem _ h
    · simp only [List.mem_cons] at h ⊢
      rcases h with h | h
      · exact .inl h
      · exact .inr (ih h)

/-- A write keeps the canonical form of a sparse table. -/
theorem tset_wf [DecidableEq α] (d : α) (t : Tbl α) (k : Nat) (v : α) (h : Tbl.wf d t = true) :
    Tbl.wf d (tset d t k v) = true := by
  simp only [Tbl.wf, Bool.and_eq_true, List.all_eq_true, decide_eq_true_eq] at h ⊢
  unfold tset
  split
  · exact ⟨risingFrom_tdel t k 0 h.1, fun e he => h.2 e (mem_tdel t k e he)⟩
  · rename_i hv
    refine ⟨risingFrom_tput t k 0 v h.1 (Nat.zero_le k), fun e he => ?_⟩
    rcases mem_tput t k v e he with rfl | he
    · exact hv
    · exact h.2 e he

/-! ### Memories -/

/-- A byte written is the byte read. -/
theorem memByte_memPut (f : Option Nat) (m : Mem) (a : Nat) (b : Byte) (h : Memory.wf f m = true) :
    memByte f (memPut f m a b) a = b := by
  simp only [Memory.wf, Bool.and_eq_true] at h
  exact tget_tset _ m a 0 b h.1

/-- A write of one byte leaves the others. -/
theorem memByte_memPut_ne (f : Option Nat) (m : Mem) (a c : Nat) (b : Byte) (h : c ≠ a) :
    memByte f (memPut f m a b) c = memByte f m c := by
  unfold memByte memPut tset
  split
  · exact tget_tdel_ne _ m a c h
  · exact tget_tput_ne _ m a c b h

/-- A write of one byte keeps the canonical form. -/
theorem memPut_wf (f : Option Nat) (m : Mem) (a : Nat) (b : Byte) (h : Memory.wf f m = true) :
    Memory.wf f (memPut f m a b) = true := by
  simp only [Memory.wf, Bool.and_eq_true, List.all_eq_true, decide_eq_true_eq] at h ⊢
  unfold memPut tset
  split
  · exact ⟨risingFrom_tdel m a 0 h.1, fun e he => h.2 e (mem_tdel m a e he)⟩
  · rename_i hv
    refine ⟨risingFrom_tput m a 0 b h.1 (Nat.zero_le a), fun e he => ?_⟩
    rcases mem_tput m a b e he with rfl | he
    · exact hv
    · exact h.2 e he

/-- A write of a string of bytes keeps the canonical form. -/
theorem memPutAll_wf (f : Option Nat) (m : Mem) (a : Nat) (bs : Bytes) (h : Memory.wf f m = true) :
    Memory.wf f (memPutAll f m a bs) = true := by
  induction bs generalizing m a with
  | nil => exact h
  | cons b bs ih => exact ih _ _ (memPut_wf f m a b h)

/-- A write of a string of bytes leaves every byte outside it. -/
theorem memByte_memPutAll_out (f : Option Nat) (m : Mem) (a c : Nat) (bs : Bytes) (h : c < a ∨ a + bs.length ≤ c) :
    memByte f (memPutAll f m a bs) c = memByte f m c := by
  induction bs generalizing m a with
  | nil => rfl
  | cons b bs ih =>
    simp only [List.length_cons] at h
    simp only [memPutAll]
    rw [ih _ _ (by omega), memByte_memPut_ne f m a c b (by omega)]

/-- The bytes written from an address are those read from it. -/
theorem memGet_memPutAll (f : Option Nat) (m : Mem) (a : Nat) (bs : Bytes) (h : Memory.wf f m = true) :
    memGet f (memPutAll f m a bs) a bs.length = bs := by
  induction bs generalizing m a with
  | nil => rfl
  | cons b bs ih =>
    simp only [List.length_cons, memPutAll, memGet]
    rw [memByte_memPutAll_out f _ (a + 1) a bs (by omega), memByte_memPut f m a b h, ih _ _ (memPut_wf f m a b h)]

end Sys2Proof.Laws
end

