-- ==== Sys2Proof/Laws/Issue.lean ====
section
/-!
SUPPORT. What the raising of an event, the trace and the issue of an op leave unchanged, once for every command.
-/

namespace Sys2Proof.Laws

open Sys2Proof.Machine

variable (s t u : State)

/-- Setting back the records of a later state that differs in nothing else. -/
theorem unlogged_trans (h : t.unlogged u = u) : t.unlogged s = u.unlogged s := by
  rw [← h]; rfl

theorem unlogged_self : s.unlogged s = s := rfl

theorem unissued_of_unlogged (h : t.unlogged s = u) : t.unissued s = { u with run := s.run } := by
  rw [← h]; rfl

theorem joinGroup_unlogged (n : Nat) : (joinGroup s n).unlogged s = s := by
  unfold joinGroup; split <;> rfl

theorem latchPut_unlogged (r : Rec) : (latchPut s r).unlogged s = s := by
  unfold latchPut; extract_lets; split <;> rfl

theorem latchAlarm_unlogged (r : Rec) : (latchAlarm s r).unlogged s = s :=
  (unlogged_trans _ _ _ (latchPut_unlogged _ _)).trans rfl

/-- `t` differs from `s` in the records of events and the trace only. -/
def Logs (s t : State) : Prop := t.unlogged s = s

theorem Logs.refl (s : State) : Logs s s := rfl

theorem Logs.upd {s t u : State} (h : Logs s t) (e : u.unlogged t = t) : Logs s u :=
  (unlogged_trans _ _ _ e).trans h

theorem setPath_logs {s t : State} (h : Logs s t) (p : Nat) (a : Path) : Logs s (t.setPath p a) := h.upd rfl

theorem countDropped_logs {s t : State} (h : Logs s t) (k : Nat) : Logs s (countDropped t k) := h.upd rfl

theorem noteSet_logs {s t : State} (h : Logs s t) (k : Nat) : Logs s (t.noteSet k) := h.upd rfl

theorem countDrop_logs {s t : State} (h : Logs s t) (p : Nat) (r : Rec) : Logs s (countDrop t p r) := by
  unfold countDrop
  exact noteSet_logs (countDropped_logs (setPath_logs h _ _) _) _

theorem offer_logs {s t : State} (h : Logs s t) (r : Rec) (p : Nat) : Logs s (offer t r p) := by
  unfold offer
  extract_lets
  split
  · split
    · exact setPath_logs h _ _
    · split
      · exact countDrop_logs (setPath_logs h _ _) _ _
      · split
        · exact countDrop_logs (setPath_logs h _ _) _ _
        · exact setPath_logs h _ _
  · exact h

theorem markFault_logs {s t : State} (h : Logs s t) (c : Prop) [Decidable c] :
    Logs s (if c then { t with grid := { t.grid with faulted := true } } else t) := by
  split
  · exact h.upd rfl
  · exact h

theorem setHub_logs {s t : State} (h : Logs s t) (x : Hub) : Logs s { t with hub := x } := h.upd rfl

theorem passOn_logs {s t : State} (h : Logs s t) (r : Rec) : Logs s (passOn t r) :=
  offer_logs (offer_logs (offer_logs (setHub_logs h _) _ _) _ _) _ _

theorem hubDrain_logs (n : Nat) {s t : State} (h : Logs s t) : Logs s (hubDrain n t) := by
  induction n generalizing t with
  | zero => exact h
  | succ n ih =>
    unfold hubDrain
    split
    · split
      · exact ih (passOn_logs (setHub_logs h _) _)
      · exact h
    · exact h

theorem deliver_logs {s t : State} (h : Logs s t) (r : Rec) : Logs s (deliver t r) := by
  unfold deliver
  extract_lets s1 r1 s2 s3
  refine hubDrain_logs _ (setHub_logs ?_ _)
  have h1 : Logs s s1 := h.upd (joinGroup_unlogged _ _)
  have h2 : Logs s s2 := by
    simp only [s2]; split
    · exact h1.upd (latchAlarm_unlogged _ _)
    · exact h1
  exact markFault_logs h2 _

theorem deliver_unlogged (r : Rec) : (deliver s r).unlogged s = s := deliver_logs (.refl s) r

/-- Raising an event leaves records of it and nothing else (R515 to R524). -/
theorem raise_unlogged (c : Nat) (l : W64) (d : Bytes) (p : Option PlanPos) (f r : Nat) :
    (raise s c l d p f r).unlogged s = s := deliver_unlogged _ _

theorem sendMark_unlogged (pos : PlanPos) : (sendMark s pos).unlogged s = s := by
  unfold sendMark; split
  · rfl
  · exact (unlogged_trans _ _ _ (raise_unlogged _ _ _ _ _ _ _)).trans rfl

theorem setTrace_logs {s t : State} (h : Logs s t) (x : Trace) : Logs s { t with trace := x } := h.upd rfl

theorem traceAdd_unlogged (e : TraceEnt) (pos : PlanPos) : (traceAdd s e pos).unlogged s = s := by
  change Logs s _
  unfold traceAdd
  extract_lets
  split
  · split
    · split
      · exact (setTrace_logs (setTrace_logs (.refl s) _) _).upd (sendMark_unlogged _ _)
      · exact setTrace_logs (setTrace_logs (.refl s) _) _
    · exact setTrace_logs (.refl s) _
  · rfl

theorem traceOp_unlogged (pos : PlanPos) (a : Nat) (e : Bool) : (traceOp s pos a e).unlogged s = s := by
  unfold traceOp; split
  · rfl
  · exact traceAdd_unlogged _ _ _

/-- `t` differs from `s` in the records of events and in the running step, which `f` gives. -/
def Like (s : State) (f : Run → Run) (t : State) : Prop := t.unlogged s = s.onRun f

theorem Like.logs {s t u : State} {f : Run → Run} (h : Like s f t) (k : Logs t u) : Like s f u :=
  (unlogged_trans _ _ _ k).trans h

theorem Like.trans {s t u : State} {f g : Run → Run} (h : Like s f t) (k : Like t g u) : Like s (g ∘ f) u := by
  have e : u.unlogged s = (u.unlogged t).unlogged s := rfl
  have e2 : (t.onRun g).unlogged s = (t.unlogged s).onRun g := rfl
  unfold Like at *
  rw [e, k, e2, h]
  simp only [State.onRun, Option.map_map]

theorem Like.onRun (f : Run → Run) : Like s f (s.onRun f) := rfl

theorem Like.id : Like s id s := by
  unfold Like State.onRun
  rw [Option.map_id]
  rfl

/-- A running step that keeps what an issue keeps keeps it through two of them. -/
theorem kept_trans {r r' r'' : Run} (h : r.kept r') (k : r'.kept r'') : r.kept r'' := by
  have e := congrArg (fun x : Run => { x with
    claims := r.claims, breaches := r.breaches, flags := r.flags, flagRecs := r.flagRecs, sflags := r.sflags
    flights := r.flights, stamps := r.stamps, begin_ := r.begin_, beginNs := r.beginNs, lateness := r.lateness }) k
  exact e.trans h

theorem kept_refl (r : Run) : r.kept r := rfl

theorem beginStep_like : ∃ g : Run → Run, Like s g (beginStep s) ∧ ∀ r : Run, r.kept (g r) := ⟨_, .onRun s _, fun _ => rfl⟩

/-- The stamps of a plan beat (R64, R65, R526): records of events, and the step's stamps. -/
theorem beginBeat_like (v : Nat) : ∃ f : Run → Run, Like s f (beginBeat s v) ∧ ∀ r : Run, r.kept (f r) := by
  unfold beginBeat
  extract_lets s1 s2 pos
  have h1 : ∃ f : Run → Run, Like s f s1 ∧ ∀ r : Run, r.kept (f r) := ⟨_, .onRun s _, fun _ => rfl⟩
  have h2 : ∃ g : Run → Run, Like s1 g s2 ∧ ∀ r : Run, r.kept (g r) := by
    simp only [s2]
    split
    · exact beginStep_like s1
    · exact ⟨id, .id _, fun _ => rfl⟩
  obtain ⟨f, hf, kf⟩ := h1
  obtain ⟨g, hg, kg⟩ := h2
  exact ⟨_, (hf.trans hg).logs (traceAdd_unlogged _ _ _), fun r => kept_trans (kf r) (kg _)⟩

theorem stampBeat_logs (v b : Nat) : Logs s (stampBeat s v b) := by
  unfold stampBeat
  split
  · exact traceAdd_unlogged _ _ _
  · rfl

/-- The first part of a plan beat (R64, R65): the sequencer has opened it; stamps. -/
theorem openBeat_like (v : Nat) : ∃ f : Run → Run, (∀ r : Run, r.kept (f r)) ∧
    Like (if (s.seqOf v).opened then s else s.setSeq v { s.seqOf v with opened := true }) f (openBeat s v) := by
  unfold openBeat
  extract_lets q s1 b
  by_cases h : q.opened = true
  · rw [if_pos h, if_pos h]
    exact ⟨id, fun r => rfl, .id s⟩
  · rw [if_neg h, if_neg h]
    by_cases hb : b = 0
    · obtain ⟨f, hf, hk⟩ := beginBeat_like s1 v
      rw [if_pos hb]
      exact ⟨f, hk, hf.logs (stampBeat_logs _ _ _)⟩
    · rw [if_neg hb]
      exact ⟨id, fun r => rfl, (Like.id s1).logs (stampBeat_logs _ _ _)⟩

/-- The issue of an op, before its claims and its effect (R66, R87, R88): its sequencer has issued it, and the step has the
stamps of the beat. -/
theorem issued_like (v : Nat) (e : Bool) : ∃ f : Run → Run, (∀ r : Run, r.kept (f r)) ∧
    Like (s.setSeq v (s.issuedSeq v e)) f (issued (openBeat s v) (s.pos v) e) := by
  obtain ⟨f, hk, hf⟩ := openBeat_like s v
  refine ⟨f, hk, ?_⟩
  have hq : (openBeat s v).seqOf v = { s.seqOf v with opened := true } := by
    have e0 := congrArg (fun x : State => x.seq) hf
    have e1 : (openBeat s v).seq = (if (s.seqOf v).opened then s else s.setSeq v { s.seqOf v with opened := true }).seq := e0
    unfold State.seqOf at e1 ⊢
    rw [e1]
    by_cases h : (tget {} s.seq v).opened = true
    · rw [if_pos h]
      generalize tget ({} : Seq) s.seq v = q at *
      cases q; simp_all
    · rw [if_neg h]
      show tget {} (tset {} s.seq v _) v = _
      rw [tset, if_neg (by intro hh; have := congrArg Seq.opened hh; simp at this), tget_tput]
  have hi : Like ((openBeat s v).setSeq v (s.issuedSeq v e)) id (issued (openBeat s v) (s.pos v) e) := by
    refine (Like.id _).logs ?_
    have e2 : issued (openBeat s v) (s.pos v) e = traceOp ((openBeat s v).setSeq v (s.issuedSeq v e)) (s.pos v)
        (s.seqOf v).opAddr e := by
      unfold issued
      rw [show (s.pos v).vmove = v from rfl, hq]
      rfl
    rw [e2]
    exact traceOp_unlogged _ _ _ _
  have h2 : Like (s.setSeq v (s.issuedSeq v e)) f ((openBeat s v).setSeq v (s.issuedSeq v e)) := by
    have hn : s.issuedSeq v e ≠ {} := by intro hh; have := congrArg Seq.opened hh; simp [State.issuedSeq] at this
    unfold Like at *
    have e3 : ((openBeat s v).setSeq v (s.issuedSeq v e)).unlogged (s.setSeq v (s.issuedSeq v e))
        = ((openBeat s v).unlogged (if (s.seqOf v).opened then s else s.setSeq v { s.seqOf v with opened := true })).setSeq v
            (s.issuedSeq v e) := by
      split <;> rfl
    rw [e3, hf]
    split
    · rfl
    · have e4 : tset {} (tset {} s.seq v { s.seqOf v with opened := true }) v (s.issuedSeq v e)
          = tset {} s.seq v (s.issuedSeq v e) := by
        have hm : ({ s.seqOf v with opened := true } : Seq) ≠ {} := by
          intro hh; have := congrArg Seq.opened hh; simp at this
        simp only [tset, if_neg hn, if_neg hm, tput_tput]
      show State.onRun { s with seq := _ } f = State.onRun { s with seq := _ } f
      exact congrArg (fun x => State.onRun { s with seq := x } f) e4
  exact h2.trans hi

/-- The issue of an op, before its effect, with what it leaves of events and in the running step set back. -/
theorem issued_unissued (v : Nat) (e : Bool) :
    (issued (openBeat s v) (s.pos v) e).unissued s = s.setSeq v (s.issuedSeq v e) := by
  obtain ⟨f, _, hf⟩ := issued_like s v e
  unfold Like at hf
  have h : (issued (openBeat s v) (s.pos v) e).unissued s
      = { (issued (openBeat s v) (s.pos v) e).unlogged (s.setSeq v (s.issuedSeq v e)) with run := s.run } := rfl
  rw [h, hf]
  rfl

theorem claimAll_run (pos : PlanPos) (as : List Access) : ∃ f : Run → Run, claimAll s pos as = s.onRun f ∧
    ∀ r : Run, r.kept (f r) := ⟨_, rfl, fun _ => rfl⟩

/-- A list of accesses in the declared extents has no bad one (R83). -/
theorem firstBad_none (v : Nat) (as : List Access) (r : Run) (h : s.run = some r)
    (hx : ∀ a ∈ as, inExtent r.plan.extents v a = true) : s.firstBad v as = none := by
  simp only [State.firstBad, h, List.find?_eq_none]
  intro a ha; simp [hx a ha]

/-- A running step is there where an op can issue. -/
theorem run_of_canIssue (v : Nat) (h : s.canIssue v = true) : ∃ r, s.run = some r := by
  unfold State.canIssue at h
  cases hr : s.run with
  | none => simp [hr] at h
  | some r => exact ⟨r, rfl⟩

/-- Records of events leave the running step. -/
theorem Logs.run {s t : State} (h : Logs s t) : t.run = s.run := by
  have e := congrArg State.run (show t.unlogged s = s from h)
  exact e

theorem run_of_may (v : Nat) (engine : Bool) (h : (if engine then s.canEngine v else s.canIssue v) = true) :
    ∃ r, s.run = some r := by
  cases engine
  · exact run_of_canIssue s v h
  · simp only [if_true, State.canEngine, Bool.and_eq_true] at h
    exact run_of_canIssue s v h.1

/-- The running step after an op's issue and its claims keeps all but these (R79). -/
theorem issued_run (v : Nat) (e : Bool) (as : List Access) (r : Run) (h : s.run = some r) :
    ∃ r', (claimAll (issued (openBeat s v) (s.pos v) e) (s.pos v) as).run = some r' ∧ r.kept r' := by
  obtain ⟨f, hk, hf⟩ := issued_like s v e
  have e0 := congrArg (fun x : State => x.run) hf
  obtain ⟨g, hg, hk2⟩ := claimAll_run (issued (openBeat s v) (s.pos v) e) (s.pos v) as
  have e1 : (issued (openBeat s v) (s.pos v) e).run = s.run.map f := e0
  refine ⟨g (f r), ?_, kept_trans (hk r) (hk2 _)⟩
  rw [hg]
  simp [e1, h]

/-- An op that issues, whose fields are defined and whose accesses lie in their extents, has its effect after its claims
(R80, R591). -/
theorem issueOp_ok (v : Nat) (engine ok : Bool) (as : List Access) (eff : PlanPos → State → State)
    (h : (if engine then s.canEngine v else s.canIssue v) = true) (hok : ok = true) (hx : s.inExtents v as) :
    issueOp s v engine ok as eff = .next (eff (s.pos v) (claimAll (issued (openBeat s v) (s.pos v) engine) (s.pos v) as)) := by
  obtain ⟨r, hr⟩ := run_of_may s v engine h
  obtain ⟨r', hr', hk⟩ := issued_run s v engine as r hr
  have hpl : r'.plan = r.plan := by have h := congrArg Run.plan hk; simpa using h
  have hb : (claimAll (issued (openBeat s v) (s.pos v) engine) (s.pos v) as).firstBad v as = none :=
    firstBad_none _ _ _ _ hr' (by rw [hpl]; exact hx r hr)
  unfold issueOp act
  rw [if_pos h]
  simp only [hok, if_true, hb]

/-- The same for an op without accesses. -/
theorem issueOp_plain (v : Nat) (engine ok : Bool) (eff : PlanPos → State → State)
    (h : (if engine then s.canEngine v else s.canIssue v) = true) (hok : ok = true) :
    issueOp s v engine ok [] eff
      = .next (eff (s.pos v) (claimAll (issued (openBeat s v) (s.pos v) engine) (s.pos v) [])) :=
  issueOp_ok s v engine ok [] eff h hok (by intro r _ a ha; cases ha)

end Sys2Proof.Laws
end

