-- ==== Sys2Proof/Laws/Keeps.lean ====
section
/-!
SUPPORT. What every operation keeps (`Keeps`): the queue, the factory fuses, legal modes. One lemma per operation, proved by
unfolding it once; here the relation's own lemmas.
-/

namespace Sys2Proof.Machine

theorem Keeps.refl (s : State) : Keeps s s := ⟨rfl, rfl, id⟩

theorem Keeps.trans {r s t : State} (h : Keeps r s) (k : Keeps s t) : Keeps r t :=
  ⟨k.pending.trans h.pending, k.factory.trans h.factory, fun l => k.legal (h.legal l)⟩

/-- A record update that leaves the factory fuses and the mode fields alone. -/
theorem Keeps.upd {r t : State} {a_free : Nat}
    {a_ns : Nat}
    {a_out : List Out}
    {a_fuses : Fuses}
    {a_boot : Boot}
    {a_power : Power}
    {a_jtag : Jtag}
    {a_chron : Chron}
    {a_mv : Tbl Mvmt}
    {a_chan : Tbl (List Token)}
    {a_seq : Tbl Seq}
    {a_queue : Tbl Queue}
    {a_matrix : Tbl Matrix}
    {a_vector : Tbl Vector}
    {a_skiver : Tbl Skiver}
    {a_bridle : Tbl Bridle}
    {a_aw : Tbl AwDieSt}
    {a_installCount : Nat}
    {a_baseDigest : Option Bytes}
    {a_installed : Option Bytes}
    {a_stack : Tbl StackSt}
    {a_domains : Tbl Domain}
    {a_slotRows : Tbl Nat}
    {a_streams : List (Nat × Stream)}
    {a_pages : List (Nat × Page)}
    {a_prefixes : List (Nat × Prefix)}
    {a_grammars : List (Nat × Grammar)}
    {a_slots : Tbl Slot}
    {a_sets : List (Bytes × WeightSet)}
    {a_loads : List SetLoad}
    {a_fns : Tbl FnState}
    {a_intake : Intake}
    {a_cad : Cadence}
    {a_tables : Tbl Live}
    {a_commits : Nat}
    {a_winTable : Nat}
    {a_winLive : Bool}
    {a_winBase : Nat}
    {a_winIgnored : Bool}
    {a_auditRate : Nat}
    {a_waitLimit : Nat}
    {a_selfVpkg : Nat}
    {a_prefixTtl : Nat}
    {a_steps : List StepReq}
    {a_run : Option Run}
    {a_tenancy : Tenancy}
    {a_spdm : Spdm}
    {a_ports : Tbl PortSt}
    {a_links : Tbl LinkDie}
    {a_fabric : Fabric}
    {a_grid : Grid}
    {a_paths : Tbl Path}
    {a_drops : Tbl Nat}
    {a_latch : Tbl Capture}
    {a_evring : EvRing}
    {a_hub : Hub}
    {a_fresh : Fresh}
    {a_groupStamp : Nat}
    {a_groupNo : Nat}
    {a_snapAt : Nat}
    {a_snap : Tbl Nat}
    {a_trace : Trace}
    {a_stop : Stop}
    {a_replay : Replay} (h : Keeps r t)
    (e0 : a_fuses.grade = t.fuses.grade)
    (e1 : a_fuses.stepping = t.fuses.stepping)
    (e2 : a_fuses.engineMask = t.fuses.engineMask)
    (e3 : a_fuses.arrays = t.fuses.arrays)
    (e4 : a_fuses.deviceId = t.fuses.deviceId)
    (e5 : a_stop.state = t.stop.state)
    (e6 : a_grid.state = t.grid.state)
    (e7 : a_grid.twinState = t.grid.twinState)
    (e8 : a_tenancy.kind = t.tenancy.kind)
    (e9 : a_tenancy.phase = t.tenancy.phase)
    (e10 : a_chron.mode = t.chron.mode)
    (e11 : a_chron.state = t.chron.state)
    (e12 : a_power.stage = t.power.stage)
    (e13 : a_power.lastReset = t.power.lastReset)
    (e14 : a_power.thermal = t.power.thermal)
    (e15 : a_power.effLimit = t.power.effLimit)
    (e16 : a_spdm.phase = t.spdm.phase) :
    Keeps r ⟨t.pending, a_free, a_ns, a_out, a_fuses, a_boot, a_power, a_jtag, a_chron, a_mv, a_chan, a_seq, a_queue, a_matrix, a_vector, a_skiver, a_bridle, a_aw, a_installCount, a_baseDigest, a_installed, a_stack, a_domains, a_slotRows, a_streams, a_pages, a_prefixes, a_grammars, a_slots, a_sets, a_loads, a_fns, a_intake, a_cad, a_tables, a_commits, a_winTable, a_winLive, a_winBase, a_winIgnored, a_auditRate, a_waitLimit, a_selfVpkg, a_prefixTtl, a_steps, a_run, a_tenancy, a_spdm, a_ports, a_links, a_fabric, a_grid, a_paths, a_drops, a_latch, a_evring, a_hub, a_fresh, a_groupStamp, a_groupNo, a_snapAt, a_snap, a_trace, a_stop, a_replay⟩ :=
  ⟨h.pending, by rw [← h.factory]; simp only [State.factory, e0, e1, e2, e3, e4], fun l => by
    have k := h.legal l
    exact ⟨e5 ▸ k.stop, e6 ▸ k.grid, e7 ▸ k.twin, e8 ▸ k.kind, e9 ▸ k.phase, e10 ▸ k.chronMode, e11 ▸ k.chronState,
      e12 ▸ k.stage, e13 ▸ k.lastReset, e14 ▸ k.thermal, e15 ▸ k.limLow, e15 ▸ k.limHigh, e16 ▸ k.spdm,
      (by rw [e0, e2]; exact k.grade)⟩⟩

/-- `Keeps` of a record written out. -/
def KeepsMk (r : State) (a_pending : List Instr)
    (a_free : Nat)
    (a_ns : Nat)
    (a_out : List Out)
    (a_fuses : Fuses)
    (a_boot : Boot)
    (a_power : Power)
    (a_jtag : Jtag)
    (a_chron : Chron)
    (a_mv : Tbl Mvmt)
    (a_chan : Tbl (List Token))
    (a_seq : Tbl Seq)
    (a_queue : Tbl Queue)
    (a_matrix : Tbl Matrix)
    (a_vector : Tbl Vector)
    (a_skiver : Tbl Skiver)
    (a_bridle : Tbl Bridle)
    (a_aw : Tbl AwDieSt)
    (a_installCount : Nat)
    (a_baseDigest : Option Bytes)
    (a_installed : Option Bytes)
    (a_stack : Tbl StackSt)
    (a_domains : Tbl Domain)
    (a_slotRows : Tbl Nat)
    (a_streams : List (Nat × Stream))
    (a_pages : List (Nat × Page))
    (a_prefixes : List (Nat × Prefix))
    (a_grammars : List (Nat × Grammar))
    (a_slots : Tbl Slot)
    (a_sets : List (Bytes × WeightSet))
    (a_loads : List SetLoad)
    (a_fns : Tbl FnState)
    (a_intake : Intake)
    (a_cad : Cadence)
    (a_tables : Tbl Live)
    (a_commits : Nat)
    (a_winTable : Nat)
    (a_winLive : Bool)
    (a_winBase : Nat)
    (a_winIgnored : Bool)
    (a_auditRate : Nat)
    (a_waitLimit : Nat)
    (a_selfVpkg : Nat)
    (a_prefixTtl : Nat)
    (a_steps : List StepReq)
    (a_run : Option Run)
    (a_tenancy : Tenancy)
    (a_spdm : Spdm)
    (a_ports : Tbl PortSt)
    (a_links : Tbl LinkDie)
    (a_fabric : Fabric)
    (a_grid : Grid)
    (a_paths : Tbl Path)
    (a_drops : Tbl Nat)
    (a_latch : Tbl Capture)
    (a_evring : EvRing)
    (a_hub : Hub)
    (a_fresh : Fresh)
    (a_groupStamp : Nat)
    (a_groupNo : Nat)
    (a_snapAt : Nat)
    (a_snap : Tbl Nat)
    (a_trace : Trace)
    (a_stop : Stop)
    (a_replay : Replay) : Prop :=
  Keeps r ⟨a_pending, a_free, a_ns, a_out, a_fuses, a_boot, a_power, a_jtag, a_chron, a_mv, a_chan, a_seq, a_queue, a_matrix, a_vector, a_skiver, a_bridle, a_aw, a_installCount, a_baseDigest, a_installed, a_stack, a_domains, a_slotRows, a_streams, a_pages, a_prefixes, a_grammars, a_slots, a_sets, a_loads, a_fns, a_intake, a_cad, a_tables, a_commits, a_winTable, a_winLive, a_winBase, a_winIgnored, a_auditRate, a_waitLimit, a_selfVpkg, a_prefixTtl, a_steps, a_run, a_tenancy, a_spdm, a_ports, a_links, a_fabric, a_grid, a_paths, a_drops, a_latch, a_evring, a_hub, a_fresh, a_groupStamp, a_groupNo, a_snapAt, a_snap, a_trace, a_stop, a_replay⟩

theorem Keeps.mk_eq {r : State} {a_pending : List Instr}
    {a_free : Nat}
    {a_ns : Nat}
    {a_out : List Out}
    {a_fuses : Fuses}
    {a_boot : Boot}
    {a_power : Power}
    {a_jtag : Jtag}
    {a_chron : Chron}
    {a_mv : Tbl Mvmt}
    {a_chan : Tbl (List Token)}
    {a_seq : Tbl Seq}
    {a_queue : Tbl Queue}
    {a_matrix : Tbl Matrix}
    {a_vector : Tbl Vector}
    {a_skiver : Tbl Skiver}
    {a_bridle : Tbl Bridle}
    {a_aw : Tbl AwDieSt}
    {a_installCount : Nat}
    {a_baseDigest : Option Bytes}
    {a_installed : Option Bytes}
    {a_stack : Tbl StackSt}
    {a_domains : Tbl Domain}
    {a_slotRows : Tbl Nat}
    {a_streams : List (Nat × Stream)}
    {a_pages : List (Nat × Page)}
    {a_prefixes : List (Nat × Prefix)}
    {a_grammars : List (Nat × Grammar)}
    {a_slots : Tbl Slot}
    {a_sets : List (Bytes × WeightSet)}
    {a_loads : List SetLoad}
    {a_fns : Tbl FnState}
    {a_intake : Intake}
    {a_cad : Cadence}
    {a_tables : Tbl Live}
    {a_commits : Nat}
    {a_winTable : Nat}
    {a_winLive : Bool}
    {a_winBase : Nat}
    {a_winIgnored : Bool}
    {a_auditRate : Nat}
    {a_waitLimit : Nat}
    {a_selfVpkg : Nat}
    {a_prefixTtl : Nat}
    {a_steps : List StepReq}
    {a_run : Option Run}
    {a_tenancy : Tenancy}
    {a_spdm : Spdm}
    {a_ports : Tbl PortSt}
    {a_links : Tbl LinkDie}
    {a_fabric : Fabric}
    {a_grid : Grid}
    {a_paths : Tbl Path}
    {a_drops : Tbl Nat}
    {a_latch : Tbl Capture}
    {a_evring : EvRing}
    {a_hub : Hub}
    {a_fresh : Fresh}
    {a_groupStamp : Nat}
    {a_groupNo : Nat}
    {a_snapAt : Nat}
    {a_snap : Tbl Nat}
    {a_trace : Trace}
    {a_stop : Stop}
    {a_replay : Replay} : Keeps r ⟨a_pending, a_free, a_ns, a_out, a_fuses, a_boot, a_power, a_jtag, a_chron, a_mv, a_chan, a_seq, a_queue, a_matrix, a_vector, a_skiver, a_bridle, a_aw, a_installCount, a_baseDigest, a_installed, a_stack, a_domains, a_slotRows, a_streams, a_pages, a_prefixes, a_grammars, a_slots, a_sets, a_loads, a_fns, a_intake, a_cad, a_tables, a_commits, a_winTable, a_winLive, a_winBase, a_winIgnored, a_auditRate, a_waitLimit, a_selfVpkg, a_prefixTtl, a_steps, a_run, a_tenancy, a_spdm, a_ports, a_links, a_fabric, a_grid, a_paths, a_drops, a_latch, a_evring, a_hub, a_fresh, a_groupStamp, a_groupNo, a_snapAt, a_snap, a_trace, a_stop, a_replay⟩ = KeepsMk r a_pending a_free a_ns a_out a_fuses a_boot a_power a_jtag a_chron a_mv a_chan a_seq a_queue a_matrix a_vector a_skiver a_bridle a_aw a_installCount a_baseDigest a_installed a_stack a_domains a_slotRows a_streams a_pages a_prefixes a_grammars a_slots a_sets a_loads a_fns a_intake a_cad a_tables a_commits a_winTable a_winLive a_winBase a_winIgnored a_auditRate a_waitLimit a_selfVpkg a_prefixTtl a_steps a_run a_tenancy a_spdm a_ports a_links a_fabric a_grid a_paths a_drops a_latch a_evring a_hub a_fresh a_groupStamp a_groupNo a_snapAt a_snap a_trace a_stop a_replay := rfl

theorem KeepsMk.of {r t : State} {a_free : Nat}
    {a_ns : Nat}
    {a_out : List Out}
    {a_fuses : Fuses}
    {a_boot : Boot}
    {a_power : Power}
    {a_jtag : Jtag}
    {a_chron : Chron}
    {a_mv : Tbl Mvmt}
    {a_chan : Tbl (List Token)}
    {a_seq : Tbl Seq}
    {a_queue : Tbl Queue}
    {a_matrix : Tbl Matrix}
    {a_vector : Tbl Vector}
    {a_skiver : Tbl Skiver}
    {a_bridle : Tbl Bridle}
    {a_aw : Tbl AwDieSt}
    {a_installCount : Nat}
    {a_baseDigest : Option Bytes}
    {a_installed : Option Bytes}
    {a_stack : Tbl StackSt}
    {a_domains : Tbl Domain}
    {a_slotRows : Tbl Nat}
    {a_streams : List (Nat × Stream)}
    {a_pages : List (Nat × Page)}
    {a_prefixes : List (Nat × Prefix)}
    {a_grammars : List (Nat × Grammar)}
    {a_slots : Tbl Slot}
    {a_sets : List (Bytes × WeightSet)}
    {a_loads : List SetLoad}
    {a_fns : Tbl FnState}
    {a_intake : Intake}
    {a_cad : Cadence}
    {a_tables : Tbl Live}
    {a_commits : Nat}
    {a_winTable : Nat}
    {a_winLive : Bool}
    {a_winBase : Nat}
    {a_winIgnored : Bool}
    {a_auditRate : Nat}
    {a_waitLimit : Nat}
    {a_selfVpkg : Nat}
    {a_prefixTtl : Nat}
    {a_steps : List StepReq}
    {a_run : Option Run}
    {a_tenancy : Tenancy}
    {a_spdm : Spdm}
    {a_ports : Tbl PortSt}
    {a_links : Tbl LinkDie}
    {a_fabric : Fabric}
    {a_grid : Grid}
    {a_paths : Tbl Path}
    {a_drops : Tbl Nat}
    {a_latch : Tbl Capture}
    {a_evring : EvRing}
    {a_hub : Hub}
    {a_fresh : Fresh}
    {a_groupStamp : Nat}
    {a_groupNo : Nat}
    {a_snapAt : Nat}
    {a_snap : Tbl Nat}
    {a_trace : Trace}
    {a_stop : Stop}
    {a_replay : Replay} (h : Keeps r t)
    (e0 : a_fuses.grade = t.fuses.grade)
    (e1 : a_fuses.stepping = t.fuses.stepping)
    (e2 : a_fuses.engineMask = t.fuses.engineMask)
    (e3 : a_fuses.arrays = t.fuses.arrays)
    (e4 : a_fuses.deviceId = t.fuses.deviceId)
    (e5 : a_stop.state = t.stop.state)
    (e6 : a_grid.state = t.grid.state)
    (e7 : a_grid.twinState = t.grid.twinState)
    (e8 : a_tenancy.kind = t.tenancy.kind)
    (e9 : a_tenancy.phase = t.tenancy.phase)
    (e10 : a_chron.mode = t.chron.mode)
    (e11 : a_chron.state = t.chron.state)
    (e12 : a_power.stage = t.power.stage)
    (e13 : a_power.lastReset = t.power.lastReset)
    (e14 : a_power.thermal = t.power.thermal)
    (e15 : a_power.effLimit = t.power.effLimit)
    (e16 : a_spdm.phase = t.spdm.phase) :
    KeepsMk r t.pending a_free a_ns a_out a_fuses a_boot a_power a_jtag a_chron a_mv a_chan a_seq a_queue a_matrix a_vector a_skiver a_bridle a_aw a_installCount a_baseDigest a_installed a_stack a_domains a_slotRows a_streams a_pages a_prefixes a_grammars a_slots a_sets a_loads a_fns a_intake a_cad a_tables a_commits a_winTable a_winLive a_winBase a_winIgnored a_auditRate a_waitLimit a_selfVpkg a_prefixTtl a_steps a_run a_tenancy a_spdm a_ports a_links a_fabric a_grid a_paths a_drops a_latch a_evring a_hub a_fresh a_groupStamp a_groupNo a_snapAt a_snap a_trace a_stop a_replay :=
  Keeps.upd h e0 e1 e2 e3 e4 e5 e6 e7 e8 e9 e10 e11 e12 e13 e14 e15 e16

theorem KeepsMk.ofLegal {r t : State} {a_free : Nat}
    {a_ns : Nat}
    {a_out : List Out}
    {a_fuses : Fuses}
    {a_boot : Boot}
    {a_power : Power}
    {a_jtag : Jtag}
    {a_chron : Chron}
    {a_mv : Tbl Mvmt}
    {a_chan : Tbl (List Token)}
    {a_seq : Tbl Seq}
    {a_queue : Tbl Queue}
    {a_matrix : Tbl Matrix}
    {a_vector : Tbl Vector}
    {a_skiver : Tbl Skiver}
    {a_bridle : Tbl Bridle}
    {a_aw : Tbl AwDieSt}
    {a_installCount : Nat}
    {a_baseDigest : Option Bytes}
    {a_installed : Option Bytes}
    {a_stack : Tbl StackSt}
    {a_domains : Tbl Domain}
    {a_slotRows : Tbl Nat}
    {a_streams : List (Nat × Stream)}
    {a_pages : List (Nat × Page)}
    {a_prefixes : List (Nat × Prefix)}
    {a_grammars : List (Nat × Grammar)}
    {a_slots : Tbl Slot}
    {a_sets : List (Bytes × WeightSet)}
    {a_loads : List SetLoad}
    {a_fns : Tbl FnState}
    {a_intake : Intake}
    {a_cad : Cadence}
    {a_tables : Tbl Live}
    {a_commits : Nat}
    {a_winTable : Nat}
    {a_winLive : Bool}
    {a_winBase : Nat}
    {a_winIgnored : Bool}
    {a_auditRate : Nat}
    {a_waitLimit : Nat}
    {a_selfVpkg : Nat}
    {a_prefixTtl : Nat}
    {a_steps : List StepReq}
    {a_run : Option Run}
    {a_tenancy : Tenancy}
    {a_spdm : Spdm}
    {a_ports : Tbl PortSt}
    {a_links : Tbl LinkDie}
    {a_fabric : Fabric}
    {a_grid : Grid}
    {a_paths : Tbl Path}
    {a_drops : Tbl Nat}
    {a_latch : Tbl Capture}
    {a_evring : EvRing}
    {a_hub : Hub}
    {a_fresh : Fresh}
    {a_groupStamp : Nat}
    {a_groupNo : Nat}
    {a_snapAt : Nat}
    {a_snap : Tbl Nat}
    {a_trace : Trace}
    {a_stop : Stop}
    {a_replay : Replay} (h : Keeps r t)
    (e0 : a_fuses.grade = t.fuses.grade)
    (e1 : a_fuses.stepping = t.fuses.stepping)
    (e2 : a_fuses.engineMask = t.fuses.engineMask)
    (e3 : a_fuses.arrays = t.fuses.arrays)
    (e4 : a_fuses.deviceId = t.fuses.deviceId)
    (l : t.Legal → State.Legal ⟨t.pending, a_free, a_ns, a_out, a_fuses, a_boot, a_power, a_jtag, a_chron, a_mv, a_chan, a_seq, a_queue, a_matrix, a_vector, a_skiver, a_bridle, a_aw, a_installCount, a_baseDigest, a_installed, a_stack, a_domains, a_slotRows, a_streams, a_pages, a_prefixes, a_grammars, a_slots, a_sets, a_loads, a_fns, a_intake, a_cad, a_tables, a_commits, a_winTable, a_winLive, a_winBase, a_winIgnored, a_auditRate, a_waitLimit, a_selfVpkg, a_prefixTtl, a_steps, a_run, a_tenancy, a_spdm, a_ports, a_links, a_fabric, a_grid, a_paths, a_drops, a_latch, a_evring, a_hub, a_fresh, a_groupStamp, a_groupNo, a_snapAt, a_snap, a_trace, a_stop, a_replay⟩) :
    KeepsMk r t.pending a_free a_ns a_out a_fuses a_boot a_power a_jtag a_chron a_mv a_chan a_seq a_queue a_matrix a_vector a_skiver a_bridle a_aw a_installCount a_baseDigest a_installed a_stack a_domains a_slotRows a_streams a_pages a_prefixes a_grammars a_slots a_sets a_loads a_fns a_intake a_cad a_tables a_commits a_winTable a_winLive a_winBase a_winIgnored a_auditRate a_waitLimit a_selfVpkg a_prefixTtl a_steps a_run a_tenancy a_spdm a_ports a_links a_fabric a_grid a_paths a_drops a_latch a_evring a_hub a_fresh a_groupStamp a_groupNo a_snapAt a_snap a_trace a_stop a_replay :=
  ⟨h.pending, by rw [← h.factory]; simp only [State.factory, e0, e1, e2, e3, e4], fun k => l (h.legal k)⟩

/-- A record update that leaves the factory fuses alone and keeps legal modes. -/
theorem Keeps.updLegal {r t : State} {a_free : Nat}
    {a_ns : Nat}
    {a_out : List Out}
    {a_fuses : Fuses}
    {a_boot : Boot}
    {a_power : Power}
    {a_jtag : Jtag}
    {a_chron : Chron}
    {a_mv : Tbl Mvmt}
    {a_chan : Tbl (List Token)}
    {a_seq : Tbl Seq}
    {a_queue : Tbl Queue}
    {a_matrix : Tbl Matrix}
    {a_vector : Tbl Vector}
    {a_skiver : Tbl Skiver}
    {a_bridle : Tbl Bridle}
    {a_aw : Tbl AwDieSt}
    {a_installCount : Nat}
    {a_baseDigest : Option Bytes}
    {a_installed : Option Bytes}
    {a_stack : Tbl StackSt}
    {a_domains : Tbl Domain}
    {a_slotRows : Tbl Nat}
    {a_streams : List (Nat × Stream)}
    {a_pages : List (Nat × Page)}
    {a_prefixes : List (Nat × Prefix)}
    {a_grammars : List (Nat × Grammar)}
    {a_slots : Tbl Slot}
    {a_sets : List (Bytes × WeightSet)}
    {a_loads : List SetLoad}
    {a_fns : Tbl FnState}
    {a_intake : Intake}
    {a_cad : Cadence}
    {a_tables : Tbl Live}
    {a_commits : Nat}
    {a_winTable : Nat}
    {a_winLive : Bool}
    {a_winBase : Nat}
    {a_winIgnored : Bool}
    {a_auditRate : Nat}
    {a_waitLimit : Nat}
    {a_selfVpkg : Nat}
    {a_prefixTtl : Nat}
    {a_steps : List StepReq}
    {a_run : Option Run}
    {a_tenancy : Tenancy}
    {a_spdm : Spdm}
    {a_ports : Tbl PortSt}
    {a_links : Tbl LinkDie}
    {a_fabric : Fabric}
    {a_grid : Grid}
    {a_paths : Tbl Path}
    {a_drops : Tbl Nat}
    {a_latch : Tbl Capture}
    {a_evring : EvRing}
    {a_hub : Hub}
    {a_fresh : Fresh}
    {a_groupStamp : Nat}
    {a_groupNo : Nat}
    {a_snapAt : Nat}
    {a_snap : Tbl Nat}
    {a_trace : Trace}
    {a_stop : Stop}
    {a_replay : Replay} (h : Keeps r t)
    (e0 : a_fuses.grade = t.fuses.grade)
    (e1 : a_fuses.stepping = t.fuses.stepping)
    (e2 : a_fuses.engineMask = t.fuses.engineMask)
    (e3 : a_fuses.arrays = t.fuses.arrays)
    (e4 : a_fuses.deviceId = t.fuses.deviceId)
    (l : t.Legal → State.Legal ⟨t.pending, a_free, a_ns, a_out, a_fuses, a_boot, a_power, a_jtag, a_chron, a_mv, a_chan, a_seq, a_queue, a_matrix, a_vector, a_skiver, a_bridle, a_aw, a_installCount, a_baseDigest, a_installed, a_stack, a_domains, a_slotRows, a_streams, a_pages, a_prefixes, a_grammars, a_slots, a_sets, a_loads, a_fns, a_intake, a_cad, a_tables, a_commits, a_winTable, a_winLive, a_winBase, a_winIgnored, a_auditRate, a_waitLimit, a_selfVpkg, a_prefixTtl, a_steps, a_run, a_tenancy, a_spdm, a_ports, a_links, a_fabric, a_grid, a_paths, a_drops, a_latch, a_evring, a_hub, a_fresh, a_groupStamp, a_groupNo, a_snapAt, a_snap, a_trace, a_stop, a_replay⟩) :
    Keeps r ⟨t.pending, a_free, a_ns, a_out, a_fuses, a_boot, a_power, a_jtag, a_chron, a_mv, a_chan, a_seq, a_queue, a_matrix, a_vector, a_skiver, a_bridle, a_aw, a_installCount, a_baseDigest, a_installed, a_stack, a_domains, a_slotRows, a_streams, a_pages, a_prefixes, a_grammars, a_slots, a_sets, a_loads, a_fns, a_intake, a_cad, a_tables, a_commits, a_winTable, a_winLive, a_winBase, a_winIgnored, a_auditRate, a_waitLimit, a_selfVpkg, a_prefixTtl, a_steps, a_run, a_tenancy, a_spdm, a_ports, a_links, a_fabric, a_grid, a_paths, a_drops, a_latch, a_evring, a_hub, a_fresh, a_groupStamp, a_groupNo, a_snapAt, a_snap, a_trace, a_stop, a_replay⟩ :=
  ⟨h.pending, by rw [← h.factory]; simp only [State.factory, e0, e1, e2, e3, e4], fun k => l (h.legal k)⟩

theorem Keeps.foldl {α : Type} {r : State} {f : State → α → State} (hf : ∀ s a, Keeps r s → Keeps r (f s a)) (l : List α)
    {s : State} (h : Keeps r s) : Keeps r (l.foldl f s) := by
  induction l generalizing s with
  | nil => exact h
  | cons a l ih => exact ih (hf s a h)

theorem Keeps.foldl_fst {α β : Type} {r : State} {f : State × β → α → State × β}
    (hf : ∀ a x, Keeps r a.1 → Keeps r (f a x).1) (l : List α) {a : State × β} (h : Keeps r a.1) : Keeps r (l.foldl f a).1 := by
  induction l generalizing a with
  | nil => exact h
  | cons x l ih => exact ih (hf a x h)

theorem Keeps.ite {c : Prop} [Decidable c] {r a b : State} (ha : c → Keeps r a) (hb : ¬ c → Keeps r b) :
    Keeps r (if c then a else b) := by
  split
  · exact ha ‹_›
  · exact hb ‹_›

theorem Keeps.of_fst {β : Type} {r t : State} {p : State × β} {x : β} (e : p = (t, x)) (h : Keeps r p.1) : Keeps r t := by
  rw [e] at h
  exact h

theorem Keeps.iter {r : State} {f : State → State} (hf : ∀ s, Keeps r s → Keeps r (f s)) (n : Nat) {s : State} (h : Keeps r s) :
    Keeps r (iter f n s) := by
  induction n generalizing s with
  | zero => exact h
  | succ n ih => exact ih (hf s h)

end Sys2Proof.Machine
end

