-- ==== Sys2Proof/Laws/KeepsOps.lean ====
section
/-!
SUPPORT. What each operation of Machine/Ops.lean keeps.
-/

namespace Sys2Proof.Machine

theorem State.setMv_keeps {r : State} (s : State) (n : Nat) (m : Mvmt) (h : Keeps r s) :
    Keeps r (State.setMv s n m) :=
  Keeps.upd h rfl rfl rfl rfl rfl rfl rfl rfl rfl rfl rfl rfl rfl rfl rfl rfl rfl

theorem State.setSeq_keeps {r : State} (s : State) (v : Nat) (q : Seq) (h : Keeps r s) :
    Keeps r (State.setSeq s v q) :=
  Keeps.upd h rfl rfl rfl rfl rfl rfl rfl rfl rfl rfl rfl rfl rfl rfl rfl rfl rfl

theorem State.setQ_keeps {r : State} (s : State) (k : Nat) (q : Queue) (h : Keeps r s) :
    Keeps r (State.setQ s k q) :=
  Keeps.upd h rfl rfl rfl rfl rfl rfl rfl rfl rfl rfl rfl rfl rfl rfl rfl rfl rfl

theorem State.setMat_keeps {r : State} (s : State) (n : Nat) (m : Matrix) (h : Keeps r s) :
    Keeps r (State.setMat s n m) :=
  Keeps.upd h rfl rfl rfl rfl rfl rfl rfl rfl rfl rfl rfl rfl rfl rfl rfl rfl rfl

theorem State.setVec_keeps {r : State} (s : State) (n : Nat) (m : Vector) (h : Keeps r s) :
    Keeps r (State.setVec s n m) :=
  Keeps.upd h rfl rfl rfl rfl rfl rfl rfl rfl rfl rfl rfl rfl rfl rfl rfl rfl rfl

theorem State.setSk_keeps {r : State} (s : State) (n : Nat) (m : Skiver) (h : Keeps r s) :
    Keeps r (State.setSk s n m) :=
  Keeps.upd h rfl rfl rfl rfl rfl rfl rfl rfl rfl rfl rfl rfl rfl rfl rfl rfl rfl

theorem State.setBr_keeps {r : State} (s : State) (n : Nat) (m : Bridle) (h : Keeps r s) :
    Keeps r (State.setBr s n m) :=
  Keeps.upd h rfl rfl rfl rfl rfl rfl rfl rfl rfl rfl rfl rfl rfl rfl rfl rfl rfl

theorem State.setAw_keeps {r : State} (s : State) (d : Nat) (a : AwDieSt) (h : Keeps r s) :
    Keeps r (State.setAw s d a) :=
  Keeps.upd h rfl rfl rfl rfl rfl rfl rfl rfl rfl rfl rfl rfl rfl rfl rfl rfl rfl

theorem State.setStack_keeps {r : State} (s : State) (n : Nat) (a : StackSt) (h : Keeps r s) :
    Keeps r (State.setStack s n a) :=
  Keeps.upd h rfl rfl rfl rfl rfl rfl rfl rfl rfl rfl rfl rfl rfl rfl rfl rfl rfl

theorem State.setDom_keeps {r : State} (s : State) (n : Nat) (a : Domain) (h : Keeps r s) :
    Keeps r (State.setDom s n a) :=
  Keeps.upd h rfl rfl rfl rfl rfl rfl rfl rfl rfl rfl rfl rfl rfl rfl rfl rfl rfl

theorem State.setFn_keeps {r : State} (s : State) (f : Nat) (a : FnState) (h : Keeps r s) :
    Keeps r (State.setFn s f a) :=
  Keeps.upd h rfl rfl rfl rfl rfl rfl rfl rfl rfl rfl rfl rfl rfl rfl rfl rfl rfl

theorem State.setSq_keeps {r : State} (s : State) (f q : Nat) (a : Sq) (h : Keeps r s) :
    Keeps r (State.setSq s f q a) := by
  unfold State.setSq
  repeat' first
    | with_reducible assumption
    | with_reducible apply State.setFn_keeps

theorem State.setCq_keeps {r : State} (s : State) (f q : Nat) (a : Cq) (h : Keeps r s) :
    Keeps r (State.setCq s f q a) := by
  unfold State.setCq
  repeat' first
    | with_reducible assumption
    | with_reducible apply State.setFn_keeps

theorem State.setSlot_keeps {r : State} (s : State) (n : Nat) (a : Slot) (h : Keeps r s) :
    Keeps r (State.setSlot s n a) :=
  Keeps.upd h rfl rfl rfl rfl rfl rfl rfl rfl rfl rfl rfl rfl rfl rfl rfl rfl rfl

theorem State.setPort_keeps {r : State} (s : State) (p : Nat) (a : PortSt) (h : Keeps r s) :
    Keeps r (State.setPort s p a) :=
  Keeps.upd h rfl rfl rfl rfl rfl rfl rfl rfl rfl rfl rfl rfl rfl rfl rfl rfl rfl

theorem State.setLink_keeps {r : State} (s : State) (d : Nat) (a : LinkDie) (h : Keeps r s) :
    Keeps r (State.setLink s d a) :=
  Keeps.upd h rfl rfl rfl rfl rfl rfl rfl rfl rfl rfl rfl rfl rfl rfl rfl rfl rfl

theorem State.setPath_keeps {r : State} (s : State) (p : Nat) (a : Path) (h : Keeps r s) :
    Keeps r (State.setPath s p a) :=
  Keeps.upd h rfl rfl rfl rfl rfl rfl rfl rfl rfl rfl rfl rfl rfl rfl rfl rfl rfl

theorem State.setTable_keeps {r : State} (s : State) (t : Nat) (a : Live) (h : Keeps r s) :
    Keeps r (State.setTable s t a) :=
  Keeps.upd h rfl rfl rfl rfl rfl rfl rfl rfl rfl rfl rfl rfl rfl rfl rfl rfl rfl

theorem State.emit_keeps {r : State} (s : State) (o : Out) (h : Keeps r s) :
    Keeps r (State.emit s o) :=
  Keeps.upd h rfl rfl rfl rfl rfl rfl rfl rfl rfl rfl rfl rfl rfl rfl rfl rfl rfl

theorem State.onRun_keeps {r : State} (s : State) (f : Run → Run) (h : Keeps r s) :
    Keeps r (State.onRun s f) :=
  Keeps.upd h rfl rfl rfl rfl rfl rfl rfl rfl rfl rfl rfl rfl rfl rfl rfl rfl rfl

theorem State.bump_keeps {r : State} (s : State) (h : Keeps r s) :
    Keeps r (State.bump s) :=
  Keeps.upd h rfl rfl rfl rfl rfl rfl rfl rfl rfl rfl rfl rfl rfl rfl rfl rfl rfl

theorem State.noteSet_keeps {r : State} (s : State) (k : Nat) (h : Keeps r s) :
    Keeps r (State.noteSet s k) := by
  unfold State.noteSet
  repeat' first
    | with_reducible assumption
    | (simp only [↓Keeps.mk_eq]; with_reducible refine KeepsMk.of ?_ rfl rfl rfl rfl rfl rfl rfl rfl rfl rfl rfl rfl rfl rfl rfl rfl rfl)

theorem countDropped_keeps {r : State} (s : State) (k : Nat) (h : Keeps r s) :
    Keeps r (countDropped s k) := by
  unfold countDropped
  repeat' first
    | with_reducible assumption
    | (simp only [↓Keeps.mk_eq]; with_reducible refine KeepsMk.of ?_ rfl rfl rfl rfl rfl rfl rfl rfl rfl rfl rfl rfl rfl rfl rfl rfl rfl)

theorem countDrop_keeps {r₀ : State} (s : State) (p : Nat) (r : Rec) (h : Keeps r₀ s) :
    Keeps r₀ (countDrop s p r) := by
  unfold countDrop
  repeat' first
    | with_reducible assumption
    | with_reducible apply State.setPath_keeps
    | with_reducible apply State.noteSet_keeps
    | with_reducible apply countDropped_keeps

theorem offer_keeps {r₀ : State} (s : State) (r : Rec) (p : Nat) (h : Keeps r₀ s) :
    Keeps r₀ (offer s r p) := by
  unfold offer
  repeat' first
    | with_reducible assumption
    | with_reducible apply State.setPath_keeps
    | with_reducible apply countDrop_keeps
    | with_reducible refine Keeps.ite (fun _ => ?_) (fun _ => ?_)
    | split

theorem latchPut_keeps {r₀ : State} (s : State) (r : Rec) (h : Keeps r₀ s) :
    Keeps r₀ (latchPut s r) := by
  unfold latchPut
  repeat' first
    | with_reducible assumption
    | with_reducible apply after_keeps
    | with_reducible refine Keeps.ite (fun _ => ?_) (fun _ => ?_)
    | (simp only [↓Keeps.mk_eq]; with_reducible refine KeepsMk.of ?_ rfl rfl rfl rfl rfl rfl rfl rfl rfl rfl rfl rfl rfl rfl rfl rfl rfl)
    | intro _ _ _
    | intro _ _
    | with_reducible refine Keeps.of_fst (by assumption) ?_
    | split
    | dsimp only

theorem latchAlarm_keeps {r₀ : State} (s : State) (r : Rec) (h : Keeps r₀ s) :
    Keeps r₀ (latchAlarm s r) := by
  unfold latchAlarm
  repeat' first
    | with_reducible assumption
    | with_reducible apply latchPut_keeps
    | (simp only [↓Keeps.mk_eq]; with_reducible refine KeepsMk.of ?_ rfl rfl rfl rfl rfl rfl rfl rfl rfl rfl rfl rfl rfl rfl rfl rfl rfl)

theorem latchClear_keeps {r : State} (s : State) (hit : Nat → Bool) (h : Keeps r s) :
    Keeps r (latchClear s hit) := by
  unfold latchClear
  repeat' first
    | with_reducible assumption
    | with_reducible apply latchPut_keeps
    | with_reducible apply Keeps.foldl
    | with_reducible apply Keeps.foldl_fst
    | (simp only [↓Keeps.mk_eq]; with_reducible refine KeepsMk.of ?_ rfl rfl rfl rfl rfl rfl rfl rfl rfl rfl rfl rfl rfl rfl rfl rfl rfl)

theorem joinGroup_keeps {r : State} (s : State) (stamp : Nat) (h : Keeps r s) :
    Keeps r (joinGroup s stamp) := by
  unfold joinGroup
  repeat' first
    | with_reducible assumption
    | with_reducible refine Keeps.ite (fun _ => ?_) (fun _ => ?_)
    | (simp only [↓Keeps.mk_eq]; with_reducible refine KeepsMk.of ?_ rfl rfl rfl rfl rfl rfl rfl rfl rfl rfl rfl rfl rfl rfl rfl rfl rfl)

theorem passOn_keeps {r₀ : State} (s : State) (r : Rec) (h : Keeps r₀ s) :
    Keeps r₀ (passOn s r) := by
  unfold passOn
  repeat' first
    | with_reducible assumption
    | with_reducible apply offer_keeps
    | (simp only [↓Keeps.mk_eq]; with_reducible refine KeepsMk.of ?_ rfl rfl rfl rfl rfl rfl rfl rfl rfl rfl rfl rfl rfl rfl rfl rfl rfl)

theorem hubDrain_keeps {r : State} (n : Nat) (s : State) (h : Keeps r s) : Keeps r (hubDrain n s) := by
  induction n generalizing s with
  | zero => exact h
  | succ n ih =>
    unfold hubDrain
    repeat' first
      | with_reducible assumption
      | with_reducible apply ih
      | with_reducible apply passOn_keeps
      | with_reducible refine Keeps.ite (fun _ => ?_) (fun _ => ?_)
      | (simp only [↓Keeps.mk_eq]; with_reducible refine KeepsMk.of ?_ rfl rfl rfl rfl rfl rfl rfl rfl rfl rfl rfl rfl rfl rfl rfl rfl rfl)
      | split

theorem hubRelease_keeps {r : State} (s : State) (h : Keeps r s) :
    Keeps r (hubRelease s) := by
  unfold hubRelease
  repeat' first
    | with_reducible assumption
    | with_reducible apply hubDrain_keeps

theorem deliver_keeps {r₀ : State} (s : State) (r : Rec) (h : Keeps r₀ s) :
    Keeps r₀ (deliver s r) := by
  unfold deliver
  repeat' first
    | with_reducible assumption
    | with_reducible apply latchAlarm_keeps
    | with_reducible apply joinGroup_keeps
    | with_reducible apply hubRelease_keeps
    | with_reducible refine Keeps.ite (fun _ => ?_) (fun _ => ?_)
    | (simp only [↓Keeps.mk_eq]; with_reducible refine KeepsMk.of ?_ rfl rfl rfl rfl rfl rfl rfl rfl rfl rfl rfl rfl rfl rfl rfl rfl rfl)

theorem raiseAt_keeps {r : State} (s : State) (stamp code : Nat) (l : W64) (detail : Bytes) (plan : Option PlanPos) (fn :
    Nat) (rehearsal : Nat) (h : Keeps r s) :
    Keeps r (raiseAt s stamp code l detail plan fn rehearsal) := by
  unfold raiseAt
  repeat' first
    | with_reducible assumption
    | with_reducible apply deliver_keeps

theorem raise_keeps {r : State} (s : State) (code : Nat) (l : W64) (detail : Bytes) (plan : Option PlanPos) (fn : Nat)
    (rehearsal : Nat) (h : Keeps r s) :
    Keeps r (raise s code l detail plan fn rehearsal) := by
  unfold raise
  repeat' first
    | with_reducible assumption
    | with_reducible apply raiseAt_keeps

theorem deviceFault_keeps {r : State} (s : State) (code : Nat) (l : W64) (h : Keeps r s) :
    Keeps r (deviceFault s code l) := by
  unfold deviceFault
  repeat' first
    | with_reducible assumption
    | with_reducible apply State.onRun_keeps

theorem requestStop_keeps {r : State} (s : State) (cause : Nat) (ending : Bool) (floor : Nat) (h : Keeps r s) :
    Keeps r (requestStop s cause ending floor) := by
  unfold requestStop
  dsimp only
  split
  · exact Keeps.updLegal h rfl rfl rfl rfl rfl fun l => { l with stop := by simp }
  · exact Keeps.upd h rfl rfl rfl rfl rfl rfl rfl rfl rfl rfl rfl rfl rfl rfl rfl rfl rfl

theorem resumableStop_keeps {r : State} (s : State) (cause : Nat) (h : Keeps r s) :
    Keeps r (resumableStop s cause) := by
  unfold resumableStop
  repeat' first
    | with_reducible assumption
    | with_reducible apply requestStop_keeps

theorem breach_keeps {r : State} (s : State) (b : Breach) (h : Keeps r s) :
    Keeps r (breach s b) := by
  unfold breach
  repeat' first
    | with_reducible assumption
    | with_reducible apply State.onRun_keeps
    | with_reducible apply requestStop_keeps
    | split

theorem sendMsix_keeps {r : State} (s : State) (f v : Nat) (h : Keeps r s) :
    Keeps r (sendMsix s f v) := by
  unfold sendMsix
  repeat' first
    | with_reducible assumption
    | with_reducible apply State.setFn_keeps
    | with_reducible apply State.emit_keeps
    | with_reducible refine Keeps.ite (fun _ => ?_) (fun _ => ?_)

theorem sendHeldMsix_keeps {r : State} (s : State) (f i : Nat) (h : Keeps r s) :
    Keeps r (sendHeldMsix s f i) := by
  unfold sendHeldMsix
  repeat' first
    | with_reducible assumption
    | with_reducible apply State.setCq_keeps
    | with_reducible apply sendMsix_keeps
    | with_reducible apply Keeps.foldl
    | with_reducible apply Keeps.foldl_fst
    | with_reducible refine Keeps.ite (fun _ => ?_) (fun _ => ?_)
    | (simp only [↓Keeps.mk_eq]; with_reducible refine KeepsMk.of ?_ rfl rfl rfl rfl rfl rfl rfl rfl rfl rfl rfl rfl rfl rfl rfl rfl rfl)
    | intro _ _ _

theorem coalesce_keeps {r : State} (s : State) (f q : Nat) (irq : Bool) (h : Keeps r s) :
    Keeps r (coalesce s f q irq) := by
  unfold coalesce
  repeat' first
    | with_reducible assumption
    | with_reducible apply State.setCq_keeps
    | with_reducible apply sendMsix_keeps
    | with_reducible refine Keeps.ite (fun _ => ?_) (fun _ => ?_)

theorem complete_keeps {r₀ : State} (s : State) (acc status detail : Nat) (r : Results) (h : Keeps r₀ s) :
    Keeps r₀ (complete s acc status detail r) := by
  unfold complete
  repeat' first
    | with_reducible assumption
    | with_reducible apply State.setCq_keeps
    | with_reducible apply State.emit_keeps
    | with_reducible apply raise_keeps
    | with_reducible apply coalesce_keeps
    | with_reducible refine Keeps.ite (fun _ => ?_) (fun _ => ?_)
    | (simp only [↓Keeps.mk_eq]; with_reducible refine KeepsMk.of ?_ rfl rfl rfl rfl rfl rfl rfl rfl rfl rfl rfl rfl rfl rfl rfl rfl rfl)
    | split

theorem hostWrite_keeps {r : State} (s : State) (fn : Nat) (pasid : Option Nat) (addr : W64) (data : Bytes) (relaxed : Bool) (h : Keeps r s) :
    Keeps r (hostWrite s fn pasid addr data relaxed) := by
  unfold hostWrite
  repeat' first
    | with_reducible assumption
    | with_reducible apply State.emit_keeps
    | with_reducible refine Keeps.ite (fun _ => ?_) (fun _ => ?_)

end Sys2Proof.Machine
end

