-- ==== Sys2Proof/Laws/KeepsTables.lean ====
section
/-!
SUPPORT. What each operation of Machine/Tables.lean keeps.
-/

namespace Sys2Proof.Machine

theorem checkDigest_keeps {r : State} (s : State) (acc : Nat) (d : Bytes) (h : Keeps r s) :
    Keeps r (checkDigest s acc d) := by
  unfold checkDigest
  repeat' first
    | with_reducible assumption
    | with_reducible apply raise_keeps
    | with_reducible refine Keeps.ite (fun _ => ?_) (fun _ => ?_)
    | (simp only [↓Keeps.mk_eq]; with_reducible refine KeepsMk.of ?_ rfl rfl rfl rfl rfl rfl rfl rfl rfl rfl rfl rfl rfl rfl rfl rfl rfl)
    | with_reducible refine Keeps.of_fst (by assumption) ?_
    | split

theorem logEntry_keeps {r : State} (s : State) (kind step : Nat) (content : Bytes) (h : Keeps r s) :
    Keeps r (logEntry s kind step content) := by
  unfold logEntry
  repeat' first
    | with_reducible assumption
    | with_reducible apply raise_keeps
    | with_reducible apply hostWrite_keeps
    | with_reducible refine Keeps.ite (fun _ => ?_) (fun _ => ?_)
    | (simp only [↓Keeps.mk_eq]; with_reducible refine KeepsMk.of ?_ rfl rfl rfl rfl rfl rfl rfl rfl rfl rfl rfl rfl rfl rfl rfl rfl rfl)

end Sys2Proof.Machine
end

