-- ==== Sys2Proof/Laws/KeepsFlags.lean ====
section
/-!
SUPPORT. What each operation of Machine/Flags.lean keeps.
-/

namespace Sys2Proof.Machine

theorem raiseFlags_keeps {r : State} (s : State) (f : Nat) (pos : PlanPos) (h : Keeps r s) :
    Keeps r (raiseFlags s f pos) := by
  unfold raiseFlags
  repeat' first
    | with_reducible assumption
    | with_reducible apply State.onRun_keeps

theorem setSflag_keeps {r : State} (s : State) (i : Nat) (h : Keeps r s) :
    Keeps r (setSflag s i) := by
  unfold setSflag
  repeat' first
    | with_reducible assumption
    | with_reducible apply State.onRun_keeps

end Sys2Proof.Machine
end

