-- ==== Sys2Proof/Laws/KeepsPlace.lean ====
section
/-!
SUPPORT. What each operation of Machine/Place.lean keeps.
-/

namespace Sys2Proof.Machine

theorem takeBlock_keeps {r : State} (s : State) (st : Nat) (h : Keeps r s) :
    Keeps r (takeBlock s st).1 := by
  unfold takeBlock
  repeat' first
    | with_reducible assumption
    | with_reducible apply State.bump_keeps
    | with_reducible apply State.setStack_keeps

theorem takeBlocks_keeps {r : State} (s : State) (sts : List Nat) (h : Keeps r s) :
    Keeps r (takeBlocks s sts).1 := by
  unfold takeBlocks
  repeat' first
    | with_reducible assumption
    | with_reducible apply takeBlock_keeps
    | with_reducible apply Keeps.foldl
    | with_reducible apply Keeps.foldl_fst
    | intro _ _ _

theorem takeRun_keeps {r : State} (s : State) (st n : Nat) (h : Keeps r s) :
    Keeps r (takeRun s st n).1 := by
  unfold takeRun
  repeat' first
    | with_reducible assumption
    | with_reducible apply State.setStack_keeps
    | with_reducible apply State.bump_keeps
    | with_reducible apply takeBlocks_keeps
    | with_reducible apply Keeps.foldl
    | with_reducible apply Keeps.foldl_fst
    | (simp only [↓Keeps.mk_eq]; with_reducible refine KeepsMk.of ?_ rfl rfl rfl rfl rfl rfl rfl rfl rfl rfl rfl rfl rfl rfl rfl rfl rfl)
    | intro _ _ _
    | intro _ _
    | with_reducible refine Keeps.of_fst (by assumption) ?_
    | split
    | dsimp only

theorem freeBlocks_keeps {r : State} (s : State) (bs : List (Nat × Nat)) (h : Keeps r s) :
    Keeps r (freeBlocks s bs) := by
  unfold freeBlocks
  repeat' first
    | with_reducible assumption
    | with_reducible apply State.setStack_keeps
    | with_reducible apply Keeps.foldl
    | with_reducible apply Keeps.foldl_fst
    | intro _ _ _

theorem reserveDomain_keeps {r : State} (s : State) (dom blocks : Nat) (h : Keeps r s) :
    Keeps r (reserveDomain s dom blocks) := by
  unfold reserveDomain
  repeat' first
    | with_reducible assumption
    | with_reducible apply State.setDom_keeps
    | with_reducible apply State.bump_keeps
    | split
    | dsimp only

theorem releaseDomain_keeps {r : State} (s : State) (dom blocks : Nat) (h : Keeps r s) :
    Keeps r (releaseDomain s dom blocks) := by
  unfold releaseDomain
  repeat' first
    | with_reducible assumption
    | with_reducible apply State.setDom_keeps

theorem upsetUnits_keeps {r : State} (us : List UnitUpset) (s : State) (h : Keeps r s) :
    Keeps r (upsetUnits us s) := by
  unfold upsetUnits
  repeat' first
    | with_reducible assumption
    | with_reducible apply State.setStack_keeps
    | with_reducible apply Keeps.foldl
    | with_reducible apply Keeps.foldl_fst
    | (simp only [↓Keeps.mk_eq]; with_reducible refine KeepsMk.of ?_ rfl rfl rfl rfl rfl rfl rfl rfl rfl rfl rfl rfl rfl rfl rfl rfl rfl)
    | intro _ _ _

theorem correctWord_keeps {r : State} (st u : Nat) (detail : Bytes) (s : State) (cells : List Nat) (h : Keeps r s) :
    Keeps r (correctWord st u detail s cells) := by
  unfold correctWord
  repeat' first
    | with_reducible assumption
    | with_reducible apply State.setStack_keeps
    | with_reducible apply raise_keeps

theorem correctUnit_keeps {r : State} (s : State) (st u : Nat) (detail : Bytes) (h : Keeps r s) :
    Keeps r (correctUnit s st u detail) := by
  unfold correctUnit
  repeat' first
    | with_reducible assumption
    | with_reducible apply State.setStack_keeps
    | with_reducible apply correctWord_keeps
    | with_reducible apply Keeps.foldl
    | with_reducible apply Keeps.foldl_fst
    | with_reducible refine Keeps.ite (fun _ => ?_) (fun _ => ?_)
    | (simp only [↓Keeps.mk_eq]; with_reducible refine KeepsMk.of ?_ rfl rfl rfl rfl rfl rfl rfl rfl rfl rfl rfl rfl rfl rfl rfl rfl rfl)
    | intro _ _ _

theorem fatalUnit_keeps {r : State} (s : State) (st u : Nat) (detail : Bytes) (h : Keeps r s) :
    Keeps r (fatalUnit s st u detail) := by
  unfold fatalUnit
  repeat' first
    | with_reducible assumption
    | with_reducible apply State.setStack_keeps
    | with_reducible apply raise_keeps
    | with_reducible apply deviceFault_keeps

theorem eccUnit_keeps {r : State} (s : State) (st u : Nat) (detail : Bytes) (h : Keeps r s) :
    Keeps r (eccUnit s st u detail).1 := by
  unfold eccUnit
  repeat' first
    | with_reducible assumption
    | with_reducible apply correctUnit_keeps
    | with_reducible apply fatalUnit_keeps
    | with_reducible refine Keeps.ite (fun _ => ?_) (fun _ => ?_)
    | (simp only [↓Keeps.mk_eq]; with_reducible refine KeepsMk.of ?_ rfl rfl rfl rfl rfl rfl rfl rfl rfl rfl rfl rfl rfl rfl rfl rfl rfl)
    | with_reducible refine Keeps.of_fst (by assumption) ?_
    | split
    | dsimp only

theorem readSystem_keeps {r : State} (s : State) (us : List (Nat × Nat)) (h : Keeps r s) :
    Keeps r (readSystem s us) := by
  unfold readSystem
  repeat' first
    | with_reducible assumption
    | with_reducible apply eccUnit_keeps
    | with_reducible apply Keeps.foldl
    | with_reducible apply Keeps.foldl_fst
    | intro _ _ _

theorem readUnit_keeps {r : State} (s : State) (st u dom : Nat) (detail : Bytes) (h : Keeps r s) :
    Keeps r (readUnit s st u dom detail).1 := by
  unfold readUnit
  repeat' first
    | with_reducible assumption
    | with_reducible apply State.bump_keeps
    | with_reducible apply eccUnit_keeps
    | with_reducible refine Keeps.ite (fun _ => ?_) (fun _ => ?_)
    | (simp only [↓Keeps.mk_eq]; with_reducible refine KeepsMk.of ?_ rfl rfl rfl rfl rfl rfl rfl rfl rfl rfl rfl rfl rfl rfl rfl rfl rfl)
    | with_reducible refine Keeps.of_fst (by assumption) ?_
    | split
    | dsimp only

theorem clearBlocks_keeps {r : State} (s : State) (bs : List (Nat × Nat)) (h : Keeps r s) :
    Keeps r (clearBlocks s bs) := by
  unfold clearBlocks
  repeat' first
    | with_reducible assumption
    | with_reducible apply State.setStack_keeps
    | with_reducible apply Keeps.foldl
    | with_reducible apply Keeps.foldl_fst
    | (simp only [↓Keeps.mk_eq]; with_reducible refine KeepsMk.of ?_ rfl rfl rfl rfl rfl rfl rfl rfl rfl rfl rfl rfl rfl rfl rfl rfl rfl)
    | intro _ _ _

theorem clearSystem_keeps {r : State} (s : State) (u : Nat × Nat) (h : Keeps r s) :
    Keeps r (clearSystem s u) := by
  unfold clearSystem
  repeat' first
    | with_reducible assumption
    | with_reducible apply State.setStack_keeps
    | with_reducible refine Keeps.ite (fun _ => ?_) (fun _ => ?_)

theorem putStream_keeps {r : State} (s : State) (h : Nat) (x : Stream) (h₀ : Keeps r s) :
    Keeps r (putStream s h x) := by
  unfold putStream
  repeat' first
    | with_reducible assumption
    | with_reducible apply clearSystem_keeps
    | (simp only [↓Keeps.mk_eq]; with_reducible refine KeepsMk.of ?_ rfl rfl rfl rfl rfl rfl rfl rfl rfl rfl rfl rfl rfl rfl rfl rfl rfl)

theorem writeUnit_keeps {r : State} (s : State) (st u dom : Nat) (data : Bytes) (h : Keeps r s) :
    Keeps r (writeUnit s st u dom data) := by
  unfold writeUnit
  repeat' first
    | with_reducible assumption
    | with_reducible apply State.setStack_keeps

theorem writeRun_keeps {r : State} (s : State) (blocks : List (Nat × Nat)) (dom o : Nat) (units : List Bytes) (h : Keeps r s) :
    Keeps r (writeRun s blocks dom o units) := by
  unfold writeRun
  repeat' first
    | with_reducible assumption
    | with_reducible apply writeUnit_keeps
    | with_reducible apply Keeps.foldl
    | with_reducible apply Keeps.foldl_fst
    | intro _ _ _

theorem allocPage_keeps {r : State} (s : State) (h : Stream) (refs : Nat) (rows : List (Nat × List Byte)) (h₀ : Keeps r s)
    :
    Keeps r (allocPage s h refs rows).1 := by
  unfold allocPage
  repeat' first
    | with_reducible assumption
    | with_reducible apply State.setFn_keeps
    | with_reducible apply State.bump_keeps
    | with_reducible apply takeBlocks_keeps
    | with_reducible apply reserveDomain_keeps
    | with_reducible apply clearBlocks_keeps
    | with_reducible refine Keeps.ite (fun _ => ?_) (fun _ => ?_)
    | (simp only [↓Keeps.mk_eq]; with_reducible refine KeepsMk.of ?_ rfl rfl rfl rfl rfl rfl rfl rfl rfl rfl rfl rfl rfl rfl rfl rfl rfl)

theorem settlePage_keeps {r : State} (s : State) (n : Nat) (h : Keeps r s) :
    Keeps r (settlePage s n) := by
  unfold settlePage
  repeat' first
    | with_reducible assumption
    | with_reducible apply State.setFn_keeps
    | with_reducible apply freeBlocks_keeps
    | with_reducible apply releaseDomain_keeps
    | with_reducible refine Keeps.ite (fun _ => ?_) (fun _ => ?_)
    | (simp only [↓Keeps.mk_eq]; with_reducible refine KeepsMk.of ?_ rfl rfl rfl rfl rfl rfl rfl rfl rfl rfl rfl rfl rfl rfl rfl rfl rfl)
    | split

theorem growDirectory_keeps {r : State} (s : State) (h : Nat) (h₀ : Keeps r s) :
    Keeps r (growDirectory s h) := by
  unfold growDirectory
  repeat' first
    | with_reducible assumption
    | with_reducible apply State.bump_keeps
    | with_reducible apply putStream_keeps
    | with_reducible refine Keeps.ite (fun _ => ?_) (fun _ => ?_)
    | (simp only [↓Keeps.mk_eq]; with_reducible refine KeepsMk.of ?_ rfl rfl rfl rfl rfl rfl rfl rfl rfl rfl rfl rfl rfl rfl rfl rfl rfl)
    | with_reducible refine Keeps.of_fst (by assumption) ?_
    | split

theorem countPage_keeps {r : State} (s : State) (n : Nat) (f : Nat → Nat) (h : Keeps r s) :
    Keeps r (countPage s n f) := by
  unfold countPage
  repeat' first
    | with_reducible assumption
    | with_reducible apply settlePage_keeps
    | (simp only [↓Keeps.mk_eq]; with_reducible refine KeepsMk.of ?_ rfl rfl rfl rfl rfl rfl rfl rfl rfl rfl rfl rfl rfl rfl rfl rfl rfl)
    | split

theorem putPageRow_keeps {r₀ : State} (s : State) (n r : Nat) (data : Bytes) (h : Keeps r₀ s) :
    Keeps r₀ (putPageRow s n r data) := by
  unfold putPageRow
  repeat' first
    | with_reducible assumption
    | with_reducible apply State.setStack_keeps
    | (simp only [↓Keeps.mk_eq]; with_reducible refine KeepsMk.of ?_ rfl rfl rfl rfl rfl rfl rfl rfl rfl rfl rfl rfl rfl rfl rfl rfl rfl)
    | with_reducible refine Keeps.of_fst (by assumption) ?_
    | split

end Sys2Proof.Machine
end

