-- ==== Sys2Proof/Laws/KeepsTrace.lean ====
section
/-!
SUPPORT. What each operation of Machine/Trace.lean keeps.
-/

namespace Sys2Proof.Machine

theorem sendMark_keeps {r : State} (s : State) (pos : PlanPos) (h : Keeps r s) :
    Keeps r (sendMark s pos) := by
  unfold sendMark
  repeat' first
    | with_reducible assumption
    | with_reducible apply raise_keeps
    | with_reducible refine Keeps.ite (fun _ => ?_) (fun _ => ?_)
    | (simp only [↓Keeps.mk_eq]; with_reducible refine KeepsMk.of ?_ rfl rfl rfl rfl rfl rfl rfl rfl rfl rfl rfl rfl rfl rfl rfl rfl rfl)

theorem traceAdd_keeps {r : State} (s : State) (e : TraceEnt) (pos : PlanPos) (h : Keeps r s) :
    Keeps r (traceAdd s e pos) := by
  unfold traceAdd
  repeat' first
    | with_reducible assumption
    | with_reducible apply sendMark_keeps
    | with_reducible refine Keeps.ite (fun _ => ?_) (fun _ => ?_)
    | (simp only [↓Keeps.mk_eq]; with_reducible refine KeepsMk.of ?_ rfl rfl rfl rfl rfl rfl rfl rfl rfl rfl rfl rfl rfl rfl rfl rfl rfl)

theorem traceOp_keeps {r : State} (s : State) (pos : PlanPos) (opAddr : Nat) (engine : Bool) (h : Keeps r s) :
    Keeps r (traceOp s pos opAddr engine) := by
  unfold traceOp
  repeat' first
    | with_reducible assumption
    | with_reducible apply traceAdd_keeps
    | with_reducible refine Keeps.ite (fun _ => ?_) (fun _ => ?_)

theorem traceStore_keeps {r : State} (s : State) (e : TraceEnt) (h : Keeps r s) :
    Keeps r (traceStore s e) := by
  unfold traceStore
  repeat' first
    | with_reducible assumption
    | with_reducible apply resumableStop_keeps
    | with_reducible refine Keeps.ite (fun _ => ?_) (fun _ => ?_)
    | (simp only [↓Keeps.mk_eq]; with_reducible refine KeepsMk.of ?_ rfl rfl rfl rfl rfl rfl rfl rfl rfl rfl rfl rfl rfl rfl rfl rfl rfl)
    | with_reducible refine Keeps.of_fst (by assumption) ?_
    | split
    | dsimp only

theorem traceDrain1_keeps {r : State} (s : State) (n : Nat) (h : Keeps r s) :
    Keeps r (traceDrain1 s n) := by
  unfold traceDrain1
  repeat' first
    | with_reducible assumption
    | with_reducible apply raise_keeps
    | with_reducible apply traceStore_keeps
    | with_reducible refine Keeps.ite (fun _ => ?_) (fun _ => ?_)
    | (simp only [↓Keeps.mk_eq]; with_reducible refine KeepsMk.of ?_ rfl rfl rfl rfl rfl rfl rfl rfl rfl rfl rfl rfl rfl rfl rfl rfl rfl)
    | with_reducible refine Keeps.of_fst (by assumption) ?_
    | split
    | dsimp only

theorem traceDrain_keeps {r : State} (s : State) (h : Keeps r s) :
    Keeps r (traceDrain s) := by
  unfold traceDrain
  repeat' first
    | with_reducible assumption
    | with_reducible apply traceDrain1_keeps
    | with_reducible apply Keeps.iter
    | intro _ _
    | split

end Sys2Proof.Machine
end

