-- ==== Sys2Proof/Laws/KeepsOperands.lean ====
section
/-!
SUPPORT. What each operation of Machine/Operands.lean keeps.
-/

namespace Sys2Proof.Machine

theorem State.setChan_keeps {r : State} (s : State) (u n : Nat) (t : List Token) (h : Keeps r s) :
    Keeps r (State.setChan s u n t) := by
  unfold State.setChan
  repeat' first
    | with_reducible assumption
    | (simp only [↓Keeps.mk_eq]; with_reducible refine KeepsMk.of ?_ rfl rfl rfl rfl rfl rfl rfl rfl rfl rfl rfl rfl rfl rfl rfl rfl rfl)

theorem stampBegin_keeps {r : State} (s : State) (v : Nat) (h : Keeps r s) :
    Keeps r (stampBegin s v) := by
  unfold stampBegin
  repeat' first
    | with_reducible assumption
    | with_reducible apply State.onRun_keeps

theorem beginStep_keeps {r : State} (s : State) (h : Keeps r s) :
    Keeps r (beginStep s) := by
  unfold beginStep
  repeat' first
    | with_reducible assumption
    | with_reducible apply State.onRun_keeps

theorem beginBeat_keeps {r : State} (s : State) (v : Nat) (h : Keeps r s) :
    Keeps r (beginBeat s v) := by
  unfold beginBeat
  repeat' first
    | with_reducible assumption
    | with_reducible apply traceAdd_keeps
    | with_reducible apply stampBegin_keeps
    | with_reducible apply beginStep_keeps
    | with_reducible refine Keeps.ite (fun _ => ?_) (fun _ => ?_)

theorem stampBeat_keeps {r : State} (s : State) (v b : Nat) (h : Keeps r s) :
    Keeps r (stampBeat s v b) := by
  unfold stampBeat
  repeat' first
    | with_reducible assumption
    | with_reducible apply traceAdd_keeps
    | with_reducible refine Keeps.ite (fun _ => ?_) (fun _ => ?_)

theorem openBeat_keeps {r : State} (s : State) (v : Nat) (h : Keeps r s) :
    Keeps r (openBeat s v) := by
  unfold openBeat
  repeat' first
    | with_reducible assumption
    | with_reducible apply State.setSeq_keeps
    | with_reducible apply beginBeat_keeps
    | with_reducible apply stampBeat_keeps
    | with_reducible refine Keeps.ite (fun _ => ?_) (fun _ => ?_)

theorem planFault_keeps {r : State} (s : State) (pos : PlanPos) (code detail operand : Nat) (h : Keeps r s) :
    Keeps r (planFault s pos code detail operand) := by
  unfold planFault
  repeat' first
    | with_reducible assumption
    | with_reducible apply breach_keeps

theorem claimAll_keeps {r : State} (s : State) (pos : PlanPos) (as : List Access) (h : Keeps r s) :
    Keeps r (claimAll s pos as) := by
  unfold claimAll
  repeat' first
    | with_reducible assumption
    | with_reducible apply State.onRun_keeps

theorem detectCollisions_keeps {r : State} (s : State) (v b : Nat) (h : Keeps r s) :
    Keeps r (detectCollisions s v b) := by
  unfold detectCollisions
  repeat' first
    | with_reducible assumption
    | with_reducible apply State.onRun_keeps
    | with_reducible apply requestStop_keeps
    | with_reducible refine Keeps.ite (fun _ => ?_) (fun _ => ?_)
    | (simp only [↓Keeps.mk_eq]; with_reducible refine KeepsMk.of ?_ rfl rfl rfl rfl rfl rfl rfl rfl rfl rfl rfl rfl rfl rfl rfl rfl rfl)
    | intro _ _ _
    | intro _ _
    | with_reducible refine Keeps.of_fst (by assumption) ?_
    | split

theorem lateCollisions_keeps {r : State} (s : State) (h : Keeps r s) :
    Keeps r (lateCollisions s) := by
  unfold lateCollisions
  repeat' first
    | with_reducible assumption
    | with_reducible apply State.onRun_keeps
    | with_reducible apply requestStop_keeps
    | with_reducible apply Keeps.foldl
    | with_reducible apply Keeps.foldl_fst
    | (simp only [↓Keeps.mk_eq]; with_reducible refine KeepsMk.of ?_ rfl rfl rfl rfl rfl rfl rfl rfl rfl rfl rfl rfl rfl rfl rfl rfl rfl)
    | intro _ _ _
    | intro _ _
    | with_reducible refine Keeps.of_fst (by assumption) ?_
    | split

theorem State.writeBytes_keeps {r : State} (s : State) (a t : Nat) (bs : List (Nat × Byte)) (h : Keeps r s) :
    Keeps r (State.writeBytes s a t bs) := by
  unfold State.writeBytes
  repeat' first
    | with_reducible assumption
    | with_reducible apply State.setMv_keeps

theorem State.writeRow_keeps {r : State} (s : State) (a t : Nat) (row : Bytes) (h : Keeps r s) :
    Keeps r (State.writeRow s a t row) := by
  unfold State.writeRow
  repeat' first
    | with_reducible assumption
    | with_reducible apply State.writeBytes_keeps

theorem State.writeRows_keeps {r : State} (s : State) (ws : List (Nat × Nat × Bytes)) (h : Keeps r s) :
    Keeps r (State.writeRows s ws) := by
  unfold State.writeRows
  repeat' first
    | with_reducible assumption
    | with_reducible apply State.writeRow_keeps
    | with_reducible apply Keeps.foldl
    | with_reducible apply Keeps.foldl_fst
    | intro _ _ _

theorem issued_keeps {r : State} (s : State) (pos : PlanPos) (engine : Bool) (h : Keeps r s) :
    Keeps r (issued s pos engine) := by
  unfold issued
  repeat' first
    | with_reducible assumption
    | with_reducible apply State.setSeq_keeps
    | with_reducible apply traceOp_keeps

theorem addFlight_keeps {r : State} (s : State) (pos : PlanPos) (w : Work) (h : Keeps r s) :
    Keeps r (addFlight s pos w) := by
  unfold addFlight
  repeat' first
    | with_reducible assumption
    | with_reducible apply State.onRun_keeps

end Sys2Proof.Machine
end

