-- ==== Sys2Proof/Laws/KeepsMatrix.lean ====
section
/-!
SUPPORT. What each operation of Machine/Matrix.lean keeps.
-/

namespace Sys2Proof.Machine

theorem eccEvents_keeps {r : State} (s : State) (loc : Nat → Option Nat → W64) (weak : Tbl Nat) (bad : List Nat) (h :
    Keeps r s) :
    Keeps r (eccEvents s loc weak bad) := by
  unfold eccEvents
  repeat' first
    | with_reducible assumption
    | with_reducible apply raise_keeps
    | with_reducible apply deviceFault_keeps
    | with_reducible apply Keeps.foldl
    | with_reducible apply Keeps.foldl_fst
    | (simp only [↓Keeps.mk_eq]; with_reducible refine KeepsMk.of ?_ rfl rfl rfl rfl rfl rfl rfl rfl rfl rfl rfl rfl rfl rfl rfl rfl rfl)
    | intro _ _ _
    | intro _ _
    | with_reducible refine Keeps.of_fst (by assumption) ?_
    | split

theorem eccAcc_keeps {r : State} (s : State) (n : Nat) (ws : List Nat) (h : Keeps r s) :
    Keeps r (eccAcc s n ws) := by
  unfold eccAcc
  repeat' first
    | with_reducible assumption
    | with_reducible apply State.setMat_keeps
    | with_reducible apply eccEvents_keeps

theorem applyEff_keeps {r : State} (n : Nat) (s : State) (e : AccEff) (h : Keeps r s) :
    Keeps r (applyEff n s e) := by
  unfold applyEff
  repeat' first
    | with_reducible assumption
    | with_reducible apply State.setMat_keeps
    | with_reducible apply raiseFlags_keeps
    | with_reducible apply eccAcc_keeps
    | with_reducible refine Keeps.ite (fun _ => ?_) (fun _ => ?_)

theorem applyEffs_keeps {r : State} (s : State) (t : Nat) (h : Keeps r s) :
    Keeps r (applyEffs s t) := by
  unfold applyEffs
  repeat' first
    | with_reducible assumption
    | with_reducible apply State.setMat_keeps
    | with_reducible apply applyEff_keeps
    | with_reducible apply Keeps.foldl
    | with_reducible apply Keeps.foldl_fst
    | with_reducible refine Keeps.ite (fun _ => ?_) (fun _ => ?_)
    | (simp only [↓Keeps.mk_eq]; with_reducible refine KeepsMk.of ?_ rfl rfl rfl rfl rfl rfl rfl rfl rfl rfl rfl rfl rfl rfl rfl rfl rfl)
    | intro _ _ _

theorem checksumFault_keeps {r : State} (s : State) (n kind : Nat) (row : Option Nat) (pos : PlanPos) (h : Keeps r s) :
    Keeps r (checksumFault s n kind row pos) := by
  unfold checksumFault
  repeat' first
    | with_reducible assumption
    | with_reducible apply raise_keeps
    | with_reducible apply setSflag_keeps

theorem eccTile_keeps {r : State} (s : State) (n : Nat) (buf : Bool) (reads : Nat → Bool) (h : Keeps r s) :
    Keeps r (eccTile s n buf reads) := by
  unfold eccTile
  repeat' first
    | with_reducible assumption
    | with_reducible apply State.setMat_keeps
    | with_reducible apply eccEvents_keeps

theorem tileLoadEnd_keeps {r : State} (v src : Nat) (st : Int) (buf chk : Bool) (pos : PlanPos) (s : State) (h : Keeps r
    s) :
    Keeps r (tileLoadEnd v src st buf chk pos s) := by
  unfold tileLoadEnd
  repeat' first
    | with_reducible assumption
    | with_reducible apply State.setMat_keeps
    | with_reducible apply checksumFault_keeps
    | with_reducible apply Keeps.foldl
    | with_reducible apply Keeps.foldl_fst
    | with_reducible refine Keeps.ite (fun _ => ?_) (fun _ => ?_)

theorem tileScalesEnd_keeps {r : State} (v src : Nat) (buf : Bool) (pos : PlanPos) (s : State) (h : Keeps r s) :
    Keeps r (tileScalesEnd v src buf pos s) := by
  unfold tileScalesEnd
  repeat' first
    | with_reducible assumption
    | with_reducible apply State.setMat_keeps

theorem streamStep_keeps {r : State} (v a acc : Nat) (buf start sub : Bool) (afmt bfmt : Nat) (chk : Bool) (anchor : Int)
    (ascale : Nat) (pos : PlanPos) (s : State) (i : Nat) (h : Keeps r s) :
    Keeps r (streamStep v a acc buf start sub afmt bfmt chk anchor ascale pos s i) := by
  unfold streamStep
  repeat' first
    | with_reducible assumption
    | with_reducible apply State.setMat_keeps
    | with_reducible apply raiseFlags_keeps
    | with_reducible apply checksumFault_keeps
    | with_reducible apply eccTile_keeps
    | with_reducible refine Keeps.ite (fun _ => ?_) (fun _ => ?_)

theorem clearRow_keeps {r : State} (clear : Bool) (row : Nat) (s : State) (n : Nat) (h : Keeps r s) :
    Keeps r (clearRow clear row s n) := by
  unfold clearRow
  repeat' first
    | with_reducible assumption
    | with_reducible apply State.setMat_keeps
    | with_reducible refine Keeps.ite (fun _ => ?_) (fun _ => ?_)

theorem drainStep_keeps {r : State} (v d acc ofmt mode : Nat) (sat clear : Bool) (anchor : Int) (seed : Nat) (pos :
    PlanPos) (s : State) (k : Nat) (h : Keeps r s) :
    Keeps r (drainStep v d acc ofmt mode sat clear anchor seed pos s k) := by
  unfold drainStep
  repeat' first
    | with_reducible assumption
    | with_reducible apply raiseFlags_keeps
    | with_reducible apply State.writeBytes_keeps
    | with_reducible apply State.writeRows_keeps
    | with_reducible apply eccAcc_keeps
    | with_reducible apply clearRow_keeps
    | with_reducible refine Keeps.ite (fun _ => ?_) (fun _ => ?_)

theorem drainWideStep_keeps {r : State} (v d acc : Nat) (clear : Bool) (pos : PlanPos) (s : State) (k : Nat) (h : Keeps r
    s) :
    Keeps r (drainWideStep v d acc clear pos s k) := by
  unfold drainWideStep
  repeat' first
    | with_reducible assumption
    | with_reducible apply State.writeRows_keeps
    | with_reducible apply eccAcc_keeps
    | with_reducible apply clearRow_keeps

theorem accLoadStep_keeps {r : State} (v a acc : Nat) (add : Bool) (pos : PlanPos) (s : State) (i : Nat) (h : Keeps r s) :
    Keeps r (accLoadStep v a acc add pos s i) := by
  unfold accLoadStep
  repeat' first
    | with_reducible assumption
    | with_reducible apply State.setMat_keeps

theorem tileLoadEff_keeps {r : State} (v a : Nat) (st : Int) (buf : Bool) (bfmt : Nat) (chk : Bool) (pos : PlanPos) (s :
    State) (h : Keeps r s) :
    Keeps r (tileLoadEff v a st buf bfmt chk pos s) := by
  unfold tileLoadEff
  repeat' first
    | with_reducible assumption
    | with_reducible apply State.setMat_keeps
    | with_reducible apply addFlight_keeps

theorem upset_keeps {r : State} (n : Nat) (s : State) (u : Upset) (h : Keeps r s) :
    Keeps r (upset n s u) := by
  unfold upset
  repeat' first
    | with_reducible assumption
    | with_reducible apply State.setMat_keeps

end Sys2Proof.Machine
end

