-- ==== Sys2Proof/Laws/KeepsVector.lean ====
section
/-!
SUPPORT. What each operation of Machine/Vector.lean keeps.
-/

namespace Sys2Proof.Machine

theorem contributeTo_keeps {r : State} (s : State) (v i : Nat) (k : TKind) (items : List (Val × Nat)) (anchor : Int)
    (start int : Bool) (pos : PlanPos) (h : Keeps r s) :
    Keeps r (contributeTo s v i k items anchor start int pos) := by
  unfold contributeTo
  repeat' first
    | with_reducible assumption
    | with_reducible apply State.setVec_keeps
    | with_reducible apply raiseFlags_keeps
    | (simp only [↓Keeps.mk_eq]; with_reducible refine KeepsMk.of ?_ rfl rfl rfl rfl rfl rfl rfl rfl rfl rfl rfl rfl rfl rfl rfl rfl rfl)
    | with_reducible refine Keeps.of_fst (by assumption) ?_
    | split
    | dsimp only

theorem passGroup_keeps {r : State} (s : State) (u : VMode) (t : W32 × Bool) (f : VFun) (d : Nat) (a : Option Nat) (bs :
    BSrc) (pos : PlanPos) (g : Nat) (h : Keeps r s) :
    Keeps r (passGroup s u t f d a bs pos g).1 := by
  unfold passGroup
  repeat' first
    | with_reducible assumption
    | with_reducible apply State.bump_keeps
    | with_reducible apply raiseFlags_keeps
    | with_reducible apply State.writeRows_keeps
    | with_reducible apply Keeps.foldl
    | with_reducible apply Keeps.foldl_fst
    | with_reducible refine Keeps.ite (fun _ => ?_) (fun _ => ?_)

theorem tapGroup_keeps {r : State} (v : Nat) (ofmt : Nat) (tap : Tap) (bytes : Bytes) (pos : PlanPos) (g : Nat) (s :
    State) (h : Keeps r s) :
    Keeps r (tapGroup v ofmt tap bytes pos g s) := by
  unfold tapGroup
  repeat' first
    | with_reducible assumption
    | with_reducible apply contributeTo_keeps

theorem passEff_keeps {r : State} (v : Nat) (f : VFun) (d : Nat) (a : Option Nat) (bs : BSrc) (pos : PlanPos) (s : State)
    (h : Keeps r s) :
    Keeps r (passEff v f d a bs pos s) := by
  unfold passEff
  repeat' first
    | with_reducible assumption
    | with_reducible apply State.setVec_keeps
    | with_reducible apply planFault_keeps
    | with_reducible apply addFlight_keeps
    | with_reducible refine Keeps.ite (fun _ => ?_) (fun _ => ?_)
    | (simp only [↓Keeps.mk_eq]; with_reducible refine KeepsMk.of ?_ rfl rfl rfl rfl rfl rfl rfl rfl rfl rfl rfl rfl rfl rfl rfl rfl rfl)
    | with_reducible refine Keeps.of_fst (by assumption) ?_
    | split
    | dsimp only

theorem vsetEff_keeps {r : State} (v afmt bfmt ofmt round : Nat) (sat : Bool) (seed : W32) (t : Option W32) (pos :
    PlanPos) (s : State) (h : Keeps r s) :
    Keeps r (vsetEff v afmt bfmt ofmt round sat seed t pos s) := by
  unfold vsetEff
  repeat' first
    | with_reducible assumption
    | with_reducible apply State.setVec_keeps
    | with_reducible apply addFlight_keeps
    | (simp only [↓Keeps.mk_eq]; with_reducible refine KeepsMk.of ?_ rfl rfl rfl rfl rfl rfl rfl rfl rfl rfl rfl rfl rfl rfl rfl rfl rfl)
    | with_reducible refine Keeps.of_fst (by assumption) ?_
    | split

theorem vtapEff_keeps {r : State} (v tapk tally : Nat) (tstart : Bool) (anchor : Int) (ibase : W32) (x0 : PlanPos) (s : State) (h : Keeps r s) :
    Keeps r (vtapEff v tapk tally tstart anchor ibase x0 s) := by
  unfold vtapEff
  repeat' first
    | with_reducible assumption
    | with_reducible apply State.setVec_keeps

theorem setTEnd_keeps {r : State} (v : Nat) (t : W32) (s : State) (h : Keeps r s) :
    Keeps r (setTEnd v t s) := by
  unfold setTEnd
  repeat' first
    | with_reducible assumption
    | with_reducible apply State.setVec_keeps

theorem tloadEnd_keeps {r : State} (v tally : Nat) (fn : Bool) (anchor : Int) (mult : W32) (pos : PlanPos) (s : State) (h
    : Keeps r s) :
    Keeps r (tloadEnd v tally fn anchor mult pos s) := by
  unfold tloadEnd
  repeat' first
    | with_reducible assumption
    | with_reducible apply State.setVec_keeps
    | with_reducible apply raiseFlags_keeps

theorem reduceGroup_keeps {r : State} (v a : Nat) (b : Option Nat) (k : TKind) (item : RItem) (afmt bfmt base tally : Nat)
    (anchor : Int) (start : Bool) (pos : PlanPos) (s : State) (g : Nat) (h : Keeps r s) :
    Keeps r (reduceGroup v a b k item afmt bfmt base tally anchor start pos s g) := by
  unfold reduceGroup
  repeat' first
    | with_reducible assumption
    | with_reducible apply raiseFlags_keeps
    | with_reducible apply contributeTo_keeps

theorem reduceEff_keeps {r : State} (v a : Nat) (b : Option Nat) (k : TKind) (item : RItem) (base : Nat) (tally : Nat)
    (anchor : Int) (start : Bool) (pos : PlanPos) (s : State) (h : Keeps r s) :
    Keeps r (reduceEff v a b k item base tally anchor start pos s) := by
  unfold reduceEff
  repeat' first
    | with_reducible assumption
    | with_reducible apply State.setVec_keeps
    | with_reducible apply planFault_keeps
    | with_reducible apply addFlight_keeps
    | with_reducible refine Keeps.ite (fun _ => ?_) (fun _ => ?_)

theorem raddwStep_keeps {r : State} (v : Nat) (row : Bytes) (pos : PlanPos) (s : State) (t : Nat) (h : Keeps r s) :
    Keeps r (raddwStep v row pos s t) := by
  unfold raddwStep
  repeat' first
    | with_reducible assumption
    | with_reducible apply State.setVec_keeps
    | with_reducible apply raiseFlags_keeps
    | (simp only [↓Keeps.mk_eq]; with_reducible refine KeepsMk.of ?_ rfl rfl rfl rfl rfl rfl rfl rfl rfl rfl rfl rfl rfl rfl rfl rfl rfl)
    | with_reducible refine Keeps.of_fst (by assumption) ?_
    | split
    | dsimp only

theorem raddwEnd_keeps {r : State} (v a : Nat) (mask : W16) (pos : PlanPos) (s : State) (h : Keeps r s) :
    Keeps r (raddwEnd v a mask pos s) := by
  unfold raddwEnd
  repeat' first
    | with_reducible assumption
    | with_reducible apply raddwStep_keeps
    | with_reducible apply Keeps.foldl

theorem raddwEff_keeps {r : State} (v a : Nat) (mask : W16) (pos : PlanPos) (s : State) (h : Keeps r s) :
    Keeps r (raddwEff v a mask pos s) := by
  unfold raddwEff
  repeat' first
    | with_reducible assumption
    | with_reducible apply State.setVec_keeps
    | with_reducible apply planFault_keeps
    | with_reducible apply addFlight_keeps
    | with_reducible apply Keeps.foldl
    | with_reducible apply Keeps.foldl_fst
    | with_reducible refine Keeps.ite (fun _ => ?_) (fun _ => ?_)

theorem rstoreEnd_keeps {r : State} (v d : Nat) (mask : W16) (rounded : Bool) (ofmt round : Nat) (sat : Bool) (anchor :
    Int) (seed : Nat) (pos : PlanPos) (s : State) (h : Keeps r s) :
    Keeps r (rstoreEnd v d mask rounded ofmt round sat anchor seed pos s) := by
  unfold rstoreEnd
  repeat' first
    | with_reducible assumption
    | with_reducible apply raiseFlags_keeps
    | with_reducible apply State.writeBytes_keeps

end Sys2Proof.Machine
end

