-- ==== Sys2Proof/Laws/KeepsSkiver.lean ====
section
/-!
SUPPORT. What each operation of Machine/Skiver.lean keeps.
-/

namespace Sys2Proof.Machine

theorem writeRange_keeps {r : State} (s : State) (a t : Nat) (bs : Bytes) (h : Keeps r s) :
    Keeps r (writeRange s a t bs) := by
  unfold writeRange
  repeat' first
    | with_reducible assumption
    | with_reducible apply State.writeBytes_keeps
    | with_reducible apply Keeps.foldl
    | with_reducible apply Keeps.foldl_fst
    | intro _ _ _

theorem transposeEnd_keeps {r : State} (d a : Nat) (sr dr : Int) (bits : Nat) (pos : PlanPos) (s : State) (h : Keeps r s)
    :
    Keeps r (transposeEnd d a sr dr bits pos s) := by
  unfold transposeEnd
  repeat' first
    | with_reducible assumption
    | with_reducible apply State.writeRows_keeps

theorem retileEnd_keeps {r : State} (d a n : Nat) (sr dr : Int) (pos : PlanPos) (s : State) (h : Keeps r s) :
    Keeps r (retileEnd d a n sr dr pos s) := by
  unfold retileEnd
  repeat' first
    | with_reducible assumption
    | with_reducible apply State.writeRows_keeps

theorem convertStep_keeps {r : State} (d a i o mode : Nat) (sat : Bool) (k : Skiver) (pos : PlanPos) (s : State) (g : Nat)
    (h : Keeps r s) :
    Keeps r (convertStep d a i o mode sat k pos s g) := by
  unfold convertStep
  repeat' first
    | with_reducible assumption
    | with_reducible apply raiseFlags_keeps
    | with_reducible apply writeRange_keeps
    | with_reducible apply Keeps.foldl
    | with_reducible apply Keeps.foldl_fst
    | with_reducible refine Keeps.ite (fun _ => ?_) (fun _ => ?_)

theorem convertSeg_keeps {r : State} (d a i mode : Nat) (k : Skiver) (pos : PlanPos) (s : State) (x : Nat) (h : Keeps r s)
    :
    Keeps r (convertSeg d a i mode k pos s x) := by
  unfold convertSeg
  repeat' first
    | with_reducible assumption
    | with_reducible apply raiseFlags_keeps
    | with_reducible apply writeRange_keeps

theorem ksetEff_keeps {r : State} (v sscale dscale : Nat) (seed : W32) (x0 : PlanPos) (s : State) (h : Keeps r s) :
    Keeps r (ksetEff v sscale dscale seed x0 s) := by
  unfold ksetEff
  repeat' first
    | with_reducible assumption
    | with_reducible apply State.setSk_keeps

end Sys2Proof.Machine
end

