-- ==== Sys2Proof/Laws/KeepsQueues.lean ====
section
/-!
SUPPORT. What each operation of Machine/Queues.lean keeps.
-/

namespace Sys2Proof.Machine

theorem pushCmd_keeps {r : State} (s : State) (v q : Nat) (c : Cmd) (h : Keeps r s) :
    Keeps r (pushCmd s v q c) := by
  unfold pushCmd
  repeat' first
    | with_reducible assumption
    | with_reducible apply State.setQ_keeps
    | with_reducible apply planFault_keeps
    | with_reducible apply issued_keeps
    | with_reducible refine Keeps.ite (fun _ => ?_) (fun _ => ?_)

theorem retireQ_keeps {r : State} (s : State) (k : Nat) (h : Keeps r s) :
    Keeps r (retireQ s k) := by
  unfold retireQ
  repeat' first
    | with_reducible assumption
    | with_reducible apply State.setQ_keeps

theorem setCmd_keeps {r : State} (s : State) (k i : Nat) (c : Cmd) (h : Keeps r s) :
    Keeps r (setCmd s k i c) := by
  unfold setCmd
  repeat' first
    | with_reducible assumption
    | with_reducible apply State.setQ_keeps

theorem finishCmd_keeps {r : State} (s : State) (k i : Nat) (rows : List Bytes) (flags : Nat) (h : Keeps r s) :
    Keeps r (finishCmd s k i rows flags) := by
  unfold finishCmd
  repeat' first
    | with_reducible assumption
    | with_reducible apply retireQ_keeps
    | with_reducible apply setCmd_keeps
    | split

theorem cancelQ_keeps {r : State} (s : State) (k : Nat) (h : Keeps r s) :
    Keeps r (cancelQ s k) := by
  unfold cancelQ
  repeat' first
    | with_reducible assumption
    | with_reducible apply State.setQ_keeps
    | with_reducible apply retireQ_keeps

theorem sourceEnd_keeps {r : State} (v q : Nat) (rows : List Bytes) (pos : PlanPos) (s : State) (h : Keeps r s) :
    Keeps r (sourceEnd v q rows pos s) := by
  unfold sourceEnd
  repeat' first
    | with_reducible assumption
    | with_reducible apply setCmd_keeps
    | (simp only [↓Keeps.mk_eq]; with_reducible refine KeepsMk.of ?_ rfl rfl rfl rfl rfl rfl rfl rfl rfl rfl rfl rfl rfl rfl rfl rfl rfl)
    | with_reducible refine Keeps.of_fst (by assumption) ?_
    | split

theorem waitEff_keeps {r : State} (v : Nat) (target : W32) (queue : Nat) (site : Nat) (pos : PlanPos) (s : State) (h :
    Keeps r s) :
    Keeps r (waitEff v target queue site pos s) := by
  unfold waitEff
  repeat' first
    | with_reducible assumption
    | with_reducible apply State.setSeq_keeps
    | with_reducible apply State.onRun_keeps
    | with_reducible apply planFault_keeps
    | with_reducible apply issued_keeps
    | with_reducible refine Keeps.ite (fun _ => ?_) (fun _ => ?_)

theorem addSlip_keeps {r : State} (s : State) (site n : Nat) (h : Keeps r s) :
    Keeps r (addSlip s site n) := by
  unfold addSlip
  repeat' first
    | with_reducible assumption
    | with_reducible apply State.onRun_keeps

theorem slipBeat_keeps {r : State} (s : State) (v : Nat) (h : Hold) (h₀ : Keeps r s) :
    Keeps r (slipBeat s v h) := by
  unfold slipBeat
  repeat' first
    | with_reducible assumption
    | with_reducible apply State.setSeq_keeps
    | with_reducible apply State.onRun_keeps
    | with_reducible apply addSlip_keeps
    | with_reducible refine Keeps.ite (fun _ => ?_) (fun _ => ?_)

theorem stampTrace_keeps {r : State} (s : State) (pos : PlanPos) (h : Keeps r s) :
    Keeps r (stampTrace s pos) := by
  unfold stampTrace
  repeat' first
    | with_reducible assumption
    | with_reducible apply traceAdd_keeps

theorem releaseHold_keeps {r : State} (s : State) (v : Nat) (h : Hold) (h₀ : Keeps r s) :
    Keeps r (releaseHold s v h) := by
  unfold releaseHold
  repeat' first
    | with_reducible assumption
    | with_reducible apply State.setMv_keeps
    | with_reducible apply State.setSeq_keeps
    | with_reducible apply traceAdd_keeps
    | with_reducible apply stampTrace_keeps

theorem takeStep_keeps {r : State} (d : Nat) (d2 : Option Nat) (pos : PlanPos) (s : State) (e : Nat × ARow) (h : Keeps r s) :
    Keeps r (takeStep d d2 pos s e) := by
  unfold takeStep
  repeat' first
    | with_reducible assumption
    | with_reducible apply raiseFlags_keeps
    | with_reducible apply State.writeRow_keeps
    | split

theorem takeEff_keeps {r : State} (v : Nat) (d : Nat) (queue rows : Nat) (d2 : Option Nat) (pos : PlanPos) (s : State) (h
    : Keeps r s) :
    Keeps r (takeEff v d queue rows d2 pos s) := by
  unfold takeEff
  repeat' first
    | with_reducible assumption
    | with_reducible apply State.setQ_keeps
    | with_reducible apply planFault_keeps
    | with_reducible apply takeStep_keeps
    | with_reducible apply Keeps.foldl
    | with_reducible apply Keeps.foldl_fst
    | with_reducible refine Keeps.ite (fun _ => ?_) (fun _ => ?_)

theorem moveRows_keeps {r : State} (s : State) (v b : Nat) (h : Keeps r s) :
    Keeps r (moveRows s v b) := by
  unfold moveRows
  repeat' first
    | with_reducible assumption
    | with_reducible apply State.setQ_keeps
    | with_reducible apply Keeps.foldl
    | with_reducible apply Keeps.foldl_fst
    | with_reducible refine Keeps.ite (fun _ => ?_) (fun _ => ?_)
    | intro _ _ _

end Sys2Proof.Machine
end

