-- ==== Sys2Proof/Laws/KeepsSequencer.lean ====
section
/-!
SUPPORT. What each operation of Machine/Sequencer.lean keeps.
-/

namespace Sys2Proof.Machine

theorem idleEff_keeps {r : State} (v : Nat) (count : W32) (pos : PlanPos) (s : State) (h : Keeps r s) :
    Keeps r (idleEff v count pos s) := by
  unfold idleEff
  repeat' first
    | with_reducible assumption
    | with_reducible apply State.setSeq_keeps

theorem agBaseEff_keeps {r : State} (v g : Nat) (base : W32) (x0 : PlanPos) (s : State) (h : Keeps r s) :
    Keeps r (agBaseEff v g base x0 s) := by
  unfold agBaseEff
  repeat' first
    | with_reducible assumption
    | with_reducible apply State.setSeq_keeps

theorem agStrideEff_keeps {r : State} (v g level : Nat) (stride : W32) (x0 : PlanPos) (s : State) (h : Keeps r s) :
    Keeps r (agStrideEff v g level stride x0 s) := by
  unfold agStrideEff
  repeat' first
    | with_reducible assumption
    | with_reducible apply State.setSeq_keeps

theorem nestOpenEff_keeps {r : State} (v : Nat) (count period : W32) (pos : PlanPos) (s : State) (h : Keeps r s) :
    Keeps r (nestOpenEff v count period pos s) := by
  unfold nestOpenEff
  repeat' first
    | with_reducible assumption
    | with_reducible apply State.setSeq_keeps
    | with_reducible refine Keeps.ite (fun _ => ?_) (fun _ => ?_)

theorem stepEndEff_keeps {r : State} (v : Nat) (pos : PlanPos) (s : State) (h : Keeps r s) :
    Keeps r (stepEndEff v pos s) := by
  unfold stepEndEff
  repeat' first
    | with_reducible assumption
    | with_reducible apply State.setSeq_keeps
    | with_reducible apply traceAdd_keeps

end Sys2Proof.Machine
end

