-- ==== Sys2Proof/Laws/KeepsAnalog.lean ====
section
/-!
SUPPORT. What each operation of Machine/Analog.lean keeps.
-/

namespace Sys2Proof.Machine

theorem mvmIssued_keeps {r : State} (d : Nat) (p : PaneSet) (bytes : Nat) (s : State) (h : Keeps r s) :
    Keeps r (mvmIssued d p bytes s) := by
  unfold mvmIssued
  repeat' first
    | with_reducible assumption
    | with_reducible apply State.setAw_keeps
    | with_reducible apply deviceFault_keeps
    | split
    | dsimp only

theorem startMvms_keeps {r : State} (s : State) (d : Nat) (h : Keeps r s) :
    Keeps r (startMvms s d) := by
  unfold startMvms
  repeat' first
    | with_reducible assumption
    | with_reducible apply State.setAw_keeps
    | with_reducible apply setCmd_keeps
    | with_reducible apply Keeps.foldl
    | with_reducible apply Keeps.foldl_fst
    | with_reducible refine Keeps.ite (fun _ => ?_) (fun _ => ?_)
    | (simp only [↓Keeps.mk_eq]; with_reducible refine KeepsMk.of ?_ rfl rfl rfl rfl rfl rfl rfl rfl rfl rfl rfl rfl rfl rfl rfl rfl rfl)
    | intro _ _ _

theorem rateCount_keeps {r : State} (s : State) (d g pos grain flags : Nat) (h : Keeps r s) :
    Keeps r (rateCount s d g pos grain flags) := by
  unfold rateCount
  repeat' first
    | with_reducible assumption
    | with_reducible apply State.setAw_keeps
    | with_reducible apply raise_keeps
    | with_reducible refine Keeps.ite (fun _ => ?_) (fun _ => ?_)
    | (simp only [↓Keeps.mk_eq]; with_reducible refine KeepsMk.of ?_ rfl rfl rfl rfl rfl rfl rfl rfl rfl rfl rfl rfl rfl rfl rfl rfl rfl)
    | with_reducible refine Keeps.of_fst (by assumption) ?_
    | split
    | dsimp only

theorem takePass_keeps {r : State} (s : State) (d : Nat) (ests : List PaneEst) (audits : List AuditPick) (p : Pass) (h :
    Keeps r s) :
    Keeps r (takePass s d ests audits p) := by
  unfold takePass
  repeat' first
    | with_reducible assumption
    | with_reducible apply State.setAw_keeps
    | with_reducible apply rateCount_keeps

theorem losePane_keeps {r : State} (s : State) (d l : Nat) (h : Keeps r s) :
    Keeps r (losePane s d l) := by
  unfold losePane
  repeat' first
    | with_reducible assumption
    | with_reducible apply State.setAw_keeps
    | with_reducible apply raise_keeps
    | with_reducible refine Keeps.ite (fun _ => ?_) (fun _ => ?_)

theorem upsetShadow_keeps {r : State} (d : Nat) (us : List ShadowUpset) (s : State) (h : Keeps r s) :
    Keeps r (upsetShadow d us s) := by
  unfold upsetShadow
  repeat' first
    | with_reducible assumption
    | with_reducible apply State.setAw_keeps
    | with_reducible apply Keeps.foldl
    | with_reducible apply Keeps.foldl_fst
    | with_reducible refine Keeps.ite (fun _ => ?_) (fun _ => ?_)
    | (simp only [↓Keeps.mk_eq]; with_reducible refine KeepsMk.of ?_ rfl rfl rfl rfl rfl rfl rfl rfl rfl rfl rfl rfl rfl rfl rfl rfl rfl)
    | intro _ _ _

theorem shadowEvent_keeps {r : State} (code d l row : Nat) (s : State) (h : Keeps r s) :
    Keeps r (shadowEvent code d l row s) := by
  unfold shadowEvent
  repeat' first
    | with_reducible assumption
    | with_reducible apply raise_keeps

theorem shadowRead_keeps {r : State} (s : State) (d l col : Nat) (h : Keeps r s) :
    Keeps r (shadowRead s d l col) := by
  unfold shadowRead
  repeat' first
    | with_reducible assumption
    | with_reducible apply deviceFault_keeps
    | with_reducible apply losePane_keeps
    | with_reducible apply shadowEvent_keeps
    | with_reducible apply Keeps.foldl
    | with_reducible apply Keeps.foldl_fst
    | intro _ _ _

theorem auditOutcome_keeps {r : State} (s : State) (d : Nat) (j : MvmJob) (x : ColPlane) (conv exact : Int) (l : Nat) (h :
    Keeps r s) :
    Keeps r (auditOutcome s d j x conv exact l) := by
  unfold auditOutcome
  repeat' first
    | with_reducible assumption
    | with_reducible apply State.setVec_keeps
    | with_reducible apply State.setAw_keeps
    | with_reducible apply raise_keeps
    | with_reducible apply setSflag_keeps
    | with_reducible refine Keeps.ite (fun _ => ?_) (fun _ => ?_)

theorem resolve1_keeps {r : State} (s : State) (d : Nat) (x : ColPlane) (h : Keeps r s) :
    Keeps r (resolve1 s d x) := by
  unfold resolve1
  repeat' first
    | with_reducible assumption
    | with_reducible apply State.setVec_keeps
    | with_reducible apply State.setAw_keeps
    | with_reducible apply shadowRead_keeps
    | with_reducible apply auditOutcome_keeps
    | with_reducible refine Keeps.ite (fun _ => ?_) (fun _ => ?_)
    | (simp only [↓Keeps.mk_eq]; with_reducible refine KeepsMk.of ?_ rfl rfl rfl rfl rfl rfl rfl rfl rfl rfl rfl rfl rfl rfl rfl rfl rfl)
    | intro _ _ _
    | intro _ _
    | with_reducible refine Keeps.of_fst (by assumption) ?_
    | split

theorem resolveGroup_keeps {r : State} (s : State) (d g : Nat) (h : Keeps r s) :
    Keeps r (resolveGroup s d g) := by
  unfold resolveGroup
  repeat' first
    | with_reducible assumption
    | with_reducible apply State.setAw_keeps
    | with_reducible apply resolve1_keeps
    | with_reducible apply Keeps.foldl
    | with_reducible apply Keeps.foldl_fst
    | (simp only [↓Keeps.mk_eq]; with_reducible refine KeepsMk.of ?_ rfl rfl rfl rfl rfl rfl rfl rfl rfl rfl rfl rfl rfl rfl rfl rfl rfl)
    | intro _ _ _

theorem finishVectors_keeps {r : State} (s : State) (d : Nat) (j : MvmJob) (h : Keeps r s) :
    Keeps r (finishVectors s d j) := by
  unfold finishVectors
  repeat' first
    | with_reducible assumption
    | with_reducible apply State.setAw_keeps

theorem passTickEff_keeps {r : State} (d : Nat) (ests : List PaneEst) (audits : List AuditPick) (upsets : List
    ShadowUpset) (s : State) (h : Keeps r s) :
    Keeps r (passTickEff d ests audits upsets s) := by
  unfold passTickEff
  repeat' first
    | with_reducible assumption
    | with_reducible apply State.setAw_keeps
    | with_reducible apply startMvms_keeps
    | with_reducible apply takePass_keeps
    | with_reducible apply upsetShadow_keeps
    | with_reducible apply resolveGroup_keeps
    | with_reducible apply finishVectors_keeps
    | with_reducible apply tick_keeps
    | with_reducible apply Keeps.foldl
    | with_reducible apply Keeps.foldl_fst
    | (simp only [↓Keeps.mk_eq]; with_reducible refine KeepsMk.of ?_ rfl rfl rfl rfl rfl rfl rfl rfl rfl rfl rfl rfl rfl rfl rfl rfl rfl)
    | intro _ _ _

theorem setLasting_keeps {r : State} (s : State) (d g pos : Nat) (h : Keeps r s) :
    Keeps r (setLasting s d g pos) := by
  unfold setLasting
  repeat' first
    | with_reducible assumption
    | with_reducible apply State.setAw_keeps
    | with_reducible apply raise_keeps
    | with_reducible refine Keeps.ite (fun _ => ?_) (fun _ => ?_)
    | (simp only [↓Keeps.mk_eq]; with_reducible refine KeepsMk.of ?_ rfl rfl rfl rfl rfl rfl rfl rfl rfl rfl rfl rfl rfl rfl rfl rfl rfl)
    | with_reducible refine Keeps.of_fst (by assumption) ?_
    | split
    | dsimp only

theorem wornStep_keeps {r : State} (d : Nat) (s : State) (l : Nat) (h : Keeps r s) :
    Keeps r (wornStep d s l) := by
  unfold wornStep
  repeat' first
    | with_reducible assumption
    | with_reducible apply raise_keeps
    | with_reducible apply setLasting_keeps
    | with_reducible refine Keeps.ite (fun _ => ?_) (fun _ => ?_)

theorem releaseSets_keeps {r : State} (d : Nat) (s : State) (h : Keeps r s) :
    Keeps r (releaseSets d s) := by
  unfold releaseSets
  repeat' first
    | with_reducible assumption
    | with_reducible apply State.setAw_keeps
    | with_reducible apply wornStep_keeps
    | with_reducible apply Keeps.foldl

end Sys2Proof.Machine
end

