-- ==== Sys2Proof/Laws/KeepsUpkeep.lean ====
section
/-!
SUPPORT. What each operation of Machine/Upkeep.lean keeps.
-/

namespace Sys2Proof.Machine

theorem countProgram_keeps {r : State} (s : State) (d g pos : Nat) (h : Keeps r s) :
    Keeps r (countProgram s d g pos) := by
  unfold countProgram
  repeat' first
    | with_reducible assumption
    | with_reducible apply State.setAw_keeps
    | with_reducible apply raise_keeps
    | with_reducible refine Keeps.ite (fun _ => ?_) (fun _ => ?_)

theorem trimUpdate_keeps {r : State} (s : State) (d g : Nat) (t : GroupTrim) (h : Keeps r s) :
    Keeps r (trimUpdate s d g t) := by
  unfold trimUpdate
  repeat' first
    | with_reducible assumption
    | with_reducible apply State.setAw_keeps
    | with_reducible apply raise_keeps
    | with_reducible apply Keeps.foldl
    | with_reducible apply Keeps.foldl_fst
    | with_reducible refine Keeps.ite (fun _ => ?_) (fun _ => ?_)

theorem maintenanceEff_keeps {r : State} (d g : Nat) (m : MaintReading) (s : State) (h : Keeps r s) :
    Keeps r (maintenanceEff d g m s) := by
  unfold maintenanceEff
  repeat' first
    | with_reducible assumption
    | with_reducible apply State.setAw_keeps
    | with_reducible apply trimUpdate_keeps
    | with_reducible apply tick_keeps
    | with_reducible refine Keeps.ite (fun _ => ?_) (fun _ => ?_)

theorem refreshEff_keeps {r : State} (d g pos : Nat) (fails : Bool) (s : State) (h : Keeps r s) :
    Keeps r (refreshEff d g pos fails s) := by
  unfold refreshEff
  repeat' first
    | with_reducible assumption
    | with_reducible apply State.setAw_keeps
    | with_reducible apply countProgram_keeps
    | with_reducible refine Keeps.ite (fun _ => ?_) (fun _ => ?_)
    | (simp only [↓Keeps.mk_eq]; with_reducible refine KeepsMk.of ?_ rfl rfl rfl rfl rfl rfl rfl rfl rfl rfl rfl rfl rfl rfl rfl rfl rfl)
    | with_reducible refine Keeps.of_fst (by assumption) ?_
    | split
    | dsimp only

theorem selftestDoneEff_keeps {r : State} (d g pos : Nat) (t : SelfTest) (mismatch reprogramOk : Bool) (s : State) (h :
    Keeps r s) :
    Keeps r (selftestDoneEff d g pos t mismatch reprogramOk s) := by
  unfold selftestDoneEff
  repeat' first
    | with_reducible assumption
    | with_reducible apply State.setAw_keeps
    | with_reducible apply raise_keeps
    | with_reducible apply setLasting_keeps
    | with_reducible apply countProgram_keeps
    | with_reducible refine Keeps.ite (fun _ => ?_) (fun _ => ?_)
    | (simp only [↓Keeps.mk_eq]; with_reducible refine KeepsMk.of ?_ rfl rfl rfl rfl rfl rfl rfl rfl rfl rfl rfl rfl rfl rfl rfl rfl rfl)

theorem degradeRest_keeps {r : State} (s : State) (d g : Nat) (h : Keeps r s) :
    Keeps r (degradeRest s d g) := by
  unfold degradeRest
  repeat' first
    | with_reducible assumption
    | with_reducible apply State.setAw_keeps
    | with_reducible apply raise_keeps
    | with_reducible apply Keeps.foldl
    | with_reducible apply Keeps.foldl_fst
    | with_reducible refine Keeps.ite (fun _ => ?_) (fun _ => ?_)

theorem paneMapSwitchEff_keeps {r : State} (d g pos l spare : Nat) (out : SpareOutcome) (s : State) (h : Keeps r s) :
    Keeps r (paneMapSwitchEff d g pos l spare out s) := by
  unfold paneMapSwitchEff
  repeat' first
    | with_reducible assumption
    | with_reducible apply State.setAw_keeps
    | with_reducible apply raise_keeps
    | with_reducible apply countProgram_keeps
    | with_reducible apply degradeRest_keeps
    | with_reducible refine Keeps.ite (fun _ => ?_) (fun _ => ?_)

theorem scrubShadow_keeps {r : State} (d l row word : Nat) (s : State) (h : Keeps r s) :
    Keeps r (scrubShadow d l row word s) := by
  unfold scrubShadow
  repeat' first
    | with_reducible assumption
    | with_reducible apply State.setAw_keeps
    | with_reducible apply losePane_keeps
    | with_reducible apply shadowEvent_keeps
    | with_reducible refine Keeps.ite (fun _ => ?_) (fun _ => ?_)

theorem programPass_keeps {r : State} (d g pos : Nat) (s : State) (h : Keeps r s) :
    Keeps r (programPass d g pos s) := by
  unfold programPass
  repeat' first
    | with_reducible assumption
    | with_reducible apply State.setAw_keeps
    | with_reducible apply countProgram_keeps

theorem pulseEff_keeps {r : State} (d g pos : Nat) (p : Programming) (cells : List CellRead) (s : State) (h : Keeps r s) :
    Keeps r (pulseEff d g pos p cells s) := by
  unfold pulseEff
  repeat' first
    | with_reducible assumption
    | with_reducible apply State.setAw_keeps
    | with_reducible apply raise_keeps
    | with_reducible apply programPass_keeps
    | with_reducible apply Keeps.foldl
    | with_reducible apply Keeps.foldl_fst
    | with_reducible refine Keeps.ite (fun _ => ?_) (fun _ => ?_)

theorem bootReady_keeps {r : State} (s : State) (h : Keeps r s) : Keeps r (bootReady s) := by
  unfold bootReady
  dsimp only
  split
  · apply raise_keeps
    exact Keeps.updLegal h rfl rfl rfl rfl rfl fun l => { l with stage := by simp }
  · exact h

theorem scrubAll_keeps {r : State} (d : Nat) (s : State) (h : Keeps r s) :
    Keeps r (scrubAll d s) := by
  unfold scrubAll
  repeat' first
    | with_reducible assumption
    | with_reducible apply State.setAw_keeps
    | with_reducible apply losePane_keeps
    | with_reducible apply shadowEvent_keeps
    | with_reducible apply Keeps.foldl
    | with_reducible apply Keeps.foldl_fst
    | (simp only [↓Keeps.mk_eq]; with_reducible refine KeepsMk.of ?_ rfl rfl rfl rfl rfl rfl rfl rfl rfl rfl rfl rfl rfl rfl rfl rfl rfl)
    | intro _ _ _

theorem awInitEff_keeps {r : State} (d : Nat) (recordsOk trimOk : Bool) (upsets : List ShadowUpset) (s : State) (h : Keeps
    r s) :
    Keeps r (awInitEff d recordsOk trimOk upsets s) := by
  unfold awInitEff
  repeat' first
    | with_reducible assumption
    | with_reducible apply State.setAw_keeps
    | with_reducible apply raise_keeps
    | with_reducible apply upsetShadow_keeps
    | with_reducible apply bootReady_keeps
    | with_reducible apply scrubAll_keeps
    | with_reducible refine Keeps.ite (fun _ => ?_) (fun _ => ?_)

end Sys2Proof.Machine
end

