-- ==== Sys2Proof/Laws/KeepsStacks.lean ====
section
/-!
SUPPORT. What each operation of Machine/Stacks.lean keeps.
-/

namespace Sys2Proof.Machine

theorem readRegion_keeps {r : State} (s : State) (reg o : Nat) (detail : Bytes) (h : Keeps r s) :
    Keeps r (readRegion s reg o detail).1 := by
  unfold readRegion
  repeat' first
    | with_reducible assumption
    | with_reducible apply readUnit_keeps
    | with_reducible refine Keeps.of_fst (by assumption) ?_
    | split

theorem writeRegion_keeps {r : State} (s : State) (reg o : Nat) (data : Bytes) (h : Keeps r s) :
    Keeps r (writeRegion s reg o data) := by
  unfold writeRegion
  repeat' first
    | with_reducible assumption
    | with_reducible apply writeUnit_keeps
    | split

theorem readSpan_keeps {r : State} (detail : Bytes) (reg o n : Nat) (s : State) (h : Keeps r s) :
    Keeps r (readSpan detail reg o n s).1 := by
  unfold readSpan
  repeat' first
    | with_reducible assumption
    | with_reducible apply readRegion_keeps
    | with_reducible apply Keeps.foldl
    | with_reducible apply Keeps.foldl_fst
    | intro _ _ _

theorem readParts_keeps {r : State} (detail : Bytes) (n : Nat) (ps : List (Option (Nat × Nat))) (s : State) (h : Keeps r s) :
    Keeps r (readParts detail n ps s).1 := by
  unfold readParts
  repeat' first
    | with_reducible assumption
    | with_reducible apply readSpan_keeps
    | with_reducible apply Keeps.foldl
    | with_reducible apply Keeps.foldl_fst
    | intro _ _ _
    | with_reducible refine Keeps.of_fst (by assumption) ?_
    | split

theorem writeParts_keeps {r : State} (ps : List (Option (Nat × Nat) × List Bytes)) (s : State) (h : Keeps r s) :
    Keeps r (writeParts ps s) := by
  unfold writeParts
  repeat' first
    | with_reducible assumption
    | with_reducible apply writeRegion_keeps
    | with_reducible apply Keeps.foldl
    | with_reducible apply Keeps.foldl_fst
    | intro _ _ _
    | split

theorem rangeEvent_keeps {r : State} (s : State) (v : Nat) (c : Cmd) (bad : Nat × Nat) (h : Keeps r s) :
    Keeps r (rangeEvent s v c bad) := by
  unfold rangeEvent
  repeat' first
    | with_reducible assumption
    | with_reducible apply State.onRun_keeps
    | with_reducible apply raise_keeps
    | with_reducible apply setSflag_keeps
    | with_reducible refine Keeps.ite (fun _ => ?_) (fun _ => ?_)

theorem copyParts_keeps {r : State} (s : State) (so sr dr n d : Nat) (detail : Bytes) (h : Keeps r s) :
    Keeps r (copyParts s so sr dr n d detail).1 := by
  unfold copyParts
  repeat' first
    | with_reducible assumption
    | with_reducible apply readSpan_keeps
    | with_reducible apply writeParts_keeps
    | with_reducible apply Keeps.foldl
    | with_reducible apply Keeps.foldl_fst
    | with_reducible refine Keeps.ite (fun _ => ?_) (fun _ => ?_)
    | intro _ _ _
    | with_reducible refine Keeps.of_fst (by assumption) ?_
    | split

theorem setBSlot_keeps {r : State} (s : State) (k : Nat) (b : BSlot) (h : Keeps r s) :
    Keeps r (setBSlot s k b) := by
  unfold setBSlot
  repeat' first
    | with_reducible assumption
    | with_reducible apply State.onRun_keeps

theorem setDirectory_keeps {r : State} (s : State) (handle i n : Nat) (h : Keeps r s) :
    Keeps r (setDirectory s handle i n) := by
  unfold setDirectory
  repeat' first
    | with_reducible assumption
    | with_reducible apply putStream_keeps
    | with_reducible apply growDirectory_keeps
    | with_reducible refine Keeps.ite (fun _ => ?_) (fun _ => ?_)
    | (simp only [↓Keeps.mk_eq]; with_reducible refine KeepsMk.of ?_ rfl rfl rfl rfl rfl rfl rfl rfl rfl rfl rfl rfl rfl rfl rfl rfl rfl)
    | with_reducible refine Keeps.of_fst (by assumption) ?_
    | split

theorem recordAlloc_keeps {r : State} (s : State) (handle p n : Nat) (h : Keeps r s) :
    Keeps r (recordAlloc s handle p n) := by
  unfold recordAlloc
  repeat' first
    | with_reducible assumption
    | with_reducible apply State.onRun_keeps

theorem pageForWrite_keeps {r : State} (s : State) (handle p : Nat) (detail : Bytes) (h : Keeps r s) :
    Keeps r (pageForWrite s handle p detail).1 := by
  unfold pageForWrite
  repeat' first
    | with_reducible assumption
    | with_reducible apply eccUnit_keeps
    | with_reducible apply allocPage_keeps
    | with_reducible apply countPage_keeps
    | with_reducible apply setDirectory_keeps
    | with_reducible apply recordAlloc_keeps
    | with_reducible apply Keeps.foldl
    | with_reducible apply Keeps.foldl_fst
    | with_reducible refine Keeps.ite (fun _ => ?_) (fun _ => ?_)
    | (simp only [↓Keeps.mk_eq]; with_reducible refine KeepsMk.of ?_ rfl rfl rfl rfl rfl rfl rfl rfl rfl rfl rfl rfl rfl rfl rfl rfl rfl)
    | intro _ _ _
    | intro _ _
    | with_reducible refine Keeps.of_fst (by assumption) ?_
    | split

theorem poolEmpty_keeps {r : State} (s : State) (v : Nat) (c : Cmd) (k handle : Nat) (b : BSlot) (h : Keeps r s) :
    Keeps r (poolEmpty s v c k handle b) := by
  unfold poolEmpty
  repeat' first
    | with_reducible assumption
    | with_reducible apply State.onRun_keeps
    | with_reducible apply raise_keeps
    | with_reducible apply setBSlot_keeps

theorem appendRows_keeps {r : State} (s : State) (v : Nat) (c : Cmd) (n p srow : Nat) (h : Keeps r s) :
    Keeps r (appendRows s v c n p srow) := by
  unfold appendRows
  repeat' first
    | with_reducible assumption
    | with_reducible apply putPageRow_keeps
    | with_reducible apply rangeEvent_keeps
    | with_reducible apply Keeps.foldl
    | with_reducible apply Keeps.foldl_fst
    | with_reducible refine Keeps.ite (fun _ => ?_) (fun _ => ?_)
    | intro _ _ _
    | split

theorem pageAppendEff_keeps {r : State} (s : State) (v : Nat) (c : Cmd) (srow handle : Nat) (h : Keeps r s) :
    Keeps r (pageAppendEff s v c srow handle) := by
  unfold pageAppendEff
  repeat' first
    | with_reducible assumption
    | with_reducible apply rangeEvent_keeps
    | with_reducible apply setBSlot_keeps
    | with_reducible apply pageForWrite_keeps
    | with_reducible apply poolEmpty_keeps
    | with_reducible apply appendRows_keeps
    | with_reducible refine Keeps.ite (fun _ => ?_) (fun _ => ?_)
    | with_reducible refine Keeps.of_fst (by assumption) ?_
    | split
    | dsimp only

theorem readPageRow_keeps {r₀ : State} (s : State) (n r : Nat) (detail : Bytes) (h : Keeps r₀ s) :
    Keeps r₀ (readPageRow s n r detail).1 := by
  unfold readPageRow
  repeat' first
    | with_reducible assumption
    | with_reducible apply State.bump_keeps
    | with_reducible apply eccUnit_keeps
    | with_reducible refine Keeps.ite (fun _ => ?_) (fun _ => ?_)
    | (simp only [↓Keeps.mk_eq]; with_reducible refine KeepsMk.of ?_ rfl rfl rfl rfl rfl rfl rfl rfl rfl rfl rfl rfl rfl rfl rfl rfl rfl)
    | with_reducible refine Keeps.of_fst (by assumption) ?_
    | split
    | dsimp only

theorem pagePosition_keeps {r : State} (s : State) (handle p bound srow rows : Nat) (detail : Bytes) (h : Keeps r s) :
    Keeps r (pagePosition s handle p bound srow rows detail).1 := by
  unfold pagePosition
  repeat' first
    | with_reducible assumption
    | with_reducible apply readPageRow_keeps
    | with_reducible apply Keeps.foldl
    | with_reducible apply Keeps.foldl_fst
    | with_reducible refine Keeps.ite (fun _ => ?_) (fun _ => ?_)
    | intro _ _ _
    | with_reducible refine Keeps.of_fst (by assumption) ?_
    | split

theorem pageReadEff_keeps {r : State} (s : State) (c : Cmd) (first npos rows srow handle : Nat) (h : Keeps r s) :
    Keeps r (pageReadEff s c first npos rows srow handle).1 := by
  unfold pageReadEff
  repeat' first
    | with_reducible assumption
    | with_reducible apply pagePosition_keeps
    | with_reducible apply Keeps.foldl
    | with_reducible apply Keeps.foldl_fst
    | with_reducible refine Keeps.ite (fun _ => ?_) (fun _ => ?_)
    | intro _ _ _
    | with_reducible refine Keeps.of_fst (by assumption) ?_
    | split

theorem stackEff_keeps {r : State} (s : State) (v : Nat) (c : Cmd) (h : Keeps r s) :
    Keeps r (stackEff s v c).1 := by
  unfold stackEff
  repeat' first
    | with_reducible assumption
    | with_reducible apply readParts_keeps
    | with_reducible apply writeParts_keeps
    | with_reducible apply copyParts_keeps
    | with_reducible apply pageAppendEff_keeps
    | with_reducible apply pageReadEff_keeps
    | with_reducible apply split_keeps
    | with_reducible refine Keeps.of_fst (by assumption) ?_
    | split

theorem stackRetire_keeps {r : State} (v q i : Nat) (c : Cmd) (s : State) (h : Keeps r s) :
    Keeps r (stackRetire v q i c s) := by
  unfold stackRetire
  repeat' first
    | with_reducible assumption
    | with_reducible apply finishCmd_keeps
    | with_reducible apply rangeEvent_keeps
    | with_reducible apply stackEff_keeps

theorem scrubUnit_keeps {r : State} (st u : Nat) (s : State) (h : Keeps r s) :
    Keeps r (scrubUnit st u s) := by
  unfold scrubUnit
  repeat' first
    | with_reducible assumption
    | with_reducible apply State.setStack_keeps
    | with_reducible apply raise_keeps
    | with_reducible apply correctUnit_keeps
    | with_reducible refine Keeps.ite (fun _ => ?_) (fun _ => ?_)

end Sys2Proof.Machine
end

