-- ==== Sys2Proof/Laws/KeepsBridle.lean ====
section
/-!
SUPPORT. What each operation of Machine/Bridle.lean keeps.
-/

namespace Sys2Proof.Machine

theorem bsetEff_keeps {r : State} (v vocabM1 lfmt : Nat) (pos : PlanPos) (s : State) (h : Keeps r s) :
    Keeps r (bsetEff v vocabM1 lfmt pos s) := by
  unfold bsetEff
  repeat' first
    | with_reducible assumption
    | with_reducible apply State.setBr_keeps

theorem selectEnd_keeps {r : State} (zAddr key result vocabM1 lfmt : Nat) (pos : PlanPos) (s : State) (h : Keeps r s) :
    Keeps r (selectEnd zAddr key result vocabM1 lfmt pos s) := by
  unfold selectEnd
  repeat' first
    | with_reducible assumption
    | with_reducible apply State.bump_keeps
    | with_reducible apply raiseFlags_keeps
    | with_reducible apply State.writeRow_keeps
    | with_reducible apply setBSlot_keeps
    | with_reducible refine Keeps.ite (fun _ => ?_) (fun _ => ?_)
    | (simp only [↓Keeps.mk_eq]; with_reducible refine KeepsMk.of ?_ rfl rfl rfl rfl rfl rfl rfl rfl rfl rfl rfl rfl rfl rfl rfl rfl rfl)
    | intro _ _ _
    | intro _ _
    | with_reducible refine Keeps.of_fst (by assumption) ?_
    | split

end Sys2Proof.Machine
end

