-- ==== Sys2Proof/Laws/KeepsServe.lean ====
section
/-!
SUPPORT. What each operation of Machine/Serve.lean keeps.
-/

namespace Sys2Proof.Machine

theorem refuse_keeps {r : State} (s : State) (acc detail : Nat) (h : Keeps r s) :
    Keeps r (refuse s acc detail) := by
  unfold refuse
  repeat' first
    | with_reducible assumption
    | with_reducible apply complete_keeps

theorem hostFail_keeps {r : State} (s : State) (acc : Nat) (d : HostData) (h : Keeps r s) :
    Keeps r (hostFail s acc d) := by
  unfold hostFail
  repeat' first
    | with_reducible assumption
    | with_reducible apply complete_keeps

theorem begin_keeps {r : State} (s : State) (acc : Nat) (h : Keeps r s) :
    Keeps r (begin_ s acc) := by
  unfold begin_
  repeat' first
    | with_reducible assumption
    | (simp only [↓Keeps.mk_eq]; with_reducible refine KeepsMk.of ?_ rfl rfl rfl rfl rfl rfl rfl rfl rfl rfl rfl rfl rfl rfl rfl rfl rfl)
    | split

end Sys2Proof.Machine
end

