-- ==== Sys2Proof/Laws/KeepsStreams.lean ====
section
/-!
SUPPORT. What each operation of Machine/Streams.lean keeps.
-/

namespace Sys2Proof.Machine

theorem holdClass_keeps {r : State} (s : State) (c : Nat) (h : Keeps r s) :
    Keeps r (holdClass s c) := by
  unfold holdClass
  repeat' first
    | with_reducible assumption
    | with_reducible refine Keeps.ite (fun _ => ?_) (fun _ => ?_)
    | (simp only [↓Keeps.mk_eq]; with_reducible refine KeepsMk.of ?_ rfl rfl rfl rfl rfl rfl rfl rfl rfl rfl rfl rfl rfl rfl rfl rfl rfl)

theorem countStreams_keeps {r : State} (s : State) (f : Nat) (g : Nat → Nat) (h : Keeps r s) :
    Keeps r (countStreams s f g) := by
  unfold countStreams
  repeat' first
    | with_reducible assumption
    | with_reducible apply State.setFn_keeps

theorem streamOpenEff_keeps {r : State} (s : State) (acc : Nat) (a : Acc) (b : Bytes) (h : Keeps r s) :
    Keeps r (streamOpenEff s acc a b) := by
  unfold streamOpenEff
  repeat' first
    | with_reducible assumption
    | with_reducible apply State.bump_keeps
    | with_reducible apply complete_keeps
    | with_reducible apply putStream_keeps
    | with_reducible apply refuse_keeps
    | with_reducible apply holdClass_keeps
    | with_reducible apply countStreams_keeps
    | with_reducible refine Keeps.ite (fun _ => ?_) (fun _ => ?_)

theorem streamSetEff_keeps {r : State} (s : State) (acc : Nat) (a : Acc) (b : Bytes) (h : Keeps r s) :
    Keeps r (streamSetEff s acc a b) := by
  unfold streamSetEff
  repeat' first
    | with_reducible assumption
    | with_reducible apply State.bump_keeps
    | with_reducible apply complete_keeps
    | with_reducible apply putStream_keeps
    | with_reducible apply refuse_keeps
    | with_reducible refine Keeps.ite (fun _ => ?_) (fun _ => ?_)
    | (simp only [↓Keeps.mk_eq]; with_reducible refine KeepsMk.of ?_ rfl rfl rfl rfl rfl rfl rfl rfl rfl rfl rfl rfl rfl rfl rfl rfl rfl)
    | with_reducible refine Keeps.of_fst (by assumption) ?_
    | split
    | dsimp only

theorem streamForkEff_keeps {r : State} (s : State) (acc : Nat) (a : Acc) (h : Keeps r s) :
    Keeps r (streamForkEff s acc a) := by
  unfold streamForkEff
  repeat' first
    | with_reducible assumption
    | with_reducible apply State.bump_keeps
    | with_reducible apply complete_keeps
    | with_reducible apply putStream_keeps
    | with_reducible apply growDirectory_keeps
    | with_reducible apply countPage_keeps
    | with_reducible apply refuse_keeps
    | with_reducible apply countStreams_keeps
    | with_reducible apply Keeps.foldl
    | with_reducible apply Keeps.foldl_fst
    | with_reducible refine Keeps.ite (fun _ => ?_) (fun _ => ?_)
    | (simp only [↓Keeps.mk_eq]; with_reducible refine KeepsMk.of ?_ rfl rfl rfl rfl rfl rfl rfl rfl rfl rfl rfl rfl rfl rfl rfl rfl rfl)
    | intro _ _ _
    | intro _ _
    | with_reducible refine Keeps.of_fst (by assumption) ?_
    | split

theorem streamCloseEff_keeps {r : State} (s : State) (acc : Nat) (a : Acc) (h : Keeps r s) :
    Keeps r (streamCloseEff s acc a) := by
  unfold streamCloseEff
  repeat' first
    | with_reducible assumption
    | with_reducible apply complete_keeps
    | with_reducible apply clearSystem_keeps
    | with_reducible apply countPage_keeps
    | with_reducible apply refuse_keeps
    | with_reducible apply countStreams_keeps
    | with_reducible apply Keeps.foldl
    | with_reducible apply Keeps.foldl_fst
    | with_reducible refine Keeps.ite (fun _ => ?_) (fun _ => ?_)
    | (simp only [↓Keeps.mk_eq]; with_reducible refine KeepsMk.of ?_ rfl rfl rfl rfl rfl rfl rfl rfl rfl rfl rfl rfl rfl rfl rfl rfl rfl)
    | intro _ _ _
    | intro _ _
    | with_reducible refine Keeps.of_fst (by assumption) ?_
    | split
    | dsimp only

theorem backSlot_keeps {r : State} (s : State) (b : BSlot) (h : Keeps r s) :
    Keeps r (backSlot s b) := by
  unfold backSlot
  repeat' first
    | with_reducible assumption
    | with_reducible apply putStream_keeps
    | (simp only [↓Keeps.mk_eq]; with_reducible refine KeepsMk.of ?_ rfl rfl rfl rfl rfl rfl rfl rfl rfl rfl rfl rfl rfl rfl rfl rfl rfl)
    | with_reducible refine Keeps.of_fst (by assumption) ?_
    | split

theorem reclaim_keeps {r : State} (s : State) (e : Nat) (page : Nat) (h : Keeps r s) :
    Keeps r (reclaim s e page) := by
  unfold reclaim
  repeat' first
    | with_reducible assumption
    | with_reducible apply settlePage_keeps
    | (simp only [↓Keeps.mk_eq]; with_reducible refine KeepsMk.of ?_ rfl rfl rfl rfl rfl rfl rfl rfl rfl rfl rfl rfl rfl rfl rfl rfl rfl)

theorem attachPage_keeps {r : State} (s : State) (h page : Nat) (h₀ : Keeps r s) :
    Keeps r (attachPage s h page) := by
  unfold attachPage
  repeat' first
    | with_reducible assumption
    | with_reducible apply putStream_keeps
    | with_reducible apply growDirectory_keeps
    | with_reducible apply countPage_keeps
    | (simp only [↓Keeps.mk_eq]; with_reducible refine KeepsMk.of ?_ rfl rfl rfl rfl rfl rfl rfl rfl rfl rfl rfl rfl rfl rfl rfl rfl rfl)
    | with_reducible refine Keeps.of_fst (by assumption) ?_
    | split

theorem probeTags_keeps {r : State} (h : Nat) (x : Stream) (tags : List W128) (s : State) (h₀ : Keeps r s) :
    Keeps r (probeTags h x tags s).1 := by
  induction tags generalizing s with
  | nil => exact h₀
  | cons t ts ih =>
    unfold probeTags
    repeat' first
      | with_reducible assumption
      | with_reducible apply ih
      | with_reducible apply attachPage_keeps
      | with_reducible apply readSystem_keeps
      | with_reducible refine Keeps.ite (fun _ => ?_) (fun _ => ?_)
      | (simp only [↓Keeps.mk_eq]; with_reducible refine KeepsMk.of ?_ rfl rfl rfl rfl rfl rfl rfl rfl rfl rfl rfl rfl rfl rfl rfl rfl rfl)
      | dsimp only
      | split

theorem setLength_keeps {r : State} (s : State) (h n : Nat) (h₀ : Keeps r s) :
    Keeps r (setLength s h n) := by
  unfold setLength
  repeat' first
    | with_reducible assumption
    | with_reducible apply putStream_keeps
    | (simp only [↓Keeps.mk_eq]; with_reducible refine KeepsMk.of ?_ rfl rfl rfl rfl rfl rfl rfl rfl rfl rfl rfl rfl rfl rfl rfl rfl rfl)
    | with_reducible refine Keeps.of_fst (by assumption) ?_
    | split

theorem prefixProbeEff_keeps {r : State} (s : State) (acc : Nat) (a : Acc) (b : Bytes) (h : Keeps r s) :
    Keeps r (prefixProbeEff s acc a b) := by
  unfold prefixProbeEff
  repeat' first
    | with_reducible assumption
    | with_reducible apply complete_keeps
    | with_reducible apply logEntry_keeps
    | with_reducible apply refuse_keeps
    | with_reducible apply attachPage_keeps
    | with_reducible apply probeTags_keeps
    | with_reducible apply setLength_keeps
    | with_reducible apply Keeps.foldl
    | with_reducible apply Keeps.foldl_fst
    | with_reducible refine Keeps.ite (fun _ => ?_) (fun _ => ?_)
    | (simp only [↓Keeps.mk_eq]; with_reducible refine KeepsMk.of ?_ rfl rfl rfl rfl rfl rfl rfl rfl rfl rfl rfl rfl rfl rfl rfl rfl rfl)
    | intro _ _ _
    | intro _ _
    | with_reducible refine Keeps.of_fst (by assumption) ?_
    | split
    | dsimp only

theorem publishBlock_keeps {r : State} (x : Stream) (i : Nat) (t : W128) (s : State) (h : Keeps r s) :
    Keeps r (publishBlock x i t s).1 := by
  unfold publishBlock
  repeat' first
    | with_reducible assumption
    | with_reducible apply State.bump_keeps
    | with_reducible apply readSystem_keeps
    | with_reducible apply reclaim_keeps
    | with_reducible refine Keeps.ite (fun _ => ?_) (fun _ => ?_)
    | (simp only [↓Keeps.mk_eq]; with_reducible refine KeepsMk.of ?_ rfl rfl rfl rfl rfl rfl rfl rfl rfl rfl rfl rfl rfl rfl rfl rfl rfl)
    | with_reducible refine Keeps.of_fst (by assumption) ?_
    | split
    | dsimp only

theorem prefixPublishEff_keeps {r : State} (s : State) (acc : Nat) (a : Acc) (b : Bytes) (h : Keeps r s) :
    Keeps r (prefixPublishEff s acc a b) := by
  unfold prefixPublishEff
  repeat' first
    | with_reducible assumption
    | with_reducible apply complete_keeps
    | with_reducible apply refuse_keeps
    | with_reducible apply publishBlock_keeps
    | with_reducible apply Keeps.foldl
    | with_reducible apply Keeps.foldl_fst
    | with_reducible refine Keeps.ite (fun _ => ?_) (fun _ => ?_)
    | intro _ _ _
    | with_reducible refine Keeps.of_fst (by assumption) ?_
    | split

theorem sweepEntry_keeps {r : State} (s : State) (e : Nat) (h : Keeps r s) :
    Keeps r (sweepEntry s e).1 := by
  unfold sweepEntry
  repeat' first
    | with_reducible assumption
    | with_reducible apply reclaim_keeps
    | with_reducible refine Keeps.ite (fun _ => ?_) (fun _ => ?_)
    | split

theorem prefixEvictEff_keeps {r : State} (s : State) (acc : Nat) (a : Acc) (h : Keeps r s) :
    Keeps r (prefixEvictEff s acc a) := by
  unfold prefixEvictEff
  repeat' first
    | with_reducible assumption
    | with_reducible apply complete_keeps
    | with_reducible apply refuse_keeps
    | with_reducible apply sweepEntry_keeps
    | with_reducible apply Keeps.foldl
    | with_reducible apply Keeps.foldl_fst
    | with_reducible refine Keeps.ite (fun _ => ?_) (fun _ => ?_)
    | (simp only [↓Keeps.mk_eq]; with_reducible refine KeepsMk.of ?_ rfl rfl rfl rfl rfl rfl rfl rfl rfl rfl rfl rfl rfl rfl rfl rfl rfl)
    | intro _ _ _

theorem grammarLoadEff_keeps {r : State} (s : State) (acc : Nat) (a : Acc) (b : Bytes) (h : Keeps r s) :
    Keeps r (grammarLoadEff s acc a b) := by
  unfold grammarLoadEff
  repeat' first
    | with_reducible assumption
    | with_reducible apply complete_keeps
    | with_reducible apply takeBlocks_keeps
    | with_reducible apply reserveDomain_keeps
    | with_reducible apply writeRun_keeps
    | with_reducible apply refuse_keeps
    | with_reducible refine Keeps.ite (fun _ => ?_) (fun _ => ?_)
    | (simp only [↓Keeps.mk_eq]; with_reducible refine KeepsMk.of ?_ rfl rfl rfl rfl rfl rfl rfl rfl rfl rfl rfl rfl rfl rfl rfl rfl rfl)
    | with_reducible refine Keeps.of_fst (by assumption) ?_
    | split

theorem grammarUnloadEff_keeps {r : State} (s : State) (acc : Nat) (a : Acc) (h : Keeps r s) :
    Keeps r (grammarUnloadEff s acc a) := by
  unfold grammarUnloadEff
  repeat' first
    | with_reducible assumption
    | with_reducible apply complete_keeps
    | with_reducible apply freeBlocks_keeps
    | with_reducible apply releaseDomain_keeps
    | with_reducible apply refuse_keeps
    | with_reducible refine Keeps.ite (fun _ => ?_) (fun _ => ?_)
    | (simp only [↓Keeps.mk_eq]; with_reducible refine KeepsMk.of ?_ rfl rfl rfl rfl rfl rfl rfl rfl rfl rfl rfl rfl rfl rfl rfl rfl rfl)
    | split
    | dsimp only

end Sys2Proof.Machine
end

