-- ==== Sys2Proof/Laws/KeepsCadence.lean ====
section
/-!
SUPPORT. What each operation of Machine/Cadence.lean keeps.
-/

namespace Sys2Proof.Machine

theorem commitNow_keeps {r : State} (s : State) (t : Nat) (h : Keeps r s) :
    Keeps r (commitNow s t) := by
  unfold commitNow
  repeat' first
    | with_reducible assumption
    | with_reducible apply State.setTable_keeps
    | with_reducible refine Keeps.ite (fun _ => ?_) (fun _ => ?_)
    | (simp only [↓Keeps.mk_eq]; with_reducible refine KeepsMk.of ?_ rfl rfl rfl rfl rfl rfl rfl rfl rfl rfl rfl rfl rfl rfl rfl rfl rfl)

theorem takeCadence_keeps {r : State} (s : State) (h : Keeps r s) :
    Keeps r (takeCadence s).1 := by
  unfold takeCadence
  repeat' first
    | with_reducible assumption
    | with_reducible apply commitNow_keeps
    | with_reducible refine Keeps.ite (fun _ => ?_) (fun _ => ?_)
    | (simp only [↓Keeps.mk_eq]; with_reducible refine KeepsMk.of ?_ rfl rfl rfl rfl rfl rfl rfl rfl rfl rfl rfl rfl rfl rfl rfl rfl rfl)

theorem beginWindow_keeps {r : State} (s : State) (win : Nat) (w : WinSpec) (sched : Nat) (h : Keeps r s) :
    Keeps r (beginWindow s win w sched) := by
  unfold beginWindow
  repeat' first
    | with_reducible assumption
    | with_reducible refine Keeps.ite (fun _ => ?_) (fun _ => ?_)
    | (simp only [↓Keeps.mk_eq]; with_reducible refine KeepsMk.of ?_ rfl rfl rfl rfl rfl rfl rfl rfl rfl rfl rfl rfl rfl rfl rfl rfl rfl)

theorem frameStartEff_keeps {r : State} (s : State) (h : Keeps r s) :
    Keeps r (frameStartEff s) := by
  unfold frameStartEff
  repeat' first
    | with_reducible assumption
    | with_reducible apply takeCadence_keeps
    | with_reducible apply beginWindow_keeps
    | with_reducible refine Keeps.ite (fun _ => ?_) (fun _ => ?_)
    | (simp only [↓Keeps.mk_eq]; with_reducible refine KeepsMk.of ?_ rfl rfl rfl rfl rfl rfl rfl rfl rfl rfl rfl rfl rfl rfl rfl rfl rfl)

theorem entryInvalid_keeps {r : State} (s : State) (i : Nat) (h : Keeps r s) :
    Keeps r (entryInvalid s i) := by
  unfold entryInvalid
  repeat' first
    | with_reducible assumption
    | with_reducible apply raise_keeps

theorem windowStartEff_keeps {r : State} (s : State) (h : Keeps r s) :
    Keeps r (windowStartEff s) := by
  unfold windowStartEff
  repeat' first
    | with_reducible assumption
    | with_reducible apply State.bump_keeps
    | with_reducible apply beginWindow_keeps
    | with_reducible apply entryInvalid_keeps
    | with_reducible refine Keeps.ite (fun _ => ?_) (fun _ => ?_)
    | (simp only [↓Keeps.mk_eq]; with_reducible refine KeepsMk.of ?_ rfl rfl rfl rfl rfl rfl rfl rfl rfl rfl rfl rfl rfl rfl rfl rfl rfl)

theorem turnStartEff_keeps {r : State} (s : State) (h : Keeps r s) :
    Keeps r (turnStartEff s) := by
  unfold turnStartEff
  repeat' first
    | with_reducible assumption
    | with_reducible apply beginWindow_keeps
    | (simp only [↓Keeps.mk_eq]; with_reducible refine KeepsMk.of ?_ rfl rfl rfl rfl rfl rfl rfl rfl rfl rfl rfl rfl rfl rfl rfl rfl rfl)
    | split

theorem closeWindow_keeps {r : State} (s : State) (h : Keeps r s) :
    Keeps r (closeWindow s) := by
  unfold closeWindow
  repeat' first
    | with_reducible assumption
    | with_reducible refine Keeps.ite (fun _ => ?_) (fun _ => ?_)
    | (simp only [↓Keeps.mk_eq]; with_reducible refine KeepsMk.of ?_ rfl rfl rfl rfl rfl rfl rfl rfl rfl rfl rfl rfl rfl rfl rfl rfl rfl)

theorem reportOverrun_keeps {r : State} (s : State) (w : Nat × Nat × Nat) (h : Keeps r s) :
    Keeps r (reportOverrun s w) := by
  unfold reportOverrun
  repeat' first
    | with_reducible assumption
    | with_reducible apply raise_keeps
    | with_reducible refine Keeps.ite (fun _ => ?_) (fun _ => ?_)

theorem windowEndEff_keeps {r : State} (s : State) (h : Keeps r s) :
    Keeps r (windowEndEff s) := by
  unfold windowEndEff
  repeat' first
    | with_reducible assumption
    | with_reducible apply closeWindow_keeps
    | with_reducible refine Keeps.ite (fun _ => ?_) (fun _ => ?_)

end Sys2Proof.Machine
end

