-- ==== Sys2Proof/Laws/KeepsHost.lean ====
section
/-!
SUPPORT. What each operation of Machine/Host.lean keeps.
-/

namespace Sys2Proof.Machine

theorem ringError_keeps {r : State} (s : State) (f ring err : Nat) (h : Keeps r s) :
    Keeps r (ringError s f ring err) := by
  unfold ringError
  repeat' first
    | with_reducible assumption
    | with_reducible apply raise_keeps

theorem stopSq_keeps {r : State} (s : State) (f q err : Nat) (h : Keeps r s) :
    Keeps r (stopSq s f q err) := by
  unfold stopSq
  repeat' first
    | with_reducible assumption
    | with_reducible apply State.setSq_keeps
    | with_reducible apply ringError_keeps

theorem stopCq_keeps {r : State} (s : State) (f q err : Nat) (h : Keeps r s) :
    Keeps r (stopCq s f q err) := by
  unfold stopCq
  repeat' first
    | with_reducible assumption
    | with_reducible apply State.setCq_keeps
    | with_reducible apply ringError_keeps

theorem writeEvent_keeps {r : State} (s : State) (f o v : Nat) (h : Keeps r s) :
    Keeps r (writeEvent s f o v) := by
  unfold writeEvent
  repeat' first
    | with_reducible assumption
    | with_reducible apply hostWrite_keeps
    | with_reducible refine Keeps.ite (fun _ => ?_) (fun _ => ?_)

theorem sqEvent_keeps {r : State} (s : State) (f q : Nat) (h : Keeps r s) :
    Keeps r (sqEvent s f q) := by
  unfold sqEvent
  repeat' first
    | with_reducible assumption
    | with_reducible apply writeEvent_keeps
    | with_reducible refine Keeps.ite (fun _ => ?_) (fun _ => ?_)

theorem cqEvent_keeps {r : State} (s : State) (f q : Nat) (h : Keeps r s) :
    Keeps r (cqEvent s f q) := by
  unfold cqEvent
  repeat' first
    | with_reducible assumption
    | with_reducible apply writeEvent_keeps
    | with_reducible refine Keeps.ite (fun _ => ?_) (fun _ => ?_)

theorem takeTail_keeps {r : State} (s : State) (f q t : Nat) (h : Keeps r s) :
    Keeps r (takeTail s f q t) := by
  unfold takeTail
  repeat' first
    | with_reducible assumption
    | with_reducible apply State.setSq_keeps
    | with_reducible apply stopSq_keeps
    | with_reducible apply cqEvent_keeps
    | with_reducible refine Keeps.ite (fun _ => ?_) (fun _ => ?_)

theorem takeHead_keeps {r : State} (s : State) (f q h : Nat) (h₀ : Keeps r s) :
    Keeps r (takeHead s f q h) := by
  unfold takeHead
  repeat' first
    | with_reducible assumption
    | with_reducible apply State.setCq_keeps
    | with_reducible apply State.bump_keeps
    | with_reducible apply stopCq_keeps
    | with_reducible refine Keeps.ite (fun _ => ?_) (fun _ => ?_)

theorem doorbell_keeps {r : State} (s : State) (f width : Nat) (take : State → State) (htake : ∀ x0, Keeps r x0 → Keeps r
    (take x0)) (h : Keeps r s) :
    Keeps r (doorbell s f width take) := by
  unfold doorbell
  repeat' first
    | with_reducible assumption
    | with_reducible apply htake
    | with_reducible apply State.setFn_keeps
    | with_reducible apply State.noteSet_keeps
    | with_reducible refine Keeps.ite (fun _ => ?_) (fun _ => ?_)
    | (simp only [↓Keeps.mk_eq]; with_reducible refine KeepsMk.of ?_ rfl rfl rfl rfl rfl rfl rfl rfl rfl rfl rfl rfl rfl rfl rfl rfl rfl)

theorem takePage_keeps {r : State} (s : State) (f : Nat) (b : Bytes) (h : Keeps r s) :
    Keeps r (takePage s f b) := by
  unfold takePage
  repeat' first
    | with_reducible assumption
    | with_reducible apply sqEvent_keeps
    | with_reducible apply takeTail_keeps
    | with_reducible apply takeHead_keeps
    | with_reducible apply Keeps.foldl
    | with_reducible apply Keeps.foldl_fst
    | with_reducible refine Keeps.ite (fun _ => ?_) (fun _ => ?_)
    | intro _ _ _

theorem sqWrite_keeps {r : State} (s : State) (f q : Nat) (v : Nat) (h : Keeps r s) :
    Keeps r (sqWrite s f q v) := by
  unfold sqWrite
  repeat' first
    | with_reducible assumption
    | with_reducible apply State.setSq_keeps
    | with_reducible apply ringError_keeps
    | with_reducible refine Keeps.ite (fun _ => ?_) (fun _ => ?_)

theorem cqWrite_keeps {r : State} (s : State) (f q : Nat) (v : Nat) (h : Keeps r s) :
    Keeps r (cqWrite s f q v) := by
  unfold cqWrite
  extract_lets c size irq c0 x c1
  split
  · exact State.setCq_keeps _ _ _ _ h
  · split
    · exact State.setCq_keeps _ _ _ _ h
    · split
      · exact ringError_keeps _ _ _ _ (State.setCq_keeps _ _ _ _ h)
      · split
        · exact ringError_keeps _ _ _ _ (State.setCq_keeps _ _ _ _ h)
        · exact State.setCq_keeps _ _ _ _ h

theorem descriptorFetchEff_keeps {r : State} (f q : Nat) (data : HostData) (s : State) (h : Keeps r s) :
    Keeps r (descriptorFetchEff f q data s) := by
  unfold descriptorFetchEff
  dsimp only
  split
  · exact Keeps.upd (State.setFn_keeps _ _ _ (State.emit_keeps _ _ h)) rfl rfl rfl rfl rfl rfl rfl rfl rfl rfl rfl rfl rfl rfl rfl rfl rfl
  · exact stopSq_keeps _ _ _ _ (Keeps.upd (State.setFn_keeps _ _ _ (State.emit_keeps _ _ h)) rfl rfl rfl rfl rfl rfl rfl rfl rfl rfl rfl rfl rfl rfl rfl rfl rfl)

theorem acceptDesc_keeps {r : State} (s : State) (f q : Nat) (d : Bytes) (h : Keeps r s) :
    Keeps r (acceptDesc s f q d).1 := by
  unfold acceptDesc
  repeat' first
    | with_reducible assumption
    | with_reducible apply State.setSq_keeps
    | with_reducible apply State.setCq_keeps
    | with_reducible apply sqEvent_keeps
    | with_reducible apply cqEvent_keeps
    | (simp only [↓Keeps.mk_eq]; with_reducible refine KeepsMk.of ?_ rfl rfl rfl rfl rfl rfl rfl rfl rfl rfl rfl rfl rfl rfl rfl rfl rfl)

theorem logAccept_keeps {r : State} (s : State) (acc f q : Nat) (d lists : Bytes) (h : Keeps r s) :
    Keeps r (logAccept s acc f q d lists) := by
  unfold logAccept
  repeat' first
    | with_reducible assumption
    | with_reducible apply logEntry_keeps

theorem acceptLog_keeps {r : State} (s : State) (acc f q : Nat) (d : Bytes) (h : Keeps r s) :
    Keeps r (acceptLog s acc f q d) := by
  unfold acceptLog
  repeat' first
    | with_reducible assumption
    | with_reducible apply logAccept_keeps
    | with_reducible refine Keeps.ite (fun _ => ?_) (fun _ => ?_)

theorem noteAccept_keeps {r : State} (s : State) (k n : Nat) (h : Keeps r s) : Keeps r (noteAccept s k n) := by
  unfold noteAccept
  refine Keeps.updLegal h rfl rfl rfl rfl rfl fun l => { l with phase := ?_ }
  have := l.phase
  dsimp only
  split <;> omega

theorem descriptorAcceptEff_keeps {r : State} (f q : Nat) (d : Bytes) (s : State) (h : Keeps r s) :
    Keeps r (descriptorAcceptEff f q d s) := by
  unfold descriptorAcceptEff
  repeat' first
    | with_reducible assumption
    | with_reducible apply State.bump_keeps
    | with_reducible apply refuse_keeps
    | with_reducible apply acceptDesc_keeps
    | with_reducible apply acceptLog_keeps
    | with_reducible apply noteAccept_keeps
    | with_reducible refine Keeps.ite (fun _ => ?_) (fun _ => ?_)
    | (simp only [↓Keeps.mk_eq]; with_reducible refine KeepsMk.of ?_ rfl rfl rfl rfl rfl rfl rfl rfl rfl rfl rfl rfl rfl rfl rfl rfl rfl)

theorem loadPending_keeps {r : State} (s : State) (h : Keeps r s) :
    Keeps r (loadPending s) := by
  unfold loadPending
  repeat' first
    | with_reducible assumption
    | with_reducible apply State.setSeq_keeps
    | with_reducible apply Keeps.foldl
    | with_reducible apply Keeps.foldl_fst
    | intro _ _ _
    | split

theorem stepEff_keeps {r : State} (s : State) (acc : Nat) (a : Acc) (patches streams bufs : Bytes) (h : Keeps r s) :
    Keeps r (stepEff s acc a patches streams bufs) := by
  unfold stepEff
  repeat' first
    | with_reducible assumption
    | with_reducible apply refuse_keeps
    | with_reducible apply begin_keeps
    | with_reducible apply logAccept_keeps
    | with_reducible apply loadPending_keeps
    | with_reducible refine Keeps.ite (fun _ => ?_) (fun _ => ?_)
    | (simp only [↓Keeps.mk_eq]; with_reducible refine KeepsMk.of ?_ rfl rfl rfl rfl rfl rfl rfl rfl rfl rfl rfl rfl rfl rfl rfl rfl rfl)
    | split

theorem noteWrite_keeps {r : State} (s : State) (buf off : Nat) (rows : List Bytes) (pos : PlanPos) (h : Keeps r s) :
    Keeps r (noteWrite s buf off rows pos) := by
  unfold noteWrite
  repeat' first
    | with_reducible assumption
    | with_reducible refine Keeps.ite (fun _ => ?_) (fun _ => ?_)
    | (simp only [↓Keeps.mk_eq]; with_reducible refine KeepsMk.of ?_ rfl rfl rfl rfl rfl rfl rfl rfl rfl rfl rfl rfl rfl rfl rfl rfl rfl)

theorem hostRange_keeps {r : State} (s : State) (c : Cmd) (item : Nat) (h : Keeps r s) :
    Keeps r (hostRange s c item) := by
  unfold hostRange
  repeat' first
    | with_reducible assumption
    | with_reducible apply State.onRun_keeps
    | with_reducible apply setSflag_keeps

theorem hostRows_keeps {r : State} (s : State) (c : Cmd) (rows : List (Option W64)) (h : Keeps r s) :
    Keeps r (hostRows s c rows) := by
  unfold hostRows
  repeat' first
    | with_reducible assumption
    | with_reducible apply hostRange_keeps
    | split

theorem noteHostErr_keeps {r : State} (s : State) (c : Cmd) (x : Option (Nat × W64)) (h : Keeps r s) :
    Keeps r (noteHostErr s c x) := by
  cases x with
  | none => exact h
  | some x => exact State.onRun_keeps _ _ h

theorem hreadEff_keeps {r : State} (v q i : Nat) (c : Cmd) (buf off n : Nat) (data : List HostData) (s : State) (h : Keeps
    r s) :
    Keeps r (hreadEff v q i c buf off n data s) := by
  unfold hreadEff
  repeat' first
    | with_reducible assumption
    | with_reducible apply logEntry_keeps
    | with_reducible apply finishCmd_keeps
    | with_reducible apply hostRows_keeps
    | with_reducible apply noteHostErr_keeps
    | with_reducible refine Keeps.ite (fun _ => ?_) (fun _ => ?_)
    | (simp only [↓Keeps.mk_eq]; with_reducible refine KeepsMk.of ?_ rfl rfl rfl rfl rfl rfl rfl rfl rfl rfl rfl rfl rfl rfl rfl rfl rfl)

theorem hwriteEff_keeps {r : State} (v q i : Nat) (c : Cmd) (buf off : Nat) (s : State) (h : Keeps r s) :
    Keeps r (hwriteEff v q i c buf off s) := by
  unfold hwriteEff
  repeat' first
    | with_reducible assumption
    | with_reducible apply hostWrite_keeps
    | with_reducible apply finishCmd_keeps
    | with_reducible apply hostRows_keeps
    | with_reducible apply Keeps.foldl
    | with_reducible apply Keeps.foldl_fst
    | with_reducible refine Keeps.ite (fun _ => ?_) (fun _ => ?_)
    | (simp only [↓Keeps.mk_eq]; with_reducible refine KeepsMk.of ?_ rfl rfl rfl rfl rfl rfl rfl rfl rfl rfl rfl rfl rfl rfl rfl rfl rfl)
    | intro _ _ _
    | intro _ _
    | with_reducible refine Keeps.of_fst (by assumption) ?_
    | split
    | dsimp only

end Sys2Proof.Machine
end

