-- ==== Sys2Proof/Laws/KeepsRoutes.lean ====
section
/-!
SUPPORT. What each operation of Machine/Routes.lean keeps.
-/

namespace Sys2Proof.Machine

theorem queueCtrl_keeps {r : State} (s : State) (p : Nat) (m : CtrlMsg) (h : Keeps r s) :
    Keeps r (queueCtrl s p m) := by
  unfold queueCtrl
  repeat' first
    | with_reducible assumption
    | with_reducible apply State.setPort_keeps

theorem queueFour_keeps {r : State} (s : State) (p : Nat) (m : CtrlMsg) (h : Keeps r s) :
    Keeps r (queueFour s p m) := by
  unfold queueFour
  repeat' first
    | with_reducible assumption
    | with_reducible apply queueCtrl_keeps

theorem flood_keeps {r : State} (s : State) (ports : List Nat) (m : CtrlMsg) (h : Keeps r s) :
    Keeps r (flood s ports m) := by
  unfold flood
  repeat' first
    | with_reducible assumption
    | with_reducible apply queueFour_keeps
    | with_reducible apply Keeps.foldl
    | with_reducible apply Keeps.foldl_fst
    | intro _ _ _

theorem queueLoose_keeps {r : State} (s : State) (p : Nat) (k : Packet) (h : Keeps r s) :
    Keeps r (queueLoose s p k) := by
  unfold queueLoose
  repeat' first
    | with_reducible assumption
    | with_reducible apply State.setPort_keeps

theorem freeBuffer_keeps {r : State} (s : State) (b : Option (Nat × Nat)) (h : Keeps r s) :
    Keeps r (freeBuffer s b) := by
  unfold freeBuffer
  repeat' first
    | with_reducible assumption
    | with_reducible apply State.setPort_keeps
    | with_reducible refine Keeps.ite (fun _ => ?_) (fun _ => ?_)
    | split

theorem dropLoose_keeps {r : State} (s : State) (k : Packet) (inp : Option Nat) (h : Keeps r s) :
    Keeps r (dropLoose s k inp) := by
  unfold dropLoose
  repeat' first
    | with_reducible assumption
    | with_reducible apply State.setLink_keeps
    | with_reducible apply State.noteSet_keeps
    | with_reducible apply countDropped_keeps
    | with_reducible apply raise_keeps
    | with_reducible refine Keeps.ite (fun _ => ?_) (fun _ => ?_)

theorem forwardLoose_keeps {r : State} (s : State) (k : Packet) (inp inDim : Option Nat) (h : Keeps r s) :
    Keeps r (forwardLoose s k inp inDim).1 := by
  unfold forwardLoose
  repeat' first
    | with_reducible assumption
    | with_reducible apply deliver_keeps
    | with_reducible apply raise_keeps
    | with_reducible apply queueLoose_keeps
    | with_reducible apply freeBuffer_keeps
    | with_reducible apply dropLoose_keeps
    | with_reducible refine Keeps.ite (fun _ => ?_) (fun _ => ?_)
    | split
    | dsimp only

theorem sendLoose_keeps {r : State} (s : State) (cls : Nat) (dest tag : W16) (payload : Bytes) (h : Keeps r s) :
    Keeps r (sendLoose s cls dest tag payload) := by
  unfold sendLoose
  repeat' first
    | with_reducible assumption
    | with_reducible apply forwardLoose_keeps

end Sys2Proof.Machine
end

