-- ==== Sys2Proof/Laws/KeepsMember.lean ====
section
/-!
SUPPORT. What each operation of Machine/Member.lean keeps.
-/

namespace Sys2Proof.Machine

theorem countPort_keeps {r : State} (s : State) (p : Nat) (f : PortCounters → PortCounters) (h : Keeps r s) :
    Keeps r (countPort s p f) := by
  unfold countPort
  repeat' first
    | with_reducible assumption
    | with_reducible apply State.setPort_keeps

theorem linkProtocol_keeps {r : State} (s : State) (p : Nat) (h : Keeps r s) :
    Keeps r (linkProtocol s p) := by
  unfold linkProtocol
  repeat' first
    | with_reducible assumption
    | with_reducible apply raise_keeps
    | with_reducible apply countPort_keeps

theorem sendGasp_keeps {r : State} (s : State) (cause : Nat) (h : Keeps r s) :
    Keeps r (sendGasp s cause) := by
  unfold sendGasp
  repeat' first
    | with_reducible assumption
    | with_reducible apply flood_keeps

theorem floodItem_keeps {r : State} (s : State) (it : Item) (h : Keeps r s) :
    Keeps r (floodItem s it) := by
  unfold floodItem
  repeat' first
    | with_reducible assumption
    | with_reducible apply flood_keeps

theorem takeItem_keeps {r : State} (s : State) (it : Item) (h : Keeps r s) :
    Keeps r (takeItem s it) := by
  unfold takeItem
  repeat' first
    | with_reducible assumption
    | with_reducible apply floodItem_keeps
    | with_reducible refine Keeps.ite (fun _ => ?_) (fun _ => ?_)
    | (simp only [↓Keeps.mk_eq]; with_reducible refine KeepsMk.of ?_ rfl rfl rfl rfl rfl rfl rfl rfl rfl rfl rfl rfl rfl rfl rfl rfl rfl)
    | (simp only [↓Keeps.mk_eq]; with_reducible refine KeepsMk.ofLegal ?_ rfl rfl rfl rfl rfl ?_)
    | (refine fun l => ⟨?_, ?_, ?_, ?_, ?_, ?_, ?_, ?_, ?_, ?_, ?_, ?_, ?_, ?_⟩ <;> first | with_reducible first | exact l.stop | exact l.grid | exact l.twin | exact l.kind | exact l.phase | exact l.chronMode | exact l.chronState | exact l.stage | exact l.lastReset | exact l.thermal | exact l.limLow | exact l.limHigh | exact l.spdm | exact l.grade | (dsimp only; omega) | (dsimp only; split <;> first | omega | exact l.stop | exact l.grid | exact l.twin | exact l.kind | exact l.phase | exact l.chronMode | exact l.chronState | exact l.stage | exact l.lastReset | exact l.thermal | exact l.limLow | exact l.limHigh | exact l.spdm | exact l.grade))
    | split
    | dsimp only

theorem takeLost_keeps {r : State} (s : State) (h : Keeps r s) :
    Keeps r (takeLost s) := by
  unfold takeLost
  repeat' first
    | with_reducible assumption
    | with_reducible apply takeItem_keeps
    | with_reducible apply Keeps.foldl
    | with_reducible apply Keeps.foldl_fst
    | (simp only [↓Keeps.mk_eq]; with_reducible refine KeepsMk.of ?_ rfl rfl rfl rfl rfl rfl rfl rfl rfl rfl rfl rfl rfl rfl rfl rfl rfl)
    | intro _ _ _

theorem gatherItem_keeps {r : State} (s : State) (it : Item) (h : Keeps r s) :
    Keeps r (gatherItem s it) := by
  unfold gatherItem
  repeat' first
    | with_reducible assumption
    | with_reducible apply takeItem_keeps
    | with_reducible apply takeLost_keeps
    | with_reducible refine Keeps.ite (fun _ => ?_) (fun _ => ?_)

theorem portDown_keeps {r : State} (s : State) (p st : Nat) (h : Keeps r s) :
    Keeps r (portDown s p st) := by
  unfold portDown
  repeat' first
    | with_reducible assumption
    | with_reducible apply State.setPort_keeps
    | with_reducible apply forwardLoose_keeps
    | with_reducible apply Keeps.foldl
    | with_reducible apply Keeps.foldl_fst
    | (simp only [↓Keeps.mk_eq]; with_reducible refine KeepsMk.of ?_ rfl rfl rfl rfl rfl rfl rfl rfl rfl rfl rfl rfl rfl rfl rfl rfl rfl)
    | intro _ _ _

theorem linkLost_keeps {r : State} (s : State) (p st cause : Nat) (h : Keeps r s) :
    Keeps r (linkLost s p st cause) := by
  unfold linkLost
  repeat' first
    | with_reducible assumption
    | with_reducible apply State.setPort_keeps
    | with_reducible apply raise_keeps
    | with_reducible apply gatherItem_keeps
    | with_reducible apply portDown_keeps
    | with_reducible refine Keeps.ite (fun _ => ?_) (fun _ => ?_)

theorem stepSummary_keeps {r₀ : State} (s : State) (gseq : Nat) (r : Option Run) (h : Keeps r₀ s) :
    Keeps r₀ (stepSummary s gseq r) := by
  unfold stepSummary
  repeat' first
    | with_reducible assumption
    | with_reducible apply deliver_keeps

theorem displace_keeps {r : State} (s : State) (die : Nat) (h : Keeps r s) :
    Keeps r (displace s die) := by
  unfold displace
  repeat' first
    | with_reducible assumption
    | with_reducible apply State.setPort_keeps
    | with_reducible apply Keeps.foldl
    | with_reducible apply Keeps.foldl_fst
    | intro _ _ _
    | split

theorem disarm_keeps {r : State} (s : State) (h : Keeps r s) :
    Keeps r (disarm s) := by
  unfold disarm
  repeat' first
    | with_reducible assumption
    | with_reducible apply State.setLink_keeps
    | with_reducible apply displace_keeps
    | (simp only [↓Keeps.mk_eq]; with_reducible refine KeepsMk.of ?_ rfl rfl rfl rfl rfl rfl rfl rfl rfl rfl rfl rfl rfl rfl rfl rfl rfl)

theorem dropSteps_keeps {r : State} (s : State) (gone : StepReq → Bool) (h : Keeps r s) :
    Keeps r (dropSteps s gone) := by
  unfold dropSteps
  repeat' first
    | with_reducible assumption
    | with_reducible apply loadPending_keeps
    | with_reducible apply disarm_keeps
    | with_reducible refine Keeps.ite (fun _ => ?_) (fun _ => ?_)
    | (simp only [↓Keeps.mk_eq]; with_reducible refine KeepsMk.of ?_ rfl rfl rfl rfl rfl rfl rfl rfl rfl rfl rfl rfl rfl rfl rfl rfl rfl)

theorem completeUnlaunched_keeps {r : State} (s : State) (acc gseq detail : Nat) (h : Keeps r s) :
    Keeps r (completeUnlaunched s acc gseq detail) := by
  unfold completeUnlaunched
  repeat' first
    | with_reducible assumption
    | with_reducible apply complete_keeps
    | with_reducible apply stepSummary_keeps
    | with_reducible apply dropSteps_keeps

theorem endGrid_keeps {r : State} (s : State) (detail : Nat) (h : Keeps r s) :
    Keeps r (endGrid s detail) := by
  unfold endGrid
  repeat' first
    | with_reducible assumption
    | with_reducible apply State.onRun_keeps
    | with_reducible apply requestStop_keeps
    | with_reducible refine Keeps.ite (fun _ => ?_) (fun _ => ?_)

theorem floodAbort_keeps {r : State} (s : State) (gseq cause : Nat) (h : Keeps r s) :
    Keeps r (floodAbort s gseq cause) := by
  unfold floodAbort
  repeat' first
    | with_reducible assumption
    | with_reducible apply raise_keeps
    | with_reducible apply flood_keeps
    | with_reducible refine Keeps.ite (fun _ => ?_) (fun _ => ?_)
    | (simp only [↓Keeps.mk_eq]; with_reducible refine KeepsMk.of ?_ rfl rfl rfl rfl rfl rfl rfl rfl rfl rfl rfl rfl rfl rfl rfl rfl rfl)

theorem abortEff_keeps {r : State} (g : Nat) (reh : Bool) (s : State) (h : Keeps r s) :
    Keeps r (abortEff g reh s) := by
  unfold abortEff
  repeat' first
    | with_reducible assumption
    | with_reducible apply completeUnlaunched_keeps
    | with_reducible apply endGrid_keeps
    | with_reducible refine Keeps.ite (fun _ => ?_) (fun _ => ?_)
    | (simp only [↓Keeps.mk_eq]; with_reducible refine KeepsMk.of ?_ rfl rfl rfl rfl rfl rfl rfl rfl rfl rfl rfl rfl rfl rfl rfl rfl rfl)
    | split

theorem split_keeps {r : State} (s : State) (h : Keeps r s) :
    Keeps r (split s) := by
  unfold split
  repeat' first
    | with_reducible assumption
    | with_reducible apply raise_keeps
    | (simp only [↓Keeps.mk_eq]; with_reducible refine KeepsMk.of ?_ rfl rfl rfl rfl rfl rfl rfl rfl rfl rfl rfl rfl rfl rfl rfl rfl rfl)
    | (simp only [↓Keeps.mk_eq]; with_reducible refine KeepsMk.ofLegal ?_ rfl rfl rfl rfl rfl ?_)
    | (refine fun l => ⟨?_, ?_, ?_, ?_, ?_, ?_, ?_, ?_, ?_, ?_, ?_, ?_, ?_, ?_⟩ <;> first | with_reducible first | exact l.stop | exact l.grid | exact l.twin | exact l.kind | exact l.phase | exact l.chronMode | exact l.chronState | exact l.stage | exact l.lastReset | exact l.thermal | exact l.limLow | exact l.limHigh | exact l.spdm | exact l.grade | (dsimp only; omega) | (dsimp only; split <;> first | omega | exact l.stop | exact l.grid | exact l.twin | exact l.kind | exact l.phase | exact l.chronMode | exact l.chronState | exact l.stage | exact l.lastReset | exact l.thermal | exact l.limLow | exact l.limHigh | exact l.spdm | exact l.grade))

theorem gatherEndEff_keeps {r : State} (s : State) (h : Keeps r s) :
    Keeps r (gatherEndEff s) := by
  unfold gatherEndEff
  repeat' first
    | with_reducible assumption
    | with_reducible apply flood_keeps
    | with_reducible apply split_keeps
    | with_reducible refine Keeps.ite (fun _ => ?_) (fun _ => ?_)
    | (simp only [↓Keeps.mk_eq]; with_reducible refine KeepsMk.of ?_ rfl rfl rfl rfl rfl rfl rfl rfl rfl rfl rfl rfl rfl rfl rfl rfl rfl)
    | (simp only [↓Keeps.mk_eq]; with_reducible refine KeepsMk.ofLegal ?_ rfl rfl rfl rfl rfl ?_)
    | (refine fun l => ⟨?_, ?_, ?_, ?_, ?_, ?_, ?_, ?_, ?_, ?_, ?_, ?_, ?_, ?_⟩ <;> first | with_reducible first | exact l.stop | exact l.grid | exact l.twin | exact l.kind | exact l.phase | exact l.chronMode | exact l.chronState | exact l.stage | exact l.lastReset | exact l.thermal | exact l.limLow | exact l.limHigh | exact l.spdm | exact l.grade | (dsimp only; omega) | (dsimp only; split <;> first | omega | exact l.stop | exact l.grid | exact l.twin | exact l.kind | exact l.phase | exact l.chronMode | exact l.chronState | exact l.stage | exact l.lastReset | exact l.thermal | exact l.limLow | exact l.limHigh | exact l.spdm | exact l.grade))

theorem memberCommitEff_keeps {r : State} (s : State) (h : Keeps r s) :
    Keeps r (memberCommitEff s) := by
  unfold memberCommitEff
  repeat' first
    | with_reducible assumption
    | with_reducible apply raise_keeps
    | with_reducible apply completeUnlaunched_keeps
    | with_reducible apply endGrid_keeps
    | with_reducible apply Keeps.foldl
    | with_reducible apply Keeps.foldl_fst
    | with_reducible refine Keeps.ite (fun _ => ?_) (fun _ => ?_)
    | (simp only [↓Keeps.mk_eq]; with_reducible refine KeepsMk.of ?_ rfl rfl rfl rfl rfl rfl rfl rfl rfl rfl rfl rfl rfl rfl rfl rfl rfl)
    | (simp only [↓Keeps.mk_eq]; with_reducible refine KeepsMk.ofLegal ?_ rfl rfl rfl rfl rfl ?_)
    | (refine fun l => ⟨?_, ?_, ?_, ?_, ?_, ?_, ?_, ?_, ?_, ?_, ?_, ?_, ?_, ?_⟩ <;> first | with_reducible first | exact l.stop | exact l.grid | exact l.twin | exact l.kind | exact l.phase | exact l.chronMode | exact l.chronState | exact l.stage | exact l.lastReset | exact l.thermal | exact l.limLow | exact l.limHigh | exact l.spdm | exact l.grade | (dsimp only; omega) | (dsimp only; split <;> first | omega | exact l.stop | exact l.grid | exact l.twin | exact l.kind | exact l.phase | exact l.chronMode | exact l.chronState | exact l.stage | exact l.lastReset | exact l.thermal | exact l.limLow | exact l.limHigh | exact l.spdm | exact l.grade))
    | intro _ _ _

theorem floodLevel_keeps {r : State} (s : State) (h : Keeps r s) :
    Keeps r (floodLevel s) := by
  unfold floodLevel
  repeat' first
    | with_reducible assumption
    | with_reducible apply flood_keeps
    | (simp only [↓Keeps.mk_eq]; with_reducible refine KeepsMk.of ?_ rfl rfl rfl rfl rfl rfl rfl rfl rfl rfl rfl rfl rfl rfl rfl rfl rfl)

theorem sendLevels_keeps {r : State} (s : State) (p : Nat) (h : Keeps r s) :
    Keeps r (sendLevels s p) := by
  unfold sendLevels
  repeat' first
    | with_reducible assumption
    | with_reducible apply queueFour_keeps
    | with_reducible apply Keeps.foldl
    | with_reducible apply Keeps.foldl_fst
    | (simp only [↓Keeps.mk_eq]; with_reducible refine KeepsMk.of ?_ rfl rfl rfl rfl rfl rfl rfl rfl rfl rfl rfl rfl rfl rfl rfl rfl rfl)
    | intro _ _ _

theorem floodHalfOut_keeps {r : State} (s : State) (g : Nat) (h : Keeps r s) :
    Keeps r (floodHalfOut s g) := by
  unfold floodHalfOut
  repeat' first
    | with_reducible assumption
    | with_reducible apply flood_keeps
    | (simp only [↓Keeps.mk_eq]; with_reducible refine KeepsMk.of ?_ rfl rfl rfl rfl rfl rfl rfl rfl rfl rfl rfl rfl rfl rfl rfl rfl rfl)
    | (simp only [↓Keeps.mk_eq]; with_reducible refine KeepsMk.ofLegal ?_ rfl rfl rfl rfl rfl ?_)
    | (refine fun l => ⟨?_, ?_, ?_, ?_, ?_, ?_, ?_, ?_, ?_, ?_, ?_, ?_, ?_, ?_⟩ <;> first | with_reducible first | exact l.stop | exact l.grid | exact l.twin | exact l.kind | exact l.phase | exact l.chronMode | exact l.chronState | exact l.stage | exact l.lastReset | exact l.thermal | exact l.limLow | exact l.limHigh | exact l.spdm | exact l.grade | (dsimp only; omega) | (dsimp only; split <;> first | omega | exact l.stop | exact l.grid | exact l.twin | exact l.kind | exact l.phase | exact l.chronMode | exact l.chronState | exact l.stage | exact l.lastReset | exact l.thermal | exact l.limLow | exact l.limHigh | exact l.spdm | exact l.grade))

theorem twinCompare_keeps {r : State} (s : State) (own peer : TwinPkt) (h : Keeps r s) :
    Keeps r (twinCompare s own peer) := by
  unfold twinCompare
  repeat' first
    | with_reducible assumption
    | with_reducible apply raise_keeps
    | with_reducible apply floodHalfOut_keeps
    | with_reducible refine Keeps.ite (fun _ => ?_) (fun _ => ?_)

theorem twinMatch_keeps {r : State} (s : State) (h : Keeps r s) :
    Keeps r (twinMatch s) := by
  unfold twinMatch
  repeat' first
    | with_reducible assumption
    | with_reducible apply twinCompare_keeps
    | (simp only [↓Keeps.mk_eq]; with_reducible refine KeepsMk.of ?_ rfl rfl rfl rfl rfl rfl rfl rfl rfl rfl rfl rfl rfl rfl rfl rfl rfl)
    | split

theorem resumeEff_keeps {r : State} (epoch : Nat) (s : State) (h : Keeps r s) :
    Keeps r (resumeEff epoch s) := by
  unfold resumeEff
  repeat' first
    | with_reducible assumption
    | with_reducible refine Keeps.ite (fun _ => ?_) (fun _ => ?_)
    | (simp only [↓Keeps.mk_eq]; with_reducible refine KeepsMk.of ?_ rfl rfl rfl rfl rfl rfl rfl rfl rfl rfl rfl rfl rfl rfl rfl rfl rfl)
    | (simp only [↓Keeps.mk_eq]; with_reducible refine KeepsMk.ofLegal ?_ rfl rfl rfl rfl rfl ?_)
    | (refine fun l => ⟨?_, ?_, ?_, ?_, ?_, ?_, ?_, ?_, ?_, ?_, ?_, ?_, ?_, ?_⟩ <;> first | with_reducible first | exact l.stop | exact l.grid | exact l.twin | exact l.kind | exact l.phase | exact l.chronMode | exact l.chronState | exact l.stage | exact l.lastReset | exact l.thermal | exact l.limLow | exact l.limHigh | exact l.spdm | exact l.grade | (dsimp only; omega) | (dsimp only; split <;> first | omega | exact l.stop | exact l.grid | exact l.twin | exact l.kind | exact l.phase | exact l.chronMode | exact l.chronState | exact l.stage | exact l.lastReset | exact l.thermal | exact l.limLow | exact l.limHigh | exact l.spdm | exact l.grade))

theorem withdrawEff_keeps {r : State} (s : State) (h : Keeps r s) :
    Keeps r (withdrawEff s) := by
  unfold withdrawEff
  repeat' first
    | with_reducible assumption
    | with_reducible apply sendGasp_keeps
    | (simp only [↓Keeps.mk_eq]; with_reducible refine KeepsMk.of ?_ rfl rfl rfl rfl rfl rfl rfl rfl rfl rfl rfl rfl rfl rfl rfl rfl rfl)

theorem faultInjectEff_keeps {r : State} (s : State) (acc : Nat) (a : Acc) (h : Keeps r s) :
    Keeps r (faultInjectEff s acc a) := by
  unfold faultInjectEff
  repeat' first
    | with_reducible assumption
    | with_reducible apply complete_keeps
    | with_reducible apply refuse_keeps
    | with_reducible refine Keeps.ite (fun _ => ?_) (fun _ => ?_)
    | (simp only [↓Keeps.mk_eq]; with_reducible refine KeepsMk.of ?_ rfl rfl rfl rfl rfl rfl rfl rfl rfl rfl rfl rfl rfl rfl rfl rfl rfl)

theorem takeInjection_keeps {r : State} (s : State) (kind : Nat) (h : Keeps r s) :
    Keeps r (takeInjection s kind) := by
  unfold takeInjection
  repeat' first
    | with_reducible assumption
    | (simp only [↓Keeps.mk_eq]; with_reducible refine KeepsMk.of ?_ rfl rfl rfl rfl rfl rfl rfl rfl rfl rfl rfl rfl rfl rfl rfl rfl rfl)

end Sys2Proof.Machine
end

