-- ==== Sys2Proof/Laws/KeepsFunctions.lean ====
section
/-!
SUPPORT. What each operation of Machine/Functions.lean keeps.
-/

namespace Sys2Proof.Machine

theorem dropDescriptors_keeps {r : State} (s : State) (f : Nat) (h : Keeps r s) :
    Keeps r (dropDescriptors s f).1 := by
  unfold dropDescriptors
  repeat' first
    | with_reducible assumption
    | with_reducible apply dropSteps_keeps
    | with_reducible refine Keeps.ite (fun _ => ?_) (fun _ => ?_)
    | (simp only [↓Keeps.mk_eq]; with_reducible refine KeepsMk.of ?_ rfl rfl rfl rfl rfl rfl rfl rfl rfl rfl rfl rfl rfl rfl rfl rfl rfl)

theorem discardRun_keeps {r : State} (s : State) (f : Nat) (h : Keeps r s) :
    Keeps r (discardRun s f).1 := by
  unfold discardRun
  repeat' first
    | with_reducible assumption
    | with_reducible apply State.onRun_keeps
    | with_reducible apply cancelQ_keeps
    | with_reducible apply Keeps.foldl
    | with_reducible apply Keeps.foldl_fst
    | with_reducible refine Keeps.ite (fun _ => ?_) (fun _ => ?_)
    | (simp only [↓Keeps.mk_eq]; with_reducible refine KeepsMk.of ?_ rfl rfl rfl rfl rfl rfl rfl rfl rfl rfl rfl rfl rfl rfl rfl rfl rfl)
    | intro _ _ _
    | intro _ _
    | with_reducible refine Keeps.of_fst (by assumption) ?_
    | split

theorem flrOne_keeps {r : State} (s : State) (f : Nat) (h : Keeps r s) :
    Keeps r (flrOne s f) := by
  unfold flrOne
  repeat' first
    | with_reducible assumption
    | with_reducible apply State.setFn_keeps
    | with_reducible apply dropDescriptors_keeps
    | with_reducible apply discardRun_keeps
    | with_reducible refine Keeps.ite (fun _ => ?_) (fun _ => ?_)
    | (simp only [↓Keeps.mk_eq]; with_reducible refine KeepsMk.of ?_ rfl rfl rfl rfl rfl rfl rfl rfl rfl rfl rfl rfl rfl rfl rfl rfl rfl)

theorem flrStartEff_keeps {r : State} (f : Nat) (s : State) (h : Keeps r s) :
    Keeps r (flrStartEff f s) := by
  unfold flrStartEff
  repeat' first
    | with_reducible assumption
    | with_reducible apply flrOne_keeps
    | with_reducible apply Keeps.foldl

theorem flrDone_keeps {r : State} (s : State) (f : Nat) (h : Keeps r s) :
    Keeps r (flrDone s f) := by
  unfold flrDone
  repeat' first
    | with_reducible assumption
    | with_reducible apply State.setFn_keeps
    | with_reducible apply raise_keeps
    | with_reducible refine Keeps.ite (fun _ => ?_) (fun _ => ?_)
    | (simp only [↓Keeps.mk_eq]; with_reducible refine KeepsMk.of ?_ rfl rfl rfl rfl rfl rfl rfl rfl rfl rfl rfl rfl rfl rfl rfl rfl rfl)

end Sys2Proof.Machine
end

