-- ==== Sys2Proof/Laws/KeepsFabric.lean ====
section
/-!
SUPPORT. What each operation of Machine/Fabric.lean keeps.
-/

namespace Sys2Proof.Machine

theorem armDie_keeps {r : State} (s : State) (p : Plan) (die : Nat) (h : Keeps r s) :
    Keeps r (armDie s p die) := by
  unfold armDie
  repeat' first
    | with_reducible assumption
    | with_reducible apply State.setLink_keeps
    | with_reducible apply displace_keeps

theorem armStep_keeps {r : State} (s : State) (acc : Nat) (p : Plan) (h : Keeps r s) :
    Keeps r (armStep s acc p) := by
  unfold armStep
  repeat' first
    | with_reducible assumption
    | with_reducible apply armDie_keeps
    | with_reducible refine Keeps.ite (fun _ => ?_) (fun _ => ?_)
    | (simp only [↓Keeps.mk_eq]; with_reducible refine KeepsMk.of ?_ rfl rfl rfl rfl rfl rfl rfl rfl rfl rfl rfl rfl rfl rfl rfl rfl rfl)

theorem sendTransfer_keeps {r : State} (s : State) (die flow : Nat) (f : Flow) (offset : Nat) (rows : List Bytes) (queue :
    Nat) (pos : PlanPos) (h : Keeps r s) :
    Keeps r (sendTransfer s die flow f offset rows queue pos) := by
  unfold sendTransfer
  repeat' first
    | with_reducible assumption
    | with_reducible apply State.setLink_keeps

theorem finishSend_keeps {r : State} (s : State) (die queue : Nat) (pos : PlanPos) (h : Keeps r s) :
    Keeps r (finishSend s die queue pos) := by
  unfold finishSend
  repeat' first
    | with_reducible assumption
    | with_reducible apply finishCmd_keeps
    | split
    | dsimp only

theorem fsendEff_keeps {r : State} (s : State) (die flow fb queue : Nat) (rows : List Bytes) (pos : PlanPos) (h : Keeps r
    s) :
    Keeps r (fsendEff s die flow fb queue rows pos) := by
  unfold fsendEff
  repeat' first
    | with_reducible assumption
    | with_reducible apply sendTransfer_keeps
    | with_reducible refine Keeps.ite (fun _ => ?_) (fun _ => ?_)
    | (simp only [↓Keeps.mk_eq]; with_reducible refine KeepsMk.of ?_ rfl rfl rfl rfl rfl rfl rfl rfl rfl rfl rfl rfl rfl rfl rfl rfl rfl)
    | with_reducible refine Keeps.of_fst (by assumption) ?_
    | split

theorem replaySend_keeps {r : State} (v queue : Nat) (pos : PlanPos) (s : State) (h : Keeps r s) :
    Keeps r (replaySend v queue pos s) := by
  unfold replaySend
  repeat' first
    | with_reducible assumption
    | with_reducible apply finishSend_keeps
    | with_reducible refine Keeps.ite (fun _ => ?_) (fun _ => ?_)

theorem frecvRetireEff_keeps {r : State} (v die queue i row n : Nat) (c : Cmd) (s : State) (h : Keeps r s) :
    Keeps r (frecvRetireEff v die queue i row n c s) := by
  unfold frecvRetireEff
  repeat' first
    | with_reducible assumption
    | with_reducible apply raise_keeps
    | with_reducible apply deviceFault_keeps
    | with_reducible apply logEntry_keeps
    | with_reducible apply finishCmd_keeps
    | with_reducible refine Keeps.ite (fun _ => ?_) (fun _ => ?_)
    | (simp only [↓Keeps.mk_eq]; with_reducible refine KeepsMk.of ?_ rfl rfl rfl rfl rfl rfl rfl rfl rfl rfl rfl rfl rfl rfl rfl rfl rfl)

theorem sendResend_keeps {r : State} (s : State) (dest : W16) (payload : Bytes) (h : Keeps r s) :
    Keeps r (sendResend s dest payload) := by
  unfold sendResend
  repeat' first
    | with_reducible assumption
    | with_reducible apply sendLoose_keeps

theorem sendAck_keeps {r : State} (s : State) (die flow t : Nat) (rows : Nat) (discard : Bool) (source : W16) (h : Keeps r s) :
    Keeps r (sendAck s die flow t rows discard source) := by
  unfold sendAck
  repeat' first
    | with_reducible assumption
    | with_reducible apply sendResend_keeps

theorem sendReq_keeps {r : State} (s : State) (die flow t rows round : Nat) (discard : Bool) (source : W16) (h : Keeps r s) :
    Keeps r (sendReq s die flow t rows round discard source) := by
  unfold sendReq
  repeat' first
    | with_reducible assumption
    | with_reducible apply sendResend_keeps

theorem trigger_keeps {r : State} (s : State) (die flow t : Nat) (h : Keeps r s) :
    Keeps r (trigger s die flow t) :=
  Keeps.upd h rfl rfl rfl rfl rfl rfl rfl rfl rfl rfl rfl rfl rfl rfl rfl rfl rfl

theorem verifyXfer_keeps {r : State} (s : State) (die : Nat) (f : Flow) (x : OpenXfer) (h : Keeps r s) :
    Keeps r (verifyXfer s die f x) := by
  unfold verifyXfer
  repeat' first
    | with_reducible assumption
    | with_reducible apply State.setLink_keeps
    | with_reducible apply logEntry_keeps
    | with_reducible apply sendAck_keeps
    | with_reducible apply sendReq_keeps
    | with_reducible apply trigger_keeps
    | with_reducible refine Keeps.ite (fun _ => ?_) (fun _ => ?_)
    | split

theorem flowUnarmed_keeps {r : State} (s : State) (p flow : Nat) (h : Keeps r s) :
    Keeps r (flowUnarmed s p flow) := by
  unfold flowUnarmed
  repeat' first
    | with_reducible assumption
    | with_reducible apply State.setLink_keeps
    | with_reducible apply raise_keeps
    | with_reducible refine Keeps.ite (fun _ => ?_) (fun _ => ?_)

theorem storeData_keeps {r : State} (s : State) (die flow : Nat) (f : Flow) (hop off t : Nat) (discard : Bool) (rows : List Bytes) (dest : Bool) (h : Keeps r s) :
    Keeps r (storeData s die flow f hop off t discard rows dest) := by
  unfold storeData
  repeat' first
    | with_reducible assumption
    | with_reducible apply State.setLink_keeps
    | with_reducible apply verifyXfer_keeps
    | with_reducible apply Keeps.foldl
    | with_reducible apply Keeps.foldl_fst
    | with_reducible refine Keeps.ite (fun _ => ?_) (fun _ => ?_)
    | intro _ _ _
    | split

theorem storeClose_keeps {r : State} (s : State) (die flow : Nat) (f : Flow) (hop t : Nat) (discard : Bool) (b : Bytes) (h : Keeps r s) :
    Keeps r (storeClose s die flow f hop t discard b) := by
  unfold storeClose
  repeat' first
    | with_reducible assumption
    | with_reducible apply State.setLink_keeps
    | with_reducible apply sendAck_keeps
    | with_reducible apply verifyXfer_keeps
    | with_reducible refine Keeps.ite (fun _ => ?_) (fun _ => ?_)
    | split

theorem receiveScheduled_keeps {r : State} (s : State) (p : Nat) (k : Packet) (h : Keeps r s) :
    Keeps r (receiveScheduled s p k) := by
  unfold receiveScheduled
  repeat' first
    | with_reducible assumption
    | with_reducible apply State.setLink_keeps
    | with_reducible apply raise_keeps
    | with_reducible apply flowUnarmed_keeps
    | with_reducible apply storeData_keeps
    | with_reducible apply storeClose_keeps
    | with_reducible refine Keeps.ite (fun _ => ?_) (fun _ => ?_)
    | split
    | dsimp only

theorem combineRows_keeps {r : State} (s : State) (die flow : Nat) (f : Flow) (x : OpenXfer) (n : Nat) (h : Keeps r s) :
    Keeps r (combineRows s die flow f x n) := by
  unfold combineRows
  repeat' first
    | with_reducible assumption
    | with_reducible apply State.setLink_keeps
    | with_reducible apply raiseFlags_keeps
    | with_reducible apply Keeps.foldl
    | with_reducible apply Keeps.foldl_fst
    | with_reducible refine Keeps.ite (fun _ => ?_) (fun _ => ?_)
    | (simp only [↓Keeps.mk_eq]; with_reducible refine KeepsMk.of ?_ rfl rfl rfl rfl rfl rfl rfl rfl rfl rfl rfl rfl rfl rfl rfl rfl rfl)
    | intro _ _ _
    | intro _ _
    | with_reducible refine Keeps.of_fst (by assumption) ?_
    | split
    | dsimp only

theorem collectEff_keeps {r : State} (die flow : Nat) (f : Flow) (x : OpenXfer) (n : Nat) (s : State) (h : Keeps r s) :
    Keeps r (collectEff die flow f x n s) := by
  unfold collectEff
  repeat' first
    | with_reducible assumption
    | with_reducible apply State.setLink_keeps
    | with_reducible apply combineRows_keeps
    | with_reducible refine Keeps.ite (fun _ => ?_) (fun _ => ?_)

theorem settleSent_keeps {r : State} (s : State) (die : Nat) (x : Sent) (h : Keeps r s) :
    Keeps r (settleSent s die x) := by
  unfold settleSent
  repeat' first
    | with_reducible assumption
    | with_reducible apply State.setLink_keeps
    | with_reducible apply finishSend_keeps
    | with_reducible apply Keeps.foldl
    | with_reducible apply Keeps.foldl_fst
    | with_reducible refine Keeps.ite (fun _ => ?_) (fun _ => ?_)
    | intro _ _ _
    | split
    | dsimp only

theorem resendTo_keeps {r : State} (s : State) (die : Nat) (x : Sent) (rows : List Bytes) (round : Nat) (dest : W16) (h : Keeps r s) :
    Keeps r (resendTo s die x rows round dest) := by
  unfold resendTo
  repeat' first
    | with_reducible assumption
    | with_reducible apply sendResend_keeps
    | with_reducible apply Keeps.foldl
    | with_reducible apply Keeps.foldl_fst
    | intro _ _ _

theorem resend_keeps {r : State} (s : State) (die : Nat) (x : Sent) (round : Nat) (h : Keeps r s) :
    Keeps r (resend s die x round) := by
  unfold resend
  repeat' first
    | with_reducible assumption
    | with_reducible apply State.setLink_keeps
    | with_reducible apply State.bump_keeps
    | with_reducible apply raise_keeps
    | with_reducible apply endGrid_keeps
    | with_reducible apply floodAbort_keeps
    | with_reducible apply resendTo_keeps
    | with_reducible apply Keeps.foldl
    | with_reducible apply Keeps.foldl_fst
    | with_reducible refine Keeps.ite (fun _ => ?_) (fun _ => ?_)
    | (simp only [↓Keeps.mk_eq]; with_reducible refine KeepsMk.of ?_ rfl rfl rfl rfl rfl rfl rfl rfl rfl rfl rfl rfl rfl rfl rfl rfl rfl)
    | intro _ _ _
    | intro _ _
    | with_reducible refine Keeps.of_fst (by assumption) ?_
    | split
    | dsimp only

theorem e2eDataEff_keeps {r : State} (s : State) (u : E2EUnit) (data : Bytes) (h : Keeps r s) :
    Keeps r (e2eDataEff s u data) := by
  unfold e2eDataEff
  repeat' first
    | with_reducible assumption
    | with_reducible apply State.setLink_keeps
    | with_reducible apply sendAck_keeps
    | with_reducible apply verifyXfer_keeps
    | with_reducible refine Keeps.ite (fun _ => ?_) (fun _ => ?_)
    | split
    | dsimp only

theorem indeterminate_keeps {r : State} (s : State) (h : Keeps r s) :
    Keeps r (indeterminate s) := by
  unfold indeterminate
  repeat' first
    | with_reducible assumption
    | with_reducible apply raise_keeps
    | with_reducible apply Keeps.foldl
    | with_reducible apply Keeps.foldl_fst
    | intro _ _ _

theorem answerMgmt_keeps {r : State} (s : State) (src tag : W16) (b : Bytes) (h : Keeps r s) :
    Keeps r (answerMgmt s src tag b) := by
  unfold answerMgmt
  repeat' first
    | with_reducible assumption
    | with_reducible apply sendLoose_keeps

end Sys2Proof.Machine
end

