-- ==== Sys2Proof/Laws/KeepsFlights.lean ====
section
/-!
SUPPORT. What each operation of Machine/Flights.lean keeps.
-/

namespace Sys2Proof.Machine

theorem sourcePart_keeps {r : State} (v q : Nat) (op : Instr) (rows : List (Nat × Nat)) (pos : PlanPos) (s : State) (h :
    Keeps r s) :
    Keeps r (sourcePart v q op rows pos s) := by
  unfold sourcePart
  repeat' first
    | with_reducible assumption
    | with_reducible apply sourceEnd_keeps
    | with_reducible apply noteWrite_keeps
    | with_reducible apply fsendEff_keeps
    | (simp only [↓Keeps.mk_eq]; with_reducible refine KeepsMk.of ?_ rfl rfl rfl rfl rfl rfl rfl rfl rfl rfl rfl rfl rfl rfl rfl rfl rfl)
    | with_reducible refine Keeps.of_fst (by assumption) ?_
    | split

theorem passPart_keeps {r : State} (f : Flight) (fn : VFun) (d : Nat) (a : Option Nat) (b : BSrc) (m : VMode) (tap :
    Option Tap) (s : State) (h : Keeps r s) :
    Keeps r (passPart f fn d a b m tap s).1 := by
  unfold passPart
  repeat' first
    | with_reducible assumption
    | with_reducible apply passGroup_keeps
    | with_reducible apply tapGroup_keeps
    | with_reducible refine Keeps.ite (fun _ => ?_) (fun _ => ?_)
    | (simp only [↓Keeps.mk_eq]; with_reducible refine KeepsMk.of ?_ rfl rfl rfl rfl rfl rfl rfl rfl rfl rfl rfl rfl rfl rfl rfl rfl rfl)
    | with_reducible refine Keeps.of_fst (by assumption) ?_
    | split

theorem doPart_keeps {r : State} (f : Flight) (s : State) (h : Keeps r s) :
    Keeps r (doPart f s).1 := by
  unfold doPart
  repeat' first
    | with_reducible assumption
    | with_reducible apply tileLoadEnd_keeps
    | with_reducible apply tileScalesEnd_keeps
    | with_reducible apply streamStep_keeps
    | with_reducible apply drainStep_keeps
    | with_reducible apply drainWideStep_keeps
    | with_reducible apply accLoadStep_keeps
    | with_reducible apply setTEnd_keeps
    | with_reducible apply tloadEnd_keeps
    | with_reducible apply reduceGroup_keeps
    | with_reducible apply raddwEnd_keeps
    | with_reducible apply rstoreEnd_keeps
    | with_reducible apply transposeEnd_keeps
    | with_reducible apply retileEnd_keeps
    | with_reducible apply convertStep_keeps
    | with_reducible apply convertSeg_keeps
    | with_reducible apply selectEnd_keeps
    | with_reducible apply sourcePart_keeps
    | with_reducible apply passPart_keeps
    | with_reducible refine Keeps.ite (fun _ => ?_) (fun _ => ?_)
    | (simp only [↓Keeps.mk_eq]; with_reducible refine KeepsMk.of ?_ rfl rfl rfl rfl rfl rfl rfl rfl rfl rfl rfl rfl rfl rfl rfl rfl rfl)
    | with_reducible refine Keeps.of_fst (by assumption) ?_
    | split

theorem settleFlight_keeps {r : State} (t : Nat) (x : State × List Flight) (f : Flight) (h : Keeps r x.1) :
    Keeps r (settleFlight t x f).1 := by
  unfold settleFlight
  repeat' first
    | with_reducible assumption
    | with_reducible apply doPart_keeps
    | with_reducible refine Keeps.ite (fun _ => ?_) (fun _ => ?_)
    | (simp only [↓Keeps.mk_eq]; with_reducible refine KeepsMk.of ?_ rfl rfl rfl rfl rfl rfl rfl rfl rfl rfl rfl rfl rfl rfl rfl rfl rfl)
    | with_reducible refine Keeps.of_fst (by assumption) ?_
    | split

theorem settleBeat_keeps {r : State} (s : State) (t : Nat) (h : Keeps r s) :
    Keeps r (settleBeat s t) := by
  unfold settleBeat
  repeat' first
    | with_reducible assumption
    | with_reducible apply State.onRun_keeps
    | with_reducible apply applyEffs_keeps
    | with_reducible apply settleFlight_keeps
    | with_reducible apply Keeps.foldl
    | with_reducible apply Keeps.foldl_fst

theorem settleTo_keeps {r : State} (s : State) (t : Nat) (h : Keeps r s) :
    Keeps r (settleTo s t) := by
  unfold settleTo
  repeat' first
    | with_reducible assumption
    | with_reducible apply settleBeat_keeps
    | with_reducible apply Keeps.foldl
    | with_reducible apply Keeps.foldl_fst
    | intro _ _ _

theorem settleRest_keeps {r : State} (s : State) (h : Keeps r s) :
    Keeps r (settleRest s) := by
  unfold settleRest
  repeat' first
    | with_reducible assumption
    | with_reducible apply settleTo_keeps

end Sys2Proof.Machine
end

