-- ==== Sys2Proof/Laws/KeepsLink.lean ====
section
/-!
SUPPORT. What each operation of Machine/Link.lean keeps.
-/

namespace Sys2Proof.Machine

theorem linkWidth_keeps {r : State} (s : State) (p : Nat) (old new : Byte) (h : Keeps r s) :
    Keeps r (linkWidth s p old new) := by
  unfold linkWidth
  repeat' first
    | with_reducible assumption
    | with_reducible apply raise_keeps
    | with_reducible apply countPort_keeps

theorem enterRetrain_keeps {r : State} (s : State) (p : Nat) (h : Keeps r s) :
    Keeps r (enterRetrain s p) := by
  unfold enterRetrain
  repeat' first
    | with_reducible assumption
    | with_reducible apply State.setPort_keeps
    | with_reducible apply linkLost_keeps
    | with_reducible refine Keeps.ite (fun _ => ?_) (fun _ => ?_)

theorem requestRetrain_keeps {r : State} (s : State) (p cause : Nat) (h : Keeps r s) :
    Keeps r (requestRetrain s p cause) := by
  unfold requestRetrain
  repeat' first
    | with_reducible assumption
    | with_reducible apply State.setPort_keeps
    | with_reducible apply queueFour_keeps
    | with_reducible refine Keeps.ite (fun _ => ?_) (fun _ => ?_)

theorem violate_keeps {r : State} (s : State) (p : Nat) (h : Keeps r s) :
    Keeps r (violate s p) := by
  unfold violate
  repeat' first
    | with_reducible assumption
    | with_reducible apply linkProtocol_keeps
    | with_reducible apply requestRetrain_keeps

theorem countNak_keeps {r : State} (s : State) (p : Nat) (h : Keeps r s) :
    Keeps r (countNak s p) := by
  unfold countNak
  repeat' first
    | with_reducible assumption
    | with_reducible apply State.setPort_keeps
    | with_reducible apply requestRetrain_keeps
    | with_reducible refine Keeps.ite (fun _ => ?_) (fun _ => ?_)

theorem sendNak_keeps {r : State} (s : State) (p : Nat) (h : Keeps r s) :
    Keeps r (sendNak s p) := by
  unfold sendNak
  repeat' first
    | with_reducible assumption
    | with_reducible apply State.setPort_keeps
    | with_reducible apply queueCtrl_keeps
    | with_reducible apply countPort_keeps
    | with_reducible apply countNak_keeps

theorem nakOnce_keeps {r : State} (s : State) (p : Nat) (h : Keeps r s) :
    Keeps r (nakOnce s p) := by
  unfold nakOnce
  repeat' first
    | with_reducible assumption
    | with_reducible apply sendNak_keeps
    | with_reducible refine Keeps.ite (fun _ => ?_) (fun _ => ?_)

theorem sendLinkAck_keeps {r : State} (s : State) (p : Nat) (h : Keeps r s) :
    Keeps r (sendLinkAck s p) := by
  unfold sendLinkAck
  repeat' first
    | with_reducible assumption
    | with_reducible apply State.setPort_keeps
    | with_reducible apply queueCtrl_keeps

theorem advanceE_keeps {r : State} (s : State) (p : Nat) (h : Keeps r s) :
    Keeps r (advanceE s p) := by
  unfold advanceE
  repeat' first
    | with_reducible assumption
    | with_reducible apply State.setPort_keeps
    | with_reducible apply countPort_keeps
    | with_reducible apply sendLinkAck_keeps
    | with_reducible refine Keeps.ite (fun _ => ?_) (fun _ => ?_)

theorem stampUnit_keeps {r : State} (s : State) (p : Nat) (m : CtrlMsg) (h : Keeps r s) :
    Keeps r (stampUnit s p m).1 := by
  unfold stampUnit
  repeat' first
    | with_reducible assumption
    | with_reducible apply State.setPort_keeps
    | with_reducible refine Keeps.ite (fun _ => ?_) (fun _ => ?_)
    | (simp only [↓Keeps.mk_eq]; with_reducible refine KeepsMk.of ?_ rfl rfl rfl rfl rfl rfl rfl rfl rfl rfl rfl rfl rfl rfl rfl rfl rfl)
    | with_reducible refine Keeps.of_fst (by assumption) ?_
    | split

theorem sendSwitch_keeps {r : State} (s : State) (p : Nat) (mask : Byte) (id count : Nat) (h : Keeps r s) :
    Keeps r (sendSwitch s p mask id count) := by
  unfold sendSwitch
  repeat' first
    | with_reducible assumption
    | with_reducible apply State.setPort_keeps
    | with_reducible apply State.emit_keeps
    | with_reducible apply linkWidth_keeps
    | with_reducible refine Keeps.ite (fun _ => ?_) (fun _ => ?_)

theorem sendCtrl_keeps {r : State} (s : State) (p : Nat) (h : Keeps r s) :
    Keeps r (sendCtrl s p) := by
  unfold sendCtrl
  repeat' first
    | with_reducible assumption
    | with_reducible apply State.setPort_keeps
    | with_reducible apply State.emit_keeps
    | with_reducible apply enterRetrain_keeps
    | with_reducible apply stampUnit_keeps
    | with_reducible apply sendSwitch_keeps
    | with_reducible refine Keeps.ite (fun _ => ?_) (fun _ => ?_)
    | (simp only [↓Keeps.mk_eq]; with_reducible refine KeepsMk.of ?_ rfl rfl rfl rfl rfl rfl rfl rfl rfl rfl rfl rfl rfl rfl rfl rfl rfl)
    | with_reducible refine Keeps.of_fst (by assumption) ?_
    | split
    | dsimp only

theorem takePoison_keeps {r : State} (s : State) (p : Nat) (h : Keeps r s) :
    Keeps r (takePoison s p).1 := by
  unfold takePoison
  repeat' first
    | with_reducible assumption
    | with_reducible refine Keeps.ite (fun _ => ?_) (fun _ => ?_)
    | (simp only [↓Keeps.mk_eq]; with_reducible refine KeepsMk.of ?_ rfl rfl rfl rfl rfl rfl rfl rfl rfl rfl rfl rfl rfl rfl rfl rfl rfl)
    | split

theorem noteClose_keeps {r : State} (s : State) (p : Nat) (k : Packet) (h : Keeps r s) :
    Keeps r (noteClose s p k) := by
  unfold noteClose
  repeat' first
    | with_reducible assumption
    | with_reducible apply State.setLink_keeps
    | with_reducible refine Keeps.ite (fun _ => ?_) (fun _ => ?_)

theorem sendNew_keeps {r : State} (s : State) (p : Nat) (k : Packet) (h : Keeps r s) :
    Keeps r (sendNew s p k) := by
  unfold sendNew
  repeat' first
    | with_reducible assumption
    | with_reducible apply State.setPort_keeps
    | with_reducible apply State.emit_keeps
    | with_reducible apply freeBuffer_keeps
    | with_reducible apply countPort_keeps
    | with_reducible apply takePoison_keeps
    | with_reducible apply noteClose_keeps

theorem sendHeld_keeps {r : State} (s : State) (p i : Nat) (h : Keeps r s) :
    Keeps r (sendHeld s p i) := by
  unfold sendHeld
  repeat' first
    | with_reducible assumption
    | with_reducible apply State.setPort_keeps
    | with_reducible apply State.emit_keeps
    | with_reducible apply countPort_keeps
    | with_reducible refine Keeps.ite (fun _ => ?_) (fun _ => ?_)
    | (simp only [↓Keeps.mk_eq]; with_reducible refine KeepsMk.of ?_ rfl rfl rfl rfl rfl rfl rfl rfl rfl rfl rfl rfl rfl rfl rfl rfl rfl)
    | (simp only [↓Keeps.mk_eq]; with_reducible refine KeepsMk.ofLegal ?_ rfl rfl rfl rfl rfl ?_)
    | (refine fun l => ⟨?_, ?_, ?_, ?_, ?_, ?_, ?_, ?_, ?_, ?_, ?_, ?_, ?_, ?_⟩ <;> first | with_reducible first | exact l.stop | exact l.grid | exact l.twin | exact l.kind | exact l.phase | exact l.chronMode | exact l.chronState | exact l.stage | exact l.lastReset | exact l.thermal | exact l.limLow | exact l.limHigh | exact l.spdm | exact l.grade | (dsimp only; omega) | (dsimp only; split <;> first | omega | exact l.stop | exact l.grid | exact l.twin | exact l.kind | exact l.phase | exact l.chronMode | exact l.chronState | exact l.stage | exact l.lastReset | exact l.thermal | exact l.limLow | exact l.limHigh | exact l.spdm | exact l.grade))
    | split
    | dsimp only

theorem sendLooseSlot_keeps {r : State} (s : State) (p : Nat) (h : Keeps r s) :
    Keeps r (sendLooseSlot s p) := by
  unfold sendLooseSlot
  repeat' first
    | with_reducible assumption
    | with_reducible apply State.setPort_keeps
    | with_reducible apply sendNew_keeps
    | with_reducible refine Keeps.ite (fun _ => ?_) (fun _ => ?_)
    | (simp only [↓Keeps.mk_eq]; with_reducible refine KeepsMk.of ?_ rfl rfl rfl rfl rfl rfl rfl rfl rfl rfl rfl rfl rfl rfl rfl rfl rfl)
    | split
    | dsimp only

theorem sendPacket_keeps {r : State} (s : State) (p : Nat) (h : Keeps r s) :
    Keeps r (sendPacket s p) := by
  unfold sendPacket
  repeat' first
    | with_reducible assumption
    | with_reducible apply State.setLink_keeps
    | with_reducible apply sendNew_keeps
    | with_reducible apply sendHeld_keeps
    | with_reducible apply sendLooseSlot_keeps
    | with_reducible refine Keeps.ite (fun _ => ?_) (fun _ => ?_)
    | (simp only [↓Keeps.mk_eq]; with_reducible refine KeepsMk.of ?_ rfl rfl rfl rfl rfl rfl rfl rfl rfl rfl rfl rfl rfl rfl rfl rfl rfl)
    | (simp only [↓Keeps.mk_eq]; with_reducible refine KeepsMk.ofLegal ?_ rfl rfl rfl rfl rfl ?_)
    | (refine fun l => ⟨?_, ?_, ?_, ?_, ?_, ?_, ?_, ?_, ?_, ?_, ?_, ?_, ?_, ?_⟩ <;> first | with_reducible first | exact l.stop | exact l.grid | exact l.twin | exact l.kind | exact l.phase | exact l.chronMode | exact l.chronState | exact l.stage | exact l.lastReset | exact l.thermal | exact l.limLow | exact l.limHigh | exact l.spdm | exact l.grade | (dsimp only; omega) | (dsimp only; split <;> first | omega | exact l.stop | exact l.grid | exact l.twin | exact l.kind | exact l.phase | exact l.chronMode | exact l.chronState | exact l.stage | exact l.lastReset | exact l.thermal | exact l.limLow | exact l.limHigh | exact l.spdm | exact l.grade))
    | split
    | dsimp only

theorem noteStarved_keeps {r : State} (s : State) (p : Nat) (h : Keeps r s) :
    Keeps r (noteStarved s p) := by
  unfold noteStarved
  repeat' first
    | with_reducible assumption
    | with_reducible apply State.setPort_keeps

theorem sendTelemetry_keeps {r : State} (s : State) (h : Keeps r s) :
    Keeps r (sendTelemetry s) := by
  unfold sendTelemetry
  repeat' first
    | with_reducible assumption
    | with_reducible apply State.setPath_keeps
    | with_reducible apply sendLoose_keeps
    | (simp only [↓Keeps.mk_eq]; with_reducible refine KeepsMk.of ?_ rfl rfl rfl rfl rfl rfl rfl rfl rfl rfl rfl rfl rfl rfl rfl rfl rfl)
    | split
    | dsimp only

theorem paramFinish_keeps {r : State} (s : State) (p : Nat) (w0 w1 w2 : W32) (h : Keeps r s) :
    Keeps r (paramFinish s p w0 w1 w2) := by
  unfold paramFinish
  repeat' first
    | with_reducible assumption
    | with_reducible apply State.setPort_keeps
    | with_reducible apply raise_keeps
    | with_reducible apply countPort_keeps
    | with_reducible apply portDown_keeps
    | with_reducible apply sendLevels_keeps
    | with_reducible apply linkWidth_keeps
    | with_reducible apply Keeps.foldl
    | with_reducible apply Keeps.foldl_fst
    | with_reducible refine Keeps.ite (fun _ => ?_) (fun _ => ?_)
    | (simp only [↓Keeps.mk_eq]; with_reducible refine KeepsMk.of ?_ rfl rfl rfl rfl rfl rfl rfl rfl rfl rfl rfl rfl rfl rfl rfl rfl rfl)

theorem paramTry_keeps {r : State} (s : State) (p : Nat) (h : Keeps r s) :
    Keeps r (paramTry s p) := by
  unfold paramTry
  repeat' first
    | with_reducible assumption
    | with_reducible apply paramFinish_keeps
    | with_reducible refine Keeps.ite (fun _ => ?_) (fun _ => ?_)
    | (simp only [↓Keeps.mk_eq]; with_reducible refine KeepsMk.of ?_ rfl rfl rfl rfl rfl rfl rfl rfl rfl rfl rfl rfl rfl rfl rfl rfl rfl)
    | split
    | dsimp only

theorem slotParam_keeps {r : State} (s : State) (p : Nat) (h : Keeps r s) :
    Keeps r (slotParam s p) := by
  unfold slotParam
  repeat' first
    | with_reducible assumption
    | with_reducible apply State.setPort_keeps
    | with_reducible apply State.emit_keeps
    | with_reducible apply paramTry_keeps

theorem slotActive_keeps {r : State} (s : State) (p : Nat) (h : Keeps r s) :
    Keeps r (slotActive s p) := by
  unfold slotActive
  repeat' first
    | with_reducible assumption
    | with_reducible apply State.setPort_keeps
    | with_reducible apply sendCtrl_keeps
    | with_reducible apply sendPacket_keeps
    | with_reducible apply noteStarved_keeps
    | with_reducible apply sendTelemetry_keeps
    | with_reducible refine Keeps.ite (fun _ => ?_) (fun _ => ?_)

theorem acceptPacket_keeps {r : State} (s : State) (p : Nat) (data : Bytes) (h : Keeps r s) :
    Keeps r (acceptPacket s p data) := by
  unfold acceptPacket
  repeat' first
    | with_reducible assumption
    | with_reducible apply State.setPort_keeps
    | with_reducible apply freeBuffer_keeps
    | with_reducible apply forwardLoose_keeps
    | with_reducible apply linkProtocol_keeps
    | with_reducible apply receiveScheduled_keeps
    | with_reducible apply nakOnce_keeps
    | with_reducible apply advanceE_keeps
    | with_reducible refine Keeps.ite (fun _ => ?_) (fun _ => ?_)

theorem noteFec_keeps {r : State} (p : Nat) (s : State) (e : Fin 8 × Nat × Nat) (h : Keeps r s) :
    Keeps r (noteFec p s e) := by
  unfold noteFec
  repeat' first
    | with_reducible assumption
    | with_reducible apply State.setPort_keeps
    | with_reducible apply countPort_keeps
    | with_reducible apply requestRetrain_keeps
    | with_reducible refine Keeps.ite (fun _ => ?_) (fun _ => ?_)

theorem receivePacket_keeps {r : State} (s : State) (p : Nat) (data : Bytes) (h : Keeps r s) :
    Keeps r (receivePacket s p data) := by
  unfold receivePacket
  repeat' first
    | with_reducible assumption
    | with_reducible apply countPort_keeps
    | with_reducible apply violate_keeps
    | with_reducible apply sendNak_keeps
    | with_reducible apply nakOnce_keeps
    | with_reducible apply acceptPacket_keeps
    | with_reducible refine Keeps.ite (fun _ => ?_) (fun _ => ?_)

theorem unlock_keeps {r : State} (s : State) (bound : Nat) (h : Keeps r s) :
    Keeps r (unlock s bound) := by
  unfold unlock
  repeat' first
    | with_reducible assumption
    | with_reducible apply raise_keeps
    | with_reducible refine Keeps.ite (fun _ => ?_) (fun _ => ?_)
    | (simp only [↓Keeps.mk_eq]; with_reducible refine KeepsMk.of ?_ rfl rfl rfl rfl rfl rfl rfl rfl rfl rfl rfl rfl rfl rfl rfl rfl rfl)
    | (simp only [↓Keeps.mk_eq]; with_reducible refine KeepsMk.ofLegal ?_ rfl rfl rfl rfl rfl ?_)
    | (refine fun l => ⟨?_, ?_, ?_, ?_, ?_, ?_, ?_, ?_, ?_, ?_, ?_, ?_, ?_, ?_⟩ <;> first | with_reducible first | exact l.stop | exact l.grid | exact l.twin | exact l.kind | exact l.phase | exact l.chronMode | exact l.chronState | exact l.stage | exact l.lastReset | exact l.thermal | exact l.limLow | exact l.limHigh | exact l.spdm | exact l.grade | (dsimp only; omega) | (dsimp only; split <;> first | omega | exact l.stop | exact l.grid | exact l.twin | exact l.kind | exact l.phase | exact l.chronMode | exact l.chronState | exact l.stage | exact l.lastReset | exact l.thermal | exact l.limLow | exact l.limHigh | exact l.spdm | exact l.grade))

theorem discipline_keeps {r : State} (s : State) (offset : Int) (h : Keeps r s) :
    Keeps r (discipline s offset) := by
  unfold discipline
  repeat' first
    | with_reducible assumption
    | with_reducible apply State.bump_keeps
    | with_reducible apply unlock_keeps
    | with_reducible refine Keeps.ite (fun _ => ?_) (fun _ => ?_)
    | (simp only [↓Keeps.mk_eq]; with_reducible refine KeepsMk.of ?_ rfl rfl rfl rfl rfl rfl rfl rfl rfl rfl rfl rfl rfl rfl rfl rfl rfl)
    | (simp only [↓Keeps.mk_eq]; with_reducible refine KeepsMk.ofLegal ?_ rfl rfl rfl rfl rfl ?_)
    | (refine fun l => ⟨?_, ?_, ?_, ?_, ?_, ?_, ?_, ?_, ?_, ?_, ?_, ?_, ?_, ?_⟩ <;> first | with_reducible first | exact l.stop | exact l.grid | exact l.twin | exact l.kind | exact l.phase | exact l.chronMode | exact l.chronState | exact l.stage | exact l.lastReset | exact l.thermal | exact l.limLow | exact l.limHigh | exact l.spdm | exact l.grade | (dsimp only; omega) | (dsimp only; split <;> first | omega | exact l.stop | exact l.grid | exact l.twin | exact l.kind | exact l.phase | exact l.chronMode | exact l.chronState | exact l.stage | exact l.lastReset | exact l.thermal | exact l.limLow | exact l.limHigh | exact l.spdm | exact l.grade))

theorem sendTrim_keeps {r : State} (s : State) (p : Nat) (mask : Byte) (h : Keeps r s) :
    Keeps r (sendTrim s p mask) := by
  unfold sendTrim
  repeat' first
    | with_reducible assumption
    | with_reducible apply State.setPort_keeps
    | with_reducible apply queueFour_keeps

theorem takeMask_keeps {r : State} (s : State) (p : Nat) (id : Nat) (mask : Byte) (h : Keeps r s) :
    Keeps r (takeMask s p id mask) := by
  unfold takeMask
  repeat' first
    | with_reducible assumption
    | with_reducible apply State.setPort_keeps
    | with_reducible apply linkWidth_keeps
    | with_reducible apply Keeps.foldl
    | with_reducible apply Keeps.foldl_fst
    | with_reducible refine Keeps.ite (fun _ => ?_) (fun _ => ?_)

theorem linkCtrlWrite_keeps {r : State} (s : State) (p : Nat) (v : W32) (h : Keeps r s) :
    Keeps r (linkCtrlWrite s p v) := by
  unfold linkCtrlWrite
  repeat' first
    | with_reducible assumption
    | with_reducible apply State.setPort_keeps
    | with_reducible apply portDown_keeps
    | with_reducible apply requestRetrain_keeps
    | with_reducible refine Keeps.ite (fun _ => ?_) (fun _ => ?_)

end Sys2Proof.Machine
end

