-- ==== Sys2Proof/Laws/KeepsLoader.lean ====
section
/-!
SUPPORT. What each operation of Machine/Loader.lean keeps.
-/

namespace Sys2Proof.Machine

theorem placeRegion_keeps {r : State} (p : Plan) (map : List Nat) (x : State × Tbl Region) (e : Nat × Region) (h : Keeps r
    x.1) :
    Keeps r (placeRegion p map x e).1 := by
  unfold placeRegion
  repeat' first
    | with_reducible assumption
    | with_reducible apply takeBlocks_keeps
    | with_reducible apply takeRun_keeps
    | with_reducible apply reserveDomain_keeps
    | with_reducible refine Keeps.ite (fun _ => ?_) (fun _ => ?_)
    | (simp only [↓Keeps.mk_eq]; with_reducible refine KeepsMk.of ?_ rfl rfl rfl rfl rfl rfl rfl rfl rfl rfl rfl rfl rfl rfl rfl rfl rfl)
    | with_reducible refine Keeps.of_fst (by assumption) ?_
    | split
    | dsimp only

theorem reservePlan_keeps {r : State} (s : State) (acc slot : Nat) (p : Plan) (map : List Nat) (h : Keeps r s) :
    Keeps r (reservePlan s acc slot p map) := by
  unfold reservePlan
  repeat' first
    | with_reducible assumption
    | with_reducible apply State.setSlot_keeps
    | with_reducible apply takeBlocks_keeps
    | with_reducible apply reserveDomain_keeps
    | with_reducible apply placeRegion_keeps
    | with_reducible apply Keeps.foldl
    | with_reducible apply Keeps.foldl_fst

theorem writeCode_keeps {r : State} (s : State) (p : Plan) (h : Keeps r s) :
    Keeps r (writeCode s p) := by
  unfold writeCode
  repeat' first
    | with_reducible assumption
    | with_reducible apply writeUnit_keeps
    | with_reducible apply Keeps.foldl
    | with_reducible apply Keeps.foldl_fst
    | intro _ _ _

theorem fillRegion_keeps {r₀ : State} (p : Plan) (s : State) (r : Region) (h : Keeps r₀ s) :
    Keeps r₀ (fillRegion p s r) := by
  unfold fillRegion
  repeat' first
    | with_reducible assumption
    | with_reducible apply writeRun_keeps
    | with_reducible refine Keeps.ite (fun _ => ?_) (fun _ => ?_)

theorem releasePlan_keeps {r : State} (s : State) (p : Plan) (h : Keeps r s) :
    Keeps r (releasePlan s p) := by
  unfold releasePlan
  repeat' first
    | with_reducible assumption
    | with_reducible apply freeBlocks_keeps
    | with_reducible apply releaseDomain_keeps
    | with_reducible apply Keeps.foldl
    | with_reducible apply Keeps.foldl_fst
    | with_reducible refine Keeps.ite (fun _ => ?_) (fun _ => ?_)
    | intro _ _ _

theorem planLoadDoneEff_keeps {r : State} (slot acc : Nat) (p : Plan) (s : State) (h : Keeps r s) :
    Keeps r (planLoadDoneEff slot acc p s) := by
  unfold planLoadDoneEff
  repeat' first
    | with_reducible assumption
    | with_reducible apply State.setSlot_keeps
    | with_reducible apply complete_keeps
    | with_reducible apply checkDigest_keeps
    | with_reducible apply writeCode_keeps
    | with_reducible apply fillRegion_keeps
    | with_reducible apply Keeps.foldl
    | with_reducible apply Keeps.foldl_fst
    | (simp only [↓Keeps.mk_eq]; with_reducible refine KeepsMk.of ?_ rfl rfl rfl rfl rfl rfl rfl rfl rfl rfl rfl rfl rfl rfl rfl rfl rfl)
    | intro _ _ _

theorem planUnloadEff_keeps {r : State} (acc slot : Nat) (s : State) (h : Keeps r s) :
    Keeps r (planUnloadEff acc slot s) := by
  unfold planUnloadEff
  repeat' first
    | with_reducible assumption
    | with_reducible apply State.setSlot_keeps
    | with_reducible apply refuse_keeps
    | with_reducible apply begin_keeps
    | split

theorem planUnloadDoneEff_keeps {r : State} (slot acc : Nat) (p : Plan) (s : State) (h : Keeps r s) :
    Keeps r (planUnloadDoneEff slot acc p s) := by
  unfold planUnloadDoneEff
  repeat' first
    | with_reducible assumption
    | with_reducible apply State.setSlot_keeps
    | with_reducible apply complete_keeps
    | with_reducible apply releasePlan_keeps
    | (simp only [↓Keeps.mk_eq]; with_reducible refine KeepsMk.of ?_ rfl rfl rfl rfl rfl rfl rfl rfl rfl rfl rfl rfl rfl rfl rfl rfl rfl)

end Sys2Proof.Machine
end

