-- ==== Sys2Proof/Laws/KeepsWeightSets.lean ====
section
/-!
SUPPORT. What each operation of Machine/WeightSets.lean keeps.
-/

namespace Sys2Proof.Machine

theorem sendRelay_keeps {r : State} (s : State) (dest : W16) (kind index offset detail : Nat) (set : W64) (payload : Bytes) (h : Keeps r s) :
    Keeps r (sendRelay s dest kind index offset detail set payload) := by
  unfold sendRelay
  repeat' first
    | with_reducible assumption
    | with_reducible apply sendLoose_keeps

theorem sendObject_keeps {r : State} (s : State) (dest : W16) (kind index : Nat) (set : W64) (b : Bytes) (h : Keeps r s) :
    Keeps r (sendObject s dest kind index set b) := by
  unfold sendObject
  repeat' first
    | with_reducible assumption
    | with_reducible apply sendRelay_keeps
    | with_reducible apply Keeps.foldl
    | with_reducible apply Keeps.foldl_fst
    | intro _ _ _

theorem sendRefused_keeps {r : State} (s : State) (l : SetLoad) (detail : Nat) (dests : List W16) (h : Keeps r s) :
    Keeps r (sendRefused s l detail dests) := by
  unfold sendRefused
  repeat' first
    | with_reducible assumption
    | with_reducible apply sendRelay_keeps
    | with_reducible apply Keeps.foldl
    | with_reducible apply Keeps.foldl_fst
    | intro _ _ _

theorem putLoad_keeps {r : State} (s : State) (l : SetLoad) (h : Keeps r s) :
    Keeps r (putLoad s l) :=
  Keeps.upd h rfl rfl rfl rfl rfl rfl rfl rfl rfl rfl rfl rfl rfl rfl rfl rfl rfl

theorem dropLoad_keeps {r : State} (s : State) (l : SetLoad) (h : Keeps r s) :
    Keeps r (dropLoad s l) :=
  Keeps.upd h rfl rfl rfl rfl rfl rfl rfl rfl rfl rfl rfl rfl rfl rfl rfl rfl rfl

theorem State.eachAw_keeps {r : State} (s : State) (f : AwDieSt → AwDieSt) (h : Keeps r s) :
    Keeps r (State.eachAw s f) := by
  unfold State.eachAw
  repeat' first
    | with_reducible assumption
    | with_reducible apply State.setAw_keeps
    | with_reducible apply Keeps.foldl
    | with_reducible apply Keeps.foldl_fst
    | intro _ _ _

theorem giveBack_keeps {r : State} (s : State) (l : SetLoad) (h : Keeps r s) :
    Keeps r (giveBack s l) := by
  unfold giveBack
  repeat' first
    | with_reducible assumption
    | with_reducible apply freeBlocks_keeps
    | with_reducible apply releaseDomain_keeps
    | with_reducible refine Keeps.ite (fun _ => ?_) (fun _ => ?_)

theorem uncountSet_keeps {r : State} (s : State) (d : Bytes) (h : Keeps r s) :
    Keeps r (uncountSet s d) := by
  unfold uncountSet
  repeat' first
    | with_reducible assumption
    | with_reducible apply freeBlocks_keeps
    | with_reducible apply releaseDomain_keeps
    | with_reducible refine Keeps.ite (fun _ => ?_) (fun _ => ?_)
    | (simp only [↓Keeps.mk_eq]; with_reducible refine KeepsMk.of ?_ rfl rfl rfl rfl rfl rfl rfl rfl rfl rfl rfl rfl rfl rfl rfl rfl rfl)
    | intro _ _ _
    | intro _ _
    | with_reducible refine Keeps.of_fst (by assumption) ?_
    | split

theorem countSet_keeps {r : State} (s : State) (d : Bytes) (h : Keeps r s) :
    Keeps r (countSet s d) := by
  unfold countSet
  repeat' first
    | with_reducible assumption
    | with_reducible refine Keeps.ite (fun _ => ?_) (fun _ => ?_)
    | (simp only [↓Keeps.mk_eq]; with_reducible refine KeepsMk.of ?_ rfl rfl rfl rfl rfl rfl rfl rfl rfl rfl rfl rfl rfl rfl rfl rfl rfl)

theorem endLoad_keeps {r : State} (s : State) (l : SetLoad) (detail : Nat) (h : Keeps r s) :
    Keeps r (endLoad s l detail) := by
  unfold endLoad
  repeat' first
    | with_reducible assumption
    | with_reducible apply complete_keeps
    | with_reducible apply dropLoad_keeps
    | with_reducible apply State.eachAw_keeps
    | with_reducible apply giveBack_keeps
    | with_reducible apply uncountSet_keeps
    | with_reducible refine Keeps.ite (fun _ => ?_) (fun _ => ?_)

theorem failLoad_keeps {r : State} (s : State) (l : SetLoad) (detail : Nat) (h : Keeps r s) :
    Keeps r (failLoad s l detail) := by
  unfold failLoad
  repeat' first
    | with_reducible assumption
    | with_reducible apply sendRefused_keeps
    | with_reducible apply endLoad_keeps

theorem refuseLoad_keeps {r : State} (s : State) (l : SetLoad) (detail : Nat) (h : Keeps r s) :
    Keeps r (refuseLoad s l detail) := by
  unfold refuseLoad
  repeat' first
    | with_reducible assumption
    | with_reducible apply sendRefused_keeps
    | with_reducible apply failLoad_keeps

theorem commitSet_keeps {r : State} (s : State) (l : SetLoad) (h : Keeps r s) :
    Keeps r (commitSet s l) := by
  unfold commitSet
  repeat' first
    | with_reducible assumption
    | with_reducible apply complete_keeps
    | with_reducible apply dropLoad_keeps
    | with_reducible apply giveBack_keeps
    | with_reducible apply countSet_keeps
    | with_reducible apply failLoad_keeps
    | with_reducible refine Keeps.ite (fun _ => ?_) (fun _ => ?_)
    | (simp only [↓Keeps.mk_eq]; with_reducible refine KeepsMk.of ?_ rfl rfl rfl rfl rfl rfl rfl rfl rfl rfl rfl rfl rfl rfl rfl rfl rfl)

theorem storeContent_keeps {r : State} (s : State) (l : SetLoad) (i : Nat) (p : Bytes) (h : Keeps r s) :
    Keeps r (storeContent s l i p) := by
  unfold storeContent
  repeat' first
    | with_reducible assumption
    | with_reducible apply State.setAw_keeps
    | with_reducible apply writeRun_keeps
    | with_reducible apply Keeps.foldl
    | with_reducible apply Keeps.foldl_fst
    | with_reducible refine Keeps.ite (fun _ => ?_) (fun _ => ?_)

theorem chunkStored_keeps {r : State} (s : State) (l : SetLoad) (i : Nat) (rec p : Bytes) (h : Keeps r s) :
    Keeps r (chunkStored s l i rec p) := by
  unfold chunkStored
  repeat' first
    | with_reducible assumption
    | with_reducible apply sendObject_keeps
    | with_reducible apply putLoad_keeps
    | with_reducible apply failLoad_keeps
    | with_reducible apply commitSet_keeps
    | with_reducible apply storeContent_keeps
    | with_reducible apply Keeps.foldl
    | with_reducible apply Keeps.foldl_fst
    | with_reducible refine Keeps.ite (fun _ => ?_) (fun _ => ?_)
    | (simp only [↓Keeps.mk_eq]; with_reducible refine KeepsMk.of ?_ rfl rfl rfl rfl rfl rfl rfl rfl rfl rfl rfl rfl rfl rfl rfl rfl rfl)
    | intro _ _ _

theorem askChunk_keeps {r : State} (s : State) (l : SetLoad) (i : Nat) (h : Keeps r s) :
    Keeps r (askChunk s l i) := by
  unfold askChunk
  repeat' first
    | with_reducible assumption
    | with_reducible apply State.emit_keeps
    | with_reducible apply sendRelay_keeps
    | split

theorem chunkFailed_keeps {r : State} (s : State) (l : SetLoad) (i : Nat) (h : Keeps r s) :
    Keeps r (chunkFailed s l i) := by
  unfold chunkFailed
  repeat' first
    | with_reducible assumption
    | with_reducible apply putLoad_keeps
    | with_reducible apply failLoad_keeps
    | with_reducible apply askChunk_keeps
    | with_reducible refine Keeps.ite (fun _ => ?_) (fun _ => ?_)

theorem tryChunk_keeps {r : State} (s : State) (acc i : Nat) (h : Keeps r s) :
    Keeps r (tryChunk s acc i) := by
  unfold tryChunk
  repeat' first
    | with_reducible assumption
    | with_reducible apply chunkStored_keeps
    | with_reducible apply chunkFailed_keeps
    | with_reducible refine Keeps.ite (fun _ => ?_) (fun _ => ?_)
    | split

theorem writeManifest_keeps {r : State} (s : State) (blocks : List (Nat × Nat)) (dom payload : Nat) (m : Bytes) (h : Keeps r s) :
    Keeps r (writeManifest s blocks dom payload m) := by
  unfold writeManifest
  repeat' first
    | with_reducible assumption
    | with_reducible apply writeRun_keeps

theorem acceptManifest_keeps {r : State} (s : State) (l : SetLoad) (m key : Bytes) (h : Keeps r s) :
    Keeps r (acceptManifest s l m key) := by
  unfold acceptManifest
  repeat' first
    | with_reducible assumption
    | with_reducible apply checkDigest_keeps
    | with_reducible apply takeBlocks_keeps
    | with_reducible apply reserveDomain_keeps
    | with_reducible apply sendObject_keeps
    | with_reducible apply putLoad_keeps
    | with_reducible apply State.eachAw_keeps
    | with_reducible apply countSet_keeps
    | with_reducible apply tryChunk_keeps
    | with_reducible apply writeManifest_keeps
    | with_reducible apply Keeps.foldl
    | with_reducible apply Keeps.foldl_fst
    | with_reducible refine Keeps.ite (fun _ => ?_) (fun _ => ?_)
    | (simp only [↓Keeps.mk_eq]; with_reducible refine KeepsMk.of ?_ rfl rfl rfl rfl rfl rfl rfl rfl rfl rfl rfl rfl rfl rfl rfl rfl rfl)
    | intro _ _ _

theorem judgeManifest_keeps {r : State} (s : State) (l : SetLoad) (size : Option Nat) (h : Keeps r s) :
    Keeps r (judgeManifest s l size) := by
  unfold judgeManifest
  repeat' first
    | with_reducible assumption
    | with_reducible apply putLoad_keeps
    | with_reducible apply refuseLoad_keeps
    | with_reducible apply acceptManifest_keeps
    | with_reducible refine Keeps.ite (fun _ => ?_) (fun _ => ?_)
    | (simp only [↓Keeps.mk_eq]; with_reducible refine KeepsMk.of ?_ rfl rfl rfl rfl rfl rfl rfl rfl rfl rfl rfl rfl rfl rfl rfl rfl rfl)
    | intro _ _ _
    | intro _ _
    | with_reducible refine Keeps.of_fst (by assumption) ?_
    | split

theorem dropRelay_keeps {r : State} (s : State) (h : Keeps r s) :
    Keeps r (dropRelay s) :=
  Keeps.upd h rfl rfl rfl rfl rfl rfl rfl rfl rfl rfl rfl rfl rfl rfl rfl rfl rfl

theorem weightLoadEff_keeps {r : State} (acc : Nat) (a : Acc) (manifest : Bytes) (authority : Option Bytes) (s : State) (h : Keeps r s) :
    Keeps r (weightLoadEff acc a manifest authority s) := by
  unfold weightLoadEff
  repeat' first
    | with_reducible assumption
    | with_reducible apply begin_keeps
    | with_reducible apply judgeManifest_keeps
    | with_reducible refine Keeps.ite (fun _ => ?_) (fun _ => ?_)
    | (simp only [↓Keeps.mk_eq]; with_reducible refine KeepsMk.of ?_ rfl rfl rfl rfl rfl rfl rfl rfl rfl rfl rfl rfl rfl rfl rfl rfl rfl)

theorem downRefused_keeps {r : State} (s : State) (l : SetLoad) (src : W16) (detail : Nat) (h : Keeps r s) :
    Keeps r (downRefused s l src detail) := by
  unfold downRefused
  repeat' first
    | with_reducible assumption
    | with_reducible apply putLoad_keeps

theorem weightUnloadEff_keeps {r : State} (acc : Nat) (d : Bytes) (s : State) (h : Keeps r s) :
    Keeps r (weightUnloadEff acc d s) := by
  unfold weightUnloadEff
  repeat' first
    | with_reducible assumption
    | with_reducible apply complete_keeps
    | with_reducible apply refuse_keeps
    | with_reducible apply uncountSet_keeps
    | with_reducible refine Keeps.ite (fun _ => ?_) (fun _ => ?_)
    | (simp only [↓Keeps.mk_eq]; with_reducible refine KeepsMk.of ?_ rfl rfl rfl rfl rfl rfl rfl rfl rfl rfl rfl rfl rfl rfl rfl rfl rfl)
    | intro _ _ _
    | intro _ _
    | with_reducible refine Keeps.of_fst (by assumption) ?_
    | split

theorem commitAnalog_keeps {r : State} (s : State) (h : Keeps r s) :
    Keeps r (commitAnalog s) := by
  unfold commitAnalog
  repeat' first
    | with_reducible assumption
    | with_reducible apply complete_keeps
    | with_reducible apply dropLoad_keeps
    | with_reducible apply State.eachAw_keeps
    | with_reducible refine Keeps.ite (fun _ => ?_) (fun _ => ?_)
    | (simp only [↓Keeps.mk_eq]; with_reducible refine KeepsMk.of ?_ rfl rfl rfl rfl rfl rfl rfl rfl rfl rfl rfl rfl rfl rfl rfl rfl rfl)
    | split

theorem beginSpares_keeps {r : State} (s : State) (d : Nat) (h : Keeps r s) :
    Keeps r (beginSpares s d) := by
  unfold beginSpares
  repeat' first
    | with_reducible assumption
    | with_reducible apply setLasting_keeps
    | with_reducible apply Keeps.foldl
    | with_reducible apply Keeps.foldl_fst
    | intro _ _ _

theorem phaseEndEff_keeps {r : State} (d : Nat) (cells : List PaneCell) (s : State) (h : Keeps r s) :
    Keeps r (phaseEndEff d cells s) := by
  unfold phaseEndEff
  repeat' first
    | with_reducible assumption
    | with_reducible apply State.setAw_keeps
    | with_reducible apply commitAnalog_keeps
    | with_reducible apply beginSpares_keeps
    | with_reducible apply tick_keeps
    | (simp only [↓Keeps.mk_eq]; with_reducible refine KeepsMk.of ?_ rfl rfl rfl rfl rfl rfl rfl rfl rfl rfl rfl rfl rfl rfl rfl rfl rfl)
    | with_reducible refine Keeps.of_fst (by assumption) ?_
    | split
    | dsimp only

theorem domainRetireEff_keeps {r : State} (s : State) (acc : Nat) (a : Acc) (h : Keeps r s) :
    Keeps r (domainRetireEff s acc a) := by
  unfold domainRetireEff
  repeat' first
    | with_reducible assumption
    | with_reducible apply State.setDom_keeps
    | with_reducible apply refuse_keeps
    | with_reducible apply begin_keeps
    | with_reducible refine Keeps.ite (fun _ => ?_) (fun _ => ?_)

theorem wakeLoads_keeps {r : State} (s : State) (h : Keeps r s) :
    Keeps r (wakeLoads s) := by
  unfold wakeLoads
  repeat' first
    | with_reducible assumption
    | with_reducible apply judgeManifest_keeps
    | with_reducible apply Keeps.foldl
    | with_reducible apply Keeps.foldl_fst
    | intro _ _ _

end Sys2Proof.Machine
end

