-- ==== Sys2Proof/Laws/KeepsTenancy.lean ====
section
/-!
SUPPORT. What each operation of Machine/Tenancy.lean keeps.
-/

namespace Sys2Proof.Machine

theorem tenancyOpenEff_keeps {r : State} (acc : Nat) (a : Acc) (keys groups : Bytes) (s : State) (h : Keeps r s) :
    Keeps r (tenancyOpenEff acc a keys groups s) := by
  unfold tenancyOpenEff
  repeat' first
    | with_reducible assumption
    | with_reducible apply State.setDom_keeps
    | with_reducible apply State.bump_keeps
    | with_reducible apply complete_keeps
    | with_reducible refine Keeps.ite (fun _ => ?_) (fun _ => ?_)
    | (simp only [↓Keeps.mk_eq]; with_reducible refine KeepsMk.of ?_ rfl rfl rfl rfl rfl rfl rfl rfl rfl rfl rfl rfl rfl rfl rfl rfl rfl)
    | (simp only [↓Keeps.mk_eq]; with_reducible refine KeepsMk.ofLegal ?_ rfl rfl rfl rfl rfl ?_)
    | (refine fun l => ⟨?_, ?_, ?_, ?_, ?_, ?_, ?_, ?_, ?_, ?_, ?_, ?_, ?_, ?_⟩ <;> first | with_reducible first | exact l.stop | exact l.grid | exact l.twin | exact l.kind | exact l.phase | exact l.chronMode | exact l.chronState | exact l.stage | exact l.lastReset | exact l.thermal | exact l.limLow | exact l.limHigh | exact l.spdm | exact l.grade | (dsimp only; omega) | (dsimp only; split <;> first | omega | exact l.stop | exact l.grid | exact l.twin | exact l.kind | exact l.phase | exact l.chronMode | exact l.chronState | exact l.stage | exact l.lastReset | exact l.thermal | exact l.limLow | exact l.limHigh | exact l.spdm | exact l.grade))

theorem dropPlanLoads_keeps {r : State} (s : State) (h : Keeps r s) :
    Keeps r (dropPlanLoads s) := by
  unfold dropPlanLoads
  repeat' first
    | with_reducible assumption
    | with_reducible apply State.setSlot_keeps
    | with_reducible apply complete_keeps
    | with_reducible apply releasePlan_keeps
    | with_reducible apply Keeps.foldl
    | with_reducible apply Keeps.foldl_fst
    | (simp only [↓Keeps.mk_eq]; with_reducible refine KeepsMk.of ?_ rfl rfl rfl rfl rfl rfl rfl rfl rfl rfl rfl rfl rfl rfl rfl rfl rfl)
    | intro _ _ _
    | split

theorem tenancyCloseEff_keeps {r : State} (acc : Nat) (a : Acc) (s : State) (h : Keeps r s) :
    Keeps r (tenancyCloseEff acc a s) := by
  unfold tenancyCloseEff
  repeat' first
    | with_reducible assumption
    | with_reducible apply complete_keeps
    | with_reducible apply begin_keeps
    | with_reducible apply withdrawEff_keeps
    | with_reducible apply dropSteps_keeps
    | with_reducible apply failLoad_keeps
    | with_reducible apply dropPlanLoads_keeps
    | with_reducible apply Keeps.foldl
    | with_reducible apply Keeps.foldl_fst
    | with_reducible refine Keeps.ite (fun _ => ?_) (fun _ => ?_)
    | (simp only [↓Keeps.mk_eq]; with_reducible refine KeepsMk.of ?_ rfl rfl rfl rfl rfl rfl rfl rfl rfl rfl rfl rfl rfl rfl rfl rfl rfl)
    | (simp only [↓Keeps.mk_eq]; with_reducible refine KeepsMk.ofLegal ?_ rfl rfl rfl rfl rfl ?_)
    | (refine fun l => ⟨?_, ?_, ?_, ?_, ?_, ?_, ?_, ?_, ?_, ?_, ?_, ?_, ?_, ?_⟩ <;> first | with_reducible first | exact l.stop | exact l.grid | exact l.twin | exact l.kind | exact l.phase | exact l.chronMode | exact l.chronState | exact l.stage | exact l.lastReset | exact l.thermal | exact l.limLow | exact l.limHigh | exact l.spdm | exact l.grade | (dsimp only; omega) | (dsimp only; split <;> first | omega | exact l.stop | exact l.grid | exact l.twin | exact l.kind | exact l.phase | exact l.chronMode | exact l.chronState | exact l.stage | exact l.lastReset | exact l.thermal | exact l.limLow | exact l.limHigh | exact l.spdm | exact l.grade))
    | intro _ _ _

theorem spareRows_keeps {r : State} (s : State) (st : Nat) (h : Keeps r s) :
    Keeps r (spareRows s st) := by
  unfold spareRows
  repeat' first
    | with_reducible assumption
    | with_reducible apply State.setStack_keeps
    | with_reducible apply raise_keeps
    | with_reducible apply Keeps.foldl
    | with_reducible apply Keeps.foldl_fst
    | (simp only [↓Keeps.mk_eq]; with_reducible refine KeepsMk.of ?_ rfl rfl rfl rfl rfl rfl rfl rfl rfl rfl rfl rfl rfl rfl rfl rfl rfl)
    | intro _ _ _

theorem scrubEff_keeps {r : State} (zero : Bool) (s : State) (h : Keeps r s) :
    Keeps r (scrubEff zero s) := by
  unfold scrubEff
  repeat' first
    | with_reducible assumption
    | with_reducible apply releaseSets_keeps
    | with_reducible apply spareRows_keeps
    | with_reducible apply Keeps.foldl
    | with_reducible apply Keeps.foldl_fst
    | (simp only [↓Keeps.mk_eq]; with_reducible refine KeepsMk.of ?_ rfl rfl rfl rfl rfl rfl rfl rfl rfl rfl rfl rfl rfl rfl rfl rfl rfl)
    | intro _ _ _

theorem closeDoneEff_keeps {r : State} (acc : Nat) (s : State) (h : Keeps r s) :
    Keeps r (closeDoneEff acc s) := by
  unfold closeDoneEff
  repeat' first
    | with_reducible assumption
    | with_reducible apply complete_keeps
    | (simp only [↓Keeps.mk_eq]; with_reducible refine KeepsMk.of ?_ rfl rfl rfl rfl rfl rfl rfl rfl rfl rfl rfl rfl rfl rfl rfl rfl rfl)
    | (simp only [↓Keeps.mk_eq]; with_reducible refine KeepsMk.ofLegal ?_ rfl rfl rfl rfl rfl ?_)
    | (refine fun l => ⟨?_, ?_, ?_, ?_, ?_, ?_, ?_, ?_, ?_, ?_, ?_, ?_, ?_, ?_⟩ <;> first | with_reducible first | exact l.stop | exact l.grid | exact l.twin | exact l.kind | exact l.phase | exact l.chronMode | exact l.chronState | exact l.stage | exact l.lastReset | exact l.thermal | exact l.limLow | exact l.limHigh | exact l.spdm | exact l.grade | (dsimp only; omega) | (dsimp only; split <;> first | omega | exact l.stop | exact l.grid | exact l.twin | exact l.kind | exact l.phase | exact l.chronMode | exact l.chronState | exact l.stage | exact l.lastReset | exact l.thermal | exact l.limLow | exact l.limHigh | exact l.spdm | exact l.grade))

end Sys2Proof.Machine
end

