-- ==== Sys2Proof/Laws/KeepsSpdm.lean ====
section
/-!
SUPPORT. What each operation of Machine/Spdm.lean keeps.
-/

namespace Sys2Proof.Machine

theorem answerVersion_keeps {r : State} (req : Bytes) (s : State) (h : Keeps r s) :
    Keeps r (answerVersion req s).1 := by
  unfold answerVersion
  repeat' first
    | with_reducible assumption
    | with_reducible refine Keeps.ite (fun _ => ?_) (fun _ => ?_)
    | (simp only [↓Keeps.mk_eq]; with_reducible refine KeepsMk.of ?_ rfl rfl rfl rfl rfl rfl rfl rfl rfl rfl rfl rfl rfl rfl rfl rfl rfl)
    | (simp only [↓Keeps.mk_eq]; with_reducible refine KeepsMk.ofLegal ?_ rfl rfl rfl rfl rfl ?_)
    | (refine fun l => ⟨?_, ?_, ?_, ?_, ?_, ?_, ?_, ?_, ?_, ?_, ?_, ?_, ?_, ?_⟩ <;> first | with_reducible first | exact l.stop | exact l.grid | exact l.twin | exact l.kind | exact l.phase | exact l.chronMode | exact l.chronState | exact l.stage | exact l.lastReset | exact l.thermal | exact l.limLow | exact l.limHigh | exact l.spdm | exact l.grade | (dsimp only; omega) | (dsimp only; split <;> first | omega | exact l.stop | exact l.grid | exact l.twin | exact l.kind | exact l.phase | exact l.chronMode | exact l.chronState | exact l.stage | exact l.lastReset | exact l.thermal | exact l.limLow | exact l.limHigh | exact l.spdm | exact l.grade))
    | split

theorem answerCapabilities_keeps {r : State} (req : Bytes) (s : State) (h : Keeps r s) :
    Keeps r (answerCapabilities req s).1 := by
  unfold answerCapabilities
  repeat' first
    | with_reducible assumption
    | with_reducible refine Keeps.ite (fun _ => ?_) (fun _ => ?_)
    | (simp only [↓Keeps.mk_eq]; with_reducible refine KeepsMk.of ?_ rfl rfl rfl rfl rfl rfl rfl rfl rfl rfl rfl rfl rfl rfl rfl rfl rfl)
    | (simp only [↓Keeps.mk_eq]; with_reducible refine KeepsMk.ofLegal ?_ rfl rfl rfl rfl rfl ?_)
    | (refine fun l => ⟨?_, ?_, ?_, ?_, ?_, ?_, ?_, ?_, ?_, ?_, ?_, ?_, ?_, ?_⟩ <;> first | with_reducible first | exact l.stop | exact l.grid | exact l.twin | exact l.kind | exact l.phase | exact l.chronMode | exact l.chronState | exact l.stage | exact l.lastReset | exact l.thermal | exact l.limLow | exact l.limHigh | exact l.spdm | exact l.grade | (dsimp only; omega) | (dsimp only; split <;> first | omega | exact l.stop | exact l.grid | exact l.twin | exact l.kind | exact l.phase | exact l.chronMode | exact l.chronState | exact l.stage | exact l.lastReset | exact l.thermal | exact l.limLow | exact l.limHigh | exact l.spdm | exact l.grade))
    | split

theorem answerAlgorithms_keeps {r : State} (req : Bytes) (s : State) (h : Keeps r s) :
    Keeps r (answerAlgorithms req s).1 := by
  unfold answerAlgorithms
  repeat' first
    | with_reducible assumption
    | with_reducible refine Keeps.ite (fun _ => ?_) (fun _ => ?_)
    | (simp only [↓Keeps.mk_eq]; with_reducible refine KeepsMk.of ?_ rfl rfl rfl rfl rfl rfl rfl rfl rfl rfl rfl rfl rfl rfl rfl rfl rfl)
    | (simp only [↓Keeps.mk_eq]; with_reducible refine KeepsMk.ofLegal ?_ rfl rfl rfl rfl rfl ?_)
    | (refine fun l => ⟨?_, ?_, ?_, ?_, ?_, ?_, ?_, ?_, ?_, ?_, ?_, ?_, ?_, ?_⟩ <;> first | with_reducible first | exact l.stop | exact l.grid | exact l.twin | exact l.kind | exact l.phase | exact l.chronMode | exact l.chronState | exact l.stage | exact l.lastReset | exact l.thermal | exact l.limLow | exact l.limHigh | exact l.spdm | exact l.grade | (dsimp only; omega) | (dsimp only; split <;> first | omega | exact l.stop | exact l.grid | exact l.twin | exact l.kind | exact l.phase | exact l.chronMode | exact l.chronState | exact l.stage | exact l.lastReset | exact l.thermal | exact l.limLow | exact l.limHigh | exact l.spdm | exact l.grade))
    | split

theorem answerDigests_keeps {r : State} (req : Bytes) (s : State) (h : Keeps r s) :
    Keeps r (answerDigests req s).1 := by
  unfold answerDigests
  repeat' first
    | with_reducible assumption
    | with_reducible refine Keeps.ite (fun _ => ?_) (fun _ => ?_)
    | (simp only [↓Keeps.mk_eq]; with_reducible refine KeepsMk.of ?_ rfl rfl rfl rfl rfl rfl rfl rfl rfl rfl rfl rfl rfl rfl rfl rfl rfl)
    | split

theorem answerCertificate_keeps {r : State} (req : Bytes) (s : State) (h : Keeps r s) :
    Keeps r (answerCertificate req s).1 := by
  unfold answerCertificate
  repeat' first
    | with_reducible assumption
    | with_reducible refine Keeps.ite (fun _ => ?_) (fun _ => ?_)
    | (simp only [↓Keeps.mk_eq]; with_reducible refine KeepsMk.of ?_ rfl rfl rfl rfl rfl rfl rfl rfl rfl rfl rfl rfl rfl rfl rfl rfl rfl)
    | split
    | dsimp only

theorem answerChallenge_keeps {r : State} (req : Bytes) (s : State) (h : Keeps r s) :
    Keeps r (answerChallenge req s).1 := by
  unfold answerChallenge
  repeat' first
    | with_reducible assumption
    | with_reducible apply State.bump_keeps
    | with_reducible refine Keeps.ite (fun _ => ?_) (fun _ => ?_)
    | (simp only [↓Keeps.mk_eq]; with_reducible refine KeepsMk.of ?_ rfl rfl rfl rfl rfl rfl rfl rfl rfl rfl rfl rfl rfl rfl rfl rfl rfl)
    | (simp only [↓Keeps.mk_eq]; with_reducible refine KeepsMk.ofLegal ?_ rfl rfl rfl rfl rfl ?_)
    | (refine fun l => ⟨?_, ?_, ?_, ?_, ?_, ?_, ?_, ?_, ?_, ?_, ?_, ?_, ?_, ?_⟩ <;> first | with_reducible first | exact l.stop | exact l.grid | exact l.twin | exact l.kind | exact l.phase | exact l.chronMode | exact l.chronState | exact l.stage | exact l.lastReset | exact l.thermal | exact l.limLow | exact l.limHigh | exact l.spdm | exact l.grade | (dsimp only; omega) | (dsimp only; split <;> first | omega | exact l.stop | exact l.grid | exact l.twin | exact l.kind | exact l.phase | exact l.chronMode | exact l.chronState | exact l.stage | exact l.lastReset | exact l.thermal | exact l.limLow | exact l.limHigh | exact l.spdm | exact l.grade))
    | split
    | dsimp only

theorem answerMeasurements_keeps {r : State} (req : Bytes) (s : State) (h : Keeps r s) :
    Keeps r (answerMeasurements req s).1 := by
  unfold answerMeasurements
  repeat' first
    | with_reducible assumption
    | with_reducible apply State.bump_keeps
    | with_reducible refine Keeps.ite (fun _ => ?_) (fun _ => ?_)
    | (simp only [↓Keeps.mk_eq]; with_reducible refine KeepsMk.of ?_ rfl rfl rfl rfl rfl rfl rfl rfl rfl rfl rfl rfl rfl rfl rfl rfl rfl)
    | split
    | dsimp only

theorem answerBy_keeps {r : State} (req : Bytes) (s : State) (h : Keeps r s) :
    Keeps r (answerBy req s).1 := by
  unfold answerBy
  repeat' first
    | with_reducible assumption
    | with_reducible apply answerVersion_keeps
    | with_reducible apply answerCapabilities_keeps
    | with_reducible apply answerAlgorithms_keeps
    | with_reducible apply answerDigests_keeps
    | with_reducible apply answerCertificate_keeps
    | with_reducible apply answerChallenge_keeps
    | with_reducible apply answerMeasurements_keeps
    | (simp only [↓Keeps.mk_eq]; with_reducible refine KeepsMk.of ?_ rfl rfl rfl rfl rfl rfl rfl rfl rfl rfl rfl rfl rfl rfl rfl rfl rfl)
    | with_reducible refine Keeps.of_fst (by assumption) ?_
    | split

theorem sendSpdm_keeps {r : State} (x : State × Bytes) (h : Keeps r x.1) : Keeps r (sendSpdm x) := by
  unfold sendSpdm
  dsimp only
  split
  · exact State.emit_keeps _ _ h
  · exact State.emit_keeps _ _ (Keeps.upd h rfl rfl rfl rfl rfl rfl rfl rfl rfl rfl rfl rfl rfl rfl rfl rfl rfl)

theorem chunkSendEff_keeps {r : State} (req : Bytes) (s : State) (h : Keeps r s) : Keeps r (chunkSendEff req s) := by
  unfold chunkSendEff
  dsimp only
  generalize (match s.spdm.sendChunk with
    | some (h', n', b) => if fieldAt req 4 2 = 0 then some [] else if fieldAt req 3 1 = h' ∧ fieldAt req 4 2 = n' then some b else none
    | none => if fieldAt req 4 2 = 0 then some [] else none : Option Bytes) = got
  split
  · exact State.emit_keeps _ _ (Keeps.upd h rfl rfl rfl rfl rfl rfl rfl rfl rfl rfl rfl rfl rfl rfl rfl rfl rfl)
  · split
    · exact sendSpdm_keeps _ (answerBy_keeps _ _ (Keeps.upd h rfl rfl rfl rfl rfl rfl rfl rfl rfl rfl rfl rfl rfl rfl rfl rfl rfl))
    · exact State.emit_keeps _ _ (Keeps.upd h rfl rfl rfl rfl rfl rfl rfl rfl rfl rfl rfl rfl rfl rfl rfl rfl rfl)

theorem chunkGetEff_keeps {r : State} (req : Bytes) (s : State) (h : Keeps r s) :
    Keeps r (chunkGetEff req s) := by
  unfold chunkGetEff
  repeat' first
    | with_reducible assumption
    | with_reducible apply State.emit_keeps
    | with_reducible refine Keeps.ite (fun _ => ?_) (fun _ => ?_)
    | (simp only [↓Keeps.mk_eq]; with_reducible refine KeepsMk.of ?_ rfl rfl rfl rfl rfl rfl rfl rfl rfl rfl rfl rfl rfl rfl rfl rfl rfl)
    | split

end Sys2Proof.Machine
end

