-- ==== Sys2Proof/Laws/KeepsObservation.lean ====
section
/-!
SUPPORT. What each operation of Machine/Observation.lean keeps.
-/

namespace Sys2Proof.Machine

theorem ringMsix_keeps {r : State} (s : State) (h : Keeps r s) :
    Keeps r (ringMsix s) := by
  unfold ringMsix
  repeat' first
    | with_reducible assumption
    | with_reducible apply sendMsix_keeps
    | (simp only [↓Keeps.mk_eq]; with_reducible refine KeepsMk.of ?_ rfl rfl rfl rfl rfl rfl rfl rfl rfl rfl rfl rfl rfl rfl rfl rfl rfl)

theorem ringPut_keeps {r₀ : State} (s : State) (r : Rec) (pseq : Nat) (h : Keeps r₀ s) :
    Keeps r₀ (ringPut s r pseq) := by
  unfold ringPut
  repeat' first
    | with_reducible assumption
    | with_reducible apply hostWrite_keeps
    | with_reducible apply ringMsix_keeps
    | with_reducible refine Keeps.ite (fun _ => ?_) (fun _ => ?_)
    | (simp only [↓Keeps.mk_eq]; with_reducible refine KeepsMk.of ?_ rfl rfl rfl rfl rfl rfl rfl rfl rfl rfl rfl rfl rfl rfl rfl rfl rfl)

theorem evringWriteEff_keeps {r : State} (s : State) (h : Keeps r s) :
    Keeps r (evringWriteEff s) := by
  unfold evringWriteEff
  repeat' first
    | with_reducible assumption
    | with_reducible apply State.setPath_keeps
    | with_reducible apply ringPut_keeps
    | (simp only [↓Keeps.mk_eq]; with_reducible refine KeepsMk.of ?_ rfl rfl rfl rfl rfl rfl rfl rfl rfl rfl rfl rfl rfl rfl rfl rfl rfl)
    | split

theorem sendOn_keeps {r₀ : State} (s : State) (p : Nat) (r : Rec) (pseq : Nat) (h : Keeps r₀ s) :
    Keeps r₀ (sendOn s p r pseq) := by
  unfold sendOn
  repeat' first
    | with_reducible assumption
    | with_reducible apply State.emit_keeps
    | with_reducible apply sendLoose_keeps
    | with_reducible apply ringPut_keeps
    | with_reducible refine Keeps.ite (fun _ => ?_) (fun _ => ?_)

theorem dropSummaryEff_keeps {r : State} (p : Nat) (s : State) (h : Keeps r s) :
    Keeps r (dropSummaryEff p s) := by
  unfold dropSummaryEff
  repeat' first
    | with_reducible assumption
    | with_reducible apply State.setPath_keeps
    | with_reducible apply sendOn_keeps
    | (simp only [↓Keeps.mk_eq]; with_reducible refine KeepsMk.of ?_ rfl rfl rfl rfl rfl rfl rfl rfl rfl rfl rfl rfl rfl rfl rfl rfl rfl)

theorem stopReachedEff_keeps {r : State} (s : State) (h : Keeps r s) :
    Keeps r (stopReachedEff s) := by
  unfold stopReachedEff
  repeat' first
    | with_reducible assumption
    | with_reducible apply raiseAt_keeps
    | with_reducible apply raise_keeps
    | with_reducible apply settleRest_keeps
    | with_reducible refine Keeps.ite (fun _ => ?_) (fun _ => ?_)
    | (simp only [↓Keeps.mk_eq]; with_reducible refine KeepsMk.of ?_ rfl rfl rfl rfl rfl rfl rfl rfl rfl rfl rfl rfl rfl rfl rfl rfl rfl)
    | (simp only [↓Keeps.mk_eq]; with_reducible refine KeepsMk.ofLegal ?_ rfl rfl rfl rfl rfl ?_)
    | (refine fun l => ⟨?_, ?_, ?_, ?_, ?_, ?_, ?_, ?_, ?_, ?_, ?_, ?_, ?_, ?_⟩ <;> first | with_reducible first | exact l.stop | exact l.grid | exact l.twin | exact l.kind | exact l.phase | exact l.chronMode | exact l.chronState | exact l.stage | exact l.lastReset | exact l.thermal | exact l.limLow | exact l.limHigh | exact l.spdm | exact l.grade | (dsimp only; omega) | (dsimp only; split <;> first | omega | exact l.stop | exact l.grid | exact l.twin | exact l.kind | exact l.phase | exact l.chronMode | exact l.chronState | exact l.stage | exact l.lastReset | exact l.thermal | exact l.limLow | exact l.limHigh | exact l.spdm | exact l.grade))
    | with_reducible refine Keeps.of_fst (by assumption) ?_
    | split

theorem releaseStop_keeps {r : State} (s : State) (h : Keeps r s) :
    Keeps r (releaseStop s) := by
  unfold releaseStop
  repeat' first
    | with_reducible assumption
    | (simp only [↓Keeps.mk_eq]; with_reducible refine KeepsMk.of ?_ rfl rfl rfl rfl rfl rfl rfl rfl rfl rfl rfl rfl rfl rfl rfl rfl rfl)
    | (simp only [↓Keeps.mk_eq]; with_reducible refine KeepsMk.ofLegal ?_ rfl rfl rfl rfl rfl ?_)
    | (refine fun l => ⟨?_, ?_, ?_, ?_, ?_, ?_, ?_, ?_, ?_, ?_, ?_, ?_, ?_, ?_⟩ <;> first | with_reducible first | exact l.stop | exact l.grid | exact l.twin | exact l.kind | exact l.phase | exact l.chronMode | exact l.chronState | exact l.stage | exact l.lastReset | exact l.thermal | exact l.limLow | exact l.limHigh | exact l.spdm | exact l.grade | (dsimp only; omega) | (dsimp only; split <;> first | omega | exact l.stop | exact l.grid | exact l.twin | exact l.kind | exact l.phase | exact l.chronMode | exact l.chronState | exact l.stage | exact l.lastReset | exact l.thermal | exact l.limLow | exact l.limHigh | exact l.spdm | exact l.grade))

theorem sendFrame_keeps {r : State} (count kind : Nat) (s : State) (body : Bytes) (h : Keeps r s) :
    Keeps r (sendFrame count kind s body) := by
  unfold sendFrame
  repeat' first
    | with_reducible assumption
    | with_reducible apply State.emit_keeps
    | (simp only [↓Keeps.mk_eq]; with_reducible refine KeepsMk.of ?_ rfl rfl rfl rfl rfl rfl rfl rfl rfl rfl rfl rfl rfl rfl rfl rfl rfl)

theorem scanFrames_keeps {r : State} (l o units : Nat) (s : State) (h : Keeps r s) :
    Keeps r (scanFrames l o units s) := by
  unfold scanFrames
  repeat' first
    | with_reducible assumption
    | with_reducible apply State.bump_keeps
    | with_reducible apply sendFrame_keeps
    | with_reducible apply Keeps.foldl
    | with_reducible apply Keeps.foldl_fst
    | (simp only [↓Keeps.mk_eq]; with_reducible refine KeepsMk.of ?_ rfl rfl rfl rfl rfl rfl rfl rfl rfl rfl rfl rfl rfl rfl rfl rfl rfl)
    | intro _ _ _

theorem acceptReplay_keeps {r : State} (s : State) (f q : Nat) (d : Bytes) (h : Keeps r s) :
    Keeps r (acceptReplay s f q d).1 := by
  unfold acceptReplay
  repeat' first
    | with_reducible assumption
    | with_reducible apply State.setCq_keeps
    | (simp only [↓Keeps.mk_eq]; with_reducible refine KeepsMk.of ?_ rfl rfl rfl rfl rfl rfl rfl rfl rfl rfl rfl rfl rfl rfl rfl rfl rfl)

theorem replayAcceptEff_keeps {r : State} (f q : Nat) (d : Bytes) (x : ReplayRec) (s : State) (h : Keeps r s) :
    Keeps r (replayAcceptEff f q d x s) := by
  unfold replayAcceptEff
  repeat' first
    | with_reducible assumption
    | with_reducible apply refuse_keeps
    | with_reducible apply noteAccept_keeps
    | with_reducible apply acceptReplay_keeps
    | with_reducible refine Keeps.ite (fun _ => ?_) (fun _ => ?_)
    | (simp only [↓Keeps.mk_eq]; with_reducible refine KeepsMk.of ?_ rfl rfl rfl rfl rfl rfl rfl rfl rfl rfl rfl rfl rfl rfl rfl rfl rfl)

end Sys2Proof.Machine
end

