-- ==== Sys2Proof/Laws/KeepsPower.lean ====
section
/-!
SUPPORT. What each operation of Machine/Power.lean keeps.
-/

namespace Sys2Proof.Machine

theorem gaspNow_keeps {r : State} (s : State) (cause : Nat) (h : Keeps r s) :
    Keeps r (gaspNow s cause) := by
  unfold gaspNow
  repeat' first
    | with_reducible assumption
    | with_reducible apply State.emit_keeps
    | with_reducible apply Keeps.foldl
    | with_reducible apply Keeps.foldl_fst
    | with_reducible apply Keeps.iter
    | (simp only [↓Keeps.mk_eq]; with_reducible refine KeepsMk.of ?_ rfl rfl rfl rfl rfl rfl rfl rfl rfl rfl rfl rfl rfl rfl rfl rfl rfl)
    | intro _ _ _
    | intro _ _

theorem wiped_keeps {r : State} (s : State) (h : Keeps r s) : Keeps r (wiped s) := by
  unfold wiped
  exact Keeps.updLegal h rfl rfl rfl rfl rfl fun l =>
    ⟨by simp [State.reset], by simp [State.reset], by simp [State.reset], by simp [State.reset], by simp [State.reset], by simp,
     by simp, l.stage, l.lastReset, l.thermal, l.limLow, l.limHigh, by simp [State.reset], l.grade⟩

theorem dropInstall_keeps {r : State} (s : State) (h : Keeps r s) :
    Keeps r (dropInstall s) := by
  unfold dropInstall
  repeat' first
    | with_reducible assumption
    | with_reducible apply State.eachAw_keeps
    | with_reducible refine Keeps.ite (fun _ => ?_) (fun _ => ?_)

/-- A new record of the power and boot logic whose mode fields are legal. -/
theorem Keeps.power {r t : State} (h : Keeps r t) (p : Power) (h1 : p.stage ≤ 7) (h2 : p.lastReset ≤ 7) (h3 : p.thermal ≤ 2)
    (h4 : 900 ≤ p.effLimit) (h5 : p.effLimit ≤ 1800) : Keeps r { t with power := p } :=
  Keeps.updLegal h rfl rfl rfl rfl rfl fun l =>
    ⟨l.stop, l.grid, l.twin, l.kind, l.phase, l.chronMode, l.chronState, h1, h2, h3, h4, h5, l.spdm, l.grade⟩

theorem deviceReset_keeps {r : State} (s : State) (cause : Nat) (hc : cause ≤ 7) (h : Keeps r s) :
    Keeps r (deviceReset s cause) := by
  unfold deviceReset
  refine Keeps.ite (fun _ => h) (fun _ => ?_)
  extract_lets s1 p s2
  have h1 : Keeps r s1 := Keeps.ite (fun _ => gaspNow_keeps _ _ h) (fun _ => h)
  have h2 : Keeps r s2 :=
    dropInstall_keeps _ (wiped_keeps _ (Keeps.foldl (fun _ _ hs => releaseSets_keeps _ _ hs) _ h1))
  clear_value s1 s2 p
  exact Keeps.power h2 _ (Nat.zero_le _) hc (Nat.zero_le _) (by simp) (by simp)

theorem coldReset_keeps {r : State} (s : State) (h : Keeps r s) : Keeps r (coldReset s) := by
  have h1 : Keeps r ((wiped s).eachAw AwDieSt.off) := State.eachAw_keeps _ _ (wiped_keeps _ h)
  have hl : s.Legal → (if s.power.aonFell then 0 else s.power.lastReset) ≤ 7 := by
    intro l
    split
    · simp
    · exact l.lastReset
  refine ⟨h1.pending, h1.factory, fun l => ?_⟩
  have k := h1.legal l
  exact ⟨k.stop, k.grid, k.twin, k.kind, k.phase, by simp [coldReset], by simp [coldReset], by simp [coldReset],
    hl (h.legal l), by simp [coldReset], by simp [coldReset], by simp [coldReset], k.spdm, k.grade⟩

theorem devResetEff_keeps {r : State} (v : W32) (s : State) (h : Keeps r s) :
    Keeps r (devResetEff v s) := by
  unfold devResetEff
  repeat' first
    | with_reducible assumption
    | with_reducible apply deviceReset_keeps
    | with_reducible refine Keeps.ite (fun _ => ?_) (fun _ => ?_)
    | (simp only [↓Keeps.mk_eq]; with_reducible refine KeepsMk.of ?_ rfl rfl rfl rfl rfl rfl rfl rfl rfl rfl rfl rfl rfl rfl rfl rfl rfl)
    | split
    | dsimp only
    | omega

/-- The configured limit lies within the bounds of R549. -/
theorem configured_bounds (p : Power) : 900 ≤ p.configured ∧ p.configured ≤ 1800 := by
  unfold Power.configured
  omega

/-- What a die's heat allows of a limit is no more than it and no less than 900 W (R553). -/
theorem allowed_bounds (s : State) (pkg d : Nat) (t : Int) (h : 900 ≤ pkg) :
    900 ≤ allowed s pkg d t ∧ allowed s pkg d t ≤ pkg := by
  simp only [allowed]
  split
  · omega
  · split
    · omega
    · rename_i h1 h2
      have hp : 0 < ((s.heat d).2.1 - (s.heat d).1).toNat := by omega
      have hx : (t - (s.heat d).1).toNat ≤ ((s.heat d).2.1 - (s.heat d).1).toNat := by omega
      have hq : (pkg - 900) * (t - (s.heat d).1).toNat / ((s.heat d).2.1 - (s.heat d).1).toNat ≤ pkg - 900 :=
        (Nat.div_le_div_right (Nat.mul_le_mul_left _ hx)).trans (Nat.mul_div_cancel _ hp).le
      have hl := Nat.sub_le_sub_left hq pkg
      rw [Nat.sub_sub_self h] at hl
      exact ⟨hl, Nat.sub_le _ _⟩

/-- The limit in force lies within the bounds of R549. -/
theorem limitNow_bounds (s : State) (p : Power) : 900 ≤ s.limitNow p ∧ s.limitNow p ≤ 1800 := by
  unfold State.limitNow
  have hc := configured_bounds p
  suffices h : ∀ (l : List (Nat × Int)) (m : Nat), 900 ≤ m → m ≤ 1800 →
      900 ≤ l.foldl (fun m e => min m (allowed s p.configured e.1 e.2)) m ∧
        l.foldl (fun m e => min m (allowed s p.configured e.1 e.2)) m ≤ 1800 from h _ _ hc.1 hc.2
  intro l
  induction l with
  | nil => exact fun m h1 h2 => ⟨h1, h2⟩
  | cons e l ih =>
    intro m h1 h2
    have := allowed_bounds s p.configured e.1 e.2 hc.1
    exact ih _ (le_min h1 this.1) ((min_le_left _ _).trans h2)

theorem pkgLimitEff_keeps {r : State} (v : W32) (s : State) (h : Keeps r s) : Keeps r (pkgLimitEff v s) :=
  Keeps.updLegal h rfl rfl rfl rfl rfl fun l =>
    ⟨l.stop, l.grid, l.twin, l.kind, l.phase, l.chronMode, l.chronState, l.stage, l.lastReset, l.thermal,
     (limitNow_bounds _ _).1, (limitNow_bounds _ _).2, l.spdm, l.grade⟩

theorem writeCopy_keeps {r : State} (t : TableSet) (s : State) (h : Keeps r s) :
    Keeps r (writeCopy t s) :=
  Keeps.upd h rfl rfl rfl rfl rfl rfl rfl rfl rfl rfl rfl rfl rfl rfl rfl rfl rfl

theorem setRail_keeps {r₀ : State} (s : State) (r : Rail) (on : Bool) (h : Keeps r₀ s) :
    Keeps r₀ (setRail s r on) := by
  unfold setRail
  repeat' first
    | with_reducible assumption
    | with_reducible apply State.emit_keeps
    | with_reducible refine Keeps.ite (fun _ => ?_) (fun _ => ?_)
    | (simp only [↓Keeps.mk_eq]; with_reducible refine KeepsMk.of ?_ rfl rfl rfl rfl rfl rfl rfl rfl rfl rfl rfl rfl rfl rfl rfl rfl rfl)
    | (simp only [↓Keeps.mk_eq]; with_reducible refine KeepsMk.ofLegal ?_ rfl rfl rfl rfl rfl ?_)
    | (refine fun l => ⟨?_, ?_, ?_, ?_, ?_, ?_, ?_, ?_, ?_, ?_, ?_, ?_, ?_, ?_⟩ <;> first | with_reducible first | exact l.stop | exact l.grid | exact l.twin | exact l.kind | exact l.phase | exact l.chronMode | exact l.chronState | exact l.stage | exact l.lastReset | exact l.thermal | exact l.limLow | exact l.limHigh | exact l.spdm | exact l.grade | (dsimp only; omega) | (dsimp only; split <;> first | omega | exact l.stop | exact l.grid | exact l.twin | exact l.kind | exact l.phase | exact l.chronMode | exact l.chronState | exact l.stage | exact l.lastReset | exact l.thermal | exact l.limLow | exact l.limHigh | exact l.spdm | exact l.grade))

theorem setGood_keeps {r₀ : State} (s : State) (r : Rail) (on : Bool) (h : Keeps r₀ s) :
    Keeps r₀ (setGood s r on) := by
  unfold setGood
  repeat' first
    | with_reducible assumption
    | (simp only [↓Keeps.mk_eq]; with_reducible refine KeepsMk.of ?_ rfl rfl rfl rfl rfl rfl rfl rfl rfl rfl rfl rfl rfl rfl rfl rfl rfl)
    | split

theorem lowerNext_keeps {r : State} (s : State) (h : Keeps r s) :
    Keeps r (lowerNext s) := by
  unfold lowerNext
  repeat' first
    | with_reducible assumption
    | with_reducible apply State.eachAw_keeps
    | with_reducible apply wiped_keeps
    | with_reducible apply dropInstall_keeps
    | with_reducible apply setRail_keeps
    | with_reducible apply Keeps.foldl
    | with_reducible apply Keeps.foldl_fst
    | with_reducible refine Keeps.ite (fun _ => ?_) (fun _ => ?_)
    | (simp only [↓Keeps.mk_eq]; with_reducible refine KeepsMk.of ?_ rfl rfl rfl rfl rfl rfl rfl rfl rfl rfl rfl rfl rfl rfl rfl rfl rfl)
    | intro _ _ _
    | split

theorem powerDown_keeps {r : State} (s : State) (gasp cause : Nat) (hc : cause ≤ 7) (h : Keeps r s) :
    Keeps r (powerDown s gasp cause) := by
  unfold powerDown
  split
  · exact h
  · have h1 : Keeps r (if s.power.gasped then s else gaspNow s gasp) := by
      split
      · exact h
      · exact gaspNow_keeps _ _ h
    apply lowerNext_keeps
    exact Keeps.updLegal h1 rfl rfl rfl rfl rfl fun l => { l with stage := by simp, lastReset := hc }

theorem powerFail_keeps {r : State} (s : State) (h : Keeps r s) :
    Keeps r (powerFail s) := by
  unfold powerFail
  repeat' first
    | with_reducible assumption
    | with_reducible apply raise_keeps
    | with_reducible apply gaspNow_keeps
    | with_reducible apply powerDown_keeps
    | with_reducible refine Keeps.ite (fun _ => ?_) (fun _ => ?_)
    | (simp only [↓Keeps.mk_eq]; with_reducible refine KeepsMk.of ?_ rfl rfl rfl rfl rfl rfl rfl rfl rfl rfl rfl rfl rfl rfl rfl rfl rfl)
    | split
    | dsimp only
    | omega

theorem loseInstall_keeps {r : State} (s : State) (h : Keeps r s) :
    Keeps r (loseInstall s) := by
  unfold loseInstall
  repeat' first
    | with_reducible assumption
    | with_reducible apply failLoad_keeps
    | (simp only [↓Keeps.mk_eq]; with_reducible refine KeepsMk.of ?_ rfl rfl rfl rfl rfl rfl rfl rfl rfl rfl rfl rfl rfl rfl rfl rfl rfl)
    | split

theorem awRailFault_keeps {r : State} (d : Nat) (s : State) (h : Keeps r s) :
    Keeps r (awRailFault d s) := by
  unfold awRailFault
  repeat' first
    | with_reducible assumption
    | with_reducible apply State.setAw_keeps
    | with_reducible apply raise_keeps
    | with_reducible apply deviceFault_keeps
    | with_reducible apply loseInstall_keeps
    | with_reducible refine Keeps.ite (fun _ => ?_) (fun _ => ?_)
    | (simp only [↓Keeps.mk_eq]; with_reducible refine KeepsMk.of ?_ rfl rfl rfl rfl rfl rfl rfl rfl rfl rfl rfl rfl rfl rfl rfl rfl rfl)

theorem groupFault_keeps {r : State} (l : W64) (s : State) (h : Keeps r s) :
    Keeps r (groupFault l s) := by
  unfold groupFault
  repeat' first
    | with_reducible assumption
    | with_reducible apply raise_keeps
    | with_reducible apply powerDown_keeps
    | split
    | dsimp only
    | omega

theorem railFault_keeps {r₀ : State} (r : Rail) (s : State) (h : Keeps r₀ s) :
    Keeps r₀ (railFault r s) := by
  unfold railFault
  repeat' first
    | with_reducible assumption
    | with_reducible apply awRailFault_keeps
    | with_reducible apply groupFault_keeps
    | (simp only [↓Keeps.mk_eq]; with_reducible refine KeepsMk.of ?_ rfl rfl rfl rfl rfl rfl rfl rfl rfl rfl rfl rfl rfl rfl rfl rfl rfl)
    | with_reducible refine Keeps.of_fst (by assumption) ?_
    | split

theorem awReadyEff_keeps {r : State} (d : Nat) (s : State) (h : Keeps r s) :
    Keeps r (awReadyEff d s) := by
  unfold awReadyEff
  repeat' first
    | with_reducible assumption
    | with_reducible apply State.setAw_keeps
    | with_reducible apply bootReady_keeps
    | with_reducible apply tick_keeps
    | with_reducible refine Keeps.ite (fun _ => ?_) (fun _ => ?_)
    | (simp only [↓Keeps.mk_eq]; with_reducible refine KeepsMk.of ?_ rfl rfl rfl rfl rfl rfl rfl rfl rfl rfl rfl rfl rfl rfl rfl rfl rfl)

theorem dropGoods_keeps {r : State} (d : AwDie) (s : State) (h : Keeps r s) :
    Keeps r (dropGoods d s) := by
  unfold dropGoods
  repeat' first
    | with_reducible assumption
    | with_reducible apply setGood_keeps
    | with_reducible apply Keeps.foldl
    | with_reducible apply Keeps.foldl_fst
    | (simp only [↓Keeps.mk_eq]; with_reducible refine KeepsMk.of ?_ rfl rfl rfl rfl rfl rfl rfl rfl rfl rfl rfl rfl rfl rfl rfl rfl rfl)
    | intro _ _ _

theorem recovery_keeps {r : State} (s : State) (h : Keeps r s) :
    Keeps r (recovery s) := by
  unfold recovery
  repeat' first
    | with_reducible assumption
    | (simp only [↓Keeps.mk_eq]; with_reducible refine KeepsMk.of ?_ rfl rfl rfl rfl rfl rfl rfl rfl rfl rfl rfl rfl rfl rfl rfl rfl rfl)
    | (simp only [↓Keeps.mk_eq]; with_reducible refine KeepsMk.ofLegal ?_ rfl rfl rfl rfl rfl ?_)
    | (refine fun l => ⟨?_, ?_, ?_, ?_, ?_, ?_, ?_, ?_, ?_, ?_, ?_, ?_, ?_, ?_⟩ <;> first | with_reducible first | exact l.stop | exact l.grid | exact l.twin | exact l.kind | exact l.phase | exact l.chronMode | exact l.chronState | exact l.stage | exact l.lastReset | exact l.thermal | exact l.limLow | exact l.limHigh | exact l.spdm | exact l.grade | (dsimp only; omega) | (dsimp only; split <;> first | omega | exact l.stop | exact l.grid | exact l.twin | exact l.kind | exact l.phase | exact l.chronMode | exact l.chronState | exact l.stage | exact l.lastReset | exact l.thermal | exact l.limLow | exact l.limHigh | exact l.spdm | exact l.grade))

theorem enterStage_keeps {r : State} (s : State) (n : Nat) (hn : n ≤ 7) (h : Keeps r s) : Keeps r (enterStage s n) := by
  unfold enterStage
  exact Keeps.updLegal h rfl rfl rfl rfl rfl fun l => { l with stage := hn }

theorem tablesDone_keeps {r : State} (s : State) (h : Keeps r s) :
    Keeps r (tablesDone s) := by
  unfold tablesDone
  repeat' first
    | with_reducible assumption
    | with_reducible apply State.setPort_keeps
    | with_reducible apply recovery_keeps
    | with_reducible apply enterStage_keeps
    | with_reducible apply Keeps.foldl
    | with_reducible apply Keeps.foldl_fst
    | (simp only [↓Keeps.mk_eq]; with_reducible refine KeepsMk.of ?_ rfl rfl rfl rfl rfl rfl rfl rfl rfl rfl rfl rfl rfl rfl rfl rfl rfl)
    | (simp only [↓Keeps.mk_eq]; with_reducible refine KeepsMk.ofLegal ?_ rfl rfl rfl rfl rfl ?_)
    | (refine fun l => ⟨?_, ?_, ?_, ?_, ?_, ?_, ?_, ?_, ?_, ?_, ?_, ?_, ?_, ?_⟩ <;> first | with_reducible first | exact l.stop | exact l.grid | exact l.twin | exact l.kind | exact l.phase | exact l.chronMode | exact l.chronState | exact l.stage | exact l.lastReset | exact l.thermal | exact l.limLow | exact l.limHigh | exact l.spdm | exact l.grade | (dsimp only; omega) | (dsimp only; split <;> first | omega | exact l.stop | exact l.grid | exact l.twin | exact l.kind | exact l.phase | exact l.chronMode | exact l.chronState | exact l.stage | exact l.lastReset | exact l.thermal | exact l.limLow | exact l.limHigh | exact l.spdm | exact l.grade))
    | intro _ _ _
    | intro _ _
    | with_reducible refine Keeps.of_fst (by assumption) ?_
    | split
    | dsimp only
    | omega

theorem hostReady_keeps {r : State} (s : State) (h : Keeps r s) :
    Keeps r (hostReady s) := by
  unfold hostReady
  repeat' first
    | with_reducible assumption
    | with_reducible apply State.setPort_keeps
    | with_reducible apply bootReady_keeps
    | with_reducible apply enterStage_keeps
    | with_reducible apply Keeps.foldl
    | with_reducible apply Keeps.foldl_fst
    | with_reducible refine Keeps.ite (fun _ => ?_) (fun _ => ?_)
    | (simp only [↓Keeps.mk_eq]; with_reducible refine KeepsMk.of ?_ rfl rfl rfl rfl rfl rfl rfl rfl rfl rfl rfl rfl rfl rfl rfl rfl rfl)
    | (simp only [↓Keeps.mk_eq]; with_reducible refine KeepsMk.ofLegal ?_ rfl rfl rfl rfl rfl ?_)
    | (refine fun l => ⟨?_, ?_, ?_, ?_, ?_, ?_, ?_, ?_, ?_, ?_, ?_, ?_, ?_, ?_⟩ <;> first | with_reducible first | exact l.stop | exact l.grid | exact l.twin | exact l.kind | exact l.phase | exact l.chronMode | exact l.chronState | exact l.stage | exact l.lastReset | exact l.thermal | exact l.limLow | exact l.limHigh | exact l.spdm | exact l.grade | (dsimp only; omega) | (dsimp only; split <;> first | omega | exact l.stop | exact l.grid | exact l.twin | exact l.kind | exact l.phase | exact l.chronMode | exact l.chronState | exact l.stage | exact l.lastReset | exact l.thermal | exact l.limLow | exact l.limHigh | exact l.spdm | exact l.grade))
    | intro _ _ _
    | intro _ _
    | split
    | dsimp only
    | omega

theorem coreOrStacks_keeps {r : State} (stage : Nat) (ok : Bool) (k : Fin 8) (s : State) (h : Keeps r s) :
    Keeps r (coreOrStacks stage ok k s) := by
  unfold coreOrStacks
  repeat' first
    | with_reducible assumption
    | with_reducible apply raise_keeps
    | with_reducible apply recovery_keeps
    | with_reducible apply hostReady_keeps
    | with_reducible refine Keeps.ite (fun _ => ?_) (fun _ => ?_)
    | (simp only [↓Keeps.mk_eq]; with_reducible refine KeepsMk.of ?_ rfl rfl rfl rfl rfl rfl rfl rfl rfl rfl rfl rfl rfl rfl rfl rfl rfl)
    | split

theorem stageEndEff_keeps {r : State} (stage : Nat) (ok : Bool) (k : Fin 8) (s : State) (h : Keeps r s) :
    Keeps r (stageEndEff stage ok k s) := by
  unfold stageEndEff
  repeat' first
    | with_reducible assumption
    | with_reducible apply setRail_keeps
    | with_reducible apply recovery_keeps
    | with_reducible apply enterStage_keeps
    | with_reducible apply tablesDone_keeps
    | with_reducible apply coreOrStacks_keeps
    | with_reducible refine Keeps.ite (fun _ => ?_) (fun _ => ?_)
    | (simp only [↓Keeps.mk_eq]; with_reducible refine KeepsMk.of ?_ rfl rfl rfl rfl rfl rfl rfl rfl rfl rfl rfl rfl rfl rfl rfl rfl rfl)
    | (simp only [↓Keeps.mk_eq]; with_reducible refine KeepsMk.ofLegal ?_ rfl rfl rfl rfl rfl ?_)
    | (refine fun l => ⟨?_, ?_, ?_, ?_, ?_, ?_, ?_, ?_, ?_, ?_, ?_, ?_, ?_, ?_⟩ <;> first | with_reducible first | exact l.stop | exact l.grid | exact l.twin | exact l.kind | exact l.phase | exact l.chronMode | exact l.chronState | exact l.stage | exact l.lastReset | exact l.thermal | exact l.limLow | exact l.limHigh | exact l.spdm | exact l.grade | (dsimp only; omega) | (dsimp only; split <;> first | omega | exact l.stop | exact l.grid | exact l.twin | exact l.kind | exact l.phase | exact l.chronMode | exact l.chronState | exact l.stage | exact l.lastReset | exact l.thermal | exact l.limLow | exact l.limHigh | exact l.spdm | exact l.grade))
    | with_reducible refine Keeps.of_fst (by assumption) ?_
    | split
    | dsimp only
    | omega

theorem thermalEff_keeps {r : State} (t : Temps) (s : State) (h : Keeps r s) :
    Keeps r (thermalEff t s) := by
  unfold thermalEff
  extract_lets p warm full cool hot site temp p' s1 s2
  have h1 : Keeps r s1 := Keeps.updLegal h rfl rfl rfl rfl rfl fun l =>
    ⟨l.stop, l.grid, l.twin, l.kind, l.phase, l.chronMode, l.chronState, l.stage, l.lastReset,
     by show (if full then 2 else if warm then 1 else 0) ≤ 2; split <;> [omega; (split <;> omega)],
     (limitNow_bounds _ _).1, (limitNow_bounds _ _).2, l.spdm, l.grade⟩
  have h2 : Keeps r s2 := Keeps.ite (fun _ => raise_keeps _ _ _ _ _ _ _ h1) (fun _ => h1)
  split
  · exact powerDown_keeps _ _ _ (by omega) (raise_keeps _ _ _ _ _ _ _ h2)
  · exact h2

end Sys2Proof.Machine
end

