-- ==== Sys2Proof/Laws/KeepsRegisters.lean ====
section
/-!
SUPPORT. What each operation of Machine/Registers.lean keeps.
-/

namespace Sys2Proof.Machine

theorem setCount_keeps {r : State} (n : Nat) (s : State) (h : Keeps r s) :
    Keeps r (setCount n s) := by
  unfold setCount
  repeat' first
    | with_reducible assumption
    | with_reducible refine Keeps.ite (fun _ => ?_) (fun _ => ?_)
    | (simp only [↓Keeps.mk_eq]; with_reducible refine KeepsMk.of ?_ rfl rfl rfl rfl rfl rfl rfl rfl rfl rfl rfl rfl rfl rfl rfl rfl rfl)

theorem timeSetEff_keeps {r : State} (offset width : Nat) (value : W64) (s : State) (h : Keeps r s) :
    Keeps r (timeSetEff offset width value s) := by
  unfold timeSetEff
  repeat' first
    | with_reducible assumption
    | with_reducible apply setCount_keeps
    | with_reducible refine Keeps.ite (fun _ => ?_) (fun _ => ?_)
    | (simp only [↓Keeps.mk_eq]; with_reducible refine KeepsMk.of ?_ rfl rfl rfl rfl rfl rfl rfl rfl rfl rfl rfl rfl rfl rfl rfl rfl rfl)

theorem timeCtrlEff_keeps {r : State} (v : W64) (s : State) (h : Keeps r s) : Keeps r (timeCtrlEff v s) := by
  have hm : fieldNat v.toNat 1 0 ≤ 3 := Nat.le_of_lt_succ (Nat.mod_lt _ (by decide))
  exact Keeps.updLegal h rfl rfl rfl rfl rfl fun l =>
    ⟨l.stop, l.grid, l.twin, l.kind, l.phase, hm, (by simp), l.stage, l.lastReset, l.thermal, l.limLow, l.limHigh, l.spdm, l.grade⟩

theorem commitEff_keeps {r : State} (t : Nat) (s : State) (h : Keeps r s) :
    Keeps r (commitEff t s) := by
  unfold commitEff
  repeat' first
    | with_reducible assumption
    | with_reducible apply State.setTable_keeps
    | with_reducible apply commitNow_keeps
    | with_reducible refine Keeps.ite (fun _ => ?_) (fun _ => ?_)

theorem ignoreWrite_keeps {r : State} (s : State) (h : Keeps r s) :
    Keeps r (ignoreWrite s) := by
  unfold ignoreWrite
  repeat' first
    | with_reducible assumption
    | with_reducible apply State.noteSet_keeps
    | (simp only [↓Keeps.mk_eq]; with_reducible refine KeepsMk.of ?_ rfl rfl rfl rfl rfl rfl rfl rfl rfl rfl rfl rfl rfl rfl rfl rfl rfl)

theorem writeShadow_keeps {r : State} (s : State) (t k : Nat) (v : W64) (h : Keeps r s) :
    Keeps r (writeShadow s t k v) := by
  unfold writeShadow
  repeat' first
    | with_reducible assumption
    | with_reducible apply State.setTable_keeps

theorem writeActive_keeps {r : State} (s : State) (t k : Nat) (v : W64) (h : Keeps r s) :
    Keeps r (writeActive s t k v) := by
  unfold writeActive
  repeat' first
    | with_reducible assumption
    | with_reducible apply State.setTable_keeps
    | with_reducible refine Keeps.ite (fun _ => ?_) (fun _ => ?_)
    | (simp only [↓Keeps.mk_eq]; with_reducible refine KeepsMk.of ?_ rfl rfl rfl rfl rfl rfl rfl rfl rfl rfl rfl rfl rfl rfl rfl rfl rfl)

theorem tableWrite_keeps {r : State} (live : Bool) (offset width : Nat) (value : W64) (s : State) (h : Keeps r s) :
    Keeps r (tableWrite live offset width value s) := by
  unfold tableWrite
  repeat' first
    | with_reducible assumption
    | with_reducible apply latchClear_keeps
    | with_reducible apply ignoreWrite_keeps
    | with_reducible apply writeShadow_keeps
    | with_reducible apply writeActive_keeps
    | with_reducible refine Keeps.ite (fun _ => ?_) (fun _ => ?_)
    | (simp only [↓Keeps.mk_eq]; with_reducible refine KeepsMk.of ?_ rfl rfl rfl rfl rfl rfl rfl rfl rfl rfl rfl rfl rfl rfl rfl rfl rfl)
    | with_reducible refine Keeps.of_fst (by assumption) ?_
    | split

theorem dropReadEff_keeps {r : State} (offset width : Nat) (s : State) (h : Keeps r s) :
    Keeps r (dropReadEff offset width s) := by
  unfold dropReadEff
  repeat' first
    | with_reducible assumption
    | with_reducible apply State.emit_keeps
    | with_reducible apply Keeps.foldl
    | with_reducible apply Keeps.foldl_fst
    | (simp only [↓Keeps.mk_eq]; with_reducible refine KeepsMk.of ?_ rfl rfl rfl rfl rfl rfl rfl rfl rfl rfl rfl rfl rfl rfl rfl rfl rfl)

theorem memberReadEff_keeps {r : State} (width : Nat) (s : State) (h : Keeps r s) :
    Keeps r (memberReadEff width s) := by
  unfold memberReadEff
  repeat' first
    | with_reducible assumption
    | with_reducible apply State.emit_keeps
    | with_reducible refine Keeps.ite (fun _ => ?_) (fun _ => ?_)
    | (simp only [↓Keeps.mk_eq]; with_reducible refine KeepsMk.of ?_ rfl rfl rfl rfl rfl rfl rfl rfl rfl rfl rfl rfl rfl rfl rfl rfl rfl)

theorem funcReadEff_keeps {r : State} (f offset width : Nat) (s : State) (h : Keeps r s) :
    Keeps r (funcReadEff f offset width s) := by
  unfold funcReadEff
  repeat' first
    | with_reducible assumption
    | with_reducible apply State.setFn_keeps
    | with_reducible apply State.emit_keeps
    | with_reducible refine Keeps.ite (fun _ => ?_) (fun _ => ?_)

theorem snapshot_keeps {r : State} (s : State) (h : Keeps r s) :
    Keeps r (snapshot s) :=
  Keeps.upd h rfl rfl rfl rfl rfl rfl rfl rfl rfl rfl rfl rfl rfl rfl rfl rfl rfl

theorem writeAudit_keeps {r : State} (v : Nat) (s : State) (h : Keeps r s) :
    Keeps r (writeAudit v s) := by
  unfold writeAudit
  repeat' first
    | with_reducible assumption
    | (simp only [↓Keeps.mk_eq]; with_reducible refine KeepsMk.of ?_ rfl rfl rfl rfl rfl rfl rfl rfl rfl rfl rfl rfl rfl rfl rfl rfl rfl)

theorem writeWaitLimit_keeps {r : State} (v : Nat) (s : State) (h : Keeps r s) :
    Keeps r (writeWaitLimit v s) := by
  unfold writeWaitLimit
  repeat' first
    | with_reducible assumption
    | (simp only [↓Keeps.mk_eq]; with_reducible refine KeepsMk.of ?_ rfl rfl rfl rfl rfl rfl rfl rfl rfl rfl rfl rfl rfl rfl rfl rfl rfl)

theorem writeVpkg_keeps {r : State} (v : Nat) (s : State) (h : Keeps r s) :
    Keeps r (writeVpkg v s) :=
  Keeps.upd h rfl rfl rfl rfl rfl rfl rfl rfl rfl rfl rfl rfl rfl rfl rfl rfl rfl

theorem writeTtl_keeps {r : State} (v : Nat) (s : State) (h : Keeps r s) :
    Keeps r (writeTtl v s) := by
  unfold writeTtl
  repeat' first
    | with_reducible assumption
    | (simp only [↓Keeps.mk_eq]; with_reducible refine KeepsMk.of ?_ rfl rfl rfl rfl rfl rfl rfl rfl rfl rfl rfl rfl rfl rfl rfl rfl rfl)

theorem writeCadence_keeps {r : State} (v : Nat) (s : State) (h : Keeps r s) :
    Keeps r (writeCadence v s) :=
  Keeps.upd h rfl rfl rfl rfl rfl rfl rfl rfl rfl rfl rfl rfl rfl rfl rfl rfl rfl

theorem writeFabric_keeps {r : State} (v : Nat) (s : State) (h : Keeps r s) :
    Keeps r (writeFabric v s) := by
  unfold writeFabric
  repeat' first
    | with_reducible assumption
    | (simp only [↓Keeps.mk_eq]; with_reducible refine KeepsMk.of ?_ rfl rfl rfl rfl rfl rfl rfl rfl rfl rfl rfl rfl rfl rfl rfl rfl rfl)

theorem writeGrid_keeps {r : State} (v : Nat) (low : Bool) (s : State) (h : Keeps r s) :
    Keeps r (writeGrid v low s) := by
  unfold writeGrid
  repeat' first
    | with_reducible assumption
    | with_reducible apply floodLevel_keeps
    | with_reducible refine Keeps.ite (fun _ => ?_) (fun _ => ?_)
    | (simp only [↓Keeps.mk_eq]; with_reducible refine KeepsMk.of ?_ rfl rfl rfl rfl rfl rfl rfl rfl rfl rfl rfl rfl rfl rfl rfl rfl rfl)
    | (simp only [↓Keeps.mk_eq]; with_reducible refine KeepsMk.ofLegal ?_ rfl rfl rfl rfl rfl ?_)
    | (refine fun l => ⟨?_, ?_, ?_, ?_, ?_, ?_, ?_, ?_, ?_, ?_, ?_, ?_, ?_, ?_⟩ <;> first | with_reducible first | exact l.stop | exact l.grid | exact l.twin | exact l.kind | exact l.phase | exact l.chronMode | exact l.chronState | exact l.stage | exact l.lastReset | exact l.thermal | exact l.limLow | exact l.limHigh | exact l.spdm | exact l.grade | (dsimp only; omega) | (dsimp only; split <;> first | omega | exact l.stop | exact l.grid | exact l.twin | exact l.kind | exact l.phase | exact l.chronMode | exact l.chronState | exact l.stage | exact l.lastReset | exact l.thermal | exact l.limLow | exact l.limHigh | exact l.spdm | exact l.grade))
    | split

theorem gridCommand_keeps {r : State} (epoch cmd : Nat) (s : State) (h : Keeps r s) :
    Keeps r (gridCommand epoch cmd s) := by
  unfold gridCommand
  repeat' first
    | with_reducible assumption
    | with_reducible apply resumeEff_keeps
    | with_reducible apply withdrawEff_keeps
    | with_reducible refine Keeps.ite (fun _ => ?_) (fun _ => ?_)

theorem writeGridCmd_keeps {r : State} (offset width : Nat) (value : W64) (s : State) (h : Keeps r s) :
    Keeps r (writeGridCmd offset width value s) := by
  unfold writeGridCmd
  repeat' first
    | with_reducible assumption
    | with_reducible apply gridCommand_keeps
    | with_reducible refine Keeps.ite (fun _ => ?_) (fun _ => ?_)
    | (simp only [↓Keeps.mk_eq]; with_reducible refine KeepsMk.of ?_ rfl rfl rfl rfl rfl rfl rfl rfl rfl rfl rfl rfl rfl rfl rfl rfl rfl)

theorem writeTelem_keeps {r : State} (p : Nat) (v : W64) (s : State) (h : Keeps r s) :
    Keeps r (writeTelem p v s) := by
  unfold writeTelem
  repeat' first
    | with_reducible assumption
    | with_reducible apply State.setPath_keeps

theorem writeRingBase_keeps {r : State} (v : W64) (s : State) (h : Keeps r s) :
    Keeps r (writeRingBase v s) := by
  unfold writeRingBase
  repeat' first
    | with_reducible assumption
    | with_reducible refine Keeps.ite (fun _ => ?_) (fun _ => ?_)
    | (simp only [↓Keeps.mk_eq]; with_reducible refine KeepsMk.of ?_ rfl rfl rfl rfl rfl rfl rfl rfl rfl rfl rfl rfl rfl rfl rfl rfl rfl)

theorem writeTrace_keeps {r : State} (v : Nat) (s : State) (h : Keeps r s) :
    Keeps r (writeTrace v s) := by
  unfold writeTrace
  repeat' first
    | with_reducible assumption
    | with_reducible refine Keeps.ite (fun _ => ?_) (fun _ => ?_)
    | (simp only [↓Keeps.mk_eq]; with_reducible refine KeepsMk.of ?_ rfl rfl rfl rfl rfl rfl rfl rfl rfl rfl rfl rfl rfl rfl rfl rfl rfl)

theorem writeStop_keeps {r : State} (v : Nat) (permit : Bool) (s : State) (h : Keeps r s) :
    Keeps r (writeStop v permit s) := by
  unfold writeStop
  repeat' first
    | with_reducible assumption
    | with_reducible apply resumableStop_keeps
    | with_reducible apply releaseStop_keeps
    | with_reducible refine Keeps.ite (fun _ => ?_) (fun _ => ?_)
    | (simp only [↓Keeps.mk_eq]; with_reducible refine KeepsMk.of ?_ rfl rfl rfl rfl rfl rfl rfl rfl rfl rfl rfl rfl rfl rfl rfl rfl rfl)

theorem writeReplay_keeps {r : State} (v : W64) (s : State) (h : Keeps r s) :
    Keeps r (writeReplay v s) := by
  unfold writeReplay
  repeat' first
    | with_reducible assumption
    | with_reducible refine Keeps.ite (fun _ => ?_) (fun _ => ?_)
    | (simp only [↓Keeps.mk_eq]; with_reducible refine KeepsMk.of ?_ rfl rfl rfl rfl rfl rfl rfl rfl rfl rfl rfl rfl rfl rfl rfl rfl rfl)

theorem writeWin_keeps {r : State} (v : Nat) (s : State) (h : Keeps r s) :
    Keeps r (writeWin v s) :=
  Keeps.upd h rfl rfl rfl rfl rfl rfl rfl rfl rfl rfl rfl rfl rfl rfl rfl rfl rfl

theorem writeWinStatus_keeps {r : State} (v : Nat) (s : State) (h : Keeps r s) :
    Keeps r (writeWinStatus v s) := by
  unfold writeWinStatus
  repeat' first
    | with_reducible assumption
    | with_reducible refine Keeps.ite (fun _ => ?_) (fun _ => ?_)
    | (simp only [↓Keeps.mk_eq]; with_reducible refine KeepsMk.of ?_ rfl rfl rfl rfl rfl rfl rfl rfl rfl rfl rfl rfl rfl rfl rfl rfl rfl)

theorem writeWord_keeps {r : State} (b : Nat) (low : Bool) (v : W64) (s : State) (h : Keeps r s) :
    Keeps r (writeWord b low v s) := by
  unfold writeWord
  repeat' first
    | with_reducible assumption
    | with_reducible apply timeCtrlEff_keeps
    | with_reducible apply writeAudit_keeps
    | with_reducible apply writeWaitLimit_keeps
    | with_reducible apply writeVpkg_keeps
    | with_reducible apply writeTtl_keeps
    | with_reducible apply writeCadence_keeps
    | with_reducible apply writeFabric_keeps
    | with_reducible apply writeGrid_keeps
    | with_reducible apply writeTelem_keeps
    | with_reducible apply writeRingBase_keeps
    | with_reducible apply writeTrace_keeps
    | with_reducible apply writeReplay_keeps
    | with_reducible apply writeWin_keeps
    | with_reducible refine Keeps.ite (fun _ => ?_) (fun _ => ?_)
    | (simp only [↓Keeps.mk_eq]; with_reducible refine KeepsMk.of ?_ rfl rfl rfl rfl rfl rfl rfl rfl rfl rfl rfl rfl rfl rfl rfl rfl rfl)

theorem writeBits_keeps {r : State} (b : Nat) (v : W64) (s : State) (h : Keeps r s) :
    Keeps r (writeBits b v s) := by
  unfold writeBits
  repeat' first
    | with_reducible assumption
    | with_reducible apply commitEff_keeps
    | with_reducible apply snapshot_keeps
    | with_reducible apply writeWinStatus_keeps
    | with_reducible refine Keeps.ite (fun _ => ?_) (fun _ => ?_)

theorem globalWrite_keeps {r : State} (offset width : Nat) (value : W64) (s : State) (h : Keeps r s) :
    Keeps r (globalWrite offset width value s) := by
  unfold globalWrite
  repeat' first
    | with_reducible assumption
    | with_reducible apply linkCtrlWrite_keeps
    | with_reducible apply devResetEff_keeps
    | with_reducible apply pkgLimitEff_keeps
    | with_reducible apply timeSetEff_keeps
    | with_reducible apply writeGridCmd_keeps
    | with_reducible apply writeStop_keeps
    | with_reducible apply writeWord_keeps
    | with_reducible apply writeBits_keeps
    | with_reducible refine Keeps.ite (fun _ => ?_) (fun _ => ?_)
    | split

theorem mctpWrite_keeps {r : State} (offset width : Nat) (value : W64) (s : State) (h : Keeps r s) :
    Keeps r (mctpWrite offset width value s) := by
  unfold mctpWrite
  repeat' first
    | with_reducible assumption
    | with_reducible apply tableWrite_keeps
    | with_reducible apply writeStop_keeps
    | with_reducible apply globalWrite_keeps
    | with_reducible refine Keeps.ite (fun _ => ?_) (fun _ => ?_)

theorem mctpRead_keeps {r : State} (offset width : Nat) (s : State) (h : Keeps r s) :
    Keeps r (mctpRead offset width s) := by
  unfold mctpRead
  repeat' first
    | with_reducible assumption
    | with_reducible apply State.emit_keeps
    | with_reducible apply memberReadEff_keeps
    | with_reducible refine Keeps.ite (fun _ => ?_) (fun _ => ?_)

theorem msixWrite_keeps {r : State} (s : State) (f k offset width : Nat) (value : W64) (h : Keeps r s) :
    Keeps r (msixWrite s f k offset width value) := by
  unfold msixWrite
  repeat' first
    | with_reducible assumption
    | with_reducible apply State.setFn_keeps
    | with_reducible apply sendHeldMsix_keeps
    | with_reducible refine Keeps.ite (fun _ => ?_) (fun _ => ?_)
    | (simp only [↓Keeps.mk_eq]; with_reducible refine KeepsMk.of ?_ rfl rfl rfl rfl rfl rfl rfl rfl rfl rfl rfl rfl rfl rfl rfl rfl rfl)
    | with_reducible refine Keeps.of_fst (by assumption) ?_
    | split

theorem fnWrite_keeps {r : State} (f offset width : Nat) (value : W64) (s : State) (h : Keeps r s) :
    Keeps r (fnWrite f offset width value s) := by
  unfold fnWrite
  repeat' first
    | with_reducible assumption
    | with_reducible apply State.setFn_keeps
    | with_reducible apply State.setCq_keeps
    | with_reducible apply msixWrite_keeps
    | with_reducible refine Keeps.ite (fun _ => ?_) (fun _ => ?_)
    | (simp only [↓Keeps.mk_eq]; with_reducible refine KeepsMk.of ?_ rfl rfl rfl rfl rfl rfl rfl rfl rfl rfl rfl rfl rfl rfl rfl rfl rfl)
    | with_reducible refine Keeps.of_fst (by assumption) ?_
    | split

end Sys2Proof.Machine
end

