-- ==== Sys2Proof/Laws/KeepsPins.lean ====
section
/-!
SUPPORT. What each operation of Machine/Pins.lean keeps.
-/

namespace Sys2Proof.Machine

theorem selectIr_keeps {r : State} (code : Nat) (driving : Bool) (s : State) (h : Keeps r s) :
    Keeps r (selectIr code driving s) :=
  Keeps.upd h rfl rfl rfl rfl rfl rfl rfl rfl rfl rfl rfl rfl rfl rfl rfl rfl rfl

theorem shiftBoundary_keeps {r : State} (bits : List Bool) (s : State) (h : Keeps r s) :
    Keeps r (shiftBoundary bits s) := by
  unfold shiftBoundary
  repeat' first
    | with_reducible assumption
    | with_reducible apply State.emit_keeps
    | with_reducible apply State.bump_keeps
    | (simp only [↓Keeps.mk_eq]; with_reducible refine KeepsMk.of ?_ rfl rfl rfl rfl rfl rfl rfl rfl rfl rfl rfl rfl rfl rfl rfl rfl rfl)

end Sys2Proof.Machine
end

