-- ==== Sys2Proof/Laws/KeepsBeats.lean ====
section
/-!
SUPPORT. What each operation of Machine/Beats.lean keeps.
-/

namespace Sys2Proof.Machine

theorem fetchRequestEff_keeps {r : State} (v : Nat) (s : State) (h : Keeps r s) :
    Keeps r (fetchRequestEff v s) := by
  unfold fetchRequestEff
  repeat' first
    | with_reducible assumption
    | with_reducible apply State.setSeq_keeps
    | with_reducible refine Keeps.ite (fun _ => ?_) (fun _ => ?_)
    | (simp only [↓Keeps.mk_eq]; with_reducible refine KeepsMk.of ?_ rfl rfl rfl rfl rfl rfl rfl rfl rfl rfl rfl rfl rfl rfl rfl rfl rfl)
    | split

theorem arriveBlock_keeps {r : State} (v : Nat) (s : State) (h : Keeps r s) :
    Keeps r (arriveBlock v s) := by
  unfold arriveBlock
  repeat' first
    | with_reducible assumption
    | with_reducible apply State.setSeq_keeps
    | (simp only [↓Keeps.mk_eq]; with_reducible refine KeepsMk.of ?_ rfl rfl rfl rfl rfl rfl rfl rfl rfl rfl rfl rfl rfl rfl rfl rfl rfl)
    | split
    | dsimp only

theorem fetchArrivalEff_keeps {r : State} (v : Nat) (upsets : List UnitUpset) (s : State) (h : Keeps r s) :
    Keeps r (fetchArrivalEff v upsets s) := by
  unfold fetchArrivalEff
  repeat' first
    | with_reducible assumption
    | with_reducible apply upsetUnits_keeps
    | with_reducible apply readSystem_keeps
    | with_reducible apply arriveBlock_keeps

theorem passClose_keeps {r : State} (s : State) (v : Nat) (h : Keeps r s) :
    Keeps r (passClose s v) := by
  unfold passClose
  repeat' first
    | with_reducible assumption
    | with_reducible apply State.setSeq_keeps
    | with_reducible refine Keeps.ite (fun _ => ?_) (fun _ => ?_)
    | (simp only [↓Keeps.mk_eq]; with_reducible refine KeepsMk.of ?_ rfl rfl rfl rfl rfl rfl rfl rfl rfl rfl rfl rfl rfl rfl rfl rfl rfl)
    | split
    | dsimp only

theorem endFetchSlip_keeps {r : State} (s : State) (v : Nat) (h : Keeps r s) :
    Keeps r (endFetchSlip s v) := by
  unfold endFetchSlip
  repeat' first
    | with_reducible assumption
    | with_reducible apply State.setSeq_keeps
    | with_reducible apply stampTrace_keeps
    | with_reducible refine Keeps.ite (fun _ => ?_) (fun _ => ?_)

theorem consumeTokens_keeps {r : State} (s : State) (n b : Nat) (h : Keeps r s) :
    Keeps r (consumeTokens s n b) := by
  unfold consumeTokens
  repeat' first
    | with_reducible assumption
    | with_reducible apply State.setChan_keeps
    | with_reducible apply Keeps.foldl
    | with_reducible apply Keeps.foldl_fst
    | with_reducible refine Keeps.ite (fun _ => ?_) (fun _ => ?_)
    | (simp only [↓Keeps.mk_eq]; with_reducible refine KeepsMk.of ?_ rfl rfl rfl rfl rfl rfl rfl rfl rfl rfl rfl rfl rfl rfl rfl rfl rfl)
    | intro _ _ _

theorem emitTokens_keeps {r : State} (s : State) (n b : Nat) (h : Keeps r s) :
    Keeps r (emitTokens s n b) := by
  unfold emitTokens
  repeat' first
    | with_reducible assumption
    | with_reducible apply State.setChan_keeps
    | with_reducible apply Keeps.foldl
    | with_reducible apply Keeps.foldl_fst
    | with_reducible refine Keeps.ite (fun _ => ?_) (fun _ => ?_)
    | intro _ _ _

theorem stallPeriod_keeps {r : State} (s : State) (n : Nat) (h : Keeps r s) :
    Keeps r (stallPeriod s n) := by
  unfold stallPeriod
  repeat' first
    | with_reducible assumption
    | with_reducible apply State.setMv_keeps

theorem waitPeriod_keeps {r : State} (s : State) (n : Nat) (h : Keeps r s) :
    Keeps r (waitPeriod s n) := by
  unfold waitPeriod
  repeat' first
    | with_reducible assumption
    | with_reducible apply State.setMv_keeps

theorem foldPast_keeps {r : State} (s : State) (n : Nat) (h : Keeps r s) :
    Keeps r (foldPast s n) := by
  unfold foldPast
  repeat' first
    | with_reducible assumption
    | with_reducible apply State.setMv_keeps
    | with_reducible apply State.onRun_keeps

theorem stampC_keeps {r : State} (s : State) (n b : Nat) (h : Keeps r s) :
    Keeps r (stampC s n b) := by
  unfold stampC
  repeat' first
    | with_reducible assumption
    | with_reducible apply State.onRun_keeps
    | with_reducible refine Keeps.ite (fun _ => ?_) (fun _ => ?_)
    | (simp only [↓Keeps.mk_eq]; with_reducible refine KeepsMk.of ?_ rfl rfl rfl rfl rfl rfl rfl rfl rfl rfl rfl rfl rfl rfl rfl rfl rfl)
    | split
    | dsimp only

theorem reportWakes_keeps {r : State} (s : State) (v a b : Nat) (h : Keeps r s) :
    Keeps r (reportWakes s v a b) := by
  unfold reportWakes
  repeat' first
    | with_reducible assumption
    | with_reducible apply State.onRun_keeps
    | with_reducible refine Keeps.ite (fun _ => ?_) (fun _ => ?_)

theorem closeBeat_keeps {r : State} (s : State) (n v b : Nat) (h : Keeps r s) :
    Keeps r (closeBeat s n v b) := by
  unfold closeBeat
  repeat' first
    | with_reducible assumption
    | with_reducible apply State.setMv_keeps
    | with_reducible apply State.setSeq_keeps
    | with_reducible apply hubRelease_keeps
    | with_reducible apply detectCollisions_keeps
    | with_reducible apply moveRows_keeps
    | with_reducible apply settleTo_keeps
    | with_reducible apply consumeTokens_keeps
    | with_reducible apply emitTokens_keeps
    | with_reducible apply foldPast_keeps
    | with_reducible apply stampC_keeps
    | with_reducible apply reportWakes_keeps

theorem holdPeriod_keeps {r : State} (s : State) (n v : Nat) (h : Hold) (h₀ : Keeps r s) :
    Keeps r (holdPeriod s n v h) := by
  unfold holdPeriod
  repeat' first
    | with_reducible assumption
    | with_reducible apply slipBeat_keeps
    | with_reducible apply waitPeriod_keeps

theorem tagFault_keeps {r : State} (s : State) (n : Nat) (h : Keeps r s) :
    Keeps r (tagFault s n) := by
  unfold tagFault
  repeat' first
    | with_reducible assumption
    | with_reducible apply raise_keeps
    | with_reducible apply deviceFault_keeps

theorem boundsAtEnd_keeps {r : State} (s : State) (h : Keeps r s) :
    Keeps r (boundsAtEnd s) := by
  unfold boundsAtEnd
  repeat' first
    | with_reducible assumption
    | with_reducible apply planFault_keeps
    | with_reducible apply Keeps.foldl
    | with_reducible apply Keeps.foldl_fst
    | with_reducible refine Keeps.ite (fun _ => ?_) (fun _ => ?_)
    | (simp only [↓Keeps.mk_eq]; with_reducible refine KeepsMk.of ?_ rfl rfl rfl rfl rfl rfl rfl rfl rfl rfl rfl rfl rfl rfl rfl rfl rfl)
    | intro _ _ _

theorem moveAll_keeps {r : State} (s : State) (h : Keeps r s) :
    Keeps r (moveAll s) := by
  unfold moveAll
  repeat' first
    | with_reducible assumption
    | (simp only [↓Keeps.mk_eq]; with_reducible refine KeepsMk.of ?_ rfl rfl rfl rfl rfl rfl rfl rfl rfl rfl rfl rfl rfl rfl rfl rfl rfl)

theorem stepPassed_keeps {r : State} (s : State) (h : Keeps r s) :
    Keeps r (stepPassed s) := by
  unfold stepPassed
  repeat' first
    | with_reducible assumption
    | with_reducible apply hubRelease_keeps
    | with_reducible apply lateCollisions_keeps
    | with_reducible apply settleRest_keeps
    | with_reducible apply boundsAtEnd_keeps
    | with_reducible apply moveAll_keeps

theorem regulatorTimes_keeps {r : State} (s : State) (h : Keeps r s) :
    Keeps r (regulatorTimes s) := by
  unfold regulatorTimes
  repeat' first
    | with_reducible assumption
    | with_reducible apply State.onRun_keeps

theorem overCurrent_keeps {r : State} (site : Nat) (s : State) (h : Keeps r s) :
    Keeps r (overCurrent site s) := by
  unfold overCurrent
  repeat' first
    | with_reducible assumption
    | with_reducible apply awRailFault_keeps
    | with_reducible apply groupFault_keeps
    | with_reducible refine Keeps.ite (fun _ => ?_) (fun _ => ?_)

theorem regulatorEff_keeps {r₀ : State} (r : PowerReading) (s : State) (h : Keeps r₀ s) :
    Keeps r₀ (regulatorEff r s) := by
  have level : ∀ (p : Power) k, (p.setLevel k).stage = p.stage ∧ (p.setLevel k).lastReset = p.lastReset
      ∧ (p.setLevel k).thermal = p.thermal ∧ (p.setLevel k).effLimit = p.effLimit := by
    intro p k
    unfold Power.setLevel
    split <;> exact ⟨rfl, rfl, rfl, rfl⟩
  unfold regulatorEff
  extract_lets p p1 exceeded unheld k t t1 t2
  have ht : Keeps r₀ t := by
    apply regulatorTimes_keeps
    have e := level { p1 with unheld := unheld } k
    exact Keeps.upd h rfl rfl rfl rfl rfl rfl rfl rfl rfl rfl rfl rfl e.1 e.2.1 e.2.2.1 e.2.2.2 rfl
  have ht1 : Keeps r₀ t1 := Keeps.ite (fun _ => raise_keeps _ _ _ _ _ _ _ ht) (fun _ => ht)
  apply State.bump_keeps
  simp only [t2]
  split
  · exact overCurrent_keeps _ _ ht1
  · exact ht1

theorem refuseArm_keeps {r : State} (s : State) (acc gseq detail : Nat) (h : Keeps r s) :
    Keeps r (refuseArm s acc gseq detail) := by
  unfold refuseArm
  repeat' first
    | with_reducible assumption
    | with_reducible apply refuse_keeps
    | with_reducible apply floodAbort_keeps
    | with_reducible apply dropSteps_keeps

theorem armGrid_keeps {r₀ : State} (s : State) (r : StepReq) (p : Plan) (h : Keeps r₀ s) :
    Keeps r₀ (armGrid s r p) := by
  unfold armGrid
  repeat' first
    | with_reducible assumption
    | with_reducible apply State.bump_keeps
    | with_reducible apply loadPending_keeps
    | with_reducible apply completeUnlaunched_keeps
    | with_reducible apply armStep_keeps
    | with_reducible apply refuseArm_keeps
    | with_reducible refine Keeps.ite (fun _ => ?_) (fun _ => ?_)
    | (simp only [↓Keeps.mk_eq]; with_reducible refine KeepsMk.of ?_ rfl rfl rfl rfl rfl rfl rfl rfl rfl rfl rfl rfl rfl rfl rfl rfl rfl)
    | split
    | dsimp only

theorem armCommits_keeps {r : State} (s : State) (h : Keeps r s) :
    Keeps r (armCommits s) := by
  unfold armCommits
  repeat' first
    | with_reducible assumption
    | with_reducible apply commitNow_keeps
    | with_reducible apply Keeps.foldl
    | with_reducible apply Keeps.foldl_fst
    | with_reducible refine Keeps.ite (fun _ => ?_) (fun _ => ?_)
    | (simp only [↓Keeps.mk_eq]; with_reducible refine KeepsMk.of ?_ rfl rfl rfl rfl rfl rfl rfl rfl rfl rfl rfl rfl rfl rfl rfl rfl rfl)
    | intro _ _ _

theorem stepArmEff_keeps {r₀ : State} (r : StepReq) (p : Plan) (s : State) (h : Keeps r₀ s) :
    Keeps r₀ (stepArmEff r p s) := by
  unfold stepArmEff
  repeat' first
    | with_reducible assumption
    | with_reducible apply armStep_keeps
    | with_reducible apply armGrid_keeps
    | with_reducible apply armCommits_keeps
    | with_reducible refine Keeps.ite (fun _ => ?_) (fun _ => ?_)

theorem resetStep_keeps {r : State} (s : State) (h : Keeps r s) :
    Keeps r (resetStep s) := by
  unfold resetStep
  repeat' first
    | with_reducible assumption
    | with_reducible apply State.setMv_keeps
    | with_reducible apply State.setSeq_keeps
    | with_reducible apply State.setMat_keeps
    | with_reducible apply Keeps.foldl
    | with_reducible apply Keeps.foldl_fst
    | with_reducible refine Keeps.ite (fun _ => ?_) (fun _ => ?_)
    | (simp only [↓Keeps.mk_eq]; with_reducible refine KeepsMk.of ?_ rfl rfl rfl rfl rfl rfl rfl rfl rfl rfl rfl rfl rfl rfl rfl rfl rfl)
    | intro _ _ _

theorem launchEff_keeps {r₀ : State} (r : StepReq) (p : Plan) (m : List Nat) (s : State) (h : Keeps r₀ s) :
    Keeps r₀ (launchEff r p m s) := by
  unfold launchEff
  repeat' first
    | with_reducible assumption
    | with_reducible apply State.bump_keeps
    | with_reducible apply readSystem_keeps
    | with_reducible apply loadPending_keeps
    | with_reducible apply reportWakes_keeps
    | with_reducible apply resetStep_keeps
    | with_reducible apply Keeps.foldl
    | with_reducible apply Keeps.foldl_fst
    | with_reducible refine Keeps.ite (fun _ => ?_) (fun _ => ?_)
    | (simp only [↓Keeps.mk_eq]; with_reducible refine KeepsMk.of ?_ rfl rfl rfl rfl rfl rfl rfl rfl rfl rfl rfl rfl rfl rfl rfl rfl rfl)
    | intro _ _ _
    | intro _ _
    | split

theorem refuseLaunch_keeps {r₀ : State} (r : StepReq) (detail : Nat) (s : State) (h : Keeps r₀ s) :
    Keeps r₀ (refuseLaunch r detail s) := by
  unfold refuseLaunch
  repeat' first
    | with_reducible assumption
    | with_reducible apply State.bump_keeps
    | with_reducible apply refuse_keeps
    | with_reducible apply floodAbort_keeps
    | with_reducible apply disarm_keeps
    | with_reducible apply dropSteps_keeps
    | (simp only [↓Keeps.mk_eq]; with_reducible refine KeepsMk.of ?_ rfl rfl rfl rfl rfl rfl rfl rfl rfl rfl rfl rfl rfl rfl rfl rfl rfl)
    | with_reducible refine Keeps.of_fst (by assumption) ?_
    | split

theorem tryLaunch_keeps {r₀ : State} (r : StepReq) (p : Plan) (s : State) (h : Keeps r₀ s) :
    Keeps r₀ (tryLaunch r p s) := by
  unfold tryLaunch
  repeat' first
    | with_reducible assumption
    | with_reducible apply launchEff_keeps
    | with_reducible apply refuseLaunch_keeps
    | (simp only [↓Keeps.mk_eq]; with_reducible refine KeepsMk.of ?_ rfl rfl rfl rfl rfl rfl rfl rfl rfl rfl rfl rfl rfl rfl rfl rfl rfl)
    | with_reducible refine Keeps.of_fst (by assumption) ?_
    | split

theorem tryChained_keeps {r₀ : State} (r : StepReq) (p : Plan) (s : State) (h : Keeps r₀ s) :
    Keeps r₀ (tryChained r p s) := by
  unfold tryChained
  repeat' first
    | with_reducible assumption
    | with_reducible apply refuseLaunch_keeps
    | with_reducible apply tryLaunch_keeps
    | with_reducible refine Keeps.ite (fun _ => ?_) (fun _ => ?_)

theorem logEnd_keeps {r₀ : State} (s : State) (r : Run) (e : Ending) (dig : Bytes) (h : Keeps r₀ s) :
    Keeps r₀ (logEnd s r e dig) := by
  unfold logEnd
  repeat' first
    | with_reducible assumption
    | with_reducible apply logEntry_keeps

theorem compareReplay_keeps {r₀ : State} (s : State) (r : Run) (e : Ending) (dig : Bytes) (h : Keeps r₀ s) :
    Keeps r₀ (compareReplay s r e dig) := by
  unfold compareReplay
  repeat' first
    | with_reducible assumption
    | with_reducible apply raise_keeps
    | with_reducible refine Keeps.ite (fun _ => ?_) (fun _ => ?_)
    | (simp only [↓Keeps.mk_eq]; with_reducible refine KeepsMk.of ?_ rfl rfl rfl rfl rfl rfl rfl rfl rfl rfl rfl rfl rfl rfl rfl rfl rfl)
    | with_reducible refine Keeps.of_fst (by assumption) ?_
    | split

theorem sendTwin_keeps {r₀ : State} (s : State) (r : Run) (e : Ending) (dig : Bytes) (h : Keeps r₀ s) :
    Keeps r₀ (sendTwin s r e dig) := by
  unfold sendTwin
  repeat' first
    | with_reducible assumption
    | with_reducible apply queueLoose_keeps
    | with_reducible apply twinMatch_keeps
    | with_reducible refine Keeps.ite (fun _ => ?_) (fun _ => ?_)
    | (simp only [↓Keeps.mk_eq]; with_reducible refine KeepsMk.of ?_ rfl rfl rfl rfl rfl rfl rfl rfl rfl rfl rfl rfl rfl rfl rfl rfl rfl)
    | split

theorem spoilRegion_keeps {r : State} (n : Nat) (s : State) (g : Region) (h : Keeps r s) :
    Keeps r (spoilRegion n s g) := by
  unfold spoilRegion
  repeat' first
    | with_reducible assumption
    | with_reducible apply State.setStack_keeps
    | with_reducible apply Keeps.foldl
    | with_reducible apply Keeps.foldl_fst
    | with_reducible refine Keeps.ite (fun _ => ?_) (fun _ => ?_)
    | (simp only [↓Keeps.mk_eq]; with_reducible refine KeepsMk.of ?_ rfl rfl rfl rfl rfl rfl rfl rfl rfl rfl rfl rfl rfl rfl rfl rfl rfl)
    | intro _ _ _

theorem spoil_keeps {r₀ : State} (s : State) (r : Run) (h : Keeps r₀ s) :
    Keeps r₀ (spoil s r) := by
  unfold spoil
  repeat' first
    | with_reducible assumption
    | with_reducible apply State.setMv_keeps
    | with_reducible apply State.setMat_keeps
    | with_reducible apply State.setLink_keeps
    | with_reducible apply spoilRegion_keeps
    | with_reducible apply Keeps.foldl
    | with_reducible apply Keeps.foldl_fst
    | with_reducible refine Keeps.ite (fun _ => ?_) (fun _ => ?_)
    | (simp only [↓Keeps.mk_eq]; with_reducible refine KeepsMk.of ?_ rfl rfl rfl rfl rfl rfl rfl rfl rfl rfl rfl rfl rfl rfl rfl rfl rfl)
    | intro _ _ _

theorem cancelAll_keeps {r : State} (s : State) (h : Keeps r s) :
    Keeps r (cancelAll s) := by
  unfold cancelAll
  repeat' first
    | with_reducible assumption
    | with_reducible apply cancelQ_keeps
    | with_reducible apply releaseSets_keeps
    | with_reducible apply Keeps.foldl
    | with_reducible apply Keeps.foldl_fst
    | intro _ _ _

theorem settleAll_keeps {r : State} (s : State) (h : Keeps r s) :
    Keeps r (settleAll s) := by
  unfold settleAll
  repeat' first
    | with_reducible assumption
    | with_reducible apply State.setMv_keeps
    | with_reducible apply settleRest_keeps
    | with_reducible apply Keeps.foldl
    | with_reducible apply Keeps.foldl_fst
    | intro _ _ _

theorem writeCompletion_keeps {r₀ : State} (s : State) (r : Run) (e : Ending) (h : Keeps r₀ s) :
    Keeps r₀ (writeCompletion s r e) := by
  unfold writeCompletion
  repeat' first
    | with_reducible assumption
    | with_reducible apply complete_keeps
    | with_reducible apply hostWrite_keeps
    | with_reducible refine Keeps.ite (fun _ => ?_) (fun _ => ?_)

theorem clearRun_keeps {r : State} (s : State) (h : Keeps r s) : Keeps r (clearRun s) := by
  unfold clearRun
  extract_lets s1 s2
  have h1 : Keeps r s1 := Keeps.foldl (fun _ _ hs => State.setSeq_keeps _ _ _ hs) _ h
  have h2 : Keeps r s2 :=
    hubRelease_keeps _ (disarm_keeps _ (Keeps.upd h1 rfl rfl rfl rfl rfl rfl rfl rfl rfl rfl rfl rfl rfl rfl rfl rfl rfl))
  clear_value s1 s2
  refine Keeps.ite (fun _ => h2) (fun _ => Keeps.ite (fun _ => releaseStop_keeps _ h2) (fun _ => ?_))
  exact Keeps.updLegal h2 rfl rfl rfl rfl rfl fun l =>
    ⟨Nat.zero_le _, l.grid, l.twin, l.kind, l.phase, l.chronMode, l.chronState, l.stage, l.lastReset, l.thermal, l.limLow, l.limHigh,
     l.spdm, l.grade⟩

theorem completeEff_keeps {r₀ : State} (r : Run) (s : State) (h : Keeps r₀ s) :
    Keeps r₀ (completeEff r s) := by
  unfold completeEff
  repeat' first
    | with_reducible assumption
    | with_reducible apply State.bump_keeps
    | with_reducible apply sendMark_keeps
    | with_reducible apply reportOverrun_keeps
    | with_reducible apply stepSummary_keeps
    | with_reducible apply indeterminate_keeps
    | with_reducible apply logEnd_keeps
    | with_reducible apply compareReplay_keeps
    | with_reducible apply sendTwin_keeps
    | with_reducible apply spoil_keeps
    | with_reducible apply cancelAll_keeps
    | with_reducible apply settleAll_keeps
    | with_reducible apply writeCompletion_keeps
    | with_reducible apply clearRun_keeps
    | with_reducible refine Keeps.ite (fun _ => ?_) (fun _ => ?_)
    | (simp only [↓Keeps.mk_eq]; with_reducible refine KeepsMk.of ?_ rfl rfl rfl rfl rfl rfl rfl rfl rfl rfl rfl rfl rfl rfl rfl rfl rfl)
    | (simp only [↓Keeps.mk_eq]; with_reducible refine KeepsMk.ofLegal ?_ rfl rfl rfl rfl rfl ?_)
    | (refine fun l => ⟨?_, ?_, ?_, ?_, ?_, ?_, ?_, ?_, ?_, ?_, ?_, ?_, ?_, ?_⟩ <;> first | with_reducible first | exact l.stop | exact l.grid | exact l.twin | exact l.kind | exact l.phase | exact l.chronMode | exact l.chronState | exact l.stage | exact l.lastReset | exact l.thermal | exact l.limLow | exact l.limHigh | exact l.spdm | exact l.grade | (dsimp only; omega) | (dsimp only; split <;> first | omega | exact l.stop | exact l.grid | exact l.twin | exact l.kind | exact l.phase | exact l.chronMode | exact l.chronState | exact l.stage | exact l.lastReset | exact l.thermal | exact l.limLow | exact l.limHigh | exact l.spdm | exact l.grade))
    | with_reducible refine Keeps.of_fst (by assumption) ?_
    | split

theorem tick_keeps {r : State} (s : State) (h : Keeps r s) :
    Keeps r (tick s) := by
  unfold tick
  repeat' first
    | with_reducible assumption
    | with_reducible refine Keeps.ite (fun _ => ?_) (fun _ => ?_)
    | (simp only [↓Keeps.mk_eq]; with_reducible refine KeepsMk.of ?_ rfl rfl rfl rfl rfl rfl rfl rfl rfl rfl rfl rfl rfl rfl rfl rfl rfl)
    | split
    | dsimp only

end Sys2Proof.Machine
end

