-- ==== Sys2Proof/Laws/KeepsShared.lean ====
section
/-!
SUPPORT. What the operations that answer for a command keep: an enabled event, the issue of an op, a served descriptor, a
control unit. A meaning is a call of one of these.
-/

namespace Sys2Proof.Machine

/-- An answer that leaves only states kept from `r`. -/
structure KeepsRes (r : State) (x : Res) : Prop where
  of_next : ∀ t, x = .next t → Keeps r t

theorem KeepsRes.next {r t : State} (h : Keeps r t) : KeepsRes r (.next t) := by
  refine ⟨fun u e => ?_⟩
  cases e
  exact h

theorem act_keeps {r : State} (c : Prop) [Decidable c] {t s : State} (ht : c → Keeps r t) (h : Keeps r s) :
    KeepsRes r (act c t s) := by
  unfold act
  split
  · exact .next (ht ‹_›)
  · exact .next h

theorem KeepsRes.ite {c : Prop} [Decidable c] {r : State} {a b : Res} (ha : KeepsRes r a) (hb : KeepsRes r b) :
    KeepsRes r (if c then a else b) := by
  split
  · exact ha
  · exact hb

theorem after_keeps {r : State} (x : Res) (s : State) (hx : KeepsRes r x) (h : Keeps r s) : Keeps r (after x s) := by
  unfold after
  split
  · exact hx.of_next _ rfl
  · exact h

theorem issueOp_keeps {r : State} (s : State) (v : Nat) (engine ok : Bool) (accs : List Access)
    (eff : PlanPos → State → State) (he : ∀ p t, Keeps r t → Keeps r (eff p t)) (h : Keeps r s) :
    KeepsRes r (issueOp s v engine ok accs eff) := by
  unfold issueOp
  refine act_keeps _ (fun _ => ?_) h
  extract_lets pos s0 s1
  have h0 : Keeps r s0 := issued_keeps _ _ _ (openBeat_keeps _ _ h)
  have h1 : Keeps r s1 := claimAll_keeps _ _ _ h0
  split
  · split
    · exact planFault_keeps _ _ _ _ _ h1
    · exact he _ _ h1
  · exact planFault_keeps _ _ _ _ _ h0

theorem issueEngine_keeps {r : State} (s : State) (v ty : Nat) (ok : Bool) (accs : List Access)
    (eff : PlanPos → State → State) (he : ∀ p t, Keeps r t → Keeps r (eff p t)) (h : Keeps r s) :
    KeepsRes r (issueEngine s v ty ok accs eff) :=
  issueOp_keeps _ _ _ _ _ _ he h

theorem issuePass_keeps {r : State} (s : State) (v : VMove) (f : VFun) (d : AddrOp) (a : Option AddrOp) (b : Seq → BSrc)
    (h : Keeps r s) : KeepsRes r (issuePass s v f d a b) :=
  issueEngine_keeps _ _ _ _ _ _ (fun _ _ ht => passEff_keeps _ _ _ _ _ _ _ ht) h

theorem issueUnary_keeps {r : State} (s : State) (v : VMove) (f : VFun) (d a : AddrOp) (h : Keeps r s) :
    KeepsRes r (issueUnary s v f d a) :=
  issuePass_keeps _ _ _ _ _ _ h

theorem issueForm_keeps {r : State} (s : State) (v : VMove) (f : VFun) (x : VForm) (h : Keeps r s) :
    KeepsRes r (issueForm s v f x) := by
  cases x <;> (unfold issueForm; with_reducible exact issuePass_keeps _ _ _ _ _ _ h)

theorem issueForm2_keeps {r : State} (s : State) (v : VMove) (f : VFun) (x : VForm2) (h : Keeps r s) :
    KeepsRes r (issueForm2 s v f x) := by
  cases x <;> (unfold issueForm2; with_reducible exact issuePass_keeps _ _ _ _ _ _ h)

theorem issueReduce_keeps {r : State} (s : State) (v : VMove) (a : AddrOp) (b : Option AddrOp) (k : TKind)
    (item : RItem) (base tally : Nat) (anchor : Int) (start : Bool) (h : Keeps r s) :
    KeepsRes r (issueReduce s v a b k item base tally anchor start) :=
  issueEngine_keeps _ _ _ _ _ _ (fun _ _ ht => reduceEff_keeps _ _ _ _ _ _ _ _ _ _ _ ht) h

theorem issueCmd_keeps {r : State} (s : State) (v : VMove) (ty q : Nat) (ok : Bool) (accs : List Access) (op : Instr)
    (src : List (Nat × Nat)) (data : State → List Bytes) (rows : Nat) (pre : State → Option (Nat × Nat × Nat)) (post : State → State)
    (hp : ∀ t, Keeps r t → Keeps r (post t)) (h : Keeps r s) :
    KeepsRes r (issueCmd s v ty q ok accs op src data rows pre post) := by
  refine issueEngine_keeps _ _ _ _ _ _ (fun pos t ht => ?_) h
  split
  · exact planFault_keeps _ _ _ _ _ ht
  · have hc := pushCmd_keeps t v q
      ({ op := op, pos := pos, opAddr := (t.seqOf v).opAddr, data := data t, ready := src.isEmpty, rows := rows } : Cmd) ht
    exact .ite (fun _ => hc) (fun _ => .ite (fun _ => hp _ hc) (fun _ => addFlight_keeps _ _ _ (hp _ hc)))

theorem serve_keeps {r : State} (s : State) (acc kind : Nat) (f : Acc → Res) (hf : ∀ a, KeepsRes r (f a)) (h : Keeps r s) :
    KeepsRes r (serve s acc kind f) := by
  unfold serve
  split
  · exact .ite (hf _) (.next h)
  · exact .next h

theorem serveStreams_keeps {r : State} (s : State) (acc kind : Nat) (f : State → Acc → State)
    (hf : ∀ t a, Keeps r t → Keeps r (f t a))
    (h : Keeps r s) : KeepsRes r (serveStreams s acc kind f) :=
  serve_keeps _ _ _ _ (fun a => act_keeps _ (fun _ => hf _ a (readSystem_keeps _ _ h)) h) h

theorem ctrlUnit_keeps {r : State} (s : State) (p : Nat) (u : CtrlUnit) (type : Nat) (m0 m1 m2 : W32) (f : State)
    (hf : Keeps r f) (h : Keeps r s) : KeepsRes r (ctrlUnit s p u type m0 m1 m2 f) := by
  unfold ctrlUnit
  refine .ite (.next (countPort_keeps _ _ _ h)) (.ite (.next h) (.ite (.next hf) (.next (linkProtocol_keeps _ _ h))))

theorem memberUnit_keeps {r : State} (s : State) (p : Nat) (u : CtrlUnit) (kind : Nat) (m1 m2 : W32) (f : State)
    (hf : Keeps r f) (h : Keeps r s) : KeepsRes r (memberUnit s p u kind m1 m2 f) :=
  ctrlUnit_keeps _ _ _ _ _ _ _ _ (.ite (fun _ => hf) (fun _ => h)) h

theorem laneUnit_keeps {r : State} (s : State) (p : Nat) (u : CtrlUnit) (op : Nat) (m0 : W32) (f : State)
    (hf : Keeps r f) (h : Keeps r s) : KeepsRes r (laneUnit s p u op m0 f) :=
  ctrlUnit_keeps _ _ _ _ _ _ _ _ (.ite (fun _ => hf) (fun _ => h)) h

theorem planLoadEff_keeps {r : State} (acc slot size : Nat) (b : Bytes) (s : State) (h : Keeps r s) :
    KeepsRes r (planLoadEff acc slot size b s) := by
  unfold planLoadEff
  exact .ite (.next (refuse_keeps _ _ _ h)) (.ite (.next h) (.next (begin_keeps _ _ (reservePlan_keeps _ _ _ _ _ h))))

theorem spdmServe_keeps {r : State} (s : State) (req : Bytes) (code : Nat) (f : State → State)
    (hf : ∀ t, Keeps r t → Keeps r (f t)) (h : Keeps r s) : KeepsRes r (spdmServe s req code f) :=
  act_keeps _ (fun _ => hf _ h) h

end Sys2Proof.Machine
end

