-- ==== Sys2Proof/Tests/Slice0.lean ====
section
/-!
SUPPORT. Tests of the model: for each statement of Certificates/Slice0/Obligations.lean, states and operands that meet its
hypotheses (a witness for each clause that has some, but for those whose hypotheses speak of a value that the model leaves free);
ill-formed terms that the check refuses; op words written out from the spec's encodings; and small one-step tests.
-/

open Sys2Proof Sys2Proof.Machine

namespace Sys2Proof.Tests

set_option Elab.async false

namespace W

def extents : List Extent :=
  ((List.range 64).map fun v => { cls := 0, vm := v, first := 0, last := 0x5FFF00 })
  ++ ((List.range 64).map fun v => { cls := 1, vm := v, first := 0, last := 1023 })
  ++ [{ cls := 2, vm := 0, first := 0, last := 0x7FFF00 }, { cls := 2, vm := 1, first := 0, last := 0x7FFF00 }]
def plan : Plan :=
  { moves := gridTypes.map (·, true), extents := extents, queues := (List.range 1024).map fun k => (k, (8, 16384)) }
def req : StepReq :=
  { acc := 7, fn := 0, slot := 0, start := 0, launch := 0, patches := [], streams := [], bufs := [], report := 0x10000, slipCap := 0,
    slipAddr := 0, chain := [], pasid := none }
def run : Run := { req := req, number := 5, plan := plan, map := List.range 64 }
def up : Machine.State := { State.reset with power := { State.reset.power with stage := 6 } }
def base : Machine.State :=  -- every movement is to issue plan beat 40
  { up with run := some run, ns := 5000, chron := { count := 7000 }, mv := (List.range 64).map (·, { beats := 40 }) }
def desc (fs : List (Nat × Nat × Nat)) : Bytes :=  -- offset, bytes, value
  (fs.foldl (fun (b : Nat) f => b + f.2.2 * 256 ^ f.1) 0) |> leBytes 128
def acc1 (fn : Nat) (fs : List (Nat × Nat × Nat)) : Acc := { fn := fn, sq := 0, cq := 0, desc := desc fs, pasid := none, windows := 0, sqHead := 0 }
def seal8 (e : Nat) : W64 := BitVec.ofNat 64 (e + ((crc8 (leBytes 7 e)).toNat) * 2 ^ 56)
def seal4 (e : Nat) : W64 := BitVec.ofNat 64 (e + ((crc8 (leBytes 3 e)).toNat) * 2 ^ 24)
def cq0 : Cq := { base := 0x100000, sizeLog2 := 4, enable := true, resv := 3, irqEn := true }
def sq0 : Sq := { base := 0x200000, sizeLog2 := 4, enable := true, cq := 0 }
def host : Machine.State := { up with
  ns := 5000, chron := { count := 7000 }
  tenancy := { up.tenancy with kind := 1, phase := 2 }
  fns := [(0, { cq := [(0, cq0)], sq := [(0, sq0)] }), (1, { cq := [(0, cq0)], sq := [(0, sq0)] })]
  tables := [(3, { active := [(0, seal8 100000), (7, seal8 100000)] }), (5, { active := [(0, seal8 (10 + 10 * 2 ^ 24)), (1, seal8 (10 + 10 * 2^24))] })]
  domains := [(0, { key := some 1, state := 1 }), (7, { key := some 9, state := 1 })] }
def withAcc (s : Machine.State) (n : Nat) (a : Acc) : Machine.State := { s with intake := { s.intake with acc := tput n a s.intake.acc, next := n + 1 } }
def mkU (a b c : W32) : CtrlUnit := { w0 := a, w1 := b, w2 := c, crc := crc32c (unitBytes a b c) }
def pk (n : Nat) : Packet := { cls := 1, vc := 0, routeA := BitVec.ofNat 32 (7 + n), routeB := 0, payload := List.replicate 32 9 }
def act0 : PortSt := { state := 5, rxMask := 0xFF, txMask := 0xFF, trained := 0xFF, level := 1, partner := 77, partnerPort := 4 }
def lk : Machine.State := { up with ns := 5000000, chron := { count := 70003 }, ports := [(3, act0), (9, act0)] }
def lkp (x : PortSt) : Machine.State := { lk with ports := [(3, x), (9, act0)] }
def fl : Machine.Flow := { dim := 0, dir := true, mcast := false, collect := false, hops := 2, srcFirst := 0, srcLast := 0x300, hopFirst := 0x4000, hopLast := 0x8000 }
def flM : Machine.Flow := { fl with mcast := true }
def flC : Machine.Flow := { fl with collect := true }
def netTables : Tbl Live := [(tblDim, { active := [(0, seal8 (7 + 6 * 2 ^ 16 + 2 ^ 32))] }), (tblPort, { active := [(3, seal4 8), (9, seal4 12)] })]
def ports2 : Tbl PortSt := [(3, act0), (9, act0)]
def netRun : Run := { run with plan := { plan with flows := [(5, fl), (6, flC), (7, flM)] } }
def net : Machine.State := { base with
   tables := netTables, ports := ports2, links := [(0, { flows := [(5, fl), (6, flC), (7, flM)] })], fabric := { base.fabric with armed := some 7 },
   run := some netRun }
def eu (w0 w1 w2 : W32) : E2EUnit := { w0 := w0, w1 := w1, w2 := w2, w3 := 0 }
-- kind, flow, rows-1 ; tseq, src ; offset, round
def e2u (kind flow rm1 tseq src off round : Nat) : E2EUnit := eu (BitVec.ofNat 32 (kind + flow * 16 + rm1 * 2 ^ 20)) (BitVec.ofNat 32 (tseq + src * 2 ^ 16)) (BitVec.ofNat 32 (off + round * 2 ^ 16))
def pos0 : PlanPos := { step := 5, beat := 0, vmove := 24, event := 0 }
def withLink (s : Machine.State) (f : LinkDie → LinkDie) : Machine.State := { s with links := [(0, f (s.linkOf 0))] }
def frecvCmd : Cmd := { op := .frecv 24 1 (.lit 0x4000) 2, pos := pos0 }
def nq (l : LinkDie → LinkDie) : Machine.State := { withLink net l with queue := [(qKey 24 2, { issued := 1, cmds := [frecvCmd] })] }
def xo (flow : Nat) : OpenXfer := { flow := flow, hop := 2, tseq := 9, source := 4, got := [0], rows := some 1, verified := true }
def sent0 : Sent := { flow := 5, tseq := 9, offset := 0, rows := 1, waiting := [4], closeAt := some 0, queue := some 2, pos := pos0 }

end W

open W

/-- A contribution that starts its tally, or fits its kind, has a result (R209). -/
theorem contribute_runs (t : Tally) (k : TKind) (items : List (Val × Nat)) (anchor : Int) (start int : Bool)
    (h : start = true ∨ t.kind = none ∨ t.kind = some k) :
    ∃ (ty : Tally) (fl : Nat), contribute t k items anchor start int = some (ty, fl) := by
  have h' : ¬ ((if start then Tally.empty else t).kind ≠ none ∧ (if start then Tally.empty else t).kind ≠ some k) := by
    rcases h with h | h | h <;> cases start <;> simp_all [Tally.kind]
  unfold contribute
  simp only [h', if_false]
  cases k <;> exact ⟨_, _, rfl⟩


namespace Sequencers

def queued : Machine.State := { up with pending := [.nop 3, .stepComplete] }
def nested : Machine.State := base.setSeq 10 { nest := [{ start := 3, count := 2, period := 9, k := 0, body := 1, close := 4 }] }
def q8 : Queue := { issued := 3, retired := 1, rows := [{ data := some (List.replicate 256 5), flags := 1 }, { data := none, flags := 0 }], cmds := [] }
def withQ : Machine.State := (base.setQ (qKey 1 0) q8)
def hold1 : Hold := { queue := 0, target := 1, site := 4, since := 3, slip := 7 }
def hold2 : Hold := { queue := 0, target := 2, site := 4, since := 3, slip := 7, limit := 1 }
def held1 : Machine.State := withQ.setSeq 1 { hold := some hold1 }
def held2 : Machine.State := { withQ.setSeq 1 { hold := some hold2 } with ns := 500000 }
def heldGo : Machine.State := { held2 with power := { held2.power with issue16 := 16 } }

/-- States and operands that meet the hypotheses of `Obligations.StepRunsFrontCommand`, clause by clause. -/
theorem witness_StepRunsFrontCommand :
  (let c : Instr := Instr.nop 3
   let rest : List Instr := [Instr.stepComplete]
   let s : State := queued
   s.pending = c :: rest) ∧
  (let s : State := up
   s.pending = []) := by
  decide +kernel

/-- States and operands that meet the hypotheses of `Obligations.SequencerOpsComplete`, clause by clause. -/
theorem witness_SequencerOpsComplete :
  (let s : State := base
   let v : VMove := 10
   s.canIssue ↑v = true) ∧
  (let s : State := base
   let v : VMove := 10
   let count : W32 := 1#32
   s.canIssue ↑v = true ∧
   count ≠ 0) ∧
  (let s : State := W.base
   let v : VMove := 10
   s.canIssue ↑v = true) ∧
  (let s : State := base
   let v : VMove := 10
   s.canIssue ↑v = true) ∧
  (let s : State := base
   let v : VMove := 10
   s.canIssue ↑v = true) := by
  decide +kernel

/-- States and operands that meet the hypotheses of `Obligations.SequencerOpsComplete`, clause by clause (its part on this). -/
theorem witness_NestOpenCompletes :
  (let s : State := base
   let v : VMove := 10
   let level : BitVec 3 := 0
   let period : W32 := 9
   s.canIssue ↑v = true ∧
   level.toNat = (s.seqOf ↑v).nest.length ∧
   level.toNat < 6 ∧
   period ≠ 0) := by
  decide +kernel

/-- States and operands that meet the hypotheses of `Obligations.WaitsAndTakesComplete`, clause by clause (its part on this). -/
theorem witness_WaitCompletes :
  (let s : State := withQ
   let v : VMove := 1
   let target : W32 := 0
   let queue : Fin 16 := 0
   s.canIssue ↑v = true ∧
   ↑queue < queueCount (s.vtype ↑v) ∧
   s.replaying = false ∧
   countDiff target (s.qOf (qKey ↑v ↑queue)).issued ≤ 0) := by
  decide +kernel

/-- States and operands that meet the hypotheses of `Obligations.WaitsAndTakesComplete`, clause by clause (its part on this). -/
theorem witness_HeldWaitEnds :
  (let s : State := held1
   let v : VMove := 1
   let h : Hold := hold1
   let r : Run := run
   s.run = some r ∧
   (s.seqOf ↑v).hold = some h ∧
   holdMet s (↑v) h = true) ∧
  (let s : State := heldGo
   let v : VMove := 1
   let h : Hold := hold2
   let r : Run := run
   let n : Mv := 1
   s.run = some r ∧ (s.seqOf ↑v).hold = some h ∧ s.virt n = v.val ∧ holdMet s (↑v) h = false ∧ r.stopped = false ∧
   s.passed n = false ∧ edgeIssues s.power.issue16 ((s.mvOf n).periods % 16) = true ∧ s.emptyBeat v = false) ∧
  (let s : State := held2
   let v : VMove := 1
   let h : Hold := hold2
   let r : Run := run
   s.run = some r ∧
   (s.seqOf ↑v).hold = some h ∧
   holdMet s (↑v) h = false ∧
   fenceBound s ↑v = false ∧
   h.limit * 1000 < s.ns - h.since ∧
   s.stop.state ≠ 2) := by
  decide +kernel

/-- States and operands that meet the hypotheses of `Obligations.WaitsAndTakesComplete`, clause by clause (its part on this). -/
theorem witness_TakeCompletes :
  (let s : State := withQ
   let v : VMove := 1
   let dst : AddrOp := AddrOp.lit 8388608
   let queue : Fin 16 := 0
   let rowsM1 : BitVec 12 := 0
   let split : Option AddrOp := none
   let q : Machine.Seq := s.seqOf ↑v
   let n : Nat := rowsM1.toNat + 1
   let u : Queue := s.qOf (qKey ↑v ↑queue)
   let at_ : Nat → Nat × Nat := takeRow (q.addr dst) (Option.map q.addr split) (s.mvOf (s.phys ↑v)).beats
   s.canIssue ↑v = true ∧
   ↑queue < queueCount (s.vtype ↑v) ∧
   (split = none ∨ s.vtype ↑v = 6 ∨ s.vtype ↑v = 7) ∧
   n ≤ u.rows.length ∧
   s.inExtents (↑v) (writes (List.map at_ (List.range n)))) := by
  unfold State.inExtents
  decide +kernel

end Sequencers

namespace Engines

def rows (n k : Nat) : Bytes := (List.range n).map fun i => BitVec.ofNat 8 ((i * 37 + i / 7 + k) % 251)
def mem (n k : Nat) : List (Nat × Byte) := (List.range n).map fun i => (i * 97, BitVec.ofNat 8 ((i * 37 + i / 7 + k) % 251 + 1))
def scr (v : Nat) (s : Machine.State) : Machine.State := s.setMv v { s.mvOf v with beats := 40, scratch := mem 24 v }
def mat : Machine.State := (scr 10 base).setMat 10 { acc := [0,3,17,256,257,300].map (fun k => (k, BitVec.ofNat 128 (k * 12345678901 + 1))), buf0 := { tile := mem 12 5, fmt := some 5 }, buf1 := { tile := mem 12 5, fmt := some 11, chk := true } }
def matBad : Machine.State := (scr 10 base).setMat 10 { acc := [0,3,17,256,257,300].map (fun k => (k, BitVec.ofNat 128 (k * 12345678901 + 1))), bad := [515], weak := [(0, 1), (600, 7)] }
def matWeak : Machine.State := (scr 10 base).setMat 10 { acc := [(256, 9)], weak := [(600, 7)] }
def matChk : Machine.State := base.setMat 10 { buf0 := { fmt := some 3, chk := true, faults := [(0, 0x3C)] } }
def vec (u : Vector) : Machine.State := (scr 9 base).setVec 9 u
def sk : Machine.State := (scr 8 base).setSk 8 { sscale := 0x4001000, dscale := 0x4001800, seed := 3 }
def u1 : Vector := { afmt := 1, bfmt := 0, ofmt := 1, t := 7 }
def u2 : Vector := { afmt := 3, bfmt := 3, ofmt := 3, t := 7, sat := true, tallies := [(1, .sum 5)] }
def u3 : Vector := { afmt := 12, bfmt := 12, ofmt := 12, t := 7, tapk := 3, tapTally := 2, tapStart := true  }
def u4 : Vector := { u1 with kinds := [(1, some TKind.max)] }
def tap3 : Tap := { kind := 3, tally := 2, start := true, anchor := 0, base := 0 }
def F1 : VForm := .straps (.lit 0x4804000) (.lit 0x4800000) (.lit 0x4800000)
def F2 : VForm2 := .imm (.lit 0x4804000) (.lit 0x4800000) 5
def u7 : Vector := { afmt := 11, bfmt := 11, ofmt := 11, t := 7 }

/-- States and operands that meet the hypotheses of `Obligations.MatrixLoadsAndStreams`, clause by clause (its part on this). -/
theorem witness_MatrixLoadsComplete :
  (let s : State := mat
   let v : VMove := 10
   let n : Nat := s.phys ↑v
   let b : Nat := (s.mvOf n).beats
   let q : Machine.Seq := s.seqOf ↑v
   let src : AddrOp := AddrOp.lit 84410368
   let sr : W16 := 65535
   let bfmt : BitVec 5 := 5
   let chk : Bool := false
   s.canEngine ↑v = true ∧
   s.vtype ↑v = 1 ∧
   mClass bfmt.toNat ≠ 0 ∧
   (chk = true → chkOk bfmt.toNat = true) ∧
   s.inExtents (↑v) (reads (tileLoadRows (q.addr src) (BitVec.toInt sr) b))) ∧
  (let s : State := mat
   let v : VMove := 10
   let n : Nat := s.phys ↑v
   let b : Nat := (s.mvOf n).beats
   let q : Machine.Seq := s.seqOf ↑v
   let src : AddrOp := AddrOp.lit 84410368
   s.canEngine ↑v = true ∧
   s.vtype ↑v = 1 ∧
   s.inExtents (↑v) (reads (tileScaleRows (q.addr src) b))) ∧
  (let s : State := mat
   let v : VMove := 10
   s.canEngine ↑v = true ∧
   s.vtype ↑v = 1) ∧
  (let s : State := mat
   let v : VMove := 10
   s.canEngine ↑v = true ∧
   s.vtype ↑v = 1) := by
  unfold State.inExtents
  decide +kernel

/-- States and operands that meet the hypotheses of `Obligations.MatrixLoadsAndStreams`, clause by clause (its part on this). -/
theorem witness_StreamIssues :
  (let s : State := mat
   let v : VMove := 10
   let a : AddrOp := AddrOp.lit 83886080
   let acc : AccOp := AccOp.row 2
   let rows : BitVec 11 := 2
   let buf : Bool := false
   let sub : Bool := false
   let afmt : BitVec 5 := 5
   let n : Nat := s.phys ↑v
   let tb : TileBuf := (s.matOf n).buf buf
   let b : Nat := (s.mvOf n).beats
   let q : Machine.Seq := s.seqOf ↑v
   let f : Nat := afmt.toNat
   s.canEngine ↑v = true ∧
   s.vtype ↑v = 1 ∧
   1 ≤ rows.toNat ∧
   rows.toNat ≤ 1024 ∧
   mClass f ≠ 0 ∧
   mClass f = mClass (tb.fmt.getD f) ∧
   (tb.chk = true → chkOk f = true) ∧
   (sub = true → mClass f = 16) ∧
   s.inExtents (↑v)
     (reads (streamReads (q.addr a) (BitVec.toNat (s.matOf n).ascale) rows.toNat f b) ++
       accRows (q.accRow acc) rows.toNat (b + 280) 1 true)) := by
  unfold State.inExtents
  decide +kernel

/-- A memory of which nothing is written reads 0. -/
theorem memGet_empty (off n : Nat) : memGet none [] off n = List.replicate n 0 := by
  induction n generalizing off with
  | zero => rfl
  | succ n ih => rw [memGet, ih, List.replicate_succ]; rfl

/-- Writing zeros leaves such a memory as it is. -/
theorem memPutAll_zeros (bs : Bytes) (h : ∀ b ∈ bs, b = 0) (a : Nat) : memPutAll none [] a bs = [] := by
  induction bs generalizing a with
  | nil => rfl
  | cons b bs ih =>
    rw [memPutAll, h b (by simp)]
    exact ih (fun x hx => h x (by simp [hx])) _

/-- States and operands that meet the hypotheses of `Obligations.MatrixLoadsAndStreams`, clause by clause (its part on this). -/
theorem witness_MatrixWorkDone :
  (let s : State := matChk
   let r : Run := run
   let n : Nat := s.phys 10
   let tb : TileBuf := (s.matOf n).buf false
   let rows : Mem := memPutAll none [] 0 (readAll s (tileLoadRows 83886080 1 40)).flatten
   let tile : Mem := tb.faults.foldl (fun x e => memPut none x e.1 (BitVec.ofNat 8 e.2)) rows
   s.run = some r ∧ rowCheck { tb with tile := tile, arrived := rows } (tb.fmt.getD 3) = false) ∧
  (let s : State := mat
   let n : Nat := s.phys 10
   let tb : TileBuf := (s.matOf n).buf false
   risingFrom 0 s.matrix = true ∧ tb.bad = [] ∧ tb.weak = []) := by
  refine ⟨⟨rfl, ?_⟩, by decide +kernel⟩
  have hz : memPutAll none [] 0 (readAll matChk (tileLoadRows 83886080 1 40)).flatten = [] := by
    refine memPutAll_zeros _ (fun b hb => ?_) 0
    obtain ⟨l, hl, hb⟩ := List.mem_flatten.mp hb
    obtain ⟨r, hr, rfl⟩ := List.mem_map.mp hl
    have hv : ∀ r ∈ tileLoadRows 83886080 1 40, matChk.phys (addrVm r.1) = 10 := by decide +kernel
    have hm : matChk.mvOf 10 = { beats := 40 } := by decide +kernel
    rw [State.readRow, hv r hr, State.rowSeen, hm] at hb
    simp only [List.filter_nil, List.foldl_nil, memGet_empty] at hb
    exact List.eq_of_mem_replicate hb
  rw [hz]
  decide +kernel

/-- States and operands that meet the hypotheses of `Obligations.MatrixAccumulators`, clause by clause (its part on this). -/
theorem witness_MatrixAccumulatorOpsComplete :
  (let s : State := mat
   let v : VMove := 10
   let b : Nat := (s.mvOf (s.phys ↑v)).beats
   let q : Machine.Seq := s.seqOf ↑v
   let dst : AddrOp := .lit 83902464
   let acc : AccOp := .row 0
   let rows : BitVec 11 := 1
   let ofmt : BitVec 5 := 0
   let round : BitVec 2 := 0
   s.canEngine ↑v = true ∧ s.vtype ↑v = 1 ∧ 1 ≤ rows.toNat ∧ rows.toNat ≤ 1024 ∧ drainOk ofmt.toNat = true ∧ round ≠ 3 ∧
   s.inExtents (↑v) (accRows (q.accRow acc) rows.toNat b 1 false
     ++ writes (drainWrites (q.addr dst) rows.toNat ofmt.toNat b))) ∧
  (let s : State := mat
   let v : VMove := 10
   let b : Nat := (s.mvOf (s.phys ↑v)).beats
   let q : Machine.Seq := s.seqOf ↑v
   let dst : AddrOp := .lit 83902464
   let acc : AccOp := .row 0
   let rows : BitVec 11 := 1
   s.canEngine ↑v = true ∧ s.vtype ↑v = 1 ∧ 1 ≤ rows.toNat ∧ rows.toNat ≤ 1024 ∧
   s.inExtents (↑v) (accRows (q.accRow acc) rows.toNat b 4 false ++ writes (wideRows (q.addr dst) rows.toNat b))) ∧
  (let s : State := mat
   let v : VMove := 10
   let b : Nat := (s.mvOf (s.phys ↑v)).beats
   let q : Machine.Seq := s.seqOf ↑v
   let src : AddrOp := .lit 83886080
   let acc : AccOp := .row 0
   let rows : BitVec 11 := 1
   s.canEngine ↑v = true ∧ s.vtype ↑v = 1 ∧ 1 ≤ rows.toNat ∧ rows.toNat ≤ 1024 ∧
   s.inExtents (↑v) (reads (wideRows (q.addr src) rows.toNat b) ++ accRows (q.accRow acc) rows.toNat (b + 27) 4 true)) ∧
  (let s : State := mat
   let m : Matrix := s.matOf (s.phys 10)
   risingFrom 0 s.matrix = true ∧ m.bad = [] ∧ m.weak = []) := by
  unfold State.inExtents
  decide +kernel

/-- States and operands that meet the hypotheses of `Obligations.VectorModesAndTallies`, clause by clause (its part on this). -/
theorem witness_VectorModeOpsComplete :
  (let s : State := vec u2
   let v : VMove := 9
   let afmt : BitVec 5 := 1
   let bfmt : BitVec 5 := 0
   let ofmt : BitVec 5 := 1
   let round : BitVec 2 := 0
   s.canEngine ↑v = true ∧
   s.vtype ↑v = 2 ∧
   strapOk afmt.toNat = true ∧
   strapOk bfmt.toNat = true ∧
   strapOk ofmt.toNat = true ∧
   round ≠ 3) ∧
  (let s : State := vec u2
   let v : VMove := 9
   let tapk : BitVec 3 := 5
   s.canEngine ↑v = true ∧
   s.vtype ↑v = 2 ∧
   tapk.toNat < 6) ∧
  (let s : State := vec u2
   let v : VMove := 9
   let fn : Bool := true
   let mult : W32 := 0
   s.canEngine ↑v = true ∧
   s.vtype ↑v = 2 ∧
   (fn = true → mult = 0)) := by
  decide +kernel

/-- States and operands that meet the hypotheses of `Obligations.MatrixAccumulators`, clause by clause (its part on this). -/
theorem witness_AccumulatorEccEndsStep :
  (let s : State := matBad
   let r : Run := run
   let m : Matrix := s.matOf (s.phys 10)
   s.run = some r ∧ r.fault = none ∧ (m.bad.filter (accWords (0 + 1) 0 256).contains).head? = some 515) ∧
  (let s : State := matWeak
   let r : Run := run
   let m : Matrix := s.matOf (s.phys 10)
   s.run = some r ∧ r.fault = none ∧ m.bad = [] ∧ m.weak = [(600, 7)] ∧ 600 ∈ accWords (0 + 1) 0 256 ∧
     risingFrom 0 s.matrix = true) ∧
  (let s : State := matBad
   let n : Mv := 10
   let m : Matrix := s.matOf ↑n
   risingFrom 0 s.matrix = true ∧ risingFrom 0 m.acc = true ∧ 515 ∈ m.bad) := by
  decide +kernel

/-- States and operands that meet the hypotheses of `Obligations.VectorPassesComplete`, clause by clause. -/
theorem witness_VectorPassesComplete :
  (let s : State := vec u1
   let v : VMove := 9
   let f : VForm := F1
   let u : VMode := (s.vecOf (s.phys ↑v)).toVMode
   let b : Nat := (s.mvOf (s.phys ↑v)).beats
   let q : Machine.Seq := s.seqOf ↑v
   let src : BSrc := match f with
     | VForm.straps d a b => BSrc.strap (q.addr b)
     | VForm.imm d a i => BSrc.imm i
     | VForm.const d a => BSrc.const
   let da : Nat × Option Nat := match f with
     | VForm.straps d a b => (q.addr d, some (q.addr a))
     | VForm.imm d a i => (q.addr d, some (q.addr a))
     | VForm.const d a => (q.addr d, some (q.addr a))
   let p : Instr × VFun := (Instr.add 9 F1, VFun.add)
   s.canEngine ↑v = true ∧
   s.vtype ↑v = 2 ∧
   (s.vecOf (s.phys ↑v)).tapk = 0 ∧
   p ∈
     [(Instr.add v f, VFun.add), (Instr.sub v f, VFun.sub), (Instr.mul v f, VFun.mul),
       (Instr.mad v f, VFun.mad), (Instr.min v f, VFun.min), (Instr.max v f, VFun.max),
       (Instr.cmpeq v f, VFun.cmpeq), (Instr.cmpne v f, VFun.cmpne), (Instr.cmplt v f, VFun.cmplt),
       (Instr.cmple v f, VFun.cmple), (Instr.sel v f, VFun.sel), (Instr.and v f, VFun.and),
       (Instr.or v f, VFun.or), (Instr.xor v f, VFun.xor), (Instr.shl v f, VFun.shl),
       (Instr.shr v f, VFun.shr)] ∧
   passOk u p.2 = true ∧
   s.inExtents (↑v) (passAccs u p.2 da.1 da.2 src b)) ∧
  (let s : State := vec u1
   let v : VMove := 9
   let f2 : VForm2 := F2
   let u : VMode := (s.vecOf (s.phys ↑v)).toVMode
   let b : Nat := (s.mvOf (s.phys ↑v)).beats
   let q : Machine.Seq := s.seqOf ↑v
   let src2 : BSrc := match f2 with
     | VForm2.straps d a b => BSrc.strap (q.addr b)
     | VForm2.imm d a i => BSrc.imm i
   let da2 : Nat × Option Nat := match f2 with
     | VForm2.straps d a b => (q.addr d, some (q.addr a))
     | VForm2.imm d a i => (q.addr d, some (q.addr a))
   let p : Instr × VFun := (Instr.affine 9 F2, VFun.affine)
   s.canEngine ↑v = true ∧
   s.vtype ↑v = 2 ∧
   (s.vecOf (s.phys ↑v)).tapk = 0 ∧
   p ∈ [(Instr.affine v f2, VFun.affine), (Instr.exps v f2, VFun.exps)] ∧
   passOk u p.2 = true ∧
   s.inExtents (↑v) (passAccs u p.2 da2.1 da2.2 src2 b)) ∧
  (let s : State := vec u1
   let v : VMove := 9
   let d : AddrOp := AddrOp.lit 75513856
   let i : W32 := 3
   let u : VMode := (s.vecOf (s.phys ↑v)).toVMode
   let b : Nat := (s.mvOf (s.phys ↑v)).beats
   let q : Machine.Seq := s.seqOf ↑v
   s.canEngine ↑v = true ∧
   s.vtype ↑v = 2 ∧
   (s.vecOf (s.phys ↑v)).tapk = 0 ∧
   passOk u VFun.iota = true ∧
   s.inExtents (↑v) (passAccs u VFun.iota (q.addr d) none (BSrc.imm i) b)) ∧
  (let s : State := vec u1
   let v : VMove := 9
   let d : AddrOp := AddrOp.lit 75513856
   let a : AddrOp := AddrOp.lit 75497472
   let u : VMode := (s.vecOf (s.phys ↑v)).toVMode
   let b : Nat := (s.mvOf (s.phys ↑v)).beats
   let q : Machine.Seq := s.seqOf ↑v
   let p : Instr × VFun := (Instr.vectorCopy 9 (AddrOp.lit 75513856) (AddrOp.lit 75497472), VFun.copy)
   s.canEngine ↑v = true ∧
   s.vtype ↑v = 2 ∧
   (s.vecOf (s.phys ↑v)).tapk = 0 ∧
   p ∈
     [(Instr.vectorCopy v d a, VFun.copy), (Instr.abs v d a, VFun.abs), (Instr.neg v d a, VFun.neg),
       (Instr.exp2 v d a, VFun.exp2), (Instr.log2 v d a, VFun.log2), (Instr.rcp v d a, VFun.rcp),
       (Instr.sqrt v d a, VFun.sqrt), (Instr.rsqrt v d a, VFun.rsqrt), (Instr.tanh v d a, VFun.tanh),
       (Instr.sigmoid v d a, VFun.sigmoid), (Instr.gelu v d a, VFun.gelu), (Instr.silu v d a, VFun.silu)] ∧
   passOk u p.2 = true ∧
   s.inExtents (↑v) (passAccs u p.2 (q.addr d) (some (q.addr a)) (BSrc.imm 0) b)) := by
  unfold State.inExtents
  decide +kernel

/-- States and operands that meet the hypotheses of `Obligations.VectorPassesComplete`, clause by clause (its part on this). -/
theorem witness_VectorPassDone :
  let m : VMode := u1.toVMode
  let x : Flight := { pos := pos0, work := .pass .add 75513856 (some 75497472) .const m none, next := 15 }
  x.next < 16 ∧ x.work = .pass .add 75513856 (some 75497472) .const m none := by
  decide +kernel

/-- States and operands that meet the hypotheses of `Obligations.SkiverOpsComplete`, clause by clause. -/
theorem witness_SkiverOpsComplete :
  (let s : State := sk
   let v : VMove := 8
   let dst : AddrOp := AddrOp.lit 67633152
   let src : AddrOp := AddrOp.lit 67108864
   let q : Machine.Seq := s.seqOf ↑v
   let b : Nat := (s.mvOf (s.phys ↑v)).beats
   let d : Nat := q.addr dst
   let a : Nat := q.addr src
   let sr : W16 := 1
   let dr : BitVec 14 := 2
   s.canEngine ↑v = true ∧
   s.vtype ↑v = 3 ∧
   s.inExtents (↑v)
     (reads (strideRows a (BitVec.toInt sr) 256 b) ++ writes (strideRows d dr.toInt 256 (b + 300)))) ∧
  (let s : State := sk
   let v : VMove := 8
   let dst : AddrOp := AddrOp.lit 67633152
   let src : AddrOp := AddrOp.lit 67108864
   let q : Machine.Seq := s.seqOf ↑v
   let b : Nat := (s.mvOf (s.phys ↑v)).beats
   let d : Nat := q.addr dst
   let a : Nat := q.addr src
   let n : Byte := 3
   let sr : BitVec 12 := 1
   let dr : BitVec 12 := 2
   s.canEngine ↑v = true ∧
   s.vtype ↑v = 3 ∧
   s.inExtents (↑v)
     (reads (strideRows a sr.toInt (BitVec.toNat n + 1) b) ++
       writes (strideRows d dr.toInt (BitVec.toNat n + 1) (b + 300)))) ∧
  (let s : State := sk
   let v : VMove := 8
   let dst : AddrOp := AddrOp.lit 67633152
   let src : AddrOp := AddrOp.lit 67108864
   let q : Machine.Seq := s.seqOf ↑v
   let b : Nat := (s.mvOf (s.phys ↑v)).beats
   let d : Nat := q.addr dst
   let a : Nat := q.addr src
   let gM1 : BitVec 12 := 0
   let i : BitVec 5 := 0
   let o : BitVec 5 := 5
   let round : BitVec 2 := 0
   let k : Skiver := s.skOf (s.phys ↑v)
   let g : Nat := gM1.toNat + 1
   s.canEngine ↑v = true ∧
   s.vtype ↑v = 3 ∧
   convertOk i.toNat o.toNat g = true ∧
   round ≠ 3 ∧
   o ≠ 17 ∧
   s.inExtents (↑v) (convertAccs k d a i.toNat o.toNat g b)) ∧
  (let s : State := sk
   let v : VMove := 8
   let dst : AddrOp := AddrOp.lit 67633152
   let src : AddrOp := AddrOp.lit 67108864
   let q : Machine.Seq := s.seqOf ↑v
   let b : Nat := (s.mvOf (s.phys ↑v)).beats
   let d : Nat := q.addr dst
   let a : Nat := q.addr src
   let gM1 : BitVec 12 := 1
   let i : BitVec 5 := 0
   let round : BitVec 2 := 0
   let k : Skiver := s.skOf (s.phys ↑v)
   let g : Nat := gM1.toNat + 1
   s.canEngine ↑v = true ∧
   s.vtype ↑v = 3 ∧
   convertOk i.toNat 17 g = true ∧
   round ≠ 3 ∧
   s.inExtents (↑v) (convertAccs k d a i.toNat 17 g b)) ∧
  (let s : State := sk
   let v : VMove := 8
   s.canEngine ↑v = true ∧
   s.vtype ↑v = 3) := by
  unfold State.inExtents
  decide +kernel

/-- States and operands that meet the hypotheses of `Obligations.VectorModesAndTallies`, clause by clause (its part on this). -/
theorem witness_ReductionsIssue :
  (let s : State := vec u1
   let v : VMove := 9
   let a : AddrOp := .lit 75497472
   let u : Vector := s.vecOf (s.phys ↑v)
   let bt : Nat := (s.mvOf (s.phys ↑v)).beats
   let q : Machine.Seq := s.seqOf ↑v
   s.canEngine ↑v = true ∧ s.vtype ↑v = 2 ∧ strapOk u.afmt = true ∧ strapOk u.bfmt = true ∧
   s.inExtents (↑v) (reads (strapRows (q.addr a) (strapW u.afmt) bt) ++ []) ∧
   s.inExtents (↑v) (reads (strapRows (q.addr a) (strapW u.afmt) bt) ++ reads (strapRows (q.addr a) (strapW u.bfmt) bt)) ∧
   u.takes 1 .sum true = true ∧ u.takes 2 .max false = true ∧ u.takes 2 .min false = true) ∧
  (let s : State := vec u4
   let v : VMove := 9
   let r : Run := run
   let u : Vector := s.vecOf (s.phys ↑v)
   s.canEngine ↑v = true ∧ s.vtype ↑v = 2 ∧ strapOk u.afmt = true ∧ strapOk u.bfmt = true ∧
   s.inExtents (↑v) (reads (strapRows ((s.seqOf ↑v).addr (.lit 75497472)) (strapW u.afmt) (s.mvOf (s.phys ↑v)).beats) ++ []) ∧
   s.run = some r ∧ u.takes 1 .sum false = false) := by
  unfold State.inExtents
  decide +kernel

/-- States and operands that meet the hypotheses of `Obligations.VectorModesAndTallies`, clause by clause (its part on this). -/
theorem witness_ReductionsDone :
  (let s : State := vec u1
   let u : Vector := s.vecOf (s.phys 9)
   let vals : List Val := groupVals s 75497472 1 40 0
   ∃ (ty : Tally) (fl : Nat),
     contribute (tget .empty u.tallies 1) .sum ((indexed vals).map fun e => (e.2, (0 + 256 * 0 + e.1) % 2 ^ 32)) 0
       (true && (0 : Nat) == 0) (isInt 1) = some (ty, fl)) ∧
  (let s : State := vec u2
   let u : Vector := s.vecOf (s.phys 9)
   let mask : W16 := 3
   risingFrom 0 s.vector = true ∧
     ∀ i : Nat, i < 16 → mask.getLsbD i = true →
       ∃ x, tget .empty u.tallies i = .empty ∨ tget .empty u.tallies i = .sum x) := by
  refine ⟨contribute_runs _ _ _ _ _ _ (by decide +kernel), by decide +kernel, ?_⟩
  intro i h1 h2
  have : i = 0 ∨ i = 1 := by
    have h3 : ∀ j : Fin 16, (3 : W16).getLsbD j.val = true → j.val = 0 ∨ j.val = 1 := by decide +kernel
    exact h3 ⟨i, h1⟩ h2
  rcases this with rfl | rfl
  · exact ⟨0, Or.inl (by decide +kernel)⟩
  · exact ⟨5, Or.inr (by decide +kernel)⟩

/-- States and operands that meet the hypotheses of `Obligations.VectorModesAndTallies`, clause by clause (its part on this). -/
theorem witness_TallyTransfersIssue :
  (let s : State := vec u2
   let v : VMove := 9
   let u : Vector := s.vecOf (s.phys ↑v)
   let b : Nat := (s.mvOf (s.phys ↑v)).beats
   let mask : W16 := 3
   s.canEngine ↑v = true ∧ s.vtype ↑v = 2 ∧ ((maskBits mask).all fun i => u.takes i .sum false) = true ∧
   s.inExtents (↑v) (reads [((s.seqOf ↑v).addr (.lit 75497472), b)])) ∧
  (let s : State := vec u2
   let v : VMove := 9
   let b : Nat := (s.mvOf (s.phys ↑v)).beats
   let ofmt : BitVec 5 := 0
   let round : BitVec 2 := 0
   s.canEngine ↑v = true ∧ s.vtype ↑v = 2 ∧ strapOk ofmt.toNat = true ∧ round ≠ 3 ∧
   s.inExtents (↑v) (writes [((s.seqOf ↑v).addr (.lit 75513856), b)])) := by
  unfold State.inExtents
  decide +kernel

/-- States and operands that meet the hypotheses of `Obligations.VectorModesAndTallies`, clause by clause (its part on this). -/
theorem witness_TapFeedsTally :
  (let s : State := vec u3
   let v : VMove := 9
   let u : Vector := s.vecOf (s.phys ↑v)
   let x : Tap := tap3
   s.canEngine ↑v = true ∧ s.vtype ↑v = 2 ∧ u.tap = some x ∧ u.takes x.tally (tapKind x.kind) x.start = true ∧
   passOk u.toVMode .copy = true ∧
   s.inExtents (↑v) (passAccs u.toVMode .copy ((s.seqOf ↑v).addr (.lit 75513856)) (some ((s.seqOf ↑v).addr (.lit 75497472)))
     (.imm 0) (s.mvOf (s.phys ↑v)).beats)) ∧
  (let s : State := vec u3
   let u : Vector := s.vecOf (s.phys 9)
   let m : VMode := u3.toVMode
   let x : Flight := { pos := { pos0 with vmove := 9 }, work := .pass .copy 75513856 (some 75497472) (.imm 0) m (some tap3)
                       next := 16, held := List.replicate 16 (List.replicate 1024 7) }
   let g : Nat := x.next - 16
   let vals : List Val := (codesOf (strapW m.ofmt) 256 (x.held.getD g [])).map fun c => (decodeElem m.ofmt c).1
   16 ≤ x.next ∧ ∃ (ty : Tally) (fl : Nat),
     contribute (tget .empty u.tallies tap3.tally)
       (if tap3.kind = 3 ∨ tap3.kind = 5 then .max else if tap3.kind = 4 then .min else .sum) ((indexed vals).map fun e =>
       (if tap3.kind = 2 then (mulVal e.2 e.2).1 else e.2,
        if tap3.kind = 5 then (tap3.base.toNat + (256 * g + e.1)) % 2 ^ 32 else 256 * g + e.1))
       tap3.anchor (tap3.start && g == 0) (isInt m.ofmt) = some (ty, fl)) := by
  refine ⟨?_, by decide +kernel, contribute_runs _ _ _ _ _ _ (by decide +kernel)⟩
  unfold State.inExtents
  decide +kernel

end Engines

namespace Companions

def mem (n k : Nat) : List (Nat × Byte) := (List.range n).map fun i => (i * 97, BitVec.ofNat 8 ((i * 37 + i / 7 + k) % 251 + 1))
def scr (v : Nat) (s : Machine.State) : Machine.State := s.setMv v { s.mvOf v with beats := 40, scratch := mem 24 v }
def c0 : Machine.State := (scr 0 (scr 1 (scr 4 base))).setQ (qKey 1 2) { issued := 3, retired := 2, cmds := [{ op := .nop 1, pos := pos0 }] }
def cFull : Machine.State := (scr 1 base).setQ (qKey 1 2) { issued := 10, retired := 2 }
def cRows : Machine.State := (scr 1 base).setQ (qKey 1 2) { issued := 1, cmds := [{ op := .nop 1, pos := pos0, rows := 16383 }] }
def pos1 : PlanPos := { pos0 with vmove := 1 }
def ps8 : PaneSet := { first := 5, nr := 2, nc := 1, rstr := 1, cstr := 1, grain := 8, ready := true }
def cMvm : Machine.State := (scr 0 base).setAw 0 { state := 3, sets := [(3, ps8)] }
def cLost : Machine.State := (scr 0 base).setAw 0 { state := 3, sets := [(3, ps8)], lost := [6] }
def hwWait : Cmd := { op := .hwrite 4 (.lit 0x2000000) 0 1 3 1, pos := { pos0 with vmove := 4 }, ready := false }
def slot1 : BSlot := { handle := 4, latched := { temp := 0 }, now := { temp := 0, tokens := 2, maxTokens := 100 } }
def run4 : Run := { run with slots := [(3, slot1)] }
def c4 : Machine.State := ((scr 19 { base with run := some run4 })).setBr 19 { vocabM1 := 12, lfmt := 1 }

/-- States and operands that meet the hypotheses of `Obligations.CompanionCommandsIssue`, clause by clause. -/
theorem witness_CompanionCommandsIssue :
  (let s : State := c0
   let v : VMove := 0
   let k : Fin 4 := 2
   let u : Queue := s.qOf (qKey ↑v ↑k)
   s.canEngine ↑v = true ∧
   s.discarded = false ∧
   s.vtype ↑v = 5 ∧
   BitVec.toNat (u.issued - u.retired) ≠ (s.qDecl ↑v ↑k).1 ∧
   u.reserved 40 + 0 ≤ (s.qDecl ↑v ↑k).2 ∧
   s.inExtents (↑v) (reads [])) ∧
  (let s : State := c0
   let v : VMove := 0
   let k : Fin 4 := 2
   let u : Queue := s.qOf (qKey ↑v ↑k)
   s.canEngine ↑v = true ∧
   s.discarded = false ∧
   s.vtype ↑v = 5 ∧
   BitVec.toNat (u.issued - u.retired) ≠ (s.qDecl ↑v ↑k).1 ∧
   u.reserved 40 + 0 ≤ (s.qDecl ↑v ↑k).2 ∧
   s.inExtents (↑v) (reads [])) ∧
  (let s : State := c0
   let v : VMove := 1
   let n : BitVec 12 := 1
   let k : Fin 8 := 2
   let u : Queue := s.qOf (qKey ↑v ↑k)
   s.canEngine ↑v = true ∧
   s.discarded = false ∧
   s.vtype ↑v = 6 ∧
   BitVec.toNat (u.issued - u.retired) ≠ (s.qDecl ↑v ↑k).1 ∧
   u.reserved 40 + (n.toNat + 1) ≤ (s.qDecl ↑v ↑k).2 ∧
   s.inExtents (↑v) (reads [])) ∧
  (let s : State := c0
   let v : VMove := 1
   let b : Nat := (s.mvOf (s.phys ↑v)).beats
   let q : Machine.Seq := s.seqOf ↑v
   let n : BitVec 12 := 1
   let src : AddrOp := AddrOp.lit 8388608
   let k : Fin 8 := 2
   let rows : List (Nat × Nat) := outRows (q.addr src) (n.toNat + 1) b
   let u : Queue := s.qOf (qKey ↑v ↑k)
   s.canEngine ↑v = true ∧
   s.discarded = false ∧
   s.vtype ↑v = 6 ∧
   BitVec.toNat (u.issued - u.retired) ≠ (s.qDecl ↑v ↑k).1 ∧
   u.reserved 40 + 0 ≤ (s.qDecl ↑v ↑k).2 ∧
   s.inExtents (↑v) (reads rows)) ∧
  (let s : State := c0
   let v : VMove := 1
   let b : Nat := (s.mvOf (s.phys ↑v)).beats
   let q : Machine.Seq := s.seqOf ↑v
   let idx : AddrOp := AddrOp.lit 8388608
   let n : BitVec 12 := 1
   let l : BitVec 4 := 0
   let k : Fin 8 := 2
   let rows : List (Nat × Nat) := outRows (q.addr idx) (indexRows (n.toNat + 1)) b
   let u : Queue := s.qOf (qKey ↑v ↑k)
   s.canEngine ↑v = true ∧
   s.discarded = false ∧
   s.vtype ↑v = 6 ∧
   BitVec.toNat (u.issued - u.retired) ≠ (s.qDecl ↑v ↑k).1 ∧
   u.reserved 40 + (n.toNat + 1) * (l.toNat + 1) ≤ (s.qDecl ↑v ↑k).2 ∧
   s.inExtents (↑v) (reads rows)) ∧
  (let s : State := c0
   let v : VMove := 1
   let b : Nat := (s.mvOf (s.phys ↑v)).beats
   let q : Machine.Seq := s.seqOf ↑v
   let idx : AddrOp := AddrOp.lit 8388608
   let data : AddrOp := AddrOp.lit 8392704
   let n : BitVec 12 := 1
   let l : BitVec 4 := 0
   let k : Fin 8 := 2
   let rows : List (Nat × Nat) := scatterRows (q.addr idx) (q.addr data) (n.toNat + 1) (l.toNat + 1) b
   let u : Queue := s.qOf (qKey ↑v ↑k)
   s.canEngine ↑v = true ∧
   s.discarded = false ∧
   s.vtype ↑v = 6 ∧
   BitVec.toNat (u.issued - u.retired) ≠ (s.qDecl ↑v ↑k).1 ∧
   u.reserved 40 + 0 ≤ (s.qDecl ↑v ↑k).2 ∧
   s.inExtents (↑v) (reads rows)) ∧
  (let s : State := c0
   let v : VMove := 1
   let b : Nat := (s.mvOf (s.phys ↑v)).beats
   let q : Machine.Seq := s.seqOf ↑v
   let idx : AddrOp := AddrOp.lit 8388608
   let n : BitVec 12 := 1
   let l : BitVec 4 := 0
   let k : Fin 8 := 2
   let rows : List (Nat × Nat) := outRows (q.addr idx) (indexRows (n.toNat + 1)) b
   let u : Queue := s.qOf (qKey ↑v ↑k)
   s.canEngine ↑v = true ∧
   s.discarded = false ∧
   s.vtype ↑v = 6 ∧
   BitVec.toNat (u.issued - u.retired) ≠ (s.qDecl ↑v ↑k).1 ∧
   u.reserved 40 + (n.toNat + 1) * (l.toNat + 1) ≤ (s.qDecl ↑v ↑k).2 ∧
   s.inExtents (↑v) (reads rows)) ∧
  (let s : State := c0
   let v : VMove := 1
   let units : W32 := 5
   let k : Fin 8 := 2
   let u : Queue := s.qOf (qKey ↑v ↑k)
   s.canEngine ↑v = true ∧
   s.discarded = false ∧
   units ≠ 0 ∧
   s.vtype ↑v = 6 ∧
   BitVec.toNat (u.issued - u.retired) ≠ (s.qDecl ↑v ↑k).1 ∧
   u.reserved 40 + 0 ≤ (s.qDecl ↑v ↑k).2 ∧
   s.inExtents (↑v) (reads [])) ∧
  (let s : State := c0
   let v : VMove := 1
   let k : Fin 8 := 2
   let u : Queue := s.qOf (qKey ↑v ↑k)
   s.canEngine ↑v = true ∧
   s.discarded = false ∧
   s.vtype ↑v = 6 ∧
   BitVec.toNat (u.issued - u.retired) ≠ (s.qDecl ↑v ↑k).1 ∧
   u.reserved 40 + 0 ≤ (s.qDecl ↑v ↑k).2 ∧
   s.inExtents (↑v) (reads [])) ∧
  (let s : State := c0
   let v : VMove := 1
   let b : Nat := (s.mvOf (s.phys ↑v)).beats
   let q : Machine.Seq := s.seqOf ↑v
   let src : AddrOp := AddrOp.lit 8388608
   let n : BitVec 12 := 1
   let k : Fin 8 := 2
   let rows : List (Nat × Nat) := outRows (q.addr src) (n.toNat + 1) b
   let u : Queue := s.qOf (qKey ↑v ↑k)
   s.canEngine ↑v = true ∧
   s.discarded = false ∧
   s.vtype ↑v = 6 ∧
   BitVec.toNat (u.issued - u.retired) ≠ (s.qDecl ↑v ↑k).1 ∧
   u.reserved 40 + 0 ≤ (s.qDecl ↑v ↑k).2 ∧
   s.inExtents (↑v) (reads rows)) ∧
  (let s : State := c0
   let v : VMove := 1
   let np : Byte := 1
   let n : BitVec 6 := 1
   let k : Fin 8 := 2
   let u : Queue := s.qOf (qKey ↑v ↑k)
   s.canEngine ↑v = true ∧
   s.discarded = false ∧
   s.vtype ↑v = 6 ∧
   BitVec.toNat (u.issued - u.retired) ≠ (s.qDecl ↑v ↑k).1 ∧
   u.reserved 40 + (BitVec.toNat np + 1) * (n.toNat + 1) ≤ (s.qDecl ↑v ↑k).2 ∧
   s.inExtents (↑v) (reads [])) ∧
  (let s : State := c0
   let v : VMove := 4
   let n : BitVec 12 := 1
   let k : Fin 4 := 2
   let u : Queue := s.qOf (qKey ↑v ↑k)
   s.canEngine ↑v = true ∧
   s.discarded = false ∧
   s.vtype ↑v = 8 ∧
   BitVec.toNat (u.issued - u.retired) ≠ (s.qDecl ↑v ↑k).1 ∧
   u.reserved 40 + (n.toNat + 1) ≤ (s.qDecl ↑v ↑k).2 ∧
   s.inExtents (↑v) (reads [])) := by
  refine ⟨?_, ?_, ?_, ?_, ?_, ?_, ?_, ?_, ?_, ?_, ?_, ?_⟩
  · unfold State.inExtents; decide +kernel
  · unfold State.inExtents; decide +kernel
  · unfold State.inExtents; decide +kernel
  · unfold State.inExtents; decide +kernel
  · unfold State.inExtents; decide +kernel
  · unfold State.inExtents; decide +kernel
  · unfold State.inExtents; decide +kernel
  · unfold State.inExtents; decide +kernel
  · unfold State.inExtents; decide +kernel
  · unfold State.inExtents; decide +kernel
  · unfold State.inExtents; decide +kernel
  · unfold State.inExtents; decide +kernel

/-- States and operands that meet the hypotheses of `Obligations.CompanionCommandsIssue`, clause by clause (its part on this). -/
theorem witness_SourceRowsRead :
  let u : Queue := { cmds := [{ op := .nop 1, pos := pos0 }, { op := .read 1 0 0 0 2, pos := pos1, ready := false }] }
  u.waiting pos1 = some (1, { op := .read 1 0 0 0 2, pos := pos1, ready := false }) := by
  decide +kernel

/-- States and operands that meet the hypotheses of `Obligations.CompanionCommandsIssue`, clause by clause (its part on this). -/
theorem witness_FullQueueEndsStep :
  (let s : State := cFull
   let v : VMove := 1
   let k : Fin 8 := 2
   let r : Run := run
   let u : Queue := s.qOf (qKey ↑v ↑k)
   s.run = some r ∧ s.canEngine ↑v = true ∧ s.vtype ↑v = 6 ∧ (u.issued - u.retired).toNat = (s.qDecl ↑v ↑k).1) ∧
  (let s : State := cRows
   let v : VMove := 1
   let k : Fin 8 := 2
   let n : BitVec 12 := 1
   let r : Run := run
   let u : Queue := s.qOf (qKey ↑v ↑k)
   s.run = some r ∧ s.canEngine ↑v = true ∧ s.vtype ↑v = 6 ∧ (u.issued - u.retired).toNat ≠ (s.qDecl ↑v ↑k).1 ∧
   (s.qDecl ↑v ↑k).2 < u.reserved (s.mvOf (s.phys ↑v)).beats + (n.toNat + 1)) := by
  decide +kernel

/-- States and operands that meet the hypotheses of `Obligations.MvmHwriteAndBridle`, clause by clause (its part on this). -/
theorem witness_MvmAndHwriteIssue :
  (let s : State := cMvm
   let v : VMove := 0
   let b : Nat := (s.mvOf (s.phys ↑v)).beats
   let q : Machine.Seq := s.seqOf ↑v
   let inp : AddrOp := AddrOp.lit 0
   let scale : AddrOp := AddrOp.lit 4096
   let nvM1 : BitVec 6 := 1
   let ofmt : BitVec 5 := 0
   let round : BitVec 2 := 0
   let anchor : BitVec 10 := 0
   let set : Fin 16 := 3
   let k : Fin 4 := 1
   let p : PaneSet := ps8
   let d : Nat := s.vord ↑v
   let nv : Nat := nvM1.toNat + 1
   let rows : List (Nat × Nat) := mvmRows (q.addr inp) (q.addr scale) nv p.nr b
   let u : Queue := s.qOf (qKey ↑v ↑k)
   let n : Nat := nv * p.nc * mvmW ofmt.toNat
   s.canEngine ↑v = true ∧
   s.discarded = false ∧
   s.vtype ↑v = 5 ∧
   mvmOk ofmt round anchor = true ∧
   setAtIssue s (↑v) d ↑set = some p ∧
   BitVec.toNat (u.issued - u.retired) ≠ (s.qDecl ↑v ↑k).1 ∧
   u.reserved 40 + n ≤ (s.qDecl ↑v ↑k).2 ∧
   s.inExtents (↑v) (reads rows)) ∧
  (let s : State := cMvm
   let v : VMove := 4
   let b : Nat := (s.mvOf (s.phys ↑v)).beats
   let q : Machine.Seq := s.seqOf ↑v
   let src : AddrOp := AddrOp.lit 33554432
   let n : BitVec 12 := 1
   let k : Fin 4 := 1
   let rows : List (Nat × Nat) := outRows (q.addr src) (n.toNat + 1) b
   let u : Queue := s.qOf (qKey ↑v ↑k)
   s.canEngine ↑v = true ∧
   s.discarded = false ∧
   s.vtype ↑v = 8 ∧
   BitVec.toNat (u.issued - u.retired) ≠ (s.qDecl ↑v ↑k).1 ∧
   u.reserved 40 ≤ (s.qDecl ↑v ↑k).2 ∧
   s.inExtents (↑v) (reads rows)) := by
  unfold State.inExtents
  decide +kernel

/-- States and operands that meet the hypotheses of `Obligations.MvmHwriteAndBridle`, clause by clause (its part on this). -/
theorem witness_MvmOnLostPane :
  (let s : State := cMvm
   (s.awOf (s.vord 0)).lostIn ps8 = none) ∧
  (let s : State := cLost
   let v : VMove := 0
   let r : Run := run
   let d : Nat := s.vord ↑v
   s.canEngine ↑v = true ∧ s.discarded = false ∧ s.vtype ↑v = 5 ∧ setAtIssue s (↑v) d 3 = some ps8 ∧
   (s.awOf d).lostIn ps8 = some 6 ∧ s.run = some r ∧ r.fault = none) ∧
  (let s : State := (scr 4 base).setQ (qKey 4 1) { issued := 1, cmds := [hwWait] }
   let u : Queue := s.qOf (qKey 4 1)
   u.waiting hwWait.pos = some (0, hwWait)) := by
  decide +kernel

/-- States and operands that meet the hypotheses of `Obligations.MvmHwriteAndBridle`, clause by clause (its part on this). -/
theorem witness_BridleOpsComplete :
  (let s : State := c4
   let v : VMove := 19
   let lfmt : BitVec 5 := 2
   s.canEngine ↑v = true ∧
   s.vtype ↑v = 4 ∧
   lfmt.toNat ≤ 2) ∧
  (let s : State := c4
   let v : VMove := 19
   let n : Nat := s.phys ↑v
   let b : Nat := (s.mvOf n).beats
   let q : Machine.Seq := s.seqOf ↑v
   let set : Nat × Nat := (s.brOf n).at b
   let zA : AddrOp := AddrOp.lit 159383552
   let res : AddrOp := AddrOp.lit 159399936
   let r : Run := run4
   let rows : Nat := logitRows (set.1 + 1) set.2
   let at_ : Nat := b + (rows + 3) / 4 + 640
   let src : List (Nat × Nat) := outRows (q.addr zA) rows b
   s.canEngine ↑v = true ∧
   s.vtype ↑v = 4 ∧
   s.run = some r ∧
   s.inExtents (↑v) (reads src ++ writes [(q.addr res, at_)])) := by
  unfold State.inExtents
  decide +kernel

/-- States and operands that meet the hypotheses of `Obligations.MvmHwriteAndBridle`, clause by clause (its part on this). -/
theorem witness_SelectDone :
  let r : Run := run4
  c4.run = some r ∧ tfind r.slots 3 = some slot1 ∧ tfind r.slots 4 = none := by
  decide +kernel

end Companions

namespace Analog

def P0 : PaneSet := { first := 5, nr := 2, nc := 1, rstr := 1, cstr := 1, grain := 3 }
def pset : Cmd := { op := .pset 0 5 1 1 1 0 0 3 1, pos := { pos0 with beat := 3 } }
def prel : Cmd := { op := .prel 0 3 1, pos := { pos0 with beat := 9 } }
def mvm : Cmd := { op := .mvm 0 (.lit 0) (.lit 0x1000) 1 0 0 false 0 3 1, pos := { pos0 with beat := 5 }, begun := true, rows := 8 }
def psetB : Cmd := { pset with begun := true }
def P0r : PaneSet := { P0 with ready := true }
def mrun : MvmRun := { outs := [(0, [[1]]), (1, [[2]])], flags := 4 }
def job0 : MvmJob := { set := 3, pset := P0r, cmd := mvm, queue := 1, place := 0, nv := 2, ofmt := 0, mode := 0, sat := false, anchor := 0 }
def a0 : Machine.State := (base.setQ (qKey 0 1) { issued := 1, cmds := [pset] }).setAw 0 { state := 3, tick := 3 }
def a1 : Machine.State := (base.setQ (qKey 0 1) { issued := 2, cmds := [psetB, prel] }).setAw 0 { state := 3, sets := [(3, P0)] }
def a2 : Machine.State := (base.setQ (qKey 0 1) { issued := 1, cmds := [prel] }).setAw 0 { state := 3, sets := [(3, P0r)] }
def a3 : Machine.State := (base.setQ (qKey 0 1) { issued := 1, cmds := [mvm] }).setAw 0 { state := 3, tick := 3, sets := [(3, P0r)], inputUsed := 9000, runs := [(5, mrun)] }
def a4 : Machine.State := { a1 with run := some { run with stopped := true } }
def g0 : Machine.State := base.setAw 0 { state := 3, tick := 5, refresh := [(3, 2)], cells := [(262144 * (68*3+2) + 7, 5)], trim := [(5, { slot := 9 })], tests := [(68 * 3 + 7, { causes := 1 })] }
def gLast : Machine.State := base.setAw 0 { state := 2, toCalibrate := [3, 4], trim := [(3, { slot := 75, newDrift := [1, 2] })] }
def gDone : Machine.State := base.setAw 0 { state := 3, tick := 53, trim := [(3, { slot := 10, passed := some 53 })], tests := [(68 * 3 + 2, { causes := 1 })] }
def maint : MaintReading := { sums := [], curve := [], vector := [], ests := [], gain := 0, offset := 0 }
def gNext : Machine.State := base.setAw 0 { state := 3, tick := 53, trim := [(3, { slot := 10 })], tests := [(68 * 3 + 2, { causes := 1, phase := 1 })] }
def g1 : Machine.State := { base.setAw 0 { state := 3, tick := 5, tests := [(68 * 3 + 7, { causes := 1, phase := 1 })] } with ns := 900000000 }
def g2 : Machine.State := base.setAw 0 { state := 3, tick := 5, resolveAll := [9, 68*3+7], tests := [(68 * 3 + 7, { causes := 1, phase := 2 })] }
def g3 : Machine.State := base.setAw 0 { state := 3, tick := 5, resolveAll := [9, 68*3+7], lasting := [68*3+7] }
def h0 : Machine.State := base.setAw 0 { state := 1, committed := true, shadowWeak := [shadowKey 77 3 2], shadow := [(4, 9)] }
def h1 : Machine.State := base.setAw 0 { state := 1, shadowBad := [shadowKey 77 3 2], shadowWeak := [5], shadow := [(4, 9)] }
def prog : Programming := { logical := 5, row := 3, tries := 30 }
def h3 : Machine.State := base.setAw 0 { state := 4, phase := 3, programming := [(68 * 3 + 7, { prog with row := 511 })] }
def off : CellRead := { row := 3, col := 9, neg := false, level64 := 640 }
def up5 : ShadowUpset := { pane := 77, row := 3, word := 2, bad := true }
def h2 : Machine.State := base.setAw 0 { state := 4, phase := 3, programming := [(68 * 3 + 7, prog)] }

/-- States and operands that meet the hypotheses of `Obligations.AnalogCommands`, clause by clause (its part on this). -/
theorem witness_PaneSetsAdmitted :
  (let s : State := a0
   let d : AwDie := 0
   let v : Nat := s.wOf ↑d
   let a : AwDieSt := s.awOf ↑d
   let q : Nat := 1
   let i : Nat := 0
   let c : Cmd := pset
   let set : Nat := 3
   let p : PaneSet := P0
   risingFrom 0 s.queue = true ∧
   risingFrom 0 s.aw = true ∧
   nextPset s v = some (q, i, c, set, p) ∧
   a.state = 3 ∧
   tfind a.sets set = none ∧
   a.active + p.nr * p.nc ≤ 4096 ∧
   a.moving p = false) ∧
  (let s : State := a1
   let d : AwDie := 0
   let v : Nat := s.wOf ↑d
   let a : AwDieSt := s.awOf ↑d
   let set : Fin 16 := 3
   let p : PaneSet := P0
   let q : Nat := 1
   let i : Nat := 0
   let c : Cmd := psetB
   risingFrom 0 s.queue = true ∧
   risingFrom 0 s.aw = true ∧
   tfind a.sets ↑set = some p ∧
   p.ready = false ∧
   List.find?
       (fun (e : Nat × Nat × Cmd) =>
         e.2.2.begun && Option.map (fun (x : Nat × PaneSet) => x.1) (psetOf e.2.2.op) == some ↑set)
       (liveCmds s v 4) =
     some (q, i, c) ∧
   (s.qOf (qKey v q)).cmds[i]? = some c) ∧
  (let s : State := a2
   let d : AwDie := 0
   let v : Nat := s.wOf ↑d
   let a : AwDieSt := s.awOf ↑d
   let queue : Fin 4 := 1
   let q : Nat := 1
   let i : Nat := 0
   let set : Nat := 3
   let c : Cmd := prel
   risingFrom 0 s.queue = true ∧
   risingFrom 0 s.aw = true ∧
   List.find? (fun (e : Nat × Nat × Cmd) => e.1 == ↑queue && (prelSet e.2.2.op).isSome) (liveCmds s v 4) =
     some (q, i, c) ∧
   (s.qOf (qKey v q)).cmds[i]? = some c ∧
   prelSet c.op = some set ∧
   risingFrom 0 a.sets = true ∧
   ((liveCmds s v 4).all fun (e : Nat × Nat × Cmd) =>
       decide (c.pos.beat ≤ e.2.2.pos.beat) ||
         mvmSet e.2.2.op != some set &&
           Option.map (fun (x : Nat × PaneSet) => x.1) (psetOf e.2.2.op) != some set) =
     true ∧
   (∀ (l : Nat), tget 0 a.counts l < 10000)) := by
  refine ⟨?_, ?_, ?_⟩
  · decide +kernel
  · decide +kernel
  · and_intros <;> first | decide +kernel | (intro l; change tget 0 [] l < 10000; simp [tget, tfind])

/-- States and operands that meet the hypotheses of `Obligations.AnalogCommands`, clause by clause (its part on this). -/
theorem witness_AnalogDieEvents :
  (let s : State := a0
   let d : AwDie := 0
   risingFrom 0 s.aw = true ∧ (s.awOf ↑d).state = 3 ∧ risingFrom 0 (s.awOf ↑d).sets = true) ∧
  (let s : State := a3
   let d : AwDie := 0
   let queue : Fin 4 := 1
   let j : MvmJob := job0
   risingFrom 0 s.aw = true ∧ risingFrom 0 s.queue = true ∧ risingFrom 0 (s.awOf ↑d).runs = true ∧
   (jobs s ↑d).find? (fun j => j.queue == queue.val && (tget {} (s.awOf d).runs j.beat).outs.length == j.nv) = some j ∧
   (s.qOf (qKey (s.wOf ↑d) ↑queue)).cmds[j.place]? = some mvm) ∧
  (let s : State := a0
   let r : Run := run
   risingFrom 0 s.aw = true ∧ s.run = some r) ∧
  (let s : State := a4
   risingFrom 0 s.aw = true ∧ s.cancelling = true ∧ (s.awOf 0).counts = []) := by
  decide +kernel

/-- States and operands that meet the hypotheses of `Obligations.AnalogCommands`, clause by clause (its part on this). -/
theorem witness_UnflaggedEstimateIsExact :
  (let est64 : Int := -8
   let exact : Int := 0
   let g : Nat := 1
   let gw : Nat := 4
   1 ≤ g ∧
   inWindow est64 g gw = false ∧
   est64 - 64 * exact ≤ ↑gw * 2 ^ g ∧
   64 * exact - est64 ≤ ↑gw * 2 ^ g) := by
  decide +kernel

/-- States and operands that meet the hypotheses of `Obligations.AnalogUpkeep`, clause by clause (its part on this). -/
theorem witness_GroupUpkeepCompletes :
  (let s : State := gNext
   let a : AwDieSt := s.awOf 0
   let r : GroupTrim := tget {} a.trim 3
   risingFrom 0 s.aw = true ∧ a.state = 3 ∧ a.tick % 50 = 3 % 50 ∧ r.passed ≠ some a.tick ∧ r.slot < 75 ∧ 8 ≤ r.slot ∧
   a.testing (68 * 3 + (r.slot - 8)) = true) ∧
  (let s : State := g0
   let a : AwDieSt := s.awOf 0
   let r : GroupTrim := tget {} a.trim 5
   risingFrom 0 s.aw = true ∧ a.state = 3 ∧ a.tick % 50 = 5 % 50 ∧ r.passed ≠ some a.tick ∧ r.slot < 75 ∧ 8 ≤ r.slot ∧
   a.testing (68 * 5 + (r.slot - 8)) = false) ∧
  (let s : State := g0
   let a : AwDieSt := s.awOf 0
   let r : GroupTrim := tget {} a.trim 55
   a.state = 3 ∧ a.tick % 50 = 55 % 50 ∧ r.passed ≠ some a.tick ∧ r.slot < 8) ∧
  (let s : State := gLast
   let a : AwDieSt := s.awOf 0
   risingFrom 0 s.aw = true ∧ a.state = 2 ∧ (tget {} a.trim 3 : GroupTrim).slot = 75) ∧
  (let s : State := gDone
   let a : AwDieSt := s.awOf 0
   risingFrom 0 s.aw = true ∧ a.state = 3 ∧ (tget {} a.trim 3 : GroupTrim).passed = some a.tick) ∧
  (let s : State := g0
   let g : Fin 2048 := 3
   let pos : Fin 68 := 2
   let a : AwDieSt := s.awOf 0
   risingFrom 0 s.aw = true ∧ tfind a.refresh ↑g = some 2 ∧ a.state = 3 ∧ nextServing a (↑g) 2 = some ↑pos ∧
   a.inSet ↑g ↑pos = false ∧ nextServing a g (pos.val + 1) = some 3) := by
  decide +kernel

/-- States and operands that meet the hypotheses of `Obligations.AnalogUpkeep`, clause by clause (its part on this). -/
theorem witness_PaneTestsComplete :
  (let s : State := g0
   let d : AwDie := 0
   let g : Fin 2048 := 3
   let pos : Fin 68 := 7
   let a : AwDieSt := s.awOf ↑d
   let k : Nat := 68 * ↑g + ↑pos
   let x : SelfTest := { causes := 1 }
   risingFrom 0 s.aw = true ∧
   a.upkeep = true ∧
   tfind a.tests k = some x ∧
   x.phase = 0 ∧
   a.inSet ↑g ↑pos = false) ∧
  (let s : State := g1
   let d : AwDie := 0
   let g : Fin 2048 := 3
   let pos : Fin 68 := 7
   let a : AwDieSt := s.awOf ↑d
   let k : Nat := 68 * ↑g + ↑pos
   let x : SelfTest := { causes := 1, phase := 1 }
   risingFrom 0 s.aw = true ∧
   a.upkeep = true ∧
   tfind a.tests k = some x ∧
   x.phase = 1 ∧
   x.readAt + (s.trimOf ↑d).settleMs * 1000000 ≤ s.ns) ∧
  (let s : State := g2
   let d : AwDie := 0
   let g : Fin 2048 := 3
   let pos : Fin 68 := 7
   let a : AwDieSt := s.awOf ↑d
   let k : Nat := 68 * ↑g + ↑pos
   let x : SelfTest := { causes := 1, phase := 2 }
   risingFrom 0 s.aw = true ∧
   a.upkeep = true ∧
   tfind a.tests k = some x ∧
   x.phase = 2 ∧
   x.cell = none ∧
   x.causes < 16 ∧
   risingFrom 0 a.tests = true ∧
   tget 0 a.counts k < 10000 ∧
   tget [] a.transients k = [] ∧
   2 ≤ (s.trimOf ↑d).transientLimit) ∧
  (let s : State := g3
   let d : AwDie := 0
   let g : Fin 2048 := 3
   let pos : Fin 68 := 7
   let a : AwDieSt := s.awOf ↑d
   let k : Nat := 68 * ↑g + ↑pos
   let l : Nat := 199
   let spare : Nat := 64
   risingFrom 0 s.aw = true ∧
   a.upkeep = true ∧
   a.logicalOf ↑g ↑pos = some l ∧
   (a.freeSpares ↑g).head? = some spare ∧
   k ∈ a.lasting ∧
   a.inSet ↑g ↑pos = false ∧
   risingFrom 0 a.map = true ∧
   (a.lasting.any fun (k : Nat) => k / 68 == ↑g && decide (k % 68 < ↑pos)) = false) := by
  decide +kernel

/-- States and operands that meet the hypotheses of `Obligations.AnalogUpkeep`, clause by clause (its part on this). -/
theorem witness_ShadowAndProgrammingComplete :
  (let s : State := { h1 with aw := [(0, { (h1.awOf 0) with state := 2 })] }
   let a : AwDieSt := s.awOf 0
   let k : Nat := shadowKey 77 3 2
   risingFrom 0 s.aw = true ∧ 2 ≤ a.state ∧ a.state ≤ 5 ∧ k ∈ a.shadowBad) ∧
  (let s : State := { h0 with aw := [(0, { (h0.awOf 0) with state := 2 })] }
   let a : AwDieSt := s.awOf 0
   let k : Nat := shadowKey 77 3 2
   risingFrom 0 s.aw = true ∧ 2 ≤ a.state ∧ a.state ≤ 5 ∧ k ∉ a.shadowBad ∧ k ∈ a.shadowWeak ∧
   up5 = { pane := 77, row := 3, word := 2, bad := true }) ∧
  (let s : State := h2
   let a : AwDieSt := s.awOf 0
   risingFrom 0 s.aw = true ∧ tfind a.programming (68 * 3 + 7) = some prog ∧ a.state = 4 ∧ a.phase = 3 ∧ prog.row = 3) ∧
  (let s : State := h3
   let a : AwDieSt := s.awOf 0
   risingFrom 0 s.aw = true ∧ tfind a.programming (68 * 3 + 7) = some { prog with row := 511 } ∧
   risingFrom 0 a.programming = true ∧ a.state = 4 ∧ a.phase = 3 ∧ rowOutside s 0 3 7 511 [off] = []) ∧
  (let s : State := h2
   let a : AwDieSt := s.awOf 0
   let out : List CellRead := rowOutside s 0 3 7 3 [off]
   risingFrom 0 s.aw = true ∧ tfind a.programming (68 * 3 + 7) = some prog ∧ risingFrom 0 a.programming = true ∧
   a.state = 4 ∧ a.phase = 3 ∧ prog.row = 3 ∧ out ≠ [] ∧ ∀ c ∈ out, wantLevel a 3 7 c.row c.col c.neg = 0) ∧
  (let s : State := h0
   let a : AwDieSt := s.awOf 0
   risingFrom 0 s.aw = true ∧ a.state = 1 ∧ s.power.stage ≠ 5 ∧ a.shadowBad = []) ∧
  (let s : State := h0
   let a : AwDieSt := s.awOf 0
   risingFrom 0 s.aw = true ∧ a.state = 1 ∧ s.power.stage ≠ 5 ∧ up5 ∈ [up5] ∧ up5.bad = true) := by
  decide +kernel

end Analog

namespace Stacks

def rg : Region := { domain := 7, stack := 15, init := 0, size := 8192, source := 0, blocks := [(2, 5), (3, 1)] }
def run6 : Run := { run with plan := { plan with regions := [(4, rg)] } }
def d1 : Bytes := (List.range 256).map fun i => BitVec.ofNat 8 (i + 1)
def rd : Cmd := { op := .read 1 1 4 1 2, pos := pos0, rows := 2 }
def wr : Cmd := { op := .write 1 2 4 0 (.lit 0x800000) 2, pos := pos0, data := [d1] }
def uu (k : Nat) := unitOf rg.blocks k
def sr : Machine.State := ((({ base with run := some run6, domains := [(7, { key := some 9 })] }).setQ (qKey 1 2) { issued := 3, retired := 1, cmds := [rd, wr] }).setStack (uu 1).1 { units := [((uu 1).2, { key := 9, data := d1 }), ((uu 2).2, { key := 9, data := d1.reverse })] })
def sw : Machine.State := ((({ base with run := some run6, domains := [(7, { key := some 9 })] }).setQ (qKey 1 2) { issued := 3, retired := 1, cmds := [wr] }))
def sb : Machine.State := sr.setStack 2 { units := [(3, { key := 9, data := d1 }), (8, { key := 9, data := d1 })], errs := [(3, { symbols := (List.range 9).map fun c => (0, 8 * c) }), (8, { symbols := [(1, 7)] })], poisoned := [9] }
def sc : Machine.State := { sr with run := some { run6 with stopped := true } }

/-- States and operands that meet the hypotheses of `Obligations.StackCommands`, clause by clause (its part on this). -/
theorem witness_StackCommandsRetire :
  (let s : State := sr
   let v : VMove := 1
   let queue : Fin 8 := 2
   let i : Nat := 0
   let c : Cmd := rd
   let r : Run := run6
   s.run = some r ∧
   s.vtype ↑v = 6 ∧
   risingFrom 0 s.queue = true ∧
   (s.qOf (qKey ↑v ↑queue)).oldest = some (i, c) ∧
   (s.qOf (qKey ↑v ↑queue)).cmds[i]? = some c) := by
  decide +kernel

/-- States and operands that meet the hypotheses of `Obligations.StackCommands`, clause by clause (its part on this). -/
theorem witness_StackReadsAndWrites :
  (let s : State := sr
   let s1 : State := upsetUnits [] s
   let n : BitVec 12 := 1
   let off : W32 := 1
   rd.op = .read 1 off 4 n 2 ∧ tfind run6.plan.regions (4 : Byte).toNat = some rg ∧ off.toNat + n.toNat + 1 ≤ rg.size / 256 ∧
   s.pageWaits rd = false ∧
   ∀ j, j ≤ n.toNat →
     (let u := unitOf rg.blocks (off.toNat + j)
      s1.sound [u] ∧ tfind (s.stackOf u.1).units u.2 = some { key := 9, data := if j = 0 then d1 else d1.reverse } ∧
        (s.domOf rg.domain).key = some 9)) ∧
  (let s : State := sw
   let off : W32 := 2
   wr.op = .write 1 off 4 0 (.lit 0x800000) 2 ∧ wr.data = [d1] ∧ s.pageWaits wr = false ∧
   (s.qOf (qKey 1 2)).oldest = some (0, wr) ∧ (s.qOf (qKey 1 2)).cmds[0]? = some wr ∧
   off.toNat + 1 ≤ rg.size / 256) := by
  refine ⟨⟨rfl, rfl, by decide +kernel, rfl, ?_⟩, by decide +kernel⟩
  intro j hj
  have h : j = 0 ∨ j = 1 := by
    have : (1 : BitVec 12).toNat = 1 := rfl
    omega
  rcases h with rfl | rfl <;> (unfold State.sound; decide +kernel)

/-- States and operands that meet the hypotheses of `Obligations.StackCommands`, clause by clause (its part on this). -/
theorem witness_StackUnitReadsBack :
  (let s : State := sb
   (s.domOf 7).key = some 9 ∧ risingFrom 0 (s.stackOf 2).errs = true) ∧
  (let s : State := sb
   let r : Run := run6
   s.run = some r ∧ r.fault = none ∧ 9 ∈ (s.stackOf 2).poisoned) ∧
  (let s : State := sb
   let r : Run := run6
   s.run = some r ∧ r.fault = none ∧ (tget {} (s.stackOf 2).errs 3 : UnitErr).fatal s.tbl.eccT = true) := by
  decide +kernel

/-- States and operands that meet the hypotheses of `Obligations.StackCommands`, clause by clause (its part on this). -/
theorem witness_StackEventsComplete :
  (let s : State := sb
   let s1 : State := upsetUnits [{ stack := 2, unit := 3, symbols := [(0, 9)], wrong := none }] s
   let k : StackSt := s1.stackOf 2
   risingFrom 0 k.errs = true ∧ (tget {} k.errs 3 : UnitErr).fatal s.tbl.eccT = true) ∧
  (let s : State := sb
   let k : StackSt := s.stackOf 2
   risingFrom 0 k.errs = true ∧ 8 ∉ k.poisoned ∧ (tget {} k.errs 8 : UnitErr).fatal s.tbl.eccT = false) ∧
  (let s : State := sc
   s.cancelling = true ∧ s.vtype 1 = 6 ∧ risingFrom 0 s.queue = true) ∧
  (let s : State := sb
   let r : Run := run6
   s.run = some r) := by
  decide +kernel

end Stacks

namespace Streams

def blk : Bytes := leBytes 256 ((7 * 2 ^ 12 + 1 * 2 ^ 8) + 256 ^ 0x34 * 0x3F800000 + 256 ^ 0x40 * 0x3F800000 + 256 ^ 4 * (3 * 2 ^ 13) + 256 ^ 0x10 * 500)
def x0 : Machine.Stream := { paramStream blk 1 with length := 130, pages := [4, 9], tokens := 12 }
def st0 : Machine.State := { host with streams := [(5, x0)], pages := [(4, { cls := 1, refs := 1, fn := 1, domain := 7, rows := [], blocks := [], slotRows := 1 }), (9, { cls := 1, refs := 1, fn := 1, domain := 7, rows := [], blocks := [], slotRows := 1 })] }
def o : Machine.State := withAcc st0 3 (acc1 1 [(0,1,0x10),(8,4,6)])
def o2 : Machine.State := withAcc st0 3 (acc1 1 [(0,1,0x11),(8,4,5),(0xC,2,0x1F)])
def o3 : Machine.State := withAcc st0 3 (acc1 1 [(0,1,0x12),(8,4,5),(0xC,4,8),(0x10,8,99)])
def o4 : Machine.State := withAcc st0 3 (acc1 1 [(0,1,0x13),(8,4,5)])
def bs : BSlot := { handle := 5, latched := x0, now := { x0 with tokens := 14, lastToken := 3 }, s := 2, openPos := some 140 }
def doneRun : Run := { run with slots := [(3, bs)] }
def done : Machine.State := { st0 with run := some doneRun, seq := (List.range 64).map fun v => (v, { ended := some 2 }), mv := (List.range 64).map fun v => (v, { beats := 3 }) }
def y0 : Machine.Stream := { paramStream blk 1 with length := 0 }
def pf : Machine.State := { st0 with streams := [(5, y0)] }
def p1 : Machine.State := withAcc pf 3 (acc1 1 [(0,1,0x18),(8,4,5),(0xC,4,77),(0x10,4,2)])
def tg := prefixTags 9 (leBytes 4 77) (tokenBlocks 2 (List.replicate 512 1))
def p2 : Machine.State := { withAcc pf 3 (acc1 1 [(0,1,0x18),(8,4,5),(0xC,4,77),(0x10,4,2)]) with prefixes := [(bucketOf (tg.getD 0 0), { tag := tg.getD 0 0, page := 4, cls := 1, domain := 7, expiry := 1, depth := 0 })] }
def aPub : Acc := acc1 1 [(0,1,0x19),(8,4,5),(0xC,4,77),(0x10,4,1)]
def p3 : Machine.State := withAcc st0 3 aPub
def pfx : Prefix := { tag := 5, page := 4, cls := 1, domain := 7, expiry := 1, depth := 0 }
def pfx44 : Prefix := { pfx with page := 44 }
def p4 : Machine.State := { withAcc st0 3 (acc1 0 [(0,1,0x1A),(8,4,65536)]) with prefixes := [(33, pfx), (70, pfx44)] }
def aEvict : Acc := acc1 1 [(0,1,0x1A),(8,4,7)]
def p5 : Machine.State := { withAcc st0 3 aEvict with prefixes := [(33, pfx)] }
def imgHead : Bytes := leBytes 80 (0x46544752 + 256 ^ 4 * 1)
def img : Bytes := imgHead ++ List.replicate 32768 0
def aImg : Acc := acc1 0 [(0,1,6),(8,4,5),(0x18,8,32848)]
def gm : Machine.State := withAcc host 3 aImg
def gr0 : Grammar := { start := 0, states := [], masks := [], blocks := [] }
def gu : Machine.State := { withAcc host 3 (acc1 0 [(0,1,7),(8,4,5)]) with grammars := [(5, gr0)] }
def dr : Machine.State := withAcc host 3 (acc1 0 [(0,1,8),(8,4,7)])
def aDk : Acc := { acc1 0 [(0,1,8),(8,4,7)] with begun := true }
def dk : Machine.State := { withAcc host 3 aDk with domains := [(0, { key := some 1, state := 1 }), (7, { key := some 9, state := 2, epoch := 4 })] }

/-- States and operands that meet the hypotheses of `Obligations.StreamsServed`, clause by clause (its part on this). -/
theorem witness_StreamDescriptorsComplete :
  (let s : State := o
   let acc : Nat := 3
   let a : Machine.Acc := acc1 1 [(0, 1, 16), (8, 4, 6)]
   let h : Nat := a.bits 8 4 19 0
   let b : Bytes := blk
   let x : Machine.Stream := paramStream b a.fn
   s.blocked acc a.handles = false ∧
   risingFrom 0 s.streams = true ∧
   risingFrom 0 s.fns = true ∧
   s.serves acc 16 a ∧
   tfind s.streams h = none ∧
   (s.fnOf a.fn).openStreams < (s.fnQuota a.fn).1 ∧
   s.sound [recordUnit h] ∧
   (x.grammarOn = true → (tfind s.grammars x.grammar).isSome = true) ∧
   paramReserved b = true ∧
   paramRanges x 65535 = true) ∧
  (let s : State := o2
   let acc : Nat := 3
   let a : Machine.Acc := acc1 1 [(0, 1, 17), (8, 4, 5), (12, 2, 31)]
   let h : Nat := a.bits 8 4 19 0
   let b : Bytes := blk
   let x : Machine.Stream := x0
   let new : Machine.Stream := paramStream b a.fn
   let mask : Nat := a.fld 12 2
   s.blocked acc a.handles = false ∧
   risingFrom 0 s.streams = true ∧
   risingFrom 0 s.fns = true ∧
   s.serves acc 17 a ∧
   s.ownStream a.fn h = some x ∧
   s.sound [recordUnit h] ∧
   (bitNat mask 13 = true → new.grammarOn = true → (tfind s.grammars new.grammar).isSome = true) ∧
   paramReserved b = true ∧
   paramRanges new mask = true) ∧
  (let s : State := o3
   let acc : Nat := 3
   let a : Machine.Acc := acc1 1 [(0, 1, 18), (8, 4, 5), (12, 4, 8), (16, 8, 99)]
   let h : Nat := a.bits 8 4 19 0
   let x : Machine.Stream := x0
   let child : Nat := a.bits 12 4 19 0
   s.blocked acc a.handles = false ∧
   risingFrom 0 s.streams = true ∧
   risingFrom 0 s.fns = true ∧
   s.serves acc 18 a ∧
   tfind s.streams child = none ∧
   s.ownStream a.fn h = some x ∧
   (s.fnOf a.fn).openStreams < (s.fnQuota a.fn).1) ∧
  (let s : State := o4
   let acc : Nat := 3
   let a : Machine.Acc := acc1 1 [(0, 1, 19), (8, 4, 5)]
   let h : Nat := a.bits 8 4 19 0
   let x : Machine.Stream := x0
   s.blocked acc a.handles = false ∧
   risingFrom 0 s.streams = true ∧
   risingFrom 0 s.fns = true ∧
   s.serves acc 19 a ∧
   s.ownStream a.fn h = some x) := by
  refine ⟨?_, ?_, ?_, ?_⟩ <;> (unfold State.serves; try unfold State.sound) <;> decide +kernel

/-- States and operands that meet the hypotheses of `Obligations.StreamsServed`, clause by clause (its part on this). -/
theorem witness_WriteBackReturnsRecords :
  (let s : State := done
   let r : Run := doneRun
   s.run = some r ∧
   s.stepDone = true ∧
   r.wroteBack = false ∧
   (List.map (fun (e : Nat × BSlot) => e.2.handle) r.slots).Nodup) := by
  decide +kernel

/-- States and operands that meet the hypotheses of `Obligations.PrefixTableServed`, clause by clause. -/
theorem witness_PrefixTableServed :
  (let s : State := p1
   let a : Acc := acc1 1 [(0, 1, 0x18), (8, 4, 5), (0xC, 4, 77), (0x10, 4, 2)]
   s.blocked 3 a.handles = false ∧ s.tableBusy 3 a = false ∧ risingFrom 0 s.prefixes = true ∧ s.serves 3 0x18 a ∧
   s.ownStream a.fn (a.bits 8 4 19 0) = some y0 ∧ y0.length = 0 ∧ s.replaying = false ∧ s.recording = false ∧
   (s.domOf y0.domain).key = some 9) ∧
  (let s : State := p3
   let a : Acc := aPub
   s.blocked 3 a.handles = false ∧ s.tableBusy 3 a = false ∧ risingFrom 0 s.prefixes = true ∧ s.serves 3 0x19 a ∧
   s.ownStream a.fn (a.bits 8 4 19 0) = some x0 ∧ 64 * a.bits 0x10 4 6 0 ≤ x0.length) ∧
  (let s : State := p4
   let a : Acc := acc1 0 [(0, 1, 0x1A), (8, 4, 65536)]
   s.blocked 3 a.handles = false ∧ s.tableBusy 3 a = false ∧ risingFrom 0 s.prefixes = true ∧ s.serves 3 0x1A a ∧ a.fn = 0) ∧
  (let s : State := p5
   let a : Acc := aEvict
   let dom : Nat := a.bits 8 4 12 0
   s.blocked 3 a.handles = false ∧ s.tableBusy 3 a = false ∧ risingFrom 0 s.prefixes = true ∧ s.serves 3 0x1A a ∧
   (a.bits 8 4 16 16 == 1) = false ∧ s.streams.any (fun e => e.2.domain == dom && e.2.fn == a.fn) = true) ∧
  (let s : State := p4
   risingFrom 0 s.prefixes = true ∧ tfind s.prefixes 33 = some pfx ∧ s.sweepable pfx = false ∧
   tfind s.prefixes 70 = some pfx44 ∧ s.sweepable pfx44 = true ∧ tfind s.prefixes 71 = none) := by
  unfold State.serves
  decide +kernel

/-- States and operands that meet the hypotheses of `Obligations.PrefixTableServed`, clause by clause (its part on this). The tag and the way it takes are free. -/
theorem witness_PrefixPublished :
  ∃ e,
    (let s : State := p3
     let a : Acc := aPub
     let h : Nat := a.bits 8 4 19 0
     let tag : W128 := Config.kmac 9 (leBytes 4 (a.fld 0xC 4) ++ slice [] 0 256)
     s.blocked 3 a.handles = false ∧ s.tableBusy 3 a = false ∧ risingFrom 0 s.prefixes = true ∧ s.serves 3 0x19 a ∧
     s.ownStream a.fn h = some x0 ∧ (s.domOf x0.domain).key = some 9 ∧ a.bits 0x10 4 6 0 = 1 ∧ 64 ≤ x0.length ∧
     s.prefixHit tag = none ∧ s.named (x0.pages.getD 0 0) = false ∧ s.publishWay tag = some e ∧
     tfind s.prefixes e = none ∧ s.sound (recordUnit h :: bucketUnits tag)) := by
  have hs : ∀ us, p3.sound us := fun us u _ => ⟨List.not_mem_nil, rfl⟩
  have hw : ∀ tag, ∃ e, p3.publishWay tag = some e := by
    intro tag
    have h : (((List.range 8).map (bucketOf tag + ·)).filter (fun e => (tfind p3.prefixes e).isNone)).length = 8 := rfl
    unfold State.publishWay State.pickOf
    dsimp only
    split
    · next h0 => rw [h0] at h; simp at h
    · next h0 =>
      exact ⟨_, List.getElem?_eq_getElem (Nat.mod_lt _ (by rw [h]; decide))⟩
  obtain ⟨e, he⟩ := hw (Config.kmac 9 (leBytes 4 (aPub.fld 0xC 4) ++ slice [] 0 256))
  refine ⟨e, by decide +kernel, by decide +kernel, by decide +kernel, ?_, by decide +kernel, by decide +kernel,
    by decide +kernel, by decide +kernel, rfl, by decide +kernel, he, rfl, hs _⟩
  unfold State.serves
  decide +kernel

/-- Past its 80 bytes of header and states the image is zero. -/
theorem image_zeros (o n : Nat) (h : 80 ≤ o) : slice img o n = List.replicate n 0 := by
  have hd : img.drop o = List.replicate (32768 - (o - 80)) 0 := by
    have hh : imgHead.length = 80 := by decide +kernel
    rw [img, List.drop_append, hh, List.drop_replicate, List.drop_eq_nil_of_le (by omega), List.nil_append]
  simp only [slice, hd, List.take_replicate, List.length_replicate, List.replicate_append_replicate]
  congr 1
  omega

/-- A field of the image's first 80 bytes. -/
theorem image_field (o n : Nat) (h : o + n ≤ 80) : fieldAt img o n = fieldAt imgHead o n := by
  have hh : imgHead.length = 80 := by decide +kernel
  have : (img.drop o).take n = (imgHead.drop o).take n := by
    rw [img, List.drop_append_of_le_length (by omega), List.take_append_of_le_length (by simp; omega)]
  rw [fieldAt, fieldAt, slice, slice, this]

/-- An image of one state, without transitions, and one empty mask parses (R328). -/
theorem image_parses : ∃ g, parseGrammar img = some g := by
  have hl : img.length = 32848 := by
    have hh : imgHead.length = 80 := by decide +kernel
    rw [img, List.length_append, hh, List.length_replicate]
  have h4 : fieldAt img 4 4 = 1 := by rw [image_field _ _ (by omega)]; decide +kernel
  have h8 : fieldAt img 8 4 = 0 := by rw [image_field _ _ (by omega)]; decide +kernel
  have hC : fieldAt img 0xC 4 = 0 := by rw [image_field _ _ (by omega)]; decide +kernel
  have h0 : fieldAt img 0 4 = 0x46544752 := by rw [image_field _ _ (by omega)]; decide +kernel
  have h10 : fieldAt img 0x10 48 = 0 := by rw [image_field _ _ (by omega)]; decide +kernel
  have hm : fieldAt img 64 4 = 0 := by rw [image_field _ _ (by omega)]; decide +kernel
  have hf : fieldAt img 68 4 = 0 := by rw [image_field _ _ (by omega)]; decide +kernel
  have ht : fieldAt img 72 4 = 0 := by rw [image_field _ _ (by omega)]; decide +kernel
  have ha : fieldAt img 76 4 = 0 := by rw [image_field _ _ (by omega)]; decide +kernel
  have hz : slice img 80 32768 = List.replicate 32768 0 := image_zeros 80 32768 (by omega)
  have hk : transOk 1 (List.replicate 32768 0) { mask := 0, accept := false, terminal := false, trans := [] } = true := by
    refine Bool.and_eq_true_iff.mpr ⟨rfl, List.all_eq_true.mpr fun t _ => ?_⟩
    have hg : (List.replicate 32768 (0 : Byte)).getD (t / 8) 0 = 0 := by
      rw [List.getD_eq_getElem?_getD, List.getElem?_replicate]
      split <;> rfl
    rw [hg]
    simp [bitNat]
  have hs : grammarState img 1 1 0 = { mask := 0, accept := false, terminal := false, trans := [] } := by
    simp only [grammarState, Nat.reduceMul, Nat.reduceAdd, hm, hf, ht, ha]
    rfl
  unfold parseGrammar
  rw [hl, h4, h8, hC, h0, h10]
  have hc : 32848 - 64 - 16 * 1 - 12 * 0 = 32768 := by decide
  have hd : 32768 / 32768 = 1 := by decide
  simp only [hc, hd]
  rw [if_pos (by decide)]
  have h1 : (List.range 1) = [0] := rfl
  have h2 : (List.range 0) = [] := rfl
  rw [h1, h2]
  simp only [List.map_cons, List.map_nil, List.all_cons, List.all_nil, hs, Nat.mul_zero, Nat.mul_one, Nat.add_zero,
    Nat.reduceAdd, hz, hf, ht, ha, bitsAt, List.getD_cons_zero, hk]
  exact ⟨_, if_pos (by decide)⟩

/-- States and operands that meet the hypotheses of `Obligations.GrammarsAndDomains`, clause by clause. -/
theorem witness_GrammarsAndDomains :
  (let s : State := gm
   let a : Acc := aImg
   ∃ g, s.serves 3 0x06 a ∧ img.length = a.fld 0x18 8 ∧ tfind s.grammars (a.bits 8 4 11 0) = none ∧
     parseGrammar img = some g ∧ s.room (imageStacks img.length) = true) ∧
  (let s : State := gu
   let a : Acc := acc1 0 [(0, 1, 7), (8, 4, 5)]
   let id : Nat := a.bits 8 4 11 0
   s.serves 3 0x07 a ∧ tfind s.grammars id = some gr0 ∧ risingFrom 0 s.grammars = true ∧
   s.streams.any (fun h => h.2.grammarOn && h.2.grammar == id) = false) ∧
  (let s : State := dr
   let a : Acc := acc1 0 [(0, 1, 8), (8, 4, 7)]
   let d : Nat := a.bits 8 4 12 0
   s.serves 3 0x08 a ∧ d ≠ 0 ∧ (s.domOf d).used = 0 ∧ s.streams.any (fun h => h.2.domain == d) = false) ∧
  (let s : State := dk
   let a : Acc := aDk
   let dom : BitVec 13 := 7
   (s.domOf dom.toNat).state = 2 ∧ risingFrom 0 s.domains = true ∧
   s.intake.acc.find? (fun e => e.2.kind == 0x08 && e.2.begun && e.2.bits 8 4 12 0 == dom.toNat) = some (3, a) ∧
   tfind s.intake.acc 3 = some a ∧ a.mute = false ∧ (s.fnOf a.fn).inReset = false ∧ (s.cqOf a.fn a.cq).stopped = false ∧
   s.loads.all (fun l => l.accepted || l.manifest.isEmpty) = true) ∧
  (let s : State := dr
   let dom : BitVec 13 := 7
   (s.domOf dom.toNat).state ≠ 2) := by
  have hl : img.length = 32848 := by
    have hh : imgHead.length = 80 := by decide +kernel
    rw [img, List.length_append, hh, List.length_replicate]
  obtain ⟨g, hg⟩ := image_parses
  unfold State.serves
  exact ⟨⟨g, by decide +kernel, by rw [hl]; decide +kernel, by decide +kernel, hg, by rw [hl]; decide +kernel⟩,
    by decide +kernel⟩

end Streams

namespace HostRings

def f1 : FnState := { sq := [(0, { sq0 with head := 2, tail := 5 }), (1, { base := 0x5000, sizeLog2 := 3 })], cq := [(0, { cq0 with head := 3, tail := 9, pendingIrq := 2 }), (1, { base := 0x3000, sizeLog2 := 3 })], shadowEn := true, shadowBase := 0x7000, msix := [(0, { addr := 5, masked := false }), (1, { addr := 4 })], pba := 2 }
def db : Machine.State := { host with fns := [(0, f1), (1, f1)], intake := { host.intake with shadowDue := [1, 7] } }
def win : Machine.State := { db with cad := { db.cad with win := some 1, fn := some 1, blank := false, slot := some 3, start := 6000, length := 5000 } }
def nopD : Bytes := desc [(0,1,0x30),(2,2,77)]
def closeD : Bytes := desc [(0,1,0x13),(8,4,5)]
def fe : Machine.State := { win with intake := { win.intake with fetched := some { fn := 1, sq := 0, data := .ok nopD }, next := 4, sq := some 0, taken := 1 } }
def sn : Machine.State := withAcc host 3 (acc1 1 [(0,1,0x30)])
def ss : Machine.State := { withAcc host 3 (acc1 1 [(0,1,1),(8,4,3)]) with slots := [(3, .resident plan)] }
def ssb : Machine.State := { ss with steps := [req] }
def req5 : StepReq := { req with fn := 1, bufs := [(0x9000, 8, true)] }
def hr : Cmd := { op := .hread 4 0 1 2 1, pos := pos0, rows := 2 }
def hw : Cmd := { op := .hwrite 4 (.lit 0x2000000) 0 1 3 2, pos := pos0, data := [List.replicate 256 1, List.replicate 256 2] }
def hRun : Run := { run with req := req5 }
def htDrop : Machine.State := ((({ base with run := some { hRun with discarded := true } }).setQ (qKey 4 1) { issued := 1, cmds := [hr] }).setQ (qKey 4 2) { issued := 1, cmds := [hw] })
def ht : Machine.State := ((({ base with run := some hRun }).setQ (qKey 4 1) { issued := 1, cmds := [hr] }).setQ (qKey 4 2) { issued := 1, cmds := [hw] })

/-- States and operands that meet the hypotheses of `Obligations.RingsAndInterrupts`, clause by clause (its part on this). -/
theorem witness_DoorbellsComplete :
  (let s : State := db
   let f : Fn := 1
   let width : Nat := 16
   s.fnEnabled ↑f = true ∧
   (s.fnOf ↑f).inReset = false ∧
   width ≠ 32) ∧
  (let s : State := db
   let f : Fn := 1
   let width : Nat := 16
   s.fnEnabled ↑f = true ∧
   (s.fnOf ↑f).inReset = false ∧
   width ≠ 32) ∧
  (let s : State := db
   let f : Fn := 1
   let q : Fin 16 := 0
   let value : W64 := 7
   let r : Sq := s.sqOf ↑f ↑q
   let v : Nat := fieldNat (BitVec.toNat value) 15 0
   s.fnEnabled ↑f = true ∧
   (s.fnOf ↑f).inReset = false ∧
   r.enable = true ∧
   r.stopped = false ∧
   v < 2 ^ r.sizeLog2 ∧
   ringDist (2 ^ r.sizeLog2) r.head r.tail < ringDist (2 ^ r.sizeLog2) r.head v) ∧
  (let s : State := db
   let f : Fn := 1
   let q : Fin 16 := 0
   let value : W64 := 16
   let r : Sq := s.sqOf ↑f ↑q
   let v : Nat := fieldNat (BitVec.toNat value) 15 0
   s.fnEnabled ↑f = true ∧
   (s.fnOf ↑f).inReset = false ∧
   r.enable = true ∧
   r.stopped = false ∧
   2 ^ r.sizeLog2 ≤ v) ∧
  (let s : State := db
   let f : Fn := 1
   let q : Fin 16 := 0
   let value : W64 := 7
   let c : Cq := s.cqOf ↑f ↑q
   let v : Nat := fieldNat (BitVec.toNat value) 15 0
   s.fnEnabled ↑f = true ∧
   (s.fnOf ↑f).inReset = false ∧
   c.enable = true ∧
   c.stopped = false ∧
   v < 2 ^ c.sizeLog2 ∧
   ringDist (2 ^ c.sizeLog2) v c.tail ≤ ringDist (2 ^ c.sizeLog2) c.head c.tail) ∧
  (let s : State := db
   let f : Fn := 1
   s.fnEnabled ↑f = true ∧
   (s.fnOf ↑f).inReset = false ∧
   ↑f ∈ s.intake.shadowDue ∧
   (s.fnOf ↑f).shadowEn = true ∧
   s.stop.state ≠ 2) ∧
  (let s : State := db
   let f : Fn := 1
   s.fnEnabled ↑f = true ∧
   (s.fnOf ↑f).inReset = false ∧
   ↑f ∈ s.intake.shadowDue ∧
   (s.fnOf ↑f).shadowEn = true ∧
   s.stop.state ≠ 2) := by
  decide +kernel

/-- States and operands that meet the hypotheses of `Obligations.RingsAndInterrupts`, clause by clause (its part on this). -/
theorem witness_RingContextsWritten :
  (let s : State := db
   let f : Fn := 1
   let q : Fin 16 := 1
   let value : W64 := 36864
   let r : Sq := s.sqOf ↑f ↑q
   s.fnEnabled ↑f = true ∧
   (s.fnOf ↑f).inReset = false ∧
   risingFrom 0 s.fns = true ∧
   r.enable = false ∧
   value &&& ~~~4095 ≠ r.base ∧
   value &&& ~~~4095 ≠ 0) ∧
  (let s : State := db
   let f : Fn := 1
   let q : Fin 16 := 1
   let value : W64 := BitVec.ofNat 64 (2 ^ 12 + 3)
   let r : Sq := s.sqOf ↑f ↑q
   let v : Nat := BitVec.toNat value
   s.fnEnabled ↑f = true ∧
   (s.fnOf ↑f).inReset = false ∧
   risingFrom 0 s.fns = true ∧
   r.enable = false ∧
   bitNat v 12 = true ∧
   1 ≤ fieldNat v 4 0 ∧
   fieldNat v 4 0 ≤ 16 ∧
   r.base ≠ 0 ∧
   (s.cqOf (↑f) (fieldNat v 11 8)).enable = true) ∧
  (let s : State := db
   let f : Fn := 1
   let q : Fin 16 := 1
   let value : W64 := 36864
   let c : Cq := s.cqOf ↑f ↑q
   s.fnEnabled ↑f = true ∧
   (s.fnOf ↑f).inReset = false ∧
   risingFrom 0 s.fns = true ∧
   c.enable = false ∧
   c.resv = 0 ∧
   value &&& ~~~4095 ≠ c.base ∧
   value &&& ~~~4095 ≠ 0) ∧
  (let s : State := db
   let f : Fn := 1
   let q : Fin 16 := 1
   let value : W64 := BitVec.ofNat 64 (2 ^ 20 + 2 ^ 19 + 4 + 9 * 2 ^ 8)
   let c : Cq := s.cqOf ↑f ↑q
   let v : Nat := BitVec.toNat value
   s.fnEnabled ↑f = true ∧
   (s.fnOf ↑f).inReset = false ∧
   risingFrom 0 s.fns = true ∧
   c.enable = false ∧
   c.resv = 0 ∧
   bitNat v 20 = true ∧
   1 ≤ fieldNat v 4 0 ∧
   fieldNat v 4 0 ≤ 16 ∧
   c.base ≠ 0 ∧
   fieldNat v 18 8 / 8 = ↑f) := by
  decide +kernel

/-- States and operands that meet the hypotheses of `Obligations.IntakeServes`, clause by clause (its part on this). -/
theorem witness_IntakeAccepts :
  (let s : State := win
   let f : Nat := 1
   let q : Nat := 0
   s.cad.fn = some f ∧
   s.nextSq f = some q ∧
   s.fetchOpen f = true) ∧
  (let s : State := fe
   let f : Nat := 1
   let q : Nat := 0
   let d : Bytes := nopD
   s.intake.fetched = some { fn := f, sq := q, data := HostData.ok d } ∧
   s.cad.win.isSome = true ∧
   s.cad.fn = some f ∧
   (s.fnOf f).inReset = false ∧
   s.stop.state ≠ 2 ∧
   s.orderHeld f q d = false ∧
   formDetail d = 0 ∧
   admitDetail s f d = 0 ∧
   (fieldAt d 0 1 = 1 → s.stepFits (bitsAt d 8 4 5 0) = true) ∧
   s.recording = false ∧
   (s.sqOf f q).enable = true ∧
   (s.cqOf f (s.sqOf f q).cq).enable = true) := by
  decide +kernel

/-- States and operands that meet the hypotheses of `Obligations.IntakeServes`, clause by clause (its part on this). -/
theorem witness_StepAndNopServed :
  (let s : State := sn
   let acc : Nat := 3
   let a : Machine.Acc := acc1 1 [(0, 1, 48)]
   s.serves acc 48 a) ∧
  (let s : State := ss
   let acc : Nat := 3
   let a : Machine.Acc := acc1 1 [(0, 1, 1), (8, 4, 3)]
   let p : Plan := plan
   let patches : Bytes := []
   let streams : Bytes := []
   let bufs : Bytes := []
   s.serves acc 1 a ∧
   s.stepTurn acc = true ∧
   s.recording = false ∧
   s.slotOf (a.bits 8 4 5 0) = Slot.resident p ∧
   chainOk p a = true ∧
   patchesOk p (a.bits 8 4 20 8) patches = true ∧
   s.unserved acc (streamList (a.bits 8 4 31 21) streams) = false ∧
   streamsDetail s a.fn (a.bits 8 4 31 21) streams = 0 ∧
   bufsOk (a.bits 12 4 6 0) bufs = true) := by
  unfold State.serves
  decide +kernel

/-- States and operands that meet the hypotheses of `Obligations.HostTransfersComplete`, clause by clause. -/
theorem witness_HostTransfersComplete :
  (let s : State := ht
   let queue : Fin 4 := 1
   let i : Nat := 0
   let c : Cmd := hr
   let r : Run := hRun
   let v : VMove := 4
   let buf : BitVec 6 := 0
   let n : BitVec 12 := 1
   let off : W32 := 2
   let k' : Fin 4 := 1
   s.run = some r ∧
   risingFrom 0 s.queue = true ∧
   s.replay.ctrl = 0 ∧
   (s.qOf (qKey s.hMove ↑queue)).oldest = some (i, c) ∧
   (s.qOf (qKey s.hMove ↑queue)).cmds[i]? = some c ∧
   c.op = Instr.hread v buf n off k' ∧
   s.discarded = false ∧
   (∀ j ≤ n.toNat, (s.bufRow buf.toNat (BitVec.toNat off + j) false).isSome = true) ∧
   (let row := fun j => [HostData.ok [7], .timeout].getD j .timeout
    hostDetail (row 1) ≠ 0 ∧ (∀ i, i < 1 → hostDetail (row i) = 0) ∧ r.hostErr = none)) ∧
  (let s : State := htDrop
   let r : Run := { hRun with discarded := true }
   s.run = some r ∧ risingFrom 0 s.queue = true ∧ s.replay.ctrl = 0 ∧ s.discarded = true ∧
   (s.qOf (qKey s.hMove 1)).oldest = some (0, hr) ∧ (s.qOf (qKey s.hMove 1)).cmds[0]? = some hr ∧
   (s.qOf (qKey s.hMove 2)).oldest = some (0, hw) ∧ (s.qOf (qKey s.hMove 2)).cmds[0]? = some hw) ∧
  (let s : State := ht
   let queue : Fin 4 := 2
   let i : Nat := 0
   let c : Cmd := hw
   let r : Run := hRun
   let v : VMove := 4
   let src : AddrOp := AddrOp.lit 33554432
   let buf : BitVec 6 := 0
   let n : BitVec 12 := 1
   let off : W32 := 3
   let k' : Fin 4 := 2
   let at_ : Nat → W64 := fun (j : Nat) => BitVec.ofNat 64 (36864 + 256 * (3 + j))
   s.run = some r ∧
   risingFrom 0 s.queue = true ∧
   s.replay.ctrl = 0 ∧
   (s.qOf (qKey s.hMove ↑queue)).oldest = some (i, c) ∧
   (s.qOf (qKey s.hMove ↑queue)).cmds[i]? = some c ∧
   c.op = Instr.hwrite v src buf n off k' ∧
   s.discarded = false ∧
   (∀ j < c.data.length, s.bufRow buf.toNat (BitVec.toNat off + j) true = some (at_ j)) ∧
   (s.fnOf r.req.fn).inReset = false) := by
  decide +kernel

/-- States and operands that meet the hypotheses of `Obligations.RingsAndInterrupts`, clause by clause (its part on this). -/
theorem witness_InterruptsSent :
  (let s : State := db
   let f : Fn := 1
   let q : Fin 16 := 0
   let c : Cq := s.cqOf ↑f ↑q
   (s.fnOf ↑f).inReset = false ∧
   (s.fnOf ↑f).fnMask = false ∧
   0 < c.pendingIrq ∧
   c.firstIrqNs + 1000 * c.coalTime ≤ s.ns ∧
   (tget { } (s.fnOf ↑f).msix (c.vector % 8)).masked = false ∧
   risingFrom 0 s.fns = true ∧
   risingFrom 0 (s.fnOf ↑f).cq = true) ∧
  (let s : State := db
   let f : Fn := 1
   let vec : Fin 8 := 1
   (s.fnOf ↑f).inReset = false ∧
   (s.fnOf ↑f).fnMask = false ∧
   BitVec.getLsbD (s.fnOf ↑f).pba ↑vec = true ∧
   risingFrom 0 s.fns = true ∧
   risingFrom 0 (s.fnOf ↑f).msix = true) := by
  decide +kernel

end HostRings

namespace Cadence

def fr : Machine.State := { host with cad := { host.cad with frameOver := true } }
def ce (v : Nat) : W64 := seal8 v
def wi : Machine.State := { host with cad := { host.cad with frameOver := false, win := some 0, fn := some 0, blank := false, start := 100, length := 2000, last := 3, sched := 50 } }
def ws : Machine.State := { host with cad := { host.cad with frameOver := false, win := none, turn := 0, sched := 500, last := 3 } }
def wo : Machine.State := { wi with run := some { run with req := { req with acc := 7 } }, cad := { wi.cad with win := some 1, own := [7] } }
def wc : Machine.State := { wi with cad := { wi.cad with win := some 1, fn := some 1, compact := true } }
def vfTbl : TableSet := { defaultTables with vfCounts := [4, 0, 0, 0] }

/-- States and operands that meet the hypotheses of `Obligations.CadenceWindowsRun`, clause by clause. -/
theorem witness_CadenceWindowsRun :
  (let s : State := fr
   let c : Cadence := s.cad
   s.tabled = true ∧
   s.frameDue = true ∧
   (takeCadence s).2 = false ∧
   c.compact = false) ∧
  (let s : State := ws
   let c : Cadence := s.cad
   s.tabled = true ∧
   c.frameOver = false ∧
   c.win = none ∧
   s.stop.state ≠ 2 ∧
   c.compact = false ∧
   c.sched ≤ s.chron.count ∧
   (s.runWindow c.turn).bad = false) ∧
  (let s : State := wi
   let c : Cadence := s.cad
   s.tabled = true ∧
   c.win.isSome = true ∧
   s.stop.state ≠ 2 ∧
   s.windowEnded = true ∧
   s.ownRunning = false) ∧
  (let s : State := wo
   let c : Cadence := s.cad
   s.tabled = true ∧
   c.win.isSome = true ∧
   s.stop.state ≠ 2 ∧
   s.windowEnded = true ∧
   s.ownRunning = true) ∧
  (let s : State := wc
   let c : Cadence := s.cad
   let i : Nat := 0
   s.tabled = true ∧
   c.win = some (i + 1) ∧
   c.compact = true ∧
   c.blank = false ∧
   s.stop.state ≠ 2 ∧
   s.fnBusy (c.fn.getD 0) = false ∧
   s.fnWaiting (c.fn.getD 0) = false ∧
   (c.fn.getD 0 ∉ s.intake.shadowDue) ∧
   c.start + 1000 ≤ s.chron.count) ∧
  (let s : State := wo
   let w : Nat × Nat × Nat := (1, 900, 0)
   w.2.1 + (s.cad.shift - w.2.2) < s.chron.count) ∧
  (let s : State := wo
   let w : Nat × Nat × Nat := (1, 9000, 0)
   s.chron.count ≤ w.2.1 + (s.cad.shift - w.2.2)) := by
  decide +kernel

end Cadence

namespace Link

def a1 : Machine.State := lkp { act0 with unacked := 3, firstUnacked := 4999000, e := 9, txSeq := 7, replay := [5, 6].map (fun n => { seq := n, pkt := pk n, sent := 100, paid := true }), nakAt := some 4990000, nakTimes := [1, 4999999] }
def a2 : Machine.State := lkp { act0 with credits := [(1, 4), (2, 9)], starved := [(4, 1000)], hbMiss := 1, hbJudged := 3, causes := 0 }
def a3 : Machine.State := lkp { act0 with hbMiss := 2, hbJudged := 3 }
def a4 : Machine.State := { lk with chron := { lk.chron with mode := 2, parent := 3, t1 := some 69000, state := 0 }, ports := [(3, { act0 with xidOut := some 5, xid := 5, hbAt := 3 }), (9, act0)] }
def a5 : Machine.State := { lk with ns := 2000000000, chron := { lk.chron with mode := 1 } }
def a5b : Machine.State := { lk with ns := 2000000000, chron := { lk.chron with mode := 1, state := 0, lastSource := 5 } }
def l1 : Machine.State := lkp { act0 with rxMask := 0xFD, minWidth := 4, restore := [(1, 2)], trimId := 4, appliedId := some 9 }
def l2 : Machine.State := lkp { act0 with trims := [(3, 0xFE), (4, 0xFD)], minWidth := 8, trimId := 4 }
def l2b : Machine.State := lkp { act0 with switched := some (4, 0xFD), rxMask := 0xFD, trimId := 4 }
def l3 : Machine.State := lkp { act0 with rxMask := 0xFD, minWidth := 4, restore := [(1, 2)] }

/-- States and operands that meet the hypotheses of `Obligations.LinkAcknowledgesAndCredits`, clause by clause (its part on this). -/
theorem witness_AcknowledgementsComplete :
  (let s : State := a1
   let p : Port := 3
   let x : PortSt := s.portOf ↑p
   s.isActive ↑p = true ∧
   risingFrom 0 s.ports = true ∧
   0 < x.unacked ∧
   x.firstUnacked + 250 ≤ s.ns) ∧
  (let s : State := a1
   let p : Port := 3
   let x : PortSt := s.portOf ↑p
   let recent : List Nat := List.filter (fun (t : Nat) => decide (s.ns < t + 1000000)) x.nakTimes
   let t0 : Nat := 4990000
   s.isActive ↑p = true ∧
   risingFrom 0 s.ports = true ∧
   x.nakAt = some t0 ∧
   t0 + 2000 ≤ s.ns ∧
   recent.length < 64) ∧
  (let s : State := a1
   let p : Port := 3
   let x : PortSt := s.portOf ↑p
   let u : CtrlUnit := mkU 327681 0 0
   let n : Nat := x.replay.length
   let d : Nat := (bitsOf u.w0 31 16 + 65536 - (x.txSeq + 65536 - n % 65536) % 65536) % 65536
   s.isActive ↑p = true ∧
   risingFrom 0 s.ports = true ∧
   goodUnit u 1 4294902031 0 0 ∧
   d ≤ n ∧
   BitVec.getLsbD u.w0 8 = false ∧
   x.replaying = none) ∧
  (let s : State := a1
   let p : Port := 3
   let x : PortSt := s.portOf ↑p
   let recent : List Nat := List.filter (fun (t : Nat) => decide (s.ns < t + 1000000)) x.nakTimes
   let u : CtrlUnit := mkU 393473 0 0
   let n : Nat := x.replay.length
   let d : Nat := (bitsOf u.w0 31 16 + 65536 - (x.txSeq + 65536 - n % 65536) % 65536) % 65536
   s.isActive ↑p = true ∧
   risingFrom 0 s.ports = true ∧
   goodUnit u 1 4294902031 0 0 ∧
   d ≤ n ∧
   BitVec.getLsbD u.w0 8 = true ∧
   recent.length < 64) ∧
  (let s : State := a1
   let p : Port := 3
   let x : PortSt := s.portOf ↑p
   let u : CtrlUnit := mkU 589825 0 0
   let n : Nat := x.replay.length
   let d : Nat := (bitsOf u.w0 31 16 + 65536 - (x.txSeq + 65536 - n % 65536) % 65536) % 65536
   s.isActive ↑p = true ∧
   risingFrom 0 s.ports = true ∧
   goodUnit u 1 4294902031 0 0 ∧
   n < d ∧
   d < 32768 ∧
   BitVec.getLsbD u.w0 8 = false ∧
   x.causes = 0) ∧
  (let s : State := a1
   let p : Port := 3
   let x : PortSt := s.portOf ↑p
   s.isActive ↑p = true ∧
   risingFrom 0 s.ports = true ∧
   x.replaying = none ∧
   (∃ h ∈ x.replay, h.sent + 2000 ≤ s.ns)) := by
  unfold goodUnit
  decide +kernel

/-- States and operands that meet the hypotheses of `Obligations.LinkAcknowledgesAndCredits`, clause by clause (its part on this). -/
theorem witness_CreditsAndHeartbeats :
  (let s : State := a2
   let p : Port := 3
   let x : PortSt := s.portOf ↑p
   let u : CtrlUnit := mkU 2 197136 0
   s.isActive ↑p = true ∧
   risingFrom 0 s.ports = true ∧
   goodUnit u 2 15 4294967295 0 ∧
   risingFrom 0 x.credits = true) ∧
  (let s : State := a2
   let p : Port := 3
   let x : PortSt := s.portOf ↑p
   let pair : Fin 8 := 4
   let t0 : Nat := 1000
   s.isActive ↑p = true ∧
   risingFrom 0 s.ports = true ∧
   tfind x.starved ↑pair = some t0 ∧
   t0 + 1000000 ≤ s.ns ∧
   x.causes = 0) ∧
  (let s : State := a2
   let p : Port := 3
   let x : PortSt := s.portOf ↑p
   s.isActive ↑p = true ∧
   risingFrom 0 s.ports = true ∧
   x.hbAt < s.chron.count / 10000) ∧
  (let s : State := a2
   let p : Port := 3
   let u : CtrlUnit := mkU (BitVec.ofNat 32 (3 + 77 * 65536)) 4 0
   s.isActive ↑p = true ∧
   risingFrom 0 s.ports = true ∧
   goodUnit u 3 4294967055 4294901791 0) ∧
  (let s : State := a2
   let p : Port := 3
   let x : PortSt := s.portOf ↑p
   s.isActive ↑p = true ∧
   risingFrom 0 s.ports = true ∧
   (x.hbJudged + 2) * 10000 + 1000 ≤ s.chron.count) := by
  unfold goodUnit
  decide +kernel

/-- States and operands that meet the hypotheses of `Obligations.TimeExchangeCompletes`, clause by clause. -/
theorem witness_TimeExchangeCompletes :
  (let s : State := lk
   let p : Port := 3
   let u : CtrlUnit := mkU 1284 5 6
   risingFrom 0 s.ports = true ∧
   s.isActive ↑p = true ∧
   goodUnit u 4 65295 4294967295 4294967295) ∧
  (let s : State := a4
   let c : Chron := s.chron
   let p : Port := 3
   let u : CtrlUnit := mkU 1049861 69500 0
   let x : PortSt := s.portOf ↑p
   let t1 : Nat := 69000
   risingFrom 0 s.ports = true ∧
   s.isActive ↑p = true ∧
   goodUnit u 5 4294967055 4294967295 4294967295 ∧
   c.t1 = some t1 ∧
   x.xidOut = some (bitsOf u.w0 15 8) ∧
   s.parentPort ↑p = true) ∧
  (let s : State := lk
   let c : Chron := s.chron
   let p : Port := 3
   let u : CtrlUnit := mkU 1049861 69500 0
   let x : PortSt := s.portOf ↑p
   risingFrom 0 s.ports = true ∧
   s.isActive ↑p = true ∧
   goodUnit u 5 4294967055 4294967295 4294967295 ∧
   (c.t1 = none ∨ x.xidOut ≠ some (bitsOf u.w0 15 8) ∨ s.parentPort ↑p = false)) ∧
  (let s : State := a5
   let c : Chron := s.chron
   risingFrom 0 s.ports = true ∧
   c.discipline = 1 ∧
   (c.lastSource = 0 ∨ c.lastSource + 900000000 ≤ s.ns)) ∧
  (let s : State := a4
   let c : Chron := s.chron
   risingFrom 0 s.ports = true ∧
   c.state = 0 ∧
   (c.discipline = 2 ∧ c.lastSource + 100000 ≤ s.ns ∨ c.discipline = 1 ∧ c.lastSource + 1100000000 ≤ s.ns)) ∧
  (let s : State := a5b
   let c : Chron := s.chron
   c.state = 0 ∧ c.discipline = 1 ∧ c.lastSource + 1100000000 ≤ s.ns) := by
  unfold goodUnit
  decide +kernel

/-- States and operands that meet the hypotheses of `Obligations.LanesTrimAndRestore`, clause by clause. -/
theorem witness_LanesTrimAndRestore :
  (let s : State := l1
   let p : Port := 3
   let u : CtrlUnit := mkU 83947526 0 0
   s.isActive ↑p = true ∧
   risingFrom 0 s.ports = true ∧
   goodUnit u 6 4278255615 0 0 ∧
   bitsOf u.w0 7 4 = 0) ∧
  (let s : State := l1
   let p : Port := 3
   let x : PortSt := s.portOf ↑p
   let u : CtrlUnit := mkU 83886614 0 0
   s.isActive ↑p = true ∧
   risingFrom 0 s.ports = true ∧
   goodUnit u 6 4278255615 0 0 ∧
   bitsOf u.w0 7 4 = 1 ∧
   risingFrom 0 x.restore = true) ∧
  (let s : State := l2
   let p : Port := 3
   let u : CtrlUnit := mkU 67173670 0 0
   let x : PortSt := s.portOf ↑p
   s.isActive ↑p = true ∧ risingFrom 0 s.ports = true ∧ goodUnit u 6 4278452223 0 0 ∧ bitsOf u.w0 7 4 = 2 ∧
   (bitsOf u.w0 31 24, BitVec.ofNat 8 (bitsOf u.w0 15 8)) ∈ x.trims) ∧
  (let s : State := l2b
   let p : Port := 3
   let u : CtrlUnit := mkU 67173670 0 0
   let x : PortSt := s.portOf ↑p
   let c : Nat × Byte := (bitsOf u.w0 31 24, BitVec.ofNat 8 (bitsOf u.w0 15 8))
   s.isActive ↑p = true ∧ risingFrom 0 s.ports = true ∧ goodUnit u 6 4278452223 0 0 ∧ bitsOf u.w0 7 4 = 2 ∧ c ∉ x.trims ∧
   x.switched = some c) ∧
  (let s : State := l1
   let p : Port := 3
   let u : CtrlUnit := mkU 67173670 0 0
   let x : PortSt := s.portOf ↑p
   let c : Nat × Byte := (bitsOf u.w0 31 24, BitVec.ofNat 8 (bitsOf u.w0 15 8))
   s.isActive ↑p = true ∧ risingFrom 0 s.ports = true ∧ goodUnit u 6 4278452223 0 0 ∧ bitsOf u.w0 7 4 = 2 ∧ c ∉ x.trims ∧
   x.switched ≠ some c ∧ x.causes = 0) ∧
  (let s : State := l1
   let p : Port := 3
   let x : PortSt := s.portOf ↑p
   let m := fun (lane : Fin 8) => x.wanted &&& ~~~ BitVec.ofNat 8 (2 ^ lane.val)
   s.isActive ↑p = true ∧ risingFrom 0 s.ports = true ∧ x.wanted.getLsbD 0 = true ∧ x.least ≤ lanesOf (m 0) ∧
   x.wanted.getLsbD 1 = false) ∧
  (let s : State := lkp { act0 with rxMask := 0x0F, minWidth := 4 }
   let p : Port := 3
   let x : PortSt := s.portOf ↑p
   s.isActive ↑p = true ∧ risingFrom 0 s.ports = true ∧ x.wanted.getLsbD 0 = true ∧
   lanesOf (x.wanted &&& ~~~ BitVec.ofNat 8 (2 ^ 0)) < x.least ∧ x.causes = 0) ∧
  (let s : State := l1
   let p : Port := 3
   let x : PortSt := s.portOf ↑p
   let lane : Fin 8 := 1
   s.isActive ↑p = true ∧ risingFrom 0 s.ports = true ∧ tfind x.restore ↑lane = some 2 ∧ 2 + 1000000 ≤ s.ns ∧
   x.wanted.getLsbD ↑lane = false ∧ x.trained.getLsbD ↑lane = true) := by
  unfold goodUnit
  refine ⟨?_, ?_, ?_, ?_, ?_, ?_, ?_, ?_⟩ <;> decide +kernel

end Link

namespace Ports

def st (n : Nat) (x : PortSt) : Machine.State := lkp { x with state := n }
def t4 : Machine.State := { lkp { act0 with state := 4, seenSent := 2, same := 1, param := some (0x08, 0, 0) } with ns := 900000000 }
def t6 : Machine.State := { lkp { act0 with state := 6, retrainAt := 5, cause := 3 } with fabric := { lk.fabric with place := 44 } }
def s1 : Machine.State := lkp { act0 with ctrl := [{ rank := 9, w0 := 2, w1 := 5 }] }
def s2 : Machine.State := lkp { act0 with txSeq := 7, replay := [5, 6].map (fun n => { seq := n, pkt := pk n, sent := 100, paid := true }), replaying := some 0 }
def s3 : Machine.State := lkp { act0 with txSeq := 65535, loose := [(pairOf 1 0, [pk 1, pk 2])], credits := [(pairOf 1 0, 3)] }
def s5 : Machine.State := lkp { act0 with fecTimes := [(2, [(4999000, 10)])] }
def s4 : Machine.State := lkp { act0 with state := 4, same := 2 }
def body (seq len : Nat) : Bytes := leBytes 4 (seq + len * 2 ^ 20) ++ leBytes 4 5 ++ leBytes 4 0
def pkt (seq len : Nat) (bad : Nat) : Bytes := body seq len ++ leBytes 4 ((crc32c (body seq len ++ List.replicate (16 * len) 3)).toNat + bad) ++ List.replicate (16 * len) 3
def pktXor : Bytes := body 0 1 ++ leBytes 4 (crc32c (body 0 1 ++ List.replicate 16 3) ^^^ 0x52454852).toNat ++ List.replicate 16 3

/-- States and operands that meet the hypotheses of `Obligations.TrainingProceeds`, clause by clause. -/
theorem witness_TrainingProceeds :
  (let s : State := st 1 act0
   let p : Port := 3
   let x : PortSt := s.portOf ↑p
   let lanes : Byte := 255
   risingFrom 0 s.ports = true ∧
   x.least ≤ lanesOf lanes ∧
   x.state = 1) ∧
  (let s : State := st 2 act0
   let p : Port := 3
   let x : PortSt := s.portOf ↑p
   let lanes : Byte := 255
   risingFrom 0 s.ports = true ∧
   x.least ≤ lanesOf lanes ∧
   x.state = 2) ∧
  (let s : State := st 3 act0
   let p : Port := 3
   let x : PortSt := s.portOf ↑p
   risingFrom 0 s.ports = true ∧
   x.state = 3) ∧
  (let s : State := t4
   let p : Port := 3
   let x : PortSt := s.portOf ↑p
   risingFrom 0 s.ports = true ∧
   (x.state = 2 ∨ x.state = 3 ∨ x.state = 4) ∧
   x.progress + 500000000 ≤ s.ns) ∧
  (let s : State := t4
   let p : Port := 3
   let x : PortSt := s.portOf ↑p
   let u : CtrlUnit := mkU 8 0 0
   risingFrom 0 s.ports = true ∧
   goodUnit u 8 4294967183 4294967071 4294967295 ∧
   x.exchanging = true ∧
   x.seenSent < 8) ∧
  (let s : State := st 5 act0
   let p : Port := 3
   let x : PortSt := s.portOf ↑p
   risingFrom 0 s.ports = true ∧
   x.state = 5 ∧
   bitNat x.causes 7 = false) ∧
  (let s : State := st 5 act0
   let p : Port := 3
   let x : PortSt := s.portOf ↑p
   let u : CtrlUnit := mkU 1543 1 0
   risingFrom 0 s.ports = true ∧
   x.state = 5 ∧
   goodUnit u 7 3855 255 0 ∧
   bitsOf u.w1 7 0 = (x.retrains + 1) % 256 ∧
   bitNat (x.causes ||| 2 ^ bitsOf u.w0 11 8) 7 = false) ∧
  (let s : State := t6
   let p : Port := 3
   let x : PortSt := s.portOf ↑p
   let lanes : Byte := 255
   risingFrom 0 s.ports = true ∧
   x.state = 6 ∧
   x.inRetrain = false ∧
   x.least ≤ lanesOf (x.trained &&& lanes)) ∧
  (let s : State := t6
   let p : Port := 3
   let x : PortSt := s.portOf ↑p
   risingFrom 0 s.ports = true ∧
   x.state = 6 ∧
   x.retrainAt + 40000 ≤ s.ns) ∧
  (let s : State := st 0 act0
   let p : Port := 3
   let x : PortSt := s.portOf ↑p
   let v : W32 := 1
   risingFrom 0 s.ports = true ∧
   BitVec.getLsbD v 0 = true ∧
   x.state = 0 ∧
   s.hostUp = true ∧
   x.dropUntil = none) ∧
  (let s : State := st 0 act0
   let p : Port := 3
   let x : PortSt := s.portOf ↑p
   let v : W32 := 0
   risingFrom 0 s.ports = true ∧
   BitVec.getLsbD v 0 = false ∧
   x.state = 0) ∧
  (let s : State := st 5 act0
   let p : Port := 3
   let x : PortSt := s.portOf ↑p
   let v : W32 := 3
   risingFrom 0 s.ports = true ∧
   BitVec.getLsbD v 0 = true ∧
   BitVec.getLsbD v 1 = true ∧
   BitVec.getLsbD v 2 = false ∧
   x.state = 5 ∧
   x.causes = 0) ∧
  (let s : State := t4
   let p : Port := 3
   let x : PortSt := s.portOf ↑p
   let v : W32 := 5
   risingFrom 0 s.ports = true ∧
   BitVec.getLsbD v 0 = true ∧
   BitVec.getLsbD v 2 = true ∧
   x.state ≠ 0) := by
  refine ⟨?_, ?_, ?_, ?_, ?_, ?_, ?_, ?_, ?_, ?_, ?_, ?_, ?_⟩
  · decide +kernel
  · decide +kernel
  · decide +kernel
  · decide +kernel
  · unfold goodUnit; decide +kernel
  · decide +kernel
  · unfold goodUnit; decide +kernel
  · decide +kernel
  · decide +kernel
  · decide +kernel
  · decide +kernel
  · decide +kernel
  · decide +kernel

/-- States and operands that meet the hypotheses of `Obligations.SlotsAndPackets`, clause by clause. -/
theorem witness_SlotsAndPackets :
  (let s : State := lk
   let p : Port := 3
   let x : PortSt := s.portOf ↑p
   risingFrom 0 s.ports = true ∧
   s.isActive ↑p = true ∧
   (s.pathOf 2).queue = [] ∧
   x.switching = none ∧
   (x.ctrl = [] ∨ ∃ (m : CtrlMsg), x.ctrl = [m] ∧ 8 ≤ m.rank) ∧
   x.replaying = none ∧
   s.slotFlow ↑p = none ∧
   x.displaced = [] ∧
   x.nextPair = none) ∧
  (let s : State := s2
   let p : Port := 3
   let x : PortSt := s.portOf ↑p
   let i : Nat := 0
   let h : Held := { seq := 5, pkt := pk 5, sent := 100, paid := true }
   risingFrom 0 s.ports = true ∧
   s.isActive ↑p = true ∧
   (s.pathOf 2).queue = [] ∧
   x.switching = none ∧
   (x.ctrl = [] ∨ ∃ (m : CtrlMsg), x.ctrl = [m] ∧ 8 ≤ m.rank) ∧
   x.replaying = some i ∧
   x.replay[i]? = some h) ∧
  (let s : State := s3
   let p : Port := 3
   let x : PortSt := s.portOf ↑p
   let i : Nat := 0
   let k : Packet := pk 1
   let ks : List Packet := [pk 2]
   risingFrom 0 s.ports = true ∧
   s.isActive ↑p = true ∧
   (s.pathOf 2).queue = [] ∧
   x.switching = none ∧
   (x.ctrl = [] ∨ ∃ (m : CtrlMsg), x.ctrl = [m] ∧ 8 ≤ m.rank) ∧
   x.replaying = none ∧
   s.slotFlow ↑p = none ∧
   x.displaced = [] ∧
   x.nextPair = some i ∧
   tget [] x.loose i = k :: ks ∧
   k.cls ≠ 0 ∧
   pairOf k.cls k.vc = i ∧
   k.from_ = none ∧
   x.hasRoom k = true ∧
   tfind s.grid.poison ↑p = none ∧
   risingFrom 0 x.credits = true ∧
   risingFrom 0 x.loose = true ∧
   x.txSeq < 65536) ∧
  (let s : State := s4
   let p : Port := 3
   let x : PortSt := s.portOf ↑p
   risingFrom 0 s.ports = true ∧
   s.isActive ↑p = false ∧
   x.exchanging = true ∧
   x.param = none) ∧
  (let s : State := lk
   let p : Port := 3
   let x : PortSt := s.portOf ↑p
   let recent : List Nat := List.filter (fun (t : Nat) => decide (s.ns < t + 1000000)) x.nakTimes
   let data : Bytes := pkt 0 2 1
   let good : W32 := crc32c (slice data 0 12 ++ List.drop 16 data)
   let got : BitVec 32 := BitVec.ofNat 32 (fieldAt data 12 4)
   risingFrom 0 s.ports = true ∧
   s.isActive ↑p = true ∧
   List.length data = 16 + 16 * bitsAt data 0 4 25 20 ∧
   got ≠ good ∧
   got ≠ good ^^^ 0x52454852 ∧
   x.nakAt = none ∧
   recent.length < 64) ∧
  (let s : State := lk
   let p : Port := 3
   let x : PortSt := s.portOf ↑p
   let recent : List Nat := List.filter (fun (t : Nat) => decide (s.ns < t + 1000000)) x.nakTimes
   let data : Bytes := pkt 5 2 0
   let good : W32 := crc32c (slice data 0 12 ++ List.drop 16 data)
   let got : BitVec 32 := BitVec.ofNat 32 (fieldAt data 12 4)
   let d : Nat := (fieldAt data 0 2 + 65536 - x.e) % 65536
   risingFrom 0 s.ports = true ∧
   s.isActive ↑p = true ∧
   List.length data = 16 + 16 * bitsAt data 0 4 25 20 ∧
   got = good ∧
   1 ≤ d ∧
   d ≤ 511 ∧
   x.nakAt = none ∧
   recent.length < 64) ∧
  (let s : State := lk
   let p : Port := 3
   let x : PortSt := s.portOf ↑p
   let data : Bytes := pkt 60000 2 0
   let good : W32 := crc32c (slice data 0 12 ++ List.drop 16 data)
   let got : BitVec 32 := BitVec.ofNat 32 (fieldAt data 12 4)
   let d : Nat := (fieldAt data 0 2 + 65536 - x.e) % 65536
   risingFrom 0 s.ports = true ∧
   s.isActive ↑p = true ∧
   List.length data = 16 + 16 * bitsAt data 0 4 25 20 ∧
   got = good ∧
   32768 ≤ d) ∧
  (let s : State := lk
   let p : Port := 3
   let x : PortSt := s.portOf ↑p
   let data : Bytes := pkt 0 2 0
   let good : W32 := crc32c (slice data 0 12 ++ List.drop 16 data)
   let got : BitVec 32 := BitVec.ofNat 32 (fieldAt data 12 4)
   let d : Nat := (fieldAt data 0 2 + 65536 - x.e) % 65536
   risingFrom 0 s.ports = true ∧
   s.isActive ↑p = true ∧
   List.length data = 16 + 16 * bitsAt data 0 4 25 20 ∧
   got = good ∧
   d = 0 ∧
   bitsAt data 0 4 25 20 ≤ 32 ∧
   bitsAt data 0 4 31 26 = 0 ∧
   bitsAt data 0 4 18 16 = 0 ∧
   bitsAt data 0 4 19 19 = 0 ∧
   bitsAt data 4 4 31 31 = 0 ∧
   x.unacked < 15 ∧
   tfind (s.linkOf (↑p / 10)).flows (fieldNat (fieldAt data 4 4) 13 0) = none) := by
  refine ⟨?_, ?_, ?_, ?_, ?_, ?_, ?_, ?_⟩
  · and_intros <;> first | decide +kernel | exact Or.inl (by decide +kernel)
  · and_intros <;> first | decide +kernel | exact Or.inl (by decide +kernel)
  · and_intros <;> first | decide +kernel | exact Or.inl (by decide +kernel)
  · decide +kernel
  · decide +kernel
  · decide +kernel
  · decide +kernel
  · decide +kernel

/-- States and operands that meet the hypotheses of `Obligations.SlotsAndPackets`, clause by clause (its part on this). -/
theorem witness_FecAndRehearsedErrors :
  (let s : State := lk
   let p : Port := 3
   let x : PortSt := s.portOf ↑p
   let data : Bytes := pktXor
   let good : W32 := crc32c (slice data 0 12 ++ List.drop 16 data)
   let got : W32 := BitVec.ofNat 32 (fieldAt data 12 4)
   risingFrom 0 s.ports = true ∧ s.isActive ↑p = true ∧ data.length = 16 + 16 * bitsAt data 0 4 25 20 ∧ got ≠ good ∧
   got = good ^^^ 0x52454852 ∧ x.nakAt = none) ∧
  (let s : State := s5
   let p : Port := 3
   let x : PortSt := s.portOf ↑p
   let lane : Fin 8 := 2
   let ts := (tget [] x.fecTimes lane).filter (fun t => decide (s.ns < t.1 + 1000000)) ++ [(s.ns, 6)]
   risingFrom 0 s.ports = true ∧ s.isActive ↑p = true ∧ (ts.map (·.2)).sum ≤ 16) ∧
  (let s : State := s5
   let p : Port := 3
   let x : PortSt := s.portOf ↑p
   let lane : Fin 8 := 2
   let ts := (tget [] x.fecTimes lane).filter (fun t => decide (s.ns < t.1 + 1000000)) ++ [(s.ns, 7)]
   risingFrom 0 s.ports = true ∧ s.isActive ↑p = true ∧ x.rxMask.getLsbD lane = true ∧ 16 < (ts.map (·.2)).sum ∧
   x.causes = 0) := by
  decide +kernel

end Ports

namespace Fabric

def sA : Machine.State := withLink net (fun l => { l with sent := [sent0] })
def sentB : Sent := { sent0 with waiting := [4, 5] }
def sentC : Sent := { sent0 with round := 3 }
def sB : Machine.State := withLink net (fun l => { l with sent := [sentB] })
def sC : Machine.State := withLink { net with run := none } (fun l => { l with sent := [sentC] })
def sT : Machine.State := { sA with ns := 500000 }
def xr : OpenXfer := { flow := 5, hop := 2, tseq := 9, source := 2, got := [0], round := 1 }
def sX : Machine.State := withLink net (fun l => { l with open_ := [xr], buf := [(0x4400, 9)] })
def crcd : Bytes := leBytes 8 (crc64 ((xr.slice (sX.linkOf 0) fl 1).flatten)).toNat ++ zeros 8
def sTag : Machine.State := { up with fabric := { up.fabric with tags := [(2, [(9, [1, 2])])] } }
def rows2 : Machine.State := nq (fun l => { l with delivered := [64, 65] })
def rows2d : Machine.State := nq (fun l => { l with delivered := [64, 65], discarded := [65] })
def sum : Machine.State := withLink net (fun l => { l with open_ := [xo 6], own := [(32768 * 6, pos0, false)], buf := [(0, 5), (0x4400, 7)] })
def sumGone : Machine.State := withLink sum (fun l => { l with own := [(32768 * 6, pos0, true)] })
def sum1 : Machine.State := withLink sum (fun l => { l with open_ := [{ xo 6 with hop := 1 }] })
def fsendCmd : Cmd := { op := .fsend 24 (.lit 256) 5 0 (.lit 0x200) 2, pos := pos0, ready := false }
def fsendRead : Machine.State := { net with queue := [(qKey 24 2, { issued := 1, cmds := [fsendCmd] })] }

/-- States and operands that meet the hypotheses of `Obligations.FlowsIssueAndRetire`, clause by clause (its part on this). -/
theorem witness_FlowCommandsIssue :
  (let s : State := net
   let v : VMove := 24
   let k : Fin 16 := 2
   let n : BitVec 12 := 0
   let fb : FlowOp := FlowOp.lit 0
   let b : Nat := (s.mvOf (s.phys ↑v)).beats
   let q : Machine.Seq := s.seqOf ↑v
   let die : Nat := s.vord ↑v
   let a : Nat := q.flowAddr fb
   let u : Queue := s.qOf (qKey ↑v ↑k)
   let src : AddrOp := AddrOp.lit 256
   let flow : BitVec 14 := 5
   let f : Machine.Flow := fl
   let rows : List (Nat × Nat) := outRows (q.addr src) (n.toNat + 1) b
   s.canEngine ↑v = true ∧
   s.vtype ↑v = 7 ∧
   s.discarded = false ∧
   (s.replaying && s.replay.data) = false ∧
   die < 2 ∧
   BitVec.toNat (u.issued - u.retired) ≠ (s.qDecl ↑v ↑k).1 ∧
   u.reserved b ≤ (s.qDecl ↑v ↑k).2 ∧
   s.inExtents (↑v) (reads rows ++ flowRows die a (n.toNat + 1) b true) ∧
   s.flowOf die flow.toNat = some f ∧
   f.srcFirst ≤ a % 2 ^ 23 / 256 * 256 ∧
   a % 2 ^ 23 / 256 * 256 + 256 * (n.toNat + 1) ≤ f.srcFirst + f.size ∧
   s.levelShort s.plan f.dim (natOfBool f.dir) = false) ∧
  (let s : State := net
   let v : VMove := 24
   let k : Fin 16 := 2
   let n : BitVec 12 := 0
   let fb : FlowOp := FlowOp.lit 0
   let b : Nat := (s.mvOf (s.phys ↑v)).beats
   let q : Machine.Seq := s.seqOf ↑v
   let die : Nat := s.vord ↑v
   let a : Nat := q.flowAddr fb
   let u : Queue := s.qOf (qKey ↑v ↑k)
   s.canEngine ↑v = true ∧
   s.vtype ↑v = 7 ∧
   s.discarded = false ∧
   (s.replaying && s.replay.data) = false ∧
   die < 2 ∧
   BitVec.toNat (u.issued - u.retired) ≠ (s.qDecl ↑v ↑k).1 ∧
   u.reserved b + (n.toNat + 1) ≤ (s.qDecl ↑v ↑k).2 ∧
   s.inExtents (↑v) (flowRows die a (n.toNat + 1) b false) ∧
   (∀ e ∈ s.plan.flows, s.levelShort s.plan e.2.dim (1 - natOfBool e.2.dir) = false)) := by
  unfold State.inExtents
  decide +kernel

/-- States and operands that meet the hypotheses of `Obligations.FlowsIssueAndRetire`, clause by clause (its part on this). -/
theorem witness_FsendRowsRead :
  let s : State := fsendRead
  let u : Queue := s.qOf (qKey pos0.vmove 2)
  let l : LinkDie := s.linkOf (s.vord pos0.vmove)
  s.discarded = false ∧ (s.replaying && s.replay.data) = false ∧ risingFrom 0 s.links = true ∧
  u.waiting pos0 = some (0, fsendCmd) ∧ s.flowOf (s.vord pos0.vmove) 5 = some fl ∧ risingFrom 0 l.tseq = true ∧
  Memory.wf l.fill l.buf = true := by
  decide +kernel

/-- States and operands that meet the hypotheses of `Obligations.FlowsIssueAndRetire`, clause by clause (its part on this). -/
theorem witness_FrecvRetires :
  (let s : State := rows2
   let die : Fin 2 := 0
   let k : Fin 16 := 2
   let r : Run := netRun
   let i : Nat := 0
   let row : Nat := 64
   let n : Nat := 2
   let c : Cmd := frecvCmd
   let l : LinkDie := s.linkOf ↑die
   let key : Nat := qKey (nthOfType (List.map (fun (x : Nat × Bool) => x.1) r.plan.moves) 7 ↑die) ↑k
   s.run = some r ∧
   s.replaying = false ∧
   s.replay.data = false ∧
   risingFrom 0 s.queue = true ∧
   (s.qOf key).nextRecv = some (i, c, row, n) ∧
   (s.qOf key).cmds[i]? = some c ∧
   (∀ j < n, row + j ∈ l.delivered) ∧
   (∀ j < n, row + j ∉ l.discarded)) ∧
  (let s : State := rows2d
   let die : Fin 2 := 0
   let k : Fin 16 := 2
   let r : Run := netRun
   let i : Nat := 0
   let row : Nat := 64
   let n : Nat := 2
   let c : Cmd := frecvCmd
   let l : LinkDie := s.linkOf ↑die
   let key : Nat := qKey (nthOfType (List.map (fun (x : Nat × Bool) => x.1) r.plan.moves) 7 ↑die) ↑k
   s.run = some r ∧
   s.replaying = false ∧
   s.replay.data = false ∧
   risingFrom 0 s.queue = true ∧
   (s.qOf key).nextRecv = some (i, c, row, n) ∧
   (s.qOf key).cmds[i]? = some c ∧
   (∀ j < n, row + j ∈ l.delivered) ∧
   (∃ j < n, row + j ∈ l.discarded)) := by
  decide +kernel

/-- States and operands that meet the hypotheses of `Obligations.FlowsIssueAndRetire`, clause by clause (its part on this). -/
theorem witness_CollectRowsCombine :
  (let s : State := sum
   let l : LinkDie := s.linkOf 0
   let x : OpenXfer := xo 6
   risingFrom 0 s.links = true ∧ tfind l.flows 6 = some flC ∧ l.open_.find? (fun y => y.is 6 2 9) = some x ∧
   x.verified = true ∧ x.rows = some 1 ∧ (∀ k, k < 1 → (tfind l.own (32768 * 6 + (x.first + k))).isSome = true) ∧
   flC.hops ≤ 2 ∧ Memory.wf l.fill l.buf = true) ∧
  (let s : State := sumGone
   let l : LinkDie := s.linkOf 0
   let x : OpenXfer := xo 6
   risingFrom 0 s.links = true ∧ tfind l.flows 6 = some flC ∧ l.open_.find? (fun y => y.is 6 2 9) = some x ∧
   x.verified = true ∧ x.rows = some 1 ∧ flC.hops ≤ 2 ∧
   (∃ k p, k < 1 ∧ tfind l.own (32768 * 6 + (x.first + k)) = some (p, true))) ∧
  (let s : State := sum1
   let l : LinkDie := s.linkOf 0
   let x : OpenXfer := { xo 6 with hop := 1 }
   risingFrom 0 s.links = true ∧ tfind l.flows 6 = some flC ∧ l.open_.find? (fun y => y.is 6 1 9) = some x ∧
   x.verified = true ∧ x.rows = some 1 ∧ (∀ k, k < 1 → (tfind l.own (32768 * 6 + (x.first + k))).isSome = true) ∧
   1 < flC.hops ∧ x.discard = false ∧ ∀ k p, k < 1 → tfind l.own (32768 * 6 + (x.first + k)) ≠ some (p, true)) := by
  refine ⟨by decide +kernel, ⟨by decide +kernel, by decide +kernel, by decide +kernel, by decide +kernel, by decide +kernel,
    by decide +kernel, 0, pos0, by decide, by decide +kernel⟩, by decide +kernel, by decide +kernel, by decide +kernel,
    by decide +kernel, by decide +kernel, by decide +kernel, by decide +kernel, by decide +kernel, ?_⟩
  intro k p hk
  have h0 : k = 0 := by omega
  have h : tfind (sum1.linkOf 0).own (32768 * 6 + ((xo 6).first + 0)) = some (pos0, false) := by decide +kernel
  subst h0
  change tfind (sum1.linkOf 0).own (32768 * 6 + ((xo 6).first + 0)) ≠ _
  rw [h]
  simp

/-- States and operands that meet the hypotheses of `Obligations.EndToEnd`, clause by clause (its part on this). -/
theorem witness_EndToEndAtSource :
  (let s : State := sB
   let die : Fin 2 := 0
   let x : Sent := sentB
   let f : Machine.Flow := fl
   let l : LinkDie := s.linkOf ↑die
   let src : W16 := 4
   let u : E2EUnit := e2u 2 5 0 9 0 0 0
   let rest : List W16 := List.filter (fun (x : W16) => x != src) x.waiting
   risingFrom 0 s.links = true ∧
   tfind l.flows x.flow = some f ∧
   E2E.die u = ↑die ∧
   l.sentTo (E2E.flow u) (E2E.tseq u) src = some x ∧
   E2E.ok s u 2 = true ∧
   rest ≠ []) ∧
  (let s : State := sA
   let die : Fin 2 := 0
   let x : Sent := sent0
   let f : Machine.Flow := fl
   let l : LinkDie := s.linkOf ↑die
   let src : W16 := 4
   let u : E2EUnit := e2u 2 5 0 9 0 0 0
   let rest : List W16 := List.filter (fun (x : W16) => x != src) x.waiting
   let q : Nat := 2
   risingFrom 0 s.links = true ∧
   tfind l.flows x.flow = some f ∧
   E2E.die u = ↑die ∧
   l.sentTo (E2E.flow u) (E2E.tseq u) src = some x ∧
   E2E.ok s u 2 = true ∧
   rest = [] ∧
   f.collect = false ∧
   x.queue = some q) ∧
  (let s : State := sA
   let die : Fin 2 := 0
   let x : Sent := sent0
   let f : Machine.Flow := fl
   let l : LinkDie := s.linkOf ↑die
   let src : W16 := 4
   let u : E2EUnit := e2u 3 5 0 9 0 0 1
   risingFrom 0 s.links = true ∧
   tfind l.flows x.flow = some f ∧
   E2E.die u = ↑die ∧
   l.sentTo (E2E.flow u) (E2E.tseq u) src = some x ∧
   E2E.ok s u 3 = true ∧
   x.round < E2E.round u) ∧
  (let s : State := sT
   let die : Fin 2 := 0
   let x : Sent := sent0
   let f : Machine.Flow := fl
   let l : LinkDie := s.linkOf ↑die
   let flow : BitVec 14 := 5
   let tseq : W16 := 9
   risingFrom 0 s.links = true ∧
   tfind l.flows x.flow = some f ∧
   List.find?
       (fun (z : Sent) =>
         z.flow == flow.toNat && z.tseq == BitVec.toNat tseq && !z.waiting.isEmpty &&
           match z.closeAt with
           | some c => decide (c + s.e2eLimit ≤ s.ns)
           | none => false)
       l.sent =
     some x) := by
  decide +kernel

set_option maxRecDepth 1000000 in
/-- States and operands that meet the hypotheses of `Obligations.EndToEnd`, clause by clause (its part on this). -/
theorem witness_EndToEndAtDestination :
  (let s : State := sX
   let src : W16 := 2
   let u : E2EUnit := e2u 4 5 0 9 2 1 1
   let data : Bytes := List.replicate 256 7
   let f : Machine.Flow := fl
   let hop : Nat := 2
   let x : OpenXfer := xr
   let die : Nat := E2E.die u
   let l : LinkDie := s.linkOf die
   let t : Nat := E2E.tseq u
   let o : Nat := E2E.offset u
   risingFrom 0 s.links = true ∧
   E2E.source u = src ∧
   tfind l.flows (E2E.flow u) = some f ∧
   s.resendHop l f (E2E.flow u) t src = some hop ∧
   l.isVerified (E2E.flow u) hop t = false ∧
   (f.mcast || f.collect || hop == f.hops) = true ∧
   256 * (o + 1) ≤ f.size ∧
   l.openOf (E2E.flow u) hop t = some x ∧
   x.round = E2E.round u ∧
   E2E.ok s u 4 = true ∧
   List.length data = 256 ∧
   x.rows = none ∧
   Memory.wf l.fill l.buf = true) ∧
  (let s : State := sX
   let src : W16 := 2
   let u : E2EUnit := e2u 1 5 0 9 2 0 1
   let data : Bytes := crcd
   let f : Machine.Flow := fl
   let hop : Nat := 2
   let x : OpenXfer := xr
   let die : Nat := E2E.die u
   let l : LinkDie := s.linkOf die
   let t : Nat := E2E.tseq u
   let o : Nat := E2E.offset u
   risingFrom 0 s.links = true ∧
   E2E.source u = src ∧
   tfind l.flows (E2E.flow u) = some f ∧
   s.resendHop l f (E2E.flow u) t src = some hop ∧
   l.isVerified (E2E.flow u) hop t = false ∧
   (f.mcast || f.collect || hop == f.hops) = true ∧
   256 * (o + 1) ≤ f.size ∧
   l.openOf (E2E.flow u) hop t = some x ∧
   x.round = E2E.round u ∧
   E2E.ok s u 1 = true ∧
   List.length data = 16 ∧
   f.collect = false ∧
   0 < x.round ∧
   x.got.length = E2E.rows u ∧
   crc64 (x.slice l f (E2E.rows u)).flatten = BitVec.ofNat 64 (fieldAt data 0 8)) ∧
  (let s : State := sTag
   let src : W16 := 2
   let tag : W16 := 9
   let held : List (W16 × Bytes) := tget [] s.fabric.tags (BitVec.toNat src)
   let e : W16 × Bytes := (9, [1, 2])
   risingFrom 0 s.links = true ∧
   List.find? (fun (e : W16 × Bytes) => e.1 == tag) held = some e) ∧
  (let s : State := sX
   let src : W16 := 2
   let tag : W16 := 8
   let held : List (W16 × Bytes) := tget [] s.fabric.tags (BitVec.toNat src)
   risingFrom 0 s.links = true ∧
   List.find? (fun (e : W16 × Bytes) => e.1 == tag) held = none) := by
  decide +kernel

end Fabric

namespace Grid

def g0 : Grid := { base.grid with memberEn := true, grid := 3, epoch := 2 }
def W0 (k : Nat) (e : Nat) : W32 := BitVec.ofNat 32 (0xA + k * 16 + e * 256 + 3 * 65536)
def gasp (c src : Nat) : CtrlUnit := mkU (BitVec.ofNat 32 (9 + c * 16 + src * 65536)) (BitVec.ofNat 32 (3 * 65536)) 500
def it (k st : Nat) : Item := { key := k, rehearsal := false, stamp := st }
def gRun : Run := { run with plan := { plan with moves := [], extents := [], queues := [] }, map := [], gseq := some 6 }
def gs : Machine.State := { net with ns := 50000, grid := { g0 with fenceLimit := 1 }, run := some gRun }
def a20 : Acc := acc1 0 [(0, 2, 1)]
def gReq : StepReq := { req with acc := 7, start := 2, gseq := some 8 }
def gc : Machine.State := { withAcc { host with ns := 50000, grid := { g0 with fenceLimit := 1 }, ports := ports2, tables := netTables } 7 a20 with steps := [gReq] }
def m0 : Machine.State := { lk with tables := netTables, grid := g0 }
def m1 : Machine.State := { m0 with grid := { g0 with state := 1, items := [it 5 100, it 9 500000] }, chron := { count := 800100 } }
def m2 : Machine.State := { m0 with grid := { g0 with state := 2, items := [it 5 100, it 9 500000], set := [5], ownSeal := some (1, 7), seals := [(1, 7)] }, chron := { count := 1600100 } }
def h0 : Machine.State := { lk with tables := netTables, grid := { g0 with state := 3, aborts := [(1, false)], t0Floor := some 6 } }
def tp (g lv fa d : Nat) : Bytes := leBytes 4 g ++ leBytes 4 0 ++ leBytes 4 (lv + fa * 256) ++ zeros 4 ++ List.replicate 16 (BitVec.ofNat 8 d)
def own (g lv : Nat) (fa : Bool) : Nat × TwinPkt := (100, { gseq := g, epoch := 0, level := lv, faulted := fa, digest := List.replicate 16 5 })
def tw (t : Nat) (o : List (Nat × TwinPkt)) : Machine.State := { lk with tables := netTables, grid := { g0 with twin := t, twinPort := 3, ownTwin := o } }
def rh (i : List (Nat × Nat × Nat × Nat)) : Machine.State := { lk with tables := netTables, grid := { g0 with inject := i } }
def fi : Acc := acc1 0 [(0, 1, 0x28), (8, 4, 1 + 3 * 16), (0xC, 4, 99), (0x10, 4, 50)]
def rq : Machine.State := withAcc { host with tables := host.tables ++ netTables, ports := ports2, grid := { g0 with injectEn := true } } 7 fi
def dropped : Machine.State := { lkp { act0 with state := 0, dropUntil := some 100 } with tables := netTables }

/-- States and operands that meet the hypotheses of `Obligations.FencesAndAborts`, clause by clause. -/
theorem witness_FencesAndAborts :
  (let s : State := gs
   let g : Nat := 6
   let r : Run := gRun
   risingFrom 0 s.ports = true ∧
   s.stop.state ≠ 2 ∧
   s.gridRunning = some g ∧
   s.run = some r ∧
   s.fencePast = true ∧
   s.stop.ending = false ∧
   s.stop.state ≤ 1) ∧
  (let s : State := gc
   let r : StepReq := gReq
   let a : Machine.Acc := a20
   risingFrom 0 s.ports = true ∧
   s.stop.state ≠ 2 ∧
   s.run = none ∧
   s.armedChained = some r ∧
   s.fencePast = true ∧
   tfind s.intake.acc r.acc = some a ∧ a.mute = false ∧ (s.fnOf a.fn).inReset = false ∧ (s.cqOf a.fn a.cq).stopped = false) ∧
  (let s : State := gs
   let p : Port := 3
   let u : CtrlUnit := mkU (W0 3 2) 6 0
   risingFrom 0 s.ports = true ∧
   s.stop.state ≠ 2 ∧
   goodUnit u 10 4294967295 4294967295 4294901791 ∧
   bitsOf u.w0 7 4 = 3 ∧
   s.isActive ↑p = true ∧
   s.grid.memberEn = true ∧
   bitsOf u.w0 31 16 = s.grid.grid ∧
   bitsOf u.w0 15 8 = s.grid.epoch % 256 ∧
   (∀ x ∈ s.grid.aborts, x.1 ≠ BitVec.toNat u.w1)) := by
  unfold goodUnit
  decide +kernel

/-- States and operands that meet the hypotheses of `Obligations.MembershipAgrees`, clause by clause. -/
theorem witness_MembershipAgrees :
  (let s : State := m0
   let g : Grid := s.grid
   let p : Port := 3
   let u : CtrlUnit := gasp 4 77
   risingFrom 0 s.ports = true ∧
   s.grid.memberEn = true ∧
   s.isActive ↑p = true ∧
   goodUnit u 9 4294902015 4294901760 4294967295 ∧
   bitsOf u.w1 31 16 = g.grid ∧
   (∀ i ∈ g.items, i.key ≠ bitsOf u.w0 31 16)) ∧
  (let s : State := m0
   let g : Grid := s.grid
   let p : Port := 3
   let u : CtrlUnit := mkU (W0 1 3) 77 5
   risingFrom 0 s.ports = true ∧
   s.grid.memberEn = true ∧
   s.isActive ↑p = true ∧
   goodUnit u 10 4294967295 8388607 4294967295 ∧
   bitsOf u.w0 7 4 = 1 ∧
   bitsOf u.w0 31 16 = g.grid ∧
   bitsOf u.w0 15 8 = (g.epoch + 1) % 256 ∧
   (∀ i ∈ g.items, i.key ≠ bitsOf u.w1 21 0)) ∧
  (let s : State := m0
   let g : Grid := s.grid
   let p : Port := 3
   let u : CtrlUnit := mkU (W0 1 4) 77 5
   risingFrom 0 s.ports = true ∧
   s.grid.memberEn = true ∧
   s.isActive ↑p = true ∧
   goodUnit u 10 4294967295 8388607 4294967295 ∧
   bitsOf u.w0 7 4 = 1 ∧
   bitsOf u.w0 31 16 = g.grid ∧
   bitsOf u.w0 15 8 ≠ (g.epoch + 1) % 256) ∧
  (let s : State := m0
   let g : Grid := s.grid
   let p : Port := 3
   let u : CtrlUnit := mkU (W0 2 3) 77 5
   risingFrom 0 s.ports = true ∧
   s.grid.memberEn = true ∧
   s.isActive ↑p = true ∧
   goodUnit u 10 4294967295 4294967295 65535 ∧
   bitsOf u.w0 7 4 = 2 ∧
   bitsOf u.w0 31 16 = g.grid ∧
   bitsOf u.w0 15 8 = (g.epoch + 1) % 256 ∧
   ((bitsOf u.w2 15 0, u.w1) ∉ g.seals)) ∧
  (let s : State := m1
   let g : Grid := s.grid
   risingFrom 0 s.ports = true ∧
   s.grid.memberEn = true ∧
   g.state = 1 ∧
   s.pastT0 800000 = true) ∧
  (let s : State := m2
   let g : Grid := s.grid
   risingFrom 0 s.ports = true ∧
   s.grid.memberEn = true ∧
   g.state = 2 ∧
   s.pastT0 1600000 = true ∧
   s.gridWaiting = []) := by
  unfold goodUnit
  decide +kernel

/-- States and operands that meet the hypotheses of `Obligations.LevelsAndTwins`, clause by clause (its part on this). -/
theorem witness_LevelsAndGridCommands :
  (let s : State := h0
   let g : Grid := s.grid
   let p : Port := 3
   let u : CtrlUnit := mkU (W0 4 2) (BitVec.ofNat 32 (77 + 4 * 65536)) 9
   risingFrom 0 s.ports = true ∧
   s.isActive ↑p = true ∧
   g.memberEn = true ∧
   bitsOf u.w0 31 16 = g.grid ∧
   goodUnit u 10 4294967295 16777215 4294967295 ∧
   bitsOf u.w0 7 4 = 4 ∧
   risingFrom 0 g.levels = true ∧
   tget 0 g.levels (bitsOf u.w1 15 0) ≠ bitsOf u.w1 23 16) ∧
  (let s : State := h0
   let g : Grid := s.grid
   let p : Port := 3
   let u : CtrlUnit := mkU (W0 5 2) 8 0
   risingFrom 0 s.ports = true ∧
   s.isActive ↑p = true ∧
   g.memberEn = true ∧
   bitsOf u.w0 31 16 = g.grid ∧
   goodUnit u 10 4294967295 4294967295 4294901760 ∧
   bitsOf u.w0 7 4 = 5 ∧
   (BitVec.toNat u.w1 ∉ g.halfOuts)) ∧
  (let s : State := h0
   let g : Grid := s.grid
   let e : W32 := 2
   risingFrom 0 s.ports = true ∧
   g.state = 3 ∧
   BitVec.toNat e = g.epoch) ∧
  (let s : State := h0
   risingFrom 0 s.ports = true) := by
  unfold goodUnit
  decide +kernel

/-- States and operands that meet the hypotheses of `Obligations.LevelsAndTwins`, clause by clause (its part on this). -/
theorem witness_TwinsCompare :
  (let s : State := tw 2 [own 4 2 false]
   let data : Bytes := tp 4 2 0 6
   risingFrom 0 s.ports = true ∧
   s.twinOn = true ∧
   List.length data = 32) ∧
  (let s : State := tw 2 [own 4 2 false]
   let g : Grid := s.grid
   risingFrom 0 s.ports = true ∧
   s.twinOn = true ∧
   g.twinState = 0 ∧
   s.stop.state ≠ 2 ∧
   ((∃ o ∈ g.ownTwin, o.1 + max 1 g.twinTimeout * 10000 ≤ s.ns) ∨ s.isActive g.twinPort = false)) := by
  decide +kernel

/-- States and operands that meet the hypotheses of `Obligations.RehearsalsCarriedOut`, clause by clause. -/
theorem witness_RehearsalsCarriedOut :
  (let s : State := rq
   let g : Grid := s.grid
   let acc : Nat := 7
   let a : Machine.Acc := fi
   let kind : Nat := a.bits 8 4 3 0
   let port : Nat := a.bits 8 4 8 4
   let reh : Nat := a.fld 12 4
   let param : Nat := a.fld 16 4
   risingFrom 0 s.ports = true ∧
   s.serves acc 40 a ∧
   g.injectEn = true ∧
   1 ≤ kind ∧
   kind ≤ 4 ∧
   reh ≠ 0 ∧
   injectOk s kind port param = true ∧
   s.injectable ≠ 0) ∧
  (let s : State := rh [(1, 3, 5, 50)]
   let p : Nat := 3
   let reh : Nat := 5
   let us : Nat := 50
   risingFrom 0 s.ports = true ∧
   s.injection 1 = some (p, reh, us)) ∧
  (let s : State := dropped
   let p : Port := 3
   let c : Nat := 100
   risingFrom 0 s.ports = true ∧
   (s.portOf ↑p).dropUntil = some c ∧
   c ≤ s.ns) ∧
  (let s : State := rh [(2, 3, 9, 5)]
   let p : Nat := 3
   let reh : Nat := 9
   let n : Nat := 5
   risingFrom 0 s.ports = true ∧
   s.injection 2 = some (p, reh, n)) ∧
  (let s : State := rh [(3, 3, 4, 77)]
   let g : Grid := s.grid
   let p : Nat := 3
   let reh : Nat := 4
   let key : Nat := 77
   risingFrom 0 s.ports = true ∧
   s.injection 3 = some (p, reh, key) ∧
   g.memberEn = true ∧
   (∀ i ∈ g.items, i.key ≠ key)) ∧
  (let s : State := rh [(4, 3, 1, 131075)]
   let p : Nat := 3
   let reh : Nat := 1
   let x : Nat := 131075
   risingFrom 0 s.ports = true ∧
   s.injection 4 = some (p, reh, x) ∧
   risingFrom 0 s.aw = true) := by
  unfold State.serves
  decide +kernel

end Grid

namespace Beats

def tk (n : Nat) : Token := { tag := BitVec.ofNat 6 n, data := none }
def b0 : Machine.State := { base with power := { base.power with issue16 := 16 } }
def bStall : Machine.State := { base with power := { base.power with issue16 := 0 } }
def bWait : Machine.State := { b0 with mv := [(1, { beats := 3, periods := 9 }), (2, { beats := 4 })] }
def hold0 : Hold := { queue := 0, target := 5, site := 2, since := 0 }
def bHold : Machine.State := { b0 with mv := [(1, { beats := 3 })], seq := [(1, { hold := some hold0 })] }
def bGo : Machine.State := { b0 with
  mv := (List.range 64).map fun n => (n, if n = 1 then { beats := 3, periods := 9 } else if n = 2 then { beats := 4 } else { beats := 2 })
  chan := [(64 * 1 + 9, [tk 7]), (64 * 2 + 1, [tk 3])], seq := [(1, { ended := some 9 })] }
def flown : Flight := { pos := { pos0 with beat := 40, vmove := 10 }, work := .tileScales 84410368 false }
def later : Flight := { pos := { pos0 with beat := 44, vmove := 10 }, work := .tileScales 84410368 true }
def fly : Machine.State := { base with run := some { run with flights := [flown, later], settled := 40 } }
def silentRun : Run := { run with begin_ := some 3 }
def silentS : Machine.State := { base with ns := 500000, run := some silentRun }
def pr (p c : Nat) : PowerReading := { packageMw := p, coreMa := c, deltaMa := 0, overRail := none }
def waking : Machine.State := { base with run := some { run with reports := [{ vmove := 1, beat := 60, wake := true }] } }
def ramped : Machine.State := { base with power := { base.power with deltas := List.replicate 50 3125 } }
def reg (s : Machine.State) (r : PowerReading) : Power :=
  { s.power with window := pushWindow s.power.window r.packageMw, deltas := pushDelta s.power.deltas r.deltaMa
                 excursionNs := if 1000 * s.power.effLimit < r.packageMw then s.power.excursionNs + 20 else 0 }
def c40 : List W128 := List.replicate 40 0x80
def rp : Plan := { plan with code := [(1, c40)] }
def fi1 : Machine.State := { base with run := some { run with plan := rp }, seq := [(1, { fetching := [0], fetchNext := 32 })] }
def fi2 : Machine.State := { up with slots := [(0, .resident rp)], steps := [req], seq := [(1, { fetching2 := [0], fetchNext2 := 32 })] }
def pl0 : Plan := { moves := gridTypes.map (·, false), flows := [(5, fl)] }
def plG : Plan := { pl0 with gridSize := 2, serves := [(0, 0), (1, 1)] }
def ar (p : Plan) : Machine.State := { host with
  slots := [(0, .resident p)], steps := [req], intake := { host.intake with acc := [(7, acc1 0 [(0, 2, 1)])], next := 8 }
  tables := (2, { active := [(0, seal4 (2 ^ 17)), (1, seal4 (5 + 2 ^ 17))] }) :: host.tables }
def la (r : StepReq) : Machine.State := { host with
  slots := [(0, .resident pl0)], steps := [r], intake := { host.intake with acc := [(7, acc1 0 [(0, 2, 1)])], next := 8 }
  fabric := { up.fabric with armed := some 7 }, queue := [(3, {})], chan := [(1, [tk 3])], mv := [(3, { beats := 7 })]
  tables := (1, { active := (List.range 64).map fun v => (v, seal4 (v + 64)) }) :: host.tables }
def rc : StepReq := { req with start := 2, triggered := true }
def tlRun : Run := { run with req := { req with start := 1, launch := 6000, ready := 6500 } }
def tl : Machine.State := { base with mv := [], power := { base.power with issue16 := 16 }, run := some tlRun, seq := [(cMove, { ended := some 0 })] }
def ac : Acc := acc1 0 [(0, 2, 1)]
def endRun : Run := { run with stopped := true, slip := [(3, 8)], fault := some { loc := 5, code := 0x104, stamp := 4 } }
def sc : Machine.State := withAcc { host with run := some endRun, queue := [(3, {})], chan := [(1, [tk 3])], fabric := { up.fabric with armed := some 7 } } 7 ac

/-- States and operands that meet the hypotheses of `Obligations.BalancePeriodsAndSupply`, clause by clause (its part on this). -/
theorem witness_BalancePeriodsCount :
  (let m : Nat := 0
   m ≤ 16) ∧
  (let s : State := up
   risingFrom 0 s.mv = true ∧
   s.run = none) ∧
  (let s : State := { b0 with run := some { run with stopped := true } }
   let n : Mv := 1
   let r : Run := { run with stopped := true }
   risingFrom 0 s.mv = true ∧ s.run = some r ∧ r.stopped = true ∧ n.val ≠ cMove) ∧
  (let s : State := b0
   (cMove : Nat) < 64 ∧ ∀ e ∈ s.trace.bufs, e.2.ents = []) ∧
  (let s : State := bStall
   let n : Mv := 1
   let m : Mvmt := s.mvOf ↑n
   let v : Nat := s.virt ↑n
   let r : Run := run
   risingFrom 0 s.mv = true ∧
   s.run = some r ∧
   r.stopped = false ∧
   s.passed ↑n = false ∧
   ↑n ≠ cMove ∧
   v < 64 ∧
   edgeIssues s.power.issue16 (m.periods % 16) = false) ∧
  (let s : State := bWait
   let n : Mv := 1
   let m : Mvmt := s.mvOf ↑n
   let v : Nat := s.virt ↑n
   let b : Nat := m.beats
   let q : Machine.Seq := s.seqOf v
   let r : Run := run
   risingFrom 0 s.mv = true ∧
   s.run = some r ∧
   r.stopped = false ∧
   s.passed ↑n = false ∧
   ↑n ≠ cMove ∧
   v < 64 ∧
   edgeIssues s.power.issue16 (m.periods % 16) = true ∧
   q.hold = none ∧
   s.emptyBeat v = false ∧
   (s.started (↑n) b = false ∨
     s.mayIssue b = false ∨ s.outputsFree ↑n = false ∨ s.inputs (↑n) b = InputState.waiting) ∧
   s.inputs (↑n) b ≠ InputState.badTag) ∧
  (let s : State := bHold
   let n : Mv := 1
   let m : Mvmt := s.mvOf ↑n
   let v : Nat := s.virt ↑n
   let q : Machine.Seq := s.seqOf v
   let r : Run := run
   let h : Hold := hold0
   risingFrom 0 s.mv = true ∧
   s.run = some r ∧
   r.stopped = false ∧
   s.passed ↑n = false ∧
   ↑n ≠ cMove ∧
   v < 64 ∧
   edgeIssues s.power.issue16 (m.periods % 16) = true ∧
   q.hold = some h ∧
   holdMet s v h = false ∧
   s.emptyBeat v = false ∧
   risingFrom 0 s.seq = true) ∧
  (let s : State := bGo
   let n : Mv := 1
   let m : Mvmt := s.mvOf ↑n
   let v : Nat := s.virt ↑n
   let b : Nat := m.beats
   let q : Machine.Seq := s.seqOf v
   let r : Run := run
   risingFrom 0 s.mv = true ∧
   s.run = some r ∧
   r.stopped = false ∧
   s.passed ↑n = false ∧
   ↑n ≠ cMove ∧
   v < 64 ∧
   edgeIssues s.power.issue16 (m.periods % 16) = true ∧
   q.hold = none ∧
   s.emptyBeat v = false ∧
   s.started (↑n) b = true ∧
   s.mayIssue b = true ∧
   s.outputsFree ↑n = true ∧
   s.inputs (↑n) b = InputState.ready ∧
   b % 256 ≠ 0 ∧
   q.ended.isSome = true ∧
   q.starved = false ∧
   risingFrom 0 s.chan = true) := by
  refine ⟨?_, ?_, ?_, ?_, ?_, ?_, ?_, ?_⟩ <;> decide +kernel

/-- States and operands that meet the hypotheses of `Obligations.BalancePeriodsAndSupply`, clause by clause (its part on this). -/
theorem witness_SupplyAndRegulator :
  (let s : State := silentS
   risingFrom 0 s.mv = true ∧ 90000 ≤ 100 * 150000 / (100 + s.tbl.balanceMarginPct) ∧
   100 * 90000 / (100 + s.tbl.balanceMarginPct) < 90000) ∧
  (let s : State := silentS
   let r : Run := silentRun
   s.run = some r ∧ r.fault = none ∧ s.silent 2 1 = true) ∧
  (let s : State := base
   let r : PowerReading := pr 4000000 1000
   r.overRail = none ∧ 1 < s.power.rateLevel ∧ s.power.rateLevel ≤ 160 ∧ s.power.ceiling ≤ 288 ∧ s.power.lowest = false ∧
   (reg s r).limitExceeded s.tbl.reg r = true) ∧
  (let s : State := base
   let r : PowerReading := pr 1000 1000
   r.overRail = none ∧ 1 ≤ s.power.rateLevel ∧ s.power.rateLevel ≤ 160 ∧ s.power.ceiling ≤ 288 ∧ s.power.lowest = false ∧
   (reg s r).limitExceeded s.tbl.reg r = false ∧ s.wakeDue = false) ∧
  (let s : State := waking
   let r : PowerReading := pr 1000 1000
   (reg s r).limitExceeded s.tbl.reg r = false ∧ s.wakeDue = true) ∧
  (let s : State := ramped
   let r : PowerReading := pr 1000 1000
   (reg s r).limitExceeded s.tbl.reg r = false ∧ s.wakeDue = false ∧ 1000 * s.tbl.reg.rampAPerUs ≤ (reg s r).ramp) := by
  decide +kernel

/-- States and operands that meet the hypotheses of `Obligations.WorkSettlesAtItsBeats`, clause by clause. -/
theorem witness_WorkSettlesAtItsBeats :
  (let s : State := fly
   s.run.isSome = true ∧ (∀ f ∈ s.flights, 55 ≤ f.due ∧ f.left = true) ∧ (∃ f ∈ s.flights, f.due = 55) ∧
   (∃ f ∈ s.flights, 55 < f.due)) ∧
  (let s : State := fly
   (∀ f ∈ s.flights, 54 ≤ f.due ∧ f.left = true) ∧ (∀ f ∈ s.flights, 54 < f.due)) ∧
  (let s : State := fly
   s.settled ≤ 57 ∧ (∀ f ∈ s.flights, s.settled ≤ f.due ∧ f.left = true)) := by
  decide +kernel

/-- States and operands that meet the hypotheses of `Obligations.InstructionFetch`, clause by clause. -/
theorem witness_InstructionFetch :
  (let s : State := fi1
   let n : Mv := 1
   let v : Nat := s.virt ↑n
   let q : Machine.Seq := s.seqOf v
   risingFrom 0 s.seq = true ∧
   s.run.isSome = true ∧
   q.roomy = true ∧
   q.fetchNext < (s.code v).length) ∧
  (let s : State := fi2
   let n : Mv := 1
   let v : Nat := s.virt ↑n
   let q : Machine.Seq := s.seqOf v
   let p : Plan := rp
   risingFrom 0 s.seq = true ∧
   s.run = none ∧
   q.roomy = true ∧
   s.nextPlan = some p ∧
   q.fetchNext2 < (p.codeOf v).length) ∧
  (let s : State := fi1
   let n : Mv := 1
   let v : Nat := s.virt ↑n
   let q : Machine.Seq := s.seqOf v
   let i : Nat := 0
   let is : List Nat := []
   risingFrom 0 s.seq = true ∧
   q.fetching = i :: is ∧
   s.sound (s.arriving v)) ∧
  (let s : State := fi2
   let n : Mv := 1
   let v : Nat := s.virt ↑n
   let q : Machine.Seq := s.seqOf v
   let i : Nat := 0
   let is : List Nat := []
   let p : Plan := rp
   risingFrom 0 s.seq = true ∧
   q.fetching = [] ∧
   q.fetching2 = i :: is ∧
   s.nextPlan = some p ∧
   s.sound (s.arriving v)) ∧
  (let s : State := fi1
   let q : Seq := s.seqOf (s.virt 1)
   q.fetching ≠ [] ∨ q.fetching2 ≠ []) := by
  refine ⟨?_, ?_, ?_, ?_, Or.inl ?_⟩ <;> (try unfold State.sound) <;> decide +kernel

/-- States and operands that meet the hypotheses of `Obligations.StepsArmLaunchComplete`, clause by clause (its part on this). -/
theorem witness_StepsArm :
  (let s : State := ar pl0
   let r : StepReq := req
   let rs : List StepReq := []
   let p : Plan := pl0
   s.steps = r :: rs ∧
   s.nextPlan = some p ∧
   s.run = none ∧
   s.fabric.armed ≠ some r.acc ∧
   (s.tableOf tblDim).pending = false ∧
   (s.tableOf tblPort).pending = false ∧
   risingFrom 0 s.links = true ∧
   p.gridSize ≤ 1) ∧
  (let s : State := ar plG
   let r : StepReq := req
   let rs : List StepReq := []
   let p : Plan := plG
   s.steps = r :: rs ∧
   s.nextPlan = some p ∧
   s.run = none ∧
   s.fabric.armed ≠ some r.acc ∧
   (s.tableOf tblDim).pending = false ∧
   (s.tableOf tblPort).pending = false ∧
   risingFrom 0 s.links = true ∧
   1 < p.gridSize ∧
   s.fenced = false ∧
   (∀ a ∈ s.grid.aborts, a.1 ≠ s.grid.gseq) ∧
   s.mapInvalid p = false ∧
   s.levelsMet p = true) := by
  decide +kernel

/-- States and operands that meet the hypotheses of `Obligations.StepsArmLaunchComplete`, clause by clause (its part on this). -/
theorem witness_StepsLaunch :
  (let s : State := la req
   let r : StepReq := req
   let rs : List StepReq := []
   let p : Plan := pl0
   let m : List Nat := List.range 64
   risingFrom 0 s.mv = true ∧
   s.steps = r :: rs ∧
   s.nextPlan = some p ∧
   s.launchable r = true ∧
   s.latchMap p.moves = some m ∧
   s.sound (r.streams.map recordUnit) ∧
   r.start ≠ 2) ∧
  (let s : State := la rc
   let r : StepReq := rc
   let rs : List StepReq := []
   let p : Plan := pl0
   let m : List Nat := List.range 64
   risingFrom 0 s.mv = true ∧
   s.steps = r :: rs ∧
   s.nextPlan = some p ∧
   s.launchable r = true ∧
   s.latchMap p.moves = some m ∧
   s.sound (r.streams.map recordUnit) ∧
   r.start = 2 ∧
   r.triggered = true ∧
   s.mapInvalid p = false) ∧
  (let s : State := tl
   let r : Run := tlRun
   risingFrom 0 s.mv = true ∧
   s.run = some r ∧
   r.stopped = false ∧
   r.req.start = 1 ∧
   r.req.launch ≤ s.chron.count ∧
   (s.mvOf cMove).beats = 0 ∧
   s.virt cMove < 64 ∧
   s.passed cMove = false ∧
   16 ≤ s.power.issue16 ∧
   s.emptyBeat (s.virt cMove) = false ∧
   (s.seqOf (s.virt cMove)).hold = none ∧
   (s.seqOf (s.virt cMove)).opened = false ∧
   (s.seqOf (s.virt cMove)).starved = false ∧
   (s.seqOf (s.virt cMove)).ended.isSome = true ∧
   s.mayIssue 0 = true ∧
   s.outputsFree cMove = true ∧
   (∀ u ∈ gridNeighbours cMove, (s.mvOf u).beats = 0)) := by
  refine ⟨?_, ?_, ?_⟩ <;> (try unfold State.sound) <;> decide +kernel

/-- States and operands that meet the hypotheses of `Obligations.StepsArmLaunchComplete`, clause by clause (its part on this). -/
theorem witness_StepsComplete :
  (let s : State := sc
   let r : Run := endRun
   let a : Machine.Acc := ac
   s.run = some r ∧
   s.stepOver r = true ∧
   r.discarded = false ∧
   tfind s.intake.acc r.req.acc = some a ∧
   a.fn = r.req.fn ∧
   a.mute = false ∧
   (s.fnOf a.fn).inReset = false ∧
   (s.cqOf a.fn a.cq).stopped = false) := by
  decide +kernel

end Beats

namespace Loader

def a0 : Acc := acc1 0 [(0, 2, 2), (8, 4, 3)]
def aB : Acc := { a0 with begun := true }
def aU : Acc := acc1 0 [(0, 2, 3), (8, 4, 3)]
def pp : Plan := { digest := List.replicate 48 1 }
def p1 : Machine.State := withAcc host 7 a0
def p2 (q : Slot) : Machine.State := { withAcc host 7 aB with slots := [(3, q)] }
def p3 (q : Slot) : Machine.State := { withAcc host 7 aU with slots := [(3, q)] }
def aL : Acc := acc1 0 [(0, 2, 4), (8, 4, 0), (0xC, 2, 5)]
def aH : Acc := acc1 0 [(0, 2, 4), (8, 4, 1)]
def ld : SetLoad := { acc := 7, upstream := some 5, down := [(6, true)], set := some 9, chunks := [⟨[], []⟩, ⟨[], []⟩], stored := [0], payload := 5000, accepted := true }
def l2 : SetLoad := { ld with accepted := false, acc := 8 }
def relaying : Machine.State := { up with loads := [ld] }
def relaying2 : Machine.State := { up with loads := [l2] }
def le : SetLoad := { acc := 7, upstream := some 5, down := [], set := some 9 }
def dg : Bytes := List.replicate 48 1
def aW : Acc := acc1 0 [(0, 2, 5), (8, 48, leNat dg)]
def aWB : Acc := { aW with begun := true }
def relayed : Machine.State := { withAcc host 7 aWB with loads := [le] }
def ws (c : Nat) : WeightSet := { kind := 0, domain := 0, payload := 4096, base := [], count := c, blocks := [(0, 3)] }
def su (c : Nat) : Machine.State := { withAcc host 7 aW with sets := [(dg, ws c)] }
def su3 : Machine.State := { su 1 with slots := [(0, .resident { plan with bindings := [(dg, 1)] })] }
def awS (ph : Nat) : Machine.State := { up with aw := (0, { up.awOf 0 with state := 4, phase := ph }) :: (List.range 11).map fun k => (k + 1, { up.awOf 1 with state := 3 }) }
def cellOut : PaneCell := { group := 3, pos := 7, cell := { row := 3, col := 9, neg := false, level64 := 640 } }
def lA : SetLoad := { acc := 7, upstream := none, down := [], kind := 1, digest := dg, accepted := true }
def ai : Machine.State := { withAcc (awS 5) 7 aW with loads := [lA] }

/-- States and operands that meet the hypotheses of `Obligations.PlansLoadAndUnload`, clause by clause. -/
theorem witness_PlansLoadAndUnload :
  (let s : State := p1
   let acc : Nat := 7
   let a : Machine.Acc := a0
   let b : Bytes := [1, 2]
   let slot : Nat := a.bits 8 4 5 0
   let c : Nat := planCheck s b (a.fld 24 8) slot
   risingFrom 0 s.slots = true ∧
   s.serves acc 2 a ∧
   c ≠ 0) ∧
  (let s : State := p2 (Slot.loading 7 pp)
   let slot : Fin 64 := 3
   let acc : Nat := 7
   let p : Plan := pp
   let a : Machine.Acc := aB
   risingFrom 0 s.slots = true ∧
   s.slotOf ↑slot = Slot.loading acc p ∧
   tfind s.intake.acc acc = some a ∧
   a.mute = false ∧
   (s.fnOf a.fn).inReset = false ∧
   (s.cqOf a.fn a.cq).stopped = false ∧
   s.replaying = false) ∧
  (let s : State := p3 (Slot.resident pp)
   let acc : Nat := 7
   let a : Machine.Acc := aU
   let slot : Nat := a.bits 8 4 5 0
   let p : Plan := pp
   risingFrom 0 s.slots = true ∧
   s.serves acc 3 a ∧
   s.slotOf slot = Slot.resident p) ∧
  (let s : State := p3 (Slot.loading 7 pp)
   let acc : Nat := 7
   let a : Machine.Acc := aU
   let slot : Nat := a.bits 8 4 5 0
   risingFrom 0 s.slots = true ∧
   s.serves acc 3 a ∧
   (∃ (b : Nat) (p : Plan), s.slotOf slot = Slot.loading b p)) ∧
  (let s : State := p3 Slot.empty
   let acc : Nat := 7
   let a : Machine.Acc := aU
   let slot : Nat := a.bits 8 4 5 0
   risingFrom 0 s.slots = true ∧
   s.serves acc 3 a ∧
   s.slotOf slot = Slot.empty) ∧
  (let s : State := p2 (Slot.unloading 7 pp)
   let slot : Fin 64 := 3
   let acc : Nat := 7
   let p : Plan := pp
   let a : Machine.Acc := aB
   risingFrom 0 s.slots = true ∧
   s.slotOf ↑slot = Slot.unloading acc p ∧
   s.stepsBefore acc ↑slot = false ∧
   tfind s.intake.acc acc = some a ∧
   a.mute = false ∧
   (s.fnOf a.fn).inReset = false ∧
   (s.cqOf a.fn a.cq).stopped = false) := by
  refine ⟨?_, ?_, ?_, ?_, ?_, ?_⟩
  · unfold State.serves; decide +kernel
  · decide +kernel
  · unfold State.serves; decide +kernel
  · unfold State.serves
    and_intros <;> first | decide +kernel | exact ⟨7, pp, by decide +kernel⟩
  · unfold State.serves; decide +kernel
  · decide +kernel

/-- States and operands that meet the hypotheses of `Obligations.WeightSetsLoad`, clause by clause. -/
theorem witness_WeightSetsLoad :
  (let s : State := withAcc host 7 aL
   let acc : Nat := 7
   let a : Machine.Acc := aL
   s.serves acc 4 a ∧
   a.fld 48 8 = 0 ∧
   (∀ l ∈ s.loads, l.acc ≠ acc) ∧
   risingFrom 0 s.intake.acc = true ∧
   a.bits 8 4 0 0 = 0) ∧
  (let s : State := withAcc host 7 aH
   let acc : Nat := 7
   let a : Machine.Acc := aH
   let m : Bytes := [1]
   s.serves acc 4 a ∧
   a.fld 48 8 = 0 ∧
   (∀ l ∈ s.loads, l.acc ≠ acc) ∧
   risingFrom 0 s.intake.acc = true ∧
   a.bits 8 4 0 0 = 1 ∧
   List.length m < 256 ∧
   a.bits 8 4 3 1 = 0) ∧
  (let s : State := relaying
   let src : Option W16 := some 4
   let set : W64 := 9
   s.loadFrom src set = none) ∧
  (let s : State := relaying
   let src : Option W16 := some 4
   let set : W64 := 9
   s.loadFrom src set = none) ∧
  (let s : State := relaying2
   let src : Option W16 := some 5
   let o : Nat := 0
   let set : W64 := 9
   let data : Bytes := [1, 2]
   let l : SetLoad := l2
   s.loadFrom src set = some l ∧
   l.accepted = false ∧
   List.length (joinParts (tput o data l.manifest)) < 256) ∧
  (let s : State := relaying
   let src : Option W16 := some 5
   let set : W64 := 9
   let l : SetLoad := ld
   let i : Nat := 0
   s.loadFrom src set = some l ∧
   i ∈ l.stored) ∧
  (let s : State := relaying
   let src : Option W16 := some 5
   let o : Nat := 0
   let set : W64 := 9
   let data : Bytes := [1, 2]
   let l : SetLoad := ld
   let i : Nat := 1
   let l' : SetLoad := { acc := l.acc, upstream := l.upstream, down := l.down, set := some set, manifest := l.manifest, accepted := l.accepted, digest := l.digest, kind := l.kind, domain := l.domain, payload := l.payload, base := l.base, chunks := l.chunks, key := l.key, parts := tput (partKey i o) data l.parts, stored := l.stored, fails := l.fails, refusals := l.refusals, wanted := l.wanted, blocks := l.blocks, authority := l.authority, again := l.again }
   s.loadFrom src set = some l ∧
   (i ∉ l.stored) ∧
   o < 2097152 ∧
   List.length (l'.record i) ≠ l'.chunkLen i + 32 ∧
   (∀ x ∈ s.loads, x.acc = l.acc → x = l)) := by
  unfold State.serves
  decide +kernel

/-- States and operands that meet the hypotheses of `Obligations.WeightSetsLoad`, clause by clause (its part on this). -/
theorem witness_RelayedChunks :
  (let s : State := relaying
   let set : W64 := 9
   let l : SetLoad := ld
   let src : W16 := 6
   let i : Nat := 1
   l ∈ s.loads ∧
   l.set = some set ∧
   (∀ x ∈ s.loads, x.acc = l.acc → x = l) ∧
   s.loads.find? (fun x => x.set == some set && (x.down.any (fun e => e.1 == src) || x.upstream == some src)) = some l ∧
   (i ∉ l.stored) ∧ l.down.any (fun e => e.1 == src) = true) ∧
  (let s : State := relaying
   let set : W64 := 9
   let l : SetLoad := ld
   let src : W16 := 5
   s.loads.find? (fun x => x.set == some set && (x.down.any (fun e => e.1 == src) || x.upstream == some src)) = some l ∧
   l.down.any (fun e => e.1 == src) = false) ∧
  (let s : State := relaying
   let set : W64 := 9
   let l : SetLoad := ld
   let src : W16 := 6
   l ∈ s.loads ∧
   l.set = some set ∧
   (∀ x ∈ s.loads, x.acc = l.acc → x = l) ∧
   s.loadFrom (some src) set = none ∧
   List.find? (fun (x : SetLoad) => x.set == some set && x.down.any fun (e : W16 × Bool) => e.1 == src)
       s.loads =
     some l) ∧
  (let s : State := relayed
   let set : W64 := 9
   let l : SetLoad := le
   let src : W16 := 5
   let a : Machine.Acc := aWB
   l ∈ s.loads ∧
   l.set = some set ∧
   (∀ x ∈ s.loads, x.acc = l.acc → x = l) ∧
   s.loadFrom (some src) set = some l ∧
   l.down = [] ∧
   l.accepted = false ∧
   l.again = false ∧
   l.blocks = [] ∧
   tfind s.intake.acc l.acc = some a ∧
   a.mute = false ∧
   (s.fnOf a.fn).inReset = false ∧
   (s.cqOf a.fn a.cq).stopped = false) := by
  decide +kernel

/-- States and operands that meet the hypotheses of `Obligations.SetsUnloadAndInstall`, clause by clause. -/
theorem witness_SetsUnloadAndInstall :
  (let s : State := withAcc host 7 aW
   let acc : Nat := 7
   let a : Machine.Acc := aW
   let d : Bytes := slice a.desc 8 48
   s.serves acc 5 a ∧
   (∀ e ∈ s.sets, e.1 ≠ d)) ∧
  (let s : State := su3
   let acc : Nat := 7
   let a : Machine.Acc := aW
   let d : Bytes := slice a.desc 8 48
   let e : Bytes × WeightSet := (dg, ws 1)
   s.serves acc 5 a ∧
   List.find? (fun (e : Bytes × WeightSet) => e.1 == d) s.sets = some e ∧
   s.setInUse d = true) ∧
  (let s : State := su 2
   let acc : Nat := 7
   let a : Machine.Acc := aW
   let d : Bytes := slice a.desc 8 48
   let e : Bytes × WeightSet := (dg, ws 2)
   s.serves acc 5 a ∧
   List.find? (fun (e : Bytes × WeightSet) => e.1 == d) s.sets = some e ∧
   s.setInUse d = false) ∧
  (let s : State := ai
   let d : AwDie := 0
   (s.awOf ↑d).state = 4 ∧
   phaseReady s (s.awOf ↑d) = true ∧
   risingFrom 0 s.aw = true ∧
   (s.awOf ↑d).phase = 5 ∧
   (∀ e : AwDie, e ≠ d → (s.awOf e).state = 3) ∧
   s.analogLoad = some lA) ∧
  (let s : State := awS 1
   (s.awOf 0).state = 4 ∧ phaseReady s (s.awOf 0) = true ∧ risingFrom 0 s.aw = true ∧ (s.awOf 0).phase ≤ 3) ∧
  (let s : State := awS 4
   let c : PaneCell := cellOut
   (s.awOf 0).state = 4 ∧ phaseReady s (s.awOf 0) = true ∧ risingFrom 0 s.aw = true ∧ (s.awOf 0).phase = 4 ∧
   c.pos.val < 64 ∧ inVerify (s.trimOf 0).verifyWindow c.cell.level64
     (wantLevel (s.awOf 0) c.group c.pos c.cell.row c.cell.col c.cell.neg) = false) ∧
  (let s : State := { awS 5 with aw := [(0, { up.awOf 0 with state := 4, phase := 5 })] }
   let d : AwDie := 0
   (s.awOf 0).state = 4 ∧ phaseReady s (s.awOf 0) = true ∧ risingFrom 0 s.aw = true ∧ (s.awOf 0).phase = 5 ∧
   ∃ e : AwDie, e ≠ d ∧ (s.awOf e).state ≠ 3) := by
  unfold State.serves
  decide +kernel

end Loader

namespace Tenancy

def aO : Acc := acc1 0 [(0, 2, 0x20), (8, 16, leNat (List.replicate 16 3)), (0x28, 4, 0)]
def aC : Acc := acc1 0 [(0, 2, 0x21), (8, 4, 1)]
def aCB : Acc := { aC with begun := true }
def o1 : Machine.State := withAcc host 7 aO
def o2 : Machine.State := { withAcc host 7 aO with tenancy := up.tenancy }
def c1 : Machine.State := { withAcc host 7 aC with slots := [], steps := [{ req with acc := 9 }], grid := { up.grid with memberEn := true } }
def c2 : Machine.State := { withAcc host 7 aCB with tenancy := { host.tenancy with phase := 3, closing := some (7, true) }, mv := [(3, { scratch := [(1, 1)] })], stack := [(0, { used := [1] })], links := [(0, { buf := [(3, 3)] })] }
def c3 : Machine.State := { c2 with tenancy := { c2.tenancy with scrubbed := true } }
def t1 : Machine.State := { up with fuses := { up.fuses with claims := 4 } }
def sp (ph : Nat) : Machine.State := { up with spdm := { up.spdm with phase := ph } }
def rq (n : Nat) (fs : List (Nat × Nat × Nat)) : Bytes := (desc fs).take n
def gc : Machine.State := { sp 3 with spdm := { (sp 3).spdm with getChunk := some (4, 0, List.replicate 500 1) } }

/-- States and operands that meet the hypotheses of `Obligations.TenanciesAndOwnership`, clause by clause (its part on this). -/
theorem witness_TenanciesOpenAndClose :
  (let s : State := o1
   let acc : Nat := 7
   let a : Machine.Acc := aO
   s.serves acc 32 a ∧
   s.tenancy.phase ≠ 0) ∧
  (let s : State := o2
   let acc : Nat := 7
   let a : Machine.Acc := aO
   let k : Bytes := [1]
   let g : Bytes := []
   s.serves acc 32 a ∧
   s.tenancy.phase = 0 ∧
   openRefusal s k g (a.bits 40 4 12 0) = 0 ∧
   risingFrom 0 s.domains = true) ∧
  (let s : State := c1
   let acc : Nat := 7
   let a : Machine.Acc := aC
   s.serves acc 33 a ∧
   risingFrom 0 s.intake.acc = true ∧
   s.loads = [] ∧
   s.slots = []) ∧
  (let s : State := c2
   let acc : Nat := 7
   let zero : Bool := true
   s.tenancy.closing = some (acc, zero) ∧
   s.run = none ∧
   s.tenancy.scrubbed = false ∧
   (∀ e ∈ s.intake.acc, e.1 = acc ∨ ∃ l ∈ s.loads, l.acc = e.1)) ∧
  (let s : State := c3
   let acc : Nat := 7
   let zero : Bool := true
   let a : Machine.Acc := aCB
   s.tenancy.closing = some (acc, zero) ∧
   s.tenancy.scrubbed = true ∧
   tfind s.intake.acc acc = some a ∧
   a.mute = false ∧
   (s.fnOf a.fn).inReset = false ∧
   (s.cqOf a.fn a.cq).stopped = false) := by
  unfold State.serves
  decide +kernel

/-- States and operands that meet the hypotheses of `Obligations.TenanciesAndOwnership`, clause by clause (its part on this). -/
theorem witness_TablesAndOwnership :
  (let s : State := t1
   (s.tenancy.phase ≠ 0 ∨ 4 ≤ s.fuses.claims)) := by
  decide +kernel

/-- States and operands that meet the hypotheses of `Obligations.SpdmAnswers`, clause by clause. -/
theorem witness_SpdmAnswers :
  (let s : State := sp 0
   let req : Bytes := rq 4 [(0, 1, 16), (1, 1, 132)]
   s.spdmUp = true ∧
   fieldAt req 1 1 = 132 ∧
   fieldAt req 0 1 = 16 ∧
   4 ≤ List.length req) ∧
  (let s : State := sp 1
   let req : Bytes := rq 20 [(0, 1, 19), (1, 1, 225)]
   s.spdmUp = true ∧
   fieldAt req 1 1 = 225 ∧
   spdmForm req 20 = true ∧
   s.spdm.phase = 1) ∧
  (let s : State := sp 2
   let req : Bytes := rq 32 [(0, 1, 19), (1, 1, 227), (4, 2, 32), (8, 4, 128), (12, 4, 2)]
   s.spdmUp = true ∧
   fieldAt req 1 1 = 227 ∧
   spdmForm req 32 = true ∧
   s.spdm.phase = 2 ∧
   bitNat (fieldAt req 8 4) 7 = true ∧
   bitNat (fieldAt req 12 4) 1 = true) ∧
  (let s : State := sp 3
   let req : Bytes := rq 4 [(0, 1, 19), (1, 1, 129)]
   s.spdmUp = true ∧
   s.spdm.phase = 3 ∧
   fieldAt req 1 1 = 129 ∧
   spdmForm req 4 = true) ∧
  (let s : State := sp 3
   let req : Bytes := rq 44 [(0, 1, 19), (1, 1, 131), (3, 1, 255)]
   s.spdmUp = true ∧
   s.spdm.phase = 3 ∧
   fieldAt req 1 1 = 131 ∧
   spdmForm req 44 = true ∧
   bitsAt req 2 1 3 0 = 0 ∧
   fieldAt req 3 1 = 255) ∧
  (let s : State := sp 3
   let req : Bytes := rq 45 [(0, 1, 19), (1, 1, 224), (2, 1, 1), (3, 1, 255)]
   s.spdmUp = true ∧
   s.spdm.phase = 3 ∧
   fieldAt req 1 1 = 224 ∧
   fieldAt req 2 1 = 1 ∧
   spdmForm req 45 = true ∧
   fieldAt req 3 1 = 255 ∧
   bitsAt req 36 1 3 0 = 0) ∧
  (let s : State := sp 3
   let req : Bytes := rq 40 [(0, 1, 19), (1, 1, 133), (3, 1, 7), (8, 4, 4)]
   s.spdmUp = true ∧
   fieldAt req 1 1 = 133 ∧
   bitNat (fieldAt req 2 1) 0 = false ∧
   fieldAt req 4 2 = 0) ∧
  (let s : State := gc
   let req : Bytes := rq 8 [(0, 1, 19), (1, 1, 134), (3, 1, 4)]
   let n : Nat := 0
   let b : Bytes := List.replicate 500 1
   s.spdmUp = true ∧
   fieldAt req 1 1 = 134 ∧
   fieldAt req 4 2 = n ∧
   s.spdm.getChunk = some (fieldAt req 3 1, n, b)) := by
  decide +kernel

end Tenancy

namespace Observation

def r0 (c : Nat) : Rec := { code := 5, cls := c, cgroup := 0 }
def r4 : Rec := { code := 0x0103, cls := 4, cgroup := 0 }
def ev : EvRing := { base := 0x1000, sizeLog2 := 4, enable := true, tail := 15, head := 3, vector := 2 }
def e1 : Machine.State := { up with paths := [(0, { ctrl := 6, queue := [(3, r0 1), (4, r0 2)] })], evring := ev }
def e2 : Machine.State := { up with ns := 500000, evring := { ev with pendingIrq := 3 }, fns := [(0, { msix := [(2, { masked := false })] })] }
def e4 : Machine.State := { up with paths := [(1, { ctrl := 5, queue := [(3, r0 1)] })] }
def e5 : Machine.State := { up with paths := [(1, { ctrl := 5, summary := true, dropped := [1,2,3,4,5], siteMask := 6 })] }
def al : Machine.State := { up with latch := [(0, { code := 1, loc := 0, stamp := 0, rank := 0, count := 1, cgroup := 0 }), (33, { code := 1, loc := 0, stamp := 0, rank := 0, count := 1, cgroup := 0 })] }
def g1 : Machine.State := { base with stop := { base.stop with state := 1, beat := 0, causes := 8 } }
def g2 : Machine.State := { base with stop := { base.stop with state := 2, since := 6000, causes := 8 }, mv := [(3, { quiet := 9 })] }
def g3 : Machine.State := { g2 with stop := { g2.stop with ending := true } }
def st2 : Machine.State := { up with stop := { up.stop with state := 2 } }
def tr2 : Machine.State := { up with trace := { up.trace with ctrl := 0x5, elastic := [⟨1, 2, 0, 3, 5⟩], fill := 9 } }
def rpS : Machine.State := { host with replay := { host.replay with ctrl := 2 }, tenancy := { host.tenancy with phase := 2 } }
def dd : Bytes := desc [(0, 1, 0x30)]
def xx : ReplayRec := ⟨[1], none, [], [.ok [2]], [], none, none⟩
def alH : Machine.State := { al with fresh := { ns := al.ns, alarms := [r4] } }
def g1e : Machine.State := { g1 with stop := { g1.stop with ending := true } }
def g3r : Machine.State := { g3 with run := some { run with stopped := true } }
def vfB (s : Machine.State) : Machine.State := { s with boot := { s.boot with set := some { defaultTables with vfCounts := [4, 0, 0, 0] } }, fns := [(0, { vfEnable := true, numVfs := 4 }), (4, { openStreams := 3 })] }
def fr : Machine.State := { vfB host with intake := { host.intake with acc := [(7, acc1 4 [(0, 2, 1)]), (8, acc1 5 [(0, 2, 1)])], next := 9 }, steps := [{ req with fn := 4 }], run := some { run with req := { req with fn := 4 } } }
def fr3 : Machine.State := { vfB host with ns := 70000, fns := [(0, { vfEnable := true, numVfs := 4 }), (4, { openStreams := 3, inReset := true, flrAt := 5 })] }

/-- States and operands that meet the hypotheses of `Obligations.EventsAndLatch`, clause by clause (its part on this). -/
theorem witness_EventPathsDrain :
  (let s : State := e1
   let e : EvRing := s.evring
   let n : Nat := 3
   let r : Rec := r0 1
   let es : List (Nat × Rec) := [(4, r0 2)]
   risingFrom 0 s.paths = true ∧
   (s.pathOf 0).queue = (n, r) :: es ∧
   e.open_ = true ∧
   (s.fnOf 0).inReset = false) ∧
  (let s : State := e2
   let e : EvRing := s.evring
   risingFrom 0 s.paths = true ∧
   0 < e.pendingIrq ∧
   e.firstIrqNs + 100000 ≤ s.ns ∧
   (s.fnOf 0).inReset = false ∧
   (s.fnOf 0).fnMask = false ∧
   (tget { } (s.fnOf 0).msix (e.vector % 8)).masked = false) ∧
  (let s : State := e1
   risingFrom 0 s.paths = true) ∧
  (let s : State := e4
   let n : Nat := 3
   let r : Rec := r0 1
   let es : List (Nat × Rec) := []
   risingFrom 0 s.paths = true ∧
   (s.pathOf 1).queue = (n, r) :: es) ∧
  (let s : State := e5
   let p : Machine.Path := s.pathOf 1
   risingFrom 0 s.paths = true ∧
   p.summary = true ∧
   BitVec.getLsbD p.ctrl 0 = true ∧
   (∀ (c : Nat), p.lastSummary = some c → c + 1000000 ≤ s.ns)) := by
  decide +kernel

/-- States and operands that meet the hypotheses of `Obligations.EventsAndLatch`, clause by clause (its part on this). -/
theorem witness_AlarmLatchClears :
  (let offset : Nat := 28
   let width : Nat := 32
   (width = 32 ∧ offset % 4 = 0 ∨ width = 64 ∧ offset % 8 = 0) ∧
   offset < 32) ∧
  (let s : State := al  -- nothing latched now
   let hit : Nat → Prop := fun (b : Nat) => 8 * 28 ≤ b ∧ b < 8 * 28 + 32 ∧ (1 : W64).getLsbD (b - 8 * 28) = true
   (∀ r ∈ s.freshNow.alarms, ¬ hit (latchBit r))) ∧
  (let s : State := alH  -- an alarm latched at the clear's own ns
   let r : Rec := r4
   let hit : Nat → Prop := fun (b : Nat) =>
     8 * (4 * (latchBit r4 / 32)) ≤ b ∧ b < 8 * (4 * (latchBit r4 / 32)) + 32
       ∧ (0xFFFFFFFF : W64).getLsbD (b - 8 * (4 * (latchBit r4 / 32))) = true
   4 * (latchBit r4 / 32) < 32 ∧
   r ∈ s.freshNow.alarms ∧
   hit (latchBit r)) ∧
  (let offset : Nat := 32
   let width : Nat := 32
   (¬((width = 32 ∧ offset % 4 = 0 ∨ width = 64 ∧ offset % 8 = 0) ∧ offset < 32))) := by
  decide +kernel

/-- States and operands that meet the hypotheses of `Obligations.StopsScansAndReplay`, clause by clause (its part on this). -/
theorem witness_GlobalStopRuns :
  (let s : State := g1
   s.stopFormed = true ∧
   s.stop.ending = false) ∧
  (let s : State := g1e
   s.stopFormed = true ∧
   s.stop.ending = true) ∧
  (let s : State := g2
   s.stop.state = 2 ∧
   s.stop.ending = false) := by
  decide +kernel

/-- States and operands that meet the hypotheses of `Obligations.CadencePausesInStop`, clause by clause. -/
theorem witness_CadencePausesInStop :
  (let s : State := g2
   let c : Instr := Instr.frameStart
   s.stop.state = 2 ∧
   c ∈ [Instr.frameStart, Instr.windowStart, Instr.windowEnd, Instr.windowIdleEnd]) ∧
  (let s : State := g2
   s.stop.state = 2 ∧
   s.stop.ending = false) ∧
  (let s : State := g3r
   let r : Run := { run with stopped := true }
   s.stop.state = 2 ∧
   s.stop.ending = true ∧
   s.run = some r ∧
   s.stepOver r = true) := by
  decide +kernel

/-- States and operands that meet the hypotheses of `Obligations.StopsScansAndReplay`, clause by clause (its part on this). -/
theorem witness_ScansAndPortReads :
  (let s : State := st2
   let l : W64 := BitVec.ofNat 64 (3 * 2 ^ 61)
   s.stop.state = 2 ∧
   scanNamed (BitVec.toNat l) = true) ∧
  (let s : State := st2
   let l : W64 := BitVec.ofNat 64 (3 * 2 ^ 61)
   s.stop.state = 2 ∧
   scanNamed (BitVec.toNat l) = true) ∧
  (let s : State := tr2
   s.trace.mode = 2 ∧
   s.trace.elastic ≠ []) := by
  decide +kernel

/-- States and operands that meet the hypotheses of `Obligations.StopsScansAndReplay`, clause by clause (its part on this). -/
theorem witness_ReplayAccepts :
  (let s : State := rpS
   let f : Fn := 0
   let d : Bytes := dd
   s.replaying = true ∧
   (s.fnOf ↑f).inReset = false ∧
   s.stop.state ≠ 2 ∧
   formDetail d = 0 ∧
   admitDetail s (↑f) d = 0 ∧
   fieldAt d 0 1 = 48) := by
  decide +kernel

/-- States and operands that meet the hypotheses of `Obligations.FunctionResets`, clause by clause. -/
theorem witness_FunctionResets :
  (let s : State := fr
   let f : Fn := 4
   let r : Run := { run with req := { req with fn := 4 } }
   4 ≤ ↑f ∧
   s.fnEnabled ↑f = true ∧
   (s.fnOf ↑f).inReset = false ∧
   s.run = some r ∧
   r.req.fn = f.val ∧
   risingFrom 0 s.queue = true) ∧
  (let s : State := { fr with run := some run }
   let f : Fn := 4
   let r : Run := run
   4 ≤ ↑f ∧
   s.fnEnabled ↑f = true ∧
   (s.fnOf ↑f).inReset = false ∧
   s.run = some r ∧
   r.req.fn ≠ f.val) ∧
  (let s : State := { fr with run := none }
   let f : Fn := 4
   4 ≤ ↑f ∧
   s.fnEnabled ↑f = true ∧
   (s.fnOf ↑f).inReset = false ∧
   s.run = none) ∧
  (let s : State := fr3
   let f : Fn := 4
   4 ≤ ↑f ∧
   s.fnEnabled ↑f = true ∧
   (s.fnOf ↑f).inReset = true ∧
   (s.fnOf ↑f).flrAt + 50000 ≤ s.ns ∧
   risingFrom 0 s.fns = true) := by
  decide +kernel

/-- States and operands that meet the hypotheses of `Obligations.FunctionResetKeeps`, clause by clause. -/
theorem witness_FunctionResetKeeps :
  (let s : State := fr
   risingFrom 0 s.fns = true) ∧
  (let s : State := fr
   risingFrom 0 s.fns = true) := by
  decide +kernel

end Observation

namespace Power

def hostDown : Machine.State := { host with power := { host.power with down := true, aonFell := true } }
def pw (f : Power → Power) : Machine.State := { up with ns := 9000000, power := f up.power }
def rail1 : Machine.State := pw fun p => { p with groupEn := 3, groupGood := 1, awEn := 3, awGood := 1 }
def rail2 : Machine.State := pw fun p => { p with stage := 3, groupEn := 1, groupGood := 1, railAt := [(1, 5)] }
def refLost : Machine.State := pw fun p => { p with refMissing := some 5 }
def falling : Machine.State := pw fun p => { p with lowering := [2, 3] }
def dieOff : Machine.State := { (pw fun p => { p with awGood := 7 }) with aw := [(0, { up.awOf 0 with state := 0 })] }
def dieCal : Machine.State := { up with aw := [(0, { up.awOf 0 with state := 2 })] }
def bt (n : Nat) (f : Power → Power) : Machine.State := { State.reset with power := f { State.reset.power with stage := n } }
def heat1 : Machine.State := pw fun p => { p with refMissing := some 8999000, limitSince := some 5 }
def heat2 : Machine.State := { heat1 with ns := 90000000 }
def hold1 : Machine.State := { lk with chron := { lk.chron with mode := 1, state := 1 } }

/-- States and operands that meet the hypotheses of `Obligations.ResetsClearAndKeep`, clause by clause. -/
theorem witness_ResetsClearAndKeep :
  (let s : State := host
   let n : Nat := 1000
   s.power.down = false ∧
   1000 ≤ n) ∧
  (let s : State := host
   let v : W32 := BitVec.ofNat 32 (213 * 65536 + 2 ^ 24)
   s.power.down = false ∧
   fieldNat (BitVec.toNat v) 23 16 = 213 ∧
   BitVec.getLsbD v 24 = true) ∧
  (let s : State := host
   s.power.down = false) ∧
  (let s : State := host
   s.power.down = false) ∧
  (let n : Nat := 200
   n ≤ 200) ∧
  (let v : W32 := 0
   fieldNat (BitVec.toNat v) 23 16 ≠ 213) := by
  decide +kernel

/-- States and operands that meet the hypotheses of `Obligations.RailsAndPowerDown`, clause by clause (its part on this). -/
theorem witness_RailsSequence :
  (let s : State := rail1
   let p : Power := s.power
   let r : Rail := Rail.group 1
   s.power.down = false ∧
   p.enabled r = true ∧
   p.good r = false) ∧
  (let s : State := rail2
   let r : Rail := Rail.group 1
   s.power.down = false ∧
   s.enableDue r = true) ∧
  (let s : State := rail1
   let k : Fin 4 := 1
   let p : Power := s.power
   s.power.down = false ∧
   p.enabled (Rail.group k) = true ∧
   p.good (Rail.group k) = false ∧
   tget 0 p.railAt (↑k + 1) + 5000000 ≤ s.ns) ∧
  (let s : State := rail1
   let k : Fin 4 := 0
   let p : Power := s.power
   s.power.down = false ∧
   p.enabled (Rail.group k) = true ∧
   p.good (Rail.group k) = true) ∧
  (let s : State := rail1
   s.power.down = false) ∧
  (let s : State := rail1
   let d : AwDie := 0
   let j : Fin 3 := 0
   let p : Power := s.power
   s.power.down = false ∧
   p.enabled (Rail.aw d j) = true ∧
   p.good (Rail.aw d j) = true ∧
   (s.awOf ↑d).state ≠ 4 ∧
   risingFrom 0 s.aw = true) := by
  decide +kernel

/-- States and operands that meet the hypotheses of `Obligations.RailsAndPowerDown`, clause by clause (its part on this). -/
theorem witness_PowerFailsAndDies :
  (let s : State := refLost
   s.power.down = false) ∧
  (let s : State := refLost
   let c : Nat := 5
   s.power.down = false ∧
   s.power.refMissing = some c ∧
   c + 10000 ≤ s.ns) ∧
  (let s : State := falling
   let n : Nat := 2
   let ns : List Nat := [3]
   s.power.lowering = n :: ns ∧
   tget 0 s.power.railAt 0 + 500000 ≤ s.ns ∧
   n ≠ 0 ∧
   n ≠ 5) ∧
  (let s : State := dieOff
   let d : AwDie := 0
   risingFrom 0 s.aw = true ∧
   (s.awOf ↑d).state = 0 ∧
   s.awFitted = true ∧
   (∀ k < 3, bitNat s.power.awGood (3 * ↑d + k) = true)) ∧
  (let s : State := dieCal
   let d : AwDie := 0
   risingFrom 0 s.aw = true ∧
   (s.awOf ↑d).state = 2 ∧
   (s.awOf ↑d).toCalibrate = [] ∧
   (s.awOf ↑d).lasting = [] ∧
   (s.awOf ↑d).refresh = [] ∧
   (∀ e ∈ (s.awOf ↑d).tests, e.2.restore = false) ∧
   s.power.stage ≠ 5) ∧
  (let s : State := dieCal
   let d : AwDie := 0
   risingFrom 0 s.aw = true ∧
   (s.awOf ↑d).state ≠ 0 ∧
   (s.awOf ↑d).state ≠ 4 ∧
   s.usesAw ↑d = false) := by
  decide +kernel

/-- States and operands that meet the hypotheses of `Obligations.BootStagesRun`, clause by clause. -/
theorem witness_BootStagesRun :
  (let s : State := bt 0 id
   let p : Power := s.power
   s.power.down = false ∧
   p.stage = 0) ∧
  (let s : State := bt 1 id
   let p : Power := s.power
   s.power.down = false ∧
   p.stage = 1 ∧
   s.bootCopy = none) ∧
  (let s : State := bt 2 id
   let p : Power := s.power
   s.power.down = false ∧
   p.stage = 2) ∧
  (let s : State := bt 3 fun (p : Power) =>
       { p with groupGood := 15, awGood := 4095 }
   let p : Power := s.power
   s.power.down = false ∧
   p.stage = 3 ∧
   s.railsDone = true) ∧
  (let s : State := bt 0 id
   let p : Power := s.power
   let i : Fin 6 := 0
   s.power.down = false ∧
   ↑i ≤ 3 ∧
   p.stage = ↑i) ∧
  (let s : State := bt 4 id
   let p : Power := s.power
   s.power.down = false ∧
   p.stage = 4 ∧
   p.coreDone = false ∧
   p.stacksDone = false) ∧
  (let s : State := bt 4 fun (p : Power) =>
       { p with coreDone := true }
   let p : Power := s.power
   s.power.down = false ∧
   p.stage = 4 ∧
   p.coreDone = true ∧
   p.stacksDone = false ∧
   risingFrom 0 s.ports = true ∧
   s.awFitted = true) ∧
  (let s : State := { (bt 4 fun (p : Power) => { p with coreDone := true }) with fuses := { State.reset.fuses with grade := 3, engineMask := 0 } }
   let p : Power := s.power
   s.power.down = false ∧
   p.stage = 4 ∧
   p.coreDone = true ∧
   p.stacksDone = false ∧
   risingFrom 0 s.ports = true ∧
   s.awFitted = false) ∧
  (let s : State := bt 4 id
   let p : Power := s.power
   let i : Fin 6 := 4
   s.power.down = false ∧
   4 ≤ i.val ∧
   p.stage = 4 ∧
   (i.val = 4 → p.coreDone = false) ∧
   (i.val = 5 → p.stacksDone = false)) ∧
  (let s : State := up
   let link : Fin 4 := 0
   let f : Fn := 0
   s.power.down = false ∧
   s.hostUp = true ∧
   s.fnEnabled f = true ∧
   s.linkOfFn f = link.val ∧
   s.linkOfFn 1 ≠ link.val ∧
   (∀ r, s.run = some r → s.linkOfFn r.req.fn ≠ link.val)) := by
  decide +kernel

/-- A state that boots from copy A, whatever its signatures are, once they verify (`Obligations.BootStagesRun`, stage 1). -/
theorem witness_BootCopy (h : ∀ a k d g, Config.verify a k d g = true) :
    (let s : State := { bt 1 id with boot := { State.reset.boot with copyA := some defaultTables } }
     s.power.down = false ∧
     s.power.stage = 1 ∧
     s.bootCopy = some (0, defaultTables) ∧
     risingFrom 0 s.ports = true) := by
  have hr : rangesOk defaultTables = true := by decide +kernel
  have hk : ∀ s : State, s.fuses = State.reset.fuses → s.boot.copyA = some defaultTables →
      s.bootCopy = some (0, defaultTables) := by
    intro s hs hc
    have ho : setOk s defaultTables = true := by
      simp only [setOk, hr, h, hs, Bool.true_and]
      decide +kernel
    simp [State.bootCopy, hc, Option.filter, ho]
  exact ⟨rfl, rfl, hk _ rfl rfl, rfl⟩

/-- States and operands that meet the hypotheses of `Obligations.HeatAndReference`, clause by clause. -/
theorem witness_HeatAndReference :
  (let s : State := { heat1 with power := { heat1.power with temps := [(0, 30)] } }
   (∀ e ∈ s.power.temps, e.2 ≤ (s.heat e.1).1)) ∧
  (let s : State := heat1
   let x : Temps := [(0, 30)]
   (∀ e ∈ x, e.2 < (s.heat ↑e.1).2.2) ∧
   (∀ e ∈ x, (s.heat ↑e.1).1 < (s.heat ↑e.1).2.1) ∧
   (∀ e ∈ x, e.2 ≤ (s.heat ↑e.1).1)) ∧
  (let s : State := heat1
   let x : Temps := [(0, 108)]
   (∀ e ∈ x, e.2 < (s.heat ↑e.1).2.2) ∧
   (∀ e ∈ x, (s.heat ↑e.1).1 < (s.heat ↑e.1).2.1) ∧
   (∃ e ∈ x, (s.heat ↑e.1).2.1 ≤ e.2)) ∧
  (let s : State := heat1
   let x : Temps := [(0, 1000)]
   let e : Fin 15 × Int := (0, 1000)
   s.power.down = false ∧
   e ∈ x ∧
   (s.heat ↑e.1).2.2 ≤ e.2) ∧
  (let s : State := heat2
   let c : Nat := 5
   s.power.limitRaised = false ∧
   s.power.limitSince = some c ∧
   c + 10000000 ≤ s.ns) ∧
  (let s : State := up
   s.power.refMissing = none) ∧
  (let s : State := heat1
   let c : Nat := 8999000
   s.power.refMissing = some c ∧
   s.ns ≤ c + 10000) := by
  decide +kernel

/-- States and operands that meet the hypotheses of `Obligations.ChronometerRegisters`, clause by clause. -/
theorem witness_ChronometerRegisters :
  (let offset : Nat := 2
   let width : Nat := 32
   (¬(offset = 0 ∧ width = 64)) ∧
   (¬(offset = 0 ∧ width = 32)) ∧
   (¬(offset = 4 ∧ width = 32))) ∧
  (let s : State := hold1
   let n : Nat := 51
   50 < n ∧
   s.chron.state = 1 ∧
   s.chron.discipline ≠ 0) := by
  decide +kernel

end Power

namespace Registers

def tc (n : Nat) (f : Live → Live) : Machine.State := { up with tables := [(n, f { active := [(3, 9)], shadow := [(3, 8), (5, 2)] })] }
def tc8 : Machine.State := { (tc 8 id) with fabric := { up.fabric with armed := some 3 } }
def wn (n : Nat) (lv : Bool) (f : Live → Live) : Machine.State := { up with winTable := n, winLive := lv, tables := [(n, f { active := [(3, 9)], shadow := [(3, 8), (5, 2)] })] }
def rd1 : Machine.State := { up with winTable := 0x25, drops := [(3, 9), (239, 2 ^ 33 + 1)] }

/-- States and operands that meet the hypotheses of `Obligations.CommitsMakeShadowActive`, clause by clause. -/
theorem witness_CommitsMakeShadowActive :
  (let s : State := tc 3 id
   let v : W64 := 0
   let n : Nat := fieldNat (BitVec.toNat v) 7 0
   let l : Live := s.tableOf n
   risingFrom 0 s.tables = true ∧
   (n = 0 ∨ 9 < n ∨ l.pending = true)) ∧
  (let s : State := tc 3 id
   let v : W64 := 9
   let n : Nat := fieldNat (BitVec.toNat v) 7 0
   let l : Live := s.tableOf n
   risingFrom 0 s.tables = true ∧
   1 ≤ n ∧
   n ≤ 9 ∧
   l.pending = false ∧
   n ≠ 6 ∧
   (n < 8 ∨ s.fabric.armed = none)) ∧
  (let s : State := tc8
   let v : W64 := 9
   let n : Nat := fieldNat (BitVec.toNat v) 7 0
   let l : Live := s.tableOf n
   risingFrom 0 s.tables = true ∧
   1 ≤ n ∧
   n ≤ 9 ∧
   l.pending = false ∧
   (n = 6 ∨ 8 ≤ n ∧ s.fabric.armed ≠ none)) ∧
  (let s : State := tc 3 fun (l : Live) =>
       { active := l.active, shadow := l.shadow, updating := l.updating, pending := true, passed := true, touched := l.touched }
   let b : Byte := 3
   risingFrom 0 s.tables = true ∧
   (s.tableOf (BitVec.toNat b)).pending = true ∧
   (s.tableOf (BitVec.toNat b)).passed = true ∧
   s.commits < 2 ^ 32 - 1) := by
  decide +kernel

/-- States and operands that meet the hypotheses of `Obligations.WindowWrites`, clause by clause. -/
theorem witness_WindowWrites :
  (let s : State := wn 3 false id
   let offset : Nat := 65528
   let n : Nat := s.winTable
   let l : Live := s.tableOf n
   let k : Nat := s.windowAt offset
   let w : Nat := 8
   let m : Nat := 8192
   let e : Nat := 8191
   offset < 1048576 ∧
   risingFrom 0 s.tables = true ∧
   liveShape n = some (w, m) ∧
   k = w * e ∧
   e < m ∧
   risingFrom 0 l.shadow = true ∧
   risingFrom 0 l.active = true ∧
   l.pending = false ∧
   s.winLive = false) ∧
  (let s : State := wn 3 true id
   let offset : Nat := 65528
   let n : Nat := s.winTable
   let l : Live := s.tableOf n
   let k : Nat := s.windowAt offset
   let w : Nat := 8
   let m : Nat := 8192
   let e : Nat := 8191
   offset < 1048576 ∧
   risingFrom 0 s.tables = true ∧
   liveShape n = some (w, m) ∧
   k = w * e ∧
   e < m ∧
   risingFrom 0 l.shadow = true ∧
   risingFrom 0 l.active = true ∧
   l.pending = false ∧
   s.winLive = true) ∧
  (let s : State := wn 3 false fun (l : Live) =>
       { active := l.active, shadow := l.shadow, updating := l.updating, pending := true, passed := l.passed, touched := l.touched }
   let offset : Nat := 65528
   let n : Nat := s.winTable
   let l : Live := s.tableOf n
   let k : Nat := s.windowAt offset
   let w : Nat := 8
   let m : Nat := 8192
   let e : Nat := 8191
   offset < 1048576 ∧
   risingFrom 0 s.tables = true ∧
   liveShape n = some (w, m) ∧
   k = w * e ∧
   e < m ∧
   s.winLive = false ∧
   l.pending = true) ∧
  (let s : State := wn 3 false id
   let offset : Nat := 65528
   let n : Nat := s.winTable
   let k : Nat := s.windowAt offset
   let w : Nat := 8
   let m : Nat := 8192
   let e : Nat := 8191
   let width : Nat := 32
   offset < 1048576 ∧
   risingFrom 0 s.tables = true ∧
   liveShape n = some (w, m) ∧
   k = w * e ∧
   e < m ∧
   s.winLive = false ∧
   width ≠ 8 * w) ∧
  (let s : State := wn 37 false id
   let offset : Nat := 12
   let n : Nat := s.winTable
   let k : Nat := s.windowAt offset
   offset < 1048576 ∧
   risingFrom 0 s.tables = true ∧
   liveShape n = none ∧
   n ≠ 38 ∧
   k < s.tableSize n) ∧
  (let s : State := wn 9 true fun (l : Live) =>
       { active := l.active, shadow := l.shadow, updating := [(3, [5, 6])], pending := l.pending, passed := l.passed, touched := l.touched }
   let offset : Nat := 12
   let b : Byte := 9
   let e : Nat := 3
   let olds : List W64 := [5, 6]
   offset < 1048576 ∧
   risingFrom 0 s.tables = true ∧
   tfind (s.tableOf (BitVec.toNat b)).updating e = some olds ∧
   risingFrom 0 (s.tableOf (BitVec.toNat b)).updating = true) := by
  decide +kernel

/-- States and operands that meet the hypotheses of `Obligations.ReadsWithEffects`, clause by clause. -/
theorem witness_ReadsWithEffects :
  (let s : State := rd1
   let i : Nat := 239
   let offset : Nat := 956
   i < 240 ∧
   offset < 1048576 ∧
   s.winTable = 37 ∧
   s.windowAt offset = 4 * i ∧
   risingFrom 0 s.drops = true) ∧
  (let s : State := rd1
   let f : Fn := 0
   s.fnEnabled ↑f = true ∧
   risingFrom 0 s.fns = true) ∧
  (let s : State := rd1
   let f : Fn := 0
   s.fnEnabled ↑f = true) ∧
  (let v : W64 := 1
   BitVec.getLsbD v 0 = true) := by
  decide +kernel

/-- States and operands that meet the hypotheses of `Obligations.RegisterAccesses`, clause by clause. -/
theorem witness_RegisterAccesses :
  (let f : Fn := 1
   ↑f ≠ 0) ∧
  (let s : State := up
   let offset : Nat := 4161
   let width : Nat := 32
   (s.fnOf 0).inReset = false ∧
   offset < 1048576 ∧
   (width ≠ 32 ∧ width ≠ 64 ∨ offset % (width / 8) ≠ 0)) ∧
  (let s : State := up
   (s.fnOf 0).inReset = false) ∧
  (let s : State := up
   (s.fnOf 0).inReset = false) ∧
  (let s : State := up
   (s.fnOf 0).inReset = false) ∧
  (let s : State := up
   (s.fnOf 0).inReset = false) ∧
  (let s : State := up
   (s.fnOf 0).inReset = false) ∧
  (let s : State := { up with boot := { up.boot with set := some defaultTables } }
   let offset : Nat := 4160
   offset ≠ 5152 ∧
   s.regLoaded (offset / 8 * 8) = true) ∧
  (let s : State := State.reset
   let offset : Nat := 0
   offset ≠ 5152 ∧
   s.regLoaded (offset / 8 * 8) = false) ∧
  (let offset : Nat := 4161
   offset ≠ 12800 ∧
   offset / 8 ≠ 12296 / 8 ∧
   offset < 1048576) ∧
  (let s : State := up
   let v : W64 := 1
   BitVec.getLsbD v 0 = true ∧
   BitVec.getLsbD v 1 = false ∧
   s.stop.state = 0) := by
  refine ⟨?_, ?_, ?_, ?_, ?_, ?_, ?_, ?_, ?_, ?_, ?_⟩
  · decide +kernel
  · decide +kernel
  · decide +kernel
  · decide +kernel
  · decide +kernel
  · decide +kernel
  · decide +kernel
  · decide +kernel
  · decide +kernel
  · decide +kernel
  · decide +kernel

end Registers

/-! ### Witnesses of the statements about every command and every op word -/

namespace CommandsAndWords

/-- A legal state whose step answers next (`Obligations.StepKeepsLegal`). -/
theorem witness_StepKeepsLegal : State.reset.Legal ∧ ∃ t, step State.reset = .next t :=
  ⟨⟨by decide, by decide, by decide, by decide, by decide, by decide, by decide, by decide, by decide, by decide, by decide,
    by decide, by decide, by decide⟩, ⟨_, rfl⟩⟩

/-- Commands with a word that meet the clauses of `Obligations.OpWordsRoundTrip`, at the bounds of their ranges. -/
theorem witness_OpWordsRoundTrip :
    (encodeOp (.agStride 10 2 5 0x100)).isSome = true ∧ (encodeOp (.nestOpen 10 5 1 1)).isSome = true ∧
      (encodeOp (.zero 1 0 3 1 7)).isSome = true := by decide +kernel

/-- A word that decodes (`Obligations.DecodedWordsAreEncodings`), at the engine with the most operands. -/
theorem witness_DecodedWordsAreEncodings :
    (decodeOp 10 (splitWord 0x10400000_0028D810_00000005_40000001)).isSome = true := by decide +kernel

end CommandsAndWords

/-! ### The check of operands refuses -/

namespace IllFormed

theorem test_wf_width : (Instr.memberStatusRead 24).wf = false ∧ (Instr.memberStatusRead 64).wf = true := by decide

theorem test_wf_offsets :
    (Instr.timeSet 8 32 0).wf = false ∧ (Instr.registerWrite 0 true 0x200000 32 0).wf = false ∧
      (Instr.registerWrite 0 false 0x10000 32 0).wf = false ∧ (Instr.apertureWrite 0x100000 32 0).wf = false ∧
      (Instr.alarmLatchClear 32 32 0).wf = false ∧ (Instr.dropCounterRead 960 32).wf = false ∧
      (Instr.funcStatusRead 0 8 32).wf = false := by decide

theorem test_wf_lengths :
    (Instr.packetReceive 0 (zeros 15) []).wf = false ∧ (Instr.packetReceive 0 (zeros 20) []).wf = false ∧
      (Instr.packetReceive 0 (zeros 32) []).wf = true ∧ (Instr.descriptorFetch (.ok (zeros 129))).wf = false ∧
      (Instr.extest []).wf = false ∧ (Instr.samplePreload (List.replicate 61 true)).wf = false ∧
      (Instr.samplePreload (List.replicate 62 true)).wf = true := by decide +kernel

theorem test_wf_shadow : (Instr.shadowRead 0 (.ok (zeros 4097))).wf = false := by decide +kernel

theorem test_wf_tables : (Instr.commitCopyDone 0).wf = false ∧ (Instr.commitCopyDone 10).wf = false ∧
    (Instr.replicaUpdateDone 10 0).wf = false ∧ (Instr.commitCopyDone 9).wf = true := by decide

end IllFormed

/-! ### Op words written out from the encodings (R84, R86 and the chapters' op tables)

Bits [127:124] ENG, [123:116] OP, [115:106] DELTA, [105:104] PMODE, [103:96] PSLOT, then OW2, OW1, OW0. -/

namespace Words

/-- No row of the table has bits. -/
theorem test_no_row_has_bits : decodeTableWord 128 5 = none := rfl

/-- AG_STRIDE (R89): OW1[1:0] 2, OW1[10:8] 3, OW0 0x100; DELTA 5 is no operand. -/
theorem test_word_ag_stride :
    decodeOp 10 (splitWord 0x00301400_00000000_00000302_00000100) = some (.agStride 10 2 3 0x100) := by decide +kernel

/-- STREAM (R181): A from generator 1, row 5; ROWS 16, BUF 1, START 1, AFMT 3, ANCHOR 5. -/
theorem test_word_stream : decodeOp 10 (splitWord 0x10400000_0028D810_00000005_40000001) =
    some (.stream 10 (.gen 1) (.row 5) 16 true true false 3 5) := by decide +kernel

/-- ADD, form 0b00 (R202, R203): D and A literal, B from generator 3; form 0b10 has nothing in OW2. -/
theorem test_word_add : decodeOp 9 (splitWord 0x20100000_40000003_00800100_00800000) =
      some (.add 9 (.straps (.lit 0x800000) (.lit 0x800100) (.gen 3))) ∧
    decodeOp 9 (splitWord 0x28100000_00000000_00800100_00800000) =
      some (.add 9 (.const (.lit 0x800000) (.lit 0x800100))) ∧
    decodeOp 9 (splitWord 0x28100000_00000001_00800100_00800000) = none := by decide +kernel

/-- VSET (R203): AFMT 1, BFMT 2, OFMT 3, ROUND 1, SAT 1, TSET 1; SEED 7; T 9. -/
theorem test_word_vset : decodeOp 9 (splitWord 0x2C100000_00000009_00000007_00068C41) =
    some (.vset 9 1 2 3 1 true 7 (some 9)) := by decide +kernel

/-- RETILE (R214): ROWS - 1 is 7, SROWS -1, DROWS 2. -/
theorem test_word_retile : decodeOp 8 (splitWord 0x30200000_002FFF07_00900000_00800000) =
    some (.retile 8 (.lit 0x800000) (.lit 0x900000) 7 0xFFF 2) := by decide +kernel

/-- BSET (R331): VOCAB - 1 is 0x1F3FF, LFMT 1. -/
theorem test_word_bset : decodeOp 19 (splitWord 0x40100000_00000000_00000000_0005F3FF) =
    some (.bset 19 0x1F3FF 1) := by decide +kernel

/-- The PSET and the MVM of the worked example of 08_analog_weight_compute.md. -/
theorem test_word_example_mvm :
    decodeOp 0 (splitWord 0x50100000_00001002_00000040_00011305) = some (.pset 0 70405 64 0 2 0 1 0 0) ∧
    decodeOp 0 (splitWord 0x50300000_40000000_16004000_16001000) =
      some (.mvm 0 (.lit 0x16001000) (.lit 0x16004000) 0 0 0 false 0 0 1) := by decide +kernel

/-- READ (R297): OFFSET 0x1234, REGION 3, ROWS - 1 is 255, QUEUE 5. -/
theorem test_word_read : decodeOp 1 (splitWord 0x60100000_00000000_A000FF03_00001234) =
    some (.read 1 0x1234 3 255 5) := by decide +kernel

/-- FSEND (R447): FLOW 5, ROWS - 1 is 1, QUEUE 15, flow-buffer address 0x4000. -/
theorem test_word_fsend : decodeOp 24 (splitWord 0x70100000_00004000_F0008005_00800000) =
    some (.fsend 24 (.lit 0x800000) 5 1 (.lit 0x4000) 15) := by decide +kernel

/-- HREAD (R353): BUF 2, ROWS - 1 is 3, QUEUE 1, OFFSET 9. -/
theorem test_word_hread : decodeOp 4 (splitWord 0x80100000_00000009_400000C2_00000000) =
    some (.hread 4 2 3 9 1) := by decide +kernel

/-- Undefined words (R85, R86): ENG 0xA, an OP without a row, a reserved bit set, an address of KIND 0b10. -/
theorem test_words_refused :
    decodeOp 1 (splitWord 0xA0100000_00000000_00000000_00000000) = none ∧
    decodeOp 1 (splitWord 0x60A00000_00000000_00000000_00000000) = none ∧
    decodeOp 1 (splitWord 0x60100000_00000000_00100000_00000000) = none ∧
    decodeOp 4 (splitWord 0x80200000_00000000_00000000_80000000) = none := by decide +kernel

end Words

/-! ### Values the chapters work out -/

namespace Worked

/-- CRC-8 of a movement-map entry: the example of 20_setup_registers_and_live_tables.md has 0x5900_0056. -/
theorem test_map_entry_check : crc8 (leBytes 3 0x56) = 0x59 := by decide +kernel

/-- Stochastic rounding of 1 + 2^-9 to BF16: the example of 05_numbers_and_exact_arithmetic.md. -/
theorem test_stochastic_rounding :
    bf16.round (Val.fin false 513 (-9)).rv 2 false 0x2A3B_0000 = (0x3F81, flInexact) ∧
      bf16.round (Val.fin false 513 (-9)).rv 2 false 0x9C00_0000 = (0x3F80, flInexact) := by decide +kernel

/-- The terms, the partial sums and the result of the W128 example of 05_numbers_and_exact_arithmetic.md. -/
theorem test_wide_sum :
    w128Term (.fin false 1 24) 0 = (0x0000_0000_0100_0000_0000_0000_0000_0000, 0) ∧
    w128Term (.fin true 1 24) 0 = (0xFFFF_FFFF_FF00_0000_0000_0000_0000_0000, 0) ∧
    combine 0x0000_0000_0100_0001_0000_0000_0000_0000 0xFFFF_FFFF_FF00_0001_0000_0000_0000_0000 =
      (0x0000_0000_0000_0002_0000_0000_0000_0000, 0) ∧
    wOut 0x0000_0000_0000_0002_0000_0000_0000_0000 0 0 0 false 0 = (0x4000_0000, 0) ∧
    w128Term (.fin false 1 (-70)) 0 = (0, flTiny) := by decide +kernel

/-- The grid of the routing example of 15_fabric_routing_and_flows.md, at place address `a`. -/
def grid (a : W16) : Machine.State :=
  { up with
      fabric := { up.fabric with place := a }
      tables :=
        [(tblDim, { active := [(0, seal8 (0x000F + 16 * 2 ^ 16 + 2 ^ 32)), (1, seal8 (0x0070 + 8 * 2 ^ 16 + 2 ^ 32)),
            (2, seal8 (0x0780 + 16 * 2 ^ 16 + 2 ^ 32)), (3, seal8 (0xF800 + 32 * 2 ^ 16 + 2 ^ 32))] }),
         (tblPort, { active := (List.range 20).map fun p =>
            (p, seal4 (if p < 5 then 8 else if p < 10 then 12 else if p < 13 then 9 else if p < 16 then 13 else
              if p = 16 then 10 else if p = 17 then 14 else if p = 18 then 11 else 15)) })]
      ports := (List.range 20).map fun p => (p, act0) }

/-- Its first hop leaves on port 3 of D0; at slot 15 the hop crosses the date line; at slot 2 it goes on over port 16 of D2;
at rack 1 it is delivered. -/
theorem test_route_example :
    (grid 0x1CDC).route 0x18D2 0x1CDC = .port 3 0 false ∧ (grid 0x1CDF).route 0x18D2 0x1CDC = .port 3 0 true ∧
    (grid 0x1CD2).route 0x18D2 0x1CDC = .port 16 2 false ∧ (grid 0x18D2).route 0x18D2 0x1CDC = .deliver := by decide +kernel

/-- With nothing waiting a step is one nanosecond of reference time (log 2). -/
theorem test_idle_step : (match step State.reset with | .next t => t.ns | _ => 0) = State.reset.ns + 1 := by decide +kernel

/-- A command in front of the queue is taken off it. -/
theorem test_queue : (match step { State.reset with pending := [.stopRequest, .idcode] } with
    | .next t => t.pending | _ => []) = [.idcode] := by decide +kernel

/-- SEED_SET (R181) at the array of virtual movement 10. -/
theorem test_seed_set : (match exec (.seedSet 10 0x1234) base with
    | .next t => (t.matOf (t.phys 10)).seed | _ => 0) = 0x1234 := by decide +kernel

/-- IDLE moves the reference beat of the next op on by its count (R87, R89). -/
theorem test_idle_reference : (match exec (.idle 10 5) base with
    | .next t => (t.seqOf 10).ref | _ => 0) = ((base.mvOf (base.phys 10)).beats + 5) % 2 ^ 48 := by decide +kernel

/-- A stop asked for with no step running stands at beat 0, for its register cause 3 (R530, R532). -/
theorem test_stop : (match exec .stopRequest up with
    | .next t => (t.stop.state, t.stop.causes, t.stop.beat) | _ => (0, 0, 0)) = (1, 8, 0) := by decide +kernel

end Worked

end Sys2Proof.Tests
end

section
/-!
What every command keeps (`Keeps`), from what the operations keep: one lemma per command, then one case per command of `exec`.
-/

namespace Sys2Proof.Machine

/-- The fields that `Keeps` speaks of: the queue, the factory fuses, and the modes of `State.Legal`. -/
def keptFields (s : State) :=
  (s.pending, s.factory, s.stop.state, s.grid.state, s.grid.twinState, s.tenancy.kind, s.tenancy.phase, s.chron.mode,
    s.chron.state, s.power.stage, s.power.lastReset, s.power.thermal, s.power.effLimit, s.spdm.phase)

theorem Keeps.of_keptFields {r t u : State} (h : Keeps r t) (e : keptFields u = keptFields t) : Keeps r u := by
  simp only [keptFields, State.factory, Prod.mk.injEq] at e
  obtain ⟨pe, ⟨gr, st, em, ar, di⟩, stop, grid, twin, kind, phase, mode, state, stage, last, thermal, lim, spdm⟩ := e
  refine ⟨pe.trans h.pending, ?_, fun l => ?_⟩
  · rw [← h.factory, State.factory, State.factory, gr, st, em, ar, di]
  · have k := h.legal l
    exact ⟨stop ▸ k.stop, grid ▸ k.grid, twin ▸ k.twin, kind ▸ k.kind, phase ▸ k.phase, mode ▸ k.chronMode,
      state ▸ k.chronState, stage ▸ k.stage, last ▸ k.lastReset, thermal ▸ k.thermal, lim ▸ k.limLow, lim ▸ k.limHigh,
      spdm ▸ k.spdm, by rw [gr, em]; exact k.grade⟩

variable {r s : State}

/-! ### Op commands (R84) -/

/-- A command op that does nothing more than join its queue. -/
theorem issueQueued_keeps {v : VMove} {ty q : Nat} {ok : Bool} {accs : List Access} {op : Instr} {src : List (Nat × Nat)}
    {data : State → List Bytes} {rows : Nat} {pre : State → Option (Nat × Nat × Nat)} (h : Keeps r s) :
    KeepsRes r (issueCmd s v ty q ok accs op src data rows pre id) :=
  issueCmd_keeps (hp := fun _ => id) (h := h) ..

theorem execOp_keeps (i : Instr) (h : Keeps r s) : KeepsRes r (execOp i s) := by
  cases i <;> unfold execOp
  case nop => exact issueOp_keeps (he := fun _ _ => id) (h := h) ..
  case idle => exact issueOp_keeps (he := fun _ _ => idleEff_keeps _ _ _ _) (h := h) ..
  case agBase => exact issueOp_keeps (he := fun _ _ => agBaseEff_keeps _ _ _ _ _) (h := h) ..
  case agStride => exact issueOp_keeps (he := fun _ _ => agStrideEff_keeps _ _ _ _ _ _) (h := h) ..
  case nestOpen => exact issueOp_keeps (he := fun _ _ => nestOpenEff_keeps _ _ _ _ _) (h := h) ..
  case wait => exact issueOp_keeps (he := fun _ _ => waitEff_keeps _ _ _ _ _ _) (h := h) ..
  case take => exact issueOp_keeps (he := fun _ _ => takeEff_keeps _ _ _ _ _ _ _) (h := h) ..
  case stepEnd => exact issueOp_keeps (he := fun _ _ => stepEndEff_keeps _ _ _) (h := h) ..
  case tileLoad => exact issueEngine_keeps (he := fun _ _ => tileLoadEff_keeps _ _ _ _ _ _ _ _) (h := h) ..
  case ascaleSet | seedSet => exact issueEngine_keeps (he := fun _ _ => State.setMat_keeps _ _ _) (h := h) ..
  case tileScales | stream | drain | drainWide | accLoad | tload | rstore | transpose | retile | convert | select =>
    exact issueEngine_keeps (he := fun _ _ => addFlight_keeps _ _ _) (h := h) ..
  case add | sub | mul | mad | min | max | cmpeq | cmpne | cmplt | cmple | sel | and | or | xor | shl | shr =>
    exact issueForm_keeps _ _ _ _ h
  case affine | exps => exact issueForm2_keeps _ _ _ _ h
  case iota => exact issuePass_keeps _ _ _ _ _ _ h
  case vectorCopy | abs | neg | exp2 | log2 | rcp | sqrt | rsqrt | tanh | sigmoid | gelu | silu =>
    exact issueUnary_keeps _ _ _ _ _ h
  case vset => exact issueEngine_keeps (he := fun _ _ => vsetEff_keeps _ _ _ _ _ _ _ _ _ _) (h := h) ..
  case vtap => exact issueEngine_keeps (he := fun _ _ => vtapEff_keeps _ _ _ _ _ _ _ _) (h := h) ..
  case rsum | rsumsq | rdot | rmax | rmin | rargmax => exact issueReduce_keeps (h := h) ..
  case raddw => exact issueEngine_keeps (he := fun _ _ => raddwEff_keeps _ _ _ _ _) (h := h) ..
  case kset => exact issueEngine_keeps (he := fun _ _ => ksetEff_keeps _ _ _ _ _ _) (h := h) ..
  case bset => exact issueEngine_keeps (he := fun _ _ => bsetEff_keeps _ _ _ _ _) (h := h) ..
  case pset | prel | read | zero | copy | pageRead | hread => exact issueQueued_keeps h
  case write | gather | scatter | embed | pageAppend | hwrite | frecv =>
    dsimp only [execWrite, execGather, execScatter, execEmbed, execPageAppend, execHwrite, execFrecv]
    exact issueQueued_keeps h
  case mvm =>
    unfold execMvm
    exact issueCmd_keeps (hp := fun _ => mvmIssued_keeps _ _ _ _) (h := h) ..
  case fsend =>
    unfold execFsend
    exact issueCmd_keeps (hp := fun _ => replaySend_keeps _ _ _ _) (h := h) ..
  all_goals exact .next h


/-! ### Beats and steps -/

theorem execOp_after_keeps (i : Instr) (h : Keeps r s) : Keeps r (after (execOp i s) s) :=
  after_keeps _ _ (execOp_keeps i h) h

theorem issueWord_keeps (v : VMove) (w : W128) (h : Keeps r s) : Keeps r (issueWord s v w) := by
  unfold issueWord
  extract_lets q base s1 o s2
  have h1 : Keeps r s1 := State.setSeq_keeps _ _ _ h
  have h2 : Keeps r s2 := by
    subst s2
    split
    · exact execOp_after_keeps _ h1
    · exact after_keeps _ _ (issueOp_keeps (he := fun _ _ => id) (h := h1) ..) h1
  exact State.setSeq_keeps _ _ _ h2

theorem issueDue_keeps (n : Nat) (v : VMove) (b : Nat) (h : Keeps r s) : Keeps r (issueDue n s v b) := by
  induction n generalizing s with
  | zero => exact h
  | succ n ih =>
    unfold issueDue
    refine .ite (fun _ => h) (fun _ => ?_)
    split
    · exact h
    · refine .ite (fun _ => ih (passClose_keeps _ _ h)) (fun _ => ?_)
      split
      · exact h
      · exact .ite (fun _ => ih (issueWord_keeps _ _ (endFetchSlip_keeps _ _ h))) (fun _ => State.setSeq_keeps _ _ _ h)

theorem runBeat_keeps (n : Nat) (v : VMove) (b : Nat) (h : Keeps r s) : Keeps r (runBeat s n v b) := by
  unfold runBeat
  have h1 : Keeps r (issueDue issueFuel s v b) := issueDue_keeps _ _ _ h
  dsimp only
  split
  · exact holdPeriod_keeps _ _ _ _ h1
  · exact .ite (fun _ => waitPeriod_keeps _ _ (addSlip_keeps _ _ _ h1)) (fun _ => closeBeat_keeps _ _ _ _ h1)

theorem stepPeriod_keeps (n : Nat) (v : VMove) (h : Keeps r s) : Keeps r (stepPeriod s n v) := by
  unfold stepPeriod
  extract_lets b s1 empty
  have h1 : Keeps r s1 := by
    subst s1
    split
    · exact .ite (fun _ => releaseHold_keeps _ _ _ h) (fun _ => h)
    · exact h
  split
  · exact holdPeriod_keeps _ _ _ _ h1
  · have h2 : Keeps r (openBeat s1 v) := openBeat_keeps _ _ h1
    exact .ite (fun _ => .ite (fun _ => closeBeat_keeps _ _ _ _ h2) (fun _ => runBeat_keeps _ _ _ h2))
      (fun _ => .ite (fun _ => tagFault_keeps _ _ h1) (fun _ => stallPeriod_keeps _ _ h1))

theorem periodEff_keeps (n : Nat) (us : List Upset) (h : Keeps r s) : Keeps r (periodEff n us s) := by
  unfold periodEff
  extract_lets s1 _ s2 v t0 t1
  have h1 : Keeps r s1 := .ite (fun _ => .foldl (fun _ _ => upset_keeps _ _ _) _ h) (fun _ => h)
  have h2 : Keeps r s2 := State.setMv_keeps _ _ _ h1
  have ht : Keeps r t1 := by
    subst t1
    split
    · exact h2
    · have h3 : Keeps r (stepPeriod s2 n v) := stepPeriod_keeps _ _ h2
      exact .ite (fun _ => h2) (fun _ => .ite (fun _ => stallPeriod_keeps _ _ h2)
        (fun _ => .ite (fun _ => stepPassed_keeps _ h3) (fun _ => h3)))
  exact .ite (fun _ => traceDrain_keeps _ ht) (fun _ => ht)

theorem execSupplyDroop_keeps (n : Mv) (replica : Nat) (h : Keeps r s) : KeepsRes r (execSupplyDroop n replica s) := by
  have h1 := State.setMv_keeps s n { s.mvOf n with rate := s.withMargin replica } h
  exact .next (.ite (fun _ => raise_keeps (h := h1) ..) (fun _ => h1))

theorem execStepLaunch_keeps (h : Keeps r s) : KeepsRes r (execStepLaunch s) := by
  unfold execStepLaunch
  split
  · exact act_keeps _ (fun _ => tryLaunch_keeps _ _ _ h) h
  · exact .next h

theorem execChainedLaunch_keeps (h : Keeps r s) : KeepsRes r (execChainedLaunch s) := by
  unfold execChainedLaunch
  split
  · exact act_keeps _ (fun _ => tryChained_keeps _ _ _ h) h
  · exact .next h

theorem execStepArm_keeps (h : Keeps r s) : KeepsRes r (execStepArm s) := by
  unfold execStepArm
  split
  · exact act_keeps _ (fun _ => stepArmEff_keeps _ _ _ h) h
  · exact .next h

theorem execStepComplete_keeps (h : Keeps r s) : KeepsRes r (execStepComplete s) := by
  unfold execStepComplete
  split
  · exact act_keeps _ (fun _ => completeEff_keeps _ _ h) h
  · exact .next h

theorem execWaitRelease_keeps (v : VMove) (h : Keeps r s) : KeepsRes r (execWaitRelease v s) := by
  unfold execWaitRelease
  split
  · exact act_keeps _ (fun _ => releaseHold_keeps _ _ _ h) h
  · exact .next h

theorem execWaitLimit_keeps (v : VMove) (h : Keeps r s) : KeepsRes r (execWaitLimit v s) := by
  unfold execWaitLimit
  split
  · exact act_keeps _ (fun _ => breach_keeps _ _ h) h
  · exact .next h

/-! ### Analogue weight dies -/

theorem execAccBackgroundScrub_keeps (n : Mv) (row : Fin 1024) (col : Fin 256) (h : Keeps r s) :
    KeepsRes r (execAccBackgroundScrub n row col s) :=
  .next (.foldl (fun _ _ h => raise_keeps (h := h) ..) _
    (.foldl (fun _ _ h => raise_keeps (h := h) ..) _ (State.setMat_keeps _ _ _ h)))

theorem execPsetAdmit_keeps (d : AwDie) (h : Keeps r s) : KeepsRes r (execPsetAdmit d s) := by
  unfold execPsetAdmit
  dsimp only
  split
  · exact act_keeps _ (fun _ => State.setAw_keeps _ _ _ (setCmd_keeps _ _ _ _ h)) h
  · exact .next h

theorem execPanesReady_keeps (d : AwDie) (set : Fin 16) (h : Keeps r s) : KeepsRes r (execPanesReady d set s) := by
  unfold execPanesReady
  dsimp only
  split
  · split
    · exact act_keeps _ (fun _ => finishCmd_keeps _ _ _ _ _ (State.setAw_keeps _ _ _ h)) h
    · exact .next h
  · exact .next h

theorem execMvmRetire_keeps (d : AwDie) (queue : Fin 4) (h : Keeps r s) : KeepsRes r (execMvmRetire d queue s) := by
  unfold execMvmRetire
  dsimp only
  split
  · exact .next (finishCmd_keeps _ _ _ _ _ (State.setAw_keeps _ _ _ h))
  · exact .next h

theorem execPrelRelease_keeps (d : AwDie) (queue : Fin 4) (h : Keeps r s) : KeepsRes r (execPrelRelease d queue s) := by
  unfold execPrelRelease
  dsimp only
  split
  · exact act_keeps _ (fun _ => .foldl (fun _ _ => wornStep_keeps _ _ _) _
      (finishCmd_keeps _ _ _ _ _ (State.setAw_keeps _ _ _ h))) h
  · exact .next h

theorem execGroupRefresh_keeps (d : AwDie) (g : Fin 2048) (pos : Fin 68) (fails : Bool) (h : Keeps r s) :
    KeepsRes r (execGroupRefresh d g pos fails s) := by
  unfold execGroupRefresh
  dsimp only
  split
  · exact act_keeps _ (fun _ => refreshEff_keeps _ _ _ _ _ h) h
  · exact .next h

theorem execSelftestStart_keeps (d : AwDie) (g : Fin 2048) (pos : Fin 68) (cells : List CellRead) (h : Keeps r s) :
    KeepsRes r (execSelftestStart d g pos cells s) := by
  unfold execSelftestStart
  dsimp only
  split
  · exact act_keeps _ (fun _ => State.setAw_keeps _ _ _ h) h
  · exact .next h

theorem execSelftestSettle_keeps (d : AwDie) (g : Fin 2048) (pos : Fin 68) (cells : List CellRead) (h : Keeps r s) :
    KeepsRes r (execSelftestSettle d g pos cells s) := by
  unfold execSelftestSettle
  dsimp only
  split
  · exact act_keeps _ (fun _ => State.setAw_keeps _ _ _ h) h
  · exact .next h

theorem execSelftestDone_keeps (d : AwDie) (g : Fin 2048) (pos : Fin 68) (mismatch reprogramOk : Bool) (h : Keeps r s) :
    KeepsRes r (execSelftestDone d g pos mismatch reprogramOk s) := by
  unfold execSelftestDone
  split
  · exact act_keeps _ (fun _ => selftestDoneEff_keeps _ _ _ _ _ _ _ h) h
  · exact .next h

theorem execPaneMapSwitch_keeps (d : AwDie) (g : Fin 2048) (pos : Fin 68) (out : SpareOutcome) (h : Keeps r s) :
    KeepsRes r (execPaneMapSwitch d g pos out s) := by
  unfold execPaneMapSwitch
  dsimp only
  split
  · exact act_keeps _ (fun _ => paneMapSwitchEff_keeps _ _ _ _ _ _ _ h) h
  · exact .next h

theorem execPulseVerify_keeps (d : AwDie) (g : Fin 2048) (pos : Fin 68) (row : Fin 512) (cells : List CellRead)
    (h : Keeps r s) : KeepsRes r (execPulseVerify d g pos row cells s) := by
  unfold execPulseVerify
  dsimp only
  split <;> exact act_keeps _ (fun _ => pulseEff_keeps _ _ _ _ _ _ h) h

/-! ### Stacks, streams and the host -/

theorem cancelQueues_keeps (v : Nat) (qs : List Nat) (h : Keeps r s) :
    Keeps r (qs.foldl (fun s q => cancelQ s (qKey v q)) s) :=
  .foldl (fun _ _ => cancelQ_keeps _ _) _ h

theorem execStackCmdRetire_keeps (v : VMove) (queue : Fin 8) (us : List UnitUpset) (h : Keeps r s) :
    KeepsRes r (execStackCmdRetire v queue s us) := by
  unfold execStackCmdRetire
  split
  · exact act_keeps _ (fun _ => stackRetire_keeps _ _ _ _ _ (upsetUnits_keeps _ _ h)) h
  · exact .next h

theorem execStreamOpen_keeps (acc : Nat) (params : HostData) (h : Keeps r s) : KeepsRes r (execStreamOpen acc params s) :=
  serveStreams_keeps (h := h) (hf := fun t a ht => by
    split
    · exact streamOpenEff_keeps _ _ _ _ ht
    · exact hostFail_keeps _ _ _ ht) ..

theorem execStreamSet_keeps (acc : Nat) (params : HostData) (h : Keeps r s) : KeepsRes r (execStreamSet acc params s) :=
  serveStreams_keeps (h := h) (hf := fun t a ht => by
    split
    · exact streamSetEff_keeps _ _ _ _ ht
    · exact hostFail_keeps _ _ _ ht) ..

theorem execPrefixProbe_keeps (acc : Nat) (tokens : HostData) (h : Keeps r s) :
    KeepsRes r (execPrefixProbe acc tokens s) :=
  serveStreams_keeps (h := h) (hf := fun t a ht => by
    split
    · exact prefixProbeEff_keeps _ _ _ _ ht
    · exact hostFail_keeps _ _ _ ht) ..

theorem execPrefixPublish_keeps (acc : Nat) (tokens : HostData) (h : Keeps r s) :
    KeepsRes r (execPrefixPublish acc tokens s) :=
  serveStreams_keeps (h := h) (hf := fun t a ht => by
    split
    · exact prefixPublishEff_keeps _ _ _ _ ht
    · exact hostFail_keeps _ _ _ ht) ..

theorem execStreamWriteback_keeps (h : Keeps r s) : KeepsRes r (execStreamWriteback s) := by
  unfold execStreamWriteback
  split
  · exact act_keeps _ (fun _ => State.onRun_keeps _ _ (.foldl (fun _ _ => backSlot_keeps _ _) _ h)) h
  · exact .next h

theorem execGrammarLoad_keeps (acc : Nat) (image : HostData) (h : Keeps r s) : KeepsRes r (execGrammarLoad acc image s) :=
  serve_keeps (h := h) (hf := fun a => .next (by
    split
    · exact .ite (fun _ => grammarLoadEff_keeps _ _ _ _ h) (fun _ => refuse_keeps _ _ _ h)
    · exact hostFail_keeps _ _ _ h)) ..

theorem execShadowRead_keeps (f : Fn) (page : HostData) (h : Keeps r s) : KeepsRes r (execShadowRead f page s) := by
  refine act_keeps _ (fun _ => ?_) h
  extract_lets _ s1
  have h1 : Keeps r s1 := .of_keptFields h rfl
  split
  · exact takePage_keeps _ _ _ h1
  · exact State.noteSet_keeps _ _ (State.setFn_keeps _ _ _ h1)

theorem execSqContextWrite_keeps (f : Fn) (q : Fin 16) (word : Bool) (offset width : Nat) (value : W64) (h : Keeps r s) :
    KeepsRes r (execSqContextWrite f q word offset width value s) := by
  refine .next (.ite (fun _ => h) (fun _ => .ite (fun _ => ?_) (fun _ => ?_))) <;> split
  · exact sqWrite_keeps _ _ _ _ h
  · exact h
  · exact .ite (fun _ => h) (fun _ => State.setSq_keeps _ _ _ _ h)
  · exact h

theorem execCqContextWrite_keeps (f : Fn) (q : Fin 16) (word : Bool) (offset width : Nat) (value : W64) (h : Keeps r s) :
    KeepsRes r (execCqContextWrite f q word offset width value s) := by
  refine .next (.ite (fun _ => h) (fun _ => .ite (fun _ => ?_) (fun _ => ?_))) <;> split
  · exact cqWrite_keeps _ _ _ _ h
  · exact h
  · exact .ite (fun _ => h) (fun _ => State.setCq_keeps _ _ _ _ h)
  · exact h

theorem execSqTailDoorbell_keeps (f : Fn) (q : Fin 16) (width : Nat) (value : W64) (h : Keeps r s) :
    KeepsRes r (execSqTailDoorbell f q width value s) :=
  .next (doorbell_keeps _ _ _ _ (fun _ => takeTail_keeps _ _ _ _) h)

theorem execCqHeadDoorbell_keeps (f : Fn) (q : Fin 16) (width : Nat) (value : W64) (h : Keeps r s) :
    KeepsRes r (execCqHeadDoorbell f q width value s) :=
  .next (doorbell_keeps _ _ _ _ (fun _ => takeHead_keeps _ _ _ _) h)

theorem execDescriptorFetch_keeps (data : HostData) (h : Keeps r s) : KeepsRes r (execDescriptorFetch data s) := by
  unfold execDescriptorFetch
  split
  · split
    · exact act_keeps _ (fun _ => descriptorFetchEff_keeps _ _ _ _ h) h
    · exact .next h
  · exact .next h

theorem execDescriptorAccept_keeps (h : Keeps r s) : KeepsRes r (execDescriptorAccept s) := by
  unfold execDescriptorAccept
  split
  · split
    · exact act_keeps _ (fun _ => descriptorAcceptEff_keeps _ _ _ _ h) h
    · exact .next h
  · exact .next h

theorem execStep_keeps (acc : Nat) (patches streams bufs : HostData) (h : Keeps r s) :
    KeepsRes r (execStep acc patches streams bufs s) := by
  refine serve_keeps (h := h) (hf := fun a => act_keeps _ (fun _ => ?_) h) ..
  split
  · exact stepEff_keeps _ _ _ _ _ _ h
  all_goals exact hostFail_keeps _ _ _ h

theorem execHostReadCompletion_keeps (queue : Fin 4) (data : List HostData) (h : Keeps r s) :
    KeepsRes r (execHostReadCompletion queue data s) := by
  unfold execHostReadCompletion
  dsimp only
  split
  · split
    · exact .next (hreadEff_keeps _ _ _ _ _ _ _ _ _ h)
    · exact .next h
  · exact .next h

theorem execHwriteRetire_keeps (queue : Fin 4) (h : Keeps r s) : KeepsRes r (execHwriteRetire queue s) := by
  unfold execHwriteRetire
  dsimp only
  split
  · split
    · exact .next (hwriteEff_keeps _ _ _ _ _ _ _ h)
    · exact .next h
  · exact .next h

theorem execIrqCoalesceTimeout_keeps (f : Fn) (q : Fin 16) (h : Keeps r s) :
    KeepsRes r (execIrqCoalesceTimeout f q s) :=
  act_keeps _ (fun _ => sendMsix_keeps _ _ _
    (.foldl (fun _ _ h => .ite (fun _ => State.setCq_keeps _ _ _ _ h) (fun _ => h)) _ h)) h

/-! ### Membership, grids and injections -/

theorem execFenceLimit_keeps (h : Keeps r s) : KeepsRes r (execFenceLimit s) := by
  unfold execFenceLimit
  split
  · exact act_keeps _ (fun _ => endGrid_keeps _ _ (floodAbort_keeps _ _ _ h)) h
  · exact act_keeps _ (fun _ => completeUnlaunched_keeps _ _ _ _ (floodAbort_keeps _ _ _ h)) h
  · exact .next h

theorem execAbort_keeps (p : Port) (u : CtrlUnit) (h : Keeps r s) : KeepsRes r (execAbort p u s) :=
  memberUnit_keeps (h := h) (hf := .ite (fun _ => h) (fun _ => abortEff_keeps _ _ _ (flood_keeps _ _ _
    (.of_keptFields h rfl)))) ..

theorem execDyingGasp_keeps (p : Port) (u : CtrlUnit) (h : Keeps r s) : KeepsRes r (execDyingGasp p u s) :=
  ctrlUnit_keeps (h := h) (hf := .ite (fun _ => gatherItem_keeps _ _ h) (fun _ => h)) ..

theorem execMemberItem_keeps (p : Port) (u : CtrlUnit) (h : Keeps r s) : KeepsRes r (execMemberItem p u s) :=
  memberUnit_keeps (h := h) (hf := .ite (fun _ => gatherItem_keeps _ _ h) (fun _ => .of_keptFields h rfl)) ..

theorem execSeal_keeps (p : Port) (u : CtrlUnit) (h : Keeps r s) : KeepsRes r (execSeal p u s) := by
  refine memberUnit_keeps (h := h) (hf := .ite (fun _ => h) (fun _ => ?_)) ..
  have h1 := flood_keeps
    { s with grid := { s.grid with seals := s.grid.seals ++ [(bitsOf u.w2 15 0, u.w1)] } } s.gridPorts (notice u)
    (.of_keptFields h rfl)
  exact .ite (fun _ => split_keeps _ h1) (fun _ => h1)

theorem execMemberLevel_keeps (p : Port) (u : CtrlUnit) (h : Keeps r s) : KeepsRes r (execMemberLevel p u s) :=
  memberUnit_keeps (h := h) (hf := .ite (fun _ => h) (fun _ => flood_keeps _ _ _ (.of_keptFields h rfl))) ..

/-- HALF_OUT leaves TWIN_STATE OUT, 2 (R465, R483). -/
theorem execHalfOut_keeps (p : Port) (u : CtrlUnit) (h : Keeps r s) : KeepsRes r (execHalfOut p u s) :=
  memberUnit_keeps (h := h) (hf := .ite (fun _ => h) (fun _ => flood_keeps _ _ _
    (.updLegal h rfl rfl rfl rfl rfl fun l => { l with twin := Nat.le_refl 2 }))) ..

theorem execTwinPacket_keeps (data : Bytes) (h : Keeps r s) : KeepsRes r (execTwinPacket data s) :=
  act_keeps _ (fun _ => twinMatch_keeps _ (.of_keptFields h rfl)) h

/-- A twin timeout leaves TWIN_STATE LONE, 1 (R465, R482). -/
theorem execTwinTimeout_keeps (h : Keeps r s) : KeepsRes r (execTwinTimeout s) :=
  act_keeps _ (fun _ => raise_keeps (h := .updLegal h rfl rfl rfl rfl rfl fun l => { l with twin := Nat.le_succ 1 }) ..) h

theorem execLinkDrop_keeps (h : Keeps r s) : KeepsRes r (execLinkDrop s) := by
  unfold execLinkDrop
  split
  · next p reh us _ =>
    extract_lets it grid s1 _ s2 _ s3
    have h2 : Keeps r s2 := State.setPort_keeps _ _ _ (portDown_keeps _ _ _ (takeInjection_keeps _ _ h))
    clear_value s2
    have h3 : Keeps r s3 := .of_keptFields h2 rfl
    exact .next (.ite (fun _ => gatherItem_keeps _ _ h3) (fun _ => h3))
  · exact .next h

theorem execLinkDropEnd_keeps (p : Port) (h : Keeps r s) : KeepsRes r (execLinkDropEnd p s) := by
  unfold execLinkDropEnd
  dsimp only
  split
  · exact act_keeps _ (fun _ => State.setPort_keeps _ _ _ h) h
  · exact .next h

theorem execPoison_keeps (h : Keeps r s) : KeepsRes r (execPoison s) := by
  unfold execPoison
  split
  · exact .next (.of_keptFields (takeInjection_keeps s 2 h) rfl)
  · exact .next h

theorem execVacancy_keeps (h : Keeps r s) : KeepsRes r (execVacancy s) := by
  unfold execVacancy
  split
  · exact .next (gatherItem_keeps _ _ (.of_keptFields (takeInjection_keeps s 3 h) rfl))
  · exact .next h

theorem execAudit_keeps (h : Keeps r s) : KeepsRes r (execAudit s) := by
  unfold execAudit
  split
  · next reh x _ =>
    extract_lets s1 d l a k det s2 a'
    have h1 : Keeps r s1 := takeInjection_keeps _ _ h
    have h2 : Keeps r s2 := raise_keeps (h := h1) ..
    clear_value s2
    exact .next (.of_keptFields (State.setAw_keeps s2 d a' h2) rfl)
  · exact .next h

/-! ### Links and the fabric -/

theorem execFrecvRetire_keeps (die : Fin 2) (queue : Fin 16) (h : Keeps r s) : KeepsRes r (execFrecvRetire die queue s) := by
  unfold execFrecvRetire
  split
  · dsimp only
    split
    · exact act_keeps _ (fun _ => frecvRetireEff_keeps _ _ _ _ _ _ _ _ h) h
    · exact .next h
  · exact .next h

theorem execCollectCombine_keeps (die : Fin 2) (flow : BitVec 14) (tseq : W16) (hop : Nat) (h : Keeps r s) :
    KeepsRes r (execCollectCombine die flow tseq hop s) := by
  unfold execCollectCombine
  dsimp only
  split
  · exact act_keeps _ (fun _ => collectEff_keeps _ _ _ _ _ _ h) h
  · exact .next h

theorem execE2eAck_keeps (src : W16) (u : E2EUnit) (h : Keeps r s) : KeepsRes r (execE2eAck src u s) := by
  refine .ite ?_ (.next h)
  split
  · exact .next (settleSent_keeps _ _ _ (State.setLink_keeps _ _ _ h))
  · exact .next h

theorem execE2eReq_keeps (src : W16) (u : E2EUnit) (h : Keeps r s) : KeepsRes r (execE2eReq src u s) := by
  refine .ite ?_ (.next h)
  split
  · exact act_keeps _ (fun _ => resend_keeps _ _ _ _ h) h
  · exact act_keeps _ (fun _ => sendAck_keeps _ _ _ _ _ _ _ h) h

theorem execE2eTimeout_keeps (die : Fin 2) (flow : BitVec 14) (tseq : W16) (h : Keeps r s) :
    KeepsRes r (execE2eTimeout die flow tseq s) := by
  unfold execE2eTimeout
  split
  · exact .next (resend_keeps _ _ _ _ h)
  · exact .next h

theorem execMgmtRequest_keeps (src tag : W16) (data : Bytes) (h : Keeps r s) :
    KeepsRes r (execMgmtRequest src tag data s) := by
  unfold execMgmtRequest
  dsimp only
  split
  · exact .next (answerMgmt_keeps _ _ _ _ h)
  · exact .next (answerMgmt_keeps _ _ _ _ (State.bump_keeps _ (.of_keptFields h rfl)))

theorem execNakRepeat_keeps (p : Port) (h : Keeps r s) : KeepsRes r (execNakRepeat p s) := by
  unfold execNakRepeat
  split
  · exact act_keeps _ (fun _ => sendNak_keeps _ _ h) h
  · exact .next h

theorem execAck_keeps (p : Port) (u : CtrlUnit) (h : Keeps r s) : KeepsRes r (execAck p u s) := by
  refine ctrlUnit_keeps (h := h) (hf := .ite (fun _ => h) (fun _ => ?_)) ..
  split
  · exact State.setPort_keeps _ _ _ h
  · exact violate_keeps _ _ h

theorem execNak_keeps (p : Port) (u : CtrlUnit) (h : Keeps r s) : KeepsRes r (execNak p u s) := by
  refine ctrlUnit_keeps (h := h) (hf := .ite (fun _ => h) (fun _ => ?_)) ..
  split
  · exact countNak_keeps _ _ (countPort_keeps _ _ _ (State.setPort_keeps _ _ _ h))
  · exact violate_keeps _ _ h

theorem execSlotTransmit_keeps (p : Port) (h : Keeps r s) : KeepsRes r (execSlotTransmit p s) :=
  .next (.ite (fun _ => slotActive_keeps _ _ h) (fun _ => .ite (fun _ => slotParam_keeps _ _ h) (fun _ => h)))

theorem execPacketReceive_keeps (p : Port) (data : Bytes) (fec : List (Fin 8 × Nat × Nat)) (h : Keeps r s) :
    KeepsRes r (execPacketReceive p data s fec) :=
  act_keeps _ (fun _ => receivePacket_keeps _ _ _ (.foldl (fun _ _ => noteFec_keeps _ _ _) _ h)) h

theorem execCredit_keeps (p : Port) (u : CtrlUnit) (h : Keeps r s) : KeepsRes r (execCredit p u s) :=
  ctrlUnit_keeps (h := h) (hf := .ite (fun _ => State.setPort_keeps _ _ _ h) (fun _ => h)) ..

theorem execLinkCreditStarved_keeps (p : Port) (pair : Fin 8) (h : Keeps r s) :
    KeepsRes r (execLinkCreditStarved p pair s) := by
  unfold execLinkCreditStarved
  split
  · exact act_keeps _ (fun _ => requestRetrain_keeps _ _ _ (State.setPort_keeps _ _ _ (raise_keeps (h := h) ..))) h
  · exact .next h

theorem execHeartbeatSend_keeps (p : Port) (h : Keeps r s) : KeepsRes r (execHeartbeatSend p s) := by
  refine act_keeps _ (fun _ => ?_) h
  have sent (x : PortSt) (m : CtrlMsg) : Keeps r (queueCtrl (s.setPort p x) p m) :=
    queueCtrl_keeps _ _ _ (State.setPort_keeps _ _ _ h)
  exact .ite (fun _ => queueCtrl_keeps _ _ _ (State.setPort_keeps _ _ _ (sent _ _))) (fun _ => sent _ _)

theorem execHeartbeat_keeps (p : Port) (u : CtrlUnit) (h : Keeps r s) : KeepsRes r (execHeartbeat p u s) :=
  ctrlUnit_keeps (h := h) (hf := .ite (fun _ => h) (fun _ => .ite
    (fun _ => requestRetrain_keeps _ _ _ (linkProtocol_keeps _ _ h)) (fun _ => State.setPort_keeps _ _ _ h))) ..

theorem execHeartbeatMiss_keeps (p : Port) (h : Keeps r s) : KeepsRes r (execHeartbeatMiss p s) := by
  refine act_keeps _ (fun _ => ?_) h
  have h1 := countPort_keeps s p (fun c => { c with misses := sat48 c.misses }) h
  exact .ite (fun _ => linkLost_keeps _ _ _ _ h1) (fun _ => State.setPort_keeps _ _ _ h1)

theorem execTimeReq_keeps (p : Port) (u : CtrlUnit) (h : Keeps r s) : KeepsRes r (execTimeReq p u s) :=
  ctrlUnit_keeps (h := h) (hf := .ite (fun _ => queueCtrl_keeps _ _ _ h) (fun _ => h)) ..

theorem execTimeRsp_keeps (p : Port) (u : CtrlUnit) (h : Keeps r s) : KeepsRes r (execTimeRsp p u s) := by
  refine ctrlUnit_keeps (h := h) (hf := .ite (fun _ => h) (fun _ => ?_)) ..
  dsimp only
  split
  · exact .ite (fun _ => discipline_keeps _ _ (.of_keptFields (State.setPort_keeps s p _ h) rfl))
      (fun _ => linkProtocol_keeps _ _ h)
  · exact linkProtocol_keeps _ _ h

/-- Without its source the chronometer is in HOLDOVER, STATE 1 (R63). -/
theorem execTimeSourceTimeout_keeps (h : Keeps r s) : KeepsRes r (execTimeSourceTimeout s) :=
  act_keeps _ (fun _ => .updLegal h rfl rfl rfl rfl rfl fun l => { l with chronState := Nat.le_succ 1 }) h

theorem execTrim_keeps (p : Port) (u : CtrlUnit) (h : Keeps r s) : KeepsRes r (execTrim p u s) := by
  refine laneUnit_keeps (h := h) (hf := .ite (fun _ => linkProtocol_keeps _ _ h) (fun _ => ?_)) ..
  split <;> exact .ite (fun _ => h) (fun _ => State.setPort_keeps _ _ _ h)

theorem execPropose_keeps (p : Port) (u : CtrlUnit) (h : Keeps r s) : KeepsRes r (execPropose p u s) :=
  laneUnit_keeps (h := h) (hf := State.setPort_keeps _ _ _ h) ..

theorem execSwitch_keeps (p : Port) (u : CtrlUnit) (h : Keeps r s) : KeepsRes r (execSwitch p u s) :=
  laneUnit_keeps (h := h) (hf := .ite (fun _ => takeMask_keeps _ _ _ _ h)
    (fun _ => .ite (fun _ => h) (fun _ => violate_keeps _ _ h))) ..

theorem execLaneLockLoss_keeps (p : Port) (lane : Fin 8) (h : Keeps r s) : KeepsRes r (execLaneLockLoss p lane s) :=
  act_keeps _ (fun _ => .ite (fun _ => State.setPort_keeps _ _ _ h)
    (fun _ => .ite (fun _ => requestRetrain_keeps _ _ _ h) (fun _ => sendTrim_keeps _ _ _ h))) h

theorem execLaneRestoreTimer_keeps (p : Port) (lane : Fin 8) (h : Keeps r s) :
    KeepsRes r (execLaneRestoreTimer p lane s) := by
  unfold execLaneRestoreTimer
  dsimp only
  split
  · exact act_keeps _ (fun _ => sendTrim_keeps _ _ _ h) h
  · exact .next h

theorem execRetrain_keeps (p : Port) (u : CtrlUnit) (h : Keeps r s) : KeepsRes r (execRetrain p u s) :=
  ctrlUnit_keeps (h := h) (hf := .ite (fun _ => .ite (fun _ => enterRetrain_keeps _ _ (State.setPort_keeps _ _ _ h))
    (fun _ => State.setPort_keeps _ _ _ h)) (fun _ => h)) ..

theorem execParam_keeps (p : Port) (u : CtrlUnit) (h : Keeps r s) : KeepsRes r (execParam p u s) :=
  ctrlUnit_keeps (h := h) (hf := .ite (fun _ => paramTry_keeps _ _ (State.setPort_keeps _ _ _ h)) (fun _ => h)) ..

/-! ### Observation -/

theorem execEvringCtrlWrite_keeps (offset width : Nat) (value : W64) (h : Keeps r s) :
    KeepsRes r (execEvringCtrlWrite offset width value s) := by
  unfold execEvringCtrlWrite
  split
  · exact .next (.of_keptFields h rfl)
  · exact .next h

theorem execMctpRecordPush_keeps (h : Keeps r s) : KeepsRes r (execMctpRecordPush s) := by
  unfold execMctpRecordPush
  split
  · exact .next (State.emit_keeps _ _ (State.setPath_keeps _ _ _ h))
  · exact .next h

/-! ### Loads, tenancies and the management path -/

theorem execPlanLoad_keeps (acc : Nat) (image : HostData) (h : Keeps r s) : KeepsRes r (execPlanLoad acc image s) := by
  refine serve_keeps (h := h) (hf := fun a => ?_) ..
  split
  · exact planLoadEff_keeps _ _ _ _ _ h
  · exact .next (hostFail_keeps _ _ _ h)

theorem execPlanLoadDone_keeps (slot : Fin 64) (h : Keeps r s) : KeepsRes r (execPlanLoadDone slot s) := by
  unfold execPlanLoadDone
  split
  · exact .next (planLoadDoneEff_keeps _ _ _ _ h)
  · exact .next h

theorem execPlanUnloadDone_keeps (slot : Fin 64) (h : Keeps r s) : KeepsRes r (execPlanUnloadDone slot s) := by
  unfold execPlanUnloadDone
  split
  · exact act_keeps _ (fun _ => planUnloadDoneEff_keeps _ _ _ _ h) h
  · exact .next h

theorem execWeightLoad_keeps (acc : Nat) (manifest authority : HostData) (h : Keeps r s) :
    KeepsRes r (execWeightLoad acc manifest authority s) := by
  refine serve_keeps (h := h) (hf := fun a => ?_) ..
  dsimp only
  split
  · exact .next (weightLoadEff_keeps _ _ _ _ _ h)
  all_goals exact .next (hostFail_keeps _ _ _ h)

theorem execManifestFragment_keeps (src : Option W16) (offset : Nat) (set : W64) (data : Bytes) (h : Keeps r s) :
    KeepsRes r (execManifestFragment src offset set data s) := by
  unfold execManifestFragment
  split
  · exact .ite (.next h) (.next (judgeManifest_keeps _ _ _ h))
  · exact .next (dropRelay_keeps _ h)

theorem execChunkFragment_keeps (src : Option W16) (index offset : Nat) (set : W64) (data : Bytes) (h : Keeps r s) :
    KeepsRes r (execChunkFragment src index offset set data s) := by
  unfold execChunkFragment
  split
  · exact .ite (.next h) (.ite (.next (tryChunk_keeps _ _ _ (putLoad_keeps _ _ h))) (.next (dropRelay_keeps _ h)))
  · exact .next (dropRelay_keeps _ h)

theorem execRelayRefused_keeps (src : W16) (set : W64) (detail : W16) (h : Keeps r s) :
    KeepsRes r (execRelayRefused src set detail s) := by
  unfold execRelayRefused
  split
  · exact .next (failLoad_keeps _ _ _ h)
  · split
    · exact .next (downRefused_keeps _ _ _ _ h)
    · exact .next (dropRelay_keeps _ h)

theorem execChunkRequest_keeps (src : W16) (set : W64) (index : Nat) (h : Keeps r s) :
    KeepsRes r (execChunkRequest src set index s) := by
  unfold execChunkRequest
  split
  · exact .ite (.next h) (.ite (.next (sendObject_keeps _ _ _ _ _ _ h)) (.next (putLoad_keeps _ _ h)))
  · exact .next (dropRelay_keeps _ h)

theorem execDomainKeyDestroyed_keeps (dom : BitVec 13) (h : Keeps r s) : KeepsRes r (execDomainKeyDestroyed dom s) := by
  refine act_keeps _ (fun _ => wakeLoads_keeps _ ?_) h
  split
  · exact complete_keeps _ _ _ _ _ (State.setDom_keeps _ _ _ h)
  · exact State.setDom_keeps _ _ _ h

theorem execTenancyOpen_keeps (acc : Nat) (keys groups : HostData) (h : Keeps r s) :
    KeepsRes r (execTenancyOpen acc keys groups s) := by
  refine serve_keeps (h := h) (hf := fun a => .ite (.next (refuse_keeps _ _ _ h)) ?_) ..
  split
  · exact .ite (.next (refuse_keeps _ _ _ h)) (.next (tenancyOpenEff_keeps _ _ _ _ _ h))
  all_goals exact .next (hostFail_keeps _ _ _ h)

theorem execTenancyScrub_keeps (h : Keeps r s) : KeepsRes r (execTenancyScrub s) := by
  unfold execTenancyScrub
  split
  · exact act_keeps _ (fun _ => scrubEff_keeps _ _ h) h
  · exact .next h

theorem execTenancyCloseDone_keeps (h : Keeps r s) : KeepsRes r (execTenancyCloseDone s) := by
  unfold execTenancyCloseDone
  split
  · exact act_keeps _ (fun _ => closeDoneEff_keeps _ _ h) h
  · exact .next h

theorem execOwnershipClaim_keeps (digest sig : Bytes) (t : TableSet) (h : Keeps r s) :
    KeepsRes r (execOwnershipClaim digest sig t s) :=
  act_keeps _ (fun _ => deviceReset_keeps _ _ (by decide)
    (.upd (writeCopy_keeps t s h) rfl rfl rfl rfl rfl rfl rfl rfl rfl rfl rfl rfl rfl rfl rfl rfl rfl)) h

/-! ### Power, clocks and registers -/

theorem execResetN_keeps (lowNs : Nat) (h : Keeps r s) : KeepsRes r (execResetN lowNs s) :=
  have hb := State.bump_keeps s h
  .next (.ite (fun _ => deviceReset_keeps _ _ (by decide) h) (fun _ => .ite (fun _ => h)
    (fun _ => .ite (fun _ => deviceReset_keeps _ _ (by decide) hb) (fun _ => hb))))

theorem execRefClkReturn_keeps (h : Keeps r s) : KeepsRes r (execRefClkReturn s) :=
  act_keeps _ (fun _ => State.bump_keeps _ (.of_keptFields h rfl)) h

theorem execCommitCopyDone_keeps (table : Byte) (h : Keeps r s) : KeepsRes r (execCommitCopyDone table s) :=
  act_keeps _ (fun _ => State.setTable_keeps _ _ _ (.of_keptFields h rfl)) h

theorem execDropCounterRead_keeps (offset width : Nat) (h : Keeps r s) : KeepsRes r (execDropCounterRead offset width s) :=
  act_keeps _ (fun _ => .ite (fun _ => dropReadEff_keeps _ _ _ h) (fun _ => State.emit_keeps _ _ h)) h

theorem fnBlockWrite_keeps (f : Fn) (offset width : Nat) (value : W64) (h : Keeps r s) :
    KeepsRes r (fnBlockWrite f offset width value s) :=
  .ite (execSqTailDoorbell_keeps _ _ _ _ h)
    (.ite (.ite (execSqTailDoorbell_keeps _ _ _ _ h) (.next h))
      (.ite (.ite (execCqHeadDoorbell_keeps _ _ _ _ h) (.next h))
        (.ite (execSqContextWrite_keeps _ _ _ _ _ _ h)
          (.ite (execCqContextWrite_keeps _ _ _ _ _ _ h) (act_keeps _ (fun _ => fnWrite_keeps _ _ _ _ _ h) h)))))

theorem execRegisterWrite_keeps (f : Fn) (bar2 : Bool) (offset width : Nat) (value : W64) (h : Keeps r s) :
    KeepsRes r (execRegisterWrite f bar2 offset width value s) :=
  .ite (.ite (.next h) (.ite (.next (globalWrite_keeps _ _ _ _ h)) (.next (tableWrite_keeps _ _ _ _ _ h))))
    (fnBlockWrite_keeps _ _ _ _ h)

theorem execMctpRegisterAccess_keeps (write : Bool) (offset width : Nat) (value : W64) (h : Keeps r s) :
    KeepsRes r (execMctpRegisterAccess write offset width value s) :=
  .next (.ite (fun _ => mctpWrite_keeps _ _ _ _ h) (fun _ => mctpRead_keeps _ _ _ h))

/-! ### Every command -/

theorem exec_keeps (c : Instr) (h : Keeps r s) : KeepsRes r (exec c s) := by
  have op : KeepsRes r (execOp c s) := execOp_keeps c h
  cases c <;> unfold exec
  case nop | idle | agBase | agStride | nestOpen | wait | take | stepEnd | tileLoad | tileScales | ascaleSet | stream | drain
      | drainWide | accLoad | seedSet | add | sub | mul | mad | min | max | affine | cmpeq | cmpne | cmplt | cmple | sel | and | or
      | xor | shl | shr | exps | iota | vectorCopy | abs | neg | exp2 | log2 | rcp | sqrt | rsqrt | tanh | sigmoid | gelu | silu
      | vset | vtap | tload | rsum | rsumsq | rdot | rmax | rmin | rargmax | raddw | rstore | transpose | retile | convert | kset
      | pset | mvm | prel | read | write | gather | scatter | embed | zero | copy | pageAppend | pageRead | bset | select | hread
      | hwrite | fsend | frecv => exact op
  case planBeatIssue => exact .next (periodEff_keeps _ _ h)
  case timedLaunch => exact act_keeps _ (fun _ => periodEff_keeps _ _ h) h
  case supplyDroop => exact execSupplyDroop_keeps _ _ h
  case balanceStop => exact act_keeps _ (fun _ => deviceFault_keeps _ _ _ (raise_keeps (h := h) ..)) h
  case regulatorEstimate => exact .next (regulatorEff_keeps _ _ h)
  case waitRelease => exact execWaitRelease_keeps _ h
  case waitLimit => exact execWaitLimit_keeps _ h
  case fetchRequest => exact act_keeps _ (fun _ => fetchRequestEff_keeps _ _ h) h
  case fetchArrival => exact act_keeps _ (fun _ => fetchArrivalEff_keeps _ _ _ h) h
  case stepLaunch => exact execStepLaunch_keeps h
  case chainedLaunch => exact execChainedLaunch_keeps h
  case stepArm => exact execStepArm_keeps h
  case stepComplete => exact execStepComplete_keeps h
  case planLoad => exact execPlanLoad_keeps _ _ h
  case planLoadDone => exact execPlanLoadDone_keeps _ h
  case planUnload => exact serve_keeps (h := h) (hf := fun _ => .next (planUnloadEff_keeps _ _ _ h)) ..
  case planUnloadDone => exact execPlanUnloadDone_keeps _ h
  case weightLoad => exact execWeightLoad_keeps _ _ _ h
  case weightUnload => exact serve_keeps (h := h) (hf := fun _ => .next (weightUnloadEff_keeps _ _ _ h)) ..
  case manifestFragment => exact execManifestFragment_keeps _ _ _ _ h
  case chunkFragment => exact execChunkFragment_keeps _ _ _ _ _ h
  case relayRefused => exact execRelayRefused_keeps _ _ _ h
  case chunkRequest => exact execChunkRequest_keeps _ _ _ h
  case accBackgroundScrub => exact execAccBackgroundScrub_keeps _ _ _ h
  case psetAdmit => exact execPsetAdmit_keeps _ h
  case panesReady => exact execPanesReady_keeps _ _ h
  case passTick => exact act_keeps _ (fun _ => passTickEff_keeps _ _ _ _ _ h) h
  case mvmRetire => exact execMvmRetire_keeps _ _ h
  case prelRelease => exact execPrelRelease_keeps _ _ h
  case awLinkFatal | seLinkFatal => exact .next (deviceFault_keeps _ _ _ (raise_keeps (h := h) ..))
  case awStepCancel => exact act_keeps _ (fun _ => cancelQueues_keeps _ _ (releaseSets_keeps _ _ h)) h
  case maintenancePass => exact act_keeps _ (fun _ => maintenanceEff_keeps _ _ _ _ h) h
  case groupRefresh => exact execGroupRefresh_keeps _ _ _ _ h
  case selftestStart => exact execSelftestStart_keeps _ _ _ _ h
  case selftestSettle => exact execSelftestSettle_keeps _ _ _ _ h
  case selftestDone => exact execSelftestDone_keeps _ _ _ _ _ h
  case paneMapSwitch => exact execPaneMapSwitch_keeps _ _ _ _ h
  case shadowScrub => exact act_keeps _ (fun _ => scrubShadow_keeps _ _ _ _ _ (upsetShadow_keeps _ _ _ h)) h
  case pulseVerify => exact execPulseVerify_keeps _ _ _ _ _ h
  case installPhaseEnd => exact act_keeps _ (fun _ => phaseEndEff_keeps _ _ _ h) h
  case awPowerGood => exact act_keeps _ (fun _ => State.setAw_keeps _ _ _ h) h
  case awInitDone => exact act_keeps _ (fun _ => awInitEff_keeps _ _ _ _ _ h) h
  case awCalibrationDone => exact act_keeps _ (fun _ => awReadyEff_keeps _ _ h) h
  case awRailLost => exact act_keeps _ (fun _ => awRailFault_keeps _ _ (dropGoods_keeps _ _ h)) h
  case stackCmdRetire => exact execStackCmdRetire_keeps _ _ _ h
  case patrolScrub => exact .next (scrubUnit_keeps _ _ _ (upsetUnits_keeps _ _ h))
  case stackCancel => exact act_keeps _ (fun _ => .foldl (fun _ _ => cancelQueues_keeps _ _) _ h) h
  case domainRetire => exact serve_keeps (h := h) (hf := fun _ => .next (domainRetireEff_keeps _ _ _ h)) ..
  case domainKeyDestroyed => exact execDomainKeyDestroyed_keeps _ h
  case streamOpen => exact execStreamOpen_keeps _ _ h
  case streamSet => exact execStreamSet_keeps _ _ h
  case streamFork => exact serveStreams_keeps (h := h) (hf := fun _ _ => streamForkEff_keeps _ _ _) ..
  case streamClose => exact serveStreams_keeps (h := h) (hf := fun _ _ => streamCloseEff_keeps _ _ _) ..
  case streamWriteback => exact execStreamWriteback_keeps h
  case prefixProbe => exact execPrefixProbe_keeps _ _ h
  case prefixPublish => exact execPrefixPublish_keeps _ _ h
  case prefixEvict => exact serveStreams_keeps (h := h) (hf := fun _ _ => prefixEvictEff_keeps _ _ _) ..
  case prefixSweep => exact .next (sweepEntry_keeps _ _ h)
  case grammarLoad => exact execGrammarLoad_keeps _ _ h
  case grammarUnload => exact serve_keeps (h := h) (hf := fun _ => .next (grammarUnloadEff_keeps _ _ _ h)) ..
  case sqTailDoorbell => exact execSqTailDoorbell_keeps _ _ _ _ h
  case cqHeadDoorbell => exact execCqHeadDoorbell_keeps _ _ _ _ h
  case shadowRead => exact execShadowRead_keeps _ _ h
  case sqContextWrite => exact execSqContextWrite_keeps _ _ _ _ _ _ h
  case cqContextWrite => exact execCqContextWrite_keeps _ _ _ _ _ _ h
  case descriptorFetch => exact execDescriptorFetch_keeps _ h
  case descriptorAccept => exact execDescriptorAccept_keeps h
  case step => exact execStep_keeps _ _ _ _ h
  case nopDescriptor => exact serve_keeps (h := h) (hf := fun _ => .next (complete_keeps _ _ _ _ _ h)) ..
  case hostReadCompletion => exact execHostReadCompletion_keeps _ _ h
  case hwriteRetire => exact execHwriteRetire_keeps _ h
  case irqCoalesceTimeout => exact execIrqCoalesceTimeout_keeps _ _ h
  case msixUnmask => exact act_keeps _ (fun _ => sendHeldMsix_keeps _ _ _ (State.setFn_keeps _ _ _ h)) h
  case frameStart => exact act_keeps _ (fun _ => frameStartEff_keeps _ h) h
  case windowStart =>
    exact act_keeps _ (fun _ => .ite (fun _ => windowStartEff_keeps _ h) (fun _ => turnStartEff_keeps _ h)) h
  case windowEnd => exact act_keeps _ (fun _ => windowEndEff_keeps _ h) h
  case windowIdleEnd => exact act_keeps _ (fun _ => closeWindow_keeps _ h) h
  case flrStart => exact act_keeps _ (fun _ => flrStartEff_keeps _ _ h) h
  case flrComplete => exact act_keeps _ (fun _ => .foldl (fun _ _ => flrDone_keeps _ _) _ h) h
  case hostLinkReset => exact act_keeps _ (fun _ => .foldl (fun _ _ => flrOne_keeps _ _) _ h) h
  case slotTransmit => exact execSlotTransmit_keeps _ h
  case packetReceive => exact execPacketReceive_keeps _ _ _ h
  case nakRepeat => exact execNakRepeat_keeps _ h
  case ackTimer => exact act_keeps _ (fun _ => sendLinkAck_keeps _ _ h) h
  case ack => exact execAck_keeps _ _ h
  case nak => exact execNak_keeps _ _ h
  case replayTimeout | retrainComplete | signalDetect | trainConverge | alignLock =>
    exact act_keeps _ (fun _ => State.setPort_keeps _ _ _ h) h
  case credit => exact execCredit_keeps _ _ h
  case linkCreditStarved => exact execLinkCreditStarved_keeps _ _ h
  case heartbeatSend => exact execHeartbeatSend_keeps _ h
  case heartbeat => exact execHeartbeat_keeps _ _ h
  case heartbeatMiss => exact execHeartbeatMiss_keeps _ h
  case timeReq => exact execTimeReq_keeps _ _ h
  case timeRsp => exact execTimeRsp_keeps _ _ h
  case timeSourceTimeout => exact execTimeSourceTimeout_keeps h
  case timePpsEdge => exact act_keeps _ (fun _ => discipline_keeps _ _ h) h
  case trim => exact execTrim_keeps _ _ h
  case propose => exact execPropose_keeps _ _ h
  case switch => exact execSwitch_keeps _ _ h
  case laneLockLoss => exact execLaneLockLoss_keeps _ _ h
  case laneRestoreTimer => exact execLaneRestoreTimer_keeps _ _ h
  case retrain => exact execRetrain_keeps _ _ h
  case retrainTimeout => exact act_keeps _ (fun _ => linkLost_keeps _ _ _ _ h) h
  case fecLockLoss => exact act_keeps _ (fun _ => enterRetrain_keeps _ _ (State.setPort_keeps _ _ _ h)) h
  case trainingTimeout => exact act_keeps _ (fun _ => portDown_keeps _ _ _ h) h
  case param => exact execParam_keeps _ _ h
  case linkCtrlEnable => exact .next (linkCtrlWrite_keeps _ _ _ h)
  case linkCtrlRetrain | linkCtrlCold => exact act_keeps _ (fun _ => linkCtrlWrite_keeps _ _ _ h) h
  case mgmtRequest => exact execMgmtRequest_keeps _ _ _ h
  case frecvRetire => exact execFrecvRetire_keeps _ _ h
  case collectCombine => exact execCollectCombine_keeps _ _ _ _ h
  case e2eAck => exact execE2eAck_keeps _ _ h
  case e2eReq => exact execE2eReq_keeps _ _ h
  case e2eData => exact act_keeps _ (fun _ => e2eDataEff_keeps _ _ _ h) h
  case e2eTimeout => exact execE2eTimeout_keeps _ _ _ h
  case fenceLimit => exact execFenceLimit_keeps h
  case abort => exact execAbort_keeps _ _ h
  case dyingGasp => exact execDyingGasp_keeps _ _ h
  case memberItem => exact execMemberItem_keeps _ _ h
  case gatherEnd => exact act_keeps _ (fun _ => gatherEndEff_keeps _ h) h
  case memberCommit => exact act_keeps _ (fun _ => memberCommitEff_keeps _ h) h
  case memberLevel => exact execMemberLevel_keeps _ _ h
  case halfOut => exact execHalfOut_keeps _ _ h
  case twinPacket => exact execTwinPacket_keeps _ h
  case twinTimeout => exact execTwinTimeout_keeps h
  case gridResume => exact .next (resumeEff_keeps _ _ h)
  case gridWithdraw => exact .next (withdrawEff_keeps _ h)
  case faultInject => exact serve_keeps (h := h) (hf := fun _ => .next (faultInjectEff_keeps _ _ _ h)) ..
  case linkDrop => exact execLinkDrop_keeps h
  case linkDropEnd => exact execLinkDropEnd_keeps _ h
  case poison => exact execPoison_keeps h
  case vacancy => exact execVacancy_keeps h
  case audit => exact execAudit_keeps h
  case tenancyOpen => exact execTenancyOpen_keeps _ _ _ h
  case tenancyClose => exact serve_keeps (h := h) (hf := fun _ => .next (tenancyCloseEff_keeps _ _ _ h)) ..
  case tenancyScrub => exact execTenancyScrub_keeps h
  case tenancyCloseDone => exact execTenancyCloseDone_keeps h
  case getVersion => exact spdmServe_keeps (h := h) (hf := fun _ ht => sendSpdm_keeps _ (answerVersion_keeps _ _ ht)) ..
  case getCapabilities =>
    exact spdmServe_keeps (h := h) (hf := fun _ ht => sendSpdm_keeps _ (answerCapabilities_keeps _ _ ht)) ..
  case negotiateAlgorithms =>
    exact spdmServe_keeps (h := h) (hf := fun _ ht => sendSpdm_keeps _ (answerAlgorithms_keeps _ _ ht)) ..
  case getDigests => exact spdmServe_keeps (h := h) (hf := fun _ ht => sendSpdm_keeps _ (answerDigests_keeps _ _ ht)) ..
  case getCertificate =>
    exact spdmServe_keeps (h := h) (hf := fun _ ht => sendSpdm_keeps _ (answerCertificate_keeps _ _ ht)) ..
  case challenge => exact spdmServe_keeps (h := h) (hf := fun _ ht => sendSpdm_keeps _ (answerChallenge_keeps _ _ ht)) ..
  case getMeasurements =>
    exact spdmServe_keeps (h := h) (hf := fun _ ht => sendSpdm_keeps _ (answerMeasurements_keeps _ _ ht)) ..
  case chunkSend => exact spdmServe_keeps (h := h) (hf := fun _ => chunkSendEff_keeps _ _) ..
  case chunkGet => exact spdmServe_keeps (h := h) (hf := fun _ => chunkGetEff_keeps _ _) ..
  case pldmTableUpdate => exact .next (writeCopy_keeps _ _ h)
  case ownershipClaim => exact execOwnershipClaim_keeps _ _ _ h
  case evringWrite => exact act_keeps _ (fun _ => evringWriteEff_keeps _ h) h
  case evringIrqTimeout => exact act_keeps _ (fun _ => ringMsix_keeps _ h) h
  case evringCtrlWrite => exact execEvringCtrlWrite_keeps _ _ _ h
  case mctpRecordPush => exact execMctpRecordPush_keeps h
  case dropSummary => exact act_keeps _ (fun _ => dropSummaryEff_keeps _ _ h) h
  case alarmLatchClear => exact .ite (.next (latchClear_keeps _ _ h)) (.next h)
  case obsSnapshot => exact act_keeps _ (fun _ => snapshot_keeps _ h) h
  case stopRequest | jtagStop => exact .next (resumableStop_keeps _ _ h)
  case stopReached => exact act_keeps _ (fun _ => stopReachedEff_keeps _ h) h
  case stopResume => exact act_keeps _ (fun _ => releaseStop_keeps _ h) h
  case scanout => exact act_keeps _ (fun _ => State.bump_keeps _ (State.emit_keeps _ _ h)) h
  case scanRequest => exact act_keeps _ (fun _ => scanFrames_keeps _ _ _ _ h) h
  case observationFrameSend => exact act_keeps _ (fun _ => sendFrame_keeps _ _ _ _ (.of_keptFields h rfl)) h
  case replayAccept => exact act_keeps _ (fun _ => replayAcceptEff_keeps _ _ _ _ _ h) h
  case jtagReset | pldmReset => exact .next (deviceReset_keeps _ _ (by decide) h)
  case extest | samplePreload => exact .next (shiftBoundary_keeps _ _ (selectIr_keeps _ _ _ h))
  case idcode | bypass => exact .next (State.emit_keeps _ _ (selectIr_keeps _ _ _ h))
  case porRelease => exact .next (coldReset_keeps _ h)
  case resetN => exact execResetN_keeps _ h
  case devReset => exact .next (devResetEff_keeps _ _ h)
  case pkgLimit => exact .next (pkgLimitEff_keeps _ _ h)
  case bootStageEnd => exact act_keeps _ (fun _ => stageEndEff_keeps _ _ _ _ h) h
  case pwrGood => exact act_keeps _ (fun _ => setGood_keeps _ _ _ h) h
  case railEnableDelay => exact act_keeps _ (fun _ => setRail_keeps _ _ _ h) h
  case railDisableDelay => exact act_keeps _ (fun _ => lowerNext_keeps _ h) h
  case powerGoodTimeout => exact act_keeps _ (fun _ => railFault_keeps _ _ h) h
  case powerGoodFall => exact act_keeps _ (fun _ => railFault_keeps _ _ (setGood_keeps _ _ _ h)) h
  case vddAonLow => exact .next (groupFault_keeps _ _ (.of_keptFields h rfl))
  case thermalSample => exact .next (thermalEff_keeps _ _ h)
  case thermalLimit => exact act_keeps _ (fun _ => raise_keeps (h := .of_keptFields h rfl) ..) h
  case pwrFailN => exact .next (powerFail_keeps _ h)
  case refClkLost => exact act_keeps _ (fun _ => powerFail_keeps _ h) h
  case refClkMissing => exact act_keeps _ (fun _ => .of_keptFields h rfl) h
  case refClkReturn => exact execRefClkReturn_keeps h
  case timeSet => exact .next (timeSetEff_keeps _ _ _ _ h)
  case timeCtrlWrite => exact .next (timeCtrlEff_keeps _ _ h)
  case errorBoundExceeded => exact act_keeps _ (fun _ => unlock_keeps _ _ h) h
  case tableCommit => exact .next (commitEff_keeps _ _ h)
  case commitCopyDone => exact execCommitCopyDone_keeps _ h
  case apertureWrite | unprescribedWrite => exact act_keeps _ (fun _ => tableWrite_keeps _ _ _ _ _ h) h
  case replicaUpdateDone => exact act_keeps _ (fun _ => State.setTable_keeps _ _ _ h) h
  case dropCounterRead => exact execDropCounterRead_keeps _ _ h
  case memberStatusRead => exact .next (memberReadEff_keeps _ _ h)
  case funcStatusRead => exact act_keeps _ (fun _ => funcReadEff_keeps _ _ _ _ h) h
  case mctpRegisterAccess => exact execMctpRegisterAccess_keeps _ _ _ _ h
  case registerWrite => exact execRegisterWrite_keeps _ _ _ _ _ h
  -- SEAL is left, whose name is a keyword of Lean and so no case tag.
  · exact execSeal_keeps _ _ h

/-- What a step that answers keeps: the command at the front of the queue leaves it, and it is no part of `Legal`. -/
theorem step_keeps {t : State} (e : step s = .next t) : (s.Legal → t.Legal) ∧ t.factory = s.factory := by
  unfold step at e
  split at e
  · next c rest _ =>
    have k : Keeps { s with pending := rest } t := (exec_keeps c (.refl _)).of_next t e
    exact ⟨fun l => k.legal { l with }, k.factory⟩
  · cases e
    have k : Keeps s (tick s) := tick_keeps s (.refl s)
    exact ⟨k.legal, k.factory⟩

end Sys2Proof.Machine

namespace Sys2Proof.Proofs

open Sys2Proof.Machine

/-- Settles O4: every command keeps legal modes and the factory fuses (`exec_keeps`), and so does a nanosecond in which none
waits (`tick_keeps`). -/
theorem stepKeepsLegal : Obligations.StepKeepsLegal := by
  intro s t e l
  obtain ⟨legal, factory⟩ := step_keeps e
  exact ⟨legal l, factory⟩

end Sys2Proof.Proofs
end

section
/-!
The reset state, and the accesses of the global block and of the management path (R9, R557, R558, R560).
-/

namespace Sys2Proof.Proofs

open Sys2Proof.Machine

/-! ### The state after a COLD reset -/

theorem reset_legal : State.reset.Legal where
  stop := by decide
  grid := by decide
  twin := by decide
  kind := by decide
  phase := by decide
  chronMode := by decide
  chronState := by decide
  stage := by decide
  lastReset := by decide
  thermal := by decide
  limLow := by decide
  limHigh := by decide
  spdm := by decide
  grade := by decide

/-- Settles O2: the reset values are the defaults of the state's fields, and a live table with nothing written has equal
copies. -/
theorem resetState : Obligations.ResetState :=
  ⟨reset_legal, rfl, rfl, rfl, rfl, rfl, rfl, rfl, rfl, rfl, rfl, rfl, rfl, rfl, rfl, rfl, rfl, fun _ => rfl⟩

/-! ### Bits of a written value -/

theorem bitNat_eq_testBit (n i : Nat) : bitNat n i = n.testBit i := by
  rw [Nat.testBit_eq_decide_div_mod_eq]
  rfl

/-- The low half of a word holds its bits 0 to 31. -/
theorem bitNat_low (v : W64) (i : Nat) (hi : i < 32) : bitNat (v.toNat % 2 ^ 32) i = v.getLsbD i := by
  rw [bitNat_eq_testBit, Nat.testBit_mod_two_pow, decide_eq_true hi, Bool.true_and, BitVec.getLsbD]

/-! ### Writes to the global block -/

/-- None of the accesses that R557 allows: 32 bits at either half of a register, or all 64. -/
theorem not_access {offset width : Nat} (h : (width ≠ 32 ∧ width ≠ 64) ∨ offset % (width / 8) ≠ 0) :
    ¬ (offset % 8 = 0 ∧ width = 64) ∧ ¬ (offset % 8 = 0 ∧ width = 32) ∧ ¬ (offset % 8 = 4 ∧ width = 32) := by
  refine ⟨?_, ?_, ?_⟩ <;> rintro ⟨ho, rfl⟩ <;> omega

theorem globalWrite_not_access (s : State) (v : W64) {offset width : Nat}
    (h : (width ≠ 32 ∧ width ≠ 64) ∨ offset % (width / 8) ≠ 0) : globalWrite offset width v s = s := by
  obtain ⟨whole, low, high⟩ := not_access h
  simp only [globalWrite, timeSetEff, writeGridCmd, regMerge, whole, low, high, if_false, ite_self]

/-- A write of a whole register none of whose fields acts alone stores the value written. -/
theorem globalWrite_whole (s : State) (v : W64) {b : Nat} (hb : b / 8 * 8 = b) (h1 : b ≠ 0x1118) (h2 : b ≠ 0x1410)
    (hw : wide32 b = false) (ha : actsAlone b = false) : globalWrite b 64 v s = writeWord b true v s := by
  have h0 : b % 8 = 0 := by omega
  simp [globalWrite, regMerge, hb, h0, h1, h2, hw, ha]

/-- A write by function 0 to the global block, outside a reset. -/
theorem exec_registerWrite (s : State) (v : W64) {offset : Nat} (width : Nat) (hr : (s.fnOf 0).inReset = false)
    (ho : offset < 0x100000) : exec (.registerWrite 0 true offset width v) s = .next (globalWrite offset width v s) := by
  show execRegisterWrite 0 true offset width v s = _
  simp [execRegisterWrite, hr, ho]

theorem exec_registerWrite_whole (s : State) (v : W64) {b : Nat} (hr : (s.fnOf 0).inReset = false) (ho : b < 0x100000)
    (hb : b / 8 * 8 = b) (h1 : b ≠ 0x1118) (h2 : b ≠ 0x1410) (hw : wide32 b = false) (ha : actsAlone b = false) :
    exec (.registerWrite 0 true b 64 v) s = .next (writeWord b true v s) := by
  rw [exec_registerWrite s v 64 hr ho, globalWrite_whole s v hb h1 h2 hw ha]

/-- BAR2 of a function other than 0 takes no write. -/
theorem exec_registerWrite_other (s : State) (v : W64) (f : Fn) (offset width : Nat) (hf : f.val ≠ 0) :
    exec (.registerWrite f true offset width v) s = .next s := by
  show execRegisterWrite f true offset width v s = _
  simp [execRegisterWrite, hf]

/-! ### The management path -/

/-- A write of the management path outside STOP_CTRL, TELEM_CTRL_1 and the aperture. -/
theorem mctpWrite_other (s : State) (v : W64) {offset : Nat} (width : Nat) (h1 : offset ≠ 0x3200)
    (h2 : offset / 8 ≠ 0x3008 / 8) (h3 : offset < 0x100000) : mctpWrite offset width v s = s := by
  have telem : offset / 8 * 8 ≠ 0x3008 := by omega
  have window : ¬ 0x100000 ≤ offset := by omega
  simp [mctpWrite, h1, telem, window]

theorem mctpRead_loaded (s : State) {offset : Nat} (width : Nat) (h : offset ≠ 0x1420)
    (hl : s.regLoaded (offset / 8 * 8) = true) :
    mctpRead offset width s = { s with out := s.out ++ [.value (s.globalRead offset width)] } := by
  simp [mctpRead, h, hl, State.emit]

theorem mctpRead_not_loaded (s : State) {offset : Nat} (width : Nat) (hl : s.regLoaded (offset / 8 * 8) = false) :
    mctpRead offset width s = s := by
  simp [mctpRead, hl]

/-- A request for a stop, with no stop standing, forms one that may be resumed (R532). -/
theorem requestStop_first (s : State) (cause : Nat) (ending : Bool) (floor : Nat) (h : s.stop.state = 0) :
    requestStop s cause ending floor =
      { s with stop := { s.stop with state := 1, ending := ending, causes := 2 ^ cause, beat := floor } } := by
  simp [requestStop, h]

/-- REQUEST without RESUME asks for a stop of cause 3 (R532, R534). -/
theorem writeStop_request (s : State) (n : Nat) (request : bitNat n 0 = true) (resume : bitNat n 1 = false) :
    writeStop n false s = resumableStop s 3 := by
  simp [writeStop, request, resume]

theorem mctpWrite_request (s : State) (v : W64) (h0 : v.getLsbD 0 = true) (h1 : v.getLsbD 1 = false) :
    mctpWrite 0x3200 32 v s = resumableStop s 3 :=
  (if_pos ⟨rfl, rfl⟩).trans
    (writeStop_request s _ ((bitNat_low v 0 (by decide)).trans h0) ((bitNat_low v 1 (by decide)).trans h1))

/-- Settles O59: the accesses that act are those of R557 and R558, register by register. -/
theorem registerAccesses : Obligations.RegisterAccesses := by
  intro s v
  refine ⟨fun f offset width hf => ⟨s, exec_registerWrite_other s v f offset width hf, rfl⟩, fun hr => ?_, ?_, ?_, ?_⟩
  · refine ⟨fun offset width ho h => ⟨s, ?_, rfl⟩, ?_, ?_, ?_, ?_, ?_⟩
    · rw [exec_registerWrite s v width hr ho, globalWrite_not_access s v h]
    all_goals
      exact ⟨_, exec_registerWrite_whole s v hr (by decide) (by decide) (by decide) (by decide) (by decide) (by decide), rfl⟩
  · intro offset width h
    exact ⟨_, rfl, mctpRead_loaded s width h, mctpRead_not_loaded s width⟩
  · intro offset width h1 h2 h3
    exact ⟨_, rfl, mctpWrite_other s v width h1 h2 h3⟩
  · intro h0 h1 hs
    have stopped := (mctpWrite_request s v h0 h1).trans (requestStop_first s 3 false _ hs)
    exact ⟨_, congrArg Host.Outcome.next stopped, rfl, rfl, rfl, rfl, rfl⟩

end Sys2Proof.Proofs
end

section
/-!
Reads with an effect (R12, R523, R525, R557, R559): what a sparse table of counters holds after a read clears one of them, and
after a snapshot puts every counter in it.
-/

namespace Sys2Proof.Proofs

open Sys2Proof.Machine Sys2Proof.Laws

/-! ### Drop counters (R12, R523) -/

/-- Four bytes of a number, lowest first, are its low 32 bits. -/
theorem leNat_byteOf_four (n : Nat) : leNat ((List.range 4).map fun i => byteOf n i) = n % 2 ^ 32 := by
  simp only [List.range, List.range.loop, List.map_cons, List.map_nil, leNat, byteOf, BitVec.toNat_ofNat]
  omega

/-- A byte of table 0x25, a drop counter's. -/
theorem tableByte_drop (s : State) (live : Bool) (i k : Nat) (hi : i < 240) (hk : k < 4) :
    s.tableByte 0x25 live (4 * i + k) = byteOf (tget 0 s.drops i) k := by
  have inside : ¬ s.tableSize 0x25 ≤ 4 * i + k := by
    show ¬ 960 ≤ 4 * i + k
    omega
  have counter : (4 * i + k) / 4 = i := by omega
  have byte : (4 * i + k) % 4 = k := by omega
  rw [State.tableByte, if_neg inside]
  show byteOf (tget 0 s.drops ((4 * i + k) / 4)) ((4 * i + k) % 4) = _
  rw [counter, byte]

theorem touchedDrops_whole (i : Nat) (hi : i < 240) : touchedDrops (4 * i) 4 = [i] := by
  have touches : (fun j => decide (4 * j < 4 * i + 4 ∧ 4 * i < 4 * j + 4)) = fun j => j == i := by
    funext j
    rw [Bool.eq_iff_iff, decide_eq_true_iff, beq_iff_eq]
    omega
  rw [touchedDrops, touches, List.filter_beq]
  simp [List.count_range, hi]

theorem apertureRead_drop (s : State) (i offset : Nat) (hi : i < 240) (ho : offset < 1048576) (ht : s.winTable = 0x25)
    (hw : s.windowAt offset = 4 * i) :
    s.apertureRead offset 32 = BitVec.ofNat 64 (tget 0 s.drops i % 2 ^ 32) := by
  unfold State.windowAt at hw
  have aligned : offset % 4 = 0 := by omega
  have bytes : ((List.range 4).map fun k => s.tableByte s.winTable s.winLive (s.windowAt (offset + k)))
      = (List.range 4).map fun k => byteOf (tget 0 s.drops i) k := by
    refine List.map_congr_left fun k hk => ?_
    rw [ht, ← tableByte_drop s s.winLive i k hi (List.mem_range.1 hk), State.windowAt, ← hw, Nat.add_assoc]
  rw [State.apertureRead, if_pos ⟨by simp, aligned, ho⟩, ← leNat_byteOf_four, ← bytes]

/-- A read of a whole drop counter returns it and clears it but for what coincides. -/
theorem exec_dropCounterRead_whole (s : State) (i offset : Nat) (hi : i < 240) (ho : offset < 1048576)
    (ht : s.winTable = 0x25) (hw : s.windowAt offset = 4 * i) :
    exec (.dropCounterRead offset 32) s = .next
      { s with drops := tset 0 s.drops i (satNat 32 (s.coinciding (keyDrop i)))
               out := s.out ++ [.value (BitVec.ofNat 64 (tget 0 s.drops i % 2 ^ 32))] } := by
  have aligned : offset % (32 / 8) = 0 := by unfold State.windowAt at hw; omega
  show execDropCounterRead offset 32 s = _
  rw [execDropCounterRead, act, if_pos ht, if_pos ⟨by simp, aligned, ho⟩, dropReadEff, hw, touchedDrops_whole i hi,
    apertureRead_drop s i offset hi ho ht hw]
  rfl

/-! ### MEMBER_STATUS (R557) -/

theorem getLsbD_lowMask (w n i : Nat) :
    (BitVec.ofNat w (2 ^ n - 1)).getLsbD i = (decide (i < w) && decide (i < n)) := by
  rw [BitVec.getLsbD_ofNat, Nat.testBit_two_pow_sub_one]

/-- What a latch takes of a value beyond its low `n` bits: the bits below it keeps, the others are the value's. -/
def latchAbove (n : Nat) (old now : W128) : W128 :=
  (old &&& BitVec.ofNat 128 (2 ^ n - 1)) ||| (now &&& ~~~ BitVec.ofNat 128 (2 ^ n - 1))

theorem getLsbD_latchAbove (n : Nat) (old now : W128) (i : Nat) :
    (latchAbove n old now).getLsbD i = if i < n then old.getLsbD i else now.getLsbD i := by
  simp only [latchAbove, BitVec.getLsbD_or, BitVec.getLsbD_and, BitVec.getLsbD_not, getLsbD_lowMask]
  by_cases hi : i < 128
  · by_cases hn : i < n <;> simp [hi, hn]
  · simp [hi, BitVec.getLsbD_of_ge _ _ (Nat.le_of_not_lt hi)]

theorem extractLsb'_latchAbove (n w : Nat) (old now : W128) :
    (latchAbove n old now).extractLsb' n w = now.extractLsb' n w := by
  refine BitVec.eq_of_getLsbD_eq fun i hi => ?_
  simp [BitVec.getLsbD_extractLsb', getLsbD_latchAbove]

theorem setWidth_latchAbove (n : Nat) (old now : W128) : (latchAbove n old now).setWidth n = old.setWidth n := by
  refine BitVec.eq_of_getLsbD_eq fun i hi => ?_
  simp [getLsbD_latchAbove, hi]

theorem exec_memberStatusRead_whole (s : State) :
    exec (.memberStatusRead 64) s = .next
      { s with grid := { s.grid with statusLatch := latchAbove 64 s.grid.statusLatch s.memberStatus }
               out := s.out ++ [.value (s.memberStatus.setWidth 64)] } := rfl

theorem exec_memberStatusRead_half (s : State) :
    exec (.memberStatusRead 32) s = .next
      { s with grid := { s.grid with statusLatch := latchAbove 32 s.grid.statusLatch s.memberStatus }
               out := s.out ++ [.value (s.memberStatus.setWidth 64 &&& 0xFFFF_FFFF)] } := rfl

/-- The low half of a word, widened again, is the word under the mask of that half. -/
theorem setWidth_and_low (v : W128) : v.setWidth 64 &&& 0xFFFF_FFFF = (v.setWidth 32).setWidth 64 := by
  refine BitVec.eq_of_getLsbD_eq fun i hi => ?_
  have mask : (0xFFFF_FFFF : W64).getLsbD i = (decide (i < 64) && decide (i < 32)) := getLsbD_lowMask 64 32 i
  simp only [BitVec.getLsbD_and, BitVec.getLsbD_setWidth, mask, decide_eq_true hi, Bool.true_and]
  exact Bool.and_comm ..

/-! ### FUNC_STATUS (R559) -/

theorem fnOf_setFn (s : State) (f : Nat) (x : FnState) (h : risingFrom 0 s.fns = true) : (s.setFn f x).fnOf f = x :=
  tget_tset ({} : FnState) s.fns f 0 x h

theorem fnOf_setFn_ne (s : State) (f g : Nat) (x : FnState) (h : g ≠ f) : (s.setFn f x).fnOf g = s.fnOf g :=
  tget_tset_ne ({} : FnState) s.fns f g x h

theorem exec_funcStatusRead_whole (s : State) (f : Fn) (hf : s.fnEnabled f = true) :
    exec (.funcStatusRead f 0 64) s = .next
      ((s.setFn f { s.fnOf f with doorbellIgnored := satNat 32 (s.coinciding (keyDoorbell f)) }).emit
        (.value (s.fnOf f).funcStatus)) :=
  if_pos hf

theorem exec_funcStatusRead_low (s : State) (f : Fn) (hf : s.fnEnabled f = true) :
    exec (.funcStatusRead f 0 32) s = .next
      { s with out := s.out ++ [.value ((s.fnOf f).funcStatus &&& 0xFFFF_FFFF)] } :=
  if_pos hf

/-! ### The counter snapshot (R525, R562) -/

/-- A table keeps an entry that none of a list of writes names. -/
theorem tget_foldl_snapPut_ne (l : List (Nat × Nat)) (t : Tbl Nat) (k : Nat) (h : k ∉ l.map Prod.fst) :
    tget 0 (l.foldl snapPut t) k = tget 0 t k := by
  induction l generalizing t with
  | nil => rfl
  | cons e l ih =>
    obtain ⟨he, hl⟩ := not_or.1 (mt List.mem_cons.2 h)
    rw [List.foldl_cons, ih _ hl, snapPut, tget_tset_ne 0 t e.1 k e.2 he]

theorem risingFrom_snapPut (t : Tbl Nat) (e : Nat × Nat) (h : risingFrom 0 t = true) : risingFrom 0 (snapPut t e) = true := by
  unfold snapPut tset
  split
  · exact risingFrom_tdel t e.1 0 h
  · exact risingFrom_tput t e.1 0 e.2 h (Nat.zero_le _)

/-- Every one of a list of writes to different entries reads back. -/
theorem tget_foldl_snapPut (l : List (Nat × Nat)) (t : Tbl Nat) (ht : risingFrom 0 t = true) (hl : (l.map Prod.fst).Nodup) :
    ∀ e ∈ l, tget 0 (l.foldl snapPut t) e.1 = e.2 := by
  induction l generalizing t with
  | nil => exact fun _ he => absurd he (List.not_mem_nil)
  | cons a l ih =>
    obtain ⟨fresh, distinct⟩ := List.nodup_cons.1 hl
    intro e he
    rcases List.mem_cons.1 he with rfl | he
    · rw [List.foldl_cons, tget_foldl_snapPut_ne l _ _ fresh, snapPut, tget_tset 0 t e.1 0 e.2 ht]
    · exact ih _ (risingFrom_snapPut t a ht) distinct e he

/-- The entries of `n` blocks of a table, at the same offsets in each. -/
def strided (base stride n : Nat) (offs : List Nat) : List Nat :=
  (List.range n).flatMap fun i => offs.map (base + stride * i + ·)

theorem mem_strided {base stride n k : Nat} {offs : List Nat} (h : k ∈ strided base stride n offs)
    (ho : ∀ o ∈ offs, o < stride) : ∃ i < n, base + stride * i ≤ k ∧ k < base + stride * (i + 1) := by
  obtain ⟨i, hi, hk⟩ := List.mem_flatMap.1 h
  obtain ⟨o, hoff, rfl⟩ := List.mem_map.1 hk
  have := ho o hoff
  exact ⟨i, List.mem_range.1 hi, Nat.le_add_right _ _, by rw [Nat.mul_add]; omega⟩

/-- Blocks as long as their stride do not overlap. -/
theorem nodup_strided (base stride n : Nat) (offs : List Nat) (hd : offs.Nodup) (ho : ∀ o ∈ offs, o < stride) :
    (strided base stride n offs).Nodup := by
  refine List.nodup_flatMap.2 ⟨fun i _ => hd.map fun a b => Nat.add_left_cancel, ?_⟩
  refine List.nodup_range.imp fun {i j} hij => ?_
  intro k hi hj
  obtain ⟨a, ha, rfl⟩ := List.mem_map.1 hi
  obtain ⟨b, hb, e⟩ := List.mem_map.1 hj
  have la := ho a ha
  have lb := ho b hb
  rcases Nat.lt_or_gt_of_ne hij with h | h
  · have := Nat.mul_le_mul_left stride h
    rw [Nat.mul_succ] at this
    omega
  · have := Nat.mul_le_mul_left stride h
    rw [Nat.mul_succ] at this
    omega

/-- Where the counters of a port lie in its block (R562). -/
def portOffsets : List Nat :=
  [0, 0x08, 0x10, 0x18, 0x20, 0x28, 0x30] ++ (List.range 8).map (0x40 + 8 * ·) ++ (List.range 8).map (0x80 + 8 * ·)
    ++ (List.range 16).map (0x100 + 8 * ·) ++ [0x180, 0x188, 0x190]

theorem portCounters_keys (b : Nat) (c : PortCounters) : (portCounters b c).map Prod.fst = portOffsets.map (b + ·) := by
  simp [portCounters, portOffsets, Nat.add_assoc, Function.comp_def]

theorem mvCounters_keys (s : State) : s.mvCounters.map Prod.fst = strided 0x100 32 64 [0, 8, 0x10] := by
  rw [State.mvCounters, strided, List.map_flatMap]
  refine congrArg (List.flatMap · _) (funext fun n => ?_)
  simp only [List.map_cons, List.map_nil, Nat.add_zero, Nat.add_right_comm]

theorem counters_keys (s : State) :
    s.counters.map Prod.fst = strided 0x100 32 64 [0, 8, 0x10] ++ strided 0x1000 512 20 portOffsets := by
  rw [State.counters, List.map_append, mvCounters_keys, List.map_flatMap]
  simp only [portCounters_keys]
  rfl

theorem counters_nodup (s : State) : (s.counters.map Prod.fst).Nodup := by
  have inMv : ∀ o ∈ [0, 8, 0x10], o < 32 := by decide
  have inPort : ∀ o ∈ portOffsets, o < 512 := by decide
  rw [counters_keys]
  refine List.nodup_append'.2 ⟨nodup_strided _ _ _ _ (by decide) inMv, nodup_strided _ _ _ _ (by decide) inPort, ?_⟩
  intro k hm hp
  obtain ⟨i, hi, -, below⟩ := mem_strided hm inMv
  obtain ⟨j, -, above, -⟩ := mem_strided hp inPort
  omega

theorem exec_obsSnapshot (s : State) (v : W64) (hv : v.getLsbD 0 = true) :
    exec (.obsSnapshot v) s = .next (snapshot s) :=
  if_pos hv

theorem snapshot_counters (s : State) : ∀ e ∈ s.counters, tget 0 (snapshot s).snap e.1 = e.2 := by
  dsimp only [snapshot]
  exact tget_foldl_snapPut s.counters [] rfl (counters_nodup s)

/-- Settles O58: each read's next state is given whole above; what is left is what its tables and latches hold. -/
theorem readsWithEffects : Obligations.ReadsWithEffects := by
  intro s
  refine ⟨?_, ?_, ?_, ?_, ?_⟩
  · intro i offset hi ho ht hw rising
    refine ⟨_, exec_dropCounterRead_whole s i offset hi ho ht hw, rfl, rfl, fun j => ?_⟩
    split
    · next e => rw [e]; exact tget_tset 0 s.drops i 0 _ rising
    · next ne => exact tget_tset_ne 0 s.drops i j _ ne
  · exact ⟨_, exec_memberStatusRead_whole s, rfl, rfl, extractLsb'_latchAbove 64 64 _ _, setWidth_latchAbove 64 _ _, rfl⟩
  · exact ⟨_, exec_memberStatusRead_half s, by rw [← setWidth_and_low], rfl, extractLsb'_latchAbove 32 96 _ _, rfl⟩
  · intro f hf
    refine ⟨fun rising => ?_, _, exec_funcStatusRead_low s f hf, rfl⟩
    exact ⟨_, exec_funcStatusRead_whole s f hf, rfl, fnOf_setFn s f _ rising, fun g hg => fnOf_setFn_ne s f g _ hg, rfl⟩
  · intro v hv
    exact ⟨_, exec_obsSnapshot s v hv, rfl, rfl, snapshot_counters s⟩

end Sys2Proof.Proofs
end

section
/-!
The chronometer (R57, R58, R60 to R63, R424, R579): one nanosecond, its registers, and the exchange of time.
-/

namespace Sys2Proof.Proofs

open Sys2Proof.Machine Sys2Proof.Laws

/-! ### One nanosecond (R57, R58) -/

theorem step_of_pending {s : State} {c : Instr} {rest : List Instr} (h : s.pending = c :: rest) :
    step s = exec c { s with pending := rest } := by
  rw [step, h]

theorem step_of_idle {s : State} (h : s.pending = []) : step s = .next (tick s) := by
  rw [step, h]

/-- The chronometer's advance in one nanosecond, in 2^−32 of a count: its fraction, a count and the rate (R57). -/
def advance (c : Chron) : Int := c.frac + 2 ^ 32 + c.rate

theorem tick_chron_of_neg {s : State} (h : advance s.chron / 2 ^ 32 < 0) :
    (tick s).chron = { s.chron with debt := s.chron.debt - s.chron.slew, frac := advance s.chron } :=
  if_pos h

theorem tick_chron_of_nonneg {s : State} (h : ¬ advance s.chron / 2 ^ 32 < 0) :
    (tick s).chron =
      { s.chron with debt := s.chron.debt - s.chron.slew, count := s.chron.count + (advance s.chron / 2 ^ 32).toNat
                     frac := advance s.chron % 2 ^ 32 } :=
  if_neg h

/-- Within the trim's range a nanosecond is less than three counts and no less than none, and nothing of it is lost (R57). -/
theorem tick_exact (s : State) (f0 : 0 ≤ s.chron.frac) (f1 : s.chron.frac < 2 ^ 32) (r0 : -(trimMax : Int) ≤ s.chron.rate)
    (r1 : s.chron.rate ≤ trimMax) :
    0 ≤ (tick s).chron.frac ∧ (tick s).chron.frac < 2 ^ 32 ∧ (tick s).chron.count ≤ s.chron.count + 2 ∧
      ((tick s).chron.count : Int) * 2 ^ 32 + (tick s).chron.frac =
        (s.chron.count : Int) * 2 ^ 32 + s.chron.frac + 2 ^ 32 + s.chron.rate := by
  have adv : advance s.chron = s.chron.frac + 2 ^ 32 + s.chron.rate := rfl
  have max : trimMax = 4294967 := rfl
  have up : ¬ advance s.chron / 2 ^ 32 < 0 := by omega
  rw [tick_chron_of_nonneg up]
  dsimp only
  omega

/-- Settles O1: `step` is `exec` of the front command or `tick`, whose chronometer goes forward in both of its cases. -/
theorem stepRunsFrontCommand : Obligations.StepRunsFrontCommand := by
  refine ⟨fun c rest s h => step_of_pending h, fun s h => ⟨tick s, step_of_idle h, rfl, rfl, ?_, ?_, ?_, tick_exact s⟩⟩
  all_goals by_cases neg : advance s.chron / 2 ^ 32 < 0
  · rw [tick_chron_of_neg neg]
  · rw [tick_chron_of_nonneg neg]; exact Nat.le_add_right _ _
  · rw [tick_chron_of_neg neg]
  · rw [tick_chron_of_nonneg neg]
  · rw [tick_chron_of_neg neg]
  · rw [tick_chron_of_nonneg neg]

/-! ### The registers (R58, R60, R63, R557) -/

theorem setCount_eq (n : Nat) (s : State) :
    setCount n s = if s.run = none ∧ s.chron.count < n then { s with chron := { s.chron with count := n } } else s := by
  simp only [setCount, Option.isNone_iff_eq_none]

theorem discipline_of_mode_three {c : Chron} (h : c.mode = 3) : c.discipline = 0 := if_pos h

/-- An event leaves the fields that no event writes. -/
theorem raise_unlogged_of {s t : State} (h : t.unlogged s = t) (c : Nat) (l : W64) :
    (raise t c l).unlogged s = t :=
  (unlogged_trans s _ t (raise_unlogged t c l [] none 0x1FF 0)).trans h

theorem unlock_unlogged {s : State} {bound : Nat} (h : 50 < bound) (hs : s.chron.state ≠ 2) :
    (unlock s bound).unlogged s = { s with chron := { s.chron with state := 2, bound := satNat 16 bound } } := by
  rw [unlock, if_pos ⟨h, hs⟩]
  exact raise_unlogged_of rfl _ _

/-- Settles O55: each register's write is its own equation of the chronometer. -/
theorem chronometerRegisters : Obligations.ChronometerRegisters := by
  intro s v
  refine ⟨⟨_, rfl, setCount_eq _ _⟩, ⟨_, rfl, rfl⟩, ⟨_, rfl, ?_⟩, ?_, ?_, ?_⟩
  · rw [show s.chron.setLow.toNat + 2 ^ 32 * (v.toNat % 2 ^ 32) = v.toNat % 2 ^ 32 * 2 ^ 32 + s.chron.setLow.toNat by
      omega]
    exact setCount_eq _ _
  · intro offset width whole low high
    exact ⟨s, by simp only [exec, execTimeSet, timeSetEff, if_neg whole, if_neg low, if_neg high], rfl⟩
  · exact ⟨_, rfl, rfl, rfl, rfl, fun free => discipline_of_mode_three (c := (timeCtrlEff v s).chron) free, rfl, rfl, rfl⟩
  · intro n hn state mode
    exact ⟨unlock s n, if_pos ⟨state, mode, hn⟩, unlock_unlogged hn (by rw [state]; decide)⟩

/-! ### The exchange of time (R57, R60 to R63, R424, R579) -/

/-- A control unit of its TYPE, whole and with no reserved bit set, has its effect. -/
theorem ctrlUnit_good {u : CtrlUnit} {type : Nat} {m0 m1 m2 : W32} (h : goodUnit u type m0 m1 m2) (s : State) (p : Nat)
    (f : State) : ctrlUnit s p u type m0 m1 m2 f = .next f := by
  obtain ⟨whole, ty, b0, b1, b2⟩ := h
  simp [ctrlUnit, whole, ty, b0, b1, b2]

theorem portOf_setPort {s : State} (h : risingFrom 0 s.ports = true) (p : Nat) (x : PortSt) :
    (s.setPort p x).portOf p = x :=
  tget_tset ({} : PortSt) s.ports p 0 x h

theorem portOf_setPort_ne (s : State) {p q : Nat} (x : PortSt) (h : q ≠ p) : (s.setPort p x).portOf q = s.portOf q :=
  tget_tset_ne ({} : PortSt) s.ports p q x h

theorem onlyPort_setPort (s : State) (p : Nat) (x : PortSt) : s.onlyPort p (s.setPort p x) := by
  refine ⟨?_, fun _ => portOf_setPort_ne s x⟩
  dsimp only [State.setPort, State.unlogged]

/-- A field that `unlogged` leaves alone is the same after an event. -/
theorem eq_of_logs {α : Type} (f : State → α) (hf : ∀ t s : State, f (t.unlogged s) = f t) {s t : State} (h : Logs s t) :
    f t = f s := by
  rw [← hf t s, show t.unlogged s = s from h]

theorem raise_logs (s : State) (c : Nat) (l : W64) (d : Bytes) (p : Option PlanPos) (f r : Nat) :
    Logs s (raise s c l d p f r) :=
  raise_unlogged s c l d p f r

theorem ports_of_logs {s t : State} (h : Logs s t) : t.ports = s.ports := eq_of_logs State.ports (fun _ _ => rfl) h

theorem onlyPort_of_logs {s t u : State} {p : Nat} (h : s.onlyPort p t) (k : Logs t u) : s.onlyPort p u := by
  refine ⟨?_, fun q hq => ?_⟩
  · rw [unlogged_trans s u t k]; exact h.1
  · exact (congrArg (tget ({} : PortSt) · q) (ports_of_logs k)).trans (h.2 q hq)

/-- A partner's violation is counted at its port (R427, R429). -/
theorem linkProtocol_onlyPort (s : State) (p : Nat) : s.onlyPort p (linkProtocol s p) :=
  onlyPort_of_logs (onlyPort_setPort s p _) (raise_logs ..)

theorem linkProtocol_port {s : State} (h : risingFrom 0 s.ports = true) (p : Nat) :
    (linkProtocol s p).portOf p =
      { s.portOf p with counters := { (s.portOf p).counters with
          protocol := satNat 48 ((s.portOf p).counters.protocol + 1) } } :=
  (congrArg (tget ({} : PortSt) · p) (ports_of_logs (raise_logs ..))).trans (portOf_setPort h p _)

/-- The state once the discipline has taken an estimate, before the bound is judged (R57, R61). -/
def estimated (s : State) (offset : Int) : State :=
  { s with
    free := s.free + 1
    chron := { s.chron with
      offset := offset, lastSource := s.ns, trim := (s.choice 3 0 % (2 * trimMax + 1) : Nat) - (trimMax : Int)
      debt := (-offset).toNat * 2 ^ 32, slew := 1 + s.choice 3 1 % trimMax
      state := if offset.natAbs ≤ 2 then 0 else s.chron.state } }

theorem discipline_eq (s : State) (offset : Int) : discipline s offset = unlock (estimated s offset) offset.natAbs := rfl

/-- The chronometer once its error bound has been judged (R63). -/
def judged (c : Chron) (bound : Nat) : Chron :=
  { c with bound := satNat 16 bound, state := if 50 < bound ∧ c.state ≠ 2 then 2 else c.state }

theorem judged_state_of_far (c : Chron) {bound : Nat} (h : 50 < bound) : (judged c bound).state = 2 := by
  by_cases locked : c.state = 2
  · simp [judged, locked]
  · simp [judged, locked, h]

theorem unlock_logs (s : State) (bound : Nat) : Logs { s with chron := judged s.chron bound } (unlock s bound) := by
  by_cases h : 50 < bound ∧ s.chron.state ≠ 2
  · rw [unlock, if_pos h, judged, if_pos h]; exact raise_logs ..
  · rw [unlock, if_neg h, judged, if_neg h]; exact Logs.refl _

theorem unlock_chron (s : State) (bound : Nat) : (unlock s bound).chron = judged s.chron bound :=
  eq_of_logs State.chron (fun _ _ => rfl) (unlock_logs s bound)

theorem unlock_free (s : State) (bound : Nat) : (unlock s bound).free = s.free :=
  (eq_of_logs State.free (fun _ _ => rfl) (unlock_logs s bound)).trans rfl

theorem unlock_ports (s : State) (bound : Nat) : (unlock s bound).ports = s.ports :=
  (ports_of_logs (unlock_logs s bound)).trans rfl

/-- An estimate leaves all but the chronometer, the number of the next free value and what events leave behind. -/
theorem discipline_frame (s : State) (offset : Int) :
    { (discipline s offset).unlogged s with chron := s.chron, free := s.free } = s := by
  rw [discipline_eq, unlogged_trans s _ _ (unlock_logs _ _)]
  rfl

theorem discipline_ports (s : State) (offset : Int) : (discipline s offset).ports = s.ports := unlock_ports _ _

theorem discipline_t1 (s : State) (offset : Int) : (discipline s offset).chron.t1 = s.chron.t1 := by
  rw [discipline_eq, unlock_chron]; rfl

/-- What the discipline makes of an estimate (R57, R58, R61 to R63): trim and slew within 1,000 ppm, a correction toward an
earlier value as a debt, and UNLOCKED beyond 50 ns. -/
theorem discipline_takes (s : State) (offset : Int) :
    (let t := discipline s offset
     t.chron.offset = offset ∧ t.chron.lastSource = s.ns ∧ t.chron.bound = satNat 16 offset.natAbs ∧
       -4294967 ≤ t.chron.trim ∧ t.chron.trim ≤ 4294967 ∧ t.chron.count = s.chron.count ∧
       t.chron.debt = (-offset).toNat * 2 ^ 32 ∧ 1 ≤ t.chron.slew ∧ t.chron.slew ≤ 4294967 ∧
       (50 < offset.natAbs → t.chron.state = 2) ∧ t.free = s.free + 1) := by
  have max : trimMax = 4294967 := rfl
  dsimp only
  rw [discipline_eq, unlock_free, unlock_chron]
  have drift := Nat.mod_lt (s.choice 3 0) (show 0 < 2 * trimMax + 1 by decide)
  have slew := Nat.mod_lt (s.choice 3 1) (show 0 < trimMax by decide)
  refine ⟨rfl, rfl, rfl, ?_, ?_, rfl, rfl, ?_, ?_, judged_state_of_far _, rfl⟩ <;> dsimp only [estimated, judged] <;> omega

/-- The state in which the request in flight has been answered (R61). -/
def answered (s : State) (p : Nat) : State :=
  { s.setPort p { s.portOf p with xidOut := none } with chron := { s.chron with t1 := none } }

/-- An expected answer (R61): the request is answered and the estimate taken. -/
theorem exec_timeRsp_expected {s : State} {p : Port} {u : CtrlUnit} {t1 : Nat} (active : s.isActive p = true)
    (good : goodUnit u 5 0xFFFF_FF0F 0xFFFF_FFFF 0xFFFF_FFFF) (ht : s.chron.t1 = some t1)
    (hx : (s.portOf p).xidOut = some (bitsOf u.w0 15 8)) (hp : s.parentPort p = true) :
    (let t2 : Int := (u.w1.toNat + u.w2.toNat * 2 ^ 32 : Nat)
     let t3 : Int := t2 + bitsOf u.w0 31 16
     exec (.timeRsp p u) s = .next (discipline (answered s p) (((t2 - t1) - ((s.chron.count : Int) - t3)) / 2))) := by
  show execTimeRsp p u s = _
  simp only [execTimeRsp, ctrlUnit_good good, ht, hx, hp, active]
  rfl

/-- An answer that nothing waits for is a violation (R424, R429). -/
theorem exec_timeRsp_unexpected {s : State} {p : Port} {u : CtrlUnit} (active : s.isActive p = true)
    (good : goodUnit u 5 0xFFFF_FF0F 0xFFFF_FFFF 0xFFFF_FFFF)
    (h : s.chron.t1 = none ∨ (s.portOf p).xidOut ≠ some (bitsOf u.w0 15 8) ∨ s.parentPort p = false) :
    exec (.timeRsp p u) s = .next (linkProtocol s p) := by
  show execTimeRsp p u s = _
  rw [execTimeRsp, ctrlUnit_good good, if_neg (not_not_intro active)]
  cases ht : s.chron.t1 with
  | none => rfl
  | some t1 =>
    have no : ¬ ((s.portOf p).xidOut = some (bitsOf u.w0 15 8) ∧ s.parentPort p = true) := by
      rintro ⟨hx, hp⟩
      rcases h with h | h | h
      · rw [ht] at h; exact nomatch h
      · exact h hx
      · rw [hp] at h; exact nomatch h
    exact congrArg Host.Outcome.next (if_neg no)

theorem exec_timeReq {s : State} {p : Port} {u : CtrlUnit} (active : s.isActive p = true)
    (good : goodUnit u 4 0x0000_FF0F 0xFFFF_FFFF 0xFFFF_FFFF) :
    exec (.timeReq p u) s = .next (s.setPort p { s.portOf p with
      ctrl := (s.portOf p).ctrl ++
        [{ rank := rankTimeRsp, w0 := BitVec.ofNat 32 (5 + bitsOf u.w0 15 8 * 2 ^ 8)
           w1 := BitVec.ofNat 32 s.chron.count, w2 := BitVec.ofNat 32 (s.chron.count / 2 ^ 32) }] }) := by
  show execTimeReq p u s = _
  rw [execTimeReq, ctrlUnit_good good, if_pos active]
  rfl

theorem exec_timePpsEdge {s : State} (offset : Int) (mode : s.chron.discipline = 1)
    (due : s.chron.lastSource = 0 ∨ s.chron.lastSource + 900000000 ≤ s.ns) :
    exec (.timePpsEdge offset) s = .next (discipline s offset) :=
  if_pos ⟨mode, due⟩

/-- The estimate of an answer leaves all but the port, the chronometer and the number of the next free value. -/
theorem answered_frame (s : State) (p : Nat) (offset : Int) :
    { (discipline (answered s p) offset).unlogged s with ports := s.ports, chron := s.chron, free := s.free } = s := by
  rw [discipline_eq, unlogged_trans s _ _ (unlock_logs _ _)]
  dsimp only [estimated, answered, State.setPort, State.unlogged]

/-- Settles O30: a request queues one message at its port; the answers and the edges go through `discipline`. -/
theorem timeExchangeCompletes : Obligations.TimeExchangeCompletes := by
  intro s rising
  refine ⟨?_, ?_, ?_, ?_⟩
  · intro p u active good
    exact ⟨_, exec_timeReq active good, onlyPort_setPort s p _, portOf_setPort rising p _⟩
  · intro p u active good
    refine ⟨fun t1 ht hx hp => ?_, fun h => ?_⟩
    · refine ⟨_, exec_timeRsp_expected active good ht hx hp, answered_frame s p _, ?_, fun q hq => ?_, discipline_t1 _ _,
        discipline_takes (answered s p) _⟩
      · exact (congrArg (tget ({} : PortSt) · p.val) (discipline_ports _ _)).trans (portOf_setPort rising p _)
      · exact (congrArg (tget ({} : PortSt) · q) (discipline_ports _ _)).trans (portOf_setPort_ne s _ hq)
    · exact ⟨_, exec_timeRsp_unexpected active good h, linkProtocol_onlyPort s p, linkProtocol_port rising p⟩
  · intro offset mode due
    exact ⟨_, exec_timePpsEdge offset mode due, discipline_frame s offset, discipline_takes s offset⟩
  · intro locked late
    exact ⟨_, if_pos ⟨locked, late⟩, rfl⟩

end Sys2Proof.Proofs
end

section
/-!
Two statements that fail: a balance period of the C movement drains the trace, which may ask for a stop (R527, R528), and a
movement map need not name the C movement (R64, R130).
-/

namespace Sys2Proof.Proofs

open Sys2Proof.Machine

/-- A step that issues at every period, with nothing of a plan and a given movement map. -/
def bareRun (map : List Nat) (start : Nat) : Run :=
  { req := { acc := 7, fn := 0, slot := 0, start := start, launch := 0, patches := [], streams := [], bufs := [], report := 0
             slipCap := 0, slipAddr := 0, chain := [], pasid := none }
    number := 1, plan := {}, map := map }

/-! ### A period spent holding, with the trace store one entry short of full -/

/-- The C movement holds at a WAIT whose count has not come. -/
def heldAtC : Hold := { queue := 0, target := 1, site := 0, since := 0 }

/-- The trace store takes one more entry, which waits in a buffer; TRACE_CTRL has MODE 0 and FULL_STOP (R527). -/
def fillingTrace : Trace :=
  { ctrl := 2 ^ 10, fill := traceStoreSize - 1, bufs := [(3, { ents := [{ a := 0, vmove := 3, event := 0, kind := 0, b := 0 }] })] }

def heldWithFullTrace : State :=
  { State.reset with run := some (bareRun (List.range 64) 0), seq := [(3, { hold := some heldAtC })], trace := fillingTrace }

/-- The period's drain fills the store and asks for a stop (R527, R528). -/
theorem period_of_full_trace_stops :
    (after (exec (.planBeatIssue 3 []) heldWithFullTrace) heldWithFullTrace).stop.state = 1 := by
  decide +kernel

/-- Refutes O10: the period in which the C movement holds also drains the trace, and the entry that fills the store asks for a
global stop, while the statement lets a period spent holding change nothing but the slip. -/
theorem not_waitsAndTakesComplete : ¬ Obligations.WaitsAndTakesComplete := by
  intro h
  obtain ⟨-, held, -⟩ := h
  obtain ⟨-, period, -⟩ := held heldWithFullTrace 3 heldAtC (bareRun (List.range 64) 0) rfl rfl
  obtain ⟨t, e, frame, -⟩ := period 3 (by decide +kernel) (by decide +kernel) rfl (by decide +kernel) (by decide +kernel)
    (by decide +kernel)
  have stops := period_of_full_trace_stops
  rw [e] at stops
  have runs : t.stop.state = 0 := congrArg (fun s : State => s.stop.state) frame
  exact absurd (stops.symm.trans runs) (by decide)

/-! ### A timed launch under a map that does not name the C movement -/

/-- The step waits for its launch count; the C movement serves virtual movement 0, whose own place is movement 0. -/
def launchUnmapped : State :=
  { State.reset with run := some (bareRun [] 1), seq := [(0, { ended := some 0 })] }

theorem timed_launch_unmapped_unstamped :
    ((after (exec .timedLaunch launchUnmapped) launchUnmapped).run.bind (·.begin_)) = none := by
  decide +kernel

/-- Refutes O43: under a map that does not name the C movement, plan beat 0 of the C movement opens at another movement's
sequencer, and leaves the step without its first stamp. -/
theorem not_stepsArmLaunchComplete : ¬ Obligations.StepsArmLaunchComplete := by
  intro h
  obtain ⟨-, launch, -⟩ := h
  obtain ⟨-, timed⟩ := launch launchUnmapped rfl
  obtain ⟨t, r', e, -, hr, stamped, -⟩ := timed (bareRun [] 1) rfl rfl rfl (by decide) rfl (by decide +kernel)
    (by decide +kernel) (by decide) rfl rfl rfl rfl rfl (by decide +kernel) (by decide +kernel) (by decide +kernel)
  have unstamped := timed_launch_unmapped_unstamped
  rw [e] at unstamped
  have here : t.run.bind (·.begin_) = some launchUnmapped.chron.count := by rw [hr]; exact stamped
  exact absurd (unstamped.symm.trans here) (by decide)

end Sys2Proof.Proofs
end

section
/-!
What the later work of ops leaves alone (R43, R103, R189): the channels, every movement's counts of periods and plan beats, and
the work in flight itself. One lemma per operation of the parts; then how the parts of a beat settle (O41).
-/

namespace Sys2Proof.Proofs

open Sys2Proof.Machine Sys2Proof.Laws

/-! ### The frame of the work at a beat -/

/-- A movement's counts: its balance periods and its plan beats (R37, R45). -/
def counts (m : Mvmt) : Nat × Nat := (m.periods, m.beats)

/-- The channels are the same, and so are every movement's counts, where the movements stand in rising order. -/
structure SameBeats (s t : State) : Prop where
  chan : t.chan = s.chan
  mv : risingFrom 0 s.mv = true → risingFrom 0 t.mv = true ∧ ∀ k, counts (t.mvOf k) = counts (s.mvOf k)

/-- The work in flight and the beats done for all of it (R43); none with no step. -/
def inFlight (s : State) : Option (List Flight × Nat) := s.run.map fun r => (r.flights, r.settled)

/-- The same beats, and the same work in flight. -/
structure SameWork (s t : State) : Prop extends SameBeats s t where
  work : inFlight t = inFlight s

theorem SameBeats.refl (s : State) : SameBeats s s := ⟨rfl, fun h => ⟨h, fun _ => rfl⟩⟩

theorem SameBeats.trans {r s t : State} (h : SameBeats r s) (k : SameBeats s t) : SameBeats r t where
  chan := k.chan.trans h.chan
  mv rising := by
    obtain ⟨rs, es⟩ := h.mv rising
    obtain ⟨rt, et⟩ := k.mv rs
    exact ⟨rt, fun n => (et n).trans (es n)⟩

/-- A change outside the channels and the movements. -/
theorem SameBeats.upd {s t u : State} (h : SameBeats s t) (chan : u.chan = t.chan) (mv : u.mv = t.mv) : SameBeats s u := by
  refine ⟨chan.trans h.chan, fun rising => ?_⟩
  obtain ⟨rt, et⟩ := h.mv rising
  exact ⟨mv ▸ rt, fun k => (congrArg (fun m => counts (tget ({} : Mvmt) m k)) mv).trans (et k)⟩

theorem SameWork.refl (s : State) : SameWork s s := ⟨.refl s, rfl⟩

theorem SameWork.trans {r s t : State} (h : SameWork r s) (k : SameWork s t) : SameWork r t :=
  ⟨h.toSameBeats.trans k.toSameBeats, k.work.trans h.work⟩

/-- A change outside the channels, the movements and the running step. -/
theorem SameWork.upd {s t u : State} (h : SameWork s t) (chan : u.chan = t.chan) (mv : u.mv = t.mv) (run : u.run = t.run) :
    SameWork s u :=
  ⟨h.toSameBeats.upd chan mv, (congrArg (Option.map fun r : Run => (r.flights, r.settled)) run).trans h.work⟩

variable {s t u : State}

theorem SameWork.ite {c : Prop} [Decidable c] (ht : SameWork s t) (hu : SameWork s u) : SameWork s (if c then t else u) := by
  split
  · exact ht
  · exact hu

theorem SameWork.foldl {α : Type} {f : State → α → State} (hf : ∀ t a, SameWork s t → SameWork s (f t a)) (l : List α)
    (h : SameWork s t) : SameWork s (l.foldl f t) := by
  induction l generalizing t with
  | nil => exact h
  | cons a l ih => exact ih (hf t a h)

/-- A change of the running step that leaves the work in flight. -/
theorem SameWork.onRun (h : SameWork s t) {f : Run → Run} (hf : ∀ r, ((f r).flights, (f r).settled) = (r.flights, r.settled)) :
    SameWork s (t.onRun f) := by
  refine ⟨h.toSameBeats.upd rfl rfl, ?_⟩
  rw [← h.work, inFlight, inFlight, State.onRun, Option.map_map]
  exact congrArg (Option.map · t.run) (funext hf)

theorem SameWork.logs (h : SameWork s t) (k : Logs t u) : SameWork s u :=
  h.upd (eq_of_logs State.chan (fun _ _ => rfl) k) (eq_of_logs State.mv (fun _ _ => rfl) k) k.run

theorem risingFrom_tset {α : Type} [DecidableEq α] (d : α) {m : Tbl α} (k : Nat) (x : α) (h : risingFrom 0 m = true) :
    risingFrom 0 (tset d m k x) = true := by
  unfold tset
  split
  · exact risingFrom_tdel m k 0 h
  · exact risingFrom_tput m k 0 x h (Nat.zero_le k)

theorem mvOf_setMv (h : risingFrom 0 s.mv = true) (n : Nat) (m : Mvmt) : (s.setMv n m).mvOf n = m :=
  tget_tset ({} : Mvmt) s.mv n 0 m h

theorem mvOf_setMv_ne (s : State) {n k : Nat} (m : Mvmt) (h : k ≠ n) : (s.setMv n m).mvOf k = s.mvOf k :=
  tget_tset_ne ({} : Mvmt) s.mv n k m h

/-- A movement's counts after a write of a movement that leaves them. -/
theorem counts_setMv (h : risingFrom 0 s.mv = true) {n : Nat} {m : Mvmt} (hm : counts m = counts (s.mvOf n)) (k : Nat) :
    counts ((s.setMv n m).mvOf k) = counts (s.mvOf k) := by
  by_cases e : k = n
  · rw [e, mvOf_setMv h, hm]
  · rw [mvOf_setMv_ne s m e]

theorem SameBeats.setMv (h : SameBeats s t) {n : Nat} {m : Mvmt} (hm : counts m = counts (t.mvOf n)) :
    SameBeats s (t.setMv n m) := by
  refine ⟨h.chan, fun rising => ?_⟩
  obtain ⟨rt, et⟩ := h.mv rising
  exact ⟨risingFrom_tset _ n m rt, fun k => (counts_setMv rt hm k).trans (et k)⟩

theorem SameWork.setMv (h : SameWork s t) {n : Nat} {m : Mvmt} (hm : counts m = counts (t.mvOf n)) :
    SameWork s (t.setMv n m) :=
  ⟨h.toSameBeats.setMv hm, h.work⟩

theorem SameWork.setMat (h : SameWork s t) {n : Nat} {m : Matrix} : SameWork s (t.setMat n m) := h.upd rfl rfl rfl
theorem SameWork.setVec (h : SameWork s t) {n : Nat} {m : Vector} : SameWork s (t.setVec n m) := h.upd rfl rfl rfl
theorem SameWork.setQ (h : SameWork s t) {k : Nat} {q : Queue} : SameWork s (t.setQ k q) := h.upd rfl rfl rfl
theorem SameWork.bump (h : SameWork s t) : SameWork s t.bump := h.upd rfl rfl rfl

/-! ### Events, flags and the scratch -/

theorem raise_sameWork (h : SameWork s t) {c : Nat} {l : W64} {d : Bytes} {p : Option PlanPos} :
    SameWork s (raise t c l d p) :=
  h.logs (raise_logs ..)

theorem raiseFlags_sameWork (h : SameWork s t) {f : Nat} {pos : PlanPos} : SameWork s (raiseFlags t f pos) :=
  h.onRun fun _ => rfl

theorem deviceFault_sameWork (h : SameWork s t) {c : Nat} {l : W64} : SameWork s (deviceFault t c l) :=
  h.onRun fun _ => rfl

theorem checksumFault_sameWork (h : SameWork s t) {n kind : Nat} {row : Option Nat} {pos : PlanPos} :
    SameWork s (checksumFault t n kind row pos) :=
  (raise_sameWork h).onRun fun _ => rfl

theorem writeBytes_sameWork (h : SameWork s t) {a b : Nat} {bs : List (Nat × Byte)} : SameWork s (t.writeBytes a b bs) :=
  h.setMv rfl

theorem writeRows_sameWork (h : SameWork s t) {ws : List (Nat × Nat × Bytes)} : SameWork s (t.writeRows ws) :=
  SameWork.foldl (fun _ _ h => writeBytes_sameWork h) ws h

theorem writeRange_sameWork (h : SameWork s t) {a b : Nat} {bs : Bytes} : SameWork s (writeRange t a b bs) :=
  SameWork.foldl (fun _ _ h => writeBytes_sameWork h) _ h

/-! ### Matrix arrays (R186, R189, R192) -/

theorem eccEvents_sameWork (h : SameWork s t) {loc : Nat → Option Nat → W64} {weak : Tbl Nat} {bad : List Nat} :
    SameWork s (eccEvents t loc weak bad) := by
  have corrected := SameWork.foldl (f := fun s (e : Nat × Nat) => raise s 0x0107 (loc e.1 (some e.2)))
    (fun _ _ h => raise_sameWork h) weak h
  cases bad with
  | nil => exact corrected
  | cons w _ => exact deviceFault_sameWork (raise_sameWork corrected)

theorem eccAcc_sameWork (h : SameWork s t) {n : Nat} {ws : List Nat} : SameWork s (eccAcc t n ws) :=
  eccEvents_sameWork h.setMat

theorem eccTile_sameWork (h : SameWork s t) {n : Nat} {buf : Bool} {reads : Nat → Bool} :
    SameWork s (eccTile t n buf reads) :=
  eccEvents_sameWork h.setMat

theorem applyEff_sameWork (h : SameWork s t) {n : Nat} {e : AccEff} : SameWork s (applyEff n t e) :=
  raiseFlags_sameWork (SameWork.setMat (.ite (eccAcc_sameWork h) h))

theorem applyEffs_sameWork (h : SameWork s t) {b : Nat} : SameWork s (applyEffs t b) :=
  SameWork.foldl (fun _ _ h => .ite h (SameWork.foldl (fun _ _ h => applyEff_sameWork h) _ h.setMat)) _ h

theorem tileLoadEnd_sameWork (h : SameWork s t) {v src : Nat} {st : Int} {buf chk : Bool} {pos : PlanPos} :
    SameWork s (tileLoadEnd v src st buf chk pos t) :=
  .ite (checksumFault_sameWork h.setMat) h.setMat

theorem tileScalesEnd_sameWork (h : SameWork s t) {v src : Nat} {buf : Bool} {pos : PlanPos} :
    SameWork s (tileScalesEnd v src buf pos t) :=
  h.setMat

theorem streamStep_sameWork (h : SameWork s t) {v a acc : Nat} {buf start sub : Bool} {afmt bfmt : Nat} {chk : Bool}
    {anchor : Int} {ascale : Nat} {pos : PlanPos} {i : Nat} :
    SameWork s (streamStep v a acc buf start sub afmt bfmt chk anchor ascale pos t i) := by
  exact .ite (raiseFlags_sameWork (eccTile_sameWork h).setMat)
    (checksumFault_sameWork (raiseFlags_sameWork (eccTile_sameWork h).setMat))

theorem clearRow_sameWork (h : SameWork s t) {clear : Bool} {row n : Nat} : SameWork s (clearRow clear row t n) :=
  .ite h.setMat h

theorem drainStep_sameWork (h : SameWork s t) {v d acc ofmt mode : Nat} {sat clear : Bool} {anchor : Int} {seed : Nat}
    {pos : PlanPos} {k : Nat} : SameWork s (drainStep v d acc ofmt mode sat clear anchor seed pos t k) := by
  exact clearRow_sameWork (.ite (writeBytes_sameWork (raiseFlags_sameWork (eccAcc_sameWork h)))
    (writeRows_sameWork (raiseFlags_sameWork (eccAcc_sameWork h))))

theorem drainWideStep_sameWork (h : SameWork s t) {v d acc : Nat} {clear : Bool} {pos : PlanPos} {k : Nat} :
    SameWork s (drainWideStep v d acc clear pos t k) :=
  clearRow_sameWork (writeRows_sameWork (eccAcc_sameWork h))

theorem accLoadStep_sameWork (h : SameWork s t) {v a acc : Nat} {add : Bool} {pos : PlanPos} {i : Nat} :
    SameWork s (accLoadStep v a acc add pos t i) :=
  h.setMat

/-! ### Vector units (R199, R208 to R213) -/

theorem contributeTo_sameWork (h : SameWork s t) {v i : Nat} {k : TKind} {items : List (Val × Nat)} {anchor : Int}
    {start int : Bool} {pos : PlanPos} : SameWork s (contributeTo t v i k items anchor start int pos) := by
  unfold contributeTo
  dsimp only
  split
  · exact h
  · exact raiseFlags_sameWork h.setVec

theorem passGroup_sameWork (h : SameWork s t) {m : VMode} {c : W32 × Bool} {f : VFun} {d : Nat} {a : Option Nat} {bs : BSrc}
    {pos : PlanPos} {g : Nat} : SameWork s (passGroup t m c f d a bs pos g).1 := by
  unfold passGroup
  dsimp only
  split
  · exact (writeRows_sameWork (raiseFlags_sameWork h)).bump
  · exact writeRows_sameWork (raiseFlags_sameWork h)

theorem tapGroup_sameWork (h : SameWork s t) {v ofmt : Nat} {tap : Tap} {bytes : Bytes} {pos : PlanPos} {g : Nat} :
    SameWork s (tapGroup v ofmt tap bytes pos g t) :=
  contributeTo_sameWork h

theorem passPart_sameWork (h : SameWork s t) {f : Flight} {fn : VFun} {d : Nat} {a : Option Nat} {b : BSrc} {m : VMode}
    {tap : Option Tap} : SameWork s (passPart f fn d a b m tap t).1 := by
  unfold passPart
  dsimp only
  split
  · exact passGroup_sameWork h
  · cases tap with
    | none => exact h
    | some x => exact tapGroup_sameWork h

theorem tloadEnd_sameWork (h : SameWork s t) {v tally : Nat} {fn : Bool} {anchor : Int} {mult : W32} {pos : PlanPos} :
    SameWork s (tloadEnd v tally fn anchor mult pos t) :=
  raiseFlags_sameWork h.setVec

theorem reduceGroup_sameWork (h : SameWork s t) {v a : Nat} {b : Option Nat} {k : TKind} {item : RItem}
    {afmt bfmt base tally : Nat} {anchor : Int} {start : Bool} {pos : PlanPos} {g : Nat} :
    SameWork s (reduceGroup v a b k item afmt bfmt base tally anchor start pos t g) :=
  contributeTo_sameWork (raiseFlags_sameWork h)

theorem raddwStep_sameWork (h : SameWork s t) {v : Nat} {row : Bytes} {pos : PlanPos} {i : Nat} :
    SameWork s (raddwStep v row pos t i) := by
  unfold raddwStep
  dsimp only
  split
  · exact h
  · exact raiseFlags_sameWork h.setVec

theorem raddwEnd_sameWork (h : SameWork s t) {v a : Nat} {mask : W16} {pos : PlanPos} :
    SameWork s (raddwEnd v a mask pos t) :=
  SameWork.foldl (fun _ _ h => raddwStep_sameWork h) _ h

theorem rstoreEnd_sameWork (h : SameWork s t) {v d : Nat} {mask : W16} {rounded : Bool} {ofmt round : Nat} {sat : Bool}
    {anchor : Int} {seed : Nat} {pos : PlanPos} :
    SameWork s (rstoreEnd v d mask rounded ofmt round sat anchor seed pos t) :=
  raiseFlags_sameWork (writeBytes_sameWork h)

/-! ### Skivers, companions and bridles (R103, R215 to R218, R332) -/

theorem transposeEnd_sameWork (h : SameWork s t) {d a : Nat} {sr dr : Int} {bits : Nat} {pos : PlanPos} :
    SameWork s (transposeEnd d a sr dr bits pos t) := by
  unfold transposeEnd
  exact writeRows_sameWork h

theorem convertStep_sameWork (h : SameWork s t) {d a i o mode : Nat} {sat : Bool} {k : Skiver} {pos : PlanPos} {g : Nat} :
    SameWork s (convertStep d a i o mode sat k pos t g) :=
  .ite (writeRange_sameWork (writeRange_sameWork h)) (raiseFlags_sameWork (writeRange_sameWork (writeRange_sameWork h)))

theorem convertSeg_sameWork (h : SameWork s t) {d a i mode : Nat} {k : Skiver} {pos : PlanPos} {x : Nat} :
    SameWork s (convertSeg d a i mode k pos t x) :=
  raiseFlags_sameWork (writeRange_sameWork (writeRange_sameWork (writeRange_sameWork h)))

theorem sourceEnd_sameWork (h : SameWork s t) {v q : Nat} {rows : List Bytes} {pos : PlanPos} :
    SameWork s (sourceEnd v q rows pos t) := by
  unfold sourceEnd
  split
  · exact h.setQ
  · exact h

theorem fsendEff_sameWork (h : SameWork s t) {die flow fb queue : Nat} {rows : List Bytes} {pos : PlanPos} :
    SameWork s (fsendEff t die flow fb queue rows pos) := by
  unfold fsendEff
  split
  · exact h
  · exact .ite h (h.upd rfl rfl rfl)

theorem noteWrite_sameWork (h : SameWork s t) {buf off : Nat} {rows : List Bytes} {pos : PlanPos} :
    SameWork s (noteWrite t buf off rows pos) :=
  .ite h (h.upd rfl rfl rfl)

theorem sourcePart_sameWork (h : SameWork s t) {v q : Nat} {op : Instr} {rows : List (Nat × Nat)} {pos : PlanPos} :
    SameWork s (sourcePart v q op rows pos t) := by
  have read := fun data => sourceEnd_sameWork (v := v) (q := q) (rows := data) (pos := pos) h
  unfold sourcePart
  dsimp only
  split
  · exact fsendEff_sameWork (read _)
  · exact noteWrite_sameWork (read _)
  · exact read _

theorem setBSlot_sameWork (h : SameWork s t) {k : Nat} {b : BSlot} : SameWork s (setBSlot t k b) := h.onRun fun _ => rfl

theorem selectEnd_sameWork (h : SameWork s t) {z key result vocabM1 lfmt : Nat} {pos : PlanPos} :
    SameWork s (selectEnd z key result vocabM1 lfmt pos t) := by
  unfold selectEnd
  dsimp only
  split
  · split
    · exact (setBSlot_sameWork (writeBytes_sameWork (raiseFlags_sameWork h))).bump
    · exact (setBSlot_sameWork (writeBytes_sameWork h)).bump
  · exact (writeBytes_sameWork h).bump

/-- A part of an op's work leaves the channels, the counts and the work in flight. -/
theorem doPart_sameWork (h : SameWork s t) (f : Flight) : SameWork s (doPart f t).1 := by
  obtain ⟨pos, opAddr, work, next, c, held⟩ := f
  cases work with
  | tileLoad => exact tileLoadEnd_sameWork h
  | tileScales => exact tileScalesEnd_sameWork h
  | stream => exact streamStep_sameWork h
  | drain => exact drainStep_sameWork h
  | drainWide => exact drainWideStep_sameWork h
  | accLoad => exact accLoadStep_sameWork h
  | pass => exact passPart_sameWork h
  | setT => exact h.setVec
  | tload => exact tloadEnd_sameWork h
  | reduce => exact reduceGroup_sameWork h
  | raddw => exact raddwEnd_sameWork h
  | rstore => exact rstoreEnd_sameWork h
  | transpose => dsimp only [doPart]; exact transposeEnd_sameWork h
  | retile => exact writeRows_sameWork h
  | convert => exact .ite (convertSeg_sameWork h) (convertStep_sameWork h)
  | source => exact sourcePart_sameWork h
  | select => exact selectEnd_sameWork h

end Sys2Proof.Proofs
end

section
/-!
How the parts of ops settle beat by beat (R43, R103, R189).
-/

namespace Sys2Proof.Proofs

open Sys2Proof.Machine

variable {s t : State}

/-! ### The work in flight -/

theorem flights_eq (s : State) : s.flights = ((inFlight s).map (·.1)).getD [] := by
  rw [inFlight, Option.map_map]; rfl

theorem settled_eq (s : State) : s.settled = ((inFlight s).map (·.2)).getD 0 := by
  rw [inFlight, Option.map_map]; rfl

theorem inFlight_isSome (s : State) : (inFlight s).isSome = s.run.isSome := Option.isSome_map

theorem SameWork.flights (h : SameWork s t) : t.flights = s.flights := by rw [flights_eq, h.work, ← flights_eq]

theorem SameWork.running (h : SameWork s t) : t.run.isSome = s.run.isSome := by
  rw [← inFlight_isSome, h.work, inFlight_isSome]

/-! ### One part -/

/-- A part done leaves its op's work and plan position. -/
theorem doPart_flight (f : Flight) (s : State) : (doPart f s).2.work = f.work ∧ (doPart f s).2.pos = f.pos := by
  obtain ⟨pos, opAddr, work, next, c, held⟩ := f
  cases work with
  | pass =>
    dsimp only [doPart, passPart]
    split
    · exact ⟨rfl, rfl⟩
    · split <;> exact ⟨rfl, rfl⟩
  | _ => exact ⟨rfl, rfl⟩

/-- An op's parts lie at rising beats. -/
theorem partAt_lt (w : Work) (b k : Nat) (h : k + 1 < w.parts) : w.partAt b k < w.partAt b (k + 1) := by
  cases w with
  | convert d a g i o mode sat sk =>
    by_cases aq8 : o = 0x11
    · simp only [Work.partAt, aq8, if_true]; omega
    · simp only [Work.partAt, aq8, if_false]; omega
  | stream | drain | drainWide | accLoad | pass | reduce => simp only [Work.partAt]; omega
  | tileLoad | tileScales | setT | tload | raddw | rstore | transpose | retile | source | select =>
    simp only [Work.parts] at h; omega

/-- `g` is what is left of `f` when its next part has been done (R43). -/
structure Advanced (f g : Flight) : Prop where
  work : g.work = f.work
  pos : g.pos = f.pos
  next : g.next = f.next + 1
  left : g.left = true

theorem Advanced.due_lt {f g : Flight} (h : Advanced f g) : f.due < g.due := by
  have more : f.next + 1 < f.work.parts := by
    have left := h.left
    rwa [Flight.left, h.next, h.work, decide_eq_true_eq] at left
  rw [Flight.due, Flight.due, h.work, h.pos, h.next]
  exact partAt_lt f.work f.pos.beat f.next more

/-! ### The parts of a beat -/

variable {b : Nat}

theorem settleFlight_of_later {f : Flight} (h : b < f.due) (x : State × List Flight) :
    settleFlight b x f = (x.1, x.2 ++ [f]) :=
  if_neg (Nat.not_le.2 h)

/-- A flight that is due has its part done, and goes on where it has another. -/
theorem settleFlight_of_due {f : Flight} (h : f.due ≤ b) (x : State × List Flight) :
    (settleFlight b x f).1 = (doPart f x.1).1 ∧
      ((settleFlight b x f).2 = x.2 ∨ ∃ g, Advanced f g ∧ (settleFlight b x f).2 = x.2 ++ [g]) := by
  obtain ⟨work, pos⟩ := doPart_flight f x.1
  rw [settleFlight, if_pos h]
  refine ⟨rfl, ?_⟩
  let g : Flight := { (doPart f x.1).2 with next := f.next + 1 }
  by_cases left : g.left = true
  · exact .inr ⟨g, ⟨work, pos, rfl, left⟩, if_pos left⟩
  · exact .inl (if_neg left)

theorem settleFlights_sameWork (fs : List Flight) (x : State × List Flight) :
    SameWork x.1 (fs.foldl (settleFlight b) x).1 := by
  induction fs generalizing x with
  | nil => exact .refl _
  | cons f fs ih =>
    refine SameWork.trans ?_ (ih (settleFlight b x f))
    by_cases h : f.due ≤ b
    · rw [(settleFlight_of_due h x).1]; exact doPart_sameWork (.refl _) f
    · rw [settleFlight_of_later (Nat.not_le.1 h)]; exact .refl _

/-- What is in flight after a beat stood there before, lies later, or is an op that has done its part of the beat. -/
theorem mem_settleFlights {fs : List Flight} {x : State × List Flight} {g : Flight}
    (hg : g ∈ (fs.foldl (settleFlight b) x).2) :
    g ∈ x.2 ∨ (g ∈ fs ∧ b < g.due) ∨ ∃ f ∈ fs, f.due ≤ b ∧ Advanced f g := by
  induction fs generalizing x with
  | nil => exact .inl hg
  | cons f fs ih =>
    rcases ih hg with old | ⟨later, due⟩ | ⟨e, he, due, adv⟩
    · by_cases h : f.due ≤ b
      · rcases (settleFlight_of_due h x).2 with done | ⟨e, adv, more⟩
        · exact .inl (done ▸ old)
        · rw [more] at old
          rcases List.mem_append.1 old with old | new
          · exact .inl old
          · exact .inr (.inr ⟨f, List.mem_cons_self, h, List.mem_singleton.1 new ▸ adv⟩)
      · rw [settleFlight_of_later (Nat.not_le.1 h)] at old
        rcases List.mem_append.1 old with old | new
        · exact .inl old
        · rw [List.mem_singleton.1 new]
          exact .inr (.inl ⟨List.mem_cons_self, Nat.not_le.1 h⟩)
    · exact .inr (.inl ⟨List.mem_cons_of_mem f later, due⟩)
    · exact .inr (.inr ⟨e, List.mem_cons_of_mem f he, due, adv⟩)

/-- With nothing due, a beat leaves everything in flight. -/
theorem settleFlights_of_later {fs : List Flight} (h : ∀ f ∈ fs, b < f.due) (x : State × List Flight) :
    (fs.foldl (settleFlight b) x).2 = x.2 ++ fs := by
  induction fs generalizing x with
  | nil => exact (List.append_nil _).symm
  | cons f fs ih =>
    rw [List.foldl_cons, settleFlight_of_later (h f List.mem_cons_self), ih fun g hg => h g (List.mem_cons_of_mem f hg),
      List.append_assoc]
    rfl

theorem mem_settleFlights_of_mem {fs : List Flight} {x : State × List Flight} {g : Flight} (hg : g ∈ x.2) :
    g ∈ (fs.foldl (settleFlight b) x).2 := by
  induction fs generalizing x with
  | nil => exact hg
  | cons f fs ih =>
    refine ih ?_
    by_cases h : f.due ≤ b
    · rcases (settleFlight_of_due h x).2 with done | ⟨e, -, more⟩
      · exact done ▸ hg
      · exact more ▸ List.mem_append_left [e] hg
    · rw [settleFlight_of_later (Nat.not_le.1 h)]
      exact List.mem_append_left [f] hg

/-- What lies later is left as it stands. -/
theorem mem_settleFlights_of_later {fs : List Flight} {x : State × List Flight} {f : Flight} (hf : f ∈ fs) (h : b < f.due) :
    f ∈ (fs.foldl (settleFlight b) x).2 := by
  obtain ⟨as, bs, rfl⟩ := List.append_of_mem hf
  rw [List.foldl_append, List.foldl_cons, settleFlight_of_later h]
  exact mem_settleFlights_of_mem (List.mem_append_right _ List.mem_cons_self)

/-! ### A beat settled -/

/-- The state and the flights once the parts of a beat are done, before the step's record takes them. -/
def partsDone (s : State) (b : Nat) : State × List Flight :=
  s.flights.foldl (settleFlight b) (applyEffs s b, [])

theorem settleBeat_eq (s : State) (b : Nat) :
    settleBeat s b = (partsDone s b).1.onRun fun r => { r with flights := (partsDone s b).2, settled := b + 1 } := by
  have same : (applyEffs s b).flights = s.flights := (applyEffs_sameWork (.refl s)).flights
  rw [settleBeat, same]
  rfl

theorem partsDone_sameWork (s : State) (b : Nat) : SameWork s (partsDone s b).1 :=
  (applyEffs_sameWork (.refl s)).trans (settleFlights_sameWork s.flights (applyEffs s b, []))

theorem settleBeat_sameBeats (s : State) (b : Nat) : SameBeats s (settleBeat s b) := by
  rw [settleBeat_eq]
  exact (partsDone_sameWork s b).toSameBeats.upd rfl rfl

theorem settleBeat_inFlight (h : s.run.isSome = true) (b : Nat) :
    inFlight (settleBeat s b) = some ((partsDone s b).2, b + 1) := by
  have run : (partsDone s b).1.run.isSome = true := (partsDone_sameWork s b).running.trans h
  obtain ⟨r, hr⟩ := Option.isSome_iff_exists.1 run
  rw [settleBeat_eq, inFlight, State.onRun, hr]
  rfl

theorem settleBeat_flights (h : s.run.isSome = true) (b : Nat) : (settleBeat s b).flights = (partsDone s b).2 := by
  rw [flights_eq, settleBeat_inFlight h]; rfl

theorem settleBeat_settled (h : s.run.isSome = true) (b : Nat) : (settleBeat s b).settled = b + 1 := by
  rw [settled_eq, settleBeat_inFlight h]; rfl

theorem settleBeat_running (h : s.run.isSome = true) (b : Nat) : (settleBeat s b).run.isSome = true := by
  rw [← inFlight_isSome, settleBeat_inFlight h]; rfl

/-- No work of a beat below `b` is left, and every flight has work. -/
def LeftFrom (b : Nat) (fs : List Flight) : Prop := ∀ f ∈ fs, b ≤ f.due ∧ f.left = true

/-- Once a beat is settled, all that is left lies past it. -/
theorem settleBeat_leftFrom (h : s.run.isSome = true) (hf : LeftFrom b s.flights) :
    LeftFrom (b + 1) (settleBeat s b).flights := by
  intro g hg
  rw [settleBeat_flights h] at hg
  rcases mem_settleFlights hg with none | ⟨later, due⟩ | ⟨f, mem, -, adv⟩
  · exact nomatch none
  · exact ⟨due, (hf g later).2⟩
  · exact ⟨Nat.lt_of_le_of_lt (hf f mem).1 adv.due_lt, adv.left⟩

theorem mem_settleBeat_of_later (h : s.run.isSome = true) {f : Flight} (hf : f ∈ s.flights) (due : b < f.due) :
    f ∈ (settleBeat s b).flights := by
  rw [settleBeat_flights h]
  exact mem_settleFlights_of_later hf due

theorem settleBeat_flights_of_later (h : s.run.isSome = true) (later : ∀ f ∈ s.flights, b < f.due) :
    (settleBeat s b).flights = s.flights := by
  rw [settleBeat_flights h, partsDone, settleFlights_of_later later]
  rfl

/-- Settling does the parts that lie at the beat and no other. -/
theorem settleBeat_does_due (h : s.run.isSome = true) (hf : LeftFrom b s.flights) {g : Flight}
    (hg : g ∈ (settleBeat s b).flights) : g ∈ s.flights ∨ ∃ f ∈ s.flights, f.due = b ∧ Advanced f g := by
  rw [settleBeat_flights h] at hg
  rcases mem_settleFlights hg with none | ⟨later, -⟩ | ⟨f, mem, due, adv⟩
  · exact nomatch none
  · exact .inl later
  · exact .inr ⟨f, mem, Nat.le_antisymm due (hf f mem).1, adv⟩

/-- Beats settled one after the other. -/
theorem settleBeats (n : Nat) (h : s.run.isSome = true) (hf : LeftFrom s.settled s.flights) :
    (let t := (List.range n).foldl (fun s _ => settleBeat s s.settled) s
     t.run.isSome = true ∧ t.settled = s.settled + n ∧ LeftFrom t.settled t.flights) := by
  induction n with
  | zero => exact ⟨h, rfl, hf⟩
  | succ n ih =>
    obtain ⟨run, settled, left⟩ := ih
    rw [List.range_succ, List.foldl_append]
    refine ⟨settleBeat_running run _, ?_, ?_⟩
    · rw [List.foldl_cons, List.foldl_nil, settleBeat_settled run, settled, Nat.add_assoc]
    · rw [List.foldl_cons, List.foldl_nil, settleBeat_settled run]
      exact settleBeat_leftFrom run left

/-- Settles O41: a beat does what is due at it and moves each of those ops on to a later part; beat after beat, nothing below
the settled beat is left. -/
theorem workSettlesAtItsBeats : Obligations.WorkSettlesAtItsBeats := by
  intro s run
  refine ⟨fun b left => ⟨settleBeat_settled run b, settleBeat_leftFrom run left, fun f => mem_settleBeat_of_later run,
    fun g hg => ?_, settleBeat_flights_of_later run⟩, fun b le left => ?_⟩
  · rcases settleBeat_does_due run left hg with old | ⟨f, mem, due, adv⟩
    · exact .inl old
    · exact .inr ⟨f, mem, due, adv.work, adv.pos, adv.next⟩
  · obtain ⟨-, settled, above⟩ := settleBeats (b - s.settled) run left
    have above : LeftFrom (settleTo s b).settled (settleTo s b).flights := above
    have reached : (settleTo s b).settled = b := settled.trans (Nat.add_sub_of_le le)
    rw [reached] at above
    exact ⟨reached, above⟩

end Sys2Proof.Proofs
end

section
/-!
The regulator's edge pattern (R51), the droop of a balance (R36), a silent channel (R42) and the regulator's estimates
(R49 to R53).
-/

namespace Sys2Proof.Proofs

open Sys2Proof.Machine Sys2Proof.Laws

/-! ### The pattern that withholds issues -/

section Ranks

open Finset

variable {α : Type} [LinearOrder α]

/-- How many of the first `n` numbers come before `p` by their keys. -/
def rankBy (key : ℕ → α) (n p : ℕ) : ℕ := #{q ∈ range n | key q < key p}

theorem rankBy_lt_rankBy (key : ℕ → α) {n p p' : ℕ} (hp : p < n) (h : key p < key p') :
    rankBy key n p < rankBy key n p' := by
  refine card_lt_card ((ssubset_iff_of_subset fun q hq => ?_).2 ⟨p, ?_, ?_⟩)
  · obtain ⟨hn, hk⟩ := mem_filter.1 hq
    exact mem_filter.2 ⟨hn, hk.trans h⟩
  · exact mem_filter.2 ⟨mem_range.2 hp, h⟩
  · exact fun hq => lt_irrefl _ (mem_filter.1 hq).2

theorem rankBy_injOn {key : ℕ → α} (inj : Function.Injective key) (n : ℕ) : Set.InjOn (rankBy key n) (range n) := by
  intro p hp p' hp' e
  refine inj (le_antisymm (not_lt.1 fun h => ?_) (not_lt.1 fun h => ?_))
  · exact (rankBy_lt_rankBy key (mem_range.1 hp') h).ne e.symm
  · exact (rankBy_lt_rankBy key (mem_range.1 hp) h).ne e

theorem rankBy_lt {key : ℕ → α} {n p : ℕ} (hp : p < n) : rankBy key n p < n := by
  refine (card_lt_card ((ssubset_iff_of_subset (filter_subset _ _)).2 ⟨p, mem_range.2 hp, ?_⟩)).trans_eq (card_range n)
  exact fun hq => lt_irrefl _ (mem_filter.1 hq).2

/-- The ranks of the first `n` numbers are those numbers in some order. -/
theorem image_rankBy {key : ℕ → α} (inj : Function.Injective key) (n : ℕ) : (range n).image (rankBy key n) = range n := by
  refine eq_of_subset_of_card_le (image_subset_iff.2 fun p hp => mem_range.2 (rankBy_lt (mem_range.1 hp))) ?_
  rw [card_image_of_injOn (rankBy_injOn inj n)]

theorem card_rankBy_lt {key : ℕ → α} (inj : Function.Injective key) {n m : ℕ} (h : m ≤ n) :
    #{p ∈ range n | rankBy key n p < m} = m := by
  have ranks : image (rankBy key n) {p ∈ range n | rankBy key n p < m} = range m := by
    rw [← filter_image (p := fun k => k < m), image_rankBy inj]
    ext k
    simp only [mem_filter, mem_range]
    omega
  rw [← card_image_of_injOn ((rankBy_injOn inj n).mono (coe_subset.2 (filter_subset _ _))), ranks, card_range]

end Ranks

theorem length_filter_range (f : Nat → Bool) (n : Nat) :
    ((List.range n).filter f).length = (Finset.filter (fun p => f p = true) (Finset.range n)).card := by
  show _ = ((List.range n).filter fun p => decide (f p = true)).length
  simp only [Bool.decide_eq_true]

/-- The order of the pattern of `m` of every 16 (R51): by rank, and by number within a rank. -/
def edgeKey (m p : Nat) : Lex (Nat × Nat) := toLex (Config.edgeRank m p, p)

theorem edgeKey_injective (m : Nat) : Function.Injective (edgeKey m) := fun _ _ h => (Prod.ext_iff.1 (toLex.injective h)).2

theorem edgeIssues_iff {m : Nat} (h : m < 16) (p : Nat) : edgeIssues m p = true ↔ rankBy (edgeKey m) 16 p < m := by
  have order : ∀ q, edgeKey m q < edgeKey m p ↔ (decide (Config.edgeRank m q < Config.edgeRank m p) ||
      (Config.edgeRank m q == Config.edgeRank m p && decide (q < p))) = true := by
    intro q
    simp [edgeKey, Prod.Lex.toLex_lt_toLex]
  have count : rankBy (edgeKey m) 16 p = ((List.range 16).filter fun q => decide (Config.edgeRank m q < Config.edgeRank m p) ||
      (Config.edgeRank m q == Config.edgeRank m p && decide (q < p))).length := by
    rw [rankBy, Finset.filter_congr fun q _ => order q, length_filter_range]
  rw [edgeIssues, ← count]
  simp [Nat.not_le.2 h]

theorem edgeIssues_count {m : Nat} (h : m ≤ 16) : ((List.range 16).filter (edgeIssues m)).length = m := by
  rcases Nat.lt_or_eq_of_le h with h | rfl
  · calc ((List.range 16).filter (edgeIssues m)).length
        = (Finset.filter (fun p => edgeIssues m p = true) (Finset.range 16)).card := length_filter_range _ _
      _ = (Finset.filter (fun p => rankBy (edgeKey m) 16 p < m) (Finset.range 16)).card := by
          rw [Finset.filter_congr fun p _ => edgeIssues_iff h p]
      _ = m := card_rankBy_lt (edgeKey_injective m) (Nat.le_of_lt h)
  · rfl

variable {s t : State}

/-! ### A droop of a balance, and a silent channel -/

theorem tfind_tput_isSome {α : Type} (k : Nat) (v : α) (m : Tbl α) : (tfind (tput k v m) k).isSome = true := by
  induction m with
  | nil => simp [tput, tfind]
  | cons e m ih =>
    rw [tput]
    split
    · simp [tfind]
    · split
      · simp [tfind]
      · rename_i ne
        rw [tfind, if_neg ne]
        exact ih

theorem latchPut_latches (s : State) (r : Rec) : (tfind (latchPut s r).latch (latchBit r)).isSome = true := by
  unfold latchPut
  extract_lets
  split <;> exact tfind_tput_isSome _ _ _

theorem setPath_latch (s : State) (p : Nat) (a : Path) : (s.setPath p a).latch = s.latch := rfl

theorem countDropped_latch (s : State) (k : Nat) : (countDropped s k).latch = s.latch := rfl

theorem noteSet_latch (s : State) (k : Nat) : (s.noteSet k).latch = s.latch := rfl

theorem countDrop_latch (s : State) (p : Nat) (r : Rec) : (countDrop s p r).latch = s.latch := by
  unfold countDrop
  rw [noteSet_latch, countDropped_latch, setPath_latch]

theorem offer_latch (s : State) (r : Rec) (p : Nat) : (offer s r p).latch = s.latch := by
  unfold offer
  extract_lets pa pa' q v
  split
  · split
    · exact setPath_latch s p _
    · split
      · exact (countDrop_latch _ p r).trans (setPath_latch s p _)
      · split
        · exact (countDrop_latch _ p _).trans (setPath_latch s p _)
        · exact setPath_latch s p _
  · rfl

theorem hubDrain_latch (n : Nat) (s : State) : (hubDrain n s).latch = s.latch := by
  induction n generalizing s with
  | zero => rfl
  | succ n ih =>
    unfold hubDrain
    split
    · split
      · rw [ih, passOn, offer_latch, offer_latch, offer_latch]
      · rfl
    · rfl

theorem deliver_latches (s : State) {r : Rec} (h : r.cls = 0) : (tfind (deliver s r).latch (latchBit r)).isSome = true := by
  unfold deliver
  extract_lets s1 r1 s2 grid s3 hub
  have latched : (tfind s2.latch (latchBit r1)).isSome = true := by
    rw [show s2 = latchAlarm s1 r1 from if_pos h]
    exact latchPut_latches _ _
  have same : s3.latch = s2.latch := by
    simp only [s3]
    split <;> rfl
  rw [hubRelease, hubDrain_latch]
  exact same ▸ latched

/-- An alarm raised stands latched at the bit of its code and its site (R524). -/
theorem raise_latches (s : State) {c : Nat} (l : W64) (h : eventClass c = 0) :
    (tfind (raise s c l).latch (16 * alarmOrdinal c + siteOf l)).isSome = true :=
  deliver_latches s (r := { code := c, cls := eventClass c, loc := l, stamp := s.chron.count }) h

theorem siteOf_cdLoc (n : Mv) : siteOf (cdLoc n 0x014) = 0 := by
  revert n; decide

/-- A droop sets the movement's rate; below 0.90 GHz it raises BEAT_FLOOR (R36). -/
theorem exec_supplyDroop (n : Mv) (replica : Nat) (h : risingFrom 0 s.mv = true) :
    (let rate := 100 * replica / (100 + s.tbl.balanceMarginPct)
     ∃ t, exec (.supplyDroop n replica) s = .next t ∧ { t.unlogged s with mv := s.mv } = s ∧
       t.mvOf n = { s.mvOf n with rate := rate } ∧ (∀ k, k ≠ n.val → t.mvOf k = s.mvOf k) ∧
       (90000 ≤ rate → { t with mv := s.mv } = s) ∧ (rate < 90000 → (tfind t.latch 0).isSome = true)) := by
  intro rate
  let drooped := s.setMv n { s.mvOf n with rate := rate }
  have run : exec (.supplyDroop n replica) s = .next (if rate < 90000 then raise drooped 0x0102 (cdLoc n 0x014) else drooped) :=
    rfl
  have back : { drooped with mv := s.mv } = s := by cases s; rfl
  by_cases low : rate < 90000
  · have logs : Logs drooped (raise drooped 0x0102 (cdLoc n 0x014)) := raise_logs _ _ _ _ _ _ _
    have mv : (raise drooped 0x0102 (cdLoc n 0x014)).mv = drooped.mv := eq_of_logs State.mv (fun _ _ => rfl) logs
    have mvOf : ∀ k, (raise drooped 0x0102 (cdLoc n 0x014)).mvOf k = drooped.mvOf k :=
      fun k => congrArg (tget ({} : Mvmt) · k) mv
    rw [if_pos low] at run
    refine ⟨_, run, ?_, (mvOf n).trans (mvOf_setMv h n _),
      fun k hk => (mvOf k).trans (mvOf_setMv_ne s _ hk), fun high => absurd low (Nat.not_lt.2 high), fun _ => ?_⟩
    · rw [unlogged_trans s _ _ logs]
      exact back
    · have bit := raise_latches drooped (c := 0x0102) (cdLoc n 0x014) rfl
      rwa [siteOf_cdLoc] at bit
  · rw [if_neg low] at run
    exact ⟨_, run, back, mvOf_setMv h n _, fun k hk => mvOf_setMv_ne s _ hk, fun _ => back,
      fun hl => absurd hl low⟩

theorem deviceFault_unissued (s t : State) (c : Nat) (l : W64) : (deviceFault t c l).unissued s = t.unissued s := rfl

/-- A channel silent too long ends the step with a device fault at its sender (R42). -/
theorem exec_balanceStop (n sender : Mv) {r : Run} (run : s.run = some r) (ok : r.fault = none)
    (silent : s.silent sender n = true) :
    ∃ t, exec (.balanceStop n sender) s = .next t ∧ t.unissued s = s ∧
      t.run = some { r with stopped := true
                            fault := some { loc := cdLoc sender 0x014, code := 0x0104, stamp := s.chron.count } } := by
  have logs : Logs s (raise s 0x0104 (cdLoc sender 0x014)) := raise_logs _ _ _ _ _ _ _
  refine ⟨_, if_pos silent, ?_, ?_⟩
  · rw [deviceFault_unissued, unissued_of_unlogged s _ s logs]
  · have chron : (raise s 0x0104 (cdLoc sender 0x014)).chron = s.chron := eq_of_logs State.chron (fun _ _ => rfl) logs
    rw [deviceFault, State.onRun, logs.run, run, chron, Option.map_some, ok]
    rfl

/-! ### The regulator's estimates -/

theorem rateLevel_setLevel (p : Power) (k : Nat) : (p.setLevel k).rateLevel = k := by
  unfold Power.setLevel Power.rateLevel
  by_cases below : k < 16
  · rw [if_pos below]
    exact if_pos below
  · rw [if_neg below]
    show 144 + (k - 16) - 144 + 16 = k
    omega

/-- What an estimate makes of the regulator's record of the last 10 ms (R49). -/
def estimatedPower (p : Power) (r : PowerReading) : Power :=
  { p with window := pushWindow p.window r.packageMw, deltas := pushDelta p.deltas r.deltaMa
           excursionNs := if 1000 * p.effLimit < r.packageMw then p.excursionNs + 20 else 0 }

/-- The regulator after an estimate: what it has recorded, and its rate level (R50). -/
def regulatedPower (s : State) (r : PowerReading) : Power :=
  let p := estimatedPower s.power r
  let exceeded := p.limitExceeded s.tbl.reg r
  { p with unheld := exceeded && p.rateLevel == 1 }.setLevel ({ s with power := p }.newLevel exceeded)

theorem setLevel_keeps (p : Power) (k : Nat) : ∃ c i, p.setLevel k = { p with ceiling := c, issue16 := i } := by
  unfold Power.setLevel
  split <;> exact ⟨_, _, rfl⟩

/-- An estimate with no rail above its maximum leaves the regulator so, and events of it (R50). -/
theorem exec_regulatorEstimate {r : PowerReading} (rail : r.overRail = none) :
    ∃ t, exec (.regulatorEstimate r) s = .next t ∧ { t.unissued s with power := s.power, free := s.free } = s ∧
      t.power = regulatedPower s r := by
  let p := estimatedPower s.power r
  let unheld := p.limitExceeded s.tbl.reg r && p.rateLevel == 1
  let regulated := regulatorTimes { s with power := regulatedPower s r }
  have logs : Logs regulated (if unheld && !p.unheld then raise regulated 0x0105 (cdLoc cMove 0x022) else regulated) := by
    split
    · exact raise_logs _ _ _ _ _ _ _
    · exact .refl _
  have eff : regulatorEff r s
      = (if unheld && !p.unheld then raise regulated 0x0105 (cdLoc cMove 0x022) else regulated).bump := by
    unfold regulatorEff
    rw [rail]
    rfl
  refine ⟨_, rfl, ?_, ?_⟩
  · rw [eff]
    generalize (if unheld && !p.unheld then raise regulated 0x0105 (cdLoc cMove 0x022) else regulated) = t at logs
    have frame : t.unlogged s = regulated.unlogged s := unlogged_trans s t regulated logs
    show { t.unlogged s with run := s.run, power := s.power, free := s.free } = s
    rw [frame]
    rfl
  · rw [eff]
    exact eq_of_logs State.power (fun _ _ => rfl) logs

/-- How the rate level moves (R50 to R53, log 88): down where a limit is exceeded and it can; ahead of a wake or sleep not up;
otherwise not down, and not at all while the ramp limit is used up. -/
theorem newLevel_moves (s : State) (exceeded : Bool) (lowest : s.power.lowest = false) (h1 : 1 ≤ s.power.rateLevel)
    (h160 : s.power.rateLevel ≤ 160) :
    (exceeded = true → 1 < s.power.rateLevel → s.newLevel exceeded < s.power.rateLevel) ∧
    (exceeded = false → s.wakeDue = false → s.power.rateLevel ≤ s.newLevel exceeded) ∧
    (exceeded = false → s.wakeDue = true → s.newLevel exceeded ≤ s.power.rateLevel) ∧
    (exceeded = false → s.wakeDue = false → 1000 * s.tbl.reg.rampAPerUs ≤ s.power.ramp →
      s.newLevel exceeded = s.power.rateLevel) := by
  have level : s.newLevel exceeded = if exceeded then (if s.power.rateLevel ≤ 1 then 1 else 1 + s.choice 4 0 % (s.power.rateLevel - 1))
      else if s.wakeDue then 1 + s.choice 4 0 % s.power.rateLevel
      else if 1000 * s.tbl.reg.rampAPerUs ≤ s.power.ramp then s.power.rateLevel
      else s.power.rateLevel + s.choice 4 0 % (161 - s.power.rateLevel) := by
    rw [State.newLevel, lowest]
    rfl
  generalize s.newLevel exceeded = k at level
  subst level
  refine ⟨fun e above => ?_, fun e w => ?_, fun e w => ?_, fun e w ramp => ?_⟩
  · rw [if_pos e, if_neg (Nat.not_le.2 above)]
    have := Nat.mod_lt (s.choice 4 0) (Nat.sub_pos_of_lt above)
    omega
  · rw [e, w, if_neg Bool.false_ne_true, if_neg Bool.false_ne_true]
    split <;> omega
  · rw [e, w, if_neg Bool.false_ne_true, if_pos rfl]
    have := Nat.mod_lt (s.choice 4 0) h1
    omega
  · rw [e, w, if_neg Bool.false_ne_true, if_neg Bool.false_ne_true, if_pos ramp]

/-- REGULATOR_ESTIMATE (R49 to R53): the estimate enters the window, and the rate level moves as the limits and the reports
say. -/
theorem regulatorEstimate_moves {r : PowerReading} (rail : r.overRail = none) (h1 : 1 ≤ s.power.rateLevel)
    (h160 : s.power.rateLevel ≤ 160) (lowest : s.power.lowest = false) :
    (let p := estimatedPower s.power r
     let exceeded := p.limitExceeded s.tbl.reg r
     ∃ t, exec (.regulatorEstimate r) s = .next t ∧
       { t.unissued s with power := s.power, free := s.free } = s ∧ t.power.window = p.window ∧
       t.power.deltas = p.deltas ∧ t.power.excursionNs = p.excursionNs ∧ t.power.thermal = s.power.thermal ∧
       (exceeded = true → 1 < s.power.rateLevel → t.power.rateLevel < s.power.rateLevel) ∧
       (exceeded = false → s.wakeDue = false → s.power.rateLevel ≤ t.power.rateLevel) ∧
       (exceeded = false → s.wakeDue = true → t.power.rateLevel ≤ s.power.rateLevel) ∧
       (exceeded = false → s.wakeDue = false → 1000 * s.tbl.reg.rampAPerUs ≤ p.ramp →
         t.power.rateLevel = s.power.rateLevel) ∧
       (t.power.unheld = true ↔ exceeded = true ∧ s.power.rateLevel = 1)) := by
  intro p exceeded
  obtain ⟨t, run, frame, power⟩ := exec_regulatorEstimate (s := s) rail
  let k := State.newLevel { s with power := p } exceeded
  have power : t.power = { p with unheld := exceeded && p.rateLevel == 1 }.setLevel k := power
  have level : t.power.rateLevel = k := by rw [power, rateLevel_setLevel]
  obtain ⟨c, i, keeps⟩ := setLevel_keeps { p with unheld := exceeded && p.rateLevel == 1 } k
  rw [keeps] at power
  obtain ⟨down, up, wake, ramp⟩ := newLevel_moves { s with power := p } exceeded lowest h1 h160
  refine ⟨t, run, frame, ?_, ?_, ?_, ?_, fun e a => level ▸ down e a, fun e w => level ▸ up e w, fun e w => level ▸ wake e w,
    fun e w a => level ▸ ramp e w a, ?_⟩
  · rw [power]
  · rw [power]
  · rw [power]
  · rw [power]; rfl
  · rw [power, Bool.and_eq_true, beq_iff_eq]
    rfl

end Sys2Proof.Proofs
end

section
/-!
What the end of a plan beat, the end of a step and the drain of the trace leave alone: the channels, and every movement's counts
of periods and plan beats (R37, R38, R45).
-/

namespace Sys2Proof.Proofs

open Sys2Proof.Machine Sys2Proof.Laws

variable {s t u : State}

theorem SameBeats.ite {c : Prop} [Decidable c] (ht : SameBeats s t) (hu : SameBeats s u) :
    SameBeats s (if c then t else u) := by
  split
  · exact ht
  · exact hu

theorem SameBeats.foldl {α : Type} {f : State → α → State} (hf : ∀ t a, SameBeats s t → SameBeats s (f t a)) (l : List α)
    (h : SameBeats s t) : SameBeats s (l.foldl f t) := by
  induction l generalizing t with
  | nil => exact h
  | cons a l ih => exact ih (hf t a h)

theorem SameBeats.logs (h : SameBeats s t) (k : Logs t u) : SameBeats s u :=
  h.upd (eq_of_logs State.chan (fun _ _ => rfl) k) (eq_of_logs State.mv (fun _ _ => rfl) k)

theorem SameBeats.onRun (h : SameBeats s t) (f : Run → Run) : SameBeats s (t.onRun f) := h.upd rfl rfl

theorem SameBeats.setQ (h : SameBeats s t) (k : Nat) (q : Queue) : SameBeats s (t.setQ k q) := h.upd rfl rfl

theorem SameBeats.setSeq (h : SameBeats s t) (v : Nat) (q : Seq) : SameBeats s (t.setSeq v q) := h.upd rfl rfl

theorem SameBeats.setTrace (h : SameBeats s t) (x : Trace) : SameBeats s { t with trace := x } := h.upd rfl rfl

theorem SameBeats.raise (h : SameBeats s t) {c : Nat} {l : W64} {d : Bytes} : SameBeats s (Machine.raise t c l d) :=
  h.logs (raise_logs _ _ _ _ _ _ _)

theorem SameBeats.hubRelease (h : SameBeats s t) : SameBeats s (Machine.hubRelease t) := h.logs (hubDrain_logs _ (.refl t))

/-! ### Stops -/

theorem SameBeats.requestStop (h : SameBeats s t) (cause : Nat) (ending : Bool) (floor : Nat) :
    SameBeats s (Machine.requestStop t cause ending floor) := by
  unfold Machine.requestStop
  exact .ite (h.upd rfl rfl) (h.upd rfl rfl)

theorem SameBeats.breach (h : SameBeats s t) (b : Breach) : SameBeats s (Machine.breach t b) := by
  unfold Machine.breach
  split
  · exact h
  · exact (h.onRun _).requestStop _ _ _

/-! ### The end of a plan beat -/

theorem SameBeats.moveRows (h : SameBeats s t) (v b : Nat) : SameBeats s (Machine.moveRows t v b) :=
  .foldl (fun _ _ h => .ite h (h.setQ _ _)) _ h

theorem SameBeats.reportWakes (h : SameBeats s t) (v a b : Nat) : SameBeats s (Machine.reportWakes t v a b) :=
  .ite h (h.onRun _)

theorem SameBeats.stampC (h : SameBeats s t) (n b : Nat) : SameBeats s (Machine.stampC t n b) := by
  unfold Machine.stampC
  extract_lets stamped
  have hs : SameBeats s stamped := .ite (h.onRun _) h
  split
  · exact hs.onRun _
  · exact hs

theorem SameBeats.detectCollisions (h : SameBeats s t) (v b : Nat) : SameBeats s (Machine.detectCollisions t v b) := by
  unfold Machine.detectCollisions
  split
  · exact .ite h ((h.onRun _).requestStop _ _ _)
  · exact h

theorem SameBeats.settleTo (h : SameBeats s t) (b : Nat) : SameBeats s (Machine.settleTo t b) :=
  .foldl (fun t _ h => h.trans (settleBeat_sameBeats t t.settled)) _ h

theorem SameBeats.foldPast (h : SameBeats s t) (n : Nat) : SameBeats s (Machine.foldPast t n) := by
  have folded : SameBeats s (t.setMv n ((t.mvOf n).fold t.readFloor)) := h.setMv rfl
  exact folded.onRun _

/-! ### The end of a step -/

theorem SameBeats.boundsAtEnd (h : SameBeats s t) : SameBeats s (Machine.boundsAtEnd t) :=
  .ite h (.foldl (fun _ _ h => .foldl (fun _ _ h => h.breach _) _ h) _ h)

theorem SameBeats.lateCollisions (h : SameBeats s t) : SameBeats s (Machine.lateCollisions t) := by
  unfold Machine.lateCollisions
  split
  · split
    · exact h
    · exact (h.onRun _).requestStop _ _ _
  · exact h

theorem SameBeats.moveAll (h : SameBeats s t) : SameBeats s (Machine.moveAll t) := h.upd rfl rfl

theorem SameBeats.stepPassed (h : SameBeats s t) : SameBeats s (Machine.stepPassed t) :=
  (h.settleTo _).moveAll.boundsAtEnd.lateCollisions.hubRelease

/-! ### The drain of the trace -/

theorem SameBeats.traceStore (h : SameBeats s t) (e : TraceEnt) : SameBeats s (Machine.traceStore t e) := by
  unfold Machine.traceStore
  extract_lets x stored
  split
  · exact .ite (.ite ((h.setTrace _).requestStop _ _ _) (h.setTrace _)) h
  · exact h.setTrace _
  · exact h.setTrace _

theorem SameBeats.traceDrain1 (h : SameBeats s t) (n : Nat) : SameBeats s (Machine.traceDrain1 t n) := by
  unfold Machine.traceDrain1
  extract_lets b
  split
  · exact h
  · exact .ite (.ite ((h.setTrace _).traceStore _ |>.setTrace _) (((h.setTrace _).traceStore _).setTrace _).raise)
      ((h.setTrace _).traceStore _)

theorem SameBeats.traceDrain (h : SameBeats s t) : SameBeats s (Machine.traceDrain t) := by
  have one : ∀ t, SameBeats s t → SameBeats s (match traceNext t with | some v => Machine.traceDrain1 t v | none => t) := by
    intro t h
    split
    · exact h.traceDrain1 _
    · exact h
  exact one _ (one _ (one _ (one _ h)))

end Sys2Proof.Proofs
end

section
/-!
The tokens of a plan beat (R38, R39): one is taken from each neighbour that has sent it, and one emitted to each that has not
passed the beat.
-/

namespace Sys2Proof.Proofs

open Sys2Proof.Machine Sys2Proof.Laws

/-! ### Channels changed one after another -/

section Updates

variable {α : Type} [DecidableEq α] (d : α) (keep : Nat → Prop) [DecidablePred keep] (key : Nat → Nat) (g : α → α)

/-- Change the entry of `u` by `g`, unless it is to be kept. -/
def updEntry (c : Tbl α) (u : Nat) : Tbl α := if keep u then c else tset d c (key u) (g (tget d c (key u)))

theorem updEntry_rising {c : Tbl α} (h : risingFrom 0 c = true) (u : Nat) :
    risingFrom 0 (updEntry d keep key g c u) = true := by
  unfold updEntry
  split
  · exact h
  · exact risingFrom_tset d _ _ h

theorem updEntry_same {c : Tbl α} (h : risingFrom 0 c = true) (u : Nat) :
    tget d (updEntry d keep key g c u) (key u) = if keep u then tget d c (key u) else g (tget d c (key u)) := by
  unfold updEntry
  split
  · rfl
  · exact tget_tset d c (key u) 0 _ h

theorem updEntry_ne (c : Tbl α) {u k : Nat} (h : k ≠ key u) : tget d (updEntry d keep key g c u) k = tget d c k := by
  unfold updEntry
  split
  · rfl
  · exact tget_tset_ne d c (key u) k _ h

theorem updEntries_rising (l : List Nat) {c : Tbl α} (h : risingFrom 0 c = true) :
    risingFrom 0 (l.foldl (updEntry d keep key g) c) = true := by
  induction l generalizing c with
  | nil => exact h
  | cons u l ih => exact ih (updEntry_rising d keep key g h u)

theorem updEntries_ne (l : List Nat) (c : Tbl α) {k : Nat} (h : ∀ u ∈ l, k ≠ key u) :
    tget d (l.foldl (updEntry d keep key g) c) k = tget d c k := by
  induction l generalizing c with
  | nil => rfl
  | cons u l ih =>
    rw [List.foldl_cons, ih _ fun x hx => h x (List.mem_cons_of_mem u hx), updEntry_ne d keep key g c (h u List.mem_cons_self)]

/-- Each entry of a list without repetition is changed once. -/
theorem updEntries_same {l : List Nat} (nodup : l.Nodup) (inj : Function.Injective key) {c : Tbl α}
    (h : risingFrom 0 c = true) {u : Nat} (hu : u ∈ l) :
    tget d (l.foldl (updEntry d keep key g) c) (key u) = if keep u then tget d c (key u) else g (tget d c (key u)) := by
  induction l generalizing c with
  | nil => exact nomatch hu
  | cons x l ih =>
    obtain ⟨fresh, nodup⟩ := List.nodup_cons.1 nodup
    rw [List.foldl_cons]
    rcases List.mem_cons.1 hu with rfl | mem
    · rw [updEntries_ne d keep key g l _ fun y hy e => fresh ((inj e : u = y) ▸ hy), updEntry_same d keep key g h]
    · rw [ih nodup (updEntry_rising d keep key g h x) mem,
        updEntry_ne d keep key g c fun e => fresh ((inj e : u = x) ▸ mem)]

end Updates

/-! ### Tokens in and out -/

variable {s : State}

/-- The channel to `n` from each neighbour, and from `n` to each. -/
def keyIn (n u : Nat) : Nat := 64 * u + n
def keyOut (n u : Nat) : Nat := 64 * n + u

theorem keyIn_injective (n : Nat) : Function.Injective (keyIn n) := fun a b h => by unfold keyIn at h; omega

theorem keyOut_injective (n : Nat) : Function.Injective (keyOut n) := fun a b h => by unfold keyOut at h; omega

theorem gridNeighbours_nodup (n : Mv) : (gridNeighbours n).Nodup := by
  revert n; decide

theorem gridNeighbours_lt_ne (n : Mv) : ∀ u ∈ gridNeighbours n, u < 64 ∧ u ≠ n := by
  revert n; decide

/-- A channel to `n` is none from it. -/
theorem keyIn_ne_keyOut (n : Mv) {u w : Nat} (hu : u ∈ gridNeighbours n) (hw : w ∈ gridNeighbours n) :
    keyIn n u ≠ keyOut n w := by
  obtain ⟨-, ne⟩ := gridNeighbours_lt_ne n u hu
  obtain ⟨lt, -⟩ := gridNeighbours_lt_ne n w hw
  have := n.isLt
  unfold keyIn keyOut
  omega

/-- Channels once the tokens of beat `b` are taken, and once a movement's own are emitted, those of a stream that has ended (R39,
R74); the movements stand as `m`. -/
def takenChan (m : Tbl Mvmt) (c : Tbl (List Token)) (n b : Nat) : Tbl (List Token) :=
  (gridNeighbours n).foldl (updEntry [] (fun u => (tget {} m u).beats ≤ b) (keyIn n) List.tail) c
def emittedChan (m : Tbl Mvmt) (c : Tbl (List Token)) (n b : Nat) : Tbl (List Token) :=
  (gridNeighbours n).foldl (updEntry [] (fun u => b < (tget {} m u).beats) (keyOut n)
    (· ++ [{ tag := BitVec.ofNat 6 b, data := none }])) c

theorem consumeTokens_eq (s : State) (n b : Nat) : consumeTokens s n b = { s with chan := takenChan s.mv s.chan n b } := by
  refine List.foldl_hom (fun c : Tbl (List Token) => { s with chan := c }) (init := s.chan) fun c u => ?_
  unfold updEntry
  by_cases later : (s.mvOf u).beats ≤ b
  · exact (if_pos later).trans (congrArg (fun c => { s with chan := c }) (if_pos later).symm)
  · exact (if_neg later).trans (congrArg (fun c => { s with chan := c }) (if_neg later).symm)

theorem tokenOf_of_ended (h : (s.seqOf (s.virt n)).ended.isSome = true) (u b : Nat) :
    tokenOf s n u b = { tag := BitVec.ofNat 6 b, data := none } := by
  rw [tokenOf, if_pos h]

theorem emitTokens_eq {n : Nat} (h : (s.seqOf (s.virt n)).ended.isSome = true) (b : Nat) :
    emitTokens s n b = { s with chan := emittedChan s.mv s.chan n b } := by
  refine List.foldl_hom (fun c : Tbl (List Token) => { s with chan := c }) (init := s.chan) fun c u => ?_
  have token : tokenOf { s with chan := c } n u b = { tag := BitVec.ofNat 6 b, data := none } := tokenOf_of_ended h u b
  rw [token]
  unfold updEntry
  by_cases passed : b < (s.mvOf u).beats
  · exact (if_pos passed).trans (congrArg (fun c => { s with chan := c }) (if_pos passed).symm)
  · exact (if_neg passed).trans (congrArg (fun c => { s with chan := c }) (if_neg passed).symm)

/-- The tokens of a plan beat: nothing but channels changes. -/
theorem tokens_eq {n : Nat} (h : (s.seqOf (s.virt n)).ended.isSome = true) (b : Nat) :
    emitTokens (consumeTokens s n b) n b
      = { s with chan := emittedChan s.mv (takenChan s.mv s.chan n b) n b } := by
  rw [consumeTokens_eq]
  exact emitTokens_eq (s := { s with chan := takenChan s.mv s.chan n b }) h b

variable {n : Mv} {u : Nat}

/-- The channel to `n` of a neighbour: one token shorter once it has sent beat `b`. -/
theorem tokens_in (rising : risingFrom 0 s.chan = true) (b : Nat) (hu : u ∈ gridNeighbours n) :
    tget [] (emittedChan s.mv (takenChan s.mv s.chan n b) n b) (64 * u + n)
      = if (s.mvOf u).beats ≤ b then s.chanOf u n else (s.chanOf u n).tail := by
  have emitted : tget [] (emittedChan s.mv (takenChan s.mv s.chan n b) n b) (64 * u + n)
      = tget [] (takenChan s.mv s.chan n b) (64 * u + n) :=
    updEntries_ne [] _ _ _ _ _ fun _ hw => keyIn_ne_keyOut n hu hw
  rw [emitted]
  exact updEntries_same [] _ _ _ (gridNeighbours_nodup n) (keyIn_injective n) rising hu

/-- The channel from `n` to a neighbour: one token longer unless it has passed beat `b`. -/
theorem tokens_out (rising : risingFrom 0 s.chan = true) (b : Nat) (hu : u ∈ gridNeighbours n) :
    tget [] (emittedChan s.mv (takenChan s.mv s.chan n b) n b) (64 * n + u)
      = if b < (s.mvOf u).beats then s.chanOf n u else s.chanOf n u ++ [{ tag := BitVec.ofNat 6 b, data := none }] := by
  have taken : tget [] (takenChan s.mv s.chan n b) (64 * n + u) = s.chanOf n u :=
    updEntries_ne [] _ _ _ _ _ fun _ hw => (keyIn_ne_keyOut n hw hu).symm
  rw [← taken]
  exact updEntries_same [] _ _ _ (gridNeighbours_nodup n) (keyOut_injective n) (updEntries_rising [] _ _ _ _ rising) hu

end Sys2Proof.Proofs
end

section
/-!
A balance period of a movement (R37, R39, R45, R51): what it counts, when it stalls, waits or issues a plan beat.
-/

namespace Sys2Proof.Proofs

open Sys2Proof.Machine Sys2Proof.Laws

variable {s : State}

/-! ### What holds a plan beat back -/

/-- What holds the movements' plan beats back is the same: the plan beats issued, the channels, the step, the time, the stop and
the sequencers (R39 to R41, R64, R74, R530, R531). -/
structure Alike (s t : State) : Prop where
  beats : ∀ u, (t.mvOf u).beats = (s.mvOf u).beats
  chan : t.chan = s.chan
  run : t.run = s.run
  chron : t.chron = s.chron
  stop : t.stop = s.stop
  seq : t.seq = s.seq

/-- The last plan beat of streams that end at given beats (R74). -/
def endOf (ended : Nat → Option Nat) : Option Nat :=
  (List.range 64).foldl (fun m v => match m, ended v with | some m, some e => some (max m e) | _, _ => none) (some 0)

theorem lastBeat_eq (s : State) : s.lastBeat = endOf fun v => (s.seqOf v).ended := rfl

section Alike

variable {t : State} (h : Alike s t)

include h

theorem Alike.floor1 : t.floor1 = s.floor1 := by simp only [State.floor1, State.beatsOf, h.beats]

theorem Alike.started (n b : Nat) : t.started n b = s.started n b := by simp only [State.started, h.beats, h.run, h.chron]

theorem Alike.mayIssue (b : Nat) : t.mayIssue b = s.mayIssue b := by simp only [State.mayIssue, h.floor1, h.stop]

theorem Alike.chanOf (u n : Nat) : t.chanOf u n = s.chanOf u n := congrArg (tget [] · (64 * u + n)) h.chan

theorem Alike.seqOf (v : Nat) : t.seqOf v = s.seqOf v := congrArg (tget ({} : Seq) · v) h.seq

theorem Alike.outputsFree (n : Nat) : t.outputsFree n = s.outputsFree n := by simp only [State.outputsFree, h.chanOf]

theorem Alike.inputs (n b : Nat) : t.inputs n b = s.inputs n b := by simp only [State.inputs, h.beats, h.chanOf]

theorem Alike.beatFree (n : Nat) : t.beatFree n = s.beatFree n := by
  simp only [State.beatFree, h.beats, h.started, h.mayIssue, h.outputsFree, h.inputs]

theorem Alike.lastBeat : t.lastBeat = s.lastBeat := by
  rw [lastBeat_eq, lastBeat_eq, funext fun v => congrArg Seq.ended (h.seqOf v)]

theorem Alike.passed (n : Nat) : t.passed n = s.passed n := by
  unfold State.passed
  rw [h.lastBeat, h.beats]

end Alike

/-- The step's last plan beat and who has passed it depend on the streams' ends and the plan beats (R74). -/
theorem allPassed_congr {t : State} (ended : ∀ k, (t.seqOf k).ended = (s.seqOf k).ended)
    (beats : ∀ k, (t.mvOf k).beats = (s.mvOf k).beats) : t.allPassed = s.allPassed := by
  have last : t.lastBeat = s.lastBeat := by rw [lastBeat_eq, lastBeat_eq, funext ended]
  have all : t.beatsOf = s.beatsOf := by simp only [State.beatsOf, beats]
  unfold State.allPassed
  rw [last, all]

/-! ### A period counted -/

theorem setMv_rising (h : risingFrom 0 s.mv = true) (n : Nat) (m : Mvmt) : risingFrom 0 (s.setMv n m).mv = true :=
  risingFrom_tset _ n m h

/-- A movement's period counted, and nothing else (R37). -/
def counted (s : State) (n : Nat) : State := s.setMv n { s.mvOf n with periods := (s.mvOf n).periods + 1 }

section Counted

variable (rising : risingFrom 0 s.mv = true) (n : Nat)

include rising

theorem counted_rising : risingFrom 0 (counted s n).mv = true := setMv_rising rising n _

theorem mvOf_counted : (counted s n).mvOf n = { s.mvOf n with periods := (s.mvOf n).periods + 1 } := mvOf_setMv rising n _

theorem beats_counted (u : Nat) : ((counted s n).mvOf u).beats = (s.mvOf u).beats := by
  by_cases e : u = n
  · rw [e, mvOf_counted rising]
  · rw [counted, mvOf_setMv_ne s _ e]

theorem counted_alike : Alike s (counted s n) := ⟨beats_counted rising n, rfl, rfl, rfl, rfl, rfl⟩

theorem withheld_counted : (counted s n).withheld n = !edgeIssues s.power.issue16 ((s.mvOf n).periods % 16) := by
  have phase : ((s.mvOf n).periods + 1 + 15) % 16 = (s.mvOf n).periods % 16 := by omega
  rw [State.withheld, mvOf_counted rising, phase]
  rfl

end Counted

/-! ### The shape of a period -/

/-- The end of a period: the trace drains at each of the C movement's (R528). -/
def drained (n : Nat) (t : State) : State := if n = cMove then traceDrain t else t

/-- Nothing drains at the end of the movement's period. -/
def Undrained (s : State) (n : Nat) : Prop := n ≠ cMove ∨ ∀ e ∈ s.trace.bufs, e.2.ents = []

theorem traceDrain_of_empty (h : ∀ e ∈ s.trace.bufs, e.2.ents = []) : traceDrain s = s := by
  have none : traceNext s = none := by
    rw [traceNext, List.find?_eq_none.2 fun e he => by rw [h e he]; decide]
    exact ite_self _
  simp only [traceDrain, iter, none]

theorem drained_of_undrained {n : Nat} (h : Undrained s n) : drained n s = s := by
  rcases h with other | empty
  · exact if_neg other
  · rw [drained, traceDrain_of_empty empty, ite_self]

theorem SameBeats.drained {t : State} (h : SameBeats s t) (n : Nat) : SameBeats s (drained n t) := .ite h.traceDrain h

theorem periodEff_upsets (n : Nat) (us : List Upset) :
    periodEff n us s = periodEff n [] (if typeOf n = 1 then us.foldl (upset n) s else s) := by
  unfold periodEff
  rw [List.foldl_nil, ite_self]

/-- What a period brings in a step: withheld by the regulator, or the step's own (R45, R51, R74). -/
def inStep (s : State) (n : Nat) (v : VMove) : State :=
  if s.withheld n then stallPeriod s n
  else if (stepPeriod s n v).allPassed ∧ ¬ s.allPassed then stepPassed (stepPeriod s n v) else stepPeriod s n v

theorem periodEff_eq (s : State) (n : Nat) :
    periodEff n [] s = drained n (match s.run with
      | none => counted s n
      | some r => if r.stopped ∨ (counted s n).passed n then counted s n
                  else inStep (counted s n) n (Fin.ofNat 64 (s.virt n))) := by
  unfold periodEff
  rw [List.foldl_nil, ite_self]
  rfl

/-- With no step, or past its last plan beat, a period is counted. -/
theorem periodEff_idle (rising : risingFrom 0 s.mv = true) {n : Nat}
    (idle : ∀ r, s.run = some r → r.stopped = true ∨ s.passed n = true) : periodEff n [] s = drained n (counted s n) := by
  rw [periodEff_eq]
  cases run : s.run with
  | none => rfl
  | some r =>
    have ends : r.stopped = true ∨ (counted s n).passed n = true := (counted_alike rising n).passed n ▸ idle r run
    exact congrArg (drained n) (if_pos ends)

theorem periodEff_inStep (rising : risingFrom 0 s.mv = true) {n : Nat} {r : Run} (run : s.run = some r)
    (on : r.stopped = false) (more : s.passed n = false) {v : VMove} (hv : (v : Nat) = s.virt n) :
    periodEff n [] s = drained n (inStep (counted s n) n v) := by
  have served : Fin.ofNat 64 (s.virt n) = v := by
    apply Fin.ext
    rw [Fin.val_ofNat, ← hv, Nat.mod_eq_of_lt v.isLt]
  have going : ¬ (r.stopped = true ∨ (counted s n).passed n = true) := by
    rw [on, (counted_alike rising n).passed n, more]
    decide
  rw [periodEff_eq, run, served]
  exact congrArg (drained n) (if_neg going)

end Sys2Proof.Proofs
end

section
/-!
The periods of a movement in a running step: one that stalls, one spent holding, one that issues a plan beat (R37, R39, R45).
-/

namespace Sys2Proof.Proofs

open Sys2Proof.Machine Sys2Proof.Laws

variable {s t : State} {n : Nat} {v : VMove}

/-! ### The branches of a step's period -/

/-- The state once a hold whose wait is met has ended (R45, R104). -/
def released (s : State) (v : VMove) : State :=
  match (s.seqOf v).hold with
  | some h => if holdMet s v h then releaseHold s v h else s
  | none => s

theorem released_of_none (h : (s.seqOf v).hold = none) : released s v = s := by rw [released, h]

theorem released_of_unmet {h : Hold} (hold : (s.seqOf v).hold = some h) (unmet : holdMet s v h = false) :
    released s v = s := by
  rw [released, hold]
  exact if_neg (by rw [unmet]; decide)

/-- A period in which no wait ends and no empty beat is due (R37, R41). -/
theorem stepPeriod_eq (rel : released s v = s) (full : s.emptyBeat v = false) :
    stepPeriod s n v = match (s.seqOf v).hold with
      | some h => holdPeriod s n v h
      | none =>
        if s.beatFree n then runBeat (openBeat s v) n v (s.mvOf n).beats
        else if s.started n (s.mvOf n).beats && s.mayIssue (s.mvOf n).beats && s.outputsFree n
          && decide (s.inputs n (s.mvOf n).beats = .badTag) then tagFault s n
        else stallPeriod s n := by
  unfold stepPeriod
  extract_lets b s1 empty s2
  have here : s1 = s := rel
  have none : empty = false := by
    show s1.emptyBeat v = false
    rw [here, full]
  simp only [s2, none, here, Bool.false_eq_true, if_false, b] <;> rfl

theorem stepPeriod_of_hold {h : Hold} (hold : (s.seqOf v).hold = some h) (unmet : holdMet s v h = false)
    (full : s.emptyBeat v = false) : stepPeriod s n v = holdPeriod s n v h := by
  rw [stepPeriod_eq (released_of_unmet hold unmet) full, hold]

theorem stepPeriod_of_stall (hold : (s.seqOf v).hold = none) (full : s.emptyBeat v = false)
    (held : s.beatFree n = false) (tags : s.inputs n (s.mvOf n).beats ≠ .badTag) : stepPeriod s n v = stallPeriod s n := by
  rw [stepPeriod_eq (released_of_none hold) full, hold, held, decide_eq_false tags, Bool.and_false]
  rfl

theorem stepPeriod_of_free (hold : (s.seqOf v).hold = none) (full : s.emptyBeat v = false) (free : s.beatFree n = true) :
    stepPeriod s n v = runBeat (openBeat s v) n v (s.mvOf n).beats := by
  rw [stepPeriod_eq (released_of_none hold) full, hold]
  exact if_pos free

theorem inStep_of_withheld (h : s.withheld n = true) : inStep s n v = stallPeriod s n := if_pos h

theorem inStep_of_issued (h : s.withheld n = false) : inStep s n v =
    if (stepPeriod s n v).allPassed ∧ ¬ s.allPassed then stepPassed (stepPeriod s n v) else stepPeriod s n v :=
  if_neg (by rw [h]; decide)

/-- A period after which as many movements have passed the last plan beat as before (R74). -/
theorem inStep_of_step (h : s.withheld n = false) (step : stepPeriod s n v = t) (same : t.allPassed = s.allPassed) :
    inStep s n v = t := by
  rw [inStep_of_issued h, step, same]
  exact if_neg fun ⟨all, rest⟩ => rest all

/-! ### A stall -/

/-- A period counted, and a stall (R37). -/
def stalled (s : State) (n : Nat) : State := stallPeriod (counted s n) n

theorem setMv_setMv_back (s : State) (n : Nat) (x y : Mvmt) : { (s.setMv n x).setMv n y with mv := s.mv } = s := by
  cases s; rfl

theorem stalled_frame (s : State) (n : Nat) : { stalled s n with mv := s.mv } = s := setMv_setMv_back s n _ _

theorem mvOf_stalled (rising : risingFrom 0 s.mv = true) (n : Nat) :
    (stalled s n).mvOf n = { s.mvOf n with periods := (s.mvOf n).periods + 1, stalls := (s.mvOf n).stalls + 1 } := by
  rw [stalled, stallPeriod, mvOf_setMv (counted_rising rising n), mvOf_counted rising]

/-- Writing a movement with its plan beats leaves who has passed the last one. -/
theorem allPassed_setMv (rising : risingFrom 0 s.mv = true) {m : Mvmt} (h : m.beats = (s.mvOf n).beats) :
    (s.setMv n m).allPassed = s.allPassed := by
  refine allPassed_congr (fun _ => rfl) fun k => ?_
  by_cases e : k = n
  · rw [e, mvOf_setMv rising, h]
  · rw [mvOf_setMv_ne s m e]

/-! ### A period spent holding -/

/-- The step's record after a slip beat of a hold of virtual movement `v` (R45, R46). -/
def slipped (s : State) (r : Run) (v : Nat) (h : Hold) : Run :=
  { r with slip := tset 0 r.slip h.site (satNat 32 (tget 0 r.slip h.site + 1))
           peer := if s.vtype v = 7 then satNat 32 (r.peer + 1) else r.peer }

theorem slipBeat_eq {r : Run} (run : s.run = some r) (v : Nat) (h : Hold) :
    slipBeat s v h = { s.setSeq v { s.seqOf v with hold := some { h with slip := h.slip + 1 } } with
      run := some (slipped s r v h) } := by
  let x := s.setSeq v { s.seqOf v with hold := some { h with slip := h.slip + 1 } }
  let r' : Run := { r with slip := tset 0 r.slip h.site (satNat 32 (tget 0 r.slip h.site + 1)) }
  have add : addSlip x h.site 1 = { x with run := some r' } := by
    have run : x.run = some r := run
    rw [addSlip, State.onRun, run]
    rfl
  have type : State.vtype { x with run := some r' } v = s.vtype v := by
    rw [State.vtype, State.vtype, run]
  rw [slipBeat, add]
  show (if (State.vtype { x with run := some r' } v == 7) = true then _ else _) = _
  rw [type, slipped]
  by_cases peer : s.vtype v = 7
  · rw [if_pos (beq_iff_eq.2 peer), if_pos peer]
    rfl
  · rw [if_neg (fun e => peer (beq_iff_eq.1 e)), if_neg peer]

/-- A period counted, and spent holding at a wait (R37, R45). -/
def waited (s : State) (n v : Nat) (h : Hold) : State := holdPeriod (counted s n) n v h

/-- The sequencer of a movement after a slip beat of its hold (R45). -/
def slippedSeq (q : Seq) (h : Hold) : Seq := { q with hold := some { h with slip := h.slip + 1 } }

theorem waited_eq {r : Run} (run : s.run = some r) (n v : Nat) (h : Hold) :
    waited s n v h = waitPeriod { (counted s n).setSeq v (slippedSeq (s.seqOf v) h) with run := some (slipped s r v h) } n :=
  congrArg (waitPeriod · n) (slipBeat_eq (s := counted s n) run v h)

theorem waited_frame {r : Run} (run : s.run = some r) (n v : Nat) (h : Hold) :
    { waited s n v h with mv := s.mv, seq := s.seq, run := s.run } = s := by
  rw [waited_eq run]
  cases s; rfl

theorem waited_run {r : Run} (run : s.run = some r) (n v : Nat) (h : Hold) :
    (waited s n v h).run = some (slipped s r v h) := by
  rw [waited_eq run]
  rfl

theorem waited_trace {r : Run} (run : s.run = some r) (n v : Nat) (h : Hold) : (waited s n v h).trace = s.trace := by
  rw [waited_eq run]
  rfl

theorem mvOf_waited {r : Run} (run : s.run = some r) (rising : risingFrom 0 s.mv = true) (n v : Nat) (h : Hold) :
    (waited s n v h).mvOf n = { s.mvOf n with periods := (s.mvOf n).periods + 1, waits := (s.mvOf n).waits + 1 } := by
  let x : State := { (counted s n).setSeq v (slippedSeq (s.seqOf v) h) with run := some (slipped s r v h) }
  have here : x.mvOf n = (counted s n).mvOf n := rfl
  rw [waited_eq run, waitPeriod, mvOf_setMv (s := x) (counted_rising rising n), here, mvOf_counted rising]

theorem seq_waited {r : Run} (run : s.run = some r) (n v : Nat) (h : Hold) :
    (waited s n v h).seq = tset {} s.seq v (slippedSeq (s.seqOf v) h) := by
  rw [waited_eq run]
  rfl

theorem slippedSeq_ne (q : Seq) (h : Hold) : slippedSeq q h ≠ {} := fun e => nomatch congrArg Seq.hold e

theorem seqOf_waited {r : Run} (run : s.run = some r) (n v : Nat) (h : Hold) :
    (waited s n v h).seqOf v = slippedSeq (s.seqOf v) h := by
  rw [State.seqOf, seq_waited run, tget_tset_of_ne _ _ _ _ (slippedSeq_ne _ h)]

theorem ended_waited {r : Run} (run : s.run = some r) (n v : Nat) (h : Hold) (k : Nat) :
    ((waited s n v h).seqOf k).ended = (s.seqOf k).ended := by
  by_cases e : k = v
  · rw [e, seqOf_waited run]
    rfl
  · rw [State.seqOf, seq_waited run, tget_tset_ne _ _ _ _ _ e]
    rfl

theorem allPassed_waited {r : Run} (run : s.run = some r) (rising : risingFrom 0 s.mv = true) (n v : Nat) (h : Hold) :
    (waited s n v h).allPassed = (counted s n).allPassed := by
  let x : State := { (counted s n).setSeq v (slippedSeq (s.seqOf v) h) with run := some (slipped s r v h) }
  refine allPassed_congr (ended_waited run n v h) fun k => ?_
  by_cases e : k = n
  · rw [e, mvOf_waited run rising, mvOf_counted rising]
  · rw [waited_eq run, waitPeriod, mvOf_setMv_ne x _ e]
    rfl

/-! ### A plan beat issued -/

/-- A movement's plan beat counted (R45). -/
def beatCounted (s : State) (n b : Nat) : State := s.setMv n { s.mvOf n with beats := b + 1, quiet := s.ns }

/-- Once its tokens have moved and the beat is counted, the end of a plan beat leaves the counts and the channels. -/
theorem closeBeat_beats (s : State) (n v b : Nat) :
    SameBeats (beatCounted (emitTokens (consumeTokens s n b) n b) n b) (closeBeat s n v b) :=
  ((((((SameBeats.refl _).setSeq _ _).moveRows _ _).reportWakes _ _ _).stampC _ _).detectCollisions _ _).settleTo _
    |>.hubRelease |>.foldPast _

/-- The sequencers once a plan beat is open at `v` (R64). -/
def openedAt (s : State) (v : Nat) : State :=
  if (s.seqOf v).opened then s else s.setSeq v { s.seqOf v with opened := true }

theorem openedAt_keeps (s : State) (v : Nat) :
    (openedAt s v).mv = s.mv ∧ (openedAt s v).chan = s.chan ∧ (openedAt s v).run = s.run := by
  unfold openedAt
  split <;> exact ⟨rfl, rfl, rfl⟩

theorem seqOf_openedAt (s : State) (v : Nat) : (openedAt s v).seqOf v = { s.seqOf v with opened := true } := by
  unfold openedAt
  by_cases o : (s.seqOf v).opened = true
  · rw [if_pos o, ← o]
  · rw [if_neg o]
    exact tget_tset_of_ne _ _ _ _ fun e => nomatch congrArg Seq.opened e

theorem map_of_kept {r r' : Run} (h : r.kept r') : r'.map = r.map := by
  have map := congrArg Run.map h
  exact map

/-- The first part of a plan beat leaves the movements, the channels and the movement map; the sequencer has the beat open. -/
theorem openBeat_keeps (s : State) (v : Nat) :
    (openBeat s v).mv = s.mv ∧ (openBeat s v).chan = s.chan ∧ (openBeat s v).virt = s.virt ∧
      (openBeat s v).seqOf v = { s.seqOf v with opened := true } := by
  obtain ⟨f, kept, like⟩ := openBeat_like s v
  have like : (openBeat s v).unlogged (openedAt s v) = (openedAt s v).onRun f := like
  obtain ⟨mv, chan, run⟩ := openedAt_keeps s v
  have runs : (openBeat s v).run = s.run.map f := (congrArg State.run like).trans (congrArg (Option.map f) run)
  refine ⟨(congrArg State.mv like).trans mv, (congrArg State.chan like).trans chan, ?_, ?_⟩
  · funext k
    rw [State.virt, State.virt, runs]
    cases s.run with
    | none => rfl
    | some r => exact congrArg (List.idxOf k) (map_of_kept (kept r))
  · exact (congrArg (fun x : State => tget ({} : Seq) x.seq v) like).trans (seqOf_openedAt s v)

/-- Once a stream has ended no op issues at a beat. -/
theorem issueDue_of_ended {fuel : Nat} (h : (s.seqOf v).ended.isSome = true) (b : Nat) : issueDue fuel s v b = s := by
  cases fuel with
  | zero => rfl
  | succ fuel => exact if_pos (.inl h)

/-- A beat of a stream that has ended, and waits for nothing, is closed. -/
theorem runBeat_of_ended (ended : (s.seqOf v).ended.isSome = true) (hold : (s.seqOf v).hold = none)
    (fed : (s.seqOf v).starved = false) (b : Nat) : runBeat s n v b = closeBeat s n v b := by
  rw [runBeat, issueDue_of_ended ended b]
  show (match (s.seqOf v).hold with | some h => _ | none => _) = _
  rw [hold, fed]
  rfl

/-- A beat `b` of a movement whose stream has ended is issued: it is counted, and the channels are as its tokens leave them. -/
structure BeatIssued (s : State) (n b : Nat) (t : State) : Prop where
  rising : risingFrom 0 t.mv = true
  counts : counts (t.mvOf n) = ((s.mvOf n).periods, b + 1)
  chan : t.chan = emittedChan s.mv (takenChan s.mv s.chan n b) n b

theorem BeatIssued.then {b : Nat} {u : State} (h : BeatIssued s n b t) (k : SameBeats t u) : BeatIssued s n b u := by
  obtain ⟨rising, same⟩ := k.mv h.rising
  exact ⟨rising, (same n).trans h.counts, k.chan.trans h.chan⟩

theorem closeBeat_issues (rising : risingFrom 0 s.mv = true) (ended : (s.seqOf (s.virt n)).ended.isSome = true) (v b : Nat) :
    BeatIssued s n b (closeBeat s n v b) := by
  let moved : State := { s with chan := emittedChan s.mv (takenChan s.mv s.chan n b) n b }
  have tokens : emitTokens (consumeTokens s n b) n b = moved := tokens_eq ended b
  have close := closeBeat_beats s n v b
  rw [tokens] at close
  have issued : BeatIssued s n b (beatCounted moved n b) :=
    ⟨setMv_rising rising n _, congrArg counts (mvOf_setMv (s := moved) rising n _), rfl⟩
  exact issued.then close

theorem stepPeriod_issues (rising : risingFrom 0 s.mv = true) (hv : (v : Nat) = s.virt n) (full : s.emptyBeat v = false)
    (free : s.beatFree n = true) (ended : (s.seqOf v).ended.isSome = true) (hold : (s.seqOf v).hold = none)
    (fed : (s.seqOf v).starved = false) : BeatIssued s n (s.mvOf n).beats (stepPeriod s n v) := by
  obtain ⟨mv, chan, virt, seq⟩ := openBeat_keeps s v
  have closed : stepPeriod s n v = closeBeat (openBeat s v) n v (s.mvOf n).beats := by
    rw [stepPeriod_of_free hold full free]
    exact runBeat_of_ended (seq ▸ ended) (seq ▸ hold) (seq ▸ fed) _
  have issued := closeBeat_issues (s := openBeat s v) (n := n) (mv ▸ rising) (by rw [virt, ← hv, seq]; exact ended) v (s.mvOf n).beats
  rw [closed]
  refine ⟨issued.rising, ?_, ?_⟩
  · rw [issued.counts, State.mvOf, mv]
    rfl
  · rw [issued.chan, mv, chan]

end Sys2Proof.Proofs
end

section
/-!
The periods of a balance and the supply, assembled (O40).
-/

namespace Sys2Proof.Proofs

open Sys2Proof.Machine Sys2Proof.Laws

variable {s : State} {n : Mv}

theorem exec_planBeatIssue (n : Mv) (us : List Upset) (s : State) : exec (.planBeatIssue n us) s = .next (periodEff n us s) := rfl

/-- What has befallen an array's storage befalls it before the period (R37). -/
theorem planBeatIssue_upsets (n : Mv) (us : List Upset) (s : State) :
    exec (.planBeatIssue n us) s = exec (.planBeatIssue n []) (if typeOf n = 1 then us.foldl (upset n) s else s) := by
  rw [exec_planBeatIssue, exec_planBeatIssue, periodEff_upsets]

/-- A period of which nothing remains but a state whose trace stands as before. -/
theorem planBeatIssue_of_eff {t : State} (eff : periodEff n [] s = drained n t) (trace : t.trace = s.trace)
    (undrained : Undrained s n) : exec (.planBeatIssue n []) s = .next t := by
  have still : Undrained t n := by
    unfold Undrained
    rw [trace]
    exact undrained
  rw [exec_planBeatIssue, eff, drained_of_undrained still]

section

variable (rising : risingFrom 0 s.mv = true)

include rising

theorem counted_issues (issues : edgeIssues s.power.issue16 ((s.mvOf n).periods % 16) = true) :
    (counted s n).withheld n = false := by
  rw [withheld_counted rising, issues]
  rfl

theorem planBeatIssue_idle (idle : ∀ r, s.run = some r → r.stopped = true ∨ s.passed n = true) (undrained : Undrained s n) :
    exec (.planBeatIssue n []) s = .next (counted s n) :=
  planBeatIssue_of_eff (periodEff_idle rising idle) rfl undrained

variable {r : Run} (run : s.run = some r) (on : r.stopped = false) (more : s.passed n = false)

include run on more

variable {v : VMove} (hv : (v : Nat) = s.virt n)

include hv

/-- A period that stalls (R37, R45, R51). -/
theorem planBeatIssue_stalled (stall : inStep (counted s n) n v = stalled s n) (undrained : Undrained s n) :
    ∃ t, exec (.planBeatIssue n []) s = .next t ∧ { t with mv := s.mv } = s ∧
      t.mvOf n = { s.mvOf n with periods := (s.mvOf n).periods + 1, stalls := (s.mvOf n).stalls + 1 } :=
  ⟨stalled s n, planBeatIssue_of_eff ((periodEff_inStep rising run on more hv).trans (congrArg (drained n) stall)) rfl undrained,
    stalled_frame s n, mvOf_stalled rising n⟩

/-- A period withheld by the regulator (R51). -/
theorem planBeatIssue_withheld (undrained : Undrained s n) (held : edgeIssues s.power.issue16 ((s.mvOf n).periods % 16) = false) :
    ∃ t, exec (.planBeatIssue n []) s = .next t ∧ { t with mv := s.mv } = s ∧
      t.mvOf n = { s.mvOf n with periods := (s.mvOf n).periods + 1, stalls := (s.mvOf n).stalls + 1 } := by
  refine planBeatIssue_stalled rising run on more hv (inStep_of_withheld ?_) undrained
  rw [withheld_counted rising, held]
  rfl

variable (issues : edgeIssues s.power.issue16 ((s.mvOf n).periods % 16) = true)

include issues

/-- A period at which the horizon, a channel or a token holds the movement back (R39, R530). -/
theorem planBeatIssue_held (undrained : Undrained s n) (hold : (s.seqOf v).hold = none) (full : s.emptyBeat v = false)
    (held : s.started n (s.mvOf n).beats = false ∨ s.mayIssue (s.mvOf n).beats = false ∨ s.outputsFree n = false ∨
      s.inputs n (s.mvOf n).beats = .waiting) (tags : s.inputs n (s.mvOf n).beats ≠ .badTag) :
    ∃ t, exec (.planBeatIssue n []) s = .next t ∧ { t with mv := s.mv } = s ∧
      t.mvOf n = { s.mvOf n with periods := (s.mvOf n).periods + 1, stalls := (s.mvOf n).stalls + 1 } := by
  have alike := counted_alike rising n
  have back : (counted s n).beatFree n = false := by
    rw [alike.beatFree, State.beatFree]
    rcases held with h | h | h | h <;> simp [h]
  have step : stepPeriod (counted s n) n v = stalled s n := by
    refine stepPeriod_of_stall hold full back ?_
    rw [alike.beats, alike.inputs]
    exact tags
  refine planBeatIssue_stalled rising run on more hv (inStep_of_step ?_ step ?_) undrained
  · exact counted_issues rising issues
  · exact allPassed_setMv (counted_rising rising n) rfl

/-- A period spent at a wait that is not met: a wait, and a beat of slip at its site (R37, R45). -/
theorem planBeatIssue_waits (undrained : Undrained s n) {h : Hold} (hold : (s.seqOf v).hold = some h)
    (unmet : holdMet s v h = false) (full : s.emptyBeat v = false) : exec (.planBeatIssue n []) s = .next (waited s n v h) := by
  have step : inStep (counted s n) n v = waited s n v h :=
    inStep_of_step (counted_issues rising issues) (stepPeriod_of_hold hold unmet full)
      (allPassed_waited run rising n v h)
  exact planBeatIssue_of_eff ((periodEff_inStep rising run on more hv).trans (congrArg (drained n) step))
    (waited_trace run n v h) undrained

/-- A period that issues a plan beat of a stream that has ended: counted, its tokens taken and emitted (R39, R45, R74). -/
theorem planBeatIssue_issues (hold : (s.seqOf v).hold = none) (full : s.emptyBeat v = false) (free : s.beatFree n = true)
    (ended : (s.seqOf v).ended.isSome = true) (fed : (s.seqOf v).starved = false) :
    ∃ t, exec (.planBeatIssue n []) s = .next t ∧ BeatIssued (counted s n) n (s.mvOf n).beats t := by
  have alike := counted_alike rising n
  have step : BeatIssued (counted s n) n (s.mvOf n).beats (stepPeriod (counted s n) n v) := by
    rw [← alike.beats]
    exact stepPeriod_issues (counted_rising rising n) hv full ((alike.beatFree n).trans free) ended hold fed
  have issued : BeatIssued (counted s n) n (s.mvOf n).beats (inStep (counted s n) n v) := by
    rw [inStep_of_issued (counted_issues rising issues)]
    split
    · exact step.then (SameBeats.refl _).stepPassed
    · exact step
  refine ⟨drained n (inStep (counted s n) n v), ?_, issued.then ((SameBeats.refl _).drained n)⟩
  rw [exec_planBeatIssue, periodEff_inStep rising run on more hv]

end

/-- The channels after an issued beat (R38, R39). -/
theorem BeatIssued.channels {t : State} {b : Nat} (h : BeatIssued s n b t) (rising : risingFrom 0 s.chan = true) :
    (∀ u ∈ gridNeighbours n, t.chanOf u n = if (s.mvOf u).beats ≤ b then s.chanOf u n else (s.chanOf u n).tail) ∧
    (∀ u ∈ gridNeighbours n, t.chanOf n u =
      if b < (s.mvOf u).beats then s.chanOf n u else s.chanOf n u ++ [{ tag := BitVec.ofNat 6 b, data := none }]) := by
  refine ⟨fun u hu => ?_, fun u hu => ?_⟩
  · rw [State.chanOf, h.chan, tokens_in rising b hu]
  · rw [State.chanOf, h.chan, tokens_out rising b hu]

/-- A movement that nothing holds back issues its plan beat. -/
theorem beatFree_of_free {s : State} {n : Nat} (start : s.started n (s.mvOf n).beats = true)
    (may : s.mayIssue (s.mvOf n).beats = true) (room : s.outputsFree n = true)
    (ready : s.inputs n (s.mvOf n).beats = .ready) : s.beatFree n = true := by
  rw [State.beatFree, start, may, room, ready]
  rfl

/-- Settles O40: a period by what it meets (no step, withheld, held back, at a wait, free), then the supply's events. -/
theorem balancePeriodsAndSupply : Obligations.BalancePeriodsAndSupply := by
  refine ⟨⟨fun m => edgeIssues_count, fun s n rising => ⟨fun us => planBeatIssue_upsets n us s,
    fun idle undrained => ⟨_, planBeatIssue_idle rising idle undrained, rfl⟩, fun r run on more undrained lt => ?_⟩⟩, fun s =>
    ⟨fun n replica rising => exec_supplyDroop n replica rising, fun n sender r run ok silent => exec_balanceStop n sender run ok silent,
      fun r rail h1 h160 _ lowest => regulatorEstimate_moves rail h1 h160 lowest⟩⟩
  let v : VMove := ⟨s.virt n, lt⟩
  have hv : (v : Nat) = s.virt n := rfl
  refine ⟨fun held => planBeatIssue_withheld rising run on more hv undrained held, fun issues => ⟨fun hold full held tags =>
    planBeatIssue_held rising run on more hv issues undrained hold full held tags, fun h hold unmet full _ => ?_,
    fun hold full start may room ready _ ended fed chans => ?_⟩⟩
  · exact ⟨waited s n v h, planBeatIssue_waits rising run on more hv issues undrained hold unmet full, waited_frame run n v h,
      mvOf_waited run rising n v h, seqOf_waited run n v h, waited_run run n v h⟩
  · have free := beatFree_of_free start may room ready
    obtain ⟨t, exec, issued⟩ := planBeatIssue_issues rising run on more hv issues hold full free ended fed
    obtain ⟨periods, beats⟩ := Prod.mk.inj issued.counts
    rw [mvOf_counted rising] at periods
    obtain ⟨ins, outs⟩ := issued.channels chans
    simp only [beats_counted rising] at ins outs
    exact ⟨t, exec, beats, periods, ins, outs⟩

end Sys2Proof.Proofs
end

section
/-!
Op words (R84 to R86): a word as fields at bits, the encoder's word of every op command, and the command of every word that
decodes.
-/

namespace Sys2Proof.Proofs

open Sys2Proof.Machine

/-! ### The fields a word holds -/

/-- Word `w` holds the field `x` from bit `lo` upwards. -/
def Holds (w : W32) (lo : Nat) {k : Nat} (x : BitVec k) : Prop := x = fld w lo k

/-- Below `holds_append_iff` and the operands' lemmas: it is for a field that is no longer composed. -/
@[simp low] theorem holds_iff {w : W32} {lo k : Nat} {x : BitVec k} : Holds w lo x ↔ fld w lo k = x := eq_comm

@[simp] theorem fld_whole (w : W32) : fld w 0 32 = w := BitVec.extractLsb'_eq_self

theorem fld_append (w : W32) (lo m n : Nat) : fld w lo (m + n) = fld w (lo + n) m ++ fld w lo n :=
  (BitVec.extractLsb'_append_extractLsb'_eq_extractLsb' rfl).symm

theorem append_eq_append_iff {m n : Nat} (x a : BitVec m) (y b : BitVec n) : x ++ y = a ++ b ↔ x = a ∧ y = b := by
  refine ⟨fun h => ⟨?_, ?_⟩, fun ⟨ha, hb⟩ => by rw [ha, hb]⟩
  · rw [← BitVec.extractLsb'_append_eq_left (a := x) (b := y), h, BitVec.extractLsb'_append_eq_left]
  · rw [← BitVec.extractLsb'_append_eq_right (a := x) (b := y), h, BitVec.extractLsb'_append_eq_right]

/-- Applied before the simplifier looks into the two parts, whose widths it would add up. -/
@[simp ↓] theorem holds_append_iff {w : W32} {lo m n : Nat} {x : BitVec m} {y : BitVec n} :
    Holds w lo (x ++ y) ↔ Holds w (lo + n) x ∧ Holds w lo y := by
  rw [Holds, fld_append, append_eq_append_iff]
  rfl

theorem holds_whole_iff {w x : W32} : Holds w 0 x ↔ x = w := by rw [Holds, fld_whole]

@[simp] theorem holds_ofFin_iff {w : W32} {lo k : Nat} {x : Fin (2 ^ k)} :
    Holds w lo (BitVec.ofFin x) ↔ (fld w lo k).toFin = x := by
  rw [holds_iff, ← BitVec.toFin_inj]

theorem ofBool_flag (w : W32) (i : Nat) : BitVec.ofBool (flag w i) = fld w i 1 := by
  refine BitVec.eq_of_getLsbD_eq fun j hj => ?_
  obtain rfl : j = 0 := by omega
  simp [flag, fld]

theorem flag_iff (w : W32) (i : Nat) (b : Bool) : flag w i = b ↔ fld w i 1 = BitVec.ofBool b := by
  rw [← ofBool_flag]
  exact ⟨congrArg BitVec.ofBool, fun h => by simpa using congrArg (BitVec.getLsbD · 0) h⟩

@[simp] theorem holds_ofBool_iff {w : W32} {lo : Nat} {b : Bool} : Holds w lo (BitVec.ofBool b) ↔ flag w lo = b := by
  rw [holds_iff, flag_iff]

/-- A reserved part is 0 where its two parts are. -/
theorem fld_eq_zero_iff (w : W32) (lo m n : Nat) : fld w lo (m + n) = 0 ↔ fld w (lo + n) m = 0 ∧ fld w lo n = 0 := by
  rw [fld_append, ← append_eq_append_iff]
  simp

theorem fld_succ_eq_zero_iff (w : W32) (lo n : Nat) : fld w lo (n + 1) = 0 ↔ fld w (lo + 1) n = 0 ∧ flag w lo = false := by
  rw [fld_eq_zero_iff, flag_iff]
  rfl

/-! ### Operands (R82, R86, R182) -/

theorem holds_zero_iff {w : W32} {lo k : Nat} : Holds w lo (0#k) ↔ fld w lo k = 0 := holds_iff

theorem holds_gen_iff {w : W32} {g : Fin 4} :
    Holds w 0 (1#2 ++ 0#28 ++ BitVec.ofFin (w := 2) g) ↔ (fld w 30 2 = 1 ∧ fld w 2 28 = 0) ∧ (fld w 0 2).toFin = g := by
  rw [holds_append_iff, holds_append_iff, holds_zero_iff, holds_iff, holds_ofFin_iff]
  rfl

@[simp] theorem holds_encAddr_iff {w : W32} {a : AddrOp} : Holds w 0 (encAddr a) ↔ decAddr w = some a := by
  rw [decAddr]
  cases a with
  | lit a =>
    show Holds w 0 (0#3 ++ a) ↔ _
    rw [holds_append_iff, holds_zero_iff, fld_eq_zero_iff w _ 2 1, holds_iff]
    split_ifs <;> simp_all
  | gen g =>
    rw [encAddr, holds_gen_iff]
    split_ifs <;> simp_all

@[simp] theorem holds_encAcc_iff {w : W32} {a : AccOp} : Holds w 0 (encAcc a) ↔ decAcc w = some a := by
  rw [decAcc]
  cases a with
  | row a =>
    show Holds w 0 (0#22 ++ a) ↔ _
    rw [holds_append_iff, holds_zero_iff, fld_eq_zero_iff w _ 2 20, holds_iff]
    split_ifs <;> simp_all
  | gen g =>
    rw [encAcc, holds_gen_iff]
    split_ifs <;> simp_all

@[simp] theorem holds_encFlow_iff {w : W32} {a : FlowOp} : Holds w 0 (encFlow a) ↔ decFlow w = some a := by
  rw [decFlow]
  cases a with
  | lit a =>
    show Holds w 0 (0#8 ++ a) ↔ _
    rw [holds_append_iff, holds_zero_iff, fld_eq_zero_iff w _ 2 6, holds_iff]
    split_ifs <;> simp_all
  | gen g =>
    rw [encFlow, holds_gen_iff]
    split_ifs <;> simp_all

/-! ### Words (R84) -/

theorem joinWord_splitWord (w : W128) : joinWord (splitWord w) = w := by
  simp (disch := decide) only [joinWord, splitWord, BitVec.extractLsb'_append_extractLsb'_eq_extractLsb']
  exact BitVec.extractLsb'_eq_self

theorem splitWord_joinWord (o : OpWord) : splitWord (joinWord o) = o := by
  simp (disch := decide) only [joinWord, splitWord, BitVec.extractLsb'_append_eq_of_le,
    BitVec.extractLsb'_append_eq_of_add_le, Nat.reduceSub, BitVec.extractLsb'_eq_self]

/-- A row of the encoder, field by field. -/
theorem mkWord_eq_iff {e : BitVec 4} {k : Byte} {x0 x1 x2 : W32} {o : OpWord} :
    mkWord e k x0 x1 x2 = o ↔ o.eng.toNat = e.toNat ∧ o.op.toNat = k.toNat ∧ (o.delta = 0 ∧ o.pmode = 0 ∧ o.pslot = 0) ∧
      Holds o.ow0 0 x0 ∧ Holds o.ow1 0 x1 ∧ Holds o.ow2 0 x2 := by
  obtain ⟨⟩ := o
  simp only [mkWord, OpWord.mk.injEq, holds_whole_iff, BitVec.toNat_inj]
  tauto

/-! ### The encoder's word decodes -/

section Decodes

variable {v : VMove} {o : OpWord}

theorem decodeOp_idle {count : W32} (pos : count ≠ 0) (h : encodeOp (.idle v count) = some o) :
    decodeOp v o = some (.idle v count) := by
  have row := mkWord_eq_iff.1 (Option.some.inj h)
  simp at row pos
  simp [decodeOp, decSeq, row, pos]

theorem decodeOp_nestOpen {level : BitVec 3} {count period : W32} (lt : level.toNat < 6) (pos : period ≠ 0)
    (h : encodeOp (.nestOpen v level count period) = some o) : decodeOp v o = some (.nestOpen v level count period) := by
  have row := mkWord_eq_iff.1 (Option.some.inj h)
  simp at row pos
  simp [decodeOp, decSeq, row, lt, pos]

theorem decodeOp_agStride {g : Fin 4} {level : Fin 6} {stride : W32} (h : encodeOp (.agStride v g level stride) = some o) :
    decodeOp v o = some (.agStride v g level stride) := by
  have row := mkWord_eq_iff.1 (Option.some.inj h)
  have small : level.val % 8 = level.val := by omega
  simp at row
  simp [decodeOp, decSeq, row, small]

/-- The bit above ROWS says whether there is a second destination (R105). -/
theorem decodeOp_take {dst : AddrOp} {queue : Fin 16} {rowsM1 : BitVec 12} {split : Option AddrOp}
    (h : encodeOp (.take v dst queue rowsM1 split) = some o) : decodeOp v o = some (.take v dst queue rowsM1 split) := by
  cases split with
  | none =>
    obtain ⟨eng, op, -, w0, w1, w2⟩ := mkWord_eq_iff.1 (Option.some.inj h)
    simp at eng op w0 w1 w2
    obtain ⟨reserved, single⟩ := (fld_succ_eq_zero_iff o.ow1 28 3).1 w1.1.1.1
    simp [decodeOp, decSeq, eng, op, w0, w1, w2, reserved, single]
  | some d =>
    have row := mkWord_eq_iff.1 (Option.some.inj h)
    simp at row
    have double : flag o.ow1 28 = true := by simp [flag_iff, row]
    simp [decodeOp, decSeq, row, double]

/-- The bit above SAT says whether there is an operand T (R203). -/
theorem decodeOp_vset {a b f : BitVec 5} {round : BitVec 2} {sat : Bool} {seed : W32} {t : Option W32}
    (h : encodeOp (.vset v a b f round sat seed t) = some o) : decodeOp v o = some (.vset v a b f round sat seed t) := by
  cases t with
  | none =>
    obtain ⟨eng, op, -, w0, w1, w2⟩ := mkWord_eq_iff.1 (Option.some.inj h)
    simp at eng op w0 w1 w2
    obtain ⟨reserved, single⟩ := (fld_succ_eq_zero_iff o.ow0 18 13).1 w0.1.1.1.1.1
    simp [decodeOp, decVector, eng, op, w0, w1, w2, reserved, single]
  | some t =>
    have row := mkWord_eq_iff.1 (Option.some.inj h)
    simp at row
    have double : flag o.ow0 18 = true := by simp [flag_iff, row]
    simp [decodeOp, decVector, row, double]

theorem decodeOp_zero {offset units : W32} {region : Byte} {queue : Fin 8} (pos : units ≠ 0)
    (h : encodeOp (.zero v offset region units queue) = some o) : decodeOp v o = some (.zero v offset region units queue) := by
  have row := mkWord_eq_iff.1 (Option.some.inj h)
  simp at row pos
  simp [decodeOp, decStack, row, pos]

end Decodes

@[simp] theorem decAddr_encAddr (a : AddrOp) : decAddr (encAddr a) = some a := holds_encAddr_iff.1 (holds_whole_iff.2 rfl)

/-! The forms of a vector function (R202). -/

theorem decode_straps (f : AddrOp → AddrOp → AddrOp → Instr) (d a b : AddrOp) :
    ((decAddr (encAddr d)).bind fun d => (decAddr (encAddr a)).bind fun a => (decAddr (encAddr b)).bind fun b =>
      some (f d a b)) = some (f d a b) := by
  simp

theorem decode_imm (f : AddrOp → AddrOp → Instr) (d a : AddrOp) :
    ((decAddr (encAddr d)).bind fun d => (decAddr (encAddr a)).bind fun a => some (f d a)) = some (f d a) := by
  simp

theorem decode_unary (f : AddrOp → AddrOp → Instr) (d a : AddrOp) :
    (if (0 : W32) == 0 then (decAddr (encAddr d)).bind fun d => (decAddr (encAddr a)).bind fun a => some (f d a) else none)
      = some (f d a) := by
  simp

/-- Every command with a word but the three that no word spells decodes from the word: the vector functions by their form,
the others by the fields of their row, those with a condition or an absent operand each by its own lemma. -/
theorem decodeOp_of_encodeOp {i : Instr} {o : OpWord} (h : encodeOp i = some o) (count : ∀ v, i ≠ .idle v 0)
    (nest : ∀ v level count period, i = .nestOpen v level count period → level.toNat < 6 ∧ period ≠ 0)
    (units : ∀ v offset region queue, i ≠ .zero v offset region 0 queue) : ∃ v, decodeOp v o = some i := by
  cases i
  case idle v _ => exact ⟨v, decodeOp_idle (by rintro rfl; exact count v rfl) h⟩
  case nestOpen v level n period => exact ⟨v, decodeOp_nestOpen (nest v level n period rfl).1 (nest v level n period rfl).2 h⟩
  case agStride v _ _ _ => exact ⟨v, decodeOp_agStride h⟩
  case take v _ _ _ _ => exact ⟨v, decodeOp_take h⟩
  case vset v _ _ _ _ _ _ _ => exact ⟨v, decodeOp_vset h⟩
  case zero v offset region _ queue => exact ⟨v, decodeOp_zero (by rintro rfl; exact units v offset region queue rfl) h⟩
  case add v f | sub v f | mul v f | mad v f | min v f | max v f | cmpeq v f | cmpne v f | cmplt v f | cmple v f | sel v f
    | and v f | or v f | xor v f | shl v f | shr v f =>
    cases f <;> cases h
    case straps => exact ⟨v, decode_straps ..⟩
    case imm => exact ⟨v, decode_imm ..⟩
    case const => exact ⟨v, decode_unary ..⟩
  case affine v f | exps v f =>
    cases f <;> cases h
    case straps => exact ⟨v, decode_straps ..⟩
    case imm => exact ⟨v, decode_imm ..⟩
  case vectorCopy v d a | abs v d a | neg v d a | exp2 v d a | log2 v d a | rcp v d a | sqrt v d a | rsqrt v d a
    | tanh v d a | sigmoid v d a | gelu v d a | silu v d a =>
    cases h
    exact ⟨v, decode_unary ..⟩
  case nop v | agBase v | wait v | stepEnd v | tileLoad v | tileScales v | ascaleSet v | stream v | drain v | drainWide v
    | accLoad v | seedSet v | iota v | vtap v | tload v | rsum v | rsumsq v | rdot v | rmax v | rmin v | rargmax v | raddw v
    | rstore v | transpose v | retile v | convert v | kset v | bset v | select v | pset v | prel v | mvm v | read v
    | write v | gather v | scatter v | embed v | copy v | pageAppend v | pageRead v | fsend v | frecv v | hread v
    | hwrite v =>
    have row := mkWord_eq_iff.1 (Option.some.inj h)
    simp at row
    exact ⟨‹VMove›, by simp [decodeOp, decSeq, decMatrix, decVector, decSkiver, decBridle, decAnalog, decStack, decFabric,
      decHost, row]⟩
  all_goals exact nomatch h

theorem patchOk_of_encodeOp {i : Instr} {o : OpWord} (h : encodeOp i = some o) : o.patchOk = true := by
  unfold encodeOp at h
  split at h <;> cases h <;> rfl

/-- Settles O5: a command is decoded from the fields its row of the encoder puts in the word. -/
theorem opWordsRoundTrip : Obligations.OpWordsRoundTrip := by
  refine ⟨fun i o h count nest units => ?_, joinWord_splitWord, splitWord_joinWord⟩
  obtain ⟨v, decoded⟩ := decodeOp_of_encodeOp h count nest units
  exact ⟨v, decoded, patchOk_of_encodeOp h⟩

/-! ### A word that decodes is the encoder's -/

/-- A word with its schedule and patch fields 0. -/
def bare (o : OpWord) : OpWord := { o with delta := 0, pmode := 0, pslot := 0 }

/-- The encoder gives a word back where the word holds the fields of the encoder's row. -/
theorem encodeOp_of_row {i : Instr} {o : OpWord} {e : BitVec 4} {k : Byte} {x0 x1 x2 : W32}
    (word : encodeOp i = some (mkWord e k x0 x1 x2)) (eng : o.eng.toNat = e.toNat) (op : o.op.toNat = k.toNat)
    (w0 : Holds o.ow0 0 x0) (w1 : Holds o.ow1 0 x1) (w2 : Holds o.ow2 0 x2) : encodeOp i = some (bare o) := by
  have row : mkWord e k x0 x1 x2 = bare o := mkWord_eq_iff.2 ⟨eng, op, ⟨rfl, rfl, rfl⟩, w0, w1, w2⟩
  rw [word, row]

section Encodes

variable {v : VMove} {o : OpWord} {i : Instr}

theorem encodeOp_of_decSeq (eng : o.eng.toNat = 0) (h : decSeq v o = some i) : encodeOp i = some (bare o) := by
  unfold decSeq at h
  split at h
  case h_4 op =>
    obtain ⟨⟨⟨_, _⟩, _⟩, rfl⟩ := by simpa using h
    refine encodeOp_of_row rfl eng op ?_ ?_ ?_ <;> simp [*]
  case h_7 op =>
    obtain ⟨⟨⟨_, _⟩, _⟩, _, rfl⟩ := by simpa using h
    refine encodeOp_of_row rfl eng op ?_ ?_ ?_ <;> simp [*]
  case h_8 op =>
    obtain ⟨⟨⟨_, top⟩, single⟩, dst, _, h⟩ := by simpa [Option.bind_eq_some_iff] using h
    split at h
    next split =>
      obtain ⟨d2, _, h⟩ := Option.bind_eq_some_iff.1 h
      obtain rfl := Option.some.inj h
      have bit := (flag_iff ..).1 split
      refine encodeOp_of_row rfl eng op ?_ ?_ ?_ <;> simp [*]
    next whole =>
      obtain rfl := Option.some.inj h
      have top : fld o.ow1 28 4 = 0 := (fld_succ_eq_zero_iff o.ow1 28 3).2 ⟨top, by simpa using whole⟩
      simp [whole] at single
      refine encodeOp_of_row rfl eng op ?_ ?_ ?_ <;> simp [*]
  case h_9 => exact nomatch h
  all_goals
    rename_i op
    revert h
    simp only [Option.ite_none_right_eq_some, Bool.and_eq_true, beq_iff_eq, bne_iff_ne, Option.some.injEq, and_imp]
    intros
    subst i
    refine encodeOp_of_row rfl eng op ?_ ?_ ?_ <;> simp [*]

theorem encodeOp_of_vset (eng : o.eng.toNat = 2) (op : o.op.toNat = 0xC1)
    (reserved : fld o.ow0 19 13 = 0) (unused : flag o.ow0 18 = true ∨ o.ow2 = 0) :
    encodeOp (.vset v (fld o.ow0 0 5) (fld o.ow0 5 5) (fld o.ow0 10 5) (fld o.ow0 15 2) (flag o.ow0 17) o.ow1
      (if flag o.ow0 18 then some o.ow2 else none)) = some (bare o) := by
  by_cases present : flag o.ow0 18 = true
  · have bit := (flag_iff ..).1 present
    rw [if_pos present]
    refine encodeOp_of_row rfl eng op ?_ ?_ ?_ <;> simp [*]
  · have top : fld o.ow0 18 14 = 0 := (fld_succ_eq_zero_iff o.ow0 18 13).2 ⟨reserved, by simpa using present⟩
    simp [present] at unused
    rw [if_neg present]
    refine encodeOp_of_row rfl eng op ?_ ?_ ?_ <;> simp [*]

/-- The decoder's rows, each of which checks and reads the fields that the encoder's row of its command writes. -/
theorem encodeOp_of_decodeOp (h : decodeOp v o = some i) : encodeOp i = some (bare o) := by
  unfold decodeOp decMatrix decVector decSkiver decBridle decAnalog decStack decFabric decHost at h
  split at h
  case h_1 eng => exact encodeOp_of_decSeq eng h
  case h_10 => exact nomatch h
  all_goals
    rename_i eng
    split at h
  case h_76 op =>
    simp only [Option.ite_none_right_eq_some, Bool.and_eq_true, Bool.or_eq_true, beq_iff_eq, Option.some.injEq] at h
    obtain ⟨⟨reserved, unused⟩, rfl⟩ := h
    exact encodeOp_of_vset eng op reserved unused
  all_goals
    rename_i op
    revert h
    simp only [Option.ite_none_right_eq_some, Option.bind_eq_some_iff, Bool.and_eq_true, beq_iff_eq, Option.some.injEq,
      forall_exists_index, and_imp, reduceCtorEq, false_imp_iff]
  all_goals
    intros
    subst i
    refine encodeOp_of_row rfl eng op ?_ ?_ ?_ <;> simp [*]

end Encodes

/-- Settles O6: a word holds the fields of the row of the command that it decodes to. -/
theorem decodedWordsAreEncodings : Obligations.DecodedWordsAreEncodings :=
  fun _ _ _ h => encodeOp_of_decodeOp h

end Sys2Proof.Proofs
end

section
/-!
An op's issue as a whole (R79, R87, R88): the state with the op issued and its accesses claimed, from which its effect starts;
then the ops of the sequencer itself (O9).
-/

namespace Sys2Proof.Proofs

open Sys2Proof.Machine Sys2Proof.Laws

variable {s t : State} {v : VMove} {e : Bool} {as : List Access}

/-! ### The state an op's effect starts from -/

/-- `s` with an op of `v` issued and its accesses claimed, before its effect. -/
def claimed (s : State) (v : VMove) (e : Bool) (as : List Access) : State :=
  claimAll (issued (openBeat s v) (s.pos v) e) (s.pos v) as

theorem claimAll_unissued (s t : State) (pos : PlanPos) (as : List Access) :
    (claimAll t pos as).unissued s = t.unissued s := rfl

theorem unissued_seq (s t : State) : (t.unissued s).seq = t.seq := rfl

theorem claimed_unissued : (claimed s v e as).unissued s = s.issuedBy v e := by
  rw [claimed, claimAll_unissued, issued_unissued]
  rfl

theorem claimed_seqOf : (claimed s v e as).seqOf v = s.issuedSeq v e := by
  have seq : (claimed s v e as).seq = (s.issuedBy v e).seq := by rw [← unissued_seq s, claimed_unissued]
  have opened : s.issuedSeq v e ≠ {} := fun h => nomatch congrArg Seq.opened h
  rw [State.seqOf, seq]
  exact tget_tset_of_ne _ _ _ _ opened

theorem claimed_run {r : Run} (run : s.run = some r) : ∃ r', (claimed s v e as).run = some r' ∧ r.kept r' :=
  issued_run s v e as r run

theorem claimed_code (run : s.run.isSome = true) : (claimed s v e as).code v = s.code v := by
  obtain ⟨r, hr⟩ := Option.isSome_iff_exists.1 run
  obtain ⟨r', hr', kept⟩ := claimed_run (v := v) (e := e) (as := as) hr
  have plan : r'.plan = r.plan := by
    have plan := congrArg Run.plan kept
    exact plan
  simp only [State.code, hr, hr', plan]

section Record

variable {α : Type} {g : Run → α}

/-- `g` reads nothing of a step's record that an op's issue writes before its effect: the stamps of plan beat 0, and the claims. -/
def Unopened (g : Run → α) : Prop :=
  ∀ (r : Run) stamps begin_ beginNs lateness sflags claims,
    g { r with stamps := stamps, begin_ := begin_, beginNs := beginNs, lateness := lateness, sflags := sflags
               claims := claims } = g r

theorem map_onRun {f : Run → Run} (hf : ∀ r, g (f r) = g r) (s : State) : (s.onRun f).run.map g = s.run.map g := by
  rw [onRun_run, Option.map_map]
  exact congrArg (Option.map · s.run) (funext hf)

theorem beginBeat_map (hg : Unopened g) (s : State) (n : Nat) : (beginBeat s n).run.map g = s.run.map g := by
  have stamped : (stampBegin s n).run.map g = s.run.map g := map_onRun (fun r => hg r _ _ _ _ _ _) s
  have begun : (if (stampBegin s n).phys n = cMove then beginStep (stampBegin s n) else stampBegin s n).run.map g
      = s.run.map g := by
    split
    · exact (map_onRun (fun r => hg r _ _ _ _ _ _) _).trans stamped
    · exact stamped
  rw [← begun]
  exact congrArg (Option.map g) (Logs.run (traceAdd_unlogged _ _ _))

theorem openBeat_map (hg : Unopened g) (s : State) (n : Nat) : (openBeat s n).run.map g = s.run.map g := by
  unfold openBeat
  extract_lets q s1 b
  split
  · rfl
  · rw [Logs.run (stampBeat_logs _ _ _)]
    split
    · exact beginBeat_map hg s1 n
    · rfl

theorem run_issued (s : State) (pos : PlanPos) (e : Bool) : (issued s pos e).run = s.run := by
  unfold issued
  extract_lets q q'
  exact Logs.run (s := s.setSeq pos.vmove q') (traceOp_unlogged _ _ _ _)

/-- What an op's issue leaves of the step's record. -/
theorem claimed_map (hg : Unopened g) : (claimed s v e as).run.map g = s.run.map g := by
  rw [claimed, claimAll, map_onRun fun r => hg r _ _ _ _ _ _, run_issued, openBeat_map hg]

end Record

theorem claimed_flights : (claimed s v e as).flights = s.flights := by
  rw [State.flights, claimed_map fun _ _ _ _ _ _ _ => rfl, State.flights]

theorem run_isSome_of_canIssue (h : s.canIssue v = true) : s.run.isSome = true := by
  obtain ⟨r, hr⟩ := run_of_canIssue s v h
  rw [hr]; rfl

/-! ### What an issue leaves -/

theorem leaves_logs {n : Nat} {u t' : State} {ws : List Work} (h : s.leaves n u t ws) (k : Logs t t') :
    s.leaves n u t' ws := by
  obtain ⟨⟨r, r', hr, hr', kept⟩, unissued, flights⟩ := h
  have back : (t'.unlogged t).unissued s = t.unissued s := congrArg (State.unissued · s) k
  refine ⟨⟨r, r', hr, k.run.trans hr', kept⟩, back.trans unissued, ?_⟩
  rw [← flights, State.flights, State.flights, k.run]

/-- An op that has no effect but its issue and its claims. -/
theorem leaves_claimed (run : s.run.isSome = true) : s.leaves v (s.issuedBy v e) (claimed s v e as) [] := by
  obtain ⟨r, hr⟩ := Option.isSome_iff_exists.1 run
  obtain ⟨r', hr', kept⟩ := claimed_run (v := v) (e := e) (as := as) hr
  exact ⟨⟨r, r', hr, hr', kept⟩, claimed_unissued, by simpa using claimed_flights⟩

/-- An op that besides writes its sequencer, whose beat stays open. -/
theorem leaves_setSeq (run : s.run.isSome = true) {q : Seq} (opened : q.opened = true) :
    s.leaves v (s.setSeq v q) ((claimed s v e as).setSeq v q) [] := by
  obtain ⟨⟨r, r', hr, hr', kept⟩, unissued, flights⟩ := leaves_claimed (v := v) (e := e) (as := as) run
  refine ⟨⟨r, r', hr, hr', kept⟩, ?_, flights⟩
  have ne : q ≠ {} := by rintro rfl; exact nomatch opened
  have ne' : s.issuedSeq v e ≠ {} := fun h => nomatch congrArg Seq.opened h
  calc ((claimed s v e as).setSeq v q).unissued s
      = ((claimed s v e as).unissued s).setSeq v q := rfl
    _ = (s.issuedBy v e).setSeq v q := by rw [unissued]
    _ = s.setSeq v q := congrArg (fun m => { s with seq := m }) (tset_tset_of_ne _ _ _ _ _ ne' ne)

/-! ### The ops of the sequencer -/

section Ops

variable (h : s.canIssue v = true)
include h

theorem exec_of_effect {eff : PlanPos → State → State} {c : Instr} (op : exec c s = issueOp s v false true [] eff) :
    exec c s = .next (eff (s.pos v) (claimed s v false [])) := by
  rw [op]
  exact issueOp_plain s v false true eff h rfl

theorem exec_nop : ∃ t, exec (.nop v) s = .next t ∧ s.leaves v (s.issuedBy v false) t [] :=
  ⟨_, exec_of_effect (eff := fun _ t => t) h rfl, leaves_claimed (run_isSome_of_canIssue h)⟩

/-- An op whose effect writes a sequencer computed from the issued one. -/
theorem exec_of_setSeq {eff : PlanPos → State → State} {f : Seq → Seq} {c : Instr}
    (op : exec c s = issueOp s v false true [] eff) (write : ∀ t : State, eff (s.pos v) t = t.setSeq v (f (t.seqOf v)))
    (opened : ∀ q : Seq, (f q).opened = q.opened) :
    ∃ t, exec c s = .next t ∧ s.leaves v (s.setSeq v (f (s.issuedSeq v false))) t [] := by
  refine ⟨_, exec_of_effect h op, ?_⟩
  rw [write, claimed_seqOf]
  exact leaves_setSeq (run_isSome_of_canIssue h) (opened _)

theorem exec_stepEnd : ∃ t, exec (.stepEnd v) s = .next t ∧
    s.leaves v (s.setSeq v { s.issuedSeq v false with ended := some (s.mvOf (s.phys v)).beats }) t [] := by
  refine ⟨_, exec_of_effect h rfl, ?_⟩
  have ends : s.leaves v (s.setSeq v { s.issuedSeq v false with ended := some (s.mvOf (s.phys v)).beats })
      ((claimed s v false []).setSeq v { (claimed s v false []).seqOf v with ended := some (s.pos v).beat }) [] := by
    rw [claimed_seqOf]
    exact leaves_setSeq (run_isSome_of_canIssue h) rfl
  exact leaves_logs ends (traceAdd_unlogged _ _ _)

/-- A nest with iterations is opened; one with none is skipped. -/
theorem exec_nestOpen {level : BitVec 3} {count period : W32} (lv : level.toNat = (s.seqOf v).nest.length)
    (lt : level.toNat < 6) (pos : period ≠ 0) :
    exec (.nestOpen v level count period) s = .next (nestOpenEff v count period (s.pos v) (claimed s v false [])) := by
  have defined : (level.toNat == (s.seqOf v).nest.length && decide (level.toNat < 6) && period != 0) = true := by
    rw [beq_iff_eq.2 lv, decide_eq_true lt, bne_iff_ne.2 pos]
    rfl
  exact issueOp_plain s v false _ _ h defined

theorem nestOpenEff_claimed (count period : W32) :
    nestOpenEff v count period (s.pos v) (claimed s v false []) =
      (let q := s.issuedSeq v false
       let close := closeOf ((s.code v).drop q.pos) q.pos 0
       if count = 0 then (claimed s v false []).setSeq v { q with pos := close + 1 }
       else (claimed s v false []).setSeq v { q with
         nest := { start := (s.pos v).beat, count := count.toNat, period := period.toNat, k := 0, body := q.pos
                   close := close } :: q.nest }) := by
  rw [nestOpenEff, claimed_seqOf, claimed_code (run_isSome_of_canIssue h)]

end Ops

/-- Settles O9: each op's effect is a write of its sequencer as the issue has left it. -/
theorem sequencerOpsComplete : Obligations.SequencerOpsComplete := by
  refine ⟨fun s v h => ⟨exec_nop h, fun count pos => ?_, fun g base => ?_, fun g level stride => ?_, exec_stepEnd h⟩,
    fun s v level count period h lv lt pos => ⟨_, exec_nestOpen h lv lt pos, ?_⟩⟩
  · have op : exec (.idle v count) s = issueOp s v false true [] (idleEff v count) := by
      show issueOp s v false (count != 0) [] _ = _
      rw [bne_iff_ne.2 pos]
    exact exec_of_setSeq (f := fun q => { q with ref := (s.pos v).beat + count.toNat }) h op (fun _ => rfl) fun _ => rfl
  · exact exec_of_setSeq (f := fun q => { q with ag := tset {} q.ag g { tget {} q.ag g with base := base } }) h rfl
      (fun _ => rfl) fun _ => rfl
  · exact exec_of_setSeq (f := fun q => { q with
      ag := tset {} q.ag g { tget {} q.ag g with stride := tset 0 (tget {} q.ag g).stride level stride } }) h rfl
      (fun _ => rfl) fun _ => rfl
  · have run := run_isSome_of_canIssue h
    rw [nestOpenEff_claimed h]
    refine ⟨fun none => ?_, fun some => ?_⟩
    · rw [if_pos none]
      exact leaves_setSeq run rfl
    · rw [if_neg some]
      exact leaves_setSeq run rfl

end Sys2Proof.Proofs
end

section
/-!
Commands to the companions (O16; R101 to R103, R106): what their issue leaves, when their data are read, and the breach of a
queue's bounds.
-/

namespace Sys2Proof.Proofs

open Sys2Proof.Machine Sys2Proof.Laws

variable {s t : State} {v : VMove} {e : Bool} {as : List Access}

/-! ### What an issue leaves for the queues -/

theorem claimed_qOf (k : Nat) : (claimed s v e as).qOf k = s.qOf k := by
  have queue : (claimed s v e as).queue = ((claimed s v e as).unissued s).queue := rfl
  rw [State.qOf, queue, claimed_unissued]
  rfl

theorem qDecl_congr (plan : t.run.map (·.plan) = s.run.map (·.plan)) (n q : Nat) : t.qDecl n q = s.qDecl n q := by
  unfold State.qDecl
  cases hs : s.run <;> cases ht : t.run <;> simp_all

theorem claimed_qDecl (q : Nat) : (claimed s v e as).qDecl v q = s.qDecl v q :=
  qDecl_congr (claimed_map fun _ _ _ _ _ _ _ => rfl) v q

theorem claimed_discarded : (claimed s v e as).discarded = s.discarded := by
  rw [State.discarded, claimed_map fun _ _ _ _ _ _ _ => rfl, State.discarded]

theorem claimed_readable (h : Nat) : (claimed s v e as).readable h = s.readable h := by
  have slot (t : State) : t.run.bind (fun r => r.slotOf h) = (t.run.map fun r => r.slotOf h).join := by cases t.run <;> rfl
  rw [State.readable, slot, claimed_map fun _ _ _ _ _ _ _ => rfl, ← slot, State.readable]

theorem leaves_setQ (run : s.run.isSome = true) (k : Nat) (u : Queue) :
    s.leaves v ((s.issuedBy v e).setQ k u) ((claimed s v e as).setQ k u) [] := by
  obtain ⟨kept, unissued, flights⟩ := leaves_claimed (v := v) (e := e) (as := as) run
  exact ⟨kept, congrArg (State.setQ · k u) unissued, flights⟩

theorem leaves_addFlight {u t : State} {ws : List Work} (h : s.leaves v u t ws) (same : (t.seqOf v).opAddr = (s.seqOf v).opAddr)
    (w : Work) : s.leaves v u (addFlight t (s.pos v) w) (ws ++ [w]) := by
  obtain ⟨⟨r, r', hr, hr', kept⟩, unissued, flights⟩ := h
  refine ⟨⟨r, _, hr, congrArg (Option.map _) hr', kept⟩, unissued, ?_⟩
  rw [List.map_append, ← List.append_assoc, ← flights]
  simp [State.flights, addFlight, hr', State.flying]
  exact same

/-! ### The issue of a command -/

/-- A queue with a command after those it holds. -/
def Queue.pushed (u : Queue) (c : Cmd) : Queue := { u with issued := u.issued + 1, cmds := u.cmds ++ [c] }

theorem pushed_ne (u : Queue) (c : Cmd) : Queue.pushed u c ≠ {} := fun h => by
  have cmds := congrArg Queue.cmds h
  simp [Queue.pushed] at cmds

theorem pushCmd_of_room {q : Nat} {c : Cmd} (on : s.discarded = false)
    (depth : ((s.qOf (qKey v q)).issued - (s.qOf (qKey v q)).retired).toNat ≠ (s.qDecl v q).1)
    (share : (s.qOf (qKey v q)).reserved c.pos.beat + c.rows ≤ (s.qDecl v q).2) :
    pushCmd s v q c = s.setQ (qKey v q) (Queue.pushed (s.qOf (qKey v q)) c) := by
  have stands : s.cancelsAtOnce v = false := by rw [State.cancelsAtOnce, on]; rfl
  simp only [pushCmd, if_neg depth, if_neg (Nat.not_lt.2 share), stands]
  rfl

theorem qOf_setQ_pushed (s : State) (k : Nat) (u : Queue) (c : Cmd) :
    ((s.setQ k (Queue.pushed u c)).qOf k) = Queue.pushed u c :=
  tget_tset_of_ne _ _ _ _ (pushed_ne u c)

/-- A command as it stands in its queue after its issue. -/
def issuedCmd (s : State) (v : VMove) (c : Instr) (src : List (Nat × Nat)) (data : List Bytes) (rows : Nat) : Cmd :=
  { op := c, pos := s.pos v, opAddr := (s.seqOf v).opAddr, data := data, ready := src.isEmpty, rows := rows }

section Issue

variable {ty q rows : Nat} {c : Instr} {src : List (Nat × Nat)} {data : List Bytes} {fixed : State → List Bytes}
  {pre : State → Option (Nat × Nat × Nat)} {post : State → State}

/-- The effect of a command op that is issued. -/
theorem issueCmd_ok (can : s.canEngine v = true) (type : s.vtype v = ty) (ext : s.inExtents v (reads src)) :
    issueCmd s v ty q true [] c src fixed rows (fun _ => none) id = .next (
      let t := claimed s v true (reads src)
      let t' := pushCmd t v q (issuedCmd s v c src (fixed t) rows)
      if (t'.qOf (qKey v q)).issued = (t.qOf (qKey v q)).issued then t'
      else if src.isEmpty then t' else addFlight t' (s.pos v) (.source q c src)) := by
  have defined : (true && s.vtype v == ty) = true := by rw [type, beq_self_eq_true]; rfl
  rw [issueCmd, issueEngine, issueOp_ok s v true _ _ _ can defined (by rwa [List.append_nil]), List.append_nil]
  have addr : (s.seqOf v).opAddr = ((claimed s v true (reads src)).seqOf v).opAddr := by rw [claimed_seqOf]; rfl
  simp only [issuedCmd, addr]
  rfl

/-- A command op whose queue has room for it issues: the command stands last in the queue. -/
theorem exec_issues (op : exec c s = issueCmd s v ty q true [] c src fixed rows (fun _ => none) id)
    (can : s.canEngine v = true) (on : s.discarded = false)
    (fix : fixed (claimed s v true (reads src)) = data) (type : s.vtype v = ty)
    (depth : ((s.qOf (qKey v q)).issued - (s.qOf (qKey v q)).retired).toNat ≠ (s.qDecl v q).1)
    (share : (s.qOf (qKey v q)).reserved (s.mvOf (s.phys v)).beats + rows ≤ (s.qDecl v q).2) (ext : s.inExtents v (reads src)) :
    ∃ t, exec c s = .next t ∧ s.leaves v ((s.issuedBy v).setQ (qKey v q) (Queue.pushed (s.qOf (qKey v q)) (issuedCmd s v c src data rows))) t
      (if src.isEmpty then [] else [.source q c src]) := by
  obtain ⟨r, running⟩ := run_of_may s v true can
  have run : s.run.isSome = true := by rw [running]; rfl
  have push : pushCmd (claimed s v true (reads src)) v q (issuedCmd s v c src data rows)
      = (claimed s v true (reads src)).setQ (qKey v q) (Queue.pushed (s.qOf (qKey v q)) (issuedCmd s v c src data rows)) := by
    rw [← claimed_qOf (v := v) (e := true) (as := reads src)]
    refine pushCmd_of_room (claimed_discarded.trans on) ?_ ?_
    · rwa [claimed_qOf, claimed_qDecl]
    · rwa [claimed_qOf, claimed_qDecl]
  have counted : ¬ (s.qOf (qKey v q)).issued + 1 = (s.qOf (qKey v q)).issued := by bv_omega
  refine ⟨_, op.trans (issueCmd_ok can type ext), ?_⟩
  dsimp only
  rw [fix, push, qOf_setQ_pushed, claimed_qOf]
  rw [if_neg (by exact counted)]
  have queued := leaves_setQ (v := v) (e := true) (as := reads src) run (qKey v q)
    (Queue.pushed (s.qOf (qKey v q)) (issuedCmd s v c src data rows))
  split
  · exact queued
  · refine leaves_addFlight queued ?_ _
    show ((claimed s v true (reads src)).seqOf v).opAddr = _
    rw [claimed_seqOf]
    rfl

/-! ### A queue with no room (R106, R108) -/

/-- A plan fault at a plan position (R108, R109): the step records it and is to end. -/
theorem planFault_breaks {t : State} {r : Run} (run : t.run = some r) (pos : PlanPos) (code detail operand : Nat) :
    let t' := planFault t pos code detail operand
    t'.queue = t.queue ∧ t'.stop.state ≠ 0 ∧ t'.stop.ending = true ∧
      ∃ r' b, t'.run = some r' ∧ r'.breaches = r.breaches ++ [b] ∧ b.code = code ∧ b.detail = detail ∧ b.operand = operand ∧
        b.pos = pos := by
  dsimp only [planFault, breach]
  rw [run]
  dsimp only [requestStop]
  split
  · exact ⟨rfl, Nat.one_ne_zero, rfl, _, _, congrArg (Option.map _) run, rfl, rfl, rfl, rfl, rfl⟩
  · next standing =>
    exact ⟨rfl, standing, Bool.or_true _, _, _, congrArg (Option.map _) run, rfl, rfl, rfl, rfl, rfl⟩

theorem claimed_breaches {r : Run} (run : s.run = some r) : ∃ r', (claimed s v e as).run = some r' ∧ r'.breaches = r.breaches := by
  obtain ⟨r', run', -⟩ := claimed_run (v := v) (e := e) (as := as) run
  have same := claimed_map (s := s) (v := v) (e := e) (as := as) (g := Run.breaches) fun _ _ _ _ _ _ _ => rfl
  rw [run, run'] at same
  exact ⟨r', run', Option.some.inj same⟩

/-- A command op that its queue refuses is in breach, and is not issued. -/
theorem exec_breaks {detail : Nat} {r : Run}
    (op : exec c s = issueCmd s v ty q true [] c [] fixed rows (fun _ => none) id) (run : s.run = some r) (can : s.canEngine v = true) (type : s.vtype v = ty)
    (refused : ∀ t : State, t.qOf (qKey v q) = s.qOf (qKey v q) → t.qDecl v q = s.qDecl v q →
      pushCmd t v q (issuedCmd s v c [] (fixed t) rows) = planFault t (s.pos v) pfQueue detail q) :
    ∃ t r' b, exec c s = .next t ∧ t.run = some r' ∧ t.queue = s.queue ∧
      r'.breaches = r.breaches ++ [b] ∧ b.code = 5 ∧ b.detail = detail ∧ b.operand = q ∧ b.pos = s.pos v ∧
      t.stop.state ≠ 0 ∧ t.stop.ending = true := by
  obtain ⟨r1, run1, breaches⟩ := claimed_breaches (v := v) (e := true) (as := reads []) run
  obtain ⟨queue, state, ending, r', b, run', found, code, det, operand, pos⟩ :=
    planFault_breaks run1 (s.pos v) pfQueue detail q
  have same : (planFault (claimed s v true (reads [])) (s.pos v) pfQueue detail q).qOf (qKey v q)
      = (claimed s v true (reads [])).qOf (qKey v q) := congrArg (fun m => tget ({} : Queue) m (qKey v q)) queue
  have unmoved : (claimed s v true (reads [])).queue = s.queue := by
    have back : (claimed s v true (reads [])).queue = ((claimed s v true (reads [])).unissued s).queue := rfl
    rw [back, claimed_unissued]
    rfl
  have reaches : s.inExtents v (reads []) := by
    intro _ _ a ha
    cases ha
  rw [op, issueCmd_ok can type reaches]
  dsimp only
  rw [refused _ (claimed_qOf _) (claimed_qDecl _), same, if_pos rfl]
  exact ⟨_, r', b, rfl, run', queue.trans unmoved, by rw [found, breaches], code, det, operand, pos, state, ending⟩

end Issue

/-! ### The source rows (R103) -/

theorem sourceEnd_waiting {p : PlanPos} {k i : Nat} {c : Cmd} (rows : List Bytes)
    (h : (s.qOf (qKey p.vmove k)).waiting p = some (i, c)) :
    sourceEnd p.vmove k rows p s = s.setQ (qKey p.vmove k) { s.qOf (qKey p.vmove k) with
      cmds := (s.qOf (qKey p.vmove k)).cmds.set i { c with data := rows, ready := true } } := by
  rw [sourceEnd, h]
  rfl

/-- Of an op that is no FSEND and no HWRITE the rows read go to its command alone. -/
theorem does_source {p : PlanPos} {k : Nat} {op : Instr} {rows : List (Nat × Nat)}
    (send : ∀ v a f n b e, op ≠ .fsend v a f n b e) (write : ∀ v a b n o e, op ≠ .hwrite v a b n o e) :
    s.does p (.source k op rows) = sourceEnd p.vmove k (readAll s rows) p s := by
  show sourcePart p.vmove k op rows p s = _
  unfold sourcePart
  split
  · exact (send _ _ _ _ _ _ rfl).elim
  · exact (write _ _ _ _ _ _ rfl).elim
  · rfl

theorem exec_zero {off units : W32} {reg : Byte} {k : Fin 8} (pos : units ≠ 0) :
    exec (.zero v off reg units k) s = issueCmd s v 6 k true [] (.zero v off reg units k) [] (fun _ => []) 0 (fun _ => none) id := by
  rw [← bne_iff_ne.2 pos]
  rfl

/-- Settles O16: every one of these ops is `issueCmd` with its queue, its rows and its data. -/
theorem companionCommandsIssue : Obligations.CompanionCommandsIssue := by
  refine ⟨fun s v can on => ?_, fun s p k i op rows c waiting send write => ?_, fun s v off reg n k r run can type => ⟨?_, ?_⟩⟩
  · refine ⟨?_, ?_, ?_, ?_, ?_, ?_, ?_, ?_, ?_, ?_, ?_, ?_⟩
    case refine_8 =>
      intro off reg units k pos type u depth share ext
      exact exec_issues (exec_zero pos) can on rfl type depth share ext
    case refine_11 =>
      intro first np n srow h k type u depth share ext
      exact exec_issues (fixed := fun t => [leBytes 8 (t.readable h.toNat)]) rfl can on (by rw [claimed_readable]) type depth
        share ext
    all_goals
      intros
      intro type u depth share ext
      exact exec_issues (fixed := fun _ => []) rfl can on rfl type depth share ext
  · exact (does_source send write).trans (sourceEnd_waiting _ waiting)
  · intro full
    refine exec_breaks (fixed := fun _ => []) rfl run can type fun t same decl => ?_
    rw [pushCmd, same, decl]
    exact if_pos full
  · intro depth share
    refine exec_breaks (fixed := fun _ => []) rfl run can type fun t same decl => ?_
    rw [pushCmd, same, decl]
    exact (if_neg depth).trans (if_pos share)

end Sys2Proof.Proofs
end

section
/-!
Instruction fetch (O42; R98 to R100, R294): requests and arrivals of blocks of 32 words.
-/

namespace Sys2Proof.Proofs

open Sys2Proof.Machine Sys2Proof.Laws

variable {s : State} {v : Nat}

theorem seqOf_setSeq (rising : risingFrom 0 s.seq = true) (v : Nat) (q : Seq) : (s.setSeq v q).seqOf v = q :=
  tget_tset ({} : Seq) s.seq v 0 q rising

theorem setSeq_frame (s : State) (v : Nat) (q : Seq) : { s.setSeq v q with seq := s.seq } = s := rfl

/-! ### Requests -/

theorem exec_fetchRequest (n : Mv) (room : (s.seqOf (s.virt n)).roomy = true) :
    exec (.fetchRequest n) s = .next (fetchRequestEff (s.virt n) s) :=
  if_pos room

theorem fetchRequestEff_running (run : s.run.isSome = true) (more : (s.seqOf v).fetchNext < (s.code v).length) :
    fetchRequestEff v s = s.setSeq v { s.seqOf v with
      fetching := (s.seqOf v).fetching ++ [(s.seqOf v).fetchNext], fetchNext := (s.seqOf v).fetchNext + 32 } :=
  if_pos ⟨run, more⟩

theorem fetchRequestEff_next {p : Plan} (run : s.run = none) (plan : s.nextPlan = some p)
    (more : (s.seqOf v).fetchNext2 < (p.codeOf v).length) :
    fetchRequestEff v s = s.setSeq v { s.seqOf v with
      fetching2 := (s.seqOf v).fetching2 ++ [(s.seqOf v).fetchNext2], fetchNext2 := (s.seqOf v).fetchNext2 + 32 } := by
  have idle : ¬ (s.run.isSome = true ∧ (s.seqOf v).fetchNext < (s.code v).length) := by simp [run]
  have fetched : s.fetchedAll v = true := by rw [State.fetchedAll, run]
  simp only [fetchRequestEff, if_neg idle, plan, fetched, more, and_self, if_true]

/-! ### Arrivals -/

/-- Upsets lie in the stacks. -/
theorem upsetUnits_stack (us : List UnitUpset) (s : State) : ∃ k, upsetUnits us s = { s with stack := k } := by
  induction us generalizing s with
  | nil => exact ⟨_, rfl⟩
  | cons u us ih =>
    obtain ⟨k, hk⟩ := ih (upsetUnits [u] s)
    exact ⟨k, hk⟩

theorem eccUnit_sound {st u : Nat} (clean : u ∉ (s.stackOf st).poisoned) (right : tfind (s.stackOf st).errs u = none)
    (detail : Bytes) : eccUnit s st u detail = (s, true) := by
  have unpoisoned : (s.stackOf st).poisoned.contains u = false := by simpa using clean
  simp only [eccUnit, unpoisoned, right]
  rfl

/-- Reading units with nothing wrong in them leaves no trace. -/
theorem readSystem_sound {us : List (Nat × Nat)} (h : s.sound us) : readSystem s us = s := by
  induction us with
  | nil => rfl
  | cons u us ih =>
    obtain ⟨clean, right⟩ := h u List.mem_cons_self
    rw [readSystem, List.foldl_cons, eccUnit_sound clean right]
    exact ih fun w hw => h w (List.mem_cons_of_mem u hw)

/-- Whether a sequencer has a block in flight. -/
def Seq.awaits (q : Seq) : Prop := q.fetching.isEmpty = false ∨ q.fetching2.isEmpty = false

theorem exec_fetchArrival (n : Mv) (us : List UnitUpset) (h : Seq.awaits (s.seqOf (s.virt n))) :
    exec (.fetchArrival n us) s = .next (fetchArrivalEff (s.virt n) us s) :=
  if_pos h

theorem awaits_of_ne {q : Seq} (h : q.fetching ≠ [] ∨ q.fetching2 ≠ []) : Seq.awaits q :=
  h.imp List.isEmpty_eq_false_iff.2 List.isEmpty_eq_false_iff.2

/-- Upsets that come with a block are upsets before it. -/
theorem exec_fetchArrival_upsets (n : Mv) (us : List UnitUpset) (h : Seq.awaits (s.seqOf (s.virt n))) :
    exec (.fetchArrival n us) s = exec (.fetchArrival n []) (upsetUnits us s) := by
  obtain ⟨k, upset⟩ := upsetUnits_stack us s
  have still : Seq.awaits ((upsetUnits us s).seqOf ((upsetUnits us s).virt n)) := by rw [upset]; exact h
  rw [exec_fetchArrival n us h, exec_fetchArrival n [] still]
  have same : (upsetUnits us s).virt n = s.virt n := by rw [upset]; rfl
  rw [same]
  rfl

theorem exec_fetchArrival_sound (n : Mv) (h : Seq.awaits (s.seqOf (s.virt n))) (units : s.sound (s.arriving (s.virt n))) :
    exec (.fetchArrival n []) s = .next (arriveBlock (s.virt n) s) := by
  have read : fetchArrivalEff (s.virt n) [] s = arriveBlock (s.virt n) (readSystem s (s.arriving (s.virt n))) := rfl
  rw [exec_fetchArrival n [] h, read, readSystem_sound units]

theorem arriveBlock_running {i : Nat} {is : List Nat} (h : (s.seqOf v).fetching = i :: is) :
    arriveBlock v s = s.setSeq v { s.seqOf v with
      fetching := is
      iq := ((s.seqOf v).iq ++ blockWords (s.code v) i).filter fun e => decide ((s.seqOf v).keepFrom ≤ e.1) } := by
  simp only [arriveBlock, h]
  rfl

theorem arriveBlock_next {i : Nat} {is : List Nat} {p : Plan} (none : (s.seqOf v).fetching = [])
    (h : (s.seqOf v).fetching2 = i :: is) (plan : s.nextPlan = some p) :
    arriveBlock v s = s.setSeq v { s.seqOf v with
      fetching2 := is, iqNext := (s.seqOf v).iqNext ++ blockWords (p.codeOf v) i } := by
  simp only [arriveBlock, none, h, plan]

/-- Settles O42: a request and an arrival each write the one sequencer. -/
theorem instructionFetch : Obligations.InstructionFetch := by
  intro s n rising
  refine ⟨fun run room more => ?_, fun p run room plan more => ?_, fun us h => exec_fetchArrival_upsets n us (awaits_of_ne h),
    fun i is h units => ?_, fun i is p none h plan units => ?_⟩
  · exact ⟨_, exec_fetchRequest n room, fetchRequestEff_running run more ▸ ⟨rfl, seqOf_setSeq rising _ _⟩⟩
  · exact ⟨_, exec_fetchRequest n room, fetchRequestEff_next run plan more ▸ ⟨rfl, seqOf_setSeq rising _ _⟩⟩
  · have awaits := awaits_of_ne (.inl (h ▸ List.cons_ne_nil i is))
    refine ⟨_, exec_fetchArrival_sound n awaits units, ?_⟩
    rw [arriveBlock_running h, seqOf_setSeq rising]
    exact ⟨rfl, rfl, rfl, rfl⟩
  · have awaits := awaits_of_ne (.inr (h ▸ List.cons_ne_nil i is))
    refine ⟨_, exec_fetchArrival_sound n awaits units, ?_⟩
    rw [arriveBlock_next none h plan, seqOf_setSeq rising]
    exact ⟨rfl, rfl⟩

end Sys2Proof.Proofs
end

section
/-!
The intake (O25; R95 to R97, R316, R345 to R352, R377, R381): a descriptor is fetched and accepted, a NOP completes, and a
STEP joins the accepted steps. Completions as every descriptor's meaning writes them (R346, R357, R364) come first.
-/

namespace Sys2Proof.Proofs

open Sys2Proof.Machine Sys2Proof.Laws

variable {s t u : State}

/-! ### Transmissions -/

/-- `t` is `s` but for what it has sent since. -/
def Sends (s t : State) : Prop := ∃ os, t = { s with out := s.out ++ os }

/-- `t` is `s` but for what it has sent since and for the records of the functions. -/
def Signals (s t : State) : Prop := ∃ fns os, t = { s with fns := fns, out := s.out ++ os }

theorem Sends.refl (s : State) : Sends s s := ⟨[], by rw [List.append_nil]⟩

theorem Sends.emit (s : State) (o : Out) : Sends s (s.emit o) := ⟨[o], rfl⟩

theorem Sends.trans (h : Sends s t) (k : Sends t u) : Sends s u := by
  obtain ⟨os, rfl⟩ := h
  obtain ⟨ps, rfl⟩ := k
  exact ⟨os ++ ps, by simp only [List.append_assoc]⟩

theorem Sends.signals (h : Sends s t) : Signals s t := by
  obtain ⟨os, rfl⟩ := h
  exact ⟨s.fns, os, rfl⟩

theorem Signals.setFn (s : State) (f : Nat) (x : FnState) : Signals s (s.setFn f x) :=
  ⟨_, [], by rw [List.append_nil]; rfl⟩

theorem Signals.trans (h : Signals s t) (k : Signals t u) : Signals s u := by
  obtain ⟨fns, os, rfl⟩ := h
  obtain ⟨fns', ps, rfl⟩ := k
  exact ⟨fns', os ++ ps, by simp only [List.append_assoc]⟩

theorem sendMsix_signals (s : State) (f v : Nat) : Signals s (sendMsix s f v) := by
  unfold sendMsix
  dsimp only
  split
  · exact (Sends.refl s).signals
  · split
    · exact .setFn s f _
    · exact (Signals.setFn s f _).trans (Sends.emit _ _).signals

theorem coalesce_signals (s : State) (f q : Nat) (irq : Bool) : Signals s (coalesce s f q irq) := by
  unfold coalesce
  dsimp only
  split
  · split
    · exact (Signals.setFn s f _).trans (sendMsix_signals _ _ _)
    · exact .setFn s f _
  · exact (Sends.refl s).signals

theorem hostWrite_sends (s : State) (f : Nat) (p : Option Nat) (addr : W64) (b : Bytes) : Sends s (hostWrite s f p addr b) := by
  unfold hostWrite
  split
  · exact .refl s
  · exact .emit s _

theorem writeEvent_sends (s : State) (f o v : Nat) : Sends s (writeEvent s f o v) := by
  unfold writeEvent
  dsimp only
  split
  · exact hostWrite_sends s _ _ _ _
  · exact .refl s

theorem sqEvent_sends (s : State) (f q : Nat) : Sends s (sqEvent s f q) := by
  unfold sqEvent
  dsimp only
  split
  · exact writeEvent_sends s _ _ _
  · exact .refl s

theorem cqEvent_sends (s : State) (f q : Nat) : Sends s (cqEvent s f q) := by
  unfold cqEvent
  dsimp only
  split
  · exact writeEvent_sends s _ _ _
  · exact .refl s

theorem ringEvents_sends (s : State) (f q : Nat) : Sends s (cqEvent (sqEvent s f q) f q) :=
  (sqEvent_sends s f q).trans (cqEvent_sends _ f q)

/-! ### Completions -/

/-- `s` with descriptor `a`, accepted under `acc`, released, and its entry written at the tail of its ring. -/
def entered (s : State) (acc : Nat) (a : Acc) (status detail : Nat) (r : Results) : State :=
  let c := s.cqOf a.fn a.cq
  { s with intake := { s.intake with acc := tdel acc s.intake.acc }
           out := s.out ++ [.dma a.fn (pasidOf c.pasidEn c.pasid) (c.base + BitVec.ofNat 64 (32 * c.tail))
             (completionBytes a status detail r c.phase) false] }

section

variable {acc kind : Nat} {a : Acc} (served : s.serves acc kind a) (status detail : Nat) (r : Results)
include served

/-- A completion is one entry in its ring, and then what the ring and its interrupt keep of it. -/
theorem complete_signals : Signals (entered s acc a status detail r) (complete s acc status detail r) := by
  obtain ⟨found, -, -, mute, live, going⟩ := served
  have written : ∃ c irq, complete s acc status detail r =
      coalesce ((entered s acc a status detail r).setCq a.fn a.cq c) a.fn a.cq irq := by
    unfold complete
    rw [found]
    exact ⟨_, _, (if_neg (Bool.eq_false_iff.1 mute)).trans <| (if_neg (Bool.eq_false_iff.1 live)).trans <|
      if_neg (Bool.eq_false_iff.1 going)⟩
  obtain ⟨c, irq, e⟩ := written
  exact e ▸ (Signals.setFn _ _ _).trans (coalesce_signals _ _ _ _)

theorem complete_completes : Completes s (complete s acc status detail r) acc a status detail r := by
  obtain ⟨fns, os, e⟩ := complete_signals served status detail r
  rw [e]
  exact ⟨rfl, List.mem_append_left _ (List.mem_append_right _ List.mem_cons_self)⟩

theorem complete_uncompleted : (complete s acc status detail r).uncompleted s = s := by
  obtain ⟨fns, os, e⟩ := complete_signals served status detail r
  rw [e]
  rfl

end

/-- A descriptor whose work has not begun is answered by the meaning of its kind. -/
theorem serve_served {acc kind : Nat} {a : Acc} (served : s.serves acc kind a) (f : Acc → Res) : serve s acc kind f = f a := by
  obtain ⟨found, kindEq, fresh, -⟩ := served
  simp only [serve, found, kindEq, fresh, and_self, if_true]

theorem exec_nopDescriptor {acc : Nat} {a : Acc} (served : s.serves acc 0x30 a) :
    exec (.nopDescriptor acc) s = .next (complete s acc 0 0) :=
  serve_served served _

/-! ### Fetch -/

theorem exec_descriptorFetch {f q : Nat} (d : Bytes) (fn : s.cad.fn = some f) (sq : s.nextSq f = some q)
    (isOpen : s.fetchOpen f = true) : exec (.descriptorFetch (.ok d)) s = .next (descriptorFetchEff f q (.ok d) s) := by
  have e : exec (.descriptorFetch (.ok d)) s = execDescriptorFetch (.ok d) s := rfl
  rw [e, execDescriptorFetch, fn]
  dsimp only
  rw [sq]
  exact if_pos isOpen

theorem descriptorFetchEff_ok (s : State) (f q : Nat) (d : Bytes) : ∃ fns n, descriptorFetchEff f q (.ok d) s =
    { s with fns := fns
             out := s.out ++ [.hostRead f ((s.sqOf f q).base + BitVec.ofNat 64 (128 * (s.sqOf f q).head)) 128]
             intake := { s.intake with sq := some q, taken := n, fetched := some { fn := f, sq := q, data := .ok d } } } :=
  ⟨_, _, rfl⟩

/-! ### Acceptance -/

section

variable {f q : Nat}

theorem fnOf_setFn_of_ne {x : FnState} (h : x ≠ {}) : (s.setFn f x).fnOf f = x := tget_tset_of_ne _ _ _ _ h

/-- A ring that is not as at reset is written in any table of functions. -/
theorem fnOf_setSq {r : Sq} (h : r ≠ {}) :
    (s.setSq f q r).fnOf f = { s.fnOf f with sq := tset {} (s.fnOf f).sq q r } := by
  refine fnOf_setFn_of_ne fun e => h ?_
  have read := tget_tset_of_ne ({} : Sq) (s.fnOf f).sq q r h
  have emptied : tset {} (s.fnOf f).sq q r = [] := congrArg FnState.sq e
  rw [← read, emptied, tget_nil]

theorem fnOf_setCq {c : Cq} (h : c ≠ {}) :
    (s.setCq f q c).fnOf f = { s.fnOf f with cq := tset {} (s.fnOf f).cq q c } := by
  refine fnOf_setFn_of_ne fun e => h ?_
  have read := tget_tset_of_ne ({} : Cq) (s.fnOf f).cq q c h
  have emptied : tset {} (s.fnOf f).cq q c = [] := congrArg FnState.cq e
  rw [← read, emptied, tget_nil]

theorem sqOf_setSq {r : Sq} (h : r ≠ {}) : (s.setSq f q r).sqOf f q = r := by
  rw [State.sqOf, fnOf_setSq h]
  exact tget_tset_of_ne _ _ _ _ h

theorem cqOf_setSq {r : Sq} (h : r ≠ {}) (k : Nat) : (s.setSq f q r).cqOf f k = s.cqOf f k := by
  rw [State.cqOf, fnOf_setSq h]
  rfl

theorem cqOf_setCq {c : Cq} (h : c ≠ {}) : (s.setCq f q c).cqOf f q = c := by
  rw [State.cqOf, fnOf_setCq h]
  exact tget_tset_of_ne _ _ _ _ h

theorem sqOf_setCq {c : Cq} (h : c ≠ {}) (k : Nat) : (s.setCq f q c).sqOf f k = s.sqOf f k := by
  rw [State.sqOf, fnOf_setCq h]
  rfl

theorem sq_ne_of_enable {r : Sq} (h : r.enable = true) : r ≠ {} := by
  rintro rfl
  exact Bool.noConfusion h

theorem cq_ne_of_enable {c : Cq} (h : c.enable = true) : c ≠ {} := by
  rintro rfl
  exact Bool.noConfusion h

theorem tfind_tput {α : Type} (k : Nat) (v : α) (m : Tbl α) : tfind (tput k v m) k = some v := by
  induction m with
  | nil => simp [tput, tfind]
  | cons e m ih =>
    simp only [tput]
    split_ifs with above same
    · simp [tfind]
    · simp [tfind]
    · simp [tfind, same, ih]

/-- A submission ring with a descriptor of it accepted. -/
def taken (r : Sq) : Sq :=
  { r with head := (r.head + 1) % 2 ^ r.sizeLog2, seq := r.seq + 1, marks := trimMarks r.marks (r.seq + 1) }

/-- A completion ring with one entry more reserved. -/
def reserved (c : Cq) : Cq := { c with resv := c.resv + 1 }

/-- What the acceptance of a descriptor accepts. -/
def accepted (s : State) (f q : Nat) (d : Bytes) : Acc :=
  let r := s.sqOf f q
  { fn := f, sq := q, cq := r.cq, desc := d, pasid := pasidOf r.pasidEn r.pasid
    windows := windowsOf r.marks r.seq s.cad.begun, sqHead := (r.head + 1) % 2 ^ r.sizeLog2, window := s.ownWindow }

/-- The rings of an acceptance: HEAD moves, and an entry is reserved. -/
def acceptedRings (s : State) (f q : Nat) : State :=
  (s.setSq f q (taken (s.sqOf f q))).setCq f (s.sqOf f q).cq
    (reserved ((s.setSq f q (taken (s.sqOf f q))).cqOf f (s.sqOf f q).cq))

/-- `t` is `s` but for the records of the functions. -/
def OnlyFns (s t : State) : Prop := t = { s with fns := t.fns }

theorem OnlyFns.trans (h : OnlyFns s t) (k : OnlyFns t u) : OnlyFns s u :=
  Eq.trans k (congrArg (fun w : State => { w with fns := u.fns }) h)

theorem setFn_onlyFns (s : State) (f : Nat) (x : FnState) : OnlyFns s (s.setFn f x) := by rfl

theorem acceptedRings_onlyFns (s : State) (f q : Nat) : OnlyFns s (acceptedRings s f q) :=
  (setFn_onlyFns _ _ _).trans (setFn_onlyFns _ _ _)

/-- `t` with descriptor `a` accepted under number `n`. -/
def withAccepted (t : State) (n : Nat) (a : Acc) : State :=
  { t with intake := { t.intake with next := n + 1, fetched := none, acc := tput n a t.intake.acc } }

theorem Sends.withAccepted {fns : Tbl FnState} {n : Nat} {a : Acc}
    (h : Sends (Proofs.withAccepted { s with fns := fns } n a) t) :
    ∃ os, t = Proofs.withAccepted { s with fns := fns, out := s.out ++ os } n a := by
  obtain ⟨os, rfl⟩ := h
  exact ⟨os, rfl⟩

theorem acceptDesc_eq (s : State) (f q : Nat) (d : Bytes) : acceptDesc s f q d =
    (cqEvent (sqEvent (withAccepted (acceptedRings s f q) s.intake.next (accepted s f q d)) f q) f q, s.intake.next) := by
  unfold acceptDesc withAccepted acceptedRings accepted reserved taken
  rfl

theorem acceptDesc_sends (s : State) (f q : Nat) (d : Bytes) :
    Sends (withAccepted { s with fns := (acceptedRings s f q).fns } s.intake.next (accepted s f q d))
      (acceptDesc s f q d).1 := by
  rw [acceptDesc_eq, ← acceptedRings_onlyFns s f q]
  dsimp only
  exact ringEvents_sends _ f q

variable (sqOn : (s.sqOf f q).enable = true) (cqOn : (s.cqOf f (s.sqOf f q).cq).enable = true)
include sqOn cqOn

theorem sqOf_acceptedRings : (acceptedRings s f q).sqOf f q = taken (s.sqOf f q) := by
  have sqNe : taken (s.sqOf f q) ≠ {} := sq_ne_of_enable sqOn
  have cqNe : reserved ((s.setSq f q (taken (s.sqOf f q))).cqOf f (s.sqOf f q).cq) ≠ {} :=
    cq_ne_of_enable (by rw [cqOf_setSq sqNe]; exact cqOn)
  exact (sqOf_setCq cqNe q).trans (sqOf_setSq sqNe)

theorem cqOf_acceptedRings :
    (acceptedRings s f q).cqOf f (s.sqOf f q).cq = reserved (s.cqOf f (s.sqOf f q).cq) := by
  have sqNe : taken (s.sqOf f q) ≠ {} := sq_ne_of_enable sqOn
  have cqNe : reserved (s.cqOf f (s.sqOf f q).cq) ≠ {} := cq_ne_of_enable cqOn
  rw [acceptedRings, cqOf_setSq sqNe]
  exact cqOf_setCq cqNe

/-- An acceptance is the descriptor under its number, its rings, and the event indices that may be sent. -/
theorem acceptDesc_leaves (d : Bytes) : ∃ fns os,
    (acceptDesc s f q d).1 = withAccepted { s with fns := fns, out := s.out ++ os } s.intake.next (accepted s f q d) ∧
      tget {} (tget {} fns f).sq q = taken (s.sqOf f q) ∧
      tget {} (tget {} fns f).cq (s.sqOf f q).cq = reserved (s.cqOf f (s.sqOf f q).cq) := by
  obtain ⟨os, e⟩ := (acceptDesc_sends s f q d).withAccepted
  exact ⟨(acceptedRings s f q).fns, os, e, sqOf_acceptedRings sqOn cqOn, cqOf_acceptedRings sqOn cqOn⟩

end

/-- With nothing recorded an acceptance leaves no entry in the log. -/
theorem acceptLog_unrecorded {acc f q : Nat} {d : Bytes} (h : s.recording = false) : acceptLog s acc f q d = s := by
  unfold acceptLog logAccept logEntry
  rw [h]
  exact ite_self s

theorem exec_descriptorAccept {f q : Nat} {d : Bytes} (fetched : s.intake.fetched = some { fn := f, sq := q, data := .ok d })
    (win : s.cad.win.isSome = true) (fn : s.cad.fn = some f) (live : (s.fnOf f).inReset = false) (stop : s.stop.state ≠ 2) :
    exec .descriptorAccept s = .next (descriptorAcceptEff f q d s) := by
  have e : exec .descriptorAccept s = execDescriptorAccept s := rfl
  rw [e, execDescriptorAccept, fetched]
  exact if_pos ⟨win, fn, live, stop⟩

theorem descriptorAcceptEff_passes {f q : Nat} {d : Bytes} (order : s.orderHeld f q d = false) (form : formDetail d = 0)
    (admitted : admitDetail s f d = 0) (fits : fieldAt d 0 1 = 0x01 → s.stepFits (bitsAt d 8 4 5 0) = true)
    (unrecorded : (acceptDesc s f q d).1.recording = false) :
    descriptorAcceptEff f q d s = noteAccept (acceptDesc s f q d).1 (fieldAt d 0 1) s.intake.next := by
  have roomy : ¬ (fieldAt d 0 1 = 0x01 ∧ ¬ s.stepFits (bitsAt d 8 4 5 0) = true) := fun ⟨k, no⟩ => no (fits k)
  have passes : descriptorAcceptEff f q d s =
      noteAccept (acceptLog (acceptDesc s f q d).1 (acceptDesc s f q d).2 f q d) (fieldAt d 0 1) (acceptDesc s f q d).2 :=
    (if_neg (Bool.eq_false_iff.1 order)).trans <| (if_neg (not_not.2 form)).trans <| (if_neg (not_not.2 admitted)).trans <|
      if_neg roomy
  rw [passes, acceptLog_unrecorded unrecorded]
  rfl

/-! ### STEP -/

theorem setSeq_foldl {f : State → Nat → Seq} (l : List Nat) (s : State) :
    ∃ seq, l.foldl (fun s v => s.setSeq v (f s v)) s = { s with seq := seq } := by
  induction l generalizing s with
  | nil => exact ⟨s.seq, rfl⟩
  | cons v l ih =>
    obtain ⟨seq, h⟩ := ih (s.setSeq v (f s v))
    exact ⟨seq, h⟩

/-- Loading the pending patch sets writes sequencers only. -/
theorem loadPending_seq (s : State) : ∃ seq, loadPending s = { s with seq := seq } := by
  unfold loadPending
  split
  · exact ⟨s.seq, rfl⟩
  · split
    · exact setSeq_foldl _ s
    · exact setSeq_foldl _ s
    · exact ⟨s.seq, rfl⟩

theorem logAccept_unrecorded {acc f q : Nat} {d b : Bytes} (h : s.recording = false) : logAccept s acc f q d b = s := by
  unfold logAccept logEntry
  rw [h]
  rfl

/-- `s` with STEP `a` begun and its request last among the accepted steps. -/
def joined (s : State) (acc : Nat) (a : Acc) (patches streams bufs : Bytes) : State :=
  { s with steps := s.steps ++ [stepReq acc a patches streams bufs]
           intake := { s.intake with acc := tput acc { a with begun := true } s.intake.acc } }

section

variable {acc : Nat} {a : Acc} {p : Plan} {patches streams bufs : Bytes}

theorem stepEff_joins (found : tfind s.intake.acc acc = some a) (unrecorded : s.recording = false)
    (slot : s.slotOf (a.bits 8 4 5 0) = .resident p) (chain : chainOk p a = true)
    (patchesIn : patchesOk p (a.bits 8 4 20 8) patches = true) (streamsIn : streamsDetail s a.fn (a.bits 8 4 31 21) streams = 0)
    (bufsIn : bufsOk (a.bits 0xC 4 6 0) bufs = true) :
    stepEff s acc a patches streams bufs =
      if (joined s acc a patches streams bufs).steps.length = 1 then loadPending (joined s acc a patches streams bufs)
      else joined s acc a patches streams bufs := by
  have begun : begin_ { s with steps := s.steps ++ [stepReq acc a patches streams bufs] } acc =
      joined s acc a patches streams bufs := by
    unfold begin_
    rw [found]
    rfl
  unfold stepEff
  rw [slot]
  refine (if_neg (not_not.2 chain)).trans <| (if_neg (not_not.2 patchesIn)).trans <|
    (if_neg (not_not.2 streamsIn)).trans <| (if_neg (not_not.2 bufsIn)).trans ?_
  dsimp only
  rw [logAccept_unrecorded unrecorded, begun]

end

/-- Settles O25: each effect is one state, read off by what it leaves. -/
theorem intakeServes : Obligations.IntakeServes := by
  refine ⟨fun s f q d => ⟨fun fn sq isOpen => ?_, fun fetched win fn live stop order form admitted fits unrecorded sqOn cqOn => ?_⟩,
    fun s acc a => ⟨fun served => ?_,
      fun p patches streams bufs served turn unrecorded slot chain patchesIn unserved streamsIn bufsIn => ?_⟩⟩
  · obtain ⟨fns, n, e⟩ := descriptorFetchEff_ok s f q d
    exact ⟨_, (exec_descriptorFetch d fn sq isOpen).trans (congrArg _ e), rfl, rfl, rfl, rfl, rfl⟩
  · obtain ⟨fns, os, e, sq, cq⟩ := acceptDesc_leaves sqOn cqOn d
    have eff := descriptorAcceptEff_passes order form admitted fits (by rw [e]; exact unrecorded)
    rw [e] at eff
    exact ⟨_, accepted s f q d, (exec_descriptorAccept fetched win fn live stop).trans (congrArg _ eff),
      tfind_tput _ _ _, rfl, rfl, rfl, rfl, rfl, rfl, rfl, rfl, congrArg Sq.head sq, congrArg Cq.resv cq,
      fun k => if_pos k, rfl⟩
  · exact ⟨_, exec_nopDescriptor served, complete_completes served 0 0 {}, complete_uncompleted served 0 0 {}⟩
  · have found := served.1
    have e : exec (.step acc (.ok patches) (.ok streams) (.ok bufs)) s = .next (stepEff s acc a patches streams bufs) :=
      (serve_served served _).trans (if_pos ⟨turn, unserved⟩)
    rw [e, stepEff_joins found unrecorded slot chain patchesIn streamsIn bufsIn]
    refine ⟨_, rfl, ?_⟩
    split_ifs with first
    · obtain ⟨seq, load⟩ := loadPending_seq (joined s acc a patches streams bufs)
      rw [load]
      refine ⟨rfl, tfind_tput _ _ _, rfl, fun others => ?_⟩
      have alone : s.steps.length + 1 = 1 := by simpa [joined] using first
      exact absurd (List.length_eq_zero_iff.1 (by omega)) others
    · exact ⟨rfl, tfind_tput _ _ _, rfl, fun _ => rfl⟩

end Sys2Proof.Proofs
end

section
/-!
The streams' statement fails (O21; R295, R321): its write-back clause says for every state that no stack's written units
change, and asks nothing of the table of stacks. In a table with two entries for one stack the first is in force; where only
the poison of a record's unit keeps that entry from the reset value, the write-back clears the poison, the entry is removed
as equal to the default, and the second entry, whose units differ, comes into force. Where the keys of the table rise, the
clause holds (`units_writtenBack`): that is the hypothesis the statement lacks.
-/

namespace Sys2Proof.Proofs

open Sys2Proof.Machine Sys2Proof.Laws

variable {s t : State}

/-- `s` with the record of every slot of its step `r` written back. -/
def writtenBack (s : State) (r : Run) : State :=
  ((r.slots.map (·.2)).foldl backSlot s).onRun fun r => { r with wroteBack := true }

theorem exec_streamWriteback {r : Run} (run : s.run = some r) (done : s.stepDone = true)
    (left : r.wroteBack = false) : exec .streamWriteback s = .next (writtenBack s r) := by
  have e : exec .streamWriteback s = execStreamWriteback s := rfl
  rw [e, execStreamWriteback, run]
  exact if_pos ⟨done, left⟩

/-! ### What a table of stacks in rising order keeps -/

/-- The stacks of `t` are a table in rising order that holds the same written units as those of `s`. -/
def SameUnits (s t : State) : Prop :=
  risingFrom 0 t.stack = true ∧ ∀ st, (t.stackOf st).units = (s.stackOf st).units

theorem clearSystem_sameUnits (h : SameUnits s t) (u : Nat × Nat) : SameUnits s (clearSystem t u) := by
  obtain ⟨rising, same⟩ := h
  unfold clearSystem
  dsimp only
  split
  · refine ⟨risingFrom_tset _ _ _ rising, fun st => ?_⟩
    by_cases e : st = u.1
    · have read : (t.setStack u.1 ((t.stackOf u.1).clearUnit u.2)).stackOf u.1 = (t.stackOf u.1).clearUnit u.2 :=
        tget_tset _ _ _ 0 _ rising
      rw [e, read]
      exact same u.1
    · have read : (t.setStack u.1 ((t.stackOf u.1).clearUnit u.2)).stackOf st = t.stackOf st := tget_tset_ne _ _ _ _ _ e
      rw [read]
      exact same st
  · exact ⟨rising, same⟩

theorem backSlot_sameUnits (h : SameUnits s t) (b : BSlot) : SameUnits s (backSlot t b) := by
  unfold backSlot
  split
  · exact clearSystem_sameUnits h _
  · exact h

/-- The write-back leaves every written unit as it was, where the table of stacks is in rising order. -/
theorem units_writtenBack (rising : risingFrom 0 s.stack = true) (r : Run) (st : Nat) :
    ((writtenBack s r).stackOf st).units = (s.stackOf st).units := by
  have same : SameUnits s ((r.slots.map (·.2)).foldl backSlot s) :=
    List.foldlRecOn _ backSlot ⟨rising, fun _ => rfl⟩ fun _ h b _ => backSlot_sameUnits h b
  exact same.2 st

/-! ### Where it does not -/

/-- A step past its last beat, one slot of which holds the record of stream 0. -/
def wroteRun : Run :=
  { req := { acc := 0, fn := 0, slot := 0, start := 0, launch := 0, patches := [], streams := [0], bufs := [], report := 0,
             slipCap := 0, slipAddr := 0, chain := [], pasid := none }
    number := 0, plan := {}, map := List.range 64, slots := [(0, { handle := 0, latched := {}, now := {} })] }

/-- That step, with the unit of stream 0's record poisoned and with two entries for its stack. -/
def stackTwice : State :=
  { run := some wroteRun, streams := [(0, {})]
    seq := (List.range 64).map fun v => (v, { ended := some 0 })
    mv := (List.range 64).map fun v => (v, { beats := 1 })
    stack := [((recordUnit 0).1, { poisoned := [(recordUnit 0).2] }),
              ((recordUnit 0).1, { units := [(0, { key := 0, data := [] })] })] }

theorem stackTwice_done : stackTwice.stepDone = true := by decide +kernel

theorem units_writtenBack_stackTwice :
    ((writtenBack stackTwice wroteRun).stackOf 0).units ≠ (stackTwice.stackOf 0).units := by decide +kernel

/-- Refutes O21: the write-back of a stack table's first of two entries for one stack brings the second into force. -/
theorem not_streamsServed : ¬ Obligations.StreamsServed := by
  rintro ⟨-, back⟩
  obtain ⟨t, run, -, units, -⟩ := back stackTwice wroteRun rfl stackTwice_done rfl (by decide)
  cases (exec_streamWriteback rfl stackTwice_done rfl).symm.trans run
  exact units_writtenBack_stackTwice (units 0)

end Sys2Proof.Proofs
end

section
/-!
Completions and the stacks' blocks as the loader uses them (R115, R285, R290 to R292, R346, R357, R364): the completion of a
descriptor whose work has begun, and what placing, writing and freeing leave unchanged.
-/

namespace Sys2Proof.Proofs

open Sys2Proof.Machine Sys2Proof.Laws

variable {s t u : State}

/-! ### Completions -/

/-- Descriptor `a` stands under `acc`, its work begun or not, and its completion ring takes entries (R346, R365, R386). -/
def Answerable (s : State) (acc : Nat) (a : Acc) : Prop :=
  tfind s.intake.acc acc = some a ∧ a.mute = false ∧ (s.fnOf a.fn).inReset = false ∧ (s.cqOf a.fn a.cq).stopped = false

section

variable {acc : Nat} {a : Acc}

theorem answerable_of_serves {kind : Nat} (h : s.serves acc kind a) : Answerable s acc a := by
  obtain ⟨found, -, -, rest⟩ := h
  exact ⟨found, rest⟩

/-- A completion is one entry in its ring, and then what the ring and its interrupt keep of it, the work begun or not. -/
theorem Answerable.signals (h : Answerable s acc a) (status detail : Nat) (r : Results) :
    Signals (entered s acc a status detail r) (complete s acc status detail r) := by
  obtain ⟨found, mute, live, going⟩ := h
  have written : ∃ c irq, complete s acc status detail r =
      coalesce ((entered s acc a status detail r).setCq a.fn a.cq c) a.fn a.cq irq := by
    unfold complete
    rw [found]
    exact ⟨_, _, (if_neg (Bool.eq_false_iff.1 mute)).trans <| (if_neg (Bool.eq_false_iff.1 live)).trans <|
      if_neg (Bool.eq_false_iff.1 going)⟩
  obtain ⟨c, irq, e⟩ := written
  exact e ▸ (Signals.setFn _ _ _).trans (coalesce_signals _ _ _ _)

/-- A completion writes the accepted descriptors, the rings and the transmissions. -/
theorem Answerable.completed (h : Answerable s acc a) (status detail : Nat) (r : Results) :
    ∃ fns os, complete s acc status detail r =
        { s with intake := { s.intake with acc := tdel acc s.intake.acc }, fns := fns, out := os } ∧
      Completes s { s with intake := { s.intake with acc := tdel acc s.intake.acc }, fns := fns, out := os }
        acc a status detail r := by
  obtain ⟨fns, os, e⟩ := h.signals status detail r
  exact ⟨fns, _, e, rfl, List.mem_append_left _ (List.mem_append_right _ List.mem_cons_self)⟩

end

/-- A command that refuses its descriptor completes it, and nothing else happens. -/
theorem refuses_of_exec {acc kind detail : Nat} {a : Acc} {i : Instr} (served : s.serves acc kind a)
    (e : exec i s = .next (refuse s acc detail)) :
    ∃ t, exec i s = .next t ∧ Completes s t acc a (detail / 256) detail {} ∧ t.uncompleted s = s :=
  ⟨_, e, complete_completes served _ _ _, complete_uncompleted served _ _ _⟩

/-- `s` with the descriptor under `acc` accepted no longer. -/
def withoutAccepted (s : State) (acc : Nat) : State := { s with intake := { s.intake with acc := tdel acc s.intake.acc } }

/-- A completion that cannot be written is released, and noted in its ring and in events at most (R365, R386). -/
theorem complete_unanswerable {acc : Nat} {a : Acc} (found : tfind s.intake.acc acc = some a) (h : ¬ Answerable s acc a)
    (status detail : Nat) (r : Results) :
    ∃ fns, Logs { withoutAccepted s acc with fns := fns } (complete s acc status detail r) := by
  unfold complete
  rw [found]
  dsimp only
  split
  · exact ⟨s.fns, .refl _⟩
  next mute =>
    split
    · exact ⟨_, .refl _⟩
    next live =>
      split
      · exact ⟨_, raise_logs _ _ _ _ _ _ _⟩
      next going =>
        exact absurd ⟨found, Bool.eq_false_iff.2 mute, Bool.eq_false_iff.2 live, Bool.eq_false_iff.2 going⟩ h

/-- Whatever becomes of a completion's entry, what is written besides the intake, the rings and the transmissions is what an
event leaves. -/
theorem complete_frame (s : State) (acc status detail : Nat) (r : Results) :
    { (complete s acc status detail r).unlogged s with intake := s.intake, fns := s.fns, out := s.out } = s := by
  cases found : tfind s.intake.acc acc with
  | none =>
    have e : complete s acc status detail r = s := by unfold complete; rw [found]
    rw [e]; rfl
  | some a =>
    by_cases answerable : Answerable s acc a
    · obtain ⟨fns, os, e⟩ := answerable.signals status detail r
      rw [e]; rfl
    · obtain ⟨fns, logs⟩ := complete_unanswerable found answerable status detail r
      rw [unlogged_trans s _ _ logs]; rfl

/-! ### Blocks and data units -/

/-- `t` is `s` but for the stacks' contents. -/
def WritesStacks (s t : State) : Prop := ∃ k, t = { s with stack := k }

/-- `t` is `s` but for the stacks and for what is charged to the domains. -/
def FreesBlocks (s t : State) : Prop := ∃ k d, t = { s with stack := k, domains := d }

/-- `t` is `s` but for the stacks, the domains, and the free values that a reservation takes. -/
def TakesBlocks (s t : State) : Prop := ∃ k d n, t = { s with stack := k, domains := d, free := n }

theorem WritesStacks.refl (s : State) : WritesStacks s s := ⟨_, rfl⟩
theorem FreesBlocks.refl (s : State) : FreesBlocks s s := ⟨_, _, rfl⟩
theorem TakesBlocks.refl (s : State) : TakesBlocks s s := ⟨_, _, _, rfl⟩

theorem WritesStacks.trans (h : WritesStacks s t) (k : WritesStacks t u) : WritesStacks s u := by
  obtain ⟨_, rfl⟩ := h
  obtain ⟨_, rfl⟩ := k
  exact ⟨_, rfl⟩

theorem FreesBlocks.trans (h : FreesBlocks s t) (k : FreesBlocks t u) : FreesBlocks s u := by
  obtain ⟨_, _, rfl⟩ := h
  obtain ⟨_, _, rfl⟩ := k
  exact ⟨_, _, rfl⟩

theorem TakesBlocks.trans (h : TakesBlocks s t) (k : TakesBlocks t u) : TakesBlocks s u := by
  obtain ⟨_, _, _, rfl⟩ := h
  obtain ⟨_, _, _, rfl⟩ := k
  exact ⟨_, _, _, rfl⟩

theorem WritesStacks.takes (h : WritesStacks s t) : TakesBlocks s t := by
  obtain ⟨_, rfl⟩ := h
  exact ⟨_, _, _, rfl⟩

/-- What every step of a fold does, if it can be done again and again, the fold does. -/
theorem foldl_of_step {α β : Type} {R : β → β → Prop} (refl : ∀ b, R b b) (trans : ∀ {a b c}, R a b → R b c → R a c)
    {f : β → α → β} (step : ∀ b x, R b (f b x)) (l : List α) (b : β) : R b (l.foldl f b) :=
  List.foldlRecOn l f (refl b) fun _ h x _ => trans h (step _ x)

theorem setStack_writes (s : State) (st : Nat) (k : StackSt) : WritesStacks s (s.setStack st k) := ⟨_, rfl⟩

theorem freeBlocks_writes (s : State) (bs : List (Nat × Nat)) : WritesStacks s (freeBlocks s bs) :=
  foldl_of_step .refl .trans (fun s _ => setStack_writes s _ _) bs s

theorem writeRun_writes (s : State) (bs : List (Nat × Nat)) (dom o : Nat) (us : List Bytes) :
    WritesStacks s (writeRun s bs dom o us) :=
  foldl_of_step .refl .trans (fun s _ => setStack_writes s _ _) (indexed us) s

/-- Blocks given back to their domain. -/
theorem freeBlocks_releaseDomain_frees (s : State) (dom n : Nat) (bs : List (Nat × Nat)) :
    FreesBlocks s (freeBlocks (releaseDomain s dom n) bs) := by
  obtain ⟨k, e⟩ := freeBlocks_writes (releaseDomain s dom n) bs
  rw [e]
  exact ⟨_, _, rfl⟩

theorem takeBlock_takes (s : State) (st : Nat) : TakesBlocks s (takeBlock s st).1 := ⟨_, _, _, rfl⟩

theorem takeBlocks_takes (s : State) (sts : List Nat) : TakesBlocks s (takeBlocks s sts).1 :=
  foldl_of_step (R := fun x y : State × List (Nat × Nat) => TakesBlocks x.1 y.1) (fun _ => .refl _) .trans
    (fun x st => takeBlock_takes x.1 st) sts (s, [])

theorem takeRun_takes (s : State) (st n : Nat) : TakesBlocks s (takeRun s st n).1 := by
  unfold takeRun
  dsimp only
  split
  · exact ⟨_, _, _, rfl⟩
  · exact takeBlocks_takes s _

theorem reserveDomain_takes (s : State) (dom n : Nat) : TakesBlocks s (reserveDomain s dom n) := by
  unfold reserveDomain
  dsimp only
  split
  · exact ⟨_, _, _, rfl⟩
  · exact ⟨_, _, _, rfl⟩

end Sys2Proof.Proofs
end

section
/-!
Plans (O44; R115, R126, R127, R132, R133, R284, R285): what placing, writing and giving back a plan leave unchanged, and the
four commands.
-/

namespace Sys2Proof.Proofs

open Sys2Proof.Machine Sys2Proof.Laws

variable {s t : State} {acc slot size : Nat} {a : Acc} {p : Plan} {b : Bytes}

/-! ### Slots -/

theorem slotOf_written {n : Nat} {x : Slot} (rising : risingFrom 0 s.slots = true) (h : t.slots = tset .empty s.slots n x) :
    t.slotOf n = x := by
  rw [State.slotOf, h]
  exact tget_tset Slot.empty s.slots n 0 x rising

theorem slotOf_unwritten {n k : Nat} {x : Slot} (h : t.slots = tset .empty s.slots n x) (other : k ≠ n) :
    t.slotOf k = s.slotOf k := by
  rw [State.slotOf, h]
  exact tget_tset_ne Slot.empty s.slots n k x other

/-- A descriptor begun is marked so among those accepted. -/
theorem begin_found (found : tfind s.intake.acc acc = some a) :
    begin_ s acc = { s with intake := { s.intake with acc := tput acc { a with begun := true } s.intake.acc } } := by
  unfold begin_
  rw [found]

/-! ### PLAN_LOAD -/

theorem placeRegion_takes (p : Plan) (map : List Nat) (x : State × Tbl Region) (e : Nat × Region) :
    TakesBlocks x.1 (placeRegion p map x e).1 := by
  have charged (t : State) : TakesBlocks t (if e.2.size = 0 then t else reserveDomain t e.2.domain (e.2.size / 4096)) := by
    split_ifs
    · exact .refl t
    · exact reserveDomain_takes t _ _
  unfold placeRegion
  dsimp only
  by_cases bound : e.2.init = 2
  · rw [if_pos bound]
    exact .refl _
  · rw [if_neg bound]
    by_cases striped : e.2.stack = 15
    · rw [if_pos striped]
      exact (takeBlocks_takes _ _).trans (charged _)
    · rw [if_neg striped]
      exact (takeRun_takes _ _ _).trans (charged _)

/-- What a plan takes is reserved, and its slot is loading it, its code, digest and grid size as they were. -/
theorem reservePlan_takes (s : State) (acc slot : Nat) (p : Plan) (map : List Nat) :
    ∃ t q, TakesBlocks s t ∧ reservePlan s acc slot p map = t.setSlot slot (.loading acc q) ∧
      q.code = p.code ∧ q.digest = p.digest ∧ q.gridSize = p.gridSize := by
  let coded := takeBlocks s (codeStacks p)
  let charged := reserveDomain coded.1 0 coded.2.length
  have placed : TakesBlocks charged (p.regions.foldl (placeRegion p map) (charged, [])).1 :=
    foldl_of_step (R := fun x y : State × Tbl Region => TakesBlocks x.1 y.1) (fun _ => .refl _) .trans
      (placeRegion_takes p map) p.regions (charged, [])
  exact ⟨_, _, ((takeBlocks_takes s _).trans (reserveDomain_takes _ _ _)).trans placed, rfl, rfl, rfl, rfl⟩

theorem planLoadEff_refused (h : planCheck s b size slot ≠ 0) :
    planLoadEff acc slot size b s = .next (refuse s acc (planCheck s b size slot)) :=
  if_pos h

theorem planLoadEff_passes (h : planCheck s b size slot = 0) (free : s.retiring (planDomains (parsePlan b)) = false) :
    planLoadEff acc slot size b s =
      .next (begin_ (reservePlan s acc slot (parsePlan b) ((s.latchMap (parsePlan b).moves).getD [])) acc) :=
  (if_neg (not_not.2 h)).trans (if_neg (Bool.eq_false_iff.1 free))

/-! ### PLAN_LOAD_DONE -/

theorem writeCode_writes (s : State) (p : Plan) : WritesStacks s (writeCode s p) :=
  foldl_of_step .refl .trans (fun s _ => setStack_writes s _ _) _ s

theorem fillRegion_writes (p : Plan) (s : State) (r : Region) : WritesStacks s (fillRegion p s r) := by
  unfold fillRegion
  dsimp only
  split_ifs
  · exact writeRun_writes _ _ _ _ _
  · exact writeRun_writes _ _ _ _ _
  · exact .refl s

theorem checkDigest_unreplayed (h : s.replaying = false) (acc : Nat) (d : Bytes) : checkDigest s acc d = s := by
  unfold checkDigest
  rw [h]
  rfl

/-- A load at its end: the plan is in its slot, its code and regions are in the stacks, and the load is completed. -/
theorem planLoadDoneEff_eq (s : State) (slot acc : Nat) (p : Plan) (h : s.replaying = false) :
    ∃ k, planLoadDoneEff slot acc p s =
      complete ({ s with stack := k }.setSlot slot (.resident { p with data := [] })) acc 0 0
        { r0 := digest8 p.digest } := by
  have filled : WritesStacks s (p.regions.foldl (fun s e => fillRegion p s e.2) (writeCode s p)) :=
    (writeCode_writes s p).trans (foldl_of_step .refl .trans (fun s (e : Nat × Region) => fillRegion_writes p s e.2) _ _)
  obtain ⟨k, e⟩ := filled
  refine ⟨k, ?_⟩
  unfold planLoadDoneEff
  dsimp only
  rw [e, checkDigest_unreplayed (by exact h)]

theorem exec_planLoadDone {slot : Fin 64} (h : s.slotOf slot = .loading acc p) :
    exec (.planLoadDone slot) s = .next (planLoadDoneEff slot acc p s) := by
  have e : exec (.planLoadDone slot) s = execPlanLoadDone slot s := rfl
  rw [e, execPlanLoadDone, h]

/-! ### PLAN_UNLOAD and its end -/

theorem exec_planUnload (served : s.serves acc 0x03 a) :
    exec (.planUnload acc) s = .next (planUnloadEff acc (a.bits 8 4 5 0) s) :=
  serve_served served _

theorem planUnloadEff_resident (h : s.slotOf slot = .resident p) :
    planUnloadEff acc slot s = begin_ (s.setSlot slot (.unloading acc p)) acc := by
  rw [planUnloadEff, h]

theorem planUnloadEff_loading {c : Nat} (h : s.slotOf slot = .loading c p) :
    planUnloadEff acc slot s = refuse s acc 0x0701 := by
  rw [planUnloadEff, h]

theorem planUnloadEff_empty (h : s.slotOf slot = .empty) : planUnloadEff acc slot s = refuse s acc 0x0601 := by
  rw [planUnloadEff, h]

theorem releasePlan_frees (s : State) (p : Plan) : FreesBlocks s (releasePlan s p) := by
  refine (freeBlocks_releaseDomain_frees s 0 _ _).trans (foldl_of_step .refl .trans (fun s e => ?_) _ _)
  split_ifs
  · exact .refl s
  · exact freeBlocks_releaseDomain_frees s _ _ _

/-- An unload at its end: the slot is empty, the entries that name it are noted, and the unload is completed. -/
theorem planUnloadDoneEff_eq (s : State) (slot acc : Nat) (p : Plan) : ∃ k d, planUnloadDoneEff slot acc p s =
    complete ({ s with stack := k, domains := d
                       cad := { s.cad with emptied := s.cad.emptied ++ s.entriesNaming slot } }.setSlot slot .empty)
      acc 0 0 := by
  obtain ⟨k, d, e⟩ := releasePlan_frees s p
  refine ⟨k, d, ?_⟩
  unfold planUnloadDoneEff
  rw [e]
  rfl

theorem exec_planUnloadDone {slot : Fin 64} (h : s.slotOf slot = .unloading acc p) (past : s.stepsBefore acc slot = false) :
    exec (.planUnloadDone slot) s = .next (planUnloadDoneEff slot acc p s) := by
  have e : exec (.planUnloadDone slot) s = execPlanUnloadDone slot s := rfl
  rw [e, execPlanUnloadDone, h]
  exact if_pos past

/-! ### Settling O44 -/

/-- A load whose image passes takes its slot. -/
theorem exec_planLoad_passes (rising : risingFrom 0 s.slots = true) (served : s.serves acc 0x02 a)
    (pass : planCheck s b (a.fld 0x18 8) (a.bits 8 4 5 0) = 0) (free : s.retiring (planDomains (parsePlan b)) = false) :
    ∃ t q, exec (.planLoad acc (.ok b)) s = .next t ∧ t.slotOf (a.bits 8 4 5 0) = .loading acc q ∧
      q.code = (parsePlan b).code ∧ q.digest = (parsePlan b).digest ∧ q.gridSize = (parsePlan b).gridSize ∧
      (∀ k, k ≠ a.bits 8 4 5 0 → t.slotOf k = s.slotOf k) ∧ tfind t.intake.acc acc = some { a with begun := true } ∧
      t.run = s.run ∧ t.mv = s.mv ∧ t.out = s.out ∧ t.fns = s.fns ∧ t.sets = s.sets := by
  obtain ⟨_, q, ⟨k, d, n, rfl⟩, e, code, digest, grid⟩ := reservePlan_takes s acc (a.bits 8 4 5 0) (parsePlan b)
    ((s.latchMap (parsePlan b).moves).getD [])
  have run : exec (.planLoad acc (.ok b)) s = .next _ := (serve_served served _).trans (planLoadEff_passes pass free)
  rw [e] at run
  exact ⟨_, q, run.trans (congrArg _ (begin_found served.1)), slotOf_written rising rfl, code, digest, grid,
    fun _ other => slotOf_unwritten (x := .loading acc q) rfl other, tfind_tput _ _ _, rfl, rfl, rfl, rfl, rfl⟩

/-- Settles O44: each command's effect is one state; placing and freeing write its stacks and domains alone. -/
theorem plansLoadAndUnload : Obligations.PlansLoadAndUnload := by
  refine fun s rising => ⟨fun acc a b served => ⟨fun refused => ?_, exec_planLoad_passes rising served⟩,
    fun slot acc p a loading found mute live going original => ?_,
    fun acc a served => ⟨fun p resident => ?_, ?_, fun empty => ?_⟩,
    fun slot acc p a unloading past found mute live going => ?_⟩
  · exact refuses_of_exec served ((serve_served served _).trans (planLoadEff_refused refused))
  · obtain ⟨k, e⟩ := planLoadDoneEff_eq s slot acc p original
    obtain ⟨fns, os, written, completes⟩ := Answerable.completed
      (s := { s with stack := k }.setSlot slot (.resident { p with data := [] })) ⟨found, mute, live, going⟩ 0 0
      { r0 := digest8 p.digest }
    rw [written] at e
    exact ⟨_, (exec_planLoadDone loading).trans (congrArg _ e), slotOf_written rising rfl,
      fun _ other => slotOf_unwritten (x := .resident { p with data := [] }) rfl other, completes, rfl⟩
  · have e := exec_planUnload served
    rw [planUnloadEff_resident resident] at e
    exact ⟨_, e.trans (congrArg _ (begin_found served.1)), slotOf_written rising rfl, tfind_tput _ _ _, rfl⟩
  · rintro ⟨c, p, loading⟩
    exact refuses_of_exec (detail := 0x0701) served
      ((exec_planUnload served).trans (congrArg _ (planUnloadEff_loading loading)))
  · exact refuses_of_exec (detail := 0x0601) served
      ((exec_planUnload served).trans (congrArg _ (planUnloadEff_empty empty)))
  · obtain ⟨k, d, e⟩ := planUnloadDoneEff_eq s slot acc p
    obtain ⟨fns, os, written, completes⟩ := Answerable.completed
      (s := { s with stack := k, domains := d
                     cad := { s.cad with emptied := s.cad.emptied ++ s.entriesNaming slot } }.setSlot slot .empty)
      ⟨found, mute, live, going⟩ 0 0 {}
    rw [written] at e
    exact ⟨_, (exec_planUnloadDone unloading past).trans (congrArg _ e), slotOf_written rising rfl, completes, rfl, rfl,
      rfl⟩

end Sys2Proof.Proofs
end

section
/-!
Unloading a set and the phases of an installation (O46; R143, R251, R252, R257, R258).
-/

namespace Sys2Proof.Proofs

open Sys2Proof.Machine Sys2Proof.Laws

variable {s t u : State} {acc d : Nat} {a : Acc} {dig : Bytes} {cells : List PaneCell}

/-! ### Unloading a set (R143) -/

theorem exec_weightUnload (served : s.serves acc 0x05 a) :
    exec (.weightUnload acc) s = .next (weightUnloadEff acc (slice a.desc 8 48) s) :=
  serve_served served _

theorem weightUnloadEff_absent (h : ∀ e ∈ s.sets, e.1 ≠ dig) : weightUnloadEff acc dig s = refuse s acc 0x0601 := by
  have none : s.sets.find? (fun e => e.1 == dig) = none := List.find?_eq_none.2 fun e he => by simpa using h e he
  rw [weightUnloadEff, none]

/-- Committed sets with one counted once less. -/
def countedLess (sets : List (Bytes × WeightSet)) (dig : Bytes) : List (Bytes × WeightSet) :=
  sets.map fun x => if x.1 = dig then (x.1, { x.2 with count := x.2.count - 1 }) else x

/-- Committed sets without one. -/
def withoutSet (sets : List (Bytes × WeightSet)) (dig : Bytes) : List (Bytes × WeightSet) :=
  sets.filter fun x => x.1 != dig

section

variable {e : Bytes × WeightSet} (found : s.sets.find? (fun e => e.1 == dig) = some e)
include found

theorem weightUnloadEff_inUse (h : s.setInUse dig = true) : weightUnloadEff acc dig s = refuse s acc 0x0711 := by
  rw [weightUnloadEff, found]
  exact if_pos h

theorem weightUnloadEff_free (h : s.setInUse dig = false) :
    weightUnloadEff acc dig s = complete (uncountSet s dig) acc 0 0 := by
  rw [weightUnloadEff, found]
  exact if_neg (Bool.eq_false_iff.1 h)

theorem uncountSet_counted (h : 1 < e.2.count) : uncountSet s dig = { s with sets := countedLess s.sets dig } := by
  rw [uncountSet, found]
  exact if_pos h

theorem uncountSet_last (h : e.2.count ≤ 1) :
    ∃ k ds, uncountSet s dig = { s with stack := k, domains := ds, sets := withoutSet s.sets dig } := by
  obtain ⟨k, ds, freed⟩ := freeBlocks_releaseDomain_frees s e.2.domain e.2.blocks.length e.2.blocks
  refine ⟨k, ds, ?_⟩
  rw [uncountSet, found]
  dsimp only
  rw [if_neg (Nat.not_lt.2 h), freed]
  rfl

end

/-! ### Dies -/

theorem awOf_setAw (rising : risingFrom 0 s.aw = true) (d : Nat) (x : AwDieSt) : (s.setAw d x).awOf d = x :=
  tget_tset ({} : AwDieSt) s.aw d 0 x rising

theorem awOf_setAw_ne (s : State) {d e : Nat} (x : AwDieSt) (h : e ≠ d) : (s.setAw d x).awOf e = s.awOf e :=
  tget_tset_ne ({} : AwDieSt) s.aw d e x h

theorem rising_setAw (rising : risingFrom 0 s.aw = true) (d : Nat) (x : AwDieSt) : risingFrom 0 (s.setAw d x).aw = true :=
  risingFrom_tset _ _ _ rising

/-- Each die of a list without repetitions is changed once. -/
theorem awOf_foldl_setAw (f : AwDieSt → AwDieSt) (ds : List Nat) (once : ds.Nodup) (rising : risingFrom 0 s.aw = true)
    (e : Nat) : (ds.foldl (fun s d => s.setAw d (f (s.awOf d))) s).awOf e = if e ∈ ds then f (s.awOf e) else s.awOf e := by
  induction ds generalizing s with
  | nil => rfl
  | cons d ds ih =>
    obtain ⟨new, once⟩ := List.nodup_cons.1 once
    rw [List.foldl_cons, ih once (rising_setAw rising _ _)]
    by_cases same : e = d
    · subst same
      rw [if_neg new, if_pos List.mem_cons_self, awOf_setAw rising]
    · rw [awOf_setAw_ne s _ same]
      simp only [List.mem_cons, same, false_or]

theorem awOf_eachAw (rising : risingFrom 0 s.aw = true) (f : AwDieSt → AwDieSt) (e : AwDie) :
    (s.eachAw f).awOf e = f (s.awOf e) :=
  (awOf_foldl_setAw f (List.range 4) List.nodup_range rising e).trans (if_pos (List.mem_range.2 e.isLt))

/-- `t` is `s` but for the analogue dies. -/
def WritesDies (s t : State) : Prop := ∃ aw, t = { s with aw := aw }

theorem eachAw_writes (s : State) (f : AwDieSt → AwDieSt) : WritesDies s (s.eachAw f) :=
  foldl_of_step (R := WritesDies) (fun _ => ⟨_, rfl⟩) (by rintro _ _ _ ⟨_, rfl⟩ ⟨_, rfl⟩; exact ⟨_, rfl⟩)
    (fun _ _ => ⟨_, rfl⟩) _ s

/-! ### Panes that wait for spares (R258, R271, R274) -/

/-- `t` is `s` but for the analogue dies and for what events leave. -/
def OnlyDies (s t : State) : Prop := { t.unlogged s with aw := s.aw } = s

theorem OnlyDies.trans (h : OnlyDies s t) (k : OnlyDies t u) : OnlyDies s u := by
  unfold OnlyDies at h k ⊢
  refine Eq.trans ?_ h
  rw [← k]
  dsimp only [State.unlogged]

theorem onlyDies_of_logs (h : Logs s t) : OnlyDies s t := congrArg (fun w : State => ({ w with aw := s.aw } : State)) h

theorem setAw_onlyDies (s : State) (d : Nat) (x : AwDieSt) : OnlyDies s (s.setAw d x) := by
  dsimp only [OnlyDies, State.setAw, State.unlogged]

/-- Only the dies differ; die `d` is in the phase it was in, and the panes of it that failed are those that had. -/
structure Spares (d : Nat) (s t : State) : Prop where
  frame : OnlyDies s t
  rising : risingFrom 0 t.aw = true
  phase : (t.awOf d).phase = (s.awOf d).phase
  state : (t.awOf d).state = (s.awOf d).state
  failed : (t.awOf d).failed = (s.awOf d).failed

theorem Spares.trans (h : Spares d s t) (k : Spares d t u) : Spares d s u where
  frame := h.frame.trans k.frame
  rising := k.rising
  phase := k.phase.trans h.phase
  state := k.state.trans h.state
  failed := k.failed.trans h.failed

theorem Spares.setAw (rising : risingFrom 0 s.aw = true) {x : AwDieSt} (phase : x.phase = (s.awOf d).phase)
    (state : x.state = (s.awOf d).state) (failed : x.failed = (s.awOf d).failed) : Spares d s (s.setAw d x) := by
  have read := awOf_setAw rising d x
  exact ⟨setAw_onlyDies s d x, rising_setAw rising d x, (congrArg _ read).trans phase, (congrArg _ read).trans state,
    (congrArg _ read).trans failed⟩

theorem aw_of_logs (h : Logs s t) : t.aw = s.aw := eq_of_logs State.aw (fun _ _ => rfl) h

theorem Spares.logs (h : Spares d s t) (k : Logs t u) : Spares d s u := by
  have same : u.awOf d = t.awOf d := congrArg (tget ({} : AwDieSt) · d) (aw_of_logs k)
  exact h.trans ⟨onlyDies_of_logs k, aw_of_logs k ▸ h.rising, congrArg _ same, congrArg _ same, congrArg _ same⟩

theorem setLasting_spares (rising : risingFrom 0 s.aw = true) (d g pos : Nat) : Spares d s (setLasting s d g pos) := by
  unfold setLasting
  dsimp only
  split
  · exact .setAw rising rfl rfl rfl
  · split
    · split
      · exact .setAw rising rfl rfl rfl
      · refine Spares.logs ?_ (raise_logs _ _ _ _ _ _ _)
        exact .setAw rising rfl rfl rfl
    · exact .setAw rising rfl rfl rfl

theorem beginSpares_spares (rising : risingFrom 0 s.aw = true) (d : Nat) : Spares d s (beginSpares s d) :=
  List.foldlRecOn _ _ (⟨rfl, rising, rfl, rfl, rfl⟩ : Spares d s s) fun _ h _ _ => h.trans (setLasting_spares h.rising _ _ _)

/-! ### The read-back of phase 4 (R257) -/

theorem mem_insertNat {x y : Nat} {l : List Nat} : y ∈ insertNat x l ↔ y = x ∨ y ∈ l := by
  induction l with
  | nil => simp [insertNat]
  | cons z l ih =>
    rw [insertNat]
    split_ifs with below same
    · exact List.mem_cons
    · subst same
      simp
    · rw [List.mem_cons, ih, List.mem_cons]
      tauto

/-- The failed panes of a die once the pane of a cell outside its window is among them. -/
def failedWith (failed : List Nat) (c : PaneCell) : List Nat :=
  if c.pos.val < 64 then insertNat (68 * c.group + c.pos) failed else failed

theorem mem_foldl_failedWith {k : Nat} {l : List PaneCell} {failed : List Nat}
    (h : k ∈ failed ∨ ∃ c ∈ l, c.pos.val < 64 ∧ k = 68 * c.group.val + c.pos.val) : k ∈ l.foldl failedWith failed := by
  induction l generalizing failed with
  | nil => simpa using h
  | cons c l ih =>
    refine ih ?_
    rcases h with h | ⟨c', h, working, rfl⟩
    · refine .inl ?_
      rw [failedWith]
      split_ifs
      · exact mem_insertNat.2 (.inr h)
      · exact h
    · rcases List.mem_cons.1 h with rfl | h
      · refine .inl ?_
        rw [failedWith, if_pos working]
        exact mem_insertNat.2 (.inl rfl)
      · exact .inr ⟨c', h, working, rfl⟩

/-- The cells of a read-back outside the window. -/
def outsideWindow (s : State) (d : Nat) (cells : List PaneCell) : List PaneCell :=
  cells.filter fun c => !inVerify (s.trimOf d).verifyWindow c.cell.level64
    (wantLevel (s.awOf d) c.group c.pos c.cell.row c.cell.col c.cell.neg)

theorem readBack_failed (s : State) (d : Nat) (cells : List PaneCell) :
    (readBack s d cells).failed = (outsideWindow s d cells).foldl failedWith (s.awOf d).failed :=
  (List.foldl_hom AwDieSt.failed (fun _ _ => rfl)).symm

theorem readBack_state (s : State) (d : Nat) (cells : List PaneCell) : (readBack s d cells).state = (s.awOf d).state :=
  List.foldlRecOn (motive := fun a : AwDieSt => a.state = (s.awOf d).state) _ _ rfl fun _ h _ _ => h

/-! ### The set commits with the last die (R252, R257) -/

theorem commitAnalog_waits {e : AwDie} (h : (s.awOf e).state ≠ 3) : commitAnalog s = s := by
  refine if_neg fun ready => h ?_
  simpa using List.all_eq_true.1 ready e (List.mem_range.2 e.isLt)

theorem ready_iff : (List.range 4).all (fun d => (s.awOf d).state == 3) = true ↔ ∀ e : AwDie, (s.awOf e).state = 3 := by
  simp only [List.all_eq_true, List.mem_range, beq_iff_eq]
  exact ⟨fun h e => h e e.isLt, fun h d lt => h ⟨d, lt⟩⟩

/-- A die whose content is that of a committed set. -/
def committedDie (a : AwDieSt) : AwDieSt := { a with committed := true }

/-- The state in which the BASE-ANALOG load `l` has committed, its completion still to be written. -/
def analogCommitted (s : State) (l : SetLoad) : State :=
  { dropLoad (s.eachAw committedDie) l with baseDigest := some l.digest, installed := some l.digest }

theorem commitAnalog_ready {l : SetLoad} (ready : ∀ e : AwDie, (s.awOf e).state = 3) (load : s.analogLoad = some l) :
    commitAnalog s = complete (analogCommitted s l) l.acc 0 0 l.results := by
  rw [commitAnalog, if_pos (ready_iff.2 ready), load]
  rfl

theorem commitAnalog_unloaded (load : s.analogLoad = none) : commitAnalog s = s := by
  rw [commitAnalog, load]
  exact ite_self s

/-- No completion writes the dies, the base digest or the loads. -/
theorem complete_install (s : State) (acc status detail : Nat) (r : Results) :
    (complete s acc status detail r).aw = s.aw ∧ (complete s acc status detail r).baseDigest = s.baseDigest ∧
      (complete s acc status detail r).installed = s.installed ∧ (complete s acc status detail r).loads = s.loads := by
  have frame := complete_frame s acc status detail r
  have aw := congrArg State.aw frame
  have base := congrArg State.baseDigest frame
  have installed := congrArg State.installed frame
  have loads := congrArg State.loads frame
  exact ⟨aw, base, installed, loads⟩

theorem analogCommitted_aw (s : State) (l : SetLoad) : (analogCommitted s l).aw = (s.eachAw committedDie).aw := by
  dsimp only [analogCommitted, dropLoad]

theorem analogCommitted_loads (s : State) (l : SetLoad) :
    (analogCommitted s l).loads = s.loads.filter fun x => x.acc != l.acc := by
  obtain ⟨aw, e⟩ := eachAw_writes s committedDie
  rw [analogCommitted, e]
  rfl

theorem awOf_commitAnalog_ready {l : SetLoad} (rising : risingFrom 0 s.aw = true) (ready : ∀ e : AwDie, (s.awOf e).state = 3)
    (load : s.analogLoad = some l) (e : AwDie) : (commitAnalog s).awOf e = committedDie (s.awOf e) := by
  have dies : (commitAnalog s).aw = (s.eachAw committedDie).aw := by
    obtain ⟨aw, -⟩ := complete_install (analogCommitted s l) l.acc 0 0 l.results
    rw [commitAnalog_ready ready load, aw, analogCommitted_aw]
  exact (congrArg (tget ({} : AwDieSt) · e) dies).trans (awOf_eachAw rising committedDie e)

/-- Committing leaves a die's state and phase. -/
theorem commitAnalog_state (rising : risingFrom 0 s.aw = true) (e : AwDie) :
    ((commitAnalog s).awOf e).state = (s.awOf e).state ∧ ((commitAnalog s).awOf e).phase = (s.awOf e).phase := by
  by_cases ready : ∀ e : AwDie, (s.awOf e).state = 3
  · cases load : s.analogLoad with
    | none => rw [commitAnalog_unloaded load]; exact ⟨rfl, rfl⟩
    | some l => rw [awOf_commitAnalog_ready rising ready load]; exact ⟨rfl, rfl⟩
  · obtain ⟨e', waits⟩ := not_forall.1 ready
    rw [commitAnalog_waits waits]; exact ⟨rfl, rfl⟩

/-! ### Phases -/

theorem exec_installPhaseEnd {d : AwDie} (programming : (s.awOf d).state = 4) (ready : phaseReady s (s.awOf d) = true) :
    exec (.installPhaseEnd d cells) s = .next (phaseEndEff d cells s) :=
  if_pos ⟨programming, ready⟩

theorem phaseEndEff_early (h : (s.awOf d).phase ≤ 3) : phaseEndEff d cells s = s.setAw d { s.awOf d with
    phase := (s.awOf d).phase + 1
    toCalibrate := if (s.awOf d).phase = 3 then List.range 2048 else (s.awOf d).toCalibrate } := by
  by_cases third : (s.awOf d).phase = 3
  · rw [if_pos third, phaseEndEff]
    dsimp only
    rw [third]
    rfl
  · rw [if_neg third]
    have phases : (s.awOf d).phase = 0 ∨ (s.awOf d).phase = 1 ∨ (s.awOf d).phase = 2 := by omega
    unfold phaseEndEff
    dsimp only
    rcases phases with e | e | e
    all_goals rw [e]; rfl

/-- Die `d` after its read-back, in phase 5. -/
def afterReadBack (s : State) (d : Nat) (cells : List PaneCell) : AwDieSt := { readBack s d cells with phase := 5 }

theorem phaseEndEff_readBack (h : (s.awOf d).phase = 4) :
    phaseEndEff d cells s = beginSpares (s.setAw d (afterReadBack s d cells)) d := by
  unfold phaseEndEff
  dsimp only
  rw [h]
  rfl

/-- Die `d` as it is READY. -/
def readyDie (s : State) (d : Nat) : AwDieSt :=
  { s.awOf d with state := 3, phase := 0, tick := 0, programmed := [], failed := [] }

theorem phaseEndEff_last (h : (s.awOf d).phase = 5) : phaseEndEff d cells s = commitAnalog (s.setAw d (readyDie s d)) := by
  unfold phaseEndEff
  dsimp only
  rw [h]
  rfl

/-- Settles O46: each phase's end is its own equation of the die, and the last die's commits the set. -/
theorem setsUnloadAndInstall : Obligations.SetsUnloadAndInstall := by
  refine fun s => ⟨fun acc a served => ⟨fun absent => ?_, fun e found inUse => ?_, fun e found unused => ?_⟩,
    fun d cells programming ready rising => ⟨_, exec_installPhaseEnd programming ready, fun early => ?_, fun fourth => ?_,
      fun last => ?_⟩⟩
  · exact refuses_of_exec (detail := 0x0601) served
      ((exec_weightUnload served).trans (congrArg _ (weightUnloadEff_absent absent)))
  · exact refuses_of_exec (detail := 0x0711) served
      ((exec_weightUnload served).trans (congrArg _ (weightUnloadEff_inUse found inUse)))
  · have run := (exec_weightUnload served).trans (congrArg _ (weightUnloadEff_free found unused))
    have live := answerable_of_serves served
    by_cases more : 1 < e.2.count
    · rw [uncountSet_counted found more] at run
      obtain ⟨fns, os, written, completes⟩ :=
        Answerable.completed (s := { s with sets := countedLess s.sets (slice a.desc 8 48) }) live 0 0 {}
      rw [written] at run
      exact ⟨_, run, completes, fun _ => ⟨rfl, rfl⟩, fun once => absurd more (Nat.not_lt.2 once)⟩
    · obtain ⟨k, ds, freed⟩ := uncountSet_last found (Nat.not_lt.1 more)
      rw [freed] at run
      obtain ⟨fns, os, written, completes⟩ := Answerable.completed
        (s := { s with stack := k, domains := ds, sets := withoutSet s.sets (slice a.desc 8 48) }) live 0 0 {}
      rw [written] at run
      exact ⟨_, run, completes, fun twice => absurd twice more, fun _ => ⟨rfl, rfl⟩⟩
  · rw [phaseEndEff_early early]
    exact ⟨rfl, awOf_setAw rising _ _, fun e other => awOf_setAw_ne s _ other⟩
  · rw [phaseEndEff_readBack fourth]
    have read := awOf_setAw rising d (afterReadBack s d cells)
    have spares := beginSpares_spares (rising_setAw rising d (afterReadBack s d cells)) d
    have state := (spares.state.trans (congrArg _ read)).trans (readBack_state s d cells)
    refine ⟨(setAw_onlyDies s d _).trans spares.frame, spares.phase.trans (congrArg _ read), state.trans programming,
      fun c mem working outside => ?_⟩
    rw [spares.failed, read]
    show _ ∈ (readBack s d cells).failed
    rw [readBack_failed]
    exact mem_foldl_failedWith (.inr ⟨c, List.mem_filter.2 ⟨mem, by rw [outside]; rfl⟩, working, rfl⟩)
  · rw [phaseEndEff_last last]
    have read := awOf_setAw rising d (readyDie s d)
    have readyRising := rising_setAw rising d (readyDie s d)
    obtain ⟨state, phase⟩ := commitAnalog_state readyRising d
    refine ⟨state.trans (congrArg _ read), phase.trans (congrArg _ read), ?_, fun l others load => ?_⟩
    · rintro ⟨e, other, waits⟩
      rw [commitAnalog_waits (e := e) (by rwa [awOf_setAw_ne s _ (Fin.val_ne_of_ne other)])]
      exact ⟨rfl, rfl⟩
    · have all (e : AwDie) : ((s.setAw d (readyDie s d)).awOf e).state = 3 := by
        by_cases same : e = d
        · subst same; rw [read]; rfl
        · rw [awOf_setAw_ne s _ (Fin.val_ne_of_ne same)]; exact others e same
      have loaded : (s.setAw d (readyDie s d)).analogLoad = some l := load
      obtain ⟨-, base, installed, loads⟩ :=
        complete_install (analogCommitted (s.setAw d (readyDie s d)) l) l.acc 0 0 l.results
      rw [← commitAnalog_ready all loaded] at base installed loads
      exact ⟨base, installed, loads.trans (analogCommitted_loads _ l),
        fun e => congrArg AwDieSt.committed (awOf_commitAnalog_ready readyRising all loaded e)⟩

end Sys2Proof.Proofs
end

section
/-!
Relay messages and the table of loads, as weight-set loads use them (R138 to R140, R437 to R440): what sending leaves
unchanged, and which load a replaced one is found as.
-/

namespace Sys2Proof.Proofs

open Sys2Proof.Machine Sys2Proof.Laws

variable {s t u : State} {l x : SetLoad}

/-! ### Sending -/

/-- `t` is `s` but for the link dies, the ports, and what events leave. -/
def Relays (s t : State) : Prop := { t.unlogged s with links := s.links, ports := s.ports } = s

theorem Relays.refl (s : State) : Relays s s := by
  dsimp only [Relays, State.unlogged]

theorem Relays.trans (h : Relays s t) (k : Relays t u) : Relays s u := by
  unfold Relays at h k ⊢
  refine Eq.trans ?_ h
  rw [← k]
  dsimp only [State.unlogged]

theorem relays_of_logs (h : Logs s t) : Relays s t :=
  congrArg (fun w : State => ({ w with links := s.links, ports := s.ports } : State)) h

theorem setPort_relays (s : State) (p : Nat) (x : PortSt) : Relays s (s.setPort p x) := by
  dsimp only [Relays, State.setPort, State.unlogged]

theorem setLink_relays (s : State) (d : Nat) (x : LinkDie) : Relays s (s.setLink d x) := by
  dsimp only [Relays, State.setLink, State.unlogged]

theorem freeBuffer_relays (s : State) (b : Option (Nat × Nat)) : Relays s (freeBuffer s b) := by
  unfold freeBuffer
  split
  · exact .refl s
  · dsimp only
    split
    · exact setPort_relays s _ _
    · split
      · split
        · exact setPort_relays s _ _
        · exact setPort_relays s _ _
      · exact setPort_relays s _ _

theorem dropLoose_relays (s : State) (k : Packet) (inp : Option Nat) : Relays s (dropLoose s k inp) := by
  unfold dropLoose
  dsimp only
  split
  · exact (setLink_relays s _ _).trans (relays_of_logs (noteSet_logs (countDropped_logs (.refl _) _) _))
  · exact (setLink_relays s _ _).trans (relays_of_logs (raise_logs _ _ _ _ _ _ _))

theorem forwardLoose_relays (s : State) (k : Packet) (inp inDim : Option Nat) :
    Relays s (forwardLoose s k inp inDim).1 := by
  unfold forwardLoose
  extract_lets dest src noted
  have dims : Relays s noted := by
    simp only [noted]
    split
    · exact relays_of_logs (raise_logs _ _ _ _ _ _ _)
    · exact .refl s
  split
  · exact dims.trans (freeBuffer_relays _ _)
  · exact (dims.trans (dropLoose_relays _ _ _)).trans (freeBuffer_relays _ _)
  · exact dims.trans (setPort_relays _ _ _)

theorem sendRelay_relays (s : State) (dest : W16) (kind i o detail : Nat) (set : W64) (b : Bytes) :
    Relays s (sendRelay s dest kind i o detail set b) :=
  forwardLoose_relays s _ none none

theorem sendObject_relays (s : State) (dest : W16) (kind i : Nat) (set : W64) (b : Bytes) :
    Relays s (sendObject s dest kind i set b) :=
  foldl_of_step .refl .trans (fun s _ => sendRelay_relays s _ _ _ _ _ _ _) _ s

/-- An object sent to each of some addresses. -/
theorem sendObjects_relays (s : State) (dests : List W16) (kind i : Nat) (set : W64) (b : Bytes) :
    Relays s (dests.foldl (fun s a => sendObject s a kind i set b) s) :=
  foldl_of_step .refl .trans (fun s a => sendObject_relays s a kind i set b) dests s

/-- What the loads' statements speak of is not written by sending. -/
theorem Relays.leaves (h : Relays s t) :
    t.loads = s.loads ∧ t.sets = s.sets ∧ t.stack = s.stack ∧ t.intake = s.intake ∧ t.fns = s.fns ∧ t.run = s.run := by
  have loads := congrArg State.loads h
  have sets := congrArg State.sets h
  have stack := congrArg State.stack h
  have intake := congrArg State.intake h
  have fns := congrArg State.fns h
  have run := congrArg State.run h
  exact ⟨loads, sets, stack, intake, fns, run⟩

theorem checkDigest_logs (s : State) (acc : Nat) (d : Bytes) : Logs s (checkDigest s acc d) := by
  unfold checkDigest
  split
  · split
    · exact .refl s
    · exact raise_logs _ _ _ _ _ _ _
  · exact .refl s

/-! ### The table of loads -/

theorem Relays.putLoad (h : Relays s t) (l : SetLoad) : Relays (Machine.putLoad s l) (Machine.putLoad t l) := by
  have e := congrArg (Machine.putLoad · l) h
  exact e

theorem mem_putLoad (mem : x ∈ s.loads) (same : x.acc = l.acc) : l ∈ (putLoad s l).loads :=
  List.mem_map.2 ⟨x, mem, if_pos same⟩

theorem eq_of_mem_putLoad (mem : x ∈ (putLoad s l).loads) (same : x.acc = l.acc) : x = l := by
  obtain ⟨y, -, rfl⟩ := List.mem_map.1 mem
  split_ifs at same ⊢ with h
  · rfl
  · exact absurd same h

theorem find_putLoad (mem : x ∈ s.loads) (same : x.acc = l.acc) :
    (putLoad s l).loads.find? (fun y => y.acc == l.acc) = some l := by
  have present : ((putLoad s l).loads.find? fun y => y.acc == l.acc).isSome = true :=
    List.find?_isSome.2 ⟨l, mem_putLoad mem same, beq_self_eq_true _⟩
  obtain ⟨y, found⟩ := Option.isSome_iff_exists.1 present
  have eq := eq_of_mem_putLoad (List.mem_of_find?_eq_some found) (by simpa using List.find?_some found)
  rw [found, eq]

end Sys2Proof.Proofs
end

section
/-!
The manifests of weight-set loads (R135, R137, R138, R143, R502, R503): WEIGHT_LOAD from a neighbour and from the host, and
a manifest refused, waited for and accepted.
-/

namespace Sys2Proof.Proofs

open Sys2Proof.Machine Sys2Proof.Laws

variable {s : State} {acc : Nat} {a : Acc} {l : SetLoad} {m key : Bytes}

/-! ### WEIGHT_LOAD -/

/-- `s` with descriptor `a`, a WEIGHT_LOAD that names no authority block, begun and its load last among the loads. -/
def loadBegun (s : State) (acc : Nat) (a : Acc) : State :=
  { s with loads := s.loads ++ [newLoad acc a none]
           intake := { s.intake with acc := tput acc { a with begun := true } s.intake.acc } }

/-- The load that a descriptor with the host upstream begins, its manifest read. -/
def hostLoad (acc : Nat) (a : Acc) (m : Bytes) : SetLoad := { newLoad acc a none with manifest := [(0, m)] }

theorem hostLoad_upstream (host : a.bits 8 4 0 0 = 1) : (hostLoad acc a m).upstream = none := if_pos host

theorem hostLoad_down (alone : a.bits 8 4 3 1 = 0) : (hostLoad acc a m).down = [] := by
  simp [hostLoad, newLoad, alone]

theorem joinParts_hostLoad (acc : Nat) (a : Acc) (m : Bytes) : joinParts (hostLoad acc a m).manifest = m := rfl

theorem weightLoadEff_neighbour (found : tfind s.intake.acc acc = some a) (far : a.bits 8 4 0 0 = 0) (m : Bytes) :
    weightLoadEff acc a m none s = loadBegun s acc a := by
  have begun : begin_ { s with loads := s.loads ++ [newLoad acc a none] } acc = loadBegun s acc a := begin_found found
  have named : (newLoad acc a none).upstream.isSome = true := by simp [newLoad, far]
  rw [weightLoadEff]
  exact (if_pos named).trans begun

theorem weightLoadEff_host (found : tfind s.intake.acc acc = some a) (host : a.bits 8 4 0 0 = 1) (m : Bytes) :
    weightLoadEff acc a m none s =
      judgeManifest (loadBegun s acc a) (hostLoad acc a m) (some (a.fld 0x20 8)) := by
  have begun : begin_ { s with loads := s.loads ++ [newLoad acc a none] } acc = loadBegun s acc a := begin_found found
  have named : ¬ (newLoad acc a none).upstream.isSome = true := by simp [newLoad, host]
  rw [weightLoadEff]
  exact (if_neg named).trans (by rw [begun]; rfl)

section

variable (served : s.serves acc 0x04 a) (unnamed : a.fld 0x30 8 = 0)
include served unnamed

theorem exec_weightLoad_neighbour (far : a.bits 8 4 0 0 = 0) (h h' : HostData) :
    exec (.weightLoad acc h h') s = .next (loadBegun s acc a) := by
  have run : exec (.weightLoad acc h h') s = .next (weightLoadEff acc a [] none s) := by
    refine (serve_served served _).trans ?_
    simp only [far, unnamed, ne_eq, not_true_eq_false, if_false, Nat.zero_ne_one]
  rw [run, weightLoadEff_neighbour served.1 far]

theorem exec_weightLoad_host (host : a.bits 8 4 0 0 = 1) (m : Bytes) (h' : HostData) :
    exec (.weightLoad acc (.ok m) h') s =
      .next (judgeManifest (loadBegun s acc a) (hostLoad acc a m) (some (a.fld 0x20 8))) := by
  have run : exec (.weightLoad acc (.ok m) h') s = .next (weightLoadEff acc a m none s) := by
    refine (serve_served served _).trans ?_
    simp only [host, unnamed, ne_eq, not_true_eq_false, if_false, if_true]
  rw [run, weightLoadEff_host served.1 host]

end

/-! ### Manifests refused and kept (R135, R138) -/

theorem judgeManifest_short (short : (joinParts l.manifest).length < 256) (n : Nat) :
    judgeManifest s l (some n) = refuseLoad s l 0x0111 :=
  if_pos short

theorem judgeManifest_unfinished (short : (joinParts l.manifest).length < 256) : judgeManifest s l none = putLoad s l :=
  if_pos short

/-- The end of a load that holds nothing is its completion. -/
theorem endLoad_unaccepted (unaccepted : l.accepted = false) (first : l.again = false) (empty : l.blocks = [])
    (detail : Nat) : endLoad s l detail = complete (dropLoad s l) l.acc (detail / 256) detail l.results := by
  simp only [endLoad, giveBack, unaccepted, first, empty, List.isEmpty_nil, if_true, Bool.false_eq_true, if_false, false_and]

theorem failLoad_alone (alone : l.down = []) (detail : Nat) : failLoad s l detail = endLoad s l detail := by
  rw [failLoad, alone]
  rfl

theorem refuseLoad_host (host : l.upstream = none) (alone : l.down = []) (detail : Nat) :
    refuseLoad s l detail = endLoad s l detail := by
  rw [refuseLoad, host, failLoad_alone alone]
  rfl

/-! ### Manifests accepted (R137, R143) -/

/-- A load whose manifest `m` tells its set, where no message has told it before. -/
def digestKnown (l : SetLoad) (m : Bytes) : SetLoad :=
  { l with set := l.set.or (some (BitVec.ofNat 64 (digest8 (setDigest m)))) }

/-- Manifest `m`, of no BASE-ANALOG set, is whole, passes every check without an authority block, and its content key is
`key`; its domain, where it takes space of one, is not RETIRING (R135, R142, R291, R503). -/
structure ManifestPasses (s : State) (m key : Bytes) : Prop where
  long : 256 ≤ m.length
  head : manifestHeadOk m = true
  size : manifestSize m = m.length
  block : fieldAt m 0x60 8 + 8 ≤ m.length
  checks : manifestRefusal s m none = 0
  content : contentKey s m = .ok key
  stored : bitsAt m 4 4 17 16 ≠ 1
  free : s.hasSet (setDigest m) = true ∨ s.retiring [bitsAt m 0x14 4 12 0] = false

/-- A manifest that passes, as long as the host named it, is accepted. -/
theorem judgeManifest_accepts (h : ManifestPasses s m key) (whole : joinParts l.manifest = m)
    (unnamed : l.authority = none) :
    judgeManifest s l (some m.length) = acceptManifest s (digestKnown l m) m key := by
  obtain ⟨long, head, size, block, checks, content, stored, free⟩ := h
  have uncut : ¬ (m.length < fieldAt m 0x60 8 + 8 ∨ m.length < manifestSize m) := by omega
  have waits : ¬ (bitsAt m 4 4 17 16 ≠ 1 ∧ s.hasSet (setDigest m) = false ∧
      s.retiring [bitsAt m 0x14 4 12 0] = true) := by
    rintro ⟨-, fresh, retiring⟩
    simp [fresh, retiring] at free
  unfold judgeManifest
  dsimp only
  rw [whole, unnamed, if_neg (Nat.not_lt.2 long), if_neg (not_not.2 head), if_neg uncut, size]
  simp only [Option.any_some, bne_self_eq_false, Bool.false_eq_true, if_false, List.take_length, checks, ne_eq,
    not_true_eq_false, content, if_neg waits]
  rw [← unnamed]
  rfl

/-- A load whose manifest `m`, of no BASE-ANALOG set, is accepted. -/
def acceptedLoad (l : SetLoad) (m key : Bytes) (again : Bool) (blocks : List (Nat × Nat)) : SetLoad :=
  { l with
    set := some (BitVec.ofNat 64 (digest8 (setDigest m))), accepted := true, digest := setDigest m
    kind := bitsAt m 4 4 17 16, domain := bitsAt m 0x14 4 12 0, payload := fieldAt m 8 8, base := slice m 0x18 48
    chunks := chunkTable m, key := key, blocks := blocks, again := again, manifest := [] }

/-- `u` with the accepted load `l` noted and its manifest `m` sent on (R137, R140). -/
def forwarded (u : State) (l : SetLoad) (m : Bytes) : State :=
  l.takers.foldl (fun s a => sendObject s a 1 0 (l.set.getD 0) m) (putLoad (checkDigest u l.acc (setDigest m)) l)

theorem forwarded_relays (u : State) (l : SetLoad) (m : Bytes) : Relays (putLoad u l) (forwarded u l m) :=
  ((relays_of_logs (checkDigest_logs u l.acc (setDigest m))).putLoad l).trans (sendObjects_relays _ _ _ _ _ _)

/-- The set's space reserved, and its manifest written after the payload (R137). -/
def manifestStored (s : State) (m : Bytes) (n : Nat) : State × List (Nat × Nat) :=
  let t := takeBlocks s ((List.range n).map (· % 8))
  if n = 0 then (s, [])
  else (writeManifest (reserveDomain t.1 (bitsAt m 0x14 4 12 0) n) t.2 (bitsAt m 0x14 4 12 0) (fieldAt m 8 8) m, t.2)

theorem manifestStored_takes (s : State) (m : Bytes) (n : Nat) : TakesBlocks s (manifestStored s m n).1 := by
  unfold manifestStored
  dsimp only
  split_ifs
  · exact .refl s
  · exact ((takeBlocks_takes s _).trans (reserveDomain_takes _ _ _)).trans (writeRun_writes _ _ _ _ _).takes

section

variable (stored : bitsAt m 4 4 17 16 ≠ 1) (unsent : l.parts = [])
include stored unsent

theorem acceptManifest_again (again : s.hasSet (setDigest m) = true) :
    acceptManifest s l m key = forwarded (countSet s (setDigest m)) (acceptedLoad l m key true []) m := by
  have kind : (bitsAt m 4 4 17 16 != 1) = true := by simpa using stored
  have none : (l.parts.map fun e => e.1 / 2097152).dedup = [] := by rw [unsent]; rfl
  unfold acceptManifest
  simp only [again, kind, stored, none, Bool.and_self, or_true, if_true, if_false, List.foldl_nil]
  rfl

theorem acceptManifest_new (fresh : s.hasSet (setDigest m) = false) :
    acceptManifest s l m key =
      forwarded (manifestStored s m (setBlockCount (fieldAt m 8 8) m.length)).1
        (acceptedLoad l m key false (manifestStored s m (setBlockCount (fieldAt m 8 8) m.length)).2) m := by
  have none : (l.parts.map fun e => e.1 / 2097152).dedup = [] := by rw [unsent]; rfl
  unfold acceptManifest
  simp only [fresh, stored, none, Bool.and_false, or_self, Bool.false_eq_true, if_false, List.foldl_nil]
  unfold manifestStored
  dsimp only
  split_ifs
  · rfl
  · rfl

end

/-! ### A load from the host (R137) -/

theorem tdel_of_rising {α : Type} {k lo : Nat} {m : Tbl α} (rising : risingFrom lo m = true) (below : k < lo) :
    tdel k m = m := by
  induction m generalizing lo with
  | nil => rfl
  | cons e m ih =>
    obtain ⟨j, v⟩ := e
    simp only [risingFrom, Bool.and_eq_true, decide_eq_true_eq] at rising
    obtain ⟨first, rest⟩ := rising
    rw [tdel, if_neg (by omega), ih rest (by omega)]

/-- A written entry is removed as the one that stood there. -/
theorem tdel_tput {α : Type} (k : Nat) (v : α) {lo : Nat} {m : Tbl α} (rising : risingFrom lo m = true) :
    tdel k (tput k v m) = tdel k m := by
  induction m generalizing lo with
  | nil => simp [tput, tdel]
  | cons e m ih =>
    obtain ⟨j, w⟩ := e
    simp only [risingFrom, Bool.and_eq_true, decide_eq_true_eq] at rising
    obtain ⟨-, rest⟩ := rising
    rw [tput]
    split_ifs with below same
    · rw [tdel, if_pos rfl, tdel, if_neg (by omega), tdel_of_rising rest (by omega)]
    · rw [tdel, if_pos rfl, tdel, if_pos same]
    · rw [tdel, if_neg same, tdel, if_neg same, ih rest]

/-- The loads without one that has just joined them are those before. -/
theorem filter_loads_append (new : ∀ x ∈ s.loads, x.acc ≠ l.acc) :
    (s.loads ++ [l]).filter (fun x => x.acc != l.acc) = s.loads := by
  rw [List.filter_append, List.filter_eq_self.2 fun x mem => bne_iff_ne.2 (new x mem)]
  simp

/-- A manifest too short for its head is refused: the load that began for it is gone again. -/
theorem exec_weightLoad_short (served : s.serves acc 0x04 a) (unnamed : a.fld 0x30 8 = 0) (new : ∀ x ∈ s.loads, x.acc ≠ acc)
    (rising : risingFrom 0 s.intake.acc = true) (host : a.bits 8 4 0 0 = 1) (short : m.length < 256)
    (alone : a.bits 8 4 3 1 = 0) :
    ∃ t, exec (.weightLoad acc (.ok m) (.ok [])) s = .next t ∧ t.loads = s.loads ∧ t.sets = s.sets ∧
      t.intake.acc = tdel acc s.intake.acc ∧ t.stack = s.stack := by
  have cut : (joinParts (hostLoad acc a m).manifest).length < 256 := short
  have run := exec_weightLoad_host served unnamed host m (.ok [])
  rw [judgeManifest_short cut, refuseLoad_host (hostLoad_upstream host) (hostLoad_down alone),
    endLoad_unaccepted rfl rfl rfl] at run
  obtain ⟨-, -, -, mute, live, going⟩ := served
  obtain ⟨fns, os, written, -⟩ := Answerable.completed (s := dropLoad (loadBegun s acc a) (hostLoad acc a m)) (acc := acc)
    (a := { a with begun := true }) ⟨tfind_tput _ _ _, mute, live, going⟩ (0x0111 / 256) 0x0111 (hostLoad acc a m).results
  exact ⟨_, run.trans (congrArg _ written), filter_loads_append (l := newLoad acc a none) new, rfl,
    tdel_tput acc _ rising, rfl⟩

/-- An accepted manifest leaves the loads and the running step as they were, its own load apart; a set that is here already
is counted once more and takes no space. -/
theorem acceptManifest_leaves (stored : bitsAt m 4 4 17 16 ≠ 1) (unsent : l.parts = []) : ∃ u blocks,
    acceptManifest s l m key = forwarded u (acceptedLoad l m key (s.hasSet (setDigest m)) blocks) m ∧
      u.loads = s.loads ∧ u.run = s.run ∧ (s.hasSet (setDigest m) = false → u.sets = s.sets) ∧
      (s.hasSet (setDigest m) = true → blocks = [] ∧ u = countSet s (setDigest m)) := by
  cases again : s.hasSet (setDigest m) with
  | false =>
    obtain ⟨k, d, n, e⟩ := manifestStored_takes s m (setBlockCount (fieldAt m 8 8) m.length)
    refine ⟨_, _, acceptManifest_new stored unsent again, ?_⟩
    rw [e]
    exact ⟨rfl, rfl, fun _ => rfl, fun h => Bool.noConfusion h⟩
  | true =>
    exact ⟨_, _, acceptManifest_again stored unsent again, rfl, rfl, fun h => Bool.noConfusion h, fun _ => ⟨rfl, rfl⟩⟩

/-- The accepted load of a set that the host sends, in blocks of its own unless the set is here already. -/
def hostAccepted (s : State) (acc : Nat) (a : Acc) (m key : Bytes) (blocks : List (Nat × Nat)) : SetLoad :=
  acceptedLoad (digestKnown (hostLoad acc a m) m) m key (s.hasSet (setDigest m)) blocks

theorem exec_weightLoad_accepts (served : s.serves acc 0x04 a) (unnamed : a.fld 0x30 8 = 0) (host : a.bits 8 4 0 0 = 1)
    (named : a.fld 0x20 8 = m.length) (h : ManifestPasses s m key) :
    ∃ t blocks, exec (.weightLoad acc (.ok m) (.ok [])) s = .next t ∧ hostAccepted s acc a m key blocks ∈ t.loads ∧
      t.run = s.run ∧ (s.hasSet (setDigest m) = false → t.sets = s.sets) ∧
      (s.hasSet (setDigest m) = true → blocks = [] ∧ t.stack = s.stack ∧ t.sets = (countSet s (setDigest m)).sets) := by
  have passes : ManifestPasses (loadBegun s acc a) m key :=
    ⟨h.long, h.head, h.size, h.block, h.checks, h.content, h.stored, h.free⟩
  have run := exec_weightLoad_host served unnamed host m (.ok [])
  rw [named, judgeManifest_accepts passes (joinParts_hostLoad acc a m) rfl] at run
  obtain ⟨u, blocks, e, loads, ran, fresh, again⟩ := acceptManifest_leaves (s := loadBegun s acc a) (key := key)
    (l := digestKnown (hostLoad acc a m) m) h.stored rfl
  rw [e] at run
  obtain ⟨loads', sets', stack', -, -, run'⟩ := (forwarded_relays u (hostAccepted s acc a m key blocks) m).leaves
  have joined : newLoad acc a none ∈ u.loads := loads ▸ List.mem_append_right _ List.mem_cons_self
  have mem := mem_putLoad (l := hostAccepted s acc a m key blocks) joined rfl
  rw [← loads'] at mem
  refine ⟨_, blocks, run, mem, run'.trans ran, fun new => sets'.trans (fresh new), fun old => ?_⟩
  obtain ⟨rfl, rfl⟩ := again old
  exact ⟨rfl, stack', sets'⟩

end Sys2Proof.Proofs
end

section
/-!
The chunks of weight-set loads and the relay's notices (O45; R136, R138 to R141): fragments kept, chunks stored, sets
committed, requests and refusals.
-/

namespace Sys2Proof.Proofs

open Sys2Proof.Machine Sys2Proof.Laws

variable {s t : State} {acc i o : Nat} {a : Acc} {l : SetLoad} {src : Option W16} {set : W64} {data p : Bytes}

/-! ### Chunks (R136, R139, R141) -/

/-- The load `l` with a fragment of chunk `i`, at offset `o` of its record, kept. -/
def withPart (l : SetLoad) (i o : Nat) (data : Bytes) : SetLoad := { l with parts := tput (partKey i o) data l.parts }

theorem tryChunk_unfinished (h : ∀ x ∈ s.loads, x.acc = acc → (x.record i).length ≠ x.chunkLen i + 32) :
    tryChunk s acc i = s := by
  unfold tryChunk
  split
  next x found =>
    have same : x.acc = acc := by simpa using List.find?_some found
    exact if_neg fun ⟨_, _, _, whole⟩ => h x (List.mem_of_find?_eq_some found) same whole
  next => rfl

/-- Load `l`, of no BASE-ANALOG set and of none that was here before, has all of chunk `i`, which is not stored yet and opens
as `p` (R136). -/
structure ChunkPasses (l : SetLoad) (i : Nat) (p : Bytes) : Prop where
  accepted : l.accepted = true
  kind : l.kind ≠ 1
  first : l.again = false
  new : i ∉ l.stored
  named : i < l.chunks.length
  whole : (l.record i).length = l.chunkLen i + 32
  opened : openChunk l i (l.record i) = some p

theorem tryChunk_passes (found : s.loads.find? (fun x => x.acc == acc) = some l) (h : ChunkPasses l i p) :
    tryChunk s acc i = chunkStored s l i (l.record i) p := by
  have unstored : ¬ l.stored.contains i = true := by simpa using h.new
  unfold tryChunk
  rw [found]
  dsimp only
  rw [if_pos ⟨h.accepted, unstored, h.named, h.whole⟩, h.opened]

/-- The load `l` once chunk `i` is stored. -/
def withStored (l : SetLoad) (i : Nat) : SetLoad :=
  { l with stored := l.stored ++ [i]
           parts := tput (partKey i 0) (l.record i) (l.parts.filter fun e => e.1 / 2097152 != i)
           wanted := l.wanted.filter fun w => w.2 != i }

/-- The content of chunk `i` in the set's blocks, and the load with the chunk stored. -/
def chunkWritten (s : State) (l : SetLoad) (i : Nat) (p : Bytes) : State :=
  putLoad (writeRun s l.blocks l.domain (4096 * i) (unitsOf ((p.length + 255) / 256) p)) (withStored l i)

theorem storeContent_stacks (kind : l.kind ≠ 1) (first : l.again = false) :
    storeContent s l i p = writeRun s l.blocks l.domain (4096 * i) (unitsOf ((p.length + 255) / 256) p) :=
  (if_neg kind).trans (if_neg (Bool.eq_false_iff.1 first))

/-- A stored chunk is sent on, and the set commits with its last. -/
theorem chunkStored_passes (h : ChunkPasses l i p) : ∃ t, Relays (chunkWritten s l i p) t ∧
    chunkStored s l i (l.record i) p =
      if l.stored.length + 1 = l.chunks.length then commitSet t (withStored l i) else t := by
  let dests := l.takers ++ (l.wanted.filter fun w => w.2 == i).map (·.1)
  refine ⟨_, sendObjects_relays _ dests 2 i (l.set.getD 0) (l.record i), ?_⟩
  unfold chunkStored
  dsimp only
  rw [if_neg fun analog => h.kind analog.1, storeContent_stacks h.kind h.first]
  simp only [h.kind, ne_eq, not_false_eq_true, true_and, List.length_append, List.length_singleton]
  rfl

theorem writeRun_putLoad (s : State) (l : SetLoad) (bs : List (Nat × Nat)) (dom o : Nat) (us : List Bytes) :
    writeRun (putLoad s l) bs dom o us = putLoad (writeRun s bs dom o us) l :=
  List.foldl_hom (putLoad · l) fun _ _ => rfl

theorem writeRun_putLoad_stack (s : State) (l : SetLoad) (bs : List (Nat × Nat)) (dom o : Nat) (us : List Bytes) :
    (writeRun (putLoad s l) bs dom o us).stack = (writeRun s bs dom o us).stack := by
  rw [writeRun_putLoad]
  rfl

theorem chunkWritten_leaves (mem : l ∈ s.loads) :
    withStored l i ∈ (chunkWritten s l i p).loads ∧
      (chunkWritten s l i p).stack = (writeRun s l.blocks l.domain (4096 * i) (unitsOf ((p.length + 255) / 256) p)).stack ∧
      (chunkWritten s l i p).sets = s.sets ∧ (chunkWritten s l i p).intake = s.intake ∧
      (chunkWritten s l i p).fns = s.fns := by
  obtain ⟨k, e⟩ := writeRun_writes s l.blocks l.domain (4096 * i) (unitsOf ((p.length + 255) / 256) p)
  rw [chunkWritten, e]
  exact ⟨mem_putLoad (x := l) mem rfl, rfl, rfl, rfl, rfl⟩

/-- The set that a load commits (R134). -/
def newSet (l : SetLoad) : WeightSet :=
  { kind := l.kind, domain := l.domain, payload := l.payload, base := l.base, count := 1, blocks := l.blocks }

theorem commitSet_new (first : l.again = false) (fresh : s.hasSet l.digest = false) (room : s.sets.length < 65536) :
    commitSet s l = complete { dropLoad s l with sets := s.sets ++ [(l.digest, newSet l)] } l.acc 0 0 l.results :=
  (if_neg (Bool.eq_false_iff.1 first)).trans <| (if_neg (Bool.eq_false_iff.1 fresh)).trans <| if_neg (Nat.not_le.2 room)

theorem answerable_of_eq (h : Answerable s acc a) (intake : t.intake = s.intake) (fns : t.fns = s.fns) :
    Answerable t acc a := by
  unfold Answerable State.cqOf State.fnOf at h ⊢
  rw [intake, fns]
  exact h

/-- A committed load is gone, its set is last among the sets, and its descriptor is accepted no longer. -/
theorem commitSet_leaves (h : Answerable s l.acc a) (first : l.again = false) (fresh : s.hasSet l.digest = false)
    (room : s.sets.length < 65536) :
    (∀ x ∈ (commitSet s l).loads, x.acc ≠ l.acc) ∧ (commitSet s l).sets = s.sets ++ [(l.digest, newSet l)] ∧
      (commitSet s l).intake.acc = tdel l.acc s.intake.acc := by
  obtain ⟨fns, os, e, -⟩ := Answerable.completed (s := { dropLoad s l with sets := s.sets ++ [(l.digest, newSet l)] })
    (acc := l.acc) (answerable_of_eq h rfl rfl) 0 0 l.results
  rw [commitSet_new first fresh room, e]
  exact ⟨fun x mem => by simpa using (List.mem_filter.1 mem).2, rfl, rfl⟩

/-! ### The messages (R138 to R140) -/

theorem exec_manifestFragment (sent : s.loadFrom src set = some l) (unaccepted : l.accepted = false) :
    exec (.manifestFragment src o set data) s =
      .next (judgeManifest s { l with set := some set, manifest := tput o data l.manifest } none) := by
  have e : exec (.manifestFragment src o set data) s = execManifestFragment src o set data s := rfl
  rw [e, execManifestFragment, sent]
  exact if_neg (Bool.eq_false_iff.1 unaccepted)

theorem exec_manifestFragment_unsent (h : s.loadFrom src set = none) :
    exec (.manifestFragment src o set data) s = .next (dropRelay s) := by
  have e : exec (.manifestFragment src o set data) s = execManifestFragment src o set data s := rfl
  rw [e, execManifestFragment, h]

theorem exec_chunkFragment_unsent (h : s.loadFrom src set = none) :
    exec (.chunkFragment src i o set data) s = .next (dropRelay s) := by
  have e : exec (.chunkFragment src i o set data) s = execChunkFragment src i o set data s := rfl
  rw [e, execChunkFragment, h]

theorem exec_chunkFragment_stored (sent : s.loadFrom src set = some l) (old : i ∈ l.stored) :
    exec (.chunkFragment src i o set data) s = .next s := by
  have e : exec (.chunkFragment src i o set data) s = execChunkFragment src i o set data s := rfl
  rw [e, execChunkFragment, sent]
  exact if_pos (by simpa using old)

theorem exec_chunkFragment_new (sent : s.loadFrom src set = some l) (new : i ∉ l.stored) (low : o < 2097152) :
    exec (.chunkFragment src i o set data) s =
      .next (tryChunk (putLoad s (withPart { l with set := some set } i o data)) l.acc i) := by
  have e : exec (.chunkFragment src i o set data) s = execChunkFragment src i o set data s := rfl
  rw [e, execChunkFragment, sent]
  exact (if_neg (by simpa using new)).trans (if_pos low)

theorem exec_relayRefused_upstream {src : W16} {detail : W16} (sent : s.loadFrom (some src) set = some l) :
    exec (.relayRefused src set detail) s = .next (failLoad s { l with set := some set } 0x0621) := by
  have e : exec (.relayRefused src set detail) s = execRelayRefused src set detail s := rfl
  rw [e, execRelayRefused, sent]

theorem exec_relayRefused_downstream {src : W16} {detail : W16} (unsent : s.loadFrom (some src) set = none)
    (found : s.loads.find? (fun l => l.set == some set && l.down.any (fun e => e.1 == src)) = some l) :
    exec (.relayRefused src set detail) s = .next (downRefused s l src detail.toNat) := by
  have e : exec (.relayRefused src set detail) s = execRelayRefused src set detail s := rfl
  rw [e, execRelayRefused, unsent]
  dsimp only
  rw [found]

section

variable {src : W16} (found : s.loads.find? (fun x => x.set == some set &&
  (x.down.any (fun e => e.1 == src) || x.upstream == some src)) = some l)
include found

theorem exec_chunkRequest_waits (new : i ∉ l.stored) (down : l.down.any (fun e => e.1 == src) = true) :
    exec (.chunkRequest src set i) s = .next (putLoad s { l with wanted := l.wanted ++ [(src, i)] }) := by
  have e : exec (.chunkRequest src set i) s = execChunkRequest src set i s := rfl
  rw [e, execChunkRequest, found]
  exact (if_neg (not_not.2 down)).trans (if_neg (by simpa using new))

theorem exec_chunkRequest_upstream (up : l.down.any (fun e => e.1 == src) = false) :
    exec (.chunkRequest src set i) s = .next s := by
  have e : exec (.chunkRequest src set i) s = execChunkRequest src set i s := rfl
  rw [e, execChunkRequest, found]
  exact if_pos (Bool.eq_false_iff.1 up)

end

/-! ### Settling O45 -/

/-- A fragment of a chunk that is not whole yet is kept. -/
theorem exec_chunkFragment_unfinished (sent : s.loadFrom src set = some l) (new : i ∉ l.stored) (low : o < 2097152)
    (part : ((withPart { l with set := some set } i o data).record i).length ≠
      (withPart { l with set := some set } i o data).chunkLen i + 32) :
    exec (.chunkFragment src i o set data) s = .next (putLoad s (withPart { l with set := some set } i o data)) := by
  have kept := tryChunk_unfinished (s := putLoad s (withPart { l with set := some set } i o data)) (acc := l.acc) (i := i)
    fun x mem same => by rw [eq_of_mem_putLoad mem same]; exact part
  rw [exec_chunkFragment_new sent new low, kept]

/-- A chunk that is whole and opens is stored in the set's blocks and in its load; the last one commits the set. -/
theorem exec_chunkFragment_passes (mem : l ∈ s.loads) (known : l.set = some set) (sent : s.loadFrom src set = some l)
    (low : o < 2097152) (h : ChunkPasses (withPart l i o data) i p) :
    ∃ t, exec (.chunkFragment src i o set data) s =
        .next (if l.stored.length + 1 = l.chunks.length then commitSet t (withStored (withPart l i o data) i) else t) ∧
      withStored (withPart l i o data) i ∈ t.loads ∧
      t.stack = (writeRun s l.blocks l.domain (4096 * i) (unitsOf ((p.length + 255) / 256) p)).stack ∧
      t.sets = s.sets ∧ t.intake = s.intake ∧ t.fns = s.fns := by
  have same : ({ l with set := some set } : SetLoad) = l := by rw [← known]
  obtain ⟨t, relays, e⟩ := chunkStored_passes (s := putLoad s (withPart l i o data)) h
  have found := find_putLoad (l := withPart l i o data) mem rfl
  have run : exec (.chunkFragment src i o set data) s = .next _ := exec_chunkFragment_new sent h.new low
  rw [same] at run
  obtain ⟨inLoads, stack, sets, intake, fns⟩ := chunkWritten_leaves (i := i) (p := p)
    (mem_putLoad (l := withPart l i o data) mem rfl)
  obtain ⟨loads', sets', stack', intake', fns', -⟩ := relays.leaves
  rw [← loads'] at inLoads
  exact ⟨t, run.trans (congrArg _ ((tryChunk_passes found h).trans e)), inLoads,
    (stack'.trans stack).trans (writeRun_putLoad_stack s _ _ _ _ _), sets'.trans sets, intake'.trans intake,
    fns'.trans fns⟩

/-- Settles O45: each message is its own equation of the load it belongs to. -/
theorem weightSetsLoad : Obligations.WeightSetsLoad := by
  refine ⟨fun s => ⟨fun acc a served unnamed new rising => ⟨fun m far => ?_, fun m host short alone => ?_,
    fun m k host long head size named block pass content stored free => ?_⟩,
    fun src o set data => ⟨fun unsent => ⟨?_, fun i => ?_⟩, fun l sent => ⟨fun unaccepted short => ?_, fun i old => ?_,
      fun i new low part alone => ?_⟩⟩⟩,
    fun s set l mem known alone => ⟨fun src i o data p sent new low accepted kind first named whole opened => ?_,
      fun src i found => ⟨fun new down => ?_, fun up => ?_⟩, fun src detail unsent found => ?_,
      fun src detail a sent down unaccepted first empty found mute live going => ?_⟩⟩
  · exact ⟨_, newLoad acc a none, exec_weightLoad_neighbour served unnamed far m m, rfl, rfl, rfl,
      if_neg (by omega), rfl, rfl, tfind_tput _ _ _⟩
  · exact exec_weightLoad_short served unnamed new rising host short alone
  · obtain ⟨t, blocks, run, mem, ran, fresh, again⟩ := exec_weightLoad_accepts served unnamed host named
      ⟨long, head, size, block, pass, content, stored, free⟩
    exact ⟨t, _, run, mem, rfl, rfl, rfl, rfl, rfl, rfl, rfl, rfl, ran, rfl, fresh, again⟩
  · exact ⟨_, exec_manifestFragment_unsent unsent, rfl⟩
  · exact ⟨_, exec_chunkFragment_unsent unsent, rfl⟩
  · exact ⟨_, (exec_manifestFragment sent unaccepted).trans (congrArg _ (judgeManifest_unfinished short)), rfl⟩
  · exact ⟨_, exec_chunkFragment_stored sent old, rfl⟩
  · exact ⟨_, exec_chunkFragment_unfinished sent new low part, rfl⟩
  · obtain ⟨t, run, inLoads, stack, sets, intake, fns⟩ := exec_chunkFragment_passes mem known sent low
      ⟨accepted, kind, first, new, named, whole, opened⟩
    refine ⟨fun more => ?_, fun a last fresh room found mute live going => ?_⟩
    · rw [if_neg (by omega)] at run
      exact ⟨t, _, run, inLoads, rfl, rfl, rfl, rfl, stack, sets, intake⟩
    · rw [if_pos last] at run
      obtain ⟨gone, committed, released⟩ := commitSet_leaves (s := t) (l := withStored (withPart l i o data) i)
        (answerable_of_eq (s := s) ⟨found, mute, live, going⟩ intake fns) first
        (by rw [State.hasSet, sets]; exact fresh) (by rw [sets]; exact room)
      rw [sets] at committed
      rw [intake] at released
      exact ⟨_, run, gone, committed, released⟩
  · exact ⟨_, exec_chunkRequest_waits found new down, rfl⟩
  · exact ⟨_, exec_chunkRequest_upstream found up, rfl⟩
  · exact ⟨_, exec_relayRefused_downstream unsent found, rfl⟩
  · have same : ({ l with set := some set } : SetLoad) = l := by rw [← known]
    have run := exec_relayRefused_upstream (detail := detail) sent
    rw [same, failLoad_alone down, endLoad_unaccepted unaccepted first empty] at run
    obtain ⟨fns, os, written, completes⟩ := Answerable.completed (s := dropLoad s l) (acc := l.acc) (a := a)
      ⟨found, mute, live, going⟩ (0x0621 / 256) 0x0621 l.results
    exact ⟨_, run.trans (congrArg _ written), completes, rfl, rfl⟩

end Sys2Proof.Proofs
end

section
/-!
The accumulator store's words as a drain reads them (O12; R189, R192).
-/

namespace Sys2Proof.Proofs

open Sys2Proof.Machine Sys2Proof.Laws

variable {s : State} {n : Nat} {p : PlanPos}

theorem filter_weak_of_sound {m : Matrix} (weak : m.weak = []) (g : Nat × Nat → Bool) :
    { m with weak := m.weak.filter g } = m := by
  cases m
  cases weak
  rfl

/-- Reading sound words raises nothing, but writes the array's entry back. -/
theorem eccAcc_of_sound (bad : (s.matOf n).bad = []) (weak : (s.matOf n).weak = []) (ws : List Nat) :
    eccAcc s n ws = s.setMat n (s.matOf n) := by
  rw [eccAcc, filter_weak_of_sound weak, weak, bad]
  rfl

theorem writeRows_matrix (s : State) (ws : List (Nat × Nat × Bytes)) : (s.writeRows ws).matrix = s.matrix :=
  List.foldlRecOn (motive := fun t : State => t.matrix = s.matrix) ws _ rfl fun _ h _ _ => h

/-- A row of a DRAIN_WIDE that does not clear leaves the arrays as the reading of its words does. -/
theorem does_drainWide_matrix (bad : (s.matOf (s.phys p.vmove)).bad = []) (weak : (s.matOf (s.phys p.vmove)).weak = [])
    (d acc rows k : Nat) :
    (s.does p (.drainWide d acc rows false) k).matrix
      = tset {} s.matrix (s.phys p.vmove) (s.matOf (s.phys p.vmove)) := by
  show (drainWideStep p.vmove d acc false p s k).matrix = _
  simp only [drainWideStep, clearRow, eccAcc_of_sound bad weak]
  exact writeRows_matrix _ _

/-- The reset state with array 0 listed, holding its reset values: the table's keys rise, but it is not in canonical form. -/
def listedArray : State := { State.reset with matrix := [(0, {})] }

/-- Refutes O12: the clause on a drain's rows asks of the table of arrays only that its keys rise. Where the table lists an array
that holds its reset values (`listedArray`), the row of a DRAIN_WIDE reads its words and writes the array back, and a write of
reset values takes the entry out of the table: the state after it is not the state before with the destination rows written.
With the table in canonical form (`Tbl.wf`) no such entry stands in it. -/
theorem not_matrixAccumulators : ¬ Obligations.MatrixAccumulators := by
  rintro ⟨-, rowsDone, -⟩
  obtain ⟨-, wide, -⟩ := rowsDone listedArray { step := 0, beat := 0, vmove := 0, event := 0 } 0 0 1 0 rfl rfl rfl
  have kept := congrArg State.matrix (wide false)
  rw [does_drainWide_matrix rfl rfl] at kept
  exact absurd kept (List.cons_ne_nil _ _).symm

end Sys2Proof.Proofs
end

section
/-!
The issue of FSEND and FRECV (O34; R447 to R449): command ops with flow-buffer accesses and a check of their own at issue.
-/

namespace Sys2Proof.Proofs

open Sys2Proof.Machine Sys2Proof.Laws

variable {s t : State} {v : VMove} {e : Bool} {as accs : List Access}

/-! ### What the checks read -/

theorem plan_eq (s : State) : s.plan = (s.run.map (·.plan)).getD {} := by
  rw [State.plan]
  cases s.run <;> rfl

theorem claimed_plan : (claimed s v e as).plan = s.plan := by
  rw [plan_eq, claimed_map fun _ _ _ _ _ _ _ => rfl, ← plan_eq]

theorem claimed_flowOf (die flow : Nat) : (claimed s v e as).flowOf die flow = s.flowOf die flow := by
  rw [State.flowOf, claimed_plan, State.flowOf]

/-- What reads nothing that events leave behind and nothing of the running step is, after an issue, what the sequencer's write
leaves. -/
theorem claimed_field {α : Type} (g : State → α) (blind : ∀ t s : State, g (t.unissued s) = g t) :
    g (claimed s v e as) = g (s.issuedBy v e) := by
  rw [← blind _ s, claimed_unissued]

section Tables

variable (tables : t.tables = s.tables) (free : t.free = s.free)

include tables free

theorem look_congr (k i : Nat) : t.look k i = s.look k i := by
  simp only [State.look, State.activeEntry, State.tableOf, State.choice, tables, free] <;> rfl

theorem dims_congr : t.dims = s.dims := by
  simp only [State.dims, State.dimRaw, State.look8, look_congr tables free]

theorem neighbour_congr (a d r : Nat) : t.neighbour a d r = s.neighbour a d r := by
  simp only [State.neighbour, State.dim, dims_congr tables free]

theorem portsOf_congr (d r : Nat) : t.portsOf d r = s.portsOf d r := by
  simp only [State.portsOf, State.portDim, State.dim, dims_congr tables free, look_congr tables free, State.activeEntry,
    State.tableOf, tables] <;> rfl

theorem packagePlace_congr (k : Nat) : t.packagePlace k = s.packagePlace k := by
  simp only [State.packagePlace, State.flatPlace, look_congr tables free]

/-- The levels of a plan's ports rest on the tables, the ports and the place. -/
theorem levelShort_congr (ports : t.ports = s.ports) (fabric : t.fabric = s.fabric) (p : Plan) (d r : Nat) :
    t.levelShort p d r = s.levelShort p d r := by
  simp only [State.levelShort, State.isActive, State.portOf, portsOf_congr tables free, packagePlace_congr tables free,
    neighbour_congr tables free, ports, fabric] <;> rfl

end Tables

theorem claimed_levelShort (p : Plan) (d r : Nat) : (claimed s v e as).levelShort p d r = s.levelShort p d r :=
  levelShort_congr (claimed_field State.tables fun _ _ => rfl) (claimed_field State.free fun _ _ => rfl)
    (claimed_field State.ports fun _ _ => rfl) (claimed_field State.fabric fun _ _ => rfl) p d r

/-- An FSEND of a declared flow, within its send buffer, at the level of its ports passes its check (R448). -/
theorem fsendCheck_passes {die flow a n : Nat} {f : Flow} (declared : s.flowOf die flow = some f)
    (low : f.srcFirst ≤ a % 2 ^ 23 / 256 * 256) (high : a % 2 ^ 23 / 256 * 256 + 256 * n ≤ f.srcFirst + f.size)
    (level : s.levelShort s.plan f.dim (natOfBool f.dir) = false) : fsendCheck s die flow a n = none := by
  have inside : (List.range n).find? (fun k =>
      decide (a % 2 ^ 23 / 256 * 256 + 256 * k < f.srcFirst ∨ f.srcFirst + f.size < a % 2 ^ 23 / 256 * 256 + 256 * k + 256))
      = none := by
    refine List.find?_eq_none.2 fun k mem => ?_
    have lt := List.mem_range.1 mem
    rw [decide_eq_true_eq]
    omega
  simp only [fsendCheck, declared, inside, level, Bool.false_eq_true, if_false]

/-- An FRECV passes its check where no flow's incoming ports run below the level (R449). -/
theorem frecvCheck_passes (die a n : Nat)
    (level : ∀ x ∈ s.plan.flows, s.levelShort s.plan x.2.dim (1 - natOfBool x.2.dir) = false) : frecvCheck s die a n = none := by
  have none_short : s.plan.flows.find? (fun x => x.1 / 16384 == die && inHop x.2 (a % 2 ^ 23 / 256 * 256) n
      && s.levelShort s.plan x.2.dim (1 - natOfBool x.2.dir)) = none := by
    refine List.find?_eq_none.2 fun x mem => ?_
    rw [level x mem, Bool.and_false]
    exact Bool.false_ne_true
  simp only [frecvCheck, none_short]

theorem replaySend_of_live {k : Nat} {p : PlanPos} (live : (s.replaying && s.replay.data) = false) :
    replaySend v k p s = s := by
  rw [replaySend, live]
  rfl

/-! ### The issue of a command with accesses and a check -/

section Issue

variable {ty q rows : Nat} {c c' : Instr} {src : List (Nat × Nat)} {pre : State → Option (Nat × Nat × Nat)} {post : State → State}

/-- The effect of a command op that passes its check. -/
theorem issueCmd_passes (can : s.canEngine v = true) (type : s.vtype v = ty) (ext : s.inExtents v (reads src ++ accs))
    (passes : pre (claimed s v true (reads src ++ accs)) = none) :
    issueCmd s v ty q true accs c src (fun _ => []) rows pre post = .next (
      let t := claimed s v true (reads src ++ accs)
      let t' := pushCmd t v q (issuedCmd s v c src [] rows)
      if (t'.qOf (qKey v q)).issued = (t.qOf (qKey v q)).issued then t'
      else if src.isEmpty then post t' else addFlight (post t') (s.pos v) (.source q c src)) := by
  have defined : (true && s.vtype v == ty) = true := by rw [type, beq_self_eq_true]; rfl
  have addr : (s.seqOf v).opAddr = ((claimed s v true (reads src ++ accs)).seqOf v).opAddr := by rw [claimed_seqOf]; rfl
  rw [issueCmd, issueEngine, issueOp_ok s v true _ _ _ can defined ext]
  show Host.Outcome.next (match pre (claimed s v true (reads src ++ accs)) with
    | some (code, detail, operand) => _
    | none => _) = _
  rw [passes]
  simp only [issuedCmd, addr] <;> rfl

/-- A queue with room takes the command last. -/
theorem pushCmd_claimed (on : s.discarded = false)
    (depth : ((s.qOf (qKey v q)).issued - (s.qOf (qKey v q)).retired).toNat ≠ (s.qDecl v q).1)
    (share : (s.qOf (qKey v q)).reserved (s.mvOf (s.phys v)).beats + rows ≤ (s.qDecl v q).2) :
    pushCmd (claimed s v e as) v q (issuedCmd s v c src [] rows) = (claimed s v e as).setQ (qKey v q)
      (Queue.pushed (s.qOf (qKey v q)) (issuedCmd s v c src [] rows)) := by
  rw [← claimed_qOf (v := v) (e := e) (as := as)]
  refine pushCmd_of_room (claimed_discarded.trans on) ?_ ?_
  · rwa [claimed_qOf, claimed_qDecl]
  · rwa [claimed_qOf, claimed_qDecl]

/-- A command op that passes its check and whose queue has room for it issues: the command stands last in the queue, and what
`post` does to the state with it is nothing. -/
theorem exec_issues_passing (op : exec c s = issueCmd s v ty q true accs c' src (fun _ => []) rows pre post)
    (can : s.canEngine v = true) (on : s.discarded = false) (type : s.vtype v = ty)
    (depth : ((s.qOf (qKey v q)).issued - (s.qOf (qKey v q)).retired).toNat ≠ (s.qDecl v q).1)
    (share : (s.qOf (qKey v q)).reserved (s.mvOf (s.phys v)).beats + rows ≤ (s.qDecl v q).2)
    (ext : s.inExtents v (reads src ++ accs)) (passes : pre (claimed s v true (reads src ++ accs)) = none)
    (idle : ∀ t : State, t.replay = s.replay → t.tenancy = s.tenancy → post t = t) :
    ∃ t, exec c s = .next t ∧
      s.leaves v ((s.issuedBy v).setQ (qKey v q) (Queue.pushed (s.qOf (qKey v q)) (issuedCmd s v c' src [] rows))) t
        (if src.isEmpty then [] else [.source q c' src]) := by
  obtain ⟨r, running⟩ := run_of_may s v true can
  have run : s.run.isSome = true := by rw [running]; rfl
  have counted : ¬ (s.qOf (qKey v q)).issued + 1 = (s.qOf (qKey v q)).issued := by bv_omega
  have queued := leaves_setQ (v := v) (e := true) (as := reads src ++ accs) run (qKey v q)
    (Queue.pushed (s.qOf (qKey v q)) (issuedCmd s v c' src [] rows))
  have unposted := idle ((claimed s v true (reads src ++ accs)).setQ (qKey v q)
      (Queue.pushed (s.qOf (qKey v q)) (issuedCmd s v c' src [] rows)))
    (claimed_field (as := reads src ++ accs) State.replay fun _ _ => rfl)
    (claimed_field (as := reads src ++ accs) State.tenancy fun _ _ => rfl)
  refine ⟨_, op.trans (issueCmd_passes can type ext passes), ?_⟩
  dsimp only
  rw [pushCmd_claimed on depth share, qOf_setQ_pushed, claimed_qOf, if_neg (by exact counted), unposted]
  split
  · exact queued
  · refine leaves_addFlight queued ?_ _
    show ((claimed s v true (reads src ++ accs)).seqOf v).opAddr = _
    rw [claimed_seqOf]
    rfl

end Issue

theorem outRows_isEmpty (a n b : Nat) : (outRows a (n + 1) b).isEmpty = false := by
  rw [outRows, List.range_succ_eq_map]
  rfl

/-- FSEND is a command op with its flow-buffer rows, its check and what a replay does (R447, R448, R540). -/
theorem exec_fsend {src : AddrOp} {flow : BitVec 14} {n : BitVec 12} {fb : FlowOp} {k : Fin 16} (die : s.vord v < 2) :
    exec (.fsend v src flow n fb k) s = issueCmd s v 7 k true
      (flowRows (s.vord v) ((s.seqOf v).flowAddr fb) (n.toNat + 1) (s.pos v).beat true)
      (.fsend v src flow n (.lit (BitVec.ofNat 24 ((s.seqOf v).flowAddr fb))) k)
      (outRows ((s.seqOf v).addr src) (n.toNat + 1) (s.pos v).beat) (fun _ => []) 0
      (fun t => fsendCheck t (s.vord v) flow.toNat ((s.seqOf v).flowAddr fb) (n.toNat + 1)) (replaySend v k (s.pos v)) := by
  show execFsend v src flow n fb k s = _
  rw [execFsend, decide_eq_true die]

theorem exec_frecv {n : BitVec 12} {fb : FlowOp} {k : Fin 16} (die : s.vord v < 2) :
    exec (.frecv v n fb k) s = issueCmd s v 7 k true
      (flowRows (s.vord v) ((s.seqOf v).flowAddr fb) (n.toNat + 1) (s.pos v).beat false)
      (.frecv v n (.lit (BitVec.ofNat 24 ((s.seqOf v).flowAddr fb))) k) [] (fun _ => []) (n.toNat + 1)
      (fun t => frecvCheck t (s.vord v) ((s.seqOf v).flowAddr fb) (n.toNat + 1)) id := by
  show execFrecv v n fb k s = _
  rw [execFrecv, decide_eq_true die]

end Sys2Proof.Proofs
end

section
/-!
The flow buffers of a link die (O34; R82, R448, R452): rows stored one after another, and the records kept by row.
-/

namespace Sys2Proof.Proofs

open Sys2Proof.Machine Sys2Proof.Laws

variable {s : State} {l : LinkDie}

/-! ### Rows of bytes -/

theorem length_slice (b : Bytes) (o n : Nat) : (slice b o n).length = n := by
  simp only [slice, List.length_append, List.length_replicate, List.length_take]
  omega

theorem padTo_of_length {b : Bytes} {n : Nat} (h : b.length = n) : padTo n b = b := by
  subst h
  simp [padTo, slice]

theorem length_leBytes (n v : Nat) : (leBytes n v).length = n := by
  induction n generalizing v with
  | zero => rfl
  | succ n ih => rw [leBytes, List.length_cons, ih]

/-- Bytes read from places where two memories agree. -/
theorem memGet_congr {f : Option Nat} {m m' : Mem} {a n : Nat}
    (h : ∀ i, a ≤ i → i < a + n → memByte f m i = memByte f m' i) : memGet f m a n = memGet f m' a n := by
  induction n generalizing a with
  | zero => rfl
  | succ n ih =>
    rw [memGet, memGet, h a le_rfl (by omega), ih fun i low high => h i (by omega) (by omega)]

theorem tfind_tput_ne {α : Type} {k j : Nat} (v : α) (m : Tbl α) (h : j ≠ k) : tfind (tput k v m) j = tfind m j := by
  induction m with
  | nil => simp [tput, tfind, Ne.symm h]
  | cons x m ih =>
    simp only [tput]
    split_ifs with below same
    · simp [tfind, Ne.symm h]
    · simp [tfind, same, Ne.symm h]
    · simp [tfind, ih]

/-- A run of entries written with one value reads it back. -/
theorem tfind_foldl_tput {α : Type} (base n : Nat) (v : α) (m : Tbl α) {j : Nat} (h : j < n) :
    tfind ((List.range n).foldl (fun m k => tput (base + k) v m) m) (base + j) = some v := by
  induction n with
  | zero => exact absurd h (Nat.not_lt_zero j)
  | succ n ih =>
    rw [List.range_succ, List.foldl_append, List.foldl_cons, List.foldl_nil]
    rcases Nat.lt_succ_iff_lt_or_eq.1 h with below | rfl
    · rw [tfind_tput_ne _ _ (by omega), ih below]
    · exact tfind_tput _ _ _

/-! ### Stored rows -/

/-- The die with rows stored from row `off` of the buffer that begins at `base`. -/
def storedRows (l : LinkDie) (base off : Nat) (rows : List Bytes) : LinkDie :=
  (indexed rows).foldl (fun l x => l.putRow (base + 256 * (off + x.1)) x.2) l

theorem indexed_append (rows : List Bytes) (row : Bytes) : indexed (rows ++ [row]) = indexed rows ++ [(rows.length, row)] := by
  rw [indexed, List.length_append, List.length_singleton, List.range_succ, List.zip_append List.length_range]
  rfl

theorem storedRows_append (l : LinkDie) (base off : Nat) (rows : List Bytes) (row : Bytes) :
    storedRows l base off (rows ++ [row])
      = (storedRows l base off rows).putRow (base + 256 * (off + rows.length)) row := by
  rw [storedRows, indexed_append, List.foldl_append]
  rfl

/-- Storing rows writes the buffer alone. -/
theorem storedRows_frame (l : LinkDie) (base off : Nat) (rows : List Bytes) :
    { storedRows l base off rows with buf := l.buf } = l := by
  induction rows using List.reverseRecOn with
  | nil => rfl
  | append_singleton rows row ih => rw [storedRows_append]; exact ih

theorem storedRows_eq (l : LinkDie) (base off : Nat) (rows : List Bytes) :
    storedRows l base off rows = { l with buf := (storedRows l base off rows).buf } :=
  congrArg (fun m : LinkDie => { m with buf := (storedRows l base off rows).buf }) (storedRows_frame l base off rows)

theorem storedRows_fill (l : LinkDie) (base off : Nat) (rows : List Bytes) : (storedRows l base off rows).fill = l.fill := by
  rw [storedRows_eq]

theorem storedRows_wf (wf : Memory.wf l.fill l.buf = true) (base off : Nat) (rows : List Bytes) :
    Memory.wf l.fill (storedRows l base off rows).buf = true := by
  induction rows using List.reverseRecOn with
  | nil => exact wf
  | append_singleton rows row ih =>
    rw [storedRows_append, LinkDie.putRow, storedRows_fill]
    exact memPutAll_wf _ _ _ _ ih

theorem putRow_fill (l : LinkDie) (a : Nat) (row : Bytes) : (l.putRow a row).fill = l.fill := rfl

theorem memByte_putRow_out (l : LinkDie) {a i : Nat} (row : Bytes) (out : i < a ∨ a + 256 ≤ i) :
    memByte l.fill (l.putRow a row).buf i = memByte l.fill l.buf i :=
  memByte_memPutAll_out _ _ _ _ _ (by rwa [padTo, length_slice])

theorem row_putRow (wf : Memory.wf l.fill l.buf = true) (a : Nat) (row : Bytes) : (l.putRow a row).row a = padTo 256 row := by
  have read := memGet_memPutAll l.fill l.buf a (padTo 256 row) wf
  rwa [padTo, length_slice] at read

theorem row_putRow_out (l : LinkDie) {a b : Nat} (row : Bytes) (out : b + 256 ≤ a ∨ a + 256 ≤ b) :
    (l.putRow a row).row b = l.row b :=
  memGet_congr fun i low high => memByte_putRow_out l row (by omega)

theorem memByte_storedRows_out (l : LinkDie) (base off : Nat) (rows : List Bytes) {i : Nat}
    (out : i < base + 256 * off ∨ base + 256 * (off + rows.length) ≤ i) :
    memByte l.fill (storedRows l base off rows).buf i = memByte l.fill l.buf i := by
  induction rows using List.reverseRecOn with
  | nil => rfl
  | append_singleton rows row ih =>
    rw [List.length_append, List.length_singleton] at out
    rw [storedRows_append, ← storedRows_fill l base off rows, memByte_putRow_out _ _ (by omega), storedRows_fill]
    exact ih (by omega)

/-- Each stored row reads back, cut or padded to 256 bytes. -/
theorem row_storedRows (wf : Memory.wf l.fill l.buf = true) (base off : Nat) {rows : List Bytes} {j : Nat} {row : Bytes}
    (h : rows[j]? = some row) : (storedRows l base off rows).row (base + 256 * (off + j)) = padTo 256 row := by
  induction rows using List.reverseRecOn with
  | nil => cases h
  | append_singleton rows last ih =>
    rw [storedRows_append]
    rcases Nat.lt_or_ge j rows.length with below | above
    · rw [row_putRow_out _ _ (by omega)]
      exact ih (by rwa [List.getElem?_append_left below] at h)
    · have lt : j < rows.length + 1 := by
        have lt := (List.getElem?_eq_some_iff.1 h).1
        rwa [List.length_append, List.length_singleton] at lt
      obtain rfl : j = rows.length := by omega
      obtain rfl : last = row := by simpa using h
      refine row_putRow ?_ _ _
      rw [storedRows_fill]
      exact storedRows_wf wf base off rows

/-! ### Rows delivered -/

theorem deliverRows_succ (l : LinkDie) (first n : Nat) (discard : Bool) :
    l.deliverRows first (n + 1) discard = { l.deliverRows first n discard with
      delivered := insertNat (first + n) (l.deliverRows first n discard).delivered
      discarded := if discard then insertNat (first + n) (l.deliverRows first n discard).discarded
                   else (l.deliverRows first n discard).discarded } := by
  rw [LinkDie.deliverRows, List.range_succ, List.foldl_append]
  rfl

theorem deliverRows_eq (l : LinkDie) (first n : Nat) (discard : Bool) :
    ∃ d e, l.deliverRows first n discard = { l with delivered := d, discarded := e } := by
  induction n with
  | zero => exact ⟨l.delivered, l.discarded, rfl⟩
  | succ n ih =>
    obtain ⟨d, e, before⟩ := ih
    rw [deliverRows_succ, before]
    exact ⟨_, _, rfl⟩

theorem mem_delivered_deliverRows (l : LinkDie) (first n : Nat) (discard : Bool) (j : Nat) :
    j ∈ (l.deliverRows first n discard).delivered ↔ j ∈ l.delivered ∨ ∃ k, k < n ∧ j = first + k := by
  induction n with
  | zero => simp [LinkDie.deliverRows]
  | succ n ih =>
    rw [deliverRows_succ, mem_insertNat, ih]
    simp only [Nat.lt_succ_iff_lt_or_eq, or_and_right, exists_or, exists_eq_left]
    rw [or_comm (a := j = first + n), or_assoc]

theorem mem_discarded_deliverRows (l : LinkDie) {first n k : Nat} (h : k < n) :
    first + k ∈ (l.deliverRows first n true).discarded := by
  induction n with
  | zero => exact absurd h (Nat.not_lt_zero k)
  | succ n ih =>
    rw [deliverRows_succ]
    show first + k ∈ insertNat (first + n) _
    rw [mem_insertNat]
    rcases Nat.lt_succ_iff_lt_or_eq.1 h with below | rfl
    · exact .inr (ih below)
    · exact .inl rfl

theorem linkOf_setLink (rising : risingFrom 0 s.links = true) (d : Nat) (x : LinkDie) : (s.setLink d x).linkOf d = x :=
  tget_tset _ _ _ _ _ rising

theorem linkOf_setLink_ne (s : State) {d e : Nat} (x : LinkDie) (h : e ≠ d) : (s.setLink d x).linkOf e = s.linkOf e :=
  tget_tset_ne _ _ _ _ _ h

end Sys2Proof.Proofs
end

section
/-!
FSEND's rows read (O34; R103, R448): the transfer they go out as.
-/

namespace Sys2Proof.Proofs

open Sys2Proof.Machine Sys2Proof.Laws

variable {s t : State}

/-! ### Destinations (R448, R452) -/

theorem hopAddr_congr (tables : t.tables = s.tables) (free : t.free = s.free) (a d r k : Nat) :
    t.hopAddr a d r k = s.hopAddr a d r k := by
  induction k with
  | zero => rfl
  | succ k ih => simp only [State.hopAddr, ih, neighbour_congr tables free]

/-- A flow's destinations rest on the tables and the place. -/
theorem dests_congr (tables : t.tables = s.tables) (free : t.free = s.free) (fabric : t.fabric = s.fabric) (f : Flow) :
    t.dests f = s.dests f := by
  simp only [State.dests, State.hopsFrom, hopAddr_congr tables free, fabric]

/-! ### A transfer sent (R448) -/

/-- A link die with a transfer of rows sent under TSEQ `x`: the flow's next TSEQ, the rows that the op at `pos` has written, the
record and the packets. -/
def withTransfer (s : State) (die flow : Nat) (f : Flow) (off : Nat) (rows : List Bytes) (queue : Nat) (pos : PlanPos) (x : Nat)
    (l : LinkDie) : LinkDie :=
  LinkDie.addReady { l with
    tseq := tset 0 l.tseq flow ((x + 1) % 65536)
    own := (List.range rows.length).foldl (fun o k => tput (32768 * flow + off + k) (pos, s.discarded) o) l.own
    sent := l.sent ++ [{ flow := flow, tseq := x, offset := off, rows := rows.length, discard := s.discarded
                         waiting := s.dests f, queue := some queue, pos := pos }] }
    flow (transferPackets s die flow x 1 off s.discarded rows)

/-- The link die of a transfer that an FSEND has sent: its rows stand in the send buffer. -/
def sentDie (s : State) (die flow : Nat) (f : Flow) (off : Nat) (rows : List Bytes) (queue : Nat) (pos : PlanPos) : LinkDie :=
  withTransfer s die flow f off rows queue pos (tget 0 (s.linkOf die).tseq flow)
    { s.linkOf die with buf := (storedRows (s.linkOf die) f.srcFirst off rows).buf }

theorem sendTransfer_eq (s : State) (die flow : Nat) (f : Flow) (off : Nat) (rows : List Bytes) (queue : Nat) (pos : PlanPos) :
    sendTransfer s die flow f off rows queue pos = s.setLink die (sentDie s die flow f off rows queue pos) := by
  rw [sentDie, ← storedRows_eq]
  rfl

theorem sentDie_setQ (s : State) (key : Nat) (u : Queue) (die flow : Nat) (f : Flow) (off : Nat) (rows : List Bytes)
    (queue : Nat) (pos : PlanPos) :
    sentDie (s.setQ key u) die flow f off rows queue pos = sentDie s die flow f off rows queue pos := by
  have dests : (s.setQ key u).dests f = s.dests f := dests_congr (setQ_tables s key u) (setQ_free s key u) (setQ_fabric s key u) f
  rw [sentDie, sentDie, withTransfer, withTransfer, dests]
  rfl

/-- Of an FSEND of a declared flow, the rows read go to its command and out as a transfer. -/
theorem does_source_fsend {p : PlanPos} {v : VMove} {src : AddrOp} {flow : BitVec 14} {n : BitVec 12} {a : BitVec 24} {e : Fin 16}
    {k i : Nat} {rows : List (Nat × Nat)} {c : Cmd} {f : Flow} (live : (s.replaying && s.replay.data) = false)
    (waiting : (s.qOf (qKey p.vmove k)).waiting p = some (i, c)) (declared : s.flowOf (s.vord p.vmove) flow.toNat = some f) :
    s.does p (.source k (.fsend v src flow n (.lit a) e) rows) =
      (s.setQ (qKey p.vmove k) { s.qOf (qKey p.vmove k) with
        cmds := (s.qOf (qKey p.vmove k)).cmds.set i { c with data := readAll s rows, ready := true } }).setLink (s.vord p.vmove)
        (sentDie s (s.vord p.vmove) flow.toNat f ((a.toNat % 2 ^ 23 / 256 * 256 - f.srcFirst) / 256) (readAll s rows) k p) := by
  show fsendEff (sourceEnd p.vmove k (readAll s rows) p s) _ _ _ _ _ _ = _
  rw [sourceEnd_waiting _ waiting, fsendEff]
  generalize ({ s.qOf (qKey p.vmove k) with
    cmds := (s.qOf (qKey p.vmove k)).cmds.set i { c with data := readAll s rows, ready := true } } : Queue) = u
  have found : (s.setQ (qKey p.vmove k) u).flowOf ((s.setQ (qKey p.vmove k) u).vord p.vmove) flow.toNat = some f := declared
  have unplayed : ((s.setQ (qKey p.vmove k) u).replaying && (s.setQ (qKey p.vmove k) u).replay.data) = false := live
  rw [found]
  show (if (_ && _) = true then _ else _) = _
  rw [unplayed, if_neg Bool.false_ne_true, sendTransfer_eq, sentDie_setQ]
  rfl

/-! ### A transfer's die read (R448) -/

section Sent

variable {die flow off k : Nat} {f : Flow} {rows : List Bytes} {p : PlanPos}

theorem row_sentDie (wf : Memory.wf (s.linkOf die).fill (s.linkOf die).buf = true) {j : Nat} {row : Bytes}
    (h : rows[j]? = some row) :
    (sentDie s die flow f off rows k p).row (f.srcFirst + 256 * (off + j)) = padTo 256 row := by
  rw [← row_storedRows wf f.srcFirst off h]
  show memGet (s.linkOf die).fill _ _ _ = memGet (storedRows _ _ _ _).fill _ _ _
  rw [storedRows_fill]
  rfl

theorem own_sentDie (on : s.discarded = false) {j : Nat} {row : Bytes} (h : rows[j]? = some row) :
    tfind (sentDie s die flow f off rows k p).own (32768 * flow + off + j) = some (p, false) := by
  rw [← on]
  exact tfind_foldl_tput _ _ _ _ (List.getElem?_eq_some_iff.1 h).1

end Sent

end Sys2Proof.Proofs
end

section
/-!
FRECV_RETIRE (O34; R449, R458).
-/

namespace Sys2Proof.Proofs

open Sys2Proof.Machine Sys2Proof.Laws

variable {s t : State}

/-! ### A finished command (R102) -/

/-- Of two writes of one entry, the first no default, the second stands. -/
theorem tset_tset_written {α : Type} [DecidableEq α] {d v : α} {m : Tbl α} (rising : risingFrom 0 m = true) (ne : v ≠ d)
    (k : Nat) (w : α) : tset d (tset d m k v) k w = tset d m k w := by
  rw [tset, tset, tset, if_neg ne]
  split
  · exact tdel_tput k v rising
  · exact tput_tput m k v w

/-- The queue with the command `c` at place `i` done. -/
def doneQueue (u : Queue) (i : Nat) (c : Cmd) (rows : List Bytes) : Queue :=
  { u with cmds := u.cmds.set i { c with done := true, result := rows, flags := 0 } }

/-- The queue with that command done, and what can retire retired. -/
def finishedQueue (u : Queue) (i : Nat) (c : Cmd) (rows : List Bytes) : Queue :=
  retireHead u.cmds.length (doneQueue u i c rows)

theorem doneQueue_ne {u : Queue} {i : Nat} {c : Cmd} (h : u.cmds[i]? = some c) (rows : List Bytes) : doneQueue u i c rows ≠ {} := by
  intro eq
  have nil : u.cmds.set i { c with done := true, result := rows, flags := 0 } = [] := congrArg Queue.cmds eq
  rw [List.set_eq_nil_iff] at nil
  rw [nil] at h
  cases h

theorem finishCmd_eq {key i : Nat} {c : Cmd} (rising : risingFrom 0 s.queue = true) (h : (s.qOf key).cmds[i]? = some c)
    (rows : List Bytes) : finishCmd s key i rows = s.setQ key (finishedQueue (s.qOf key) i c rows) := by
  have ne := doneQueue_ne h rows
  have read : (s.setQ key (doneQueue (s.qOf key) i c rows)).qOf key = doneQueue (s.qOf key) i c rows :=
    tget_tset_of_ne _ _ _ _ ne
  have len : (doneQueue (s.qOf key) i c rows).cmds.length = (s.qOf key).cmds.length := List.length_set
  rw [finishCmd, h]
  show retireQ (s.setQ key (doneQueue (s.qOf key) i c rows)) key = _
  rw [retireQ, read, len]
  exact congrArg (fun m => { s with queue := m }) (tset_tset_written rising ne _ _)

/-! ### FRECV_RETIRE (R449) -/

section Retire

variable {v die k i row n : Nat} {c : Cmd}

/-- The rows of an FRECV in the flow buffers of its die. -/
def recvRows (s : State) (die row n : Nat) : List Bytes := (List.range n).map fun j => (s.linkOf die).row (256 * (row + j))

theorem any_discarded_iff {l : List Nat} : ((List.range n).any fun j => l.contains (row + j)) = true ↔ ∃ j, j < n ∧ row + j ∈ l := by
  simp [List.any_eq_true]

theorem frecvRetireEff_whole (live : s.replaying = false) (data : s.replay.data = false)
    (kept : ∀ j, j < n → row + j ∉ (s.linkOf die).discarded) :
    frecvRetireEff v die k i row n c s = finishCmd s (qKey v k) i (recvRows s die row n) := by
  have bad : ((List.range n).any fun j => (s.linkOf die).discarded.contains (row + j)) = false := by
    rw [Bool.eq_false_iff, Ne, any_discarded_iff]
    rintro ⟨j, lt, mem⟩
    exact kept j lt mem
  simp only [frecvRetireEff, live, data, bad, Bool.false_and, Bool.false_eq_true, false_and, if_false]
  rfl

/-- The step of an FRECV with a discarded row, as the fault leaves it. -/
def peerDiscarded (s : State) (die : Nat) : State :=
  deviceFault (raise s 0x0609 (blockLoc (13 + die) 0x800)) 0x0609 (blockLoc (13 + die) 0x800)

theorem raise_replay (s : State) (code : Nat) (l : W64) : (raise s code l).replay = s.replay :=
  eq_of_logs State.replay (fun _ _ => rfl) (raise_logs ..)

theorem frecvRetireEff_discarded (live : s.replaying = false) (data : s.replay.data = false)
    (gone : ∃ j, j < n ∧ row + j ∈ (s.linkOf die).discarded) :
    frecvRetireEff v die k i row n c s = finishCmd (peerDiscarded s die) (qKey v k) i (recvRows s die row n) := by
  have bad := any_discarded_iff.2 gone
  have unlogged : (peerDiscarded s die).replay.data = false := by
    rw [peerDiscarded, deviceFault, onRun_replay, raise_replay, data]
  simp only [frecvRetireEff, live, bad, Bool.false_and, Bool.false_eq_true, not_false_eq_true, and_self, if_true, if_false]
  rw [peerDiscarded] at unlogged
  rw [unlogged, if_neg Bool.false_ne_true]
  rfl

theorem setQ_unissued (s t : State) (key : Nat) (u : Queue) : (t.setQ key u).unissued s = (t.unissued s).setQ key u := rfl

theorem peerDiscarded_unissued (s : State) (die : Nat) : (peerDiscarded s die).unissued s = s := by
  rw [peerDiscarded, deviceFault_unissued, unissued_of_unlogged s _ s (raise_logs ..)]

theorem peerDiscarded_run {r : Run} (run : s.run = some r) : (peerDiscarded s die).run = some { r with
    fault := r.fault.or (some { loc := blockLoc (13 + die) 0x800, code := 0x0609, stamp := s.chron.count })
    stopped := true } := by
  have logs : Logs s (raise s 0x0609 (blockLoc (13 + die) 0x800)) := raise_logs ..
  have chron : (raise s 0x0609 (blockLoc (13 + die) 0x800)).chron = s.chron := eq_of_logs State.chron (fun _ _ => rfl) logs
  rw [peerDiscarded, deviceFault, onRun_run, logs.run, run, chron]
  rfl

theorem peerDiscarded_queue (s : State) (die : Nat) : (peerDiscarded s die).queue = s.queue := by
  rw [peerDiscarded, deviceFault, onRun_queue]
  exact eq_of_logs State.queue (fun _ _ => rfl) (raise_logs ..)

theorem qOf_peerDiscarded (s : State) (die key : Nat) : (peerDiscarded s die).qOf key = s.qOf key :=
  congrArg (tget ({} : Queue) · key) (peerDiscarded_queue s die)

end Retire

theorem exec_frecvRetire {die : Fin 2} {k : Fin 16} {r : Run} {i row n : Nat} {c : Cmd} (run : s.run = some r)
    (next : (s.qOf (qKey (nthOfType (r.plan.moves.map (·.1)) 7 die) k)).nextRecv = some (i, c, row, n))
    (here : ∀ j, j < n → row + j ∈ (s.linkOf die).delivered) :
    exec (.frecvRetire die k) s = .next (frecvRetireEff (nthOfType (r.plan.moves.map (·.1)) 7 die) die k i row n c s) := by
  have whole : (s.replaying && s.replay.data || (List.range n).all fun j => (s.linkOf die).delivered.contains (row + j)) = true := by
    rw [Bool.or_eq_true, List.all_eq_true]
    exact .inr fun j mem => List.contains_iff_mem.2 (here j (List.mem_range.1 mem))
  show execFrecvRetire die k s = _
  simp only [execFrecvRetire, run, next]
  exact if_pos whole

end Sys2Proof.Proofs
end

section
/-!
COLLECT_COMBINE (O34; R158, R452, R453, R458), and the settlement of O34.
-/

namespace Sys2Proof.Proofs

open Sys2Proof.Machine Sys2Proof.Laws

variable {s t u : State} {die flow n : Nat} {f : Flow} {x : OpenXfer}

/-! ### Rows combined (R452, R453) -/

/-- `t` is `s` but for the running step and the flow buffers of link die `die`. -/
structure OnlyBuffers (die : Nat) (s t : State) : Prop where
  state : ∃ run links, t = { s with run := run, links := links }
  others : ∀ d, d ≠ die → t.linkOf d = s.linkOf d
  rising : risingFrom 0 s.links = true → risingFrom 0 t.links = true
  frame : risingFrom 0 s.links = true → ∃ b, t.linkOf die = { s.linkOf die with buf := b }

theorem OnlyBuffers.refl (die : Nat) (s : State) : OnlyBuffers die s s :=
  ⟨⟨s.run, s.links, rfl⟩, fun _ _ => rfl, id, fun _ => ⟨_, rfl⟩⟩

theorem OnlyBuffers.trans (h : OnlyBuffers die s t) (k : OnlyBuffers die t u) : OnlyBuffers die s u where
  state := by
    obtain ⟨_, _, rfl⟩ := h.state
    obtain ⟨run, links, rfl⟩ := k.state
    exact ⟨run, links, rfl⟩
  others d ne := (k.others d ne).trans (h.others d ne)
  rising r := k.rising (h.rising r)
  frame r := by
    obtain ⟨_, first⟩ := h.frame r
    obtain ⟨b, second⟩ := k.frame (h.rising r)
    exact ⟨b, by rw [second, first]⟩

/-- The frame that the claims state. -/
theorem OnlyBuffers.rest (h : OnlyBuffers die s t) : { t.unissued s with links := s.links } = s := by
  obtain ⟨_, _, rfl⟩ := h.state
  dsimp only [State.unissued, State.unlogged]

theorem setLink_onlyBuffers (s : State) (die : Nat) (b : Mem) :
    OnlyBuffers die s (s.setLink die { s.linkOf die with buf := b }) where
  state := ⟨s.run, _, rfl⟩
  others _ ne := linkOf_setLink_ne s _ ne
  rising := risingFrom_tset _ _ _
  frame r := ⟨b, linkOf_setLink r _ _⟩

theorem raiseFlags_onlyBuffers (s : State) (die fl : Nat) (pos : PlanPos) : OnlyBuffers die s (raiseFlags s fl pos) where
  state := ⟨_, s.links, rfl⟩
  others _ _ := rfl
  rising := id
  frame _ := ⟨_, rfl⟩

/-- `s` with row `k` of a transfer combined with the own one and stored. -/
def storedSum (s : State) (die : Nat) (f : Flow) (x : OpenXfer) (k : Nat) : State :=
  let l := s.linkOf die
  s.setLink die (l.putRow (f.rowAt x.hop (x.first + k))
    (combineRow (l.row (f.rowAt x.hop (x.first + k))) (l.row (f.srcFirst + 256 * (x.first + k)))).1)

theorem storedSum_onlyBuffers (s : State) (die : Nat) (f : Flow) (x : OpenXfer) (k : Nat) :
    OnlyBuffers die s (storedSum s die f x k) :=
  setLink_onlyBuffers s die _

theorem raiseFlags_links (s : State) (fl : Nat) (pos : PlanPos) : (raiseFlags s fl pos).links = s.links := rfl

theorem combineRows_zero (s : State) (die flow : Nat) (f : Flow) (x : OpenXfer) : combineRows s die flow f x 0 = s := rfl

/-- A row is combined with no flag raised, or with those of its sums. -/
theorem combineRows_succ (s : State) (die flow : Nat) (f : Flow) (x : OpenXfer) (n : Nat) :
    combineRows s die flow f x (n + 1) = storedSum (combineRows s die flow f x n) die f x n ∨
      ∃ fl pos, combineRows s die flow f x (n + 1) = raiseFlags (storedSum (combineRows s die flow f x n) die f x n) fl pos := by
  rw [combineRows, List.range_succ, List.foldl_append, ← combineRows, List.foldl_cons, List.foldl_nil]
  dsimp only
  split
  · split
    · exact .inl rfl
    · exact .inr ⟨_, _, rfl⟩
  · exact .inl rfl

theorem combineRows_onlyBuffers (s : State) (die flow : Nat) (f : Flow) (x : OpenXfer) (n : Nat) :
    OnlyBuffers die s (combineRows s die flow f x n) := by
  induction n with
  | zero => exact .refl die s
  | succ n ih =>
    have stored := ih.trans (storedSum_onlyBuffers _ die f x n)
    rcases combineRows_succ s die flow f x n with plain | ⟨fl, pos, flagged⟩
    · rw [plain]
      exact stored
    · rw [flagged]
      exact stored.trans (raiseFlags_onlyBuffers _ die fl pos)

/-- The one row of a transfer of one row. -/
theorem combineRows_one_links (s : State) (die flow : Nat) (f : Flow) (x : OpenXfer) :
    (combineRows s die flow f x 1).links = (storedSum s die f x 0).links := by
  rcases combineRows_succ s die flow f x 0 with plain | ⟨fl, pos, flagged⟩
  · rw [plain, combineRows_zero]
  · rw [flagged, raiseFlags_links, combineRows_zero]

/-- One value of `combineRow`: the sum of value `i` of two rows, after the sums so far. -/
def combineValue (a o : Bytes) (r : Bytes × Nat) (i : Nat) : Bytes × Nat :=
  let z := combine (BitVec.ofNat 128 (fieldAt a (16 * i) 16)) (BitVec.ofNat 128 (fieldAt o (16 * i) 16))
  (r.1 ++ leBytes 16 z.1.toNat, r.2 ||| z.2)

theorem length_foldl_combineValue (a o : Bytes) (is : List Nat) (r : Bytes × Nat) :
    (is.foldl (combineValue a o) r).1.length = r.1.length + 16 * is.length := by
  induction is generalizing r with
  | nil => rfl
  | cons i is ih =>
    rw [List.foldl_cons, ih, combineValue, List.length_append, length_leBytes, List.length_cons]
    omega

theorem length_combineRow (a o : Bytes) : (combineRow a o).1.length = 256 :=
  length_foldl_combineValue a o (List.range 16) ([], 0)

/-! ### The hop's effect (R452, R458) -/

theorem marked_iff (l : LinkDie) : l.marked flow x n = true ↔
    x.discard = true ∨ ∃ k p, k < n ∧ tfind l.own (32768 * flow + (x.first + k)) = some (p, true) := by
  simp [LinkDie.marked, LinkDie.ownSend, List.any_eq_true, Option.any_eq_true]

/-- No own row of a discarded step is combined into a transfer that is not discarded: it stays so. -/
theorem marked_of_unmarked {l : LinkDie}
    (h : x.discard = true ∨ ∀ k p, k < n → tfind l.own (32768 * flow + (x.first + k)) ≠ some (p, true)) :
    l.marked flow x n = x.discard := by
  rw [Bool.eq_iff_iff, marked_iff]
  refine ⟨fun some => ?_, .inl⟩
  rcases some with gone | ⟨k, p, lt, own⟩
  · exact gone
  · exact h.resolve_right fun none => none k p lt own

/-- The transfer as COLLECT_COMBINE takes it on: discarded where it or an own row is. -/
def markedXfer (s : State) (die flow : Nat) (x : OpenXfer) (n : Nat) : OpenXfer :=
  { x with discard := (s.linkOf die).marked flow x n }

theorem markedXfer_hop : (markedXfer s die flow x n).hop = x.hop := rfl

theorem markedXfer_first : (markedXfer s die flow x n).first = x.first := rfl

/-- `s` with the rows of the transfer combined. -/
def rowsCombined (s : State) (die flow : Nat) (f : Flow) (x : OpenXfer) (n : Nat) : State :=
  combineRows s die flow f (markedXfer s die flow x n) n

/-- Its link die with the transfer's record closed. -/
def closedDie (s : State) (die flow : Nat) (f : Flow) (x : OpenXfer) (n : Nat) : LinkDie :=
  ((rowsCombined s die flow f x n).linkOf die).closeXfer x

/-- The link die with the sums sent to the next hop. -/
def onwardDie (s : State) (die flow : Nat) (f : Flow) (x : OpenXfer) (n : Nat) (discard : Bool) : LinkDie :=
  let l := closedDie s die flow f x n
  LinkDie.addReady { l with
    sent := l.sent ++ [{ flow := flow, tseq := x.tseq, offset := x.first, rows := n, hop := x.hop + 1, discard := discard
                         waiting := s.dests f, queue := none, pos := { step := 0, beat := 0, vmove := 0, event := 0 } }] }
    flow (transferPackets s die flow x.tseq (x.hop + 1) x.first discard (x.slice l f n))

/-- The link die with the sums delivered. -/
def deliveredDie (s : State) (die flow : Nat) (f : Flow) (x : OpenXfer) (n : Nat) : LinkDie :=
  (closedDie s die flow f x n).deliverRows (f.rowAt x.hop x.first / 256) n ((s.linkOf die).marked flow x n)

theorem dests_of_onlyBuffers (h : OnlyBuffers die s t) (f : Flow) : t.dests f = s.dests f := by
  obtain ⟨_, _, state⟩ := h.state
  exact dests_congr (by rw [state]) (by rw [state]) (by rw [state]) f

theorem transferPackets_of_onlyBuffers (h : OnlyBuffers die s t) (d fl ts hop off : Nat) (discard : Bool) (rows : List Bytes) :
    transferPackets t d fl ts hop off discard rows = transferPackets s d fl ts hop off discard rows := by
  obtain ⟨_, _, rfl⟩ := h.state
  rfl

theorem collectEff_onward (onward : x.hop < f.hops) : collectEff die flow f x n s =
    (rowsCombined s die flow f x n).setLink die (onwardDie s die flow f x n ((s.linkOf die).marked flow x n)) := by
  have only : OnlyBuffers die s (rowsCombined s die flow f x n) := combineRows_onlyBuffers ..
  rw [onwardDie, ← dests_of_onlyBuffers only, ← transferPackets_of_onlyBuffers only]
  exact if_pos onward

theorem collectEff_last (last : ¬ x.hop < f.hops) : collectEff die flow f x n s =
    (rowsCombined s die flow f x n).setLink die (deliveredDie s die flow f x n) :=
  if_neg last

theorem exec_collectCombine {die : Fin 2} {flow : BitVec 14} {tseq : W16} {hop : Nat}
    (declared : tfind (s.linkOf die).flows flow.toNat = some f)
    (found : (s.linkOf die).open_.find? (fun y => y.is flow.toNat hop tseq.toNat) = some x) (verified : x.verified = true)
    (rows : x.rows = some n)
    (own : ∀ k, k < n → (tfind (s.linkOf die).own (32768 * flow.toNat + (x.first + k))).isSome = true) :
    exec (.collectCombine die flow tseq hop) s = .next (collectEff die flow.toNat f x n s) := by
  have whole : ((List.range n).all fun k => ((s.linkOf die).ownSend flow.toNat (x.first + k)).isSome) = true :=
    List.all_eq_true.2 fun k mem => own k (List.mem_range.1 mem)
  have count : x.rows.getD 0 = n := by rw [rows]; rfl
  show execCollectCombine die flow tseq hop s = _
  simp only [execCollectCombine, declared, found, count]
  exact if_pos ⟨verified, whole⟩

/-! ### The link die after the hop -/

theorem closedDie_eq (rising : risingFrom 0 s.links = true) : ∃ b, closedDie s die flow f x n =
    { s.linkOf die with buf := b, open_ := (s.linkOf die).open_.filter fun y => !y.is x.flow x.hop x.tseq } := by
  obtain ⟨b, frame⟩ := (combineRows_onlyBuffers s die flow f (markedXfer s die flow x n) n).frame rising
  exact ⟨b, by rw [closedDie, rowsCombined, frame]; rfl⟩

/-- The row of a transfer of one row is the sum of its values and the own row's (R158, R452). -/
theorem row_closedDie_one (rising : risingFrom 0 s.links = true)
    (wf : Memory.wf (s.linkOf die).fill (s.linkOf die).buf = true) :
    memGet (s.linkOf die).fill (closedDie s die flow f x 1).buf (f.rowAt x.hop x.first) 256 =
      (combineRow ((s.linkOf die).row (f.rowAt x.hop x.first)) ((s.linkOf die).row (f.srcFirst + 256 * x.first))).1 := by
  have sum : (rowsCombined s die flow f x 1).linkOf die = (storedSum s die f (markedXfer s die flow x 1) 0).linkOf die :=
    congrArg (tget ({} : LinkDie) · die) (combineRows_one_links s die flow f _)
  show memGet _ ((rowsCombined s die flow f x 1).linkOf die).buf _ _ = _
  rw [sum, storedSum, linkOf_setLink rising, Nat.add_zero, markedXfer_hop, markedXfer_first]
  have read := row_putRow wf (f.rowAt x.hop x.first)
    (combineRow ((s.linkOf die).row (f.rowAt x.hop x.first)) ((s.linkOf die).row (f.srcFirst + 256 * x.first))).1
  rw [padTo_of_length (length_combineRow _ _), LinkDie.row, putRow_fill] at read
  exact read

/-- What COLLECT_COMBINE makes of its link die, at a hop before the last and at the last. -/
structure Hopped (s : State) (die flow : Nat) (f : Flow) (x : OpenXfer) (n : Nat) (m : LinkDie) : Prop where
  records : m.open_ = (closedDie s die flow f x n).open_
  rows : m.buf = (closedDie s die flow f x n).buf
  onward : x.hop < f.hops → m = onwardDie s die flow f x n ((s.linkOf die).marked flow x n)
  last : f.hops ≤ x.hop → m = deliveredDie s die flow f x n

theorem collectEff_hops (s : State) (die flow : Nat) (f : Flow) (x : OpenXfer) (n : Nat) : ∃ m,
    collectEff die flow f x n s = (rowsCombined s die flow f x n).setLink die m ∧ Hopped s die flow f x n m := by
  by_cases onward : x.hop < f.hops
  · exact ⟨_, collectEff_onward onward, rfl, rfl, fun _ => rfl, fun last => absurd onward (by omega)⟩
  · obtain ⟨d, e, delivered⟩ := deliverRows_eq (closedDie s die flow f x n) (f.rowAt x.hop x.first / 256) n
      ((s.linkOf die).marked flow x n)
    refine ⟨_, collectEff_last onward, ?_, ?_, fun h => absurd h onward, fun _ => rfl⟩
    · rw [deliveredDie, delivered]
    · rw [deliveredDie, delivered]

theorem slice_congr {l m : LinkDie} (fill : m.fill = l.fill) (buf : m.buf = l.buf) (x : OpenXfer) (f : Flow) (n : Nat) :
    x.slice m f n = x.slice l f n := by
  simp only [OpenXfer.slice, LinkDie.row, fill, buf]

section Hop

variable {m : LinkDie} (hop : Hopped s die flow f x n m) (rising : risingFrom 0 s.links = true)

include rising hop

theorem Hopped.closes : ∀ y ∈ m.open_, y.is x.flow x.hop x.tseq = false := by
  obtain ⟨b, closed⟩ := closedDie_eq (die := die) (flow := flow) (f := f) (x := x) (n := n) rising
  intro y mem
  rw [hop.records, closed] at mem
  simpa using (List.mem_filter.1 mem).2

/-- Before the last hop the sums go on as a new transfer (R452). -/
theorem Hopped.sends (onward : x.hop < f.hops)
    (unmarked : x.discard = true ∨ ∀ k p, k < n → tfind (s.linkOf die).own (32768 * flow + (x.first + k)) ≠ some (p, true)) :
    m.delivered = (s.linkOf die).delivered ∧
    m.sent = (s.linkOf die).sent ++ [{ flow := flow, tseq := x.tseq, offset := x.first, rows := n, hop := x.hop + 1
                                       discard := x.discard, waiting := s.dests f, queue := none
                                       pos := { step := 0, beat := 0, vmove := 0, event := 0 } }] ∧
    tget [] m.ready flow = tget [] (s.linkOf die).ready flow
      ++ transferPackets s die flow x.tseq (x.hop + 1) x.first x.discard (x.slice m f n) := by
  obtain ⟨b, closed⟩ := closedDie_eq (die := die) (flow := flow) (f := f) (x := x) (n := n) rising
  have slices : x.slice m f n = x.slice (closedDie s die flow f x n) f n :=
    slice_congr (by rw [hop.onward onward]; rfl) hop.rows x f n
  rw [slices, hop.onward onward, marked_of_unmarked unmarked, onwardDie, LinkDie.addReady, tget_tput, closed]
  exact ⟨rfl, rfl, rfl⟩

/-- At the last hop the sums are delivered, discarded where the transfer or an own row is (R452, R458). -/
theorem Hopped.delivers (last : f.hops ≤ x.hop) :
    (∀ k, k < n → f.rowAt x.hop x.first / 256 + k ∈ m.delivered) ∧ (∀ j ∈ (s.linkOf die).delivered, j ∈ m.delivered) ∧
    ((x.discard = true ∨ ∃ k p, k < n ∧ tfind (s.linkOf die).own (32768 * flow + (x.first + k)) = some (p, true)) →
      ∀ k, k < n → f.rowAt x.hop x.first / 256 + k ∈ m.discarded) := by
  obtain ⟨b, closed⟩ := closedDie_eq (die := die) (flow := flow) (f := f) (x := x) (n := n) rising
  rw [hop.last last, deliveredDie]
  refine ⟨fun k lt => ?_, fun j mem => ?_, fun marked k lt => ?_⟩
  · exact (mem_delivered_deliverRows ..).2 (.inr ⟨k, lt, rfl⟩)
  · exact (mem_delivered_deliverRows ..).2 (.inl (by rw [closed]; exact mem))
  · rw [(marked_iff _).2 marked]
    exact mem_discarded_deliverRows _ lt

end Hop

/-- Settles O34: the commands issue as a command op with a check; the rows read, the rows received and the rows combined are
each one write of the queue or of the link die. -/
theorem flowsIssueAndRetire : Obligations.FlowsIssueAndRetire := by
  refine ⟨fun s v k n fb can type on live lt depth => ⟨fun src flow f share ext declared low high level => ?_,
      fun share ext level => ?_⟩,
    fun s p v src flow n a e k i rows c f on live rising waiting declared tseqs wf => ?_,
    fun s die k r i row n c run live data rising next found delivered => ⟨fun kept => ?_, fun gone => ?_⟩,
    fun s die flow tseq hop f x n rising declared found verified rows own => ?_⟩
  · have issues := exec_issues_passing (exec_fsend lt) can on type depth share ext
      (fsendCheck_passes ((claimed_flowOf _ _).trans declared) low high
        (by rw [claimed_plan, claimed_levelShort]; exact level))
      fun t replay tenancy => replaySend_of_live (by rw [State.replaying, replay, tenancy]; exact live)
    rw [issuedCmd, outRows_isEmpty] at issues
    exact issues
  · exact exec_issues_passing (exec_frecv lt) can on type depth share ext
      (frecvCheck_passes _ _ _ fun x mem => by
        rw [claimed_plan] at mem
        rw [claimed_plan, claimed_levelShort]
        exact level x mem)
      fun _ _ _ => rfl
  · rw [does_source_fsend live waiting declared, linkOf_setLink (by exact rising)]
    refine ⟨rfl, fun d ne => linkOf_setLink_ne _ _ ne, rfl, tget_tset _ _ _ _ _ tseqs,
      fun j row at_ => ⟨row_sentDie wf at_, own_sentDie on at_⟩,
      fun j out => memByte_storedRows_out (s.linkOf (s.vord p.vmove)) _ _ _ out, ?_, ?_⟩
    · rw [← on]
      exact tget_tput _ _ _ _
    · rw [← on]
      rfl
  · have retires := (exec_frecvRetire run next delivered).trans (congrArg _ (frecvRetireEff_whole live data kept))
    rw [finishCmd_eq rising found] at retires
    exact ⟨_, retires, rfl⟩
  · have retires := (exec_frecvRetire run next delivered).trans (congrArg _ (frecvRetireEff_discarded live data gone))
    rw [finishCmd_eq (by rw [peerDiscarded_queue]; exact rising) (by rw [qOf_peerDiscarded]; exact found),
      qOf_peerDiscarded] at retires
    refine ⟨_, _, retires, ?_, peerDiscarded_run run, rfl, fun none => ?_⟩
    · rw [setQ_unissued, peerDiscarded_unissued]
      rfl
    · rw [none]
      exact ⟨_, rfl, rfl, rfl⟩
  · obtain ⟨m, effect, hopped⟩ := collectEff_hops s die flow.toNat f x n
    have same := List.find?_some found
    simp only [OpenXfer.is, Bool.and_eq_true, beq_iff_eq] at same
    obtain ⟨⟨-, rfl⟩, sameSeq⟩ := same
    have only : OnlyBuffers die s (rowsCombined s die flow.toNat f x n) := combineRows_onlyBuffers ..
    refine ⟨_, (exec_collectCombine declared found verified rows own).trans (congrArg _ effect), only.rest,
      fun d ne => (linkOf_setLink_ne _ _ ne).trans (only.others d ne), ?_⟩
    rw [linkOf_setLink (only.rising rising), ← sameSeq]
    refine ⟨hopped.closes rising, hopped.sends rising, hopped.delivers rising, fun one wf => ?_⟩
    subst one
    rw [hopped.rows]
    exact row_closedDie_one rising wf

end Sys2Proof.Proofs
end

section
/-!
The loads and the streams of a matrix array (O11; R175, R178, R186 to R188, R192, R196, R197): what their issue leaves of the
arrays, and what their work does to its own array at its beats.
-/

namespace Sys2Proof.Proofs

open Sys2Proof.Machine Sys2Proof.Laws

variable {s t : State} {v : VMove} {as : List Access} {n : Nat} {p : PlanPos} {buf chk sub : Bool}

/-! ### The arrays' table -/

/-- An entry written after its removal stands as if it had been written over. -/
theorem tput_tdel {α : Type} (k : Nat) (w : α) {lo : Nat} {m : Tbl α} (rising : risingFrom lo m = true) :
    tput k w (tdel k m) = tput k w m := by
  induction m generalizing lo with
  | nil => rfl
  | cons e m ih =>
    obtain ⟨j, x⟩ := e
    simp only [risingFrom, Bool.and_eq_true, decide_eq_true_eq] at rising
    obtain ⟨-, rest⟩ := rising
    rw [tdel]
    split_ifs with same
    · subst same
      rw [tput, if_neg (Nat.lt_irrefl j), if_pos rfl]
      cases m with
      | nil => rfl
      | cons e m =>
        simp only [risingFrom, Bool.and_eq_true, decide_eq_true_eq] at rest
        rw [tput, if_pos (Nat.lt_of_succ_le rest.1)]
    · rw [tput, tput, if_neg same, ih rest]
      split_ifs with below
      · rw [tdel_of_rising rest (Nat.lt_succ_of_lt below)]
      · rfl

/-- Of two writes of one entry the second, of no default, stands. -/
theorem tset_tset_of_last_ne {α : Type} [DecidableEq α] {d w : α} {m : Tbl α} (rising : risingFrom 0 m = true) (k : Nat)
    (v : α) (ne : w ≠ d) : tset d (tset d m k v) k w = tset d m k w := by
  by_cases written : v = d
  · rw [tset, tset, tset, if_pos written, if_neg ne, if_neg ne]
    exact tput_tdel k w rising
  · exact tset_tset_written rising written k w

theorem matOf_setMat (rising : risingFrom 0 s.matrix = true) (n : Nat) (m : Matrix) : (s.setMat n m).matOf n = m :=
  tget_tset ({} : Matrix) s.matrix n 0 m rising

theorem setMat_setMat_of_ne (rising : risingFrom 0 s.matrix = true) (n : Nat) (m : Matrix) {x : Matrix} (ne : x ≠ {}) :
    (s.setMat n m).setMat n x = s.setMat n x :=
  congrArg (fun a => { s with matrix := a }) (tset_tset_of_last_ne rising n m ne)

/-- An array with an accumulation to come is not at its reset values. -/
theorem addEffs_ne (m : Matrix) (e : AccEff) : addEffs m [e] ≠ {} := by
  intro reset
  have none : putEff e m.effs = [] := congrArg Matrix.effs reset
  unfold putEff at none
  split at none
  · exact nomatch none
  · split at none <;> exact nomatch none

/-! ### What an issue leaves of an array -/

theorem claimed_matOf (e : Bool) (n : Nat) : (claimed s v e as).matOf n = s.matOf n :=
  claimed_field (fun t => t.matOf n) fun _ _ => rfl

theorem phys_eq (s : State) (n : Nat) : s.phys n = ((s.run.map (·.map)).map (·.getD n n)).getD n := by
  rw [State.phys]
  cases s.run <;> rfl

theorem claimed_phys (e : Bool) (n : Nat) : (claimed s v e as).phys n = s.phys n := by
  rw [phys_eq, claimed_map fun _ _ _ _ _ _ _ => rfl, ← phys_eq]

theorem claimed_opAddr (e : Bool) : ((claimed s v e as).seqOf v).opAddr = (s.seqOf v).opAddr := by
  rw [claimed_seqOf]
  rfl

theorem setMat_seqOf (s : State) (n k : Nat) (m : Matrix) : (s.setMat n m).seqOf k = s.seqOf k := rfl

/-- What an op leaves, with an array written besides. -/
theorem leaves_setMat {k : Nat} {u : State} {ws : List Work} (h : s.leaves k u t ws) (n : Nat) (m : Matrix) :
    s.leaves k (u.setMat n m) (t.setMat n m) ws := by
  obtain ⟨kept, unissued, flights⟩ := h
  exact ⟨kept, congrArg (State.setMat · n m) unissued, flights⟩

section Issue

variable {ty : Nat} {ok : Bool} {eff : PlanPos → State → State} {c : Instr}

/-- An engine op with defined fields and accesses in their extents has its effect on the state its claims leave (R85, R87). -/
theorem exec_of_engine (op : exec c s = issueEngine s v ty ok as eff) (can : s.canEngine v = true) (type : s.vtype v = ty)
    (defined : ok = true) (ext : s.inExtents v as) : exec c s = .next (eff (s.pos v) (claimed s v true as)) := by
  rw [op, issueEngine]
  refine issueOp_ok s v true _ _ _ can ?_ ext
  rw [defined, type, beq_self_eq_true]
  rfl

theorem run_isSome_of_canEngine (can : s.canEngine v = true) : s.run.isSome = true := by
  obtain ⟨r, running⟩ := run_of_may s v true can
  rw [running]
  rfl

/-- An engine op that leaves all its work for its beats. -/
theorem exec_leaves_work {w : Work} (op : exec c s = issueEngine s v ty ok as fun pos t => addFlight t pos w)
    (can : s.canEngine v = true) (type : s.vtype v = ty) (defined : ok = true) (ext : s.inExtents v as) :
    ∃ t, exec c s = .next t ∧ s.leaves v (s.issuedBy v) t [w] :=
  ⟨_, exec_of_engine op can type defined ext,
    leaves_addFlight (leaves_claimed (run_isSome_of_canEngine can)) (claimed_opAddr true) w⟩

/-- An op without accesses that writes a register of its array at its issue (R184). -/
theorem exec_setMat {f : Matrix → Matrix}
    (op : exec c s = issueEngine s v ty true [] fun _ t => t.setMat (t.phys v) (f (t.matOf (t.phys v))))
    (can : s.canEngine v = true) (type : s.vtype v = ty) :
    ∃ t, exec c s = .next t ∧ s.leaves v ((s.issuedBy v).setMat (s.phys v) (f (s.matOf (s.phys v)))) t [] := by
  have reaches : s.inExtents v [] := fun _ _ _ none => nomatch none
  refine ⟨_, exec_of_engine op can type rfl reaches, ?_⟩
  rw [claimed_phys, claimed_matOf]
  exact leaves_setMat (leaves_claimed (run_isSome_of_canEngine can)) _ _

end Issue

/-- TILE_LOAD's effect at its issue (R188, R190). -/
theorem tileLoadEff_claimed (a : Nat) (st : Int) (buf : Bool) (f : Nat) (chk : Bool) :
    tileLoadEff v a st buf f chk (s.pos v) (claimed s v true as) =
      (let m := s.matOf (s.phys v)
       addFlight ((claimed s v true as).setMat (s.phys v) (m.setBuf buf { m.buf buf with fmt := some f, chk := chk })) (s.pos v)
         (.tileLoad a st buf chk)) := by
  rw [tileLoadEff, claimed_phys, claimed_matOf]

theorem exec_tileLoad {src : AddrOp} {sr : W16} {bfmt : BitVec 5} (can : s.canEngine v = true) (type : s.vtype v = 1)
    (cls : mClass bfmt.toNat ≠ 0) (check : chk = true → chkOk bfmt.toNat = true)
    (ext : s.inExtents v (reads (tileLoadRows ((s.seqOf v).addr src) sr.toInt (s.mvOf (s.phys v)).beats))) :
    let m := s.matOf (s.phys v)
    ∃ t, exec (.tileLoad v src sr buf bfmt chk) s = .next t ∧
      s.leaves v ((s.issuedBy v).setMat (s.phys v) (m.setBuf buf { m.buf buf with fmt := some bfmt.toNat, chk := chk })) t
        [.tileLoad ((s.seqOf v).addr src) sr.toInt buf chk] := by
  have defined : (mClass bfmt.toNat != 0 && (!chk || chkOk bfmt.toNat)) = true := by
    rw [bne_iff_ne.2 cls]
    cases chk with
    | false => rfl
    | true => exact check rfl
  refine ⟨_, exec_of_engine rfl can type defined ext, ?_⟩
  rw [tileLoadEff_claimed]
  dsimp only
  refine leaves_addFlight (ws := []) (leaves_setMat (leaves_claimed (run_isSome_of_canEngine can)) _ _) ?_ _
  rw [setMat_seqOf, claimed_opAddr]

/-- The fields that R181 and R190 allow a STREAM on the buffer it names. -/
theorem stream_defined {rows : BitVec 11} {tb : TileBuf} {f : Nat} (low : 1 ≤ rows.toNat) (high : rows.toNat ≤ 1024)
    (cls : mClass f ≠ 0) (same : mClass f = mClass (tb.fmt.getD f)) (check : tb.chk = true → chkOk f = true)
    (half : sub = true → mClass f = 16) :
    (rowsOk rows && mClass f != 0 && (mClass f == mClass (tb.fmt.getD f)) && (!tb.chk || chkOk f)
      && (mClass f == 16 || !sub)) = true := by
  have checked : (!tb.chk || chkOk f) = true := by
    cases on : tb.chk with
    | false => rfl
    | true => exact check on
  have halved : (mClass f == 16 || !sub) = true := by
    cases sub with
    | false => exact Bool.or_true _
    | true => rw [half rfl]; rfl
  rw [rowsOk, decide_eq_true ⟨low, high⟩, bne_iff_ne.2 cls, beq_iff_eq.2 same, checked, halved]
  rfl

/-! ### A load done (R175, R187, R196, R197) -/

theorem setSflag_unissued (s t : State) (i : Nat) : (setSflag t i).unissued s = t.unissued s := rfl

theorem unissued_of_logs {u : State} (h : Logs t u) (s : State) : u.unissued s = t.unissued s := by
  have back : (u.unlogged t).unissued s = t.unissued s := congrArg (State.unissued · s) h
  exact back

/-- A CHECKSUM event leaves records of events, and its flag in the running step (R197). -/
theorem checksumFault_unissued (s t : State) (n kind : Nat) (row : Option Nat) (pos : PlanPos) :
    (checksumFault t n kind row pos).unissued s = t.unissued s := by
  rw [checksumFault, setSflag_unissued]
  exact unissued_of_logs (raise_logs ..) s

theorem checksumFault_flag {r : Run} (run : t.run = some r) (n kind : Nat) (row : Option Nat) (pos : PlanPos) :
    ∃ r', (checksumFault t n kind row pos).run = some r' ∧ bitNat r'.sflags 1 = true := by
  have raised :=
    (raise_logs t 0x0109 (cdLoc n 0x010) (packDetail ((1, kind) :: (row.map ((2, ·))).toList)) (some pos) 0x1FF 0).run
  refine ⟨_, congrArg (Option.map _) (raised.trans run), ?_⟩
  rw [bitNat_eq_testBit, Nat.testBit_or, Nat.testBit_two_pow_self, Bool.or_true]

/-- The rows a TILE_LOAD reads, as they arrive (R186). -/
def rowsLoaded (s : State) (src : Nat) (st : Int) (b : Nat) : Mem :=
  memPutAll none [] 0 (readAll s (tileLoadRows src st b)).flatten

/-- A buffer with rows in its tile, under the faults of its storage, as the row check of checksum mode looks at it (R196). -/
def checkedBuf (tb : TileBuf) (rows : Mem) : TileBuf :=
  { tb with tile := tb.faults.foldl (fun x e => memPut none x e.1 (BitVec.ofNat 8 e.2)) rows, arrived := rows }

/-- The buffer as a TILE_LOAD leaves it (R175, R188). -/
def loadedBuf (tb : TileBuf) (rows : Mem) (chk : Bool) : TileBuf :=
  { tb with tile := (checkedBuf tb rows).tile, arrived := if chk then rows else [], faults := []
            bad := tb.bad.filter fun w => decide (8192 ≤ w), weak := tb.weak.filter fun e => decide (8192 ≤ e.1) }

/-- `s` with that buffer in its array. -/
def tileLoaded (s : State) (p : PlanPos) (src : Nat) (st : Int) (buf chk : Bool) : State :=
  let m := s.matOf (s.phys p.vmove)
  s.setMat (s.phys p.vmove) (m.setBuf buf (loadedBuf (m.buf buf) (rowsLoaded s src st p.beat) chk))

/-- The row check of a TILE_LOAD done at `p` passes (R196). -/
def rowsPass (s : State) (p : PlanPos) (src : Nat) (st : Int) (buf : Bool) : Bool :=
  let tb := (s.matOf (s.phys p.vmove)).buf buf
  rowCheck (checkedBuf tb (rowsLoaded s src st p.beat)) (tb.fmt.getD 3)

/-- The row check sees of a buffer loaded in checksum mode its tile, its rows as they arrived and its scales. -/
theorem rowCheck_loadedBuf (tb : TileBuf) (rows : Mem) (f : Nat) :
    rowCheck (loadedBuf tb rows true) f = rowCheck (checkedBuf tb rows) f := by
  have vals (m : Mem) (k c : Nat) :
      tileVal { loadedBuf tb rows true with tile := m } f 8 k c = tileVal { checkedBuf tb rows with tile := m } f 8 k c := rfl
  simp only [rowCheck, vals]
  rfl

theorem does_tileLoad (src : Nat) (st : Int) :
    s.does p (.tileLoad src st buf chk) =
      (let tb := (s.matOf (s.phys p.vmove)).buf buf
       if chk && !rowCheck (loadedBuf tb (rowsLoaded s src st p.beat) chk) (tb.fmt.getD 3) then
         checksumFault (tileLoaded s p src st buf chk) (s.phys p.vmove) 1 none p
       else tileLoaded s p src st buf chk) := rfl

theorem does_tileLoad_unissued (src : Nat) (st : Int) :
    (s.does p (.tileLoad src st buf chk)).unissued s = tileLoaded s p src st buf chk := by
  rw [does_tileLoad]
  dsimp only
  split
  · exact checksumFault_unissued s (tileLoaded s p src st buf chk) ..
  · rfl

theorem does_tileLoad_failed {src : Nat} {st : Int} {r : Run} (run : s.run = some r) (on : chk = true)
    (fails : rowsPass s p src st buf = false) :
    ∃ r', (s.does p (.tileLoad src st buf chk)).run = some r' ∧ bitNat r'.sflags 1 = true := by
  rw [rowsPass] at fails
  rw [does_tileLoad, on]
  dsimp only
  rw [rowCheck_loadedBuf, fails]
  exact checksumFault_flag (t := tileLoaded s p src st buf true) run ..

theorem does_tileLoad_passed {src : Nat} {st : Int} (passes : chk = false ∨ rowsPass s p src st buf = true) :
    s.does p (.tileLoad src st buf chk) = tileLoaded s p src st buf chk := by
  rw [does_tileLoad]
  dsimp only
  refine if_neg ?_
  rw [Bool.and_eq_true, Bool.not_eq_true']
  rintro ⟨on, fails⟩
  obtain off | passed := passes
  · exact nomatch off.symm.trans on
  · rw [on, rowCheck_loadedBuf] at fails
    exact nomatch passed.symm.trans fails

/-! ### A row of a STREAM (R178, R186, R192) -/

theorem setBuf_buf (m : Matrix) (b : Bool) : m.setBuf b (m.buf b) = m := by cases b <;> rfl

/-- A buffer without weak words is the same without some of them. -/
theorem filter_weak_of_sound_buf {tb : TileBuf} (weak : tb.weak = []) (g : Nat × Nat → Bool) :
    { tb with weak := tb.weak.filter g } = tb := by
  cases tb
  cases weak
  rfl

/-- Reading sound words of a tile buffer raises nothing, but writes the array's entry back. -/
theorem eccTile_of_sound (bad : ((s.matOf n).buf buf).bad = []) (weak : ((s.matOf n).buf buf).weak = []) (ws : Nat → Bool) :
    eccTile s n buf ws = s.setMat n (s.matOf n) := by
  rw [eccTile, filter_weak_of_sound_buf weak, setBuf_buf, weak, bad]
  rfl

/-- Row `i` of a STREAM against the tile its buffer holds: the sums, the starts with INVALID, the flags and the column check. -/
def streamed (s : State) (p : PlanPos) (tb : TileBuf) (a : Nat) (sub : Bool) (af bf : Nat) (chk : Bool) (anchor : Int)
    (asc i : Nat) : List W128 × List Nat × Nat × Bool :=
  let ev := scaleEvery (mClass af)
  let srow := if isMX af then s.readRow (rowAt asc (i / ev : Nat)) (p.beat + ev * (i / ev)) else []
  streamRow tb af bf chk sub anchor (s.readRow (rowAt a i) (p.beat + i)) (slice srow ((256 / ev) * (i % ev)) (256 / ev))

/-- The accumulation that row `i` of a STREAM leaves for its beat (R186). -/
def streamEff (p : PlanPos) (acc : Nat) (start sub : Bool) (af i : Nat) (r : List W128 × List Nat × Nat × Bool) : AccEff :=
  { beat := p.beat + i + 280, kind := if start then 3 else 2, row := acc + i
    col := if mClass af = 16 ∧ sub = true then 128 else 0, vals := r.1, inv := r.2.1, pos := p }

/-- The column half of a STREAM, as the op's work tests for it (R176). -/
theorem halfCol_eq (cls : Nat) (sub : Bool) :
    (if cls = 16 ∧ sub = true then 128 else 0 : Nat) = if cls = 16 && sub then 128 else 0 := by
  simp only [Bool.and_eq_true, decide_eq_true_eq]

/-- Once its words are read, a row of a STREAM writes its accumulation and raises flags, and CHECKSUM where the check fails. -/
theorem does_stream {u : State} {bf af : Nat} (read : eccTile s (s.phys p.vmove) buf (streamWords af bf sub) = u)
    (a acc rows i : Nat) (start chk : Bool) (anchor : Int) (asc : Nat) :
    s.does p (.stream a acc rows buf start sub af bf chk anchor asc) i =
      (let n := s.phys p.vmove
       let r := streamed u p ((u.matOf n).buf buf) a sub af bf chk anchor asc i
       let w := raiseFlags (u.setMat n (addEffs (u.matOf n) [streamEff p acc start sub af i r])) r.2.2.1 p
       if r.2.2.2 then w else checksumFault w n 0 (some (acc + i)) { p with beat := p.beat + i }) := by
  subst read
  simp only [streamEff, halfCol_eq]
  rfl

theorem does_stream_unissued {u : State} {bf af : Nat} (read : eccTile s (s.phys p.vmove) buf (streamWords af bf sub) = u)
    (a acc rows i : Nat) (start chk : Bool) (anchor : Int) (asc : Nat) :
    (s.does p (.stream a acc rows buf start sub af bf chk anchor asc) i).unissued s =
      (let m := u.matOf (s.phys p.vmove)
       (u.unissued s).setMat (s.phys p.vmove) (addEffs m
         [streamEff p acc start sub af i (streamed u p (m.buf buf) a sub af bf chk anchor asc i)])) := by
  rw [does_stream read]
  dsimp only
  split
  · rfl
  · exact checksumFault_unissued s (raiseFlags _ _ _) ..

theorem does_stream_of_sound (rising : risingFrom 0 s.matrix = true)
    (bad : ((s.matOf (s.phys p.vmove)).buf buf).bad = []) (weak : ((s.matOf (s.phys p.vmove)).buf buf).weak = [])
    (a acc rows i : Nat) (start : Bool) (af bf : Nat) (chk : Bool) (anchor : Int) (asc : Nat) :
    (s.does p (.stream a acc rows buf start sub af bf chk anchor asc) i).unissued s =
      (let m := s.matOf (s.phys p.vmove)
       s.setMat (s.phys p.vmove) (addEffs m
         [streamEff p acc start sub af i (streamed s p (m.buf buf) a sub af bf chk anchor asc i)])) := by
  rw [does_stream_unissued (eccTile_of_sound bad weak _), matOf_setMat rising]
  exact setMat_setMat_of_ne rising _ _ (addEffs_ne _ _)

/-- Settles O11: the ops issue as engine ops whose effect is a register write or work left; a load done writes its buffer, and a
row of a STREAM over sound words adds its one accumulation. -/
theorem matrixLoadsAndStreams : Obligations.MatrixLoadsAndStreams := by
  refine ⟨fun s v can type => ⟨fun src sr buf bfmt chk cls check ext => exec_tileLoad can type cls check ext,
      fun src buf ext => exec_leaves_work rfl can type rfl ext,
      fun addr => exec_setMat (f := fun m => { m with ascale := BitVec.ofNat 32 ((s.seqOf v).addr addr) }) rfl can type,
      fun seed => exec_setMat (f := fun m => { m with seed := seed }) rfl can type,
      fun a acc rows buf start sub afmt anchor low high cls same check half ext =>
        exec_leaves_work rfl can type (stream_defined low high cls same check half) ext⟩,
    fun s p buf => ⟨fun src st chk => ⟨does_tileLoad_unissued src st,
        fun r run on fails => does_tileLoad_failed run on fails, fun passes => ?_⟩,
      fun src => rfl, fun a acc rows i start sub af bf chk anchor asc rising bad weak =>
        does_stream_of_sound rising bad weak ..⟩⟩
  rw [does_tileLoad_passed passes]
  exact ⟨rfl, rfl⟩

end Sys2Proof.Proofs
end

section
/-!
The skivers (O15; R78, R214 to R219): what the writes of scratch leave alone, what an op's issue leaves, and what its work does to
scratch at its beats.
-/

namespace Sys2Proof.Proofs

open Sys2Proof.Machine Sys2Proof.Laws

variable {s t : State} {v : VMove} {as : List Access} {p : PlanPos} {d a i o mode : Nat} {sat : Bool} {k : Skiver}

/-! ### Writes of scratch -/

/-- `t` is `s` with scratch written: no field but the movements differs. -/
def Scratched (s t : State) : Prop := { s with mv := t.mv } = t

theorem Scratched.refl (s : State) : Scratched s s := rfl

theorem Scratched.writeBytes (h : Scratched s t) (a b : Nat) (bs : List (Nat × Byte)) : Scratched s (t.writeBytes a b bs) :=
  congrArg (State.setMv · (t.phys (addrVm a)) _) h

theorem Scratched.writeRows (h : Scratched s t) (ws : List (Nat × Nat × Bytes)) : Scratched s (t.writeRows ws) :=
  List.foldlRecOn ws _ h fun _ written _ _ => written.writeBytes ..

theorem Scratched.writeRange (h : Scratched s t) (a b : Nat) (bs : Bytes) : Scratched s (writeRange t a b bs) :=
  List.foldlRecOn _ _ h fun _ written _ _ => written.writeBytes ..

theorem Scratched.unissued (h : Scratched s t) : t.unissued s = { s with mv := t.mv } := by
  rw [← h]
  rfl

/-- Flags stand in the running step, which `unissued` sets back (R170). -/
theorem raiseFlags_unissued (s t : State) (f : Nat) (pos : PlanPos) : (raiseFlags t f pos).unissued s = t.unissued s := rfl

/-! ### What an issue leaves -/

theorem claimed_skOf (n : Nat) : (claimed s v true as).skOf n = s.skOf n :=
  claimed_field (fun t => t.skOf n) fun _ _ => rfl

/-- A ROUND field that is not the reserved code is defined (R151). -/
theorem roundOk_of_ne {round : BitVec 2} (ne : round ≠ 3) : roundOk round = true := bne_iff_ne.2 ne

theorem exec_convert {dst src : AddrOp} {gM1 : BitVec 12} {ifmt ofmt : BitVec 5} {round : BitVec 2}
    (can : s.canEngine v = true) (type : s.vtype v = 3) (accepts : convertOk ifmt.toNat ofmt.toNat (gM1.toNat + 1) = true)
    (ne : round ≠ 3)
    (ext : s.inExtents v (convertAccs (s.skOf (s.phys v)) ((s.seqOf v).addr dst) ((s.seqOf v).addr src) ifmt.toNat ofmt.toNat
      (gM1.toNat + 1) (s.mvOf (s.phys v)).beats)) :
    ∃ t, exec (.convert v dst src gM1 ifmt ofmt round sat) s = .next t ∧
      s.leaves v (s.issuedBy v) t [.convert ((s.seqOf v).addr dst) ((s.seqOf v).addr src) (gM1.toNat + 1) ifmt.toNat ofmt.toNat
        round.toNat sat (s.skOf (s.phys v))] := by
  have defined : (convertOk ifmt.toNat ofmt.toNat (gM1.toNat + 1) && roundOk round) = true := by
    rw [accepts, roundOk_of_ne ne]
    rfl
  exact exec_leaves_work rfl can type defined ext

/-- What an op leaves, with a skiver's registers written besides. -/
theorem leaves_setSk {n : Nat} {u : State} {ws : List Work} (h : s.leaves n u t ws) (m : Nat) (x : Skiver) :
    s.leaves n (u.setSk m x) (t.setSk m x) ws := by
  obtain ⟨kept, unissued, flights⟩ := h
  exact ⟨kept, congrArg (State.setSk · m x) unissued, flights⟩

theorem exec_kset {ss ds : AddrOp} {seed : W32} (can : s.canEngine v = true) (type : s.vtype v = 3) :
    ∃ t, exec (.kset v ss ds seed) s = .next t ∧ s.leaves v ((s.issuedBy v).setSk (s.phys v)
      { sscale := BitVec.ofNat 32 ((s.seqOf v).addr ss), dscale := BitVec.ofNat 32 ((s.seqOf v).addr ds), seed := seed }) t [] := by
  have reaches : s.inExtents v [] := fun _ _ _ none => nomatch none
  refine ⟨_, exec_of_engine rfl can type rfl reaches, ?_⟩
  rw [ksetEff, claimed_phys]
  exact leaves_setSk (leaves_claimed (run_isSome_of_canEngine can)) _ _

/-! ### The work done -/

theorem does_transpose (sr dr : Int) (bits : Nat) :
    s.does p (.transpose d a sr dr bits) = transposeEnd d a sr dr bits p s := by rw [State.does, doPart]

theorem does_retile (n : Nat) (sr dr : Int) : s.does p (.retile d a n sr dr) = retileEnd d a n sr dr p s := by
  rw [State.does, doPart]

/-- The codes and the scale bytes that group `g` of a CONVERT to another format than AQ8 writes (R217). -/
def convertedGroup (s : State) (p : PlanPos) (a i o mode : Nat) (sat : Bool) (k : Skiver) (g : Nat) : List Nat × Bytes :=
  let n := groupLen i o
  if exactPair i o = true then
    (cvExact i o ((List.range n).map (elemCode (fmtBits i)
      (readRange s (a + groupStride i n * g) (groupBytes i n) (p.beat + g)))), (cvGroup s k a i n p.beat g).2)
  else
    let e := cvEncode o mode sat k.seed.toNat p.vmove p.beat (n * g) ((cvGroup s k a i n p.beat g).1.map (·.1))
    (e.1, e.2.1)

/-- `s` with what that group writes (R218). -/
def groupWritten (s : State) (p : PlanPos) (d a i o mode : Nat) (sat : Bool) (k : Skiver) (g : Nat) : State :=
  let n := groupLen i o
  let r := convertedGroup s p a i o mode sat k g
  writeRange (writeRange s (d + groupStride o n * g) (p.beat + 64 + g) (groupOut o r.1)) (k.dscale.toNat + n / 32 * g)
    (p.beat + 64 + g) r.2

theorem groupWritten_scratched (g : Nat) : Scratched s (groupWritten s p d a i o mode sat k g) :=
  ((Scratched.refl s).writeRange ..).writeRange ..

/-- A group converted exactly raises no flag; any other raises those of its reading and its encoding. -/
theorem convertStep_unissued (g : Nat) :
    (convertStep d a i o mode sat k p s g).unissued s = (groupWritten s p d a i o mode sat k g).unissued s := by
  simp only [convertStep, groupWritten, convertedGroup]
  split
  · rfl
  · exact raiseFlags_unissued ..

theorem does_convert (other : o ≠ 0x11) (groups g : Nat) :
    s.does p (.convert d a groups i o mode sat k) g = convertStep d a i o mode sat k p s g := if_neg other

theorem does_convert_unissued (other : o ≠ 0x11) (groups g : Nat) :
    (s.does p (.convert d a groups i o mode sat k) g).unissued s
      = { s with mv := (groupWritten s p d a i o mode sat k g).mv } := by
  rw [does_convert other, convertStep_unissued]
  exact (groupWritten_scratched g).unissued

/-- A segment to AQ8 is two rows of codes and a scale byte (R218, R219). -/
theorem convertSeg_unissued (x : Nat) :
    (convertSeg d a i mode k p s x).unissued s =
      (let r := cvEncode 0x11 mode false k.seed.toNat p.vmove p.beat (512 * x)
         (((cvGroup s k a i 256 p.beat (2 * x)).1 ++ (cvGroup s k a i 256 p.beat (2 * x + 1)).1).map (·.1))
       { s with mv := (writeRange (writeRange (writeRange s (d + 512 * x) (p.beat + 64 + 2 * x) ((packCodes 8 r.1).take 256))
         (d + 512 * x + 256) (p.beat + 65 + 2 * x) ((packCodes 8 r.1).drop 256)) (k.dscale.toNat + x) (p.beat + 65 + 2 * x)
         r.2.1).mv }) := by
  rw [convertSeg, raiseFlags_unissued]
  exact ((((Scratched.refl s).writeRange ..).writeRange ..).writeRange ..).unissued

/-- Settles O15: TRANSPOSE, RETILE and CONVERT issue as engine ops that leave their work, KSET as one that writes its registers;
the work writes scratch and raises flags. -/
theorem skiverOpsComplete : Obligations.SkiverOpsComplete := by
  refine ⟨fun s v dst src can type => ⟨fun sr dr esize ext => exec_leaves_work rfl can type rfl ext,
      fun n sr dr ext => exec_leaves_work rfl can type rfl ext,
      fun gM1 i o round sat accepts ne ext => exec_convert can type accepts ne ext,
      fun ss ds seed => exec_kset can type⟩,
    fun s p d a => ⟨fun sr dr bits => ?_, fun n sr dr => ?_, fun k groups g i o mode sat other => ?_,
      fun k groups x i mode sat => ?_⟩⟩
  · rw [does_transpose, transposeEnd]
    exact ((Scratched.refl s).writeRows _).symm
  · rw [does_retile, retileEnd]
    exact ((Scratched.refl s).writeRows _).symm
  · exact does_convert_unissued other groups g
  · exact convertSeg_unissued x

end Sys2Proof.Proofs
end

section
/-!
The passes of the vector unit without a tap (O13; R199, R201 to R205): every op of R203 is a pass, a pass leaves its groups for
their beats, and a group done writes its codes to strap D.
-/

namespace Sys2Proof.Proofs

open Sys2Proof.Machine Sys2Proof.Laws

variable {s : State} {v : VMove} {as : List Access} {p : PlanPos} {fn : VFun}

/-! ### The ops of R203 -/

theorem exec_formOps (s : State) (v : VMove) (f : VForm) :
    ∀ c ∈ [(Instr.add v f, VFun.add), (.sub v f, .sub), (.mul v f, .mul), (.mad v f, .mad), (.min v f, .min), (.max v f, .max),
        (.cmpeq v f, .cmpeq), (.cmpne v f, .cmpne), (.cmplt v f, .cmplt), (.cmple v f, .cmple), (.sel v f, .sel),
        (.and v f, .and), (.or v f, .or), (.xor v f, .xor), (.shl v f, .shl), (.shr v f, .shr)],
      exec c.1 s = issueForm s v c.2 f := by
  simp only [List.forall_mem_cons]
  exact ⟨rfl, rfl, rfl, rfl, rfl, rfl, rfl, rfl, rfl, rfl, rfl, rfl, rfl, rfl, rfl, rfl, fun _ none => nomatch none⟩

theorem exec_form2Ops (s : State) (v : VMove) (f : VForm2) :
    ∀ c ∈ [(Instr.affine v f, VFun.affine), (.exps v f, .exps)], exec c.1 s = issueForm2 s v c.2 f := by
  simp only [List.forall_mem_cons]
  exact ⟨rfl, rfl, fun _ none => nomatch none⟩

theorem exec_unaryOps (s : State) (v : VMove) (d a : AddrOp) :
    ∀ c ∈ [(Instr.vectorCopy v d a, VFun.copy), (.abs v d a, .abs), (.neg v d a, .neg), (.exp2 v d a, .exp2),
        (.log2 v d a, .log2), (.rcp v d a, .rcp), (.sqrt v d a, .sqrt), (.rsqrt v d a, .rsqrt), (.tanh v d a, .tanh),
        (.sigmoid v d a, .sigmoid), (.gelu v d a, .gelu), (.silu v d a, .silu)],
      exec c.1 s = issueUnary s v c.2 d a := by
  simp only [List.forall_mem_cons]
  exact ⟨rfl, rfl, rfl, rfl, rfl, rfl, rfl, rfl, rfl, rfl, rfl, rfl, fun _ none => nomatch none⟩

/-! ### The issue of a pass (R201, R210) -/

theorem claimed_vecOf (n : Nat) : (claimed s v true as).vecOf n = s.vecOf n :=
  claimed_field (fun t => t.vecOf n) fun _ _ => rfl

/-- With TAPK 0 a pass leaves its groups and takes no tap (R206, R210). -/
theorem passEff_of_untapped (off : (s.vecOf (s.phys v)).tapk = 0) (d : Nat) (a : Option Nat) (src : BSrc) :
    passEff v fn d a src (s.pos v) (claimed s v true as)
      = addFlight (claimed s v true as) (s.pos v) (.pass fn d a src (s.vecOf (s.phys v)).toVMode none) := by
  have untapped : (s.vecOf (s.phys v)).tap = none := if_pos off
  simp only [passEff, claimed_phys, claimed_vecOf, untapped]

/-- An op that is a pass issues, in the formats of R198 and with its straps in their extents, with the mode registers as they
stand. -/
theorem exec_pass {c : Instr} {d : AddrOp} {a : Option AddrOp} {src : Seq → BSrc} (op : exec c s = issuePass s v fn d a src)
    (can : s.canEngine v = true) (type : s.vtype v = 2) (off : (s.vecOf (s.phys v)).tapk = 0)
    (defined : passOk (s.vecOf (s.phys v)).toVMode fn = true)
    (ext : s.inExtents v (passAccs (s.vecOf (s.phys v)).toVMode fn ((s.seqOf v).addr d) (a.map (s.seqOf v).addr) (src (s.seqOf v))
      (s.mvOf (s.phys v)).beats)) :
    ∃ t, exec c s = .next t ∧ s.leaves v (s.issuedBy v) t
      [.pass fn ((s.seqOf v).addr d) (a.map (s.seqOf v).addr) (src (s.seqOf v)) (s.vecOf (s.phys v)).toVMode none] := by
  refine ⟨_, exec_of_engine op can type defined ext, ?_⟩
  rw [passEff_of_untapped off]
  exact leaves_addFlight (leaves_claimed (run_isSome_of_canEngine can)) (claimed_opAddr true) _

/-! ### A group done (R199, R203) -/

theorem phys_onRun {f : Run → Run} (kept : ∀ r, (f r).map = r.map) (n : Nat) : (s.onRun f).phys n = s.phys n := by
  rw [phys_eq, map_onRun kept, ← phys_eq]

/-- Rows written and a change of the step's record that keeps the movements in their places, in either order. -/
theorem writeRows_onRun {f : Run → Run} (kept : ∀ r, (f r).map = r.map) (ws : List (Nat × Nat × Bytes)) :
    (s.onRun f).writeRows ws = (s.writeRows ws).onRun f := by
  induction ws generalizing s with
  | nil => rfl
  | cons w ws ih =>
    have row : (s.onRun f).writeRow w.1 w.2.1 w.2.2 = (s.writeRow w.1 w.2.1 w.2.2).onRun f := by
      rw [State.writeRow, State.writeBytes, phys_onRun kept]
      rfl
    show ((s.onRun f).writeRow w.1 w.2.1 w.2.2).writeRows ws = ((s.writeRow w.1 w.2.1 w.2.2).writeRows ws).onRun f
    rw [row, ih]

theorem writeRows_raiseFlags (fl : Nat) (pos : PlanPos) (ws : List (Nat × Nat × Bytes)) :
    (raiseFlags s fl pos).writeRows ws = raiseFlags (s.writeRows ws) fl pos := by
  refine writeRows_onRun ?_ ws
  exact fun _ => rfl

/-- The rows of strap D in which the codes of group `g` of a pass at `p` stand (R199). -/
def groupRows (u : VMode) (d : Nat) (p : PlanPos) (g : Nat) (codes : List Nat) : List (Nat × Nat × Bytes) :=
  (indexed (cutRows (strapW u.ofmt) (packWide (fmtBits u.ofmt) codes))).map fun e =>
    (rowAt d (strapW u.ofmt * g + e.1 : Nat), p.beat + 16 + g, e.2)

theorem freed_unissued (s t : State) (c : Prop) [Decidable c] :
    { (if c then t.bump else t).unissued s with free := s.free } = { t.unissued s with free := s.free } := by
  split <;> rfl

/-- A group of a pass writes its rows, raises flags, and may take a free value (log 33). -/
theorem passGroup_unissued (u : VMode) (t : W32 × Bool) (d : Nat) (a : Option Nat) (src : BSrc) (g : Nat) :
    { (passGroup s u t fn d a src p g).1.unissued s with free := s.free }
      = { s with mv := (s.writeRows (groupRows u d p g ((passOut s u t fn d a src p g).map (·.1)))).mv } := by
  have written := ((Scratched.refl s).writeRows (groupRows u d p g ((passOut s u t fn d a src p g).map (·.1)))).unissued
  rw [passGroup, writeRows_raiseFlags]
  dsimp only
  rw [freed_unissued, raiseFlags_unissued]
  exact congrArg (fun w : State => { w with free := s.free }) written

theorem doPart_pass {x : Flight} {d : Nat} {a : Option Nat} {src : BSrc} {m : VMode} {tap : Option Tap}
    (work : x.work = .pass fn d a src m tap) : doPart x s = passPart x fn d a src m tap s := by
  rw [doPart, work]

/-- The part of a pass without a tap that is a group: T is from the first group on the one that stood at it (R201). -/
theorem passPart_group {x : Flight} (early : x.next < 16) (d : Nat) (a : Option Nat) (src : BSrc) (m : VMode) :
    passPart x fn d a src m none s =
      (let u := s.vecOf (s.phys x.pos.vmove)
       let c := x.t.getD (u.t, u.tFloat)
       ((passGroup s m c fn d a src x.pos x.next).1, { x with t := some c, held := [] })) := if_pos early

/-- Settles O13: every op of R203 issues as a pass that leaves its groups, and a group done writes its rows. -/
theorem vectorPassesComplete : Obligations.VectorPassesComplete := by
  refine ⟨fun s v f f2 d a i can type off => ⟨?_, ?_, ?_, ?_⟩, fun s x fn d a src m early work => ?_⟩
  · intro c mem defined ext
    have op := exec_formOps s v f c mem
    cases f with
    | straps d a b => exact exec_pass (d := d) (a := some a) (src := fun q => .strap (q.addr b)) op can type off defined ext
    | imm d a i => exact exec_pass (d := d) (a := some a) (src := fun _ => .imm i) op can type off defined ext
    | const d a => exact exec_pass (d := d) (a := some a) (src := fun _ => .const) op can type off defined ext
  · intro c mem defined ext
    have op := exec_form2Ops s v f2 c mem
    cases f2 with
    | straps d a b => exact exec_pass (d := d) (a := some a) (src := fun q => .strap (q.addr b)) op can type off defined ext
    | imm d a i => exact exec_pass (d := d) (a := some a) (src := fun _ => .imm i) op can type off defined ext
  · intro defined ext
    exact exec_pass (d := d) (a := none) (src := fun _ => .imm i) rfl can type off defined ext
  · intro c mem defined ext
    exact exec_pass (d := d) (a := some a) (src := fun _ => .imm 0) (exec_unaryOps s v d a c mem) can type off defined ext
  · rw [doPart_pass work, passPart_group early]
    exact ⟨passGroup_unissued .., rfl⟩

end Sys2Proof.Proofs
end

section
/-!
A RADDW whose mask names no tally (O14; R208, R209).
-/

namespace Sys2Proof.Proofs

open Sys2Proof.Machine Sys2Proof.Laws

/-- A write of an entry never leaves it listed with the default. -/
theorem tset_listed_default_ne {α : Type} [DecidableEq α] (d w : α) (k : Nat) : tset d [(k, d)] k w ≠ [(k, d)] := by
  intro listed
  by_cases default : w = d
  · rw [tset, if_pos default, tdel, if_pos rfl] at listed
    exact List.cons_ne_nil _ _ listed.symm
  · rw [tset, if_neg default, tput, if_neg (Nat.lt_irrefl k), if_pos rfl] at listed
    exact default (congrArg Prod.snd (List.cons.inj listed).1)

/-- With no bit of its mask set a RADDW contributes to no tally. -/
theorem does_raddw_none (s : State) (p : PlanPos) (a : Nat) : s.does p (.raddw a 0) = s := rfl

/-- The reset state with vector unit 0 listed, holding its reset values: the table's keys rise, but it is not in canonical
form. -/
def listedUnit : State := { State.reset with vector := [(0, {})] }

/-- Refutes O14: the clause on a RADDW's contributions asks of the table of vector units only that its keys rise, and no bit of
the mask need be set. Where the table lists a unit that holds its reset values (`listedUnit`), a RADDW with mask 0 leaves the
state as it is, and so leaves the entry listed; but a write of the unit, with whatever tallies, either takes the entry out of
the table or puts other values in it. With the table in canonical form (`Tbl.wf`) no such entry stands in it. -/
theorem not_vectorModesAndTallies : ¬ Obligations.VectorModesAndTallies := by
  rintro ⟨-, done⟩
  obtain ⟨-, -, -, raddw, -⟩ := done listedUnit { step := 0, beat := 0, vmove := 0, event := 0 }
  have unmasked (i : Nat) : (0 : W16).getLsbD i ≠ true := by simp
  obtain ⟨ts, same, -⟩ := raddw 0 0 rfl fun i _ masked => (unmasked i masked).elim
  rw [does_raddw_none] at same
  exact tset_listed_default_ne _ _ _ (congrArg State.vector same).symm

end Sys2Proof.Proofs
end

section
/-!
What is read in a sparse table after a removal, and in one whose entries were replaced by others alike.
-/

namespace Sys2Proof.Proofs

open Sys2Proof.Machine Sys2Proof.Laws

variable {α β : Type} {k lo : Nat} {m : Tbl α}

theorem tfind_of_rising (rising : risingFrom lo m = true) (below : k < lo) : tfind m k = none := by
  induction m generalizing lo with
  | nil => rfl
  | cons e m ih =>
    simp only [risingFrom, Bool.and_eq_true, decide_eq_true_eq] at rising
    obtain ⟨first, rest⟩ := rising
    rw [tfind, if_neg (by omega), ih rest (by omega)]

theorem tfind_tdel (rising : risingFrom lo m = true) : tfind (tdel k m) k = none := by
  induction m generalizing lo with
  | nil => rfl
  | cons e m ih =>
    simp only [risingFrom, Bool.and_eq_true] at rising
    obtain ⟨-, rest⟩ := rising
    rw [tdel]
    split_ifs with same
    · exact tfind_of_rising rest (by omega)
    · rw [tfind, if_neg same, ih rest]

/-- Every entry of a table replaced, its key kept. -/
def mapEntries (f : α → β) (m : Tbl α) : Tbl β := m.map fun e => (e.1, f e.2)

theorem risingFrom_mapEntries (f : α → β) (m : Tbl α) (lo : Nat) : risingFrom lo (mapEntries f m) = risingFrom lo m := by
  induction m generalizing lo with
  | nil => rfl
  | cons e m ih =>
    show (_ && risingFrom (e.1 + 1) (mapEntries f m)) = _
    rw [ih]
    rfl

/-- An entry replaced by one that `f` does not tell from it. -/
theorem mapEntries_tput_alike {f : α → β} {v w : α} (rising : risingFrom lo m = true) (stands : tfind m k = some v)
    (alike : f w = f v) : mapEntries f (tput k w m) = mapEntries f m := by
  induction m generalizing lo with
  | nil => cases stands
  | cons e m ih =>
    simp only [risingFrom, Bool.and_eq_true] at rising
    obtain ⟨-, rest⟩ := rising
    rw [tfind] at stands
    rw [tput]
    split_ifs at stands ⊢ with below same same
    · omega
    · rw [tfind_of_rising rest (by omega)] at stands
      cases stands
    · obtain rfl := Option.some.inj stands
      simp [mapEntries, alike, same]
    · exact congrArg (List.cons _) (ih rest stands)

theorem sum_map_tput {f : Nat × α → Nat} (free : tfind m k = none) (v : α) :
    ((tput k v m).map f).sum = f (k, v) + (m.map f).sum := by
  induction m with
  | nil => rfl
  | cons e m ih =>
    obtain ⟨j, w⟩ := e
    rw [tfind] at free
    split_ifs at free with same
    rw [tput]
    split_ifs
    · rfl
    · rw [List.map_cons, List.sum_cons, ih free, List.map_cons, List.sum_cons]
      omega

end Sys2Proof.Proofs
end

section
/-!
What the operations of one analogue weight die leave alone: everything but the dies, what events leave behind, and the other dies.
-/

namespace Sys2Proof.Proofs

open Sys2Proof.Machine Sys2Proof.Laws

variable {s t u : State} {d : Nat} {a x : AwDieSt}

theorem awOf_of_logs (h : Logs t u) (d : Nat) : u.awOf d = t.awOf d := congrArg (tget ({} : AwDieSt) · d) (aw_of_logs h)

/-- `t` is `s` but for die `d`, which is `a`, and for what events leave behind. -/
structure DieIs (d : Nat) (s : State) (a : AwDieSt) (t : State) : Prop where
  frame : OnlyDies s t
  rising : risingFrom 0 t.aw = true
  die : t.awOf d = a
  others : ∀ e, e ≠ d → t.awOf e = s.awOf e

theorem DieIs.refl (rising : risingFrom 0 s.aw = true) (d : Nat) : DieIs d s (s.awOf d) s :=
  ⟨rfl, rising, rfl, fun _ _ => rfl⟩

theorem DieIs.setAw (h : DieIs d s a t) (x : AwDieSt) : DieIs d s x (t.setAw d x) where
  frame := h.frame.trans (setAw_onlyDies t d x)
  rising := rising_setAw h.rising d x
  die := awOf_setAw h.rising d x
  others e ne := (awOf_setAw_ne t x ne).trans (h.others e ne)

theorem DieIs.logs (h : DieIs d s a t) (k : Logs t u) : DieIs d s a u where
  frame := h.frame.trans (onlyDies_of_logs k)
  rising := aw_of_logs k ▸ h.rising
  die := (awOf_of_logs k d).trans h.die
  others e ne := (awOf_of_logs k e).trans (h.others e ne)

/-- An operation on the die alone, done once for each of a list. -/
theorem DieIs.foldl {β : Type} {op : State → β → State} {f : AwDieSt → β → AwDieSt}
    (step : ∀ {a : AwDieSt} {t : State} (b : β), DieIs d s a t → DieIs d s (f a b) (op t b)) (h : DieIs d s a t) (l : List β) :
    DieIs d s (l.foldl f a) (l.foldl op t) := by
  induction l generalizing a t with
  | nil => exact h
  | cons b l ih => exact ih (step b h)

/-- A field that neither the dies nor events write is the same. -/
theorem DieIs.field {α : Type} (h : DieIs d s a t) (f : State → α)
    (blind : ∀ t : State, f { t.unlogged s with aw := s.aw } = f t) : f t = f s :=
  (blind t).symm.trans (congrArg f h.frame)

end Sys2Proof.Proofs
end

section
/-!
The guard window (R226, R231): outside every window an estimate and the exact sum round to the same multiple of the grain.
-/

namespace Sys2Proof.Proofs

open Sys2Proof.Machine

/-- A number less than half of `d` from a multiple of `d` rounds to it. -/
theorem rneDiv_near {d : Nat} {q x : Int} (low : -(d : Int) < 2 * x) (high : 2 * x < d) : rneDiv (d * q + x) d = q := by
  rcases le_or_gt 0 x with pos | neg
  · have div : (d * q + x) / (d : Int) = q ∧ (d * q + x) % d = x :=
      (Int.ediv_emod_unique (by omega)).2 ⟨by omega, pos, by omega⟩
    obtain ⟨quot, rem⟩ := div
    rw [rneDiv, quot, rem, if_pos (by omega)]
  · have next : (d : Int) * (q - 1) = d * q - d := mul_sub_one _ q
    have div : (d * q + x) / (d : Int) = q - 1 ∧ (d * q + x) % d = d + x :=
      (Int.ediv_emod_unique (by omega)).2 ⟨by omega, by omega, by omega⟩
    obtain ⟨quot, rem⟩ := div
    rw [rneDiv, quot, rem, if_neg (by omega), if_pos (by omega), Int.sub_add_cancel]

/-- An estimate outside every window lies strictly within half a grain of a multiple of it, with the half-width to spare. -/
theorem near_of_not_inWindow {est : Int} {g gw : Nat} (out : inWindow est g gw = false) :
    ∃ q x : Int, est = 64 * 2 ^ g * q + x ∧ gw * 2 ^ g < x + 64 * 2 ^ g / 2 ∧ x + 64 * 2 ^ g / 2 < 64 * 2 ^ g - gw * 2 ^ g := by
  simp only [inWindow, Bool.or_eq_false_iff, decide_eq_false_iff_not, Int.not_le] at out
  obtain ⟨above, below⟩ := out
  refine ⟨(est + 64 * 2 ^ g / 2) / (64 * 2 ^ g), (est + 64 * 2 ^ g / 2) % (64 * 2 ^ g) - 64 * 2 ^ g / 2, ?_, by omega, by omega⟩
  have whole := Int.mul_ediv_add_emod (est + 64 * 2 ^ g / 2) (64 * 2 ^ g)
  omega

/-- Where the estimate errs by no more than the half-width, the converter's value is the exact sum at the grain (R231). -/
theorem converter_eq_grainOf {est exact : Int} {g gw : Nat} (fine : 1 ≤ g) (out : inWindow est g gw = false)
    (low : est - 64 * exact ≤ gw * 2 ^ g) (high : 64 * exact - est ≤ gw * 2 ^ g) : converter est g = grainOf exact g := by
  obtain ⟨q, x, rfl, above, below⟩ := near_of_not_inWindow out
  obtain ⟨k, rfl⟩ := Nat.exists_eq_add_of_le' fine
  have half : (2 : Int) ^ (k + 1) = 2 * 2 ^ k := pow_succ' 2 k
  have wide : (0 : Int) ≤ gw * 2 ^ (k + 1) := by positivity
  have grain : ((2 ^ (k + 1) : Nat) : Int) = 2 * 2 ^ k := by push_cast; exact half
  have unit : ((64 * 2 ^ (k + 1) : Nat) : Int) = 64 * (2 * 2 ^ k) := by push_cast; rw [half]
  have estimated : rneDiv (64 * 2 ^ (k + 1) * q + x) (64 * 2 ^ (k + 1)) = q := by
    have round := rneDiv_near (d := 64 * 2 ^ (k + 1)) (q := q) (x := x) (by omega) (by omega)
    rwa [unit, ← half] at round
  have summed : rneDiv exact (2 ^ (k + 1)) = q := by
    have product : 64 * 2 ^ (k + 1) * q = 64 * (2 * 2 ^ k * q) := by rw [half]; ring
    have round := rneDiv_near (d := 2 ^ (k + 1)) (q := q) (x := exact - 2 * 2 ^ k * q) (by omega) (by omega)
    rwa [grain, add_sub_cancel] at round
  rw [converter, grainOf, estimated, summed]

end Sys2Proof.Proofs
end

section
/-!
PASS_TICK (O18; R230 to R236): what the parts of a pass leave standing of their die, and of the others.
-/

namespace Sys2Proof.Proofs

open Sys2Proof.Machine Sys2Proof.Laws

variable {s t u : State} {d : Nat} {x : AwDieSt}

/-- A pane set without where its panes stand in their vectors. -/
def unplaced (p : PaneSet) : PaneSet := { p with at_ := [] }

/-- What a pass leaves standing of its die: STATE, the tick, and the sets but for where their panes stand. -/
def standing (a : AwDieSt) : Nat × Nat × Tbl PaneSet := (a.state, a.tick, mapEntries unplaced a.sets)

/-- `t` is `s` but for the queues, what events and the running step's record take up, and die `d`, of which it leaves `standing`. -/
structure Ticked (d : Nat) (s t : State) : Prop where
  frame : { t.unissued s with queue := s.queue, aw := s.aw } = s
  rising : risingFrom 0 t.aw = true
  others : ∀ e, e ≠ d → t.awOf e = s.awOf e
  stands : standing (t.awOf d) = standing (s.awOf d)

theorem Ticked.refl (rising : risingFrom 0 s.aw = true) (d : Nat) : Ticked d s s where
  frame := by dsimp only [State.unissued, State.unlogged]
  rising := rising
  others _ _ := rfl
  stands := rfl

theorem Ticked.setAw (h : Ticked d s t) (same : standing x = standing (t.awOf d)) : Ticked d s (t.setAw d x) where
  frame := h.frame
  rising := rising_setAw h.rising d x
  others e ne := (awOf_setAw_ne t x ne).trans (h.others e ne)
  stands := (congrArg standing (awOf_setAw h.rising d x)).trans (same.trans h.stands)

theorem Ticked.logs (h : Ticked d s t) (k : Logs t u) : Ticked d s u where
  frame := (congrArg (fun w : State => { w with queue := s.queue, aw := s.aw }) (unissued_of_logs k s)).trans h.frame
  rising := aw_of_logs k ▸ h.rising
  others e ne := (awOf_of_logs k e).trans (h.others e ne)
  stands := (congrArg standing (awOf_of_logs k d)).trans h.stands

theorem Ticked.onRun (h : Ticked d s t) (f : Run → Run) : Ticked d s (t.onRun f) := ⟨h.frame, h.rising, h.others, h.stands⟩

theorem Ticked.setQ (h : Ticked d s t) (k : Nat) (q : Queue) : Ticked d s (t.setQ k q) := ⟨h.frame, h.rising, h.others, h.stands⟩

theorem Ticked.foldl {α : Type} {op : State → α → State} (step : ∀ {t : State} (b : α), Ticked d s t → Ticked d s (op t b))
    (h : Ticked d s t) (l : List α) : Ticked d s (l.foldl op t) :=
  List.foldlRecOn l op h fun _ h b _ => step b h

/-- The sets of the die stay in rising order. -/
theorem Ticked.sets_rising (h : Ticked d s t) (rising : risingFrom 0 (s.awOf d).sets = true) :
    risingFrom 0 (t.awOf d).sets = true := by
  have sets : mapEntries unplaced (t.awOf d).sets = mapEntries unplaced (s.awOf d).sets :=
    congrArg (fun w : Nat × Nat × Tbl PaneSet => w.2.2) h.stands
  rw [← risingFrom_mapEntries unplaced, sets, risingFrom_mapEntries, rising]

/-! ### The shadow (R224, R238, R275) -/

theorem upsetShadow_ticked (h : Ticked d s t) (us : List ShadowUpset) : Ticked d s (upsetShadow d us t) := by
  refine h.foldl (fun b h => h.setAw ?_) us
  split <;> rfl

theorem losePane_ticked (h : Ticked d s t) (l : Nat) : Ticked d s (losePane t d l) := by
  unfold losePane
  dsimp only
  split
  · exact h
  · refine Ticked.logs ?_ (raise_logs ..)
    exact h.setAw rfl

theorem shadowRead_ticked (h : Ticked d s t) (l col : Nat) : Ticked d s (shadowRead t d l col) :=
  Ticked.foldl (fun _ h => (losePane_ticked (h.logs (raise_logs ..)) l).onRun _) (h.foldl (fun _ h => h.logs (raise_logs ..)) _) _

/-! ### Passes (R230 to R237) -/

theorem standing_requestTest (a : AwDieSt) (k cause : Nat) : standing (requestTest a k cause) = standing a := by
  unfold requestTest
  split <;> rfl

theorem startMvms_ticked (h : Ticked d s t) : Ticked d s (startMvms t d) := by
  refine h.foldl (fun j h => ?_) _
  split
  · refine Ticked.setAw (h.setQ _ _) ?_
    rfl
  · exact h

theorem rateCount_ticked (h : Ticked d s t) (g pos grain flags : Nat) : Ticked d s (rateCount t d g pos grain flags) := by
  unfold rateCount
  dsimp only
  split
  · exact h.setAw rfl
  · split
    · split
      · refine Ticked.logs ?_ (raise_logs ..)
        exact h.setAw (standing_requestTest _ _ _)
      · exact h.setAw rfl
    · exact h.setAw rfl

/-- A pass moves its pane on in its set, which stays what it was. -/
theorem takePass_ticked (h : Ticked d s t) (rising : risingFrom 0 (s.awOf d).sets = true) (ests : List PaneEst)
    (audits : List AuditPick) (p : Pass) : Ticked d s (takePass t d ests audits p) := by
  refine rateCount_ticked (h.setAw ?_) _ _ _ _
  refine Prod.ext rfl (Prod.ext rfl ?_)
  dsimp only [standing]
  split
  · next stands => exact mapEntries_tput_alike (h.sets_rising rising) stands rfl
  · rfl

/-! ### Resolve and audit (R233 to R236) -/

theorem auditOutcome_ticked (h : Ticked d s t) (j : MvmJob) (x : ColPlane) (conv sum : Int) (l : Nat) :
    Ticked d s (auditOutcome t d j x conv sum l) := by
  unfold auditOutcome
  dsimp only
  split
  · exact h.setAw rfl
  · refine Ticked.onRun (Ticked.logs ?_ (raise_logs ..)) _
    exact h.setAw (standing_requestTest (AwDieSt.resolving _ _) _ _)

theorem resolve1_ticked (h : Ticked d s t) (x : ColPlane) : Ticked d s (resolve1 t d x) := by
  unfold resolve1
  split
  · exact h
  · dsimp only
    split
    · refine auditOutcome_ticked (shadowRead_ticked ?_ _ _) _ _ _ _ _
      exact h.setAw rfl
    · refine shadowRead_ticked ?_ _ _
      exact h.setAw rfl

theorem resolveGroup_ticked (h : Ticked d s t) (g : Nat) : Ticked d s (resolveGroup t d g) := by
  refine Ticked.foldl (fun x h => resolve1_ticked h x) ?_ _
  exact h.setAw rfl

/-! ### Outputs (R234) -/

theorem finishVectors_ticked (h : Ticked d s t) (j : MvmJob) : Ticked d s (finishVectors t d j) := by
  refine h.setAw (List.foldlRecOn (motive := fun a => standing a = standing (t.awOf d)) _ _ rfl fun a same e _ => ?_)
  split
  · exact same
  · exact same

/-! ### A tick -/

/-- What a tick does before it is counted. -/
theorem passes_ticked (h : Ticked d s t) (rising : risingFrom 0 (s.awOf d).sets = true) (ests : List PaneEst)
    (audits : List AuditPick) (upsets : List ShadowUpset) :
    ∃ u, Ticked d s u ∧ passTickEff d ests audits upsets t = u.setAw d { u.awOf d with tick := (u.awOf d).tick + 1 } := by
  refine ⟨_, ?_, rfl⟩
  refine Ticked.foldl (fun j h => finishVectors_ticked h j) ?_ _
  refine Ticked.foldl (fun g h => resolveGroup_ticked h g) ?_ _
  refine Ticked.foldl (fun p h => takePass_ticked h rising ests audits p) ?_ _
  exact startMvms_ticked (upsetShadow_ticked h upsets)

/-- PASS_TICK on a READY die (R230). -/
theorem exec_passTick (rising : risingFrom 0 s.aw = true) {d : AwDie} (ests : List PaneEst) (audits : List AuditPick)
    (upsets : List ShadowUpset) (ready : (s.awOf d).state = 3) (sets : risingFrom 0 (s.awOf d).sets = true) :
    ∃ t, exec (.passTick d ests audits upsets) s = .next t ∧ { t.unissued s with queue := s.queue, aw := s.aw } = s ∧
      (t.awOf d).tick = (s.awOf d).tick + 1 ∧ (t.awOf d).state = 3 ∧
      mapEntries unplaced (t.awOf d).sets = mapEntries unplaced (s.awOf d).sets ∧ ∀ e, e ≠ d.val → t.awOf e = s.awOf e := by
  obtain ⟨u, ticked, eff⟩ := passes_ticked (.refl rising d) sets ests audits upsets
  have counted := awOf_setAw ticked.rising d { u.awOf d with tick := (u.awOf d).tick + 1 }
  have stands := ticked.stands
  simp only [standing, Prod.mk.injEq] at stands
  obtain ⟨state, tick, alike⟩ := stands
  refine ⟨_, if_pos ready, ?_⟩
  rw [eff, counted]
  exact ⟨ticked.frame, congrArg (· + 1) tick, state.trans ready, alike,
    fun e ne => (awOf_setAw_ne u _ ne).trans (ticked.others e ne)⟩

end Sys2Proof.Proofs
end

section
/-!
The sets of an analogue die, the retirement of its MVMs, and the end of a step (O18; R244, R245, R248, R249, R259).
-/

namespace Sys2Proof.Proofs

open Sys2Proof.Machine Sys2Proof.Laws

variable {s t : State} {d : AwDie} {q i set : Nat} {c : Cmd} {p : PaneSet} {a : AwDieSt}

/-- A die with other sets. -/
def holding (a : AwDieSt) (m : Tbl PaneSet) : AwDieSt := { a with sets := m }

theorem setAw_setQ_frame (s : State) (d : Nat) (x : AwDieSt) (k : Nat) (u : Queue) :
    { (s.setAw d x).setQ k u with queue := s.queue, aw := s.aw } = s := by
  dsimp only [State.setAw, State.setQ]

theorem awOf_setQ (s : State) (k : Nat) (u : Queue) (d : Nat) : (s.setQ k u).awOf d = s.awOf d := rfl

/-- Queue `u` with the command `c` at place `i` finished, its results having raised `flags` (R102, R228). -/
def finished (u : Queue) (i : Nat) (c : Cmd) (rows : List Bytes) (flags : Nat) : Queue :=
  retireHead u.cmds.length { u with cmds := u.cmds.set i { c with done := true, result := rows, flags := flags } }

theorem finishCmd_finished {key : Nat} (rising : risingFrom 0 s.queue = true) (h : (s.qOf key).cmds[i]? = some c)
    (rows : List Bytes) (flags : Nat) : finishCmd s key i rows flags = s.setQ key (finished (s.qOf key) i c rows flags) := by
  let w : Queue := { s.qOf key with cmds := (s.qOf key).cmds.set i { c with done := true, result := rows, flags := flags } }
  have ne : w ≠ {} := by
    intro eq
    have nil : (s.qOf key).cmds.set i _ = [] := congrArg Queue.cmds eq
    rw [List.set_eq_nil_iff] at nil
    rw [nil] at h
    cases h
  have read : (s.setQ key w).qOf key = w := tget_tset_of_ne _ _ _ _ ne
  have len : w.cmds.length = (s.qOf key).cmds.length := List.length_set
  rw [finishCmd, h]
  show retireQ (s.setQ key w) key = _
  rw [retireQ, read, len]
  exact congrArg (fun m => { s with queue := m }) (tset_tset_written rising ne _ _)

/-! ### Admission (R245) -/

theorem active_tput (free : tfind a.sets set = none) (p : PaneSet) :
    (holding a (tput set p a.sets)).active = a.active + p.nr * p.nc := by
  rw [AwDieSt.active, holding, sum_map_tput free, Nat.add_comm]
  rfl

/-- The state in which the PSET `c` has been admitted with the panes of `p`. -/
def admitted (s : State) (d : AwDie) (q i : Nat) (c : Cmd) (set : Nat) (p : PaneSet) : State :=
  (setCmd s (qKey (s.wOf d) q) i { c with begun := true }).setAw d
    (holding (s.awOf d) (tput set { p with beat := c.pos.beat } (s.awOf d).sets))

theorem exec_psetAdmit (next : nextPset s (s.wOf d) = some (q, i, c, set, p)) (ready : (s.awOf d).state = 3)
    (free : tfind (s.awOf d).sets set = none) (room : (s.awOf d).active + p.nr * p.nc ≤ 4096)
    (still : (s.awOf d).moving p = false) : exec (.psetAdmit d) s = .next (admitted s d q i c set p) := by
  show execPsetAdmit d s = _
  rw [execPsetAdmit, next]
  exact if_pos ⟨ready, free, room, still⟩

theorem admitted_frame (s : State) (d : AwDie) (q i : Nat) (c : Cmd) (set : Nat) (p : PaneSet) :
    { admitted s d q i c set p with queue := s.queue, aw := s.aw } = s := by
  dsimp only [admitted, setCmd, State.setAw, State.setQ]

theorem awOf_admitted (rising : risingFrom 0 s.aw = true) :
    (admitted s d q i c set p).awOf d = holding (s.awOf d) (tput set { p with beat := c.pos.beat } (s.awOf d).sets) :=
  awOf_setAw (s := setCmd s (qKey (s.wOf d) q) i { c with begun := true }) rising d _

/-! ### Wake-up -/

theorem exec_panesReady {set : Fin 16} (rising : risingFrom 0 s.queue = true) (held : tfind (s.awOf d).sets set = some p)
    (asleep : p.ready = false) (pset : (liveCmds s (s.wOf d) 4).find?
      (fun e => e.2.2.begun && (psetOf e.2.2.op).map (·.1) == some set.val) = some (q, i, c))
    (here : (s.qOf (qKey (s.wOf d) q)).cmds[i]? = some c) :
    exec (.panesReady d set) s = .next ((s.setAw d (holding (s.awOf d) (tput set { p with ready := true } (s.awOf d).sets))).setQ
      (qKey (s.wOf d) q) (finished (s.qOf (qKey (s.wOf d) q)) i c [] 0)) := by
  have finish := finishCmd_finished (s := s.setAw d (holding (s.awOf d) (tput set { p with ready := true } (s.awOf d).sets)))
    rising here [] 0
  show execPanesReady d set s = _
  rw [execPanesReady, held, pset]
  exact (if_pos asleep).trans (congrArg Host.Outcome.next finish)

/-! ### Release (R245, R259) -/

/-- A pane below 10,000 programs is not worn. -/
theorem wornStep_low (low : ∀ l, tget 0 (s.awOf d).counts l < 10000) (l : Nat) : wornStep d s l = s :=
  if_neg fun worn => absurd worn.1 (Nat.not_le.2 (low _))

theorem wornSteps_low (low : ∀ l, tget 0 (s.awOf d).counts l < 10000) (ls : List Nat) : ls.foldl (wornStep d) s = s :=
  List.foldl_fixed' (wornStep_low low) ls

theorem exec_prelRelease {queue : Fin 4} (rising : risingFrom 0 s.queue = true) (dies : risingFrom 0 s.aw = true)
    (prel : (liveCmds s (s.wOf d) 4).find? (fun e => e.1 == queue.val && (prelSet e.2.2.op).isSome) = some (q, i, c))
    (here : (s.qOf (qKey (s.wOf d) q)).cmds[i]? = some c) (named : prelSet c.op = some set)
    (clear : (liveCmds s (s.wOf d) 4).all (fun e => decide (c.pos.beat ≤ e.2.2.pos.beat) || (mvmSet e.2.2.op != some set
      && (psetOf e.2.2.op).map (·.1) != some set)) = true)
    (low : ∀ l, tget 0 (s.awOf d).counts l < 10000) :
    exec (.prelRelease d queue) s = .next ((s.setAw d (holding (s.awOf d) (tdel set (s.awOf d).sets))).setQ
      (qKey (s.wOf d) q) (finished (s.qOf (qKey (s.wOf d) q)) i c [] 0)) := by
  have still : ∀ u : Queue, ∀ l, tget 0
      (((s.setAw d (holding (s.awOf d) (tdel set (s.awOf d).sets))).setQ (qKey (s.wOf d) q) u).awOf d).counts l < 10000 := by
    intro u l
    rw [awOf_setQ, awOf_setAw dies]
    exact low l
  have finish := finishCmd_finished (s := s.setAw d (holding (s.awOf d) (tdel set (s.awOf d).sets))) rising here [] 0
  show execPrelRelease d queue s = _
  rw [execPrelRelease, prel]
  dsimp only
  rw [named, Option.getD_some, act, if_pos clear]
  refine congrArg Host.Outcome.next ((congrArg (List.foldl (wornStep d) · _) finish).trans (wornSteps_low (still _) _))

/-! ### Retirement (R244, R245) -/

/-- What an MVM in progress has of results. -/
def runOf (a : AwDieSt) (j : MvmJob) : MvmRun := tget {} a.runs j.beat

/-- The die once the MVM of job `j` has left. -/
def mvmGone (a : AwDieSt) (j : MvmJob) : AwDieSt :=
  { a with runs := tdel j.beat a.runs, inputUsed := a.inputUsed - 513 * j.nv * j.pset.nr }

theorem exec_mvmRetire {queue : Fin 4} {j : MvmJob} (rising : risingFrom 0 s.queue = true)
    (next : (jobs s d).find? (fun j => j.queue == queue.val && (runOf (s.awOf d) j).outs.length == j.nv) = some j)
    (here : (s.qOf (qKey (s.wOf d) queue)).cmds[j.place]? = some c) :
    exec (.mvmRetire d queue) s = .next ((s.setAw d (mvmGone (s.awOf d) j)).setQ (qKey (s.wOf d) queue)
      (finished (s.qOf (qKey (s.wOf d) queue)) j.place c ((runOf (s.awOf d) j).outs.flatMap (·.2))
        (runOf (s.awOf d) j).flags)) := by
  show execMvmRetire d queue s = _
  rw [execMvmRetire]
  show (match (jobs s d).find? (fun j => j.queue == queue.val && (runOf (s.awOf d) j).outs.length == j.nv) with
    | some j => _ | none => _) = _
  rw [next]
  exact congrArg Host.Outcome.next (finishCmd_finished (s := s.setAw d (mvmGone (s.awOf d) j)) rising here _ _)

/-! ### A fatal link (R248) -/

/-- The location of a die's link (R20). -/
def awLinkLoc (d : AwDie) : W64 := blockLoc (9 + d) 0x803

theorem exec_awLinkFatal {r : Run} (run : s.run = some r) :
    ∃ t r', exec (.awLinkFatal d) s = .next t ∧ t.unissued s = s ∧ t.run = some r' ∧ r'.stopped = true ∧
      (r.fault = none → r'.fault = some { loc := awLinkLoc d, code := 0x0205, stamp := s.chron.count }) ∧
      { r' with stopped := r.stopped, fault := r.fault } = r := by
  have logs : Logs s (raise s 0x0205 (awLinkLoc d)) := raise_logs ..
  have chron : (raise s 0x0205 (awLinkLoc d)).chron = s.chron := eq_of_logs State.chron (fun _ _ => rfl) logs
  refine ⟨_, _, rfl, ?_, congrArg (Option.map _) (logs.run.trans run), rfl, fun first => ?_, rfl⟩
  · exact (deviceFault_unissued ..).trans (unissued_of_unlogged s _ s logs)
  · show r.fault.or (some { loc := awLinkLoc d, code := 0x0205, stamp := (raise s 0x0205 (awLinkLoc d)).chron.count }) = _
    rw [first, chron]
    rfl

/-! ### A step that ends early (R249) -/

/-- What a die holds for the MVMs of a step. -/
def stepWork (a : AwDieSt) : Tbl PaneSet × Tbl MvmRun × Tbl (List ColPlane) × Tbl (List ColPlane) × Nat :=
  (a.sets, a.runs, a.resolve, a.spill, a.inputUsed)

/-- A die that holds nothing. -/
def emptied (a : AwDieSt) : AwDieSt := { a with sets := [], runs := [], resolve := [], spill := [], inputUsed := 0 }

/-- Classing a pane LASTING writes only its die, and nothing of what it holds for a step. -/
theorem setLasting_keeps_work {d : Nat} (h : DieIs d s a t) (g pos : Nat) :
    ∃ x, DieIs d s x (setLasting t d g pos) ∧ stepWork x = stepWork a := by
  obtain rfl := h.die
  unfold setLasting
  dsimp only
  split
  · exact ⟨_, h.setAw _, rfl⟩
  · split
    · split
      · exact ⟨_, h.setAw _, rfl⟩
      · exact ⟨_, (h.setAw _).logs (raise_logs ..), rfl⟩
    · exact ⟨_, h.setAw _, rfl⟩

theorem wornSteps_keep_work {d : Nat} (h : DieIs d s a t) (ls : List Nat) :
    ∃ x, DieIs d s x (ls.foldl (wornStep d) t) ∧ stepWork x = stepWork a := by
  induction ls generalizing a t with
  | nil => exact ⟨a, h, rfl⟩
  | cons l ls ih =>
    obtain ⟨x, step, same⟩ : ∃ x, DieIs d s x (wornStep d t l) ∧ stepWork x = stepWork a := by
      unfold wornStep
      dsimp only
      split
      · exact setLasting_keeps_work (h.logs (raise_logs ..)) _ _
      · exact ⟨a, h, rfl⟩
    obtain ⟨y, rest, same'⟩ := ih step
    exact ⟨y, rest, same'.trans same⟩

theorem releaseSets_dieIs (rising : risingFrom 0 s.aw = true) (d : Nat) :
    ∃ x, DieIs d s x (releaseSets d s) ∧ stepWork x = stepWork (emptied (s.awOf d)) :=
  wornSteps_keep_work ((DieIs.refl rising d).setAw (emptied (s.awOf d))) _

theorem releaseSets_low (rising : risingFrom 0 s.aw = true) (low : ∀ k, tget 0 (s.awOf d).counts k < 10000) :
    releaseSets d s = s.setAw d (emptied (s.awOf d)) := by
  have die := awOf_setAw rising d (emptied (s.awOf d))
  refine wornSteps_low (fun l => ?_) _
  show tget 0 ((s.setAw d (emptied (s.awOf d))).awOf d).counts l < 10000
  rw [die]
  exact low l

/-- Cancelling commands writes only their queues. -/
theorem cancelQs_queue (t : State) (v n : Nat) :
    ∃ m, (List.range n).foldl (fun s q => cancelQ s (qKey v q)) t = { t with queue := m } :=
  List.foldlRecOn (motive := fun u : State => ∃ m, u = { t with queue := m }) _ _ ⟨_, rfl⟩
    (by rintro _ ⟨m, rfl⟩ q -; exact ⟨_, rfl⟩)

theorem exec_awStepCancel (rising : risingFrom 0 s.aw = true) (ends : s.cancelling = true) :
    ∃ t, exec (.awStepCancel d) s = .next t ∧ { t.unlogged s with queue := s.queue, aw := s.aw } = s ∧
      stepWork (t.awOf d) = stepWork (emptied (s.awOf d)) ∧
      ((∀ k, tget 0 (s.awOf d).counts k < 10000) → t.awOf d = emptied (s.awOf d)) ∧
      ∀ e, e ≠ d.val → t.awOf e = s.awOf e := by
  obtain ⟨x, ⟨frame, -, die, others⟩, work⟩ := releaseSets_dieIs rising d
  obtain ⟨m, cancelled⟩ := cancelQs_queue (releaseSets d s) (s.wOf d) 4
  refine ⟨_, if_pos ends, ?_⟩
  rw [cancelled]
  refine ⟨?_, die ▸ work, fun low => ?_, others⟩
  · exact congrArg (fun w : State => { w with queue := s.queue }) frame
  · show (releaseSets d s).awOf d = _
    rw [releaseSets_low rising low, awOf_setAw rising]

/-- Settles O18: each command is its effect on its die and its queue; outside every window the estimate rounds as the exact sum. -/
theorem analogCommands : Obligations.AnalogCommands := by
  refine ⟨fun s d queues dies => ⟨?_, ?_, ?_⟩, fun s d dies => ⟨?_, ?_, ?_, ?_⟩, ?_⟩
  · intro q i c set p next ready free room still
    refine ⟨_, exec_psetAdmit next ready free room still, ?_, ?_⟩
    · exact admitted_frame ..
    · rw [awOf_admitted dies]
      exact ⟨rfl, tfind_tput .., (active_tput free _).trans_le room, rfl⟩
  · intro set p q i c held asleep pset here
    refine ⟨_, exec_panesReady queues held asleep pset here, ?_, ?_⟩
    · exact setAw_setQ_frame ..
    · rw [awOf_setQ, awOf_setAw dies]
      exact ⟨rfl, tfind_tput .., rfl⟩
  · intro queue q i set c prel here named sets clear low
    refine ⟨_, exec_prelRelease queues dies prel here named clear low, ?_, ?_⟩
    · exact setAw_setQ_frame ..
    · rw [awOf_setQ, awOf_setAw dies]
      exact ⟨rfl, tfind_tdel sets, rfl⟩
  · intro ests audits upsets ready sets
    exact exec_passTick dies ests audits upsets ready sets
  · intro queue j c queues runs
    dsimp only
    intro next here
    refine ⟨_, exec_mvmRetire queues next here, ?_, ?_⟩
    · exact setAw_setQ_frame ..
    · rw [awOf_setQ, awOf_setAw dies]
      exact ⟨rfl, tfind_tdel runs, rfl, rfl⟩
  · intro r run
    exact exec_awLinkFatal run
  · intro ends
    obtain ⟨t, e, frame, work, low, others⟩ := exec_awStepCancel (d := d) dies ends
    simp only [stepWork, emptied, Prod.mk.injEq] at work
    obtain ⟨sets, runs, resolve, spill, input⟩ := work
    exact ⟨t, e, frame, sets, runs, resolve, spill, input, low, others⟩
  · intro est sum g gw fine out low high
    exact converter_eq_grainOf fine out low high

end Sys2Proof.Proofs
end

section
/-!
An MVM on a set that has no rows of panes (O17; R103, R243).
-/

namespace Sys2Proof.Proofs

open Sys2Proof.Machine

/-- A pane set of one column of panes and no rows. -/
def rowlessSet : PaneSet := { first := 0, nr := 0, nc := 1, rstr := 1, cstr := 1, grain := 3 }

/-- Movement 0, a W movement, is at plan beat 1 of a step whose plan gives its queue 0 a place and 4 KiB, and its die holds
`rowlessSet` as SET 0. -/
def rowlessHeld : State :=
  { State.reset with
    run := some { bareRun (List.range 64) 0 with plan := { queues := [(0, 1, 4096)] } }
    mv := [(0, { beats := 1 })], aw := [(0, { sets := [(0, rowlessSet)] })] }

/-- A set without rows of panes has no segment of input: an MVM on it reads nothing (R243). -/
theorem mvmRows_rowless (inp scale nv b : Nat) : mvmRows inp scale nv 0 b = [] := by
  simp [mvmRows]

theorem mvm_on_rowless_leaves_nothing :
    (after (exec (.mvm 0 (.lit 0) (.lit 4096) 0 0 0 false 0 0 0) rowlessHeld) rowlessHeld).flights = [] := by
  decide +kernel

/-- Refutes O17: the clause on MVM lets the set be any that its die holds, with any number of rows of panes, and has the issue
leave the reading of the inputs for its beats. On a set without rows (`rowlessHeld`) there is no input to read, the command is
issued with its data, and no work is left. A PSET names 1 to 64 rows (R239), so that no set a die has admitted is one. -/
theorem not_mvmHwriteAndBridle : ¬ Obligations.MvmHwriteAndBridle := by
  rintro ⟨issue, -⟩
  obtain ⟨mvm, -⟩ := issue rowlessHeld 0 (by decide +kernel) (by decide +kernel)
  have reaches : rowlessHeld.inExtents (0 : VMove) (reads (mvmRows ((rowlessHeld.seqOf (0 : VMove)).addr (.lit 0))
      ((rowlessHeld.seqOf (0 : VMove)).addr (.lit 4096)) ((0 : BitVec 6).toNat + 1) rowlessSet.nr 1)) := by
    rw [show rowlessSet.nr = 0 from rfl, mvmRows_rowless]
    rintro r - a none
    cases none
  obtain ⟨t, e, -, flights, -⟩ := mvm (.lit 0) (.lit 4096) 0 0 0 false 0 0 0 rowlessSet (by decide +kernel) (by decide +kernel)
    (by decide +kernel) (by decide +kernel) (by decide +kernel) reaches
  have idle := mvm_on_rowless_leaves_nothing
  rw [e] at idle
  exact List.append_ne_nil_of_right_ne_nil _ (List.cons_ne_nil _ _) (flights.symm.trans idle)

end Sys2Proof.Proofs
end

section
/-!
Maintenance passes, the trim record, and group refresh (O19; R247, R257, R259, R262, R263, R265, R266).
-/

namespace Sys2Proof.Proofs

open Sys2Proof.Machine Sys2Proof.Laws

variable {s t : State} {d : Nat} {a : AwDieSt} {g pos : Nat} {m : MaintReading} {r : GroupTrim}

/-- A die with one program more of the pane `k` counted. -/
def programmedOnce (a : AwDieSt) (k : Nat) : AwDieSt := { a with counts := tput k (tget 0 a.counts k + 1) a.counts }

theorem countProgram_dieIs (h : DieIs d s a t) (g pos : Nat) :
    DieIs d s (programmedOnce a (68 * g + pos)) (countProgram t d g pos) := by
  obtain rfl := h.die
  unfold countProgram
  dsimp only
  split
  · exact (h.setAw _).logs (raise_logs ..)
  · exact h.setAw _

/-! ### A maintenance pass (R247, R262, R263) -/

/-- When a group makes a maintenance pass: while CALIBRATING, in phase 4 of an installation, and once at its tick while READY. -/
def MaintenanceDue (a : AwDieSt) (g : Nat) : Prop :=
  a.state = 2 ∨ (a.state = 4 ∧ a.phase = 4) ∨ (a.state = 3 ∧ a.tick % 50 = g % 50 ∧ (tget {} a.trim g).passed ≠ some a.tick)

/-- The group's record once the pass is noted. -/
def noted (a : AwDieSt) (g : Nat) : GroupTrim :=
  { tget {} a.trim g with passed := if a.state = 3 then some a.tick else none }

/-- The group's record with the readings of the pass. -/
def measured (a : AwDieSt) (g : Nat) (m : MaintReading) : GroupTrim :=
  let t := noted a g
  if t.slot < 8 then t.reference (t.slot + 1) m
  else if a.testing (68 * g + (t.slot - 8)) then t
  else t.check a g (t.slot - 8) m

theorem measured_reference (early : (tget {} a.trim g).slot < 8) :
    measured a g m = (noted a g).reference ((tget {} a.trim g).slot + 1) m := if_pos early

theorem measured_skipped (late : 8 ≤ (tget {} a.trim g).slot)
    (testing : a.testing (68 * g + ((tget {} a.trim g).slot - 8)) = true) : measured a g m = noted a g :=
  (if_neg (Nat.not_lt.2 late)).trans (if_pos testing)

theorem measured_check (late : 8 ≤ (tget {} a.trim g).slot)
    (idle : a.testing (68 * g + ((tget {} a.trim g).slot - 8)) = false) :
    measured a g m = (noted a g).check a g ((tget {} a.trim g).slot - 8) m :=
  (if_neg (Nat.not_lt.2 late)).trans (if_neg (Bool.eq_false_iff.1 idle))

/-- The record in force, and the note of the pass. -/
def inForce (r : GroupTrim) : Option Nat × List Nat × List Nat × List Int × Tbl (Int × Int) × Tbl Nat × Tbl (List Nat) :=
  (r.passed, r.gw, r.drift, r.curve, r.gain, r.err, r.rate)

/-- The readings of a pass leave the record in force. -/
theorem measured_inForce (a : AwDieSt) (g : Nat) (m : MaintReading) : inForce (measured a g m) = inForce (noted a g) := by
  unfold measured
  dsimp only
  split
  · rfl
  · split <;> rfl

theorem measured_passed (ready : a.state = 3) : (measured a g m).passed = some a.tick := by
  have passed := congrArg Prod.fst (measured_inForce a g m)
  exact passed.trans (if_pos ready)

/-- Pane checks leave the cycle's reference readings. -/
theorem measured_references (late : 8 ≤ (tget {} a.trim g).slot) :
    (measured a g m).newDrift = (tget {} a.trim g).newDrift ∧ (measured a g m).newCurve = (tget {} a.trim g).newCurve := by
  cases testing : a.testing (68 * g + ((tget {} a.trim g).slot - 8)) with
  | true => rw [measured_skipped late testing]; exact ⟨rfl, rfl⟩
  | false => rw [measured_check late testing]; exact ⟨rfl, rfl⟩

/-- A die whose group has the record `r`. -/
def withTrim (a : AwDieSt) (g : Nat) (r : GroupTrim) : AwDieSt := { a with trim := tput g r a.trim }

/-- The record once a pass before the last slot is made. -/
def advanced (a : AwDieSt) (g : Nat) (m : MaintReading) : GroupTrim :=
  { measured a g m with slot := (tget {} a.trim g).slot + 1 }

theorem maintenanceEff_next (early : (tget {} (s.awOf d).trim g).slot < 75) :
    maintenanceEff d g m s = s.setAw d (withTrim (s.awOf d) g (advanced (s.awOf d) g m)) := if_pos early

theorem maintenanceEff_last (last : 75 ≤ (tget {} (s.awOf d).trim g).slot) :
    maintenanceEff d g m s = trimUpdate s d g (measured (s.awOf d) g m) := if_neg (Nat.not_lt.2 last)

/-! ### The end of a cycle (R263, R265) -/

/-- Records and start-up calibration of a die. -/
def calibration (a : AwDieSt) : Tbl GroupTrim × List Nat := (a.trim, a.toCalibrate)

theorem calibration_uncovered (a : AwDieSt) (k : Nat) : calibration (uncovered a k) = calibration a := by
  unfold uncovered requestTest
  split
  · rfl
  · split <;> rfl

/-- The end of a cycle leaves the completed record, with a GW for every grain, and the group calibrated. -/
theorem trimUpdate_dieIs (h : DieIs d s a t) (g : Nat) (r : GroupTrim) :
    ∃ gw x, gw.length = 4 ∧ DieIs d s x (trimUpdate t d g r) ∧
      calibration x = (tput g (r.completed gw) a.trim, a.toCalibrate.filter (· != g)) := by
  obtain rfl := h.die
  unfold trimUpdate
  extract_lets a tb serving errs worst gw r' a' a'' s'
  have four : gw.length = 4 := by rw [List.length_map, List.length_range]
  have kept : calibration a'' = calibration a' :=
    List.foldlRecOn (motive := fun x => calibration x = calibration a') _ _ rfl
      fun x same e _ => (calibration_uncovered x _).trans same
  refine ⟨gw, ?_⟩
  split
  · exact ⟨_, four, ((h.setAw _).setAw _).logs (raise_logs ..), kept⟩
  · exact ⟨_, four, h.setAw _, kept⟩

/-! ### Refresh (R259, R266) -/

theorem nextServing_cleaned (a : AwDieSt) (k p : Nat) :
    nextServing (cleanCells (programmedOnce a k) k) g p = nextServing a g p := rfl

/-- A pane reprogrammed by a refresh: its program is counted, its cells hold their levels, and the next pane follows. -/
theorem refreshEff_dieIs (h : DieIs d s a t) (g pos : Nat) :
    ∃ x, DieIs d s x (refreshEff d g pos false t) ∧ x.counts = (programmedOnce a (68 * g + pos)).counts ∧
      x.cells = a.cells.filter (fun e => e.1 / 262144 != 68 * g + pos) ∧
      ∀ p, nextServing a g (pos + 1) = some p → tfind x.refresh g = some (pos + 1) := by
  have counted := countProgram_dieIs h g pos
  unfold refreshEff
  dsimp only
  rw [counted.die, if_neg Bool.false_ne_true]
  split
  · exact ⟨_, counted.setAw _, rfl, rfl, fun _ _ => tfind_tput ..⟩
  · next none =>
    rw [nextServing_cleaned] at none
    exact ⟨_, counted.setAw _, rfl, rfl, fun p next => nomatch none.symm.trans next⟩

/-! ### The commands -/

section

variable {d : AwDie} {g : Fin 2048}

theorem exec_maintenancePass_next (rising : risingFrom 0 s.aw = true) (m : MaintReading)
    (due : MaintenanceDue (s.awOf d) g)
    (early : (tget {} (s.awOf d).trim g).slot < 75) :
    ∃ t, exec (.maintenancePass d g m) s = .next t ∧ DieIs d s (withTrim (s.awOf d) g (advanced (s.awOf d) g m)) t :=
  ⟨_, (if_pos due).trans (congrArg Host.Outcome.next (maintenanceEff_next early)), (DieIs.refl rising d).setAw _⟩

theorem exec_maintenancePass_last (rising : risingFrom 0 s.aw = true) (m : MaintReading)
    (due : MaintenanceDue (s.awOf d) g)
    (last : 75 ≤ (tget {} (s.awOf d).trim g).slot) :
    ∃ t gw x, exec (.maintenancePass d g m) s = .next t ∧ gw.length = 4 ∧ DieIs d s x t ∧
      calibration x = (tput g.val ((measured (s.awOf d) g m).completed gw) (s.awOf d).trim,
        (s.awOf d).toCalibrate.filter (· != g.val)) := by
  obtain ⟨gw, x, four, die, calibrated⟩ := trimUpdate_dieIs (DieIs.refl rising d) g (measured (s.awOf d) g m)
  exact ⟨_, gw, x, (if_pos due).trans (congrArg Host.Outcome.next (maintenanceEff_last last)), four, die, calibrated⟩

/-- A group makes one pass a tick while READY (R247). -/
theorem exec_maintenancePass_again {m : MaintReading} (ready : (s.awOf d).state = 3)
    (made : (tget {} (s.awOf d).trim g).passed = some (s.awOf d).tick) : exec (.maintenancePass d g m) s = .next s := by
  refine if_neg ?_
  rintro (calibrating | ⟨installing, -⟩ | ⟨-, -, first⟩)
  · omega
  · omega
  · exact first made

theorem exec_groupRefresh {pos : Fin 68} {p : Nat} (rising : risingFrom 0 s.aw = true)
    (refreshing : tfind (s.awOf d).refresh g = some p) (runs : (s.awOf d).state = 2 ∨ (s.awOf d).state = 3)
    (next : nextServing (s.awOf d) g p = some pos.val) (free : (s.awOf d).inSet g pos = false) :
    ∃ t x, exec (.groupRefresh d g pos false) s = .next t ∧ DieIs d s x t ∧
      x.counts = (programmedOnce (s.awOf d) (68 * g.val + pos.val)).counts ∧
      x.cells = (s.awOf d).cells.filter (fun e => e.1 / 262144 != 68 * g.val + pos.val) ∧
      ∀ p', nextServing (s.awOf d) g (pos.val + 1) = some p' → tfind x.refresh g = some (pos.val + 1) := by
  obtain ⟨x, die, facts⟩ := refreshEff_dieIs (DieIs.refl rising d) g pos
  refine ⟨_, x, ?_, die, facts⟩
  show execGroupRefresh d g pos false s = _
  rw [execGroupRefresh, refreshing]
  exact if_pos ⟨runs, next, free⟩

end

end Sys2Proof.Proofs
end

section
/-!
Self-tests, and the retirement of panes to spares (O19; R268, R269, R271 to R274).
-/

namespace Sys2Proof.Proofs

open Sys2Proof.Machine Sys2Proof.Laws

variable {s t : State} {d : Nat} {a : AwDieSt} {g pos : Nat} {x : SelfTest}

theorem setAw_frame (s : State) (d : Nat) (x : AwDieSt) : { s.setAw d x with aw := s.aw } = s := by
  dsimp only [State.setAw]

/-! ### A self-test without a finding (R269) -/

/-- A pane that was clean in both reads and matches is TRANSIENT, with no other such result in a day and a limit above one. -/
theorem classify_transient {ok : Bool} (clean : x.cell = none) (sound : tget 0 (s.awOf d).counts (68 * g + pos) < 10000)
    (first : tget [] (s.awOf d).transients (68 * g + pos) = []) (limit : 2 ≤ (s.trimOf d).transientLimit) :
    classify s d g pos x false ok = testTransient := by
  have few : ¬ (x.causes ≠ testRehearsal ∧ (s.trimOf d).transientLimit ≤ 0 + 1) := fun many => by omega
  unfold classify
  dsimp only
  rw [if_neg (Nat.not_le.2 sound), clean, first]
  exact if_neg few

/-- A die with the pane `k` back in service, and a TRANSIENT result of it at `now`. -/
def transientAt (a : AwDieSt) (k now : Nat) : AwDieSt :=
  { returnPane a k with
    transients := tput k ((tget [] a.transients k).filter (fun x => decide (now < x + dayNs)) ++ [now]) a.transients }

/-- A state without the identifier of a pane's rehearsal (R487). -/
def unrehearsed (s : State) (d k : Nat) : State :=
  { s with grid := { s.grid with rehearsing := tdel (rehPane d k) s.grid.rehearsing } }

/-- The end of a TRANSIENT self-test: its event, and the pane returned. -/
theorem selftestDoneEff_transient {ok : Bool} (clean : x.cell = none) (asked : x.causes < 16)
    (result : classify s d g pos x false ok = testTransient) :
    ∃ u, Logs s u ∧ selftestDoneEff d g pos x false ok s
      = (unrehearsed u d (68 * g + pos)).setAw d (transientAt (u.awOf d) (68 * g + pos) u.ns) := by
  unfold selftestDoneEff
  extract_lets k s' res causes loc reh u u' a
  have intact : s' = s := if_neg (by rw [clean]; exact Bool.false_ne_true)
  have transient : res = testTransient := by
    show classify s' d g pos x false ok = testTransient
    rw [intact, result]
  have real : ¬ (res = testTransient ∧ x.causes = testRehearsal) := fun rehearsed => by
    have causes : x.causes = 16 := rehearsed.2
    omega
  have logs : Logs s' u := raise_logs ..
  rw [intact] at logs
  rw [if_neg real, if_pos transient]
  clear_value u
  exact ⟨u, logs, rfl⟩

/-! ### Retirement (R271, R274) -/

/-- What a group's degradation leaves of its die. -/
def mapping (a : AwDieSt) : Tbl Nat × Tbl Nat × List Nat := (a.map, a.counts, a.retired)

theorem mem_resolveAll_resolving {k l : Nat} (h : k ∈ (a.resolving l).resolveAll) : k = l ∨ k ∈ a.resolveAll := by
  unfold AwDieSt.resolving at h
  dsimp only at h
  split at h
  · exact .inr h
  · rw [List.mem_append, List.mem_singleton] at h
    exact h.symm

/-- Panes stuck without a spare are put into resolve-all mode, and no others. -/
theorem sticks_keep (a : AwDieSt) (g : Nat) (ks : List Nat) :
    mapping (ks.foldl (fun a k => a.stick g k) a) = mapping a ∧
      ∀ k ∈ (ks.foldl (fun a k => a.stick g k) a).resolveAll, k ∈ ks ∨ k ∈ a.resolveAll := by
  induction ks generalizing a with
  | nil => exact ⟨rfl, fun _ => .inr⟩
  | cons l ks ih =>
    obtain ⟨same, only⟩ := ih (a.stick g l)
    refine ⟨same.trans rfl, fun k mem => ?_⟩
    rcases only k mem with later | before
    · exact .inl (List.mem_cons_of_mem _ later)
    · have one : k ∈ (a.resolving l).resolveAll := before
      rcases mem_resolveAll_resolving one with rfl | mem
      · exact .inl List.mem_cons_self
      · exact .inr mem

theorem degradeRest_dieIs (h : DieIs d s a t) (g : Nat) :
    ∃ x, DieIs d s x (degradeRest t d g) ∧ mapping x = mapping a ∧ ∀ k ∈ x.resolveAll, k ∈ a.lasting ∨ k ∈ a.resolveAll := by
  obtain rfl := h.die
  unfold degradeRest
  dsimp only
  split
  · obtain ⟨same, only⟩ := sticks_keep (t.awOf d) g ((t.awOf d).lasting.filter (fun k => k / 68 == g))
    exact ⟨_, (h.setAw _).logs (raise_logs ..), same, fun k mem => (only k mem).imp_left List.mem_of_mem_filter⟩
  · exact ⟨_, h, rfl, fun _ => .inr⟩

/-- A die whose pane `k` is retired, the logical pane `l` moved to `spare`. -/
def switchedTo (a : AwDieSt) (k l spare : Nat) : AwDieSt :=
  { a with
    map := tset (l % 64) a.map l spare, retired := if a.retired.contains k then a.retired else a.retired ++ [k]
    lasting := a.lasting.filter (· != k), resolveAll := a.resolveAll.filter (· != k), stuck := a.stuck.filter (· != k)
    tests := tdel k a.tests, failed := a.failed.filter (· != k) }

theorem mem_retired_switchedTo (a : AwDieSt) (k l spare : Nat) : k ∈ (switchedTo a k l spare).retired := by
  unfold switchedTo
  dsimp only
  split
  · next retired => exact List.contains_iff_mem.1 retired
  · exact List.mem_append_right _ List.mem_cons_self

/-- The other logical panes stay in their places. -/
theorem posOf_switchedTo_ne {k l l' spare : Nat} (ne : l' ≠ l) : (switchedTo a k l spare).posOf l' = a.posOf l' := by
  show tget (l' % 64) (tset (l % 64) a.map l spare) l' = _
  rw [tset]
  split
  · exact tget_tdel_ne _ _ _ _ ne
  · exact tget_tput_ne _ _ _ _ _ ne

theorem not_mem_filter_ne (k : Nat) (l : List Nat) : k ∉ l.filter (· != k) := by simp

/-- The switch to a spare that passes. -/
theorem paneMapSwitchEff_dieIs (h : DieIs d s a t) (g pos l spare : Nat) :
    ∃ x, DieIs d s x (paneMapSwitchEff d g pos l spare .passed t) ∧ 68 * g + pos ∉ x.resolveAll ∧
      mapping x = mapping (switchedTo (programmedOnce a (68 * g + spare)) (68 * g + pos) l spare) := by
  have counted := countProgram_dieIs h g spare
  unfold paneMapSwitchEff
  dsimp only
  rw [counted.die, if_pos rfl]
  have switched := (counted.setAw (switchedTo (programmedOnce a (68 * g + spare)) (68 * g + pos) l spare)).logs
    (raise_logs _ 0x0207 (paneLoc d g pos) [] none 0x1FF 0)
  obtain ⟨x, die, same, only⟩ := degradeRest_dieIs switched g
  refine ⟨x, die, fun mem => ?_, same⟩
  rcases only _ mem with waits | resolves
  · exact not_mem_filter_ne _ _ waits
  · exact not_mem_filter_ne _ _ resolves

/-! ### The commands -/

/-- A die in which the self-test of pane `k` stands at `y`. -/
def withTest (a : AwDieSt) (k : Nat) (y : SelfTest) : AwDieSt := { a with tests := tput k y a.tests }

section

variable {d : AwDie} {g : Fin 2048} {pos : Fin 68}

/-- A self-test with the findings of a read. -/
theorem exec_selftestStart {cells : List CellRead} (test : tfind (s.awOf d).tests (68 * g.val + pos.val) = some x)
    (on : (s.awOf d).upkeep = true) (asked : x.phase = 0) (free : (s.awOf d).inSet g pos = false) :
    exec (.selftestStart d g pos cells) s = .next (s.setAw d (withTest (s.awOf d) (68 * g.val + pos.val)
      { x.read (badCells s (s.awOf d) g pos cells) with phase := 1, readAt := s.ns })) := by
  show execSelftestStart d g pos cells s = _
  rw [execSelftestStart, test]
  exact if_pos ⟨on, asked, free⟩

theorem exec_selftestSettle {cells : List CellRead} (test : tfind (s.awOf d).tests (68 * g.val + pos.val) = some x)
    (on : (s.awOf d).upkeep = true) (read : x.phase = 1) (settled : x.readAt + (s.trimOf d).settleMs * 1000000 ≤ s.ns) :
    exec (.selftestSettle d g pos cells) s = .next (s.setAw d (withTest (s.awOf d) (68 * g.val + pos.val)
      { x.read (badCells s (s.awOf d) g pos cells) with phase := 2 })) := by
  show execSelftestSettle d g pos cells s = _
  rw [execSelftestSettle, test]
  exact if_pos ⟨on, read, settled⟩

theorem exec_selftestDone {ok : Bool} (rising : risingFrom 0 s.aw = true)
    (test : tfind (s.awOf d).tests (68 * g.val + pos.val) = some x)
    (on : (s.awOf d).upkeep = true) (read : x.phase = 2) (clean : x.cell = none) (asked : x.causes < 16)
    (sound : tget 0 (s.awOf d).counts (68 * g.val + pos.val) < 10000)
    (first : tget [] (s.awOf d).transients (68 * g.val + pos.val) = []) (limit : 2 ≤ (s.trimOf d).transientLimit) :
    ∃ t, exec (.selftestDone d g pos false ok) s = .next t ∧ { t.unlogged s with aw := s.aw, grid := s.grid } = s ∧
      t.awOf d = transientAt (s.awOf d) (68 * g.val + pos.val) s.ns := by
  obtain ⟨u, logs, eff⟩ := selftestDoneEff_transient clean asked (classify_transient (ok := ok) clean sound first limit)
  have done : exec (.selftestDone d g pos false ok) s
      = .next ((unrehearsed u d (68 * g.val + pos.val)).setAw d (transientAt (u.awOf d) (68 * g.val + pos.val) u.ns)) := by
    show execSelftestDone d g pos false ok s = _
    rw [execSelftestDone, test]
    exact (if_pos ⟨on, read⟩).trans (congrArg Host.Outcome.next eff)
  refine ⟨_, done, ?_, ?_⟩
  · have frame := congrArg (fun w : State => { w with aw := s.aw, grid := s.grid }) logs
    dsimp only [State.unlogged, State.setAw, unrehearsed] at frame ⊢
    exact frame
  · have dies : risingFrom 0 (unrehearsed u d (68 * g.val + pos.val)).aw = true := by
      show risingFrom 0 u.aw = true
      rw [aw_of_logs logs, rising]
    have now : u.ns = s.ns := eq_of_logs State.ns (fun _ _ => rfl) logs
    rw [awOf_setAw dies, awOf_of_logs logs, now]

theorem exec_paneMapSwitch {l spare : Nat} (rising : risingFrom 0 s.aw = true)
    (on : (s.awOf d).upkeep = true ∨ ((s.awOf d).state = 4 ∧ (s.awOf d).phase = 5))
    (held : (s.awOf d).logicalOf g pos = some l) (lowest : ((s.awOf d).freeSpares g).head? = some spare)
    (waits : 68 * g.val + pos.val ∈ (s.awOf d).lasting) (free : (s.awOf d).inSet g pos = false)
    (first : ((s.awOf d).lasting.any fun k => k / 68 == g.val && decide (k % 68 < pos.val)) = false) :
    ∃ t x, exec (.paneMapSwitch d g pos .passed) s = .next t ∧ DieIs d s x t ∧ 68 * g.val + pos.val ∉ x.resolveAll ∧
      mapping x = mapping (switchedTo (programmedOnce (s.awOf d) (68 * g.val + spare)) (68 * g.val + pos.val) l spare) := by
  obtain ⟨x, die, facts⟩ := paneMapSwitchEff_dieIs (DieIs.refl rising d) g pos l spare
  refine ⟨_, x, ?_, die, facts⟩
  show execPaneMapSwitch d g pos .passed s = _
  rw [execPaneMapSwitch, held, lowest]
  exact if_pos ⟨on, List.contains_iff_mem.2 waits, free, first⟩

end

end Sys2Proof.Proofs
end

section
/-!
The shadow scrub, write-verify and the end of INIT (O19; R224, R251, R256, R257, R275, R277, R278).
-/

namespace Sys2Proof.Proofs

open Sys2Proof.Machine Sys2Proof.Laws

variable {s t : State} {d : Nat} {a : AwDieSt} {l row word k : Nat} {us : List ShadowUpset}

/-! ### Upset shadow words (R224, R275) -/

/-- The key of a shadow word that an upset hits. -/
def upsetKey (u : ShadowUpset) : Nat := shadowKey u.pane.toNat u.row u.word

/-- A die with one shadow word failed. -/
def upsetDie (a : AwDieSt) (u : ShadowUpset) : AwDieSt :=
  if u.bad then { a with shadowBad := insertNat (upsetKey u) a.shadowBad }
  else { a with shadowWeak := insertNat (upsetKey u) a.shadowWeak }

theorem upsetShadow_dieIs (h : DieIs d s a t) (us : List ShadowUpset) : DieIs d s (us.foldl upsetDie a) (upsetShadow d us t) := by
  refine DieIs.foldl (fun u h => ?_) h us
  obtain rfl := h.die
  exact h.setAw _

theorem upsetDies_shadow (a : AwDieSt) (us : List ShadowUpset) : (us.foldl upsetDie a).shadow = a.shadow := by
  refine List.foldlRecOn (motive := fun x : AwDieSt => x.shadow = a.shadow) us _ rfl fun x same u _ => ?_
  unfold upsetDie
  split
  · exact same
  · exact same

/-- The words that are uncorrectable after some upsets: those that were, and those upset so. -/
theorem mem_upsetDies (h : k ∈ a.shadowBad ∨ ∃ u ∈ us, u.bad = true ∧ upsetKey u = k) : k ∈ (us.foldl upsetDie a).shadowBad := by
  induction us generalizing a with
  | nil => simpa using h
  | cons u us ih =>
    refine ih ?_
    rcases h with old | ⟨w, mem, bad, rfl⟩
    · refine .inl ?_
      unfold upsetDie
      split
      · exact mem_insertNat.2 (.inr old)
      · exact old
    · rcases List.mem_cons.1 mem with rfl | later
      · refine .inl ?_
        rw [upsetDie, if_pos bad]
        exact mem_insertNat.2 (.inl rfl)
      · exact .inr ⟨w, later, bad, rfl⟩

/-- Words are numbered within their logical pane (R224). -/
theorem shadowKey_pane (l : Nat) (row : Fin 512) (word : Fin 16) : shadowKey l row word / 8192 = l := by
  unfold shadowKey
  omega

/-! ### Lost panes (R275) -/

/-- A die that has lost the logical pane `l`. -/
def loseDie (a : AwDieSt) (l : Nat) : AwDieSt := if a.lost.contains l then a else { a with lost := a.lost ++ [l] }

theorem losePane_dieIs (h : DieIs d s a t) (l : Nat) : DieIs d s (loseDie a l) (losePane t d l) := by
  obtain rfl := h.die
  unfold losePane loseDie
  dsimp only
  split
  · exact h
  · exact (h.setAw _).logs (raise_logs ..)

theorem mem_loseDie (a : AwDieSt) (l : Nat) : l ∈ (loseDie a l).lost := by
  unfold loseDie
  split
  · next lost => exact List.contains_iff_mem.1 lost
  · exact List.mem_append_right _ List.mem_cons_self

theorem mem_loseDies {ls : List Nat} (h : l ∈ a.lost ∨ l ∈ ls) : l ∈ (ls.foldl loseDie a).lost := by
  induction ls generalizing a with
  | nil => simpa using h
  | cons j ls ih =>
    refine ih ?_
    rcases h with lost | mem
    · refine .inl ?_
      unfold loseDie
      split
      · exact lost
      · exact List.mem_append_left _ lost
    · rcases List.mem_cons.1 mem with rfl | later
      · exact .inl (mem_loseDie a l)
      · exact .inr later

/-! ### The scrub of a word (R275) -/

/-- A die with the word `k` of pane `l` scrubbed. -/
def scrubDie (a : AwDieSt) (l k : Nat) : AwDieSt :=
  if a.shadowBad.contains k then loseDie a l
  else if a.shadowWeak.contains k then { a with shadowWeak := a.shadowWeak.filter (· != k) } else a

theorem scrubShadow_dieIs (h : DieIs d s a t) (l row word : Nat) :
    DieIs d s (scrubDie a l (shadowKey l row word)) (scrubShadow d l row word t) := by
  obtain rfl := h.die
  unfold scrubShadow scrubDie
  dsimp only
  split
  · exact losePane_dieIs h l
  · split
    · exact (h.setAw _).logs (raise_logs ..)
    · exact h

theorem scrubDie_bad (bad : k ∈ a.shadowBad) : scrubDie a l k = loseDie a l := if_pos (List.contains_iff_mem.2 bad)

theorem scrubDie_weak (sound : k ∉ a.shadowBad) (weak : k ∈ a.shadowWeak) :
    scrubDie a l k = { a with shadowWeak := a.shadowWeak.filter (· != k) } :=
  (if_neg fun bad => sound (List.contains_iff_mem.1 bad)).trans (if_pos (List.contains_iff_mem.2 weak))

/-- The two lists of words that fail, and the words, are not written when a pane is lost. -/
theorem loseDie_words (a : AwDieSt) (l : Nat) :
    ((loseDie a l).shadow, (loseDie a l).shadowBad) = (a.shadow, a.shadowBad) := by
  unfold loseDie
  split <;> rfl

theorem scrubDie_shadow (a : AwDieSt) (l k : Nat) : (scrubDie a l k).shadow = a.shadow := by
  unfold scrubDie
  split
  · exact congrArg Prod.fst (loseDie_words a l)
  · split <;> rfl

/-! ### INIT (R251, R275, R278) -/

/-- A die after the full scrub: the panes of uncorrectable words are lost, and no word is weak any more. -/
def scrubbedDie (a : AwDieSt) : AwDieSt :=
  { ((a.shadowBad.map (· / 8192)).dedup).foldl loseDie a with shadowWeak := [] }

theorem scrubbedDie_of_sound (sound : a.shadowBad = []) : scrubbedDie a = { a with shadowWeak := [] } := by
  have none : (a.shadowBad.map (· / 8192)).dedup = [] := by rw [sound, List.map_nil, List.dedup_nil]
  rw [scrubbedDie, none, List.foldl_nil]

theorem scrubAll_dieIs (h : DieIs d s a t) : DieIs d s (scrubbedDie a) (scrubAll d t) := by
  obtain rfl := h.die
  unfold scrubAll
  extract_lets b u w v
  have lost : DieIs d s (((b.shadowBad.map (· / 8192)).dedup).foldl loseDie b) u :=
    DieIs.foldl (fun l h => losePane_dieIs h l) h _
  have told : DieIs d s (((b.shadowBad.map (· / 8192)).dedup).foldl loseDie b) w :=
    List.foldlRecOn _ _ lost fun _ h _ _ => h.logs (raise_logs ..)
  have die : v = ((b.shadowBad.map (· / 8192)).dedup).foldl loseDie b := told.die
  rw [die]
  exact told.setAw _

theorem bootReady_early (h : t.power.stage ≠ 5) : bootReady t = t := if_neg fun reached => h reached.1

/-- A die after INIT with sound records and trim table. -/
def initialised (a : AwDieSt) (trim : TrimTable) : AwDieSt :=
  let ok := a.committed && a.phase == 0
  { a with state := if ok then 2 else 5, toCalibrate := if ok then List.range 2048 else [], trimTab := some trim }

theorem awInitEff_passes (h : DieIs d s a t) (early : s.power.stage ≠ 5) (us : List ShadowUpset) :
    DieIs d s (initialised (scrubbedDie (us.foldl upsetDie a)) s.tbl.trim) (awInitEff d true true us t) := by
  have scrubbed := scrubAll_dieIs (upsetShadow_dieIs h us)
  have tables := scrubbed.field State.tbl fun _ => rfl
  have power := scrubbed.field State.power fun _ => rfl
  rw [awInitEff, Bool.and_self, if_pos rfl]
  dsimp only
  rw [scrubbed.die, tables, bootReady_early (by exact power ▸ early)]
  exact scrubbed.setAw _

theorem awInitEff_fails (h : DieIs d s a t) (early : s.power.stage ≠ 5) :
    DieIs d s { a with state := 6 } (awInitEff d false true [] t) := by
  obtain rfl := h.die
  have failed : DieIs d s { t.awOf d with state := 6 }
      (raise (t.setAw d { t.awOf d with state := 6 }) 0x020D (dieLoc (9 + d))) := (h.setAw _).logs (raise_logs ..)
  have power := failed.field State.power fun _ => rfl
  rw [awInitEff, if_neg (by decide), bootReady_early (by exact power ▸ early)]
  exact failed

/-! ### Write-verify (R256, R257) -/

section

variable {g pos : Nat} {p : Programming} {cells : List CellRead}

theorem pulseEff_rowDone (inside : rowOutside s d g pos p.row cells = []) (more : p.row ≠ 511) :
    pulseEff d g pos p cells s = s.setAw d { s.awOf d with
      programming := tput (68 * g + pos) { p with row := p.row + 1, tries := 0 } (s.awOf d).programming } := by
  unfold pulseEff
  dsimp only
  rw [inside]
  exact if_neg more

/-- A die whose pane `k` has passed its write-verify. -/
def verified (a : AwDieSt) (k : Nat) : AwDieSt :=
  cleanCells { programmedOnce a k with programming := tdel k a.programming, programmed := insertNat k a.programmed } k

theorem pulseEff_passes (h : DieIs d s a t) (inside : rowOutside t d g pos p.row cells = []) (last : p.row = 511) :
    DieIs d s (verified a (68 * g + pos)) (pulseEff d g pos p cells t) := by
  have counted := countProgram_dieIs h g pos
  have pass : DieIs d s (verified a (68 * g + pos)) (programPass d g pos t) := by
    unfold programPass
    dsimp only
    rw [counted.die]
    exact counted.setAw _
  unfold pulseEff
  dsimp only
  rw [inside, if_pos last]
  exact pass

/-- A die whose pane `k` has failed its write-verify, with `content` in its cells. -/
def failedAt (a : AwDieSt) (k : Nat) (content : Tbl Nat) : AwDieSt :=
  { a with programming := tdel k a.programming, failed := insertNat k a.failed, cells := content }

/-- A row with a cell outside its window for which no iteration is left, or none would help, fails the pane. -/
theorem pulseEff_fails (h : DieIs d s a t) (outside : rowOutside t d g pos p.row cells ≠ [])
    (spent : (t.trimOf d).maxPulses ≤ p.tries + 1
      ∨ ∀ c ∈ rowOutside t d g pos p.row cells, wantLevel a g pos c.row c.col c.neg = 0) :
    ∃ content, DieIs d s (failedAt a (68 * g + pos) content) (pulseEff d g pos p cells t) := by
  obtain rfl := h.die
  have ended : ¬ (p.tries + 1 < (t.trimOf d).maxPulses
      ∧ (rowOutside t d g pos p.row cells).any (fun c => decide (0 < wantLevel (t.awOf d) g pos c.row c.col c.neg)) = true) := by
    rintro ⟨left, target⟩
    obtain ⟨c, mem, level⟩ := List.any_eq_true.1 target
    rcases spent with spent | none
    · omega
    · rw [none c mem] at level
      exact absurd level (by decide)
  have outsiders : ¬ (rowOutside t d g pos p.row cells).isEmpty = true := by rwa [List.isEmpty_iff]
  unfold pulseEff
  dsimp only
  rw [if_neg outsiders, if_neg ended]
  exact ⟨_, (h.setAw _).logs (raise_logs ..)⟩

end

/-! ### The commands -/

section

variable {d : AwDie} {g : Fin 2048} {pos : Fin 68} {row : Fin 512} {p : Programming} {cells : List CellRead}

theorem exec_shadowScrub {pane : BitVec 17} {word : Fin 16} (rising : risingFrom 0 s.aw = true) (low : 2 ≤ (s.awOf d).state)
    (high : (s.awOf d).state ≤ 5) (us : List ShadowUpset) :
    ∃ t, exec (.shadowScrub d pane row word us) s = .next t ∧
      DieIs d s (scrubDie (us.foldl upsetDie (s.awOf d)) pane.toNat (shadowKey pane.toNat row word)) t :=
  ⟨_, if_pos ⟨low, high⟩, scrubShadow_dieIs (upsetShadow_dieIs (DieIs.refl rising d) us) _ _ _⟩

theorem exec_pulseVerify (begun : tfind (s.awOf d).programming (68 * g.val + pos.val) = some p) (installing : (s.awOf d).state = 4)
    (phase : (s.awOf d).phase = 3) (here : p.row = row.val) :
    exec (.pulseVerify d g pos row cells) s = .next (pulseEff d g pos p cells s) := by
  show execPulseVerify d g pos row cells s = _
  rw [execPulseVerify, begun]
  exact if_pos ⟨installing, phase, here⟩

theorem exec_awInitDone (initialising : (s.awOf d).state = 1) (records trim : Bool) (us : List ShadowUpset) :
    exec (.awInitDone d records trim us) s = .next (awInitEff d records trim us s) := if_pos initialising

end

end Sys2Proof.Proofs
end

section
/-!
Settling O19: the upkeep commands' clauses, from what each leaves of its die.
-/

namespace Sys2Proof.Proofs

open Sys2Proof.Machine Sys2Proof.Laws

variable {s t : State} {a : AwDieSt} {g : Nat} {m : MaintReading}

/-! ### The record after a pass (R262, R263) -/

theorem tget_withTrim (a : AwDieSt) (g : Nat) (r : GroupTrim) : tget {} (withTrim a g r).trim g = r := tget_tput ..

theorem withTrim_rest (a : AwDieSt) (g : Nat) (r : GroupTrim) : { withTrim a g r with trim := a.trim } = a := rfl

theorem advanced_inForce (a : AwDieSt) (g : Nat) (m : MaintReading) :
    let r := tget {} a.trim g
    (advanced a g m).gw = r.gw ∧ (advanced a g m).drift = r.drift ∧ (advanced a g m).curve = r.curve ∧
      (advanced a g m).gain = r.gain ∧ (advanced a g m).err = r.err ∧ (advanced a g m).rate = r.rate := by
  have kept := measured_inForce a g m
  simp only [inForce, Prod.mk.injEq] at kept
  obtain ⟨-, kept⟩ := kept
  exact kept

/-- A reference measurement: the curve it gives, and the largest drift of the cycle so far. -/
theorem advanced_reference (early : (tget {} a.trim g).slot < 8) :
    let r := tget {} a.trim g
    (advanced a g m).newErr = r.newErr ∧ (advanced a g m).newCurve = (List.range 34).map (fun i => m.curve.getD i 0) ∧
      ∀ l, l < 8 → (advanced a g m).newDrift.getD l 0 = max (r.newDrift.getD l 0) (levelDrift m.sums (r.slot + 1) l) := by
  dsimp only [advanced]
  rw [measured_reference early]
  refine ⟨rfl, rfl, fun l lt => ?_⟩
  simp [GroupTrim.reference, noted, List.getD_eq_getElem?_getD, lt]

/-- A pane check. -/
theorem advanced_check (late : 8 ≤ (tget {} a.trim g).slot)
    (idle : a.testing (68 * g + ((tget {} a.trim g).slot - 8)) = false) :
    let r := tget {} a.trim g
    (advanced a g m).newErr = tput (r.slot - 8)
        ((checkEsts a g (r.slot - 8) m).foldl (fun x e => max x (e.1 - e.2).natAbs) 0) r.newErr ∧
      (advanced a g m).newGain = tput (r.slot - 8) (m.gain, m.offset) r.newGain := by
  dsimp only [advanced]
  rw [measured_check late idle]
  exact ⟨rfl, rfl⟩

/-- A pane under test is skipped (R270). -/
theorem advanced_skipped (late : 8 ≤ (tget {} a.trim g).slot)
    (testing : a.testing (68 * g + ((tget {} a.trim g).slot - 8)) = true) :
    let r := tget {} a.trim g
    (advanced a g m).newErr = r.newErr ∧ (advanced a g m).newGain = r.newGain := by
  dsimp only [advanced]
  rw [measured_skipped late testing]
  exact ⟨rfl, rfl⟩

/-- What the last pass of a cycle leaves of the records and of start-up calibration. -/
theorem completed_record {x : AwDieSt} {gw : List Nat} (late : 8 ≤ (tget {} a.trim g).slot) (four : gw.length = 4)
    (calibrated : calibration x = (tput g ((measured a g m).completed gw) a.trim, a.toCalibrate.filter (· != g))) :
    let r := tget {} a.trim g
    let r' := tget {} x.trim g
    r'.passed = (measured a g m).passed ∧ r'.slot = 0 ∧ r'.drift = r.newDrift ∧ r'.curve = r.newCurve ∧ r'.gw.length = 4 ∧
      g ∉ x.toCalibrate ∧ ∀ h, h ≠ g → tget {} x.trim h = tget {} a.trim h := by
  obtain ⟨trim, waiting⟩ := Prod.ext_iff.1 calibrated
  have trim : x.trim = tput g ((measured a g m).completed gw) a.trim := trim
  have waiting : x.toCalibrate = a.toCalibrate.filter (· != g) := waiting
  obtain ⟨drift, curve⟩ := measured_references (m := m) late
  dsimp only
  rw [trim, waiting, tget_tput]
  exact ⟨rfl, rfl, drift, curve, four, not_mem_filter_ne g _, fun h ne => tget_tput_ne _ _ _ _ _ ne⟩

/-- Settles O19: each command is an operation on its die (`DieIs`), of which the clauses read off what they speak of. -/
theorem analogUpkeep : Obligations.AnalogUpkeep := by
  refine ⟨fun s d g rising => ⟨?_, ?_, ?_⟩, fun s d g pos cells rising => ⟨fun on => ⟨?_, ?_, ?_⟩, ?_⟩,
    fun s d rising => ⟨?_, ?_, ?_, ?_, ?_⟩⟩
  · intro m due
    by_cases early : (tget {} (s.awOf d).trim g).slot < 75
    · obtain ⟨t, e, frame, -, die, -⟩ := exec_maintenancePass_next rising m due early
      refine ⟨t, e, frame, ?_⟩
      rw [die]
      dsimp only
      rw [tget_withTrim]
      obtain ⟨gw, drift, curve, gain, err, rate⟩ := advanced_inForce (s.awOf d) g m
      refine ⟨measured_passed, fun _ => ⟨withTrim_rest .., rfl, gw, drift, curve, gain, err, rate, advanced_reference,
        advanced_check, advanced_skipped⟩, fun last => absurd early (by omega)⟩
    · obtain ⟨t, gw, x, e, four, ⟨frame, -, die, -⟩, calibrated⟩ := exec_maintenancePass_last rising m due (by omega)
      obtain ⟨passed, rest⟩ := completed_record (by omega) four calibrated
      refine ⟨t, e, frame, ?_⟩
      rw [die]
      exact ⟨fun ready => passed.trans (measured_passed ready), fun next => absurd next early, fun _ => rest⟩
  · intro m ready made
    exact exec_maintenancePass_again ready made
  · intro pos p refreshing runs next free
    obtain ⟨t, x, e, ⟨frame, -, die, -⟩, counts, cells, on⟩ := exec_groupRefresh rising refreshing runs next free
    refine ⟨t, e, frame, ?_⟩
    rw [die, counts]
    exact ⟨tget_tput .., cells, on⟩
  · intro x test asked free
    exact ⟨_, exec_selftestStart test on asked free, setAw_frame .., awOf_setAw rising ..⟩
  · intro x test read settled
    exact ⟨_, exec_selftestSettle test on read settled, setAw_frame .., awOf_setAw rising ..⟩
  · intro x ok test read clean asked tests sound first limit
    obtain ⟨t, e, frame, die⟩ := exec_selftestDone (ok := ok) rising test on read clean asked sound first limit
    refine ⟨t, e, frame, ?_⟩
    rw [die]
    refine ⟨tfind_tdel tests, rfl, ?_, rfl, rfl, rfl⟩
    rw [transientAt, first]
    exact tfind_tput ..
  · intro l spare runs held lowest waits free map first
    obtain ⟨t, x, e, ⟨frame, -, die, -⟩, out, same⟩ := exec_paneMapSwitch rising runs held lowest waits free first
    simp only [mapping, Prod.mk.injEq] at same
    obtain ⟨moved, counts, retired⟩ := same
    refine ⟨t, e, frame, ?_⟩
    dsimp only [AwDieSt.posOf]
    rw [die, moved, counts, retired]
    exact ⟨tget_tset _ _ _ 0 _ map, mem_retired_switchedTo .., out, tget_tput .., fun l' ne => posOf_switchedTo_ne ne⟩
  · intro pane row word us low high
    obtain ⟨t, e, frame, -, die, -⟩ := exec_shadowScrub (row := row) (pane := pane) (word := word) rising low high us
    refine ⟨t, e, frame, ?_⟩
    rw [die]
    refine ⟨?_, fun hit => ?_, ?_, ?_⟩
    · rw [scrubDie_shadow, upsetDies_shadow]
    · have bad : shadowKey pane.toNat row word ∈ (us.foldl upsetDie (s.awOf d)).shadowBad :=
        mem_upsetDies (hit.imp_right fun mem => ⟨_, mem, rfl, rfl⟩)
      rw [scrubDie_bad bad]
      exact mem_loseDie ..
    · rintro rfl bad
      rw [List.foldl_nil, scrubDie_bad bad]
      exact congrArg Prod.snd (loseDie_words ..)
    · rintro rfl sound weak
      rw [List.foldl_nil, scrubDie_weak sound weak]
      exact ⟨not_mem_filter_ne _ _, rfl⟩
  · intro g pos row p k begun installing phase here more
    have inside : rowOutside s d g pos p.row [] = [] := rfl
    exact ⟨_, (exec_pulseVerify begun installing phase here).trans
      (congrArg Host.Outcome.next (pulseEff_rowDone inside (by omega))), setAw_frame .., awOf_setAw rising ..⟩
  · intro g pos p cells k begun last programming installing phase inside
    obtain ⟨frame, -, die, -⟩ := pulseEff_passes (DieIs.refl rising d) (cells := cells) (by rwa [last]) last
    refine ⟨_, exec_pulseVerify begun installing phase last, frame, ?_⟩
    rw [die]
    exact ⟨tfind_tdel programming, mem_insertNat.2 (.inl rfl), rfl, tget_tput ..⟩
  · intro g pos row p cells k out begun programming installing phase here outside spent
    dsimp only [out] at outside spent
    rw [← here] at outside spent
    obtain ⟨content, frame, -, die, -⟩ := pulseEff_fails (DieIs.refl rising d) outside spent
    refine ⟨_, exec_pulseVerify begun installing phase here, frame, ?_⟩
    rw [die]
    exact ⟨tfind_tdel programming, rfl, rfl⟩
  · intro initialising early
    refine ⟨fun sound => ?_, fun us u mem bad => ?_, ?_⟩
    · obtain ⟨frame, -, die, -⟩ := awInitEff_passes (DieIs.refl rising d) early []
      refine ⟨_, exec_awInitDone initialising true true [], frame, die.trans ?_⟩
      rw [List.foldl_nil, scrubbedDie_of_sound sound]
      rfl
    · obtain ⟨-, -, die, -⟩ := awInitEff_passes (DieIs.refl rising d) early us
      refine ⟨_, exec_awInitDone initialising true true us, ?_⟩
      rw [die]
      have hit : upsetKey u ∈ (us.foldl upsetDie (s.awOf d)).shadowBad := mem_upsetDies (.inr ⟨u, mem, bad, rfl⟩)
      exact mem_loseDies (.inr (List.mem_dedup.2 (List.mem_map.2 ⟨_, hit, shadowKey_pane ..⟩)))
    · obtain ⟨frame, -, die, -⟩ := awInitEff_fails (DieIs.refl rising d) early
      exact ⟨_, exec_awInitDone initialising false true [], frame, die⟩

end Sys2Proof.Proofs
end

section
/-!
The enable and power-good bits of the rails (R541, R543): what is read of one after a rail is switched.
-/

namespace Sys2Proof.Proofs

open Sys2Proof.Machine Sys2Proof.Laws

/-! ### A bit set or cleared -/

/-- Two numbers alike below bit `i` and above it differ at most in bit `i`. -/
theorem testBit_alike {a c i j r : Nat} (low : r < 2 ^ i) (high : a / 2 = c / 2) (ne : j ≠ i) :
    (2 ^ i * a + r).testBit j = (2 ^ i * c + r).testBit j := by
  rw [Nat.testBit_two_pow_mul_add _ low, Nat.testBit_two_pow_mul_add _ low]
  split_ifs with below
  · rfl
  · obtain ⟨k, above⟩ : ∃ k, j - i = k + 1 := ⟨j - i - 1, by omega⟩
    rw [above, Nat.testBit_succ, Nat.testBit_succ, high]

/-- A bit that is not as it is to be is set or cleared in the quotient by its weight. -/
theorem putBit_eq {n i : Nat} {b : Bool} (differs : bitNat n i ≠ b) :
    putBit n i b = 2 ^ i * (2 * (n / 2 ^ i / 2) + b.toNat) + n % 2 ^ i := by
  have split := Nat.div_add_mod n (2 ^ i)
  have halves := Nat.div_add_mod (n / 2 ^ i) 2
  rw [putBit, if_neg differs]
  rw [bitNat] at differs
  rw [← halves] at split
  cases b with
  | true =>
    have even : n / 2 ^ i % 2 = 0 := by simpa using differs
    rw [even] at split
    rw [if_pos rfl]
    simp only [Bool.toNat_true, Nat.mul_add] at split ⊢
    omega
  | false =>
    have odd : n / 2 ^ i % 2 = 1 := by simpa using differs
    rw [odd] at split
    rw [if_neg Bool.false_ne_true]
    simp only [Bool.toNat_false, Nat.mul_add] at split ⊢
    omega

theorem bitNat_putBit (n i j : Nat) (b : Bool) : bitNat (putBit n i b) j = if j = i then b else bitNat n j := by
  by_cases stands : bitNat n i = b
  · rw [putBit, if_pos stands]
    split_ifs with same
    · rw [same, stands]
    · rfl
  · have low : n % 2 ^ i < 2 ^ i := Nat.mod_lt _ (by positivity)
    rw [putBit_eq stands, bitNat_eq_testBit, bitNat_eq_testBit]
    split_ifs with same
    · rw [same, Nat.testBit_two_pow_mul_add _ low, if_neg (lt_irrefl i), Nat.sub_self, Nat.testBit_zero]
      cases b <;> simp
    · conv_rhs => rw [← Nat.div_add_mod n (2 ^ i)]
      exact testBit_alike low (by have := b.toNat_le; omega) same

/-! ### Rails -/

theorem railAw_eq_iff {d e : AwDie} {j k : Fin 3} : Rail.aw e j = Rail.aw d k ↔ 3 * e.val + j.val = 3 * d.val + k.val := by
  have hj := j.isLt
  have hk := k.isLt
  simp only [Rail.aw.injEq, Fin.ext_iff]
  omega

theorem railGroup_eq_iff {j k : Fin 4} : Rail.group j = Rail.group k ↔ j.val = k.val := by
  simp only [Rail.group.injEq, Fin.ext_iff]

variable (s : State) (r q : Rail) (on : Bool)

theorem setRail_enabled : (setRail s r on).power.enabled q = if q = r then on else s.power.enabled q := by
  cases r with
  | group k =>
    cases q with
    | group j => simp only [setRail, State.emit, Power.enabled, bitNat_putBit, railGroup_eq_iff]
    | aw e j => rfl
  | aw d k =>
    cases q with
    | group j => rfl
    | aw e j => simp only [setRail, State.emit, Power.enabled, bitNat_putBit, railAw_eq_iff]

theorem setGood_good : (setGood s r on).power.good q = if q = r then on else s.power.good q := by
  cases r with
  | group k =>
    cases q with
    | group j => simp only [setGood, Power.good, bitNat_putBit, railGroup_eq_iff]
    | aw e j => rfl
  | aw d k =>
    cases q with
    | group j => rfl
    | aw e j => simp only [setGood, Power.good, bitNat_putBit, railAw_eq_iff]

theorem setGood_enabled : (setGood s r on).power.enabled q = s.power.enabled q := by
  cases r <;> cases q <;> rfl

theorem setRail_railAt : (setRail s r on).power.railAt = tput (railKey r) s.ns s.power.railAt := by cases r <;> rfl

theorem setGood_railAt : (setGood s r on).power.railAt = tput (railKey r) s.ns s.power.railAt := by cases r <;> rfl

theorem setRail_frame : { setRail s r on with power := s.power, out := s.out } = s := by cases r <;> rfl

theorem setGood_frame : { setGood s r on with power := s.power } = s := by cases r <;> rfl

/-- Whether and why the package is down, the boot stage, and the notes of a gasp sent and of a fall of VDD_AON (R544, R554). -/
def outage (p : Power) : Bool × Nat × Nat × Bool × Bool := (p.down, p.lastReset, p.stage, p.gasped, p.aonFell)

theorem setRail_outage : outage (setRail s r on).power = outage s.power := by cases r <;> rfl

theorem setGood_outage : outage (setGood s r on).power = outage s.power := by cases r <;> rfl

end Sys2Proof.Proofs
end

section
/-!
Powering down (R543, R554): the rails of each step, lowered in turn, and what the first of them leaves.
-/

namespace Sys2Proof.Proofs

open Sys2Proof.Machine Sys2Proof.Laws

variable {s t u : State} {n : Nat} {ns : List Nat}

/-! ### The rails of one step -/

/-- A rail lowered where it is up. -/
def lowerRail (s : State) (r : Rail) : State := if s.power.enabled r then setRail s r false else s

/-- The rails of step `n` of a power-down lowered. -/
def lowered (s : State) (n : Nat) : State := (lowerStep n).foldl lowerRail s

theorem lowerRail_enabled (s : State) (r q : Rail) :
    (lowerRail s r).power.enabled q = if q = r then false else s.power.enabled q := by
  rw [lowerRail]
  split_ifs with up same same
  · rw [setRail_enabled, if_pos same]
  · rw [setRail_enabled, if_neg same]
  · rw [same]
    exact Bool.eq_false_iff.2 up
  · rfl

theorem foldl_lowerRail_enabled (s : State) (rs : List Rail) (q : Rail) :
    (rs.foldl lowerRail s).power.enabled q = if q ∈ rs then false else s.power.enabled q := by
  induction rs generalizing s with
  | nil => rfl
  | cons r rs ih =>
    rw [List.foldl_cons, ih, lowerRail_enabled]
    by_cases here : q = r
    · rw [if_pos here, ite_self, if_pos (List.mem_cons.2 (.inl here))]
    · rw [if_neg here]
      simp only [List.mem_cons, here, false_or]

/-- `t` is `s` but for the rails and their pins. -/
structure OnlyRails (s t : State) : Prop where
  frame : { t with power := s.power, out := s.out } = s
  kept : outage t.power = outage s.power

theorem OnlyRails.refl (s : State) : OnlyRails s s := ⟨rfl, rfl⟩

theorem OnlyRails.trans (h : OnlyRails s t) (k : OnlyRails t u) : OnlyRails s u where
  frame := (congrArg (fun w : State => { w with power := s.power, out := s.out }) k.frame).trans h.frame
  kept := k.kept.trans h.kept

theorem lowerRail_onlyRails (s : State) (r : Rail) : OnlyRails s (lowerRail s r) := by
  rw [lowerRail]
  split
  · exact ⟨setRail_frame .., setRail_outage ..⟩
  · exact .refl s

theorem lowered_onlyRails (s : State) (n : Nat) : OnlyRails s (lowered s n) :=
  foldl_of_step .refl .trans lowerRail_onlyRails _ s

theorem lowered_ns (s : State) (n : Nat) : (lowered s n).ns = s.ns := by
  have ns := congrArg State.ns (lowered_onlyRails s n).frame
  exact ns

/-! ### One step of a power-down -/

/-- The steps `ns` are still to come, 0.5 ms from now. -/
def stillToLower (s : State) (ns : List Nat) : State :=
  { s with power := { s.power with lowering := ns, railAt := tput 0 s.ns s.power.railAt } }

/-- The analogue dies OFF with the first of their rails to be lowered. -/
def diesOff (s : State) : State := { s.eachAw AwDieSt.off with baseDigest := none }

theorem lowerNext_first (falling : s.power.lowering = 0 :: ns) :
    lowerNext s = stillToLower (diesOff (lowered s 0)) ns := by
  rw [lowerNext, falling]
  rfl

/-- A step that takes neither the analogue dies OFF nor VDD_CD down lowers its rails alone. -/
theorem lowerNext_railsOnly (falling : s.power.lowering = n :: ns) (dies : n ≠ 0) (core : n ≠ 5) :
    lowerNext s = stillToLower (lowered s n) ns := by
  rw [lowerNext, falling]
  dsimp only
  rw [if_neg dies, if_neg core]
  rfl

theorem diesOff_power (s : State) : (diesOff s).power = s.power := by
  obtain ⟨aw, dies⟩ := eachAw_writes s AwDieSt.off
  rw [diesOff, dies]

theorem stillToLower_power (s : State) (ns : List Nat) :
    outage (stillToLower s ns).power = outage s.power ∧ (stillToLower s ns).power.lowering = ns := ⟨rfl, rfl⟩

theorem lowerNext_first_power (falling : s.power.lowering = 0 :: ns) :
    outage (lowerNext s).power = outage s.power ∧ (lowerNext s).power.lowering = ns := by
  obtain ⟨out, steps⟩ := stillToLower_power (diesOff (lowered s 0)) ns
  rw [diesOff_power, (lowered_onlyRails s 0).kept] at out
  rw [lowerNext_first falling]
  exact ⟨out, steps⟩

/-! ### The order to power down -/

theorem gaspNow_sends (s : State) (cause : Nat) : Sends s (gaspNow s cause) :=
  foldl_of_step .refl .trans (fun s _ => (((Sends.emit s _).trans (.emit ..)).trans (.emit ..)).trans (.emit ..)) _ s

theorem powerDown_outage (up : s.power.down = false) (gasp cause : Nat) :
    outage (powerDown s gasp cause).power = (true, cause, 0, true, s.power.aonFell) ∧
      (powerDown s gasp cause).power.lowering = [1, 2, 3, 4, 5, 6] := by
  have told : (if s.power.gasped then s else gaspNow s gasp).power = s.power := by
    split
    · rfl
    · obtain ⟨os, sent⟩ := gaspNow_sends s gasp
      rw [sent]
  rw [powerDown, if_neg (Bool.eq_false_iff.1 up)]
  dsimp only
  rw [told]
  exact lowerNext_first_power rfl

/-- A fault that powers the package down: its event, and the order (R551, R554). -/
theorem raise_powerDown_outage (up : s.power.down = false) (code gasp cause : Nat) (l : W64) :
    outage (powerDown (raise s code l) gasp cause).power = (true, cause, 0, true, s.power.aonFell) ∧
      (powerDown (raise s code l) gasp cause).power.lowering = [1, 2, 3, 4, 5, 6] := by
  have power : (raise s code l).power = s.power := eq_of_logs State.power (fun _ _ => rfl) (raise_logs ..)
  rw [← power] at up ⊢
  exact powerDown_outage up gasp cause

end Sys2Proof.Proofs
end

section
/-!
The rails of one analogue weight die (R251, R252, R551): the die OFF when one is lost, READY when its calibration is done.
-/

namespace Sys2Proof.Proofs

open Sys2Proof.Machine Sys2Proof.Laws

variable {s t u : State} {d : AwDie}

/-! ### A rail lost -/

/-- What the loss of a rail leaves of a die once its event is raised, before a step that uses it ends. -/
def awDown (d : AwDie) (s : State) : State := { s.setAw d (s.awOf d).off with baseDigest := none }

/-- A die that is not being programmed goes OFF; a step that uses it ends (R248, R251, R551). -/
theorem awRailFault_eq (settled : (s.awOf d).state ≠ 4) : awRailFault d s =
    if s.usesAw d then deviceFault (awDown d (raise s 0x0904 (powerLoc (9 + d)))) 0x0904 (powerLoc (9 + d))
    else awDown d (raise s 0x0904 (powerLoc (9 + d))) := by
  have logs : Logs s (raise s 0x0904 (powerLoc (9 + d))) := raise_logs ..
  have die := awOf_of_logs logs d
  have run := logs.run
  rw [awRailFault]
  generalize raise s 0x0904 (powerLoc (9 + d)) = u at die run ⊢
  have uses : (awDown d u).usesAw d = s.usesAw d := by
    rw [State.usesAw, State.usesAw, ← run]
    rfl
  rw [← uses]
  dsimp only
  rw [die, if_neg settled, awDown, die]

theorem railFault_aw (d : AwDie) (j : Fin 3) (s : State) : railFault (.aw d j) s = awRailFault d s := rfl

theorem deviceFault_rest (s : State) (c : Nat) (l : W64) (e : Nat) : (deviceFault s c l).awOf e = s.awOf e ∧
    (deviceFault s c l).baseDigest = s.baseDigest ∧ (deviceFault s c l).power = s.power := ⟨rfl, rfl, rfl⟩

theorem awDown_off (rising : risingFrom 0 s.aw = true) (d : AwDie) :
    (awDown d s).awOf d = (s.awOf d).off ∧ (awDown d s).baseDigest = none ∧ (awDown d s).power = s.power :=
  ⟨awOf_setAw rising .., rfl, rfl⟩

theorem awDown_unlogged (d : AwDie) (u s : State) :
    { (awDown d u).unlogged s with aw := s.aw, baseDigest := s.baseDigest } =
      ({ u.unlogged s with aw := s.aw, baseDigest := s.baseDigest } : State) := by
  dsimp only [awDown, State.setAw, State.unlogged]

theorem awRailFault_off (rising : risingFrom 0 s.aw = true) (settled : (s.awOf d).state ≠ 4) :
    (awRailFault d s).awOf d = (s.awOf d).off ∧ (awRailFault d s).baseDigest = none ∧
      (awRailFault d s).power = s.power := by
  have logs : Logs s (raise s 0x0904 (powerLoc (9 + d))) := raise_logs ..
  have power := eq_of_logs State.power (fun _ _ => rfl) logs
  obtain ⟨off, base, same⟩ := awDown_off ((aw_of_logs logs).symm ▸ rising) d
  rw [awOf_of_logs logs] at off
  rw [power] at same
  rw [awRailFault_eq settled]
  split
  · obtain ⟨die, digest, kept⟩ :=
      deviceFault_rest (awDown d (raise s 0x0904 (powerLoc (9 + d)))) 0x0904 (powerLoc (9 + d)) d
    exact ⟨die.trans off, digest.trans base, kept.trans same⟩
  · exact ⟨off, base, same⟩

theorem awRailFault_frame (settled : (s.awOf d).state ≠ 4) (unused : s.usesAw d = false) :
    { (awRailFault d s).unlogged s with aw := s.aw, baseDigest := s.baseDigest } = s := by
  have logs : Logs s (raise s 0x0904 (powerLoc (9 + d))) := raise_logs ..
  rw [awRailFault_eq settled, if_neg (Bool.eq_false_iff.1 unused)]
  generalize raise s 0x0904 (powerLoc (9 + d)) = u at logs ⊢
  rw [awDown_unlogged, show u.unlogged s = s from logs]

/-- `t` is `s` but for its power logic. -/
def WritesPower (s t : State) : Prop := ∃ p, t = { s with power := p }

theorem WritesPower.refl (s : State) : WritesPower s s := ⟨_, rfl⟩

theorem WritesPower.trans (h : WritesPower s t) (k : WritesPower t u) : WritesPower s u := by
  obtain ⟨p, rfl⟩ := h
  obtain ⟨q, rfl⟩ := k
  exact ⟨q, rfl⟩

theorem setGood_writesPower (s : State) (r : Rail) (on : Bool) : WritesPower s (setGood s r on) := by
  cases r <;> exact ⟨_, rfl⟩

theorem dropGoods_writesPower (d : AwDie) (s : State) : WritesPower s (dropGoods d s) := by
  rw [dropGoods]
  exact foldl_of_step .refl .trans (fun s r => setGood_writesPower s r false) _ s

/-! ### Calibrated -/

theorem calibrated_of {a : AwDieSt} (calibrated : a.toCalibrate = []) (retired : a.lasting = []) (refreshed : a.refresh = [])
    (restored : ∀ e ∈ a.tests, e.2.restore = false) : a.calibrated = true := by
  have tests : a.tests.all (fun e => !e.2.restore) = true :=
    List.all_eq_true.2 fun e mem => by rw [restored e mem]; rfl
  rw [AwDieSt.calibrated, calibrated, retired, refreshed, tests]
  rfl

/-- A die that has become READY, its ticks counted anew. -/
def calibratedDie (a : AwDieSt) : AwDieSt := { a with state := 3, tick := 0 }

/-- Every die is READY with a committed set once this one is (R252). -/
theorem allCommitted_iff (rising : risingFrom 0 s.aw = true) :
    (List.range 4).all (fun k => ((s.setAw d (calibratedDie (s.awOf d))).awOf k).state == 3 &&
      ((s.setAw d (calibratedDie (s.awOf d))).awOf k).committed) = true ↔
    (∀ e : AwDie, e ≠ d → (s.awOf e).state = 3 ∧ (s.awOf e).committed = true) ∧ (s.awOf d).committed = true := by
  have self := awOf_setAw rising d (calibratedDie (s.awOf d))
  have other : ∀ e : AwDie, e ≠ d → (s.setAw d (calibratedDie (s.awOf d))).awOf e = s.awOf e :=
    fun e ne => awOf_setAw_ne s _ (Fin.val_ne_of_ne ne)
  simp only [List.all_eq_true, List.mem_range, Bool.and_eq_true, beq_iff_eq]
  constructor
  · intro all
    refine ⟨fun e ne => ?_, ?_⟩
    · exact other e ne ▸ all e e.isLt
    · exact (congrArg AwDieSt.committed self).symm.trans (all d d.isLt).2
  · rintro ⟨rest, committed⟩ k lt
    by_cases same : (⟨k, lt⟩ : AwDie) = d
    · subst same
      rw [self]
      exact ⟨rfl, committed⟩
    · rw [other ⟨k, lt⟩ same]
      exact rest _ same

theorem setAw_base_frame (s : State) (d : Nat) (x : AwDieSt) (b : Option Bytes) :
    { ({ s.setAw d x with baseDigest := b } : State) with aw := s.aw, baseDigest := s.baseDigest } = s := by
  dsimp only [State.setAw]

theorem setAw_base_awOf (s : State) (d : Nat) (x : AwDieSt) (b : Option Bytes) (e : Nat) :
    ({ s.setAw d x with baseDigest := b } : State).awOf e = (s.setAw d x).awOf e := rfl

theorem awReadyEff_eq (rising : risingFrom 0 s.aw = true) (early : s.power.stage ≠ 5) :
    awReadyEff d s = { s.setAw d (calibratedDie (s.awOf d)) with
      baseDigest := if (∀ e : AwDie, e ≠ d → (s.awOf e).state = 3 ∧ (s.awOf e).committed = true) ∧
          (s.awOf d).committed = true
        then s.installed else s.baseDigest } := by
  have all := allCommitted_iff rising (d := d)
  rw [awReadyEff]
  dsimp only
  split_ifs with ready told told
  · exact bootReady_early early
  · exact absurd (all.1 ready) told
  · exact absurd (all.2 told) ready
  · exact bootReady_early early

end Sys2Proof.Proofs
end

section
/-!
Settling O52: the clauses on the rails and on power-down, each from its command's effect.
-/

namespace Sys2Proof.Proofs

open Sys2Proof.Machine Sys2Proof.Laws

variable {s : State} {r : Rail} {d : AwDie}

/-! ### The commands -/

theorem exec_pwrGood (enabled : s.power.enabled r = true) (bad : s.power.good r = false) :
    exec (.pwrGood r) s = .next (setGood s r true) :=
  if_pos ⟨enabled, bad⟩

theorem exec_railEnableDelay (due : s.enableDue r = true) : exec (.railEnableDelay r) s = .next (setRail s r true) :=
  if_pos due

theorem exec_powerGoodTimeout (enabled : s.power.enabled r = true) (bad : s.power.good r = false)
    (late : tget 0 s.power.railAt (railKey r) + 5000000 ≤ s.ns) :
    exec (.powerGoodTimeout r) s = .next (railFault r s) :=
  if_pos ⟨enabled, bad, late⟩

theorem exec_powerGoodFall (enabled : s.power.enabled r = true) (good : s.power.good r = true) :
    exec (.powerGoodFall r) s = .next (railFault r (setGood s r false)) :=
  if_pos ⟨enabled, good⟩

theorem exec_vddAonLow (s : State) :
    exec .vddAonLow s = .next (groupFault (packageLoc 4) { s with power := { s.power with aonFell := true } }) := rfl

theorem exec_refClkLost {c : Nat} (missing : s.power.refMissing = some c) (long : c + 10000 ≤ s.ns) :
    exec .refClkLost s = .next (powerFail s) := by
  refine if_pos ?_
  rw [missing]
  exact decide_eq_true long

theorem exec_railDisableDelay {n : Nat} {ns : List Nat} (falling : s.power.lowering = n :: ns)
    (late : tget 0 s.power.railAt 0 + 500000 ≤ s.ns) : exec .railDisableDelay s = .next (lowerNext s) :=
  if_pos ⟨by rw [falling]; rfl, late⟩

theorem exec_awPowerGood (off : (s.awOf d).state = 0) (fitted : s.awFitted = true)
    (good : ∀ k, k < 3 → bitNat s.power.awGood (3 * d.val + k) = true) :
    exec (.awPowerGood d) s = .next (s.setAw d { s.awOf d with state := 1 }) :=
  if_pos ⟨off, fitted, List.all_eq_true.2 fun k mem => good k (List.mem_range.1 mem)⟩

theorem exec_awCalibrationDone (calibrating : (s.awOf d).state = 2) (calibrated : (s.awOf d).calibrated = true) :
    exec (.awCalibrationDone d) s = .next (awReadyEff d s) :=
  if_pos ⟨calibrating, calibrated⟩

theorem exec_awRailLost (on : (s.awOf d).state ≠ 0) : exec (.awRailLost d) s = .next (awRailFault d (dropGoods d s)) :=
  if_pos on

/-! ### The clauses -/

/-- A fault of a group's rail, or of VDD_AON, powers the package down with LAST_RESET 6. -/
theorem groupFault_downs (up : s.power.down = false) (l : W64) :
    let t := groupFault l s
    (t.power.down = true ∧ t.power.lastReset = 6 ∧ t.power.stage = 0 ∧ t.power.lowering = [1, 2, 3, 4, 5, 6]) ∧
      t.power.aonFell = s.power.aonFell := by
  obtain ⟨out, steps⟩ := raise_powerDown_outage up 0x0904 1 6 l
  simp only [outage, Prod.mk.injEq] at out
  obtain ⟨down, cause, stage, -, aon⟩ := out
  exact ⟨⟨down, cause, stage, steps⟩, aon⟩

theorem powerFail_downs (up : s.power.down = false) :
    let t := powerFail s
    t.power.down = true ∧ t.power.lastReset = 7 ∧ t.power.stage = 0 ∧ t.power.gasped = true ∧
      t.power.lowering = [1, 2, 3, 4, 5, 6] := by
  obtain ⟨out, steps⟩ := raise_powerDown_outage up 0x0905 1 7 (packageLoc 4)
  simp only [outage, Prod.mk.injEq] at out
  obtain ⟨down, cause, stage, gasped, -⟩ := out
  exact ⟨down, cause, stage, gasped, steps⟩

theorem setGood_down (s : State) (r : Rail) (on : Bool) : (setGood s r on).power.down = s.power.down :=
  congrArg Prod.fst (setGood_outage s r on)

/-- Settles O52: a group's fault is an order to power down, a die's turns that die OFF, and each step of a power-down lowers its
rails alone but for the two that take the dies and the core down. -/
theorem railsAndPowerDown : Obligations.RailsAndPowerDown := by
  refine ⟨fun s k d j up => ⟨?_, ?_, ?_, ?_, ?_, ?_⟩, fun s => ⟨fun up => ⟨?_, ?_⟩, ?_, fun d rising => ⟨?_, ?_, ?_⟩⟩⟩
  · intro r enabled bad
    refine ⟨_, exec_pwrGood enabled bad, ?_, ?_, ?_, setGood_frame ..⟩
    · rw [setGood_good, if_pos rfl]
    · rw [setGood_enabled, enabled]
    · rw [setGood_railAt, tget_tput]
  · intro r due
    refine ⟨_, exec_railEnableDelay due, ?_, ?_, rfl, setRail_frame ..⟩
    · rw [setRail_enabled, if_pos rfl]
    · rw [setRail_railAt, tget_tput]
  · intro enabled bad late
    exact ⟨_, exec_powerGoodTimeout enabled bad late, (groupFault_downs up _).1⟩
  · intro enabled good
    exact ⟨_, exec_powerGoodFall enabled good, (groupFault_downs ((setGood_down ..).trans up) _).1⟩
  · exact ⟨_, exec_vddAonLow s,
      groupFault_downs (s := { s with power := { s.power with aonFell := true } }) up _⟩
  · intro enabled good settled rising
    obtain ⟨off, base, power⟩ := awRailFault_off (s := setGood s (.aw d j) false) (d := d) rising settled
    refine ⟨_, exec_powerGoodFall enabled good, ?_⟩
    rw [railFault_aw, off, base, power, setGood_down, setGood_good]
    exact ⟨rfl, rfl, up, if_pos rfl⟩
  · exact ⟨_, rfl, powerFail_downs up⟩
  · intro c missing long
    exact ⟨_, exec_refClkLost missing long, powerFail_downs up⟩
  · intro n ns falling late dies core
    refine ⟨_, exec_railDisableDelay falling late, ?_⟩
    rw [lowerNext_railsOnly falling dies core]
    refine ⟨rfl, ?_, fun r mem => ?_, (lowered_onlyRails s n).frame⟩
    · exact (tget_tput ..).trans (lowered_ns s n)
    · exact (foldl_lowerRail_enabled ..).trans (if_pos mem)
  · intro off fitted good
    exact ⟨_, exec_awPowerGood off fitted good, setAw_frame .., awOf_setAw rising .., fun e ne => awOf_setAw_ne s _ ne⟩
  · intro calibrating groups retired refreshed restored early
    refine ⟨_, exec_awCalibrationDone calibrating (calibrated_of groups retired refreshed restored), ?_⟩
    rw [awReadyEff_eq rising early]
    exact ⟨setAw_base_frame .., (setAw_base_awOf ..).trans (awOf_setAw rising d (calibratedDie (s.awOf d))), rfl⟩
  · intro on settled unused
    obtain ⟨p, dropped⟩ := dropGoods_writesPower d s
    obtain ⟨off, base, -⟩ := awRailFault_off (s := { s with power := p }) (d := d) rising settled
    have frame := awRailFault_frame (s := { s with power := p }) (d := d) settled unused
    refine ⟨_, exec_awRailLost on, ?_⟩
    rw [dropped]
    generalize awRailFault d { s with power := p } = t at off base frame ⊢
    exact ⟨off, base, congrArg (fun w : State => { w with power := s.power }) frame⟩

end Sys2Proof.Proofs
end

section
/-!
The stacks' statement fails (O20; R294, R295): its scrub clause says for every state that no stack's written units change, and
asks nothing of the table of stacks. In a table with two entries for one stack the first is in force; where only a unit's
erroneous symbols keep that entry from the reset value, the scrub corrects them, the entry is removed as equal to the default,
and the second entry, whose units differ, comes into force. Where the keys of the table rise, the scrub leaves every written
unit (`units_patrolScrub`): that is the hypothesis the statement lacks.
-/

namespace Sys2Proof.Proofs

open Sys2Proof.Machine Sys2Proof.Laws

variable {s t : State}

/-! ### What a scrub keeps of a table of stacks in rising order -/

theorem setStack_sameUnits (h : SameUnits s t) {st : Nat} {k : StackSt} (same : k.units = (t.stackOf st).units) :
    SameUnits s (t.setStack st k) := by
  obtain ⟨rising, units⟩ := h
  refine ⟨risingFrom_tset _ _ _ rising, fun j => ?_⟩
  by_cases e : j = st
  · have read : (t.setStack st k).stackOf st = k := tget_tset _ _ _ 0 _ rising
    rw [e, read, same, units]
  · have read : (t.setStack st k).stackOf j = t.stackOf j := tget_tset_ne _ _ _ _ _ e
    rw [read, units]

theorem SameUnits.logs {u : State} (h : SameUnits s t) (k : Logs t u) : SameUnits s u := by
  have table : u.stack = t.stack := eq_of_logs State.stack (fun _ _ => rfl) k
  unfold SameUnits State.stackOf at *
  rwa [table]

theorem upsetUnits_sameUnits (h : SameUnits s t) (us : List UnitUpset) : SameUnits s (upsetUnits us t) :=
  List.foldlRecOn us _ h fun _ h _ _ => setStack_sameUnits h rfl

theorem correctWord_sameUnits (h : SameUnits s t) (st u : Nat) (detail : Bytes) (cells : List Nat) :
    SameUnits s (correctWord st u detail t cells) := by
  unfold correctWord
  refine (setStack_sameUnits h ?_).logs (raise_logs _ _ _ _ _ _ _)
  exact List.foldlRecOn _ _ (motive := fun k : StackSt => k.units = (t.stackOf st).units) rfl fun _ same _ _ => same

theorem correctUnit_sameUnits (h : SameUnits s t) (st u : Nat) (detail : Bytes) :
    SameUnits s (correctUnit t st u detail) :=
  List.foldlRecOn _ _ (setStack_sameUnits h rfl) fun _ h _ _ => correctWord_sameUnits h _ _ _ _

theorem scrubUnit_sameUnits (h : SameUnits s t) (st u : Nat) : SameUnits s (scrubUnit st u t) := by
  unfold scrubUnit
  dsimp only
  split
  · exact h
  · split
    · refine SameUnits.logs ?_ (raise_logs _ _ _ _ _ _ _)
      exact setStack_sameUnits h rfl
    · exact correctUnit_sameUnits h st u []

/-- The patrol scrub leaves every written unit as it was, where the table of stacks is in rising order. -/
theorem units_patrolScrub (rising : risingFrom 0 s.stack = true) (st : Stack) (unit : BitVec 29) (us : List UnitUpset) :
    ∃ t, exec (.patrolScrub st unit us) s = .next t ∧ ∀ j, (t.stackOf j).units = (s.stackOf j).units :=
  ⟨_, rfl, (scrubUnit_sameUnits (upsetUnits_sameUnits ⟨rising, fun _ => rfl⟩ us) st unit.toNat).2⟩

/-! ### Where it does not -/

/-- Two entries for stack 0: the first holds one erroneous symbol in unit 0 and nothing else, the second a written unit. -/
def errsTwice : State :=
  { stack := [(0, { errs := [(0, { symbols := [(0, 0)] })] }), (0, { units := [(0, { key := 0, data := [] })] })] }

theorem units_scrubUnit_errsTwice : ((scrubUnit 0 0 errsTwice).stackOf 0).units ≠ (errsTwice.stackOf 0).units := by
  decide +kernel

/-- Refutes O20: the scrub of a stack table's first of two entries for one stack brings the second into force. -/
theorem not_stackCommands : ¬ Obligations.StackCommands := by
  rintro ⟨-, -, -, events⟩
  obtain ⟨scrub, -⟩ := events errsTwice
  obtain ⟨t, run, -, -, -, units, -⟩ := scrub 0 0 [] (by decide)
  have e : exec (.patrolScrub 0 0) errsTwice = .next (scrubUnit 0 0 errsTwice) := rfl
  cases e.symm.trans run
  exact units_scrubUnit_errsTwice units

end Sys2Proof.Proofs
end

section
/-!
Grammars and key domains (O23; R290 to R292, R328, R329): an image placed and given back, the retirement of a domain, and the
destruction of its key.
-/

namespace Sys2Proof.Proofs

open Sys2Proof.Machine Sys2Proof.Laws

variable {s : State} {acc : Nat} {a : Acc} {b : Bytes} {g : Grammar}

theorem tfind_tdel_ne {α : Type} {k j : Nat} (m : Tbl α) (ne : j ≠ k) : tfind (tdel k m) j = tfind m j := by
  induction m with
  | nil => rfl
  | cons e m ih =>
    rw [tdel, tfind]
    split_ifs with same first first
    · exact absurd (first.symm.trans same) ne
    · rfl
    · rw [tfind, if_pos first]
    · rw [tfind, if_neg first, ih]

/-! ### Images placed (R292, R328, R329) -/

/-- A block is taken for each stack named. -/
theorem length_takeBlocks (s : State) (sts : List Nat) : (takeBlocks s sts).2.length = sts.length := by
  induction sts using List.reverseRecOn with
  | nil => rfl
  | append_singleton sts st ih =>
    unfold takeBlocks at ih ⊢
    rw [List.foldl_append, List.foldl_cons, List.foldl_nil, List.length_append, ih, List.length_append]
    rfl

/-- An image charged to the system's domain, with the blocks taken for it. -/
def imageTaken (s : State) (b : Bytes) : State × List (Nat × Nat) :=
  takeBlocks (reserveDomain s 0 (imageStacks b.length).length) (imageStacks b.length)

/-- An image in its blocks. -/
def imageWritten (s : State) (b : Bytes) : State :=
  writeRun (imageTaken s b).1 (imageTaken s b).2 0 0 ((List.range ((b.length + 255) / 256)).map fun i => slice b (256 * i) 256)

theorem length_imageTaken (s : State) (b : Bytes) : (imageTaken s b).2.length = (b.length + 4095) / 4096 := by
  rw [imageTaken, length_takeBlocks, imageStacks, List.length_map, List.length_range]

theorem imageWritten_takes (s : State) (b : Bytes) : TakesBlocks s (imageWritten s b) :=
  ((reserveDomain_takes s _ _).trans (takeBlocks_takes _ _)).trans (writeRun_writes _ _ _ _ _).takes

/-- An image that parses takes its blocks and its grammar's place, and the load is completed. -/
theorem grammarLoadEff_parsed (absent : tfind s.grammars (a.bits 8 4 11 0) = none) (parsed : parseGrammar b = some g)
    (room : s.room (imageStacks b.length) = true) : grammarLoadEff s acc a b =
      complete { imageWritten s b with
        grammars := tput (a.bits 8 4 11 0) { g with blocks := (imageTaken s b).2 } (imageWritten s b).grammars } acc 0 0 := by
  unfold grammarLoadEff
  dsimp only
  rw [absent, if_neg (by decide), parsed]
  exact if_pos room

theorem exec_grammarLoad (served : s.serves acc 0x06 a) (len : b.length = a.fld 0x18 8) :
    exec (.grammarLoad acc (.ok b)) s = .next (grammarLoadEff s acc a b) :=
  (serve_served served _).trans (congrArg _ (if_pos len))

/-! ### Images given back (R329) -/

/-- A grammar that no open stream uses leaves its place and gives its blocks back, and the unload is completed. -/
theorem grammarUnloadEff_unused (found : tfind s.grammars (a.bits 8 4 11 0) = some g)
    (unused : s.streams.any (fun h => h.2.grammarOn && h.2.grammar == a.bits 8 4 11 0) = false) :
    ∃ k d, grammarUnloadEff s acc a =
      complete { s with grammars := tdel (a.bits 8 4 11 0) s.grammars, stack := k, domains := d } acc 0 0 := by
  obtain ⟨k, d, freed⟩ := freeBlocks_releaseDomain_frees { s with grammars := tdel (a.bits 8 4 11 0) s.grammars } 0
    g.blocks.length g.blocks
  refine ⟨k, d, ?_⟩
  unfold grammarUnloadEff
  dsimp only
  rw [found]
  exact (if_neg (Bool.eq_false_iff.1 unused)).trans (congrArg (complete · acc 0 0) freed)

theorem exec_grammarUnload (served : s.serves acc 0x07 a) :
    exec (.grammarUnload acc) s = .next (grammarUnloadEff s acc a) :=
  serve_served served _

/-! ### Domains retired (R291) -/

theorem domOf_retiring (s : State) (d : Nat) :
    (s.setDom d { s.domOf d with state := 2 }).domOf d = { s.domOf d with state := 2 } :=
  tget_tset_of_ne ({} : Domain) s.domains d { s.domOf d with state := 2 } fun same =>
    absurd (congrArg Domain.state same) (Nat.succ_ne_zero 1)

theorem domainRetireEff_empty (named : a.bits 8 4 12 0 ≠ 0) (unused : (s.domOf (a.bits 8 4 12 0)).used = 0)
    (closed : s.streams.any (fun h => h.2.domain == a.bits 8 4 12 0) = false) : domainRetireEff s acc a =
      begin_ (s.setDom (a.bits 8 4 12 0) { s.domOf (a.bits 8 4 12 0) with state := 2 }) acc := by
  have empty : ¬ ((s.domOf (a.bits 8 4 12 0)).used ≠ 0 ∨ s.streams.any (fun h => h.2.domain == a.bits 8 4 12 0) = true) := by
    rw [unused, closed]
    decide
  exact (if_neg named).trans (if_neg empty)

theorem exec_domainRetire (served : s.serves acc 0x08 a) :
    exec (.domainRetire acc) s = .next (domainRetireEff s acc a) :=
  serve_served served _

/-! ### Keys destroyed (R291) -/

/-- `s` with domain `dom` FREE and without a key. -/
def keyless (s : State) (dom : Nat) : State := s.setDom dom { s.domOf dom with state := 0, key := none }

theorem domOf_keyless (rising : risingFrom 0 s.domains = true) (dom : Nat) :
    (keyless s dom).domOf dom = { s.domOf dom with state := 0, key := none } :=
  tget_tset ({} : Domain) s.domains dom 0 _ rising

/-- Where no manifest waits, no load is judged again. -/
theorem wakeLoads_judged (judged : s.loads.all (fun l => l.accepted || l.manifest.isEmpty) = true) : wakeLoads s = s := by
  have none_waits : s.loads.filter (fun l => !l.accepted && !l.manifest.isEmpty) = [] := by
    refine List.filter_eq_nil_iff.2 fun l mem => ?_
    rw [← Bool.not_or, List.all_eq_true.1 judged l mem]
    decide
  rw [wakeLoads, none_waits]
  rfl

theorem wakeLoads_complete (judged : s.loads.all (fun l => l.accepted || l.manifest.isEmpty) = true)
    (acc status detail : Nat) (r : Results) :
    wakeLoads (complete s acc status detail r) = complete s acc status detail r := by
  obtain ⟨-, -, -, loads⟩ := complete_install s acc status detail r
  exact wakeLoads_judged (by rwa [loads])

/-- The destruction of a RETIRING domain's key completes the retirement that waits for it. -/
theorem exec_domainKeyDestroyed {dom : BitVec 13} (retiring : (s.domOf dom.toNat).state = 2)
    (waiting : s.intake.acc.find? (fun e => e.2.kind == 0x08 && e.2.begun && e.2.bits 8 4 12 0 == dom.toNat) = some (acc, a))
    (judged : s.loads.all (fun l => l.accepted || l.manifest.isEmpty) = true) :
    exec (.domainKeyDestroyed dom) s =
      .next (complete (keyless s dom.toNat) acc 0 0 { r1 := dom.toNat, r3 := (s.domOf dom.toNat).epoch }) := by
  have e : exec (.domainKeyDestroyed dom) s = execDomainKeyDestroyed dom s := rfl
  have woken := wakeLoads_complete (s := keyless s dom.toNat) judged acc 0 0
    { r1 := dom.toNat, r3 := (s.domOf dom.toNat).epoch }
  unfold keyless at woken ⊢
  simp only [e, execDomainKeyDestroyed, act, retiring, setDom_intake, waiting, woken, if_true]

/-! ### Settling O23 -/

/-- Settles O23: each command's effect is one completion of, or mark on, its descriptor; placing and freeing an image write the
stacks and domains alone. -/
theorem grammarsAndDomains : Obligations.GrammarsAndDomains := by
  refine fun s acc a => ⟨fun b g served len absent parsed room => ?_, fun g served found rising unused => ?_,
    fun served named unused closed => ?_, fun dom retiring rising waiting found mute live going judged => ?_,
    fun dom other => if_neg other⟩
  · obtain ⟨k, d, n, placed⟩ := imageWritten_takes s b
    have eff := grammarLoadEff_parsed (acc := acc) absent parsed room
    rw [placed] at eff
    obtain ⟨fns, os, written, completes⟩ := Answerable.completed (s := { s with
        stack := k, domains := d, free := n
        grammars := tput (a.bits 8 4 11 0) { g with blocks := (imageTaken s b).2 } s.grammars })
      (answerable_of_serves served) 0 0 {}
    exact ⟨_, _, (exec_grammarLoad served len).trans (congrArg _ (eff.trans written)), completes, tfind_tput _ _ _,
      length_imageTaken s b, fun _ ne => tfind_tput_ne _ _ ne⟩
  · obtain ⟨k, d, eff⟩ := grammarUnloadEff_unused (acc := acc) found unused
    obtain ⟨fns, os, written, completes⟩ := Answerable.completed (s := { s with
        grammars := tdel (a.bits 8 4 11 0) s.grammars, stack := k, domains := d })
      (answerable_of_serves served) 0 0 {}
    exact ⟨_, (exec_grammarUnload served).trans (congrArg _ (eff.trans written)), completes, tfind_tdel rising,
      fun _ ne => tfind_tdel_ne _ ne⟩
  · have eff := domainRetireEff_empty (acc := acc) named unused closed
    rw [begin_found (by exact served.1)] at eff
    exact ⟨_, (exec_domainRetire served).trans (congrArg _ eff), rfl, domOf_retiring s _, tfind_tput _ _ _⟩
  · obtain ⟨fns, os, written, completes⟩ := Answerable.completed (s := keyless s dom.toNat) ⟨found, mute, live, going⟩ 0 0
      { r1 := dom.toNat, r3 := (s.domOf dom.toNat).epoch }
    refine ⟨_, (exec_domainKeyDestroyed retiring waiting judged).trans (congrArg _ written), completes, ?_,
      domOf_keyless rising dom.toNat⟩
    dsimp only [State.uncompleted, keyless, State.setDom]

end Sys2Proof.Proofs
end

section
/-!
The statement about the table of prefixes fails (O22; R313, R324, R370): its eviction clause asks a completion of every state
whose entries are in rising order, and nothing of the table of functions. A reclaimed entry's page leaves its function's count
(R370). In a table with two entries for that function the first is in force; where only that count keeps it from the reset
value, the entry is removed as equal to the default, and the second, under which the function is in reset, comes into force:
no completion is written (R386). Where the keys of the table rise, the eviction is completed (`completes_prefixEvict`): of the
table of functions the clause says nothing, and it needs that.
-/

namespace Sys2Proof.Proofs

open Sys2Proof.Machine Sys2Proof.Laws

variable {s t : State} {acc : Nat} {a : Acc}

/-- What allows function `a.fn` an eviction: it is function 0, or a domain is named in which it has a stream (R324). -/
def MayEvict (s : State) (a : Acc) : Prop :=
  a.fn = 0 ∨ ((a.bits 8 4 16 16 == 1) = false ∧
    s.streams.any (fun e => e.2.domain == a.bits 8 4 12 0 && e.2.fn == a.fn) = true)

/-- The entries that an eviction selects, by their numbers (R324). -/
def selected (s : State) (a : Acc) : List Nat :=
  (s.prefixes.filter fun e => a.bits 8 4 16 16 == 1 || e.2.domain == a.bits 8 4 12 0).map (·.1)

/-- `s` with the selected entries' lifetimes over. -/
def expired (s : State) (a : Acc) : State :=
  { s with prefixes := s.prefixes.map fun e =>
      if (selected s a).contains e.1 then (e.1, { e.2 with expiry := min e.2.expiry s.chron.count }) else e }

/-- The selected entries swept in order, and the count of those reclaimed. -/
def swept (s : State) (a : Acc) : State × Nat :=
  (selected s a).foldl (fun r e => let x := sweepEntry r.1 e; (x.1, r.2 + natOfBool x.2)) (expired s a, 0)

theorem prefixEvictEff_permitted (permitted : MayEvict s a) : prefixEvictEff s acc a =
    complete (swept s a).1 acc 0 0 { r1 := (swept s a).2, r3 := (selected s a).length - (swept s a).2 } := by
  have one : ¬ ((a.bits 8 4 16 16 == 1) = true ∧ a.fn ≠ 0) := by
    rintro ⟨all, foreign⟩
    rcases permitted with host | ⟨one, -⟩
    · exact foreign host
    · exact Bool.noConfusion (all.symm.trans one)
  have own : ¬ ((a.bits 8 4 16 16 == 1) = false ∧ a.fn ≠ 0 ∧
      s.streams.any (fun e => e.2.domain == a.bits 8 4 12 0 && e.2.fn == a.fn) = false) := by
    rintro ⟨-, foreign, closed⟩
    rcases permitted with host | ⟨-, used⟩
    · exact foreign host
    · exact Bool.noConfusion (used.symm.trans closed)
  exact (if_neg one).trans (if_neg own)

/-- An eviction names no stream, so that it waits for the table alone. -/
theorem exec_prefixEvict (served : s.serves acc 0x1A a) (turn : s.blocked acc a.handles = false)
    (idle : s.tableBusy acc a = false) : exec (.prefixEvict acc) s = .next (prefixEvictEff s acc a) := by
  have streamless : a.handles = [] := by
    obtain ⟨-, kind, -⟩ := served
    simp [Acc.handles, kind]
  refine (serve_served served _).trans ((if_pos ⟨turn, idle⟩).trans ?_)
  rw [streamless]
  rfl

/-! ### What a table of functions in rising order keeps -/

/-- The intake of `t` is that of `s`, and its functions are a table in rising order with the same completion rings and resets
as those of `s`. -/
def KeepsRings (s t : State) : Prop :=
  risingFrom 0 t.fns = true ∧ t.intake = s.intake ∧
    ∀ f, (t.fnOf f).cq = (s.fnOf f).cq ∧ (t.fnOf f).inReset = (s.fnOf f).inReset

theorem setFn_keepsRings (h : KeepsRings s t) {f : Nat} {x : FnState} (rings : x.cq = (t.fnOf f).cq)
    (resets : x.inReset = (t.fnOf f).inReset) : KeepsRings s (t.setFn f x) := by
  obtain ⟨rising, intake, fns⟩ := h
  refine ⟨risingFrom_tset _ _ _ rising, intake, fun g => ?_⟩
  by_cases e : g = f
  · rw [e, fnOf_setFn t f x rising, rings, resets]
    exact fns f
  · rw [fnOf_setFn_ne t f g x e]
    exact fns g

theorem settlePage_keepsRings (h : KeepsRings s t) (n : Nat) : KeepsRings s (settlePage t n) := by
  unfold settlePage
  split
  next p _ =>
    split
    · obtain ⟨k, d, freed⟩ :=
        freeBlocks_releaseDomain_frees { t with pages := tdel n t.pages } p.domain (4 * p.slotRows) p.blocks
      have kept : KeepsRings s { t with pages := tdel n t.pages, stack := k, domains := d } := h
      dsimp only
      rw [freed]
      split
      · exact setFn_keepsRings kept rfl rfl
      · exact setFn_keepsRings kept rfl rfl
    · exact h
  · exact h

theorem sweepEntry_keepsRings (h : KeepsRings s t) (e : Nat) : KeepsRings s (sweepEntry t e).1 := by
  unfold sweepEntry
  split
  · split
    · exact settlePage_keepsRings (t := { t with prefixes := tdel e t.prefixes }) h _
    · exact h
  · exact h

theorem swept_keepsRings (rising : risingFrom 0 s.fns = true) (a : Acc) : KeepsRings s (swept s a).1 :=
  List.foldlRecOn (motive := fun r : State × Nat => KeepsRings s r.1) _ _
    ⟨rising, rfl, fun _ => ⟨rfl, rfl⟩⟩ fun _ h e _ => sweepEntry_keepsRings h e

/-- A completion written in a state with the same rings is one in the first. -/
theorem KeepsRings.completes (h : KeepsRings s t) (answerable : Answerable s acc a) (status detail : Nat) (r : Results) :
    Completes s (complete t acc status detail r) acc a status detail r := by
  obtain ⟨-, intake, fns⟩ := h
  obtain ⟨found, mute, live, going⟩ := answerable
  obtain ⟨rings, resets⟩ := fns a.fn
  have ring : t.cqOf a.fn a.cq = s.cqOf a.fn a.cq := by rw [State.cqOf, State.cqOf, rings]
  obtain ⟨fns, os, written, completes⟩ := Answerable.completed (s := t) (acc := acc) (a := a)
    ⟨intake ▸ found, mute, resets ▸ live, ring ▸ going⟩ status detail r
  rw [written]
  unfold Completes at completes ⊢
  rw [ring, intake] at completes
  rw [intake]
  exact completes

/-- An eviction is completed, where the table of functions is in rising order. -/
theorem completes_prefixEvict (rising : risingFrom 0 s.fns = true) (served : s.serves acc 0x1A a)
    (turn : s.blocked acc a.handles = false) (idle : s.tableBusy acc a = false) (permitted : MayEvict s a) :
    ∃ t, exec (.prefixEvict acc) s = .next t ∧
      Completes s t acc a 0 0 { r1 := (swept s a).2, r3 := (selected s a).length - (swept s a).2 } :=
  ⟨_, (exec_prefixEvict served turn idle).trans (congrArg _ (prefixEvictEff_permitted permitted)),
    (swept_keepsRings rising a).completes (answerable_of_serves served) _ _ _⟩

/-! ### Where it does not -/

/-- A PREFIX_EVICT of function 0 that selects the entries of domain 0. -/
def evictDesc : Acc :=
  { fn := 0, sq := 0, cq := 0, desc := [0x1A], pasid := none, windows := 0, sqHead := 0 }

/-- That descriptor accepted, with one entry of domain 0 whose page no stream counts, and with two entries for
function 0: the first holds that page's count and nothing else, the second is in reset. -/
def fnTwice : State :=
  { intake := { acc := [(0, evictDesc)] }
    prefixes := [(0, { tag := 0, page := 0, cls := 0, domain := 0, expiry := 0, depth := 0 })]
    pages := [(0, { cls := 0, refs := 0, fn := 0, domain := 0, rows := [], blocks := [], slotRows := 0 })]
    fns := [(0, { pages := 1 }), (0, { inReset := true })] }

theorem fnTwice_serves : fnTwice.serves 0 0x1A evictDesc := by
  unfold State.serves
  decide +kernel

theorem out_prefixEvictEff_fnTwice : (prefixEvictEff fnTwice 0 evictDesc).out = [] := by decide +kernel

/-- Refutes O22: an eviction frees the last page that the first of two entries of a function counts, and the second, which is in
reset, comes into force: no completion is written. -/
theorem not_prefixTableServed : ¬ Obligations.PrefixTableServed := by
  rintro ⟨commands, -⟩
  obtain ⟨-, -, -, evict⟩ := commands fnTwice 0 evictDesc (by decide) (by decide) (by decide)
  obtain ⟨t, run, ⟨-, written⟩, -⟩ := evict fnTwice_serves (.inl rfl)
  cases (exec_prefixEvict fnTwice_serves (by decide) (by decide)).symm.trans run
  rw [out_prefixEvictEff_fnTwice] at written
  exact List.not_mem_nil written

end Sys2Proof.Proofs
end

section
/-!
Every command answers (O3): no meaning faults, and none is refused.
-/

namespace Sys2Proof.Proofs

open Sys2Proof.Machine

/-- An answer that is a next state. -/
def Answers (x : Res) : Prop := ∃ t, x = .next t

variable {s : State}

@[simp] theorem answers_next (t : State) : Answers (.next t) := ⟨t, rfl⟩

@[simp] theorem answers_act (c : Prop) [Decidable c] (t s : State) : Answers (act c t s) := by
  unfold act
  split <;> exact answers_next _

theorem serve_answers {acc kind : Nat} {f : Acc → Res} (hf : ∀ a, Answers (f a)) : Answers (serve s acc kind f) := by
  unfold serve
  split
  · split
    · exact hf _
    · exact answers_next s
  · exact answers_next s

theorem serve_next_answers (acc kind : Nat) (f : Acc → State) : Answers (serve s acc kind fun a => .next (f a)) :=
  serve_answers fun _ => answers_next _

theorem ctrlUnit_answers {p : Nat} {u : CtrlUnit} {type : Nat} {m0 m1 m2 : W32} {f : State} :
    Answers (ctrlUnit s p u type m0 m1 m2 f) := by
  unfold ctrlUnit
  repeat' split
  all_goals exact answers_next _

theorem issueForm_answers (v : VMove) (f : VFun) (x : VForm) : Answers (issueForm s v f x) := by
  cases x <;> exact answers_act _ _ _

theorem issueForm2_answers (v : VMove) (f : VFun) (x : VForm2) : Answers (issueForm2 s v f x) := by
  cases x <;> exact answers_act _ _ _

theorem execPlanLoad_answers (acc : Nat) (image : HostData) : Answers (execPlanLoad acc image s) := by
  refine serve_answers fun a => ?_
  split
  · unfold planLoadEff
    extract_lets
    split
    · exact answers_next _
    · split <;> exact answers_next _
  · exact answers_next _

theorem execWeightLoad_answers (acc : Nat) (manifest authority : HostData) : Answers (execWeightLoad acc manifest authority s) := by
  refine serve_answers fun a => ?_
  extract_lets
  split <;> exact answers_next _

theorem execTenancyOpen_answers (acc : Nat) (keys groups : HostData) : Answers (execTenancyOpen acc keys groups s) := by
  refine serve_answers fun a => ?_
  split
  · exact answers_next _
  · split
    · extract_lets
      split <;> exact answers_next _
    · exact answers_next _
    · exact answers_next _

theorem execRegisterWrite_answers (f : Fn) (bar2 : Bool) (offset width : Nat) (value : W64) :
    Answers (execRegisterWrite f bar2 offset width value s) := by
  unfold execRegisterWrite fnBlockWrite
  repeat' split
  all_goals simp [execSqTailDoorbell, execCqHeadDoorbell, execSqContextWrite, execCqContextWrite]

theorem exec_answers (c : Instr) (s : State) : Answers (exec c s) := by
  cases c
  case balanceStop | nop | idle | agBase | agStride | nestOpen | wait | take | stepEnd | fetchRequest | fetchArrival
      | timedLaunch | tileLoad | tileScales | ascaleSet | stream | drain | drainWide | accLoad | seedSet | iota |
      vectorCopy | abs | neg | exp2 | log2 | rcp | sqrt | rsqrt | tanh | sigmoid | gelu | silu | vset | vtap | tload
      | rsum | rsumsq | rdot | rmax | rmin | rargmax | raddw | rstore | transpose | retile | convert | kset | pset |
      mvm | prel | passTick | awStepCancel | maintenancePass | shadowScrub | installPhaseEnd | awPowerGood |
      awInitDone | awCalibrationDone | awRailLost | read | write | gather | scatter | embed | zero | copy |
      pageAppend | pageRead | stackCancel | domainKeyDestroyed | bset | select | shadowRead | hread | hwrite |
      irqCoalesceTimeout | msixUnmask | frameStart | windowStart | windowEnd | windowIdleEnd | flrStart |
      flrComplete | packetReceive | ackTimer | replayTimeout | heartbeatSend | heartbeatMiss | timeSourceTimeout |
      timePpsEdge | laneLockLoss | retrainComplete | retrainTimeout | fecLockLoss | signalDetect | trainConverge |
      alignLock | trainingTimeout | linkCtrlRetrain | linkCtrlCold | fsend | frecv | e2eData | gatherEnd |
      memberCommit | twinPacket | twinTimeout | getVersion | getCapabilities | negotiateAlgorithms | getDigests |
      getCertificate | challenge | getMeasurements | chunkSend | chunkGet | ownershipClaim | evringWrite |
      evringIrqTimeout | dropSummary | alarmLatchClear | obsSnapshot | stopReached | stopResume | scanout |
      scanRequest | replayAccept | hostLinkReset | bootStageEnd | pwrGood | railEnableDelay | powerGoodTimeout |
      thermalLimit | refClkMissing | refClkLost | apertureWrite | unprescribedWrite | dropCounterRead |
      funcStatusRead | errorBoundExceeded | refClkReturn | powerGoodFall | railDisableDelay | commitCopyDone |
      replicaUpdateDone | observationFrameSend =>
    exact answers_act _ _ _
  case planBeatIssue | supplyDroop | regulatorEstimate | accBackgroundScrub | awLinkFatal | patrolScrub |
      seLinkFatal | prefixSweep | sqTailDoorbell | cqHeadDoorbell | sqContextWrite | cqContextWrite | slotTransmit |
      linkCtrlEnable | gridResume | gridWithdraw | pldmTableUpdate | stopRequest | jtagStop | jtagReset | extest |
      idcode | samplePreload | bypass | porRelease | resetN | devReset | pkgLimit | thermalSample | pwrFailN |
      timeSet | timeCtrlWrite | tableCommit | memberStatusRead | mctpRegisterAccess | pldmReset | vddAonLow =>
    exact answers_next _
  case add | sub | mul | mad | min | max | cmpeq | cmpne | cmplt | cmple | sel | and | or | xor | shl | shr =>
    exact issueForm_answers _ _ _
  case affine | exps => exact issueForm2_answers _ _ _
  case planUnload | weightUnload | domainRetire | grammarLoad | grammarUnload | nopDescriptor | faultInject |
      tenancyClose =>
    exact serve_next_answers _ _ _
  case streamOpen | streamSet | streamFork | streamClose | prefixProbe | prefixPublish | prefixEvict =>
    exact serve_answers fun _ => answers_act _ _ _
  case planLoad => exact execPlanLoad_answers _ _
  case weightLoad => exact execWeightLoad_answers _ _ _
  case step => exact serve_answers fun _ => answers_act _ _ _
  case tenancyOpen => exact execTenancyOpen_answers _ _ _
  case registerWrite => exact execRegisterWrite_answers _ _ _ _ _
  case ack | nak | credit | heartbeat | timeReq | timeRsp | trim | propose | switch | retrain | param | abort |
      dyingGasp | memberItem | memberLevel | halfOut =>
    exact ctrlUnit_answers
  case waitRelease | waitLimit | stepLaunch | chainedLaunch | stepArm | stepComplete | planLoadDone | planUnloadDone
      | manifestFragment | chunkFragment | relayRefused | chunkRequest | psetAdmit | panesReady | mvmRetire |
      prelRelease | groupRefresh | selftestStart | selftestSettle | selftestDone | paneMapSwitch | pulseVerify |
      stackCmdRetire | streamWriteback | descriptorFetch | descriptorAccept | hostReadCompletion | nakRepeat |
      linkCreditStarved | laneRestoreTimer | mgmtRequest | frecvRetire | collectCombine | e2eAck | e2eReq |
      e2eTimeout | fenceLimit | linkDrop | linkDropEnd | poison | vacancy | audit | tenancyScrub | tenancyCloseDone
      | evringCtrlWrite | hwriteRetire | mctpRecordPush =>
    simp only [exec, execWaitRelease, execWaitLimit, execStepLaunch, execChainedLaunch, execStepArm, execStepComplete,
      execPlanLoadDone, execPlanUnloadDone, execManifestFragment, execChunkFragment, execRelayRefused, execChunkRequest,
      execPsetAdmit, execPanesReady, execMvmRetire, execPrelRelease, execGroupRefresh, execSelftestStart,
      execSelftestSettle, execSelftestDone, execPaneMapSwitch, execPulseVerify, execStackCmdRetire, execStreamWriteback,
      execDescriptorFetch, execDescriptorAccept, execHostReadCompletion, execNakRepeat, execLinkCreditStarved,
      execLaneRestoreTimer, execMgmtRequest, execFrecvRetire, execCollectCombine, execE2eAck, execE2eReq, execE2eTimeout,
      execFenceLimit, execLinkDrop, execLinkDropEnd, execPoison, execVacancy, execAudit, execTenancyScrub,
      execTenancyCloseDone, execEvringCtrlWrite, execHwriteRetire, execMctpRecordPush]
    repeat' split
    all_goals simp
  -- SEAL is left, whose name is a keyword of Lean and so no case tag.
  · exact ctrlUnit_answers

/-- Settles O3: every meaning answers (`exec_answers`), and no command writes the queue of waiting commands (`exec_keeps`). -/
theorem everyCommandAnswers : Obligations.EveryCommandAnswers := by
  intro c s
  obtain ⟨t, answers⟩ := exec_answers c s
  exact ⟨t, answers, ((exec_keeps c (.refl s)).of_next t answers).pending⟩

end Sys2Proof.Proofs
end

section
/-!
The statement about function-level resets fails (O28; R386): it asks that no accepted descriptor of another function be
dropped, and nothing of the table of accepted descriptors. The descriptors dropped are taken from the table by their numbers. In
a table with two entries of one number, one of the function that is reset and one of another, both go.
-/

namespace Sys2Proof.Proofs

open Sys2Proof.Machine Sys2Proof.Laws

/-- A command that acts only where `c` holds has its effect there. -/
theorem act_next {c : Prop} [Decidable c] (h : c) (t s : State) : act c t s = .next t := if_pos h

theorem exec_flrStart {s : State} {f : Fn} (enabled : s.fnEnabled f = true) (live : (s.fnOf f).inReset = false) :
    exec (.flrStart f) s = .next (flrStartEff f s) := act_next ⟨enabled, live⟩ _ _

/-- A descriptor of function `fn` that has not begun. -/
def descOf (fn : Nat) : Acc :=
  { fn := fn, sq := 0, cq := 0, desc := [], pasid := none, windows := 0, sqHead := 0 }

/-- The first virtual function of physical function 0 is enabled, and number 0 is that of a descriptor of it and of one of the
next function. -/
def accTwice : State :=
  { fns := [(0, { vfEnable := true, numVfs := 1 })], intake := { acc := [(0, descOf 4), (0, descOf 5)] } }

theorem fnEnabled_accTwice : accTwice.fnEnabled 4 = true := by decide +kernel

theorem acc_flrStartEff_accTwice : (flrStartEff 4 accTwice).intake.acc = [] := by decide +kernel

/-- Refutes O28: the reset of function 4 drops its descriptor by its number, and with it the one of function 5 that stands
under the same number. -/
theorem not_functionResets : ¬ Obligations.FunctionResets := by
  intro holds
  obtain ⟨start, -⟩ := holds accTwice 4 (by decide) fnEnabled_accTwice
  obtain ⟨t, run, -, -, -, others, -⟩ := start (by decide)
  cases (exec_flrStart (f := 4) fnEnabled_accTwice (by decide)).symm.trans run
  have kept : (0, descOf 5) ∈ (flrStartEff 4 accTwice).intake.acc := others _ (by simp [accTwice]) (by decide)
  rw [acc_flrStartEff_accTwice] at kept
  exact List.not_mem_nil kept

end Sys2Proof.Proofs
end

section
/-!
The cadence's frames and windows (R372 to R376, R379): what a frame start, a window's start and its end leave.
-/

namespace Sys2Proof.Proofs

open Sys2Proof.Machine Sys2Proof.Laws

variable {s : State}

/-- With no setting and no commit that waits for it, a frame's start takes nothing (R372). -/
theorem takeCadence_of_unchanged (same : (takeCadence s).2 = false) : (takeCadence s).1 = s := by
  simp only [takeCadence, Bool.or_eq_false_iff, bne_eq_false_iff_eq] at same
  obtain ⟨⟨⟨⟨compact, last⟩, control⟩, epoch⟩, commit⟩ := same
  have taken : { s with cad := { s.cad with
      compact := s.cad.nextCompact, last := s.cad.nextLast, ctrlLen := s.cad.nextCtrlLen, epoch := s.cad.nextEpoch } } = s := by
    rw [compact, last, control, epoch]
  simp only [takeCadence, taken, commit, Bool.false_eq_true, ↓reduceIte]

/-- The control window of the frame that is due (R374). -/
def controlWindow (s : State) : WinSpec :=
  { fn := 0, slot := none, guard := 0, length := 100 * s.cad.ctrlLen, blank := false }

theorem frameStartEff_of_unchanged (tabled : s.tabled = true) (same : (takeCadence s).2 = false)
    (fixed : s.cad.compact = false) :
    frameStartEff s = beginWindow
      { s with cad := { s.cad with frameOver := false, frame := s.cad.frame + 1, turn := 0 } } 0 (controlWindow s)
      (s.frameAt s.cad.frame) := by
  simp only [frameStartEff, takeCadence_of_unchanged same, same, Bool.false_eq_true, false_and, ↓reduceIte]
  refine (if_neg (not_not_intro tabled)).trans ?_
  rw [fixed]
  rfl

theorem windowStartEff_of_whole (fixed : s.cad.compact = false) (whole : (s.runWindow s.cad.turn).bad = false) :
    windowStartEff s = (beginWindow s (s.cad.turn + 1) (s.runWindow s.cad.turn) s.cad.sched).bump := by
  simp [windowStartEff, whole, fixed]

theorem closeWindow_of_tabled (tabled : s.tabled = true) :
    closeWindow s = { s with
      intake := { s.intake with sq := none, taken := 0, fetched := none }
      cad := { s.cad with win := none, own := [], turn := s.cad.win.getD 0, sched := s.cad.sched + s.cad.length
                          frameOver := decide (s.cad.last < s.cad.win.getD 0) } } := by
  have tabled' : State.tabled { s with intake := { s.intake with sq := none, taken := 0, fetched := none } } = true := tabled
  simp [closeWindow, tabled']

/-- Settles O27: each command's effect is one window begun or one closed. -/
theorem cadenceWindowsRun : Obligations.CadenceWindowsRun := by
  intro s tabled
  refine ⟨?frame, ?window, ?ended, ?running, ?overrun, ?idle⟩
  case frame =>
    intro due same fixed
    exact ⟨_, (act_next due _ _).trans (congrArg _ (frameStartEff_of_unchanged tabled same fixed)),
      rfl, rfl, rfl, rfl, rfl, rfl, rfl, rfl, rfl, rfl, rfl⟩
  case window =>
    intro frame idle going fixed reached whole
    refine ⟨_, (act_next ⟨frame, idle, going, .inr (.inr reached)⟩ _ _).trans (congrArg _ ((if_pos tabled).trans
      (windowStartEff_of_whole fixed whole))), rfl, rfl, rfl, rfl, rfl, rfl, rfl, rfl, rfl, rfl, rfl, rfl⟩
  case ended =>
    intro window going ended free
    refine ⟨_, (act_next ⟨window, going, ended⟩ _ _).trans (congrArg _ ((if_neg (Bool.eq_false_iff.mp free)).trans
      (closeWindow_of_tabled tabled))), rfl, rfl, rfl, rfl, decide_eq_true_iff, rfl, rfl⟩
  case running =>
    intro window going ended running
    exact (act_next ⟨window, going, ended⟩ _ _).trans (congrArg _ (if_pos running))
  case overrun =>
    intro w
    exact ⟨fun early => if_neg (Nat.not_lt.mpr early), fun late => if_pos late⟩
  case idle =>
    intro i window compact filled going quiet empty read reached
    have met : s.cad.win.isSome = true ∧ s.cad.win ≠ some 0 := by simp [window]
    exact ⟨_, (act_next ⟨met.1, met.2, compact, filled, tabled, going, quiet, empty, by simpa using read, reached⟩ _ _).trans
      (congrArg _ (closeWindow_of_tabled tabled)), rfl, rfl⟩

end Sys2Proof.Proofs
end

section
/-!
What a function-level reset leaves standing (R389): every part of the reset is followed through a relation of the state before
and after it.
-/

namespace Sys2Proof.Proofs

open Sys2Proof.Machine Sys2Proof.Laws

variable {s t u : State}

/-- What R389 names, and the functions' own counts of pages and of open streams, in a table in rising order. -/
structure Standing (s t : State) : Prop where
  rising : risingFrom 0 t.fns = true
  streams : t.streams = s.streams
  pages : t.pages = s.pages
  prefixes : t.prefixes = s.prefixes
  slots : t.slots = s.slots
  sets : t.sets = s.sets
  loads : t.loads = s.loads
  tables : t.tables = s.tables
  tenancy : t.tenancy = s.tenancy
  counts : ∀ g, (t.fnOf g).pages = (s.fnOf g).pages ∧ (t.fnOf g).openStreams = (s.fnOf g).openStreams

/-- What `Standing` speaks of. -/
def standingPart (s : State) : State :=
  { streams := s.streams, pages := s.pages, prefixes := s.prefixes, slots := s.slots, sets := s.sets, loads := s.loads
    tables := s.tables, tenancy := s.tenancy, fns := s.fns }

theorem Standing.refl (rising : risingFrom 0 s.fns = true) : Standing s s :=
  ⟨rising, rfl, rfl, rfl, rfl, rfl, rfl, rfl, rfl, fun _ => ⟨rfl, rfl⟩⟩

/-- What writes nothing of what `Standing` speaks of keeps it. -/
theorem Standing.upd (h : Standing s t) (same : standingPart u = standingPart t) : Standing s u := by
  obtain ⟨rising, streams, pages, prefixes, slots, sets, loads, tables, tenancy, counts⟩ := h
  have fns : u.fns = t.fns := (congrArg State.fns same :)
  refine ⟨fns ▸ rising, (congrArg State.streams same :).trans streams, (congrArg State.pages same :).trans pages,
    (congrArg State.prefixes same :).trans prefixes, (congrArg State.slots same :).trans slots,
    (congrArg State.sets same :).trans sets, (congrArg State.loads same :).trans loads,
    (congrArg State.tables same :).trans tables, (congrArg State.tenancy same :).trans tenancy, fun g => ?_⟩
  have own : u.fnOf g = t.fnOf g := congrArg (tget ({} : FnState) · g) fns
  rw [own]
  exact counts g

theorem Standing.logs (h : Standing s t) (logs : Logs t u) : Standing s u :=
  h.upd (eq_of_logs standingPart (fun _ _ => rfl) logs)

/-- A function's registers may be rewritten but for its counts. -/
theorem Standing.setFn (h : Standing s t) {f : Nat} {x : FnState} (pages : x.pages = (t.fnOf f).pages)
    (streams : x.openStreams = (t.fnOf f).openStreams) : Standing s (t.setFn f x) := by
  obtain ⟨rising, _, _, _, _, _, _, _, _, counts⟩ := h
  refine ⟨risingFrom_tset _ _ _ rising, ‹_›, ‹_›, ‹_›, ‹_›, ‹_›, ‹_›, ‹_›, ‹_›, fun g => ?_⟩
  by_cases own : g = f
  · rw [own, fnOf_setFn t f x rising, pages, streams]
    exact counts f
  · rw [fnOf_setFn_ne t f g x own]
    exact counts g

/-! ### The parts of a reset -/

/-- Displacing what a wheel switch leaves ready writes only ports. -/
theorem displace_ports (s : State) (die : Nat) : ∃ ports, displace s die = { s with ports := ports } := by
  refine List.foldlRecOn (motive := fun u : State => ∃ ports, u = { s with ports := ports }) _ _ ⟨_, rfl⟩ ?_
  rintro _ ⟨ports, rfl⟩ e -
  split
  next f _ =>
    refine List.foldlRecOn (motive := fun u : State => ∃ ports, u = { s with ports := ports }) _ _ ⟨_, rfl⟩ ?_
    rintro _ ⟨ports, rfl⟩ k -
    split
    · exact ⟨_, rfl⟩
    · exact ⟨_, rfl⟩
  · exact ⟨_, rfl⟩

/-- Disarming writes only ports, link dies and the fabric's record. -/
theorem disarm_fabric (s : State) :
    ∃ ports links fabric, disarm s = { s with ports := ports, links := links, fabric := fabric } := by
  obtain ⟨ports, first⟩ := displace_ports s 0
  unfold disarm
  dsimp only
  rw [first]
  generalize cleared : State.setLink _ 0 _ = u
  obtain ⟨ports', second⟩ := displace_ports u 1
  rw [second, ← cleared]
  exact ⟨_, _, _, rfl⟩

theorem Standing.loadPending (h : Standing s t) : Standing s (loadPending t) := by
  obtain ⟨seq, loaded⟩ := loadPending_seq t
  rw [loaded]
  exact h.upd rfl

theorem Standing.disarm (h : Standing s t) : Standing s (disarm t) := by
  obtain ⟨ports, links, fabric, disarmed⟩ := disarm_fabric t
  rw [disarmed]
  exact h.upd rfl

theorem Standing.dropSteps (h : Standing s t) (gone : StepReq → Bool) : Standing s (dropSteps t gone) := by
  have dropped : Standing s { t with steps := t.steps.filter (fun r => !gone r) } := h.upd rfl
  have loose := dropped.disarm
  unfold Machine.dropSteps
  dsimp only
  split <;> split
  · exact loose.loadPending
  · exact dropped.loadPending
  · exact loose
  · exact dropped

theorem Standing.dropDescriptors (h : Standing s t) (f : Nat) : Standing s (dropDescriptors t f).1 := by
  refine Standing.dropSteps ?_ _
  exact h.upd rfl

/-- Discarding the running step writes only its record and the queues. -/
theorem Standing.discardRun (h : Standing s t) (f : Nat) : Standing s (discardRun t f).1 := by
  unfold Machine.discardRun
  split
  · split
    · refine List.foldlRecOn (motive := Standing s) _ _ (h.upd rfl) fun u kept e _ => ?_
      split
      · exact kept.upd rfl
      · exact kept
    · exact h
  · exact h

theorem Standing.flrOne (h : Standing s t) (f : Nat) : Standing s (flrOne t f) := by
  have reset := ((h.dropDescriptors f).discardRun f).setFn (f := f)
    (x := { (Machine.discardRun (Machine.dropDescriptors t f).1 f).1.fnOf f with
      inReset := true, flrStep := (Machine.discardRun (Machine.dropDescriptors t f).1 f).2
      flrDropped := (Machine.dropDescriptors t f).2, flrAt := t.ns }) rfl rfl
  unfold Machine.flrOne
  dsimp only
  split
  · exact reset.upd rfl
  · exact reset

theorem Standing.flrDone (h : Standing s t) (f : Nat) : Standing s (flrDone t f) := by
  have done := (h.setFn (f := f)
    (x := { ({} : FnState) with openStreams := (t.fnOf f).openStreams, pages := (t.fnOf f).pages }) rfl rfl).logs
    (raise_logs _ 0x0404 0 (packDetail [(8, (t.fnOf f).flrStep.getD (2 ^ 64 - 1)), (4, (t.fnOf f).flrDropped)]) none f 0)
  unfold Machine.flrDone
  dsimp only
  split
  · split
    · exact done.upd rfl
    · exact done
  · exact h

/-- What one member's reset keeps, the reset of a group keeps (R390). -/
theorem Standing.group (step : State → Nat → State) (keeps : ∀ {t : State} (f : Nat), Standing s t → Standing s (step t f))
    (rising : risingFrom 0 s.fns = true) (fs : List Nat) : Standing s (fs.foldl step s) :=
  List.foldlRecOn (motive := Standing s) _ _ (.refl rising) fun _ kept f _ => keeps f kept

/-- A command that keeps `Standing` where it acts keeps it. -/
theorem act_standing {c : Prop} [Decidable c] (acts : Standing s t) (rising : risingFrom 0 s.fns = true) :
    ∃ u, act c t s = .next u ∧ Standing s u := by
  by_cases h : c
  · exact ⟨t, if_pos h, acts⟩
  · exact ⟨s, if_neg h, .refl rising⟩

/-- Settles O8: neither the drop of descriptors and steps, nor the discard, nor the registers' reset writes what R389 names. -/
theorem functionResetKeeps : Obligations.FunctionResetKeeps := by
  intro s f rising
  obtain ⟨t, started, start⟩ := act_standing (c := s.fnEnabled f = true ∧ (s.fnOf f).inReset = false)
    (Standing.group flrOne (fun f h => h.flrOne f) rising (s.resetGroup f)) rising
  obtain ⟨u, completed, done⟩ := act_standing (c := (s.fnOf f).inReset = true ∧ (s.fnOf f).flrAt + 50000 ≤ s.ns)
    (Standing.group flrDone (fun f h => h.flrDone f) rising (s.resetGroup f)) rising
  exact ⟨⟨t, started, start.streams, start.pages, start.prefixes, start.slots, start.sets, start.loads, start.tables,
      start.tenancy, start.counts⟩,
    ⟨u, completed, done.streams, done.pages, done.prefixes, done.slots, done.sets, done.loads, done.tables, done.tenancy,
      done.counts⟩⟩

end Sys2Proof.Proofs
end

section
/-!
SUPPORT. What is done at one link port: the state in which only that port differs, and what each operation on the port makes
of it.
-/

namespace Sys2Proof.Proofs

open Sys2Proof.Machine Sys2Proof.Laws

variable {s t u : State} {p : Nat} {x y z : PortSt}

/-- `t` is `s` but for port `p`, which is `y`. -/
structure PortIs (s : State) (p : Nat) (y : PortSt) (t : State) : Prop where
  only : s.onlyPort p t
  port : t.portOf p = y
  rising : risingFrom 0 t.ports = true

theorem PortIs.refl (rising : risingFrom 0 s.ports = true) : PortIs s p (s.portOf p) s :=
  ⟨⟨rfl, fun _ _ => rfl⟩, rfl, rising⟩

theorem PortIs.setPort (h : PortIs s p y t) (z : PortSt) : PortIs s p z (t.setPort p z) := by
  obtain ⟨⟨frame, others⟩, -, rising⟩ := h
  refine ⟨⟨?_, fun q other => ?_⟩, portOf_setPort rising p z, risingFrom_tset _ _ _ rising⟩
  · exact frame
  · exact (portOf_setPort_ne t z other).trans (others q other)

theorem PortIs.logs (h : PortIs s p y t) (logs : Logs t u) : PortIs s p y u :=
  ⟨onlyPort_of_logs h.only logs, (congrArg (tget ({} : PortSt) · p) (ports_of_logs logs)).trans h.port,
    ports_of_logs logs ▸ h.rising⟩

theorem PortIs.ns (h : PortIs s p y t) : t.ns = s.ns := (congrArg State.ns h.only.1 :)

theorem PortIs.chron (h : PortIs s p y t) : t.chron = s.chron := (congrArg State.chron h.only.1 :)

/-- Writing the port from what it holds. -/
theorem setPort_portIs (rising : risingFrom 0 s.ports = true) (p : Nat) (y : PortSt) : PortIs s p y (s.setPort p y) :=
  (PortIs.refl rising).setPort y

theorem PortIs.queueCtrl (h : PortIs s p y t) (m : CtrlMsg) :
    PortIs s p { y with ctrl := y.ctrl ++ [m] } (queueCtrl t p m) := by
  rw [← h.port]
  exact h.setPort _

/-- The port once a message in four units waits at it (R406). -/
def queued (x : PortSt) (m : CtrlMsg) : PortSt := { x with ctrl := x.ctrl ++ List.replicate 4 m }

theorem PortIs.queueFour (h : PortIs s p y t) (m : CtrlMsg) : PortIs s p (queued y m) (queueFour t p m) := by
  have four := (((h.queueCtrl m).queueCtrl m).queueCtrl m).queueCtrl m
  simp only [List.append_assoc, List.cons_append, List.nil_append] at four
  exact four

theorem PortIs.countPort (h : PortIs s p y t) (f : PortCounters → PortCounters) :
    PortIs s p { y with counters := f y.counters } (countPort t p f) := by
  rw [← h.port]
  exact h.setPort _

/-- The port with one more violation counted (R427). -/
def violated (x : PortSt) : PortSt := { x with counters := { x.counters with protocol := sat48 x.counters.protocol } }

theorem PortIs.linkProtocol (h : PortIs s p y t) : PortIs s p (violated y) (linkProtocol t p) :=
  (h.countPort fun c => { c with protocol := sat48 c.protocol }).logs (raise_logs ..)

/-! ### Requests of a retrain (R416, R417) -/

/-- An ACTIVE port that asks for a retrain of a cause, the first one (R417). -/
def asking (x : PortSt) (cause : Nat) : PortSt := queued { x with causes := 2 ^ cause } (retrainUnit x cause)

theorem PortIs.requestRetrain (h : PortIs s p y t) (active : y.state = 5) (first : y.causes = 0) (cause : Nat) :
    PortIs s p (asking y cause) (requestRetrain t p cause) := by
  unfold Machine.requestRetrain
  dsimp only
  rw [h.port, if_neg (not_not_intro active), if_neg (not_not_intro first)]
  exact (h.setPort _).queueFour _

/-- A request of a retrain changes the port only. -/
theorem PortIs.requestRetrain_only (h : PortIs s p y t) (cause : Nat) : ∃ z, PortIs s p z (Machine.requestRetrain t p cause) := by
  unfold Machine.requestRetrain
  dsimp only
  split
  · exact ⟨_, h⟩
  · split
    · exact ⟨_, h.setPort _⟩
    · exact ⟨_, (h.setPort _).queueFour _⟩

theorem PortIs.violate (h : PortIs s p y t) (active : y.state = 5) (first : y.causes = 0) :
    PortIs s p (asking (violated y) 7) (violate t p) :=
  h.linkProtocol.requestRetrain active first 7

theorem PortIs.violate_only (h : PortIs s p y t) : ∃ z, PortIs s p z (Machine.violate t p) :=
  h.linkProtocol.requestRetrain_only 7

/-- The state of an ACTIVE port. -/
theorem state_of_active (active : s.isActive p = true) : (s.portOf p).state = 5 := by
  simpa [State.isActive] using active

/-! ### Acknowledgement (R400, R401, R404) -/

theorem PortIs.countNak (h : PortIs s p y t)
    (calm : (y.nakTimes.filter fun at_ => decide (s.ns < at_ + 1000000)).length < 64) :
    PortIs s p { y with nakTimes := y.nakTimes.filter (fun at_ => decide (s.ns < at_ + 1000000)) ++ [s.ns] }
      (countNak t p) := by
  unfold Machine.countNak
  dsimp only
  rw [h.port, h.ns, if_neg]
  · exact h.setPort _
  · simpa using Nat.succ_le_of_lt calm

/-- The port with a NAK that stands since now (R400). -/
def nakking (x : PortSt) (now : Nat) : PortSt :=
  { x with nakAt := some now, ctrl := x.ctrl ++ [ackUnit x true], counters := { x.counters with nakSent := sat48 x.counters.nakSent }
           nakTimes := x.nakTimes.filter (fun at_ => decide (now < at_ + 1000000)) ++ [now] }

theorem PortIs.sendNak (h : PortIs s p y t)
    (calm : (y.nakTimes.filter fun at_ => decide (s.ns < at_ + 1000000)).length < 64) :
    PortIs s p (nakking y s.ns) (sendNak t p) := by
  unfold Machine.sendNak
  dsimp only
  rw [h.port, h.ns]
  exact (((h.setPort { y with nakAt := some s.ns }).queueCtrl (ackUnit y true)).countPort
    fun c => { c with nakSent := sat48 c.nakSent }).countNak calm

theorem PortIs.sendLinkAck (h : PortIs s p y t) :
    PortIs s p { y with unacked := 0, ctrl := y.ctrl ++ [ackUnit y false] } (sendLinkAck t p) := by
  unfold Machine.sendLinkAck
  dsimp only
  rw [h.port]
  exact (h.setPort { y with unacked := 0 }).queueCtrl (ackUnit y false)

/-! ### Lanes (R420, R422) -/

/-- The port with a change of width counted (R427). -/
def widthCounted (x : PortSt) : PortSt := { x with counters := { x.counters with width := sat48 x.counters.width } }

theorem PortIs.linkWidth (h : PortIs s p y t) (old new : Byte) : PortIs s p (widthCounted y) (linkWidth t p old new) :=
  (h.countPort fun c => { c with width := sat48 c.width }).logs (raise_logs ..)

/-- The port that asks its partner for a mask (R420). -/
def trimming (x : PortSt) (m : Byte) : PortSt :=
  queued { x with trimId := (x.trimId + 1) % 256, trims := x.trims ++ [((x.trimId + 1) % 256, m)] }
    { rank := rankLane, w0 := BitVec.ofNat 32 (6 + m.toNat * 2 ^ 8 + (x.trimId + 1) % 256 * 2 ^ 24) }

theorem PortIs.sendTrim (h : PortIs s p y t) (m : Byte) : PortIs s p (trimming y m) (sendTrim t p m) := by
  unfold Machine.sendTrim
  dsimp only
  rw [h.port]
  exact (h.setPort _).queueFour _

/-! ### RETRAIN (R417, R418) -/

/-- The port in RETRAIN, but for its note of violations (R417, R418). -/
def retraining (x : PortSt) (now : Nat) : PortSt :=
  { x with state := 6, violations := x.violations.filter (fun at_ => decide (now < at_ + 1000000000)), retrainAt := now
           inRetrain := false, noReturn := x.occupied, trims := [], switched := none, switching := none, nextTrim := none
           replaying := none, ctrl := x.ctrl.filter fun m => m.rank != rankRetrain && m.rank != rankLane }

/-- A retrain of no violation (R417, R430). -/
theorem PortIs.enterRetrain (h : PortIs s p y t) (lawful : bitNat y.causes 7 = false) :
    PortIs s p (retraining y s.ns) (enterRetrain t p) := by
  unfold Machine.enterRetrain
  dsimp only
  rw [h.port, h.ns, lawful]
  exact h.setPort _

/-! ### Lane units (R405) -/

/-- A LANE unit of its OP at an ACTIVE port has its effect. -/
theorem laneUnit_good {u : CtrlUnit} {m0 : W32} (good : goodUnit u 6 m0 0 0) {op : Nat} (named : bitsOf u.w0 7 4 = op)
    (active : s.isActive p = true) (f : State) : laneUnit s p u op m0 f = .next f := by
  rw [laneUnit, ctrlUnit_good good, if_pos ⟨named, active⟩]

end Sys2Proof.Proofs
end

section
/-!
The lanes of an ACTIVE port (R419 to R422, R429).
-/

namespace Sys2Proof.Proofs

open Sys2Proof.Machine Sys2Proof.Laws

variable {s : State} {p : Port}

/-! ### The restoration tests that a PROPOSE starts (R419, R421) -/

/-- One step of a PROPOSE: the test of lane `l` is due at once where the lane is to be tested. -/
def proposeLane (due : Nat) (tested : Nat → Prop) [DecidablePred tested] (t : Tbl Nat) (l : Nat) : Tbl Nat :=
  if tested l then tput l due t else t

theorem tfind_proposeLane_of_due {due : Nat} {tested : Nat → Prop} [DecidablePred tested] {t : Tbl Nat} {l : Nat}
    (h : tfind t l = some due) (k : Nat) : tfind (proposeLane due tested t k) l = some due := by
  unfold proposeLane
  split
  · by_cases own : l = k
    · rw [own]; exact tfind_tput ..
    · rw [tfind_tput_ne _ _ own]; exact h
  · exact h

theorem tfind_proposed {due : Nat} {tested : Nat → Prop} [DecidablePred tested] {l : Nat} (h : tested l) :
    ∀ (ls : List Nat) (t : Tbl Nat), l ∈ ls ∨ tfind t l = some due →
      tfind (ls.foldl (proposeLane due tested) t) l = some due
  | [], _, named => named.resolve_left List.not_mem_nil
  | k :: ks, t, named => by
    refine tfind_proposed h ks _ ?_
    rcases named with named | found
    · rcases List.mem_cons.mp named with own | later
      · right
        rw [proposeLane, if_pos (own ▸ h), own]
        exact tfind_tput ..
      · exact .inl later
    · exact .inr (tfind_proposeLane_of_due found k)

/-! ### The commands -/

theorem exec_trim {u : CtrlUnit} (good : goodUnit u 6 0xFF00_FFFF 0 0) (named : bitsOf u.w0 7 4 = 0)
    (active : s.isActive p = true) (rising : risingFrom 0 s.ports = true) :
    (let x := s.portOf p
     let m := BitVec.ofNat 8 (bitsOf u.w0 15 8)
     ∃ t, exec (.trim p u) s = .next t ∧ s.onlyPort p t ∧
       (m ≠ 0 → m &&& ~~~ x.trained = 0 → x.switching = none → x.appliedId ≠ some (bitsOf u.w0 31 24) →
         t.portOf p = { x with switching := some (m, bitsOf u.w0 31 24, 3) }) ∧
       (m ≠ 0 → m &&& ~~~ x.trained = 0 → x.appliedId = some (bitsOf u.w0 31 24) → t.portOf p = x)) := by
  intro x m
  have run : ∀ f, laneUnit s p u 0 0xFF00_FFFF f = .next f := laneUnit_good good named active
  by_cases refused : m = 0 ∨ m &&& ~~~ x.trained ≠ 0
  · have wrong := (PortIs.refl (p := p) rising).linkProtocol
    refine ⟨_, (run _).trans (congrArg _ (if_pos refused)), wrong.only, fun some_ within => ?_, fun some_ within => ?_⟩
    · exact absurd refused (not_or.mpr ⟨some_, not_not_intro within⟩)
    · exact absurd refused (not_or.mpr ⟨some_, not_not_intro within⟩)
  · have same := PortIs.refl (s := s) (p := p) rising
    cases counting : x.switching with
    | some c =>
      obtain ⟨mask, cur, count⟩ := c
      have waits := same.setPort { x with nextTrim := some (m, bitsOf u.w0 31 24) }
      by_cases heard : bitsOf u.w0 31 24 = cur ∨ x.appliedId = some (bitsOf u.w0 31 24)
      · refine ⟨s, (run _).trans (congrArg _ ((if_neg refused).trans ?_)), same.only, fun _ _ => nofun,
          fun _ _ _ => rfl⟩
        rw [show (s.portOf p).switching = some (mask, cur, count) from counting]
        exact if_pos heard
      · refine ⟨_, (run _).trans (congrArg _ ((if_neg refused).trans ?_)), waits.only, fun _ _ => nofun,
          fun _ _ again => absurd (.inr again) heard⟩
        rw [show (s.portOf p).switching = some (mask, cur, count) from counting]
        exact if_neg heard
    | none =>
      have starts := same.setPort { x with switching := some (m, bitsOf u.w0 31 24, 3) }
      by_cases heard : x.appliedId = some (bitsOf u.w0 31 24)
      · refine ⟨s, (run _).trans (congrArg _ ((if_neg refused).trans ?_)), same.only, fun _ _ _ new => absurd heard new,
          fun _ _ _ => rfl⟩
        rw [show (s.portOf p).switching = none from counting]
        exact if_pos heard
      · refine ⟨_, (run _).trans (congrArg _ ((if_neg refused).trans ?_)), starts.only, fun _ _ _ _ => starts.port,
          fun _ _ again => absurd again heard⟩
        rw [show (s.portOf p).switching = none from counting]
        exact if_neg heard

/-- A PROPOSE writes only the tests of its port (R421). -/
theorem exec_propose {u : CtrlUnit} (good : goodUnit u 6 0xFF00_FFFF 0 0) (named : bitsOf u.w0 7 4 = 1)
    (active : s.isActive p = true) :
    exec (.propose p u) s = .next (s.setPort p { s.portOf p with
      restore := (List.range 8).foldl (proposeLane (s.ns - 1000000) fun l =>
        (BitVec.ofNat 8 (bitsOf u.w0 15 8)).getLsbD l = true ∧ ¬ (s.portOf p).rxMask.getLsbD l = true ∧
          (s.portOf p).trained.getLsbD l = true) (s.portOf p).restore }) :=
  laneUnit_good good named active _

/-- Lane `l` of the mask that a LANE unit names (R405). -/
theorem laneMask_getLsbD (w : W32) {l : Nat} (lane : l < 8) :
    (BitVec.ofNat 8 (bitsOf w 15 8)).getLsbD l = w.getLsbD (8 + l) := by
  have field : bitsOf w 15 8 = w.toNat / 2 ^ 8 % 2 ^ 8 := rfl
  rw [BitVec.getLsbD_ofNat, field, Nat.testBit_mod_two_pow, Nat.testBit_div_two_pow, Nat.add_comm]
  simp [lane, BitVec.getLsbD]

theorem takeMask_port (rising : risingFrom 0 s.ports = true) (id : Nat) (m : Byte) :
    ∃ y, PortIs s p y (takeMask s p id m) ∧ y.rxMask = m ∧ y.switched = some (id, m) ∧
      y.trims = ((s.portOf p).trims.dropWhile (· != (id, m))).drop 1 ∧ y.ctrl = (s.portOf p).ctrl := by
  unfold takeMask
  dsimp only
  have taken := (PortIs.refl (s := s) (p := p) rising).setPort
  split
  · exact ⟨_, taken _, rfl, rfl, rfl, rfl⟩
  · exact ⟨_, (taken _).linkWidth _ _, rfl, rfl, rfl, rfl⟩

/-- The countdown of a SWITCH (R420, R429). -/
theorem exec_switch {u : CtrlUnit} (good : goodUnit u 6 0xFF03_FFFF 0 0) (named : bitsOf u.w0 7 4 = 2)
    (active : s.isActive p = true) (rising : risingFrom 0 s.ports = true) :
    (let x := s.portOf p
     let m := BitVec.ofNat 8 (bitsOf u.w0 15 8)
     let c := (bitsOf u.w0 31 24, m)
     ∃ t, exec (.switch p u) s = .next t ∧ s.onlyPort p t ∧
       (c ∈ x.trims →
         (t.portOf p).rxMask = m ∧ (t.portOf p).trims = (x.trims.dropWhile (· != c)).drop 1 ∧
           (t.portOf p).switched = some c ∧ (t.portOf p).ctrl = x.ctrl) ∧
       (c ∉ x.trims → x.switched = some c → t = s) ∧
       (c ∉ x.trims → x.switched ≠ some c → x.causes = 0 → t.portOf p = asking (violated x) 7)) := by
  intro x m c
  have run : ∀ f, laneUnit s p u 2 0xFF03_FFFF f = .next f := laneUnit_good good named active
  by_cases answers : c ∈ x.trims
  · obtain ⟨y, taken, mask, switched, trims, ctrl⟩ := takeMask_port (p := p) rising (bitsOf u.w0 31 24) m
    refine ⟨_, (run _).trans (congrArg _ (if_pos (List.contains_iff_mem.mpr answers))), taken.only, fun _ => ?_,
      absurd answers, absurd answers⟩
    rw [taken.port]
    exact ⟨mask, trims, switched, ctrl⟩
  · have unasked := mt List.contains_iff_mem.mp answers
    by_cases again : x.switched = some c
    · exact ⟨s, (run _).trans (congrArg _ ((if_neg unasked).trans (if_pos again))), (PortIs.refl rising).only,
        (absurd · answers), fun _ _ => rfl, fun _ new => absurd again new⟩
    · have wrong := PortIs.refl (s := s) (p := p) rising
      obtain ⟨y, violating⟩ := wrong.violate_only
      exact ⟨_, (run _).trans (congrArg _ ((if_neg unasked).trans (if_neg again))), violating.only, (absurd · answers),
        fun _ => (absurd · again), fun _ _ first => (wrong.violate (state_of_active active) first).port⟩

/-- A lane that loses its lock (R420). -/
theorem exec_laneLockLoss (active : s.isActive p = true) (rising : risingFrom 0 s.ports = true) (lane : Fin 8) :
    (let x := s.portOf p
     let m := x.wanted &&& ~~~ laneBit lane
     ∃ t, exec (.laneLockLoss p lane) s = .next t ∧ s.onlyPort p t ∧
       (x.wanted.getLsbD lane = true → x.least ≤ lanesOf m → t.portOf p = trimming x m) ∧
       (x.wanted.getLsbD lane = true → lanesOf m < x.least → x.causes = 0 → t.portOf p = asking x 5) ∧
       (x.wanted.getLsbD lane = false → t.portOf p = { x with restore := tput lane s.ns x.restore })) := by
  intro x m
  have same := PortIs.refl (s := s) (p := p) rising
  have run := fun t : State => act_next active t s
  cases used : x.wanted.getLsbD lane with
  | false =>
    have watched := same.setPort { x with restore := tput lane s.ns x.restore }
    have out : ¬ x.wanted.getLsbD lane = true := Bool.eq_false_iff.mp used
    exact ⟨_, (run _).trans (congrArg _ (if_pos out)), watched.only, nofun, nofun, fun _ => watched.port⟩
  | true =>
    have inMask : ¬ ¬ x.wanted.getLsbD lane = true := not_not_intro used
    by_cases narrow : lanesOf m < x.least
    · obtain ⟨y, asks⟩ := same.requestRetrain_only 5
      exact ⟨_, (run _).trans (congrArg _ ((if_neg inMask).trans (if_pos narrow))), asks.only,
        fun _ wide => absurd narrow (Nat.not_lt.mpr wide),
        fun _ _ first => (same.requestRetrain (state_of_active active) first 5).port, nofun⟩
    · have trims := same.sendTrim m
      exact ⟨_, (run _).trans (congrArg _ ((if_neg inMask).trans (if_neg narrow))), trims.only, fun _ _ => trims.port,
        fun _ => (absurd · narrow), nofun⟩

/-- A lane out of the mask and sound for 1 ms is asked back (R421). -/
theorem exec_laneRestoreTimer {lane : Fin 8} {since : Nat} (watched : tfind (s.portOf p).restore lane = some since)
    (due : s.isActive p = true ∧ since + 1000000 ≤ s.ns ∧ (s.portOf p).wanted.getLsbD lane = false ∧
      (s.portOf p).trained.getLsbD lane = true) :
    exec (.laneRestoreTimer p lane) s = .next (sendTrim s p ((s.portOf p).wanted ||| laneBit lane)) := by
  show execLaneRestoreTimer p lane s = _
  rw [execLaneRestoreTimer, watched]
  exact act_next due _ _

/-- Settles O31: each command's effect on its port. -/
theorem lanesTrimAndRestore : Obligations.LanesTrimAndRestore := by
  intro s p active rising
  refine ⟨fun u good named => exec_trim good named active rising, ?_,
    fun u good named => exec_switch good named active rising, exec_laneLockLoss active rising, ?_⟩
  · intro u good named _
    have tested := setPort_portIs rising p.val
    refine ⟨_, exec_propose good named active, (tested _).only, ?_, fun l lane within out trained => ?_⟩
    · rw [(tested _).port]
    · rw [(tested _).port]
      exact tfind_proposed ⟨(laneMask_getLsbD u.w0 lane).trans within, Bool.eq_false_iff.mp out, trained⟩ _ _
        (.inl (List.mem_range.mpr lane))
  · intro lane since watched due out trained
    have trims := (PortIs.refl (s := s) (p := p.val) rising).sendTrim ((s.portOf p).wanted ||| laneBit lane)
    exact ⟨_, exec_laneRestoreTimer watched ⟨active, due, out, trained⟩, trims.only, trims.port⟩

end Sys2Proof.Proofs
end

section
/-!
SUPPORT. What the packets and the membership items of a link that goes down leave of its port (R413, R440, R459, R473).
-/

namespace Sys2Proof.Proofs

open Sys2Proof.Machine Sys2Proof.Laws

variable {s t u : State}

/-- Every port keeps its state, its trained lanes, its replay buffer, the cause of its last retrain and the end of its drop, in a
table in rising order; the time and the injections stay. -/
structure PortsStand (s t : State) : Prop where
  rising : risingFrom 0 t.ports = true
  ports : ∀ q, (t.portOf q).state = (s.portOf q).state ∧ (t.portOf q).trained = (s.portOf q).trained ∧
    (t.portOf q).replay = (s.portOf q).replay ∧ (t.portOf q).cause = (s.portOf q).cause ∧
    (t.portOf q).dropUntil = (s.portOf q).dropUntil
  ns : t.ns = s.ns
  inject : t.grid.inject = s.grid.inject

theorem PortsStand.refl (rising : risingFrom 0 s.ports = true) : PortsStand s s :=
  ⟨rising, fun _ => ⟨rfl, rfl, rfl, rfl, rfl⟩, rfl, rfl⟩

/-- What writes no port keeps them. -/
theorem PortsStand.upd (h : PortsStand s t) (same : (u.ports, u.ns, u.grid.inject) = (t.ports, t.ns, t.grid.inject)) :
    PortsStand s u := by
  simp only [Prod.mk.injEq] at same
  obtain ⟨ports, ns, inject⟩ := same
  refine ⟨ports ▸ h.rising, fun q => ?_, ns.trans h.ns, inject.trans h.inject⟩
  have port : u.portOf q = t.portOf q := congrArg (tget ({} : PortSt) · q) ports
  rw [port]
  exact h.ports q

theorem PortsStand.logs (h : PortsStand s t) (logs : Logs t u) : PortsStand s u :=
  h.upd (eq_of_logs (fun w : State => (w.ports, w.ns, w.grid.inject)) (fun _ _ => rfl) logs)

theorem PortsStand.setPort (h : PortsStand s t) {p : Nat} {x : PortSt} (state : x.state = (t.portOf p).state)
    (trained : x.trained = (t.portOf p).trained) (replay : x.replay = (t.portOf p).replay)
    (cause : x.cause = (t.portOf p).cause) (drop : x.dropUntil = (t.portOf p).dropUntil) :
    PortsStand s (t.setPort p x) := by
  refine ⟨risingFrom_tset _ _ _ h.rising, fun q => ?_, h.ns, h.inject⟩
  by_cases own : q = p
  · rw [own, portOf_setPort h.rising p x, state, trained, replay, cause, drop]
    exact h.ports p
  · rw [portOf_setPort_ne t x own]
    exact h.ports q

theorem PortsStand.queueCtrl (h : PortsStand s t) (p : Nat) (m : CtrlMsg) : PortsStand s (queueCtrl t p m) :=
  h.setPort rfl rfl rfl rfl rfl

theorem PortsStand.queueFour (h : PortsStand s t) (p : Nat) (m : CtrlMsg) : PortsStand s (queueFour t p m) :=
  (((h.queueCtrl p m).queueCtrl p m).queueCtrl p m).queueCtrl p m

theorem PortsStand.flood (h : PortsStand s t) (ports : List Nat) (m : CtrlMsg) : PortsStand s (flood t ports m) :=
  List.foldlRecOn (motive := PortsStand s) _ _ h fun _ kept p _ => kept.queueFour p m

/-! ### Loose packets routed again (R438 to R440) -/

theorem PortsStand.freeBuffer (h : PortsStand s t) (b : Option (Nat × Nat)) : PortsStand s (freeBuffer t b) := by
  unfold Machine.freeBuffer
  dsimp only
  split
  · exact h
  · split
    · exact h.setPort rfl rfl rfl rfl rfl
    · split
      · split
        · exact h.setPort rfl rfl rfl rfl rfl
        · exact h.setPort rfl rfl rfl rfl rfl
      · exact h.setPort rfl rfl rfl rfl rfl

theorem PortsStand.dropLoose (h : PortsStand s t) (k : Packet) (inp : Option Nat) : PortsStand s (dropLoose t k inp) := by
  unfold Machine.dropLoose
  dsimp only
  split
  · exact h.upd rfl
  · refine PortsStand.logs ?_ (raise_logs ..)
    exact h.upd rfl

theorem PortsStand.forwardLoose (h : PortsStand s t) (k : Packet) (inp inDim : Option Nat) :
    PortsStand s (forwardLoose t k inp inDim).1 := by
  have judged : PortsStand s (if t.dimsBad then
      raise t 0x0601 (blockLoc (match inp with | some p => 13 + p / 10 | none => 13) 0x802) else t) := by
    split
    · exact h.logs (raise_logs ..)
    · exact h
  unfold Machine.forwardLoose
  dsimp only
  split
  · exact judged.freeBuffer _
  · exact (judged.dropLoose _ _).freeBuffer _
  · exact judged.setPort rfl rfl rfl rfl rfl

/-! ### Membership items (R473) -/

theorem PortsStand.takeItem (h : PortsStand s t) (it : Item) : PortsStand s (takeItem t it) := by
  unfold Machine.takeItem
  dsimp only
  split
  · refine PortsStand.flood ?_ _ _
    exact h.upd rfl
  · split
    · refine PortsStand.flood ?_ _ _
      exact h.upd rfl
    · exact h.upd rfl

theorem PortsStand.gatherItem (h : PortsStand s t) (it : Item) : PortsStand s (gatherItem t it) := by
  unfold Machine.gatherItem
  split
  · exact List.foldlRecOn (motive := PortsStand s) _ _ (h.takeItem it) fun _ kept _ _ => kept.takeItem _
  · exact h

/-! ### A port that goes down (R413, R428, R440, R459) -/

/-- A port taken out of its running state. -/
theorem portDown_stands (rising : risingFrom 0 s.ports = true) (p st : Nat) : ∃ x : PortSt,
    PortsStand (s.setPort p x) (portDown s p st) ∧ x.state = st ∧ x.trained = 0 ∧ x.replay = [] ∧
      x.cause = (s.portOf p).cause ∧ x.dropUntil = (s.portOf p).dropUntil :=
  ⟨_, List.foldlRecOn (motive := PortsStand _) _ _ (.refl (risingFrom_tset _ _ _ rising)) fun _ kept k _ =>
    kept.forwardLoose k _ _, rfl, rfl, rfl, rfl, rfl⟩

theorem portDown_port (rising : risingFrom 0 s.ports = true) (p st : Nat) :
    (let t := portDown s p st
     risingFrom 0 t.ports = true ∧ (t.portOf p).state = st ∧ (t.portOf p).trained = 0 ∧ (t.portOf p).replay = [] ∧
       (t.portOf p).cause = (s.portOf p).cause) := by
  obtain ⟨x, down, state, trained, replay, cause, -⟩ := portDown_stands rising p st
  obtain ⟨state', trained', replay', cause', -⟩ := down.ports p
  rw [portOf_setPort rising] at state' trained' replay' cause'
  exact ⟨down.rising, state'.trans state, trained'.trans trained, replay'.trans replay, cause'.trans cause⟩

/-- A link lost of no cause of its own (R413, R428). -/
theorem linkLost_port (rising : risingFrom 0 s.ports = true) (p st : Nat) :
    ((linkLost s p st 0).portOf p).state = st ∧ ((linkLost s p st 0).portOf p).cause = (s.portOf p).cause := by
  have alarm := ports_of_logs (raise_logs s 0x0506 (portLoc p 0x010) [] none 0x1FF 0)
  obtain ⟨rising', state, -, -, cause⟩ :=
    portDown_port (s := raise s 0x0506 (portLoc p 0x010)) (alarm ▸ rising) p st
  have before : (raise s 0x0506 (portLoc p 0x010)).portOf p = s.portOf p := congrArg (tget ({} : PortSt) · p) alarm
  rw [before] at cause
  unfold linkLost
  dsimp only
  rw [if_pos rfl]
  split
  · obtain ⟨state', -, -, cause', -⟩ := ((PortsStand.refl rising').gatherItem
      { key := (raise s 0x0506 (portLoc p 0x010)).linkKey p, rehearsal := false
        stamp := (raise s 0x0506 (portLoc p 0x010)).stamp32 }).ports p
    exact ⟨state'.trans state, cause'.trans cause⟩
  · exact ⟨state, cause⟩

end Sys2Proof.Proofs
end

section
/-!
Acknowledgement, replay, credits and heartbeats of an ACTIVE port (R400 to R404, R410, R411, R423, R429).
-/

namespace Sys2Proof.Proofs

open Sys2Proof.Machine Sys2Proof.Laws

variable {s : State} {p : Port}

/-! ### Acknowledgement (R400 to R404) -/

/-- How far a SEQ lies beyond the oldest packet held (R401). -/
def covered (x : PortSt) (seq : Nat) : Nat :=
  (seq + 65536 - (x.txSeq + 65536 - x.replay.length % 65536) % 65536) % 65536

theorem releaseTo_of_held {x : PortSt} {seq : Nat} (held : covered x seq ≤ x.replay.length) :
    releaseTo x seq = some { x with
      replay := x.replay.drop (covered x seq)
      replaying := x.replaying.bind fun i =>
        if i - covered x seq < x.replay.length - covered x seq then some (i - covered x seq) else none } :=
  if_pos held

theorem releaseTo_of_idle {x : PortSt} {seq : Nat} (held : covered x seq ≤ x.replay.length) (idle : x.replaying = none) :
    releaseTo x seq = some { x with replay := x.replay.drop (covered x seq) } := by
  rw [releaseTo_of_held held]
  simp only [idle, Option.bind_none]

theorem releaseTo_of_beyond {x : PortSt} {seq : Nat} (beyond : x.replay.length < covered x seq)
    (fresh : covered x seq < 32768) : releaseTo x seq = none :=
  (if_neg (Nat.not_le.mpr beyond)).trans (if_neg (Nat.not_le.mpr fresh))

theorem exec_ackTimer (active : s.isActive p = true) (owed : 0 < (s.portOf p).unacked)
    (due : (s.portOf p).firstUnacked + 250 ≤ s.ns) : exec (.ackTimer p) s = .next (sendLinkAck s p) :=
  act_next ⟨active, owed, due⟩ _ _

theorem exec_nakRepeat (active : s.isActive p = true) {since : Nat} (stands : (s.portOf p).nakAt = some since)
    (due : since + 2000 ≤ s.ns) : exec (.nakRepeat p) s = .next (sendNak s p) := by
  show execNakRepeat p s = _
  rw [execNakRepeat, stands]
  exact act_next ⟨active, due⟩ _ _

/-- An ACK unit that names a packet held releases those before it (R401). -/
theorem exec_ack_released {u : CtrlUnit} {x : PortSt} (good : goodUnit u 1 0xFFFF_010F 0 0) (active : s.isActive p = true)
    (positive : u.w0.getLsbD 8 = false) (released : releaseTo (s.portOf p) (bitsOf u.w0 31 16) = some x) :
    exec (.ack p u) s = .next (s.setPort p x) := by
  show execAck p u s = _
  rw [execAck, ctrlUnit_good good, if_neg, released]
  rintro (negative | idle)
  · exact Bool.noConfusion (positive.symm.trans negative)
  · exact idle active

/-- One that names a packet beyond the next to be sent is a violation (R429). -/
theorem exec_ack_beyond {u : CtrlUnit} (good : goodUnit u 1 0xFFFF_010F 0 0) (active : s.isActive p = true)
    (positive : u.w0.getLsbD 8 = false) (beyond : releaseTo (s.portOf p) (bitsOf u.w0 31 16) = none) :
    exec (.ack p u) s = .next (violate s p) := by
  show execAck p u s = _
  rw [execAck, ctrlUnit_good good, if_neg, beyond]
  rintro (negative | idle)
  · exact Bool.noConfusion (positive.symm.trans negative)
  · exact idle active

/-- A NAK unit's effect (R402, R404, R429). -/
theorem exec_nak {u : CtrlUnit} {x : PortSt} (good : goodUnit u 1 0xFFFF_010F 0 0) (active : s.isActive p = true)
    (negative : u.w0.getLsbD 8 = true) (released : releaseTo (s.portOf p) (bitsOf u.w0 31 16) = some x) :
    exec (.nak p u) s = .next (countNak (countPort
      (s.setPort p { x with replaying := if x.replay.isEmpty then none else some 0 }) p
      fun c => { c with nakRecv := sat48 c.nakRecv }) p) := by
  show execNak p u s = _
  rw [execNak, ctrlUnit_good good, if_neg, released]
  rintro (positive | idle)
  · exact positive negative
  · exact idle active

theorem exec_replayTimeout (active : s.isActive p = true) (idle : (s.portOf p).replaying = none)
    (old : ∃ h ∈ (s.portOf p).replay, h.sent + 2000 ≤ s.ns) :
    exec (.replayTimeout p) s = .next (s.setPort p { s.portOf p with replaying := some 0 }) :=
  act_next ⟨active, idle, by simpa using old⟩ _ _

/-- Acknowledgement at an ACTIVE port (R400 to R404, R429). -/
theorem linkAcknowledges (active : s.isActive p = true) (rising : risingFrom 0 s.ports = true) :
    (let x := s.portOf p
     let recent := x.nakTimes.filter (fun t => decide (s.ns < t + 1000000))
     (0 < x.unacked → x.firstUnacked + 250 ≤ s.ns →
       ∃ t, exec (.ackTimer p) s = .next t ∧ s.onlyPort p t ∧
         t.portOf p = { x with unacked := 0, ctrl := x.ctrl ++ [ackUnit x false] }) ∧
     (∀ t0, x.nakAt = some t0 → t0 + 2000 ≤ s.ns → recent.length < 64 →
       ∃ t, exec (.nakRepeat p) s = .next t ∧ s.onlyPort p t ∧ t.portOf p = nakking x s.ns) ∧
     (∀ u : CtrlUnit, goodUnit u 1 0xFFFF_010F 0 0 →
       (let n := x.replay.length
        let d := covered x (bitsOf u.w0 31 16)
        (d ≤ n → u.w0.getLsbD 8 = false → x.replaying = none →
          ∃ t, exec (.ack p u) s = .next t ∧ s.onlyPort p t ∧ t.portOf p = { x with replay := x.replay.drop d }) ∧
        (d ≤ n → u.w0.getLsbD 8 = true → recent.length < 64 →
          ∃ t, exec (.nak p u) s = .next t ∧ s.onlyPort p t ∧
            t.portOf p = { x with
              replay := x.replay.drop d, replaying := if n ≤ d then none else some 0, nakTimes := recent ++ [s.ns]
              counters := { x.counters with nakRecv := sat48 x.counters.nakRecv } }) ∧
        (n < d → d < 32768 → u.w0.getLsbD 8 = false → x.causes = 0 →
          ∃ t, exec (.ack p u) s = .next t ∧ s.onlyPort p t ∧ t.portOf p = asking (violated x) 7))) ∧
     (x.replaying = none → (∃ h ∈ x.replay, h.sent + 2000 ≤ s.ns) →
       ∃ t, exec (.replayTimeout p) s = .next t ∧ s.onlyPort p t ∧ t.portOf p = { x with replaying := some 0 })) := by
  intro x recent
  have same := PortIs.refl (s := s) (p := p) rising
  refine ⟨fun owed due => ?_, fun t0 stands due calm => ?_, fun u good => ?_, fun idle old => ?_⟩
  · have sent := same.sendLinkAck
    exact ⟨_, exec_ackTimer active owed due, sent.only, sent.port⟩
  · have sent := same.sendNak calm
    exact ⟨_, exec_nakRepeat active stands due, sent.only, sent.port⟩
  · refine ⟨fun held positive idle => ?_, fun held negative calm => ?_, fun beyond fresh positive first => ?_⟩
    · have released := same.setPort { x with replay := x.replay.drop (covered x (bitsOf u.w0 31 16)) }
      exact ⟨_, exec_ack_released good active positive (releaseTo_of_idle held idle), released.only, released.port⟩
    · have counted := (same.setPort { x with
          replay := x.replay.drop (covered x (bitsOf u.w0 31 16))
          replaying := if x.replay.length ≤ covered x (bitsOf u.w0 31 16) then none else some 0 }).countPort
        fun c => { c with nakRecv := sat48 c.nakRecv }
      have sent := counted.countNak calm
      refine ⟨_, ?_, sent.only, sent.port⟩
      rw [exec_nak good active negative (releaseTo_of_held held)]
      dsimp only
      simp only [List.isEmpty_iff, List.drop_eq_nil_iff]
      rfl
    · have wrong := same.violate (state_of_active active) first
      exact ⟨_, exec_ack_beyond good active positive (releaseTo_of_beyond beyond fresh), wrong.only, wrong.port⟩
  · have replays := same.setPort { x with replaying := some 0 }
    exact ⟨_, exec_replayTimeout active idle old, replays.only, replays.port⟩

/-! ### Credits and heartbeats (R410, R411, R423) -/

/-- The counts that a CREDIT adds to the first `n` pairs (R410). -/
def credited (w : W32) (t : Tbl Nat) (n : Nat) : Tbl Nat :=
  (List.range n).foldl (fun t k => tset 0 t k (tget 0 t k + bitsOf w (4 * k + 3) (4 * k))) t

theorem credited_succ (w : W32) (t : Tbl Nat) (n : Nat) : credited w t (n + 1) =
    tset 0 (credited w t n) n (tget 0 (credited w t n) n + bitsOf w (4 * n + 3) (4 * n)) := by
  rw [credited, List.range_succ, List.foldl_append]
  rfl

theorem risingFrom_credited (w : W32) {t : Tbl Nat} (rising : risingFrom 0 t = true) :
    ∀ n, risingFrom 0 (credited w t n) = true
  | 0 => rising
  | n + 1 => by
    rw [credited_succ]
    exact risingFrom_tset _ _ _ (risingFrom_credited w rising n)

theorem tget_credited (w : W32) {t : Tbl Nat} (rising : risingFrom 0 t = true) (k n : Nat) :
    tget 0 (credited w t n) k = tget 0 t k + if k < n then bitsOf w (4 * k + 3) (4 * k) else 0 := by
  induction n with
  | zero => rfl
  | succ n ih =>
    rw [credited_succ]
    by_cases own : k = n
    · rw [own] at ih ⊢
      rw [tget_tset 0 _ n 0 _ (risingFrom_credited w rising n), ih, if_neg (Nat.lt_irrefl n), if_pos (Nat.lt_succ_self n)]
      rfl
    · rw [tget_tset_ne _ _ _ _ _ own, ih]
      simp only [Nat.lt_succ_iff_lt_or_eq, own, or_false]

theorem exec_credit {u : CtrlUnit} (good : goodUnit u 2 0xF 0xFFFF_FFFF 0) (active : s.isActive p = true) :
    exec (.credit p u) s = .next (s.setPort p { s.portOf p with credits := credited u.w1 (s.portOf p).credits 8 }) := by
  show execCredit p u s = _
  rw [execCredit, ctrlUnit_good good, if_pos active]
  rfl

theorem exec_linkCreditStarved (active : s.isActive p = true) {pair : Fin 8} {since : Nat}
    (starved : tfind (s.portOf p).starved pair = some since) (due : since + 1000000 ≤ s.ns) :
    exec (.linkCreditStarved p pair) s = .next (requestRetrain
      ((raise s 0x0504 (portLoc p 0x010)).setPort p
        { (raise s 0x0504 (portLoc p 0x010)).portOf p with
          starved := tdel pair ((raise s 0x0504 (portLoc p 0x010)).portOf p).starved }) p 6) := by
  show execLinkCreditStarved p pair s = _
  rw [execLinkCreditStarved, starved]
  exact act_next ⟨active, due⟩ _ _

/-- The HEARTBEAT that a port sends (R405, R423). -/
def heartbeatUnit (s : State) (p : Port) : CtrlMsg :=
  { rank := rankHeartbeat, w0 := BitVec.ofNat 32 (3 + (s.portOf p).level * 2 ^ 8 + s.fabric.place.toNat * 2 ^ 16)
    w1 := BitVec.ofNat 32 (p.val + ((s.portOf p).hbCount + 1) % 65536 * 2 ^ 16) }

/-- The port that has sent it. -/
def beaten (s : State) (p : Port) : PortSt :=
  { s.portOf p with hbCount := ((s.portOf p).hbCount + 1) % 65536, hbAt := s.chron.count / 10000
                    ctrl := (s.portOf p).ctrl ++ [heartbeatUnit s p] }

/-- The port once a TIME_REQ follows (R424). -/
def timed (x : PortSt) : PortSt :=
  { x with xid := (x.xid + 1) % 256
           ctrl := x.ctrl ++ [{ rank := rankTimeReq, w0 := BitVec.ofNat 32 (4 + (x.xid + 1) % 256 * 2 ^ 8) }] }

/-- The state once the HEARTBEAT waits at its port. -/
def beating (s : State) (p : Port) : State :=
  queueCtrl (s.setPort p { s.portOf p with hbCount := ((s.portOf p).hbCount + 1) % 65536, hbAt := s.chron.count / 10000 }) p
    (heartbeatUnit s p)

theorem beating_portIs (rising : risingFrom 0 s.ports = true) : PortIs s p (beaten s p) (beating s p) :=
  (setPort_portIs rising p.val { s.portOf p with
    hbCount := ((s.portOf p).hbCount + 1) % 65536, hbAt := s.chron.count / 10000 }).queueCtrl (heartbeatUnit s p)

theorem exec_heartbeatSend (active : s.isActive p = true) (due : (s.portOf p).hbAt < s.chron.count / 10000) :
    exec (.heartbeatSend p) s = .next (if s.parentPort p then
      queueCtrl ((beating s p).setPort p { (beating s p).portOf p with xid := (((beating s p).portOf p).xid + 1) % 256 }) p
        { rank := rankTimeReq, w0 := BitVec.ofNat 32 (4 + (((beating s p).portOf p).xid + 1) % 256 * 2 ^ 8) }
      else beating s p) :=
  act_next ⟨active, due⟩ _ _

theorem exec_heartbeatSend_portIs (active : s.isActive p = true) (rising : risingFrom 0 s.ports = true)
    (due : (s.portOf p).hbAt < s.chron.count / 10000) :
    ∃ t, exec (.heartbeatSend p) s = .next t ∧
      PortIs s p (if s.parentPort p then timed (beaten s p) else beaten s p) t := by
  have beats := beating_portIs (p := p) rising
  refine ⟨_, exec_heartbeatSend active due, ?_⟩
  cases s.parentPort p with
  | false => exact beats
  | true =>
    simp only [↓reduceIte]
    rw [beats.port]
    exact (beats.setPort { beaten s p with xid := ((beaten s p).xid + 1) % 256 }).queueCtrl _

/-- A HEARTBEAT's effect (R423, R429). -/
theorem exec_heartbeat {u : CtrlUnit} (good : goodUnit u 3 0xFFFF_FF0F 0xFFFF_001F 0) (active : s.isActive p = true)
    (rising : risingFrom 0 s.ports = true) :
    (let x := s.portOf p
     ∃ t, exec (.heartbeat p u) s = .next t ∧ s.onlyPort p t ∧
       (bitsOf u.w0 31 16 = x.partner.toNat → bitsOf u.w1 4 0 = x.partnerPort →
         t.portOf p = { x with hbMiss := 0, hbJudged := s.chron.count / 10000 }) ∧
       ((bitsOf u.w0 31 16 ≠ x.partner.toNat ∨ bitsOf u.w1 4 0 ≠ x.partnerPort) → x.causes = 0 →
         t.portOf p = asking (violated x) 8)) := by
  intro x
  have same := PortIs.refl (s := s) (p := p) rising
  have run : exec (.heartbeat p u) s = .next _ := (ctrlUnit_good good s p _).trans (congrArg _ (if_neg (not_not_intro active)))
  by_cases changed : bitsOf u.w0 31 16 ≠ x.partner.toNat ∨ bitsOf u.w1 4 0 ≠ x.partnerPort
  · obtain ⟨y, asks⟩ := same.linkProtocol.requestRetrain_only 8
    refine ⟨_, run.trans (congrArg _ (if_pos changed)), asks.only, fun address port => ?_, fun _ first => ?_⟩
    · exact absurd changed (not_or.mpr ⟨not_not_intro address, not_not_intro port⟩)
    · exact (same.linkProtocol.requestRetrain (state_of_active active) first 8).port
  · have clears := same.setPort { x with hbMiss := 0, hbJudged := s.chron.count / 10000 }
    exact ⟨_, run.trans (congrArg _ (if_neg changed)), clears.only, fun _ _ => clears.port, (absurd · changed)⟩

/-- An interval without a heartbeat (R423). -/
theorem exec_heartbeatMiss (active : s.isActive p = true) (rising : risingFrom 0 s.ports = true)
    (due : ((s.portOf p).hbJudged + 2) * 10000 + 1000 ≤ s.chron.count) :
    (let x := s.portOf p
     ∃ t, exec (.heartbeatMiss p) s = .next t ∧
       (x.hbMiss < 2 → s.onlyPort p t ∧
         t.portOf p = { x with hbMiss := x.hbMiss + 1, hbJudged := x.hbJudged + 1
                               counters := { x.counters with misses := sat48 x.counters.misses } }) ∧
       (2 ≤ x.hbMiss → (t.portOf p).state = 1)) := by
  intro x
  have counted := (PortIs.refl (s := s) (p := p) rising).countPort fun c => { c with misses := sat48 c.misses }
  have run : exec (.heartbeatMiss p) s = .next _ := act_next ⟨active, due⟩ _ _
  have port : (countPort s p fun c => { c with misses := sat48 c.misses }).portOf p =
      { x with counters := { x.counters with misses := sat48 x.counters.misses } } := counted.port
  dsimp only at run
  rw [port] at run
  by_cases third : 3 ≤ x.hbMiss + 1
  · refine ⟨_, run.trans (congrArg _ (if_pos third)), fun few => absurd third (by omega), fun _ => ?_⟩
    exact (linkLost_port counted.rising p 1).1
  · have missed := counted.setPort { x with
      hbMiss := x.hbMiss + 1, hbJudged := x.hbJudged + 1
      counters := { x.counters with misses := sat48 x.counters.misses } }
    exact ⟨_, run.trans (congrArg _ (if_neg third)), fun _ => ⟨missed.only, missed.port⟩,
      fun many => absurd third (not_not_intro (by omega))⟩

/-- Settles O29: each command's effect on its port. -/
theorem linkAcknowledgesAndCredits : Obligations.LinkAcknowledgesAndCredits := by
  refine ⟨fun s p active rising => linkAcknowledges active rising, fun s p active rising => ?_⟩
  refine ⟨fun u good creditsRise => ?_, fun pair since starved due first => ?_, fun due => ?_,
    fun u good => exec_heartbeat good active rising, exec_heartbeatMiss active rising⟩
  · have adds := setPort_portIs rising p.val { s.portOf p with credits := credited u.w1 (s.portOf p).credits 8 }
    refine ⟨_, exec_credit good active, adds.only, ?_, fun k pair => ?_⟩
    · rw [adds.port]
    · rw [adds.port]
      exact (tget_credited u.w1 creditsRise k 8).trans (by rw [if_pos pair])
  · have alarmed := (PortIs.refl (s := s) (p := p.val) rising).logs (raise_logs s 0x0504 (portLoc p 0x010) [] none 0x1FF 0)
    have asks := (alarmed.setPort { s.portOf p with starved := tdel pair (s.portOf p).starved }).requestRetrain
      (state_of_active active) first 6
    refine ⟨_, exec_linkCreditStarved active starved due, ?_⟩
    rw [alarmed.port]
    exact ⟨asks.only, asks.port⟩
  · obtain ⟨t, run, sends⟩ := exec_heartbeatSend_portIs active rising due
    exact ⟨t, run, sends.only, sends.port⟩

end Sys2Proof.Proofs
end

section
/-!
Training and retraining of a port (R412 to R418, R426, R433).
-/

namespace Sys2Proof.Proofs

open Sys2Proof.Machine Sys2Proof.Laws

variable {s : State} {p : Port}

/-- A port at the beginning of its PARAM exchange (R414, R418, R433). -/
def exchangeBegun (s : State) (x : PortSt) : PortSt :=
  { x with ownAddr := s.fabric.place, param := none, same := 0, seenSent := 0, seenGot := false }

/-! ### The stages of training (R412, R413) -/

theorem exec_signalDetect {lanes : Byte} (detecting : (s.portOf p).state = 1) (wide : (s.portOf p).least ≤ lanesOf lanes) :
    exec (.signalDetect p lanes) s = .next (s.setPort p { s.portOf p with state := 2, progress := s.ns }) :=
  act_next ⟨detecting, wide⟩ _ _

theorem exec_trainConverge {lanes : Byte} (converging : (s.portOf p).state = 2) (wide : (s.portOf p).least ≤ lanesOf lanes) :
    exec (.trainConverge p lanes) s = .next (s.setPort p { s.portOf p with state := 3, trained := lanes, progress := s.ns }) :=
  act_next ⟨converging, wide⟩ _ _

theorem exec_alignLock (aligning : (s.portOf p).state = 3) :
    exec (.alignLock p) s = .next (s.setPort p (exchangeBegun s { s.portOf p with state := 4, progress := s.ns })) :=
  act_next aligning _ _

theorem exec_trainingTimeout
    (training : (s.portOf p).state = 2 ∨ (s.portOf p).state = 3 ∨ (s.portOf p).state = 4)
    (late : (s.portOf p).progress + 500000000 ≤ s.ns) : exec (.trainingTimeout p) s = .next (portDown s p 1) :=
  act_next ⟨training, late⟩ _ _

/-- The PARAM exchange does not end before eight PARAMs with SEEN have left (R414). -/
theorem paramTry_of_few {x : PortSt} (port : s.portOf p = x) (few : x.seenSent < 8) : paramTry s p = s := by
  unfold paramTry
  dsimp only
  rw [port]
  split
  · exact if_neg fun all => Nat.not_le.mpr few all.2.2.1
  · rfl

/-- The port with one more PARAM received (R414). -/
def paramTaken (s : State) (x : PortSt) (u : CtrlUnit) : PortSt :=
  { x with param := some (u.w0 &&& 0xFFFF_FF7F, u.w1, u.w2)
           same := if x.param = some (u.w0 &&& 0xFFFF_FF7F, u.w1, u.w2) then x.same + 1 else 1, progress := s.ns
           seenGot := x.seenGot || u.w0.getLsbD 7 }

theorem exec_param (rising : risingFrom 0 s.ports = true) {u : CtrlUnit}
    (good : goodUnit u 8 0xFFFF_FF8F 0xFFFF_FF1F 0xFFFF_FFFF) (exchanging : (s.portOf p).exchanging = true)
    (few : (s.portOf p).seenSent < 8) :
    exec (.param p u) s = .next (s.setPort p (paramTaken s (s.portOf p) u)) := by
  refine (ctrlUnit_good good s p _).trans (congrArg _ ((if_pos exchanging).trans ?_))
  exact paramTry_of_few (x := paramTaken s (s.portOf p) u) (portOf_setPort rising p _) few

/-! ### Retraining (R416 to R418) -/

/-- A further cause does not make a retrain one of a violation. -/
theorem bitNat_or_fecLoss (causes : Nat) : bitNat (causes ||| 2 ^ 10) 7 = bitNat causes 7 := by
  have bit : ∀ n, bitNat n 7 = n.testBit 7 := fun n => by
    rw [bitNat, Nat.testBit_eq_decide_div_mod_eq]
    rfl
  have other : (2 ^ 10 : Nat).testBit 7 = false := by decide
  rw [bit, bit, Nat.testBit_or, other, Bool.or_false]

theorem exec_fecLockLoss (active : s.isActive p = true) : exec (.fecLockLoss p) s =
    .next (enterRetrain (s.setPort p { s.portOf p with causes := (s.portOf p).causes ||| 2 ^ 10 }) p) :=
  act_next active _ _

/-- A RETRAIN of the next number at an ACTIVE port (R417). -/
theorem exec_retrain {u : CtrlUnit} (good : goodUnit u 7 0x0000_0F0F 0x0000_00FF 0) (active : (s.portOf p).state = 5)
    (next : bitsOf u.w1 7 0 = ((s.portOf p).retrains + 1) % 256) :
    exec (.retrain p u) s = .next (enterRetrain
      (s.setPort p { s.portOf p with causes := (s.portOf p).causes ||| 2 ^ bitsOf u.w0 11 8 }) p) := by
  refine (ctrlUnit_good good s p _).trans (congrArg _ ((if_pos next).trans ((if_pos active).trans ?_)))
  rw [if_pos (.inl active)]

theorem exec_retrainComplete {lanes : Byte} (retraining : (s.portOf p).state = 6)
    (relocking : (s.portOf p).inRetrain = false) (wide : (s.portOf p).least ≤ lanesOf ((s.portOf p).trained &&& lanes)) :
    exec (.retrainComplete p lanes) s = .next (s.setPort p
      (exchangeBegun s { s.portOf p with trained := (s.portOf p).trained &&& lanes, inRetrain := true })) :=
  act_next ⟨retraining, relocking, wide⟩ _ _

theorem exec_retrainTimeout (retraining : (s.portOf p).state = 6) (late : (s.portOf p).retrainAt + 40000 ≤ s.ns) :
    exec (.retrainTimeout p) s = .next (linkLost s p 1 0) :=
  act_next ⟨retraining, late⟩ _ _

/-! ### LINK_CTRL (R413, R416, R426) -/

/-- The port as a write of LINK_CTRL configures it (R426). -/
def configured (x : PortSt) (v : W32) : PortSt := { x with enable := v.getLsbD 0, minWidth := bitsOf v 7 4 }

/-- `s` with its port so configured. -/
def configuring (s : State) (p : Port) (v : W32) : State := s.setPort p (configured (s.portOf p) v)

theorem configuring_portIs (rising : risingFrom 0 s.ports = true) (v : W32) :
    PortIs s p (configured (s.portOf p) v) (configuring s p v) := setPort_portIs rising _ _

theorem linkCtrlWrite_starts {v : W32} (enable : v.getLsbD 0 = true) (down : (s.portOf p).state = 0) (up : s.hostUp = true)
    (free : (s.portOf p).dropUntil = none) : linkCtrlWrite s p v =
      (configuring s p v).setPort p { (configuring s p v).portOf p with state := 1 } :=
  (if_neg (not_not_intro enable)).trans ((if_pos down).trans (if_pos ⟨up, free⟩))

theorem linkCtrlWrite_stays {v : W32} (disable : v.getLsbD 0 = false) (down : (s.portOf p).state = 0) :
    linkCtrlWrite s p v = configuring s p v :=
  (if_pos (Bool.eq_false_iff.mp disable)).trans (if_pos down)

theorem linkCtrlWrite_retrains {v : W32} (enable : v.getLsbD 0 = true) (up : (s.portOf p).state ≠ 0)
    (warm : v.getLsbD 2 = false) (retrain : v.getLsbD 1 = true) :
    linkCtrlWrite s p v = requestRetrain (configuring s p v) p 1 :=
  (if_neg (not_not_intro enable)).trans ((if_neg up).trans ((if_neg (Bool.eq_false_iff.mp warm)).trans (if_pos retrain)))

theorem linkCtrlWrite_cold {v : W32} (enable : v.getLsbD 0 = true) (up : (s.portOf p).state ≠ 0)
    (cold : v.getLsbD 2 = true) : linkCtrlWrite s p v = portDown (configuring s p v) p 1 :=
  (if_neg (not_not_intro enable)).trans ((if_neg up).trans (if_pos cold))

/-- Settles O32: each command's effect on its port. -/
theorem trainingProceeds : Obligations.TrainingProceeds := by
  intro s p rising
  have same := PortIs.refl (s := s) (p := p.val) rising
  refine ⟨fun lanes wide => ⟨?detect, ?converge⟩, ?align, ?timeout, ?param, fun active => ⟨?fec, ?retrain⟩, ?relock, ?late,
    fun v => ⟨?start, ?stay, ?ask, ?cold⟩⟩
  case detect =>
    intro detecting
    have moved := setPort_portIs rising p.val { s.portOf p with state := 2, progress := s.ns }
    exact ⟨_, exec_signalDetect detecting wide, moved.only, moved.port⟩
  case converge =>
    intro converging
    have moved := setPort_portIs rising p.val { s.portOf p with state := 3, trained := lanes, progress := s.ns }
    exact ⟨_, exec_trainConverge converging wide, moved.only, moved.port⟩
  case align =>
    intro aligning
    have moved := setPort_portIs rising p.val (exchangeBegun s { s.portOf p with state := 4, progress := s.ns })
    exact ⟨_, exec_alignLock aligning, moved.only, moved.port⟩
  case timeout =>
    intro training late
    obtain ⟨-, state, trained, -, -⟩ := portDown_port rising p 1
    exact ⟨_, exec_trainingTimeout training late, state, trained⟩
  case param =>
    intro u good exchanging few
    have took := setPort_portIs rising p.val (paramTaken s (s.portOf p) u)
    exact ⟨_, exec_param rising good exchanging few, took.only, took.port⟩
  case fec =>
    intro lawful
    have enters := (setPort_portIs rising p.val { s.portOf p with causes := (s.portOf p).causes ||| 2 ^ 10 }).enterRetrain
      ((bitNat_or_fecLoss _).trans lawful)
    refine ⟨_, exec_fecLockLoss (by simpa [State.isActive] using active), enters.only, ?_⟩
    rw [enters.port]
    exact ⟨rfl, rfl, rfl, rfl, rfl, rfl, rfl⟩
  case retrain =>
    intro u good next lawful
    have enters := (setPort_portIs rising p.val
      { s.portOf p with causes := (s.portOf p).causes ||| 2 ^ bitsOf u.w0 11 8 }).enterRetrain lawful
    refine ⟨_, exec_retrain good active next, enters.only, ?_⟩
    rw [enters.port]
    exact ⟨rfl, rfl, rfl⟩
  case relock =>
    intro lanes retraining relocking wide
    have begins := setPort_portIs rising p.val
      (exchangeBegun s { s.portOf p with trained := (s.portOf p).trained &&& lanes, inRetrain := true })
    exact ⟨_, exec_retrainComplete retraining relocking wide, begins.only, begins.port⟩
  case late =>
    intro retraining late
    exact ⟨_, exec_retrainTimeout retraining late, linkLost_port rising p 1⟩
  case start =>
    intro enable down up free
    have starts := (configuring_portIs (p := p) rising v).setPort { configured (s.portOf p) v with state := 1 }
    refine ⟨_, congrArg Host.Outcome.next (linkCtrlWrite_starts enable down up free), ?_⟩
    rw [(configuring_portIs rising v).port]
    exact ⟨starts.only, starts.port⟩
  case stay =>
    intro disable down
    have stays := configuring_portIs (p := p) rising v
    exact ⟨_, congrArg Host.Outcome.next (linkCtrlWrite_stays disable down), stays.only, stays.port⟩
  case ask =>
    intro enable retrain warm active first
    have asks := (configuring_portIs (p := p) rising v).requestRetrain active first 1
    refine ⟨_, (act_next retrain _ _).trans (congrArg _ (linkCtrlWrite_retrains enable ?_ warm retrain)), asks.only, asks.port⟩
    rw [active]
    decide
  case cold =>
    intro enable cold up
    obtain ⟨-, state, trained, replay, -⟩ := portDown_port (configuring_portIs (p := p) rising v).rising p 1
    exact ⟨_, (act_next cold _ _).trans (congrArg _ (linkCtrlWrite_cold enable up cold)), state, trained, replay⟩

end Sys2Proof.Proofs
end

section
/-!
Doorbells and shadows, ring contexts and interrupts of a function (R339 to R344, R365, R382 to R385).
-/

namespace Sys2Proof.Proofs

open Sys2Proof.Machine Sys2Proof.Laws

variable {s t u : State} {f q : Nat}

/-! ### The rings of a function -/

theorem fnOf_of_fns (same : t.fns = s.fns) (f : Nat) : t.fnOf f = s.fnOf f := congrArg (tget ({} : FnState) · f) same

/-- A function's rings are its record's. -/
theorem sqOf_of_fns (same : t.fns = s.fns) (f k : Nat) : t.sqOf f k = s.sqOf f k := by
  unfold State.sqOf State.fnOf
  rw [same]

theorem cqOf_of_fns (same : t.fns = s.fns) (f k : Nat) : t.cqOf f k = s.cqOf f k := by
  unfold State.cqOf State.fnOf
  rw [same]

theorem fns_of_logs (h : Logs s t) : t.fns = s.fns := eq_of_logs State.fns (fun _ _ => rfl) h

theorem Sends.fns (h : Sends s t) : t.fns = s.fns := by
  obtain ⟨os, rfl⟩ := h
  rfl

theorem sqOf_setSq_ne {r : Sq} (h : r ≠ {}) {k : Nat} (other : k ≠ q) : (s.setSq f q r).sqOf f k = s.sqOf f k := by
  rw [State.sqOf, fnOf_setSq h]
  exact tget_tset_ne _ _ _ _ _ other

/-- A ring that is stopped stays in any table. -/
theorem stopSq_rings {err : Nat} (enabled : (s.sqOf f q).enable = true) :
    (stopSq s f q err).sqOf f q = { s.sqOf f q with err := err, stopped := true } ∧
      ∀ k, k ≠ q → (stopSq s f q err).sqOf f k = s.sqOf f k := by
  have fns : (stopSq s f q err).fns = _ := fns_of_logs (raise_logs ..)
  have kept : ({ s.sqOf f q with err := err, stopped := true } : Sq) ≠ {} := sq_ne_of_enable enabled
  exact ⟨(sqOf_of_fns fns f q).trans (sqOf_setSq kept),
    fun k other => (sqOf_of_fns fns f k).trans (sqOf_setSq_ne kept other)⟩

theorem stopCq_sqs {err : Nat} (enabled : (s.cqOf f q).enable = true) (k : Nat) :
    (stopCq s f q err).sqOf f k = s.sqOf f k := by
  have fns : (stopCq s f q err).fns = _ := fns_of_logs (raise_logs ..)
  have kept : ({ s.cqOf f q with err := err, stopped := true } : Cq) ≠ {} := cq_ne_of_enable enabled
  exact (sqOf_of_fns fns f k).trans (sqOf_setCq kept k)

/-! ### Tails and heads (R344, R365) -/

/-- Whether a tail covers more entries of a ring than the last one known (R344). -/
def Ahead (r : Sq) (v : Nat) : Prop :=
  ringDist (2 ^ r.sizeLog2) r.head r.tail < ringDist (2 ^ r.sizeLog2) r.head v

/-- The ring with that tail known, and noted with the window it was read in (R344, R381). -/
def tailed (s : State) (r : Sq) (v : Nat) : Sq :=
  { r with tail := v, marks := r.marks ++ [(r.seq + ringDist (2 ^ r.sizeLog2) r.head v, s.cad.begun)] }

theorem takeTail_ahead {v : Nat} (enabled : (s.sqOf f q).enable = true) (going : (s.sqOf f q).stopped = false)
    (within : v < 2 ^ (s.sqOf f q).sizeLog2) (ahead : Ahead (s.sqOf f q) v) :
    takeTail s f q v = cqEvent (s.setSq f q (tailed s (s.sqOf f q) v)) f q := by
  have runs : ¬ (¬ (s.sqOf f q).enable = true ∨ (s.sqOf f q).stopped = true) := by simp [enabled, going]
  exact (if_neg runs).trans ((if_neg (Nat.not_le.mpr within)).trans (if_pos ahead))

theorem takeTail_sends {v : Nat} (enabled : (s.sqOf f q).enable = true) (going : (s.sqOf f q).stopped = false)
    (within : v < 2 ^ (s.sqOf f q).sizeLog2) (ahead : Ahead (s.sqOf f q) v) :
    Sends (s.setSq f q (tailed s (s.sqOf f q) v)) (takeTail s f q v) := by
  rw [takeTail_ahead enabled going within ahead]
  exact cqEvent_sends _ _ _

theorem takeTail_beyond {v : Nat} (enabled : (s.sqOf f q).enable = true) (going : (s.sqOf f q).stopped = false)
    (beyond : 2 ^ (s.sqOf f q).sizeLog2 ≤ v) : takeTail s f q v = stopSq s f q 1 := by
  have runs : ¬ (¬ (s.sqOf f q).enable = true ∨ (s.sqOf f q).stopped = true) := by simp [enabled, going]
  exact (if_neg runs).trans (if_pos beyond)

/-- A tail taken of one ring leaves the others. -/
theorem takeTail_sqOf_ne (v : Nat) {k : Nat} (other : k ≠ q) : (takeTail s f q v).sqOf f k = s.sqOf f k := by
  unfold takeTail
  dsimp only
  split_ifs with idle beyond ahead
  · rfl
  · exact (stopSq_rings (by simp_all)).2 k other
  · have kept : tailed s (s.sqOf f q) v ≠ {} := sq_ne_of_enable (by simp_all [tailed])
    exact (sqOf_of_fns (cqEvent_sends _ f q).fns f k).trans (sqOf_setSq_ne kept other)
  · rfl

/-- The shadow page's step of one ring: its tail, and the event index (R343, R344). -/
def takeShadow (f : Nat) (b : Bytes) (s : State) (q : Nat) : State :=
  sqEvent (takeTail s f q (bitsAt b (4 * q) 4 15 0)) f q

theorem takeShadow_sqOf_ne (b : Bytes) {k : Nat} (other : k ≠ q) : (takeShadow f b s q).sqOf f k = s.sqOf f k :=
  (sqOf_of_fns (sqEvent_sends _ f q).fns f k).trans (takeTail_sqOf_ne _ other)

theorem takeShadow_ahead (b : Bytes) (enabled : (s.sqOf f q).enable = true) (going : (s.sqOf f q).stopped = false)
    (within : bitsAt b (4 * q) 4 15 0 < 2 ^ (s.sqOf f q).sizeLog2) (ahead : Ahead (s.sqOf f q) (bitsAt b (4 * q) 4 15 0)) :
    (takeShadow f b s q).sqOf f q = tailed s (s.sqOf f q) (bitsAt b (4 * q) 4 15 0) := by
  have kept : tailed s (s.sqOf f q) (bitsAt b (4 * q) 4 15 0) ≠ {} := sq_ne_of_enable enabled
  exact (sqOf_of_fns (sqEvent_sends _ f q).fns f q).trans <|
    (sqOf_of_fns (takeTail_sends enabled going within ahead).fns f q).trans (sqOf_setSq kept)

/-- Shadows of other rings leave a ring. -/
theorem takeShadows_sqOf_ne (b : Bytes) {k : Nat} (qs : List Nat) (others : k ∉ qs) :
    (qs.foldl (takeShadow f b) s).sqOf f k = s.sqOf f k :=
  List.foldlRecOn (motive := fun t : State => t.sqOf f k = s.sqOf f k) _ _ rfl fun _ kept q named =>
    (takeShadow_sqOf_ne b fun own : k = q => others (own ▸ named)).trans kept

theorem takeHead_sqOf (q h : Nat) (k : Nat) : (takeHead s f q h).sqOf f k = s.sqOf f k := by
  unfold takeHead
  dsimp only
  split_ifs with idle beyond ahead
  · rfl
  · exact stopCq_sqs (by simp_all) k
  · exact sqOf_setCq (cq_ne_of_enable (by simp_all)) k
  · rfl
  · exact stopCq_sqs (by simp_all) k

/-- The page's heads leave the submission rings. -/
theorem takePage_sqOf (b : Bytes) (k : Nat) :
    (takePage s f b).sqOf f k = ((List.range 16).foldl (takeShadow f b) s).sqOf f k := by
  refine List.foldlRecOn (motive := fun t : State => t.sqOf f k = ((List.range 16).foldl (takeShadow f b) s).sqOf f k)
    _ _ rfl fun t kept q _ => ?_
  split
  · exact (takeHead_sqOf _ _ _).trans kept
  · exact kept

/-- A shadow page gives a ring its tail as a doorbell does (R342, R344). -/
theorem takePage_ahead (b : Bytes) (ring : q < 16) (enabled : (s.sqOf f q).enable = true)
    (going : (s.sqOf f q).stopped = false) (within : bitsAt b (4 * q) 4 15 0 < 2 ^ (s.sqOf f q).sizeLog2)
    (ahead : Ahead (s.sqOf f q) (bitsAt b (4 * q) 4 15 0)) :
    ((takePage s f b).sqOf f q).tail = bitsAt b (4 * q) 4 15 0 ∧ ((takePage s f b).sqOf f q).head = (s.sqOf f q).head := by
  obtain ⟨before, after, split⟩ := List.append_of_mem (List.mem_range.mpr ring)
  have once := List.nodup_range (n := 16)
  rw [split, List.nodup_middle, List.nodup_cons, List.mem_append, not_or] at once
  obtain ⟨⟨notBefore, notAfter⟩, -⟩ := once
  have first := takeShadows_sqOf_ne (s := s) (f := f) b before notBefore
  have own := takeShadow_ahead (s := before.foldl (takeShadow f b) s) (f := f) (q := q) b (first ▸ enabled) (first ▸ going)
    (first ▸ within) (first ▸ ahead)
  rw [takePage_sqOf, split, List.foldl_append, List.foldl_cons, takeShadows_sqOf_ne b after notAfter, own, first]
  exact ⟨rfl, rfl⟩

/-! ### Doorbells (R341) -/

theorem doorbell_ignored {width : Nat} (take : State → State) (enabled : s.fnEnabled f = true)
    (live : (s.fnOf f).inReset = false) (wrong : width ≠ 32) : doorbell s f width take =
      (s.setFn f { s.fnOf f with doorbellIgnored := satNat 32 ((s.fnOf f).doorbellIgnored + 1) }).noteSet (keyDoorbell f) :=
  (if_neg (by simp [enabled, live])).trans (if_pos wrong)

/-- A doorbell of the right width has its effect, and its function's shadows may be due (R341, R344). -/
theorem doorbell_taken (take : State → State) (enabled : s.fnEnabled f = true) (live : (s.fnOf f).inReset = false) :
    ∃ due, doorbell s f 32 take = { take s with intake := { (take s).intake with shadowDue := due } } := by
  have taken : doorbell s f 32 take = _ := (if_neg (by simp [enabled, live])).trans (if_neg (not_not_intro rfl))
  rw [taken]
  dsimp only
  split
  · exact ⟨_, rfl⟩
  · exact ⟨_, rfl⟩

theorem takeHead_within {h : Nat} (enabled : (s.cqOf f q).enable = true) (going : (s.cqOf f q).stopped = false)
    (within : h < 2 ^ (s.cqOf f q).sizeLog2)
    (known : ringDist (2 ^ (s.cqOf f q).sizeLog2) h (s.cqOf f q).tail ≤
      ringDist (2 ^ (s.cqOf f q).sizeLog2) (s.cqOf f q).head (s.cqOf f q).tail) :
    takeHead s f q h = s.setCq f q { s.cqOf f q with head := h } := by
  have runs : ¬ (¬ (s.cqOf f q).enable = true ∨ (s.cqOf f q).stopped = true) := by simp [enabled, going]
  exact (if_neg runs).trans ((if_neg (Nat.not_le.mpr within)).trans (if_pos known))

/-- `s` with the shadows of function `f` no longer due. -/
def shadowTaken (s : State) (f : Nat) : State :=
  { s with intake := { s.intake with shadowDue := s.intake.shadowDue.filter (· != f) } }

/-- Its shadows disabled by a read of them that failed (R344). -/
def shadowFailed (s : State) (f : Nat) : State :=
  ((shadowTaken s f).setFn f { s.fnOf f with shadowErr := true, shadowEn := false }).noteSet (keyShadow f)

section

variable {f : Fn} (due : f.val ∈ s.intake.shadowDue) (shadows : (s.fnOf f).shadowEn = true)
  (live : (s.fnOf f).inReset = false) (going : s.stop.state ≠ 2)
include due shadows live going

theorem exec_shadowRead_ok (b : Bytes) : exec (.shadowRead f (.ok b)) s = .next (takePage (shadowTaken s f) f b) :=
  act_next ⟨by simpa using due, shadows, live, going⟩ _ _

theorem exec_shadowRead_timeout : exec (.shadowRead f .timeout) s = .next (shadowFailed s f) :=
  act_next ⟨by simpa using due, shadows, live, going⟩ _ _

end

/-! ### What heads and tails leave of the intake -/

theorem intake_of_logs (h : Logs s t) : t.intake = s.intake := eq_of_logs State.intake (fun _ _ => rfl) h

theorem Sends.intake (h : Sends s t) : t.intake = s.intake := by
  obtain ⟨os, rfl⟩ := h
  rfl

theorem ringError_intake (ring err : Nat) : (ringError s f ring err).intake = s.intake := intake_of_logs (raise_logs ..)

theorem takeTail_intake (v : Nat) : (takeTail s f q v).intake = s.intake := by
  unfold takeTail
  dsimp only
  split_ifs
  · rfl
  · exact ringError_intake _ _
  · exact (cqEvent_sends _ f q).intake
  · rfl

theorem takeHead_intake (h : Nat) : (takeHead s f q h).intake = s.intake := by
  unfold takeHead
  dsimp only
  split_ifs
  · rfl
  · exact ringError_intake _ _
  · rfl
  · rfl
  · exact ringError_intake _ _

theorem takePage_intake (b : Bytes) : (takePage s f b).intake = s.intake := by
  have tails : ((List.range 16).foldl (takeShadow f b) s).intake = s.intake :=
    List.foldlRecOn (motive := fun t : State => t.intake = s.intake) _ _ rfl fun _ kept q _ =>
      (sqEvent_sends _ f q).intake.trans ((takeTail_intake _).trans kept)
  refine List.foldlRecOn (motive := fun t : State => t.intake = s.intake) _ _ tails fun t kept q _ => ?_
  split
  · exact (takeHead_intake _).trans kept
  · exact kept

/-- Doorbells and shadows (R341, R342, R344, R365). -/
theorem doorbellsServed (s : State) (f : Fn) (q : Fin 16) (value : W64) (enabled : s.fnEnabled f = true)
    (live : (s.fnOf f).inReset = false) :
    (let r := s.sqOf f q
     let c := s.cqOf f q
     let v := fieldNat value.toNat 15 0
     (∀ width : Nat, width ≠ 32 →
       (∃ t, exec (.sqTailDoorbell f q width value) s = .next t ∧ { t with fresh := s.fresh } =
         s.setFn f { s.fnOf f with doorbellIgnored := satNat 32 ((s.fnOf f).doorbellIgnored + 1) }) ∧
       (∃ t, exec (.cqHeadDoorbell f q width value) s = .next t ∧ { t with fresh := s.fresh } =
         s.setFn f { s.fnOf f with doorbellIgnored := satNat 32 ((s.fnOf f).doorbellIgnored + 1) })) ∧
     (r.enable = true → r.stopped = false → v < 2 ^ r.sizeLog2 → Ahead r v →
       ∃ t, exec (.sqTailDoorbell f q 32 value) s = .next t ∧
         { t with fns := s.fns, out := s.out, intake := s.intake } = s ∧
         { t.sqOf f q with marks := r.marks } = { r with tail := v } ∧ t.cqOf f q = c) ∧
     (r.enable = true → r.stopped = false → 2 ^ r.sizeLog2 ≤ v →
       ∃ t, exec (.sqTailDoorbell f q 32 value) s = .next t ∧ t.sqOf f q = { r with err := 1, stopped := true }) ∧
     (c.enable = true → c.stopped = false → v < 2 ^ c.sizeLog2 →
       ringDist (2 ^ c.sizeLog2) v c.tail ≤ ringDist (2 ^ c.sizeLog2) c.head c.tail →
       ∃ t, exec (.cqHeadDoorbell f q 32 value) s = .next t ∧ { t with fns := s.fns, intake := s.intake } = s ∧
         t.cqOf f q = { c with head := v } ∧ t.sqOf f q = r)) := by
  intro r c v
  refine ⟨fun width wrong => ⟨?_, ?_⟩, fun on going within ahead => ?_, fun on going beyond => ?_,
    fun on going within known => ?_⟩
  · exact ⟨_, congrArg Host.Outcome.next (doorbell_ignored _ enabled live wrong), rfl⟩
  · exact ⟨_, congrArg Host.Outcome.next (doorbell_ignored _ enabled live wrong), rfl⟩
  · obtain ⟨due, rung⟩ := doorbell_taken (fun s => takeTail s f q v) enabled live
    obtain ⟨os, sent⟩ := takeTail_sends on going within ahead
    have kept : tailed s r v ≠ {} := sq_ne_of_enable on
    refine ⟨_, congrArg Host.Outcome.next rung, ?_⟩
    dsimp only
    rw [sent]
    refine ⟨rfl, ?_, cqOf_setSq kept q⟩
    exact congrArg (fun x : Sq => { x with marks := r.marks }) (sqOf_setSq kept)
  · obtain ⟨due, rung⟩ := doorbell_taken (fun s => takeTail s f q v) enabled live
    refine ⟨_, congrArg Host.Outcome.next rung, ?_⟩
    refine (sqOf_of_fns (congrArg State.fns (takeTail_beyond on going beyond)) f q).trans (stopSq_rings on).1
  · obtain ⟨due, rung⟩ := doorbell_taken (fun s => takeHead s f q v) enabled live
    have kept : ({ c with head := v } : Cq) ≠ {} := cq_ne_of_enable on
    refine ⟨_, congrArg Host.Outcome.next rung, ?_⟩
    dsimp only
    rw [takeHead_within on going within known]
    exact ⟨rfl, cqOf_setCq kept, sqOf_setCq kept q⟩

/-- Shadows (R342, R344). -/
theorem shadowsServed (s : State) (f : Fn) (live : (s.fnOf f).inReset = false) (due : f.val ∈ s.intake.shadowDue)
    (shadows : (s.fnOf f).shadowEn = true) (going : s.stop.state ≠ 2) :
    (∃ t, exec (.shadowRead f .timeout) s = .next t ∧ (t.fnOf f).shadowEn = false ∧ (t.fnOf f).shadowErr = true ∧
      f.val ∉ t.intake.shadowDue ∧ { t with fns := s.fns, intake := s.intake, fresh := s.fresh } = s) ∧
    (∀ b : Bytes, ∃ t, exec (.shadowRead f (.ok b)) s = .next t ∧ f.val ∉ t.intake.shadowDue ∧
      (∀ k : Fin 16, (let r := s.sqOf f k
        let v := bitsAt b (4 * k.val) 4 15 0
        r.enable = true → r.stopped = false → v < 2 ^ r.sizeLog2 → Ahead r v →
        (t.sqOf f k).tail = v ∧ (t.sqOf f k).head = r.head))) := by
  have gone : f.val ∉ (shadowTaken s f).intake.shadowDue := by simp [shadowTaken]
  refine ⟨⟨_, exec_shadowRead_timeout due shadows live going, ?_⟩, fun b =>
    ⟨_, exec_shadowRead_ok due shadows live going b, ?_, fun k on running within ahead => ?_⟩⟩
  · have failed : ({ s.fnOf f with shadowErr := true, shadowEn := false } : FnState) ≠ {} := fun e =>
      Bool.noConfusion (congrArg FnState.shadowErr e)
    have own : (shadowFailed s f).fnOf f = _ := (fnOf_of_fns rfl f).trans (fnOf_setFn_of_ne (s := shadowTaken s f) failed)
    refine ⟨congrArg FnState.shadowEn own, congrArg FnState.shadowErr own, gone, ?_⟩
    dsimp only [shadowFailed, shadowTaken, State.setFn, State.noteSet]
  · rw [takePage_intake]
    exact gone
  · exact takePage_ahead (s := shadowTaken s f) b k.isLt on running within ahead

/-! ### Ring contexts (R339, R340) -/

/-- A ring with the fields that a write of its word 1 spells, moved where its size changes (R339, R340). -/
def sqSpelt (r : Sq) (v : Nat) : Sq :=
  let x := { r with sizeLog2 := fieldNat v 4 0, cq := fieldNat v 11 8, pasidEn := bitNat v 13, pasid := fieldNat v 33 14 }
  if fieldNat v 4 0 ≠ r.sizeLog2 then x.restart else x

def cqSpelt (c : Cq) (v : Nat) : Cq :=
  let x := { c with vector := fieldNat v 18 8, irqEn := bitNat v 19, pendingIrq := if bitNat v 19 then c.pendingIrq else 0
                    sizeLog2 := fieldNat v 4 0, pasidEn := bitNat v 21, pasid := fieldNat v 41 22 }
  if fieldNat v 4 0 ≠ c.sizeLog2 then x.restart else x

theorem sqSpelt_base (r : Sq) (v : Nat) : (sqSpelt r v).base = r.base ∧ (sqSpelt r v).sizeLog2 = fieldNat v 4 0 ∧
    (sqSpelt r v).cq = fieldNat v 11 8 ∧ (sqSpelt r v).pasidEn = bitNat v 13 ∧ (sqSpelt r v).pasid = fieldNat v 33 14 := by
  unfold sqSpelt
  dsimp only
  split
  · exact ⟨rfl, rfl, rfl, rfl, rfl⟩
  · exact ⟨rfl, rfl, rfl, rfl, rfl⟩

theorem sqSpelt_moved {r : Sq} {v : Nat} (moved : fieldNat v 4 0 ≠ r.sizeLog2) :
    (sqSpelt r v).head = 0 ∧ (sqSpelt r v).tail = 0 := by
  rw [sqSpelt, if_pos moved]
  exact ⟨rfl, rfl⟩

theorem sqSpelt_kept {r : Sq} {v : Nat} (kept : fieldNat v 4 0 = r.sizeLog2) :
    (sqSpelt r v).head = r.head ∧ (sqSpelt r v).tail = r.tail := by
  rw [sqSpelt, if_neg (not_not_intro kept)]
  exact ⟨rfl, rfl⟩

theorem cqSpelt_base (c : Cq) (v : Nat) : (cqSpelt c v).base = c.base ∧ (cqSpelt c v).sizeLog2 = fieldNat v 4 0 ∧
    (cqSpelt c v).vector = fieldNat v 18 8 ∧ (cqSpelt c v).irqEn = bitNat v 19 ∧ (cqSpelt c v).pasidEn = bitNat v 21 ∧
    (cqSpelt c v).pasid = fieldNat v 41 22 := by
  unfold cqSpelt
  dsimp only
  split
  · exact ⟨rfl, rfl, rfl, rfl, rfl, rfl⟩
  · exact ⟨rfl, rfl, rfl, rfl, rfl, rfl⟩

theorem cqSpelt_moved {c : Cq} {v : Nat} (moved : fieldNat v 4 0 ≠ c.sizeLog2) :
    (cqSpelt c v).tail = 0 ∧ (cqSpelt c v).head = 0 ∧ (cqSpelt c v).phase = true := by
  rw [cqSpelt, if_pos moved]
  exact ⟨rfl, rfl, rfl⟩

/-- Word 1 of a disabled SQ, whole, enables it (R339, R340). -/
theorem sqWrite_enables {v : Nat} (idle : (s.sqOf f q).enable = false) (on : bitNat v 12 = true) (low : 1 ≤ fieldNat v 4 0)
    (high : fieldNat v 4 0 ≤ 16) (base : (s.sqOf f q).base ≠ 0) (cq : (s.cqOf f (fieldNat v 11 8)).enable = true) :
    sqWrite s f q v = s.setSq f q { sqSpelt (s.sqOf f q) v with enable := true, err := 0, stopped := false } := by
  have spelt : (if (s.sqOf f q).enable = true then s.sqOf f q else sqSpelt (s.sqOf f q) v) = sqSpelt (s.sqOf f q) v :=
    if_neg (Bool.eq_false_iff.mp idle)
  obtain ⟨sameBase, size, ring, -, -⟩ := sqSpelt_base (s.sqOf f q) v
  have whole : ¬ ((sqSpelt (s.sqOf f q) v).sizeLog2 = 0 ∨ 16 < (sqSpelt (s.sqOf f q) v).sizeLog2 ∨
      (sqSpelt (s.sqOf f q) v).base = 0) := by
    rw [size, sameBase]
    rintro (none | big | unset)
    · omega
    · omega
    · exact base unset
  refine (if_neg (not_not_intro on)).trans ((if_neg (Bool.eq_false_iff.mp idle)).trans ?_)
  have open_ : ¬ ¬ (s.cqOf f (sqSpelt (s.sqOf f q) v).cq).enable = true := not_not_intro (ring ▸ cq)
  exact (if_neg (spelt.symm ▸ whole)).trans ((if_neg (spelt.symm ▸ open_)).trans
    (congrArg (fun r : Sq => s.setSq f q { r with enable := true, err := 0, stopped := false }) spelt))

theorem exec_sqContextWrite_base {f : Fn} {q : Fin 16} {value : W64} (enabled : s.fnEnabled f = true)
    (live : (s.fnOf f).inReset = false) (idle : (s.sqOf f q).enable = false)
    (moves : value &&& ~~~ 0xFFF ≠ (s.sqOf f q).base) : exec (.sqContextWrite f q false 0 64 value) s =
      .next (s.setSq f q { s.sqOf f q with base := value &&& ~~~ 0xFFF }.restart) := by
  have served : ¬ (¬ s.fnEnabled f = true ∨ (s.fnOf f).inReset = true) := by simp [enabled, live]
  have free : ¬ ((s.sqOf f q).enable = true ∨ value &&& ~~~ 0xFFF = (s.sqOf f q).base) :=
    not_or.mpr ⟨Bool.eq_false_iff.mp idle, moves⟩
  exact congrArg Host.Outcome.next ((if_neg served).trans (if_neg free))

/-- Word 1 of a disabled CQ with nothing reserved, whole, enables it (R339, R340). -/
theorem cqWrite_enables {v : Nat} (idle : (s.cqOf f q).enable = false) (free : (s.cqOf f q).resv = 0)
    (on : bitNat v 20 = true) (low : 1 ≤ fieldNat v 4 0) (high : fieldNat v 4 0 ≤ 16) (base : (s.cqOf f q).base ≠ 0)
    (own : fieldNat v 18 8 / 8 = f) :
    cqWrite s f q v = s.setCq f q { cqSpelt (s.cqOf f q) v with enable := true, err := 0, stopped := false } := by
  have off : ¬ (s.cqOf f q).enable = true := Bool.eq_false_iff.mp idle
  have spelt : ∀ x, (if (s.cqOf f q).enable = true ∨ 0 < (s.cqOf f q).resv then x else cqSpelt (s.cqOf f q) v) =
      cqSpelt (s.cqOf f q) v := fun x => if_neg (not_or.mpr ⟨off, Nat.not_lt.mpr free.le⟩)
  obtain ⟨sameBase, size, vector, -, -, -⟩ := cqSpelt_base (s.cqOf f q) v
  have whole : ¬ ((cqSpelt (s.cqOf f q) v).sizeLog2 = 0 ∨ 16 < (cqSpelt (s.cqOf f q) v).sizeLog2 ∨
      (cqSpelt (s.cqOf f q) v).base = 0) := by
    rw [size, sameBase]
    rintro (none | big | unset)
    · omega
    · omega
    · exact base unset
  have mine : ¬ (cqSpelt (s.cqOf f q) v).vector / 8 ≠ f := by rw [vector]; exact not_not_intro own
  refine (if_neg (not_not_intro on)).trans ((if_neg off).trans ?_)
  exact (if_neg ((spelt _).symm ▸ whole)).trans ((if_neg ((spelt _).symm ▸ mine)).trans
    (congrArg (fun c : Cq => s.setCq f q { c with enable := true, err := 0, stopped := false }) (spelt _)))

theorem exec_cqContextWrite_base {f : Fn} {q : Fin 16} {value : W64} (enabled : s.fnEnabled f = true)
    (live : (s.fnOf f).inReset = false) (idle : (s.cqOf f q).enable = false) (free : (s.cqOf f q).resv = 0)
    (moves : value &&& ~~~ 0xFFF ≠ (s.cqOf f q).base) : exec (.cqContextWrite f q false 0 64 value) s =
      .next (s.setCq f q { s.cqOf f q with base := value &&& ~~~ 0xFFF }.restart) := by
  have served : ¬ (¬ s.fnEnabled f = true ∨ (s.fnOf f).inReset = true) := by simp [enabled, live]
  have still : ¬ ((s.cqOf f q).enable = true ∨ 0 < (s.cqOf f q).resv ∨ value &&& ~~~ 0xFFF = (s.cqOf f q).base) :=
    not_or.mpr ⟨Bool.eq_false_iff.mp idle, not_or.mpr ⟨Nat.not_lt.mpr free.le, moves⟩⟩
  exact congrArg Host.Outcome.next ((if_neg served).trans (if_neg still))

/-- Ring contexts (R339, R340). -/
theorem contextsServed (s : State) (f : Fn) (q : Fin 16) (value : W64) (enabled : s.fnEnabled f = true)
    (live : (s.fnOf f).inReset = false) :
    (let r := s.sqOf f q
     let c := s.cqOf f q
     let v := value.toNat
     (r.enable = false →
       (value &&& ~~~ 0xFFF ≠ r.base → value &&& ~~~ 0xFFF ≠ 0 →
         ∃ t, exec (.sqContextWrite f q false 0 64 value) s = .next t ∧ { t with fns := s.fns } = s ∧
           t.sqOf f q = { r with base := value &&& ~~~ 0xFFF, head := 0, tail := 0, marks := [], seq := 0 }) ∧
       (bitNat v 12 = true → 1 ≤ fieldNat v 4 0 → fieldNat v 4 0 ≤ 16 → r.base ≠ 0 →
         (s.cqOf f (fieldNat v 11 8)).enable = true →
         ∃ t, exec (.sqContextWrite f q true 0 64 value) s = .next t ∧ { t with fns := s.fns } = s ∧
           t.sqOf f q = { sqSpelt r v with enable := true, err := 0, stopped := false })) ∧
     (c.enable = false → c.resv = 0 →
       (value &&& ~~~ 0xFFF ≠ c.base → value &&& ~~~ 0xFFF ≠ 0 →
         ∃ t, exec (.cqContextWrite f q false 0 64 value) s = .next t ∧ { t with fns := s.fns } = s ∧
           t.cqOf f q = { c with base := value &&& ~~~ 0xFFF, tail := 0, head := 0, phase := true }) ∧
       (bitNat v 20 = true → 1 ≤ fieldNat v 4 0 → fieldNat v 4 0 ≤ 16 → c.base ≠ 0 → fieldNat v 18 8 / 8 = f.val →
         ∃ t, exec (.cqContextWrite f q true 0 64 value) s = .next t ∧ { t with fns := s.fns } = s ∧
           t.cqOf f q = { cqSpelt c v with enable := true, err := 0, stopped := false }))) := by
  intro r c v
  have served : ¬ (¬ s.fnEnabled f = true ∨ (s.fnOf f).inReset = true) := by simp [enabled, live]
  refine ⟨fun idle => ⟨fun moves based => ?_, fun on low high base cq => ?_⟩, fun idle free =>
    ⟨fun moves based => ?_, fun on low high base own => ?_⟩⟩
  · have kept : ({ r with base := value &&& ~~~ 0xFFF } : Sq).restart ≠ {} := fun e => based (congrArg Sq.base e :)
    exact ⟨_, exec_sqContextWrite_base enabled live idle moves, rfl, sqOf_setSq kept⟩
  · exact ⟨_, congrArg Host.Outcome.next ((if_neg served).trans (sqWrite_enables idle on low high base cq)), rfl,
      sqOf_setSq (sq_ne_of_enable rfl)⟩
  · have kept : ({ c with base := value &&& ~~~ 0xFFF } : Cq).restart ≠ {} := fun e => based (congrArg Cq.base e :)
    exact ⟨_, exec_cqContextWrite_base enabled live idle free moves, rfl, cqOf_setCq kept⟩
  · exact ⟨_, congrArg Host.Outcome.next ((if_neg served).trans (cqWrite_enables idle free on low high base own)), rfl,
      cqOf_setCq (cq_ne_of_enable rfl)⟩

/-! ### Interrupts (R382, R384, R385) -/

/-- `t` is `s` but for the completion rings of function `f`, in a table of functions in rising order. -/
structure CqsOnly (s : State) (f : Nat) (t : State) : Prop where
  only : OnlyFns s t
  rising : risingFrom 0 t.fns = true
  record : t.fnOf f = { s.fnOf f with cq := (t.fnOf f).cq }
  cqs : risingFrom 0 (s.fnOf f).cq = true → risingFrom 0 (t.fnOf f).cq = true

theorem CqsOnly.refl (rising : risingFrom 0 s.fns = true) : CqsOnly s f s := ⟨rfl, rising, rfl, id⟩

theorem fnOf_setCq_rising (rising : risingFrom 0 s.fns = true) (f q : Nat) (c : Cq) :
    (s.setCq f q c).fnOf f = { s.fnOf f with cq := tset {} (s.fnOf f).cq q c } := fnOf_setFn s f _ rising

theorem CqsOnly.setCq (h : CqsOnly s f t) (k : Nat) (c : Cq) : CqsOnly s f (t.setCq f k c) := by
  obtain ⟨only, rising, record, cqs⟩ := h
  have own := fnOf_setCq_rising rising f k c
  refine ⟨only.trans (setFn_onlyFns t f _), risingFrom_tset _ _ _ rising, ?_, fun rise => ?_⟩
  · rw [own]
    exact congrArg (fun x : FnState => { x with cq := tset {} (t.fnOf f).cq k c }) record
  · rw [own]
    exact risingFrom_tset _ _ _ (cqs rise)

theorem CqsOnly.cqOf (h : CqsOnly s f t) (rise : risingFrom 0 (s.fnOf f).cq = true) (k : Nat) (c : Cq) :
    (t.setCq f k c).cqOf f k = c := by
  rw [State.cqOf, fnOf_setCq_rising h.rising]
  exact tget_tset _ _ _ _ _ (h.cqs rise)

theorem CqsOnly.cqOf_ne (h : CqsOnly s f t) {j k : Nat} (c : Cq) (other : j ≠ k) :
    (t.setCq f k c).cqOf f j = t.cqOf f j := by
  rw [State.cqOf, fnOf_setCq_rising h.rising]
  exact tget_tset_ne _ _ _ _ _ other

/-- A vector that is free to send sends, and its pending bit clears (R382, R385). -/
theorem sendMsix_sends {v : Nat} (live : (s.fnOf f).inReset = false) (unmasked : (tget {} (s.fnOf f).msix (v % 8)).masked = false)
    (free : (s.fnOf f).fnMask = false) : sendMsix s f v =
      (s.setFn f { s.fnOf f with pba := (s.fnOf f).pba &&& ~~~ BitVec.ofNat 64 (2 ^ (v % 8)) }).emit (.msix v) :=
  (if_neg (Bool.eq_false_iff.mp live)).trans (if_neg (by rw [unmasked, free]; exact Bool.false_ne_true))

/-- What a message of vector `v` leaves, where it is free to go, after work on completion rings alone. -/
theorem CqsOnly.sendMsix (h : CqsOnly s f t) {v : Nat} (live : (s.fnOf f).inReset = false)
    (unmasked : (tget {} (s.fnOf f).msix (v % 8)).masked = false) (free : (s.fnOf f).fnMask = false) :
    (let u := sendMsix t f v
     { u with fns := s.fns, out := s.out } = s ∧ u.out = s.out ++ [.msix v] ∧ (∀ k, u.cqOf f k = t.cqOf f k) ∧
       (u.fnOf f).pba = (s.fnOf f).pba &&& ~~~ BitVec.ofNat 64 (2 ^ (v % 8)) ∧ (u.fnOf f).msix = (s.fnOf f).msix) := by
  obtain ⟨only, rising, record, -⟩ := h
  have sent : Machine.sendMsix t f v = _ := sendMsix_sends (by rw [record]; exact live) (by rw [record]; exact unmasked)
    (by rw [record]; exact free)
  have own : (Machine.sendMsix t f v).fnOf f =
      { t.fnOf f with pba := (t.fnOf f).pba &&& ~~~ BitVec.ofNat 64 (2 ^ (v % 8)) } := by
    rw [sent]
    exact fnOf_setFn t f _ rising
  refine ⟨?_, ?_, fun k => ?_, ?_, ?_⟩
  · rw [sent]
    exact (congrArg (fun w : State => { w with fns := s.fns, out := s.out }) only :)
  · rw [sent]
    exact congrArg (· ++ [Out.msix v]) (congrArg State.out only :)
  · rw [State.cqOf, own]
    rfl
  · rw [own, record]
  · rw [own, record]

/-- Whether a ring's completions wait no longer for their message at `now` (R384). -/
def coalesced (now : Nat) (x : Cq) : Bool := decide (0 < x.pendingIrq) && decide (x.firstIrqNs + 1000 * x.coalTime ≤ now)

/-- The message of ring `c` covers ring `k` too where that is due on the same vector (R384). -/
def coverDue (now : Nat) (c : Cq) (f : Nat) (s : State) (k : Nat) : State :=
  if coalesced now (s.cqOf f k) = true ∧ (s.cqOf f k).vector = c.vector then
    s.setCq f k { s.cqOf f k with pendingIrq := 0 }
  else s

theorem exec_irqCoalesceTimeout {f : Fn} {q : Fin 16} (due : coalesced s.ns (s.cqOf f q) = true)
    (live : (s.fnOf f).inReset = false) : exec (.irqCoalesceTimeout f q) s =
      .next (sendMsix ((List.range 16).foldl (coverDue s.ns (s.cqOf f q) f) s) f (s.cqOf f q).vector) :=
  act_next ⟨due, live⟩ _ _

theorem CqsOnly.coverDue (h : CqsOnly s f t) (now : Nat) (c : Cq) (k : Nat) : CqsOnly s f (coverDue now c f t k) := by
  unfold Proofs.coverDue
  split
  · exact h.setCq _ _
  · exact h

theorem CqsOnly.coverDues (h : CqsOnly s f t) (now : Nat) (c : Cq) (ks : List Nat) :
    CqsOnly s f (ks.foldl (Proofs.coverDue now c f) t) :=
  List.foldlRecOn (motive := CqsOnly s f) _ _ h fun _ kept k _ => kept.coverDue now c k

/-- Covering other rings leaves a ring. -/
theorem CqsOnly.coverDues_ne (h : CqsOnly s f t) (now : Nat) (c : Cq) (ks : List Nat) (others : q ∉ ks) :
    (ks.foldl (Proofs.coverDue now c f) t).cqOf f q = t.cqOf f q := by
  refine (List.foldlRecOn (motive := fun u : State => CqsOnly s f u ∧ u.cqOf f q = t.cqOf f q) _ _ ⟨h, rfl⟩
    fun u kept k named => ⟨kept.1.coverDue now c k, ?_⟩).2
  have other : q ≠ k := fun own => others (own ▸ named)
  unfold Proofs.coverDue
  split
  · exact (kept.1.cqOf_ne _ other).trans kept.2
  · exact kept.2

/-- A ring that is due is covered by its own message. -/
theorem coverDues_own (rising : risingFrom 0 s.fns = true) (rise : risingFrom 0 (s.fnOf f).cq = true) (ring : q < 16)
    (due : coalesced s.ns (s.cqOf f q) = true) :
    ((List.range 16).foldl (coverDue s.ns (s.cqOf f q) f) s).cqOf f q = { s.cqOf f q with pendingIrq := 0 } := by
  obtain ⟨before, after, split⟩ := List.append_of_mem (List.mem_range.mpr ring)
  have once := List.nodup_range (n := 16)
  rw [split, List.nodup_middle, List.nodup_cons, List.mem_append, not_or] at once
  obtain ⟨⟨notBefore, notAfter⟩, -⟩ := once
  have start := CqsOnly.refl (f := f) rising
  have first := start.coverDues_ne s.ns (s.cqOf f q) before notBefore
  have reached := start.coverDues s.ns (s.cqOf f q) before
  rw [split, List.foldl_append, List.foldl_cons, (reached.coverDue _ _ q).coverDues_ne _ _ after notAfter, coverDue, first,
    if_pos ⟨due, rfl⟩]
  exact reached.cqOf rise _ _

/-- The rings of a vector have nothing pending once its held message goes out (R385). -/
def coverHeld (f i : Nat) (s : State) (k : Nat) : State :=
  if (s.cqOf f k).vector = 8 * f + i then s.setCq f k { s.cqOf f k with pendingIrq := 0 } else s

theorem sendHeldMsix_sends {i : Nat} (held : (s.fnOf f).pba.getLsbD i = true) (free : (s.fnOf f).fnMask = false) :
    sendHeldMsix s f i = sendMsix ((List.range 16).foldl (coverHeld f i) s) f (8 * f + i) := by
  have goes : ¬ (¬ (s.fnOf f).pba.getLsbD i = true ∨ (s.fnOf f).fnMask = true) :=
    not_or.mpr ⟨not_not_intro held, Bool.eq_false_iff.mp free⟩
  exact if_neg goes

theorem coverHelds_cqsOnly (rising : risingFrom 0 s.fns = true) (i : Nat) (ks : List Nat) :
    CqsOnly s f (ks.foldl (coverHeld f i) s) :=
  List.foldlRecOn (motive := CqsOnly s f) _ _ (.refl rising) fun t kept k _ => by
    unfold coverHeld
    split
    · exact kept.setCq _ _
    · exact kept

/-- `s` with a vector unmasked. -/
def unmasked (s : State) (f i : Nat) : State :=
  s.setFn f { s.fnOf f with msix := tset {} (s.fnOf f).msix i { tget {} (s.fnOf f).msix i with masked := false } }

theorem exec_msixUnmask {f : Fn} {i : Fin 8} (live : (s.fnOf f).inReset = false) :
    exec (.msixUnmask f i) s = .next (sendHeldMsix (unmasked s f i) f i) :=
  act_next live _ _

/-- What keeps all but the functions' records and the transmissions of the state with a vector unmasked keeps them of `s`. -/
theorem frame_of_unmasked {i : Nat} (frame : { u with fns := (unmasked s f i).fns, out := (unmasked s f i).out } = unmasked s f i) :
    { u with fns := s.fns, out := s.out } = s :=
  congrArg (fun w : State => { w with fns := s.fns }) frame

/-- The coalescing time of a ring (R384). -/
theorem irqCoalesces {f : Fn} (live : (s.fnOf f).inReset = false) (free : (s.fnOf f).fnMask = false) (q : Fin 16)
    (due : coalesced s.ns (s.cqOf f q) = true)
    (open_ : (tget {} (s.fnOf f).msix ((s.cqOf f q).vector % 8)).masked = false) (rising : risingFrom 0 s.fns = true)
    (rise : risingFrom 0 (s.fnOf f).cq = true) :
    ∃ t, exec (.irqCoalesceTimeout f q) s = .next t ∧ { t with fns := s.fns, out := s.out } = s ∧
      t.out = s.out ++ [.msix (s.cqOf f q).vector] ∧ t.cqOf f q = { s.cqOf f q with pendingIrq := 0 } := by
  obtain ⟨frame, out, rings, -, -⟩ := ((CqsOnly.refl rising).coverDues s.ns (s.cqOf f q) (List.range 16)).sendMsix
    live open_ free
  exact ⟨_, exec_irqCoalesceTimeout due live, frame, out, (rings q).trans (coverDues_own rising rise q.isLt due)⟩

theorem getLsbD_cleared (x : W64) (i : Nat) : (x &&& ~~~ BitVec.ofNat 64 (2 ^ i)).getLsbD i = false := by
  rw [BitVec.getLsbD_and, BitVec.getLsbD_not, BitVec.getLsbD_ofNat, Nat.testBit_two_pow_self]
  simp

/-- The message held for a vector that is unmasked (R385). -/
theorem msixUnmasks {f : Fn} (live : (s.fnOf f).inReset = false) (free : (s.fnOf f).fnMask = false) (vec : Fin 8)
    (held : (s.fnOf f).pba.getLsbD vec = true) (rising : risingFrom 0 s.fns = true)
    (rise : risingFrom 0 (s.fnOf f).msix = true) :
    ∃ t, exec (.msixUnmask f vec) s = .next t ∧ { t with fns := s.fns, out := s.out } = s ∧
      t.out = s.out ++ [.msix (8 * f.val + vec.val)] ∧ (t.fnOf f).pba.getLsbD vec = false ∧
      (tget {} (t.fnOf f).msix vec).masked = false := by
  have own : (unmasked s f vec).fnOf f = _ := fnOf_setFn s f _ rising
  have vector : (8 * f.val + vec.val) % 8 = vec.val := by omega
  have open_ : (tget {} ((unmasked s f vec).fnOf f).msix ((8 * f.val + vec.val) % 8)).masked = false := by
    rw [own, vector]
    exact congrArg Msix.masked (tget_tset _ _ _ _ _ rise)
  have live' : ((unmasked s f vec).fnOf f).inReset = false := by rw [own]; exact live
  have free' : ((unmasked s f vec).fnOf f).fnMask = false := by rw [own]; exact free
  have held' : ((unmasked s f vec).fnOf f).pba.getLsbD vec = true := by rw [own]; exact held
  obtain ⟨frame, out, -, pba, msix⟩ := (coverHelds_cqsOnly (s := unmasked s f vec) (f := f)
    (risingFrom_tset _ _ _ rising) vec (List.range 16)).sendMsix live' open_ free'
  refine ⟨_, (exec_msixUnmask live).trans (congrArg _ (sendHeldMsix_sends held' free')), frame_of_unmasked frame, out, ?_, ?_⟩
  · rw [pba, vector]
    exact getLsbD_cleared _ _
  · rw [msix]
    rw [vector] at open_
    exact open_

/-- Settles O24: doorbells and shadows, ring contexts, interrupts. -/
theorem ringsAndInterrupts : Obligations.RingsAndInterrupts := by
  refine ⟨fun s f q value enabled live => ?_, fun s f q value enabled live _ => ?_, fun s f live free =>
    ⟨fun q pending late => irqCoalesces live free q (by simp [coalesced, pending, late]), msixUnmasks live free⟩⟩
  · obtain ⟨ignored, ahead, beyond, heads⟩ := doorbellsServed s f q value enabled live
    exact ⟨ignored, ahead, beyond, heads, fun due shadows going => shadowsServed s f live due shadows going⟩
  · obtain ⟨sqs, cqs⟩ := contextsServed s f q value enabled live
    refine ⟨fun idle => ⟨(sqs idle).1, fun on low high base cq => ?_⟩, fun idle free => ⟨(cqs idle free).1,
      fun on low high base own => ?_⟩⟩
    · obtain ⟨t, run, frame, ring⟩ := (sqs idle).2 on low high base cq
      obtain ⟨sameBase, size, cq', pasidEn, pasid⟩ := sqSpelt_base (s.sqOf f q) value.toNat
      refine ⟨t, run, frame, ?_⟩
      dsimp only
      rw [ring]
      exact ⟨rfl, rfl, rfl, sameBase, size, cq', pasidEn, pasid, sqSpelt_moved, sqSpelt_kept⟩
    · obtain ⟨t, run, frame, ring⟩ := (cqs idle free).2 on low high base own
      obtain ⟨sameBase, size, vector, irq, pasidEn, pasid⟩ := cqSpelt_base (s.cqOf f q) value.toNat
      refine ⟨t, run, frame, ?_⟩
      dsimp only
      rw [ring]
      exact ⟨rfl, rfl, rfl, sameBase, size, vector, irq, pasidEn, pasid, cqSpelt_moved⟩

end Sys2Proof.Proofs
end

section
/-!
SUPPORT. Flooding: the message waits at every ACTIVE port of a list (R406, R474).
-/

namespace Sys2Proof.Proofs

open Sys2Proof.Machine Sys2Proof.Laws

variable {s t : State} {m : CtrlMsg}

theorem queueFour_portOf (rising : risingFrom 0 s.ports = true) (p q : Nat) :
    (queueFour s p m).portOf q = if q = p then queued (s.portOf q) m else s.portOf q := by
  have at_ := (PortIs.refl (s := s) (p := p) rising).queueFour m
  split
  next own => rw [own, at_.port]
  next other => exact at_.only.2 q other

theorem queueFour_rising (rising : risingFrom 0 s.ports = true) (p : Nat) : risingFrom 0 (queueFour s p m).ports = true :=
  ((PortIs.refl (s := s) (p := p) rising).queueFour m).rising

/-- Queueing a message at each port of a list queues it once at each. -/
theorem queueFours_portOf (q : Nat) : ∀ (ps : List Nat) (s : State), ps.Nodup → risingFrom 0 s.ports = true →
    (ps.foldl (fun s p => queueFour s p m) s).portOf q = if q ∈ ps then queued (s.portOf q) m else s.portOf q
  | [], _, _, _ => by simp
  | p :: ps, s, once, rising => by
    obtain ⟨fresh, once'⟩ := List.nodup_cons.mp once
    rw [List.foldl_cons, queueFours_portOf q ps _ once' (queueFour_rising rising p), queueFour_portOf rising]
    by_cases own : q = p
    · rw [own, if_neg fresh, if_pos rfl, if_pos List.mem_cons_self]
    · rw [if_neg own]
      simp only [List.mem_cons, own, false_or]

theorem queueCtrl_frame (h : { t with ports := s.ports } = s) (p : Nat) : { queueCtrl t p m with ports := s.ports } = s := h

/-- Flooding writes only ports. -/
theorem flood_frame (s : State) (ps : List Nat) (m : CtrlMsg) : { flood s ps m with ports := s.ports } = s :=
  List.foldlRecOn (motive := fun t : State => { t with ports := s.ports } = s) _ _ rfl fun _ h p _ =>
    queueCtrl_frame (queueCtrl_frame (queueCtrl_frame (queueCtrl_frame h p) p) p) p

/-- After a flood from a state with the ports of `s`, the message waits at the ACTIVE ports of the list (R474). -/
theorem flooded_flood (same : t.ports = s.ports) (rising : risingFrom 0 s.ports = true) {ps : List Nat} (once : ps.Nodup)
    (m : CtrlMsg) : s.flooded ps m (flood t ps m) := by
  have port : ∀ q, t.portOf q = s.portOf q := fun q => congrArg (tget ({} : PortSt) · q) same
  intro q
  have waits := queueFours_portOf (m := m) q (ps.filter fun p => t.isActive p) t (once.filter _) (same ▸ rising)
  have active : t.isActive q = s.isActive q := congrArg (fun x : PortSt => x.state == 5) (port q)
  simp only [List.mem_filter, active, port] at waits
  exact waits

/-- What keeps the ports keeps the flood. -/
theorem flooded_of_ports {u : State} {ps : List Nat} (h : s.flooded ps m t) (same : u.ports = t.ports) : s.flooded ps m u :=
  fun q => (congrArg (tget ({} : PortSt) · q) same).trans (h q)

theorem gridPorts_nodup (s : State) : s.gridPorts.Nodup := List.nodup_range.filter _

end Sys2Proof.Proofs
end

section
/-!
Levels, halves, the grid's own commands and twin mode (R465, R474, R478, R480 to R484).
-/

namespace Sys2Proof.Proofs

open Sys2Proof.Machine Sys2Proof.Laws

variable {s t : State}

/-- A MEMBER unit of its KIND for this package's grid has its effect (R463, R474). -/
theorem memberUnit_good {p : Port} {u : CtrlUnit} {m1 m2 : W32} (good : goodUnit u 0xA 0xFFFF_FFFF m1 m2) {kind : Nat}
    (named : bitsOf u.w0 7 4 = kind) (active : s.isActive p = true) (member : s.grid.memberEn = true)
    (own : bitsOf u.w0 31 16 = s.grid.grid) (f : State) : memberUnit s p u kind m1 m2 f = .next f := by
  rw [memberUnit, ctrlUnit_good good, if_pos ⟨named, active, member, own⟩]

/-! ### Levels and halves (R474, R483, R484) -/

/-- `s` with a level stored. -/
def levelled (s : State) (a l : Nat) : State := { s with grid := { s.grid with levels := tset 0 s.grid.levels a l } }

/-- A LEVEL that is new is stored and flooded (R474, R484). -/
theorem exec_memberLevel {p : Port} {u : CtrlUnit} (good : goodUnit u 0xA 0xFFFF_FFFF 0x00FF_FFFF 0xFFFF_FFFF)
    (named : bitsOf u.w0 7 4 = 4) (active : s.isActive p = true) (member : s.grid.memberEn = true)
    (own : bitsOf u.w0 31 16 = s.grid.grid) (new : tget 0 s.grid.levels (bitsOf u.w1 15 0) ≠ bitsOf u.w1 23 16) :
    exec (.memberLevel p u) s =
      .next (flood (levelled s (bitsOf u.w1 15 0) (bitsOf u.w1 23 16)) s.gridPorts (notice u)) :=
  (memberUnit_good good named active member own _).trans (congrArg _ (if_neg new))

/-- `s` with a half noted out (R483). -/
def halved (s : State) (g : Nat) : State :=
  { s with grid := { s.grid with halfOuts := s.grid.halfOuts ++ [g], twinState := 2 } }

theorem exec_halfOut {p : Port} {u : CtrlUnit} (good : goodUnit u 0xA 0xFFFF_FFFF 0xFFFF_FFFF 0xFFFF_0000)
    (named : bitsOf u.w0 7 4 = 5) (active : s.isActive p = true) (member : s.grid.memberEn = true)
    (own : bitsOf u.w0 31 16 = s.grid.grid) (new : u.w1.toNat ∉ s.grid.halfOuts) :
    exec (.halfOut p u) s = .next (flood (halved s u.w1.toNat) s.gridPorts (notice u)) :=
  (memberUnit_good good named active member own _).trans (congrArg _ (if_neg (by simpa using new)))

/-! ### GRID_CMD (R465, R478) -/

theorem exec_gridResume {e : W32} (held : s.grid.state = 3) (epoch : e.toNat = s.grid.epoch) : exec (.gridResume e) s =
    .next { s with grid := { s.grid with
      state := 0, gseq := 0, aborts := [], halfOuts := [], seals := [], t0Floor := none } } :=
  congrArg Host.Outcome.next (if_pos ⟨held, epoch⟩)

/-- The DYING_GASP of a cause (R474). -/
def gaspUnit (s : State) (cause : Nat) : CtrlMsg :=
  { rank := rankGasp, w0 := BitVec.ofNat 32 (9 + cause * 2 ^ 4 + s.fabric.place.toNat * 2 ^ 16)
    w1 := BitVec.ofNat 32 (s.grid.grid * 2 ^ 16), w2 := BitVec.ofNat 32 s.stamp32 }

/-! ### Twin mode (R480 to R483) -/

/-- The packet that 32 bytes spell (R481). -/
def twinOf (data : Bytes) : TwinPkt :=
  { gseq := fieldAt data 0 4, epoch := fieldAt data 4 4, level := fieldAt data 8 1
    faulted := bitsAt data 8 4 8 8 == 1, digest := slice data 16 16 }

/-- `s` with a packet of the partner's waiting. -/
def partnered (s : State) (k : TwinPkt) : State := { s with grid := { s.grid with peerTwin := s.grid.peerTwin ++ [k] } }

theorem exec_twinPacket {data : Bytes} (on : s.twinOn = true) (whole : data.length = 32) :
    exec (.twinPacket data) s = .next (twinMatch (partnered s (twinOf data))) :=
  act_next ⟨on, whole⟩ _ _

/-- With no pair of one GSEQ nothing is compared (R482). -/
theorem twinMatch_of_unpaired (unpaired : ∀ o ∈ s.grid.ownTwin, ∀ x ∈ s.grid.peerTwin, o.2.gseq ≠ x.gseq) :
    twinMatch s = s := by
  have missing : s.grid.ownTwin.find? (fun o => s.grid.peerTwin.any fun p => p.gseq == o.2.gseq) = none := by
    simp only [List.find?_eq_none, List.any_eq_true, beq_iff_eq, not_exists, not_and]
    exact fun o own x peer same => unpaired o own x peer same.symm
  rw [twinMatch, missing]

/-- `s` with neither packet waiting. -/
def compared (s : State) : State := { s with grid := { s.grid with ownTwin := [], peerTwin := [] } }

theorem twinMatch_of_pair {o : Nat × TwinPkt} {k : TwinPkt} (own : s.grid.ownTwin = [o]) (peer : s.grid.peerTwin = [k])
    (same : o.2.gseq = k.gseq) : twinMatch s = twinCompare (compared s) o.2 k := by
  simp [twinMatch, own, peer, same, compared]

/-- The half that a comparison puts out (R482). -/
def PutsOut (s : State) (own peer : TwinPkt) : Prop :=
  own.digest ≠ peer.digest ∧ own.level = peer.level ∧
    (if own.faulted = peer.faulted then s.grid.twin = 2 else own.faulted = true)

/-- What a comparison leaves (R482, R483). -/
structure Judged (s : State) (own peer : TwinPkt) (t : State) : Prop where
  frame : { t.unlogged s with ports := s.ports, grid := s.grid } = s
  twins : t.grid.ownTwin = s.grid.ownTwin ∧ t.grid.peerTwin = s.grid.peerTwin
  out : PutsOut s own peer → t.grid.twinState = 2
  stays : ¬ PutsOut s own peer → t.grid.twinState = s.grid.twinState

/-- What an event leaves is judged as before it. -/
theorem Judged.of_logs {own peer : TwinPkt} (logs : Logs s t) (passes : ¬ PutsOut s own peer) : Judged s own peer t where
  frame := congrArg (fun w : State => { w with ports := s.ports, grid := s.grid }) logs
  twins := ⟨eq_of_logs (fun w => w.grid.ownTwin) (fun _ _ => rfl) logs, eq_of_logs (fun w => w.grid.peerTwin) (fun _ _ => rfl) logs⟩
  out := fun out => absurd out passes
  stays := fun _ => eq_of_logs (fun w => w.grid.twinState) (fun _ _ => rfl) logs

theorem floodHalfOut_frame (s : State) (g : Nat) : { floodHalfOut s g with ports := s.ports } = halved s g :=
  flood_frame (halved s g) _ _

theorem floodHalfOut_judged {own peer : TwinPkt} (logs : Logs s t) (out : PutsOut s own peer) (g : Nat) :
    Judged s own peer (floodHalfOut t g) := by
  have frame := floodHalfOut_frame t g
  have grid : (floodHalfOut t g).grid = (halved t g).grid := (congrArg State.grid frame :)
  have before : Judged s own own t := .of_logs logs fun out => out.1 rfl
  refine ⟨?_, ?_, fun _ => ?_, absurd out⟩
  · exact (congrArg (fun w : State => { w.unlogged s with ports := s.ports, grid := s.grid }) frame).trans before.frame
  · rw [grid]
    exact before.twins
  · rw [grid]
    rfl

theorem twinCompare_judged (s : State) (own peer : TwinPkt) : Judged s own peer (twinCompare s own peer) := by
  unfold twinCompare
  split
  next equal => exact .of_logs (Logs.refl s) fun out => out.1 equal
  next digests =>
    split
    next levels => exact .of_logs (raise_logs ..) fun out => levels out.2.1
    next levels =>
      have logs := raise_logs s 0x0705 0 [] none 0x1FF 0
      have twin : (raise s 0x0705 0).grid.twin = s.grid.twin := eq_of_logs (fun w => w.grid.twin) (fun _ _ => rfl) logs
      have puts : (if own.faulted = peer.faulted then s.grid.twin == 2 else own.faulted) = true ↔ PutsOut s own peer := by
        simp only [PutsOut, ne_eq, digests, not_false_eq_true, not_not.mp levels, true_and]
        split <;> simp
      dsimp only
      rw [twin]
      by_cases out : PutsOut s own peer
      · rw [if_pos (puts.mpr out)]
        exact floodHalfOut_judged logs out _
      · rw [if_neg (mt puts.mp out)]
        exact .of_logs logs out

theorem exec_twinTimeout (on : s.twinOn = true) (waits : s.grid.twinState = 0) (going : s.stop.state ≠ 2)
    (missing : (∃ o ∈ s.grid.ownTwin, o.1 + max 1 s.grid.twinTimeout * 10000 ≤ s.ns) ∨ s.isActive s.grid.twinPort = false) :
    exec .twinTimeout s = .next (raise { s with grid := { s.grid with twinState := 1 } } 0x0706 0) :=
  act_next ⟨on, waits, going, missing.imp_left fun late => by simpa using late⟩ _ _

/-- Settles O38: notices are stored and flooded; a pair of twin packets is judged by `twinCompare`. -/
theorem levelsAndTwins : Obligations.LevelsAndTwins := by
  refine ⟨fun s rising => ⟨fun p u active member own => ⟨fun good named levels new => ?_, fun good named new => ?_⟩,
    fun e held epoch => ⟨_, exec_gridResume held epoch, rfl⟩, ?_⟩, fun s rising on => ⟨fun data whole => ?_,
    fun waits going missing => ⟨_, exec_twinTimeout on waits going missing, ?_⟩⟩⟩
  · have frame := flood_frame (levelled s (bitsOf u.w1 15 0) (bitsOf u.w1 23 16)) s.gridPorts (notice u)
    have grid := (congrArg State.grid frame :)
    refine ⟨_, exec_memberLevel good named active member own new, ?_, ?_, ?_, fun a => ?_⟩
    · exact congrArg (fun w : State => { w with grid := s.grid }) frame
    · rw [grid]
      rfl
    · exact flooded_flood (t := levelled s _ _) rfl rising (gridPorts_nodup s) _
    · rw [grid]
      split
      next own => rw [own]; exact tget_tset 0 _ _ _ _ levels
      next other => exact tget_tset_ne 0 _ _ _ _ other
  · have frame := flood_frame (halved s u.w1.toNat) s.gridPorts (notice u)
    refine ⟨_, exec_halfOut good named active member own new, ?_, (congrArg State.grid frame :), ?_⟩
    · exact congrArg (fun w : State => { w with grid := s.grid }) frame
    · exact flooded_flood (t := halved s _) rfl rising (gridPorts_nodup s) _
  · have frame := flood_frame s (List.range 20) (gaspUnit s 4)
    refine ⟨withdrawEff s, rfl, ?_, ?_⟩
    · exact congrArg (fun w : State => { w with grid := { w.grid with memberEn := false } }) frame
    · exact flooded_of_ports (flooded_flood rfl rising List.nodup_range _) rfl
  · refine ⟨_, exec_twinPacket on whole, fun unpaired => twinMatch_of_unpaired unpaired, fun o own waits same => ?_⟩
    have peer : (partnered s (twinOf data)).grid.peerTwin = [twinOf data] := by simp [partnered, waits]
    obtain ⟨frame, ⟨own', peer'⟩, out, stays⟩ := twinCompare_judged (compared (partnered s (twinOf data))) o.2 (twinOf data)
    rw [twinMatch_of_pair (s := partnered s (twinOf data)) own peer same]
    refine ⟨own', peer', ?_, ?_⟩
    · exact congrArg (fun w : State => { w with grid := s.grid }) frame
    · by_cases puts : PutsOut (compared (partnered s (twinOf data))) o.2 (twinOf data)
      · exact (out puts).trans (if_pos puts).symm
      · exact (stays puts).trans (if_neg puts).symm
  · exact raise_logs ..

end Sys2Proof.Proofs
end

section
/-!
Items, SEAL and the epoch of the membership (R463, R465, R472 to R475).
-/

namespace Sys2Proof.Proofs

open Sys2Proof.Machine Sys2Proof.Laws

variable {s t u : State}

/-! ### Items taken in (R473, R475) -/

/-- An item of a key that is not held yet joins the others. -/
theorem mem_insertItem {it i : Item} : ∀ {l : List Item}, (∀ x ∈ l, x.key ≠ it.key) → (i ∈ insertItem it l ↔ i = it ∨ i ∈ l)
  | [], _ => by simp [insertItem]
  | x :: xs, new => by
    have head : x.key ≠ it.key := new x List.mem_cons_self
    rw [insertItem]
    split_ifs with below
    · rw [List.mem_cons]
    · rw [List.mem_cons, List.mem_cons, mem_insertItem fun y later => new y (List.mem_cons_of_mem _ later)]
      tauto

/-- What the taking in of items leaves of a package's membership. -/
structure Gathers (s t : State) : Prop where
  frame : { t with ports := s.ports, grid := s.grid } = s
  items : ∀ i ∈ s.grid.items, i ∈ t.grid.items
  state : s.grid.state = 1 → t.grid.state = 1
  epoch : t.grid.epoch = s.grid.epoch
  vacancy : t.grid.vacancy = s.grid.vacancy
  inject : t.grid.inject = s.grid.inject

theorem Gathers.refl (s : State) : Gathers s s := ⟨rfl, fun _ => id, id, rfl, rfl, rfl⟩

theorem Gathers.trans (h : Gathers s t) (k : Gathers t u) : Gathers s u where
  frame := (congrArg (fun w : State => { w with ports := s.ports, grid := s.grid }) k.frame).trans h.frame
  items i held := k.items i (h.items i held)
  state gather := k.state (h.state gather)
  epoch := k.epoch.trans h.epoch
  vacancy := k.vacancy.trans h.vacancy
  inject := k.inject.trans h.inject

/-- The membership with a new item taken in, which opens GATHER (R475). -/
def gathered (g : Grid) (it : Item) : Grid :=
  { g with items := insertItem it g.items, state := if g.state = 0 ∨ g.state = 3 then 1 else g.state }

theorem takeItem_new {it : Item} (new : ∀ i ∈ s.grid.items, i.key ≠ it.key) :
    takeItem s it = floodItem { s with grid := gathered s.grid it } it := by
  have missing : s.grid.items.find? (fun i => i.key == it.key) = none := by simpa [List.find?_eq_none] using new
  unfold takeItem
  dsimp only
  rw [missing]
  rfl

theorem takeItem_new_frame {it : Item} (new : ∀ i ∈ s.grid.items, i.key ≠ it.key) :
    { takeItem s it with ports := s.ports } = { s with grid := gathered s.grid it } := by
  rw [takeItem_new new]
  exact flood_frame { s with grid := gathered s.grid it } _ _

theorem takeItem_new_grid {it : Item} (new : ∀ i ∈ s.grid.items, i.key ≠ it.key) :
    (takeItem s it).grid = gathered s.grid it := (congrArg State.grid (takeItem_new_frame new) :)

theorem takeItem_new_gathers {it : Item} (new : ∀ i ∈ s.grid.items, i.key ≠ it.key) : Gathers s (takeItem s it) := by
  have grid := takeItem_new_grid new
  refine ⟨?_, fun i held => ?_, fun gather => ?_, ?_, ?_, ?_⟩
  · exact congrArg (fun w : State => { w with grid := s.grid }) (takeItem_new_frame new)
  · rw [grid]
    exact (mem_insertItem new).mpr (.inr held)
  · rw [grid, gathered, gather]
    rfl
  all_goals
    rw [grid]
    rfl

/-- Items of new keys, one each, are taken in one after another. -/
theorem takeItems_gathers (item : State → Nat → Item) (named : ∀ s a, (item s a).key = a) :
    ∀ (keys : List Nat) (s : State), keys.Nodup → (∀ a ∈ keys, ∀ i ∈ s.grid.items, i.key ≠ a) →
      Gathers s (keys.foldl (fun s a => takeItem s (item s a)) s)
  | [], s, _, _ => .refl s
  | a :: keys, s, once, new => by
    obtain ⟨fresh, once'⟩ := List.nodup_cons.mp once
    have own : ∀ i ∈ s.grid.items, i.key ≠ (item s a).key := by
      rw [named]
      exact new a List.mem_cons_self
    refine (takeItem_new_gathers own).trans (takeItems_gathers item named keys _ once' fun b later i held => ?_)
    rw [takeItem_new_grid own] at held
    rcases (mem_insertItem own).mp held with rfl | before
    · rw [named]
      exact fun same => fresh (same ▸ later)
    · exact new b (List.mem_cons_of_mem _ later) i before

/-- The neighbours found lost are of keys not held (R473). -/
theorem takeLost_gathers (s : State) : Gathers s (takeLost s) := by
  refine takeItems_gathers (fun t a =>
    { key := a, rehearsal := (t.grid.items.filter (t.touches a)).all (·.rehearsal), stamp := t.stamp32 }) (fun _ _ => rfl)
    _ s ?_ fun a lost i held same => ?_
  · exact (List.nodup_dedup _).filter _
  · have absent := (Bool.and_eq_true _ _ ▸ (List.mem_filter.mp lost).2).2
    rw [Bool.not_eq_true', List.any_eq_false] at absent
    exact absent i held (beq_iff_eq.mpr same)

/-- An item not held yet is taken in while the package takes part (R473). -/
theorem gatherItem_takes {it : Item} (member : s.grid.memberEn = true) (new : ∀ i ∈ s.grid.items, i.key ≠ it.key) :
    Gathers s (gatherItem s it) ∧ it ∈ (gatherItem s it).grid.items ∧
      (s.grid.state = 0 ∨ s.grid.state = 3 → (gatherItem s it).grid.state = 1) := by
  have grid := takeItem_new_grid new
  have lost := takeLost_gathers (takeItem s it)
  rw [gatherItem, if_pos member]
  refine ⟨(takeItem_new_gathers new).trans lost, lost.items it ?_, fun closed => lost.state ?_⟩
  · rw [grid]
    exact (mem_insertItem new).mpr (.inl rfl)
  · rw [grid]
    exact if_pos closed

/-! ### The commands -/

theorem exec_dyingGasp {p : Port} {u : CtrlUnit} (good : goodUnit u 9 0xFFFF_00FF 0xFFFF_0000 0xFFFF_FFFF)
    (active : s.isActive p = true) (own : bitsOf u.w1 31 16 = s.grid.grid) : exec (.dyingGasp p u) s =
      .next (gatherItem s { key := bitsOf u.w0 31 16, rehearsal := decide (bitsOf u.w0 7 4 = 5), stamp := u.w2.toNat }) :=
  (ctrlUnit_good good s p _).trans (congrArg _ (if_pos ⟨active, own⟩))

section

variable {p : Port} {u : CtrlUnit} (active : s.isActive p = true) (member : s.grid.memberEn = true)
  (own : bitsOf u.w0 31 16 = s.grid.grid)
include active member own

theorem exec_memberItem_taken (good : goodUnit u 0xA 0xFFFF_FFFF 0x007F_FFFF 0xFFFF_FFFF) (named : bitsOf u.w0 7 4 = 1)
    (next : bitsOf u.w0 15 8 = (s.grid.epoch + 1) % 256) : exec (.memberItem p u) s =
      .next (gatherItem s { key := bitsOf u.w1 21 0, rehearsal := u.w1.getLsbD 22, stamp := u.w2.toNat }) :=
  (memberUnit_good good named active member own _).trans (congrArg _ (if_pos next))

theorem exec_memberItem_dropped (good : goodUnit u 0xA 0xFFFF_FFFF 0x007F_FFFF 0xFFFF_FFFF) (named : bitsOf u.w0 7 4 = 1)
    (other : bitsOf u.w0 15 8 ≠ (s.grid.epoch + 1) % 256) : exec (.memberItem p u) s =
      .next { s with grid := { s.grid with itemsDropped := s.grid.itemsDropped + 1 } } :=
  (memberUnit_good good named active member own _).trans (congrArg _ (if_neg other))

end

/-! ### SEAL (R475) -/

/-- `s` with a SEAL noted. -/
def sealed (s : State) (x : Nat × W32) : State := { s with grid := { s.grid with seals := s.grid.seals ++ [x] } }

/-- A package that may split (R475). -/
def splitIf (c : Prop) [Decidable c] (s : State) : State := if c then split s else s

/-- A split writes the state of the membership, and what events leave behind. -/
theorem splitIf_logs (c : Prop) [Decidable c] (s : State) :
    Logs { s with grid := { s.grid with state := if c then 4 else s.grid.state } } (splitIf c s) := by
  unfold splitIf
  split
  · exact raise_logs ..
  · exact Logs.refl s

theorem splitIf_state (c : Prop) [Decidable c] (s : State) :
    (splitIf c s).grid.state = if c then 4 else s.grid.state :=
  eq_of_logs (fun w : State => w.grid.state) (fun _ _ => rfl) (splitIf_logs c s)

theorem splitIf_seals (c : Prop) [Decidable c] (s : State) :
    ((splitIf c s).grid.set, (splitIf c s).grid.ownSeal, (splitIf c s).grid.seals, (splitIf c s).grid.items) =
      (s.grid.set, s.grid.ownSeal, s.grid.seals, s.grid.items) :=
  (eq_of_logs (fun w : State => (w.grid.set, w.grid.ownSeal, w.grid.seals, w.grid.items)) (fun _ _ => rfl)
    (splitIf_logs c s)).trans rfl

theorem splitIf_ports (c : Prop) [Decidable c] (s : State) : (splitIf c s).ports = s.ports :=
  (ports_of_logs (splitIf_logs c s)).trans rfl

/-- A split of a state that differs from `s` in its ports and its membership alone. -/
theorem splitIf_frame (c : Prop) [Decidable c] (h : { t with ports := s.ports, grid := s.grid } = s) :
    { (splitIf c t).unlogged s with ports := s.ports, grid := s.grid } = s := by
  have before : { t.unlogged s with ports := s.ports, grid := s.grid } = s :=
    congrArg (fun w : State => { w.unlogged s with grid := s.grid }) h
  exact (congrArg (fun w : State => { w.unlogged s with ports := s.ports, grid := s.grid }) (splitIf_logs c t)).trans before

theorem exec_seal {p : Port} {u : CtrlUnit} (active : s.isActive p = true) (member : s.grid.memberEn = true)
    (own : bitsOf u.w0 31 16 = s.grid.grid) (good : goodUnit u 0xA 0xFFFF_FFFF 0xFFFF_FFFF 0x0000_FFFF)
    (named : bitsOf u.w0 7 4 = 2) (next : bitsOf u.w0 15 8 = (s.grid.epoch + 1) % 256)
    (new : (bitsOf u.w2 15 0, u.w1) ∉ s.grid.seals) :
    (let t := flood (sealed s (bitsOf u.w2 15 0, u.w1)) s.gridPorts (notice u)
     exec (.seal p u) s =
       .next (splitIf (t.grid.state = 2 ∧ t.grid.ownSeal ≠ some (bitsOf u.w2 15 0, u.w1)) t)) :=
  (memberUnit_good good named active member own _).trans (congrArg _ (if_neg (by simpa [next] using new)))

/-! ### The set and the epoch (R475, R477) -/

/-- COUNT and DIGEST of a set of keys (R475). -/
def sealOf (keys : List Nat) : Nat × W32 := (keys.length, crc32c (keys.flatMap (leBytes 4)))

/-- `s` with its set fixed. -/
def fixed (s : State) : State :=
  let keys := s.grid.chosen.map (·.key)
  { s with grid := { s.grid with
      state := 2, set := keys, ownSeal := some (sealOf keys), seals := s.grid.seals ++ [sealOf keys] } }

/-- The SEAL of the own set (R474). -/
def sealUnit (s : State) : CtrlMsg :=
  let own := sealOf (s.grid.chosen.map (·.key))
  { rank := rankMember, w0 := memberNext s 2, w1 := own.2, w2 := BitVec.ofNat 32 own.1 }

theorem exec_gatherEnd (member : s.grid.memberEn = true) (gather : s.grid.state = 1) (due : s.pastT0 800000 = true) :
    exec .gatherEnd s = .next (splitIf ((s.grid.seals.any fun x => x != sealOf (s.grid.chosen.map (·.key))) = true)
      (flood (fixed s) s.gridPorts (sealUnit s))) :=
  act_next ⟨member, gather, due⟩ _ _

/-! ### A grid step ended by a global stop (R468, R477) -/

theorem requestStop_frame (s : State) (cause : Nat) (ending : Bool) (floor : Nat) :
    { requestStop s cause ending floor with stop := s.stop } = s := by
  unfold requestStop
  dsimp only
  split <;> rfl

theorem requestStop_ending (s : State) (cause floor : Nat) : (requestStop s cause true floor).stop.ending = true := by
  unfold requestStop
  dsimp only
  split
  · rfl
  · exact Bool.or_true _

/-- The running step with a detail of ABORTED (R470). -/
def aborted (r : Run) (detail : Nat) : Run := { r with abort := r.abort.or (some detail) }

theorem endGrid_frame (s : State) (detail : Nat) : { endGrid s detail with stop := s.stop, run := s.run } = s := by
  unfold endGrid
  dsimp only
  split
  · exact congrArg (fun w : State => { w with run := s.run }) (requestStop_frame s _ _ _)
  · exact congrArg (fun w : State => { w with run := s.run }) (requestStop_frame (s.onRun _) _ _ _)

theorem endGrid_ending (s : State) (detail : Nat) : (endGrid s detail).stop.ending = true := requestStop_ending _ _ _

theorem endGrid_run {r : Run} {detail : Nat} (running : s.run = some r) (first : s.stop.ending = false) :
    (endGrid s detail).run = some (aborted r detail) := by
  have run := (congrArg State.run (requestStop_frame (s.onRun fun r => aborted r detail) 1 true
    ((s.onRun fun r => aborted r detail).floor1 + 15)) :)
  unfold endGrid
  rw [first]
  exact run.trans (congrArg (Option.map fun r => aborted r detail) running)

/-! ### The next epoch (R475, R477) -/

/-- The items of the set. -/
def agreed (g : Grid) : List Item := g.items.filter fun i => g.set.contains i.key

/-- The items held over. -/
def heldOver (g : Grid) : List Item := g.items.filter fun i => !g.set.contains i.key

/-- The detail with which the epoch's change ends a grid step (R471, R477). -/
def commitDetail (g : Grid) : Nat := rehDetail 0x1401 ((agreed g).all (·.rehearsal))

/-- `s` with its running grid step ended. -/
def endedRun (s : State) : State := if s.gridRunning.isSome then endGrid s (commitDetail s.grid) else s

theorem endedRun_frame (s : State) : { endedRun s with stop := s.stop, run := s.run } = s := by
  unfold endedRun
  split
  · exact endGrid_frame s _
  · rfl

/-- The membership in the next epoch. -/
def nextEpoch (g : Grid) : Grid :=
  { g with epoch := (g.epoch + 1) % 2 ^ 32, vacancy := (agreed g).foldl vacate g.vacancy, items := heldOver g, set := []
           ownSeal := none, seals := [], t0Floor := g.t0.map fun t => (t + 1600000) % 2 ^ 32
           state := if (heldOver g).isEmpty then 3 else 1 }

theorem memberCommitEff_logs (idle : s.gridWaiting = []) :
    Logs { endedRun s with grid := nextEpoch s.grid } (memberCommitEff s) := by
  have grid : (endedRun s).grid = s.grid := (congrArg State.grid (endedRun_frame s) :)
  have floor : (match s.grid.t0 with | some t => some ((t + 1600000) % 2 ^ 32) | none => none) =
      s.grid.t0.map fun t => (t + 1600000) % 2 ^ 32 := by
    cases s.grid.t0 <;> rfl
  have committed : { endedRun s with grid := nextEpoch s.grid } = { endedRun s with grid := { (endedRun s).grid with
      epoch := (s.grid.epoch + 1) % 2 ^ 32, vacancy := (agreed s.grid).foldl vacate s.grid.vacancy
      items := heldOver s.grid, set := [], ownSeal := none, seals := []
      t0Floor := match s.grid.t0 with | some t => some ((t + 1600000) % 2 ^ 32) | none => none
      state := if (heldOver s.grid).isEmpty then 3 else 1 } } := by
    rw [grid, floor]
    rfl
  rw [committed]
  unfold memberCommitEff
  rw [idle]
  exact raise_logs ..

theorem exec_memberCommit (member : s.grid.memberEn = true) (gather : s.grid.state = 2) (due : s.pastT0 1600000 = true) :
    exec .memberCommit s = .next (memberCommitEff s) :=
  act_next ⟨member, gather, due⟩ _ _

theorem agreed_eq (g : Grid) : agreed g = g.items.filter fun i => decide (i.key ∈ g.set) := by
  simp [agreed, List.contains_eq_mem]

theorem mem_heldOver (g : Grid) (i : Item) : i ∈ heldOver g ↔ i ∈ g.items ∧ i.key ∉ g.set := by
  simp [heldOver]

/-- The package holds where nothing is held over (R475). -/
theorem nextEpoch_state (g : Grid) : (nextEpoch g).state = 3 ↔ ∀ i ∈ g.items, i.key ∈ g.set := by
  have empty : (heldOver g).isEmpty = true ↔ ∀ i ∈ g.items, i.key ∈ g.set := by
    rw [List.isEmpty_iff, List.eq_nil_iff_forall_not_mem]
    simp [mem_heldOver]
  rw [← empty]
  unfold nextEpoch
  dsimp only
  split
  next none => simp [none]
  next some => simp [some]

/-- Every rehearsed set's detail (R471). -/
theorem commitDetail_eq (g : Grid) :
    commitDetail g = if (agreed g).all (·.rehearsal) then 0x1411 else 0x1401 := rfl

/-- The epoch advances (R475, R477). -/
theorem memberCommits (idle : s.gridWaiting = []) :
    (let t := memberCommitEff s
     t.grid.epoch = (s.grid.epoch + 1) % 2 ^ 32 ∧ t.grid.vacancy = (agreed s.grid).foldl vacate s.grid.vacancy ∧
       (∀ i, i ∈ t.grid.items ↔ i ∈ s.grid.items ∧ i.key ∉ s.grid.set) ∧ t.grid.set = [] ∧ t.grid.ownSeal = none ∧
       t.grid.seals = [] ∧ (t.grid.state = 3 ↔ ∀ i ∈ s.grid.items, i.key ∈ s.grid.set) ∧ t.intake = s.intake ∧
       t.steps = s.steps ∧ (s.gridRunning = none → { t.unlogged s with grid := s.grid } = s) ∧
       (∀ r, s.gridRunning.isSome = true → s.run = some r → s.stop.ending = false →
         t.stop.ending = true ∧ t.run = some (aborted r (commitDetail s.grid)))) := by
  have logs := memberCommitEff_logs idle
  have ended := endedRun_frame s
  have field : ∀ {α : Type} (f : Grid → α), (∀ g : Grid, ∀ b, f { g with faulted := b } = f g) →
      f (memberCommitEff s).grid = f (nextEpoch s.grid) := fun f kept =>
    eq_of_logs (fun w : State => f w.grid) (fun t w => kept t.grid w.grid.faulted) logs
  refine ⟨field (·.epoch) fun _ _ => rfl, field (·.vacancy) fun _ _ => rfl, fun i => ?_, field (·.set) fun _ _ => rfl,
    field (·.ownSeal) fun _ _ => rfl, field (·.seals) fun _ _ => rfl, ?_, ?_, ?_, fun quiet => ?_,
    fun r runs running first => ⟨?_, ?_⟩⟩
  · rw [field (·.items) fun _ _ => rfl]
    exact mem_heldOver s.grid i
  · rw [field (·.state) fun _ _ => rfl]
    exact nextEpoch_state s.grid
  · exact (eq_of_logs State.intake (fun _ _ => rfl) logs).trans (congrArg State.intake ended :)
  · exact (eq_of_logs State.steps (fun _ _ => rfl) logs).trans (congrArg State.steps ended :)
  · have still : endedRun s = s := if_neg (by simp [quiet])
    rw [still] at logs
    exact congrArg (fun w : State => { w with grid := s.grid }) logs
  · refine (eq_of_logs (fun w : State => w.stop.ending) (fun _ _ => rfl) logs).trans ?_
    exact (congrArg (fun w : State => w.stop.ending) (if_pos runs)).trans (endGrid_ending s _)
  · refine (eq_of_logs State.run (fun _ _ => rfl) logs).trans ?_
    exact (congrArg State.run (if_pos runs)).trans (endGrid_run running first)

/-- The set fixed and its SEAL flooded (R475). -/
theorem gatherEnds (rising : risingFrom 0 s.ports = true) :
    (let keys := s.grid.chosen.map (·.key)
     let own := sealOf keys
     let t := splitIf ((s.grid.seals.any fun x => x != own) = true) (flood (fixed s) s.gridPorts (sealUnit s))
     { t.unlogged s with ports := s.ports, grid := s.grid } = s ∧ t.grid.set = keys ∧ t.grid.ownSeal = some own ∧
       t.grid.seals = s.grid.seals ++ [own] ∧ t.grid.items = s.grid.items ∧ s.flooded s.gridPorts (sealUnit s) t ∧
       ((∀ x ∈ s.grid.seals, x = own) → t.grid.state = 2) ∧ ((∃ x ∈ s.grid.seals, x ≠ own) → t.grid.state = 4)) := by
  intro keys own t
  have frame := flood_frame (fixed s) s.gridPorts (sealUnit s)
  have grid : (flood (fixed s) s.gridPorts (sealUnit s)).grid = (fixed s).grid := (congrArg State.grid frame :)
  have state : t.grid.state = if (s.grid.seals.any fun x => x != own) = true then 4 else 2 :=
    (splitIf_state _ _).trans (congrArg (fun g : Grid => if (s.grid.seals.any fun x => x != own) = true then 4 else g.state) grid)
  have seals := (splitIf_seals ((s.grid.seals.any fun x => x != own) = true)
    (flood (fixed s) s.gridPorts (sealUnit s))).trans
    (congrArg (fun g : Grid => (g.set, g.ownSeal, g.seals, g.items)) grid)
  simp only [Prod.mk.injEq] at seals
  obtain ⟨set, ownSeal, seals, items⟩ := seals
  refine ⟨splitIf_frame _ ?_, set, ownSeal, seals, items, ?_, fun same => ?_, fun differs => ?_⟩
  · exact congrArg (fun w : State => { w with grid := s.grid }) frame
  · exact flooded_of_ports (flooded_flood (t := fixed s) rfl rising (gridPorts_nodup s) _) (splitIf_ports _ _)
  · rw [state, if_neg]
    simpa using same
  · rw [state, if_pos]
    simpa using differs

/-- A SEAL that is new (R475). -/
theorem seals_new (rising : risingFrom 0 s.ports = true) (x : Nat × W32) (m : CtrlMsg) :
    (let u := flood (sealed s x) s.gridPorts m
     let t := splitIf (u.grid.state = 2 ∧ u.grid.ownSeal ≠ some x) u
     { t.unlogged s with ports := s.ports, grid := s.grid } = s ∧ s.flooded s.gridPorts m t ∧
       t.grid.seals = s.grid.seals ++ [x] ∧
       t.grid.state = if s.grid.state = 2 ∧ s.grid.ownSeal ≠ some x then 4 else s.grid.state) := by
  intro u t
  have frame := flood_frame (sealed s x) s.gridPorts m
  have grid : u.grid = (sealed s x).grid := (congrArg State.grid frame :)
  have seals := (splitIf_seals (u.grid.state = 2 ∧ u.grid.ownSeal ≠ some x) u)
  simp only [Prod.mk.injEq] at seals
  obtain ⟨-, -, seals, -⟩ := seals
  refine ⟨splitIf_frame _ ?_, ?_, seals.trans (congrArg Grid.seals grid), ?_⟩
  · exact congrArg (fun w : State => { w with grid := s.grid }) frame
  · exact flooded_of_ports (flooded_flood (t := sealed s x) rfl rising (gridPorts_nodup s) _) (splitIf_ports _ _)
  · refine (splitIf_state _ _).trans ?_
    rw [grid]
    rfl

/-- Settles O37: items join through `gatherItem`; a SEAL, the set and the epoch have an effect of their own each. -/
theorem membershipAgrees : Obligations.MembershipAgrees := by
  intro s rising member
  refine ⟨fun p u active => ⟨fun good own new => ?_, fun good named own => ⟨fun next new => ?_, fun other =>
    ⟨_, exec_memberItem_dropped active member own good named other, rfl⟩⟩, fun good named own next new =>
    ⟨_, exec_seal active member own good named next new, seals_new rising _ _⟩⟩, fun gather due =>
    ⟨_, exec_gatherEnd member gather due, gatherEnds rising⟩, fun gather due idle => ?_⟩
  · obtain ⟨gathers, held, opens⟩ := gatherItem_takes (it :=
      { key := bitsOf u.w0 31 16, rehearsal := decide (bitsOf u.w0 7 4 = 5), stamp := u.w2.toNat }) member new
    exact ⟨_, exec_dyingGasp good active own, gathers.frame, held, gathers.items, opens, gathers.epoch, gathers.vacancy⟩
  · obtain ⟨gathers, held, opens⟩ := gatherItem_takes (it :=
      { key := bitsOf u.w1 21 0, rehearsal := u.w1.getLsbD 22, stamp := u.w2.toNat }) member new
    exact ⟨_, exec_memberItem_taken active member own good named next, gathers.frame, held, gathers.items, opens,
      gathers.epoch, gathers.vacancy⟩
  · have commits := memberCommits idle
    rw [commitDetail_eq, agreed_eq] at commits
    exact ⟨_, exec_memberCommit member gather due, commits⟩

end Sys2Proof.Proofs
end

section
/-!
Fault rehearsals (R486, R487).
-/

namespace Sys2Proof.Proofs

open Sys2Proof.Machine Sys2Proof.Laws

variable {s t : State}

/-! ### FAULT_INJECT (R486) -/

/-- `s` with an injection taken. -/
def injected (s : State) (i : Nat × Nat × Nat × Nat) : State :=
  { s with grid := { s.grid with injections := s.injectable - 1, lastInject := s.ns, inject := s.grid.inject ++ [i] } }

theorem exec_faultInject {acc : Nat} {a : Acc} (served : s.serves acc 0x28 a) (enabled : s.grid.injectEn = true)
    (low : 1 ≤ a.bits 8 4 3 0) (high : a.bits 8 4 3 0 ≤ 4) (named : a.fld 0xC 4 ≠ 0)
    (ok : injectOk s (a.bits 8 4 3 0) (a.bits 8 4 8 4) (a.fld 0x10 4) = true) (left : s.injectable ≠ 0) :
    exec (.faultInject acc) s = .next (complete
      (injected s (a.bits 8 4 3 0, a.bits 8 4 8 4, a.fld 0xC 4, a.fld 0x10 4)) acc 0 0 { r0 := s.chron.count }) := by
  have kind : ¬ (a.bits 8 4 3 0 = 0 ∨ 4 < a.bits 8 4 3 0) := by omega
  have range : ¬ (a.fld 0xC 4 = 0 ∨ ¬ injectOk s (a.bits 8 4 3 0) (a.bits 8 4 8 4) (a.fld 0x10 4) = true) :=
    not_or.mpr ⟨named, not_not_intro ok⟩
  exact (serve_served served _).trans (congrArg _ ((if_neg (not_not_intro enabled)).trans ((if_neg kind).trans
    ((if_neg range).trans (if_neg left)))))

/-- An injection taken writes nothing of the intake and the rings. -/
theorem completes_injected {i : Nat × Nat × Nat × Nat} {acc status detail : Nat} {a : Acc} {r : Results}
    (h : Completes (injected s i) t acc a status detail r) : Completes s t acc a status detail r := h

/-- FAULT_INJECT takes the injection and completes (R486). -/
theorem injected_completes {i : Nat × Nat × Nat × Nat} {acc : Nat} {a : Acc} (answerable : Answerable s acc a) (r : Results) :
    (let t := complete (injected s i) acc 0 0 r
     Completes s t acc a 0 0 r ∧ { (t.uncompleted s).unlogged s with grid := s.grid } = s ∧ t.grid = (injected s i).grid) := by
  have answerable' : Answerable (injected s i) acc a := answerable
  obtain ⟨fns, os, written, completes⟩ := answerable'.completed 0 0 r
  dsimp only
  rw [written]
  refine ⟨completes_injected completes, ?_, rfl⟩
  dsimp only [injected, State.uncompleted, State.unlogged]

/-! ### LINK_DROP (R487) -/

/-- The state of a drop once its port is down and the drop's end is noted. -/
def dropped (s : State) (p reh us : Nat) : State :=
  let u := portDown (takeInjection s 1) p 0
  let v := u.setPort p { u.portOf p with dropUntil := some (u.ns + us * 1000) }
  { v with grid := { v.grid with rehearsing := tput (2 ^ 25 + s.linkKey p) reh (tput p reh v.grid.rehearsing) } }

theorem dropped_port (rising : risingFrom 0 s.ports = true) (p reh us : Nat) :
    (let t := dropped s p reh us
     risingFrom 0 t.ports = true ∧ (t.portOf p).state = 0 ∧ (t.portOf p).dropUntil = some (s.ns + us * 1000) ∧
       t.grid.inject = (takeInjection s 1).grid.inject) := by
  obtain ⟨x, down, state, -⟩ := portDown_stands (s := takeInjection s 1) rising p 0
  have stateDown : ((portDown (takeInjection s 1) p 0).portOf p).state = 0 := by
    refine (down.ports p).1.trans ?_
    rw [portOf_setPort (s := takeInjection s 1) rising]
    exact state
  have port : (dropped s p reh us).portOf p =
      { (portDown (takeInjection s 1) p 0).portOf p with
        dropUntil := some ((portDown (takeInjection s 1) p 0).ns + us * 1000) } := portOf_setPort down.rising p _
  have ns : (portDown (takeInjection s 1) p 0).ns = s.ns := down.ns
  refine ⟨risingFrom_tset _ _ _ down.rising, ?_, ?_, down.inject⟩
  · rw [port]
    exact stateDown
  · rw [port, ns]

/-- The item of a dropped link (R472, R487). -/
def dropItem (s : State) (p : Nat) : Item := { key := s.linkKey p, rehearsal := true, stamp := s.stamp32 }

theorem exec_linkDrop {p reh us : Nat} (due : s.injection 1 = some (p, reh, us)) : exec .linkDrop s =
    .next (if s.gridPorts.contains p then gatherItem (dropped s p reh us) (dropItem s p) else dropped s p reh us) := by
  show execLinkDrop s = _
  rw [execLinkDrop, due]
  rfl

theorem exec_linkDropEnd {p : Port} {c : Nat} (until_ : (s.portOf p).dropUntil = some c) (over_ : c ≤ s.ns) :
    exec (.linkDropEnd p) s = .next (s.setPort p { s.portOf p with
      dropUntil := none, state := if (s.portOf p).enable then 1 else 0, progress := s.ns }) := by
  show execLinkDropEnd p s = _
  rw [execLinkDropEnd, until_]
  exact act_next over_ _ _

/-! ### POISON, VACANCY and AUDIT (R487) -/

theorem exec_poison {p reh n : Nat} (due : s.injection 2 = some (p, reh, n)) : exec .poison s =
    .next { takeInjection s 2 with grid := { (takeInjection s 2).grid with
      poison := tput p ((tget (0, 0) s.grid.poison p).1 + n, reh) s.grid.poison } } := by
  show execPoison s = _
  rw [execPoison, due]
  rfl

/-- `s` with the rehearsal of a vacancy noted. -/
def vacating (s : State) (reh key : Nat) : State :=
  { takeInjection s 3 with grid := { (takeInjection s 3).grid with
      rehearsing := tput (2 ^ 25 + key) reh s.grid.rehearsing } }

theorem exec_vacancy {p reh key : Nat} (due : s.injection 3 = some (p, reh, key)) : exec .vacancy s =
    .next (gatherItem (vacating s reh key) { key := key, rehearsal := true, stamp := s.chron.count % 2 ^ 32 }) := by
  show execVacancy s = _
  rw [execVacancy, due]
  rfl

/-- A pane asked to resolve all and to test itself (R487). -/
def auditing (a : AwDieSt) (k : Nat) : AwDieSt := requestTest (a.resolving k) k 4

theorem mem_resolveAll_auditing (a : AwDieSt) (k : Nat) : k ∈ (auditing a k).resolveAll := by
  have tested : (auditing a k).resolveAll = (a.resolving k).resolveAll := by
    unfold auditing requestTest
    split <;> rfl
  rw [tested, AwDieSt.resolving]
  dsimp only
  split
  next listed => exact List.contains_iff_mem.mp listed
  next => exact List.mem_append_right _ List.mem_cons_self

/-- What an audit leaves of the state in which its fault was raised. -/
def audited (s t : State) (reh x : Nat) : State :=
  let d := fieldNat x 18 17
  let k := (s.awOf d).paneOf (fieldNat x 16 0)
  let u := t.setAw d (auditing (s.awOf d) k)
  { u with grid := { u.grid with rehearsing := tput (rehPane d k) reh u.grid.rehearsing } }

theorem exec_audit {p reh x : Nat} (due : s.injection 4 = some (p, reh, x)) :
    ∃ t, Logs (takeInjection s 4) t ∧ exec .audit s = .next (audited s t reh x) := by
  refine ⟨?fault, ?logs, ?run⟩
  case run =>
    show execAudit s = _
    rw [execAudit, due]
    rfl
  case logs => exact raise_logs ..

/-- Settles O39: each injection's effect. -/
theorem rehearsalsCarriedOut : Obligations.RehearsalsCarriedOut := by
  intro s rising
  refine ⟨?inject, ?drop, ?dropEnd, ?poison, ?vacancy, ?audit⟩
  case inject =>
    intro acc a served enabled _ _ _ _ low high named ok left
    obtain ⟨completes, frame, grid⟩ := injected_completes (i := (a.bits 8 4 3 0, a.bits 8 4 8 4, a.fld 0xC 4, a.fld 0x10 4))
      (answerable_of_serves served) { r0 := s.chron.count }
    refine ⟨_, exec_faultInject served enabled low high named ok left, completes, frame, ?_⟩
    rw [grid]
    rfl
  case drop =>
    intro p reh us due
    obtain ⟨rising', state, drop, inject⟩ := dropped_port rising p reh us
    refine ⟨_, exec_linkDrop due, ?_⟩
    split
    · have gathers := (PortsStand.refl rising').gatherItem (dropItem s p)
      obtain ⟨state', -, -, -, drop'⟩ := gathers.ports p
      exact ⟨state'.trans state, drop'.trans drop, gathers.inject.trans inject⟩
    · exact ⟨state, drop, inject⟩
  case dropEnd =>
    intro p c until_ over_
    have trains := setPort_portIs rising p.val { s.portOf p with
      dropUntil := none, state := if (s.portOf p).enable then 1 else 0, progress := s.ns }
    exact ⟨_, exec_linkDropEnd until_ over_, trains.only, trains.port⟩
  case poison =>
    intro p reh n due
    exact ⟨_, exec_poison due, rfl, rfl, tget_tput ..⟩
  case vacancy =>
    intro p reh key due member new
    obtain ⟨gathers, held, -⟩ := gatherItem_takes (s := vacating s reh key)
      (it := { key := key, rehearsal := true, stamp := s.chron.count % 2 ^ 32 }) member new
    refine ⟨_, exec_vacancy due, ?_, held, gathers.inject⟩
    exact congrArg (fun w : State => { w with grid := s.grid }) gathers.frame
  case audit =>
    intro p reh x due dies
    obtain ⟨t, logs, run⟩ := exec_audit due
    have aw : t.aw = s.aw := (eq_of_logs State.aw (fun _ _ => rfl) logs).trans rfl
    refine ⟨_, run, ?_, ?_, ?_, fun e other => ?_⟩
    · exact congrArg (fun w : State => { w with aw := s.aw, grid := s.grid }) logs
    · exact (eq_of_logs (fun w : State => w.grid.inject) (fun _ _ => rfl) logs).trans rfl
    · have die : (audited s t reh x).awOf (fieldNat x 18 17) = _ := awOf_setAw (aw ▸ dies) _ _
      rw [die]
      exact mem_resolveAll_auditing _ _
    · have die : (audited s t reh x).awOf e = t.awOf e := awOf_setAw_ne t _ other
      exact die.trans (congrArg (tget ({} : AwDieSt) · e) aw)

end Sys2Proof.Proofs
end

section
/-!
The statement about fences and aborts fails (O36; R444, R469, R470): it asks that an ABORT received leave the ports as the flood of
it does. Where the step it names is the armed one, that step is completed unlaunched and no step is armed any more, so that the
packets its wheels had made ready go to their ports as displaced packets.
-/

namespace Sys2Proof.Proofs

open Sys2Proof.Machine Sys2Proof.Laws

/-- `s` with an ABORT noted and flooded (R469). -/
def abortFlooded (s : State) (u : CtrlUnit) : State :=
  flood { s with grid := { s.grid with aborts := s.grid.aborts ++ [(u.w1.toNat, u.w2.getLsbD 4)] } } s.gridPorts (notice u)

/-- An ABORT of this epoch that is new (R469). -/
theorem exec_abort {s : State} {p : Port} {u : CtrlUnit} (good : goodUnit u 0xA 0xFFFF_FFFF 0xFFFF_FFFF 0xFFFF_001F)
    (named : bitsOf u.w0 7 4 = 3) (active : s.isActive p = true) (member : s.grid.memberEn = true)
    (own : bitsOf u.w0 31 16 = s.grid.grid) (now : bitsOf u.w0 15 8 = s.grid.epoch % 256)
    (new : ∀ x ∈ s.grid.aborts, x.1 ≠ u.w1.toNat) :
    exec (.abort p u) s = .next (abortEff u.w1.toNat (u.w2.getLsbD 4) (abortFlooded s u)) :=
  (memberUnit_good good named active member own _).trans <| congrArg _ <| if_neg <| by
    rintro (other | seen)
    · exact other now
    · obtain ⟨x, noted, same⟩ := List.any_eq_true.mp seen
      exact new x noted (beq_iff_eq.mp same)

/-- An ABORT of GSEQ 7 in grid 0 and epoch 0. -/
def abortUnit : CtrlUnit := { w0 := 0x3A, w1 := 7, w2 := 0, crc := crc32c (unitBytes 0x3A 7 0) }

/-- A packet that a wheel has made ready. -/
def readyPacket : Packet := { cls := 0, routeA := 0, routeB := 0 }

/-- Dimension 0 of two packages, on address bit 0 (R434). -/
def dimEntry : W64 := BitVec.ofNat 64 (0x1_0002_0001 + (crc8 (leBytes 7 0x1_0002_0001)).toNat * 2 ^ 56)

/-- A port of dimension 0, upward (R435). -/
def portEntry : W64 := BitVec.ofNat 64 (8 + (crc8 (leBytes 3 8)).toNat * 2 ^ 24)

/-- The armed step, of GSEQ 7. -/
def armedStep : StepReq :=
  { acc := 1, fn := 0, slot := 0, start := 0, launch := 0, patches := [], streams := [], bufs := [], report := 0, slipCap := 0
    slipAddr := 0, chain := [], pasid := none, gseq := some 7 }

/-- A member with one ACTIVE port, that step armed, and a packet of its flow 0 ready for that port. -/
def armedMember : State :=
  { ports := [(0, { state := 5 })]
    grid := { memberEn := true }
    fabric := { armed := some 1 }
    steps := [armedStep]
    links := [(0, {
      flows := [(0, { dim := 0, dir := false, mcast := false, collect := false, hops := 1, srcFirst := 0, srcLast := 0
                      hopFirst := 0, hopLast := 0 })]
      ready := [(0, [readyPacket])] })]
    tables := [(tblDim, { active := [(0, dimEntry)] }), (tblPort, { active := [(0, portEntry)] })] }

theorem goodUnit_abortUnit : goodUnit abortUnit 0xA 0xFFFF_FFFF 0xFFFF_FFFF 0xFFFF_001F := by
  refine ⟨beq_self_eq_true _, ?_⟩
  decide

theorem displaced_aborted :
    ((abortEff 7 false (abortFlooded armedMember abortUnit)).portOf 0).displaced = [readyPacket] := by decide +kernel

/-- Refutes O36: the ABORT of an armed step puts its ready packet among the displaced ones of the port. -/
theorem not_fencesAndAborts : ¬ Obligations.FencesAndAborts := by
  intro holds
  obtain ⟨-, -, abort⟩ := holds armedMember (by decide) (by decide)
  have active : armedMember.isActive (0 : Port) = true := by decide
  have new : ∀ x ∈ armedMember.grid.aborts, x.1 ≠ abortUnit.w1.toNat := by simp [armedMember]
  obtain ⟨t, run, -, flooded, -⟩ := abort 0 abortUnit goodUnit_abortUnit (by decide) active rfl (by decide) (by decide) new
  have same : t = _ := Host.Outcome.next.inj (run.symm.trans
    (exec_abort goodUnit_abortUnit (by decide) active rfl (by decide) (by decide) new))
  rw [same] at flooded
  have before : (armedMember.portOf 0).displaced = [] := by decide
  have stays := congrArg PortSt.displaced (flooded 0)
  rw [apply_ite PortSt.displaced] at stays
  simp only [before, ite_self] at stays
  exact List.cons_ne_nil _ _ (displaced_aborted.symm.trans stays)

end Sys2Proof.Proofs
end

section
/-!
A live table's commit (O56; R564, R565): COMMIT marks the table pending and, where its commit point is at once, copies its shadow to
its active copy; a copy that is done clears PENDING.
-/

namespace Sys2Proof.Proofs

open Sys2Proof.Machine Sys2Proof.Laws

section
variable {s : State} {n m : Nat} (x : Live)

theorem tableOf_setTable (rising : risingFrom 0 s.tables = true) : (s.setTable n x).tableOf n = x :=
  tget_tset ({} : Live) s.tables n 0 x rising

theorem tableOf_setTable_ne (h : m ≠ n) : (s.setTable n x).tableOf m = s.tableOf m := 
  tget_tset_ne ({} : Live) s.tables n m x h

theorem rising_setTable (rising : risingFrom 0 s.tables = true) : risingFrom 0 (s.setTable n x).tables = true :=
  risingFrom_tset ({} : Live) n x rising

end

/-- An entry that no replica still updates is looked up as the active copy holds it. -/
theorem look_settled {s : State} {n k : Nat} (h : tfind (s.tableOf n).updating k = none) :
    s.look n k = some (s.activeEntry n k) := by
  simp only [State.look, h]

/-- A table's commit but for the cadence table's: the active copy becomes the shadow copy. -/
theorem commitNow_eq {s : State} {n : Nat} (h : n ≠ tblCadence) :
    commitNow s n = s.setTable n { s.tableOf n with
      active := (s.tableOf n).shadow, updating := [], touched := [], passed := (s.tableOf n).pending } := by
  simp only [commitNow, if_neg h]

/-- Table `n` marked pending by COMMIT. -/
def committing (s : State) (n : Nat) : State := s.setTable n { s.tableOf n with pending := true, passed := false }

section
variable {s : State} {v : W64}

theorem exec_tableCommit_ignored
    (h : fieldNat v.toNat 7 0 = 0 ∨ 9 < fieldNat v.toNat 7 0 ∨ (s.tableOf (fieldNat v.toNat 7 0)).pending = true) :
    exec (.tableCommit v) s = .next s :=
  congrArg Host.Outcome.next (if_neg fun ⟨low, high, free⟩ => by
    obtain h | h | h := h
    · omega
    · omega
    · simp [h] at free)

theorem exec_tableCommit (low : 1 ≤ fieldNat v.toNat 7 0) (high : fieldNat v.toNat 7 0 ≤ 9)
    (free : (s.tableOf (fieldNat v.toNat 7 0)).pending = false) :
    exec (.tableCommit v) s = .next (if s.commitsNow (fieldNat v.toNat 7 0)
      then commitNow (committing s (fieldNat v.toNat 7 0)) (fieldNat v.toNat 7 0) else committing s (fieldNat v.toNat 7 0)) :=
  congrArg Host.Outcome.next (if_pos ⟨low, high, free⟩)

/-- The tables whose commit point is at once (R565). -/
theorem commitsNow_at_once {n : Nat} (low : 1 ≤ n) (high : n ≤ 9) (other : n ≠ 6) (h : n < 8 ∨ s.fabric.armed = none) :
    s.commitsNow n = true := by
  obtain h | h := h
  · simp only [State.commitsNow, Bool.or_eq_true, decide_eq_true_eq]; omega
  · simp only [State.commitsNow, h, Option.isNone_none, Bool.and_true, Bool.or_eq_true, decide_eq_true_eq]; omega

theorem commitsNow_waits {n : Nat} (h : n = 6 ∨ 8 ≤ n ∧ s.fabric.armed ≠ none) : s.commitsNow n = false := by
  obtain rfl | ⟨big, armed⟩ := h
  · rfl
  · rw [State.commitsNow, Option.isNone_eq_false_iff.2 (Option.isSome_iff_ne_none.2 armed), Bool.and_false, Bool.or_false,
      decide_eq_false_iff_not]
    omega

end

/-- A commit at once (O56): the shadow copy is what every lookup sees. -/
theorem commitNow_committing {s : State} {n : Nat} (rising : risingFrom 0 s.tables = true) (other : n ≠ 6) :
    { commitNow (committing s n) n with tables := s.tables } = s ∧
      (∀ m, m ≠ n → (commitNow (committing s n) n).tableOf m = s.tableOf m) ∧
      ((commitNow (committing s n) n).tableOf n).shadow = (s.tableOf n).shadow ∧
      ((commitNow (committing s n) n).tableOf n).pending = true ∧
      ((commitNow (committing s n) n).tableOf n).passed = true ∧
      ∀ k, (commitNow (committing s n) n).look n k = some (tget (entryReset n) (s.tableOf n).shadow k) := by
  have marked : (committing s n).tableOf n = { s.tableOf n with pending := true, passed := false } :=
    tableOf_setTable _ rising
  have done : (commitNow (committing s n) n).tableOf n = { s.tableOf n with
      active := (s.tableOf n).shadow, updating := [], touched := [], pending := true, passed := true } := by
    have still : risingFrom 0 (committing s n).tables = true := rising_setTable _ rising
    rw [commitNow_eq other, tableOf_setTable _ still, marked]
  refine ⟨?_, ?_, ?_, ?_, ?_, ?_⟩
  · rw [commitNow_eq other]; rfl
  · intro m ne
    rw [commitNow_eq other, tableOf_setTable_ne _ ne, committing, tableOf_setTable_ne _ ne]
  · rw [done]
  · rw [done]
  · rw [done]
  · intro k
    rw [look_settled (by rw [done]; rfl), State.activeEntry, done]

theorem exec_commitCopyDone {s : State} {b : Byte} (pending : (s.tableOf b.toNat).pending = true)
    (passed : (s.tableOf b.toNat).passed = true) (room : s.commits < 2 ^ 32 - 1) :
    exec (.commitCopyDone b) s = .next ({ s with commits := s.commits + 1 }.setTable b.toNat
      { s.tableOf b.toNat with pending := false, passed := false }) :=
  (act_next ⟨pending, passed⟩ _ _).trans (by rw [satNat, Nat.min_eq_left (by omega)])

/-- Settles O56: a commit by whether its commit point is at once, and the copy that is done. -/
theorem commitsMakeShadowActive : Obligations.CommitsMakeShadowActive := by
  intro s v rising
  refine ⟨fun ignored => ⟨s, exec_tableCommit_ignored ignored, rfl⟩, fun low high free => ⟨fun other now => ?_, fun waits => ?_⟩,
    fun b pending passed room => ?_⟩
  · refine ⟨_, ?_, commitNow_committing rising other⟩
    rw [exec_tableCommit low high free, if_pos (commitsNow_at_once low high other now)]
  · refine ⟨committing s _, ?_, rfl, tableOf_setTable _ rising, fun m => tableOf_setTable_ne _⟩
    rw [exec_tableCommit low high free, commitsNow_waits waits]
    rfl
  · exact ⟨_, exec_commitCopyDone pending passed room, rfl, rfl, tableOf_setTable _ rising, fun m => tableOf_setTable_ne _⟩

end Sys2Proof.Proofs
end

section
/-!
Writes through the table window (O57; R561, R563, R566): a whole entry of a live table is written, with LIVE in both copies with the
replicas still to follow; every other write of the window to a table is ignored and marked.
-/

namespace Sys2Proof.Proofs

open Sys2Proof.Machine Sys2Proof.Laws

/-- A live table's entries are 4 or 8 bytes wide (R562). -/
theorem liveShape_wide {n w m : Nat} (h : liveShape n = some (w, m)) : 0 < w := by
  have whole : ∀ e ∈ [(1, 4, 64), (2, 4, 32768), (3, 8, 8192), (4, 8, 8), (5, 8, 256), (6, 8, 1024), (7, 4, 4096), (8, 8, 4),
      (9, 4, 20)], 0 < (e : Nat × Nat × Nat).2.1 := by decide
  obtain ⟨before, after, listed, -⟩ := List.lookup_eq_some_iff.1 h
  exact whole (n, w, m) (listed ▸ List.mem_append_right before List.mem_cons_self)

/-- A write ignored and marked. -/
theorem ignoreWrite_frame (s : State) : { ignoreWrite s with fresh := s.fresh } = { s with winIgnored := true } := rfl

section
variable {s : State} {offset width w m e : Nat} {v : W64} {live : Bool}

/-- A write to entry `e` of a live table. -/
theorem tableWrite_live (low : offset < 1048576) (shape : liveShape s.winTable = some (w, m))
    (here : s.windowAt offset = w * e) (inside : e < m) :
    tableWrite live offset width v s =
      if width = 8 * w then
        if (s.tableOf s.winTable).pending then ignoreWrite s
        else if live then writeActive s s.winTable e (entryValue s.winTable v)
        else writeShadow s s.winTable e (entryValue s.winTable v)
      else ignoreWrite s := by
  have wide := liveShape_wide shape
  have size : s.tableSize s.winTable = w * m := by simp only [State.tableSize, shape]
  have reached : ¬ (1048576 ≤ offset ∨ s.tableSize s.winTable ≤ s.windowAt offset) := by
    rw [size, here]
    have := Nat.mul_lt_mul_of_pos_left inside wide
    omega
  have entry : wholeEntry s.winTable (s.windowAt offset) width = if width = 8 * w then some e else none := by
    simp only [wholeEntry, shape, here, Nat.mul_mod_right, and_true, Nat.mul_div_cancel_left e wide]
  simp only [tableWrite, if_neg reached, shape, Option.isSome_some, if_true, entry]
  by_cases fits : width = 8 * w
  · simp only [if_pos fits]
  · simp only [if_neg fits]

theorem showsActive_false (dead : s.winLive = false) : s.showsActive = false := by rw [State.showsActive, dead, Bool.false_and]

theorem exec_apertureWrite (dead : s.showsActive = false) :
    exec (.apertureWrite offset width v) s = .next (tableWrite false offset width v s) :=
  act_next dead _ _

theorem exec_unprescribedWrite (live : s.winLive = true) (shape : liveShape s.winTable = some (w, m)) :
    exec (.unprescribedWrite offset width v) s = .next (tableWrite true offset width v s) :=
  act_next (by simp only [State.showsActive, live, shape, Option.isSome_some, Bool.and_true]) _ _

theorem exec_replicaUpdateDone {b : Byte} {olds : List W64} (h : tfind (s.tableOf b.toNat).updating e = some olds) :
    exec (.replicaUpdateDone b e) s =
      .next (s.setTable b.toNat { s.tableOf b.toNat with updating := tdel e (s.tableOf b.toNat).updating }) :=
  act_next (by rw [h]; rfl) _ _

/-- A write to a table that is not live is ignored and marked (R561, R563). -/
theorem tableWrite_device (low : offset < 1048576) (shape : liveShape s.winTable = none) (other : s.winTable ≠ 0x26)
    (inside : s.windowAt offset < s.tableSize s.winTable) : tableWrite live offset width v s = ignoreWrite s := by
  have reached : ¬ (1048576 ≤ offset ∨ s.tableSize s.winTable ≤ s.windowAt offset) := by omega
  simp only [tableWrite, if_neg reached, shape, Option.isSome_none, Bool.false_eq_true, if_false, other, false_and]

end

section
variable {s : State} {n e : Nat} (x : W64) (rising : risingFrom 0 s.tables = true)
include rising

theorem tableOf_writeShadow : (writeShadow s n e x).tableOf n = { s.tableOf n with
    shadow := tset (entryReset n) (s.tableOf n).shadow e x, touched := insertNat e (s.tableOf n).touched } :=
  tableOf_setTable _ rising

/-- The table after an unprescribed write: both copies hold the value, and the old one waits for the replicas (R566). -/
theorem tableOf_writeActive : (writeActive s n e x).tableOf n = { s.tableOf n with
    shadow := tset (entryReset n) (s.tableOf n).shadow e x, active := tset (entryReset n) (s.tableOf n).active e x,
    updating := tput e (s.activeEntry n e :: tget [] (s.tableOf n).updating e) (s.tableOf n).updating } := by
  rw [writeActive, apply_ite (State.tableOf · n)]
  exact (ite_self _).trans (tableOf_setTable _ rising)

end

section
variable {s : State} {n e j : Nat} {x : W64}

theorem tableOf_writeActive_ne (ne : j ≠ n) : (writeActive s n e x).tableOf j = s.tableOf j := by
  rw [writeActive, apply_ite (State.tableOf · j)]
  exact (ite_self _).trans (tableOf_setTable_ne _ ne)

theorem writeActive_frame : { writeActive s n e x with tables := s.tables, cad := s.cad } = s := by
  unfold writeActive
  by_cases cadence : n = tblCadence
  · simp only [if_pos cadence]; rfl
  · simp only [if_neg cadence]; rfl

theorem writeActive_cad (h : n ≠ 6) : (writeActive s n e x).cad = s.cad := by
  rw [writeActive, if_neg (show n ≠ tblCadence from h)]; rfl

/-- A table after a write of one entry. -/
theorem tget_tset_entry {d : W64} {t : Tbl W64} (rising : risingFrom 0 t = true) :
    tget d (tset d t e x) j = if j = e then x else tget d t j := by
  split
  case isTrue h => rw [h, tget_tset d t e 0 x rising]
  case isFalse h => exact tget_tset_ne d t e j x h

theorem tfind_tput_entry {α : Type} {a : α} {t : Tbl α} : tfind (tput e a t) j = if j = e then some a else tfind t j := by
  split
  case isTrue h => rw [h, tfind_tput]
  case isFalse h => exact tfind_tput_ne a t h

end

/-- Settles O57: a write by the table the window shows, and the replicas' last lookup. -/
theorem windowWrites : Obligations.WindowWrites := by
  intro s offset v low rising
  refine ⟨fun w m e shape here inside => ?_, fun shape other inside width => ?_, fun b e olds held order => ?_⟩
  · have write {live : Bool} {width : Nat} := tableWrite_live (live := live) (width := width) (v := v) low shape here inside
    refine ⟨fun shadow active free => ⟨fun dead => ?_, fun live => ?_⟩, fun dead pending => ?_, fun dead width misfit => ?_⟩
    · have reach : tableWrite false offset (8 * w) v s = writeShadow s s.winTable e (entryValue s.winTable v) := by
        simp only [write, free, Bool.false_eq_true, if_true, if_false]
      refine ⟨writeShadow s s.winTable e (entryValue s.winTable v), ?_, rfl, fun j => ?_, ?_, ?_, fun j => tableOf_setTable_ne _⟩
      · rw [exec_apertureWrite (showsActive_false dead), reach]
      · rw [tableOf_writeShadow _ rising]
        exact tget_tset_entry shadow
      · rw [tableOf_writeShadow _ rising]
      · rw [tableOf_writeShadow _ rising]
    · have reach : tableWrite true offset (8 * w) v s = writeActive s s.winTable e (entryValue s.winTable v) := by
        simp only [write, free, Bool.false_eq_true, if_true, if_false]
      refine ⟨writeActive s s.winTable e (entryValue s.winTable v), ?_, writeActive_frame, writeActive_cad, fun j => ?_,
        fun j => ?_, fun j => ?_, fun j => tableOf_writeActive_ne⟩
      · rw [exec_unprescribedWrite live shape, reach]
      · rw [tableOf_writeActive _ rising]
        exact tget_tset_entry shadow
      · rw [State.activeEntry, tableOf_writeActive _ rising]
        exact tget_tset_entry active
      · rw [tableOf_writeActive _ rising]
        exact tfind_tput_entry
    · refine ⟨ignoreWrite s, ?_, ignoreWrite_frame s⟩
      rw [exec_apertureWrite (showsActive_false dead), write, if_pos rfl, if_pos pending]
    · refine ⟨ignoreWrite s, ?_, ignoreWrite_frame s⟩
      rw [exec_apertureWrite (showsActive_false dead), write, if_neg misfit]
  · refine ⟨ignoreWrite s, ?_, ignoreWrite_frame s⟩
    have dead : s.showsActive = false := by rw [State.showsActive, shape, Option.isSome_none, Bool.and_false]
    rw [exec_apertureWrite dead, tableWrite_device low shape other inside]
  · refine ⟨_, exec_replicaUpdateDone held, rfl, ?_⟩
    have done := tableOf_setTable (n := b.toNat) { s.tableOf b.toNat with updating := tdel e (s.tableOf b.toNat).updating } rising
    rw [look_settled (by rw [done]; exact tfind_tdel order), State.activeEntry, done]
    rfl

end Sys2Proof.Proofs
end

section
/-!
Heat, the power limit and the reference input (O54; R549, R552, R553, R578): the limit in force is the least of the configured one
and what each die's heat allows of it; a sample sets the response, and a trip powers the package down.
-/

namespace Sys2Proof.Proofs

open Sys2Proof.Machine Sys2Proof.Laws

/-! ### The limit in force -/

section
variable {α : Type} {f : α → Nat} {l : List α} {c w : Nat}

theorem le_foldl_min : c ≤ l.foldl (fun m e => min m (f e)) w ↔ c ≤ w ∧ ∀ e ∈ l, c ≤ f e := by
  induction l generalizing w with
  | nil => simp
  | cons e l ih => rw [List.foldl_cons, ih, le_min_iff, List.forall_mem_cons, and_assoc]

theorem foldl_min_eq_start (h : ∀ e ∈ l, w ≤ f e) : l.foldl (fun m e => min m (f e)) w = w :=
  le_antisymm (le_foldl_min.1 le_rfl).1 (le_foldl_min.2 ⟨le_rfl, h⟩)

theorem foldl_min_eq_least {e : α} (mem : e ∈ l) (start : f e ≤ w) (least : ∀ x ∈ l, f e ≤ f x) :
    l.foldl (fun m e => min m (f e)) w = f e :=
  le_antisymm ((le_foldl_min.1 le_rfl).2 e mem) (le_foldl_min.2 ⟨start, least⟩)

end

section
variable {s : State} {pkg d : Nat} {t : Int} {p : Power}

theorem configured_least (p : Power) : 900 ≤ p.configured := by rw [Power.configured]; omega

theorem allowed_cool (h : t ≤ (s.heat d).1) : allowed s pkg d t = pkg := if_pos h

theorem allowed_full (cooler : (s.heat d).1 < (s.heat d).2.1) (h : (s.heat d).2.1 ≤ t) : allowed s pkg d t = 900 :=
  (if_neg (by omega)).trans (if_pos h)

/-- No die's heat takes the limit below 900 W (R553). -/
theorem allowed_least (least : 900 ≤ pkg) : 900 ≤ allowed s pkg d t := by
  rw [allowed]
  split_ifs with cool full
  · exact least
  · exact le_rfl
  · have part : (pkg - 900) * (t - (s.heat d).1).toNat / ((s.heat d).2.1 - (s.heat d).1).toNat ≤ pkg - 900 :=
      Nat.div_le_of_le_mul (by rw [Nat.mul_comm]; exact Nat.mul_le_mul_right _ (by omega))
    omega

theorem limitNow_least : 900 ≤ s.limitNow p :=
  le_foldl_min.2 ⟨configured_least p, fun _ _ => allowed_least (configured_least p)⟩

theorem limitNow_most : s.limitNow p ≤ p.configured := (le_foldl_min.1 le_rfl).1

theorem limitNow_cool (cool : ∀ e ∈ p.temps, e.2 ≤ (s.heat e.1).1) : s.limitNow p = p.configured :=
  foldl_min_eq_start fun e mem => (allowed_cool (cool e mem)).ge

theorem limitNow_full {e : Nat × Int} (mem : e ∈ p.temps) (cooler : (s.heat e.1).1 < (s.heat e.1).2.1)
    (full : (s.heat e.1).2.1 ≤ e.2) : s.limitNow p = 900 := by
  have cut : allowed s p.configured e.1 e.2 = 900 := allowed_full cooler full
  exact (foldl_min_eq_least mem (cut.trans_le (configured_least p))
    fun x _ => cut.trans_le (allowed_least (configured_least p))).trans cut

end

/-! ### A sample -/

/-- The power logic after a sample. -/
def sampled (x : Temps) (s : State) : Power :=
  let p := s.power
  let warm := x.any (fun e => decide ((s.heat e.1).1 < e.2))
  let full := x.any (fun e => decide ((s.heat e.1).2.1 ≤ e.2))
  let cool := x.all (fun e => decide (e.2 ≤ (s.heat e.1).1 - 2))
  let site := ((hottest x).map (·.1.val)).getD 0
  let temp := min 255 (((hottest x).map (·.2.toNat)).getD 0)
  let q : Power := { p with
    hot := temp, hotSite := site
    thermal := if full then 2 else if warm then 1 else 0
    throttled := warm || (p.throttled && !cool), lowest := full, temps := x.map fun (e : Fin 15 × Int) => (e.1.val, e.2)
    limitSince := if full then p.limitSince.or (some s.ns) else none, limitRaised := full && p.limitRaised }
  { q with effLimit := s.limitNow q }

theorem sampled_effLimit (x : Temps) (s : State) : (sampled x s).effLimit = s.limitNow (sampled x s) := rfl

/-- The state after a sample that trips no die: the first one past a throttle point is noted (R552). -/
def warned (x : Temps) (s : State) : State :=
  if x.any (fun e => decide ((s.heat e.1).1 < e.2)) && !s.power.throttled
  then raise { s with power := sampled x s } 0x0901 (dieLoc (sampled x s).hotSite)
  else { s with power := sampled x s }

section
variable {s : State} {x : Temps} {e : Fin 15 × Int}

theorem warned_logs (x : Temps) (s : State) : Logs { s with power := sampled x s } (warned x s) := by
  rw [warned]
  split
  · exact raise_logs ..
  · exact .refl _

theorem warned_power (x : Temps) (s : State) : (warned x s).power = sampled x s :=
  eq_of_logs State.power (fun _ _ => rfl) (warned_logs x s)

theorem warned_heat (x : Temps) (s : State) (d : Nat) : (warned x s).heat d = s.heat d :=
  (eq_of_logs (fun w => w.heat d) (fun _ _ => rfl) (warned_logs x s)).trans rfl

theorem thermalEff_untripped (calm : ∀ e ∈ x, e.2 < (s.heat e.1).2.2) : thermalEff x s = warned x s := by
  have found : x.find? (fun e => decide (((warned x s).heat e.1).2.2 ≤ e.2)) = none := by
    refine List.find?_eq_none.2 fun e mem => ?_
    rw [warned_heat, decide_eq_true_eq]
    exact Int.not_le.2 (calm e mem)
  rw [thermalEff]
  split
  · next e tripped => exact nomatch tripped.symm.trans found
  · rfl

theorem thermalEff_tripped (mem : e ∈ x) (trip : (s.heat e.1).2.2 ≤ e.2) :
    ∃ d : Fin 15, thermalEff x s = powerDown (raise (warned x s) 0x0903 (dieLoc d)) 2 5 := by
  have found : (x.find? (fun e => decide (((warned x s).heat e.1).2.2 ≤ e.2))).isSome = true :=
    List.find?_isSome.2 ⟨e, mem, by rw [warned_heat]; exact decide_eq_true trip⟩
  rw [thermalEff]
  split
  · next e tripped => exact ⟨e.1, rfl⟩
  · next calm => exact absurd ((congrArg Option.isSome calm).symm.trans found) Bool.false_ne_true

end

/-- A sample that trips no die: the response, and the limit it leaves (R552, R553). -/
theorem sampled_cool {x : Temps} {s : State} (order : ∀ e ∈ x, (s.heat e.1).1 < (s.heat e.1).2.1)
    (cool : ∀ e ∈ x, e.2 ≤ (s.heat e.1).1) :
    (sampled x s).thermal = 0 ∧ (sampled x s).lowest = false ∧
      (sampled x s).effLimit = min 1800 (max 900 s.power.pkgLimit) := by
  have warm : x.any (fun e => decide ((s.heat e.1).1 < e.2)) = false :=
    List.any_eq_false.2 fun e mem => by have := cool e mem; simpa using this
  have full : x.any (fun e => decide ((s.heat e.1).2.1 ≤ e.2)) = false :=
    List.any_eq_false.2 fun e mem => by have := cool e mem; have := order e mem; simp; omega
  refine ⟨?_, full, ?_⟩
  · simp only [sampled, warm, full, Bool.false_eq_true, if_false]
  · rw [sampled_effLimit, limitNow_cool fun e mem => ?_]
    · rfl
    obtain ⟨e, here, rfl⟩ := List.mem_map.1 mem
    exact cool e here

theorem sampled_full {x : Temps} {s : State} {e : Fin 15 × Int} (order : ∀ e ∈ x, (s.heat e.1).1 < (s.heat e.1).2.1)
    (mem : e ∈ x) (hot : (s.heat e.1).2.1 ≤ e.2) :
    (sampled x s).thermal = 2 ∧ (sampled x s).lowest = true ∧ (sampled x s).effLimit = 900 := by
  have full : x.any (fun e => decide ((s.heat e.1).2.1 ≤ e.2)) = true :=
    List.any_eq_true.2 ⟨e, mem, decide_eq_true hot⟩
  have here : (e.1.val, e.2) ∈ (sampled x s).temps := List.mem_map_of_mem mem
  refine ⟨?_, full, ?_⟩
  · simp only [sampled, full, if_true]
  · rw [sampled_effLimit]
    exact limitNow_full here (order e mem) hot

theorem warned_frame (x : Temps) (s : State) : { (warned x s).unlogged s with power := s.power } = s :=
  (congrArg (fun t : State => { t with power := s.power }) (warned_logs x s) :)

/-! ### The reference input -/

section
variable {s : State} {c : Nat}

theorem exec_thermalLimit (quiet : s.power.limitRaised = false) (since : s.power.limitSince = some c)
    (long : c + 10000000 ≤ s.ns) : exec .thermalLimit s =
      .next (raise { s with power := { s.power with limitRaised := true } } 0x0902 (dieLoc s.power.hotSite)) :=
  act_next ⟨quiet, by rw [since, Option.any_some, decide_eq_true long]⟩ _ _

theorem exec_refClkMissing (here : s.power.refMissing = none) :
    exec .refClkMissing s = .next { s with power := { s.power with refMissing := some s.ns } } := act_next here _ _

theorem exec_refClkReturn (missing : s.power.refMissing = some c) (soon : s.ns ≤ c + 10000) :
    exec .refClkReturn s = .next ({ s with
      power := { s.power with refMissing := none }
      chron := { s.chron with frac := s.chron.frac - 2 ^ 32 * (s.choice 2 0 % 2 : Nat) } } : State).bump :=
  act_next (by rw [missing]; exact decide_eq_true soon) _ _

end

/-- Settles O54: the limit between its bounds, a sample by whether a die trips, and the reference's absence. -/
theorem heatAndReference : Obligations.HeatAndReference := by
  refine fun s => ⟨fun v => ?_, fun x calm order => ?_, fun x e up mem trip => ?_, fun c quiet since long => ?_,
    fun here => ⟨_, exec_refClkMissing here, rfl⟩, fun c missing soon => ?_⟩
  · have cool := limitNow_cool (s := s) (p := { s.power with pkgLimit := fieldNat v.toNat 10 0 })
    exact ⟨pkgLimitEff v s, rfl, rfl, limitNow_least, limitNow_most, cool⟩
  · refine ⟨warned x s, congrArg Host.Outcome.next (thermalEff_untripped calm), warned_frame x s, ?_, ?_⟩
    · rw [warned_power]
      exact sampled_cool order
    · rw [warned_power]
      rintro ⟨e, mem, hot⟩
      exact sampled_full order mem hot
  · obtain ⟨d, tripped⟩ := thermalEff_tripped mem trip
    have stands : (warned x s).power.down = false := by rw [warned_power]; exact up
    obtain ⟨out, -⟩ := raise_powerDown_outage stands 0x0903 2 5 (dieLoc d)
    simp only [outage, Prod.mk.injEq] at out
    obtain ⟨down, cause, stage, -, -⟩ := out
    exact ⟨_, congrArg Host.Outcome.next tripped, down, cause, stage⟩
  · exact ⟨_, exec_thermalLimit quiet since long, raise_unlogged_of rfl _ _⟩
  · exact ⟨_, s.choice 2 0 % 2, exec_refClkReturn missing soon, by omega, rfl, rfl⟩

end Sys2Proof.Proofs
end

section
/-!
What a COLD and a DEVICE reset clear and keep (O51; R544, R545, R549, R582): whatever the reset does of its own before the state is
wiped, the gasp and the release of the pane sets, leaves what the reset keeps.
-/

namespace Sys2Proof.Proofs

open Sys2Proof.Machine Sys2Proof.Laws

/-! ### Before the state is wiped -/

section
variable {s t u : State}

theorem OnlyDies.refl (s : State) : OnlyDies s s := rfl

theorem setLasting_onlyDies (s : State) (d g pos : Nat) : OnlyDies s (setLasting s d g pos) := by
  unfold setLasting
  dsimp only
  split
  · exact setAw_onlyDies ..
  · split
    · split
      · exact setAw_onlyDies ..
      · exact (setAw_onlyDies ..).trans (onlyDies_of_logs (raise_logs ..))
    · exact setAw_onlyDies ..

theorem wornStep_onlyDies (d : Nat) (s : State) (l : Nat) : OnlyDies s (wornStep d s l) := by
  unfold wornStep
  dsimp only
  split
  · exact (onlyDies_of_logs (raise_logs ..)).trans (setLasting_onlyDies ..)
  · exact .refl s

theorem releaseSets_onlyDies (d : Nat) (s : State) : OnlyDies s (releaseSets d s) :=
  (setAw_onlyDies s d _).trans (foldl_of_step .refl .trans (wornStep_onlyDies d) _ _)

theorem releaseAll_onlyDies (s : State) : OnlyDies s ((List.range 4).foldl (fun s d => releaseSets d s) s) :=
  foldl_of_step .refl .trans (fun s d => releaseSets_onlyDies d s) _ s

/-- `t` is `s` but for the analogue dies, what was sent and what events leave. -/
def Quiet (s t : State) : Prop := { t.unlogged s with aw := s.aw, out := s.out } = s

theorem Quiet.refl (s : State) : Quiet s s := rfl

theorem Quiet.trans (h : Quiet s t) (k : Quiet t u) : Quiet s u := by
  unfold Quiet at h k ⊢
  refine Eq.trans ?_ h
  rw [← k]
  dsimp only [State.unlogged]

theorem OnlyDies.quiet (h : OnlyDies s t) : Quiet s t := congrArg (fun w : State => ({ w with out := s.out } : State)) h

theorem Sends.quiet (h : Sends s t) : Quiet s t := by
  obtain ⟨os, rfl⟩ := h
  rfl

theorem Quiet.eq {α : Type} (f : State → α) (h : Quiet s t)
    (own : ∀ t s : State, f { t.unlogged s with aw := s.aw, out := s.out } = f t) : f t = f s := by
  rw [← own t s, show { t.unlogged s with aw := s.aw, out := s.out } = s from h]

end

/-- The state that a DEVICE reset wipes: the gasp of a member sent, and every pane set released (R249, R474, R545). -/
def beforeWipe (s : State) : State :=
  (List.range 4).foldl (fun s d => releaseSets d s) (if s.grid.memberEn then gaspNow s 3 else s)

theorem gasped_sends (s : State) : Sends s (if s.grid.memberEn then gaspNow s 3 else s) := by
  split
  · exact gaspNow_sends s 3
  · exact .refl s

theorem beforeWipe_quiet (s : State) : Quiet s (beforeWipe s) :=
  (gasped_sends s).quiet.trans (releaseAll_onlyDies _).quiet

/-- The power logic that a DEVICE reset leaves (R544 to R546). -/
def resetPower (p : Power) (cause ns : Nat) : Power :=
  { lastReset := cause, cold := !p.railsUp, groupEn := p.groupEn, groupGood := p.groupGood
    awEn := p.awEn, awGood := p.awGood, railAt := p.railAt, vddCd := p.vddCd
    refMissing := p.refMissing, aonFell := p.aonFell, stageTimes := [ns] }

section
variable {s : State}

theorem dropInstall_writes (s : State) : WritesDies s (dropInstall s) := by
  rw [dropInstall]
  split
  · exact ⟨_, rfl⟩
  · exact eachAw_writes ..

/-- The wiped state without an installation that has lost its load, and with new power logic. -/
def resetFrom (w : State) (p : Power) (cause : Nat) : State :=
  { dropInstall w with power := resetPower p cause (dropInstall w).ns }

theorem deviceReset_up (up : s.power.down = false) (cause : Nat) : deviceReset s cause =
    resetFrom (wiped (beforeWipe s)) (if s.grid.memberEn then gaspNow s 3 else s).power cause :=
  if_neg (Bool.eq_false_iff.1 up)

theorem resetFrom_eq (w : State) (p : Power) (cause : Nat) :
    ∃ aw, resetFrom w p cause = { w with aw := aw, power := resetPower p cause w.ns } := by
  obtain ⟨aw, dropped⟩ := dropInstall_writes w
  exact ⟨aw, by rw [resetFrom, dropped]⟩

/-- A DEVICE reset is the wiped state but for the dies and the power logic. -/
theorem deviceReset_eq (up : s.power.down = false) (cause : Nat) : ∃ aw n,
    deviceReset s cause = { wiped (beforeWipe s) with aw := aw, power := resetPower s.power cause n } := by
  have told : (if s.grid.memberEn then gaspNow s 3 else s).power = s.power :=
    (gasped_sends s).quiet.eq State.power fun _ _ => rfl
  obtain ⟨aw, reset⟩ := resetFrom_eq (wiped (beforeWipe s)) s.power cause
  exact ⟨aw, _, by rw [deviceReset_up up, told, reset]⟩

/-- A state as a DEVICE reset of `s` leaves it (R544, R545). -/
def DeviceReset (s : State) (cause : Nat) (t : State) : Prop :=
  t.power.stage = 0 ∧ t.power.lastReset = cause ∧ t.power.groupEn = s.power.groupEn ∧
    t.power.groupGood = s.power.groupGood ∧ t.power.awEn = s.power.awEn ∧ t.chron.count = s.chron.count ∧
    t.fuses = s.fuses ∧ t.run = none ∧ t.steps = [] ∧ t.tenancy = {} ∧ t.intake = {} ∧ t.fns = [] ∧ t.domains = [] ∧
    t.streams = [] ∧ t.slots = [] ∧ t.sets = [] ∧ t.mv = [] ∧ t.ports = [] ∧ t.installed = s.installed ∧
    t.installCount = s.installCount ∧ t.boot.copyA = s.boot.copyA ∧ t.boot.copyB = s.boot.copyB ∧
    t.pending = s.pending

theorem deviceReset_clears (up : s.power.down = false) (cause : Nat) : DeviceReset s cause (deviceReset s cause) := by
  obtain ⟨aw, n, reset⟩ := deviceReset_eq up cause
  have quiet := beforeWipe_quiet s
  generalize beforeWipe s = b at reset quiet
  have boot := quiet.eq State.boot fun _ _ => rfl
  have chron := quiet.eq State.chron fun _ _ => rfl
  rw [reset]
  dsimp only [DeviceReset, wiped, resetPower, State.reset]
  rw [boot, chron, quiet.eq State.fuses fun _ _ => rfl, quiet.eq State.installed fun _ _ => rfl,
    quiet.eq State.installCount fun _ _ => rfl, quiet.eq State.pending fun _ _ => rfl]
  simp only [and_self]

end

/-! ### A COLD reset -/

theorem rising_tblMap {α : Type} [DecidableEq α] (d : α) (f : α → α) (t : Tbl α) : risingFrom 0 (tblMap d f t) = true :=
  List.foldlRecOn (motive := fun m => risingFrom 0 m = true) t _ rfl fun _ order e _ => risingFrom_tset d e.1 (f e.2) order

/-- Settles O51: both resets are the wiped state, with what each adds. -/
theorem resetsClearAndKeep : Obligations.ResetsClearAndKeep := by
  intro s
  refine ⟨?_, fun up => ⟨fun n long => ?_, fun v key bit => ?_, ?_, ?_⟩, fun n short => ⟨s, ?_, rfl⟩, fun v nokey => ⟨s, ?_, rfl⟩⟩
  · obtain ⟨aw, dies⟩ := eachAw_writes (wiped s) AwDieSt.off
    refine ⟨coldReset s, rfl, rfl, rfl, rfl, rfl, rfl, rfl, ?_, ?_, ?_, ?_, fun _ d => ?_⟩
    · exact (congrArg State.run dies).trans rfl
    · exact (congrArg State.tenancy dies).trans rfl
    · exact (congrArg State.fns dies).trans rfl
    · exact (congrArg State.fuses dies).trans rfl
    · have rising : risingFrom 0 (wiped s).aw = true := rising_tblMap ({} : AwDieSt) AwDieSt.reset s.aw
      exact congrArg AwDieSt.state (awOf_eachAw rising AwDieSt.off d)
  · exact ⟨_, congrArg Host.Outcome.next (if_pos long), deviceReset_clears up 1⟩
  · exact ⟨_, congrArg Host.Outcome.next (if_pos ⟨key, (bitNat_eq_testBit v.toNat 24).trans bit⟩), deviceReset_clears up 2⟩
  · exact ⟨_, rfl, deviceReset_clears up 3⟩
  · exact ⟨_, rfl, deviceReset_clears up 4⟩
  · exact congrArg Host.Outcome.next ((if_neg (by omega)).trans (if_pos short))
  · exact congrArg Host.Outcome.next (if_neg fun h => nokey h.1)

end Sys2Proof.Proofs
end

section
/-!
The SPDM responder (O48; R506, R508): each request's answer changes the connection alone, and is sent whole or, where it is longer
than the responder's transfer size, announced as one to be fetched in chunks.
-/

namespace Sys2Proof.Proofs

open Sys2Proof.Machine Sys2Proof.Laws

section
variable {s : State} {req : Bytes} {x : State × Bytes}

/-! ### Answers and their sending -/

theorem spdmMsg_length (code p1 p2 : Nat) (rest : Bytes) : 4 ≤ (spdmMsg code p1 p2 rest).length := by
  simp only [spdmMsg, List.length_append, length_leBytes]
  omega

/-- An answer to a request: nothing changed but the connection and the free choices, and a message to send. -/
structure Answer (s : State) (x : State × Bytes) : Prop where
  long : 4 ≤ x.2.length
  frame : { x.1 with spdm := s.spdm, free := s.free } = s

/-- Sending changes only what is still to be fetched of a long response. -/
theorem sendSpdm_keeps (x : State × Bytes) : (sendSpdm x).spdm.phase = x.1.spdm.phase ∧
    (sendSpdm x).spdm.certs = x.1.spdm.certs ∧ (sendSpdm x).spdm.measured = x.1.spdm.measured ∧
    (sendSpdm x).free = x.1.free ∧ { sendSpdm x with spdm := x.1.spdm, out := x.1.out } = x.1 := by
  rw [sendSpdm]
  split
  · exact ⟨rfl, rfl, rfl, rfl, rfl⟩
  · exact ⟨rfl, rfl, rfl, rfl, rfl⟩

theorem sendSpdm_out (long : 4 ≤ x.2.length) : ∃ m : Bytes, (sendSpdm x).out = x.1.out ++ [.spdm m] ∧ 4 ≤ m.length := by
  rw [sendSpdm]
  split
  · exact ⟨x.2, rfl, long⟩
  · exact ⟨_, rfl, spdmMsg_length ..⟩

/-- The state after a request was answered in a phase. -/
def Answered (s t : State) (phase : Nat) : Prop :=
  t.spdm.phase = phase ∧ (∃ m : Bytes, t.out = s.out ++ [.spdm m] ∧ 4 ≤ m.length) ∧
    { t with spdm := s.spdm, out := s.out, free := s.free } = s

theorem Answer.answered (h : Answer s x) : Answered s (sendSpdm x) x.1.spdm.phase := by
  obtain ⟨phase, -, -, -, frame⟩ := sendSpdm_keeps x
  obtain ⟨m, out, long⟩ := sendSpdm_out h.long
  refine ⟨phase, ⟨m, ?_, long⟩, ?_⟩
  · have begun := congrArg State.out h.frame
    exact out.trans (congrArg (· ++ [Out.spdm m]) begun)
  · have kept := congrArg (fun t : State => { t with spdm := s.spdm, out := s.out, free := s.free }) frame
    have begun := congrArg (fun t : State => { t with out := s.out }) h.frame
    exact kept.trans begun

theorem answered_of {y : State × Bytes} {u : State} {m : Bytes} {phase : Nat} (answer : y = (u, m)) (long : 4 ≤ m.length)
    (next : u.spdm.phase = phase) (frame : { u with spdm := s.spdm, free := s.free } = s) : Answered s (sendSpdm y) phase := by
  subst answer next
  exact Answer.answered ⟨long, frame⟩

/-- An answer whose bytes join the messages to be signed makes them longer. -/
theorem certs_grown {y : State × Bytes} {m : Bytes}
    (answer : y = ({ s with spdm := { s.spdm with certs := s.spdm.certs ++ req ++ m } }, m)) (long : 4 ≤ m.length) :
    s.spdm.certs.length < (sendSpdm y).spdm.certs.length := by
  obtain ⟨-, certs, -⟩ := sendSpdm_keeps y
  rw [certs, answer, List.length_append, List.length_append]
  omega

/-! ### The requests of the connection's turn -/

theorem answerVersion_eq (version : fieldAt req 0 1 = 0x10) (whole : 4 ≤ req.length) :
    ∃ vca m, answerVersion req s = ({ s with spdm := { phase := 1, vca := vca, handle := s.spdm.handle } }, m) ∧
      4 ≤ m.length := by
  refine ⟨_, _, if_pos ⟨version, whole⟩, ?_⟩
  simp only [List.length_append, length_leBytes]
  omega

theorem answerCapabilities_eq (form : spdmForm req 20 = true) (turn : s.spdm.phase = 1) :
    ∃ vca m, answerCapabilities req s = ({ s with spdm := { s.spdm with phase := 2, vca := vca } }, m) ∧ 4 ≤ m.length :=
  ⟨_, _, (if_neg (not_not.2 form)).trans (if_neg (not_not.2 turn)), spdmMsg_length ..⟩

theorem answerAlgorithms_eq (form : spdmForm req 32 = true) (turn : s.spdm.phase = 2)
    (curve : bitNat (fieldAt req 8 4) 7 = true) (hash : bitNat (fieldAt req 12 4) 1 = true) :
    ∃ vca m, answerAlgorithms req s = ({ s with spdm := { s.spdm with phase := 3, vca := vca } }, m) ∧ 4 ≤ m.length :=
  ⟨_, _, (if_neg (not_not.2 form)).trans ((if_neg (not_not.2 turn)).trans (if_neg fun h => h.elim (· curve) (· hash))),
    spdmMsg_length ..⟩

section
variable (turn : s.spdm.phase = 3)
include turn

theorem answerDigests_eq (form : spdmForm req 4 = true) :
    ∃ m, answerDigests req s = ({ s with spdm := { s.spdm with certs := s.spdm.certs ++ req ++ m } }, m) ∧ 4 ≤ m.length :=
  ⟨_, (if_neg (not_not.2 form)).trans (if_neg (not_not.2 turn)), spdmMsg_length ..⟩

theorem answerCertificate_eq (form : spdmForm req 8 = true) (slot : bitsAt req 2 1 3 0 = 0)
    (inside : fieldAt req 4 2 < s.chain.length) :
    ∃ m, answerCertificate req s = ({ s with spdm := { s.spdm with certs := s.spdm.certs ++ req ++ m } }, m) ∧ 4 ≤ m.length :=
  ⟨_, (if_neg fun h => h.elim (· form) fun h => h.elim (· slot) (by omega)).trans (if_neg (not_not.2 turn)),
    spdmMsg_length ..⟩

theorem answerChallenge_eq (form : spdmForm req 44 = true) (slot : bitsAt req 2 1 3 0 = 0) (kind : fieldAt req 3 1 = 0xFF) :
    ∃ m, answerChallenge req s = ({ s.bump with spdm := { s.spdm with certs := [] } }, m) ∧ 4 ≤ m.length := by
  refine ⟨_, (if_neg fun h => h.elim (· form) fun h => h.elim (· slot) (· (.inr (.inr kind)))).trans (if_neg (not_not.2 turn)), ?_⟩
  rw [List.length_append]
  exact (spdmMsg_length ..).trans (Nat.le_add_right _ _)

theorem answerMeasurements_eq (signed : fieldAt req 2 1 = 1) (form : spdmForm req 45 = true) (all : fieldAt req 3 1 = 0xFF)
    (slot : bitsAt req 36 1 3 0 = 0) :
    ∃ m, answerMeasurements req s = ({ s.bump with spdm := { s.spdm with measured := [] } }, m) ∧ 4 ≤ m.length := by
  have bit : bitNat (fieldAt req 2 1) 0 = true := by rw [signed]; rfl
  rw [answerMeasurements]
  simp only [bit, all, form, slot, turn, if_true]
  refine ⟨_, rfl, ?_⟩
  rw [List.length_append]
  exact (spdmMsg_length ..).trans (Nat.le_add_right _ _)

end

/-! ### The chunks -/

theorem chunkSendEff_first (more : bitNat (fieldAt req 2 1) 0 = false) (first : fieldAt req 4 2 = 0) :
    chunkSendEff req s = ({ s with spdm := { s.spdm with
      sendChunk := some (fieldAt req 3 1, 1, slice req 16 (fieldAt req 8 4)) } } : State).emit
        (.spdm (spdmMsg 0x05 0 (fieldAt req 3 1) (leBytes 2 0))) := by
  rw [chunkSendEff]
  cases held : s.spdm.sendChunk with
  | none =>
    simp only [first, more, if_true]
    rfl
  | some c =>
    simp only [first, more, if_true]
    rfl

theorem chunkGetEff_next {n : Nat} {b : Bytes} (next : fieldAt req 4 2 = n) (held : s.spdm.getChunk = some (fieldAt req 3 1, n, b)) :
    ∃ m, chunkGetEff req s = ({ s with spdm := { s.spdm with
      getChunk := if b.length ≤ (Config.spdmLimits.2.1 - 16) * (n + 1) then none else some (fieldAt req 3 1, n + 1, b) } } :
        State).emit (.spdm m) := by
  rw [chunkGetEff, held]
  dsimp only
  simp only [next, and_self, if_true, decide_eq_true_eq]
  exact ⟨_, rfl⟩

end

/-- Settles O48: each request by its answer, and the answer's sending. -/
theorem spdmAnswers : Obligations.SpdmAnswers := by
  intro s req up
  refine ⟨fun code version whole => ?_, fun code form turn => ?_, fun code form turn curve hash => ?_,
    fun turn => ⟨fun code form => ?_, fun code form slot inside => ?_, fun code form slot kind => ?_,
      fun code signed form all slot => ?_⟩, fun code more first => ?_, fun n b code next held => ?_⟩
  · obtain ⟨vca, m, answer, long⟩ := answerVersion_eq (s := s) version whole
    exact ⟨_, act_next ⟨up, code⟩ _ _, answered_of answer long rfl rfl⟩
  · obtain ⟨vca, m, answer, long⟩ := answerCapabilities_eq form turn
    exact ⟨_, act_next ⟨up, code⟩ _ _, answered_of answer long rfl rfl⟩
  · obtain ⟨vca, m, answer, long⟩ := answerAlgorithms_eq form turn curve hash
    exact ⟨_, act_next ⟨up, code⟩ _ _, answered_of answer long rfl rfl⟩
  · obtain ⟨m, answer, long⟩ := answerDigests_eq turn form
    exact ⟨_, act_next ⟨up, code⟩ _ _, answered_of answer long turn rfl, certs_grown answer long⟩
  · obtain ⟨m, answer, long⟩ := answerCertificate_eq turn form slot inside
    exact ⟨_, act_next ⟨up, code⟩ _ _, answered_of answer long turn rfl, certs_grown answer long⟩
  · obtain ⟨m, answer, long⟩ := answerChallenge_eq turn form slot kind
    obtain ⟨-, certs, -, free, -⟩ := sendSpdm_keeps (answerChallenge req s)
    exact ⟨_, act_next ⟨up, code⟩ _ _, answered_of answer long turn rfl, certs.trans (by rw [answer]),
      free.trans (by rw [answer]; rfl)⟩
  · obtain ⟨m, answer, long⟩ := answerMeasurements_eq turn signed form all slot
    obtain ⟨-, -, measured, free, -⟩ := sendSpdm_keeps (answerMeasurements req s)
    exact ⟨_, act_next ⟨up, code⟩ _ _, answered_of answer long turn rfl, measured.trans (by rw [answer]),
      free.trans (by rw [answer]; rfl)⟩
  · exact ⟨_, (act_next ⟨up, code⟩ _ _).trans (congrArg _ (chunkSendEff_first more first)), rfl, rfl⟩
  · obtain ⟨m, served⟩ := chunkGetEff_next next held
    exact ⟨_, m, (act_next ⟨up, code⟩ _ _).trans (congrArg _ served), rfl, rfl, rfl⟩

end Sys2Proof.Proofs
end

section
/-!
The event paths (O49; R519 to R523): a record written to the event ring, with the ring's message after an alarm or a fault; the
ring's control register; a record or a drop summary that leaves by path 1.
-/

namespace Sys2Proof.Proofs

open Sys2Proof.Machine Sys2Proof.Laws

section
variable {s : State} {p : Nat}

theorem pathOf_setPath (x : Path) (rising : risingFrom 0 s.paths = true) : (s.setPath p x).pathOf p = x :=
  tget_tset ({} : Path) s.paths p 0 x rising

/-! ### The event ring -/

/-- The ring after one more record. -/
def ringAdvanced (e : EvRing) (ns : Nat) : EvRing :=
  let wrap := decide (e.size ≤ e.tail + 1)
  { e with
    tail := if wrap then 0 else e.tail + 1, phase := if wrap then !e.phase else e.phase
    pendingIrq := e.pendingIrq + 1, firstIrqNs := if e.pendingIrq = 0 then ns else e.firstIrqNs }

theorem ringAdvanced_tail (e : EvRing) (ns : Nat) :
    (ringAdvanced e ns).tail = if 2 ^ e.sizeLog2 ≤ e.tail + 1 then 0 else e.tail + 1 := by
  simp only [ringAdvanced, decide_eq_true_eq]
  rfl

/-- The write of a record at TAIL. -/
def ringDma (e : EvRing) (r : Rec) (n : Nat) : Out :=
  .dma 0 none (e.base + BitVec.ofNat 64 (128 * e.tail)) (recBytes r n e.phase) false

/-- The state with a record written at TAIL, before its message. -/
def ringWritten (s : State) (r : Rec) (n : Nat) : State :=
  { s with evring := ringAdvanced s.evring s.ns, out := s.out ++ [ringDma s.evring r n] }

theorem ringPut_eq (up : (s.fnOf 0).inReset = false) (r : Rec) (n : Nat) :
    ringPut s r n = if r.cls ≤ 1 ∨ 64 ≤ s.evring.pendingIrq + 1 then ringMsix (ringWritten s r n) else ringWritten s r n := by
  have written : hostWrite s 0 none (s.evring.base + BitVec.ofNat 64 (128 * s.evring.tail))
      (recBytes r n s.evring.phase) = s.emit (ringDma s.evring r n) := if_neg (Bool.eq_false_iff.1 up)
  rw [ringPut, written]
  rfl

/-- The ring's message leaves no record pending (R520). -/
theorem ringMsix_signals (s : State) : Signals { s with evring := { s.evring with pendingIrq := 0 } } (ringMsix s) :=
  sendMsix_signals ..

/-- What a record written to the ring leaves (R520). -/
theorem ringPut_leaves (up : (s.fnOf 0).inReset = false) (r : Rec) (n : Nat) :
    ∃ fns os pending, ringPut s r n = { s with
        evring := { ringAdvanced s.evring s.ns with pendingIrq := pending }, fns := fns
        out := s.out ++ [ringDma s.evring r n] ++ os } ∧
      (r.cls ≤ 1 → pending = 0) ∧
      (2 ≤ r.cls → s.evring.pendingIrq < 63 → pending = s.evring.pendingIrq + 1 ∧ fns = s.fns) := by
  rw [ringPut_eq up]
  split
  case isTrue told =>
    obtain ⟨fns, os, sent⟩ := ringMsix_signals (ringWritten s r n)
    exact ⟨fns, os, 0, sent, fun _ => rfl, fun quiet few => by omega⟩
  case isFalse quiet =>
    refine ⟨s.fns, [], s.evring.pendingIrq + 1, ?_, fun told => by omega, fun _ _ => ⟨rfl, rfl⟩⟩
    rw [List.append_nil]
    rfl

theorem exec_evringWrite {n : Nat} {r : Rec} {es : List (Nat × Rec)} (queued : (s.pathOf 0).queue = (n, r) :: es)
    (room : s.evring.open_ = true) (up : (s.fnOf 0).inReset = false) :
    exec .evringWrite s = .next (ringPut (s.setPath 0 { s.pathOf 0 with queue := es }) r n) := by
  refine (act_next ⟨by rw [queued]; rfl, room, up⟩ _ _).trans (congrArg Host.Outcome.next ?_)
  rw [evringWriteEff, queued]

theorem exec_evringIrqTimeout (pending : 0 < s.evring.pendingIrq) (late : s.evring.firstIrqNs + 100000 ≤ s.ns) :
    exec .evringIrqTimeout s = .next (ringMsix s) := act_next ⟨pending, late⟩ _ _

theorem ringMsix_sends (up : (s.fnOf 0).inReset = false) (free : (s.fnOf 0).fnMask = false)
    (unmasked : (tget {} (s.fnOf 0).msix (s.evring.vector % 8)).masked = false) :
    (ringMsix s).evring = { s.evring with pendingIrq := 0 } ∧ (ringMsix s).out = s.out ++ [.msix s.evring.vector] ∧
      { ringMsix s with evring := s.evring, fns := s.fns, out := s.out } = s := by
  have sent := sendMsix_sends (s := { s with evring := { s.evring with pendingIrq := 0 } }) up unmasked free
  rw [ringMsix, sent]
  exact ⟨rfl, rfl, rfl⟩

/-! ### EVRING_CTRL -/

theorem exec_evringCtrlWrite (v : W64) : exec (.evringCtrlWrite 0 64 v) s = .next { s with evring := s.evring.write v } := rfl

section
variable {e : EvRing} {v : W64}

theorem write_starts (off : e.enable = false) (on : v.getLsbD 5 = true) (small : 4 ≤ fieldNat v.toNat 4 0)
    (large : fieldNat v.toNat 4 0 ≤ 16) : (e.write v).enable = true ∧ (e.write v).head = 0 ∧ (e.write v).tail = 0 ∧
      (e.write v).phase = true ∧ (e.write v).sizeLog2 = fieldNat v.toNat 4 0 := by
  have bit : bitNat v.toNat 5 = true := (bitNat_eq_testBit v.toNat 5).trans on
  simp only [EvRing.write, off, bit, small, large, and_self, decide_true, Bool.not_false, Bool.and_true, if_true,
    Bool.false_eq_true, if_false]

theorem write_refused (off : e.enable = false) (outside : fieldNat v.toNat 4 0 < 4 ∨ 16 < fieldNat v.toNat 4 0) :
    (e.write v).enable = false := by
  have size : ¬ (4 ≤ fieldNat v.toNat 4 0 ∧ fieldNat v.toNat 4 0 ≤ 16) := by omega
  simp only [EvRing.write, off, size, decide_false, Bool.and_false, Bool.false_and, Bool.false_eq_true, if_false]

theorem write_running (on : e.enable = true) : (e.write v).sizeLog2 = e.sizeLog2 ∧ (e.write v).tail = e.tail ∧
    (e.write v).head = fieldNat v.toNat 47 32 := by
  simp only [EvRing.write, on, Bool.not_true, Bool.and_false, Bool.false_eq_true, if_false, if_true, and_self]

end

/-! ### Path 1 -/

theorem exec_mctpRecordPush {n : Nat} {r : Rec} {es : List (Nat × Rec)} (queued : (s.pathOf 1).queue = (n, r) :: es) :
    exec .mctpRecordPush s = .next ((s.setPath 1 { s.pathOf 1 with queue := es }).emit (.mctp (mctpBytes r n))) := by
  show execMctpRecordPush s = _
  rw [execMctpRecordPush, queued]

/-- A path after its drop summary: its counts anew (R523). -/
def summarized (p : Path) (ns : Nat) : Path :=
  { p with pseq := (p.pseq + 1) % 2 ^ 32, dropped := [0, 0, 0, 0, 0], firstDrop := 0, lastDrop := 0
           siteMask := 0, summary := false, lastSummary := some ns }

/-- A drop summary of path 1. -/
theorem exec_dropSummary (due : (s.pathOf 1).summary = true) (on : (s.pathOf 1).ctrl.getLsbD 0 = true)
    (rested : ∀ c, (s.pathOf 1).lastSummary = some c → c + 1000000 ≤ s.ns) :
    ∃ m, exec (.dropSummary 1) s = .next
      (({ s with hub := s.hub.join s.chron.count }.setPath 1 (summarized (s.pathOf 1) s.ns)).emit (.mctp m)) := by
  have rest : (s.pathOf 1).lastSummary.all (fun t => decide (t + 1000000 ≤ s.ns)) = true :=
    (Option.all_eq_true _ _).2 fun c last => decide_eq_true (rested c last)
  exact ⟨_, act_next ⟨due, on, rest, nofun, nofun⟩ _ _⟩

end

end Sys2Proof.Proofs
end

section
/-!
The alarm latch (O49; R12, R524): a clear takes the bits written 1, but for those whose alarm came at the same nanosecond.
-/

namespace Sys2Proof.Proofs

open Sys2Proof.Machine Sys2Proof.Laws

section
variable {s : State} {r : Rec} {b : Nat}

theorem tfind_map_isSome {α β : Type} (f : Nat × α → Nat × β) (same : ∀ e, (f e).1 = e.1) (m : Tbl α) :
    (tfind (m.map f) b).isSome = (tfind m b).isSome := by
  induction m with
  | nil => rfl
  | cons e m ih =>
    rw [List.map_cons, tfind, tfind, same, apply_ite Option.isSome, apply_ite Option.isSome, ih]
    rfl

/-- An alarm latched leaves what is latched. -/
theorem latchPut_stands (h : (tfind s.latch b).isSome = true) (r : Rec) : (tfind (latchPut s r).latch b).isSome = true := by
  by_cases same : b = latchBit r
  · rw [same]
    exact latchPut_latches s r
  · rw [latchPut]
    split
    · exact (congrArg Option.isSome (tfind_tput_ne _ _ same)).trans h
    · refine (congrArg Option.isSome (tfind_tput_ne _ _ same)).trans ((tfind_map_isSome _ (fun e => ?_) _).trans h)
      split <;> rfl

theorem latchPut_frame (s : State) (r : Rec) : { latchPut s r with latch := s.latch } = s := by
  rw [latchPut]
  split <;> rfl

/-- `t` is `s` but for the alarm latch, which holds all it held. -/
structure Latches (s t : State) : Prop where
  frame : { t with latch := s.latch } = s
  stands : ∀ b, (tfind s.latch b).isSome = true → (tfind t.latch b).isSome = true

theorem Latches.refl (s : State) : Latches s s := ⟨rfl, fun _ h => h⟩

theorem Latches.trans {s t u : State} (h : Latches s t) (k : Latches t u) : Latches s u :=
  ⟨(congrArg (fun w : State => { w with latch := s.latch }) k.frame).trans h.frame, fun b l => k.stands b (h.stands b l)⟩

theorem latchPut_only (s : State) (r : Rec) : Latches s (latchPut s r) := ⟨latchPut_frame s r, fun _ h => latchPut_stands h r⟩

theorem latchPuts_latches (s : State) (rs : List Rec) : Latches s (rs.foldl latchPut s) :=
  foldl_of_step .refl .trans latchPut_only rs s

theorem latchPuts_latched {rs : List Rec} (mem : r ∈ rs) (s : State) :
    (tfind (rs.foldl latchPut s).latch (latchBit r)).isSome = true := by
  obtain ⟨before, after, rfl⟩ := List.append_of_mem mem
  rw [List.foldl_append, List.foldl_cons]
  exact (latchPuts_latches _ after).stands _ (latchPut_latches _ r)

section
variable {hit : Nat → Bool}

theorem latchClear_frame (s : State) (hit : Nat → Bool) : { latchClear s hit with latch := s.latch } = s :=
  (congrArg (fun w : State => { w with latch := s.latch }) (latchPuts_latches _ _).frame :)

/-- With no alarm at the same nanosecond the bits hit are gone, and the others stand. -/
theorem latchClear_alone (alone : ∀ r ∈ s.freshNow.alarms, hit (latchBit r) = false) :
    (latchClear s hit).latch = s.latch.filter fun e => !hit e.1 := by
  have none_again : s.freshNow.alarms.filter (fun r => hit (latchBit r)) = [] :=
    List.filter_eq_nil_iff.2 fun r mem => Bool.eq_false_iff.1 (alone r mem)
  rw [latchClear, none_again]
  rfl

theorem latchClear_again (mem : r ∈ s.freshNow.alarms) (again : hit (latchBit r) = true) :
    (tfind (latchClear s hit).latch (latchBit r)).isSome = true :=
  latchPuts_latched (List.mem_filter.2 ⟨mem, again⟩) _

end

theorem latchHit_iff {offset width : Nat} {v : W64} :
    latchHit offset width v b = true ↔ 8 * offset ≤ b ∧ b < 8 * offset + width ∧ v.getLsbD (b - 8 * offset) = true := by
  rw [latchHit, Bool.and_eq_true, decide_eq_true_eq, and_assoc]

theorem latchAccess_iff {offset width : Nat} :
    (width = 32 ∧ offset % 4 = 0 ∧ offset < 32) ∨ (width = 64 ∧ offset % 8 = 0 ∧ offset < 32) ↔
      (width = 32 ∧ offset % 4 = 0 ∨ width = 64 ∧ offset % 8 = 0) ∧ offset < 32 := by
  rw [or_and_right, and_assoc, and_assoc]

end

/-- Settles O49: each path by its command, and the latch by the alarms of the same nanosecond. -/
theorem eventsAndLatch : Obligations.EventsAndLatch := by
  refine ⟨fun s rising => ⟨fun n r es queued room up => ?_, fun pending late up free unmasked => ?_, fun v => ?_,
    fun n r es queued => ?_, fun due on rested => ?_⟩, fun s offset width v => ⟨fun shape inside => ?_, fun outside => ?_⟩⟩
  · obtain ⟨fns, os, pending, put, told, quiet⟩ := ringPut_leaves (s := s.setPath 0 { s.pathOf 0 with queue := es }) up r n
    have enabled : s.evring.enable = true := (Bool.and_eq_true_iff.1 room).1
    refine ⟨_, exec_evringWrite queued room up, ?_⟩
    rw [put]
    refine ⟨congrArg Path.queue (pathOf_setPath _ rising), ?_, ringAdvanced_tail _ s.ns, rfl, enabled, told, quiet, rfl⟩
    exact List.mem_append_left os (List.mem_append_right s.out (List.mem_singleton.2 rfl))
  · exact ⟨_, exec_evringIrqTimeout pending late, ringMsix_sends up free unmasked⟩
  · exact ⟨_, exec_evringCtrlWrite v, rfl, write_starts, fun _ off => write_refused off, write_running⟩
  · exact ⟨_, exec_mctpRecordPush queued, congrArg Path.queue (pathOf_setPath _ rising), rfl, rfl⟩
  · obtain ⟨m, summary⟩ := exec_dropSummary due on rested
    exact ⟨_, m, summary, rfl, pathOf_setPath _ rising, rfl⟩
  · refine ⟨_, if_pos (latchAccess_iff.2 ⟨shape, inside⟩), latchClear_frame _ _, fun alone e => ?_, fun r mem again => ?_⟩
    · rw [latchClear_alone fun r mem => Bool.eq_false_iff.2 fun h => alone r mem (latchHit_iff.1 h), List.mem_filter,
        Bool.not_eq_true', ← Bool.not_eq_true, latchHit_iff]
    · exact latchClear_again mem (latchHit_iff.2 again)
  · exact ⟨s, if_neg fun h => outside (latchAccess_iff.1 h), rfl⟩

end Sys2Proof.Proofs
end

section
/-!
The global stop, scan-out and the replay of a log (O50; R529 to R537, R540, R576, R582): what a stop that has formed holds, the
frames of a scan, and the ACCEPT entry that a replayed session takes.
-/

namespace Sys2Proof.Proofs

open Sys2Proof.Machine Sys2Proof.Laws

section
variable {s : State}

/-! ### The stop -/

/-- A request for a resumable stop: the first sets the stop beat, a later one adds its cause (R531). -/
theorem resumableStop_asks (s : State) (cause : Nat) :
    { resumableStop s cause with stop := s.stop } = s ∧ (resumableStop s cause).stop =
      if s.stop.state = 0
      then { s.stop with state := 1, ending := false, causes := 2 ^ cause, beat := if s.run.isNone then 0 else s.floor1 + 15 }
      else { s.stop with causes := s.stop.causes ||| 2 ^ cause } := by
  rw [resumableStop, requestStop]
  split
  · exact ⟨rfl, rfl⟩
  · exact ⟨rfl, by simp only [Bool.or_false]⟩

/-- The stop held at its beat (R533). -/
def stopHeld (s : State) : State :=
  { s with stop := { s.stop with
    state := 2, since := s.chron.count, sinceNs := s.ns, held := s.holding
    beat := if s.run.isNone then 0 else s.stop.beat } }

/-- The state in which a stop is held: an ending one has read the rows of the commands it leaves (R110). -/
def stopSettled (s : State) : State := if s.stop.ending then settleRest s else s

/-- Forming a stop holds it, and reports it with the step's breach (R111, R533). -/
theorem stopReachedEff_logs (s : State) : Logs (stopHeld (stopSettled s)) (stopReachedEff s) := by
  unfold stopReachedEff
  dsimp only
  split
  · exact (unlogged_trans _ _ _ (raise_unlogged ..)).trans (deliver_unlogged _ _)
  · exact raise_logs ..

theorem stop_of_logs {s t : State} (h : Logs s t) : t.stop = s.stop := eq_of_logs State.stop (fun _ _ => rfl) h

/-! ### Scan-out and the observation port -/

theorem scanData_length (s : State) (l o units : Nat) : (scanData s l o units).length = 16 * units := by
  rw [scanData, List.length_map, List.length_range]

/-- `t` is `s` but for `n` frames sent on the observation port. -/
def Frames (n : Nat) (s t : State) : Prop :=
  { t with out := s.out, free := s.free, trace := { t.trace with frameSeq := s.trace.frameSeq } } = s ∧
    t.trace.frameSeq % 2 ^ 32 = (s.trace.frameSeq + n) % 2 ^ 32

theorem Frames.sendFrame {n : Nat} {t : State} (h : Frames n s t) (count kind : Nat) (b : Bytes) :
    Frames (n + 1) s (sendFrame count kind t b) := by
  obtain ⟨frame, number⟩ := h
  refine ⟨frame, ?_⟩
  show (t.trace.frameSeq + 1) % 2 ^ 32 % 2 ^ 32 = _
  omega

theorem sendFrames_frames (body : Nat → Bytes) (n : Nat) (s : State) :
    Frames n s ((List.range n).foldl (fun s i => sendFrame 0 1 s (body i)) s) := by
  induction n with
  | zero => exact ⟨rfl, rfl⟩
  | succ n ih =>
    rw [List.range_succ, List.foldl_append]
    exact ih.sendFrame 0 1 (body n)

theorem scanFrames_frames (l o units : Nat) (s : State) : Frames ((16 * units + 239) / 240) s (scanFrames l o units s) := by
  have sent := sendFrames_frames (fun i => ((scanData s l o units).drop (240 * i)).take 240)
    (((scanData s l o units).length + 239) / 240) s
  rw [scanData_length] at sent
  rw [scanFrames, scanData_length]
  exact sent

/-! ### Replay -/

theorem capturedBits_length (s : State) (n : Nat) : (capturedBits s n).length = (n + 7) / 8 := by
  rw [capturedBits, List.length_map, List.length_range]

/-- The record of a descriptor that a replayed session accepts from the log. -/
def replayedAcc (s : State) (f q : Nat) (d : Bytes) : Acc :=
  let r := s.sqOf f q
  { fn := f, sq := q, cq := r.cq, desc := d, pasid := pasidOf r.pasidEn r.pasid, windows := 0, sqHead := r.head }

/-- The state after the next ACCEPT entry, a NOP: it has its number, and its completion has its reservation (R540). -/
def replayedNop (s : State) (f q : Nat) (d : Bytes) (x : ReplayRec) : State :=
  { s.setCq f (s.sqOf f q).cq { s.cqOf f (s.sqOf f q).cq with resv := (s.cqOf f (s.sqOf f q).cq).resv + 1 } with
    replay := s.replay.add s.intake.next x
    intake := { s.intake with next := s.intake.next + 1, acc := tput s.intake.next (replayedAcc s f q d) s.intake.acc } }

theorem exec_replayAccept {f : Fn} {q : Fin 16} {d : Bytes} {x : ReplayRec} (replaying : s.replaying = true)
    (up : (s.fnOf f).inReset = false) (runs : s.stop.state ≠ 2) (form : formDetail d = 0) (admitted : admitDetail s f d = 0)
    (nop : fieldAt d 0 1 = 0x30) : exec (.replayAccept f q d x) s = .next (replayedNop s f q d x) := by
  refine (act_next ⟨replaying, up, runs⟩ _ _).trans (congrArg Host.Outcome.next ?_)
  rw [replayAcceptEff]
  simp only [form, admitted, nop, ne_eq, not_true_eq_false, false_and, if_false]
  rfl

/-- A reservation more on a completion ring leaves the submission rings as they are. -/
theorem sqOf_reserved (s : State) (f q k : Nat) (c : Cq) :
    (s.setCq f q { c with resv := c.resv + 1 }).sqOf f k = s.sqOf f k :=
  sqOf_setCq (fun e => Nat.succ_ne_zero _ (congrArg Cq.resv e)) k

end

/-- Settles O50: the stop by its state, the scans and the port by what they send, the replayed entry by its record. -/
theorem stopsScansAndReplay : Obligations.StopsScansAndReplay := by
  refine ⟨fun s => ⟨⟨_, rfl, resumableStop_asks s 3⟩, ⟨_, rfl, resumableStop_asks s 4⟩, fun formed lasting => ?_,
    fun formed ending => ?_, fun held lasting => ?_⟩, fun s => ⟨fun l o n held named => ⟨?_, ?_⟩, fun mode waiting => ?_,
      ⟨_, rfl, rfl, rfl, rfl, rfl⟩, fun bits => ⟨⟨_, rfl, rfl, rfl, rfl⟩,
        ⟨_, _, rfl, rfl, rfl, rfl, rfl, capturedBits_length ..⟩, ⟨_, _, rfl, rfl, rfl, rfl, rfl, capturedBits_length ..⟩⟩⟩,
    fun s f q d x replaying up runs form admitted nop => ?_⟩
  · have settled : stopSettled s = s := if_neg (Bool.eq_false_iff.1 lasting)
    have logs := stopReachedEff_logs s
    rw [settled] at logs
    refine ⟨_, act_next formed _ _, ?_, stop_of_logs logs⟩
    exact (congrArg (fun t : State => { t with stop := s.stop }) logs :)
  · exact ⟨_, act_next formed _ _, congrArg Stop.state (stop_of_logs (stopReachedEff_logs s))⟩
  · exact ⟨_, act_next ⟨held, lasting⟩ _ _, rfl, rfl, rfl, rfl, rfl, rfl, rfl⟩
  · exact ⟨_, act_next ⟨held, named⟩ _ _, rfl, rfl⟩
  · exact ⟨_, act_next ⟨held, named⟩ _ _, scanFrames_frames ..⟩
  · refine ⟨_, act_next ⟨mode, ?_⟩ _ _, rfl, rfl, rfl⟩
    rw [List.isEmpty_eq_false_iff]
    simpa using waiting
  · refine ⟨_, replayedAcc s f q d, exec_replayAccept replaying up runs form admitted nop, tfind_tput .., rfl, rfl, rfl, rfl, rfl,
      ?_, rfl, rfl, rfl, fun p probe => ?_, rfl⟩
    · exact congrArg Sq.head (sqOf_reserved ..)
    · show tfind (Replay.add s.replay s.intake.next x).probes _ = _
      rw [Replay.add, probe]
      exact tfind_tput ..

end Sys2Proof.Proofs
end

section
/-!
Sparse tables in rising order, by what is found in them: their entries are what is found under their keys, also after the removal of
several, and a table changed entry by entry holds changed entries alone.
-/

namespace Sys2Proof.Proofs

open Sys2Proof.Machine Sys2Proof.Laws

section
variable {α : Type} {m : Tbl α} {k : Nat} {v : α}

theorem mem_iff_tfind {lo : Nat} (rising : risingFrom lo m = true) : (k, v) ∈ m ↔ tfind m k = some v := by
  induction m generalizing lo with
  | nil => exact ⟨nofun, nofun⟩
  | cons e m ih =>
    simp only [risingFrom, Bool.and_eq_true, decide_eq_true_eq] at rising
    obtain ⟨first, rest⟩ := rising
    rw [List.mem_cons, ih rest, tfind]
    split
    case isTrue same =>
      have absent : tfind m k = none := tfind_of_rising rest (by omega)
      rw [absent, Option.some.injEq]
      exact ⟨fun h => h.elim (fun here => (congrArg Prod.snd here).symm) nofun, fun here => .inl (by rw [← same, ← here])⟩
    case isFalse other =>
      exact ⟨fun h => h.elim (fun here => absurd (congrArg Prod.fst here).symm other) id, .inr⟩

theorem tdel_absent (absent : tfind m k = none) : tdel k m = m := by
  induction m with
  | nil => rfl
  | cons e m ih =>
    rw [tfind] at absent
    split at absent
    case isTrue same => exact nomatch absent
    case isFalse other => rw [tdel, if_neg other, ih absent]

/-- A table without the entries of a list of keys. -/
def tdelAll (ks : List Nat) (m : Tbl α) : Tbl α := ks.foldl (fun m k => tdel k m) m

theorem rising_tdelAll (ks : List Nat) (rising : risingFrom 0 m = true) : risingFrom 0 (tdelAll ks m) = true :=
  List.foldlRecOn (motive := fun m => risingFrom 0 m = true) ks _ rising fun m h k _ => risingFrom_tdel m k 0 h

theorem tfind_tdelAll (ks : List Nat) (rising : risingFrom 0 m = true) :
    tfind (tdelAll ks m) k = if k ∈ ks then none else tfind m k := by
  induction ks generalizing m with
  | nil => rfl
  | cons j ks ih =>
    refine (ih (risingFrom_tdel m j 0 rising)).trans ?_
    by_cases same : k = j
    · rw [same, tfind_tdel rising, ite_self, if_pos List.mem_cons_self]
    · rw [tfind_tdel_ne m same]
      simp only [List.mem_cons, same, false_or]

theorem mem_tblMap {α : Type} [DecidableEq α] {d : α} {f : α → α} {t : Tbl α} {e : Nat × α} (mem : e ∈ tblMap d f t) :
    ∃ x, e.2 = f x := by
  refine List.foldlRecOn (motive := fun m => ∀ e ∈ m, ∃ x, e.2 = f x) t _ nofun (fun m h x _ e mem => ?_) e mem
  rw [tset] at mem
  split at mem
  · exact h e (mem_tdel m x.1 e mem)
  · exact (mem_tput m x.1 (f x.2) e mem).elim (fun new => ⟨x.2, congrArg Prod.snd new⟩) (h e)

end

end Sys2Proof.Proofs
end

section
/-!
The close of a tenancy (O47; R495, R496): what a list of cancelled descriptors leaves of those accepted.
-/

namespace Sys2Proof.Proofs

open Sys2Proof.Machine Sys2Proof.Laws

section
variable {s t : State} {acc : Nat} {a : Acc}

/-- A completion takes its descriptor off those accepted, whatever becomes of its entry. -/
theorem complete_intake (s : State) (acc status detail : Nat) (r : Results) :
    (complete s acc status detail r).intake = { s.intake with acc := tdel acc s.intake.acc } := by
  cases found : tfind s.intake.acc acc with
  | none =>
    have e : complete s acc status detail r = s := by unfold complete; rw [found]
    rw [e, tdel_absent found]
  | some a =>
    by_cases answerable : Answerable s acc a
    · obtain ⟨fns, os, e, -⟩ := answerable.completed status detail r
      rw [e]
    · obtain ⟨fns, logs⟩ := complete_unanswerable found answerable status detail r
      exact eq_of_logs State.intake (fun _ _ => rfl) logs

/-- `t` is `s` but for what completions and events leave. -/
def Completions (s t : State) : Prop := { t.unlogged s with intake := s.intake, fns := s.fns, out := s.out } = s

theorem Completions.refl (s : State) : Completions s s := rfl

theorem Completions.trans {u : State} (h : Completions s t) (k : Completions t u) : Completions s u := by
  unfold Completions at h k ⊢
  refine Eq.trans ?_ h
  rw [← k]
  dsimp only [State.unlogged]

/-- What completions leave. -/
theorem Completions.eq {α : Type} (f : State → α) (h : Completions s t)
    (own : ∀ t s : State, f { t.unlogged s with intake := s.intake, fns := s.fns, out := s.out } = f t) : f t = f s := by
  rw [← own t s, show { t.unlogged s with intake := s.intake, fns := s.fns, out := s.out } = s from h]

/-- The descriptors of a list completed alike. -/
def completeAll (ks : List Nat) (status detail : Nat) (s : State) : State :=
  ks.foldl (fun s n => complete s n status detail) s

theorem completeAll_completions (ks : List Nat) (status detail : Nat) (s : State) :
    Completions s (completeAll ks status detail s) :=
  foldl_of_step .refl .trans (fun s n => complete_frame s n status detail {}) ks s

theorem completeAll_intake (ks : List Nat) (status detail : Nat) (s : State) :
    (completeAll ks status detail s).intake = { s.intake with acc := tdelAll ks s.intake.acc } := by
  induction ks generalizing s with
  | nil => rfl
  | cons k ks ih => exact (ih _).trans (by rw [complete_intake]; rfl)

/-! ### The parts of a close -/

/-- Dropping steps writes the list of them, what disarming clears, and the sequencers that load patches. -/
theorem dropSteps_writes (s : State) (gone : StepReq → Bool) : ∃ ports links fabric seq, dropSteps s gone =
    { s with steps := s.steps.filter (fun r => !gone r), ports := ports, links := links, fabric := fabric, seq := seq } := by
  rw [dropSteps]
  have loose : ∃ ports links fabric, (if s.steps.any (fun r => gone r && s.fabric.armed == some r.acc)
      then disarm { s with steps := s.steps.filter (fun r => !gone r) } else { s with steps := s.steps.filter (fun r => !gone r) }) =
      { s with steps := s.steps.filter (fun r => !gone r), ports := ports, links := links, fabric := fabric } := by
    split
    · exact disarm_fabric _
    · exact ⟨s.ports, s.links, s.fabric, rfl⟩
  obtain ⟨ports, links, fabric, loose⟩ := loose
  rw [loose]
  split
  · obtain ⟨seq, loaded⟩ := loadPending_seq { s with
      steps := s.steps.filter (fun r => !gone r), ports := ports, links := links, fabric := fabric }
    exact ⟨_, _, _, seq, loaded⟩
  · exact ⟨_, _, _, s.seq, rfl⟩

/-- A tenancy that begins to close (R496). -/
def closing (acc : Nat) (a : Acc) (s : State) : State :=
  { s with
    tenancy := { s.tenancy with phase := 3, closing := some (acc, decide (a.bits 8 4 0 0 = 1)) }
    intake := { s.intake with fetched := none, acc := tput acc { a with begun := true } s.intake.acc } }

/-- A close before it withdraws the package: nothing accepted that had not begun, and no step that had not launched. -/
def closed (acc : Nat) (a : Acc) (s : State) : State :=
  completeAll ((closing acc a s).cancelled acc) 0x13 0x1301 (dropSteps (closing acc a s) fun _ => true)

section
variable (acc : Nat) (a : Acc) (s : State)

/-- What is left of the state a close began in. -/
theorem closed_frame : ∃ ports links fabric seq, Completions
    { closing acc a s with steps := [], ports := ports, links := links, fabric := fabric, seq := seq } (closed acc a s) := by
  obtain ⟨ports, links, fabric, seq, dropped⟩ := dropSteps_writes (closing acc a s) fun _ => true
  refine ⟨ports, links, fabric, seq, ?_⟩
  have none_left : (closing acc a s).steps.filter (fun _ => !true) = [] := List.filter_eq_nil_iff.2 fun _ _ => Bool.false_ne_true
  rw [none_left] at dropped
  rw [closed, dropped]
  exact completeAll_completions ..

theorem closed_intake : (closed acc a s).intake = { s.intake with
    fetched := none
    acc := tdelAll ((closing acc a s).cancelled acc) (tput acc { a with begun := true } s.intake.acc) } := by
  obtain ⟨ports, links, fabric, seq, dropped⟩ := dropSteps_writes (closing acc a s) fun _ => true
  rw [closed, completeAll_intake, dropped]
  rfl

end

/-- With no load and no slot in use, a close is over with the descriptors it cancels. -/
theorem tenancyCloseEff_eq (found : tfind s.intake.acc acc = some a) (loads : s.loads = []) (slots : s.slots = []) :
    tenancyCloseEff acc a s = if (closed acc a s).grid.memberEn then withdrawEff (closed acc a s) else closed acc a s := by
  obtain ⟨ports, links, fabric, seq, frame⟩ := closed_frame acc a s
  have slots' : (closed acc a s).slots = [] := (frame.eq State.slots fun _ _ => rfl).trans slots
  have loads' : (closed acc a s).loads = [] := (frame.eq State.loads fun _ _ => rfl).trans loads
  have idle : dropPlanLoads (closed acc a s) = closed acc a s := by rw [dropPlanLoads, slots']; rfl
  rw [tenancyCloseEff, begin_found found]
  show (let u := dropPlanLoads (closed acc a s)
    let u := u.loads.foldl (fun s l => if l.survives then s else failLoad s l 0x1301) u
    if u.grid.memberEn then withdrawEff u else u) = _
  rw [idle]
  dsimp only
  rw [loads']
  rfl

/-- A flood writes ports alone. -/
theorem flood_ports (s : State) (ps : List Nat) (m : CtrlMsg) : ∃ ports, flood s ps m = { s with ports := ports } :=
  ⟨(flood s ps m).ports, (congrArg (fun t : State => { t with ports := (flood s ps m).ports }) (flood_frame s ps m) :)⟩

/-- A member withdraws, and another package is left as it is (R465). -/
theorem withdrawn_writes (s : State) : ∃ ports grid, (if s.grid.memberEn then withdrawEff s else s) =
    { s with ports := ports, grid := grid } ∧ grid.memberEn = false := by
  split
  case isTrue member =>
    obtain ⟨ports, sent⟩ := flood_ports s (List.range 20) _
    exact ⟨ports, { s.grid with memberEn := false },
      congrArg (fun t : State => { t with grid := { t.grid with memberEn := false } }) sent, rfl⟩
  case isFalse lone => exact ⟨s.ports, s.grid, rfl, Bool.eq_false_iff.2 lone⟩

/-! ### What is left accepted -/

section
variable (rising : risingFrom 0 s.intake.acc = true) (slots : s.slots = [])
include slots

/-- The descriptors a close cancels where no slot unloads: all others that have not begun, or whose step has not launched. -/
theorem mem_cancelled {k : Nat} : k ∈ (closing acc a s).cancelled acc ↔
    ∃ x, (k, x) ∈ (closing acc a s).intake.acc ∧ k ≠ acc ∧ (x.begun = false ∨ ∃ r ∈ s.steps, r.acc = k) := by
  have unloads : (closing acc a s).slots = [] := slots
  have steps : (closing acc a s).steps = s.steps := rfl
  simp only [State.cancelled, unloads, steps, List.filterMap_nil, List.contains_nil, Bool.or_false, List.mem_map, List.mem_filter,
    Bool.and_eq_true, Bool.or_eq_true, bne_iff_ne, Bool.not_eq_true', List.contains_iff_mem, Prod.exists]
  constructor
  · rintro ⟨n, x, ⟨held, other, why⟩, rfl⟩
    exact ⟨x, held, other, why⟩
  · rintro ⟨x, held, other, why⟩
    exact ⟨k, x, ⟨held, other, why⟩, rfl⟩

include rising

/-- Nothing is left accepted that a close cancels. -/
theorem mem_closed {k : Nat} {x : Acc} : (k, x) ∈ (closed acc a s).intake.acc ↔
    (k, x) ∈ (closing acc a s).intake.acc ∧ (k = acc ∨ x.begun = true ∧ ∀ r ∈ s.steps, r.acc ≠ k) := by
  have order : risingFrom 0 (closing acc a s).intake.acc = true := risingFrom_tput _ _ _ _ rising (Nat.zero_le _)
  have left : (closed acc a s).intake.acc = tdelAll ((closing acc a s).cancelled acc) (closing acc a s).intake.acc :=
    congrArg Intake.acc (closed_intake acc a s)
  rw [left, mem_iff_tfind (rising_tdelAll _ order), tfind_tdelAll _ order, mem_iff_tfind order]
  by_cases gone : k ∈ (closing acc a s).cancelled acc
  · rw [if_pos gone]
    obtain ⟨y, held, other, why⟩ := (mem_cancelled slots).1 gone
    refine ⟨nofun, fun ⟨found, stays⟩ => ?_⟩
    obtain rfl : y = x := Option.some.inj (((mem_iff_tfind order).1 held).symm.trans found)
    obtain here | ⟨begun, launched⟩ := stays
    · exact absurd here other
    · obtain idle | ⟨r, mem, step⟩ := why
      · exact nomatch idle.symm.trans begun
      · exact absurd step (launched r mem)
  · rw [if_neg gone]
    refine ⟨fun found => ⟨found, ?_⟩, And.left⟩
    by_cases here : k = acc
    · exact .inl here
    · have stays : ¬ (x.begun = false ∨ ∃ r ∈ s.steps, r.acc = k) :=
        fun why => gone ((mem_cancelled slots).2 ⟨x, (mem_iff_tfind order).2 found, here, why⟩)
      rw [not_or] at stays
      exact .inr ⟨by simpa using stays.1, fun r mem step => stays.2 ⟨r, mem, step⟩⟩

end

/-- What a close leaves (O47; R496). -/
theorem tenancyClose_leaves (served : s.serves acc 0x21 a) (rising : risingFrom 0 s.intake.acc = true) (loads : s.loads = [])
    (slots : s.slots = []) :
    ∃ t, exec (.tenancyClose acc) s = .next t ∧ t.tenancy.phase = 3 ∧
      t.tenancy.closing = some (acc, decide (a.bits 8 4 0 0 = 1)) ∧ t.steps = [] ∧ t.intake.fetched = none ∧
      tfind t.intake.acc acc = some { a with begun := true } ∧ (∀ e ∈ t.intake.acc, e.2.begun = true) ∧
      (∀ e ∈ s.intake.acc, e.2.begun = true → (∀ r ∈ s.steps, r.acc ≠ e.1) → e ∈ t.intake.acc) ∧ t.run = s.run ∧
      (s.grid.memberEn = true → t.grid.memberEn = false) := by
  obtain ⟨found, -, fresh, -⟩ := id served
  have order : risingFrom 0 (closing acc a s).intake.acc = true := risingFrom_tput _ _ _ _ rising (Nat.zero_le _)
  have closer : tfind (closing acc a s).intake.acc acc = some { a with begun := true } := tfind_tput ..
  have own : ∀ x, (acc, x) ∈ (closing acc a s).intake.acc → x = { a with begun := true } := fun x held =>
    Option.some.inj (((mem_iff_tfind order).1 held).symm.trans closer)
  obtain ⟨ports, links, fabric, seq, frame⟩ := closed_frame acc a s
  obtain ⟨ports', grid, out, lone⟩ := withdrawn_writes (closed acc a s)
  have tenancy := frame.eq State.tenancy fun _ _ => rfl
  have intake := closed_intake acc a s
  have order' : risingFrom 0 (closed acc a s).intake.acc = true := by
    rw [intake]
    exact rising_tdelAll _ order
  refine ⟨_, serve_served served _, ?_⟩
  rw [tenancyCloseEff_eq found loads slots, out]
  refine ⟨congrArg Tenancy.phase tenancy, congrArg Tenancy.closing tenancy, frame.eq State.steps fun _ _ => rfl,
    congrArg Intake.fetched intake, ?_, ?_, ?_, frame.eq State.run fun _ _ => rfl, fun _ => lone⟩
  · exact (mem_iff_tfind order').1 ((mem_closed rising slots).2 ⟨(mem_iff_tfind order).2 closer, .inl rfl⟩)
  · rintro ⟨k, x⟩ mem
    obtain ⟨held, rfl | ⟨begun, -⟩⟩ := (mem_closed rising slots).1 mem
    · exact congrArg Acc.begun (own x held)
    · exact begun
  · rintro ⟨k, x⟩ mem begun launched
    have held := (mem_iff_tfind rising).1 mem
    have other : k ≠ acc := by
      rintro rfl
      exact nomatch fresh.symm.trans ((congrArg Acc.begun (Option.some.inj (found.symm.trans held))).trans begun)
    refine (mem_closed rising slots).2 ⟨(mem_iff_tfind order).2 ?_, .inr ⟨begun, launched⟩⟩
    exact (tfind_tput_ne _ _ other).trans held

end
end Sys2Proof.Proofs
end

section
/-!
A tenancy opened and scrubbed, and the owner's claim (O47; R488 to R497, R499, R513, R548).
-/

namespace Sys2Proof.Proofs

open Sys2Proof.Machine Sys2Proof.Laws

section
variable {s t : State} {acc : Nat} {a : Acc} {k g : Bytes}

/-! ### Opening -/

/-- The group block as an open reads it: none where it names no entry. -/
def groupBlock (a : Acc) (g : Bytes) : Bytes := if a.bits 0x28 4 12 0 = 0 then [] else g

theorem openRefusal_groupBlock (s : State) (k g : Bytes) :
    openRefusal s k (groupBlock a g) (a.bits 0x28 4 12 0) = openRefusal s k g (a.bits 0x28 4 12 0) := by
  rw [groupBlock]
  split
  case isTrue empty => simp only [empty, openRefusal, groupEntries, List.range_zero, List.map_nil, List.filter_nil, List.any_nil]
  case isFalse => rfl

theorem exec_tenancyOpen_busy (served : s.serves acc 0x20 a) (busy : s.tenancy.phase ≠ 0) :
    exec (.tenancyOpen acc (.ok k) (.ok g)) s = .next (refuse s acc 0x0741) :=
  (serve_served served _).trans (if_pos busy)

theorem exec_tenancyOpen (served : s.serves acc 0x20 a) (none_open : s.tenancy.phase = 0)
    (passes : openRefusal s k g (a.bits 0x28 4 12 0) = 0) :
    exec (.tenancyOpen acc (.ok k) (.ok g)) s = .next (tenancyOpenEff acc a k (groupBlock a g) s) := by
  refine (serve_served served _).trans ((if_neg (not_not.2 none_open)).trans ?_)
  have block : (if a.bits 0x28 4 12 0 = 0 then HostData.ok [] else .ok g) = .ok (groupBlock a g) :=
    (apply_ite HostData.ok ..).symm
  rw [block]
  exact if_neg (not_not.2 ((openRefusal_groupBlock s k g).trans passes))

/-- The tenancy that an open makes. -/
def openedTenancy (s : State) (a : Acc) (k g : Bytes) : Tenancy :=
  { kind := if a.bits 0x28 4 13 13 = 1 then 2 else 1, phase := 2, opened := satNat 32 (s.tenancy.opened + 1)
    id := slice a.desc 8 16, keys := enrolKeys k, keysDigest := Config.sha384 (padTo 41728 k)
    groups := tblOf ((groupEntries s g (a.bits 0x28 4 12 0)).map fun o => (fieldAt g (o + 0x68C) 4, (groupKey g o).getD [])) }

/-- The state with the tenancy open, before its completion (R493). -/
def opened (s : State) (a : Acc) (k g : Bytes) : State :=
  { s with
    tenancy := openedTenancy s a k g, grid := { s.grid with gseq := 0, aborts := [] }, fabric := { s.fabric with colour := 0 }
    cad := { s.cad with frameOver := true }, replay := { ctrl := s.replay.ctrl, base := s.replay.base }
    domains := tset {} s.domains 0 { state := 1, epoch := 1, key := some s.free }, free := s.free + 1 }

theorem opened_answerable (served : s.serves acc 0x20 a) (k g : Bytes) : Answerable (opened s a k g) acc a := by
  obtain ⟨found, -, -, mute, live, going⟩ := served
  exact ⟨found, mute, live, going⟩

theorem tenancyOpenEff_eq : tenancyOpenEff acc a k g s = complete (opened s a k g) acc 0 0 := rfl

/-- What an open leaves (R493). -/
theorem tenancyOpen_leaves (served : s.serves acc 0x20 a) (rising : risingFrom 0 s.domains = true) (k g : Bytes) :
    let t := tenancyOpenEff acc a k g s
    Completes s t acc a 0 0 {} ∧ t.tenancy = openedTenancy s a k g ∧ t.grid.gseq = 0 ∧
      t.domOf 0 = { state := 1, epoch := 1, key := some s.free } ∧
      { t.uncompleted s with tenancy := s.tenancy, grid := s.grid, fabric := s.fabric, cad := s.cad
                             replay := s.replay, domains := s.domains } = s := by
  obtain ⟨fns, os, done, completes⟩ := (opened_answerable served k g).completed 0 0 {}
  have domain := tget_tset ({} : Domain) s.domains 0 0 { state := 1, epoch := 1, key := some s.free } rising
  dsimp only
  rw [tenancyOpenEff_eq, done]
  exact ⟨completes, rfl, rfl, domain, rfl⟩

/-! ### The scrub -/

/-- `t` is `s` but for the dies, the stacks and what events leave. -/
def Relieved (s t : State) : Prop := { t.unlogged s with aw := s.aw, stack := s.stack } = s

theorem Relieved.refl (s : State) : Relieved s s := rfl

theorem Relieved.trans {u : State} (h : Relieved s t) (k : Relieved t u) : Relieved s u := by
  unfold Relieved at h k ⊢
  refine Eq.trans ?_ h
  rw [← k]
  dsimp only [State.unlogged]

theorem Relieved.eq {α : Type} (f : State → α) (h : Relieved s t)
    (own : ∀ t s : State, f { t.unlogged s with aw := s.aw, stack := s.stack } = f t) : f t = f s := by
  rw [← own t s, show { t.unlogged s with aw := s.aw, stack := s.stack } = s from h]

theorem OnlyDies.relieved (h : OnlyDies s t) : Relieved s t := congrArg (fun w : State => ({ w with stack := s.stack } : State)) h

/-- Setting marked rows aside writes the stack and events (R296). -/
theorem spareRows_relieved (s : State) (st : Nat) : Relieved s (spareRows s st) := by
  rw [spareRows]
  dsimp only
  generalize written : s.setStack st _ = u
  have logs : Logs u ((s.stackOf st).marked.foldl (fun s r => raise s 0x0304 (unitLoc st (r / 2))) u) :=
    foldl_of_step (R := Logs) (fun _ => .refl _) (fun h k => (unlogged_trans _ _ _ k).trans h) (fun s r => raise_logs ..) _ u
  subst written
  exact (congrArg (fun t : State => { t.unlogged s with aw := s.aw, stack := s.stack }) logs :)

/-- What is set aside and released before the scrub destroys (R249, R259, R296). -/
def beforeScrub (s : State) : State := (List.range 4).foldl (fun s d => releaseSets d s) ((List.range 8).foldl spareRows s)

theorem beforeScrub_relieved (s : State) : Relieved s (beforeScrub s) := by
  have spared : Relieved s ((List.range 8).foldl spareRows s) := foldl_of_step .refl .trans spareRows_relieved _ s
  exact spared.trans (releaseAll_onlyDies ((List.range 8).foldl spareRows s)).relieved

theorem exec_tenancyScrub {zero : Bool} (closing : s.tenancy.closing = some (acc, zero)) (idle : s.run = none)
    (first : s.tenancy.scrubbed = false) (over_ : ∀ e ∈ s.intake.acc, e.1 = acc ∨ ∃ l ∈ s.loads, l.acc = e.1) :
    exec .tenancyScrub s = .next (scrubEff zero s) := by
  have done : s.intake.acc.all (fun e => e.1 == acc || s.loads.any (fun l => l.acc == e.1)) = true := by
    simpa only [List.all_eq_true, Bool.or_eq_true, beq_iff_eq, List.any_eq_true] using over_
  show execTenancyScrub s = _
  rw [execTenancyScrub, closing]
  exact if_pos ⟨by rw [idle]; rfl, first, done⟩

/-- What the scrub leaves of the stores (R497). -/
theorem scrubEff_stores (zero : Bool) (s : State) :
    let t := scrubEff zero s
    (∀ e ∈ t.mv, e.2.scratch = [] ∧ e.2.writes = [] ∧ e.2.fill = none) ∧
      (∀ e ∈ t.stack, e.2.units = [] ∧ e.2.used = []) ∧ (∀ e ∈ t.links, e.2.buf = [] ∧ e.2.fill = none) ∧
      ∀ l ∈ t.loads, l.key = [] := by
  rw [scrubEff, ← beforeScrub]
  generalize beforeScrub s = b
  refine ⟨fun e mem => ?_, fun e mem => ?_, fun e mem => ?_, fun l mem => ?_⟩
  · obtain ⟨m, scrubbed⟩ := mem_tblMap (d := ({} : Mvmt)) (f := Mvmt.scrub) (t := b.mv) mem
    rw [scrubbed]
    exact ⟨rfl, rfl, rfl⟩
  · obtain ⟨m, scrubbed⟩ := mem_tblMap (d := ({} : StackSt)) (f := fun k => k.scrub zero) (t := b.stack) mem
    rw [scrubbed]
    exact ⟨rfl, rfl⟩
  · obtain ⟨m, scrubbed⟩ := mem_tblMap (d := ({} : LinkDie)) (f := LinkDie.scrub) (t := b.links) mem
    rw [scrubbed]
    exact ⟨rfl, rfl⟩
  · obtain ⟨m, -, rfl⟩ := List.mem_map.1 mem
    rfl

/-- What the scrub keeps. -/
theorem scrubEff_leaves (zero : Bool) (s : State) :
    let t := scrubEff zero s
    t.fuses = s.fuses ∧ t.power = s.power ∧ t.chron = s.chron ∧ t.tables = s.tables ∧ t.intake = s.intake := by
  have relieved := beforeScrub_relieved s
  rw [scrubEff, ← beforeScrub]
  generalize beforeScrub s = b at relieved ⊢
  have fuses := relieved.eq State.fuses fun _ _ => rfl
  have power := relieved.eq State.power fun _ _ => rfl
  have chron := relieved.eq State.chron fun _ _ => rfl
  have tables := relieved.eq State.tables fun _ _ => rfl
  have intake := relieved.eq State.intake fun _ _ => rfl
  exact ⟨fuses, power, chron, tables, intake⟩

/-! ### The end of a tenancy -/

/-- The state with no tenancy, before the completion of its close. -/
def noTenancy (s : State) : State :=
  { s with
    tenancy := { s.tenancy with kind := 0, phase := 0, id := [], closing := none, scrubbed := false }
    stop := { s.stop with scanPermit := false }, cad := { s.cad with frameOver := true } }

theorem exec_tenancyCloseDone {zero : Bool} (closing : s.tenancy.closing = some (acc, zero)) (scrubbed : s.tenancy.scrubbed = true) :
    exec .tenancyCloseDone s = .next (complete (noTenancy s) acc 0 0) := by
  show execTenancyCloseDone s = _
  rw [execTenancyCloseDone, closing]
  exact if_pos scrubbed

/-! ### The owner -/

theorem claimOk_refused {digest sig : Bytes} (h : s.tenancy.phase ≠ 0 ∨ 4 ≤ s.fuses.claims) : claimOk s digest sig = false := by
  have short : (s.tenancy.phase == 0 && decide (s.fuses.claims < 4)) = false := by
    rw [Bool.and_eq_false_iff, beq_eq_false_iff_ne, decide_eq_false_iff_not]
    exact h.imp id Nat.not_lt.2
  rw [claimOk, short, Bool.false_and]

/-- The state whose reset a claim of ownership starts (R513). -/
def ownerClaimed (s : State) (digest : Bytes) (x : TableSet) : State :=
  { writeCopy x s with fuses := { s.fuses with ownerDigest := some digest, claims := s.fuses.claims + 1 } }

theorem writeCopy_boot (x : TableSet) (s : State) : (writeCopy x s).boot =
    if s.power.copy = 0 then { s.boot with copyB := some x } else { s.boot with copyA := some x } := rfl

end

/-- Settles O47: a tenancy by the state each command leaves, the claim by the reset it starts. -/
theorem tenanciesAndOwnership : Obligations.TenanciesAndOwnership := by
  refine ⟨fun s => ⟨fun acc a k g served => ⟨fun busy => ?_, fun none_open passes rising => ?_⟩,
      fun acc a served rising loads slots => tenancyClose_leaves served rising loads slots,
      fun acc zero closing => ⟨fun idle first ended => ?_, fun a scrubbed found mute live going => ?_⟩⟩,
    fun s x => ⟨⟨_, rfl, rfl, rfl⟩, fun digest sig => ⟨fun ok up => ?_, fun refused => ⟨s, ?_, rfl⟩⟩⟩⟩
  · exact refuses_of_exec (detail := 0x0741) served (exec_tenancyOpen_busy served busy)
  · obtain ⟨completes, tenancy, gseq, domain, frame⟩ := tenancyOpen_leaves served rising k (groupBlock a g)
    refine ⟨_, exec_tenancyOpen served none_open passes, completes, ?_, ?_, ?_, ?_, ?_, ?_, gseq, domain, frame⟩
    all_goals rw [tenancy]; rfl
  · obtain ⟨moves, dram, links, keys⟩ := scrubEff_stores zero s
    exact ⟨_, exec_tenancyScrub closing idle first ended, rfl, rfl, rfl, rfl, rfl, rfl, rfl, rfl, rfl, rfl, rfl, rfl, rfl,
      moves, dram, links, keys, scrubEff_leaves zero s⟩
  · obtain ⟨fns, os, done, completes⟩ := Answerable.completed (s := noTenancy s) (acc := acc) (a := a)
      ⟨found, mute, live, going⟩ 0 0 {}
    refine ⟨_, exec_tenancyCloseDone closing scrubbed, ?_⟩
    rw [done]
    exact ⟨completes, rfl, rfl, rfl, rfl, rfl⟩
  · have reset := deviceReset_clears (s := ownerClaimed s digest x) up 3
    obtain ⟨stage, last, -, -, -, count, fuses, run, -, tenancy, -, -, -, -, -, -, -, -, -, -, copyA, copyB, -⟩ := reset
    refine ⟨_, if_pos ok, fuses, stage, last, run, congrArg Tenancy.phase tenancy, fun first => ?_, count⟩
    have boot : (ownerClaimed s digest x).boot = { s.boot with copyB := some x } := (writeCopy_boot x s).trans (if_pos first)
    exact ⟨copyB.trans (congrArg Boot.copyB boot), copyA.trans (congrArg Boot.copyA boot :)⟩
  · exact if_neg (Bool.eq_false_iff.1 (claimOk_refused refused))

end Sys2Proof.Proofs
end

section
/-!
Host reads and writes of a step (O26; R338, R353 to R355, R387): a read's rows as the host delivers them, with the first that failed
noted, and a write's rows as DMA writes in order.
-/

namespace Sys2Proof.Proofs

open Sys2Proof.Machine Sys2Proof.Laws

/-! ### Lists with their places -/

section
variable {α β : Type}

theorem fst_lt_of_mem_indexed {l : List α} {e : Nat × α} (mem : e ∈ indexed l) : e.1 < l.length :=
  List.mem_range.1 (List.of_mem_zip (show (e.1, e.2) ∈ (List.range l.length).zip l from mem)).1

theorem snd_mem_of_mem_indexed {l : List α} {e : Nat × α} (mem : e ∈ indexed l) : e.2 ∈ l :=
  (List.of_mem_zip (show (e.1, e.2) ∈ (List.range l.length).zip l from mem)).2

theorem indexed_map_snd (l : List α) : (indexed l).map Prod.snd = l :=
  List.map_snd_zip (List.length_range ▸ le_rfl)

theorem indexed_map_range (f : Nat → α) (n : Nat) : indexed ((List.range n).map f) = (List.range n).map fun j => (j, f j) := by
  have zipped := List.zip_map' (f := id) (g := f) (l := List.range n)
  rw [List.map_id] at zipped
  rw [indexed, List.length_map, List.length_range]
  exact zipped

theorem zip_indexed_map (l : List α) (f : Nat × α → β) :
    ((indexed l).map f).zip l = (indexed l).map fun e => (f e, e.2) := by
  have listed : ((indexed l).map f).zip l = ((indexed l).map f).zip ((indexed l).map Prod.snd) := by rw [indexed_map_snd]
  rw [listed]
  exact List.zip_map'

/-- The first place of a range with an answer. -/
theorem findSome_range_first {g : Nat → Option α} {j n : Nat} {y : α} (inside : j < n) (here : g j = some y)
    (before : ∀ i, i < j → g i = none) : (List.range n).findSome? g = some y := by
  have none_before : (List.range j).findSome? g = none :=
    List.findSome?_eq_none_iff.2 fun i mem => before i (List.mem_range.1 mem)
  induction n with
  | zero => exact absurd inside (Nat.not_lt_zero j)
  | succ n ih =>
    rw [List.range_succ, List.findSome?_append]
    obtain below | rfl := Nat.lt_succ_iff_lt_or_eq.1 inside
    · rw [ih below]; rfl
    · rw [none_before, List.findSome?_singleton, here]; rfl

end

/-! ### HREAD -/

section
variable {s : State} {queue : Fin 4} {i n : Nat} {c : Cmd} {r : Run} {data : List HostData}

/-- Command `c` of a queue of the H movement is done with its rows. -/
def hostDone (s : State) (queue i : Nat) (c : Cmd) (rows : List Bytes) : State :=
  s.setQ (qKey s.hMove queue) (finished (s.qOf (qKey s.hMove queue)) i c rows 0)

theorem exec_hostReadCompletion {v : VMove} {buf : BitVec 6} {m : BitVec 12} {off : W32} {k : Fin 4}
    (oldest : (s.qOf (qKey s.hMove queue)).oldest = some (i, c)) (op : c.op = .hread v buf m off k) :
    exec (.hostReadCompletion queue data) s =
      .next (hreadEff s.hMove queue i c buf.toNat off.toNat (m.toNat + 1) data s) := by
  show execHostReadCompletion queue data s = _
  simp only [execHostReadCompletion, oldest, op]

theorem hreadEff_discarded {buf off : Nat} (discarded : s.discarded = true) (rising : risingFrom 0 s.queue = true)
    (held : (s.qOf (qKey s.hMove queue)).cmds[i]? = some c) :
    hreadEff s.hMove queue i c buf off n data s = hostDone s queue i c (List.replicate n (zeros 256)) :=
  (if_pos discarded).trans (finishCmd_finished rising held _ 0)

/-- With every row in the buffer nothing is out of range. -/
theorem hostRows_inside {rows : List (Option W64)} (inside : ∀ x ∈ rows, x.isSome = true) : hostRows s c rows = s := by
  have found : (indexed rows).find? (fun e => e.2.isNone) = none := by
    refine List.find?_eq_none.2 fun e mem => ?_
    rw [Option.isNone_iff_eq_none, ← ne_eq, ← Option.isSome_iff_ne_none]
    exact inside e.2 (snd_mem_of_mem_indexed mem)
  rw [hostRows, found]

/-- The rows of a read in its buffer. -/
def readPlaces (s : State) (buf off n : Nat) : List (Option W64) := (List.range n).map fun k => s.bufRow buf (off + k) false

/-- The run with the step's host error noted. -/
def faultNoted (s : State) (c : Cmd) (x : Nat × W64) (r : Run) : Run :=
  { r with hostErr := r.hostErr.or (some { detail := x.1, addr := x.2, opAddr := c.opAddr, stamp := s.chron.count }) }

theorem hreadEff_inside {buf off : Nat} (going : s.discarded = false) (quiet : s.replay.ctrl = 0)
    (inside : ∀ x ∈ readPlaces s buf off n, x.isSome = true) :
    hreadEff s.hMove queue i c buf off n data s =
      finishCmd (noteHostErr s c (hreadFault (readPlaces s buf off n) data)) (qKey s.hMove queue) i
        (hreadRows (readPlaces s buf off n) data) := by
  have unlogged : s.replay.data = false := by rw [Replay.data, quiet]; rfl
  have whole : hostRows s c (readPlaces s buf off n) = s := hostRows_inside inside
  rw [hreadEff, if_neg (Bool.eq_false_iff.1 going), ← readPlaces]
  simp only [whole, unlogged, Bool.and_false, Bool.false_eq_true, if_false]
  have same : (noteHostErr s c (hreadFault (readPlaces s buf off n) data)).replay.data = false := by
    cases hreadFault (readPlaces s buf off n) data with
    | none => exact unlogged
    | some x => exact unlogged
  rw [same]
  rfl

/-- The rows that an HREAD within its buffer delivers. -/
theorem hreadRows_inside {buf off : Nat} (inside : ∀ j, j < n → (s.bufRow buf (off + j) false).isSome = true) :
    hreadRows (readPlaces s buf off n) data = (List.range n).map fun j => hostRow (data.getD j .timeout) := by
  rw [hreadRows, readPlaces, indexed_map_range, List.map_map]
  refine List.map_congr_left fun j mem => ?_
  exact if_pos (inside j (List.mem_range.1 mem))

/-- Whether row `j` of an HREAD failed, and where it lies. -/
def rowFault (s : State) (buf off : Nat) (data : List HostData) (j : Nat) : Option (Nat × W64) :=
  (s.bufRow buf (off + j) false).bind fun a =>
    if hostDetail (data.getD j .timeout) = 0 then none else some (hostDetail (data.getD j .timeout), a)

theorem hreadFault_eq (buf off : Nat) :
    hreadFault (readPlaces s buf off n) data = (List.range n).findSome? (rowFault s buf off data) := by
  rw [hreadFault, readPlaces, indexed_map_range, List.findSome?_map]
  rfl

theorem rowFault_sound {buf off j : Nat} (sound : hostDetail (data.getD j .timeout) = 0) : rowFault s buf off data j = none := by
  rw [rowFault, sound]
  cases s.bufRow buf (off + j) false with
  | none => rfl
  | some a => rfl

theorem rowFault_failed {buf off j : Nat} {a : W64} (place : s.bufRow buf (off + j) false = some a)
    (failed : hostDetail (data.getD j .timeout) ≠ 0) :
    rowFault s buf off data j = some (hostDetail (data.getD j .timeout), a) := by
  rw [rowFault, place]
  exact if_neg failed

/-- What is noted of a fault writes the step's host error alone. -/
theorem noteHostErr_writes (running : s.run = some r) (c : Cmd) (x : Option (Nat × W64)) :
    ∃ r', noteHostErr s c x = { s with run := some r' } ∧ { r' with hostErr := r.hostErr } = r ∧
      (x = none → r' = r) ∧ ∀ y, x = some y → r' = faultNoted s c y r := by
  cases x with
  | none => exact ⟨r, by rw [noteHostErr, ← running], rfl, fun _ => rfl, nofun⟩
  | some y =>
    refine ⟨faultNoted s c y r, ?_, rfl, nofun, fun _ same => Option.some.inj same ▸ rfl⟩
    rw [noteHostErr, State.onRun, running]
    rfl

/-! ### HWRITE -/

theorem exec_hwriteRetire {v : VMove} {src : AddrOp} {buf : BitVec 6} {m : BitVec 12} {off : W32} {k : Fin 4}
    (oldest : (s.qOf (qKey s.hMove queue)).oldest = some (i, c)) (op : c.op = .hwrite v src buf m off k) :
    exec (.hwriteRetire queue) s = .next (hwriteEff s.hMove queue i c buf.toNat off.toNat s) := by
  show execHwriteRetire queue s = _
  simp only [execHwriteRetire, oldest, op]

theorem hwriteEff_discarded {buf off : Nat} (discarded : s.discarded = true) (rising : risingFrom 0 s.queue = true)
    (held : (s.qOf (qKey s.hMove queue)).cmds[i]? = some c) :
    hwriteEff s.hMove queue i c buf off s = hostDone s queue i c [] :=
  (if_pos discarded).trans (finishCmd_finished rising held _ 0)

/-- A row of an HWRITE sent, where it lies in the buffer. -/
def sendRow (f : Nat) (pasid : Option Nat) (relaxed : Bool) (s : State) (x : Option W64 × Bytes) : State :=
  match x.1 with
  | some a => hostWrite s f pasid a x.2 relaxed
  | none => s

theorem sendRows_out {f : Nat} (up : (s.fnOf f).inReset = false) (pasid : Option Nat) (relaxed : Bool) (at_ : Nat → W64)
    (es : List (Nat × Bytes)) : (es.map fun e => (some (at_ e.1), e.2)).foldl (sendRow f pasid relaxed) s =
      { s with out := s.out ++ es.map fun e => Out.dma f pasid (at_ e.1) e.2 relaxed } := by
  induction es generalizing s with
  | nil => rw [List.map_nil, List.map_nil, List.append_nil]; rfl
  | cons e es ih =>
    have sent : sendRow f pasid relaxed s (some (at_ e.1), e.2) = s.emit (.dma f pasid (at_ e.1) e.2 relaxed) :=
      if_neg (Bool.eq_false_iff.1 up)
    rw [List.map_cons, List.foldl_cons, sent, ih (s := s.emit _) up, List.map_cons, State.emit, List.append_assoc]
    rfl

/-- The rows of an HWRITE and where they lie. -/
def writePlaces (s : State) (c : Cmd) (buf off : Nat) : List (Option W64) :=
  (indexed c.data).map fun e => s.bufRow buf (off + e.1) true

theorem hwriteEff_inside {buf off : Nat} {at_ : Nat → W64} (running : s.run = some r) (going : s.discarded = false)
    (inside : ∀ j, j < c.data.length → s.bufRow buf (off + j) true = some (at_ j)) (up : (s.fnOf r.req.fn).inReset = false) :
    hwriteEff s.hMove queue i c buf off s = finishCmd { s with
      out := s.out ++ (indexed c.data).map fun e =>
        Out.dma r.req.fn r.req.pasid (at_ e.1) e.2 (s.fnOf r.req.fn).relaxed } (qKey s.hMove queue) i [] := by
  have places : writePlaces s c buf off = (indexed c.data).map fun e => some (at_ e.1) :=
    List.map_congr_left fun e mem => inside e.1 (fst_lt_of_mem_indexed mem)
  have whole : hostRows s c (writePlaces s c buf off) = s := by
    refine hostRows_inside fun x mem => ?_
    rw [places] at mem
    obtain ⟨e, -, rfl⟩ := List.mem_map.1 mem
    rfl
  have zipped : (writePlaces s c buf off).zip c.data = (indexed c.data).map fun e => (some (at_ e.1), e.2) := by
    rw [places]
    exact zip_indexed_map c.data fun e => some (at_ e.1)
  rw [hwriteEff, if_neg (Bool.eq_false_iff.1 going), ← writePlaces]
  simp only [whole, zipped]
  split
  next r' same =>
    obtain rfl : r = r' := Option.some.inj (running.symm.trans same)
    exact congrArg (finishCmd · (qKey s.hMove queue) i [])
      (sendRows_out up r.req.pasid (s.fnOf r.req.fn).relaxed at_ (indexed c.data))
  next absent => exact nomatch running.symm.trans absent

end

/-- Settles O26: a read by the rows it delivers and the first that failed, a write by the rows it sends. -/
theorem hostTransfersComplete : Obligations.HostTransfersComplete := by
  intro s queue i c r running rising quiet oldest held
  refine ⟨fun v buf n off k' data op => ⟨fun inside going => ?_, fun discarded => ?_⟩,
    fun v src buf n off k' at_ op going inside up => ?_, fun v src buf n off k' op discarded => ?_⟩
  · have within : ∀ j, j < n.toNat + 1 → (s.bufRow buf.toNat (off.toNat + j) false).isSome = true :=
      fun j lt => inside j (Nat.lt_succ_iff.1 lt)
    have placed : ∀ x ∈ readPlaces s buf.toNat off.toNat (n.toNat + 1), x.isSome = true := by
      intro x mem
      obtain ⟨j, lt, rfl⟩ := List.mem_map.1 mem
      exact within j (List.mem_range.1 lt)
    obtain ⟨r', noted, only, sound, failed⟩ := noteHostErr_writes running c
      (hreadFault (readPlaces s buf.toNat off.toNat (n.toNat + 1)) data)
    have finish := finishCmd_finished (s := { s with run := some r' }) rising held
      (hreadRows (readPlaces s buf.toNat off.toNat (n.toNat + 1)) data) 0
    refine ⟨_, r', (exec_hostReadCompletion oldest op).trans (congrArg _ (hreadEff_inside going quiet placed)), ?_⟩
    rw [noted, finish, hreadRows_inside within]
    refine ⟨rfl, ?_, rfl, only, fun ok => ?_, fun j le bad first none_yet => ?_⟩
    · refine (congrArg (fun rows => (hostDone s queue i c rows).queue) (List.map_congr_left fun j _ => ?_)).trans rfl
      rfl
    · have clean : hreadFault (readPlaces s buf.toNat off.toNat (n.toNat + 1)) data = none := by
        rw [hreadFault_eq]
        refine List.findSome?_eq_none_iff.2 fun j mem => rowFault_sound ?_
        obtain ⟨b, here⟩ := ok j (Nat.lt_succ_iff.1 (List.mem_range.1 mem))
        exact congrArg hostDetail here
      rw [sound clean]
      exact running.symm
    · obtain ⟨a, place⟩ := Option.isSome_iff_exists.1 (inside j le)
      have found := findSome_range_first (Nat.lt_succ_iff.2 le) (rowFault_failed place bad)
        fun i lt => rowFault_sound (s := s) (buf := buf.toNat) (off := off.toNat) (first i lt)
      rw [failed _ ((hreadFault_eq ..).trans found), faultNoted, none_yet]
      exact ⟨_, rfl, rfl, rfl, place⟩
  · exact ⟨_, (exec_hostReadCompletion oldest op).trans (congrArg _ (hreadEff_discarded discarded rising held)), rfl, rfl⟩
  · have finish := finishCmd_finished (s := { s with
      out := s.out ++ (indexed c.data).map fun e =>
        Out.dma r.req.fn r.req.pasid (at_ e.1) e.2 (s.fnOf r.req.fn).relaxed }) rising held [] 0
    refine ⟨_, (exec_hwriteRetire oldest op).trans (congrArg _ (hwriteEff_inside running going inside up)), ?_⟩
    rw [finish]
    exact ⟨rfl, rfl, rfl⟩
  · exact ⟨_, (exec_hwriteRetire oldest op).trans (congrArg _ (hwriteEff_discarded discarded rising held)), rfl, rfl⟩

end Sys2Proof.Proofs
end

section
/-!
A slot of a link port (O33; R395, R402, R406, R409, R410, R414): what the slot sends, and what it makes of its port.
-/

namespace Sys2Proof.Proofs

open Sys2Proof.Machine Sys2Proof.Laws

variable {s t : State} {p : Nat} {y : PortSt} {os : List Out}

/-- `t` is `s` but for port `p`, which is `y`, and for what was sent since. -/
structure Sent (s : State) (p : Nat) (y : PortSt) (os : List Out) (t : State) : Prop where
  frame : { t with ports := s.ports, out := s.out } = s
  out : t.out = s.out ++ os
  others : ∀ q, q ≠ p → t.portOf q = s.portOf q
  port : t.portOf p = y
  rising : risingFrom 0 t.ports = true

theorem Sent.refl (rising : risingFrom 0 s.ports = true) : Sent s p (s.portOf p) [] s :=
  ⟨rfl, (List.append_nil _).symm, fun _ _ => rfl, rfl, rising⟩

theorem Sent.setPort (h : Sent s p y os t) (z : PortSt) : Sent s p z os (t.setPort p z) where
  frame := h.frame
  out := h.out
  others q other := (portOf_setPort_ne t z other).trans (h.others q other)
  port := portOf_setPort h.rising p z
  rising := risingFrom_tset _ _ _ h.rising

theorem Sent.emit (h : Sent s p y os t) (o : Out) : Sent s p y (os ++ [o]) (t.emit o) where
  frame := h.frame
  out := by rw [← List.append_assoc, ← h.out]; rfl
  others := h.others
  port := h.port
  rising := h.rising

theorem Sent.ns (h : Sent s p y os t) : t.ns = s.ns := (congrArg State.ns h.frame :)
theorem Sent.fabric (h : Sent s p y os t) : t.fabric = s.fabric := (congrArg State.fabric h.frame :)
theorem Sent.links (h : Sent s p y os t) : t.links = s.links := (congrArg State.links h.frame :)
theorem Sent.grid (h : Sent s p y os t) : t.grid = s.grid := (congrArg State.grid h.frame :)

theorem Sent.countPort (h : Sent s p y os t) (f : PortCounters → PortCounters) :
    Sent s p { y with counters := f y.counters } os (countPort t p f) := by
  rw [← h.port]
  exact h.setPort _

/-! ### The control unit (R406) -/

/-- The control unit a slot sends of the messages that wait, or of none. -/
def slotUnit (p : Nat) : List CtrlMsg → Out
  | m :: _ => .ctrl p m.w0 m.w1 m.w2
  | [] => .ctrl p 0 0 0

/-- At most one message waits, and it is one whose unit is sent as it stands. -/
def PlainCtrl (ms : List CtrlMsg) : Prop := ms = [] ∨ ∃ m, ms = [m] ∧ 8 ≤ m.rank

theorem stampUnit_plain (t : State) (p : Nat) {m : CtrlMsg} (plain : 8 ≤ m.rank) : stampUnit t p m = (t, m) := by
  have request : m.rank ≠ rankTimeReq := by unfold rankTimeReq; omega
  have response : m.rank ≠ rankTimeRsp := by unfold rankTimeRsp; omega
  exact (if_neg request).trans (if_neg response)

theorem sendCtrl_fill (settled : (t.portOf p).switching = none) (nothing : (t.portOf p).ctrl = []) :
    sendCtrl t p = t.emit (.ctrl p 0 0 0) := by
  simp only [sendCtrl, settled, nothing]
  rfl

theorem sendCtrl_plain {m : CtrlMsg} (settled : (t.portOf p).switching = none) (one : (t.portOf p).ctrl = [m])
    (plain : 8 ≤ m.rank) :
    sendCtrl t p = (t.setPort p { t.portOf p with ctrl := [] }).emit (.ctrl p m.w0 m.w1 m.w2) := by
  have first : firstCtrl [m] = some (0, m) := rfl
  have other : m.rank ≠ rankRetrain := by unfold rankRetrain; omega
  simp only [sendCtrl, settled, one, first, List.eraseIdx_cons_zero, stampUnit_plain _ p plain, other, false_and, if_false]

theorem Sent.sendCtrl (h : Sent s p y os t) (settled : y.switching = none) (plain : PlainCtrl y.ctrl) :
    Sent s p { y with ctrl := [] } (os ++ [slotUnit p y.ctrl]) (sendCtrl t p) := by
  have port := h.port
  obtain nothing | ⟨m, one, rank⟩ := plain
  · have same : { y with ctrl := [] } = y := by rw [← nothing]
    rw [sendCtrl_fill (port ▸ settled) (port ▸ nothing), same, nothing]
    exact h.emit _
  · rw [sendCtrl_plain (port ▸ settled) (port ▸ one) rank, port, one]
    exact (h.setPort _).emit _

/-! ### The packet (R399, R402, R409, R410) -/

theorem Sent.slotFlow (h : Sent s p y os t) (cabled : y.miscabled = (s.portOf p).miscabled)
    (slot : y.slot = (s.portOf p).slot) : t.slotFlow p = s.slotFlow p := by
  simp only [State.slotFlow, State.linkOf, h.fabric, h.links, h.port, cabled, slot]

theorem Sent.sendPacket_idle (h : Sent s p y os t) (fresh : y.replaying = none) (loose : t.slotFlow p = none)
    (displaced : y.displaced = []) (idle : y.nextPair = none) : Sent s p y os (sendPacket t p) := by
  have nothing : sendPacket t p = t := by
    simp only [sendPacket, h.port, fresh, loose, sendLooseSlot, displaced, idle]
  exact nothing.symm ▸ h

/-- The port after held packet `i` was sent again. -/
def resent (y : PortSt) (i : Nat) (e : Held) (now : Nat) : PortSt :=
  { y with
    replay := y.replay.set i { e with sent := now, paid := true }
    replaying := if i + 1 < y.replay.length then some (i + 1) else none
    credits := if e.pkt.cls = 0 ∨ e.paid then y.credits
      else tset 0 y.credits (pairOf e.pkt.cls e.pkt.vc) (tget 0 y.credits (pairOf e.pkt.cls e.pkt.vc) - 1)
    counters := { y.counters with sent := sat48 y.counters.sent, replayed := sat48 y.counters.replayed } }

theorem Sent.sendPacket_held (h : Sent s p y os t) {i : Nat} {e : Held} (replaying : y.replaying = some i)
    (held : y.replay[i]? = some e) :
    Sent s p (resent y i e s.ns) (os ++ [.packet p (e.pkt.bytes e.seq 0)]) (sendPacket t p) := by
  have packet : sendPacket t p = sendHeld t p i := by simp only [sendPacket, h.port, replaying]
  rw [packet, sendHeld, h.port]
  simp only [held]
  rw [h.ns]
  exact ((h.setPort { resent y i e s.ns with counters := y.counters }).emit (.packet p (e.pkt.bytes e.seq 0))).countPort
    fun c => { c with sent := sat48 c.sent, replayed := sat48 c.replayed }

/-- The port after loose packet `k` of pair `i` was sent, the packets `ks` of the pair behind it (R399, R410). -/
def sentLoose (y : PortSt) (i : Nat) (k : Packet) (ks : List Packet) (now : Nat) : PortSt :=
  { y with
    loose := tset [] y.loose i ks, lastPair := i, txSeq := (y.txSeq + 1) % 65536
    replay := y.replay ++ [{ seq := y.txSeq, pkt := k, sent := now, paid := true }]
    credits := tset 0 y.credits i (tget 0 y.credits i - 1)
    counters := { y.counters with sent := sat48 y.counters.sent } }

theorem Sent.sendNew_loose (h : Sent s p y os t) {i : Nat} {k : Packet} {ks : List Packet} (cls : k.cls ≠ 0)
    (pair : pairOf k.cls k.vc = i) (own : k.from_ = none) (sound : tfind s.grid.poison p = none) (short : y.txSeq < 65536) :
    Sent s p (sentLoose y i k ks s.ns) (os ++ [.packet p (k.bytes y.txSeq 0)])
      (sendNew (t.setPort p { y with loose := tset [] y.loose i ks, lastPair := i }) p k) := by
  have taken := h.setPort { y with loose := tset [] y.loose i ks, lastPair := i }
  have clean : takePoison (t.setPort p { y with loose := tset [] y.loose i ks, lastPair := i }) p =
      (t.setPort p { y with loose := tset [] y.loose i ks, lastPair := i }, 0) := by
    simp only [takePoison, taken.grid, sound]
  have seq : ((y.txSeq + 1) % 65536 + 65535) % 65536 = y.txSeq := by omega
  have unowned : { k with from_ := none } = k := by rw [← own]
  generalize t.setPort p { y with loose := tset [] y.loose i ks, lastPair := i } = u at taken clean
  rw [sendNew, clean]
  dsimp only
  rw [taken.port, taken.ns, pair, if_neg cls, seq, unowned, own]
  have left := ((taken.setPort { sentLoose y i k ks s.ns with counters := y.counters }).emit
    (.packet p (k.bytes y.txSeq 0))).countPort fun c => { c with sent := sat48 c.sent }
  rw [noteClose, if_neg fun both => cls both.1]
  exact left

theorem Sent.sendPacket_loose (h : Sent s p y os t) {i : Nat} {k : Packet} {ks : List Packet} (fresh : y.replaying = none)
    (loose : t.slotFlow p = none) (displaced : y.displaced = []) (turn : y.nextPair = some i)
    (waits : tget [] y.loose i = k :: ks) (cls : k.cls ≠ 0) (pair : pairOf k.cls k.vc = i) (own : k.from_ = none)
    (room : y.hasRoom k = true) (sound : tfind s.grid.poison p = none) (short : y.txSeq < 65536) :
    Sent s p (sentLoose y i k ks s.ns) (os ++ [.packet p (k.bytes y.txSeq 0)]) (sendPacket t p) := by
  have packet : sendPacket t p = sendNew (t.setPort p { y with loose := tset [] y.loose i ks, lastPair := i }) p k := by
    simp only [sendPacket, h.port, fresh, loose, sendLooseSlot, displaced, turn, waits, room, if_true]
  exact packet ▸ h.sendNew_loose cls pair own sound short

/-! ### The slot -/

theorem sendTelemetry_idle (idle : (s.pathOf 2).queue = []) : sendTelemetry s = s := by
  simp only [sendTelemetry, idle]

theorem noteStarved_eq (t : State) (p : Nat) : ∃ st, noteStarved t p = t.setPort p { t.portOf p with starved := st } :=
  ⟨_, rfl⟩

/-- After its control unit and its packet a slot keeps the times of starvation, and the next slot comes. -/
theorem Sent.slotActive {z : PortSt} {us : List Out} (after : Sent s p z us (sendPacket (Machine.sendCtrl s p) p))
    (before : Sent s p y os (Machine.sendCtrl s p)) (still : y.state = 5) (idle : (s.pathOf 2).queue = []) :
    ∃ st, Sent s p { z with starved := st, slot := (z.slot + 1) % 4096 } us (slotActive s p) := by
  have stays : (Machine.sendCtrl s p).isActive p = true := by rw [State.isActive, before.port, still]; rfl
  rw [Machine.slotActive, sendTelemetry_idle idle]
  simp only [stays, if_true]
  generalize sendPacket (Machine.sendCtrl s p) p = u at after
  obtain ⟨st, noted⟩ := noteStarved_eq u p
  have starved := after.setPort { z with starved := st }
  rw [after.port] at noted
  refine ⟨st, ?_⟩
  rw [noted, starved.port]
  exact starved.setPort _

theorem exec_slotTransmit {p : Port} (active : s.isActive p = true) : exec (.slotTransmit p) s = .next (slotActive s p) :=
  congrArg Host.Outcome.next (if_pos active)

/-- A slot of the PARAM exchange sends PARAM (R414). -/
theorem exec_slotTransmit_param {p : Port} (inactive : s.isActive p = false) (exchanging : (s.portOf p).exchanging = true)
    (alone : (s.portOf p).param = none) (rising : risingFrom 0 s.ports = true) :
    ∃ t, exec (.slotTransmit p) s = .next t ∧ Sent s p
      { s.portOf p with seenSent := if 2 ≤ (s.portOf p).same then (s.portOf p).seenSent + 1 else (s.portOf p).seenSent }
      [.ctrl p (paramUnit s p).1 (paramUnit s p).2.1 (paramUnit s p).2.2] t := by
  have sent := ((Sent.refl (p := p) rising).emit (.ctrl p (paramUnit s p).1 (paramUnit s p).2.1 (paramUnit s p).2.2)).setPort
    { s.portOf p with seenSent := if 2 ≤ (s.portOf p).same then (s.portOf p).seenSent + 1 else (s.portOf p).seenSent }
  have untried : ∀ {u : State}, (u.portOf p).param = none → paramTry u p = u := fun h => by simp only [paramTry, h]
  refine ⟨_, congrArg Host.Outcome.next ((if_neg (Bool.eq_false_iff.1 inactive)).trans (if_pos exchanging)), ?_⟩
  rw [slotParam, untried (by rw [show (State.portOf _ p) = _ from sent.port]; exact alone)]
  exact sent

end Sys2Proof.Proofs
end

section
/-!
Packets received at a link port, and the settling of O33 (R397, R399, R400, R416, R427, R429): a packet is judged by its CRC and its
SEQ, after what FEC decoding found on the lanes is counted.
-/

namespace Sys2Proof.Proofs

open Sys2Proof.Machine Sys2Proof.Laws

section
variable {s t : State} {p : Nat} {x y : PortSt} {data : Bytes}

/-! ### The judgement of a packet (R400) -/

/-- A packet whose length is the one its header gives. -/
def WholePacket (data : Bytes) : Prop := data.length = 16 + 16 * bitsAt data 0 4 25 20

/-- The CRC that a packet's bytes have, and the one it carries. -/
def packetCrc (data : Bytes) : W32 := crc32c (slice data 0 12 ++ data.drop 16)
def carriedCrc (data : Bytes) : W32 := BitVec.ofNat 32 (fieldAt data 12 4)

/-- How far a packet's SEQ lies ahead of the one expected. -/
def aheadBy (data : Bytes) (x : PortSt) : Nat := (fieldAt data 0 2 + 65536 - x.e) % 65536

/-- The counters after a packet whose CRC failed: a POISON rehearsal's is counted apart (R427, R487). -/
def crcCounted (data : Bytes) (c : PortCounters) : PortCounters :=
  if carriedCrc data = packetCrc data ^^^ 0x5245_4852 then { c with rehearsal := sat48 c.rehearsal }
  else { c with crcPkt := sat48 c.crcPkt }

theorem crcCounted_nakSent (c : PortCounters) : (crcCounted data c).nakSent = c.nakSent := by
  rw [crcCounted]
  split <;> rfl

theorem receivePacket_corrupt (whole : WholePacket data) (bad : carriedCrc data ≠ packetCrc data) :
    receivePacket s p data = nakOnce (countPort s p (crcCounted data)) p := by
  have length : (data.length == 16 + 16 * bitsAt data 0 4 25 20) = true := beq_iff_eq.2 whole
  have failed : ¬ ((data.length == 16 + 16 * bitsAt data 0 4 25 20) = true) ∨ carriedCrc data ≠ packetCrc data := .inr bad
  refine (if_pos failed).trans (congrArg (nakOnce · p) ?_)
  by_cases poison : carriedCrc data = packetCrc data ^^^ 0x5245_4852
  · refine (if_pos ⟨length, poison⟩).trans (congrArg (Machine.countPort s p) (funext fun c => ?_))
    rw [crcCounted, if_pos poison]
  · refine (if_neg fun both => poison both.2).trans (congrArg (Machine.countPort s p) (funext fun c => ?_))
    rw [crcCounted, if_neg poison]

/-- A packet whose CRC holds is judged by its SEQ alone. -/
theorem receivePacket_sound (whole : WholePacket data) (good : carriedCrc data = packetCrc data) :
    receivePacket s p data =
      if aheadBy data (s.portOf p) = 0 then acceptPacket s p data
      else if (s.portOf p).nakAt.isSome then s
      else if aheadBy data (s.portOf p) ≤ 511 then sendNak s p
      else if aheadBy data (s.portOf p) ≤ 32767 then violate s p
      else s := by
  have length : (data.length == 16 + 16 * bitsAt data 0 4 25 20) = true := beq_iff_eq.2 whole
  exact if_neg fun h => h.elim (· length) (· good)

theorem exec_packetReceive {p : Port} (active : s.isActive p = true) (fec : List (Fin 8 × Nat × Nat)) :
    exec (.packetReceive p data fec) s = .next (receivePacket (fec.foldl (noteFec p) s) p data) :=
  act_next active _ _

/-- The first NAK for a packet (R400). -/
theorem PortIs.nakOnce (h : PortIs s p y t) (first : y.nakAt = none)
    (calm : (y.nakTimes.filter fun at_ => decide (s.ns < at_ + 1000000)).length < 64) :
    PortIs s p (nakking y s.ns) (nakOnce t p) := by
  rw [Machine.nakOnce, h.port, first, Option.isSome_none, if_neg Bool.false_ne_true]
  exact h.sendNak calm

/-! ### The packet expected (R400, R401, R446) -/

/-- The port after the packet expected was accepted. -/
def advancedE (x : PortSt) (now : Nat) : PortSt :=
  { x with
    e := (x.e + 1) % 65536, nakAt := none, unacked := x.unacked + 1
    firstUnacked := if x.unacked = 0 then now else x.firstUnacked
    counters := { x.counters with accepted := sat48 x.counters.accepted } }

theorem PortIs.advanceE (h : PortIs s p y t) (few : y.unacked < 15) : PortIs s p (advancedE y s.ns) (advanceE t p) := by
  have quiet : ¬ 16 ≤ y.unacked + 1 := by omega
  have moved := (h.setPort { advancedE y s.ns with counters := y.counters }).countPort
    fun c => { c with accepted := sat48 c.accepted }
  rw [Machine.advanceE, h.port, h.ns]
  simp only [quiet, if_false]
  exact moved

theorem portOf_flowUnarmed (s : State) (p flow q : Nat) : (flowUnarmed s p flow).portOf q = s.portOf q := by
  rw [flowUnarmed]
  split
  · exact (congrArg (tget ({} : PortSt) · q) (ports_of_logs (raise_logs ..)) :)
  · rfl

/-- The number of the flow that a packet names in its routing words. -/
theorem fieldNat_routeA (n : Nat) : fieldNat (BitVec.ofNat 32 n).toNat 13 0 = fieldNat n 13 0 := by
  rw [BitVec.toNat_ofNat, fieldNat, fieldNat]
  norm_num

theorem getLsbD_routeA {n : Nat} (clear : fieldNat n 31 31 = 0) : (BitVec.ofNat 32 n).getLsbD 31 = false := by
  rw [BitVec.getLsbD_ofNat, ← bitNat_eq_testBit, bitNat]
  have zero : n / 2 ^ 31 % 2 = 0 := clear
  rw [zero]
  rfl

/-- A packet of a flow that no wheel serves is accepted, and noted (R446). -/
theorem acceptPacket_unarmed (cls : bitsAt data 0 4 18 16 = 0) (vc : bitsAt data 0 4 19 19 = 0)
    (size : bitsAt data 0 4 25 20 ≤ 32)
    (header : bitsAt data 0 4 31 26 = 0) (route : bitsAt data 4 4 31 31 = 0)
    (unknown : tfind ((advanceE s p).linkOf (p / 10)).flows (fieldNat (fieldAt data 4 4) 13 0) = none) :
    acceptPacket s p data = flowUnarmed (advanceE s p) p (fieldNat (fieldAt data 4 4) 13 0) := by
  have known : (parsePacket p data).cls = 0 := cls
  have lawful : ¬ (4 < (parsePacket p data).cls ∨ 32 < bitsAt data 0 4 25 20 ∨ bitsAt data 0 4 31 26 ≠ 0 ∨
      ((parsePacket p data).cls = 0 ∧ (parsePacket p data).vc = 1) ∨ (parsePacket p data).reserved = true) := by
    have free : (parsePacket p data).reserved = false := by
      rw [Packet.reserved, if_pos known]
      exact getLsbD_routeA route
    have channel : (parsePacket p data).vc = 0 := vc
    rw [known, channel, free]
    simp only [header, size.not_gt]
    decide
  have flow : fieldNat (parsePacket p data).routeA.toNat 13 0 = fieldNat (fieldAt data 4 4) 13 0 := fieldNat_routeA _
  refine (if_neg lawful).trans ((if_pos known).trans ?_)
  rw [receiveScheduled]
  simp only [flow, unknown]

/-! ### FEC decoding (R416, R427) -/

/-- The times and numbers of uncorrectable codewords on a lane within 1 ms. -/
def fecRecent (x : PortSt) (now lane bad : Nat) : List (Nat × Nat) :=
  (tget [] x.fecTimes lane).filter (fun t => decide (now < t.1 + 1000000)) ++ [(now, bad)]

/-- The counters with what FEC decoding found on a lane. -/
def fecCounted (c : PortCounters) (lane syms bad : Nat) : PortCounters :=
  { c with
    fecSym := tset 0 c.fecSym lane (satNat 48 (tget 0 c.fecSym lane + syms))
    fecBad := tset 0 c.fecBad lane (satNat 48 (tget 0 c.fecBad lane + bad)) }

/-- The port with the codewords counted, and those within 1 ms kept. -/
def fecNoted (x : PortSt) (lane syms bad : Nat) (ts : List (Nat × Nat)) : PortSt :=
  { x with counters := fecCounted x.counters lane syms bad, fecTimes := tset [] x.fecTimes lane ts }

/-- Whether the lane's codewords ask for a retrain. -/
def fecStorm (x : PortSt) (now lane bad : Nat) : Bool :=
  x.rxMask.getLsbD lane && decide (16 < ((fecRecent x now lane bad).map (·.2)).sum)

variable (lane : Fin 8) (syms bad : Nat)

theorem noteFec_eq (rising : risingFrom 0 s.ports = true) : ∃ u,
    noteFec p s (lane, syms, bad) = (if fecStorm (s.portOf p) s.ns lane bad then requestRetrain u p 3 else u) ∧
      PortIs s p (fecNoted (s.portOf p) lane syms bad
        (if fecStorm (s.portOf p) s.ns lane bad then [] else fecRecent (s.portOf p) s.ns lane bad)) u := by
  have counted := (PortIs.refl (p := p) rising).countPort fun c => fecCounted c lane syms bad
  refine ⟨_, ?_, counted.setPort (fecNoted (s.portOf p) lane syms bad
        (if fecStorm (s.portOf p) s.ns lane bad then [] else fecRecent (s.portOf p) s.ns lane bad))⟩
  have port := counted.port
  have ns := counted.ns
  rw [noteFec]
  show (let u := countPort s p fun c => fecCounted c lane syms bad
    let x := u.portOf p
    let v := u.setPort p { x with
      fecTimes := tset [] x.fecTimes lane (if fecStorm x u.ns lane bad then [] else fecRecent x u.ns lane bad) }
    if fecStorm x u.ns lane bad then requestRetrain v p 3 else v) = _
  dsimp only
  rw [port, ns]
  rfl

/-- A request of a retrain leaves the port in its state. -/
theorem PortIs.requestRetrain_state (h : PortIs s p y t) (cause : Nat) :
    ∃ z, PortIs s p z (Machine.requestRetrain t p cause) ∧ z.state = y.state := by
  unfold Machine.requestRetrain
  dsimp only
  rw [h.port]
  split
  · exact ⟨y, h, rfl⟩
  · split
    · exact ⟨_, h.setPort _, rfl⟩
    · exact ⟨_, (h.setPort _).queueFour _, rfl⟩

theorem noteFec_state (rising : risingFrom 0 s.ports = true) :
    ∃ z, PortIs s p z (noteFec p s (lane, syms, bad)) ∧ z.state = (s.portOf p).state := by
  obtain ⟨u, noted, port⟩ := noteFec_eq (s := s) (p := p) lane syms bad rising
  rw [noted]
  split
  · exact port.requestRetrain_state 3
  · exact ⟨_, port, rfl⟩

theorem noteFec_calm (rising : risingFrom 0 s.ports = true) (calm : fecStorm (s.portOf p) s.ns lane bad = false) :
    (noteFec p s (lane, syms, bad)).portOf p =
      fecNoted (s.portOf p) lane syms bad (fecRecent (s.portOf p) s.ns lane bad) := by
  obtain ⟨u, noted, port⟩ := noteFec_eq (s := s) (p := p) lane syms bad rising
  rw [calm] at noted port
  exact (congrArg (State.portOf · p) noted).trans port.port

theorem noteFec_storm (rising : risingFrom 0 s.ports = true) (storm : fecStorm (s.portOf p) s.ns lane bad = true)
    (active : (s.portOf p).state = 5) (first : (s.portOf p).causes = 0) :
    (noteFec p s (lane, syms, bad)).portOf p = asking (fecNoted (s.portOf p) lane syms bad []) 3 := by
  obtain ⟨u, noted, port⟩ := noteFec_eq (s := s) (p := p) lane syms bad rising
  rw [storm] at noted port
  exact (congrArg (State.portOf · p) noted).trans (port.requestRetrain active first 3).port

end

/-- A slot with nothing to send but its control unit. -/
theorem slot_idle {s : State} {p : Port} (rising : risingFrom 0 s.ports = true) (active : s.isActive p = true)
    (idle : (s.pathOf 2).queue = []) (settled : (s.portOf p).switching = none) (plain : PlainCtrl (s.portOf p).ctrl)
    (fresh : (s.portOf p).replaying = none) (loose : s.slotFlow p = none) (displaced : (s.portOf p).displaced = [])
    (turn : (s.portOf p).nextPair = none) :
    ∃ st t, exec (.slotTransmit p) s = .next t ∧
      Sent s p { s.portOf p with ctrl := [], starved := st, slot := ((s.portOf p).slot + 1) % 4096 }
        [slotUnit p (s.portOf p).ctrl] t := by
  have before := (Sent.refl (p := p) rising).sendCtrl settled plain
  have after := before.sendPacket_idle fresh ((before.slotFlow rfl rfl).trans loose) displaced turn
  obtain ⟨st, sent⟩ := after.slotActive before (state_of_active active) idle
  exact ⟨st, _, exec_slotTransmit active, sent⟩

/-- Settles O33: a slot by its control unit and its packet, a packet by its CRC and SEQ, FEC decoding by the codewords of 1 ms. -/
theorem slotsAndPackets : Obligations.SlotsAndPackets := by
  refine fun s p rising => ⟨fun active idle settled => fun plain => ⟨fun fresh loose displaced turn => ?_,
    fun i e replaying held => ?_, fun i k ks fresh loose displaced turn waits cls pair own room sound credits queues short => ?_⟩,
    fun inactive exchanging alone => ?_, fun data active whole => ⟨fun corrupt first calm => ?_,
      fun good ahead near first calm => ?_, fun good far => ?_, fun good expected size header cls vc route few unknown => ?_⟩,
    fun data lane syms bad fec active => ?_⟩
  · obtain ⟨st, t, run, sent⟩ := slot_idle rising active idle settled plain fresh loose displaced turn
    exact ⟨t, run, sent.frame, sent.out, sent.others, by rw [sent.port]⟩
  · have before := (Sent.refl (p := p.val) rising).sendCtrl settled plain
    obtain ⟨st, sent⟩ := (before.sendPacket_held replaying held).slotActive before (state_of_active active) idle
    exact ⟨_, exec_slotTransmit active, sent.frame, sent.out, by rw [sent.port]; rfl, by rw [sent.port]; rfl,
      by rw [sent.port]; rfl⟩
  · have before := (Sent.refl (p := p.val) rising).sendCtrl settled plain
    obtain ⟨st, sent⟩ := (before.sendPacket_loose fresh ((before.slotFlow rfl rfl).trans loose) displaced turn waits
      cls pair own room sound short).slotActive before (state_of_active active) idle
    exact ⟨_, exec_slotTransmit active, sent.frame, sent.out, by rw [sent.port]; rfl, by rw [sent.port]; rfl,
      by rw [sent.port]; rfl, by rw [sent.port]; exact tget_tset 0 _ _ _ _ credits,
      by rw [sent.port]; exact tget_tset [] _ _ _ _ queues⟩
  · obtain ⟨t, run, sent⟩ := exec_slotTransmit_param inactive exchanging alone rising
    exact ⟨t, run, sent.frame, ⟨_, _, _, rfl, sent.out⟩, sent.port⟩
  · have counted := (PortIs.refl (p := p.val) rising).countPort (crcCounted data)
    have asked := counted.nakOnce first calm
    refine ⟨_, exec_packetReceive active [], ?_⟩
    rw [List.foldl_nil, receivePacket_corrupt whole corrupt]
    refine ⟨asked.only, asked.port.trans ?_⟩
    unfold nakking
    dsimp only
    rw [crcCounted_nakSent]
    rfl
  · have asked := (PortIs.refl (p := p.val) rising).sendNak calm
    have far : ¬ aheadBy data (s.portOf p) = 0 := Nat.one_le_iff_ne_zero.1 ahead
    have judged : receivePacket s p data = sendNak s p := by
      rw [receivePacket_sound whole good, if_neg far, first, if_neg (by simp),
        if_pos (show aheadBy data (s.portOf p) ≤ 511 from near)]
    exact ⟨_, exec_packetReceive active [], judged ▸ asked.only, judged ▸ asked.port⟩
  · have beyond : 32768 ≤ aheadBy data (s.portOf p) := far
    have judged : receivePacket s p data = s := by
      rw [receivePacket_sound whole good, if_neg (by omega), if_neg (show ¬ aheadBy data (s.portOf p) ≤ 511 by omega),
        if_neg (show ¬ aheadBy data (s.portOf p) ≤ 32767 by omega), ite_self]
    exact ⟨_, exec_packetReceive active [], judged⟩
  · have moved := (PortIs.refl (p := p.val) rising).advanceE few
    have links : (advanceE s p).linkOf (p / 10) = s.linkOf (p / 10) := (congrArg (State.linkOf · (p / 10)) moved.only.1 :)
    have judged : receivePacket s p data = flowUnarmed (advanceE s p) p (fieldNat (fieldAt data 4 4) 13 0) := by
      rw [receivePacket_sound whole good, if_pos (show aheadBy data (s.portOf p) = 0 from expected),
        acceptPacket_unarmed cls vc size header route (links ▸ unknown)]
    refine ⟨_, exec_packetReceive active [], ?_⟩
    rw [List.foldl_nil, judged, portOf_flowUnarmed, moved.port]
    rfl
  · obtain ⟨z, noted, state⟩ := noteFec_state (s := s) (p := p.val) lane syms bad rising
    have still : (noteFec p s (lane, syms, bad)).isActive p = true := by
      rw [State.isActive, noted.port, state, state_of_active active]; rfl
    refine ⟨noteFec p s (lane, syms, bad), ?_, noted.only, fun calm => ?_, fun serves many first => ?_⟩
    · exact (exec_packetReceive active _).trans (exec_packetReceive still fec).symm
    · refine noteFec_calm lane syms bad rising ?_
      obtain unused | few := calm
      · rw [fecStorm, unused, Bool.false_and]
      · exact Bool.and_eq_false_imp.2 fun _ => decide_eq_false (Nat.not_lt.2 few)
    · refine noteFec_storm lane syms bad rising ?_ (state_of_active active) first
      exact Bool.and_eq_true_iff.2 ⟨serves, decide_eq_true many⟩

end Sys2Proof.Proofs
end

section
/-!
The end-to-end exchange at a source (O35; R448, R455, R457): a transfer acknowledged, sent again, or given up.
-/

namespace Sys2Proof.Proofs

open Sys2Proof.Machine Sys2Proof.Laws

variable {s t : State} {die : Nat} {x : Machine.Sent} {f : Flow}

/-! ### Loose packets sent (R437 to R440) -/

/-- `t` is `s` but for its ports, the records of events, and what its link dies count as unreachable. -/
structure Routed (s t : State) : Prop where
  frame : { t.unlogged s with ports := s.ports, links := s.links } = s
  rising : risingFrom 0 t.links = true
  dies : ∀ d, { t.linkOf d with unreachable := (s.linkOf d).unreachable } = s.linkOf d

theorem Routed.refl (rising : risingFrom 0 s.links = true) : Routed s s := ⟨rfl, rising, fun _ => rfl⟩

theorem links_of_logs {u : State} (logs : Logs t u) : u.links = t.links := eq_of_logs State.links (fun _ _ => rfl) logs

theorem Routed.logs {u : State} (h : Routed s t) (logs : Logs t u) : Routed s u := by
  have links := links_of_logs logs
  refine ⟨?_, links ▸ h.rising, fun d => ?_⟩
  · have same : { u.unlogged t with ports := s.ports, links := s.links } = { t with ports := s.ports, links := s.links } :=
      congrArg (fun w : State => { w with ports := s.ports, links := s.links }) logs
    refine Eq.trans ?_ h.frame
    exact congrArg (fun w : State => w.unlogged s) same
  · have die : u.linkOf d = t.linkOf d := congrArg (tget ({} : LinkDie) · d) links
    rw [die]
    exact h.dies d

theorem Routed.setPort (h : Routed s t) (p : Nat) (y : PortSt) : Routed s (t.setPort p y) := ⟨h.frame, h.rising, h.dies⟩

theorem Routed.dropLoose (h : Routed s t) (k : Packet) (inp : Option Nat) : Routed s (dropLoose t k inp) := by
  have counted : ∀ d n, Routed s (t.setLink d { t.linkOf d with unreachable := n }) := by
    refine fun d n => ⟨h.frame, risingFrom_tset _ _ _ h.rising, fun e => ?_⟩
    by_cases own : e = d
    · subst own
      rw [linkOf_setLink h.rising]
      exact h.dies e
    · rw [linkOf_setLink_ne _ _ own]
      exact h.dies e
  unfold Machine.dropLoose
  dsimp only
  split
  · exact (counted _ _).logs (noteSet_logs (countDropped_logs (Logs.refl _) _) _)
  · exact (counted _ _).logs (raise_logs ..)

theorem Routed.forwardLoose (h : Routed s t) (k : Packet) (free : k.from_ = none) (inp inDim : Option Nat) :
    Routed s (forwardLoose t k inp inDim).1 := by
  have judged : Routed s (if t.dimsBad then
      raise t 0x0601 (blockLoc (match inp with | some p => 13 + p / 10 | none => 13) 0x802) else t) := by
    split
    · exact h.logs (raise_logs ..)
    · exact h
  unfold Machine.forwardLoose
  rw [free]
  dsimp only
  split
  · exact judged
  · exact judged.dropLoose _ _
  · exact judged.setPort _ _

theorem Routed.sendLoose (h : Routed s t) (cls : Nat) (dest tag : W16) (b : Bytes) : Routed s (sendLoose t cls dest tag b) :=
  h.forwardLoose _ rfl _ _

theorem Routed.resendTo (h : Routed s t) (die : Nat) (x : Machine.Sent) (rows : List Bytes) (round : Nat) (dest : W16) :
    Routed s (resendTo t die x rows round dest) :=
  (List.foldlRecOn (motive := Routed s) _ _ h fun _ sent _ _ => sent.sendLoose ..).sendLoose ..

/-! ### A transfer acknowledged (R448) -/

theorem finishCmd_links (s : State) (m : Tbl LinkDie) (k i : Nat) (rows : List Bytes) (flags : Nat) :
    finishCmd { s with links := m } k i rows flags = { finishCmd s k i rows flags with links := m } := by
  unfold finishCmd
  simp only [State.qOf]
  split <;> rfl

/-- What finishes an FSEND looks at no link die. -/
theorem finishSend_links (s : State) (m : Tbl LinkDie) (die q : Nat) (pos : PlanPos) :
    finishSend { s with links := m } die q pos = { finishSend s die q pos with links := m } := by
  unfold finishSend
  simp only [State.qOf]
  split
  · exact finishCmd_links ..
  · rfl

theorem finishCmd_queue (s : State) (k i : Nat) (rows : List Bytes) (flags : Nat) :
    { finishCmd s k i rows flags with queue := s.queue } = s := by
  unfold finishCmd
  split
  · simp only [retireQ, setCmd, State.setQ]
  · rfl

theorem finishSend_queue (s : State) (die q : Nat) (pos : PlanPos) : { finishSend s die q pos with queue := s.queue } = s := by
  unfold finishSend
  dsimp only
  split
  · exact finishCmd_queue ..
  · rfl

theorem settleSent_waits (declared : tfind (s.linkOf die).flows x.flow = some f) (more : x.waiting ≠ []) :
    settleSent s die x = s := by
  have waits : ¬ x.waiting.isEmpty = true := fun h => more (List.isEmpty_iff.1 h)
  simp only [settleSent, declared, waits]
  rfl

theorem settleSent_sent {q : Nat} (declared : tfind (s.linkOf die).flows x.flow = some f) (last : x.waiting = [])
    (plain : f.collect = false) (queue : x.queue = some q) :
    settleSent s die x =
      finishSend (s.setLink die { s.linkOf die with sent := (s.linkOf die).sent.filter (· ≠ x) }) die q x.pos := by
  simp only [settleSent, declared, last, plain, queue, List.isEmpty_nil, Bool.false_eq_true, false_and, not_true, if_false]

/-- The transfer once a destination has acknowledged it. -/
def ackedBy (x : Machine.Sent) (src : W16) : Machine.Sent := { x with waiting := x.waiting.filter (· != src) }

theorem exec_e2eAck {src : W16} {u : E2EUnit} (sound : E2E.ok s u 2 = true) (own : E2E.die u = die)
    (sent : (s.linkOf die).sentTo (E2E.flow u) (E2E.tseq u) src = some x) :
    exec (.e2eAck src u) s =
      .next (settleSent (s.setLink die ((s.linkOf die).putSent x (ackedBy x src))) die (ackedBy x src)) := by
  subst own
  refine (if_pos sound).trans ?_
  rw [sent]
  rfl

/-- The transfers once `x` is `y`. -/
theorem mem_putSent_filter {xs : List Machine.Sent} {x y z : Machine.Sent} (mem : z ∈ xs) (other : z ≠ x) (left : z ≠ y) :
    z ∈ (xs.map fun z => if z = x then y else z).filter (· ≠ y) :=
  List.mem_filter.2 ⟨List.mem_map.2 ⟨z, mem, if_neg other⟩, decide_eq_true left⟩

theorem notMem_putSent_filter (xs : List Machine.Sent) (x y : Machine.Sent) :
    x ∉ (xs.map fun z => if z = x then y else z).filter (· ≠ y) := by
  intro mem
  obtain ⟨mem, ne⟩ := List.mem_filter.1 mem
  obtain ⟨z, -, same⟩ := List.mem_map.1 mem
  split at same
  · exact of_decide_eq_true ne same.symm
  · next other => exact other same

/-! ### A transfer sent again or given up (R457) -/

/-- The transfer in a new round. -/
def inRound (x : Machine.Sent) (round now : Nat) : Machine.Sent := { x with round := round, closeAt := some now }

/-- The new round noted, before its packets are sent. -/
def roundNoted (s : State) (die : Nat) (x : Machine.Sent) (round : Nat) : State :=
  (raise s 0x0606 (blockLoc (13 + die) 0x800)).setLink die ((s.linkOf die).putSent x (inRound x round s.ns))

theorem resend_left (declared : tfind (s.linkOf die).flows x.flow = some f) {round : Nat} (left : round ≤ s.fabric.most) :
    ∃ ds : List W16, resend s die x round =
      (ds.foldl (fun t d => resendTo t die x (x.copy (s.linkOf die) f) round d) (roundNoted s die x round)).bump := by
  have ns : (raise s 0x0606 (blockLoc (13 + die) 0x800)).ns = s.ns := eq_of_logs State.ns (fun _ _ => rfl) (raise_logs ..)
  rw [roundNoted, ← ns]
  refine ⟨x.waiting.filterMap (raise s 0x0606 (blockLoc (13 + die) 0x800)).resendPlace, ?_⟩
  simp only [resend, declared, left, if_true]
  rfl

/-- A round that is left sends the transfer again. -/
theorem resend_again (rising : risingFrom 0 s.links = true) (declared : tfind (s.linkOf die).flows x.flow = some f) {round : Nat}
    (left : round ≤ s.fabric.most) :
    (resend s die x round).run = s.run ∧ (resend s die x round).steps = s.steps ∧
      ((resend s die x round).linkOf die).sent = ((s.linkOf die).putSent x (inRound x round s.ns)).sent := by
  have logs : Logs s (raise s 0x0606 (blockLoc (13 + die) 0x800)) := raise_logs ..
  have run : (roundNoted s die x round).run = s.run := (eq_of_logs State.run (fun _ _ => rfl) logs :)
  have steps : (roundNoted s die x round).steps = s.steps := (eq_of_logs State.steps (fun _ _ => rfl) logs :)
  have risen : risingFrom 0 (raise s 0x0606 (blockLoc (13 + die) 0x800)).links = true := links_of_logs logs ▸ rising
  have noted : (roundNoted s die x round).linkOf die = (s.linkOf die).putSent x (inRound x round s.ns) :=
    linkOf_setLink risen _ _
  have begun : Routed (roundNoted s die x round) (roundNoted s die x round) := .refl (risingFrom_tset _ _ _ risen)
  obtain ⟨ds, again⟩ := resend_left (die := die) declared left
  have routed := List.foldlRecOn (motive := Routed (roundNoted s die x round)) ds
    (fun t d => resendTo t die x (x.copy (s.linkOf die) f) round d) begun fun _ sent _ _ => sent.resendTo ..
  rw [again]
  generalize ds.foldl _ (roundNoted s die x round) = t at routed
  refine ⟨Eq.trans ?_ run, Eq.trans ?_ steps, Eq.trans ?_ (congrArg LinkDie.sent noted)⟩
  · exact (congrArg State.run routed.frame :)
  · exact (congrArg State.steps routed.frame :)
  · exact (congrArg LinkDie.sent (routed.dies die) :)

/-- With no round left the transfer is given up (R457). -/
theorem resend_lost (declared : tfind (s.linkOf die).flows x.flow = some f) {round : Nat} (past : s.fabric.most < round)
    (single : s.gridRunning = none) :
    resend s die x round = raise (s.setLink die { s.linkOf die with sent := (s.linkOf die).sent.filter (· ≠ x) }) 0x0607
      (blockLoc (13 + die) 0x800) := by
  have alone : (raise (s.setLink die { s.linkOf die with sent := (s.linkOf die).sent.filter (· ≠ x) }) 0x0607
      (blockLoc (13 + die) 0x800)).gridRunning = none :=
    (eq_of_logs State.gridRunning (fun _ _ => rfl) (raise_logs ..)).trans single
  simp only [resend, declared, past.not_ge, if_false, alone]

end Sys2Proof.Proofs
end

section
/-!
The end-to-end exchange at a destination, and the settling of O35 (R441, R455 to R457): a row resent is stored in its slice, the
CLOSE of a whole round delivers it, and a management request is answered.
-/

namespace Sys2Proof.Proofs

open Sys2Proof.Machine Sys2Proof.Laws

section
variable {s t : State} {die : Nat} {f : Flow} {l : LinkDie} {x y : OpenXfer} {flow hop tseq : Nat}

/-! ### The record of an open transfer (R455, R456) -/

theorem openOf_is (found : l.openOf flow hop tseq = some x) : x.is flow hop tseq = true := by
  rw [LinkDie.openOf] at found
  split at found
  · next found' => cases found; exact List.find?_some (p := fun z : OpenXfer => z.is flow hop tseq) found'
  · split at found
    · cases found
      simp [OpenXfer.is]
    · cases found

theorem is_iff : x.is flow hop tseq = true ↔ x.flow = flow ∧ x.hop = hop ∧ x.tseq = tseq := by
  simp only [OpenXfer.is, Bool.and_eq_true, beq_iff_eq, and_assoc]

/-- A record put back is the transfer's record. -/
theorem openOf_putOpen (l : LinkDie) (is : y.is flow hop tseq = true) : (l.putOpen y).openOf flow hop tseq = some y := by
  obtain ⟨rfl, rfl, rfl⟩ := is_iff.1 is
  suffices found : (l.putOpen y).open_.find? (·.is y.flow y.hop y.tseq) = some y by
    simp only [LinkDie.openOf, found]
  rw [LinkDie.putOpen]
  split
  · next has =>
    obtain ⟨z, found⟩ := Option.isSome_iff_exists.1 (List.find?_isSome.2 (List.any_eq_true.1 has))
    have same : (fun z : OpenXfer => z.is y.flow y.hop y.tseq) ∘ (fun z => if z.is y.flow y.hop y.tseq then y else z) =
        fun z => z.is y.flow y.hop y.tseq := by
      funext z
      by_cases h : z.is y.flow y.hop y.tseq = true
      · simp only [Function.comp, h, if_true, is]
      · simp only [Function.comp, if_neg h]
    rw [List.find?_map, same, found, Option.map_some, if_pos (List.find?_some found)]
  · next lacks =>
    have absent : l.open_.find? (·.is y.flow y.hop y.tseq) = none :=
      List.find?_eq_none.2 fun z mem has => lacks (List.any_eq_true.2 ⟨z, mem, has⟩)
    rw [List.find?_append, absent, Option.none_or, List.find?_singleton, if_pos is]

/-- Putting a record back writes the records alone. -/
theorem putOpen_frame (l : LinkDie) (y : OpenXfer) : l.putOpen y = { l with open_ := (l.putOpen y).open_ } := by
  rw [LinkDie.putOpen]
  split <;> rfl

/-! ### Verification (R455) -/

/-- The link die once a plain transfer of `n` rows is verified. -/
def verifiedDie (l : LinkDie) (f : Flow) (x : OpenXfer) (n : Nat) : LinkDie :=
  ((l.verify x.flow x.hop x.tseq).deliverRows (f.rowAt x.hop x.first / 256) n x.discard).closeXfer x

/-- With its CLOSE not here a transfer waits. -/
theorem verifyXfer_open (rows : x.rows = none) : verifyXfer s die f x = s := by
  simp only [verifyXfer, rows]

theorem verifyXfer_whole {n : Nat} {c : W64} (rows : x.rows = some n) (crc : x.crc = some c) (later : 0 < x.round)
    (whole : x.got.length = n) (holds : crc64 (x.slice (s.linkOf die) f n).flatten = c) (plain : f.collect = false) :
    verifyXfer s die f x =
      logEntry (trigger (sendAck (s.setLink die (verifiedDie (s.linkOf die) f x n)) die x.flow x.tseq n x.discard x.source)
        die x.flow x.tseq) 4
        (((sendAck (s.setLink die (verifiedDie (s.linkOf die) f x n)) die x.flow x.tseq n x.discard x.source).run.map
          (·.number)).getD 0) (leBytes 4 x.flow ++ leBytes 2 x.tseq) := by
  have enough : ¬ x.got.length < n := whole.not_lt
  simp only [verifyXfer, rows, crc, later.ne', enough, holds, plain, if_false, if_true, Bool.false_eq_true]
  rfl

theorem hostWrite_stands (s : State) (fn : Nat) (pasid : Option Nat) (a : W64) (b : Bytes) :
    ((hostWrite s fn pasid a b).run, (hostWrite s fn pasid a b).mv, (hostWrite s fn pasid a b).links) = (s.run, s.mv, s.links) := by
  unfold hostWrite
  split <;> rfl

/-- A log entry leaves the step, the movements and the link dies. -/
theorem logEntry_stands (s : State) (kind step : Nat) (b : Bytes) :
    ((logEntry s kind step b).run, (logEntry s kind step b).mv, (logEntry s kind step b).links) = (s.run, s.mv, s.links) := by
  unfold logEntry
  dsimp only
  split
  · split
    · exact hostWrite_stands ..
    · exact (eq_of_logs (fun w : State => (w.run, w.mv, w.links)) (fun _ _ => rfl) (raise_logs ..)).trans (hostWrite_stands ..)
  · rfl

theorem verifiedDie_frame (l : LinkDie) (f : Flow) (x : OpenXfer) (n : Nat) :
    { verifiedDie l f x n with
      open_ := l.open_, delivered := l.delivered, discarded := l.discarded, verified := l.verified } = l := by
  obtain ⟨d, e, delivered⟩ := deliverRows_eq (l.verify x.flow x.hop x.tseq) (f.rowAt x.hop x.first / 256) n x.discard
  rw [verifiedDie, delivered]
  rfl

theorem verifiedDie_closes (l : LinkDie) (f : Flow) (x : OpenXfer) (n : Nat) :
    ∀ y ∈ (verifiedDie l f x n).open_, y.is x.flow x.hop x.tseq = false := by
  intro y mem
  simpa using (List.mem_filter.1 mem).2

theorem verifiedDie_delivers (l : LinkDie) (f : Flow) (x : OpenXfer) {n k : Nat} (lt : k < n) :
    f.rowAt x.hop x.first / 256 + k ∈ (verifiedDie l f x n).delivered :=
  (mem_delivered_deliverRows ..).2 (.inr ⟨k, lt, rfl⟩)

/-- What a verified transfer leaves of the step, the movements and its link die. -/
theorem verifyXfer_stands (rising : risingFrom 0 s.links = true) {n : Nat} {c : W64} (rows : x.rows = some n)
    (crc : x.crc = some c) (later : 0 < x.round) (whole : x.got.length = n)
    (holds : crc64 (x.slice (s.linkOf die) f n).flatten = c) (plain : f.collect = false) :
    (verifyXfer s die f x).run = s.run ∧ (verifyXfer s die f x).mv = s.mv ∧
      ∃ k, (verifyXfer s die f x).linkOf die = { verifiedDie (s.linkOf die) f x n with unreachable := k } := by
  rw [verifyXfer_whole rows crc later whole holds plain]
  have put : risingFrom 0 (s.setLink die (verifiedDie (s.linkOf die) f x n)).links = true := risingFrom_tset _ _ _ rising
  have sent := (Routed.refl put).sendLoose 4 x.source 0
    (e2eUnit 2 x.flow die x.discard (n - 1) x.tseq x.source.toNat 0
      (s.setLink die (verifiedDie (s.linkOf die) f x n)).fabric.colour 0)
  change Routed _ (sendAck (s.setLink die (verifiedDie (s.linkOf die) f x n)) die x.flow x.tseq n x.discard x.source) at sent
  generalize sendAck (s.setLink die (verifiedDie (s.linkOf die) f x n)) die x.flow x.tseq n x.discard x.source = u at sent
  have logged := logEntry_stands (trigger u die x.flow x.tseq) 4 ((u.run.map (·.number)).getD 0)
    (leBytes 4 x.flow ++ leBytes 2 x.tseq)
  generalize logEntry _ 4 _ _ = w at logged
  simp only [Prod.mk.injEq] at logged
  obtain ⟨run, mv, links⟩ := logged
  have own : w.linkOf die = u.linkOf die := (congrArg (tget ({} : LinkDie) · die) links :)
  refine ⟨run.trans (congrArg State.run sent.frame :), mv.trans (congrArg State.mv sent.frame :),
    (u.linkOf die).unreachable, ?_⟩
  have stands := sent.dies die
  rw [linkOf_setLink rising] at stands
  rw [own, ← stands]

/-! ### Packets of a resend round (R455, R456) -/

/-- The record of an open transfer with what every packet of a resend round says. -/
def heard (x : OpenXfer) (u : E2EUnit) : OpenXfer := { x with source := E2E.source u, discard := x.discard || E2E.discard u }

/-- The record with a row of the round under way. -/
def rowHeard (x : OpenXfer) (u : E2EUnit) : OpenXfer :=
  { heard x u with got := if E2E.offset u ∈ x.got then x.got else x.got ++ [E2E.offset u] }

/-- The record with the CLOSE of the round. -/
def closeHeard (x : OpenXfer) (u : E2EUnit) (data : Bytes) : OpenXfer :=
  { heard x u with rows := some (E2E.rows u), crc := some (BitVec.ofNat 64 (fieldAt data 0 8)) }

/-- A packet for a transfer of this package that is open in the packet's round. -/
structure Expects (s : State) (u : E2EUnit) (f : Flow) (hop : Nat) (x : OpenXfer) : Prop where
  declared : tfind (s.linkOf (E2E.die u)).flows (E2E.flow u) = some f
  place : s.resendHop (s.linkOf (E2E.die u)) f (E2E.flow u) (E2E.tseq u) (E2E.source u) = some hop
  fresh : (s.linkOf (E2E.die u)).isVerified (E2E.flow u) hop (E2E.tseq u) = false
  here : (f.mcast || f.collect || hop == f.hops) = true
  within : 256 * (E2E.offset u + 1) ≤ f.size
  record : (s.linkOf (E2E.die u)).openOf (E2E.flow u) hop (E2E.tseq u) = some x
  round : x.round = E2E.round u

variable {u : E2EUnit} {data : Bytes}

theorem Expects.row (h : Expects s u f hop x) (kind : E2E.kind u = 4) :
    e2eDataEff s u data = verifyXfer (s.setLink (E2E.die u)
      (((s.linkOf (E2E.die u)).putRow (f.rowAt hop (E2E.offset u)) data).putOpen (rowHeard x u))) (E2E.die u) f (rowHeard x u) := by
  have lawful : ¬ (¬ (f.mcast || f.collect || hop == f.hops) = true ∨ f.size < 256 * (E2E.offset u + 1)) :=
    fun bad => bad.elim (· h.here) h.within.not_gt
  have late : ¬ E2E.round u < x.round := h.round.not_gt
  have early : ¬ x.round < E2E.round u := h.round.not_lt
  simp only [e2eDataEff, h.declared, h.place, h.fresh, lawful, h.record, late, early, kind, Bool.false_eq_true, if_false,
    if_true, List.contains_iff_mem]
  rfl

theorem Expects.close (h : Expects s u f hop x) (kind : E2E.kind u = 1) :
    e2eDataEff s u data = verifyXfer (s.setLink (E2E.die u) ((s.linkOf (E2E.die u)).putOpen (closeHeard x u data)))
      (E2E.die u) f (closeHeard x u data) := by
  have lawful : ¬ (¬ (f.mcast || f.collect || hop == f.hops) = true ∨ f.size < 256 * (E2E.offset u + 1)) :=
    fun bad => bad.elim (· h.here) h.within.not_gt
  have late : ¬ E2E.round u < x.round := h.round.not_gt
  have early : ¬ x.round < E2E.round u := h.round.not_lt
  have other : ¬ E2E.kind u = 4 := by omega
  simp only [e2eDataEff, h.declared, h.place, h.fresh, lawful, h.record, late, early, other, Bool.false_eq_true, if_false]
  rfl

theorem kind_of_ok {kind : Nat} (sound : E2E.ok s u kind = true) : E2E.kind u = kind := by
  simp only [E2E.ok, Bool.and_eq_true, beq_iff_eq] at sound
  exact sound.1.1.1

theorem exec_e2eData (sound : E2E.ok s u 4 = true ∧ data.length = 256 ∨ E2E.ok s u 1 = true ∧ data.length = 16) :
    exec (.e2eData (E2E.source u) u data) s = .next (e2eDataEff s u data) :=
  act_next ⟨sound, rfl⟩ _ _

/-! ### Management requests (R441) -/

/-- The package with the answer to a new request held (R441). -/
def answerHeld (s : State) (src tag : W16) : State :=
  { s with fabric := { s.fabric with tags := tput src.toNat (((tag, mgmtAnswer s) :: tget [] s.fabric.tags src.toNat).take 256)
                                       s.fabric.tags } }

theorem sendLoose_fabric (s : State) (cls : Nat) (dest tag : W16) (b : Bytes) (rising : risingFrom 0 s.links = true) :
    (sendLoose s cls dest tag b).fabric = s.fabric ∧ (sendLoose s cls dest tag b).free = s.free := by
  have sent := (Routed.refl rising).sendLoose cls dest tag b
  exact ⟨(congrArg State.fabric sent.frame :), (congrArg State.free sent.frame :)⟩

end

/-- What sending transfer `x` again, or giving it up, makes of the package (R457). -/
def Again (s : State) (die : Nat) (x : Machine.Sent) (t : State) : Prop :=
  (x.round < s.fabric.most → t.run = s.run ∧ t.steps = s.steps ∧
    (t.linkOf die).sent = (s.linkOf die).sent.map fun z => if z = x then inRound x (x.round + 1) s.ns else z) ∧
  (s.fabric.most ≤ x.round → s.gridRunning = none →
    { t.unlogged s with links := s.links } = s ∧ (t.linkOf die).sent = (s.linkOf die).sent.filter (· ≠ x))

theorem resend_next {s : State} {die : Nat} {x : Machine.Sent} {f : Flow} (rising : risingFrom 0 s.links = true)
    (declared : tfind (s.linkOf die).flows x.flow = some f) : Again s die x (resend s die x (x.round + 1)) := by
  refine ⟨fun left => resend_again rising declared left, fun past single => ?_⟩
  rw [resend_lost declared (Nat.lt_succ_of_le past) single]
  have logs := raise_logs (s.setLink die { s.linkOf die with sent := (s.linkOf die).sent.filter (· ≠ x) }) 0x0607
    (blockLoc (13 + die) 0x800) [] none 0x1FF 0
  generalize raise _ 0x0607 _ = t at logs
  refine ⟨?_, ?_⟩
  · exact (congrArg (fun w : State => { w.unlogged s with links := s.links }) logs :)
  · have die' : t.linkOf die = _ := (congrArg (tget ({} : LinkDie) · die) (links_of_logs logs)).trans (linkOf_setLink rising _ _)
    rw [die']

theorem finishSend_taken {s : State} (rising : risingFrom 0 s.links = true) (die q : Nat) (pos : PlanPos) (a b : LinkDie) :
    ∃ m, finishSend ((s.setLink die a).setLink die b) die q pos = { finishSend s die q pos with links := m } ∧
      tget ({} : LinkDie) m die = b :=
  ⟨_, finishSend_links s _ die q pos, tget_tset _ _ _ _ _ (risingFrom_tset _ _ _ rising)⟩

/-- Settles O35: a source by the record of the transfer, a destination by the record of the open transfer, a management request
by the answers held. -/
theorem endToEnd : Obligations.EndToEnd := by
  refine ⟨fun s die x f rising declared => ⟨fun src u own sent => ⟨fun ack => ⟨fun more => ?_,
      fun q last plain queue => ?_⟩, fun req newer => ?_⟩, fun flow tseq late => ?_⟩,
    fun s src rising => ⟨fun u data f hop x source declared place fresh here within record round =>
      ⟨fun sound len waits wf => ?_, fun sound len plain later whole holds => ?_⟩,
      fun tag data => ⟨fun e held => ?_, fun new => ?_⟩⟩⟩
  · have put := linkOf_setLink rising die ((s.linkOf die).putSent x (ackedBy x src))
    refine ⟨_, (exec_e2eAck ack own sent).trans (congrArg _ (settleSent_waits (f := f) ?_ more)), rfl, put⟩
    rw [put]
    exact declared
  · have put := linkOf_setLink rising die ((s.linkOf die).putSent x (ackedBy x src))
    have acked : exec (.e2eAck src u) s = _ := (exec_e2eAck ack own sent).trans
      (congrArg _ (settleSent_sent (f := f) (by rw [put]; exact declared) last plain queue))
    rw [put] at acked
    obtain ⟨m, done, own⟩ := finishSend_taken rising die q x.pos ((s.linkOf die).putSent x (ackedBy x src))
      { (s.linkOf die).putSent x (ackedBy x src) with
        sent := ((s.linkOf die).putSent x (ackedBy x src)).sent.filter (· ≠ ackedBy x src) }
    refine ⟨_, acked.trans (congrArg _ done), ?_, rfl, ?_, fun z mem other left => ?_⟩
    · exact (congrArg (fun w : State => { w with links := s.links }) (finishSend_queue s die q x.pos) :)
    · rw [State.linkOf, own]
      exact notMem_putSent_filter _ _ _
    · rw [State.linkOf, own]
      refine mem_putSent_filter mem other ?_
      rw [ackedBy, last]
      exact left
  · refine ⟨_, ?_, resend_next rising declared⟩
    show execE2eReq src u s = _
    rw [execE2eReq, if_pos req, own, sent]
    exact act_next newer _ _
  · refine ⟨_, ?_, resend_next rising declared⟩
    show execE2eTimeout die flow tseq s = _
    rw [execE2eTimeout, show List.find? _ _ = some x from late]
  · subst source
    have expected : Expects s u f hop x := ⟨declared, place, fresh, here, within, record, round⟩
    have is : (rowHeard x u).is (E2E.flow u) hop (E2E.tseq u) = true := (openOf_is record :)
    have frame := putOpen_frame ((s.linkOf (E2E.die u)).putRow (f.rowAt hop (E2E.offset u)) data) (rowHeard x u)
    have stored := expected.row (data := data) (kind_of_ok sound)
    rw [verifyXfer_open (show (rowHeard x u).rows = none from waits)] at stored
    refine ⟨_, (exec_e2eData (.inl ⟨sound, len⟩)).trans (congrArg _ stored), rfl, ?_, ?_, fun a out => ?_⟩
    all_goals rw [linkOf_setLink rising]
    · rw [frame]
      exact (row_putRow wf _ data).trans (padTo_of_length len)
    · exact openOf_putOpen _ is
    · rw [frame]
      exact memByte_putRow_out _ data out
  · subst source
    have expected : Expects s u f hop x := ⟨declared, place, fresh, here, within, record, round⟩
    have closed := expected.close (data := data) (kind_of_ok sound)
    obtain ⟨flow, place, seq⟩ := is_iff.1 (openOf_is record)
    have put := linkOf_setLink rising (E2E.die u) ((s.linkOf (E2E.die u)).putOpen (closeHeard x u data))
    have frame := putOpen_frame (s.linkOf (E2E.die u)) (closeHeard x u data)
    obtain ⟨run, mv, k, die⟩ := verifyXfer_stands
      (s := s.setLink (E2E.die u) ((s.linkOf (E2E.die u)).putOpen (closeHeard x u data)))
      (die := E2E.die u) (f := f) (x := closeHeard x u data) (risingFrom_tset _ _ _ rising) rfl rfl later whole
      (by rw [put, frame]; exact holds) plain
    refine ⟨_, (exec_e2eData (.inr ⟨sound, len⟩)).trans (congrArg _ closed), run, mv, ?_, ?_, ?_⟩
    all_goals rw [die, put]
    · exact verifiedDie_closes _ f (closeHeard x u data) (E2E.rows u)
    · exact fun k lt => verifiedDie_delivers _ f (closeHeard x u data) lt
    · exact (congrArg LinkDie.buf (verifiedDie_frame _ f (closeHeard x u data) (E2E.rows u)) :).trans
        (congrArg LinkDie.buf frame :)
  · have run : exec (.mgmtRequest src tag data) s = .next (sendLoose s 1 src tag e.2) := by
      show execMgmtRequest src tag data s = _
      rw [execMgmtRequest, held]
      rfl
    exact ⟨_, run, rfl, (sendLoose_fabric s 1 src tag e.2 rising).1⟩
  · have run : exec (.mgmtRequest src tag data) s = .next (sendLoose (answerHeld s src tag).bump 1 src tag (mgmtAnswer s)) := by
      show execMgmtRequest src tag data s = _
      rw [execMgmtRequest, new]
      rfl
    obtain ⟨fabric, free⟩ := sendLoose_fabric (answerHeld s src tag).bump 1 src tag (mgmtAnswer s) rising
    refine ⟨_, mgmtAnswer s, run, free, ?_, ?_⟩
    · rw [fabric]
      exact tget_tput _ _ _ _
    · rw [fabric]
      rfl

end Sys2Proof.Proofs
end

section
/-!
What the work of ops and the end of a step leave alone (O7; R75, R110, R378): the chronometer, the cadence, and the stop that holds
the device.
-/

namespace Sys2Proof.Proofs

open Sys2Proof.Machine Sys2Proof.Laws

variable {s t u : State}

/-- The chronometer, the cadence and the stop. -/
def pace (s : State) : Chron × Cadence × Stop := (s.chron, s.cad, s.stop)

/-- The chronometer, the cadence and the stop are the same. -/
structure Paced (s t : State) : Prop where
  same : pace t = pace s

theorem Paced.refl (s : State) : Paced s s := ⟨rfl⟩

theorem Paced.upd (h : Paced s t) (same : pace u = pace t) : Paced s u := ⟨same.trans h.same⟩

theorem Paced.logs (h : Paced s t) (logs : Logs t u) : Paced s u := h.upd (eq_of_logs pace (fun _ _ => rfl) logs)

theorem Paced.ite {c : Prop} [Decidable c] (ht : Paced s t) (hu : Paced s u) : Paced s (if c then t else u) := by
  split
  · exact ht
  · exact hu

theorem Paced.foldl {α : Type} {f : State → α → State} (hf : ∀ t a, Paced s t → Paced s (f t a)) (l : List α)
    (h : Paced s t) : Paced s (l.foldl f t) :=
  List.foldlRecOn (motive := Paced s) l f h fun t kept a _ => hf t a kept

theorem Paced.setMv (h : Paced s t) {n : Nat} {m : Mvmt} : Paced s (t.setMv n m) := ⟨h.same⟩
theorem Paced.setMat (h : Paced s t) {n : Nat} {m : Matrix} : Paced s (t.setMat n m) := ⟨h.same⟩
theorem Paced.setVec (h : Paced s t) {n : Nat} {m : Vector} : Paced s (t.setVec n m) := ⟨h.same⟩
theorem Paced.setQ (h : Paced s t) {k : Nat} {q : Queue} : Paced s (t.setQ k q) := ⟨h.same⟩
theorem Paced.onRun (h : Paced s t) {f : Run → Run} : Paced s (t.onRun f) := ⟨h.same⟩
theorem Paced.bump (h : Paced s t) : Paced s t.bump := ⟨h.same⟩

theorem Paced.raise (h : Paced s t) {c : Nat} {l : W64} {d : Bytes} {p : Option PlanPos} {f r : Nat} :
    Paced s (raise t c l d p f r) :=
  h.logs (raise_logs ..)

/-! ### Scratch rows and matrix arrays (R43, R186, R189, R192) -/

theorem Paced.writeBytes (h : Paced s t) {a b : Nat} {bs : List (Nat × Byte)} : Paced s (t.writeBytes a b bs) := h.setMv

theorem Paced.writeRows (h : Paced s t) {ws : List (Nat × Nat × Bytes)} : Paced s (t.writeRows ws) :=
  .foldl (fun _ _ h => h.writeBytes) ws h

theorem Paced.writeRange (h : Paced s t) {a b : Nat} {bs : Bytes} : Paced s (writeRange t a b bs) :=
  .foldl (fun _ _ h => h.writeBytes) _ h

theorem Paced.flags (h : Paced s t) {f : Nat} {pos : PlanPos} : Paced s (raiseFlags t f pos) := h.onRun

theorem Paced.checksumFault (h : Paced s t) {n kind : Nat} {row : Option Nat} {pos : PlanPos} :
    Paced s (checksumFault t n kind row pos) :=
  h.raise.onRun

theorem Paced.eccEvents (h : Paced s t) {loc : Nat → Option Nat → W64} {weak : Tbl Nat} {bad : List Nat} :
    Paced s (eccEvents t loc weak bad) := by
  have corrected := Paced.foldl (f := fun s (e : Nat × Nat) => Machine.raise s 0x0107 (loc e.1 (some e.2)))
    (fun _ _ h => h.raise) weak h
  cases bad with
  | nil => exact corrected
  | cons w _ => exact corrected.raise.onRun

theorem Paced.eccAcc (h : Paced s t) {n : Nat} {ws : List Nat} : Paced s (eccAcc t n ws) := h.setMat.eccEvents

theorem Paced.eccTile (h : Paced s t) {n : Nat} {buf : Bool} {reads : Nat → Bool} : Paced s (eccTile t n buf reads) :=
  h.setMat.eccEvents

theorem Paced.applyEffs (h : Paced s t) {b : Nat} : Paced s (applyEffs t b) :=
  .foldl (fun _ _ h => .ite h (.foldl (fun _ _ h => .flags (.setMat (.ite h.eccAcc h))) _ h.setMat)) _ h

theorem Paced.clearRow (h : Paced s t) {clear : Bool} {row n : Nat} : Paced s (clearRow clear row t n) := .ite h.setMat h

theorem Paced.streamStep (h : Paced s t) {v a acc : Nat} {buf start sub : Bool} {afmt bfmt : Nat} {chk : Bool}
    {anchor : Int} {ascale : Nat} {pos : PlanPos} {i : Nat} :
    Paced s (streamStep v a acc buf start sub afmt bfmt chk anchor ascale pos t i) := by
  exact .ite h.eccTile.setMat.flags h.eccTile.setMat.flags.checksumFault

theorem Paced.drainStep (h : Paced s t) {v d acc ofmt mode : Nat} {sat clear : Bool} {anchor : Int} {seed : Nat}
    {pos : PlanPos} {k : Nat} : Paced s (drainStep v d acc ofmt mode sat clear anchor seed pos t k) := by
  exact .clearRow (.ite h.eccAcc.flags.writeBytes h.eccAcc.flags.writeRows)

theorem Paced.drainWideStep (h : Paced s t) {v d acc : Nat} {clear : Bool} {pos : PlanPos} {k : Nat} :
    Paced s (drainWideStep v d acc clear pos t k) :=
  h.eccAcc.writeRows.clearRow

/-! ### Vector units (R199, R208 to R213) -/

theorem Paced.contributeTo (h : Paced s t) {v i : Nat} {k : TKind} {items : List (Val × Nat)} {anchor : Int}
    {start int : Bool} {pos : PlanPos} : Paced s (contributeTo t v i k items anchor start int pos) := by
  unfold Machine.contributeTo
  dsimp only
  split
  · exact h
  · exact h.setVec.flags

theorem Paced.passGroup (h : Paced s t) {m : VMode} {c : W32 × Bool} {f : VFun} {d : Nat} {a : Option Nat} {bs : BSrc}
    {pos : PlanPos} {g : Nat} : Paced s (passGroup t m c f d a bs pos g).1 := by
  unfold Machine.passGroup
  dsimp only
  split
  · exact h.flags.writeRows.bump
  · exact h.flags.writeRows

theorem Paced.passPart (h : Paced s t) {f : Flight} {fn : VFun} {d : Nat} {a : Option Nat} {b : BSrc} {m : VMode}
    {tap : Option Tap} : Paced s (passPart f fn d a b m tap t).1 := by
  unfold Machine.passPart
  dsimp only
  split
  · exact h.passGroup
  · cases tap with
    | none => exact h
    | some x => exact h.contributeTo

theorem Paced.raddwStep (h : Paced s t) {v : Nat} {row : Bytes} {pos : PlanPos} {i : Nat} :
    Paced s (raddwStep v row pos t i) := by
  unfold Machine.raddwStep
  dsimp only
  split
  · exact h
  · exact h.setVec.flags

/-! ### Skivers, companions and bridles (R103, R215 to R218, R332) -/

theorem Paced.transposeEnd (h : Paced s t) {d a : Nat} {sr dr : Int} {bits : Nat} {pos : PlanPos} :
    Paced s (transposeEnd d a sr dr bits pos t) := by
  unfold Machine.transposeEnd
  exact h.writeRows

theorem Paced.convertStep (h : Paced s t) {d a i o mode : Nat} {sat : Bool} {k : Skiver} {pos : PlanPos} {g : Nat} :
    Paced s (convertStep d a i o mode sat k pos t g) :=
  .ite h.writeRange.writeRange h.writeRange.writeRange.flags

theorem Paced.convertSeg (h : Paced s t) {d a i mode : Nat} {k : Skiver} {pos : PlanPos} {x : Nat} :
    Paced s (convertSeg d a i mode k pos t x) :=
  h.writeRange.writeRange.writeRange.flags

theorem Paced.sourceEnd (h : Paced s t) {v q : Nat} {rows : List Bytes} {pos : PlanPos} :
    Paced s (sourceEnd v q rows pos t) := by
  unfold Machine.sourceEnd
  split
  · exact h.setQ
  · exact h

theorem Paced.fsendEff (h : Paced s t) {die flow fb queue : Nat} {rows : List Bytes} {pos : PlanPos} :
    Paced s (fsendEff t die flow fb queue rows pos) := by
  unfold Machine.fsendEff
  split
  · exact h
  · exact .ite h (h.upd rfl)

theorem Paced.sourcePart (h : Paced s t) {v q : Nat} {op : Instr} {rows : List (Nat × Nat)} {pos : PlanPos} :
    Paced s (sourcePart v q op rows pos t) := by
  unfold Machine.sourcePart
  dsimp only
  split
  · exact h.sourceEnd.fsendEff
  · exact .ite h.sourceEnd (h.sourceEnd.upd rfl)
  · exact h.sourceEnd

theorem Paced.selectEnd (h : Paced s t) {z key result vocab lfmt : Nat} {pos : PlanPos} :
    Paced s (selectEnd z key result vocab lfmt pos t) := by
  unfold Machine.selectEnd
  dsimp only
  split
  · split
    · exact h.flags.writeBytes.onRun.bump
    · exact h.writeBytes.onRun.bump
  · exact h.writeBytes.bump

/-- A part of an op's work leaves the chronometer, the cadence and the stop. -/
theorem Paced.doPart (h : Paced s t) (f : Flight) : Paced s (doPart f t).1 := by
  obtain ⟨pos, opAddr, work, next, c, held⟩ := f
  cases work with
  | tileLoad => exact .ite h.setMat.checksumFault h.setMat
  | tileScales => exact h.setMat
  | stream => exact h.streamStep
  | drain => exact h.drainStep
  | drainWide => exact h.drainWideStep
  | accLoad => exact h.setMat
  | pass => exact h.passPart
  | setT => exact h.setVec
  | tload => exact h.setVec.flags
  | reduce => exact h.flags.contributeTo
  | raddw => exact .foldl (fun _ _ h => h.raddwStep) _ h
  | rstore => exact h.writeBytes.flags
  | transpose => dsimp only [Machine.doPart]; exact h.transposeEnd
  | retile => exact h.writeRows
  | convert => exact .ite h.convertSeg h.convertStep
  | source => exact h.sourcePart
  | select => exact h.selectEnd

/-! ### The settling of all work (R43, R74) -/

theorem Paced.settleFlights (fs : List Flight) {x : State × List Flight} (h : Paced s x.1) (b : Nat) :
    Paced s (fs.foldl (settleFlight b) x).1 := by
  induction fs generalizing x with
  | nil => exact h
  | cons f fs ih =>
    refine ih ?_
    unfold settleFlight
    split
    · exact h.doPart f
    · exact h

theorem Paced.settleBeat (h : Paced s t) (b : Nat) : Paced s (settleBeat t b) :=
  (Paced.settleFlights _ (x := (Machine.applyEffs t b, [])) h.applyEffs b).onRun

theorem Paced.settleAll (h : Paced s t) : Paced s (settleAll t) :=
  .foldl (fun _ _ h => h.setMv) _ (.foldl (fun _ _ h => h.settleBeat _) _ h)

end Sys2Proof.Proofs
end

section
/-!
The end of a step in a stop, and the settling of O7 (R75, R110, R378, R535): nothing that ends a step touches the cadence but the
release of the stop, which moves it on.
-/

namespace Sys2Proof.Proofs

open Sys2Proof.Machine Sys2Proof.Laws

variable {s t u : State}

theorem Paced.setAw (h : Paced s t) {d : Nat} {a : AwDieSt} : Paced s (t.setAw d a) := ⟨h.same⟩
theorem Paced.setStack (h : Paced s t) {d : Nat} {a : StackSt} : Paced s (t.setStack d a) := ⟨h.same⟩
theorem Paced.setLink (h : Paced s t) {d : Nat} {l : LinkDie} : Paced s (t.setLink d l) := ⟨h.same⟩
theorem Paced.setPort (h : Paced s t) {p : Nat} {x : PortSt} : Paced s (t.setPort p x) := ⟨h.same⟩
theorem Paced.setSeq (h : Paced s t) {v : Nat} {q : Seq} : Paced s (t.setSeq v q) := ⟨h.same⟩

/-! ### A step that ended early (R110, R249, R307) -/

theorem Paced.setLasting (h : Paced s t) (d g pos : Nat) : Paced s (setLasting t d g pos) := by
  unfold Machine.setLasting
  dsimp only
  split
  · exact h.setAw
  · split
    · exact .ite h.setAw h.setAw.raise
    · exact h.setAw

theorem Paced.releaseSets (h : Paced s t) (d : Nat) : Paced s (releaseSets d t) :=
  .foldl (fun _ _ h => .ite (h.raise.setLasting ..) h) _ h.setAw

theorem Paced.cancelAll (h : Paced s t) : Paced s (cancelAll t) :=
  .foldl (fun _ _ h => h.setQ.setQ) _ (.foldl (fun _ d h => h.releaseSets d) _ h)

theorem Paced.spoilRegion (h : Paced s t) (n : Nat) (g : Region) : Paced s (spoilRegion n t g) :=
  .foldl (fun _ _ h => h.setStack) _ h

theorem Paced.spoil (h : Paced s t) (r : Run) : Paced s (spoil t r) := by
  have scratch := Paced.foldl (f := fun s k => s.setMv k { s.mvOf k with scratch := [], fill := some (t.free + k), writes := [] })
    (fun _ _ h => h.setMv) (List.range 64) h
  have arrays := Paced.foldl (f := fun s k =>
      if typeOf k = 1 then s.setMat k { s.matOf k with acc := [], fill := some (t.free + 64 + k), effs := [] } else s)
    (fun _ _ h => .ite h.setMat h) (List.range 64) scratch
  have flows := Paced.foldl (f := fun s d => s.setLink d { s.linkOf d with buf := [], fill := some (t.free + 128 + d) })
    (fun _ _ h => h.setLink) (List.range 2) arrays
  exact ⟨(Paced.foldl (fun _ g h => h.spoilRegion (t.free + 130) g) _ flows).same⟩

/-! ### What is written of a step's end (R357 to R359, R479, R480, R538) -/

theorem Paced.hostWrite (h : Paced s t) {fn : Nat} {pasid : Option Nat} {a : W64} {b : Bytes} :
    Paced s (hostWrite t fn pasid a b) := by
  unfold Machine.hostWrite
  split
  · exact h
  · exact h.upd rfl

theorem Paced.logEntry (h : Paced s t) {kind step : Nat} {b : Bytes} : Paced s (logEntry t kind step b) := by
  unfold Machine.logEntry
  dsimp only
  split
  · split
    · refine Paced.hostWrite ?_
      exact h.upd rfl
    · refine Paced.raise (Paced.hostWrite ?_)
      exact h.upd rfl
  · exact h

theorem Paced.compareReplay (h : Paced s t) (r : Run) (e : Ending) (dig : Bytes) : Paced s (compareReplay t r e dig) := by
  unfold Machine.compareReplay
  split
  · split
    · exact h
    · refine Paced.raise ?_
      exact h.upd rfl
  · exact h

theorem pace_complete (s : State) (acc status detail : Nat) (r : Results) : pace (complete s acc status detail r) = pace s := by
  have frame := complete_frame s acc status detail r
  generalize complete s acc status detail r = t at frame
  exact (congrArg pace frame :)

theorem Paced.writeCompletion (h : Paced s t) (r : Run) (e : Ending) : Paced s (writeCompletion t r e) := by
  unfold Machine.writeCompletion
  refine Paced.upd ?_ (pace_complete ..)
  exact .ite h (.ite h.hostWrite.hostWrite h.hostWrite)

theorem Paced.stepSummary (h : Paced s t) (g : Nat) (r : Option Run) : Paced s (stepSummary t g r) :=
  h.logs (deliver_unlogged _ _)

theorem Paced.indeterminate (h : Paced s t) : Paced s (indeterminate t) :=
  .foldl (fun _ _ h => .foldl (fun _ _ h => h.raise) _ h) _ h

theorem Paced.queueFour (h : Paced s t) (p : Nat) (m : CtrlMsg) : Paced s (queueFour t p m) :=
  h.setPort.setPort.setPort.setPort

theorem Paced.flood (h : Paced s t) (ports : List Nat) (m : CtrlMsg) : Paced s (flood t ports m) :=
  .foldl (fun _ p h => h.queueFour p m) _ h

theorem Paced.floodHalfOut (h : Paced s t) (g : Nat) : Paced s (floodHalfOut t g) := by
  refine Paced.flood ?_ _ _
  exact h.upd rfl

theorem Paced.twinCompare (h : Paced s t) (own peer : TwinPkt) : Paced s (twinCompare t own peer) := by
  unfold Machine.twinCompare
  split
  · exact h
  · split
    · exact h.raise
    · exact .ite (h.raise.floodHalfOut _) h.raise

theorem Paced.twinMatch (h : Paced s t) : Paced s (twinMatch t) := by
  unfold Machine.twinMatch
  split
  · split
    · refine Paced.twinCompare ?_ _ _
      exact h.upd rfl
    · exact h
  · exact h

theorem Paced.sendTwin (h : Paced s t) (r : Run) (e : Ending) (dig : Bytes) : Paced s (sendTwin t r e dig) := by
  unfold Machine.sendTwin
  split
  · refine .ite (Paced.twinMatch ?_) h
    exact h.upd rfl
  · exact h

/-! ### The stop released (R378, R535) -/

/-- The device released from the stop that held it in `s`: the cadence has moved on by the length of the stop. -/
def Released (s t : State) : Prop :=
  t.stop.state = 0 ∧ t.chron = s.chron ∧
    t.cad = { s.cad with start := s.cad.start + (s.chron.count - s.stop.since)
                         sched := s.cad.sched + (s.chron.count - s.stop.since)
                         shift := s.cad.shift + (s.chron.count - s.stop.since) }

theorem releaseStop_released (h : Paced s t) : Released s (releaseStop t) := by
  have same := h.same
  simp only [pace, Prod.mk.injEq] at same
  obtain ⟨chron, cad, stop⟩ := same
  refine ⟨rfl, chron, ?_⟩
  rw [← chron, ← cad, ← stop]
  rfl

theorem Released.upd (h : Released s t) (same : pace u = pace t) : Released s u := by
  simp only [pace, Prod.mk.injEq] at same
  obtain ⟨chron, cad, stop⟩ := same
  rw [Released, chron, cad, stop]
  exact h

theorem Paced.disarm (h : Paced s t) : Paced s (disarm t) := by
  obtain ⟨ports, links, fabric, disarmed⟩ := disarm_fabric t
  rw [disarmed]
  exact h.upd rfl

theorem Paced.hubRelease (h : Paced s t) : Paced s (hubRelease t) := h.logs (hubDrain_logs _ (.refl _))

theorem Paced.idle (h : Paced s t) (vs : List Nat) : Paced s (vs.foldl (fun s v => s.setSeq v (s.seqOf v).idle) t) :=
  .foldl (fun _ _ h => h.setSeq) _ h

/-- What ends with a step in an ending stop that holds the device (R535). -/
theorem ended_released (h : Paced s t) (held : s.stop.state = 2) (ending : s.stop.ending = true) :
    Released s (if ¬ t.stop.ending then t else if t.stop.state = 2 then releaseStop t
      else { t with stop := { t.stop with state := 0, ending := false, causes := 0, held := 0 } }) := by
  have stop : t.stop = s.stop := congrArg (fun x => x.2.2) h.same
  rw [stop, if_neg (not_not_intro ending), if_pos held]
  exact releaseStop_released h

/-- A machine cleared of its step. -/
theorem Paced.cleared (h : Paced s t) :
    Paced s (Machine.hubRelease (Machine.disarm { t with run := none, queue := [], chan := [] })) := by
  refine Paced.hubRelease (Paced.disarm ?_)
  exact h.upd rfl

theorem clearRun_released (h : Paced s t) (held : s.stop.state = 2) (ending : s.stop.ending = true) : Released s (clearRun t) :=
  ended_released (h.idle (List.range 64)).cleared held ending

theorem pace_reportOverrun (s : State) (w : Nat × Nat × Nat) : pace (reportOverrun s w) = pace s := by
  unfold reportOverrun
  dsimp only
  split
  · exact eq_of_logs pace (fun _ _ => rfl) (raise_logs ..)
  · rfl

/-- The end of a step releases the ending stop that holds the device. -/
theorem completeEff_released (r : Run) (held : s.stop.state = 2) (ending : s.stop.ending = true) :
    Released s (completeEff r s) := by
  unfold completeEff
  extract_lets r e done marked dig logged written summed told
  have h₁ : Paced s done := .ite ((Paced.refl s).cancelAll.spoil r) (Paced.refl s).settleAll
  have h₂ : Paced s marked := h₁.logs (sendMark_unlogged ..)
  have h₃ : Paced s written := Paced.writeCompletion (Paced.compareReplay (h₂.logEntry.logEntry.logEntry) r e dig) r e
  have h₄ : Paced s summed := by
    dsimp only [summed]
    split
    · exact h₃.stepSummary _ _
    · exact h₃
  have h₅ : Paced s told := .ite h₄.indeterminate h₄
  clear_value told
  have released := clearRun_released (h₅.sendTwin r e dig) held ending
  generalize clearRun _ = w at released
  refine released.upd ?_
  exact (pace_reportOverrun ..).trans rfl

/-! ### What pauses in a stop (R378) -/

theorem stop_of_frameDue (due : s.frameDue = true) : s.stop.state ≠ 2 := by
  simp only [State.frameDue, Bool.and_eq_true, bne_iff_ne] at due
  exact due.1.1.2

theorem stop_of_fetchOpen {f : Nat} (opened : s.fetchOpen f = true) : s.stop.state ≠ 2 := by
  simp only [State.fetchOpen, Bool.and_eq_true, bne_iff_ne] at opened
  obtain ⟨⟨⟨⟨-, stop⟩, -⟩, -⟩, -⟩ := opened.1
  exact stop

/-- Settles O7: what pauses does not run in a stop, and only the release of the stop moves the cadence. -/
theorem cadencePausesInStop : Obligations.CadencePausesInStop := by
  refine fun s held => ⟨fun c mem => ?_, fun d => ⟨s, ?_, rfl⟩, fun resumable => ?_, fun r ending run done => ?_⟩
  · simp only [List.mem_cons, List.not_mem_nil, or_false] at mem
    obtain rfl | rfl | rfl | rfl := mem
    · exact ⟨s, if_neg fun due => (stop_of_frameDue due) held, rfl⟩
    · exact ⟨s, if_neg fun due => due.2.2.1 held, rfl⟩
    · exact ⟨s, if_neg fun due => due.2.1 held, rfl⟩
    · exact ⟨s, if_neg fun due => due.2.2.2.2.2.1 held, rfl⟩
  · show execDescriptorFetch d s = _
    unfold execDescriptorFetch
    split
    · split
      · exact if_neg fun opened => (stop_of_fetchOpen opened) held
      · rfl
    · rfl
  · exact ⟨_, act_next ⟨held, resumable⟩ _ _, releaseStop_released (.refl s)⟩
  · have completes : exec .stepComplete s = .next (completeEff r s) := by
      show execStepComplete s = _
      rw [execStepComplete, run]
      exact act_next done _ _
    exact ⟨_, completes, completeEff_released r held ending⟩

end Sys2Proof.Proofs
end
